-- ==== Sys2Proof/Word.lean ====
section
/-!
DEFINITION. The word types of the IX20 model and the kinds of number that name its units (R4, R6, R7).
-/

namespace Sys2Proof

/-- A byte. -/
abbrev Byte := BitVec 8
/-- A 64-bit register, descriptor or packet word. -/
abbrev W64 := BitVec 64
/-- A 128-bit instruction word (R187). -/
abbrev W128 := BitVec 128
/-- The bits of a binary32 value or of an I32 lane. -/
abbrev W32 := BitVec 32
/-- A core C000 to C159 (R6). -/
abbrev CoreId := Fin 160
/-- A section, stack, base-die controller or slice, 0 to 19 (R6, R404). -/
abbrev N20 := Fin 20
/-- A PCIe function: 0 is the PF, n + 1 the VF of slice n (R378). -/
abbrev FuncId := Fin 21
/-- A fabric port FABP0 to FABP7 (R337). -/
abbrev PortId := Fin 8
/-- A DXE stream 0 to 31 (R247). -/
abbrev StreamId := Fin 32

/-- The five engines of a core (R20), in the order of the engine masks of R392. -/
inductive EngId where
  | mxe | vxe | sxe | dxe | mle
deriving DecidableEq, Repr

/-- Bits hi down to lo of a bit vector, as a number (the bit ranges of R3). -/
def bits {n : Nat} (w : BitVec n) (hi lo : Nat) : Nat := (w.toNat >>> lo) % 2 ^ (hi + 1 - lo)

/-- Bit i of a bit vector. -/
def bit {n : Nat} (w : BitVec n) (i : Nat) : Bool := w.getLsbD i

/-- Bits hi down to lo read as a two's complement number. -/
def sbits {n : Nat} (w : BitVec n) (hi lo : Nat) : Int :=
  let v := bits w hi lo
  if v < 2 ^ (hi - lo) then (v : Int) else (v : Int) - (2 ^ (hi + 1 - lo) : Nat)

/-- Quotient rounded up; 0 for a divisor of 0. -/
def ceilDiv (a b : Nat) : Nat := (a + b - 1) / b

end Sys2Proof
end

