-- ==== Sys2Proof/Payload.lean ====
section
/-!
DEFINITION. The operand types of the commands: what a packet, a sample, a request or an event carries from outside.
-/

namespace Sys2Proof

/-- A 44-bit device address (R280). -/
abbrev W44 := BitVec 44

/-- What INSTRUCTION_RETIRE acts on: an executing instruction that retires, or the head of an engine's queue that a check of R171
skips. -/
inductive RetireOf where
  | inst (id : Nat)
  | skip (e : EngId)
deriving DecidableEq, Repr

/-- The kinds of memory access of R282 and R289. -/
inductive MemKind where
  | read | write | add | min | max | swap | cas
deriving DecidableEq, Repr

/-- What the controller finds when it reads a sector (R278, R295, R296). -/
inductive SectorFind where
  | clean | onDie | corrected | uncorrectable
deriving DecidableEq, Repr

/-- An access to a line of a stack as it reaches its ordering point (R282): kind, address, length, data (for CAS the expected and
then the new bytes of each element), element format code for the reductions (R288), poison of the data, whether the base die makes
it (R286), and what reading the sector finds. -/
structure MemReq where
  kind : MemKind
  addr : W44
  len : Nat
  data : List Byte
  fmt : Nat
  poison : Bool
  base : Bool
  found : SectorFind
deriving DecidableEq, Repr

/-- A stack or a port that recalibrates (R464). -/
inductive RecalUnit where
  | stack (n : N20)
  | port (p : PortId)
deriving DecidableEq, Repr

/-- Who writes a norm record (R334). -/
inductive NormSrc where
  | exchange
  | host (f : FuncId)
deriving DecidableEq, Repr

/-- A write to SYNC_HOST_ADDR that performs an operation: its value, and the remote operations in flight that reach the word in the same a-cycle
(R223, R232). -/
structure HostSync where
  v : BitVec 64
  rem : List Nat
deriving DecidableEq, Repr

/-- How long the drain of a pass waits for others: for each array, a-cycles for generator words while other cores of its section draw (R104),
and a-cycles for its stream's input buffer while that is full (R102; DESIGN CHOICE, log 107). -/
structure DrainWait where
  gen : List Nat
  buf : Nat
deriving DecidableEq, Repr

/-- An IFT packet as received: its bytes, the IPv6 address it came from (R365), and the length of the block or group of its last encoded
record, which the receiver knows and no header field tells (R357, R358; DESIGN CHOICE, log 29). -/
structure IftPacket where
  bytes : List Byte
  from_ : BitVec 128
  tail : Nat
deriving DecidableEq, Repr

/-- A receiving channel. -/
structure RxKey where
  slice : N20
  chan : Nat
  dev : BitVec 16
  src : BitVec 5
deriving DecidableEq, Repr

/-- A sending channel. -/
structure TxKey where
  slice : N20
  chan : Nat
  peer : Fin 8
deriving DecidableEq, Repr

/-- Why a frame is discarded (R337): its FCS fails, with the uncorrectable FEC codewords that it met, or its form. -/
inductive DiscardWhy where
  | fcs (uncorr : Nat) | notIpv6 | notUdp | reserved
deriving DecidableEq, Repr

/-- A PTP message as received (R345). -/
structure PtpMsg where
  domain : Byte
  time : BitVec 64
  offset : BitVec 32
  valid : Bool
deriving DecidableEq, Repr

/-- The configuration registers of a ring (R402). -/
inductive RingReg where
  | size | sq | cq
deriving DecidableEq, Repr

/-- A unit with a watchdog (R453, R455). -/
inductive WatchUnit where
  | bc (n : N20)
  | mp | sp
  | qs (q : Fin 4)
deriving DecidableEq, Repr

/-- The device-fatal causes of R455 that no other command brings about: an uncorrectable error in the state of the MP, the SP, the exchange unit
or the hub switch; the loss of lock of a clock, by the bit of CLK_STATE.LOCK and the die (0 to 3 quadrants, 4 hub; R457, R496). -/
inductive FatalCause where
  | mpState | spState | exchangeState | switchState
  | clockLoss (src : Fin 4) (die : Fin 5)
deriving DecidableEq, Repr

/-- A sample of the input and rail monitor (R475): the 48 V input in mV, and the eight rails from the 6 V bus to V1P8 in the order of the
table, in mV. -/
structure RailSample where
  vinMv : Nat
  rails : List Nat
deriving DecidableEq, Repr

/-- A sample of the thermal sensors (R480): junction sensors in tenths of a degree (64 of each quadrant, then 16 of the hub), the hottest DRAM
die of each stack in degrees, and the coolant in degrees (R484). -/
structure ThermSample where
  tj : List Nat
  dram : List Nat
  inlet : Nat
  outlet : Nat
deriving DecidableEq, Repr

/-- What the hub measures for a telemetry sample (R469): for each section its junction temperature, MB read and MB written; for each port MB
sent, MB received and FEC codewords corrected. -/
structure TeleSample where
  sections : List (List Nat)
  ports : List (List Nat)
deriving DecidableEq, Repr

/-- An MRAM record under wear management: the two copies of NEXT, MONO, BOOT_COUNT, ACT_COUNT, the archive head (R464). -/
inductive MramRec where
  | nextA | nextB | mono | boot | act | archiveHead
deriving DecidableEq, Repr

/-- Boundary cells of a SAMPLE/PRELOAD: what the pins show at its capture, and what is shifted in (R488). -/
structure ScanCells where
  captured : List Bool
  preload : List Bool
deriving DecidableEq, Repr

/-- How the I3C target takes a dynamic address (R487): SETDASA to a static address, or ENTDAA. -/
inductive I3cAssign where
  | setdasa (static addr : BitVec 7)
  | entdaa (addr : BitVec 7)
deriving DecidableEq, Repr

end Sys2Proof
end

