-- ==== Sys2Proof/Syntax.lean ====
section
/-!
DEFINITION. The commands of the block: one constructor per row of spec/opcode_table.json, in its order. Instruction rows name the
core (and, for the common operations, the engine) whose head instruction dispatches; the word itself is the one at the head of that
engine's queue. Host rows name the function that writes and the value written. Event rows name the unit and what it measured or
received.
-/

namespace Sys2Proof

/-- A command. Each constructor's rule is the one its row of spec/opcode_table.json names. -/
inductive Instr where
  /-- NOP (R194) -/
  | nop (c : CoreId) (e : EngId)
  /-- JMP (R154) -/
  | jmp (c : CoreId) (e : EngId)
  /-- JMPT (R154) -/
  | jmpt (c : CoreId) (e : EngId)
  /-- BANKSW (R156) -/
  | banksw (c : CoreId) (e : EngId)
  /-- BANKSW_BANK_CLOSED (R156) -/
  | bankswBankClosed (c : CoreId) (e : EngId)
  /-- ENG_LDLOAD (R160) -/
  | engLdload (c : CoreId) (e : EngId)
  /-- ENG_HALT (R194) -/
  | engHalt (c : CoreId) (e : EngId)
  /-- FILL (R220) -/
  | fill (c : CoreId) (e : EngId)
  /-- TAKE (R220) -/
  | take (c : CoreId) (e : EngId)
  /-- PEEK (R220) -/
  | peek (c : CoreId) (e : EngId)
  /-- DRAIN (R220) -/
  | drain (c : CoreId) (e : EngId)
  /-- SEM_ADD (R235) -/
  | semAdd (c : CoreId) (e : EngId)
  /-- SEM_SUB (R235) -/
  | semSub (c : CoreId) (e : EngId)
  /-- SEM_WAIT (R235) -/
  | semWait (c : CoreId) (e : EngId)
  /-- FE_OP_REACH_WORD (R223) -/
  | feOpReachWord (a : W44) (loc : Bool) (rem : List Nat)
  /-- REMOTE_VALUE_RETURN (R230) -/
  | remoteValueReturn (c : CoreId) (e : EngId)
  /-- SEM_OP_REACH_COUNTER (R237) -/
  | semOpReachCounter (c : CoreId) (ctr : Fin 256)
  /-- SYNC_WAIT_TIMEOUT (R234) -/
  | syncWaitTimeout (c : CoreId) (e : EngId)
  /-- MXE_WS (R85) -/
  | mxeWs (c : CoreId)
  /-- MXE_OS (R85) -/
  | mxeOs (c : CoreId)
  /-- MXE_IS (R85) -/
  | mxeIs (c : CoreId)
  /-- MXE_ALT (R116) -/
  | mxeAlt (c : CoreId)
  /-- MXE_TILE_STEP (R86) -/
  | mxeTileStep (c : CoreId) (id : Nat)
  /-- MXE_PASS_DRAIN (R97) -/
  | mxePassDrain (c : CoreId) (id : Nat) (others : DrainWait)
  /-- ALT_DW_DRAIN (R126) -/
  | altDwDrain (c : CoreId) (id : Nat)
  /-- VXE_ADD (R205) -/
  | vxeAdd (c : CoreId)
  /-- VXE_SUB (R205) -/
  | vxeSub (c : CoreId)
  /-- VXE_MUL (R205) -/
  | vxeMul (c : CoreId)
  /-- VXE_FMA (R205) -/
  | vxeFma (c : CoreId)
  /-- VXE_MAX (R205) -/
  | vxeMax (c : CoreId)
  /-- VXE_MIN (R205) -/
  | vxeMin (c : CoreId)
  /-- VXE_ABS (R205) -/
  | vxeAbs (c : CoreId)
  /-- VXE_NEG (R205) -/
  | vxeNeg (c : CoreId)
  /-- VXE_CMPLT (R205) -/
  | vxeCmplt (c : CoreId)
  /-- VXE_CMPLE (R205) -/
  | vxeCmple (c : CoreId)
  /-- VXE_CMPEQ (R205) -/
  | vxeCmpeq (c : CoreId)
  /-- VXE_CMPNE (R205) -/
  | vxeCmpne (c : CoreId)
  /-- VXE_SEL (R205) -/
  | vxeSel (c : CoreId)
  /-- VXE_AND (R205) -/
  | vxeAnd (c : CoreId)
  /-- VXE_OR (R205) -/
  | vxeOr (c : CoreId)
  /-- VXE_XOR (R205) -/
  | vxeXor (c : CoreId)
  /-- VXE_SHL (R205) -/
  | vxeShl (c : CoreId)
  /-- VXE_SHR (R205) -/
  | vxeShr (c : CoreId)
  /-- VXE_SAR (R205) -/
  | vxeSar (c : CoreId)
  /-- VXE_EXP (R206) -/
  | vxeExp (c : CoreId)
  /-- VXE_DIV (R205) -/
  | vxeDiv (c : CoreId)
  /-- VXE_SQRT (R205) -/
  | vxeSqrt (c : CoreId)
  /-- VXE_TEVAL (R133) -/
  | vxeTeval (c : CoreId)
  /-- VXE_CVT (R207) -/
  | vxeCvt (c : CoreId)
  /-- VXE_UNPK (R208) -/
  | vxeUnpk (c : CoreId)
  /-- VXE_REDADD (R205) -/
  | vxeRedadd (c : CoreId)
  /-- VXE_REDMAX (R205) -/
  | vxeRedmax (c : CoreId)
  /-- VXE_REDMIN (R205) -/
  | vxeRedmin (c : CoreId)
  /-- VXE_POPC (R205) -/
  | vxePopc (c : CoreId)
  /-- VXE_PERM (R205) -/
  | vxePerm (c : CoreId)
  /-- VXE_MOVI (R205) -/
  | vxeMovi (c : CoreId)
  /-- VXE_IOTA (R205) -/
  | vxeIota (c : CoreId)
  /-- VXE_LD (R209) -/
  | vxeLd (c : CoreId)
  /-- VXE_ST (R209) -/
  | vxeSt (c : CoreId)
  /-- VXE_TLOAD (R131) -/
  | vxeTload (c : CoreId)
  /-- VXE_TLOAD_COMPLETE (R209) -/
  | vxeTloadComplete (c : CoreId)
  /-- SXE_ADD (R211) -/
  | sxeAdd (c : CoreId)
  /-- SXE_SUB (R211) -/
  | sxeSub (c : CoreId)
  /-- SXE_MUL (R211) -/
  | sxeMul (c : CoreId)
  /-- SXE_AND (R211) -/
  | sxeAnd (c : CoreId)
  /-- SXE_OR (R211) -/
  | sxeOr (c : CoreId)
  /-- SXE_XOR (R211) -/
  | sxeXor (c : CoreId)
  /-- SXE_SHL (R211) -/
  | sxeShl (c : CoreId)
  /-- SXE_SHR (R211) -/
  | sxeShr (c : CoreId)
  /-- SXE_SAR (R211) -/
  | sxeSar (c : CoreId)
  /-- SXE_MIN (R211) -/
  | sxeMin (c : CoreId)
  /-- SXE_MAX (R211) -/
  | sxeMax (c : CoreId)
  /-- SXE_MINU (R211) -/
  | sxeMinu (c : CoreId)
  /-- SXE_MAXU (R211) -/
  | sxeMaxu (c : CoreId)
  /-- SXE_SLT (R211) -/
  | sxeSlt (c : CoreId)
  /-- SXE_SLTU (R211) -/
  | sxeSltu (c : CoreId)
  /-- SXE_ADDI (R211) -/
  | sxeAddi (c : CoreId)
  /-- SXE_LI (R211) -/
  | sxeLi (c : CoreId)
  /-- SXE_POPC (R211) -/
  | sxePopc (c : CoreId)
  /-- SXE_CLZ (R211) -/
  | sxeClz (c : CoreId)
  /-- SXE_CTZ (R211) -/
  | sxeCtz (c : CoreId)
  /-- SXE_LD (R212) -/
  | sxeLd (c : CoreId)
  /-- SXE_ST (R212) -/
  | sxeSt (c : CoreId)
  /-- SXE_BEQ (R213) -/
  | sxeBeq (c : CoreId)
  /-- SXE_BNE (R213) -/
  | sxeBne (c : CoreId)
  /-- SXE_BLT (R213) -/
  | sxeBlt (c : CoreId)
  /-- SXE_BGE (R213) -/
  | sxeBge (c : CoreId)
  /-- SXE_BLTU (R213) -/
  | sxeBltu (c : CoreId)
  /-- SXE_BGEU (R213) -/
  | sxeBgeu (c : CoreId)
  /-- SXE_IMCOPY (R213) -/
  | sxeImcopy (c : CoreId)
  /-- SXE_IMCOPY_COMPLETE (R213) -/
  | sxeImcopyComplete (c : CoreId)
  /-- REGISTER_RESULT_LAND (R168) -/
  | registerResultLand (c : CoreId) (e : EngId)
  /-- SCRATCHPAD_STORE_LAND (R209) -/
  | scratchpadStoreLand (c : CoreId) (e : EngId)
  /-- DXE_ISSUE (R214) -/
  | dxeIssue (c : CoreId)
  /-- STREAM_TASK_COMPLETE (R266) -/
  | streamTaskComplete (c : CoreId) (st : StreamId)
  /-- STREAM_TASK_FAULT (R269) -/
  | streamTaskFault (c : CoreId) (st : StreamId)
  /-- COMPLETION_RECORD_WRITE (R268) -/
  | completionRecordWrite (c : CoreId) (st : StreamId)
  /-- INSTRUCTION_RETIRE (R162) -/
  | instructionRetire (c : CoreId) (what : RetireOf)
  /-- MOULT_SELECT (R138) -/
  | moultSelect (c : CoreId)
  /-- MOULT_SCAN (R139) -/
  | moultScan (c : CoreId)
  /-- MOULT_PRUNE (R139) -/
  | moultPrune (c : CoreId)
  /-- MOULT_GROW (R139) -/
  | moultGrow (c : CoreId)
  /-- MOULT_SWAP (R140) -/
  | moultSwap (c : CoreId)
  /-- MOULT_RECOMPRESS (R141) -/
  | moultRecompress (c : CoreId)
  /-- MOULT_RESET_STATE (R141) -/
  | moultResetState (c : CoreId)
  /-- ENGINE_ENABLE (R177) -/
  | engineEnable (f : FuncId) (c : CoreId) (e : EngId) (v : W64)
  /-- ENGINE_DRAIN (R174) -/
  | engineDrain (f : FuncId) (c : CoreId) (e : EngId) (v : W64)
  /-- ENGINE_ABORT (R175) -/
  | engineAbort (f : FuncId) (c : CoreId) (e : EngId) (v : W64)
  /-- ENGINE_STEP (R177) -/
  | engineStep (f : FuncId) (c : CoreId) (e : EngId) (v : W64)
  /-- ENGINE_BANK_SELECT (R177) -/
  | engineBankSelect (f : FuncId) (c : CoreId) (e : EngId) (v : W64)
  /-- ENGINE_PC_WRITE (R181) -/
  | enginePcWrite (f : FuncId) (c : CoreId) (e : EngId) (v : W64)
  /-- IM_DATA_HI_WRITE (R184) -/
  | imDataHiWrite (f : FuncId) (c : CoreId) (e : EngId) (v : W64)
  /-- IM_DATA_HI_READ (R184) -/
  | imDataHiRead (f : FuncId) (c : CoreId) (e : EngId)
  /-- STREAM_ENABLE (R274) -/
  | streamEnable (f : FuncId) (c : CoreId) (v : W64)
  /-- STREAM_DRAIN (R271) -/
  | streamDrain (f : FuncId) (c : CoreId) (v : W64)
  /-- STREAM_ABORT (R271) -/
  | streamAbort (f : FuncId) (c : CoreId) (v : W64)
  /-- SYNC_HOST_FILL (R232) -/
  | syncHostFill (f : FuncId) (c : CoreId) (v : HostSync)
  /-- SYNC_HOST_DRAIN (R232) -/
  | syncHostDrain (f : FuncId) (c : CoreId) (v : HostSync)
  /-- SYNC_HOST_READ (R232) -/
  | syncHostRead (f : FuncId) (c : CoreId) (v : W64)
  /-- SEM_CNT_WRITE (R239) -/
  | semCntWrite (f : FuncId) (c : CoreId) (k : Fin 64) (v : W64)
  /-- SYNC_WIN_ENABLE (R228) -/
  | syncWinEnable (f : FuncId) (n : N20) (v : W64)
  /-- SYNC_WIN_DISABLE (R228) -/
  | syncWinDisable (f : FuncId) (n : N20) (v : W64)
  /-- SRNG_SEED_WRITE (R50) -/
  | srngSeedWrite (f : FuncId) (n : N20) (v : W64)
  /-- REGISTER_WRITE (R9) -/
  | registerWrite (f : FuncId) (off : BitVec 26) (len : Nat) (v : W64)
  /-- MEMORY_REQUEST_ARRIVE (R282) -/
  | memoryRequestArrive (q : MemReq)
  /-- HBM_REFRESH (R278) -/
  | hbmRefresh (n : N20)
  /-- DRAM_TEMP_UPDATE (R300) -/
  | dramTempUpdate (n : N20) (temp : Byte)
  /-- PATROL_SCRUB_READ (R465) -/
  | patrolScrubRead (n : N20) (found : SectorFind) (intervened : Bool)
  /-- HBM_PHY_RECAL (R466) -/
  | hbmPhyRecal (n : N20)
  /-- HBM_RECAL_END (R467) -/
  | hbmRecalEnd (n : N20) (ok : Bool)
  /-- SERDES_RECAL (R464) -/
  | serdesRecal (p : PortId) (ok : Bool)
  /-- RECAL_OVERDUE (R468) -/
  | recalOverdue (u : RecalUnit)
  /-- RECAL_FORCED (R468) -/
  | recalForced (u : RecalUnit)
  /-- UPDATE_ENABLE (R327) -/
  | updateEnable (f : FuncId) (n : N20) (v : W64)
  /-- UPDATE_DRAIN (R327) -/
  | updateDrain (f : FuncId) (n : N20) (v : W64)
  /-- UPDATE_ABORT (R327) -/
  | updateAbort (f : FuncId) (n : N20) (v : W64)
  /-- BUU_GRAD_WORD_TAKEN (R319) -/
  | buuGradWordTaken (n : N20)
  /-- BUU_SPAN (R314) -/
  | buuSpan (n : N20)
  /-- BUU_PASS1_END (R319) -/
  | buuPass1End (n : N20)
  /-- NORM_RECORD_WRITE (R334) -/
  | normRecordWrite (src : NormSrc) (n : N20) (v : W64)
  /-- BUU_PASS2_PROGRAM (R319) -/
  | buuPass2Program (n : N20)
  /-- BUU_PROGRAM_DONE (R320) -/
  | buuProgramDone (n : N20)
  /-- DOORBELL_TAKE (R354) -/
  | doorbellTake (sl : N20)
  /-- EXCHANGE_START (R352) -/
  | exchangeStart (sl : N20)
  /-- EXCHANGE_COMPLETE (R360) -/
  | exchangeComplete (sl : N20)
  /-- IFT_DATA_RECEIVE (R341) -/
  | iftDataReceive (p : PortId) (pkt : IftPacket)
  /-- PACKET_LAND (R343) -/
  | packetLand (rx : RxKey)
  /-- ACK_TIMER (R342) -/
  | ackTimer (rx : RxKey)
  /-- IFT_ACK_RECEIVE (R342) -/
  | iftAckReceive (p : PortId) (pkt : IftPacket)
  /-- RETRANSMIT_TIMEOUT (R342) -/
  | retransmitTimeout (tx : TxKey) (seq : BitVec 32)
  /-- KEEPALIVE_ACK (R366) -/
  | keepaliveAck (sl : N20) (peer : Fin 8)
  /-- PEER_SILENT (R366) -/
  | peerSilent (sl : N20) (peer : Fin 8)
  /-- PROBE (R365) -/
  | probe (p : PortId) (pkt : IftPacket)
  /-- PLAN (R353) -/
  | plan (p : PortId) (pkt : IftPacket)
  /-- PLAN_APPLY (R353) -/
  | planApply (sl : N20)
  /-- NORMSUM_SEND (R363) -/
  | normsumSend (sl : N20)
  /-- NORMSUM (R363) -/
  | normsum (p : PortId) (pkt : IftPacket)
  /-- NORMREC (R363) -/
  | normrec (p : PortId) (pkt : IftPacket)
  /-- FRAME_DISCARD (R337) -/
  | frameDiscard (p : PortId) (why : DiscardWhy)
  /-- PTP_MESSAGE_RECEIVE (R345) -/
  | ptpMessageReceive (p : PortId) (msg : PtpMsg)
  /-- PTP_SYNC_LOSS (R346) -/
  | ptpSyncLoss
  /-- HOLDOVER_TIMEOUT (R346) -/
  | holdoverTimeout
  /-- CHORUS_TICK (R348) -/
  | chorusTick
  /-- CHORUS_SLOT_START (R352) -/
  | chorusSlotStart
  /-- TIMEBASE_ENABLE (R375) -/
  | timebaseEnable (f : FuncId) (v : W64)
  /-- TIMEBASE_DISABLE (R346) -/
  | timebaseDisable (f : FuncId) (v : W64)
  /-- PORT_ENABLE (R376) -/
  | portEnable (f : FuncId) (p : PortId) (v : W64)
  /-- PORT_DRAIN (R369) -/
  | portDrain (f : FuncId) (p : PortId) (v : W64)
  /-- PORT_ABORT (R369) -/
  | portAbort (f : FuncId) (p : PortId) (v : W64)
  /-- PORT_LINK_UP (R337) -/
  | portLinkUp (p : PortId)
  /-- PORT_LINK_DOWN (R467) -/
  | portLinkDown (p : PortId)
  /-- CABLE_PRESENCE_CHANGE (R489) -/
  | cablePresenceChange (p : PortId) (present : Bool)
  /-- FABRIC_QUOTA_INTERVAL (R462) -/
  | fabricQuotaInterval (sl : N20) (late : Nat)
  /-- SQ_DOORBELL (R383) -/
  | sqDoorbell (f : FuncId) (r : Fin 4) (v : W64)
  /-- CQ_DOORBELL (R383) -/
  | cqDoorbell (f : FuncId) (r : Fin 4) (v : W64)
  /-- PACKET_TAKE (R384) -/
  | packetTake (f : FuncId) (r : Fin 4) (fetched : Option (List Byte))
  /-- PROGRESS_REPLY (R389) -/
  | progressReply (id : Nat) (done : Nat)
  /-- RING_ENABLE (R402) -/
  | ringEnable (f : FuncId) (r : Fin 4) (v : W64)
  /-- RING_DRAIN (R391) -/
  | ringDrain (f : FuncId) (r : Fin 4) (v : W64)
  /-- RING_ABORT (R391) -/
  | ringAbort (f : FuncId) (r : Fin 4) (v : W64) (pkts : List (List Byte))
  /-- RING_CONFIG_WRITE (R391) -/
  | ringConfigWrite (f : FuncId) (r : Fin 4) (reg : RingReg) (v : W64)
  /-- PING (R392) -/
  | ping (id : Nat)
  /-- OPEN_SLICE (R393) -/
  | openSlice (id : Nat)
  /-- CLOSE_SLICE (R393) -/
  | closeSlice (id : Nat)
  /-- SCRUB_SLICE (R393) -/
  | scrubSlice (id : Nat)
  /-- SLICE_SCRUB_COMPLETE (R299) -/
  | sliceScrubComplete (n : N20)
  /-- QUERY_SLICE (R392) -/
  | querySlice (id : Nat)
  /-- LOAD_PROGRAM (R393) -/
  | loadProgram (id : Nat) (fetched : Option (List Byte))
  /-- START_ENGINES (R393) -/
  | startEngines (id : Nat)
  /-- STOP_ENGINES (R393) -/
  | stopEngines (id : Nat)
  /-- SET_CLUTCH (R350) -/
  | setClutch (id : Nat)
  /-- SCHEDULE_MOULT (R393) -/
  | scheduleMoult (id : Nat)
  /-- RETIRE_PAGE (R297) -/
  | retirePage (id : Nat)
  /-- KEY_DELIVER (R416) -/
  | keyDeliver (id : Nat) (fetched : Option (List Byte))
  /-- QUOTE (R422) -/
  | quote (id : Nat) (fetched : Option (List Byte))
  /-- QUOTE_BATCH_CLOSE (R426) -/
  | quoteBatchClose
  /-- CONFIRM_SIGN (R420) -/
  | confirmSign (id : Nat)
  /-- SIGN_CONFIRM_TIMEOUT (R420) -/
  | signConfirmTimeout
  /-- QUERY_BUDGET (R392) -/
  | queryBudget (id : Nat)
  /-- SET_QUOTA (R396) -/
  | setQuota (id : Nat)
  /-- UPDATE_FIRMWARE (R441) -/
  | updateFirmware (id : Nat)
  /-- ACTIVATE_FIRMWARE (R443) -/
  | activateFirmware (id : Nat)
  /-- PROCESSOR_SWAP (R443) -/
  | processorSwap
  /-- HEALTH_OK (R443) -/
  | healthOk
  /-- FIRMWARE_REVERT (R446) -/
  | firmwareRevert
  /-- BOOT_ACTIVATION_TIMEOUT (R448) -/
  | bootActivationTimeout
  /-- READ_TELEMETRY (R469) -/
  | readTelemetry (id : Nat)
  /-- READ_LOG (R460) -/
  | readLog (id : Nat)
  /-- SET_POWER_CAP (R482) -/
  | setPowerCap (id : Nat)
  /-- JOB_END (R394) -/
  | jobEnd (n : N20) (cause : Nat)
  /-- JOB_END_COMPLETE (R394) -/
  | jobEndComplete (n : N20)
  /-- EVENT_RECORD_ARRIVE (R459) -/
  | eventRecordArrive (soon : Bool)
  /-- WATCHDOG_EXPIRY (R453) -/
  | watchdogExpiry (u : WatchUnit)
  /-- DEVICE_FATAL_FAULT (R455) -/
  | deviceFatalFault (cause : FatalCause)
  /-- VF_FLR (R380) -/
  | vfFlr (n : N20)
  /-- PF_FLR (R380) -/
  | pfFlr
  /-- PERST_ASSERT (R434) -/
  | perstAssert
  /-- PCIE_LINK_UP (R378) -/
  | pcieLinkUp (width : Fin 17) (speed : Fin 7)
  /-- BAR2_READ (R382) -/
  | bar2Read (f : FuncId) (off : BitVec 36) (len : Nat) (soon : Bool)
  /-- BAR2_WRITE (R382) -/
  | bar2Write (f : FuncId) (off : BitVec 36) (data : List Byte) (poisoned : Bool) (soon : Bool)
  /-- WARM_RESET (R434) -/
  | warmReset (f : FuncId) (v : W64)
  /-- RESET_PIN_ASSERT (R486) -/
  | resetPinAssert
  /-- POWER_ON_RESET_RELEASE (R473) -/
  | powerOnResetRelease
  /-- AUX_INPUT_LOSS (R474) -/
  | auxInputLoss
  /-- BOOT_ROM (R435) -/
  | bootRom
  /-- STAGE1_START (R435) -/
  | stage1Start
  /-- HBM_STACK_TRAINING_DONE (R435) -/
  | hbmStackTrainingDone (n : N20) (ok : Bool) (temp : Byte)
  /-- BOOT_PARTITION_LOCK (R435) -/
  | bootPartitionLock
  /-- PROT_LOCK_WRITE (R406) -/
  | protLockWrite (v : W64)
  /-- BOOT_READY (R435) -/
  | bootReady
  /-- SESSION_TREE_GENERATED (R421) -/
  | sessionTreeGenerated
  /-- NEXT_PARTITION_WRITE (R407) -/
  | nextPartitionWrite (f : FuncId) (off : BitVec 26) (v : W64)
  /-- RAIL_MONITOR_SAMPLE (R475) -/
  | railMonitorSample (x : RailSample)
  /-- DIP_END (R476) -/
  | dipEnd
  /-- THERMAL_SAMPLE (R480) -/
  | thermalSample (x : ThermSample)
  /-- THERMAL_CONTROL_STEP (R480) -/
  | thermalControlStep
  /-- THERMAL_RESET_RELEASE (R485) -/
  | thermalResetRelease
  /-- POWER_CONTROL_INTERVAL (R481) -/
  | powerControlInterval (watts : Nat)
  /-- ACLK_CHANGE (R479) -/
  | aclkChange
  /-- VIN_MIN_CLEAR (R494) -/
  | vinMinClear (f : FuncId) (v : W64)
  /-- COOLANT_INLET_NOTICE (R484) -/
  | coolantInletNotice
  /-- TELEMETRY_SAMPLE (R464) -/
  | telemetrySample (x : TeleSample)
  /-- THERMAL_SENSOR_CALIBRATION (R464) -/
  | thermalSensorCalibration (die : Fin 5)
  /-- FLASH_SLOT_ERASE (R464) -/
  | flashSlotErase (slot : Fin 2)
  /-- MRAM_WEAR_MOVE (R464) -/
  | mramWearMove (rec : MramRec)
  /-- I3C_DYNAMIC_ADDRESS (R487) -/
  | i3cDynamicAddress (x : I3cAssign)
  /-- I3C_PRIVATE_READ (R487) -/
  | i3cPrivateRead (off : Byte)
  /-- I3C_THERMTRIP_CLEAR (R487) -/
  | i3cThermtripClear (data : Byte)
  /-- JTAG_BYPASS (R488) -/
  | jtagBypass
  /-- JTAG_IDCODE (R488) -/
  | jtagIdcode
  /-- JTAG_SAMPLE_PRELOAD (R488) -/
  | jtagSamplePreload (cells : ScanCells)
  /-- JTAG_EXTEST (R488) -/
  | jtagExtest
  /-- TEST_LOGIC_RESET (R488) -/
  | testLogicReset
  /-- HUSK_BLOCK_PROGRAMMED (R441) -/
  | huskBlockProgrammed (block : Option (List Byte))
  /-- SLOT_VERIFICATION_END (R441) -/
  | slotVerificationEnd
  /-- BAR0_MISALIGNED_READ (R381) -/
  | bar0MisalignedRead (f : FuncId) (off : BitVec 26) (len : Nat)
deriving DecidableEq, Repr

end Sys2Proof
end

