-- ==== Sys2Proof/WellFormed.lean ====
section
/-!
DEFINITION. Well-formed commands: what the outside world can send. Every command has a meaning, well formed or not; these checks say which of
them stand for something that can happen on the links and in the sensors of the device.
-/

namespace Sys2Proof

/-- An access within one line: 1 to 64 bytes (R282), with one data byte a byte written, and for CAS two. -/
def MemReq.wf (q : MemReq) : Bool :=
  decide (1 ≤ q.len) && decide (q.addr.toNat % 64 + q.len ≤ 64) &&
    (match q.kind with
     | .read => q.data.isEmpty
     | .cas => q.data.length == 2 * q.len
     | _ => q.data.length == q.len)

/-- An IFT packet: a header of 48 bytes and a payload of at most 4,096 (R340). -/
def IftPacket.wf (k : IftPacket) : Bool := decide (48 ≤ k.bytes.length) && decide (k.bytes.length ≤ 4144)

/-- The monitor samples eight rails (R475). -/
def RailSample.wf (x : RailSample) : Bool := x.rails.length == 8

/-- 64 junction sensors in each of four quadrants and 16 in the hub; one DRAM reading a stack (R480). -/
def ThermSample.wf (x : ThermSample) : Bool := x.tj.length == 272 && x.dram.length == 20

/-- Three measures a section, three a port (R469). -/
def TeleSample.wf (x : TeleSample) : Bool :=
  x.sections.length == 20 && x.sections.all (fun m => m.length == 3) && x.ports.length == 8 && x.ports.all fun m => m.length == 3

/-- Every slice has sixteen channels (R340). -/
def RxKey.wf (k : RxKey) : Bool := decide (k.chan < 16)
/-- Every slice has sixteen channels (R340). -/
def TxKey.wf (k : TxKey) : Bool := decide (k.chan < 16)

/-- Bytes fetched from the host's memory, of a given number; none where the fetch failed. -/
def fetchedWf (n : Nat) : Option (List Byte) → Bool
  | some b => b.length == n
  | none => true

/-- The well-formed commands. -/
def Instr.wf : Instr → Bool
  | .memoryRequestArrive q => q.wf
  | .iftDataReceive _ k => k.wf
  | .iftAckReceive _ k => k.wf
  | .probe _ k => k.wf
  | .plan _ k => k.wf
  | .normsum _ k => k.wf
  | .normrec _ k => k.wf
  | .packetLand rx => rx.wf
  | .ackTimer rx => rx.wf
  | .retransmitTimeout tx _ => tx.wf
  | .packetTake _ _ b => fetchedWf 64 b
  | .ringAbort _ _ _ ps => ps.all fun b => b.length == 64
  | .huskBlockProgrammed b => fetchedWf 65536 b
  | .railMonitorSample x => x.wf
  | .thermalSample x => x.wf
  | .telemetrySample x => x.wf
  | .registerWrite _ _ len _ => decide (1 ≤ len)
  | .bar2Read _ _ len _ => decide (1 ≤ len)
  | .bar2Write _ _ data _ _ => !data.isEmpty
  | .bar0MisalignedRead _ off len => decide (1 ≤ len) && !(len == 8 && off.toNat % 8 == 0)
  | .nextPartitionWrite _ off _ => off.toNat % 8 == 0
  | .nop _ _ | .jmp _ _ | .jmpt _ _ | .banksw _ _ | .bankswBankClosed _ _ | .engLdload _ _ | .engHalt _ _ | .fill _ _ | .take _ _
  | .peek _ _ | .drain _ _ | .semAdd _ _ | .semSub _ _ | .semWait _ _ | .feOpReachWord _ _ _ | .remoteValueReturn _ _
  | .semOpReachCounter _ _ | .syncWaitTimeout _ _ | .mxeWs _ | .mxeOs _ | .mxeIs _ | .mxeAlt _ | .mxeTileStep _ _
  | .mxePassDrain _ _ _ | .altDwDrain _ _ | .vxeAdd _ | .vxeSub _ | .vxeMul _ | .vxeFma _ | .vxeMax _ | .vxeMin _ | .vxeAbs _
  | .vxeNeg _ | .vxeCmplt _ | .vxeCmple _ | .vxeCmpeq _ | .vxeCmpne _ | .vxeSel _ | .vxeAnd _ | .vxeOr _ | .vxeXor _ | .vxeShl _
  | .vxeShr _ | .vxeSar _ | .vxeExp _ | .vxeDiv _ | .vxeSqrt _ | .vxeTeval _ | .vxeCvt _ | .vxeUnpk _ | .vxeRedadd _
  | .vxeRedmax _ | .vxeRedmin _ | .vxePopc _ | .vxePerm _ | .vxeMovi _ | .vxeIota _ | .vxeLd _ | .vxeSt _ | .vxeTload _
  | .vxeTloadComplete _ | .sxeAdd _ | .sxeSub _ | .sxeMul _ | .sxeAnd _ | .sxeOr _ | .sxeXor _ | .sxeShl _ | .sxeShr _
  | .sxeSar _ | .sxeMin _ | .sxeMax _ | .sxeMinu _ | .sxeMaxu _ | .sxeSlt _ | .sxeSltu _ | .sxeAddi _ | .sxeLi _ | .sxePopc _
  | .sxeClz _ | .sxeCtz _ | .sxeLd _ | .sxeSt _ | .sxeBeq _ | .sxeBne _ | .sxeBlt _ | .sxeBge _ | .sxeBltu _ | .sxeBgeu _
  | .sxeImcopy _ | .sxeImcopyComplete _ | .registerResultLand _ _ | .scratchpadStoreLand _ _ | .dxeIssue _
  | .streamTaskComplete _ _ | .streamTaskFault _ _ | .completionRecordWrite _ _ | .instructionRetire _ _ | .moultSelect _
  | .moultScan _ | .moultPrune _ | .moultGrow _ | .moultSwap _ | .moultRecompress _ | .moultResetState _ | .engineEnable _ _ _ _
  | .engineDrain _ _ _ _ | .engineAbort _ _ _ _ | .engineStep _ _ _ _ | .engineBankSelect _ _ _ _ | .enginePcWrite _ _ _ _
  | .imDataHiWrite _ _ _ _ | .imDataHiRead _ _ _ | .streamEnable _ _ _ | .streamDrain _ _ _ | .streamAbort _ _ _
  | .syncHostFill _ _ _ | .syncHostDrain _ _ _ | .syncHostRead _ _ _ | .semCntWrite _ _ _ _ | .syncWinEnable _ _ _
  | .syncWinDisable _ _ _ | .srngSeedWrite _ _ _ | .hbmRefresh _ | .dramTempUpdate _ _ | .patrolScrubRead _ _ _ | .hbmPhyRecal _
  | .hbmRecalEnd _ _ | .serdesRecal _ _ | .recalOverdue _ | .recalForced _ | .updateEnable _ _ _ | .updateDrain _ _ _
  | .updateAbort _ _ _ | .buuGradWordTaken _ | .buuSpan _ | .buuPass1End _ | .normRecordWrite _ _ _ | .buuPass2Program _
  | .buuProgramDone _ | .doorbellTake _ | .exchangeStart _ | .exchangeComplete _ | .keepaliveAck _ _ | .peerSilent _ _
  | .planApply _ | .normsumSend _ | .frameDiscard _ _ | .ptpMessageReceive _ _ | .ptpSyncLoss | .holdoverTimeout | .chorusTick
  | .chorusSlotStart | .timebaseEnable _ _ | .timebaseDisable _ _ | .portEnable _ _ _ | .portDrain _ _ _ | .portAbort _ _ _
  | .portLinkUp _ | .portLinkDown _ | .cablePresenceChange _ _ | .fabricQuotaInterval _ _ | .sqDoorbell _ _ _ | .cqDoorbell _ _ _
  | .progressReply _ _ | .ringEnable _ _ _ | .ringDrain _ _ _ | .ringConfigWrite _ _ _ _ | .ping _ | .openSlice _ | .closeSlice _
  | .scrubSlice _ | .sliceScrubComplete _ | .querySlice _ | .loadProgram _ _ | .startEngines _ | .stopEngines _ | .setClutch _
  | .scheduleMoult _ | .retirePage _ | .keyDeliver _ _ | .quote _ _ | .quoteBatchClose | .confirmSign _ | .signConfirmTimeout
  | .queryBudget _ | .setQuota _ | .updateFirmware _ | .activateFirmware _ | .processorSwap | .healthOk | .firmwareRevert
  | .bootActivationTimeout | .readTelemetry _ | .readLog _ | .setPowerCap _ | .jobEnd _ _ | .jobEndComplete _
  | .eventRecordArrive _ | .watchdogExpiry _ | .deviceFatalFault _ | .vfFlr _ | .pfFlr | .perstAssert | .pcieLinkUp _ _
  | .warmReset _ _ | .resetPinAssert | .powerOnResetRelease | .auxInputLoss | .bootRom | .stage1Start
  | .hbmStackTrainingDone _ _ _ | .bootPartitionLock | .protLockWrite _ | .bootReady | .sessionTreeGenerated | .dipEnd
  | .thermalControlStep | .thermalResetRelease | .powerControlInterval _ | .aclkChange | .vinMinClear _ _ | .coolantInletNotice
  | .thermalSensorCalibration _ | .flashSlotErase _ | .mramWearMove _ | .i3cDynamicAddress _ | .i3cPrivateRead _
  | .i3cThermtripClear _ | .jtagBypass | .jtagIdcode | .jtagSamplePreload _ | .jtagExtest | .testLogicReset
  | .slotVerificationEnd => true

end Sys2Proof
end

