-- ==== Sys2Proof/Decode.lean ====
section
/-!
DEFINITION. The words of the opcode table. The block's table gives no row any bits: a command is an event or a register access, and no word
spells it.
-/

namespace Sys2Proof

/-- The command that a word of the table spells: none, since no row of the table gives bits. -/
def decodeTableWord (_nbits _w : Nat) : Option Instr := none

end Sys2Proof
end

