-- ==== Sys2Proof/Config.lean ====
section
/-!
DEFINITION. What the spec leaves open or names by an outside standard: free values and uninterpreted functions.
Every constant here is opaque: nothing in Lean can evaluate it, so a claim holds whatever it is.
-/

namespace Sys2Proof.Config

/-- A free value drawn by the counter State.freeCtr: a value the spec leaves open (DESIGN CHOICE, log 3). -/
opaque freeValue : Nat → BitVec 64

/-- The cache set of a line of a stack, by device address / 64: the spec hides it from software (R285; DESIGN CHOICE, log 89). -/
opaque cacheSet : Nat → Nat

/-- SHA-256 of a byte string (R418 to R440), left uninterpreted (DESIGN CHOICE, log 20). -/
opaque sha256 : List (BitVec 8) → List (BitVec 8)

/-- HMAC-SHA-256 with a key and a message (R422). -/
opaque hmacSha256 : List (BitVec 8) → List (BitVec 8) → List (BitVec 8)

/-- HKDF-SHA-256 with salt, input key, info and length (R416). -/
opaque hkdfSha256 : List (BitVec 8) → List (BitVec 8) → List (BitVec 8) → Nat → List (BitVec 8)

/-- ML-KEM-1024 key generation from entropy draw n: encapsulation key and decapsulation key (R415). -/
opaque kemKeyGen : Nat → List (BitVec 8) × List (BitVec 8)

/-- ML-KEM.Decaps with a decapsulation key and a ciphertext (R416). -/
opaque kemDecaps : List (BitVec 8) → List (BitVec 8) → List (BitVec 8)

/-- Draw n of the SP's random generator: a 64-byte device key (R414). -/
opaque drbgKey : Nat → List (BitVec 8)

/-- The identity public key of this device (R417). -/
opaque identityPub : List (BitVec 8)

/-- The HSS identity signature of a message with leaf number n (R419). -/
opaque hssSign : Nat → List (BitVec 8) → List (BitVec 8)

/-- Verification of an HSS signature: public key, message, signature (R439). -/
opaque hssVerify : List (BitVec 8) → List (BitVec 8) → List (BitVec 8) → Bool

/-- The public key of the session tree of boot number n (R421). -/
opaque sessionPub : Nat → List (BitVec 8)

/-- The LMS signature by the session tree of boot b with leaf n over a message (R426). -/
opaque lmsSign : Nat → Nat → List (BitVec 8) → List (BitVec 8)

/-- The blocks of the husk with which the device leaves manufacture, in slot 0 (R435; DESIGN CHOICE, log 11). -/
opaque factoryHusk : List (List (BitVec 8))

/-- The fused SHA-256 of the vendor's public key (R435, R439). -/
opaque fusedVendorHash : List (BitVec 8)

/-- AES key unwrap under the fused device class key (R439). -/
opaque unwrapKey : List (BitVec 8) → Option (List (BitVec 8))

/-- AES-256-GCM decryption: key, vector, additional data, ciphertext, tag; none when the tag fails (R440). -/
opaque gcmOpen : List (BitVec 8) → List (BitVec 8) → List (BitVec 8) → List (BitVec 8) → List (BitVec 8) → Option (List (BitVec 8))

/-- AES-256-XTS encryption of one 64-byte sector under a 64-byte key with its tweak (R413). -/
opaque xtsEncrypt : List (BitVec 8) → Nat → List (BitVec 8) → List (BitVec 8)

/-- AES-256-XTS decryption of one 64-byte sector under a 64-byte key with its tweak (R413). -/
opaque xtsDecrypt : List (BitVec 8) → Nat → List (BitVec 8) → List (BitVec 8)

/-- The silicon version of the IDCODE (R488). -/
opaque siliconVersion : BitVec 4

/-- Utgoja's JEDEC manufacturer code in the IDCODE (R488). -/
opaque jedecCode : BitVec 11

end Sys2Proof.Config
end

