-- ==== Sys2Proof/Machine/Status.lean ====
section
/-!
DEFINITION. The status codes of R398 with their encodings.
-/

namespace Sys2Proof.Machine

/-- The status codes of the table of R398, in its order. -/
inductive Status where
  | ok | inProgress | badOpcode | badSlice | notPermitted | sliceBusy | sliceState | hostDma | ringDoorbell | notMaster | clutchActive
  | illegalOpcode | loopDesc | inconsistent | align | region | bankBusy | engineBusy | imemUncorrectable | lateRead | aborted | regPoison
  | overlap | operandRange | malformedOperand | pbOverfull | descPoison | handoffStall | address | protection
  | feOverflow | syncPoison | syncTarget | syncBusy | syncTimeout | semOverflow | semUnderflow
  | memUncorrectable | retireListFull
  | updateProgram | updatePoison | normNonfinite | normStale | moultPoison
  | peerSilent | planLate
  | overQuota | budgetLow | signRefused | keyInvalid | confirmMismatch
  | incompatible | huskInvalid | slotBusy | reverted
  | jobLost
deriving DecidableEq, Repr

/-- The 16-bit encoding of a status code (R398). -/
def stCode : Status → Nat
  | .ok => 0x0000 | .inProgress => 0x0101 | .badOpcode => 0x0102 | .badSlice => 0x0103 | .notPermitted => 0x0104
  | .sliceBusy => 0x0105 | .sliceState => 0x0106 | .hostDma => 0x0107 | .ringDoorbell => 0x0108 | .notMaster => 0x0109
  | .clutchActive => 0x010A
  | .illegalOpcode => 0x0201 | .loopDesc => 0x0202 | .inconsistent => 0x0203 | .align => 0x0204 | .region => 0x0205
  | .bankBusy => 0x0206 | .engineBusy => 0x0207 | .imemUncorrectable => 0x0208 | .lateRead => 0x0209 | .aborted => 0x020A
  | .regPoison => 0x020B
  | .overlap => 0x0301 | .operandRange => 0x0302 | .malformedOperand => 0x0303 | .pbOverfull => 0x0304 | .descPoison => 0x0305
  | .handoffStall => 0x0306 | .address => 0x0307 | .protection => 0x0308
  | .feOverflow => 0x0401 | .syncPoison => 0x0402 | .syncTarget => 0x0403 | .syncBusy => 0x0404 | .syncTimeout => 0x0405
  | .semOverflow => 0x0406 | .semUnderflow => 0x0407
  | .memUncorrectable => 0x0501 | .retireListFull => 0x0502
  | .updateProgram => 0x0601 | .updatePoison => 0x0602 | .normNonfinite => 0x0603 | .normStale => 0x0604 | .moultPoison => 0x0605
  | .peerSilent => 0x0701 | .planLate => 0x0702
  | .overQuota => 0x0801 | .budgetLow => 0x0802 | .signRefused => 0x0803 | .keyInvalid => 0x0804 | .confirmMismatch => 0x0805
  | .incompatible => 0x0901 | .huskInvalid => 0x0902 | .slotBusy => 0x0903 | .reverted => 0x0904
  | .jobLost => 0x0A01

end Sys2Proof.Machine
end

