-- ==== Sys2Proof/Machine/Num.lean ====
section
/-!
DEFINITION. The number formats and arithmetic rules of spec/02_number_formats.md (R33 to R54): exact dyadic values,
one rounding function, conversions, F32 arithmetic, block scaling and the device exponential.
-/

namespace Sys2Proof.Machine

/-- The element formats, in the order of OUT_FMT of R98. -/
inductive NumFmt where
  | f32 | bf16 | f16 | f8e | f8w | f4 | i32 | i8 | u8 | i4 | u4
deriving DecidableEq, Repr

/-- OUT_FMT codes 0 to 10 (R98); the rest are reserved. -/
def NumFmt.ofCode (n : Nat) : Option NumFmt :=
  match n with
  | 0 => some .f32 | 1 => some .bf16 | 2 => some .f16 | 3 => some .f8e | 4 => some .f8w | 5 => some .f4
  | 6 => some .i32 | 7 => some .i8 | 8 => some .u8 | 9 => some .i4 | 10 => some .u4
  | _ => none

/-- Width of an element in bits (R33). -/
def NumFmt.width : NumFmt → Nat
  | .f32 => 32 | .bf16 => 16 | .f16 => 16 | .f8e => 8 | .f8w => 8 | .f4 => 4
  | .i32 => 32 | .i8 => 8 | .u8 => 8 | .i4 => 4 | .u4 => 4

/-- True for the float formats. -/
def NumFmt.isFloat : NumFmt → Bool
  | .f32 | .bf16 | .f16 | .f8e | .f8w | .f4 => true
  | _ => false

/-- Fraction bits of a float format (R33); 0 for integers. -/
def NumFmt.mbits : NumFmt → Nat
  | .f32 => 23 | .bf16 => 7 | .f16 => 10 | .f8e => 3 | .f8w => 2 | .f4 => 1
  | _ => 0

/-- Exponent bits of a float format (R33). -/
def NumFmt.ebits : NumFmt → Nat
  | .f32 => 8 | .bf16 => 8 | .f16 => 5 | .f8e => 4 | .f8w => 5 | .f4 => 2
  | _ => 0

/-- Exponent bias of a float format (R33). -/
def NumFmt.bias : NumFmt → Nat
  | .f32 => 127 | .bf16 => 127 | .f16 => 15 | .f8e => 7 | .f8w => 15 | .f4 => 1
  | _ => 0

/-- The magnitude code of the largest finite value (R35). -/
def NumFmt.maxMag : NumFmt → Nat
  | .f8e => 0x7E
  | .f4 => 7
  | f => (2 ^ f.ebits - 1) * 2 ^ f.mbits - 1

/-- The canonical NaN code (R35). -/
def NumFmt.nanCode : NumFmt → Nat
  | .f32 => 0x7FC00000 | .bf16 => 0x7FC0 | .f16 => 0x7E00 | .f8e => 0x7F | .f8w => 0x7E | .f4 => 8
  | _ => 0

/-- Range of an integer format (R38). -/
def NumFmt.range : NumFmt → Int × Int
  | .i32 => (-2147483648, 2147483647) | .i8 => (-128, 127) | .u8 => (0, 255) | .i4 => (-8, 7) | .u4 => (0, 15)
  | _ => (0, 0)

/-- A number: NaN, an infinity, or the exact dyadic value of sign, magnitude m and exponent e. Zero has m = 0 and no sign, since
minus zero behaves as plus zero on every input (R53). -/
inductive Val where
  | nan
  | inf (neg : Bool)
  | fin (neg : Bool) (m : Nat) (e : Int)
deriving DecidableEq, Repr

/-- Plus zero. -/
def Val.zero : Val := .fin false 0 0

/-- An exact value from an integer times a power of two. -/
def Val.ofInt (i : Int) (e : Int) : Val := .fin (decide (i < 0)) i.natAbs (if i = 0 then 0 else e)

/-- True for a NaN. -/
def Val.isNan : Val → Bool
  | .nan => true
  | _ => false

/-- True for a zero of either sign (R53). -/
def Val.isZero : Val → Bool
  | .fin _ m _ => m == 0
  | _ => false

/-- Decoding of a code (R33 to R38). The F8E code 0x80 and every minus zero decode as zero. -/
def decodeNum (f : NumFmt) (code : Nat) : Val :=
  if f.isFloat then
    let mag := code % 2 ^ (f.width - 1)
    let neg := decide (code / 2 ^ (f.width - 1) % 2 = 1)
    let ex := mag / 2 ^ f.mbits
    let fr := mag % 2 ^ f.mbits
    let special :=
      match f with
      | .f8e => if mag = 0x7F then some Val.nan else none
      | .f4 => if code % 16 = 8 then some Val.nan else none
      | _ => if ex = 2 ^ f.ebits - 1 then some (if fr = 0 then Val.inf neg else Val.nan) else none
    match special with
    | some v => v
    | none =>
      if mag = 0 then Val.zero
      else if ex = 0 then .fin neg fr (1 - (f.bias : Int) - f.mbits)
      else .fin neg (fr + 2 ^ f.mbits) ((ex : Int) - f.bias - f.mbits)
  else
    let c := code % 2 ^ f.width
    match f with
    | .u8 | .u4 => Val.ofInt c 0
    | _ => Val.ofInt (if c < 2 ^ (f.width - 1) then (c : Int) else (c : Int) - (2 ^ f.width : Nat)) 0

/-- Rounding modes: to nearest even, toward zero, stochastic with a drawn word (R48, R49). -/
inductive Rnd where
  | rne
  | rtz
  | sr (r : BitVec 32)
deriving DecidableEq, Repr

/-- Number of bits of a magnitude. -/
def bitLen (n : Nat) : Nat := if n = 0 then 0 else Nat.log2 n + 1

/-- Division of n by 2^sh, rounded in the given mode; sticky says that the true value lies a little above n. -/
def shiftRound (r : Rnd) (n sh : Nat) (sticky : Bool) : Nat :=
  let q := n >>> sh
  let rem := n % 2 ^ sh
  match r with
  | .rtz => q
  | .rne =>
    let twice := 2 * rem
    if twice > 2 ^ sh then q + 1
    else if twice = 2 ^ sh ∧ sh > 0 then (if sticky || q % 2 == 1 then q + 1 else q)
    else q
  | .sr w =>
    let d := if sh ≤ 32 then rem <<< (32 - sh) else rem >>> (sh - 32)
    if d + w.toNat ≥ 2 ^ 32 ∧ d > 0 then q + 1 else q

/-- Rounding to the precision of a float format with an unbounded exponent and the format's subnormal spacing (R49, R51);
the result is the magnitude code, which exceeds maxMag where the value exceeds the largest finite value. -/
def roundMag (f : NumFmt) (r : Rnd) (m : Nat) (e : Int) (sticky : Bool) : Nat :=
  let emin : Int := 1 - (f.bias : Int) - f.mbits
  let q : Int := max (e + bitLen m - (f.mbits + 1 : Nat)) emin
  let n := if q ≤ e then m <<< (e - q).toNat else shiftRound r m (q - e).toNat sticky
  -- A magnitude code is linear in the rounded significand within one exponent and carries into the next.
  if m = 0 then 0 else (q - emin).toNat * 2 ^ f.mbits + n

/-- The outcome of R51 for a rounded magnitude code: the code of the output format. -/
def finishFloat (f : NumFmt) (neg sat : Bool) (mag : Nat) : Nat :=
  let sgn := if neg then 2 ^ (f.width - 1) else 0
  if mag = 0 then 0
  else if mag ≤ f.maxMag then sgn + mag
  else
    match f with
    | .f8e | .f4 => sgn + f.maxMag
    | _ => if sat then sgn + f.maxMag else sgn + f.maxMag + 1

/-- Rounding of a magnitude to an integer. -/
def roundInt (r : Rnd) (neg : Bool) (m : Nat) (e : Int) : Int :=
  let a := if 0 ≤ e then m <<< e.toNat else shiftRound r m (-e).toNat false
  if neg then -(a : Int) else a

/-- A value into the range of an integer format (R52). -/
def clampInt (f : NumFmt) (i : Int) : Int := max f.range.1 (min f.range.2 i)

/-- The code of an integer in two's complement. -/
def intCode (w : Nat) (i : Int) : Nat := (i % (2 ^ w : Nat)).toNat

/-- Conversion of a value to a format: R51 to a float format, R52 to an integer format. -/
def convertNum (f : NumFmt) (sat : Bool) (r : Rnd) (v : Val) : Nat :=
  if f.isFloat then
    match v with
    | .nan => f.nanCode
    | .inf neg =>
      match f with
      | .f8e | .f4 => (if neg then 2 ^ (f.width - 1) else 0) + f.maxMag
      | .f32 => (if neg then 2 ^ 31 else 0) + f.maxMag + 1
      | _ => (if neg then 2 ^ (f.width - 1) else 0) + (if sat then f.maxMag else f.maxMag + 1)
    | .fin neg m e => finishFloat f neg (sat && f != .f32) (roundMag f r m e false)
  else
    match v with
    | .nan => 0
    | .inf neg => intCode f.width (if neg then f.range.1 else f.range.2)
    | .fin neg m e => intCode f.width (clampInt f (roundInt r neg m e))

/-- A binary32 pattern as a value. -/
def f32 (b : W32) : Val := decodeNum .f32 b.toNat
/-- One rounding of a value to binary32, to nearest even (R46). -/
def toF32 (v : Val) : W32 := BitVec.ofNat 32 (convertNum .f32 false .rne v)
/-- One rounding of a value to BF16 (R46). -/
def toBf16 (v : Val) : BitVec 16 := BitVec.ofNat 16 (convertNum .bf16 false .rne v)

/-- Exact sum of two values. -/
def addV (a b : Val) : Val :=
  match a, b with
  | .nan, _ => .nan
  | _, .nan => .nan
  | .inf s, .inf t => if s = t then .inf s else .nan
  | .inf s, _ => .inf s
  | _, .inf t => .inf t
  | .fin s m e, .fin t n g =>
    let lo := min e g
    let x : Int := (m <<< (e - lo).toNat : Nat)
    let y : Int := (n <<< (g - lo).toNat : Nat)
    Val.ofInt ((if s then -x else x) + (if t then -y else y)) lo

/-- Change of sign; a zero stays plus zero (R53). -/
def negV : Val → Val
  | .nan => .nan
  | .inf s => .inf (!s)
  | .fin s m e => .fin (if m = 0 then false else !s) m e

/-- Exact product of two values; zero times an infinity is NaN. -/
def mulV (a b : Val) : Val :=
  match a, b with
  | .nan, _ => .nan
  | _, .nan => .nan
  | .inf s, .inf t => .inf (s != t)
  | .inf s, .fin t n _ => if n = 0 then .nan else .inf (s != t)
  | .fin s m _, .inf t => if m = 0 then .nan else .inf (s != t)
  | .fin s m e, .fin t n g => .fin (if m * n = 0 then false else s != t) (m * n) (e + g)

/-- Multiplication by a power of two, exact. -/
def scaleV (v : Val) (k : Int) : Val :=
  match v with
  | .fin s m e => .fin s m (if m = 0 then e else e + k)
  | _ => v

/-- Magnitude of a value. -/
def absV : Val → Val
  | .nan => .nan
  | .inf _ => .inf false
  | .fin _ m e => .fin false m e

/-- Exact comparison a < b of two values that are not NaN. -/
def ltV (a b : Val) : Bool :=
  match a, b with
  | .nan, _ => false
  | _, .nan => false
  | .inf s, .inf t => s && !t
  | .inf s, _ => s
  | _, .inf t => !t
  | .fin s m e, .fin t n g =>
    let lo := min e g
    let x : Int := (m <<< (e - lo).toNat : Nat)
    let y : Int := (n <<< (g - lo).toNat : Nat)
    decide ((if s then -x else x) < (if t then -y else y))

/-- Ordered comparison ≤; false with a NaN (R54). -/
def leV (a b : Val) : Bool := !a.isNan && !b.isNan && !ltV b a
/-- Ordered equality; false with a NaN (R54). -/
def eqV (a b : Val) : Bool := leV a b && leV b a

/-- Maximum by R54: NaN if either is NaN. -/
def maxV (a b : Val) : Val := if a.isNan || b.isNan then .nan else if ltV a b then b else a
/-- Minimum by R54. -/
def minV (a b : Val) : Val := if a.isNan || b.isNan then .nan else if ltV b a then b else a

/-- Ranking by magnitude of R54: a ranks strictly before b in descending magnitude, NaN above plus infinity. -/
def magGt (a b : Val) : Bool :=
  if a.isNan then !b.isNan else if b.isNan then false else ltV (absV b) (absV a)

/-- F32 operations, each rounded once to nearest even (R46). -/
def f32Add (a b : W32) : W32 := toF32 (addV (f32 a) (f32 b))
def f32Sub (a b : W32) : W32 := toF32 (addV (f32 a) (negV (f32 b)))
def f32Mul (a b : W32) : W32 := toF32 (mulV (f32 a) (f32 b))
def f32Fma (a b c : W32) : W32 := toF32 (addV (mulV (f32 a) (f32 b)) (f32 c))

/-- Correctly rounded F32 quotient with the IEEE 754 results for zeros and infinities (R205). -/
def f32Div (a b : W32) : W32 :=
  match f32 a, f32 b with
  | .nan, _ => 0x7FC00000
  | _, .nan => 0x7FC00000
  | .inf _, .inf _ => 0x7FC00000
  | .inf s, .fin t _ _ => toF32 (.inf (s != t))
  | .fin _ _ _, .inf _ => 0
  | .fin s m e, .fin t n g =>
    if n = 0 then (if m = 0 then 0x7FC00000 else toF32 (.inf (s != t)))
    else
      let num := m <<< 64
      let q := num / n
      BitVec.ofNat 32 (finishFloat .f32 (s != t) false (roundMag .f32 .rne q (e - g - 64) (num % n != 0)))

/-- Integer square root by bits: the largest r built from bits below k with r * r at most n. -/
def isqrtAux (n : Nat) : Nat → Nat → Nat
  | 0, r => r
  | k + 1, r => let t := r + 2 ^ k; isqrtAux n k (if t * t ≤ n then t else r)

/-- Correctly rounded square root of an exact nonnegative value, as F32 (R205, R363). -/
def sqrtFin (m : Nat) (e : Int) : W32 :=
  if m = 0 then 0
  else
    let odd := decide (e % 2 ≠ 0)
    let m' := if odd then 2 * m else m
    let e' := if odd then e - 1 else e
    let n := m' <<< 80
    let r := isqrtAux n (bitLen n / 2 + 1) 0
    BitVec.ofNat 32 (finishFloat .f32 false false (roundMag .f32 .rne r (e' / 2 - 40) (r * r != n)))

/-- Square root of a value: NaN for a negative operand. -/
def sqrtV : Val → W32
  | .nan => 0x7FC00000
  | .inf s => if s then 0x7FC00000 else 0x7F800000
  | .fin s m e => if m = 0 then 0 else if s then 0x7FC00000 else sqrtFin m e

def f32Sqrt (a : W32) : W32 := sqrtV (f32 a)

/-- Floor of a value. -/
def floorV : Val → Val
  | .fin s m e =>
    if 0 ≤ e then .fin s m e
    else
      let q := m >>> (-e).toNat
      let exact := decide (m % 2 ^ (-e).toNat = 0)
      Val.ofInt (if s then (if exact then -(q : Int) else -(q : Int) - 1) else q) 0
  | v => v

/-- The integer of an exact integral value; 0 for NaN and infinities. -/
def intOf : Val → Int
  | .fin s m e => roundInt .rtz s m e
  | _ => 0

/-- The device exponential of R206. The difference y - n is rounded to F32 where it is not exact (DEDUCED, log 16). -/
def expDev (x : W32) : W32 :=
  if (f32 x).isNan then 0x7FC00000
  else
    let y := f32Mul x 0x3FB8AA3B
    if leV (.fin false 128 0) (f32 y) then 0x7F800000
    else if ltV (f32 y) (.fin true 150 0) then 0
    else
      let n := floorV (f32 y)
      let f := toF32 (addV (f32 y) (negV n))
      let p := f32Fma 0x377FE5FE f 0x39218489
      let p := f32Fma p f 0x3AAEC3FF
      let p := f32Fma p f 0x3C1D955B
      let p := f32Fma p f 0x3D635847
      let p := f32Fma p f 0x3E75FDF0
      let p := f32Fma p f 0x3F317218
      let p := f32Fma p f 0x3F800000
      toF32 (scaleV (f32 p) (intOf n))

/-- A block-scaled element's value: decoded value times 2^(s - 127); the byte 0xFF makes it NaN (R41). -/
def scaledVal (v : Val) (s : Byte) : Val := if s = 0xFF then .nan else scaleV v ((s.toNat : Int) - 127)

/-- The F32 product of an array cell: one rounding of a × b × 2^(sa + sb - 254) (R44). -/
def cellProduct (a b : Val) (sa sb : Byte) : W32 :=
  if sa = 0xFF || sb = 0xFF then 0x7FC00000
  else toF32 (scaleV (mulV a b) ((sa.toNat : Int) + sb.toNat - 254))

/-- The largest finite value of a format, for the choice of a scale byte (R43). -/
def maxFinite (f : NumFmt) : Val := if f.isFloat then decodeNum f f.maxMag else Val.ofInt f.range.2 0

/-- Does m × 2^-e, rounded to nearest even at the format's precision with an unbounded exponent, stay within the largest finite
value (R43 step 2)? For an integer format the precision is that of whole numbers. -/
def scaleFits (f : NumFmt) (m : Val) (e : Int) : Bool :=
  match scaleV m (-e) with
  | .fin _ mm g => if f.isFloat then decide (roundMag f .rne mm g false ≤ f.maxMag) else decide (roundInt .rne false mm g ≤ f.range.2)
  | _ => false

/-- The smallest e from lo upward, at most fuel steps, that fits; otherwise the last. -/
def firstFit (f : NumFmt) (m : Val) : Nat → Int → Int
  | 0, e => e
  | k + 1, e => if scaleFits f m e then e else firstFit f m k (e + 1)

/-- The scale byte of a block of values (R43): 0xFF with a NaN in it, else e + 127. -/
def chooseScale (f : NumFmt) (vs : List Val) : Byte :=
  if vs.any Val.isNan then 0xFF
  else
    let m := vs.foldl (fun acc v => match v with | .fin _ _ _ => maxV acc (absV v) | _ => acc) Val.zero
    BitVec.ofInt 8 (firstFit f m 254 (-127) + 127)

/-- An element written under a scale byte (R43 step 3): its value × 2^-e converted; under 0xFF the canonical NaN, or 0. -/
def encodeScaled (f : NumFmt) (sat : Bool) (r : Rnd) (s : Byte) (v : Val) : Nat :=
  if s = 0xFF then (if f.isFloat then f.nanCode else 0)
  else convertNum f sat r (scaleV v (127 - (s.toNat : Int)))

/-- One step of a section's 32-bit generator (R50). -/
def rngNext (x : BitVec 32) : BitVec 32 :=
  let a := x ^^^ (x <<< 13)
  let b := a ^^^ (a >>> 17)
  b ^^^ (b <<< 5)

/-- The fixed pairwise tree of R46 over a list of 2^k values: lane i is combined with lane i + h, h halving. -/
def treeReduce {α : Type} (f : α → α → α) : Nat → List α → List α
  | 0, xs => xs
  | k + 1, xs => treeReduce f k (List.zipWith f (xs.take (2 ^ k)) (xs.drop (2 ^ k)))

end Sys2Proof.Machine
end

