-- ==== Sys2Proof/Machine/Tab.lean ====
section
/-!
DEFINITION. Sparse tables: lists of (key, value) pairs in one canonical form (keys strictly rising, no entry equal to the
default that an unlisted key reads as). Memory is a table of bytes keyed by device address; the sets of cores, engines, streams
and registers that differ from their reset values are tables too.
-/

namespace Sys2Proof.Machine

/-- A table keyed by numbers. -/
abbrev Tab (α : Type) := List (Nat × α)

/-- The value at a key; d where the key is not listed. -/
def tget {α : Type} (t : Tab α) (d : α) (k : Nat) : α :=
  match t with
  | [] => d
  | (j, v) :: r => if j = k then v else tget r d k

/-- The table without a key. -/
def terase {α : Type} (t : Tab α) (k : Nat) : Tab α := t.filter fun p => p.1 != k

/-- A new key at its place in rising order. -/
def tins {α : Type} (t : Tab α) (k : Nat) (v : α) : Tab α :=
  match t with
  | [] => [(k, v)]
  | (j, u) :: r => if j < k then (j, u) :: tins r k v else (k, v) :: (j, u) :: r

/-- The table with value v at key k; writing the default removes the entry. -/
def tset {α : Type} [DecidableEq α] (t : Tab α) (d : α) (k : Nat) (v : α) : Tab α :=
  if v = d then terase t k else tins (terase t k) k v

/-- Entries of consecutive keys from lo, without those equal to the default. -/
def tcells {α : Type} [DecidableEq α] (d : α) (lo : Nat) (vs : List α) : Tab α :=
  match vs with
  | [] => []
  | v :: r => if v = d then tcells d (lo + 1) r else (lo, v) :: tcells d (lo + 1) r

/-- The table with the values vs at the keys lo, lo + 1, and so on. -/
def twrite {α : Type} [DecidableEq α] (t : Tab α) (d : α) (lo : Nat) (vs : List α) : Tab α :=
  t.filter (fun p => p.1 < lo) ++ tcells d lo vs ++ t.filter (fun p => lo + vs.length ≤ p.1)

/-- The table with every key of [lo, lo + n) unlisted. -/
def tclear {α : Type} (t : Tab α) (lo n : Nat) : Tab α := t.filter fun p => !(lo ≤ p.1 && p.1 < lo + n)

/-- The values of n consecutive keys from lo. -/
def tread {α : Type} (t : Tab α) (d : α) (lo n : Nat) : List α :=
  let near := t.filter fun p => lo ≤ p.1 && p.1 < lo + n
  (List.range n).map fun i => tget near d (lo + i)

/-- Does some key of [lo, lo + n) hold an entry? -/
def tany {α : Type} (t : Tab α) (lo n : Nat) : Bool := t.any fun p => lo ≤ p.1 && p.1 < lo + n

/-- The canonical form. -/
def twf {α : Type} [DecidableEq α] (t : Tab α) (d : α) : Bool :=
  match t with
  | [] => true
  | (_, v) :: [] => v != d
  | (j, v) :: (k, u) :: r => v != d && j < k && twf ((k, u) :: r) d

/-- Little-endian number of a byte list (R3). -/
def leNat (bs : List Byte) : Nat :=
  match bs with
  | [] => 0
  | b :: r => b.toNat + 256 * leNat r

/-- The n low bytes of a number, lowest first (R3). -/
def leBytes (n v : Nat) : List Byte :=
  match n with
  | 0 => []
  | k + 1 => BitVec.ofNat 8 v :: leBytes k (v / 256)

/-- Element i of a list, or d. -/
def nthD {α : Type} (xs : List α) (i : Nat) (d : α) : α := xs.getD i d

/-- The list with element i replaced; unchanged where there is none. -/
def setNth {α : Type} (xs : List α) (i : Nat) (v : α) : List α := xs.set i v

/-- n bytes of a byte list from offset o, zero beyond its end. -/
def bytesAt (bs : List Byte) (o n : Nat) : List Byte :=
  let part := (bs.drop o).take n
  part ++ List.replicate (n - part.length) 0

/-- The little-endian number of n bytes at offset o. -/
def fieldAt (bs : List Byte) (o n : Nat) : Nat := leNat (bytesAt bs o n)

/-- A number of [0, n) as an index, where it is one. -/
def fin? (n k : Nat) : Option (Fin n) := if h : k < n then some ⟨k, h⟩ else none

/-- Sum saturating at a maximum. -/
def satAdd (mx a b : Nat) : Nat := min mx (a + b)

end Sys2Proof.Machine
end

