-- ==== Sys2Proof/Machine/Regs.lean ====
section
/-!
DEFINITION. The BAR0 register map of R381: the registers, their byte offsets and their fields with access codes (R9),
reset values (R12) and reserved encodings (R11). Each register's field list follows the table its chapter gives.
-/

namespace Sys2Proof.Machine

/-- Position of an engine in block order and mask order. -/
def engIdx : EngId → Nat
  | .mxe => 0 | .vxe => 1 | .sxe => 2 | .dxe => 3 | .mle => 4

/-- The engine at a position. -/
def engOf : Nat → EngId
  | 0 => .mxe | 1 => .vxe | 2 => .sxe | 3 => .dxe | _ => .mle

/-- All engines in order. -/
def allEng : List EngId := [.mxe, .vxe, .sxe, .dxe, .mle]

/-- The registers of each engine block (R179 to R185, R233). -/
inductive EngReg where
  | ctl | state | stat | pc | imAddr | dataLo | dataHi | imstat | tmo
deriving DecidableEq, Repr

/-- The registers of R381's map. -/
inductive Reg where
  | bootStatus | hubFunc | hubReset | fwSlot | fwIfv
  | ap (a : Fin 16)
  | ringCtl (r : Fin 4) | ringSq (r : Fin 4) | ringCq (r : Fin 4) | sqdb (r : Fin 4) | cqdb (r : Fin 4)
  | sliceState (n : N20)
  | logStat (n : Fin 21)
  | prot | pfBar2 | sectmap (n : N20) | keyslot (n : N20) | fabfw (n : N20)
  | nextPfBar2 | nextSectmap (n : N20) | nextKeyslot (n : N20) | nextFabfw (n : N20) | nextRseq (q : Fin 4)
  | sliceKey (n : N20) | budget | batch | lmsState
  | pwrStat | vinMin | pwrTemp | clkState
  | chorus | timeCtl | timeState | tick
  | fabDev | clCfg (n : N20) | clMem (n : N20) (i : Fin 8) | doorbell (n : N20) | stepw (n : N20) | share (n : N20) | clStat (n : N20)
  | portCtl (p : PortId) | portAddr (p : PortId) | portStat (p : PortId) | portFec (p : PortId)
  | rseq (q : Fin 4)
  | srng (n : N20) | syncWin (n : N20) | sectSync (n : N20) | mcState (n : N20) | cacheCtl (n : N20) | cacheStat (n : N20)
  | eccCnt (n : N20) | lastUe (n : N20) | retireStat (n : N20) | retireList (n : N20) (i : Fin 512)
  | updCtl (n : N20) | updList (n : N20) | updGtab (n : N20) | updOvr (n : N20) | updStep (n : N20) | updNorm (n : N20)
  | updState (n : N20) | updStat (n : N20) | patrol (n : N20)
  | eng (c : CoreId) (e : EngId) (k : EngReg)
  | dxeSctl (c : CoreId) | dxeSstate (c : CoreId) | sbStat (c : CoreId) | syncStat (c : CoreId) | hostAddr (c : CoreId)
  | hostData (c : CoreId) | semMode (c : CoreId) | spadStat (c : CoreId) | semCnt (c : CoreId) (i : Fin 64)
deriving DecidableEq, Repr

/-- Offset of an engine register in its engine block (R179 to R185, R233). -/
def engRegOff : EngReg → Nat
  | .ctl => 0x00 | .state => 0x08 | .stat => 0x10 | .pc => 0x18 | .imAddr => 0x20 | .dataLo => 0x28 | .dataHi => 0x30
  | .imstat => 0x38 | .tmo => 0x40

/-- BAR0 base of a core's block (R381). -/
def coreBase (c : CoreId) : Nat := 0x1000000 + c.val * 0x8000

/-- Byte offset of a register in BAR0 (R381 and the chapter of each block). -/
def regOff : Reg → Nat
  | .bootStatus => 0x0 | .hubFunc => 0x8 | .hubReset => 0x10 | .fwSlot => 0x18 | .fwIfv => 0x20
  | .ap a => 0x100 + 8 * a.val
  | .ringCtl r => 0x10000 + 0x100 * r.val | .ringSq r => 0x10008 + 0x100 * r.val | .ringCq r => 0x10010 + 0x100 * r.val
  | .sqdb r => 0x10018 + 0x100 * r.val | .cqdb r => 0x10020 + 0x100 * r.val
  | .sliceState n => 0x11000 + 8 * n.val
  | .logStat n => 0x12000 + 8 * n.val
  | .prot => 0x20000 | .pfBar2 => 0x20008 | .sectmap n => 0x20100 + 8 * n.val | .keyslot n => 0x20200 + 8 * n.val
  | .fabfw n => 0x20300 + 8 * n.val
  | .nextPfBar2 => 0x20808 | .nextSectmap n => 0x20900 + 8 * n.val | .nextKeyslot n => 0x20A00 + 8 * n.val
  | .nextFabfw n => 0x20B00 + 8 * n.val | .nextRseq q => 0x20C00 + 8 * q.val
  | .sliceKey n => 0x21000 + 8 * n.val | .budget => 0x21100 | .batch => 0x21108 | .lmsState => 0x21110
  | .pwrStat => 0x30000 | .vinMin => 0x30008 | .pwrTemp => 0x30010 | .clkState => 0x40000
  | .chorus => 0x50000 | .timeCtl => 0x50008 | .timeState => 0x50010 | .tick => 0x50018
  | .fabDev => 0x60000 | .clCfg n => 0x61000 + 0x100 * n.val | .clMem n i => 0x61008 + 0x100 * n.val + 8 * i.val
  | .doorbell n => 0x61048 + 0x100 * n.val | .stepw n => 0x61050 + 0x100 * n.val | .share n => 0x61058 + 0x100 * n.val
  | .clStat n => 0x61060 + 0x100 * n.val
  | .portCtl p => 0x70000 + 0x1000 * p.val | .portAddr p => 0x70008 + 0x1000 * p.val | .portStat p => 0x70010 + 0x1000 * p.val
  | .portFec p => 0x70018 + 0x1000 * p.val
  | .rseq q => 0x80100 + 0x1000 * q.val
  | .srng n => 0x90400 + 0x1000 * n.val | .syncWin n => 0x90500 + 0x1000 * n.val | .sectSync n => 0x90508 + 0x1000 * n.val
  | .mcState n => 0x90600 + 0x1000 * n.val | .cacheCtl n => 0x90700 + 0x1000 * n.val | .cacheStat n => 0x90708 + 0x1000 * n.val
  | .eccCnt n => 0x100000 + 0x10000 * n.val | .lastUe n => 0x100008 + 0x10000 * n.val | .retireStat n => 0x100010 + 0x10000 * n.val
  | .retireList n i => 0x101000 + 0x10000 * n.val + 8 * i.val
  | .updCtl n => 0x100100 + 0x10000 * n.val | .updList n => 0x100108 + 0x10000 * n.val | .updGtab n => 0x100110 + 0x10000 * n.val
  | .updOvr n => 0x100118 + 0x10000 * n.val | .updStep n => 0x100120 + 0x10000 * n.val | .updNorm n => 0x100128 + 0x10000 * n.val
  | .updState n => 0x100130 + 0x10000 * n.val | .updStat n => 0x100138 + 0x10000 * n.val | .patrol n => 0x100200 + 0x10000 * n.val
  | .eng c e k => coreBase c + 0x1000 * engIdx e + engRegOff k
  | .dxeSctl c => coreBase c + 0x3100 | .dxeSstate c => coreBase c + 0x3108 | .sbStat c => coreBase c + 0x5000
  | .syncStat c => coreBase c + 0x5100 | .hostAddr c => coreBase c + 0x5108 | .hostData c => coreBase c + 0x5110
  | .semMode c => coreBase c + 0x5200 | .spadStat c => coreBase c + 0x5300 | .semCnt c i => coreBase c + 0x6000 + 8 * i.val

/-- The register of a section block at a local offset. -/
def sectRegOf (n : N20) (o : Nat) : Option Reg :=
  match o with
  | 0x400 => some (.srng n) | 0x500 => some (.syncWin n) | 0x508 => some (.sectSync n) | 0x600 => some (.mcState n)
  | 0x700 => some (.cacheCtl n) | 0x708 => some (.cacheStat n)
  | _ => none

/-- The register of a stack block at a local offset. -/
def stkRegOf (n : N20) (o : Nat) : Option Reg :=
  match o with
  | 0x0 => some (.eccCnt n) | 0x8 => some (.lastUe n) | 0x10 => some (.retireStat n)
  | 0x100 => some (.updCtl n) | 0x108 => some (.updList n) | 0x110 => some (.updGtab n) | 0x118 => some (.updOvr n)
  | 0x120 => some (.updStep n) | 0x128 => some (.updNorm n) | 0x130 => some (.updState n) | 0x138 => some (.updStat n)
  | 0x200 => some (.patrol n)
  | _ => if 0x1000 ≤ o ∧ o % 8 = 0 then (fin? 512 ((o - 0x1000) / 8)).map (.retireList n) else none

/-- The engine register at a local offset of an engine block. -/
def engRegOf (o : Nat) : Option EngReg :=
  match o with
  | 0x00 => some .ctl | 0x08 => some .state | 0x10 => some .stat | 0x18 => some .pc | 0x20 => some .imAddr | 0x28 => some .dataLo
  | 0x30 => some .dataHi | 0x38 => some .imstat | 0x40 => some .tmo
  | _ => none

/-- The register of a core block at a local offset. -/
def coreRegOf (c : CoreId) (o : Nat) : Option Reg :=
  match o with
  | 0x3100 => some (.dxeSctl c) | 0x3108 => some (.dxeSstate c) | 0x5000 => some (.sbStat c) | 0x5100 => some (.syncStat c)
  | 0x5108 => some (.hostAddr c) | 0x5110 => some (.hostData c) | 0x5200 => some (.semMode c) | 0x5300 => some (.spadStat c)
  | _ =>
    if o < 0x5000 then (engRegOf (o % 0x1000)).map (.eng c (engOf (o / 0x1000)))
    else if 0x6000 ≤ o ∧ o % 8 = 0 then (fin? 64 ((o - 0x6000) / 8)).map (.semCnt c)
    else none

/-- A register of a column of 8-byte registers from a base. -/
def colOf {n : Nat} (mk : Fin n → Reg) (base o : Nat) : Option Reg :=
  if base ≤ o ∧ o % 8 = 0 then (fin? n ((o - base) / 8)).map mk else none

/-- The register of a slice's part of the FAB_ block. -/
def fabRegOf (n : N20) (o : Nat) : Option Reg :=
  match o with
  | 0x0 => some (.clCfg n) | 0x48 => some (.doorbell n) | 0x50 => some (.stepw n) | 0x58 => some (.share n) | 0x60 => some (.clStat n)
  | _ => colOf (.clMem n) 0x8 o

/-- The ring register of a ring at a local offset. -/
def ringRegOf (r : Fin 4) (o : Nat) : Option Reg :=
  match o with
  | 0x0 => some (.ringCtl r) | 0x8 => some (.ringSq r) | 0x10 => some (.ringCq r) | 0x18 => some (.sqdb r) | 0x20 => some (.cqdb r)
  | _ => none

/-- The register of a port block at a local offset. -/
def portRegOf (p : PortId) (o : Nat) : Option Reg :=
  match o with
  | 0x0 => some (.portCtl p) | 0x8 => some (.portAddr p) | 0x10 => some (.portStat p) | 0x18 => some (.portFec p)
  | _ => none

/-- The register of the SECU_ block at a local offset. -/
def secuRegOf (o : Nat) : Option Reg :=
  match o with
  | 0x0 => some .prot | 0x8 => some .pfBar2 | 0x808 => some .nextPfBar2 | 0x1100 => some .budget | 0x1108 => some .batch
  | 0x1110 => some .lmsState
  | _ =>
    if o < 0x200 then colOf .sectmap 0x100 o else if o < 0x300 then colOf .keyslot 0x200 o else if o < 0x400 then colOf .fabfw 0x300 o
    else if o < 0x900 then none
    else if o < 0xA00 then colOf .nextSectmap 0x900 o else if o < 0xB00 then colOf .nextKeyslot 0xA00 o
    else if o < 0xC00 then colOf .nextFabfw 0xB00 o else if o < 0x1000 then colOf .nextRseq 0xC00 o else colOf .sliceKey 0x1000 o

/-- The register at a BAR0 offset (R381); none where no block covers it or the block has no register there. -/
def regOf (o : Nat) : Option Reg :=
  if o < 0x10000 then
    match o with
    | 0x0 => some .bootStatus | 0x8 => some .hubFunc | 0x10 => some .hubReset | 0x18 => some .fwSlot | 0x20 => some .fwIfv
    | _ => colOf .ap 0x100 o
  else if o < 0x11000 then (fin? 4 ((o - 0x10000) / 0x100)).bind fun r => ringRegOf r (o % 0x100)
  else if o < 0x12000 then colOf .sliceState 0x11000 o
  else if o < 0x20000 then colOf .logStat 0x12000 o
  else if o < 0x30000 then secuRegOf (o - 0x20000)
  else if o < 0x40000 then
    (match o - 0x30000 with | 0x0 => some .pwrStat | 0x8 => some .vinMin | 0x10 => some .pwrTemp | _ => none)
  else if o < 0x50000 then (if o = 0x40000 then some .clkState else none)
  else if o < 0x60000 then
    (match o - 0x50000 with | 0x0 => some .chorus | 0x8 => some .timeCtl | 0x10 => some .timeState | 0x18 => some .tick | _ => none)
  else if o < 0x70000 then
    (if o = 0x60000 then some .fabDev
     else if o < 0x61000 then none
     else (fin? 20 ((o - 0x61000) / 0x100)).bind fun n => fabRegOf n (o % 0x100))
  else if o < 0x80000 then (fin? 8 ((o - 0x70000) / 0x1000)).bind fun p => portRegOf p (o % 0x1000)
  else if o < 0x90000 then (fin? 4 ((o - 0x80000) / 0x1000)).bind fun q => if o % 0x1000 = 0x100 then some (.rseq q) else none
  else if o < 0x100000 then (fin? 20 ((o - 0x90000) / 0x1000)).bind fun n => sectRegOf n (o % 0x1000)
  else if o < 0x1000000 then (fin? 20 ((o - 0x100000) / 0x10000)).bind fun n => stkRegOf n (o % 0x10000)
  else (fin? 160 ((o - 0x1000000) / 0x8000)).bind fun c => coreRegOf c (o % 0x8000)

/-- The access codes of R9. -/
inductive Acc where
  | rw | ro | w1c | wo | rwb
deriving DecidableEq, Repr

/-- A field: its bits, access, reset value, and the range of encodings that are not reserved (R11). -/
structure Fld where
  hi : Nat
  lo : Nat
  acc : Acc
  rst : Nat
  okLo : Nat
  okHi : Nat
deriving DecidableEq, Repr

/-- A field with access a and reset value 0. -/
def fl (a : Acc) (hi lo : Nat) : Fld := ⟨hi, lo, a, 0, 0, 2 ^ 64⟩
/-- A field with a nonzero reset value. -/
def flR (a : Acc) (hi lo rst : Nat) : Fld := ⟨hi, lo, a, rst, 0, 2 ^ 64⟩
/-- A field with reset value and reserved encodings outside okLo to okHi. -/
def flE (a : Acc) (hi lo rst okLo okHi : Nat) : Fld := ⟨hi, lo, a, rst, okLo, okHi⟩

/-- The fields of an engine register (R79, R114, R148, R179 to R185, R233). -/
def engFields (e : EngId) : EngReg → List Fld
  | .ctl => [fl .wo 7 7] ++ (match e with | .vxe | .sxe => [flE .rw 6 5 0 0 2] | _ => []) ++ [fl .rw 4 4, fl .wo 3 3, fl .rw 0 0]
  | .state => [fl .ro 63 56, fl .ro 52 40, fl .ro 10 0]
  | .stat =>
    match e with
    | .mxe | .mle => [fl .rw 63 48, fl .rw 47 32, fl .rw 31 16, fl .rw 15 0]
    | .vxe | .sxe => [fl .rw 63 48, fl .rw 47 32]
    | .dxe => [fl .rw 63 48, fl .rw 47 32, fl .rw 31 16, fl .rw 15 8, fl .rw 7 0]
  | .pc => [fl .rw 10 0]
  | .imAddr => [flE .rw 13 12 0 0 2, fl .rw 10 0]
  | .dataLo => [fl .rw 63 0]
  | .dataHi => [fl .rw 63 0]
  | .imstat => [fl .rw 63 48, fl .ro 15 0]
  | .tmo => [flE .rw 17 16 0 0 1, fl .rw 15 0]

/-- The fields of each register, from the table of its rule. -/
def regFields : Reg → List Fld
  | .bootStatus => [fl .ro 63 48, fl .ro 47 40, fl .ro 0 0]
  | .hubFunc => [flR .ro 39 32 0xFF, fl .ro 31 24, fl .ro 19 16, fl .ro 4 0]
  | .hubReset => [fl .ro 63 56, fl .wo 0 0]
  | .fwSlot => [fl .ro 63 45]
  | .fwIfv => [fl .ro 63 0]
  | .ap _ => [fl .rw 63 63, fl .rw 11 0]
  | .ringCtl _ => [fl .rw 12 8, fl .wo 1 1, fl .rw 0 0]
  | .ringSq _ => [fl .rw 63 12]
  | .ringCq _ => [fl .rw 63 12]
  | .sqdb _ => [fl .ro 47 32, fl .rw 15 0]
  | .cqdb _ => [fl .ro 47 32, fl .rw 15 0]
  | .sliceState _ => [fl .ro 63 56, fl .rw 47 32, fl .ro 31 0]
  | .logStat _ => [fl .rw 63 48, fl .ro 44 0]
  | .prot => [fl .ro 63 48, fl .rwb 0 0]
  | .pfBar2 => [fl .rwb 19 0]
  | .sectmap _ => [fl .rwb 7 7, flE .rwb 4 0 0 0 19]
  | .keyslot _ => [fl .rwb 7 7, flE .rwb 4 0 0 0 19]
  | .fabfw _ => [fl .rwb 63 48, fl .rwb 47 32, fl .rwb 7 0]
  | .nextPfBar2 => [fl .rw 19 0]
  | .nextSectmap _ => [fl .rw 7 7, flE .rw 4 0 0 0 19]
  | .nextKeyslot _ => [fl .rw 7 7, flE .rw 4 0 0 0 19]
  | .nextFabfw _ => [fl .rw 63 48, fl .rw 47 32, fl .rw 7 0]
  | .nextRseq _ => [fl .rw 7 7, flE .rw 4 0 0 0 19]
  | .sliceKey _ => [fl .ro 63 59, fl .ro 31 0]
  | .budget => [fl .ro 49 0]
  | .batch => [flE .rw 31 16 0 0 1000, flE .rw 3 0 0 0 8]
  | .lmsState => [fl .ro 63 63, fl .ro 47 0]
  | .pwrStat => [fl .ro 63 16, fl .ro 3 0]
  | .vinMin => [fl .rw 63 48, flR .ro 31 16 0xFFFF, fl .wo 0 0]
  | .pwrTemp => [fl .ro 63 53, fl .ro 47 35, fl .ro 31 16]
  | .clkState => [fl .ro 63 44, fl .ro 3 0]
  | .chorus => [fl .rw 63 48, flE .rw 36 32 0 0 20, flE .rw 12 8 10 0 20, flE .rw 7 0 0x20 8 128]
  | .timeCtl => [fl .rw 11 4, fl .rw 3 1, fl .rw 0 0]
  | .timeState => [fl .ro 63 60, fl .ro 31 0]
  | .tick => [fl .ro 63 0]
  | .fabDev => [flR .rw 31 16 0xC738, fl .rw 15 0]
  | .clCfg _ => [fl .ro 63 32, fl .ro 31 31, fl .ro 26 15, flR .ro 7 0 0x50]
  | .clMem _ _ => [fl .ro 20 0]
  | .doorbell _ => [fl .rw 43 0]
  | .stepw _ => [fl .rw 43 0]
  | .share _ => [fl .rw 7 0]
  | .clStat _ => [fl .rw 63 48, fl .rw 47 32, fl .rw 31 16]
  | .portCtl _ => [fl .wo 1 1, fl .rw 0 0]
  | .portAddr _ => [fl .rw 63 0]
  | .portStat _ => [fl .ro 63 63, fl .rw 62 48, fl .rw 47 32, fl .rw 31 16, fl .rw 15 0]
  | .portFec _ => [fl .rw 63 32]
  | .rseq _ => [fl .rwb 7 7, flE .rwb 4 0 0 0 19]
  | .srng _ => [flR .rw 31 0 1]
  | .syncWin _ => [fl .rw 63 63, flE .rw 42 32 0 0 1024, flE .rw 19 0 0 0 0xBFFFF]
  | .sectSync _ => [fl .rw 63 48, fl .w1c 0 0]
  | .mcState _ => [fl .ro 63 60, fl .ro 7 0]
  | .cacheCtl _ => [fl .rw 1 1, fl .rw 0 0]
  | .cacheStat _ => [fl .rw 63 48, fl .rw 47 32]
  | .eccCnt _ => [fl .rw 63 32, fl .rw 31 16, fl .rw 15 0]
  | .lastUe _ => [fl .w1c 63 63, fl .ro 35 0]
  | .retireStat _ => [fl .ro 41 32, fl .rw 31 0]
  | .retireList _ _ => [fl .ro 63 63, fl .ro 19 0]
  | .updCtl _ => [flE .rw 42 32 0 1 1024, fl .rw 8 8, fl .wo 1 1, fl .rw 0 0]
  | .updList _ => [fl .rw 35 0]
  | .updGtab _ => [fl .rw 35 0]
  | .updOvr _ => [fl .rw 35 0]
  | .updStep _ => [fl .rw 31 0]
  | .updNorm _ => [fl .rw 63 32, fl .rw 31 0]
  | .updState _ => [fl .ro 63 57, fl .ro 42 0]
  | .updStat _ => [fl .rw 63 48, fl .rw 47 32, fl .rw 31 16, fl .rw 15 0]
  | .patrol _ => [flE .rw 63 56 0x18 1 168, fl .ro 47 32, fl .ro 19 0]
  | .eng _ e k => engFields e k
  | .dxeSctl _ => [fl .wo 63 32, fl .rw 31 0]
  | .dxeSstate _ => [fl .ro 63 0]
  | .sbStat _ => [fl .rw 63 48, fl .ro 6 0]
  | .syncStat _ => [fl .rw 63 48, fl .rw 47 32, fl .rw 31 16, fl .w1c 3 3, fl .w1c 2 2, fl .w1c 1 1, fl .w1c 0 0]
  | .hostAddr _ => [fl .ro 23 23, fl .rw 22 21, fl .rw 20 0]
  | .hostData _ => [fl .rw 63 0]
  | .semMode _ => [fl .rw 3 0]
  | .spadStat _ => [fl .rw 63 48, fl .rw 47 32, fl .ro 15 0]
  | .semCnt _ _ => [fl .rw 63 48, fl .rw 47 32, fl .rw 31 16, fl .rw 15 0]

/-- Value v with bits hi down to lo replaced by x. -/
def putBits (v : W64) (hi lo x : Nat) : W64 :=
  let m : W64 := BitVec.ofNat 64 ((2 ^ (hi + 1 - lo) - 1) <<< lo)
  (v &&& ~~~m) ||| (BitVec.ofNat 64 (x % 2 ^ (hi + 1 - lo)) <<< lo)

/-- The reset value of a register (R12). -/
def regReset (r : Reg) : W64 := (regFields r).foldl (fun v f => putBits v f.hi f.lo f.rst) 0

/-- The registers each function has its own copy of (R381). -/
def regLocal : Reg → Bool
  | .hubFunc | .ap _ | .ringCtl _ | .ringSq _ | .ringCq _ | .sqdb _ | .cqdb _ => true
  | _ => false

end Sys2Proof.Machine
end

