-- ==== Sys2Proof/Machine/Instrs.lean ====
section
/-!
DEFINITION. The 128-bit instruction words of spec/07_instruction_reference.md: field accessors, the reserved bits of every
layout (R190), and the loop-descriptor entries of R192.
-/

namespace Sys2Proof.Machine

/-- OPC of a word (R188). -/
def opc (w : W128) : Nat := bits w 127 120
/-- LD of a word (R188). -/
def ldOf (w : W128) : Nat := bits w 119 115

/-- Opcodes of the common operations that are defined (R194). -/
def commonOps : List Nat := [0x00, 0x01, 0x02, 0x03, 0x04, 0x05, 0x08, 0x09, 0x0A, 0x0B, 0x0C, 0x0D, 0x0E]
/-- VXE opcodes (R205). -/
def vxeOps : List Nat := [0x40, 0x41, 0x42, 0x43, 0x44, 0x45, 0x46, 0x47, 0x48, 0x49, 0x4A, 0x4B, 0x4C, 0x50, 0x51, 0x52, 0x53, 0x54,
  0x55, 0x58, 0x59, 0x5A, 0x5B, 0x60, 0x61, 0x64, 0x65, 0x66, 0x67, 0x68, 0x6C, 0x6D, 0x70, 0x71, 0x72]
/-- SXE opcodes (R211). -/
def sxeOps : List Nat := [0x40, 0x41, 0x42, 0x43, 0x44, 0x45, 0x46, 0x47, 0x48, 0x49, 0x4A, 0x4B, 0x4C, 0x4D, 0x4E, 0x50, 0x51, 0x52,
  0x53, 0x54, 0x58, 0x59, 0x60, 0x61, 0x62, 0x63, 0x64, 0x65, 0x68]

/-- Is an opcode defined for the engine that fetches it (R189)? -/
def opDefined (e : EngId) (o : Nat) : Bool :=
  commonOps.contains o ||
  match e with
  | .mxe => [0x40, 0x41, 0x42, 0x48].contains o
  | .vxe => vxeOps.contains o
  | .sxe => sxeOps.contains o
  | .dxe => o == 0x40
  | .mle => [0x40, 0x41, 0x42, 0x43, 0x44, 0x45, 0x46].contains o

/-- Are the bits hi down to lo of a word all 0? -/
def zeroBits (w : W128) (hi lo : Nat) : Bool := bits w hi lo == 0

/-- The reserved bits of the word are 0 and no field holds a reserved encoding (check 1 of R171, by R190). -/
def fieldsOk (e : EngId) (w : W128) : Bool :=
  let o := opc w
  if o < 0x20 then
    if o = 0x00 ∨ o = 0x05 then zeroBits w 114 0
    else if o = 0x01 ∨ o = 0x03 then zeroBits w 114 11
    else if o = 0x04 then zeroBits w 98 16
    else if o = 0x0C ∨ o = 0x0D ∨ o = 0x0E then zeroBits w 106 16
    else zeroBits w 63 32
  else
    match e with
    | .mxe =>
      zeroBits w 78 64 && bits w 99 97 != 7 && bits w 95 93 != 7 && bits w 91 90 != 3 &&
        (if o = 0x48 then bits w 86 84 != 7 else zeroBits w 86 79)
    | .vxe => zeroBits w 79 64 && zeroBits w 47 32 && bits w 114 113 != 3 && decide (bits w 83 80 ≤ 10)
    | .sxe => if o = 0x68 then zeroBits w 65 64 && decide (bits w 91 89 ≤ 4) else zeroBits w 91 64
    | .dxe => zeroBits w 109 88
    | .mle =>
      if o = 0x40 then zeroBits w 35 16
      else if o = 0x41 then zeroBits w 88 54
      else if o = 0x42 ∨ o = 0x43 then zeroBits w 38 35 && zeroBits w 16 0
      else if o = 0x44 then zeroBits w 18 0
      else zeroBits w 68 48

/-! Common layouts (R195 to R198). -/

/-- TARGET of the control layout (R195). -/
def targetOf (w : W128) : BitVec 11 := BitVec.ofNat 11 (bits w 10 0)
/-- LOCAL (R196). -/
def feLocal (w : W128) : Bool := bit w 114
/-- XR (R196). -/
def feXr (w : W128) : Bool := bit w 113
/-- XREG (R196). -/
def feXreg (w : W128) : Nat := bits w 112 108
/-- ADDR (R196). -/
def feAddr (w : W128) : Nat := bits w 107 64
/-- IMM of the full/empty layout (R196). -/
def feImm (w : W128) : Nat := bits w 31 0
/-- CTR (R197). -/
def semCtr (w : W128) : Nat := bits w 114 107
/-- N of the semaphore layout (R197). -/
def semN (w : W128) : Nat := bits w 15 0
/-- FIRST, COUNT + 1, REGION and SRC of ENG.LDLOAD (R198). -/
def lddFirst (w : W128) : Nat := bits w 114 110
def lddCount (w : W128) : Nat := bits w 109 105 + 1
def lddRegion (w : W128) : Nat := bits w 104 99
def lddSrc (w : W128) : Nat := bits w 15 0 * 64

/-! VXE and SXE layouts (R204, R210). -/

def vTy (w : W128) : Nat := bits w 114 113
def vVd (w : W128) : Nat := bits w 112 108
def vVa (w : W128) : Nat := bits w 107 103
def vVb (w : W128) : Nat := bits w 102 98
def vVc (w : W128) : Nat := bits w 97 93
def vSat (w : W128) : Bool := bit w 92
def vRtz (w : W128) : Bool := bit w 91
def vSc (w : W128) : Bool := bit w 90
def vSlot (w : W128) : Nat := bits w 89 84
def vFmtCode (w : W128) : Nat := bits w 83 80
def vBase (w : W128) : Nat := bits w 63 48 * 64
def vImm (w : W128) : W32 := BitVec.ofNat 32 (bits w 31 0)

def xPmask (w : W128) : Nat := bits w 114 107
def xXd (w : W128) : Nat := bits w 106 102
def xXa (w : W128) : Nat := bits w 101 97
def xXb (w : W128) : Nat := bits w 96 92
def xImm (w : W128) : W64 := BitVec.ofNat 64 (bits w 63 0)

/-! Loop-descriptor entries (R192). -/

/-- A decoded entry: the region masks, the six counts and the increments INC[l][s]. -/
structure LoopDesc where
  rd : W64
  wr : W64
  cnt : List Nat
  inc : List (List Int)
deriving DecidableEq, Repr

/-- A 24-bit two's complement number. -/
def s24 (n : Nat) : Int := if n < 2 ^ 23 then (n : Int) else (n : Int) - 2 ^ 24

/-- Entry 0: one iteration, no regions (R158, R192). -/
def loopOne : LoopDesc := ⟨0, 0, [1, 1, 1, 1, 1, 1], List.replicate 6 [0, 0, 0, 0]⟩

/-- The entry in 128 bytes; none where a COUNT is reserved or a reserved byte is not 0 (R192). -/
def parseLoop (bs : List Byte) : Option LoopDesc :=
  let cnt := (List.range 6).map fun l => fieldAt bs (16 + 4 * l) 4
  let inc := (List.range 6).map fun l => (List.range 4).map fun s => s24 (fieldAt bs (40 + 12 * l + 3 * s) 3)
  if cnt.all (fun c => decide (1 ≤ c ∧ c ≤ 65536)) && fieldAt bs 112 16 == 0 then
    some ⟨BitVec.ofNat 64 (fieldAt bs 0 8), BitVec.ofNat 64 (fieldAt bs 8 8), cnt, inc⟩
  else none

/-- Number of iterations of a nest (R159). -/
def loopCount (d : LoopDesc) : Nat := d.cnt.foldl (· * ·) 1

/-- Offset of address stream s in iteration j: the sum of i_l × INC[l][s], with i_0 fastest (R159, R193). -/
def loopOff (d : LoopDesc) (s j : Nat) : Int :=
  ((List.range 6).foldl (fun (acc : Int × Nat) l =>
    let c := nthD d.cnt l 1
    (acc.1 + ((acc.2 % c : Nat) : Int) * nthD (nthD d.inc l []) s 0, acc.2 / c)) (0, j)).1

/-- Smallest and largest offset of stream s over the corners of the nest (R161). -/
def loopSpan (d : LoopDesc) (s : Nat) : Int × Int :=
  (List.range 6).foldl (fun (acc : Int × Int) l =>
    let x := ((nthD d.cnt l 1 : Nat) - 1 : Int) * nthD (nthD d.inc l []) s 0
    (acc.1 + min 0 x, acc.2 + max 0 x)) (0, 0)

/-- Are all increments of stream s that a count above 1 applies multiples of u? (R191, R212) -/
def incsMultiple (d : LoopDesc) (s u : Nat) : Bool :=
  (List.range 6).all fun l => decide (nthD d.cnt l 1 ≤ 1) || decide (nthD (nthD d.inc l []) s 0 % (u : Int) = 0)

/-- Are all six increments of stream s multiples of u (R214)? -/
def incsAligned (d : LoopDesc) (s u : Nat) : Bool := (List.range 6).all fun l => nthD (nthD d.inc l []) s 0 % (u : Int) == 0

/-- Are all increments of stream s 0? -/
def incsZero (d : LoopDesc) (s : Nat) : Bool := (List.range 6).all fun l => nthD (nthD d.inc l []) s 0 == 0

/-- Are all counts 1? -/
def countsOne (d : LoopDesc) : Bool := d.cnt.all (· == 1)

/-- Do the bytes [lo, hi) of scratchpad lie in range and in the regions of a mask (R161, R162)? An empty range passes. -/
def rangeOk (mask : W64) (lo hi : Int) : Bool :=
  if hi ≤ lo then true
  else if lo < 0 ∨ hi > 0x400000 then false
  else
    let a := lo.toNat / 0x10000
    let b := (hi.toNat - 1) / 0x10000
    (List.range (b + 1 - a)).all fun i => bit mask (a + i)

/-- Does the whole nest of a stream, n bytes from each address, pass R161 for the masks given? -/
def streamOk (d : LoopDesc) (s : Nat) (base : Int) (n : Nat) (rd wr : Bool) : Bool :=
  let sp := loopSpan d s
  n == 0 || ((!rd || rangeOk d.rd (base + sp.1) (base + sp.2 + n)) && (!wr || rangeOk d.wr (base + sp.1) (base + sp.2 + n)))

end Sys2Proof.Machine
end

