-- ==== Sys2Proof/Machine/CoreState.lean ====
section
/-!
DEFINITION. The state of one core: engines, instruction and loop memories, register files, results and stores in flight,
claims, semaphores, selector contexts and streams (files 04 to 09).
-/

namespace Sys2Proof.Machine

/-- A VXE register lane: 32 bits and its poison flag (R151, R497). -/
structure Lane where
  v : W32
  p : Bool
deriving DecidableEq, Repr

/-- An SXE register of one pipe: 64 bits and its poison flag (R151, R497). -/
structure XReg where
  v : W64
  p : Bool
deriving DecidableEq, Repr

/-- A word of the instruction queue, marked when found uncorrectable at fetch (R152, R153). -/
structure QWord where
  w : W128
  bad : Bool
deriving DecidableEq, Repr

/-- Engine states of R180. -/
inductive EngMode where
  | halted | running | draining | aborting
deriving DecidableEq, Repr

/-- A single step in progress: armed until its instruction begins, then executing (R177). -/
inductive StepPhase where
  | off | armed | begun
deriving DecidableEq, Repr

/-- What the instruction at the head waits for (R169, R180): the full/empty or semaphore operation with its number, dispatch
a-cycle and whether it has timed out (R234); a claim; a free claim entry; a closing bank. -/
inductive HeadWait where
  | none
  | sync (op : Nat) (start : Nat) (timedOut : Bool)
  | claim (inst : Nat)
  | entry
deriving DecidableEq, Repr

/-- One entry write of an ENG.LDLOAD in flight (R160): entry number, bytes, poison, a-cycle. -/
structure LdWrite where
  entry : Nat
  bytes : List Byte
  p : Bool
  due : Nat
deriving DecidableEq, Repr

/-- Why an engine is aborting, for the event of R175: cause, class, bank and index. -/
structure AbortWhy where
  cause : Nat
  cls : Nat
  bank : Bool
  idx : BitVec 11
deriving DecidableEq, Repr

/-- One engine of a core (R149 to R160, R174 to R180). -/
structure Engine where
  mode : EngMode
  step : StepPhase
  bank : Bool
  pc : BitVec 11
  queue : List QWord
  /-- first a-cycle whose fetch has not been made -/
  fetchAt : Nat
  /-- first a-cycle in which the next instruction may dispatch -/
  nextAt : Nat
  /-- target of a BANKSW that waits for the other bank to close (R156) -/
  closing : Option (BitVec 11)
  wait : HeadWait
  abort : Option AbortWhy
  imem : Tab W128
  ubad : Tab Bool
  ldf : Tab Byte
  /-- poisoned entries, with the words the host has written since (R160) -/
  ldPoison : Tab (Option Nat)
  ldq : List LdWrite
deriving DecidableEq, Repr

/-- An accumulator entry with its poison flag (R105). -/
structure AccEnt where
  v : W32
  p : Bool
deriving DecidableEq, Repr

/-- An output held by the drain for a scale block along rows (R100): output coordinates and value. -/
structure HeldOut where
  m : Nat
  n : Nat
  ent : AccEnt
deriving DecidableEq, Repr

/-- A row's statistics in an array (R101). -/
structure RowStat where
  arr : Nat
  m : Nat
  mx : AccEnt
  sm : AccEnt
deriving DecidableEq, Repr

/-- A row of operand values with their scale bytes; absent positions are none. -/
abbrev OpRow := List (Option (Val × Byte))

/-- Content of an operand as the feeder holds it: rows, the poison of each row, and the cases of R76 found. -/
structure Win where
  rows : List OpRow
  p : List Bool
  bads : List Status
deriving DecidableEq, Repr

/-- Content of a window tile in the stationary file of an array (R81, R90). -/
structure StatEnt where
  arr : Nat
  wt : Nat
  win : Win
deriving DecidableEq, Repr

/-- A block of a column strip as the feeder of MXE.ALT holds it (R120): its block row, values by bit number of R60, poison and findings, whether
it is a dense-coded SB64 block, values counted in packing, bytes stored; for each position the byte offset in W's data of the part that holds
its value and the value's number; W's scale byte of each row; and the block's mask word (R135); each with its poison. -/
structure ABlk where
  br : Nat
  vals : List (Option (Nat × Bool))
  p : Bool
  bads : List Status
  dense : Bool
  n : Nat
  bytes : Nat
  base : List Nat
  rank : List Nat
  scale : List (Byte × Bool)
  mask : Nat × Bool
deriving DecidableEq, Repr

/-- A pass that has ended in an accumulator buffer whose drain has not been made (R81, R111): its position, its 64 entries in each array,
whether it ends in the drain path, the a-cycle of its end, its buffer, and whether its drain has been found waiting for a stream (R102). -/
structure PassEnd where
  round : Nat
  pr : Nat
  seg : Nat
  tile : Nat
  acc : List (List AccEnt)
  final : Bool
  fin : Nat
  even : Bool
  held : Bool
deriving DecidableEq, Repr

/-- Progress of an executing MXE instruction (R86 to R89, R100, R111, R123, R128). -/
structure MxeRun where
  iter : Nat
  round : Nat
  /-- pass range (window tile of the N axis in MXE.ALT) -/
  pr : Nat
  /-- segment (MXE.ALT) -/
  seg : Nat
  /-- output tile of the round (row tile) -/
  tile : Nat
  /-- window tile within the pass -/
  wt : Nat
  /-- accumulators of the current pass, 64 per array -/
  acc : List (List AccEnt)
  /-- dW accumulators, at most 512 per array (R123) -/
  dw : List (List AccEnt)
  held : List (List HeldOut)
  stats : List RowStat
  /-- passes that have ended and not drained, oldest first: at most two, one for each accumulator buffer (R81, R111) -/
  ends : List PassEnd
  /-- the iteration has no further pass -/
  lastRun : Bool
  /-- stationary files of the arrays, and the window tile in the gather window (R81, R88, R90) -/
  file : List StatEnt
  window : Win
  /-- MXE.ALT: the blocks of the current segment in each array, and of the next one once it is loaded (R122) -/
  blks : List (List ABlk)
  nblks : List (List ABlk)
  /-- a segment has ended and its dW drain is due -/
  dwEnd : Bool
  /-- the stationary content of the first window tile has been checked -/
  loaded : Bool
  t : Nat
  fr0 : Nat
  fr1 : Nat
  wfree : Nat
  passes : Nat
  /-- a-cycles of the current pass -/
  plen : Nat
  /-- the a-cycle in which the instruction began, from which t, fr0, fr1, wfree and plen count -/
  start : Nat
  /-- the feeder has logged its event (R77) -/
  logged : Bool
  /-- status and class of an abort that takes effect at the end of the tile step (R107, R173, R452) -/
  stop : Option (Status × Nat)
  /-- the product descriptor as this iteration read it (R203) -/
  desc : List Byte
  /-- selector contexts whose store areas the instruction has written, each with its area's address (R138) -/
  sel : List (Nat × Nat)
deriving DecidableEq, Repr

/-- What an executing instruction still has to do. -/
inductive Prog where
  | plain
  | mxe (r : MxeRun)
  /-- a DXE.ISSUE: iterations issued (R214) -/
  | dxe (next : Nat)
  /-- a moult operation: the flags of its record, which its completion counts (R142, R143) -/
  | mle (flags : Nat)
  /-- an accepted SXE.IMCOPY: target engine, bank, first index, words, number of its result in flight (R213) -/
  | imcopy (e : EngId) (bank : Bool) (dst : Nat) (words : List W128) (res : Nat)
  /-- a VXE.TLOAD: slot, bytes, poison (R209) -/
  | tload (slot : Nat) (bytes : List Byte) (p : Bool)
  | ldload
deriving DecidableEq, Repr

/-- An instruction dispatched and not retired, in claim order in its core's list (R162, R163). -/
structure Inst where
  id : Nat
  eng : EngId
  w : W128
  bank : Bool
  idx : BitVec 11
  loop : LoopDesc
  rd : W64
  wr : W64
  claims : Bool
  /-- addresses of an SXE.LD or SXE.ST by pipe, as formed at dispatch (R212) -/
  xa : List Int
  begun : Bool
  /-- a-cycle in which execution began -/
  start : Nat
  /-- a-cycle in which the timed part of its work is complete -/
  doneAt : Nat
  prog : Prog
  /-- the whole of its work has been done -/
  finished : Bool
deriving DecidableEq, Repr

/-- A VXE result in flight (R167, R168): register, lanes, a-cycle of issue, a-cycle of landing, order of dispatch. -/
structure VRes where
  reg : Nat
  lanes : List Lane
  iss : Nat
  due : Nat
  seq : Nat
deriving DecidableEq, Repr

/-- An SXE result in flight. -/
structure XRes where
  pipe : Nat
  reg : Nat
  val : XReg
  iss : Nat
  due : Nat
  seq : Nat
deriving DecidableEq, Repr

/-- A scratchpad store in flight (R209, R212): engine, instruction, local offset, bytes, poison per 64-byte unit. -/
structure PadStore where
  eng : EngId
  inst : Nat
  off : Nat
  bytes : List Byte
  p : List Bool
  iss : Nat
  due : Nat
  seq : Nat
deriving DecidableEq, Repr

/-- A semaphore operation in flight or waiting (R235 to R237). -/
structure SemOp where
  id : Nat
  eng : EngId
  /-- 0 add, 1 subtract, 2 wait -/
  kind : Nat
  ctr : Nat
  n : Nat
  due : Nat
  waiting : Bool
  /-- index of the instruction, and the number of the next instruction record at its dispatch -/
  idx : BitVec 11
  after : Nat
deriving DecidableEq, Repr

/-- A selector context of the MLE (R138). -/
structure SelCtx where
  armed : Bool
  prune : Bool
  k : Nat
  first : Nat
  blocks : Nat
  idx : Nat
  store : Nat
  entries : List (Nat × W32)
  poison : Bool
deriving DecidableEq, Repr

/-- What a moult operation wrote, so that an abort can leave the later blocks as they were (R144): the former bytes and tags of its
units and the former contexts. -/
structure MleUndo where
  cells : List (Nat × List Byte)
  tags : List (Nat × Bool)
  ctxs : List (Nat × SelCtx)
deriving DecidableEq, Repr

/-- A drained tile in a HANDOFF stream's input buffer (R259): its values not yet written, by destination row and column. -/
structure HandTile where
  ents : List (Nat × Nat × AccEnt)
deriving DecidableEq, Repr

/-- Counts of a stream task for its completion record (R268). -/
structure TaskCnt where
  bytes : Nat
  dense : Nat
  trim : Nat
  mal : Nat
  oor : Nat
  poison : Bool
  late : Bool
  /-- the task's one event of R73 or R77 has been logged -/
  logTrim : Bool
  logBad : Bool
deriving DecidableEq, Repr

/-- A running stream task (R247, R248): its descriptor and extension as read, with displaced addresses. -/
structure Task where
  inst : Nat
  iter : Nat
  bank : Bool
  idx : BitVec 11
  rd : W64
  wr : W64
  issueAt : Nat
  desc : List Byte
  ext : Option (List Byte)
  src : Nat
  dst : Nat
  ix : Nat
  cnt : TaskCnt
  /-- HANDOFF: tiles received and not yet written; the positions received, as 64 bits for each block of 8 × 8, by block row × 2^20 +
  block column; next data offset of an SB64 destination; what each PB8 group written holds, with its poison, by row × 2^20 + group -/
  tiles : List HandTile
  got : Tab Nat
  sbOff : Nat
  occ : Tab (Option (Nat × Bool))
deriving DecidableEq, Repr

/-- A completion record due (R268): stream, instruction, its 32 bytes, and the completion word. -/
structure CompRec where
  stream : Nat
  inst : Nat
  rec? : Option Nat
  bytes : List Byte
  word? : Option (Bool × Nat)
  value : W64
  due : Nat
deriving DecidableEq, Repr

/-- One core (R20). -/
structure Core where
  eng : Tab Engine
  insts : List Inst
  nextInst : Nat
  vregs : Tab (List Lane)
  /-- table memory slots, 4,160 bytes each, with a poison flag (R131, R497) -/
  slots : Tab (List Byte)
  slotP : Tab Bool
  xregs : Tab XReg
  vres : List VRes
  xres : List XRes
  stores : List PadStore
  resSeq : Nat
  sem : Tab Nat
  semOps : List SemOp
  ctx : Tab SelCtx
  undo : MleUndo
  /-- enable bits of DXE_SCTL (R274) -/
  sen : BitVec 32
  tasks : Tab (Option Task)
  crecs : List CompRec
  /-- the a-cycle of the last change of SEM_MODE, and WRAP before it: a change holds from the next a-cycle on (R238) -/
  modeAt : Nat
  modeWas : Nat
  /-- a-cycle and engine of the last claim (R162) -/
  claimAt : Nat
  claimEng : Nat
  /-- by stream: the a-cycle from which it accepts a task after a refusal (R263), and to which its abort lasts (R272, R275) -/
  sfree : Tab Nat
  sabort : Tab Nat
  /-- words of the section's generator that a-cycles and this core's drains have used up: word 64 · t is the first of a-cycle t (R104) -/
  genAt : Nat
deriving DecidableEq, Repr

/-- An engine after reset (text after R186): HALTED, bank 0, PC 0, empty queue, a loop-descriptor file of zeros. -/
def engReset : Engine where
  mode := .halted
  step := .off
  bank := false
  pc := 0
  queue := []
  fetchAt := 0
  nextAt := 0
  closing := none
  wait := .none
  abort := none
  imem := []
  ubad := []
  ldf := []
  ldPoison := []
  ldq := []

/-- A selector context after reset: not armed (DESIGN CHOICE, log 8). -/
def ctxReset : SelCtx := ⟨false, false, 0, 0, 0, 0, 0, [], false⟩

/-- A VXE register after reset: 1,024 lanes of 0 (DESIGN CHOICE, log 7) with clear flags (R497). -/
def vregReset : List Lane := List.replicate 1024 ⟨0, false⟩

/-- An SXE register after reset. -/
def xregReset : XReg := ⟨0, false⟩

/-- A table slot after reset (DESIGN CHOICE, log 7). -/
def slotReset : List Byte := List.replicate 4160 0

/-- A core after reset. -/
def coreReset : Core where
  eng := []
  insts := []
  nextInst := 0
  vregs := []
  slots := []
  slotP := []
  xregs := []
  vres := []
  xres := []
  stores := []
  resSeq := 0
  sem := []
  semOps := []
  ctx := []
  undo := ⟨[], [], []⟩
  sen := 0
  tasks := []
  crecs := []
  modeAt := 0
  modeWas := 0
  claimAt := 0
  claimEng := 0
  sfree := []
  sabort := []
  genAt := 0

end Sys2Proof.Machine
end

