-- ==== Sys2Proof/Machine/UnitState.lean ====
section
/-!
DEFINITION. The state outside the cores: full/empty operations in flight, sync lines, and the event log (files 08, 10, 16).
-/

namespace Sys2Proof.Machine

/-- Sources of full/empty operations, ranked by R222. -/
inductive FeSrc where
  | eng (c : CoreId) (e : EngId)
  /-- completion FILL of a stream task (R268) -/
  | stream (c : CoreId) (st : Nat)
  /-- FILL of a DONE_WORD by a base-die controller (R320) -/
  | bc (n : N20)
  /-- a notify of a channel (R241) -/
  | exch (chan : Nat)
  | host (f : FuncId)
deriving DecidableEq, Repr

/-- Kinds of full/empty operations (R220). -/
inductive FeKind where
  | drain | fill | peek | take | jmpt
deriving DecidableEq, Repr

/-- A full/empty operation in flight, waiting, or satisfied at a remote word (R220 to R231). -/
structure FeOp where
  id : Nat
  src : FeSrc
  kind : FeKind
  addr : Nat
  isLocal : Bool
  val : W64
  xr : Option Nat
  /-- a-cycle at which a local operation reaches its word (R229) -/
  due : Nat
  /-- instructions of the engine numbered below this must have retired before a remote FILL leaves (R229) -/
  after : Nat
  /-- index of the instruction -/
  idx : BitVec 11
  waiting : Bool
  since : Nat
  /-- value and poison taken at a remote word, on its way back (R230) -/
  got : Option (W64 × Bool)
deriving DecidableEq, Repr

/-- A word of a sync line: value and full bit (R219). -/
structure SyncWord where
  v : W64
  full : Bool
deriving DecidableEq, Repr

/-- An event (R456, R459): its number in the order of the events and, while a refusal is being counted in it (R382), the occurrences
counted so far; then the fields of its record. -/
structure Ev where
  id : Nat
  rep : Nat
  cause : Nat
  cls : Nat
  slice : Nat
  unit : Nat
  sub : Nat
  inst : Nat
  boot : Nat
  tick : Nat
  detail : W64
deriving DecidableEq, Repr

/-- A record of a ring (R456): the event, its SEQ, REPEAT, ARCHIVED bit and whether a READ_LOG has copied it. -/
structure LogRec where
  seq : Nat
  ev : Ev
  rep : Nat
  archived : Bool
  read : Bool
deriving DecidableEq, Repr

/-- The event log (R459): 21 rings oldest first, the next SEQ, rings in loss, events in flight, the next event number, and the
slice-fatal events whose slice has not ended its job (R394): slice, cause and event number. -/
structure EvLog where
  rings : Tab (List LogRec)
  nextSeq : Nat
  loss : Tab Bool
  inFlight : List Ev
  nextEv : Nat
  fatals : List (Nat × Nat × Nat)
deriving DecidableEq, Repr

/-- Error state of an 8-byte word of scratchpad, cache or of a sector (R246, R287, R295). -/
inductive EccErr where
  | none | single | double
deriving DecidableEq, Repr

end Sys2Proof.Machine
end

