-- ==== Sys2Proof/Machine/DevState.lean ====
section
/-!
DEFINITION. The state of the shared units: BUUs, exchange unit, timebase, rings and packets, keys, boot and firmware, power, and the
sideband ports (files 11 to 17); and the model's record of what the device sends out.
-/

namespace Sys2Proof.Machine

/-- What the device puts on its outer links, in order: the model's own record, which no rule of the device reads (DESIGN CHOICE, log 25). -/
inductive OutEv where
  /-- the completion of a BAR0 or BAR2 read -/
  | readReply (f : FuncId) (bytes : List Byte) (poisoned : Bool)
  /-- a write to host memory on behalf of a function (R379) -/
  | hostWrite (f : FuncId) (addr : Nat) (bytes : List Byte)
  /-- a read of host memory on behalf of a function: a slot of a ring, or a buffer that a packet names (R379) -/
  | hostRead (f : FuncId) (addr len : Nat)
  /-- an MSI-X vector (R378) -/
  | interrupt (f : FuncId) (vec : Nat)
  /-- an IFT packet that leaves on port p: the IPv6 address it goes to, its UDP destination and source ports (R338, R340) -/
  | frame (p : PortId) (addr : BitVec 128) (udpDst udpSrc : Nat) (bytes : List Byte)
  /-- a PTP Delay_Req on port p in a domain (R345) -/
  | delayReq (p : PortId) (domain : Nat)
  /-- an in-band interrupt of the I3C target, with its data byte (R487) -/
  | ibi (b : Byte)
  /-- the bytes of an I3C private read (R487) -/
  | i3cRead (bytes : List Byte)
  /-- the register that a test-port instruction puts between TDI and TDO (R488) -/
  | testReg (cells : List Bool)
deriving DecidableEq, Repr

/-- An access that a recalibrating stack holds: a request at its ordering point, or a BAR2 access of a function by its
device address (R299, R466). -/
inductive HeldAcc where
  | req (q : MemReq)
  | read (f : FuncId) (a n : Nat)
  | write (f : FuncId) (a : Nat) (data : List Byte)
  /-- a host FILL of the word at a behind writes of its function (R232) -/
  | fill (f : FuncId) (a : Nat) (v : W64)
deriving DecidableEq, Repr

/-! Parameter update (file 11). -/

/-- Values that pass 2 of a program computes at its start (R319, R321, R322). -/
structure Pass2 where
  c : W32
  eta : W32
  lam : W32
  bc1 : W32
  bc2 : W32
  beta1 : W32
  beta2 : W32
  eps : W32
deriving DecidableEq, Repr

/-- A base-die update unit (R308, R319, R327, R335). -/
structure Buu where
  mode : EngMode
  phase : Nat
  prog : Nat
  span : Nat
  normValid : Bool
  norm : W32
  /-- 1: UPDATE_MODE latched as OVERRIDE for the step (R318) -/
  ovr : Bool
  /-- the current program's pass has begun (its program read, or its pass-2 values computed) -/
  begun : Bool
  /-- the copies of the programs that pass 1 read, by list index (R316) -/
  progs : Tab (List Byte)
  /-- programs refused (R316) -/
  bad : Tab Bool
  /-- groups refused for poison in this step (R325) -/
  refused : Tab Bool
  /-- event number of the first refusal of the step (R454) -/
  first : Option Nat
  sums : Tab W32
  acc : W32
  p2 : Option Pass2
  /-- a record that the exchange unit has for this BUU of a slice without a valid clutch (R363) -/
  due : Option W64
deriving DecidableEq, Repr

/-- A BUU after reset (R433). -/
def buuReset : Buu := ⟨.halted, 0, 0, 0, false, 0, false, false, [], [], [], none, [], 0, none, none⟩

/-! Fabric (file 12). -/

/-- A DATA packet of a sending channel: sequence number, bytes, retransmissions made, and whether one more is due (R341, R342). -/
structure TxPkt where
  seq : Nat
  bytes : List Byte
  tries : Nat
  due : Bool
deriving DecidableEq, Repr

/-- A sending channel to one peer: next sequence number, packets transmitted and not acknowledged, packets not yet transmitted. -/
structure TxChan where
  next : Nat
  sent : List TxPkt
  queue : List TxPkt
deriving DecidableEq, Repr

/-- A receive context (R341): delivery mark, packets held by sequence number, packets landed since the last ACK. -/
structure RxChan where
  mark : BitVec 32
  held : List (BitVec 32 × IftPacket)
  unacked : Nat
deriving DecidableEq, Repr

/-- An exchange taken from the doorbell ring (R354): its descriptor, the slot starts counted when it was taken, whether it has begun
sending, and its last sequence number to each peer. -/
structure Exch where
  desc : List Byte
  ready : Nat
  begun : Bool
  last : List (Nat × Nat)
deriving DecidableEq, Repr

/-- A plan that waits for its EFFECTIVE tick (R353). -/
structure Plan where
  codes : W64
  effective : W64
  moult : W64
deriving DecidableEq, Repr

/-- The norm of a step in combination at a master, or sent and awaited at a member (R363). -/
structure NormRun where
  step : Nat
  sums : Tab W32
  /-- members whose NORMSUM has come, with the packets counted -/
  from_ : List (Nat × Nat)
  /-- this member has sent its own sums -/
  sent : Bool
deriving DecidableEq, Repr

/-- The exchange unit's state for one slice. -/
structure FabSlice where
  plan : Plan
  /-- plans that wait for their EFFECTIVE ticks, in order of arrival -/
  pend : List Plan
  /-- epochs for which the master has marked a record (R364) -/
  marked : List Nat
  bell : Nat
  exch : List Exch
  tx : Tab TxChan
  rx : Tab RxChan
  norm : Option NormRun
  /-- group-sum vectors handed by the slice's BUUs and not yet combined, in order of arrival, with the section (R319 step 3) -/
  vecs : List (Nat × Tab W32)
  /-- tick at which a packet last went to each peer, and last came from it (R366) -/
  lastOut : Tab Nat
  lastIn : Tab Nat
  /-- DATA bytes of the last complete interval, the weight in force, and DATA bytes of the present interval (R462, R463) -/
  bytes : Nat
  weight : Nat
  spent : Nat
  /-- the slot start after which a plan changed the kind of the slot in progress (R352) -/
  kindAt : Option Nat
deriving DecidableEq, Repr

/-- A slice's exchange state after reset: every slot OPEN, no moult epoch (R352, R353). -/
def fabSliceReset : FabSlice := ⟨⟨0, 0, BitVec.allOnes 64⟩, [], [], 0, [], [], [], none, [], [], [], 0, 0, 0, none⟩

/-- The timebase and ports (R345 to R349, R369, R464). -/
structure TimeBase where
  /-- PTP time in ns, valid offsets within ±100 ns in a row, slot of the current period -/
  time : Nat
  good : Nat
  slot : Nat
  /-- slots that have started, and whether the present one was met at its start and not entered by a step (R347, R352) -/
  starts : Nat
  entered : Bool
  /-- cable present at each port; an unlisted port has none (R489, log 10) -/
  cable : Tab Bool
  /-- units whose RECAL_OVERDUE has been logged, stacks 0 to 19 and ports 20 to 27 (R468) -/
  overdue : Tab Bool
  /-- PTP time of the last recalibration of each unit, stacks 0 to 19 and ports 20 to 27 (R464) -/
  last : Tab Nat
  /-- what has recalibrated in the present quiet slot: quadrants 0 to 3, and 4 for a port (R466) -/
  used : List Nat
deriving DecidableEq, Repr

/-! Host interface (file 13). -/

/-- A LOAD_PROGRAM in progress: its image, the cores still to be written, the cores written (R393). -/
structure Loading where
  image : List Byte
  cores : List CoreId
  wrote : Nat
deriving DecidableEq, Repr

/-- A FINAL reply that waits for the sequence number of the event that decided it: status, form, DONE, TOTAL, and the event by its log ring
and number (R388). -/
structure Owed where
  st : Status
  form : Nat
  done : Nat
  total : Nat
  ring : Nat
  ev : Nat
deriving DecidableEq, Repr

/-- A command packet taken and not completed (R384 to R390). -/
structure Taken where
  id : Nat
  f : FuncId
  ring : Fin 4
  bytes : List Byte
  /-- its work has begun -/
  begun : Bool
  /-- DONE of its last PROGRESS reply, and its work done -/
  told : Nat
  done : Nat
  /-- the ring was aborted (R391) -/
  cut : Bool
  /-- its function was reset: its replies are discarded (R380) -/
  mute : Bool
  load : Option Loading
  owed : Option Owed
  /-- PTP time in ns of its last PROGRESS reply, or of its taking (R389) -/
  toldAt : Nat
deriving DecidableEq, Repr

/-- A reply that waits for a free CQ slot (R385): function, ring, its 32 bytes without the phase, and whether it interrupts. -/
structure Reply where
  f : FuncId
  ring : Fin 4
  bytes : List Byte
  vec : Option Nat
  /-- of a FINAL reply: its packet was taken before the packet of this number (R384) -/
  before : Option Nat
deriving DecidableEq, Repr

/-- Why a slice is being scrubbed: for a packet, for a packet that has changed its key (R415), at the end of a job, or at the end of a job
that met the scrub of a new key. -/
inductive ScrubWhy where
  | packet (id : Nat)
  | key (id : Nat)
  | job
  | keyJob
deriving DecidableEq, Repr

/-- The MP's state for rings and packets. -/
structure Mp where
  taken : List Taken
  nextId : Nat
  replies : List Reply
  /-- phase bit of each ring's CQ, by function × 4 + ring; an unlisted one is 1 (R383, R391) -/
  phase : Tab Bool
  /-- credits of each VF, by function; 0 until OPEN_SLICE (R397) -/
  credits : Tab Nat
  /-- VFs enabled to take packets (R393) -/
  vfOn : Tab Bool
  /-- ended-job mask of each reader: ports 0 to 7, functions from 8 (R365) -/
  ended : Tab Nat
  /-- scrub in progress in each slice -/
  scrub : Tab (Option ScrubWhy)
  /-- E of the job end in progress in each slice (R394) -/
  jobE : Tab Nat
  /-- event number of each function's last logged BAR2 refusal (R382) -/
  refusal : Tab (Option Nat)
  /-- SET_POWER_CAP's value waiting for the next interval (R482) -/
  nextCap : Option Nat
deriving DecidableEq, Repr

/-! Keys and signing (file 14). -/

/-- A slice's secrets (R414 to R416, R425, R428). -/
structure SliceSec where
  key : List Byte
  kem : Option (List Byte × List Byte)
  pm : List Byte
  quota : Nat
  used : Nat
deriving DecidableEq, Repr

/-- A slice's secrets after reset: no key (R414), a measurement of zeros (R425). -/
def sliceSecReset : SliceSec := ⟨[], none, List.replicate 32 0, 0, 0⟩

/-- A quote admitted to the open batch: packet, body. -/
structure QuoteReq where
  id : Nat
  body : List Byte
  buf : Nat
deriving DecidableEq, Repr

/-- An identity signature that waits for CONFIRM_SIGN: of the session message, or of an activation by packet. -/
inductive PendSign where
  | session
  | record
  | packet (id : Nat)
deriving DecidableEq, Repr

/-- The SP (R413 to R428). -/
structure Sp where
  slices : Tab SliceSec
  pend : List PendSign
  /-- the session tree has been generated, and the signature of its session message -/
  tree : Bool
  sessSig : Option (List Byte)
  sessUsed : Nat
  /-- no QUOTE can be signed in this boot (R420) -/
  refused : Bool
  /-- the open batch and its size limit in force -/
  batch : List QuoteReq
  batchMax : Nat
  /-- signing state confirmed at boot (R419) -/
  ok : Bool
  keyDraws : Nat
  kemDraws : Nat
  /-- the random key of each key slot since boot, until a key of its slice replaces it (R407) -/
  slotKeys : Tab (List Byte)
deriving DecidableEq, Repr

/-! Non-volatile memory, boot, firmware (files 14, 15). -/

/-- An activation record with the identity signature that covers it. -/
structure RecSig where
  record : List Byte
  sig : List Byte
deriving DecidableEq, Repr

/-- Where a record stands in its ring of 8 locations: its generation, its location, and the writes made there (R464). -/
structure Wear where
  gen : Nat
  loc : Nat
  writes : Nat
deriving DecidableEq, Repr

/-- A record that has not moved. -/
def wearReset : Wear := ⟨0, 0, 0⟩

/-- The MRAM (R297, R407, R419, R423, R435, R461, R464). -/
structure Mram where
  nextA : Option Nat
  nextB : Option Nat
  mono : Nat
  actCount : Nat
  /-- the next partition by register offset; none when MRAM holds none -/
  part : Option (Tab W64)
  retire : Tab (List Nat)
  /-- lists that cannot be read or verified (R298) -/
  retireBad : Tab Bool
  archive : List LogRec
  /-- archive records written since the last boot copied them -/
  archNew : Nat
  cur : Option RecSig
  old : Option RecSig
  active : Fin 2
  /-- the place of each record under wear management, in the order of MramRec -/
  wear : Tab Wear
deriving DecidableEq, Repr

/-- A flash slot (R438, R450): state code and blocks of 65,536 bytes. -/
structure Slot where
  st : Nat
  blocks : List (List Byte)
deriving DecidableEq, Repr

/-- Where a hub boot stands (R435). -/
inductive BootPhase where
  | held | released | rom | stage1 | trained | locked | ready | stopped
deriving DecidableEq, Repr

/-- Processors whose images run: a record of each role's swap (R443 to R446). -/
structure Activation where
  /-- 0 IDLE, 1 SIGNING, 2 BC, 3 QS, 4 MP, 5 REVERTING, 6 BOOT_HEALTH (R450) -/
  phase : Nat
  unit : Nat
  /-- the swap has been made and HEALTH_OK is awaited -/
  swapped : Bool
  pkt : Option Nat
  /-- HEALTH_OK posted by runtime images of a boot-time activation -/
  posted : Nat
  /-- header and manifest of the husk whose SP image runs (R442, R443) -/
  spMan : List Byte
  /-- boot fell back to the other slot: the runtime start is a boot-time activation (R437) -/
  fell : Bool
  /-- the record of this boot's activation has been signed and made current (R448) -/
  boot : Bool
  /-- HUB_FW_IFV as the activation found it (R446, R451) -/
  ifv : W64
deriving DecidableEq, Repr

/-- Boot, flash and firmware state. -/
structure Fw where
  phase : BootPhase
  mram : Mram
  slots : Tab Slot
  act : Activation
  /-- stacks whose training has ended -/
  trained : Tab Bool
  /-- UPDATE_FIRMWARE in progress: packet, blocks left to come, blocks written -/
  upd : Option (Nat × Nat × Nat)
  /-- RESET# is low -/
  pinLow : Bool
deriving DecidableEq, Repr

/-- A slot that holds nothing: EMPTY. -/
def slotReset' : Slot := ⟨0, []⟩

/-! Power and sideband (file 17). -/

/-- The controls of the a-clock, the monitors and the telemetry. -/
structure Pwr where
  thermReq : Nat
  powReq : Nat
  dip : Bool
  /-- of the input and the rails: has the level crossed its warning and not recovered since (R476)? -/
  low : List Bool
  dipMin : Nat
  /-- levels beyond their warning, reset and overvoltage thresholds at the last sample: input then rails 0 to 7 -/
  warn : List Bool
  rst : List Bool
  /-- the input lies above 60.0 V in two samples: the highest so far -/
  ovr : Bool
  overPrev : Bool
  overMax : Nat
  /-- the last thermal readings: 0 none, 1 hot, 2 cool; and a reading over the shutdown limit -/
  band : Nat
  trip : Bool
  /-- watts of the last intervals, newest first -/
  win : List Nat
  /-- sum and number of the input samples of the interval in progress, and of the last intervals, newest first -/
  vacc : Nat × Nat
  vwin : List (Nat × Nat)
  /-- thermal samples since PWR_TEMP was updated (R480, R495) -/
  temps : Nat
  /-- THERMTRIP# latch, and a thermal reset not yet left (R485) -/
  latch : Bool
  tripHold : Bool
  maxRead : Nat
  /-- the auxiliary input is present, and the last sample of the 48 V input in mV (R473, R474) -/
  aux : Bool
  lastMv : Nat
  samples : Nat
  sample : List Byte
  /-- calibrations made of each die's sensors -/
  calib : Tab Nat
deriving DecidableEq, Repr

/-- The I3C target and the test port (R487, R488). -/
structure Side where
  slotId : Nat
  dynAddr : Option (BitVec 7)
  /-- boundary cells preloaded, and whether EXTEST drives them -/
  cells : List Bool
  extest : Bool
  /-- test controller in Test-Logic-Reset -/
  tlr : Bool
deriving DecidableEq, Repr

end Sys2Proof.Machine
end

