-- ==== Sys2Proof/Machine/State.lean ====
section
/-!
DEFINITION. The state of the block, its reset, and the reasons a step can stop.
-/

namespace Sys2Proof.Machine

/-- The whole device. -/
structure State where
  /-- commands that wait, first in first out (the model's own) -/
  pending : List Instr
  /-- a-cycle counter of the model (DESIGN CHOICE, log 2) -/
  now : Nat
  /-- index of the next free value (DESIGN CHOICE, log 3) -/
  freeCtr : Nat
  /-- bytes of the stacks and scratchpads by device address; an unlisted byte reads 0 (DESIGN CHOICE, log 4) -/
  mem : List Host.Cell
  /-- poison tag of each 64-byte unit, line or sector, by device address / 64 -/
  poison : Tab Bool
  /-- full/empty bit of each scratchpad unit, by device address / 64 -/
  feb : Tab Bool
  /-- words of the sync lines of enabled windows, by device address / 8 -/
  syncw : Tab SyncWord
  /-- poison tags of the sync lines of enabled windows, by device address / 64 -/
  syncp : Tab Bool
  /-- errors in 8-byte words, by device address / 8 -/
  ecc : Tab EccErr
  /-- lines present in the shared cache, by device address / 64, and those of them changed and not yet written back (R284) -/
  cached : Tab Bool
  dirty : Tab Bool
  /-- accesses that a recalibrating stack holds, in order (R299, R466) -/
  held : List HeldAcc
  /-- next sector of each stack's patrol scrub (R465) -/
  patrol : Tab Nat
  /-- refreshes made of each stack's banks, the model's own count (R278, log 9) -/
  refreshes : Tab Nat
  /-- BAR0 registers by offset -/
  regs : Tab W64
  /-- a-cycle of the last counter increments, and the increments made in it by register offset × 64 + bit (R80, R182, R242) -/
  incAt : Nat
  incs : Tab Nat
  /-- function-local registers, by function × 2^26 + offset -/
  fregs : Tab W64
  cores : Tab Core
  feOps : List FeOp
  nextOp : Nat
  log : EvLog
  /-- BOOT_COUNT of the MRAM (R435) -/
  bootCount : Nat
  /-- BUUs by section -/
  buu : Tab Buu
  /-- the exchange unit's state by slice -/
  fab : Tab FabSlice
  tb : TimeBase
  mp : Mp
  sp : Sp
  fw : Fw
  pwr : Pwr
  side : Side
  /-- what has gone out on the links, newest first (DESIGN CHOICE, log 25) -/
  out : List OutEv
deriving DecidableEq, Repr

/-- Reasons for a fault. -/
inductive Fault where
  /-- MEMORY_REQUEST_ARRIVE with an address the map does not populate (R280, R281): the device refuses such an access before it
  reaches a memory, so no such arrival exists. Safe: the model stops. -/
  | unpopulatedAddress (a : Nat)
deriving DecidableEq, Repr

/-- Reasons for a refusal. -/
inductive Refusal where
  /-- An arm of the dispatch that has no meaning yet. Safe: the model stops. -/
  | notModelled (mnemonic : String)
deriving DecidableEq, Repr

/-- The MP after reset. -/
def mpReset : Mp := ⟨[], 0, [], [], [], [], [], [], [], [], none⟩

/-- The SP after reset; its random draws go on from the numbers given. -/
def spReset (keys kems : Nat) : Sp := ⟨[], [], false, none, 0, false, [], 0, false, keys, kems, []⟩

/-- No activation in progress. -/
def actReset : Activation := ⟨0, 0, false, none, 0, [], false, false, 0⟩

/-- MRAM and flash as the device leaves manufacture (R435, log 11): counters 0, no partition, no record, a husk in slot 0 alone. -/
def fwReset : Fw :=
  ⟨.held, ⟨some 0, some 0, 0, 0, none, [], [], [], 0, none, none, 0, []⟩, [(0, ⟨5, Config.factoryHusk⟩)], actReset, [], none, false⟩

/-- Power and thermal control after reset: every request at 800 MHz, the auxiliary input present (DESIGN CHOICE, log 12). -/
def pwrReset : Pwr :=
  ⟨800, 800, false, [], 0xFFFF, [], [], false, false, 0, 0, false, [], (0, 0), [], 0, false, false, 0, true, 0, 0, [], []⟩

/-- The sideband ports at power-up (PRESUMED, log 13). -/
def sideReset : Side := ⟨15, none, [], false, true⟩

/-- The device at power-up, held in reset (R12, R433, R434). -/
def State.reset : State where
  pending := []
  now := 0
  freeCtr := 0
  mem := []
  poison := []
  feb := []
  syncw := []
  syncp := []
  ecc := []
  cached := []
  dirty := []
  held := []
  patrol := []
  refreshes := []
  regs := []
  incAt := 0
  incs := []
  fregs := []
  cores := []
  feOps := []
  nextOp := 0
  log := ⟨[], 1, [], [], 1, []⟩
  bootCount := 0
  buu := []
  fab := []
  tb := ⟨0, 0, 0, 0, false, [], [], [], []⟩
  mp := mpReset
  sp := spReset 0 0
  fw := fwReset
  pwr := pwrReset
  side := sideReset
  out := []

end Sys2Proof.Machine
end

