-- ==== Sys2Proof/Machine/Ops.lean ====
section
/-!
DEFINITION. The named operations over registers, cores, the event log and memory that every meaning uses.
-/

namespace Sys2Proof.Machine

/-! Order. -/

/-- Does x come no later than y in an order given by a key? -/
def insertBy {α : Type} (key : α → Nat) (x : α) : List α → List α
  | [] => [x]
  | y :: r => if key x < key y then x :: y :: r else y :: insertBy key x r

/-- A list in rising order of a key, equal keys as they stood. -/
def sortBy {α : Type} (key : α → Nat) (xs : List α) : List α := xs.foldl (fun acc x => insertBy key x acc) []

/-! Registers (R8 to R12). -/

/-- The stored value of a register. -/
def rget (s : State) (r : Reg) : W64 := tget s.regs (regReset r) (regOff r)
/-- A register stored. -/
def rput (s : State) (r : Reg) (v : W64) : State := { s with regs := tset s.regs (regReset r) (regOff r) v }
/-- A field of a register. -/
def rfld (s : State) (r : Reg) (hi lo : Nat) : Nat := bits (rget s r) hi lo
/-- One bit of a register. -/
def rbit (s : State) (r : Reg) (i : Nat) : Bool := bit (rget s r) i
/-- A register with a field replaced. -/
def rsetf (s : State) (r : Reg) (hi lo x : Nat) : State := rput s r (putBits (rget s r) hi lo x)
/-- The increments that counters have had in the current a-cycle. -/
def incsNow (s : State) : Tab Nat := if s.incAt = s.now then s.incs else []
/-- Key of the counter of a register whose lowest bit is lo. -/
def incKey (r : Reg) (lo : Nat) : Nat := 64 * regOff r + lo
/-- An increment of a counter remembered for its a-cycle, which a host write in the same a-cycle adds to the value it writes (R80, R182,
R242). -/
def noteInc (s : State) (r : Reg) (lo k : Nat) : State :=
  { s with incAt := s.now, incs := tset (incsNow s) 0 (incKey r lo) (tget (incsNow s) 0 (incKey r lo) + k) }
/-- A later a-cycle by another clock than the cores': no increment so far is of the one that begins (R242; DESIGN CHOICE, log 139). -/
def laterCycle (s : State) : State := { s with incs := [] }
/-- A counter field raised by k, saturating at its maximum (R79, R182, R242). -/
def rbump (s : State) (r : Reg) (hi lo k : Nat) : State :=
  noteInc (rsetf s r hi lo (satAdd (2 ^ (hi + 1 - lo) - 1) (rfld s r hi lo) k)) r lo k
/-- Key of a function-local register (R381). -/
def fkey (f : FuncId) (r : Reg) : Nat := f.val * 2 ^ 26 + regOff r
/-- The stored value of a function's own copy of a register. -/
def fget (s : State) (f : FuncId) (r : Reg) : W64 := tget s.fregs (regReset r) (fkey f r)
/-- A function's own copy of a register stored. -/
def fput (s : State) (f : FuncId) (r : Reg) (v : W64) : State := { s with fregs := tset s.fregs (regReset r) (fkey f r) v }

/-! Cores and engines. -/

def getCore (s : State) (c : CoreId) : Core := tget s.cores coreReset c.val
def putCore (s : State) (c : CoreId) (k : Core) : State := { s with cores := tset s.cores coreReset c.val k }
def engGet (k : Core) (e : EngId) : Engine := tget k.eng engReset (engIdx e)
def engPut (k : Core) (e : EngId) (g : Engine) : Core := { k with eng := tset k.eng engReset (engIdx e) g }
def getEng (s : State) (c : CoreId) (e : EngId) : Engine := engGet (getCore s c) e
def putEng (s : State) (c : CoreId) (e : EngId) (g : Engine) : State := putCore s c (engPut (getCore s c) e g)
/-- Time moves on to a-cycle t, never back. -/
def advance (s : State) (t : Nat) : State := { s with now := max s.now t }

/-- The section of a core (R6). -/
def coreSect (c : CoreId) : N20 := ⟨c.val / 8, by omega⟩

/-! Slices (R404 to R406). -/

/-- The slice of a section by SECU_SECTMAPnn. -/
def sectSlice (s : State) (n : N20) : Option N20 :=
  if rbit s (.sectmap n) 7 then fin? 20 (rfld s (.sectmap n) 4 0) else none
/-- The slice of a core. -/
def coreSlice (s : State) (c : CoreId) : Option N20 := sectSlice s (coreSect c)
/-- All twenty numbers. -/
def all20 : List N20 := List.finRange 20
/-- The sections of a slice, in increasing number. -/
def sliceSects (s : State) (n : N20) : List N20 := all20.filter fun x => sectSlice s x == some n
/-- The cores of a section, in increasing number. -/
def sectCores (n : N20) : List CoreId := (List.range 8).filterMap fun i => fin? 160 (8 * n.val + i)
/-- The cores of a slice. -/
def sliceCores (s : State) (n : N20) : List CoreId := (sliceSects s n).flatMap sectCores
/-- SLICE byte of an event record: the slice, or 0xFF (R456). -/
def sliceByte (o : Option N20) : Nat := match o with | some n => n.val | none => 0xFF

/-- Fabric state of a slice. -/
def getFab (s : State) (n : N20) : FabSlice := tget s.fab fabSliceReset n.val
def putFab (s : State) (n : N20) (x : FabSlice) : State := { s with fab := tset s.fab fabSliceReset n.val x }
/-- Fabric use in the units of a weight (R462). -/
def shareUse (t : FabSlice) : Nat := 255 * t.bytes / 800000000
/-- Is new consumption of fabric share withheld: use at or over the quota, a new one at once (R462, R463)? -/
def overShare (s : State) (x : N20) : Bool := decide (rfld s (.share x) 7 0 ≤ shareUse (getFab s x))

/-! Events (R456 to R459). -/

/-- Error classes of R452 as CLASS [7:5] encodes them. -/
def clsNone : Nat := 0
def clsCorrected : Nat := 1
def clsPoison : Nat := 2
def clsTask : Nat := 3
def clsSlice : Nat := 4
def clsDevice : Nat := 5

/-- Notice codes of R458. -/
def ntGeneral : Nat := 0xF000
def ntPbTrim : Nat := 0xF001
def ntTimeState : Nat := 0xF002
def ntRecalOverdue : Nat := 0xF003
def ntThrottle : Nat := 0xF004
def ntStackFailed : Nat := 0xF005
def ntLogLost : Nat := 0xF006

/-- Is an event with this cause and class the moment at which a job ends (R453)? A refusal for poison is not yet (R454). -/
def fatalNow (cause cls slice : Nat) : Bool := cls == clsSlice && decide (slice < 20) && cause != stCode .updatePoison

/-- An event logged: it is on its way to the MP (R459). A slice-fatal one will end its slice's job (R394). -/
def logEv (s : State) (cause cls slice unit sub inst : Nat) (detail : W64) : State :=
  let e : Ev := ⟨s.log.nextEv, 0, cause, cls, slice, unit, sub, inst, s.bootCount % 65536, (rget s .tick).toNat, detail⟩
  { s with log := { s.log with
      inFlight := s.log.inFlight ++ [e],
      nextEv := s.log.nextEv + 1,
      fatals := if fatalNow cause cls slice then s.log.fatals ++ [(slice, cause, e.id)] else s.log.fatals } }

/-- DETAIL with bits [63:44] and [43:0] (R456). -/
def mkDetail (hi lo : Nat) : W64 := BitVec.ofNat 64 (hi % 2 ^ 20 * 2 ^ 44 + lo % 2 ^ 44)

/-- An event of an engine: source core and engine, bank and index of the instruction, and an address or count (R172, R457). -/
def logEng (s : State) (c : CoreId) (sub cause cls : Nat) (bank : Bool) (idx : BitVec 11) (lo : Nat) : State :=
  logEv s cause cls (sliceByte (coreSlice s c)) 0 sub c.val (mkDetail ((if bank then 2048 else 0) + idx.toNat) lo)

/-- An event of the device ring that names no cause, with the register offset or address concerned (R458). -/
def logGeneral (s : State) (unit inst lo : Nat) : State := logEv s ntGeneral clsNone 0xFF unit 0xFF inst (mkDetail 0 lo)

/-! The device address map (R280). -/

/-- Base of a core's scratchpad. -/
def padBase (c : CoreId) : Nat := 0xF0000000000 + c.val * 0x400000
/-- Base of a stack. -/
def stkBase (n : N20) : Nat := n.val * 0x1000000000

/-- What stands at a device address. -/
inductive Place where
  | stack (n : N20) (off : Nat)
  | pad (c : CoreId) (off : Nat)
  /-- operation windows 0 ADD, 1 MIN, 2 MAX, 3 SWAP, 4 CAS over a populated stack byte -/
  | win (k : Nat) (n : N20) (off : Nat)
  | nothing
deriving DecidableEq, Repr

/-- The populated stack byte at an offset of a 20 × 64 GiB range. -/
def stackAt (a : Nat) : Option (N20 × Nat) :=
  if a % 0x1000000000 < 0xC00000000 then (fin? 20 (a / 0x1000000000)).map fun n => (n, a % 0x1000000000) else none

/-- The map of R280. -/
def placeOf (a : Nat) : Place :=
  if a < 0x20000000000 then
    (match stackAt a with | some p => .stack p.1 p.2 | none => .nothing)
  else if a < 0xC0000000000 then
    (match stackAt (a % 0x20000000000) with | some p => .win (a / 0x20000000000 - 1) p.1 p.2 | none => .nothing)
  else if 0xF0000000000 ≤ a then
    (match fin? 160 ((a - 0xF0000000000) / 0x400000) with
     | some c => .pad c ((a - 0xF0000000000) % 0x400000)
     | none => .nothing)
  else .nothing

/-- The slice that owns the memory at an address, by the slice map. -/
def addrSlice (s : State) (a : Nat) : Option N20 :=
  match placeOf a with
  | .stack n _ => sectSlice s n
  | .pad c _ => coreSlice s c
  | .win _ n _ => sectSlice s n
  | .nothing => none

/-- Is a stack open to accesses (READY or RECAL, R300)? -/
def stackOpen (s : State) (n : N20) : Bool := rfld s (.mcState n) 63 60 == 2 || rfld s (.mcState n) 63 60 == 3

/-- Has stage 1 admitted accesses to the stacks: their retirement lists are loaded (R298, R435 step 4)? -/
def memUp (s : State) : Bool := s.fw.phase == .locked || s.fw.phase == .ready || s.fw.phase == .stopped

/-- Is a stack in RECAL, where its controller holds accesses (R299)? -/
def inRecal (s : State) (n : N20) : Bool := rfld s (.mcState n) 63 60 == 3
/-- Is a slice being scrubbed under a new key? It takes no other access before the scrub has ended (R415; DEDUCED, log 123). -/
def rekeying (s : State) (n : N20) : Bool := match tget s.mp.scrub none n.val with | some (.key _) | some .keyJob => true | _ => false
/-- Is the slice of a section? -/
def sectRekeys (s : State) (n : N20) : Bool := !s.mp.scrub.isEmpty && match sectSlice s n with | some x => rekeying s x | none => false
/-- Is the slice of an address? -/
def addrRekeys (s : State) (a : Nat) : Bool := !s.mp.scrub.isEmpty && match addrSlice s a with | some x => rekeying s x | none => false
/-- Are a section's accesses held: its stack in RECAL, or its slice under a new key? -/
def sectHeld (s : State) (n : N20) : Bool := inRecal s n || sectRekeys s n
/-- Does any byte of a list of ranges lie on a stack in RECAL, or in a slice that takes no access under its new key? -/
def holdsRange (s : State) (rs : List (Nat × Nat)) : Bool :=
  rs.any fun r => r.2 != 0 &&
    (all20.any (fun n => inRecal s n && decide (r.1 < stkBase n + 0xC00000000 ∧ stkBase n < r.1 + r.2)) ||
      addrRekeys s r.1 || addrRekeys s (r.1 + r.2 - 1))

/-- The first element that satisfies p taken out. -/
def takeOut {α : Type} (p : α → Bool) : List α → List α
  | [] => []
  | x :: r => if p x then r else x :: takeOut p r

/-! Retired pages and sync windows. -/

/-- Is page p of stack n on its retirement list (R297, R306)? -/
def pageRetired (s : State) (n : N20) (p : Nat) : Bool :=
  (List.range (rfld s (.retireStat n) 41 32)).any fun i =>
    match fin? 512 i with
    | some k => rfld s (.retireList n k) 19 0 == p
    | none => false

/-- Is a stack offset on a sync line of its section's enabled window (R227, R228)? -/
def inWindow (s : State) (n : N20) (off : Nat) : Bool :=
  rbit s (.syncWin n) 63 &&
    (let base := rfld s (.syncWin n) 19 0 * 0x10000
     decide (base ≤ off) && decide (off < base + 64 * rfld s (.syncWin n) 42 32))

/-- How a 64-byte unit at device address 64 u is held. -/
inductive Home where
  | pad (c : CoreId) (unit : Nat)
  | sync (n : N20)
  | retired (n : N20)
  | dram (n : N20)
  | nowhere
deriving DecidableEq, Repr

/-- Where unit u is held: a sync line is held in the cache slice, never in the DRAM (R228). -/
def homeOf (s : State) (u : Nat) : Home :=
  match placeOf (64 * u) with
  | .pad c off => .pad c (off / 64)
  | .stack n off =>
    if inWindow s n off then .sync n
    else if pageRetired s n (off / 0x10000) then .retired n
    else .dram n
  | _ => .nowhere

/-! Memory by units of 64 bytes (R244, R282). -/

/-- An unlisted byte reads 0 (DESIGN CHOICE, log 4). -/
def memDefault : Byte := 0
/-- A byte of the stored memory. -/
def memByte (s : State) (a : Nat) : Byte := tget s.mem memDefault a

/-- The 64 bytes of a unit as a reader receives them: a held sync line (R228), zeros for a retired page (R297), else memory. -/
def unitBytes (s : State) (u : Nat) : List Byte :=
  match homeOf s u with
  | .sync _ => (List.range 8).flatMap fun k => leBytes 8 (tget s.syncw ⟨0, false⟩ (8 * u + k)).v.toNat
  | .retired _ => List.replicate 64 0
  | _ => tread s.mem memDefault (64 * u) 64

/-- The poison of a unit as a reader receives it. -/
def unitPoison (s : State) (u : Nat) : Bool :=
  match homeOf s u with
  | .retired _ => true
  | .sync _ => tget s.syncp false u
  | _ => tget s.poison false u

/-- n bytes from a device address. -/
def memBytes (s : State) (a n : Nat) : List Byte :=
  if n = 0 then []
  else
    let u := a / 64
    let all := (List.range ((a + n - 1) / 64 + 1 - u)).flatMap fun i => unitBytes s (u + i)
    (all.drop (a % 64)).take n

/-- Does any unit of the n bytes at a carry poison? -/
def memPoison (s : State) (a n : Nat) : Bool :=
  n != 0 && (List.range ((a + n - 1) / 64 + 1 - a / 64)).any fun i => unitPoison s (a / 64 + i)

/-- A little-endian number of n bytes at a. -/
def memNat (s : State) (a n : Nat) : Nat := leNat (memBytes s a n)

/-- Is unit u a held sync line? -/
def isSync (s : State) (u : Nat) : Bool := match homeOf s u with | .sync _ => true | _ => false
/-- The stored poison tag of a unit: a held sync line has its own, apart from the sector under it (R228). -/
def tagOf (s : State) (u : Nat) : Bool := if isSync s u then tget s.syncp false u else tget s.poison false u
/-- A unit's poison tag set or cleared. -/
def setPoison (s : State) (u : Nat) (p : Bool) : State :=
  if isSync s u then { s with syncp := tset s.syncp false u p } else { s with poison := tset s.poison false u p }
/-- Poison tags set on every unit of the n bytes at a. -/
def tagRange (s : State) (a n : Nat) : State :=
  if n = 0 then s
  else
    let us := (List.range ((a + n - 1) / 64 + 1 - a / 64)).map fun i => a / 64 + i
    { s with poison := twrite s.poison false (a / 64) (us.map fun u => if isSync s u then tget s.poison false u else true),
             syncp := twrite s.syncp false (a / 64) (us.map fun u => if isSync s u then true else tget s.syncp false u) }

/-- Key of the errors of a held sync line's words, and of a cached line's words, apart from those of the stack words under them (R228,
R287). -/
def syncErr (u k : Nat) : Nat := 2 ^ 41 + 8 * u + k
def lineErr (u k : Nat) : Nat := 2 ^ 42 + 8 * u + k
/-- Key of word k of unit u in the table of errors, where a reader finds the unit. -/
def eccKey (s : State) (u k : Nat) : Nat := if isSync s u then syncErr u k else if tget s.cached false u then lineErr u k else 8 * u + k
/-- Number of words of unit u, among those in ks, with a single error. -/
def singles (s : State) (u : Nat) (ks : List Nat) : Nat := (ks.filter fun k => tget s.ecc .none (eccKey s u k) == .single).length
/-- Has some word of unit u, among those in ks, a double error? -/
def doubles (s : State) (u : Nat) (ks : List Nat) : Bool := ks.any fun k => tget s.ecc .none (eccKey s u k) == .double

/-- The words of a unit. -/
def words8 : List Nat := [0, 1, 2, 3, 4, 5, 6, 7]

/-- Is unit u read from the DRAM: a stack's, on no retired page, sync line or cached line? -/
def fromDram (s : State) (u : Nat) : Bool := match homeOf s u with | .dram _ => !tget s.cached false u | _ => false

/-- What a read of the words ks of unit u finds: words corrected, and whether an uncorrectable error meets a clear tag. The symbol code of
a DRAM sector corrects one symbol and detects two (R295). -/
def eccFind (s : State) (u : Nat) (ks : List Nat) : Nat × Bool :=
  let n := singles s u ks
  let two := doubles s u ks
  if fromDram s u then (if n = 1 ∧ !two then 1 else 0, (two || decide (2 ≤ n)) && !tagOf s u) else (n, two && !tagOf s u)

/-- The counts, tag and event that a finding in a line or sync line of a cache slice makes (R287). -/
def lineRecord (s : State) (n : N20) (u : Nat) (one : Nat) (two : Bool) : State :=
  let s := rbump s (.cacheStat n) 63 48 one
  if two then
    let s := rbump (setPoison s u true) (.cacheStat n) 47 32 1
    logEv s (stCode .memUncorrectable) clsPoison (sliceByte (sectSlice s n)) 2 0xFF n.val (mkDetail 0 (64 * u))
  else s

/-- The counts, tag and event that a finding makes (R246, R287, R295, R296). -/
def eccRecord (s : State) (u : Nat) (one : Nat) (two : Bool) : State :=
  match homeOf s u with
  | .pad c unit =>
    let s := rbump s (.spadStat c) 63 48 one
    if two then
      let s := rbump (setPoison s u true) (.spadStat c) 47 32 1
      let s := rsetf s (.spadStat c) 15 0 unit
      logEv s (stCode .memUncorrectable) clsPoison (sliceByte (coreSlice s c)) 1 0xFF c.val (mkDetail 0 (64 * unit))
    else s
  | .sync n => lineRecord s n u one two
  | .dram n =>
    if tget s.cached false u then lineRecord s n u one two
    else
      let s := if one = 0 then s else rbump s (.eccCnt n) 63 32 1
      if two then
        let s := rbump (setPoison s u true) (.eccCnt n) 31 16 1
        let s := rput s (.lastUe n) (putBits (putBits (rget s (.lastUe n)) 35 0 (64 * u - stkBase n)) 63 63 1)
        logEv s (stCode .memUncorrectable) clsPoison (sliceByte (sectSlice s n)) 3 0xFF n.val
          (mkDetail ((64 * u - stkBase n) / 0x10000) (64 * u))
      else s
  | _ => s

/-- The check that a read makes of the words ks of unit u: corrections are counted; a double-bit error tags a clear unit, counts and
logs (R246, R287, R295, R296); a sector of a retired page adds a hit (R297). -/
def eccCheck (s : State) (u : Nat) (ks : List Nat) : State :=
  match homeOf s u with
  | .retired n => rbump s (.retireStat n) 31 0 1
  | _ =>
    let f := eccFind s u ks
    if f.1 = 0 ∧ !f.2 then s else eccRecord s u f.1 f.2

/-- The codes of words ks of unit u written afresh, in its DRAM sector or scratchpad, or in its copy in the cache. -/
def freshWords (s : State) (key : Nat → Nat) (ks : List Nat) : State :=
  { s with ecc := ks.foldl (fun t k => tset t .none (key k) .none) s.ecc }

/-- The line of unit u leaves its cache slice; its copy is dropped. -/
def dropLine (s : State) (u : Nat) : State :=
  { s with cached := tset s.cached false u false, dirty := tset s.dirty false u false, ecc := tclear s.ecc (lineErr u 0) 8 }

/-- The check of a cached line that leaves its slice: no access of a retired page, which it may lie in (R287, R297). -/
def lineCheck (s : State) (u : Nat) : State :=
  match homeOf s u with
  | .retired n =>
    let f := eccFind s u words8
    if f.1 = 0 ∧ !f.2 then s else lineRecord s n u f.1 f.2
  | _ => eccCheck s u words8

/-- The line of unit u is evicted: a changed one is read and written back (R284, R287). -/
def evictLine (s : State) (u : Nat) : State :=
  dropLine (if tget s.dirty false u then freshWords (lineCheck s u) (fun k => 8 * u + k) words8 else s) u

/-- The ordinary lines in the cache slice of section n, and those of them in the set of unit u (R284, R285; DESIGN CHOICE, log 89). -/
def sectLines (s : State) (n : N20) : List Nat := (s.cached.map Prod.fst).filter fun v => v / 0x40000000 == n.val
def sameSet (u v : Nat) : Bool := Config.cacheSet v % 16384 == Config.cacheSet u % 16384
def setLines (s : State) (n : N20) (u : Nat) : List Nat := (sectLines s n).filter (sameSet u)

/-- The sync lines of the section's enabled window, which its cache slice holds beside them (R228, R284). -/
def winLines (s : State) (n : N20) : List Nat :=
  if rbit s (.syncWin n) 63 then
    (List.range (rfld s (.syncWin n) 42 32)).map fun j => (stkBase n + rfld s (.syncWin n) 19 0 * 0x10000) / 64 + j
  else []

/-- Ways of the set of unit u that sync lines take: they are never evicted (R228). -/
def winWays (s : State) (n : N20) (u : Nat) : Nat := ((winLines s n).filter (sameSet u)).length

/-- A free value: the next of the uninterpreted sequence (DESIGN CHOICE, log 3). -/
def drawFree (s : State) : State × W64 := ({ s with freeCtr := s.freeCtr + 1 }, Config.freeValue s.freeCtr)

/-- Is a way of the set of unit u taken by no sync line? -/
def hasWay (s : State) (n : N20) (u : Nat) : Bool := decide (rfld s (.syncWin n) 42 32 < 16) || decide (winWays s n u < 16)

/-- The set of unit u of section n where its lines, sync lines among them, take more ways than it has: an ordinary line leaves it, which one is a
free value (R228, R284, R285; DESIGN CHOICE, log 89). more: the ways that a line to come takes. -/
def evictWay (s : State) (n : N20) (u more : Nat) : State :=
  if (sectLines s n).length + (winLines s n).length + more ≤ 16 then s
  else
    let ways := setLines s n u
    if ways.length + winWays s n u + more ≤ 16 ∨ ways = [] then s
    else
      let d := drawFree s
      evictLine d.1 (nthD ways (d.2.toNat % ways.length) u)

/-- The line of unit u of section n is allocated, in place of another of its set where all 16 ways are taken; none where sync lines take them
all (R228, R284, R285; DESIGN CHOICE, log 89). -/
def takeLine (s : State) (n : N20) (u : Nat) : State :=
  if tget s.cached false u || !hasWay s n u then s
  else
    let s := evictWay s n u 1
    { s with cached := tset s.cached false u true, ecc := tclear s.ecc (lineErr u 0) 8 }

/-- A read of unit u by an engine, a stream, the exchange unit or BAR2: the check, and an allocation where the policy asks for it
(R285). -/
def touchUnit (s : State) (u : Nat) : State :=
  let s := eccCheck s u words8
  match homeOf s u with
  | .dram n => if rbit s (.cacheCtl n) 0 then takeLine s n u else s
  | _ => s

/-- A read of every unit of n bytes at a. -/
def touchRange (s : State) (a n : Nat) : State :=
  if n = 0 then s
  else (List.range ((a + n - 1) / 64 + 1 - a / 64)).foldl (fun s i => touchUnit s (a / 64 + i)) s

/-- The units that byte ranges meet, each once. -/
def unitsMet (rs : List (Nat × Nat)) : List Nat :=
  (rs.foldl (fun (t : Tab Bool) r =>
    if r.2 = 0 then t
    else (List.range ((r.1 + r.2 - 1) / 64 + 1 - r.1 / 64)).foldl (fun t i => tset t false (r.1 / 64 + i) true) t) []).map Prod.fst

/-- A read of byte ranges in one step: each unit that they meet is read once. -/
def touchAll (s : State) (rs : List (Nat × Nat)) : State := (unitsMet rs).foldl (fun s u => touchUnit s u) s

/-- The same by the base die, which takes no line into the cache (R286). -/
def touchBase (s : State) (rs : List (Nat × Nat)) : State := (unitsMet rs).foldl (fun s u => eccCheck s u words8) s

/-- A change of one byte of a unit: the bits replaced (0 none, 0xFF all) and their values. -/
abbrev ByteCh := Byte × Byte

/-- Words of a unit that a list of 64 changes covers whole, and those it covers in part. -/
def wordsWhole (ch : List ByteCh) : List Nat := words8.filter fun k => ((ch.drop (8 * k)).take 8).all fun x => x.1 == 0xFF
def wordsPart (ch : List ByteCh) : List Nat :=
  words8.filter fun k => ((ch.drop (8 * k)).take 8).any (fun x => x.1 != 0) && !((ch.drop (8 * k)).take 8).all fun x => x.1 == 0xFF

/-- Bytes with changes made. -/
def mergeBytes (old : List Byte) (ch : List ByteCh) : List Byte := List.zipWith (fun o x => (o &&& ~~~x.1) ||| (x.2 &&& x.1)) old ch

/-- Is the line of unit u present in its cache slice after a write (R285, R286)? The base die never changes it; a whole line that does
not allocate invalidates a copy; a miss allocates where the policy asks for it. -/
def cachedAfter (s : State) (base : Bool) (n : N20) (u : Nat) (whole : Bool) : Bool :=
  let hit := tget s.cached false u
  let alloc := rbit s (.cacheCtl n) 1 && hasWay s n u
  if base then hit else if hit then !whole || alloc else alloc

/-- The codes of a whole sector written anew. -/
def freshSector (s : State) (u : Nat) : State := freshWords s (fun k => 8 * u + k) words8

/-- The codes and the line of a stack unit after a write: the copy that stays is changed, the base die writes both (R284 to R287). -/
def lineAfter (base : Bool) (s : State) (n : N20) (u : Nat) (whole : Bool) (ks : List Nat) : State :=
  let hit := tget s.cached false u
  if base then (if hit then freshWords (freshSector s u) (lineErr u) ks else freshSector s u)
  else if cachedAfter s base n u whole then
    let t := freshWords (takeLine s n u) (lineErr u) ks
    { t with dirty := tset t.dirty false u true }
  else freshSector (if hit then dropLine s u else s) u

/-- 64 changes of unit u take effect, with the poison of the data, by the base die or not: words written get a fresh code, a whole unit
takes the data's poison, a part keeps a set tag (R246, R287, R296). -/
def putMasked (base : Bool) (s : State) (u : Nat) (ch : List ByteCh) (p : Bool) : State :=
  let whole := ch.all fun x => x.1 == 0xFF
  let ks := wordsWhole ch ++ wordsPart ch
  let bs := mergeBytes (unitBytes s u) ch
  let s := setPoison s u (p || (!whole && tagOf s u))
  match homeOf s u with
  | .retired _ | .nowhere => s
  | .sync _ =>
    let t := freshWords s (syncErr u) ks
    { t with syncw := words8.foldl (fun t k => tset t ⟨0, false⟩ (8 * u + k)
        ⟨BitVec.ofNat 64 (fieldAt bs (8 * k) 8), (tget t ⟨0, false⟩ (8 * u + k)).full⟩) t.syncw }
  | .dram n => lineAfter base { s with mem := twrite s.mem memDefault (64 * u) bs } n u whole ks
  | .pad _ _ =>
    let t := freshWords s (fun k => 8 * u + k) ks
    { t with mem := twrite t.mem memDefault (64 * u) bs }

/-- A write to unit u by 64 changes, with the poison of the data, by the base die or not (R246, R287, R296): words covered in part are
read first, a DRAM sector covered in part whole. -/
def writeMaskedAs (base : Bool) (s : State) (u : Nat) (ch : List ByteCh) (p : Bool) : State :=
  if ch.all fun x => x.1 == 0 then s
  else
    match homeOf s u with
    | .retired n => rbump s (.retireStat n) 31 0 1
    | .nowhere => s
    | _ =>
      let part := if fromDram s u then (if ch.all fun x => x.1 == 0xFF then [] else words8) else wordsPart ch
      putMasked base (eccCheck s u part) u ch p

/-- A write by any unit but the base die. -/
def writeMasked (s : State) (u : Nat) (ch : List ByteCh) (p : Bool) : State := writeMaskedAs false s u ch p

/-- The changes that write new bytes at offset o of a unit. -/
def chOf (o : Nat) (new : List Byte) : List ByteCh :=
  let front := List.replicate o ((0, 0) : ByteCh) ++ new.map fun b => (0xFF, b)
  front ++ List.replicate (64 - front.length) (0, 0)

/-- A write of bytes at offset o of unit u. -/
def writeUnit (s : State) (u o : Nat) (new : List Byte) (p : Bool) : State := writeMasked s u (chOf o new) p

/-- A write of bytes at a device address, split into units; p gives the poison of the data for each unit in order. -/
def writeBytes (s : State) (a : Nat) (bs : List Byte) (p : Nat → Bool) : State :=
  if bs = [] then s
  else
    (List.range ((a + bs.length - 1) / 64 + 1 - a / 64)).foldl (fun s i =>
      let lo := if i = 0 then a else 64 * (a / 64 + i)
      let hi := min (a + bs.length) (64 * (a / 64 + i + 1))
      writeUnit s (a / 64 + i) (lo % 64) ((bs.drop (lo - a)).take (hi - lo)) (p i)) s

/-- A write whose data is poisoned throughout or not at all. -/
def writeAll (s : State) (a : Nat) (bs : List Byte) (p : Bool) : State := writeBytes s a bs fun _ => p

/-- One word of a section's generator (R50): the generator's next state and the state after the draw. -/
def drawRng (s : State) (n : N20) : State × BitVec 32 :=
  let x := rngNext (BitVec.ofNat 32 (rfld s (.srng n) 31 0))
  (rput s (.srng n) (BitVec.ofNat 64 x.toNat), x)

end Sys2Proof.Machine
end

