-- ==== Sys2Proof/Machine/Operands.lean ====
section
/-!
DEFINITION. Operand reads of the engines: register values at an a-cycle (R167, R168), the loop descriptor an instruction names
(R158 to R160, R192), and the dispatch-slot length under LATCHECK (R170).
-/

namespace Sys2Proof.Machine

/-- The result that holds a register at a-cycle t: the latest landed by then, a tie going to the later dispatched (R168). -/
def lastV (rs : List VRes) (reg t : Nat) : Option VRes :=
  rs.foldl (fun acc r =>
    if r.reg = reg ∧ r.due ≤ t then
      match acc with
      | none => some r
      | some a => if a.due < r.due ∨ (a.due = r.due ∧ a.seq ≤ r.seq) then some r else some a
    else acc) none

/-- Vector register reg as an instruction dispatched at a-cycle t reads it (R167). -/
def vregAt (k : Core) (t reg : Nat) : List Lane :=
  match lastV k.vres reg t with
  | some r => r.lanes
  | none => tget k.vregs vregReset reg

/-- As lastV, for register reg of a pipe. -/
def lastX (rs : List XRes) (pipe reg t : Nat) : Option XRes :=
  rs.foldl (fun acc r =>
    if r.pipe = pipe ∧ r.reg = reg ∧ r.due ≤ t then
      match acc with
      | none => some r
      | some a => if a.due < r.due ∨ (a.due = r.due ∧ a.seq ≤ r.seq) then some r else some a
    else acc) none

/-- Key of an SXE register: pipe and number. -/
def xkey (pipe reg : Nat) : Nat := 32 * pipe + reg

/-- Register reg of a pipe as an instruction dispatched at a-cycle t reads it (R167). -/
def xregAt (k : Core) (t pipe reg : Nat) : XReg :=
  match lastX k.xres pipe reg t with
  | some r => r.val
  | none => tget k.xregs xregReset (xkey pipe reg)

/-- Has vector register reg a result in flight at t (R170)? -/
def vInFlight (k : Core) (t reg : Nat) : Bool := k.vres.any fun r => r.reg == reg && decide (t < r.due)
/-- Has a pipe's register a result in flight at t? -/
def xInFlight (k : Core) (t pipe reg : Nat) : Bool := k.xres.any fun r => r.pipe == pipe && r.reg == reg && decide (t < r.due)

/-- LATCHECK of an engine: 0 OFF, 1 LOG, 2 HALT; 0 in the engines that have none (R179). -/
def latcheck (s : State) (c : CoreId) (e : EngId) : Nat :=
  match e with
  | .vxe | .sxe => rfld s (.eng c e .ctl) 6 5
  | _ => 0

/-- a-cycles per dispatch slot and per unit of latency: 2 under LATCHECK LOG or HALT (R170). -/
def slotLen (s : State) (c : CoreId) (e : EngId) : Nat := if latcheck s c e = 0 then 1 else 2

/-- Bytes of entry n of an engine's loop-descriptor file. -/
def ldBytes (g : Engine) (n : Nat) : List Byte := tread g.ldf 0 (128 * n) 128

/-- The loop descriptor an instruction names: entry 0 is fixed (R158); a poisoned or invalid entry fails check 2 (R160, R192). -/
def ldEntry (g : Engine) (n : Nat) : Option LoopDesc :=
  if n = 0 then some loopOne
  else if (tget g.ldPoison none n).isSome then none
  else parseLoop (ldBytes g n)

/-- Is entry n still being loaded by an ENG.LDLOAD (R160)? -/
def ldLoading (g : Engine) (n : Nat) : Bool := g.ldq.any fun x => x.entry == n

/-- A local address: base plus an offset that may be negative, as a device address of the core's scratchpad. -/
def padAddr (c : CoreId) (a : Int) : Nat := padBase c + a.toNat

end Sys2Proof.Machine
end

