-- ==== Sys2Proof/Machine/Vxe.lean ====
section
/-!
DEFINITION. The vector engine: the checks of its words (R204, R205, R207 to R209), one function per opcode from source lanes to
result lanes (R205 to R208, R133, R497), and the execution of an instruction's loop nest (R159, R167, R209).
-/

namespace Sys2Proof.Machine

/-- The float result of a lane: F32 rounded once, or two BF16 elements rounded once each (R46, R53). -/
def laneF (ty : Nat) (f : Val → Val → Val) (a b : W32) : W32 :=
  if ty = 1 then
    let h (hi lo : Nat) : Nat := (toBf16 (f (decodeNum .bf16 (bits a hi lo)) (decodeNum .bf16 (bits b hi lo)))).toNat
    BitVec.ofNat 32 (h 15 0 + 65536 * h 31 16)
  else toF32 (f (f32 a) (f32 b))

/-- A mask of all ones or all zeros (R205). -/
def maskOf (b : Bool) : W32 := if b then 0xFFFFFFFF else 0

def laneAdd (ty : Nat) (a b : W32) : W32 := if ty = 2 then a + b else laneF ty addV a b
def laneSub (ty : Nat) (a b : W32) : W32 := if ty = 2 then a - b else laneF ty (fun x y => addV x (negV y)) a b
def laneMul (ty : Nat) (a b : W32) : W32 := if ty = 2 then a * b else laneF ty mulV a b
/-- Fused multiply-add, rounded once. -/
def laneFma (ty : Nat) (a b c : W32) : W32 :=
  if ty = 1 then
    let h (hi lo : Nat) : Nat :=
      (toBf16 (addV (mulV (decodeNum .bf16 (bits a hi lo)) (decodeNum .bf16 (bits b hi lo))) (decodeNum .bf16 (bits c hi lo)))).toNat
    BitVec.ofNat 32 (h 15 0 + 65536 * h 31 16)
  else f32Fma a b c
def laneMax (ty : Nat) (a b : W32) : W32 := if ty = 2 then (if a.slt b then b else a) else laneF ty maxV a b
def laneMin (ty : Nat) (a b : W32) : W32 := if ty = 2 then (if b.slt a then b else a) else laneF ty minV a b
def laneAbs (ty : Nat) (a : W32) : W32 := if ty = 2 then (if a.slt 0 then -a else a) else laneF ty (fun x _ => absV x) a a
def laneNeg (ty : Nat) (a : W32) : W32 := if ty = 2 then -a else laneF ty (fun x _ => negV x) a a
def laneCmpLt (ty : Nat) (a b : W32) : W32 := maskOf (if ty = 2 then a.slt b else ltV (f32 a) (f32 b))
def laneCmpLe (ty : Nat) (a b : W32) : W32 := maskOf (if ty = 2 then a.sle b else leV (f32 a) (f32 b))
def laneCmpEq (ty : Nat) (a b : W32) : W32 := maskOf (if ty = 2 then a == b else eqV (f32 a) (f32 b))
def laneCmpNe (ty : Nat) (a b : W32) : W32 := maskOf (if ty = 2 then a != b else !eqV (f32 a) (f32 b))

/-- Is a value of w bits zero to a unit that tests it, minus zero being a zero in the float types (R53)? -/
def testZero (isF : Bool) (w v : Nat) : Bool := v == 0 || (isF && v == 2 ^ (w - 1))

/-- Selection with the bits unchanged; packed BF16 selects each element by its own element of VC (DEDUCED, log 21). -/
def laneSel (ty : Nat) (a b c : W32) : W32 :=
  if ty = 1 then
    let h (hi lo : Nat) : Nat := if testZero true 16 (bits c hi lo) then bits b hi lo else bits a hi lo
    BitVec.ofNat 32 (h 15 0 + 65536 * h 31 16)
  else if testZero (ty == 0) 32 c.toNat then b else a

def laneAnd (a b : W32) : W32 := a &&& b
def laneOr (a b : W32) : W32 := a ||| b
def laneXor (a b : W32) : W32 := a ^^^ b
def laneShl (a b : W32) : W32 := a <<< (b.toNat % 32)
def laneShr (a b : W32) : W32 := a >>> (b.toNat % 32)
def laneSar (a b : W32) : W32 := a.sshiftRight (b.toNat % 32)

/-- teval of R133 on the 4,160 bytes of a table slot (R132). -/
def teval (tab : List Byte) (x : W32) : W32 :=
  let f (o : Nat) : W32 := BitVec.ofNat 32 (fieldAt tab o 4)
  if (f32 x).isNan then 0x7FC00000
  else
    let v := f32Fma x (f 0) (f 4)
    if (f32 v).isNan then 0x7FC00000
    else if ltV (f32 v) Val.zero then
      (if (f32 (f 8)).isZero then toF32 (f32 (f 12)) else f32Fma (f 8) x (f 12))
    else if leV (.fin false 256 0) (f32 v) then
      (if (f32 (f 16)).isZero then toF32 (f32 (f 20)) else f32Fma (f 16) x (f 20))
    else
      let n := floorV (f32 v)
      let i := (intOf n).toNat
      let u := toF32 (addV (f32 v) (negV n))
      let c (j : Nat) : W32 := f (64 + 16 * i + 4 * j)
      f32Fma (f32Fma (f32Fma (c 3) u (c 2)) u (c 1)) u (c 0)

/-- Element-wise operation of one source. -/
def map1 (f : W32 → W32) (a : List Lane) : List Lane := a.map fun x => ⟨f x.v, x.p⟩
/-- Element-wise operation of two sources: a poisoned operand poisons the lane (R497). -/
def map2 (f : W32 → W32 → W32) (a b : List Lane) : List Lane := List.zipWith (fun x y => ⟨f x.v y.v, x.p || y.p⟩) a b
/-- Element-wise operation of three sources. -/
def map3 (f : W32 → W32 → W32 → W32) (a b c : List Lane) : List Lane :=
  List.zipWith (fun (x : Lane × Lane) z => ⟨f x.1.v x.2.v z.v, x.1.p || x.2.p || z.p⟩) (List.zip a b) c
/-- The same value in every lane; any poisoned source lane poisons every lane (R497). -/
def spread (v : W32) (a : List Lane) : List Lane := List.replicate 1024 ⟨v, a.any Lane.p⟩

/-- Reduction of all lanes by the tree of R46. -/
def redLanes (f : W32 → W32 → W32) (a : List Lane) : List Lane := spread ((treeReduce f 10 (a.map Lane.v)).headD 0) a

/-- Number of nonzero lanes. -/
def popcLanes (a : List Lane) : List Lane := spread (BitVec.ofNat 32 (a.filter fun x => x.v != 0).length) a

/-- Permutation: lane i takes lane VB_i mod 1,024 of VA (R205, R497). -/
def permLanes (a b : List Lane) : List Lane :=
  b.map fun y => let x := nthD a (y.v.toNat % 1024) ⟨0, false⟩; ⟨x.v, x.p || y.p⟩

/-- Bytes of codes of w bits, two 4-bit codes per byte (R33). -/
def packCodes (w : Nat) (cs : List Nat) : List Byte :=
  if w = 4 then
    (match cs with
     | [] => []
     | [a] => [BitVec.ofNat 8 (a % 16)]
     | a :: b :: r => BitVec.ofNat 8 (a % 16 + 16 * (b % 16)) :: packCodes w r)
  else cs.flatMap fun c => leBytes (w / 8) c

/-- Code number i of width w in a byte list (R33). -/
def codeAt (w : Nat) (bs : List Byte) (i : Nat) : Nat :=
  if w = 4 then (fieldAt bs (i / 2) 1) / 16 ^ (i % 2) % 16 else fieldAt bs (i * (w / 8)) (w / 8)

/-- 4,096 bytes of a register's lanes. -/
def laneBytes (a : List Lane) : List Byte := a.flatMap fun x => leBytes 4 x.v.toNat
/-- 1,024 lanes from bytes, zero beyond their end, with a poison flag per lane. -/
def lanesOf (bs : List Byte) (p : Nat → Bool) : List Lane := (List.range 1024).map fun i => ⟨BitVec.ofNat 32 (fieldAt bs (4 * i) 4), p i⟩

/-- Does any lane of the scale block of lane i (32 lanes) carry poison? -/
def blockPoison (a : List Lane) (i : Nat) : Bool := ((a.drop (i / 32 * 32)).take 32).any Lane.p

/-- A lane's value by lane type: F32, or the integer of an I32 lane. -/
def laneVal (ty : Nat) (v : W32) : Val := if ty = 2 then Val.ofInt v.toInt 0 else f32 v

/-- VXE.CVT without scaling (R207). -/
def cvtPlain (ty : Nat) (f : NumFmt) (sat rtz : Bool) (a : List Lane) : List Lane :=
  let r : Rnd := if rtz && !f.isFloat then .rtz else .rne
  let bs := packCodes f.width (a.map fun x => convertNum f sat r (laneVal ty x.v))
  let per := 32 / f.width
  lanesOf bs fun j => ((a.drop (j * per)).take per).any Lane.p

/-- VXE.CVT with block scaling: the packed elements and the scale bytes (R207, R43, R497). -/
def cvtScaled (f : NumFmt) (sat : Bool) (a : List Lane) : List Lane × List Lane :=
  let scale (j : Nat) : Byte := chooseScale f (((a.drop (32 * j)).take 32).map fun x => f32 x.v)
  let scales := (List.range 32).map scale
  let bs := packCodes f.width ((List.range 1024).map fun i =>
    encodeScaled f sat .rne (nthD scales (i / 32) 0) (f32 (nthD a i ⟨0, false⟩).v))
  let per := 32 / f.width
  (lanesOf bs fun j => j * per < 1024 && (List.range per).any fun q => blockPoison a (j * per + q),
   lanesOf scales fun j => j < 8 && (List.range 4).any fun q => blockPoison a (32 * (4 * j + q)))

/-- VXE.UNPK (R208). -/
def unpkLanes (f : NumFmt) (ty : Nat) (sc : Bool) (a b : List Lane) : List Lane :=
  let bs := laneBytes a
  let sb := laneBytes b
  let src (i : Nat) : Lane := nthD a (i * f.width / 32) ⟨0, false⟩
  (List.range 1024).map fun i =>
    let code := codeAt f.width bs i
    let v := decodeNum f code
    let r : W32 :=
      if ty = 2 then BitVec.ofInt 32 (intOf v)
      else toF32 (if sc then scaledVal v (nthD sb (i / 32) 0) else v)
    let p := if sc then (List.range 32).any (fun q => (src (i / 32 * 32 + q)).p) || (nthD b (i / 128) ⟨0, false⟩).p else (src i).p
    ⟨r, p⟩

/-- Latency L of a VXE register operation (R205). -/
def vxeLat (o : Nat) (sc : Bool) : Nat :=
  if o = 0x40 ∨ o = 0x41 then 4 else if o = 0x42 then 5 else if o = 0x43 then 6 else if o ≤ 0x4C then 3 else if o ≤ 0x55 then 2
  else if o = 0x58 then 10 else if o = 0x59 ∨ o = 0x5A then 14 else if o = 0x5B then 8
  else if o = 0x60 then (if sc then 7 else 5) else if o = 0x61 then (if sc then 6 else 5)
  else if 0x64 ≤ o ∧ o ≤ 0x67 then 12 else if o = 0x68 then 8 else if o = 0x6C ∨ o = 0x6D then 2 else 8

/-- Source registers that an opcode reads (R205, R497). -/
def vxeReads (w : W128) : List Nat :=
  let o := opc w
  if o = 0x43 ∨ o = 0x4C then [vVa w, vVb w, vVc w]
  else if o = 0x46 ∨ o = 0x47 ∨ o = 0x58 ∨ o = 0x5A ∨ o = 0x5B ∨ o = 0x60 ∨ (0x64 ≤ o ∧ o ≤ 0x67) ∨ o = 0x71 then [vVa w]
  else if o = 0x61 then (if vSc w then [vVa w, vVb w] else [vVa w])
  else if o = 0x6C ∨ o = 0x6D ∨ o = 0x70 ∨ o = 0x72 then []
  else [vVa w, vVb w]

/-- Lane types permitted for an opcode (R205). -/
def vxeTypes (o : Nat) : List Nat :=
  if o = 0x43 then [0, 1]
  else if o ≤ 0x47 then [0, 1, 2]
  else if o ≤ 0x4B then [0, 2]
  else if o = 0x4C ∨ o = 0x68 ∨ o = 0x6C ∨ o = 0x70 ∨ o = 0x71 then [0, 1, 2]
  else if o ≤ 0x55 then [2]
  else if o ≤ 0x5B then [0]
  else if o ≤ 0x66 then [0, 2]
  else if o = 0x67 ∨ o = 0x6D then [2]
  else [0]

/-- Fields that the opcode does not use are 0 (R204). -/
def vxeUnusedZero (w : W128) : Bool :=
  let o := opc w
  let mem := o == 0x70 || o == 0x71 || o == 0x72
  let usesVd := !(o == 0x71 || o == 0x72)
  let usesVa := !(o == 0x6C || o == 0x6D || o == 0x70 || o == 0x72)
  let usesVb := (vxeReads w).length ≥ 2 || (o == 0x60 && vSc w)
  let usesVc := o == 0x43 || o == 0x4C
  (usesVd || vVd w == 0) && (usesVa || vVa w == 0) && (usesVb || vVb w == 0) && (usesVc || vVc w == 0) &&
    (o == 0x60 || (!vSat w && !vRtz w)) && (o == 0x60 || o == 0x61 || (!vSc w && vFmtCode w == 0)) &&
    (o == 0x5B || o == 0x72 || vSlot w == 0) && (mem || vBase w == 0) && (o == 0x6C || o == 0x6D || vImm w == 0)

/-- Check 3 of R171 for a VXE word (R204, R205, R207, R208, R191). -/
def vxeConsistent (d : LoopDesc) (w : W128) : Bool :=
  let o := opc w
  let mem := o == 0x70 || o == 0x71 || o == 0x72
  vxeUnusedZero w && (vxeTypes o).contains (vTy w) && (!mem || incsMultiple d 0 64) &&
    (match NumFmt.ofCode (vFmtCode w) with
     | none => false
     | some f =>
       if o = 0x60 then !vSc w || (f.isFloat && f != .f32 && vTy w == 0)
       else if o = 0x61 then (if vSc w then vTy w == 0 else if f.isFloat then vTy w == 0 else vTy w == 2)
       else true)

/-- Bytes that a VXE instruction touches from its address stream, and whether it reads and writes them (R161, R209). -/
def vxeAccess (w : W128) : Nat × Bool × Bool :=
  let o := opc w
  if o = 0x70 then (4096, true, false) else if o = 0x71 then (4096, false, true) else if o = 0x72 then (4160, true, false)
  else (0, false, false)

/-- Check 5 of R171 for a VXE word. -/
def vxeRegion (d : LoopDesc) (w : W128) : Bool :=
  let a := vxeAccess w
  streamOk d 0 (vBase w) a.1 a.2.1 a.2.2

/-- The results of a register operation from its sources: pairs of register and lanes. -/
def vxeResults (slot : List Byte) (slotP : Bool) (w : W128) (a b c : List Lane) : List (Nat × List Lane) :=
  let o := opc w
  let ty := vTy w
  let f := (NumFmt.ofCode (vFmtCode w)).getD .f32
  let one (l : List Lane) : List (Nat × List Lane) := [(vVd w, l)]
  if o = 0x40 then one (map2 (laneAdd ty) a b)
  else if o = 0x41 then one (map2 (laneSub ty) a b)
  else if o = 0x42 then one (map2 (laneMul ty) a b)
  else if o = 0x43 then one (map3 (laneFma ty) a b c)
  else if o = 0x44 then one (map2 (laneMax ty) a b)
  else if o = 0x45 then one (map2 (laneMin ty) a b)
  else if o = 0x46 then one (map1 (laneAbs ty) a)
  else if o = 0x47 then one (map1 (laneNeg ty) a)
  else if o = 0x48 then one (map2 (laneCmpLt ty) a b)
  else if o = 0x49 then one (map2 (laneCmpLe ty) a b)
  else if o = 0x4A then one (map2 (laneCmpEq ty) a b)
  else if o = 0x4B then one (map2 (laneCmpNe ty) a b)
  else if o = 0x4C then one (map3 (laneSel ty) a b c)
  else if o = 0x50 then one (map2 laneAnd a b)
  else if o = 0x51 then one (map2 laneOr a b)
  else if o = 0x52 then one (map2 laneXor a b)
  else if o = 0x53 then one (map2 laneShl a b)
  else if o = 0x54 then one (map2 laneShr a b)
  else if o = 0x55 then one (map2 laneSar a b)
  else if o = 0x58 then one (map1 expDev a)
  else if o = 0x59 then one (map2 f32Div a b)
  else if o = 0x5A then one (map1 f32Sqrt a)
  else if o = 0x5B then one (a.map fun x => ⟨teval slot x.v, x.p || slotP⟩)
  else if o = 0x60 then
    (if vSc w then (let r := cvtScaled f (vSat w) a; [(vVd w, r.1), (vVb w, r.2)]) else one (cvtPlain ty f (vSat w) (vRtz w) a))
  else if o = 0x61 then one (unpkLanes f ty (vSc w) a b)
  else if o = 0x64 then one (redLanes (laneAdd ty) a)
  else if o = 0x65 then one (redLanes (laneMax ty) a)
  else if o = 0x66 then one (redLanes (laneMin ty) a)
  else if o = 0x67 then one (popcLanes a)
  else if o = 0x68 then one (permLanes a b)
  else if o = 0x6C then one (List.replicate 1024 ⟨vImm w, false⟩)
  else if o = 0x6D then one ((List.range 1024).map fun i => ⟨BitVec.ofNat 32 i + vImm w, false⟩)
  else []

/-- Reads of marked registers at a-cycle t: the LATE_READ count and its events, one per register read (R170). -/
def lateReads (s : State) (c : CoreId) (e : EngId) (i : Inst) (n : Nat) : State :=
  if latcheck s c e = 0 ∨ n = 0 then s
  else
    let s := rbump s (.eng c e .stat) 47 32 n
    (List.range n).foldl (fun s _ => logEng s c (engIdx e) (stCode .lateRead) clsNone i.bank i.idx 0) s

/-- Iteration j of a VXE instruction, issued at a-cycle t with slot length q (R159, R167, R209). A CVT with SC whose VD and VB name one
register leaves the scale bytes of VB there (R207; DESIGN CHOICE, log 121). -/
def vxeIter (s : State) (c : CoreId) (i : Inst) (q t j : Nat) : State :=
  let k := getCore s c
  let w := i.w
  let o := opc w
  let s := lateReads s c .vxe i ((vxeReads w).filter (vInFlight k t)).length
  let k := getCore s c
  let off := (vBase w : Int) + loopOff i.loop 0 j
  let a := padAddr c off
  if o = 0x70 then
    let s := touchRange s a 4096
    let k := getCore s c
    let bs := memBytes s a 4096
    let lanes := lanesOf bs fun l => unitPoison s (a / 64 + l / 16)
    putCore s c { k with vres := k.vres ++ [⟨vVd w, lanes, t, t + 8 * q, k.resSeq⟩], resSeq := k.resSeq + 1 }
  else if o = 0x71 then
    let lanes := vregAt k t (vVa w)
    let ps := (List.range 64).map fun u => ((lanes.drop (16 * u)).take 16).any Lane.p
    putCore s c { k with stores := k.stores ++ [⟨.vxe, i.id, off.toNat, laneBytes lanes, ps, t, t + 4 * q, k.resSeq⟩], resSeq := k.resSeq + 1 }
  else
    let rs := vxeResults (tget k.slots slotReset (vSlot w)) (tget k.slotP false (vSlot w)) w
      (vregAt k t (vVa w)) (vregAt k t (vVb w)) (vregAt k t (vVc w))
    let due := t + vxeLat o (vSc w) * q
    putCore s c { k with vres := k.vres ++ rs.map (fun r => ⟨r.1, r.2, t, due, k.resSeq⟩), resSeq := k.resSeq + 1 }

/-- A-cycles from the issue of an iteration to the end of its work. -/
def vxeSpan (w : W128) : Nat := if opc w = 0x71 then 4 else vxeLat (opc w) (vSc w)

/-- A VXE instruction begins at a-cycle t: its iterations issue one per slot (R159); VXE.TLOAD copies its slot's bytes (R209). The
instruction with its end, and the first a-cycle for the next dispatch. -/
def beginVxe (s : State) (c : CoreId) (i : Inst) (t : Nat) : State × Inst × Nat :=
  let q := slotLen s c .vxe
  let n := loopCount i.loop
  if opc i.w = 0x72 then
    let a := padAddr c ((vBase i.w : Int) + loopOff i.loop 0 (n - 1))
    let s := touchRange s a 4160
    let fin := t + 33 * n * q
    (s, { i with begun := true, start := t, doneAt := fin, prog := .tload (vSlot i.w) (memBytes s a 4160) (memPoison s a 4160) }, fin)
  else
    let s := (List.range n).foldl (fun s j => vxeIter s c i q (t + j * q) j) s
    (s, { i with begun := true, start := t, doneAt := t + (n - 1) * q + vxeSpan i.w * q, finished := true }, t + n * q)

end Sys2Proof.Machine
end

