-- ==== Sys2Proof/Machine/Sxe.lean ====
section
/-!
DEFINITION. The scalar engine: the checks of its words (R210 to R213), its operations per pipe (R211, R497), loads and stores
(R212), branches and SXE.IMCOPY (R213).
-/

namespace Sys2Proof.Machine

/-- Number of set bits. -/
def popcount (v : W64) : Nat := ((List.range 64).filter fun i => v.getLsbD i).length
/-- Leading zeros; 64 for 0. -/
def clz (v : W64) : Nat := 64 - bitLen v.toNat
/-- Trailing zeros; 64 for 0. -/
def ctz (v : W64) : Nat := ((List.range 64).find? fun i => v.getLsbD i).getD 64

def xAdd (a b : W64) : W64 := a + b
def xSub (a b : W64) : W64 := a - b
def xMul (a b : W64) : W64 := a * b
def xAnd (a b : W64) : W64 := a &&& b
def xOr (a b : W64) : W64 := a ||| b
def xXor (a b : W64) : W64 := a ^^^ b
def xShl (a b : W64) : W64 := a <<< (b.toNat % 64)
def xShr (a b : W64) : W64 := a >>> (b.toNat % 64)
def xSar (a b : W64) : W64 := a.sshiftRight (b.toNat % 64)
def xMin (a b : W64) : W64 := if b.slt a then b else a
def xMax (a b : W64) : W64 := if a.slt b then b else a
def xMinU (a b : W64) : W64 := if b.ult a then b else a
def xMaxU (a b : W64) : W64 := if a.ult b then b else a
def xSlt (a b : W64) : W64 := if a.slt b then 1 else 0
def xSltU (a b : W64) : W64 := if a.ult b then 1 else 0

/-- The result of a register operation of one pipe (R211). -/
def sxeResult (o : Nat) (a b imm : W64) : W64 :=
  if o = 0x40 then xAdd a b
  else if o = 0x41 then xSub a b
  else if o = 0x42 then xMul a b
  else if o = 0x43 then xAnd a b
  else if o = 0x44 then xOr a b
  else if o = 0x45 then xXor a b
  else if o = 0x46 then xShl a b
  else if o = 0x47 then xShr a b
  else if o = 0x48 then xSar a b
  else if o = 0x49 then xMin a b
  else if o = 0x4A then xMax a b
  else if o = 0x4B then xMinU a b
  else if o = 0x4C then xMaxU a b
  else if o = 0x4D then xSlt a b
  else if o = 0x4E then xSltU a b
  else if o = 0x50 then xAdd a imm
  else if o = 0x51 then imm
  else if o = 0x52 then BitVec.ofNat 64 (popcount a)
  else if o = 0x53 then BitVec.ofNat 64 (clz a)
  else BitVec.ofNat 64 (ctz a)

/-- Latency L of an SXE register operation (R211). -/
def sxeLat (o : Nat) : Nat := if o = 0x42 then 4 else if o = 0x51 then 1 else if o = 0x58 then 6 else 2

/-- Is the opcode a branch? -/
def sxeBranch (o : Nat) : Bool := decide (0x60 ≤ o ∧ o ≤ 0x65)

/-- Is a branch taken (R211, R213)? -/
def branchTaken (o : Nat) (a b : W64) : Bool :=
  if o = 0x60 then a == b
  else if o = 0x61 then a != b
  else if o = 0x62 then a.slt b
  else if o = 0x63 then !a.slt b
  else if o = 0x64 then a.ult b
  else !a.ult b

/-- Does an opcode read XA, and XB? -/
def sxeUsesA (o : Nat) : Bool := !(o == 0x51 || o == 0x68)
def sxeUsesB (o : Nat) : Bool := decide (o ≤ 0x4E) || o == 0x59 || sxeBranch o
def sxeUsesD (o : Nat) : Bool := !(o == 0x59 || sxeBranch o)

/-- The pipes of PMASK, in increasing number. -/
def pipesOf (w : W128) : List Nat := (List.range 8).filter fun p => (xPmask w).testBit p

/-- IMCOPY fields (R213). -/
def imcEng (w : W128) : EngId := engOf (bits w 91 89)
def imcBank (w : W128) : Bool := bit w 88
def imcDst (w : W128) : Nat := bits w 87 77
def imcCount (w : W128) : Nat := bits w 76 66 + 1
def imcSrc (w : W128) : Nat := bits w 15 0 * 64

/-- Check 3 of R171 for an SXE word, but for the addresses of loads and stores (R210, R213). -/
def sxeConsistent (d : LoopDesc) (w : W128) : Bool :=
  let o := opc w
  xPmask w != 0 && (sxeUsesA o || xXa w == 0) && (sxeUsesB o || xXb w == 0) && (sxeUsesD o || xXd w == 0) &&
    (o == 0x50 || o == 0x51 || o == 0x58 || o == 0x59 || sxeBranch o || o == 0x68 || xImm w == 0) &&
    (if sxeBranch o then xPmask w == 1 && zeroBits w 63 11 && ldOf w == 0
     else if o = 0x68 then
       xPmask w == 1 && zeroBits w 63 16 && countsOne d && decide (imcDst w + imcCount w ≤ 2048)
     else if o = 0x58 ∨ o = 0x59 then incsMultiple d 0 8
     else true)

/-- The address a pipe forms from its XA at dispatch, before the loop offset (R212). -/
def sxeAddr (k : Core) (t : Nat) (w : W128) (p : Nat) : Int := ((xregAt k t p (xXa w)).v + xImm w).toInt

/-- Status of the address checks of SXE.LD, SXE.ST and SXE.IMCOPY: alignment, then range and regions (R161, R212, R213). -/
def sxeAddrCheck (k : Core) (t : Nat) (d : LoopDesc) (w : W128) : Option Status :=
  let o := opc w
  if o = 0x58 ∨ o = 0x59 then
    if (pipesOf w).any fun p => decide (sxeAddr k t w p % 8 ≠ 0) then some .inconsistent
    else if (pipesOf w).all fun p => streamOk d 0 (sxeAddr k t w p) 8 (o == 0x58) (o == 0x59) then none
    else some .region
  else if o = 0x68 then
    if rangeOk d.rd (imcSrc w) ((imcSrc w : Int) + 16 * imcCount w) then none else some .region
  else none

/-- Does the instruction take a branch comparison or an address from a poisoned register (R497)? -/
def sxePoisoned (k : Core) (t : Nat) (w : W128) : Bool :=
  let o := opc w
  if sxeBranch o then (xregAt k t 0 (xXa w)).p || (xregAt k t 0 (xXb w)).p
  else if o = 0x58 ∨ o = 0x59 then (pipesOf w).any fun p => (xregAt k t p (xXa w)).p
  else false

/-- Is the opcode a load or a store, whose XA is read once, at dispatch (R212)? -/
def sxeMem (o : Nat) : Bool := o == 0x58 || o == 0x59

/-- Registers that a load or store reads at its dispatch while their result is in flight, over the pipes (R170, R212). -/
def sxeLateBase (k : Core) (t : Nat) (w : W128) : Nat :=
  if sxeMem (opc w) then ((pipesOf w).filter fun p => xInFlight k t p (xXa w)).length else 0

/-- Registers that an iteration reads at t while their result is in flight, over the pipes (R170). -/
def sxeLate (k : Core) (t : Nat) (w : W128) : Nat :=
  let o := opc w
  ((pipesOf w).filter fun p => sxeUsesA o && !sxeMem o && xInFlight k t p (xXa w)).length +
    ((pipesOf w).filter fun p => sxeUsesB o && xInFlight k t p (xXb w)).length

/-- One result put in flight. -/
def putX (k : Core) (p reg : Nat) (v : XReg) (t due : Nat) : Core :=
  { k with xres := k.xres ++ [⟨p, reg, v, t, due, k.resSeq⟩], resSeq := k.resSeq + 1 }

/-- Iteration j at a-cycle t in every pipe of PMASK; xa gives each pipe's address base as it stood at dispatch (R211, R212). -/
def sxeIter (s : State) (c : CoreId) (i : Inst) (xa : Nat → Int) (q t j : Nat) : State :=
  let w := i.w
  let o := opc w
  let s := lateReads s c .sxe i (sxeLate (getCore s c) t w)
  let k0 := getCore s c
  (pipesOf w).foldl (fun s p =>
    let a := xregAt k0 t p (xXa w)
    let b := xregAt k0 t p (xXb w)
    if o = 0x58 then
      let ad := padAddr c (xa p + loopOff i.loop 0 j)
      let s := touchRange s ad 8
      putCore s c (putX (getCore s c) p (xXd w) ⟨BitVec.ofNat 64 (memNat s ad 8), memPoison s ad 8⟩ t (t + 6 * q))
    else if o = 0x59 then
      let k := getCore s c
      putCore s c { k with
        stores := k.stores ++ [⟨.sxe, i.id, (xa p + loopOff i.loop 0 j).toNat, leBytes 8 b.v.toNat, [b.p], t, t + 3 * q, k.resSeq⟩],
        resSeq := k.resSeq + 1 }
    else
      let pois := (sxeUsesA o && a.p) || (sxeUsesB o && b.p)
      putCore s c (putX (getCore s c) p (xXd w) ⟨sxeResult o a.v b.v (xImm w), pois⟩ t (t + sxeLat o * q))) s

/-- Is a write to a bank of an engine refused (R155)? -/
def bankBusy (g : Engine) (bank : Bool) : Bool :=
  (g.mode != .halted && bank == g.bank) || (g.closing.isSome && bank == !g.bank)

/-- The instruction words of an image at a device address (R187). -/
def imageWords (bs : List Byte) (n : Nat) : List W128 := (List.range n).map fun j => BitVec.ofNat 128 (fieldAt bs (16 * j) 16)

/-- An SXE instruction begins at a-cycle t: the state, the instruction with its end, the first a-cycle of the next dispatch, and
the target of a taken branch (R211 to R213). -/
def beginSxe (s : State) (c : CoreId) (i : Inst) (t : Nat) : State × Inst × Nat × Option (BitVec 11) :=
  let q := slotLen s c .sxe
  let w := i.w
  let o := opc w
  let k := getCore s c
  if sxeBranch o then
    let s := lateReads s c .sxe i (sxeLate k t w)
    let fin := { i with begun := true, start := t, doneAt := t, finished := true }
    if branchTaken o (xregAt k t 0 (xXa w)).v (xregAt k t 0 (xXb w)).v then (s, fin, t + 3 * q, some (targetOf w))
    else (s, fin, t + q, none)
  else if o = 0x68 then
    let g := getEng s c (imcEng w)
    if bankBusy g (imcBank w) then
      let s := putCore s c (putX k 0 (xXd w) ⟨BitVec.ofNat 64 (stCode .bankBusy), false⟩ t (t + 2 * q))
      let s := logEng s c (engIdx .sxe) (stCode .bankBusy) clsNone i.bank i.idx 0
      (s, { i with begun := true, start := t, doneAt := t + 2 * q, finished := true }, t + q, none)
    else
      let a := padAddr c (imcSrc w)
      let s := touchRange s a (16 * imcCount w)
      let ws := imageWords (memBytes s a (16 * imcCount w)) (imcCount w)
      let fin := t + (2 + ceilDiv (imcCount w) 4) * q
      let k := getCore s c
      (putCore s c (putX k 0 (xXd w) ⟨BitVec.ofNat 64 (stCode .ok), false⟩ t fin),
       { i with begun := true, start := t, doneAt := fin, prog := .imcopy (imcEng w) (imcBank w) (imcDst w) ws k.resSeq }, t + q, none)
  else
    let n := loopCount i.loop
    let s := (List.range n).foldl (fun s j => sxeIter s c i (fun p => nthD i.xa p 0) q (t + j * q) j) s
    let span := if o = 0x59 then 3 else sxeLat o
    (s, { i with begun := true, start := t, doneAt := t + (n - 1) * q + span * q, finished := true }, t + n * q, none)

end Sys2Proof.Machine
end

