-- ==== Sys2Proof/Machine/StreamDesc.lean ====
section
/-!
DEFINITION. Stream descriptors and extensions (R249, R250), the addresses a task touches (R252 to R254), and the checks at issue
(R262, R251 to R260, R288).
-/

namespace Sys2Proof.Machine

/-- A decoded stream descriptor (R249) with its displaced addresses. -/
structure SDesc where
  kind : Nat
  srcForm : Nat
  form : Nat
  srcFmt : Nat
  dstFmt : Nat
  occMask : Bool
  pbFault : Bool
  strict : Bool
  maskOut : Bool
  srcScale : Nat
  dstScale : Nat
  padMode : Nat
  perm : Nat
  idxU16 : Bool
  blkSrc : Bool
  blkDst : Bool
  srcLoc : Bool
  dstLoc : Bool
  idxLoc : Bool
  extEn : Bool
  deadline : Nat
  d0 : Nat
  d1 : Nat
  d2 : Nat
  src : Nat
  dst : Nat
  idx : Nat
  ss1 : Nat
  ss2 : Nat
  ds1 : Nat
  ds2 : Nat
  padL : Nat
  padT : Nat
  xw : Nat
  xh : Nat
  fillv : Nat
  ext : Nat
  rsvOk : Bool
  /-- the address fields fit as read, before displacement (R249) -/
  locRaw : Bool
deriving DecidableEq, Repr

/-- Word j of a byte list as a 64-bit vector. -/
def wordAt (bs : List Byte) (j : Nat) : W64 := BitVec.ofNat 64 (fieldAt bs (8 * j) 8)

/-- Does a local address field fit the scratchpad when its LOC bit is 1 (R249)? -/
def locOk (loc : Bool) (a : Nat) : Bool := !loc || decide (a < 0x400000)

/-- The descriptor in 64 bytes (R249). -/
def parseDesc (bs : List Byte) : SDesc :=
  let w := wordAt bs
  let a := w 0
  { kind := bits a 63 61, srcForm := bits a 60 59, form := bits a 58 57, srcFmt := bits a 56 53, dstFmt := bits a 52 49,
    occMask := bit a 48, pbFault := bit a 47, strict := bit a 46, maskOut := bit a 45, srcScale := bits a 44 43,
    dstScale := bits a 42 41, padMode := bits a 40 39, perm := bits a 38 36, idxU16 := bit a 35, blkSrc := bit a 34,
    blkDst := bit a 33, srcLoc := bit a 32, dstLoc := bit a 31, idxLoc := bit a 30, extEn := bit a 29, deadline := bits a 28 13,
    d0 := bits (w 1) 63 44, src := bits (w 1) 43 0, d1 := bits (w 2) 63 44, dst := bits (w 2) 43 0,
    d2 := bits (w 3) 63 44, idx := bits (w 3) 43 0, ss1 := bits (w 4) 63 32, ss2 := bits (w 4) 31 0,
    ds1 := bits (w 5) 63 32, ds2 := bits (w 5) 31 0, padL := bits (w 6) 63 52, padT := bits (w 6) 51 40,
    xw := bits (w 6) 39 20, xh := bits (w 6) 19 0, fillv := bits (w 7) 63 32, ext := bits (w 7) 31 16,
    rsvOk := bits a 12 0 == 0 && bits (w 7) 15 0 == 0,
    locRaw := locOk (bit a 32) (bits (w 1) 43 0) && locOk (bit a 31) (bits (w 2) 43 0) && locOk (bit a 30) (bits (w 3) 43 0) }

/-- An auxiliary operand of the extension (R250). -/
structure AuxOp where
  en : Bool
  loc : Bool
  aux : Nat
  addr : Nat
deriving DecidableEq, Repr

/-- Auxiliary operand Ej; disabled where there is no extension. -/
def auxOp (ext : Option (List Byte)) (j : Nat) : AuxOp :=
  match ext with
  | none => ⟨false, false, 0, 0⟩
  | some bs => let w := wordAt bs j; ⟨bit w 63, bit w 62, bits w 61 44, bits w 43 0⟩

/-- Word Ej of the extension, 0 where there is none. -/
def extWord (ext : Option (List Byte)) (j : Nat) : W64 := match ext with | none => 0 | some bs => wordAt bs j

/-- Element width in bits of a format code of R251; RAW is a byte. -/
def fmtBits (f : Nat) : Nat := match NumFmt.ofCode f with | some x => x.width | none => 8
/-- Is a format code a float format? -/
def fmtFloat (f : Nat) : Bool := match NumFmt.ofCode f with | some x => x.isFloat | none => false

/-- A device address from an address field and its LOC bit. -/
def devAddr (c : CoreId) (loc : Bool) (a : Nat) : Nat := if loc then padBase c + a else a

/-- The source axis that each destination axis takes (R252). -/
def permAxes (p : Nat) : List Nat :=
  match p with
  | 0 => [0, 1, 2] | 1 => [1, 0, 2] | 2 => [0, 2, 1] | 3 => [2, 1, 0] | 4 => [1, 2, 0] | _ => [2, 0, 1]

/-- The destination axis that feeds source axis k. -/
def permInv (p k : Nat) : Nat := ((List.range 3).find? fun d => nthD (permAxes p) d 0 == k).getD 0

/-- Extent of destination axis d. -/
def extentD (d : SDesc) (k : Nat) : Nat := if k = 0 then d.d0 else if k = 1 then d.d1 else d.d2
/-- Extent of source axis k through PERM. -/
def extentS (d : SDesc) (k : Nat) : Nat := extentD d (permInv d.perm k)

/-- Rows of the source and destination tensors: XH for the indexed side of GATHER and SCATTER (R249, R257). Scale lines count on by these rows
for each position of axis 2, under padding too (R254; DESIGN CHOICE, log 22). -/
def rowsS (d : SDesc) : Nat := if d.kind = 1 then d.xh else extentS d 1
def rowsD (d : SDesc) : Nat := if d.kind = 2 then d.xh else d.d1

/-- Is the padding of R260 in use? -/
def padding (d : SDesc) : Bool := d.kind == 0 && (d.padL != 0 || d.padT != 0 || d.xw != 0 || d.xh != 0)
/-- Source extents along axes 0 and 1 under padding (R249), and how much of them maps to a destination element (R260). -/
def padW (d : SDesc) : Nat := if d.xw = 0 then d.d0 - d.padL else d.xw
def padH (d : SDesc) : Nat := if d.xh = 0 then d.d1 - d.padT else d.xh
def mapW (d : SDesc) : Nat := min (padW d) (d.d0 - d.padL)
def mapH (d : SDesc) : Nat := min (padH d) (d.d1 - d.padT)

/-- Bytes of n elements of w bits (R58). -/
def rowBytes (n w : Nat) : Nat := (n * w + 7) / 8

/-- Block columns and block rows of the logical tensor (R57). -/
def bCols (d : SDesc) : Nat := ceilDiv d.d0 8
def bRows (d : SDesc) : Nat := ceilDiv d.d1 8

/-- Bytes of a PB8 group of w-bit values (R64). -/
def pbGroup (w : Nat) : Nat := if w = 4 then 2 else 1 + 2 * (w / 8)

/-- Mask words between block rows for a plane named by E4 or E5 (R253). -/
def maskStride (d : SDesc) (a : AuxOp) : Nat :=
  if d.form = 2 then (if a.aux = 0 then bCols d else a.aux) else d.ds1

/-- Rows of a dense side: start addresses and length; base, strides in 64-byte units, extents (R252). -/
def denseRows (base s1 s2 n0 n1 n2 w : Nat) : List (Nat × Nat) :=
  (List.range n2).flatMap fun i2 => (List.range n1).map fun i1 => (base + i2 * s2 * 64 + i1 * s1 * 64, rowBytes n0 w)

/-- Rows of a plane of block-row lines: n lines of len bytes at a stride in bytes. -/
def lineRows (base stride n len : Nat) : List (Nat × Nat) := (List.range n).map fun i => (base + i * stride, len)

/-- Planes of a tensor in block order, n0 columns and n1 rows of w-bit elements each, n2 of them at a stride in 64-byte units (R252, R253;
DEDUCED, log 125). -/
def blkPlanes (base s2 n0 n1 n2 w : Nat) : List (Nat × Nat) :=
  (List.range n2).map fun i2 => (base + i2 * s2 * 64, ceilDiv n1 8 * ceilDiv n0 8 * 8 * w)

/-- The bytes of the first m elements of row i1 of a plane of n0 columns in block order: eight elements, w bytes, of each block. -/
def blkRow (base n0 w i1 m : Nat) : List (Nat × Nat) :=
  (List.range (ceilDiv m 8)).map fun bc =>
    (base + (i1 / 8 * ceilDiv n0 8 + bc) * 8 * w + i1 % 8 * w, rowBytes (min 8 (m - 8 * bc)) w)

/-- Is the destination in an operation window (R280, R288)? -/
def windowDst (d : SDesc) : Bool := !d.dstLoc && decide (0x20000000000 ≤ d.dst ∧ d.dst < 0xC0000000000)
/-- Window number of a destination: 0 ADD, 1 MIN, 2 MAX, 3 SWAP, 4 CAS. -/
def windowOf (d : SDesc) : Nat := d.dst / 0x20000000000 - 1

/-- Extents of a dense source in elements of SRC_FMT: XH rows of a GATHER, XW columns and XH rows under padding, the doubled rows of CAS, and
8-byte elements of I64 (R249, R257, R260, R288). -/
def srcExt (d : SDesc) : Nat × Nat × Nat :=
  if d.kind = 1 then (d.d0, d.xh, 1)
  else if padding d then (padW d, padH d, d.d2)
  else if windowDst d then
    let q := if d.dstFmt = 11 then { d with d0 := d.d0 / 8 } else d
    ((if windowOf d = 4 then 2 else 1) * (if d.dstFmt = 11 then 8 else 1) * extentS q 0, extentS q 1, extentS q 2)
  else (extentS d 0, extentS d 1, extentS d 2)

/-- Byte ranges of the source (R252 to R254, R257): under padding the elements that map to a destination element (R260; DEDUCED, log 117), and
for I64 rows of 8-byte elements (R288; DEDUCED, log 119). -/
def srcRanges (c : CoreId) (d : SDesc) (e : Option (List Byte)) : List (Nat × Nat) :=
  let b := devAddr c d.srcLoc d.src
  let w := fmtBits d.srcFmt
  if d.kind = 3 ∨ d.kind = 4 then []
  else if d.srcForm = 1 then [(b, (auxOp e 0).aux * 4096)]
  else if d.srcForm = 2 then lineRows b (d.ss1 * 64) d.d1 (bCols d * pbGroup w)
  else if d.srcForm = 3 then lineRows b (d.ss1 * 8) (bRows d) (bCols d * 8)
  else
    let x := srcExt d
    if padding d then
      if d.blkSrc then (List.range d.d2).flatMap fun i2 => (List.range (mapH d)).flatMap fun i1 => blkRow (b + i2 * d.ss2 * 64) x.1 w i1 (mapW d)
      else denseRows b d.ss1 d.ss2 (mapW d) (mapH d) d.d2 w
    else if d.blkSrc then blkPlanes b d.ss2 x.1 x.2.1 x.2.2 w
    else denseRows b d.ss1 d.ss2 x.1 x.2.1 x.2.2 w

/-- Byte ranges of the destination, without block index, scale array and mask plane. -/
def dstRanges (c : CoreId) (d : SDesc) (e : Option (List Byte)) : List (Nat × Nat) :=
  let b := devAddr c d.dstLoc d.dst
  let w := fmtBits d.dstFmt
  if d.form = 1 then [(b, (auxOp e 2).aux * 4096)]
  else if d.form = 2 then lineRows b (d.ds1 * 64) d.d1 (max (d.ds1 * 64) (bCols d * pbGroup w))
  else if d.form = 3 then lineRows b (d.ds1 * 8) (bRows d) (bCols d * 8)
  else if d.blkDst then blkPlanes b d.ds2 d.d0 (rowsD d) d.d2 w
  else if d.kind = 2 then denseRows b d.ds1 0 d.d0 d.xh 1 w
  else denseRows b d.ds1 d.ds2 d.d0 d.d1 d.d2 w

/-- Lines of a scale array and bytes of each (R254): axis 1 ROWS, 2 COLS; lines count on over axis 2 (DESIGN CHOICE, log 22). -/
def scaleLines (axis n1 n2 : Nat) : Nat := if axis = 2 then n1 * n2 else ceilDiv n1 32 * n2
def scaleLen (axis n0 : Nat) : Nat := if axis = 2 then ceilDiv n0 32 else n0
/-- Line and byte of the scale byte of element (i0, i1, i2). -/
def scalePos (axis n1 i0 i1 i2 : Nat) : Nat × Nat :=
  if axis = 2 then (i1 + n1 * i2, i0 / 32) else (i1 / 32 + ceilDiv n1 32 * i2, i0)

/-- Ranges of a scale array. -/
def scaleRanges (c : CoreId) (a : AuxOp) (axis n0 n1 n2 : Nat) (whole : Bool) : List (Nat × Nat) :=
  let b := devAddr c a.loc a.addr
  let lines := scaleLines axis n1 n2
  let len := scaleLen axis n0
  if axis = 0 then [] else lineRows b (a.aux * 64) lines (if whole then max len (a.aux * 64) else len)

/-- Ranges of the source's scale array: under padding the lines of the rows and columns that map to a destination element (R260; DEDUCED, log
117), elsewhere those of the whole source. -/
def srcScaleRanges (c : CoreId) (d : SDesc) (e : Option (List Byte)) : List (Nat × Nat) :=
  let a := auxOp e 1
  if padding d then
    (List.range d.d2).flatMap fun i2 =>
      scaleRanges c { a with addr := a.addr + i2 * scaleLines d.srcScale (rowsS d) 1 * a.aux * 64 } d.srcScale (mapW d) (mapH d) 1 false
  else scaleRanges c a d.srcScale (extentS d 0) (rowsS d) (extentS d 2) false

/-- Ranges of a block index (R253). -/
def indexRanges (c : CoreId) (a : AuxOp) (stride : Nat) (d : SDesc) : List (Nat × Nat) :=
  lineRows (devAddr c a.loc a.addr) (4 * stride) (bRows d) (4 * bCols d)

/-- Ranges of a mask plane named by E4 or E5. -/
def maskRanges (c : CoreId) (a : AuxOp) (d : SDesc) : List (Nat × Nat) :=
  lineRows (devAddr c a.loc a.addr) (8 * maskStride d a) (bRows d) (8 * bCols d)

/-- Everything a task reads, but for its descriptor. -/
def readRanges (c : CoreId) (d : SDesc) (e : Option (List Byte)) : List (Nat × Nat) :=
  srcRanges c d e ++
    (if d.srcForm = 1 then indexRanges c (auxOp e 0) d.ss1 d else []) ++
    srcScaleRanges c d e ++
    (if d.occMask && (d.form == 1 || d.form == 2) then maskRanges c (auxOp e 4) d else []) ++
    (if d.kind = 1 ∨ d.kind = 2 then [(devAddr c d.idxLoc d.idx, d.d1 * (if d.idxU16 then 2 else 4))] else [])

/-- Everything a task writes, but for its record and completion word. -/
def writeRanges (c : CoreId) (d : SDesc) (e : Option (List Byte)) : List (Nat × Nat) :=
  dstRanges c d e ++
    (if d.form = 1 then indexRanges c (auxOp e 2) d.ds1 d else []) ++
    scaleRanges c (auxOp e 3) d.dstScale d.d0 (rowsD d) d.d2 true ++
    (if d.maskOut then maskRanges c (auxOp e 5) d else [])

/-- The range from the smallest to the largest byte of an operand, as R161 computes it over the corners; none where no byte is
touched. -/
def rangeHull (rs : List (Nat × Nat)) : List (Nat × Nat) :=
  match rs.filter fun r => r.2 != 0 with
  | [] => []
  | r :: q =>
    let lo := q.foldl (fun m x => min m x.1) r.1
    let hi := q.foldl (fun m x => max m (x.1 + x.2)) (r.1 + r.2)
    [(lo, hi - lo)]

/-- The extents that an abort tags: destination, block index and mask plane (R271). -/
def tagRanges (c : CoreId) (d : SDesc) (e : Option (List Byte)) : List (Nat × Nat) :=
  dstRanges c d e ++ (if d.form = 1 then indexRanges c (auxOp e 2) d.ds1 d else []) ++ (if d.maskOut then maskRanges c (auxOp e 5) d else [])

/-- The ranges of the source with its block index, scale array and mask plane, and of the index stream (R256, R257). -/
def readHulls (c : CoreId) (d : SDesc) (e : Option (List Byte)) : List (Nat × Nat) :=
  rangeHull (srcRanges c d e) ++
    (if d.srcForm = 1 then rangeHull (indexRanges c (auxOp e 0) d.ss1 d) else []) ++
    rangeHull (srcScaleRanges c d e) ++
    (if d.occMask && (d.form == 1 || d.form == 2) then rangeHull (maskRanges c (auxOp e 4) d) else []) ++
    (if d.kind = 1 ∨ d.kind = 2 then [(devAddr c d.idxLoc d.idx, d.d1 * (if d.idxU16 then 2 else 4))] else [])

/-- Old values that SWAP and CAS write back into the local source (R289). -/
def backRanges (c : CoreId) (d : SDesc) (e : Option (List Byte)) : List (Nat × Nat) :=
  if windowDst d && decide (3 ≤ windowOf d) then srcRanges c d e else []

/-- Do two ranges overlap? -/
def rangesMeet (a b : Nat × Nat) : Bool := decide (a.1 < b.1 + b.2 ∧ b.1 < a.1 + a.2)
def anyMeet (as bs : List (Nat × Nat)) : Bool := as.any fun a => bs.any fun b => rangesMeet a b

/-- The completion word and record of an extension (R250). -/
def cwEn (e : Option (List Byte)) : Bool := bit (extWord e 7) 63
def cwLoc (e : Option (List Byte)) : Bool := bit (extWord e 7) 62
def crecEn (e : Option (List Byte)) : Bool := bit (extWord e 7) 61
def cwAddr (e : Option (List Byte)) : Nat := bits (extWord e 7) 43 0
def crecOff (e : Option (List Byte)) : Nat := bits (extWord e 6) 15 0 * 64

/-- The ranges written beside the destination: block index, scale array, mask plane and completion record, one list for each. -/
def sideHulls (c : CoreId) (d : SDesc) (e : Option (List Byte)) : List (List (Nat × Nat)) :=
  [if d.form = 1 then rangeHull (indexRanges c (auxOp e 2) d.ds1 d) else [],
   rangeHull (scaleRanges c (auxOp e 3) d.dstScale d.d0 (rowsD d) d.d2 true),
   if d.maskOut then rangeHull (maskRanges c (auxOp e 5) d) else [],
   if crecEn e then [(padBase c + crecOff e, 32)] else []]

/-- Do two of several operands overlap? -/
def pairMeet : List (List (Nat × Nat)) → Bool
  | [] => false
  | x :: r => r.any (anyMeet x) || pairMeet r

/-- Is a scale axis code listed? -/
def axisOk (x : Nat) : Bool := decide (x ≤ 2)

/-- Check 2 of R262: no reserved encoding and agreement with R251 to R260 and R288. A compressed move names no mask plane, and MASK_OUT is
set only by a store that compresses (DESIGN CHOICE, log 92). The limits of PADMODE WINDOW hold where the task pads (DEDUCED, log 117). -/
def descConsistent (d : SDesc) (e : Option (List Byte)) : Bool :=
  let comp (f : Nat) : Bool := f == 1 || f == 2
  let sw := fmtBits d.srcFmt
  let dw := fmtBits d.dstFmt
  let dense := d.srcForm == 0 && d.form == 0
  let compressing := comp d.form && !comp d.srcForm
  d.rsvOk && decide (d.kind ≤ 4) && decide (d.srcFmt ≤ 11) && decide (d.dstFmt ≤ 11) && axisOk d.srcScale && axisOk d.dstScale &&
  decide (d.padMode ≤ 2) && decide (d.perm ≤ 5) && d.d0 != 0 && d.d1 != 0 && d.d2 != 0 &&
  d.locRaw &&
  (List.range 6).all (fun j => let a := auxOp e j; !a.en || locOk a.loc a.addr) && (!cwLoc e || locOk true (cwAddr e)) &&
  bits (extWord e 7) 60 44 == 0 &&
  -- forms (R253)
  ((d.srcForm == 3) == (d.form == 3)) &&
  (!(d.srcForm != 0 || d.form != 0) || (d.d2 == 1 && d.perm == 0)) &&
  (!comp d.srcForm || decide (sw ≤ 16)) && (!comp d.form || decide (dw ≤ 16)) &&
  (!(comp d.srcForm && comp d.form) ||
    (d.srcForm == d.form && d.srcFmt == d.dstFmt && d.srcScale == 0 && d.dstScale == 0 && !d.maskOut && !d.occMask)) &&
  (!(d.form == 3) || (d.srcScale == 0 && d.dstScale == 0)) &&
  -- rows of PB8 groups hold their groups (R64)
  (d.srcForm != 2 || decide (bCols d * pbGroup sw ≤ d.ss1 * 64)) && (d.form != 2 || decide (bCols d * pbGroup dw ≤ d.ds1 * 64)) &&
  -- formats and scaling (R251)
  ((d.srcFmt == 11) == (d.dstFmt == 11)) && (d.srcFmt != 11 || (d.srcScale == 0 && d.dstScale == 0)) &&
  (d.srcScale == 0 || fmtFloat d.srcFmt || fmtFloat d.dstFmt) &&
  -- extension present where needed
  (d.srcForm != 1 || (auxOp e 0).en) && (d.srcScale == 0 || (auxOp e 1).en) && (d.form != 1 || (auxOp e 2).en) &&
  (d.dstScale == 0 || (auxOp e 3).en) && (!(d.occMask && compressing) || (auxOp e 4).en) && (!d.maskOut || (auxOp e 5).en) &&
  (!d.maskOut || compressing) &&
  (d.form == 2 || ((auxOp e 4).aux == 0 && (auxOp e 5).aux == 0)) &&
  -- block order
  (!d.blkSrc || (d.srcForm == 0 && d.ss1 == 0 && decide (d.kind ≤ 2))) &&
  (!d.blkDst || (d.form == 0 && d.ds1 == 0)) &&
  -- padding (R260)
  (!padding d || (dense && d.perm == 0 &&
    (d.padMode != 1 || (e.isSome && decide (d.d0 ≤ 4096 ∧ d.d1 ≤ 4096))))) &&
  decide (d.fillv < 2 ^ dw) &&
  -- kinds (R257 to R259)
  (!(d.kind == 1 || d.kind == 2) || (dense && d.d2 == 1 && d.perm == 0 && d.padMode == 0)) &&
  (d.kind != 3 || (d.src == 0 && d.srcForm == 0 && d.srcScale == 0 && d.form == 0 && d.dstScale == 0)) &&
  (d.kind != 4 || (decide (d.perm ≤ 1) && d.srcScale == 0 && d.dstScale != 1 && d.srcForm == 0 && d.form != 3 && (d.srcFmt == 0 || d.srcFmt == 6) && d.d2 == 1)) &&
  -- reduction stores (R288)
  (!windowDst d || (d.kind == 0 && dense && d.dstScale == 0 && !padding d &&
    (d.dstFmt == 0 || d.dstFmt == 1 || d.dstFmt == 6 || d.dstFmt == 11) && (d.dstFmt != 11 || d.d0 % 8 == 0) &&
    (decide (windowOf d < 3) || (d.srcFmt == d.dstFmt && d.srcLoc))))

/-- Check 3 of R262. -/
def descAligned (d : SDesc) (e : Option (List Byte)) : Bool :=
  d.src % 64 == 0 && d.dst % 64 == 0 && d.idx % 64 == 0 &&
    (List.range 6).all (fun j => (auxOp e j).addr % 64 == 0) && cwAddr e % 8 == 0

/-- Do the ranges of an operand keep to the regions of a mask, as far as they lie in this core's own scratchpad? A device address in the
own scratchpad is checked as a local one (R262). -/
def regionOk (c : CoreId) (mask : W64) (loc : Bool) (rs : List (Nat × Nat)) : Bool :=
  let inside (r : Nat × Nat) : Bool := rangeOk mask ((r.1 : Int) - padBase c) ((r.1 : Int) - padBase c + r.2)
  let own (r : Nat × Nat) : Bool := rangesMeet r (padBase c, 0x400000)
  if loc || (rs.take 1).any own then (rangeHull rs).all inside else rs.all fun r => !own r || inside r

/-- Check 4 of R262 but for the completion record. -/
def descRegions (c : CoreId) (rd wr : W64) (d : SDesc) (e : Option (List Byte)) : Bool :=
  (!d.extEn || regionOk c rd true [(padBase c + d.ext * 64, 64)]) &&
  regionOk c rd d.srcLoc (srcRanges c d e) &&
  (d.srcForm != 1 || regionOk c rd (auxOp e 0).loc (indexRanges c (auxOp e 0) d.ss1 d)) &&
  regionOk c rd (auxOp e 1).loc (srcScaleRanges c d e) &&
  (!(d.occMask && (d.form == 1 || d.form == 2)) || regionOk c rd (auxOp e 4).loc (maskRanges c (auxOp e 4) d)) &&
  (!(d.kind == 1 || d.kind == 2) || regionOk c rd d.idxLoc [(devAddr c d.idxLoc d.idx, d.d1 * (if d.idxU16 then 2 else 4))]) &&
  regionOk c wr d.dstLoc (dstRanges c d e) &&
  (d.form != 1 || regionOk c wr (auxOp e 2).loc (indexRanges c (auxOp e 2) d.ds1 d)) &&
  regionOk c wr (auxOp e 3).loc (scaleRanges c (auxOp e 3) d.dstScale d.d0 (rowsD d) d.d2 true) &&
  (!d.maskOut || regionOk c wr (auxOp e 5).loc (maskRanges c (auxOp e 5) d))

/-- The source of SWAP and CAS lies within the regions read and the regions written (R288), a part of check 2. -/
def swapRegions (c : CoreId) (rd wr : W64) (d : SDesc) (e : Option (List Byte)) : Bool :=
  regionOk c rd true (backRanges c d e) && regionOk c wr true (backRanges c d e)

/-- The completion record lies in the written regions (R262 check 4). -/
def crecRegion (c : CoreId) (wr : W64) (e : Option (List Byte)) : Bool :=
  !crecEn e || regionOk c wr true [(padBase c + crecOff e, 32)]

/-- Is a square transposed in place, with equal strides, within one region of the core's own scratchpad (R256)? -/
def inPlace (c : CoreId) (d : SDesc) (e : Option (List Byte)) : Bool :=
  let a := devAddr c d.dstLoc d.dst
  d.kind == 0 && d.srcForm == 0 && d.form == 0 && d.perm == 1 && d.d0 == d.d1 && d.d2 == 1 && devAddr c d.srcLoc d.src == a &&
    d.ss1 == d.ds1 && d.ss2 == d.ds2 && placeOf a == .pad c (a - padBase c) && decide (8 ≤ fmtBits d.dstFmt) &&
    (rangeHull (dstRanges c d e)).all fun r => (r.1 - padBase c) / 0x10000 == (r.1 + r.2 - 1 - padBase c) / 0x10000

/-- The two overlaps that R256 permits: a plain move with equal strides, and a square transpose in place. -/
def overlapAllowed (c : CoreId) (d : SDesc) (e : Option (List Byte)) : Bool :=
  let plain (f : Nat) : Bool := f == 0 || f == 3
  d.kind == 0 && plain d.srcForm && plain d.form && d.srcFmt == d.dstFmt && d.srcScale == 0 && d.dstScale == 0 &&
    ((d.perm == 0 && d.ss1 == d.ds1 && d.ss2 == d.ds2) || inPlace c d e)

/-- Check 5 of R262 (R256, R257): what is read meets the destination only as R256 permits and no other range written; no two ranges
written meet; a source never meets its index stream. For a reduction store the destination is the window itself. -/
def descOverlap (c : CoreId) (d : SDesc) (e : Option (List Byte)) : Bool :=
  let dst := rangeHull (dstRanges c d e)
  (anyMeet (readHulls c d e) dst && !overlapAllowed c d e) || (sideHulls c d e).any (anyMeet (readHulls c d e)) ||
    pairMeet (dst :: sideHulls c d e) ||
    ((d.kind == 1 || d.kind == 2) &&
      anyMeet (rangeHull (srcRanges c d e)) [(devAddr c d.idxLoc d.idx, d.d1 * (if d.idxU16 then 2 else 4))])

/-- The checks at issue of R262 in order; poisoned says that the descriptor or extension came from a poison-tagged unit. -/
def descCheck (c : CoreId) (rd wr : W64) (poisoned : Bool) (d : SDesc) (e : Option (List Byte)) : Option Status :=
  if poisoned then some .descPoison
  else if !(descConsistent d e && swapRegions c rd wr d e) then some .inconsistent
  else if !descAligned d e then some .align
  else if !(descRegions c rd wr d e && crecRegion c wr e) then some .region
  else if descOverlap c d e then some .overlap
  else none

end Sys2Proof.Machine
end

