-- ==== Sys2Proof/Machine/Sparse.lean ====
section
/-!
DEFINITION. Reading the sparse forms from memory: SB64 blocks and PB8 groups with the checks of R76 (R59 to R65), and the parts of
the compressed forms that a store writes (R60, R62, R64, R65).
-/

namespace Sys2Proof.Machine

/-- Code i of width w in the bytes at a device address, and its unit's poison. -/
def readCode (s : State) (w a i : Nat) : Nat × Bool :=
  if w = 4 then (memNat s (a + i / 2) 1 / 16 ^ (i % 2) % 16, memPoison s (a + i / 2) 1)
  else (memNat s (a + i * (w / 8)) (w / 8), memPoison s (a + i * (w / 8)) (w / 8))

/-- A decoded SB64 block: the present values by bit number with their poison, the poison of entry and bitmap, the first case of R76 that
it meets, and the poison of any byte it is stored in. -/
structure Blk where
  vals : List (Option (Nat × Bool))
  hp : Bool
  bad : Option Status
  anyP : Bool
  dense : Bool
  bitmap : Nat
deriving DecidableEq, Repr

/-- Stored bytes of a block of n values of w bits (R60). -/
def blkSize (n w : Nat) : Nat := ceilDiv (8 + rowBytes n w) 16 * 16
/-- Bytes of a dense-coded block (R62). -/
def denseSize (w : Nat) : Nat := 8 * w

/-- Is bit i of block (br, bc) an edge position of a tensor of rows × cols (R57)? -/
def edgePos (rows cols br bc i : Nat) : Bool := decide (rows ≤ 8 * br + i / 8 ∨ cols ≤ 8 * bc + i % 8)

/-- Bits set below bit i of a bitmap. -/
def rankBelow (bm i : Nat) : Nat := ((List.range i).filter fun j => bm.testBit j).length

/-- All positions absent. -/
def absent64 : List (Option (Nat × Bool)) := List.replicate 64 none

/-- The SB64 block whose index entry lies at address ea, in a data area of ext bytes at base (R59 to R62, R76, R77). An NNZ of 65 to 126
gives no size, so it is malformed wherever its OFFSET points (DESIGN CHOICE, log 94). -/
def sbBlock (s : State) (w ea base ext rows cols br bc : Nat) : Blk :=
  let entry := memNat s ea 4
  let ep := memPoison s ea 4
  let nnz := entry % 128
  let off := entry / 128 * 16
  let a := base + off
  let zero (st : Option Status) (p : Bool) : Blk := ⟨absent64, st.isSome || p, st, p, false, 0⟩
  if nnz = 0 then zero none ep
  else if nnz = 127 then
    if off + denseSize w > ext then zero (some .operandRange) ep
    else
      let vals := (List.range 64).map fun i => if edgePos rows cols br bc i then none else some (readCode s w a i)
      ⟨vals, ep, none, ep || memPoison s a (denseSize w), true, 2 ^ 64 - 1⟩
  else if nnz > 64 then zero (some .malformedOperand) ep
  else if off + blkSize nnz w > ext then zero (some .operandRange) ep
  else
    let bm := memNat s a 8
    let hp := ep || memPoison s a 8
    let edge := (List.range 64).any fun i => bm.testBit i && edgePos rows cols br bc i
    let ap := ep || memPoison s a (blkSize nnz w)
    if rankBelow bm 64 ≠ nnz then zero (some (if edge then .operandRange else .malformedOperand)) ap
    else
      let vals := (List.range 64).map fun i =>
        if bm.testBit i && !edgePos rows cols br bc i then some (readCode s w (a + 8) (rankBelow bm i)) else none
      ⟨vals, hp || edge, if edge then some .operandRange else none, ap, false, bm⟩

/-- A decoded PB8 group: values by column offset with their poison, the poison of the metadata byte, and the first case of R76. -/
structure Grp where
  vals : List (Option (Nat × Bool))
  hp : Bool
  bad : Option Status
  anyP : Bool
  /-- value slots that the group occupies (R77, R120) -/
  cnt : Nat
deriving DecidableEq, Repr

/-- The PB8 group g at address a of a row of cols columns (R64, R65, R76). -/
def pbGroupAt (s : State) (w a cols g : Nat) : Grp :=
  let m := memNat s a 1
  let mp := memPoison s a 1
  let cnt := min (m / 64) 2
  let i0 := m / 8 % 8
  let i1 := m % 8
  let three := m / 64 == 3
  let same := cnt == 2 && i0 == i1
  let n := if same then 1 else cnt
  let v (k : Nat) : Nat × Bool := readCode s w (a + 1) k
  let past (i : Nat) : Bool := decide (cols ≤ 8 * g + i)
  let out := (n != 0 && past i0) || (n == 2 && past i1)
  let bad := if three || same then some .malformedOperand else if out then some .operandRange else none
  let vals := (List.range 8).map fun i =>
    if past i then none else if n ≠ 0 ∧ i = i0 then some (v 0) else if n = 2 ∧ i = i1 then some (v 1) else none
  ⟨vals, mp || bad.isSome, bad, memPoison s a (pbGroup w), n⟩

/-- The bytes of a compressed SB64 block from its present codes in bit order (R60). -/
def sbBytes (w : Nat) (vals : List (Option Nat)) : List Byte :=
  let bm := (List.range 64).foldl (fun acc i => if (nthD vals i none).isSome then acc + 2 ^ i else acc) 0
  let body := leBytes 8 bm ++ packCodes w (vals.filterMap id)
  body ++ List.replicate (blkSize (vals.filterMap id).length w - body.length) 0

/-- The bytes of a dense-coded block: +0 where there is no candidate (R62, R71). -/
def sbDense (w : Nat) (vals : List (Option Nat)) : List Byte := packCodes w (vals.map fun x => x.getD 0)

/-- The bytes of a PB8 group from at most two present values (R64, R65). -/
def pbBytes (w : Nat) (vals : List (Option Nat)) : List Byte :=
  let on := (List.range 8).filter fun i => (nthD vals i none).isSome
  let v (k : Nat) : Nat := match on[k]? with | some i => (nthD vals i none).getD 0 | none => 0
  let m := min on.length 2 * 64 + nthD on 0 0 * 8 + (if on.length < 2 then 0 else nthD on 1 0)
  BitVec.ofNat 8 m :: (if w = 4 then [BitVec.ofNat 8 (v 0 % 16 + 16 * (v 1 % 16))] else leBytes (w / 8) (v 0) ++ leBytes (w / 8) (v 1))

/-- The value of a code in a format of R251; RAW has no numeric meaning. -/
def codeVal (f code : Nat) : Val := match NumFmt.ofCode f with | some x => decodeNum x code | none => Val.ofInt code 0

end Sys2Proof.Machine
end

