-- ==== Sys2Proof/Machine/StreamRun.lean ====
section
/-!
DEFINITION. What a stream task moves (R252 to R261, R70 to R78): a pure run from the memory before the move to the list of writes,
the counts, and the fault that stops it. The writes take effect unit by unit (R246, R270).
-/

namespace Sys2Proof.Machine

/-- A write of the masked bits of one byte; dat marks destination data (R268 BYTES). -/
structure ByteW where
  a : Nat
  m : Byte
  v : Byte
  p : Bool
  dat : Bool
deriving DecidableEq, Repr

/-- What a run has done: writes newest first, counts, first trimmed group, first offending item, the fault that stopped it. -/
structure Run where
  ws : List ByteW
  dense : Nat
  trim : Nat
  mal : Nat
  oor : Nat
  trimAt : Option Nat
  badAt : Option (Status × Nat)
  stop : Option Status
  /-- bytes beyond the data that poison must reach (R257) -/
  tagAll : Bool
  /-- grants left before a stop of the host takes effect; none where none is under way (R272) -/
  left : Option Nat
deriving DecidableEq, Repr

/-- Nothing done. -/
def run0 : Run := ⟨[], 0, 0, 0, 0, none, none, none, false, none⟩

/-- One more grant: a block or group of a compressing store, a unit of any other (R272). -/
def Run.grant (r : Run) : Run :=
  match r.left with
  | none => r
  | some 0 => { r with stop := some .aborted }
  | some (n + 1) => { r with left := some n }

/-- The grant for a write to unit u, where the write before it went to another. -/
def Run.enter (r : Run) (u : Nat) : Run := if (r.ws.head?.map fun x => x.a / 64) = some u then r else r.grant

/-- Bytes written at an address. -/
def Run.bytes (r : Run) (a : Nat) (bs : List Byte) (p dat : Bool) : Run :=
  { r with ws := (bs.foldl (fun (acc : Nat × List ByteW) b => (acc.1 + 1, ⟨acc.1, 0xFF, b, p, dat⟩ :: acc.2)) (a, r.ws)).2 }

/-- Code i of width w written from a byte base (R33). -/
def Run.code (r : Run) (w a i code : Nat) (p : Bool) : Run :=
  if w = 4 then
    { r with ws := ⟨a + i / 2, if i % 2 = 0 then 0x0F else 0xF0, BitVec.ofNat 8 (code % 16 * 17), p, true⟩ :: r.ws }
  else r.bytes (a + i * (w / 8)) (leBytes (w / 8) code) p true

/-- An offending item: the task stops under STRICT, else it is counted and its place kept for the one event (R77, R78). -/
def Run.bad (r : Run) (strict : Bool) (st : Status) (at_ : Nat) : Run :=
  if strict then { r with stop := some st }
  else
    let r := { r with badAt := r.badAt.or (some (st, at_)) }
    if st = .malformedOperand then { r with mal := r.mal + 1 } else { r with oor := r.oor + 1 }

/-- A source element: its code, scale byte, poison, and whether it is present. -/
structure SEl where
  code : Nat
  sc : Option Byte
  p : Bool
  on : Bool
deriving DecidableEq, Repr

/-- An absent position. -/
def sAbsent (p : Bool) : SEl := ⟨0, none, p, false⟩

/-- The value of a source element (R41, R251). -/
def sVal (d : SDesc) (x : SEl) : Val :=
  if !x.on then Val.zero
  else match x.sc with
    | none => codeVal d.srcFmt x.code
    | some b => scaledVal (codeVal d.srcFmt x.code) b

/-- Are bits copied unchanged (R251)? -/
def copyBits (d : SDesc) : Bool := d.srcFmt == d.dstFmt && d.srcScale == 0 && d.dstScale == 0

/-- The destination code of an element under a scale byte, if scaled: an absent one is +0, or the canonical NaN under scale byte 0xFF (R43,
R251). -/
def dCode (d : SDesc) (sc : Option Byte) (x : SEl) : Nat :=
  if copyBits d then (if x.on then x.code else 0)
  else match NumFmt.ofCode d.dstFmt with
    | none => x.code
    | some f => match sc with
      | none => convertNum f false .rne (sVal d x)
      | some b => encodeScaled f false .rne b (sVal d x)

/-- The scale byte of a source element at source coordinates. -/
def srcScaleAt (s : State) (c : CoreId) (d : SDesc) (e : Option (List Byte)) (j0 j1 j2 : Nat) : Option (Byte × Bool) :=
  if d.srcScale = 0 then none
  else
    let a := auxOp e 1
    let q := scalePos d.srcScale (rowsS d) j0 j1 j2
    let ad := devAddr c a.loc a.addr + q.1 * a.aux * 64 + q.2
    some (BitVec.ofNat 8 (memNat s ad 1), memPoison s ad 1)

/-- A source element from its code and scale. -/
def withScale (sc : Option (Byte × Bool)) (v : Option (Nat × Bool)) (hp : Bool) : SEl :=
  match v with
  | none => sAbsent hp
  | some x => match sc with
    | none => ⟨x.1, none, x.2 || hp, true⟩
    | some b => ⟨x.1, some b.1, x.2 || hp || b.2, true⟩

/-- Entry i of the index stream: its value and poison (R257). -/
def idxAt (s : State) (c : CoreId) (d : SDesc) (i : Nat) : Int × Bool :=
  let b := devAddr c d.idxLoc d.idx
  if d.idxU16 then ((memNat s (b + 2 * i) 2 : Nat), memPoison s (b + 2 * i) 2)
  else ((BitVec.ofNat 32 (memNat s (b + 4 * i) 4)).toInt, memPoison s (b + 4 * i) 4)

/-- The row that entry i of the index stream names, if it names one of the indexed side (R257). -/
def rowOf (s : State) (c : CoreId) (d : SDesc) (i : Nat) : Option Nat :=
  let x := idxAt s c d i
  if x.2 || decide (x.1 < 0 ∨ (d.xh : Int) ≤ x.1) then none else some x.1.toNat

/-- Number of the block-ordered element at column i0, row i1 of a tensor of n0 columns, and of the task's (R253). -/
def blkAt (n0 i0 i1 : Nat) : Nat := 64 * (i1 / 8 * ceilDiv n0 8 + i0 / 8) + (i1 % 8 * 8 + i0 % 8)
def blkIndex (d : SDesc) (i0 i1 : Nat) : Nat := blkAt d.d0 i0 i1

/-- Element of a dense source at source coordinates. -/
def denseEl (s : State) (c : CoreId) (d : SDesc) (e : Option (List Byte)) (j0 j1 j2 : Nat) : SEl :=
  let b := devAddr c d.srcLoc d.src
  let w := fmtBits d.srcFmt
  let v := if d.blkSrc then readCode s w (b + j2 * d.ss2 * 64) (blkAt (srcExt d).1 j0 j1)
    else readCode s w (b + j2 * d.ss2 * 64 + j1 * d.ss1 * 64) j0
  withScale (srcScaleAt s c d e j0 j1 j2) (some v) false

/-- The source coordinates of a destination element under PERM (R252). -/
def permCoord (p i0 i1 i2 k : Nat) : Nat := nthD [i0, i1, i2] (permInv p k) 0

/-- A compressed source: its items in order, blocks or groups. -/
def srcBlk (s : State) (c : CoreId) (d : SDesc) (e : Option (List Byte)) (br bc : Nat) : Blk :=
  let a := auxOp e 0
  sbBlock s (fmtBits d.srcFmt) (devAddr c a.loc a.addr + 4 * (br * d.ss1 + bc)) (devAddr c d.srcLoc d.src) (a.aux * 4096) d.d1 d.d0 br bc
def srcGrp (s : State) (c : CoreId) (d : SDesc) (r g : Nat) : Grp :=
  let w := fmtBits d.srcFmt
  pbGroupAt s w (devAddr c d.srcLoc d.src + r * d.ss1 * 64 + g * pbGroup w) d.d0 g

/-- Number of items of a compressed source: blocks, or groups of every row. -/
def srcItems (d : SDesc) : Nat := if d.srcForm = 1 then bRows d * bCols d else if d.srcForm = 2 then d.d1 * bCols d else 0

/-- The case of R76 that item j meets. -/
def itemBad (s : State) (c : CoreId) (d : SDesc) (e : Option (List Byte)) (j : Nat) : Option Status :=
  if d.srcForm = 1 then (srcBlk s c d e (j / bCols d) (j % bCols d)).bad else (srcGrp s c d (j / bCols d) (j % bCols d)).bad

/-- The checks over a compressed source, item by item; on a stop under STRICT the number of the item (R76 to R78). -/
def checkItems (s : State) (c : CoreId) (d : SDesc) (e : Option (List Byte)) : Nat → Nat → Run → Run × Nat
  | 0, j, r => (r, j)
  | k + 1, j, r =>
    match itemBad s c d e j with
    | none => checkItems s c d e k (j + 1) r
    | some st =>
      let r := r.bad d.strict st j
      if r.stop.isSome then (r, j) else checkItems s c d e k (j + 1) r

/-- The item that holds element (i0, i1) of a compressed source. -/
def itemOf (d : SDesc) (i0 i1 : Nat) : Nat := if d.srcForm = 1 then i1 / 8 * bCols d + i0 / 8 else i1 * bCols d + i0 / 8

/-- The source element that destination element (i0, i1, i2) takes; pads and rows that are not there are handled by the callers. -/
def elAt (s : State) (c : CoreId) (d : SDesc) (e : Option (List Byte)) (i0 i1 i2 : Nat) : SEl :=
  if d.kind = 3 then ⟨d.fillv, none, false, true⟩
  else if d.srcForm = 1 then
    let b := srcBlk s c d e (i1 / 8) (i0 / 8)
    withScale (srcScaleAt s c d e i0 i1 i2) (nthD b.vals (i1 % 8 * 8 + i0 % 8) none) b.hp
  else if d.srcForm = 2 then
    let g := srcGrp s c d i1 (i0 / 8)
    withScale (srcScaleAt s c d e i0 i1 i2) (nthD g.vals (i0 % 8) none) g.hp
  else if d.kind = 1 then
    let x := idxAt s c d i1
    if x.2 then ⟨0, none, true, false⟩
    else if x.1 < 0 ∨ (d.xh : Int) ≤ x.1 then ⟨0, none, true, false⟩
    else denseEl s c d e i0 x.1.toNat i2
  else if padding d then denseEl s c d e (i0 - d.padL) (i1 - d.padT) i2
  else denseEl s c d e (permCoord d.perm i0 i1 i2 0) (permCoord d.perm i0 i1 i2 1) (permCoord d.perm i0 i1 i2 2)

/-- Is destination element (i0, i1) a padding position (R260)? -/
def padPos (d : SDesc) (i0 i1 : Nat) : Bool :=
  padding d && !(decide (d.padL ≤ i0 ∧ i0 - d.padL < padW d) && decide (d.padT ≤ i1 ∧ i1 - d.padT < padH d))

/-- Is FILLV written at a padding position (R260)? -/
def padWritten (d : SDesc) (e : Option (List Byte)) (i0 i1 : Nat) : Bool :=
  let w := extWord e 6
  d.padMode == 2 || (d.padMode == 1 &&
    !decide (bits w 63 52 ≤ i0 ∧ i0 ≤ bits w 51 40 ∧ bits w 39 28 ≤ i1 ∧ i1 ≤ bits w 27 16))

/-- The mask word of block (br, bc) of the plane named by operand j of the extension, with its poison (R253). -/
def maskAddr (c : CoreId) (d : SDesc) (e : Option (List Byte)) (j br bc : Nat) : Nat :=
  let a := auxOp e j
  devAddr c a.loc a.addr + 8 * (br * maskStride d a + bc)
/-- Does position (i0, i1) count for the choice of a scale byte: every one, or under OCC_SRC = MASK those with mask bit 1 (R70)? -/
def maskOn (s : State) (c : CoreId) (d : SDesc) (e : Option (List Byte)) (i0 i1 : Nat) : Bool :=
  !d.occMask || d.form == 0 || (memNat s (maskAddr c d e 4 (i1 / 8) (i0 / 8)) 8).testBit (i1 % 8 * 8 + i0 % 8)

/-- The rows of the destination tensor with the source row that each last takes: all of them, but for SCATTER (R257). -/
def scatterRow (s : State) (c : CoreId) (d : SDesc) (upto r : Nat) : Option Nat :=
  (List.range upto).foldl (fun acc i => let x := idxAt s c d i; if !x.2 && decide (x.1 = (r : Int)) then some i else acc) none

/-- Is the mask word of position (i0, i1) poisoned, where OCC_SRC = MASK reads one? -/
def maskP (s : State) (c : CoreId) (d : SDesc) (e : Option (List Byte)) (i0 i1 : Nat) : Bool :=
  d.occMask && d.form != 0 && memPoison s (maskAddr c d e 4 (i1 / 8) (i0 / 8)) 8

/-- The value that position (i0, i1, i2) of the destination tensor gives to the choice of a scale byte, with its poison and that of its
mask word (R43, R70, R270): zero for a position that is absent, padding, masked out or not written. -/
def scaleEl (s : State) (c : CoreId) (d : SDesc) (e : Option (List Byte)) (i0 i1 i2 : Nat) : Val × Bool :=
  if d.kind = 2 then
    match scatterRow s c d d.d1 i1 with
    | some r => let x := denseEl s c d e i0 r i2; (sVal d x, x.p)
    | none => (Val.zero, false)
  else if padPos d i0 i1 || !maskOn s c d e i0 i1 then (Val.zero, maskP s c d e i0 i1)
  else let x := elAt s c d e i0 i1 i2; (sVal d x, x.p || maskP s c d e i0 i1)

/-- The scale bytes of the destination in line order, with their poison (R43, R254); empty where the destination is not scaled. -/
def dstScales (s : State) (c : CoreId) (d : SDesc) (e : Option (List Byte)) : List (Byte × Bool) :=
  match NumFmt.ofCode d.dstFmt with
  | none => []
  | some f =>
    if d.dstScale = 0 then []
    else
      let n1 := rowsD d
      (List.range (scaleLines d.dstScale n1 d.d2)).flatMap fun l => (List.range (scaleLen d.dstScale d.d0)).map fun j =>
        let els : List (Val × Bool) :=
          if d.dstScale = 2 then
            (List.range (min 32 (d.d0 - 32 * j))).map fun q => scaleEl s c d e (32 * j + q) (l % n1) (l / n1)
          else
            let per := ceilDiv n1 32
            (List.range (min 32 (n1 - 32 * (l % per)))).map fun q => scaleEl s c d e j (32 * (l % per) + q) (l / per)
        (chooseScale f (els.map Prod.fst), els.any Prod.snd)

/-- The scale byte of destination element (i0, i1, i2). -/
def dScaleAt (d : SDesc) (sc : List (Byte × Bool)) (i0 i1 i2 : Nat) : Option (Byte × Bool) :=
  if d.dstScale = 0 then none
  else
    let q := scalePos d.dstScale (rowsD d) i0 i1 i2
    some (nthD sc (q.1 * scaleLen d.dstScale d.d0 + q.2) (0, false))

/-- The scale array written: every line of on whole, the rest of a line as 0 (R254). -/
def putScales (c : CoreId) (d : SDesc) (e : Option (List Byte)) (sc : List (Byte × Bool)) (on : Nat → Bool) (r : Run) : Run :=
  if d.dstScale = 0 then r
  else
    let a := auxOp e 3
    let len := scaleLen d.dstScale d.d0
    ((List.range (scaleLines d.dstScale (rowsD d) d.d2)).filter on).foldl (fun r l =>
      let ad := devAddr c a.loc a.addr + l * a.aux * 64
      let r := (List.range len).foldl (fun r j => let b := nthD sc (l * len + j) (0, false); r.bytes (ad + j) [b.1] b.2 false) r
      r.bytes (ad + len) (List.replicate (a.aux * 64 - len) 0) false false) r

/-- Destination element (i0, i1, i2) of a dense destination written with a code, while grants are given. -/
def putDense (c : CoreId) (d : SDesc) (i0 i1 i2 code : Nat) (p : Bool) (r : Run) : Run :=
  let w := fmtBits d.dstFmt
  let b := devAddr c d.dstLoc d.dst + i2 * d.ds2 * 64 + (if d.blkDst then 0 else i1 * d.ds1 * 64)
  let j := if d.blkDst then blkIndex d i0 i1 else i0
  let r := if r.stop.isSome then r else r.enter ((b + j * w / 8) / 64)
  if r.stop.isSome then r else r.code w b j code p

/-- The poison that a position's scale byte gives to what is written under it (R43). -/
def scaleP (b : Option (Byte × Bool)) : Bool := match b with | some y => y.2 | none => false

/-- Has the run written the nibble that follows the last of an odd number of 4-bit elements of a row? -/
def oddWritten (c : CoreId) (d : SDesc) (i1 i2 : Nat) (r : Run) : Bool :=
  let a := devAddr c d.dstLoc d.dst + i2 * d.ds2 * 64 + i1 * d.ds1 * 64 + d.d0 / 2
  r.ws.any fun x => x.a == a && (x.m &&& 0xF0) != 0

/-- The nibble of 0 that ends a row of an odd number of 4-bit elements (R58), where no element of another row has reached it (R261). -/
def putOdd (c : CoreId) (d : SDesc) (i1 i2 : Nat) (r : Run) : Run :=
  if fmtBits d.dstFmt = 4 ∧ d.d0 % 2 = 1 ∧ !d.blkDst ∧ !oddWritten c d i1 i2 r then putDense c d d.d0 i1 i2 0 false r else r

/-- The edge positions of the block rows `on` of a destination in block order are written as +0, without poison: a unit that holds none but
edge positions of a block that R76 finds bad takes no tag (R77, R253; DESIGN CHOICE, log 126). -/
def putEdges (c : CoreId) (d : SDesc) (on : Nat → Bool) (r : Run) : Run :=
  if d.blkDst then
    (List.range d.d2).foldl (fun r i2 => (List.range (8 * ceilDiv (rowsD d) 8)).foldl (fun r i1 => (List.range (8 * bCols d)).foldl (fun r i0 =>
      if on (i1 / 8) && decide (d.d0 ≤ i0 ∨ rowsD d ≤ i1) then putDense c d i0 i1 i2 0 false r else r) r) r) r
  else r

/-- All coordinates of the destination in order of axis 0, then 1, then 2 (R261). -/
def coords (d : SDesc) : List (Nat × Nat × Nat) :=
  (List.range d.d2).flatMap fun i2 => (List.range d.d1).flatMap fun i1 => (List.range d.d0).map fun i0 => (i0, i1, i2)

/-- The checks of a GATHER's index entries, entry by entry; on a stop under STRICT the number of the entry (R257). -/
def checkIndex (s : State) (c : CoreId) (d : SDesc) (n : Nat) : Run × Nat :=
  (List.range n).foldl (fun (acc : Run × Nat) i =>
    if acc.1.stop.isSome then acc
    else
      let x := idxAt s c d i
      if !x.2 && decide (x.1 < 0 ∨ (d.xh : Int) ≤ x.1) then (acc.1.bad d.strict .operandRange i, i) else (acc.1, i + 1)) (run0, 0)

/-- The checks over the first n items of a dense move's source: the counts, and the number of the item that stops it. -/
def checkSrc (s : State) (c : CoreId) (d : SDesc) (e : Option (List Byte)) (n : Nat) : Run × Nat :=
  if d.kind = 1 then checkIndex s c d n else checkItems s c d e n 0 run0

/-- The items of a dense move's source, and those whose first element is among the first l elements. -/
def moveItems (d : SDesc) : Nat := if d.kind = 1 then d.d1 else srcItems d
def itemsIn (d : SDesc) (l : Nat) : Nat :=
  let first (j : Nat) : Nat :=
    if d.kind = 1 then j * d.d0
    else (if d.srcForm = 1 then 8 * (j / bCols d) else j / bCols d) * d.d0 + 8 * (j % bCols d)
  ((List.range (moveItems d)).filter fun j => decide (first j < l)).length

/-- The elements of a dense move, padding first, then those whose item is not stopped, in order: the run, and the elements passed. -/
def moveEls (s : State) (c : CoreId) (d : SDesc) (e : Option (List Byte)) (g : Option Nat) (sc : List (Byte × Bool))
    (valid : Nat → Nat → Bool) : Run × Nat :=
  let r := { run0 with left := g }
  let r := if padding d then
      (coords d).foldl (fun r i =>
        if padPos d i.1 i.2.1 && padWritten d e i.1 i.2.1 then
          putDense c d i.1 i.2.1 i.2.2 d.fillv (scaleP (dScaleAt d sc i.1 i.2.1 i.2.2)) r else r) r
    else r
  (coords d).foldl (fun (acc : Run × Nat) i =>
    if acc.1.stop.isSome then acc
    else if padPos d i.1 i.2.1 || !valid i.1 i.2.1 then (acc.1, acc.2 + 1)
    else
      let x := elAt s c d e i.1 i.2.1 i.2.2
      let b := dScaleAt d sc i.1 i.2.1 i.2.2
      let code := if d.kind = 3 then d.fillv else dCode d (b.map Prod.fst) x
      let r := putDense c d i.1 i.2.1 i.2.2 code (x.p || scaleP b) acc.1
      (r, if r.stop.isSome then acc.2 else acc.2 + 1)) (r, 0)

/-- A move to a dense destination (R255, R257, R258, R260, R261). Under STRICT the elements of the items before the offending one are
written; a stop of the host cuts it after the grants given, with the items met so far counted. -/
def runDense (s : State) (c : CoreId) (d : SDesc) (e : Option (List Byte)) (g : Option Nat) : Run :=
  let ck := checkSrc s c d e (moveItems d)
  let sc := dstScales s c d e
  let valid (i0 i1 : Nat) : Bool := ck.1.stop.isNone || (if d.kind = 1 then decide (i1 < ck.2) else decide (itemOf d i0 i1 < ck.2))
  let out := moveEls s c d e g sc valid
  if out.1.stop.isSome then { (checkSrc s c d e (itemsIn d out.2)).1 with ws := out.1.ws, stop := some .aborted }
  else
    let r := { ck.1 with ws := out.1.ws, left := out.1.left }
    if r.stop.isSome then r
    else
      let r := (List.range d.d2).foldl (fun r i2 => (List.range d.d1).foldl (fun r i1 => putOdd c d i1 i2 r) r) r
      let r := putEdges c d (fun _ => true) r
      if r.stop.isSome then r else putScales c d e sc (fun _ => true) r

/-- SCATTER (R257): of the scale array it writes the lines that hold a row it writes (DESIGN CHOICE, log 57), and of a destination in block
order the edge positions of the block rows that hold one (DESIGN CHOICE, log 126). -/
def runScatter (s : State) (c : CoreId) (d : SDesc) (e : Option (List Byte)) (g : Option Nat) : Run :=
  let sc := dstScales s c d e
  let r := (List.range d.d1).foldl (fun r i =>
    if r.stop.isSome then r
    else
      let x := idxAt s c d i
      if x.2 then { r with tagAll := true }
      else if x.1 < 0 ∨ (d.xh : Int) ≤ x.1 then r.bad d.strict .operandRange i
      else
        let row := x.1.toNat
        (List.range d.d0).foldl (fun r i0 =>
          let el := denseEl s c d e i0 i 0
          let b := dScaleAt d sc i0 row 0
          putDense c d i0 row 0 (dCode d (b.map Prod.fst) el) (el.p || scaleP b) r) r) { run0 with left := g }
  let rows := (List.range d.d1).filterMap (rowOf s c d)
  let r := if r.stop.isSome then r else rows.foldl (fun r i1 => putOdd c d i1 0 r) r
  let r := if r.stop.isSome then r else putEdges c d (fun br => rows.any fun i1 => i1 / 8 == br) r
  if r.stop.isSome then r else putScales c d e sc (fun l => rows.any fun i1 => (scalePos d.dstScale (rowsD d) 0 i1 0).1 == l) r

/-- The candidates of the eight or 64 positions of an item of a compressing store: their codes where they are candidates (R70), and
the poison of the item (R74). -/
def candidates (s : State) (c : CoreId) (d : SDesc) (e : Option (List Byte)) (sc : List (Byte × Bool)) (pos : List (Nat × Nat)) :
    List (Option Nat) × Bool :=
  let inside (i : Nat × Nat) : Bool := decide (i.1 < d.d0 ∧ i.2 < d.d1)
  let one (i : Nat × Nat) : Option Nat :=
    if !inside i then none
    else
      let code := dCode d ((dScaleAt d sc i.1 i.2 0).map Prod.fst) (elAt s c d e i.1 i.2 0)
      if d.occMask then (if maskOn s c d e i.1 i.2 then some code else none)
      else if (codeVal d.dstFmt code).isZero then none else some code
  let p := pos.any fun i => inside i &&
    ((elAt s c d e i.1 i.2 0).p || scaleP (dScaleAt d sc i.1 i.2 0) || maskP s c d e i.1 i.2)
  (pos.map one, p)

/-- The bits of a list of present positions. -/
def occBits (vals : List (Option Nat)) : Nat :=
  (List.range vals.length).foldl (fun acc i => if (nthD vals i none).isSome then acc + 2 ^ i else acc) 0

/-- Does a block of n bytes at a data offset pass the extent, or need an OFFSET that has no encoding (R72)? -/
def sbPast (off n ext : Nat) : Bool := decide (0x1FFFFFF < off / 16) || (n != 0 && decide (ext < off + n))

/-- A store to SB64: blocks in order at rising offsets, the index and the mask plane (R71, R72). -/
def runSb (s : State) (c : CoreId) (d : SDesc) (e : Option (List Byte)) (g : Option Nat) : Run :=
  let w := fmtBits d.dstFmt
  let sc := dstScales s c d e
  let base := devAddr c d.dstLoc d.dst
  let a := auxOp e 2
  let r := (List.range (bRows d * bCols d)).foldl (fun (acc : Run × Nat) j =>
    let r := if acc.1.stop.isSome then acc.1 else acc.1.grant
    let off := acc.2
    if r.stop.isSome then (r, off)
    else
      let br := j / bCols d
      let bc := j % bCols d
      let q := candidates s c d e sc ((List.range 64).map fun i => (8 * bc + i % 8, 8 * br + i / 8))
      let n := (q.1.filterMap id).length
      let dense := n != 0 && decide (denseSize w ≤ blkSize n w)
      let size := if n = 0 then 0 else if dense then denseSize w else blkSize n w
      if sbPast off size (a.aux * 4096) then ({ r with stop := some .operandRange }, off)
      else
        let bs := if n = 0 then [] else if dense then sbDense w q.1 else sbBytes w q.1
        let r := r.bytes (base + off) bs q.2 true
        let nnz := if dense then 127 else n
        let r := r.bytes (devAddr c a.loc a.addr + 4 * (br * d.ds1 + bc)) (leBytes 4 (off / 16 % 2 ^ 25 * 128 + nnz)) q.2 false
        let r := if d.maskOut then r.bytes (maskAddr c d e 5 br bc) (leBytes 8 (occBits q.1)) q.2 false else r
        ({ r with dense := r.dense + (if dense then 1 else 0) }, off + size)) ({ run0 with left := g }, 0)
  if r.1.stop.isSome then r.1 else putScales c d e sc (fun _ => true) r.1

/-- The two candidates of largest magnitude, ties to the lower offset (R73, R54). The magnitude is that of the element code, without the
scale byte of its block (DESIGN CHOICE, log 93). -/
def keepTwo (f : Nat) (vals : List (Option Nat)) : List (Option Nat) :=
  let beats (i j : Nat) : Bool :=
    match nthD vals i none, nthD vals j none with
    | some x, some y => magGt (codeVal f x) (codeVal f y) || (!magGt (codeVal f y) (codeVal f x) && decide (i < j))
    | some _, none => true
    | none, _ => false
  (List.range vals.length).map fun i => if ((List.range vals.length).filter fun j => beats j i).length < 2 then nthD vals i none else none

/-- A store to PB8: rows and groups in order, mask words when the last row of a block row is stored (R73). The zero
bytes after a row's last group count among the bytes of destination data (R268; DESIGN CHOICE, log 57). -/
def runPb (s : State) (c : CoreId) (d : SDesc) (e : Option (List Byte)) (g : Option Nat) : Run :=
  let w := fmtBits d.dstFmt
  let sc := dstScales s c d e
  let base := devAddr c d.dstLoc d.dst
  let item (r g : Nat) := candidates s c d e sc ((List.range 8).map fun i => (8 * g + i, r))
  let kept (r g : Nat) := keepTwo d.dstFmt (item r g).1
  let out := (List.range d.d1).foldl (fun r i1 =>
    let r := (List.range (bCols d)).foldl (fun r g =>
      let r := if r.stop.isSome then r else r.grant
      if r.stop.isSome then r
      else
        let q := item i1 g
        let many := decide (2 < (q.1.filterMap id).length)
        if many && d.pbFault then { r with stop := some .pbOverfull }
        else
          let r := if many then { r with trim := r.trim + 1, trimAt := r.trimAt.or (some (i1 * 2 ^ 20 + g)) } else r
          r.bytes (base + i1 * d.ds1 * 64 + g * pbGroup w) (pbBytes w (kept i1 g)) q.2 true) r
    if r.stop.isSome then r
    else
      let used := bCols d * pbGroup w
      let r := r.bytes (base + i1 * d.ds1 * 64 + used) (List.replicate (d.ds1 * 64 - used) 0) false true
      if d.maskOut && (i1 % 8 == 7 || i1 + 1 == d.d1) then
        (List.range (bCols d)).foldl (fun r g =>
          let rows := (List.range 8).filter fun q => decide (i1 / 8 * 8 + q < d.d1)
          let word := rows.foldl (fun acc q => acc + occBits (kept (i1 / 8 * 8 + q) g) * 2 ^ (8 * q)) 0
          let p := rows.any fun q => (item (i1 / 8 * 8 + q) g).2
          r.bytes (maskAddr c d e 5 (i1 / 8) g) (leBytes 8 word) p false) r
      else r) { run0 with left := g }
  if out.stop.isSome then out else putScales c d e sc (fun _ => true) out

/-- A move of a mask plane, word by word (R69, R255). -/
def runMask (s : State) (c : CoreId) (d : SDesc) (g : Option Nat) : Run :=
  (List.range (bRows d)).foldl (fun r br => (List.range (bCols d)).foldl (fun r bc =>
    let sa := devAddr c d.srcLoc d.src + 8 * (br * d.ss1 + bc)
    let da := devAddr c d.dstLoc d.dst + 8 * (br * d.ds1 + bc)
    let r := if r.stop.isSome then r else r.enter (da / 64)
    if r.stop.isSome then r else r.bytes da (memBytes s sa 8) (memPoison s sa 8) true) r) { run0 with left := g }

/-- A compressed move (R253): index entries and block bytes, or groups, copied after the checks of R76. A block that R76 reads as all zero
goes as NNZ 0; one with bits at edge positions is copied with its entry and its bits (DEDUCED, log 95). -/
def runSame (s : State) (c : CoreId) (d : SDesc) (e : Option (List Byte)) (g : Option Nat) : Run :=
  let w := fmtBits d.srcFmt
  let sb := devAddr c d.srcLoc d.src
  let db := devAddr c d.dstLoc d.dst
  let out := (List.range (srcItems d)).foldl (fun (r : Run) j =>
    let r := if r.stop.isSome then r else r.grant
    if r.stop.isSome then r
    else
      let br := j / bCols d
      let bc := j % bCols d
      if d.srcForm = 1 then
        let b := srcBlk s c d e br bc
        let a0 := auxOp e 0
        let a2 := auxOp e 2
        let entry := memNat s (devAddr c a0.loc a0.addr + 4 * (br * d.ss1 + bc)) 4
        let off := entry / 128 * 16
        let empty := b.bad.isSome && b.bitmap == 0
        let nnz := if empty then 0 else entry % 128
        let size := if nnz = 0 then 0 else if nnz = 127 then denseSize w else blkSize nnz w
        let r := match b.bad with | some st => r.bad d.strict st j | none => r
        if r.stop.isSome then r
        else if off + size > a2.aux * 4096 ∧ nnz ≠ 0 then { r with stop := some .operandRange }
        else
          let p := b.anyP || b.bad.isSome
          let r := r.bytes (db + off) (memBytes s (sb + off) size) p true
          r.bytes (devAddr c a2.loc a2.addr + 4 * (br * d.ds1 + bc)) (leBytes 4 (off / 16 * 128 + nnz)) p false
      else
        let g := srcGrp s c d br bc
        let r := match g.bad with | some st => r.bad d.strict st j | none => r
        if r.stop.isSome then r
        else
          let r := r.bytes (db + br * d.ds1 * 64 + bc * pbGroup w) (memBytes s (sb + br * d.ss1 * 64 + bc * pbGroup w) (pbGroup w))
            (g.anyP || g.bad.isSome) true
          if bc + 1 = bCols d then
            r.bytes (db + br * d.ds1 * 64 + (bc + 1) * pbGroup w) (List.replicate (d.ds1 * 64 - (bc + 1) * pbGroup w) 0) false true
          else r) { run0 with left := g }
  out

/-- The whole run of a task that is no reduction store and no hand-off; under a stop of the host, what the grants g already given write. -/
def runTask (s : State) (c : CoreId) (d : SDesc) (e : Option (List Byte)) (g : Option Nat) : Run :=
  if d.kind = 2 then runScatter s c d e g
  else if d.form = 3 then runMask s c d g
  else if d.srcForm = 1 ∧ d.form = 1 ∨ d.srcForm = 2 ∧ d.form = 2 then runSame s c d e g
  else if d.form = 1 then runSb s c d e g
  else if d.form = 2 then runPb s c d e g
  else runDense s c d e g

/-- Does an element of another row lie on the nibble that follows the last element of row i1 (D2 = 1)? -/
def oddTaken (d : SDesc) (i1 : Nat) : Bool :=
  let x := i1 * d.ds1 * 128 + d.d0
  (List.range d.d1).any fun j => decide (j * d.ds1 * 128 ≤ x ∧ x < j * d.ds1 * 128 + d.d0)

/-- What a HANDOFF task writes when all its positions have arrived: row ends, block edges, the rest of PB8 rows and scale lines. -/
def handFinish (c : CoreId) (d : SDesc) (e : Option (List Byte)) : Run :=
  let w := fmtBits d.dstFmt
  let base := devAddr c d.dstLoc d.dst
  let r := if d.form = 0 then putEdges c d (fun _ => true) ((List.range d.d1).foldl (fun r i1 => if oddTaken d i1 then r else putOdd c d i1 0 r) run0) else run0
  let r := if d.form = 2 then
      let used := bCols d * pbGroup w
      (List.range d.d1).foldl (fun r i1 => r.bytes (base + i1 * d.ds1 * 64 + used) (List.replicate (d.ds1 * 64 - used) 0) false true) r
    else r
  if d.dstScale = 0 then r
  else
    let a := auxOp e 3
    let len := scaleLen d.dstScale d.d0
    (List.range d.d1).foldl (fun r l =>
      r.bytes (devAddr c a.loc a.addr + l * a.aux * 64 + len) (List.replicate (a.aux * 64 - len) 0) false false) r

/-! What a task reads (R246, R257, R269). -/

/-- The bytes of block j of an SB64 source that its entry names within the extent. -/
def blockBytes (s : State) (c : CoreId) (d : SDesc) (e : Option (List Byte)) (j : Nat) : List (Nat × Nat) :=
  let a := auxOp e 0
  let w := fmtBits d.srcFmt
  let entry := memNat s (devAddr c a.loc a.addr + 4 * (j / bCols d * d.ss1 + j % bCols d)) 4
  let nnz := entry % 128
  let off := entry / 128 * 16
  let size := if nnz = 127 then denseSize w else blkSize nnz w
  if nnz = 0 ∨ (64 < nnz ∧ nnz < 127) ∨ a.aux * 4096 < off + size then [] else [(devAddr c d.srcLoc d.src + off, size)]

/-- The byte ranges of the source that the task accesses: the rows that indexes name, the blocks that are stored. -/
def srcSeen (s : State) (c : CoreId) (d : SDesc) (e : Option (List Byte)) : List (Nat × Nat) :=
  if d.kind = 1 then
    let b := devAddr c d.srcLoc d.src
    let w := fmtBits d.srcFmt
    ((List.range d.d1).filterMap (rowOf s c d)).flatMap fun j =>
      if d.blkSrc then blkRow b d.d0 w j d.d0 else [(b + j * d.ss1 * 64, rowBytes d.d0 w)]
  else if d.srcForm = 1 then
    (unitsMet ((List.range (srcItems d)).flatMap (blockBytes s c d e))).map fun u => (64 * u, 64)
  else srcRanges c d e

/-- The lines of the source's scale array that the task accesses. -/
def scaleSeen (s : State) (c : CoreId) (d : SDesc) (e : Option (List Byte)) : List (Nat × Nat) :=
  let a := auxOp e 1
  if d.kind = 1 ∧ d.srcScale ≠ 0 then
    (List.range d.d1).filterMap fun i => (rowOf s c d i).map fun j =>
      (devAddr c a.loc a.addr + (scalePos d.srcScale (rowsS d) 0 j 0).1 * a.aux * 64, scaleLen d.srcScale d.d0)
  else srcScaleRanges c d e

/-- Every range that a task reads, but for its descriptor and extension, and for the mask words of a HANDOFF, read as its tiles come. -/
def readSeen (s : State) (c : CoreId) (d : SDesc) (e : Option (List Byte)) : List (Nat × Nat) :=
  (if d.kind = 1 ∨ d.kind = 2 then [(devAddr c d.idxLoc d.idx, d.d1 * (if d.idxU16 then 2 else 4))] else []) ++
    (if d.srcForm = 1 then indexRanges c (auxOp e 0) d.ss1 d else []) ++ srcSeen s c d e ++ scaleSeen s c d e ++
    (if d.occMask && (d.form == 1 || d.form == 2) && d.kind != 4 then maskRanges c (auxOp e 4) d else [])

/-- Bytes of destination data written. -/
def runBytes (r : Run) : Nat :=
  ((r.ws.filter fun x => x.dat).foldl (fun acc x => acc + (if x.m = 0xFF then 2 else 1)) 0 + 1) / 2

/-- Sorted numbers of the units that a list of writes touches. -/
def unitsOf (ws : List ByteW) : List Nat := (ws.foldl (fun t x => tset t false (x.a / 64) true) ([] : Tab Bool)).map Prod.fst

/-- The changes that writes, oldest first, make to unit u. -/
def unitCh (ws : List ByteW) (u : Nat) : List ByteCh :=
  ws.foldl (fun ch x =>
    if x.a / 64 = u then
      let o := nthD ch (x.a % 64) (0, 0)
      setNth ch (x.a % 64) (o.1 ||| x.m, (o.2 &&& ~~~x.m) ||| (x.v &&& x.m))
    else ch) (List.replicate 64 (0, 0))

/-- The writes of a run take effect, unit by unit, made by the base die or not; a unit's data is poisoned when any byte written to it
is (R270, R326). -/
def applyWritesAs (base : Bool) (s : State) (newestFirst : List ByteW) : State :=
  let ws := newestFirst.reverse
  (unitsOf ws).foldl (fun s u => writeMaskedAs base s u (unitCh ws u) (ws.any fun x => x.a / 64 == u && x.p)) s

/-- The writes of a stream or engine. -/
def applyWrites (s : State) (newestFirst : List ByteW) : State := applyWritesAs false s newestFirst

/-- The poison that any write of a run carries. -/
def runPoison (r : Run) : Bool := r.tagAll || r.ws.any ByteW.p

end Sys2Proof.Machine
end

