-- ==== Sys2Proof/Machine/Reduce.lean ====
section
/-!
DEFINITION. The element operations of reduction stores and of the memory's operation windows (R288 to R293).
-/

namespace Sys2Proof.Machine

/-- Bytes of an element of a reduction format: F32, BF16, I32, or RAW for I64 (R288). -/
def redSize (f : Nat) : Nat := if f = 1 then 2 else if f = 11 then 8 else 4

/-- A signed number of n bytes. -/
def sgn (n v : Nat) : Int := if v < 2 ^ (8 * n - 1) then (v : Int) else (v : Int) - (2 ^ (8 * n) : Nat)

/-- The code that memory receives from its value v and source element x under window k, 0 ADD, 1 MIN, 2 MAX, 3 SWAP; for 4 CAS the
element is the expected value and n the new one (R289). -/
def redCombine (k f v x n : Nat) : Nat :=
  let fl (g : Val → Val → Val) : Nat :=
    if f = 0 then convertNum .f32 false .rne (g (decodeNum .f32 v) (decodeNum .f32 x))
    else convertNum .bf16 false .rne (g (decodeNum .bf16 v) (decodeNum .bf16 x))
  let isF := f == 0 || f == 1
  let sz := redSize f
  if k = 0 then (if isF then fl addV else (v + x) % 2 ^ (8 * sz))
  else if k = 1 then (if isF then fl minV else if sgn sz x < sgn sz v then x else v)
  else if k = 2 then (if isF then fl maxV else if sgn sz v < sgn sz x then x else v)
  else if k = 3 then x
  else if v = x then n
  else v

/-- Is a slice wide: five or more sections (R28)? -/
def sliceWide (s : State) (n : N20) : Bool := decide (5 ≤ (sliceSects s n).length)

/-- The slice that a quadrant's reduction sequencer serves (R293). -/
def rseqServes (s : State) (q : Fin 4) : Option N20 :=
  if rbit s (.rseq q) 7 then
    match fin? 20 (rfld s (.rseq q) 4 0) with
    | some n => if sliceWide s n && (sliceSects s n).any (fun x => x.val / 5 == q.val) then some n else none
    | none => none
  else none

/-- Is an element operation of window k at stack n served on the memory-side path when its line is absent from the cache (R292)? -/
def memorySide (s : State) (n : N20) (k : Nat) : Bool :=
  k == 0 && (match fin? 4 (n.val / 5), sectSlice s n with
    | some q, some x => rseqServes s q == some x
    | _, _ => false)

/-- The line that an access of element operations to unit u allocates on the cache path (R285, R292). -/
def redLine (s : State) (k u : Nat) : State :=
  match homeOf s u with
  | .dram m => if memorySide s m k && !tget s.cached false u then s else takeLine s m u
  | _ => s

/-- An access of element operations reaches unit u: its check, its hit where the page is retired, its line (R287, R297). -/
def redTouch (s : State) (k u : Nat) : State := redLine (eccCheck s u words8) k u

/-- One element combined indivisibly with memory at device address d of a stack, whose unit the access has reached: the state, the value
memory held, and its poison (R289 to R292). -/
def redElem (s : State) (k f d x n : Nat) (p : Bool) : State × Nat × Bool :=
  let u := d / 64
  let v := memNat s d (redSize f)
  let vp := unitPoison s u
  let s := match homeOf s u with
    | .retired _ => s
    | _ => putMasked (!tget s.cached false u) s u (chOf (d % 64) (leBytes (redSize f) (redCombine k f v x n))) (p || vp)
  (s, v, vp)

/-- The coordinates of the elements of a reduction store in order, as far as a stop of the host lets them. -/
def redCoords (d : SDesc) (g : Option Nat) : List (Nat × Nat × Nat) :=
  let n0 := if d.dstFmt = 11 then d.d0 / 8 else d.d0
  let all := (List.range d.d2).flatMap fun i2 => (List.range d.d1).flatMap fun i1 => (List.range n0).map fun i0 => (i0, i1, i2)
  match g with | none => all | some n => all.take n

/-- Byte offset of element (i0, i1, i2) of a side of a reduction store, n0 elements wide: by its strides, or in block order, where an I64 takes
eight columns (R252, R253, R288; DEDUCED, logs 119 and 125). -/
def redOff (blk : Bool) (f n0 s1 s2 i0 i1 i2 : Nat) : Nat :=
  i2 * s2 * 64 +
    if blk then (if f = 11 then blkAt (8 * n0) (8 * i0) i1 else blkAt n0 i0 i1 * redSize f) else i1 * s1 * 64 + i0 * redSize f

/-- The elements of a reduction store in order (R288, R289, R291); elements of one sector that follow one another make one access of it
(R297). Under PERM the source steps by elements, of 8 bytes for I64 (DEDUCED, log 119). The state, the unit last accessed, and whether any destination or source unit was tagged. -/
def runReduce (s : State) (c : CoreId) (d : SDesc) (e : Option (List Byte)) (g : Option Nat) : State × Bool :=
  let k := windowOf d
  let f := d.dstFmt
  let sz := redSize f
  let s0 := s
  let out := (redCoords d g).foldl (fun (acc : State × Option Nat × Bool) i =>
    let n0 := if f = 11 then d.d0 / 8 else d.d0
    let dst := d.dst % 0x20000000000 + redOff d.blkDst f n0 d.ds1 d.ds2 i.1 i.2.1 i.2.2
    let s := if acc.2.1 = some (dst / 64) then acc.1 else redTouch acc.1 k (dst / 64)
    let j (q : Nat) : Nat := permCoord d.perm i.1 i.2.1 i.2.2 q
    let w0 := if f = 11 then (srcExt d).1 / 8 else (srcExt d).1
    let at_ (k : Nat) : Nat := devAddr c d.srcLoc d.src + redOff d.blkSrc f w0 d.ss1 d.ss2 k (j 1) (j 2)
    if k < 3 then
      let x : Nat × Bool :=
        if f = 11 then (memNat s0 (at_ (j 0)) 8, memPoison s0 (at_ (j 0)) 8)
        else let el := elAt s0 c d e i.1 i.2.1 i.2.2; (dCode d none el, el.p)
      let r := redElem s k f dst x.1 0 x.2
      (r.1, some (dst / 64), acc.2.2 || x.2 || r.2.2)
    else
      let cas := k == 4
      let src := at_ (if cas then 2 * j 0 else j 0)
      let x := memNat s src sz
      let n := if cas then memNat s (src + sz) sz else 0
      let p := memPoison s src sz || (cas && memPoison s (src + sz) sz)
      let r := redElem s k f dst x n p
      let back := if cas then src + sz else src
      (writeAll r.1 back (leBytes sz r.2.1) r.2.2, some (dst / 64), acc.2.2 || p || r.2.2)) (s, none, false)
  (out.1, out.2.2)

end Sys2Proof.Machine
end

