-- ==== Sys2Proof/Machine/DxeTask.lean ====
section
/-!
DEFINITION. Stream tasks: issue with its checks (R214, R248, R262, R263), faults in mid-stream (R269), time (R266, R267), completion,
abort and completion records (R268, R271).
-/

namespace Sys2Proof.Machine

/-- The current a-clock in MHz (R496). -/
def aclkMhz (s : State) : Nat := max 1 (rfld s .clkState 63 54)
/-- Nanoseconds as whole a-cycles, rounded up. -/
def nsCycles (s : State) (ns : Nat) : Nat := ceilDiv (ns * aclkMhz s) 1000

/-- A task's descriptor with its displaced addresses. -/
def taskDesc (t : Task) : SDesc := { parseDesc t.desc with src := t.src, dst := t.dst, idx := t.ix }

/-- The task of a stream. -/
def taskOf (s : State) (c : CoreId) (st : Nat) : Option Task := tget (getCore s c).tasks none st
/-- A stream's task stored. -/
def putTask (s : State) (c : CoreId) (st : Nat) (t : Option Task) : State :=
  let k := getCore s c
  putCore s c { k with tasks := tset k.tasks none st t }

/-- An event of a stream (R263, R271, R457): bank and index of its instruction, and an address or count. -/
def logStream (s : State) (c : CoreId) (st cause cls : Nat) (bank : Bool) (idx : BitVec 11) (lo : Nat) : State :=
  logEv s cause cls (sliceByte (coreSlice s c)) 0 st c.val (mkDetail ((if bank then 2048 else 0) + idx.toNat) lo)

/-- The pieces of a range that lie in one 4 MiB piece of the address space each. -/
def pieces (r : Nat × Nat) : List (Nat × Nat) :=
  if r.2 = 0 then []
  else
    (List.range ((r.1 + r.2 - 1) / 0x400000 + 1 - r.1 / 0x400000)).map fun i =>
      let lo := if i = 0 then r.1 else (r.1 / 0x400000 + i) * 0x400000
      (lo, min (r.1 + r.2) ((r.1 / 0x400000 + i + 1) * 0x400000) - lo)

/-- The fault that a core's access meets at an address, which a whole 4 MiB piece shares (R269, R280, R299, R404, R408). A source or auxiliary
operand in an operation window meets none: what is read there is 0 and what is written goes nowhere (R281; DESIGN CHOICE, log 122). -/
def pieceFault (s : State) (c : CoreId) (a : Nat) : Option Status :=
  match placeOf a with
  | .nothing => some .address
  | .pad o _ => if coreSlice s o == coreSlice s c && (coreSlice s c).isSome then none else some .protection
  | .stack n _ | .win _ n _ =>
    if !(sectSlice s n == coreSlice s c && (coreSlice s c).isSome) then some .protection
    else if stackOpen s n then none
    else some .address

/-- The first fault of a range. -/
def rangeFault (s : State) (c : CoreId) (r : Nat × Nat) : Option Status := (pieces r).findSome? fun x => pieceFault s c x.1

/-- The first fault among ranges. -/
def rangesFault (s : State) (c : CoreId) (rs : List (Nat × Nat)) : Option Status :=
  rs.foldl (fun acc r => if acc.isSome then acc else rangeFault s c r) none

/-- An address with a signed displacement, in the 44 bits of the map. -/
def displace (a : Nat) (x : Int) : Nat := (((a : Int) + x) % (2 ^ 44 : Nat)).toNat

/-- DXE.ISSUE fields (R214). -/
def dxStream (w : W128) : Nat := bits w 114 110
def dxDesc (w : W128) : Nat := bits w 15 0 * 64
def dxDisp (w : W128) (k : Nat) : Int := sbits w (39 + 24 * (k - 1)) (16 + 24 * (k - 1)) * 64

/-- Does a descriptor use its source (SET and HANDOFF do not), its destination, its index stream? -/
def usesSrc (d : SDesc) : Bool := !(d.kind == 3 || d.kind == 4)
def usesIdx (d : SDesc) : Bool := d.kind == 1 || d.kind == 2

/-- Check 3 of R171 for DXE.ISSUE: a displacement or increment of a stream that the descriptor of any iteration does not use is 0
(R214). -/
def dxeConsistent (s : State) (c : CoreId) (d : LoopDesc) (w : W128) : Bool :=
  let src := dxDisp w 1 == 0 && incsZero d 1
  let idx := dxDisp w 3 == 0 && incsZero d 3
  (src && idx) || (List.range (if incsZero d 0 then 1 else loopCount d)).all fun j =>
    let q := parseDesc (memBytes s (padAddr c ((dxDesc w : Int) + loopOff d 0 j)) 64)
    (usesSrc q || src) && (usesIdx q || idx)

/-- Check 4: the increments of streams 0 to 3 are multiples of 64, at every level (R214). -/
def dxeAligned (d : LoopDesc) : Bool := (List.range 4).all fun st => incsAligned d st 64

/-- Check 5: the descriptors lie in range and in the regions read. -/
def dxeRegion (d : LoopDesc) (w : W128) : Bool := streamOk d 0 (dxDesc w) 64 true false

/-- The 32 bytes of a completion record (R268). -/
def recBytes (st flags stream iter bytes : Nat) (r : TaskCnt) (cycles : Nat) : List Byte :=
  leBytes 2 st ++ leBytes 1 flags ++ leBytes 1 stream ++ leBytes 4 iter ++ leBytes 8 bytes ++ leBytes 4 (min r.dense (2 ^ 32 - 1)) ++
    leBytes 4 (min r.trim (2 ^ 32 - 1)) ++ leBytes 2 (min r.mal 65535) ++ leBytes 2 (min r.oor 65535) ++ leBytes 4 (min cycles (2 ^ 32 - 1))

/-- Counts all 0. -/
def cnt0 : TaskCnt := ⟨0, 0, 0, 0, 0, false, false, false, false⟩

/-- The record and completion FILL of a task that ends at a-cycle t, due two a-cycles later, where the extension asks for them. -/
def queueRecord (s : State) (c : CoreId) (st inst iter : Nat) (e : Option (List Byte)) (status flags : Nat) (cnt : TaskCnt)
    (t issueAt : Nat) : State :=
  if !(crecEn e || cwEn e) then s
  else
    let k := getCore s c
    let v : W64 := BitVec.ofNat 64 (status + st * 2 ^ 16 + iter % 2 ^ 32 * 2 ^ 32)
    let r : CompRec := ⟨st, inst, if crecEn e then some (crecOff e) else none,
      recBytes status flags st iter cnt.bytes cnt (t - issueAt), if cwEn e then some (cwLoc e, cwAddr e) else none, v, t + 2⟩
    putCore s c { k with crecs := k.crecs ++ [r] }

/-- An issue refused or stored, by the finding of its checks: its descriptor q, with bytes bs and the extension e (R248, R262, R263). -/
def issueAs (s : State) (c : CoreId) (i : Inst) (j t : Nat) (bs : List Byte) (e : Option (List Byte)) (poisoned : Bool) (q : SDesc) :
    Option Status → State
  | some why =>
    let s := logStream s c (dxStream i.w) (stCode why) clsNone i.bank i.idx 0
    let fin := t + (if q.extEn then 8 else 4)
    let k := getCore s c
    let s := putCore s c { k with sfree := tset k.sfree 0 (dxStream i.w) fin }
    if poisoned || !crecRegion c i.loop.wr e then s
    else queueRecord s c (dxStream i.w) i.id j e (stCode why) 8 cnt0 fin t
  | none =>
    putTask s c (dxStream i.w) (some ⟨i.id, j, i.bank, i.idx, i.loop.rd, i.loop.wr, t, bs, e, q.src, q.dst, q.idx, cnt0, [], [], 0, []⟩)

/-- Issue of iteration j of a DXE.ISSUE at a-cycle t: the task stored, or refused (R248, R262, R263). -/
def issueTask (s : State) (c : CoreId) (i : Inst) (j t : Nat) : State :=
  let w := i.w
  let off (q : Nat) : Int := loopOff i.loop q j
  let da := padAddr c ((dxDesc w : Int) + off 0)
  let s := touchRange s da 64
  let bs := memBytes s da 64
  let q0 := parseDesc bs
  let ea := padBase c + q0.ext * 64
  let s := if q0.extEn then touchRange s ea 64 else s
  let e := if q0.extEn then some (memBytes s ea 64) else none
  let poisoned := memPoison s da 64 || (q0.extEn && memPoison s ea 64)
  let q := { q0 with src := displace q0.src (dxDisp w 1 + off 1), dst := displace q0.dst (dxDisp w 2 + off 2),
                     idx := displace q0.idx (dxDisp w 3 + off 3) }
  issueAs s c i j t bs e poisoned q (descCheck c i.loop.rd i.loop.wr poisoned q e)

/-! Time (R266, R267). -/

/-- 64-byte units that ranges cover, each once. -/
def unitCount (rs : List (Nat × Nat)) : Nat := (unitsMet rs).length

/-- Is a range in the core's own scratchpad? -/
def ownRange (c : CoreId) (r : Nat × Nat) : Bool := match placeOf r.1 with | .pad o _ => o == c | _ => false

/-- The first-data latency in nanoseconds for a source address (R267). -/
def latNs (s : State) (c : CoreId) (a : Nat) : Nat :=
  let me := (coreSect c).val
  let far (n : Nat) : Nat := if n = me then 0 else if n / 5 = me / 5 then 60 else 180
  match placeOf a with
  | .pad o _ => if o = c then 0 else 60 + far (coreSect o).val
  | .stack n _ => (if tget s.cached false (a / 64) then 50 else 200) + far n.val
  | _ => 0

/-- The 64-byte units that a run writes, as ranges. -/
def runUnits (r : Run) : List (Nat × Nat) := (unitsOf r.ws).map fun u => (64 * u, 64)

/-- Have all positions of a HANDOFF task's extent been received (R259)? -/
def handAll (t : Task) : Bool :=
  let d := taskDesc t
  (List.range (bRows d)).all fun br => (List.range (bCols d)).all fun bc => (List.range 64).all fun i =>
    decide (d.d1 ≤ 8 * br + i / 8) || decide (d.d0 ≤ 8 * bc + i % 8) || (tget t.got 0 (br * 2 ^ 20 + bc)).testBit i

/-- What a running task would do now, or under a stop of the host by the grants g already given: its run and the fault that would stop
it, by what it reads and then by what it writes (R269). -/
def taskRunTo (s : State) (c : CoreId) (t : Task) (g : Option Nat) : Run :=
  let d := taskDesc t
  match rangesFault s c (readSeen s c d t.ext) with
  | some f => { run0 with stop := some f }
  | none =>
    let r := if d.kind = 4 then (if handAll t then handFinish c d t.ext else run0) else if windowDst d then run0 else runTask s c d t.ext g
    match rangesFault s c (if windowDst d then dstRanges c d t.ext else runUnits r) with
    | some f => { run0 with stop := some f }
    | none => r

/-- What a running task would do now. -/
def taskRun (s : State) (c : CoreId) (t : Task) : Run := taskRunTo s c t none

/-- Byte ranges that a task writes, as its time counts them: the units of its run; for a HANDOFF what its extent takes; for SWAP and CAS the
local source too, where old values return (R289). -/
def timeWrites (s : State) (c : CoreId) (t : Task) : List (Nat × Nat) :=
  let d := taskDesc t
  if d.kind = 4 then
    if d.form = 1 then (devAddr c d.dstLoc d.dst, t.sbOff) :: (writeRanges c d t.ext).drop (dstRanges c d t.ext).length
    else writeRanges c d t.ext
  else if windowDst d then dstRanges c d t.ext ++ backRanges c d t.ext
  else runUnits (taskRun s c t)

/-- The shortest time of a task in a-cycles (R266). -/
def taskTime (s : State) (c : CoreId) (t : Task) : Nat :=
  let d := taskDesc t
  let e := t.ext
  let rd := readSeen s c d e ++ if d.kind = 4 ∧ d.occMask ∧ (d.form = 1 ∨ d.form = 2) then maskRanges c (auxOp e 4) d else []
  let wr := timeWrites s c t
  let away (rs : List (Nat × Nat)) := rs.filter fun r => !ownRange c r
  let ux := max (unitCount (away rd)) (unitCount (away wr))
  let ul := unitCount (wr.filter (ownRange c))
  let blocks := if (d.srcForm == 1) != (d.form == 1) then bRows d * bCols d else 0
  let groups := if (d.srcForm == 2) != (d.form == 2) then d.d1 * bCols d else 0
  let els := if copyBits d ∨ d.kind = 3 ∨ d.form = 3 then 0
    else if padding d then mapW d * mapH d * d.d2 else d.d0 * d.d1 * d.d2
  let stage := inPlace c d e
  let moves := d.perm == 1 || d.perm == 3 || d.perm == 4 || d.perm == 5
  let pu := if moves then unitCount (dstRanges c d e) * (if stage then 2 else 1) else 0
  let ix := if usesIdx d then d.d1 else 0
  let l := match srcRanges c d e with | r :: _ => nsCycles s (latNs s c r.1) | [] => 0
  (if d.extEn then 8 else 4) + l +
    [ceilDiv ul 16, ceilDiv blocks 8, ceilDiv groups 64, ceilDiv els 512, ceilDiv pu 8, ceilDiv ix 8].foldl max (ceilDiv ux 8)

/-! Ends of tasks. -/

/-- The state in which a task has read what it reads (R246, R285, R296); a task that may not reach its ranges reads nothing. -/
def taskSeen (s : State) (c : CoreId) (t : Task) : State :=
  let rs := readSeen s c (taskDesc t) t.ext
  match rangesFault s c rs with
  | some _ => s
  | none => touchAll s rs

/-- The stack behind a window address; any other address itself. -/
def behind (a : Nat) : Nat := if 0x20000000000 ≤ a ∧ a < 0xC0000000000 then a % 0x20000000000 else a

/-- The pieces of an aborted task's extents that it may reach (R271). -/
def tagPieces (s : State) (c : CoreId) (d : SDesc) (e : Option (List Byte)) : List (Nat × Nat) :=
  ((tagRanges c d e).flatMap pieces).filter fun r => (pieceFault s c r.1).isNone

/-- The extents of an aborted task tagged, where the task may reach them (R271). -/
def tagExtents (s : State) (c : CoreId) (d : SDesc) (e : Option (List Byte)) : State :=
  (tagPieces s c d e).foldl (fun s r => tagRange s (behind r.1) r.2) s

/-- Does the abort of a task tag any unit? -/
def tagsAny (s : State) (c : CoreId) (d : SDesc) (e : Option (List Byte)) : Bool := !(tagPieces s c d e).isEmpty

/-- The counts of a run put into a task's counts and DXE_STAT, and its events logged (R73, R77, R79, R257). -/
def countRun (s : State) (c : CoreId) (st : Nat) (t : Task) (r : Run) (bytes : Nat) : State × TaskCnt :=
  let s := rbump s (.eng c .dxe .stat) 47 32 r.trim
  let s := rbump s (.eng c .dxe .stat) 31 16 r.dense
  let s := rbump s (.eng c .dxe .stat) 15 8 r.mal
  let s := rbump s (.eng c .dxe .stat) 7 0 r.oor
  let s := match r.trimAt with
    | some x => logEv s ntPbTrim clsNone (sliceByte (coreSlice s c)) 0 st c.val (mkDetail (x / 2 ^ 20) (x % 2 ^ 20))
    | none => s
  let s := match r.badAt with
    | some x => logStream s c st (stCode x.1) clsPoison t.bank t.idx x.2
    | none => s
  (s, { t.cnt with bytes := t.cnt.bytes + bytes, dense := t.cnt.dense + r.dense, trim := t.cnt.trim + r.trim, mal := t.cnt.mal + r.mal,
                   oor := t.cnt.oor + r.oor, poison := t.cnt.poison || runPoison r })

/-- A task aborted with a status, its cancel boundary reached at a-cycle fin: what it wrote stands, its extents are tagged; event, record
with ABORTED, and with POISON where a unit was tagged, completion FILL (R268, R271, R272). -/
def abortTask (s : State) (c : CoreId) (st : Nat) (t : Task) (status cls : Nat) (cnt : TaskCnt) (fin : Nat) : State :=
  let d := taskDesc t
  let flags := 2 + (if cnt.poison || tagsAny s c d t.ext then 1 else 0)
  let s := tagExtents s c d t.ext
  let s := logStream s c st status cls t.bank t.idx 0
  let s := putTask s c st none
  queueRecord s c st t.inst t.iter t.ext status flags cnt fin t.issueAt

/-- What a task has done when the grants g have been given: its writes, its counts, and its reads, all of them where it has any grant (R272;
DESIGN CHOICE, log 55). A HANDOFF task has written every tile that it took whole. -/
def cutTask (s : State) (c : CoreId) (st : Nat) (t : Task) (g : Nat) : State × TaskCnt :=
  let d := taskDesc t
  let s := if g = 0 then s else taskSeen s c t
  let r := taskRunTo s c t (some g)
  if d.kind = 4 then (s, t.cnt)
  else if windowDst d then
    if r.stop.isSome then (s, t.cnt)
    else
      let x := runReduce s c d t.ext (some g)
      (x.1, { t.cnt with bytes := (redCoords d (some g)).length * redSize d.dstFmt, poison := x.2 })
  else countRun (applyWrites s r.ws) c st t r (runBytes r)

/-- Abort of a stream's running task by a stop of the host or of a slice end (R271). The grants given before it, and the a-cycles until
they have taken effect, are free values (DESIGN CHOICE, log 55). -/
def stopTask (s : State) (c : CoreId) (st : Nat) : State :=
  match taskOf s c st with
  | none => s
  | some t =>
    let g := drawFree s
    let d := drawFree g.1
    let x := cutTask d.1 c st t g.2.toNat
    let fin := x.1.now + d.2.toNat
    let s := abortTask x.1 c st t (stCode .aborted) clsNone x.2 fin
    let k := getCore s c
    putCore s c { k with sabort := tset k.sabort 0 st fin }

/-- Abort of all tasks of a core's DXE. -/
def stopTasks (s : State) (c : CoreId) : State := (List.range 32).foldl (fun s st => stopTask s c st) s

/-- FLAGS of a completed task's record. -/
def doneFlags (cnt : TaskCnt) (d : SDesc) (cycles : Nat) : Nat :=
  (if cnt.poison then 1 else 0) + (if d.deadline ≠ 0 ∧ d.deadline * 16 < cycles then 4 else 0)

/-- A task that meets a fault in mid-stream aborts (R269, R78, R72, R73); what it reads of a stack in RECAL it has not met yet (R299). -/
def faultTask (s : State) (c : CoreId) (st : Nat) : State :=
  match taskOf s c st with
  | none => s
  | some t =>
    let u := taskSeen s c t
    let r := taskRun u c t
    if holdsRange s (readSeen s c (taskDesc t) t.ext) then s
    else match r.stop with
    | none => s
    | some f =>
      let s := u
      let x := countRun (applyWrites s r.ws) c st t r (runBytes r)
      abortTask x.1 c st t (stCode f) clsTask x.2 x.1.now

end Sys2Proof.Machine
end

