-- ==== Sys2Proof/Machine/Select.lean ====
section
/-!
DEFINITION. The moult selector: contexts, ranking, admission and the store area (R138, R217).
-/

namespace Sys2Proof.Machine

/-- A selector context of a core. -/
def ctxOf (s : State) (c : CoreId) (j : Nat) : SelCtx := tget (getCore s c).ctx ctxReset j
/-- A selector context stored. -/
def putCtx (s : State) (c : CoreId) (j : Nat) (x : SelCtx) : State :=
  let k := getCore s c
  putCore s c { k with ctx := tset k.ctx ctxReset j x }

/-- Does entry a rank strictly before entry b: GROW by magnitude descending, PRUNE ascending, ties to the lower position (R138)? -/
def ranksBefore (prune : Bool) (a b : Nat × W32) : Bool :=
  let ga := magGt (f32 a.2) (f32 b.2)
  let gb := magGt (f32 b.2) (f32 a.2)
  if prune then gb || (!ga && decide (a.1 < b.1)) else ga || (!gb && decide (a.1 < b.1))

/-- An entry at its rank. -/
def rankInsert (prune : Bool) (e : Nat × W32) (xs : List (Nat × W32)) : List (Nat × W32) :=
  xs.filter (fun x => ranksBefore prune x e) ++ e :: xs.filter (fun x => !ranksBefore prune x e)

/-- Does the context take a candidate: the store has room, or the candidate ranks before its last entry? -/
def admits (x : SelCtx) (e : Nat × W32) : Bool :=
  decide (x.entries.length < x.k) || (match x.entries.getLast? with | some l => ranksBefore x.prune e l | none => false)

/-- The context after a candidate with a poison flag. -/
def offer (x : SelCtx) (e : Nat × W32) (p : Bool) : SelCtx :=
  { x with entries := if admits x e then (rankInsert x.prune e x.entries).take x.k else x.entries, poison := x.poison || p }

/-- The number of the entry that a candidate becomes, where it is admitted: every entry from it on moves (R138). -/
def entryOf (x : SelCtx) (e : Nat × W32) : Option Nat :=
  if admits x e then some (x.entries.filter fun y => ranksBefore x.prune y e).length else none

/-- The lower of two entries that an operation has reached. -/
def lowest (a b : Option Nat) : Option Nat :=
  match a, b with
  | some x, some y => some (min x y)
  | some x, none => some x
  | none, y => y

/-- Every unit of the store area that holds an entry is tagged while POISON is set (R138). -/
def tagStore (s : State) (c : CoreId) (x : SelCtx) : State :=
  if x.poison then tagRange s (padAddr c x.store) (8 * x.entries.length) else s

/-- The entries from n on written to the store area, in rank order; none where nothing was admitted (R138). -/
def writeStore (s : State) (c : CoreId) (x : SelCtx) (n : Option Nat) : State :=
  match n with
  | none => tagStore s c x
  | some n =>
    tagStore (writeAll s (padAddr c (x.store + 8 * n : Nat))
      ((x.entries.drop n).flatMap fun e => leBytes 4 e.1 ++ leBytes 4 e.2.toNat) x.poison) c x

/-- The armed GROW context that a candidate matches (R217). -/
def growMatch (s : State) (c : CoreId) (idxAddr : Int) (block : Nat) : Option Nat :=
  [0, 1, 2, 3].find? fun j =>
    let x := ctxOf s c j
    x.armed && !x.prune && (x.idx : Int) == idxAddr && decide (x.first ≤ block ∧ block < x.first + x.blocks)

/-- A candidate of MXE.ALT: block number, bit number, value, poison. -/
abbrev Cand := Nat × Nat × W32 × Bool

/-- A candidate offered to the GROW context that it matches; discarded and counted where none does (R138). With the state go the
number of candidates admitted so far, and the contexts that took one, each with the lowest entry that moved, if any did. -/
def offerGrow (a : State × Nat × List (Nat × Option Nat)) (c : CoreId) (idxAddr : Int) (q : Cand) : State × Nat × List (Nat × Option Nat) :=
  match growMatch a.1 c idxAddr q.1 with
  | none => (rbump a.1 (.eng c .mle .stat) 15 0 1, a.2)
  | some j =>
    let x := ctxOf a.1 c j
    let e : Nat × W32 := ((q.1 - x.first) * 64 + q.2.1, q.2.2.1)
    let n := entryOf x e
    let ents := a.2.2
    let old := (ents.find? fun y => y.1 == j).map Prod.snd
    let y := offer x e q.2.2.2
    (putCtx a.1 c j y, a.2.1 + (if n.isSome then 1 else 0),
      if n.isNone && x.poison == y.poison then ents else (j, lowest (old.getD none) n) :: ents.filter fun z => z.1 != j)

/-- The store areas of the GROW contexts that admitted a candidate or became poisoned are brought up to date (R138). -/
def writeGrowStores (s : State) (c : CoreId) (ents : List (Nat × Option Nat)) : State :=
  ents.foldl (fun s e => writeStore s c (ctxOf s c e.1) e.2) s

end Sys2Proof.Machine
end

