-- ==== Sys2Proof/Machine/MxeDesc.lean ====
section
/-!
DEFINITION. Matrix instructions: word and product-descriptor fields (R84, R117, R199 to R203), the drain descriptor (R98), and the
checks of R108 and R130 with the ranges of R161 and R203.
-/

namespace Sys2Proof.Machine

/-- The format of a 3-bit code with its sign bit (R200). -/
def arrFmt (code : Nat) (sign : Bool) : NumFmt :=
  match code with
  | 0 => .bf16 | 1 => .f16 | 2 => .f8e | 3 => .f8w | 4 => .f4
  | 5 => if sign then .i8 else .u8
  | _ => if sign then .i4 else .u4

/-- Depth of the dot product for an element width (R39, R83). -/
def depthOf (w : Nat) : Nat := if w = 4 then 4 else if w = 8 then 2 else 1

/-- A drain descriptor (R98). -/
structure Drain where
  ok : Bool
  stream : Nat
  handoff : Bool
  scaleAxis : Nat
  ilv : Nat
  layout : Nat
  sideInit : Bool
  stats : Bool
  bias : Bool
  sround : Bool
  sat : Bool
  fmt : Nat
  stride : Nat
  base : Nat
  scaleBase : Nat
  biasBase : Nat
  scaleStride : Nat
  sideStride : Nat
  sideBase : Nat
deriving DecidableEq, Repr

/-- The drain descriptor in four words. -/
def parseDrain (w : Nat → W64) : Drain :=
  let a := w 0
  { ok := bits a 63 22 == 0 && bits (w 1) 63 48 == 0 && bits (w 1) 31 22 == 0 && bits (w 2) 63 54 == 0 && bits (w 2) 31 22 == 0 &&
      bits (w 3) 31 22 == 0 && decide (bits a 15 14 ≤ 1) && decide (bits a 13 11 ≤ 3) && decide (bits a 10 9 ≤ 2) && decide (bits a 3 0 ≤ 10),
    stream := bits a 21 17, handoff := bit a 16, scaleAxis := bits a 15 14, ilv := 4 * 2 ^ bits a 13 11, layout := bits a 10 9,
    sideInit := bit a 8, stats := bit a 7, bias := bit a 6, sround := bit a 5, sat := bit a 4, fmt := bits a 3 0,
    stride := bits (w 1) 47 32 * 64, base := bits (w 1) 21 0, scaleBase := bits (w 2) 53 32, biasBase := bits (w 2) 21 0,
    scaleStride := bits (w 3) 63 48 * 64, sideStride := bits (w 3) 47 32 * 64, sideBase := bits (w 3) 21 0 }

/-- One iteration of a matrix instruction: its word and its product descriptor, with addresses as local offsets. For MXE.ALT the
streaming operand x of WS is X itself, y is dY, and kt holds NT. -/
structure Prod where
  op : Nat
  col : Bool
  fx : NumFmt
  fw : NumFmt
  fy : NumFmt
  form : Nat
  accIn : Bool
  accOut : Bool
  strict : Bool
  dwIn : Bool
  dwOut : Bool
  dwBf : Bool
  sample : Bool
  arrFirst : Nat
  arrs : Nat
  m : Nat
  n : Nat
  k : Nat
  kt : Nat
  passK : Nat
  xsc : Bool
  wsc : Bool
  ysc : Bool
  x : Int
  y : Int
  w : Int
  part : Int
  idx : Int
  xStride : Nat
  yStride : Nat
  wStride : Nat
  ext : Nat
  xscA : Int
  wscA : Int
  yscA : Int
  xscS : Nat
  wscS : Nat
  yscS : Nat
  cbase : Int
  cin : Int
  frz : Int
  msk : Int
  dr : Drain
  /-- reserved bits are 0, fields of absent operands are 0, offsets are multiples of 64 -/
  ok : Bool
deriving DecidableEq, Repr

/-- Fields of the MXE word (R199). -/
def mBase (w : W128) (s : Nat) : Int := (bits w (15 + 16 * s) (16 * s) * 64 : Nat)
/-- Address of stream s in iteration j. -/
def mAddr (d : LoopDesc) (w : W128) (s j : Nat) : Int := mBase w s + loopOff d s j

/-- The iteration of a matrix instruction from its word and the 128 bytes of its descriptor (R201, R202). MXE.ALT gives IDX_OFF for every
form, since its candidates carry that address (R136, R202). -/
def parseProd (d : LoopDesc) (w : W128) (j : Nat) (bs : List Byte) : Prod :=
  let q := wordAt bs
  let alt := opc w == 0x48
  let a0 := mAddr d w 0 j
  let a1 := mAddr d w 1 j
  let a2 := mAddr d w 2 j
  let sb := bits w 91 90 == 1
  let off (i hi lo : Nat) : Int := sbits (q i) hi lo
  let m64 (x : Int) : Bool := x % 64 == 0
  let xsc := bit (q 0) 63
  let wsc := bit (q 0) 62
  let ysc := alt && bit (q 0) 61
  let rsvCommon := bits (q 12) 63 0 == 0 && bits (q 13) 63 0 == 0 && bits (q 14) 63 0 == 0 && bits (q 15) 63 0 == 0
  let scales (on : Bool) (o : Int) (st : Nat) : Bool := (on || (o == 0 && st == 0)) && m64 o
  let sp := bit w 79
  let okPlain := bits (q 0) 61 60 == 0 && bits (q 2) 22 0 == 0 && bits (q 3) 31 0 == 0 && bits (q 4) 63 46 == 0 &&
    bits (q 5) 63 0 == 0 && bits (q 6) 63 0 == 0 && bits (q 7) 63 0 == 0 && scales xsc (off 4 45 23) (bits (q 3) 63 48) &&
    scales wsc (off 4 22 0) (bits (q 3) 47 32)
  let okAlt := bits (q 0) 60 60 == 0 && bits (q 3) 15 0 == 0 && bits (q 4) 63 46 == 0 && bits (q 5) 63 46 == 0 && bits (q 6) 63 46 == 0 &&
    bits (q 7) 63 23 == 0 && scales xsc (off 4 45 23) (bits (q 3) 31 16) && scales wsc (off 4 22 0) (bits (q 3) 47 32) &&
    scales ysc (off 5 45 23) (bits (q 3) 63 48) && m64 (off 2 22 0) && m64 (off 5 22 0) && m64 (off 6 45 23) && m64 (off 6 22 0) &&
    m64 (off 7 22 0) && (sp || (off 6 45 23 == 0 && off 6 22 0 == 0)) && (bit w 82 || off 7 22 0 == 0)
  { op := opc w, col := bit w 100, fx := arrFmt (bits w 99 97) (bit w 96), fw := arrFmt (bits w 95 93) (bit w 92),
    fy := arrFmt (bits w 86 84) (bit w 83), form := bits w 91 90, accIn := bit w 89, accOut := bit w 88, strict := bit w 87,
    dwIn := bit w 82, dwOut := bit w 81, dwBf := bit w 80, sample := sp, arrFirst := bits w 114 108, arrs := bits w 107 101 + 1,
    m := bits (q 0) 19 0, n := bits (q 0) 39 20, k := bits (q 0) 59 40, kt := bits (q 1) 15 0,
    passK := if alt then 0 else bits (q 1) 31 16, xsc, wsc, ysc,
    x := if alt then a0 + off 2 22 0 else a0, y := a0, w := a1, part := a2, idx := a1 + off 2 45 23,
    xStride := if alt then bits (q 1) 31 16 * 64 else bits (q 1) 63 48 * 64, yStride := bits (q 1) 63 48 * 64,
    wStride := bits (q 1) 47 32 * 64, ext := bits (q 2) 63 46 * 64,
    xscA := a0 + off 4 45 23, wscA := a1 + off 4 22 0, yscA := a0 + off 5 45 23,
    xscS := if alt then bits (q 3) 31 16 * 64 else bits (q 3) 63 48 * 64, wscS := bits (q 3) 47 32 * 64, yscS := bits (q 3) 63 48 * 64,
    cbase := a1 + off 5 22 0, cin := if off 7 22 0 = 0 then a1 + off 5 22 0 else a1 + off 7 22 0,
    frz := a1 + off 6 45 23, msk := a1 + off 6 22 0, dr := parseDrain fun i => q (8 + i),
    ok := rsvCommon && (if alt then okAlt else okPlain) && m64 (off 2 45 23) &&
      (sb || (bits (q 2) 63 46 == 0 && (alt || off 2 45 23 == 0))) && (!sb || bits (q 1) 47 32 == 0) }

/-- The iteration's descriptor read from scratchpad. -/
def prodAt (s : State) (c : CoreId) (d : LoopDesc) (w : W128) (j : Nat) : Prod :=
  parseProd d w j (memBytes s (padAddr c (mAddr d w 3 j)) 128)

/-- Depth of an instruction. -/
def Prod.d (p : Prod) : Nat := depthOf p.fw.width
/-- Is the class an integer one (I32 accumulators)? -/
def Prod.int (p : Prod) : Bool := !p.fw.isFloat
/-- Reduction length of the product: N for a column read and for dX. -/
def Prod.red (p : Prod) : Nat := if p.op = 0x48 ∨ p.col then p.n else p.k
/-- Number of outputs along the second coordinate of the drained result: N, or K for a column read and for dX. -/
def Prod.outs (p : Prod) : Nat := if p.op = 0x48 ∨ p.col then p.k else p.n
/-- Rows and columns of an accumulator tile (R85). -/
def Prod.tr (p : Prod) : Nat := if p.col then 8 / p.d else 8
def Prod.tc (p : Prod) : Nat := if p.col then 8 * p.d else 8
/-- Units of stationary work dealt to the arrays: block rows, output groups, row tiles or block columns (R85, R119). -/
def Prod.strips (p : Prod) : Nat := if p.op = 0x42 then ceilDiv p.m 8 else ceilDiv p.outs p.tc
/-- Rounds (R86). -/
def Prod.rounds (p : Prod) : Nat := ceilDiv p.strips p.arrs
/-- Output tiles of an array in a round. -/
def Prod.tiles (p : Prod) : Nat := if p.op = 0x42 then ceilDiv p.n 8 else ceilDiv p.m p.tr
/-- Pass ranges (R89). -/
def Prod.ranges (p : Prod) : Nat := ceilDiv p.red p.passK

/-- Granule of KT by mode (R88). -/
def Prod.granule (p : Prod) : Nat :=
  if p.op = 0x48 then 8 else if p.op = 0x41 then p.d else if p.op = 0x42 then 8 * p.d
  else if p.col then 8 else if p.form = 1 then 8 else if p.form = 2 then 32 * p.d else 8 * p.d

/-- Does a drain take place? -/
def Prod.drains (p : Prod) : Bool := !p.accOut

/-- The drain descriptor's rules (R102, R108). -/
def drainOk (p : Prod) : Bool :=
  let r := p.dr
  r.ok && (r.scaleAxis == 0 || (p.op == 0x40 && !p.col) || p.op == 0x41 || p.op == 0x48) && (!r.stats || !p.int) &&
    (!r.handoff || (r.fmt == (if p.int then 6 else 0) && r.scaleAxis == 0 && !r.sround)) &&
    (!p.drains || ((!r.bias || r.biasBase % 64 == 0) && (r.scaleAxis == 0 || r.scaleBase % 64 == 0) && (!r.stats || r.sideBase % 64 == 0)))

/-- Element size in bits of the companion: 16 for BF16 output, else 32; raw values take 32 (R125, R126). -/
def Prod.cBits (p : Prod) : Nat := if p.dwOut || p.int || !p.dwBf then 32 else 16

/-- Hull of rows: r rows of b bytes at a stride, from an address. -/
def hull (a : Int) (rows stride b : Nat) : Int × Int := (a, a + ((rows - 1) * stride + b : Nat))

/-- One width class (R39). -/
def sameClass (a b : NumFmt) : Bool := a.width == b.width && a.isFloat == b.isFloat

/-- What a matrix word must hold by itself (R39, R84, R108, R130, R199). -/
def mxeWordOk (w : W128) : Bool :=
  let alt := opc w == 0x48
  let signed (code : Nat) (sg : Bool) : Bool := decide (5 ≤ code) || !sg
  let fx := arrFmt (bits w 99 97) (bit w 96)
  let fw := arrFmt (bits w 95 93) (bit w 92)
  let fy := arrFmt (bits w 86 84) (bit w 83)
  let form := bits w 91 90
  decide (bits w 114 108 + bits w 107 101 ≤ 127) && (opc w == 0x40 || !bit w 100) && signed (bits w 99 97) (bit w 96) &&
    signed (bits w 95 93) (bit w 92) && (!alt || signed (bits w 86 84) (bit w 83)) && sameClass fx fw && (!alt || sameClass fy fw) &&
    (form == 0 || alt || (opc w == 0x40 && !bit w 100)) && (!alt || ((!bit w 80 || fw.isFloat) && (!bit w 79 || form != 0)))

/-- Range of W's companion with elements of cb bits from a base (R125). -/
def compHull (p : Prod) (base : Int) (cb : Nat) : Int × Int :=
  let q := cb / p.fw.width
  if p.form = 1 then (base, base + (q * p.ext : Nat))
  else if p.form = 2 then hull base p.n (q * p.wStride) (q * (ceilDiv p.k 8 * pbGroup p.fw.width))
  else hull base p.n (q * p.wStride) (rowBytes p.k cb)

/-- A range that an iteration touches: key, bounds, read, written. -/
abbrev MRange := Nat × (Int × Int) × Bool × Bool

/-- Slots of the partial-sum area from the first to the last that is checked: of MXE.ALT the whole area, of the others up to the last array
that has a strip in the last round (R203). -/
def Prod.partSlots (p : Prod) : Nat :=
  let full := p.arrs * (p.tiles * p.rounds)
  if p.op = 0x48 then full else full - (p.arrs * p.rounds - p.strips)

/-- Range of an output in interleaved channels: groups of ILV channels at the row stride, the last with those that remain (R99). -/
def ilvHull (r : Drain) (m outs e : Nat) : Int × Int :=
  let g := ceilDiv outs r.ilv - 1
  let last := g * r.stride + rowBytes ((m - 1) * r.ilv + (outs - g * r.ilv)) e
  let whole := if g = 0 then 0 else (g - 1) * r.stride + rowBytes (m * r.ilv) e
  ((r.base : Int), (r.base + max last whole : Nat))

/-- Range of the side entries: each row has one in every array of the range, in MXE.IS one in the array that holds its row tile, so the
last rows of the last row tiles decide its end (R85, R101). -/
def sideHull (p : Prod) : Int × Int :=
  let r := p.dr
  let n := min p.arrs p.strips
  if p.op ≠ 0x42 then hull r.sideBase p.m r.sideStride (8 * n)
  else
    let tops := (List.range n).map fun j =>
      let t := p.strips - 1 - j
      min (8 * t + 7) (p.m - 1) * r.sideStride + 8 * (t % p.arrs) + 8
    (r.sideBase, (r.sideBase + tops.foldl max 0 : Nat))

/-- Everything that an iteration reads and writes (R161, R203). The K that R203 holds against PASS_K is the reduction length, N under READ =
COL (DESIGN CHOICE, log 118). -/
def prodRanges (p : Prod) (desc : Int) : List MRange :=
  let ww := p.fw.width
  let alt := p.op == 0x48
  let r := p.dr
  let outs := p.outs
  let e := match NumFmt.ofCode r.fmt with | some f => f.width | none => 32
  let blocks := ceilDiv p.n 8 * ceilDiv p.k 8
  let drain := p.drains && !r.handoff
  let outHull : Int × Int :=
    if r.layout = 0 then hull r.base p.m r.stride (rowBytes outs e)
    else if r.layout = 1 then hull r.base outs r.stride (rowBytes p.m e)
    else ilvHull r p.m outs e
  let partUsed := alt || decide (p.passK < p.red) || p.accIn || p.accOut
  [(0, (desc, desc + 128), true, false),
   (1, hull p.x p.m p.xStride (rowBytes (if p.col then p.n else p.k) p.fx.width), true, false)] ++
  (if alt then [(2, hull p.y p.m p.yStride (rowBytes p.n p.fy.width), true, false)] else []) ++
  (if p.form = 1 then [(3, (p.w, p.w + (p.ext : Int)), true, false), (4, (p.idx, p.idx + (4 * blocks : Nat)), true, false)]
   else if p.form = 2 then [(3, hull p.w p.n p.wStride (ceilDiv p.k 8 * pbGroup ww), true, false)]
   else [(3, hull p.w p.n p.wStride (rowBytes p.k ww), true, false)]) ++
  (if p.xsc then [(5, hull p.xscA p.m p.xscS (ceilDiv (if p.col then p.n else p.k) 32), true, false)] else []) ++
  (if p.wsc then
    [(6, if p.col then hull p.wscA (ceilDiv p.n 32) p.wscS p.k else hull p.wscA p.n p.wscS (ceilDiv p.k 32), true, false)] else []) ++
  (if p.ysc then [(7, hull p.yscA p.m p.yscS (ceilDiv p.n 32), true, false)] else []) ++
  (if partUsed then [(8, (p.part, p.part + (256 * p.partSlots : Nat)), true, true)] else []) ++
  (if drain then [(9, outHull, false, true)] else []) ++
  (if drain && r.scaleAxis == 1 then [(10, hull r.scaleBase (ceilDiv p.m 32) r.scaleStride outs, false, true)] else []) ++
  (if p.drains && r.bias then [(11, ((r.biasBase : Int), (r.biasBase : Int) + (4 * outs : Nat)), true, false)] else []) ++
  (if p.drains && r.stats then [(12, sideHull p, !r.sideInit, true)] else []) ++
  (if alt then [(13, compHull p p.cbase p.cBits, false, true)] else []) ++
  (if alt && p.dwIn then [(14, compHull p p.cin 32, true, false)] else []) ++
  (if p.sample then [(15, (p.frz, p.frz + (8 * blocks : Nat)), true, false)] else []) ++
  (if p.sample && p.form == 1 then [(16, (p.msk, p.msk + (8 * blocks : Nat)), true, false)] else [])

/-- Check 3 of R171 for one iteration (R108, R130, R203). -/
def prodOk (p : Prod) : Bool :=
  let alt := p.op == 0x48
  let eb := if alt then p.fy.width else p.fx.width
  p.ok && (!(p.xsc || p.wsc || p.ysc) || !p.int) &&
    p.m != 0 && p.n != 0 && p.k != 0 && p.kt != 0 && decide (p.kt * eb ≤ 4096) && p.kt % p.granule == 0 &&
    drainOk p &&
    (if alt then
      (!p.dwIn || (if p.cin = p.cbase then p.dwOut
                     else let a := compHull p p.cbase p.cBits; let b := compHull p p.cin 32; !decide (a.1 < b.2 ∧ b.1 < a.2)))
     else p.passK != 0 && p.passK % p.kt == 0 && decide (p.passK ≤ 1024 * p.d))

/-- The iterations of a matrix instruction, as the descriptors stand. -/
def prods (s : State) (c : CoreId) (d : LoopDesc) (w : W128) : List Prod := (List.range (loopCount d)).map fun j => prodAt s c d w j

/-- Check 3 over the nest: the word's own rules, then each descriptor's. The descriptors are read only where they lie in the scratchpad; elsewhere check 5 fails. -/
def mxeConsistent (s : State) (c : CoreId) (d : LoopDesc) (w : W128) : Bool :=
  (List.range 4).all (fun st => incsMultiple d st 64) &&
    mxeWordOk w && (!streamOk d 3 (mBase w 3) 128 true false || (prods s c d w).all prodOk)

/-- Check 5: every range, from its smallest to its largest bound over the nest, lies in its declared regions (R161). -/
def mxeRegion (s : State) (c : CoreId) (d : LoopDesc) (w : W128) : Bool :=
  streamOk d 3 (mBase w 3) 128 true false &&
    (let all := (List.range (loopCount d)).flatMap fun j => prodRanges (prodAt s c d w j) (mAddr d w 3 j)
     (List.range 17).all fun key =>
       match all.filter (fun r => r.1 == key && decide (r.2.1.1 < r.2.1.2)) with
       | [] => true
       | r0 :: rs =>
         let lo := rs.foldl (fun x r => min x r.2.1.1) r0.2.1.1
         let hi := rs.foldl (fun x r => max x r.2.1.2) r0.2.1.2
         let rd := (r0 :: rs).any fun r => r.2.2.1
         let wr := (r0 :: rs).any fun r => r.2.2.2
         (!rd || rangeOk d.rd lo hi) && (!wr || rangeOk d.wr lo hi))

end Sys2Proof.Machine
end

