-- ==== Sys2Proof/Machine/Handoff.lean ====
section
/-!
DEFINITION. HANDOFF streams: receiving a drained tile into the input buffer, placing, scaling, converting and compressing it (R102,
R259, R70 to R74).
-/

namespace Sys2Proof.Machine

/-- The stream's HANDOFF task, if it runs one. -/
def handTask (s : State) (c : CoreId) (st : Nat) : Option Task :=
  match taskOf s c st with
  | some t => if (taskDesc t).kind = 4 then some t else none
  | none => none

/-- The item of a destination position that is written as one: a span of 8 rows and 32 columns when scaled, a block of an SB64
destination, a group of a PB8 one, the position itself otherwise. -/
def handItem (d : SDesc) (row col : Nat) : Nat × Nat :=
  if d.dstScale = 2 then (row / 8, col / 32)
  else if d.form = 1 then (row / 8, col / 8)
  else if d.form = 2 then (row, col / 8)
  else (row, col)

/-- The positions of an item that lie in the destination's extent. -/
def itemPos (d : SDesc) (it : Nat × Nat) : List (Nat × Nat) :=
  let h := if d.dstScale = 2 ∨ d.form = 1 then 8 else 1
  let w := if d.dstScale = 2 then 32 else if d.form = 1 ∨ d.form = 2 then 8 else 1
  ((List.range h).flatMap fun i => (List.range w).map fun j => (it.1 * h + i, it.2 * w + j)).filter fun q =>
    decide (q.1 < d.d1 ∧ q.2 < d.d0)

/-- The received value at a position. -/
def handAt (tiles : List HandTile) (row col : Nat) : Option AccEnt :=
  (tiles.findSome? fun t => (t.ents.find? fun e => e.1 == row && e.2.1 == col)).map fun e => e.2.2

/-- Is the whole of an item received? -/
def itemFull (d : SDesc) (tiles : List HandTile) (it : Nat × Nat) : Bool :=
  (itemPos d it).all fun q => (handAt tiles q.1 q.2).isSome

/-- The scale byte of a row of a span with its poison and that of the mask words read for it (R43, R259, R270). -/
def handScale (s : State) (c : CoreId) (d : SDesc) (e : Option (List Byte)) (tiles : List HandTile) (it : Nat × Nat) (row : Nat) :
    Option (Byte × Bool) :=
  match NumFmt.ofCode d.dstFmt with
  | none => none
  | some f =>
    if d.dstScale = 0 then none
    else
      let els := ((itemPos d it).filter fun q => q.1 == row).filterMap fun q =>
        if maskOn s c d e q.2 q.1 then handAt tiles q.1 q.2 else none
      some (chooseScale f (els.map fun x => codeVal d.srcFmt x.v.toNat),
        els.any AccEnt.p || (itemPos d it).any fun q => q.1 == row && maskP s c d e q.2 q.1)

/-- The destination code of a received value. -/
def handCode (d : SDesc) (sc : Option (Byte × Bool)) (x : AccEnt) : Nat :=
  dCode d (sc.map Prod.fst) ⟨x.v.toNat, none, x.p, true⟩

/-- The candidates of positions and their poison (R70, R74). -/
def handCands (s : State) (c : CoreId) (d : SDesc) (e : Option (List Byte)) (tiles : List HandTile) (it : Nat × Nat)
    (pos : List (Nat × Nat)) : List (Option Nat) × Bool :=
  let inside (q : Nat × Nat) : Bool := decide (q.1 < d.d1 ∧ q.2 < d.d0)
  let one (q : Nat × Nat) : Option Nat :=
    match handAt tiles q.1 q.2 with
    | none => none
    | some x =>
      if !inside q then none
      else
        let code := handCode d (handScale s c d e tiles it q.1) x
        if d.occMask then (if maskOn s c d e q.2 q.1 then some code else none)
        else if (codeVal d.dstFmt code).isZero then none else some code
  let p := pos.any fun q => inside q &&
    ((match handAt tiles q.1 q.2 with | some x => x.p | none => false) ||
      scaleP (handScale s c d e tiles it q.1) || maskP s c d e q.2 q.1)
  (pos.map one, p)

/-- What the writing of items has done: the run, the next data offset of an SB64 destination, and the occupancy of the PB8 groups of
block rows not yet complete. -/
structure HandAcc where
  run : Run
  off : Nat
  occ : Tab (Option (Nat × Bool))
deriving DecidableEq, Repr

/-- The blocks of an item in the order in which their tiles arrived: by the latest tile that holds one of their positions (R259). -/
def arrivalOrder (tiles : List HandTile) (br : Nat) (bcs : List Nat) : List Nat :=
  let last (bc : Nat) : Nat :=
    (List.range tiles.length).foldl (fun m i =>
      if (tiles.drop i).head?.any (fun t => t.ents.any fun e => e.1 / 8 == br && e.2.1 / 8 == bc) then i else m) 0
  sortBy last bcs

/-- One block of an SB64 destination (R71, R72, R259). -/
def handBlock (s : State) (c : CoreId) (d : SDesc) (e : Option (List Byte)) (tiles : List HandTile) (it : Nat × Nat) (x : HandAcc)
    (bc : Nat) : HandAcc :=
  let w := fmtBits d.dstFmt
  let a := auxOp e 2
  let br := it.1
  let q := handCands s c d e tiles it ((List.range 64).map fun i => (8 * br + i / 8, 8 * bc + i % 8))
  let n := (q.1.filterMap id).length
  let dense := n != 0 && decide (denseSize w ≤ blkSize n w)
  let size := if n = 0 then 0 else if dense then denseSize w else blkSize n w
  if x.run.stop.isSome then x
  else if sbPast x.off size (a.aux * 4096) then { x with run := { x.run with stop := some .operandRange } }
  else
    let bs := if n = 0 then [] else if dense then sbDense w q.1 else sbBytes w q.1
    let r := x.run.bytes (devAddr c d.dstLoc d.dst + x.off) bs q.2 true
    let r := r.bytes (devAddr c a.loc a.addr + 4 * (br * d.ds1 + bc))
      (leBytes 4 (x.off / 16 % 2 ^ 25 * 128 + if dense then 127 else n)) q.2 false
    let r := if d.maskOut then r.bytes (maskAddr c d e 5 br bc) (leBytes 8 (occBits q.1)) q.2 false else r
    { x with run := { r with dense := r.dense + (if dense then 1 else 0) }, off := x.off + size }

/-- The mask words of block row br once all its rows are stored, in every group column (R73). -/
def handMask (c : CoreId) (d : SDesc) (e : Option (List Byte)) (br : Nat) (x : HandAcc) : HandAcc :=
  let rows := (List.range 8).filter fun q => decide (8 * br + q < d.d1)
  let at_ (q g : Nat) : Option (Nat × Bool) := tget x.occ none ((8 * br + q) * 2 ^ 20 + g)
  if d.maskOut && rows.all (fun q => (List.range (bCols d)).all fun g => (at_ q g).isSome) then
    { x with run := (List.range (bCols d)).foldl (fun r g =>
        let word := rows.foldl (fun acc q => acc + ((at_ q g).map Prod.fst).getD 0 * 2 ^ (8 * q)) 0
        r.bytes (maskAddr c d e 5 br g) (leBytes 8 word) (rows.any fun q => ((at_ q g).map Prod.snd).getD false) false) x.run }
  else x

/-- One group of a PB8 destination (R73). -/
def handGroup (s : State) (c : CoreId) (d : SDesc) (e : Option (List Byte)) (tiles : List HandTile) (it : Nat × Nat) (x : HandAcc)
    (g : Nat × Nat) : HandAcc :=
  let w := fmtBits d.dstFmt
  let q := handCands s c d e tiles it ((List.range 8).map fun i => (g.1, 8 * g.2 + i))
  let many := decide (2 < (q.1.filterMap id).length)
  if x.run.stop.isSome then x
  else if many && d.pbFault then { x with run := { x.run with stop := some .pbOverfull } }
  else
    let kept := keepTwo d.dstFmt q.1
    let r := x.run
    let r := if many then { r with trim := r.trim + 1, trimAt := r.trimAt.or (some (g.1 * 2 ^ 20 + g.2)) } else r
    let r := r.bytes (devAddr c d.dstLoc d.dst + g.1 * d.ds1 * 64 + g.2 * pbGroup w) (pbBytes w kept) q.2 true
    handMask c d e (g.1 / 8) { x with run := r, occ := tset x.occ none (g.1 * 2 ^ 20 + g.2) (some (occBits kept, q.2)) }

/-- The mask words that items read under OCC_SRC = MASK (R70, R253). -/
def handMasks (c : CoreId) (d : SDesc) (e : Option (List Byte)) (its : List (Nat × Nat)) : List (Nat × Nat) :=
  if d.occMask && (d.form == 1 || d.form == 2) then
    its.flatMap fun it => (itemPos d it).map fun q => (maskAddr c d e 4 (q.1 / 8) (q.2 / 8), 8)
  else []

/-- Has a position of a later row that shares the bytes of (row, col) through the stride been received (R261)? -/
def handLater (d : SDesc) (got : Tab Nat) (row col : Nat) : Bool :=
  let per := d.ds1 * 512 / fmtBits d.dstFmt
  !d.blkDst && decide (per ≤ col) && (List.range d.d1).any fun r => decide (row < r ∧ (r - row) * per ≤ col) &&
    (let k := col - (r - row) * per
     (tget got 0 (r / 8 * 2 ^ 20 + k / 8)).testBit (r % 8 * 8 + k % 8))

/-- The writes of a complete item; got holds the positions received. -/
def handWrite (s : State) (c : CoreId) (d : SDesc) (e : Option (List Byte)) (tiles : List HandTile) (got : Tab Nat) (x : HandAcc)
    (it : Nat × Nat) : HandAcc :=
  let pos := itemPos d it
  let a3 := auxOp e 3
  let scale (r : Run) (row : Nat) : Run :=
    match handScale s c d e tiles it row with
    | some b => r.bytes (devAddr c a3.loc a3.addr + row * a3.aux * 64 + it.2) [b.1] b.2 false
    | none => r
  let el (r : Run) (q : Nat × Nat) : Run :=
    match handAt tiles q.1 q.2 with
    | some y =>
      let sc := handScale s c d e tiles it q.1
      if handLater d got q.1 q.2 then r else putDense c d q.2 q.1 0 (handCode d sc y) (y.p || scaleP sc) r
    | none => r
  let x := if d.dstScale = 0 then x else { x with run := (pos.map Prod.fst).eraseDups.foldl scale x.run }
  if d.form = 1 then (arrivalOrder tiles it.1 (pos.map fun q => q.2 / 8).eraseDups).foldl (handBlock s c d e tiles it) x
  else if d.form = 2 then (pos.map fun q => (q.1, q.2 / 8)).eraseDups.foldl (handGroup s c d e tiles it) x
  else
    { x with run := pos.foldl el x.run }

/-- The positions of a tile noted as received. -/
def markGot (got : Tab Nat) (ents : List (Nat × Nat × AccEnt)) : Tab Nat :=
  ents.foldl (fun t x =>
    let k := x.1 / 8 * 2 ^ 20 + x.2.1 / 8
    tset t 0 k (tget t 0 k ||| 2 ^ (x.1 % 8 * 8 + x.2.1 % 8))) got

/-- A stream's task after writes of its run: counts, DXE_STAT and the one event of each kind (R73, R77). -/
def handCount (s : State) (c : CoreId) (st : Nat) (t : Task) (r : Run) : State × Task :=
  let r := { r with trimAt := if t.cnt.logTrim then none else r.trimAt, badAt := if t.cnt.logBad then none else r.badAt }
  let x := countRun (applyWrites s r.ws) c st t r (runBytes r)
  (x.1, { t with cnt := { x.2 with logTrim := t.cnt.logTrim || r.trimAt.isSome, logBad := t.cnt.logBad || r.badAt.isSome } })

/-- A tile received by the HANDOFF task of stream st: m and n of its first output, and its entries by row and column of the tile. The
task is aborted where it may not read a mask word or write, its buffer cannot progress, a group is overfull under FAULT, or the data area is exceeded (R259,
R269, R408, R72, R73); the status says so. -/
def handReceive (s : State) (c : CoreId) (st : Nat) (ents : List (Nat × Nat × AccEnt)) : State × Option Status :=
  match handTask s c st with
  | none => (s, none)
  | some t =>
    let d := taskDesc t
    let place := ents.map fun x => if d.perm = 1 then (x.2.1, x.1, x.2.2) else x
    let ins := place.filter fun x => decide (x.1 < d.d1 ∧ x.2.1 < d.d0)
    if ins.isEmpty then
      let q := handCount s c st t ({ run0 with oor := 1, badAt := some (.operandRange, 0) })
      (putTask q.1 c st (some q.2), none)
    else
      let tiles := t.tiles ++ [⟨ins⟩]
      let its := (ins.map fun x => handItem d x.1 x.2.1).eraseDups.filter (itemFull d tiles)
      let got := markGot t.got ins
      let ms := handMasks c d t.ext its
      let bad := rangesFault s c ms
      let s := if bad.isSome then s else touchAll s ms
      let out := its.foldl (fun x it => if x.run.stop.isSome then x else handWrite s c d t.ext tiles got x it) ⟨run0, t.sbOff, t.occ⟩
      match bad.or (rangesFault s c (runUnits out.run)) with
      | some f => (abortTask s c st t (stCode f) clsTask t.cnt s.now, some f)
      | none =>
        let rest := (tiles.map fun x => HandTile.mk (x.ents.filter fun e => !its.contains (handItem d e.1 e.2.1))).filter fun x => !x.ents.isEmpty
        let t := { t with tiles := rest, got := got, sbOff := out.off, occ := out.occ }
        let q := handCount s c st t out.run
        let s := putTask q.1 c st (some q.2)
        match out.run.stop with
        | some f => (abortTask s c st q.2 (stCode f) clsTask q.2.cnt s.now, some f)
        | none =>
          if 16 ≤ rest.length then (abortTask s c st q.2 (stCode .handoffStall) clsTask q.2.cnt s.now, some .handoffStall) else (s, none)

/-- Does a stream take no tile now: it has no HANDOFF task, or what that writes or reads lies in part on a stack in RECAL, which holds its
accesses (R102, R299; DESIGN CHOICE, log 44)? -/
def handHeld (s : State) (c : CoreId) (st : Nat) : Bool :=
  match handTask s c st with
  | none => true
  | some t => let d := taskDesc t; holdsRange s (writeRanges c d t.ext ++ readRanges c d t.ext)

/-- The ranges that a task of the run r writes. -/
def writesOf (c : CoreId) (t : Task) (r : Run) : List (Nat × Nat) :=
  let d := taskDesc t
  if windowDst d then (dstRanges c d t.ext).map fun x => (behind x.1, x.2) else runUnits r

/-- A task that completes: its move takes effect (R255 to R261, R288), its record falls due. HANDOFF completes when every position of
its extent has been received (R259). A read or a write of a stack in RECAL has not taken effect yet (R299). -/
def completeTask (s : State) (c : CoreId) (st : Nat) : State :=
  match taskOf s c st with
  | none => advance s (tget (getCore s c).sabort 0 st)
  | some t =>
    let d := taskDesc t
    let u := taskSeen s c t
    let r := taskRun u c t
    if r.stop.isSome ∨ (d.kind = 4 ∧ !handAll t) ∨ holdsRange s (readSeen s c d t.ext ++ writesOf c t r) then s
    else
      let s := advance u (t.issueAt + taskTime s c t)
      let out : State × TaskCnt :=
        if d.kind = 4 then
          let x := handCount s c st t r
          (x.1, x.2.cnt)
        else if windowDst d then
          let x := runReduce s c d t.ext none
          (x.1, { t.cnt with bytes := d.d2 * d.d1 * rowBytes d.d0 (fmtBits d.dstFmt), poison := x.2 })
        else
          let x := countRun (applyWrites s r.ws) c st t r (runBytes r)
          (if r.tagAll then (dstRanges c d t.ext).foldl (fun s y => tagRange s y.1 y.2) x.1 else x.1, x.2)
      let cycles := out.1.now - t.issueAt
      queueRecord (putTask out.1 c st none) c st t.inst t.iter t.ext (stCode .ok) (doneFlags out.2 d cycles) out.2 out.1.now t.issueAt

end Sys2Proof.Machine
end

