-- ==== Sys2Proof/Machine/Mxe.lean ====
section
/-!
DEFINITION. The matrix arrays: tile steps of MXE.WS, MXE.OS and MXE.IS (R44, R45, R85 to R96, R105), the drain path (R97 to R104,
R106), the cost model (R109 to R111) and the instruction abort (R107, R173).
-/

namespace Sys2Proof.Machine

/-! Reading operands. -/

/-- Codes i0 to i0 + n - 1 of a dense row at a local address, and the poison of the bytes read. -/
def rowCodes (s : State) (c : CoreId) (w : Nat) (a : Int) (i0 n : Nat) : List Nat × Bool :=
  if n = 0 then ([], false)
  else
    let lo := i0 * w / 8
    let len := rowBytes (i0 * w % 8 / w + n) w
    let ad := padAddr c (a + (lo : Nat))
    let bs := memBytes s ad len
    ((List.range n).map fun i => codeAt w bs (i0 * w % 8 / w + i), memPoison s ad len)

/-- Scale bytes that positions i0 to i0 + n - 1 of a line span (R110, R112). -/
def scaleSpan (i0 n : Nat) : Nat := if n = 0 then 0 else (i0 + n - 1) / 32 + 1 - i0 / 32

/-- Scale bytes of positions i0 to i0 + n - 1 of one line along COLS, and their poison; 127 without block scaling (R44). -/
def rowScales (s : State) (c : CoreId) (on : Bool) (a : Int) (stride line i0 n : Nat) : List Byte × Bool :=
  if !on ∨ n = 0 then (List.replicate n 127, false)
  else
    let ad := padAddr c (a + (line * stride + i0 / 32 : Nat))
    let len := scaleSpan i0 n
    let bs := memBytes s ad len
    ((List.range n).map fun i => nthD bs ((i0 + i) / 32 - i0 / 32) 0, memPoison s ad len)

/-! What a tile step reads. -/

/-- The bytes of codes i0 to i0 + n - 1 of a row, and of their scale bytes. -/
def rowRange (c : CoreId) (w : Nat) (a : Int) (i0 n : Nat) : List (Nat × Nat) :=
  if n = 0 then [] else [(padAddr c (a + (i0 * w / 8 : Nat)), rowBytes (i0 * w % 8 / w + n) w)]
def scaleRange (c : CoreId) (on : Bool) (a : Int) (stride line i0 n : Nat) : List (Nat × Nat) :=
  if !on ∨ n = 0 then [] else [(padAddr c (a + (line * stride + i0 / 32 : Nat)), scaleSpan i0 n)]

/-- The bytes of a row of a dense operand with its scale bytes. -/
def denseRange (c : CoreId) (f : NumFmt) (a : Int) (stride row : Nat) (sc : Bool) (sa : Int) (ss i0 n : Nat) : List (Nat × Nat) :=
  rowRange c f.width (a + (row * stride : Nat)) i0 n ++ scaleRange c sc sa ss row i0 n

/-- Bytes of an SB64 block in its data area, by its entry; none of a block that has no size or would pass the extent (R59 to R62, R76). -/
def sbSize (w entry ext : Nat) : Nat :=
  let n := entry % 128
  let size := if n = 127 then denseSize w else if n = 0 ∨ 64 < n then 0 else blkSize n w
  if entry / 128 * 16 + size ≤ ext then size else 0

/-- Values of an SB64 block as the loop of R91 counts them, by its entry. -/
def sbCount (entry : Nat) : Nat :=
  let n := entry % 128
  if n = 127 then 64 else if 64 < n then 0 else n

/-- The bytes of an SB64 block whose entry is at address ea: the entry, and what it names in the data area. -/
def sbRanges (s : State) (w ea base ext : Nat) : List (Nat × Nat) :=
  let entry := memNat s ea 4
  [(ea, 4), (base + entry / 128 * 16, sbSize w entry ext)]

/-- A row of a dense operand with its scale bytes, and its poison. -/
def denseRow (s : State) (c : CoreId) (f : NumFmt) (a : Int) (stride row : Nat) (sc : Bool) (sa : Int) (ss i0 n : Nat) : OpRow × Bool :=
  let x := rowCodes s c f.width (a + (row * stride : Nat)) i0 n
  let y := rowScales s c sc sa ss row i0 n
  (List.zipWith (fun v b => some (decodeNum f v, b)) x.1 y.1, x.2 || y.2)

/-- The address of the block-index entry of block row br and block column bc of W (SB64). -/
def wEntry (c : CoreId) (p : Prod) (br bc : Nat) : Nat := padAddr c (p.idx + (4 * (br * ceilDiv p.k 8 + bc) : Nat))

/-- The block of W at block row br and block column bc (SB64). -/
def wBlk (s : State) (c : CoreId) (p : Prod) (br bc : Nat) : Blk :=
  sbBlock s p.fw.width (wEntry c p br bc) (padAddr c p.w) p.ext p.n p.k br bc

/-- The PB8 group g of W's row n. -/
def wGrp (s : State) (c : CoreId) (p : Prod) (n g : Nat) : Grp :=
  pbGroupAt s p.fw.width (padAddr c (p.w + (n * p.wStride + g * pbGroup p.fw.width : Nat))) p.k g

/-- The rows of X that meet a tile: rows r0 to r0 + n - 1, reduction positions i0 to i0 + len - 1. -/
def xWin (s : State) (c : CoreId) (p : Prod) (r0 n i0 len : Nat) : Win :=
  let rs := (List.range n).map fun r =>
    if r0 + r < p.m then denseRow s c p.fx p.x p.xStride (r0 + r) p.xsc p.xscA p.xscS i0 len else ([], false)
  ⟨rs.map Prod.fst, rs.map Prod.snd, []⟩

/-- The weights of the outputs n0 to n0 + cnt - 1 over reduction positions i0 to i0 + len - 1, by storage form (R85, R91, R94); the cases
of R76 in increasing block number, a PB8 block being the groups of its rows in one range of eight columns (R57, R107). -/
def wWin (s : State) (c : CoreId) (p : Prod) (n0 cnt i0 len : Nat) : Win :=
  if p.col then
    -- outputs are columns k of W; the reduction runs over its rows, with scale blocks along them (R85)
    let rs := (List.range cnt).map fun o =>
      if n0 + o < p.k then
        (List.range len).map fun i =>
          let n := i0 + i
          let v := rowCodes s c p.fw.width (p.w + (n * p.wStride : Nat)) (n0 + o) 1
          let ad := padAddr c (p.wscA + (n / 32 * p.wscS + (n0 + o) : Nat))
          ((some (decodeNum p.fw (v.1.headD 0), if p.wsc then BitVec.ofNat 8 (memNat s ad 1) else 127) : Option (Val × Byte)),
           v.2 || (p.wsc && memPoison s ad 1))
      else []
    ⟨rs.map (List.map Prod.fst), rs.map fun r => r.any Prod.snd, []⟩
  else if p.form = 0 then
    let rs := (List.range cnt).map fun o =>
      if n0 + o < p.n then denseRow s c p.fw p.w p.wStride (n0 + o) p.wsc p.wscA p.wscS i0 len else ([], false)
    ⟨rs.map Prod.fst, rs.map Prod.snd, []⟩
  else
    let sc (o : Nat) := rowScales s c p.wsc p.wscA p.wscS (n0 + o) i0 len
    let g0 := i0 / 8
    let gn := ceilDiv (i0 + len) 8 - g0
    let mk (vals : Nat → List (Option (Nat × Bool))) (o : Nat) : OpRow :=
      List.zipWith (fun (v : Option (Nat × Bool)) b => v.map fun q => (decodeNum p.fw q.1, b))
        (((List.range gn).flatMap vals).take len) (sc o).1
    if p.form = 1 then
      let blks := (List.range gn).map fun i => wBlk s c p (n0 / 8) (g0 + i)
      let bads := blks.filterMap Blk.bad
      let hp := blks.any fun b => b.anyP || b.bad.isSome
      ⟨(List.range cnt).map fun o => if n0 + o < p.n then mk (fun i => match blks[i]? with
          | some b => (b.vals.drop (8 * o)).take 8 | none => []) o else [],
       (List.range cnt).map fun o => hp || (decide (n0 + o < p.n) && (sc o).2), bads⟩
    else
      let grps := (List.range cnt).map fun o => if n0 + o < p.n then (List.range gn).map fun i => wGrp s c p (n0 + o) (g0 + i) else []
      ⟨(List.range cnt).map fun o => if n0 + o < p.n then mk (fun i => match (nthD grps o [])[i]? with
          | some g => g.vals | none => []) o else [],
       (List.range cnt).map fun o => (nthD grps o []).any (fun g => g.anyP || g.bad.isSome) || (decide (n0 + o < p.n) && (sc o).2),
       (List.range gn).flatMap fun i => grps.filterMap fun l => (l[i]?).bind Grp.bad⟩

/-! Positions in the loop order of R87. -/

/-- Bounds of a pass range: first position and end. -/
def passLo (p : Prod) (pr : Nat) : Nat := pr * p.passK
def passHi (p : Prod) (pr : Nat) : Nat := min p.red ((pr + 1) * p.passK)
/-- Window tiles in a pass range. -/
def passTiles (p : Prod) (pr : Nat) : Nat := ceilDiv (passHi p pr - passLo p pr) p.kt
/-- First position and length of a window tile. -/
def tileLo (p : Prod) (pr wt : Nat) : Nat := passLo p pr + wt * p.kt
def tileLen (p : Prod) (pr wt : Nat) : Nat := min (passHi p pr) (tileLo p pr wt + p.kt) - tileLo p pr wt

/-- Position of a tile step: round, pass range, output tile, window tile. -/
structure MPos where
  round : Nat
  pr : Nat
  tile : Nat
  wt : Nat
deriving DecidableEq, Repr

/-- The tile step after a position; none after the last of the iteration. -/
def nextPos (p : Prod) (q : MPos) : Option MPos :=
  if q.wt + 1 < passTiles p q.pr then some { q with wt := q.wt + 1 }
  else if q.tile + 1 < p.tiles then some { q with tile := q.tile + 1, wt := 0 }
  else if q.pr + 1 < p.ranges then some ⟨q.round, q.pr + 1, 0, 0⟩
  else if q.round + 1 < p.rounds then some ⟨q.round + 1, 0, 0, 0⟩
  else none

/-- The strip (block row, output group or row tile) of array position a in a round, if it has one. -/
def stripOf (p : Prod) (a round : Nat) : Option Nat :=
  if a + p.arrs * round < p.strips then some (a + p.arrs * round) else none

/-- The array positions that have a strip in a round, each with its strip, in increasing order. -/
def arrStrips (p : Prod) (round : Nat) : List (Nat × Nat) :=
  (List.range p.arrs).filterMap fun a => (stripOf p a round).map fun b => (a, b)

/-- The stationary content of an array at a position, by its strip: weights in WS and OS, rows of X in IS (R85, R90). -/
def statWin (s : State) (c : CoreId) (p : Prod) (q : MPos) (strip : Nat) : Win :=
  let i0 := tileLo p q.pr q.wt
  let len := tileLen p q.pr q.wt
  if p.op = 0x42 then xWin s c p (8 * strip) 8 i0 len else wWin s c p (p.tc * strip) p.tc i0 len

/-- The window tile at a position, one for the whole range: rows of X in WS and OS, weights in IS (R82, R85, R88). -/
def tileWin (s : State) (c : CoreId) (p : Prod) (q : MPos) : Win :=
  let i0 := tileLo p q.pr q.wt
  let len := tileLen p q.pr q.wt
  if p.op = 0x42 then wWin s c p (8 * q.tile) 8 i0 len else xWin s c p (p.tr * q.tile) p.tr i0 len

/-- The bytes that the X rows and the weights of a window come from. -/
def xReads (c : CoreId) (p : Prod) (r0 n i0 len : Nat) : List (Nat × Nat) :=
  (List.range n).flatMap fun r => if r0 + r < p.m then denseRange c p.fx p.x p.xStride (r0 + r) p.xsc p.xscA p.xscS i0 len else []
def wReads (s : State) (c : CoreId) (p : Prod) (n0 cnt i0 len : Nat) : List (Nat × Nat) :=
  if p.col then
    (List.range len).flatMap fun i =>
      rowRange c p.fw.width (p.w + ((i0 + i) * p.wStride : Nat)) n0 (min cnt (p.k - n0)) ++
        (if p.wsc then [(padAddr c (p.wscA + ((i0 + i) / 32 * p.wscS + n0 : Nat)), min cnt (p.k - n0))] else [])
  else
    let rows := (List.range cnt).filter fun o => decide (n0 + o < p.n)
    let sc := rows.flatMap fun o => scaleRange c p.wsc p.wscA p.wscS (n0 + o) i0 len
    let g0 := i0 / 8
    let gn := ceilDiv (i0 + len) 8 - g0
    if p.form = 0 then rows.flatMap fun o => denseRange c p.fw p.w p.wStride (n0 + o) p.wsc p.wscA p.wscS i0 len
    else if p.form = 1 then
      sc ++ (List.range gn).flatMap fun i =>
        sbRanges s p.fw.width (wEntry c p (n0 / 8) (g0 + i)) (padAddr c p.w) p.ext
    else
      sc ++ rows.map fun o => (padAddr c (p.w + ((n0 + o) * p.wStride + g0 * pbGroup p.fw.width : Nat)), gn * pbGroup p.fw.width)

/-- The bytes that the stationary content of an array, and the window tile, come from at a position. -/
def statReads (s : State) (c : CoreId) (p : Prod) (q : MPos) (strip : Nat) : List (Nat × Nat) :=
  let i0 := tileLo p q.pr q.wt
  let len := tileLen p q.pr q.wt
  if p.op = 0x42 then xReads c p (8 * strip) 8 i0 len else wReads s c p (p.tc * strip) p.tc i0 len
def tileReads (s : State) (c : CoreId) (p : Prod) (q : MPos) : List (Nat × Nat) :=
  let i0 := tileLo p q.pr q.wt
  let len := tileLen p q.pr q.wt
  if p.op = 0x42 then wReads s c p (8 * q.tile) 8 i0 len else xReads c p (p.tr * q.tile) p.tr i0 len

/-- Row and column of the result that entry idx of an array's tile holds (R85, R89). -/
def entryCoord (p : Prod) (round tile a idx : Nat) : Nat × Nat :=
  let strip := a + p.arrs * round
  if p.op = 0x42 then (8 * strip + idx / 8, 8 * tile + idx % 8)
  else (p.tr * tile + idx / p.tc, p.tc * strip + idx % p.tc)

/-- Does entry idx stand for an output? -/
def entryIn (p : Prod) (round tile a idx : Nat) : Bool :=
  let q := entryCoord p round tile a idx
  decide (q.1 < p.m ∧ q.2 < p.outs)

/-! Sums. -/

/-- An accumulator with one product added (R40, R44, R45). -/
def accAdd (int : Bool) (acc : W32) (a b : Val × Byte) : W32 :=
  if int then acc + BitVec.ofInt 32 (intOf a.1 * intOf b.1) else f32Add acc (cellProduct a.1 b.1 a.2 b.2)

/-- The products of a row and an output added in increasing reduction order; absent positions contribute nothing. -/
def accRow (int : Bool) (acc : W32) : OpRow → OpRow → W32
  | some a :: xs, some b :: ws => accRow int (accAdd int acc a b) xs ws
  | _ :: xs, _ :: ws => accRow int acc xs ws
  | _, _ => acc

/-- An accumulator of +0. -/
def acc0 : List AccEnt := List.replicate 64 ⟨0, false⟩

/-- The K-steps of one tile step in one array (R85, R105). -/
def accTile (p : Prod) (x w : Win) (acc : List AccEnt) : List AccEnt :=
  (List.range 64).map fun i =>
    let r := i / p.tc
    let o := i % p.tc
    let e := nthD acc i ⟨0, false⟩
    let pois := if p.op = 0x42 then x.p.any id || nthD w.p o false else nthD x.p r false || w.p.any id
    ⟨accRow p.int e.v (nthD x.rows r []) (nthD w.rows o []), e.p || pois⟩

/-! Partial tiles (R89). -/

/-- A value that an accumulator starts from: an accumulator never holds −0 (R46). -/
def accStart (int : Bool) (v : W32) : W32 := if !int && v == 0x80000000 then 0 else v

/-- Local address of the partial tile of array a, output tile j and round ρ: R203 gives it for MXE.ALT, and the other modes take the same
(DESIGN CHOICE, log 101). -/
def partAddr (p : Prod) (a j round : Nat) : Int := p.part + (256 * (a + p.arrs * (j + p.tiles * round)) : Nat)

/-- The 64 entries of a partial tile. -/
def loadPart (s : State) (c : CoreId) (p : Prod) (a j round : Nat) : List AccEnt :=
  let ad := padAddr c (partAddr p a j round)
  let bs := memBytes s ad 256
  (List.range 64).map fun i => ⟨accStart p.int (BitVec.ofNat 32 (fieldAt bs (4 * i) 4)), unitPoison s (ad / 64 + i / 16)⟩

/-- A partial tile written: entries outside the result as 0, each unit tagged by its 16 entries (R89, R106). -/
def storePart (s : State) (c : CoreId) (p : Prod) (a j round : Nat) (acc : List AccEnt) : State :=
  let v := (List.range 64).map fun i => let e := nthD acc i ⟨0, false⟩; if entryIn p round j a i then e else ⟨0, e.p⟩
  writeBytes s (padAddr c (partAddr p a j round)) (v.flatMap fun e => leBytes 4 e.v.toNat) fun u => ((v.drop (16 * u)).take 16).any AccEnt.p

/-- Does the pass that begins at a position start from a partial tile (R89)? -/
def fromPart (p : Prod) (q : MPos) : Bool := q.wt == 0 && (q.pr != 0 || p.accIn)

/-- The partial tiles that the tile step at a position reads. -/
def partReads (c : CoreId) (p : Prod) (q : MPos) : List (Nat × Nat) :=
  if fromPart p q then
    ((List.range p.arrs).filter fun a => (stripOf p a q.round).isSome).map fun a => (padAddr c (partAddr p a q.tile q.round), 256)
  else []

/-! Checks of stationary content (R76, R77, R107). -/

/-- The cases of R76 in the content of a position that some arrays load, each array with its strip, in increasing order. -/
def contentBads (s : State) (c : CoreId) (p : Prod) (q : MPos) (need : List (Nat × Nat)) : List Status :=
  if p.form = 0 ∨ p.op ≠ 0x40 then [] else need.flatMap fun x => (statWin s c p q x.2).bads

/-- The a-cycle of the buffer of the run's next pass, and of the run's current position in its instruction (R111). -/
def bufFree (r : MxeRun) : Nat := if r.passes % 2 == 0 then r.fr0 else r.fr1
def runAt (r : MxeRun) : Nat := r.start + max r.t (bufFree r) + r.plen

/-- Findings of the feeder: under STRICT the first stops the instruction, else each is counted and the first logged (R77). -/
def feedBads (s : State) (c : CoreId) (i : Inst) (strict : Bool) (bads : List Status) (r : MxeRun) : State × MxeRun :=
  match bads with
  | [] => (s, r)
  | b :: _ =>
    if strict then (s, { r with stop := r.stop.or (some (b, clsTask)) })
    else
      let s := rbump s (.eng c .dxe .stat) 15 8 (bads.filter (· == .malformedOperand)).length
      let s := rbump s (.eng c .dxe .stat) 7 0 (bads.filter (· != .malformedOperand)).length
      let s := if r.logged then s else logEng s c (engIdx .mxe) (stCode b) clsPoison i.bank i.idx 0
      (s, { r with logged := true })

/-! Cost (R90, R91, R109 to R111). -/

/-- Lengths and value counts of packed groups: the loop of R91 over block counts. -/
def packGroups (d : Nat) : List Nat → Nat → Nat → List (Nat × Nat)
  | [], slots, blocks => if blocks = 0 then [] else [(blocks, slots)]
  | n :: r, slots, blocks =>
    if blocks = 8 * d ∨ slots + n > 64 * d then (blocks, slots) :: packGroups d r n 1 else packGroups d r (slots + n) (blocks + 1)

/-- Packed groups of an array's window tile. -/
def groupsAt (s : State) (c : CoreId) (p : Prod) (strip i0 len : Nat) : List (Nat × Nat) :=
  packGroups p.d ((List.range (ceilDiv (i0 + len) 8 - i0 / 8)).map fun i => sbCount (memNat s (wEntry c p strip (i0 / 8 + i)) 4)) 0 0

/-- Stationary entries of a window tile's content (R90); the scale bytes of a block-scaled stationary X take one more entry for each slot set,
as those of W do (DESIGN CHOICE, log 102). -/
def statEntries (s : State) (c : CoreId) (p : Prod) (strip i0 len : Nat) : Nat :=
  let d := p.d
  let sc := if p.wsc then 1 else 0
  if p.op = 0x42 then ceilDiv len (8 * d) * (1 + if p.xsc then 1 else 0)
  else if p.op = 0x41 then ceilDiv (8 * rowBytes len p.fw.width) 128 + sc
  else if p.col then ceilDiv len 8 * (1 + sc)
  else if p.form = 2 then ceilDiv len (32 * d) * (2 + sc)
  else if p.form = 1 then (groupsAt s c p strip i0 len).length * ((if d = 4 then 3 else 2) + sc)
  else ceilDiv len (8 * d) * (1 + sc)

/-- Stationary bytes of a window tile's content (R110). -/
def statBytes (s : State) (c : CoreId) (p : Prod) (strip i0 len : Nat) : Nat :=
  let rows := min 8 (p.n - 8 * strip)
  let sc := if p.wsc then rows * scaleSpan i0 len else 0
  let ww := p.fw.width
  if p.op = 0x42 then min 8 (p.m - 8 * strip) * (rowBytes len p.fx.width + if p.xsc then scaleSpan i0 len else 0)
  else if p.col then len * rowBytes (min p.tc (p.k - p.tc * strip)) ww + (if p.wsc then scaleSpan i0 len * min p.tc (p.k - p.tc * strip) else 0)
  else if p.form = 1 then
    ((List.range (ceilDiv (i0 + len) 8 - i0 / 8)).map fun i =>
      4 + sbSize ww (memNat s (wEntry c p strip (i0 / 8 + i)) 4) p.ext).foldl (· + ·) 0 + sc
  else if p.form = 2 then rows * (ceilDiv len 8 * pbGroup ww) + sc
  else rows * rowBytes len ww + sc

/-- Bytes of the window tile with its scale bytes; in OS the rows of X, the strip of W counting as stationary bytes (DESIGN CHOICE,
log 104). -/
def winBytes (p : Prod) (q : MPos) : Nat :=
  let i0 := tileLo p q.pr q.wt
  let len := tileLen p q.pr q.wt
  if p.op = 0x42 then min 8 (p.n - 8 * q.tile) * (rowBytes len p.fw.width + if p.wsc then scaleSpan i0 len else 0)
  else min p.tr (p.m - p.tr * q.tile) * (rowBytes len p.fx.width + if p.xsc then scaleSpan i0 len else 0)

/-- Is an array's content of a round and pass range resident (R90)? The strip of OS is loaded again for every output tile (DESIGN CHOICE,
log 103). -/
def resident (s : State) (c : CoreId) (p : Prod) (strip pr : Nat) : Bool :=
  p.op != 0x41 && decide (((List.range (passTiles p pr)).map fun w => statEntries s c p strip (tileLo p pr w) (tileLen p pr w)).foldl (· + ·) 0 ≤ 96)

/-- K-steps of a tile step in an array (R110). -/
def kMode (s : State) (c : CoreId) (p : Prod) (q : MPos) (strip : Nat) : Nat :=
  let len := tileLen p q.pr q.wt
  let r := min p.tr (p.m - p.tr * q.tile)
  let d := p.d
  if p.op = 0x41 then ceilDiv len d
  else if p.op = 0x42 then min 8 (p.n - 8 * q.tile) * ceilDiv len (8 * d)
  else if p.col then r * ceilDiv len 8
  else if p.form = 1 then r * (groupsAt s c p strip (tileLo p q.pr q.wt) len).length
  else if p.form = 2 then r * ceilDiv len (32 * d)
  else r * ceilDiv len (8 * d)

/-- Stationary bytes that array a loads during the tile step before position q: its content, where it is new there. -/
def loadBytes (s : State) (c : CoreId) (p : Prod) (a : Nat) (q : Option MPos) : Nat :=
  match q with
  | none => 0
  | some q => match stripOf p a q.round with
    | none => 0
    | some b =>
      if q.tile = 0 || !resident s c p b q.pr then statBytes s c p b (tileLo p q.pr q.wt) (tileLen p q.pr q.wt) else 0

/-- Length of a tile step (R110). -/
def stepTime (s : State) (c : CoreId) (p : Prod) (q : MPos) : Nat :=
  (List.range p.arrs).foldl (fun m a =>
    match stripOf p a q.round with
    | none => m
    | some b => max m (max (kMode s c p q b) (max (ceilDiv (winBytes p q) 128) (ceilDiv (loadBytes s c p a (nextPos p q)) 128)))) 0

/-- T_start (R109). -/
def startTime (s : State) (c : CoreId) (p : Prod) : Nat :=
  let b0 := (List.range p.arrs).foldl (fun m a =>
    match stripOf p a 0 with
    | none => m
    | some b => max m (statBytes s c p b (tileLo p 0 0) (tileLen p 0 0) + winBytes p ⟨0, 0, 0, 0⟩ + if p.accIn then 256 else 0)) 0
  10 + ceilDiv b0 256

/-- D of a pass (R110). -/
def drainTime (p : Prod) (final : Bool) : Nat :=
  if !final then 4
  else if p.dr.handoff then (if p.dr.stats then 16 else 8)
  else 8 + (if p.dr.stats then 8 else 0) + (if p.dr.scaleAxis = 1 then 1 else 0)

/-! The drain path. -/

/-- The address of output (m, n) as a row base and an element index (R99). -/
def outPlace (r : Drain) (m n : Nat) : Nat × Nat :=
  if r.layout = 0 then (r.base + m * r.stride, n)
  else if r.layout = 1 then (r.base + n * r.stride, m)
  else (r.base + n / r.ilv * r.stride, m * r.ilv + n % r.ilv)

/-- An accumulator's value. -/
def accVal (int : Bool) (v : W32) : Val := if int then Val.ofInt v.toInt 0 else f32 v

/-- The statistics of a row after value y (R101); a running maximum of −0 from a side entry counts as +0 (R53, R54). -/
def statStep (st0 : W32 × W32) (y : W32) : W32 × W32 :=
  let st := (accStart false st0.1, accStart false st0.2)
  if (f32 y).isNan || (f32 st.1).isNan then (0x7FC00000, 0x7FC00000)
  else if ltV (f32 st.1) (f32 y) then (y, f32Add (f32Mul st.2 (expDev (f32Sub st.1 y))) 0x3F800000)
  else if eqV (f32 y) (f32 st.1) then (st.1, f32Add st.2 0x3F800000)
  else (st.1, f32Add st.2 (expDev (f32Sub y st.1)))

/-- Side entry address (R101). -/
def sideAddr (c : CoreId) (r : Drain) (m a : Nat) : Nat := padAddr c (r.sideBase + m * r.sideStride + 8 * a : Nat)

/-- The statistics of array a's row m before a tile, and after: the run's record, the side entry, or a fresh start. -/
def rowStatOf (s : State) (c : CoreId) (r : Drain) (run : MxeRun) (a m : Nat) : RowStat :=
  match run.stats.find? fun x => x.arr == a && x.m == m with
  | some x => x
  | none =>
    if r.sideInit then ⟨a, m, ⟨0xFF800000, false⟩, ⟨0, false⟩⟩
    else
      let ad := sideAddr c r m a
      let p := memPoison s ad 8
      ⟨a, m, ⟨BitVec.ofNat 32 (memNat s ad 4), p⟩, ⟨BitVec.ofNat 32 (memNat s (ad + 4) 4), p⟩⟩

/-- Row statistics of a tile's rows updated and written (R101, R106). -/
def drainStats (s : State) (c : CoreId) (p : Prod) (a : Nat) (outs : List HeldOut) (run : MxeRun) : State × MxeRun :=
  ((outs.map HeldOut.m).eraseDups).foldl (fun (acc : State × MxeRun) m =>
    let st := rowStatOf acc.1 c p.dr acc.2 a m
    let ys := outs.filter fun o => o.m == m
    let v := ys.foldl (fun v o => statStep v o.ent.v) (st.mx.v, st.sm.v)
    let pois := st.mx.p || ys.any fun o => o.ent.p
    let st' : RowStat := ⟨a, m, ⟨v.1, pois⟩, ⟨v.2, pois⟩⟩
    (writeAll acc.1 (sideAddr c p.dr m a) (leBytes 4 v.1.toNat ++ leBytes 4 v.2.toNat) pois,
     { acc.2 with stats := st' :: acc.2.stats.filter fun x => !(x.arr == a && x.m == m) })) (s, run)

/-- Rounding for one converted element: a drawn word under SROUND (R49, R104). -/
def drainRnd (s : State) (c : CoreId) (sround : Bool) : State × Rnd :=
  if sround then (let q := drawRng s (coreSect c); (q.1, .sr q.2)) else (s, .rne)

/-- Outputs converted and written in the given order, under a scale byte for each where the drain scales (R97, R99, R104, R106). -/
def drainWrite (s : State) (c : CoreId) (p : Prod) (scale : HeldOut → Option (Byte × Bool)) (outs : List HeldOut) : State :=
  match NumFmt.ofCode p.dr.fmt with
  | none => s
  | some f =>
    let out := outs.foldl (fun (acc : State × Run) o =>
      let q := drainRnd acc.1 c p.dr.sround
      let v := accVal p.int o.ent.v
      let b := scale o
      let code := match b with
        | some x => encodeScaled f p.dr.sat q.2 x.1 v
        | none => convertNum f p.dr.sat q.2 v
      let pl := outPlace p.dr o.m o.n
      (q.1, acc.2.code f.width (padAddr c (pl.1 : Nat)) pl.2 code (o.ent.p || (match b with | some x => x.2 | none => false)))) (s, run0)
    applyWrites out.1 out.2.ws

/-- Held outputs of an array under SCALE_AXIS = ROWS: complete scale blocks are converted and written (R100). -/
def drainScaled (s : State) (c : CoreId) (p : Prod) (held : List HeldOut) : State :=
  match NumFmt.ofCode p.dr.fmt with
  | none => s
  | some f =>
    let byteOf (n : Nat) : Byte × Bool :=
      let col := held.filter fun o => o.n == n
      (chooseScale f (col.map fun o => accVal p.int o.ent.v), col.any fun o => o.ent.p)
    let s := (held.map HeldOut.n).eraseDups.foldl (fun s n =>
      let b := byteOf n
      let m := match held.head? with | some o => o.m | none => 0
      writeAll s (padAddr c (p.dr.scaleBase + m / 32 * p.dr.scaleStride + n : Nat)) [b.1] b.2) s
    drainWrite s c p (fun o => some (byteOf o.n)) held

/-- The bytes that the final drain of array a's tile reads: bias values, where the array has not read them in the round (R112; in IS each
output tile has its own), and side entries that the run does not hold (R97, R101). -/
def drainReads (c : CoreId) (p : Prod) (round tile a : Nat) (idx : List Nat) (run : MxeRun) : List (Nat × Nat) :=
  let at_ := idx.map fun i => entryCoord p round tile a i
  (if p.dr.bias ∧ (tile = 0 ∨ p.op = 0x42) then at_.map fun q => (padAddr c (p.dr.biasBase + 4 * q.2 : Nat), 4) else []) ++
    (if p.dr.stats ∧ !p.dr.sideInit then
      (at_.filter fun q => !run.stats.any fun x => x.arr == a && x.m == q.1).map fun q => (sideAddr c p.dr q.1 a, 8) else [])

/-- One more pass drained or written with a poisoned entry (R106). -/
def passPoisoned (s : State) (c : CoreId) : State := rbump s (.eng c .mxe .stat) 47 32 1

/-- Does array a's drain of a pass complete a scale block, or convert at once (R100, R104)? -/
def blockEnds (p : Prod) (tile : Nat) : Bool := p.dr.scaleAxis != 1 || decide (p.m ≤ p.tr * tile + p.tr) || (tile + 1) % 4 == 0

/-- The final drain of array a's tile: bias, statistics, hand-off or conversion and write; a poisoned entry or output counts
its pass (R97, R105, R106). -/
def drainArray (s : State) (c : CoreId) (p : Prod) (d : PassEnd) (a : Nat) (run : MxeRun) : State × MxeRun :=
  let r := p.dr
  let round := d.round
  let tile := d.tile
  let acc := nthD d.acc a acc0
  let idx := (List.range 64).filter fun i => entryIn p round tile a i
  let s := touchAll s (drainReads c p round tile a idx run)
  let outs := idx.map fun i =>
    let q := entryCoord p round tile a i
    let e := nthD acc i ⟨0, false⟩
    let e := if r.bias then
        let ad := padAddr c (r.biasBase + 4 * q.2 : Nat)
        let b : W32 := BitVec.ofNat 32 (memNat s ad 4)
        ⟨if p.int then e.v + b else f32Add e.v b, e.p || memPoison s ad 4⟩
      else e
    HeldOut.mk q.1 q.2 e
  let s := if acc.any AccEnt.p || outs.any fun o => o.ent.p then passPoisoned s c else s
  let st := if r.stats then drainStats s c p a outs run else (s, run)
  if r.handoff then
    let h := handReceive st.1 c r.stream (outs.map fun o => (o.m, o.n, o.ent))
    (h.1, { st.2 with stop := st.2.stop.or (h.2.map fun f => (f, clsTask)) })
  else if r.scaleAxis = 1 then
    let held := nthD st.2.held a [] ++ outs
    if blockEnds p tile then (drainScaled st.1 c p held, { st.2 with held := setNth st.2.held a [] })
    else (st.1, { st.2 with held := setNth st.2.held a held })
  else (drainWrite st.1 c p (fun _ => none) outs, st.2)

/-- The end of a pass in the arrays for which on holds: a partial tile, or the drain (R89, R97, R106). -/
def drainPass (s : State) (c : CoreId) (p : Prod) (d : PassEnd) (on : Nat → Bool) (run : MxeRun) : State × MxeRun :=
  ((List.range p.arrs).filter on).foldl (fun (x : State × MxeRun) a =>
    match stripOf p a d.round with
    | none => x
    | some _ =>
      let acc := nthD d.acc a acc0
      if d.final then drainArray x.1 c p d a x.2
      else
        let s := if acc.any AccEnt.p then passPoisoned x.1 c else x.1
        (storePart s c p a d.tile d.round acc, x.2)) (s, run)

/-- Words of the generator that array a's drain of a pass draws: one for each element that it converts (R104). -/
def drawsOf (p : Prod) (d : PassEnd) (run : MxeRun) (a : Nat) : Nat :=
  if !d.final || !p.dr.sround || (stripOf p a d.round).isNone || !blockEnds p d.tile then 0
  else ((List.range 64).filter (entryIn p d.round d.tile a)).length + (nthD run.held a []).length

/-- Words that some arrays' drains of a pass draw. -/
def drawsIn (p : Prod) (d : PassEnd) (run : MxeRun) (arrs : List Nat) : Nat := (arrs.map (drawsOf p d run)).foldl (· + ·) 0

/-- The first word of the section's generator that a pass's drain can have: 64 come in each a-cycle, and those that earlier drains of the core
asked for are gone (R104). -/
def firstWord (s : State) (c : CoreId) (d : PassEnd) (run : MxeRun) : Nat := max (64 * (run.start + d.fin)) (getCore s c).genAt

/-- The a-cycle by which the generator has supplied the words of a pass's drain in the arrays up to position a (R104). -/
def wordsBy (s : State) (c : CoreId) (p : Prod) (d : PassEnd) (run : MxeRun) (a : Nat) : Nat :=
  ceilDiv (firstWord s c d run + drawsIn p d run (List.range (a + 1))) 64

/-- How long each array's drain of a pass waits for generator words: as long as they come later than the drain's own time, and as long as the
other cores of the section make it (R104; log 107). -/
def genWaits (s : State) (c : CoreId) (p : Prod) (d : PassEnd) (run : MxeRun) (others : List Nat) : List Nat :=
  (List.range p.arrs).map fun a =>
    if drawsOf p d run a = 0 then 0
    else max (nthD others a 0) (wordsBy s c p d run a - (run.start + d.fin + drainTime p true))

/-- The generator has supplied the words of a pass's drain in some arrays. -/
def drewWords (s : State) (c : CoreId) (p : Prod) (d : PassEnd) (run : MxeRun) (arrs : List Nat) : State :=
  let n := drawsIn p d run arrs
  if n = 0 then s else putCore s c { getCore s c with genAt := firstWord s c d run + n }

/-! Instruction progress. -/

/-- Content that holds nothing. -/
def noWin : Win := ⟨[], [], []⟩

/-- A run before its first tile step. -/
def mxeRun0 : MxeRun :=
  ⟨0, 0, 0, 0, 0, 0, [], [], [], [], [], false, [], noWin, [], [], false, false, 0, 0, 0, 0, 0, 0, 0, false, none, [], []⟩

/-- A run at the start of iteration j. Row statistics start afresh in each iteration (DESIGN CHOICE, log 100). -/
def mxeIter (p : Prod) (desc : List Byte) (r : MxeRun) (j : Nat) : MxeRun :=
  let base := max (max r.fr0 r.fr1) r.wfree
  { mxeRun0 with iter := j, t := base, fr0 := base, fr1 := base, wfree := base, held := List.replicate p.arrs [],
                 acc := List.replicate p.arrs acc0, logged := r.logged, stop := r.stop, desc := desc, start := r.start, sel := r.sel }

/-- An instruction of a core by its number. -/
def instOf (s : State) (c : CoreId) (id : Nat) : Option Inst := (getCore s c).insts.find? fun i => i.id == id
/-- An instruction stored in place. -/
def putInst (s : State) (c : CoreId) (i : Inst) : State :=
  let k := getCore s c
  putCore s c { k with insts := k.insts.map fun x => if x.id == i.id then i else x }

/-- Every unit of the regions of a mask tagged (R173). -/
def tagRegions (s : State) (c : CoreId) (mask : W64) : State :=
  (List.range 64).foldl (fun s r => if bit mask r then tagRange s (padBase c + r * 0x10000) 0x10000 else s) s

/-- An instruction abort: write regions tagged, claim released with the instruction, event (R173). -/
def abortInst (s : State) (c : CoreId) (i : Inst) (why cls : Nat) : State :=
  let s := tagRegions s c i.wr
  let s := logEng s c (engIdx i.eng) why cls i.bank i.idx 0
  let k := getCore s c
  putCore s c { k with insts := k.insts.filter fun x => x.id != i.id }

/-- The position of a run. -/
def posOf (r : MxeRun) : MPos := ⟨r.round, r.pr, r.tile, r.wt⟩
/-- A run moved to a position, or found without a further one. -/
def runTo (r : MxeRun) : Option MPos → MxeRun
  | some q => { r with round := q.round, pr := q.pr, tile := q.tile, wt := q.wt }
  | none => { r with lastRun := true }

/-- The buffer of a drained pass is free from a-cycle t. -/
def freeBuf (r : MxeRun) (even : Bool) (t : Nat) : MxeRun := if even then { r with fr0 := t } else { r with fr1 := t }

/-- The run's pass has ended at a-cycle t: it waits in its buffer for its drain (R89, R111). -/
def pushEnd (r : MxeRun) (final : Bool) (fin : Nat) : MxeRun :=
  { r with ends := r.ends ++ [⟨r.round, r.pr, r.seg, r.tile, r.acc, final, fin, r.passes % 2 == 0, false⟩], passes := r.passes + 1 }

/-- One more pass that waited for its buffer, where it did (R111, R128). -/
def countWait (s : State) (c : CoreId) (waited : Bool) : State := if waited then rbump s (.eng c .mxe .stat) 31 16 1 else s

/-- The end of a pass of MXE.WS, MXE.OS or MXE.IS, and the move to the next pass (R87, R111). -/
def endPass (p : Prod) (r : MxeRun) : MxeRun :=
  let t := max r.t (bufFree r) + r.plen
  runTo (pushEnd { r with t := t, plen := 0 } (p.drains && decide (r.pr + 1 = p.ranges)) t) (nextPos p (posOf r))

/-- May the run take a tile step: a buffer is free, and no pass that has not drained holds the partial tile that the step would read? -/
def stepOpen (r : MxeRun) : Bool :=
  decide (r.ends.length < 2) && !r.lastRun && !r.dwEnd &&
    !(r.wt == 0 && r.ends.any fun d => d.round == r.round && d.tile == r.tile && !d.final)

/-- The feeder loads the content of a position: the stationary content that an array does not keep from another output tile, each array through
its own port, and the window tile once for all (R82, R88, R90, R107); the cases of R76 in what it loads are found. -/
def loadAhead (s : State) (c : CoreId) (i : Inst) (p : Prod) (q : MPos) (check : Bool) (r : MxeRun) : State × MxeRun :=
  let r := if q.tile = 0 ∧ q.wt = 0 then { r with file := [] } else r
  let kept (a b : Nat) : Bool := resident s c p b q.pr && r.file.any fun e => e.arr == a && e.wt == q.wt
  let need := (arrStrips p q.round).filter fun x => !kept x.1 x.2
  let s := touchAll (need.foldl (fun s x => touchAll s (statReads s c p q x.2)) s) (tileReads s c p q)
  let f := if check then feedBads s c i p.strict (contentBads s c p q need) r else (s, r)
  let old := r.file.filter fun e => !need.any fun x => x.1 == e.arr && (!resident s c p x.2 q.pr || e.wt == q.wt)
  (f.1, { f.2 with file := old ++ need.map (fun x => ⟨x.1, q.wt, statWin s c p q x.2⟩), window := tileWin s c p q })

/-- What the feeder holds for array a in the current tile step: rows of X, and weights. -/
def winsOf (p : Prod) (r : MxeRun) (a : Nat) : Win × Win :=
  let st := match r.file.find? fun e => e.arr == a && e.wt == r.wt with | some e => e.win | none => noWin
  if p.op = 0x42 then (st, r.window) else (r.window, st)

/-- The accumulator of array a before the tile step of a run: what the pass has so far, a partial tile, or +0 (R89). -/
def accBefore (s : State) (c : CoreId) (p : Prod) (r : MxeRun) (a : Nat) : List AccEnt :=
  if r.wt ≠ 0 then nthD r.acc a acc0 else if fromPart p (posOf r) then loadPart s c p a r.tile r.round else acc0

/-- Before the first K-step of an iteration: the content of its first window tile loaded and checked, and T_start (R107, R109). -/
def firstLoad (s : State) (c : CoreId) (i : Inst) (p : Prod) (r : MxeRun) : State × MxeRun :=
  let r := { r with t := r.t + startTime s c p }
  let x := loadAhead (advance s (runAt r)) c i p (posOf r) true r
  (x.1, { x.2 with loaded := true })

/-- One tile step of MXE.WS, MXE.OS or MXE.IS (R86 to R96, R107): the K-steps of every array on what the feeder holds, the step's time, and the
content of the next step loaded and checked. The state and the run, with its stop where the instruction must abort. -/
def tileStep (s : State) (c : CoreId) (i : Inst) (p : Prod) (r : MxeRun) : State × MxeRun :=
  let f := if r.loaded then (s, r) else firstLoad s c i p r
  let s := f.1
  if r.stop.isNone && f.2.stop.isSome then f
  else
    let r := f.2
    let q := posOf r
    let s := countWait (advance s (runAt r)) c (r.wt == 0 && decide (r.t < bufFree r))
    let s := touchAll s (partReads c p q)
    let acc := (List.range p.arrs).map fun a =>
      match stripOf p a r.round with
      | none => acc0
      | some _ => let w := winsOf p r a; accTile p w.1 w.2 (accBefore s c p r a)
    let time := stepTime s c p q
    let f := match nextPos p q with
      | some n => loadAhead s c i p n (n.tile == 0 || p.strict) r
      | none => (s, r)
    let r := { f.2 with acc := acc, plen := r.plen + time }
    (f.1, if r.wt + 1 = passTiles p r.pr then endPass p r else { r with wt := r.wt + 1 })

end Sys2Proof.Machine
end

