-- ==== Sys2Proof/Machine/Alt.lean ====
section
/-!
DEFINITION. MXE.ALT: column strips, packed groups and segments (R119 to R122), the two products of an alt step (R123, R124, R129), the
dW drain and the candidates of a dense gradient sample (R125, R126, R135, R136), and the cost (R127, R128).
-/

namespace Sys2Proof.Machine

/-- Positions of a block that are no edge positions (R57). -/
def inBlk (p : Prod) (br bc : Nat) : List Nat := (List.range 64).filter fun i => !edgePos p.n p.k br bc i

/-- W's scale bytes of the rows of a block, with their poison (R129); of a row outside W the byte of no scaling. -/
def blkScales (s : State) (c : CoreId) (p : Prod) (br bc : Nat) : List (Byte × Bool) :=
  (List.range 8).map fun r =>
    if 8 * br + r < p.n then (let x := rowScales s c p.wsc p.wscA p.wscS (8 * br + r) (8 * bc) 1; (x.1.headD 127, x.2)) else (127, false)

/-- Local address of the mask word and of the freeze word of a block (R135). -/
def mskAddr (c : CoreId) (p : Prod) (br bc : Nat) : Nat := padAddr c (p.msk + (8 * (br * ceilDiv p.k 8 + bc) : Nat))
def frzAddr (c : CoreId) (p : Prod) (br bc : Nat) : Nat := padAddr c (p.frz + (8 * (br * ceilDiv p.k 8 + bc) : Nat))

/-- The mask word of a dense-coded block under SAMPLE, with its poison (R135). -/
def blkMask (s : State) (c : CoreId) (p : Prod) (dense : Bool) (br bc : Nat) : Nat × Bool :=
  if p.sample && dense then (memNat s (mskAddr c p br bc) 8, memPoison s (mskAddr c p br bc) 8) else (0, false)

/-- Block (br, bc) of W as the feeder takes it (R91, R120, R125, R135). -/
def altBlk (s : State) (c : CoreId) (p : Prod) (br bc : Nat) : ABlk :=
  let w := p.fw.width
  let ins := inBlk p br bc
  let sc := blkScales s c p br bc
  if p.form = 1 then
    let b := wBlk s c p br bc
    let entry := memNat s (wEntry c p br bc) 4
    let off := entry / 128 * 16
    ⟨br, b.vals, b.anyP || b.bad.isSome, b.bad.toList, b.dense, if p.sample then 64 else sbCount entry,
     4 + sbSize w entry p.ext + (if p.sample && b.dense then 8 else 0),
     List.replicate 64 (if b.dense then off else off + 8), (List.range 64).map fun i => if b.dense then i else rankBelow b.bitmap i, sc,
     blkMask s c p b.dense br bc⟩
  else if p.form = 2 then
    let gs := (List.range 8).map fun r =>
      if 8 * br + r < p.n then (let g := wGrp s c p (8 * br + r) bc; (g, memNat s (padAddr c (p.w + ((8 * br + r) * p.wStride + bc * pbGroup w : Nat))) 1))
      else (⟨List.replicate 8 none, false, none, false, 0⟩, 0)
    let cnt := (gs.map fun g => g.1.cnt).foldl (· + ·) 0
    ⟨br, gs.flatMap fun g => g.1.vals, gs.any fun g => g.1.anyP || g.1.bad.isSome, gs.filterMap fun g => g.1.bad, false,
     if p.sample then 64 else cnt, (min 8 (p.n - 8 * br)) * pbGroup w,
     (List.range 64).map fun i => (8 * br + i / 8) * p.wStride + bc * pbGroup w + 1,
     (List.range 64).map fun i => let m := (nthD gs (i / 8) (⟨[], false, none, false, 0⟩, 0)).2
       if m / 64 ≠ 0 ∧ m / 8 % 8 = i % 8 then 0 else 1, sc, (0, false)⟩
  else
    let cell (i : Nat) : Nat × Bool :=
      let x := rowCodes s c w (p.w + ((8 * br + i / 8) * p.wStride : Nat)) (8 * bc + i % 8) 1
      (x.1.headD 0, x.2)
    let vals := (List.range 64).map fun i => if ins.contains i then some (cell i) else none
    ⟨br, vals, vals.any fun v => match v with | some x => x.2 | none => false, [], false, 64,
     min 8 (p.n - 8 * br) * rowBytes (min 8 (p.k - 8 * bc)) w,
     (List.range 64).map fun i => (8 * br + i / 8) * p.wStride, (List.range 64).map fun i => 8 * bc + i % 8, sc, (0, false)⟩

/-- Companion address of position i of a block, in a companion of cb-bit elements at a base (R125). -/
def compAddr (p : Prod) (base : Int) (cb : Nat) (b : ABlk) (i : Nat) : Int :=
  base + (cb / p.fw.width * nthD b.base i 0 + nthD b.rank i 0 * (cb / 8) : Nat)

/-- Is a position's dW entry formed: a stored position, or any position of an SB64 or PB8 block under SAMPLE (R135)? -/
def dwPos (p : Prod) (bc : Nat) (b : ABlk) : List Nat :=
  (inBlk p b.br bc).filter fun i => p.sample || (nthD b.vals i none).isSome

/-- Block column of an array's strip. -/
def blkCol (p : Prod) (a round : Nat) : Nat := a + p.arrs * round

/-- The blocks of an array's column strip in window tile wt (R119). -/
def altBlocks (s : State) (c : CoreId) (p : Prod) (a round wt : Nat) : List ABlk :=
  match stripOf p a round with
  | none => []
  | some bc =>
    let lo := wt * p.kt / 8
    let hi := ceilDiv (min p.n ((wt + 1) * p.kt)) 8
    (List.range (hi - lo)).map fun i => altBlk s c p (lo + i) bc

/-- Cuts of a list by lengths. -/
def cutBy {α : Type} : List Nat → List α → List (List α)
  | [], _ => []
  | n :: r, xs => xs.take n :: cutBy r (xs.drop n)

/-- The loop of R122 over groups of (blocks, values): groups of each segment. -/
def cutSegments (ents : Nat) : List (Nat × Nat) → List (Nat × Nat) → Nat → Nat → List (List (Nat × Nat))
  | [], cur, _, _ => [cur]
  | g :: r, cur, vals, n =>
    if !cur.isEmpty && decide (vals + g.2 > 512 ∨ n + ents > 48) then cur :: cutSegments ents r [g] g.2 ents
    else cutSegments ents r (cur ++ [g]) (vals + g.2) (n + ents)

/-- The segments of an array's window tile, each a list of groups of blocks (R121, R122). -/
def altSegs (s : State) (c : CoreId) (p : Prod) (a round wt : Nat) : List (List (List ABlk)) :=
  let blks := altBlocks s c p a round wt
  if blks.isEmpty then []
  else
    let gs := packGroups p.d (blks.map ABlk.n) 0 0
    let ent := (if p.form = 0 then 1 else if p.form = 2 then 2 else if p.d = 4 then 3 else 2) + (if p.wsc then 1 else 0)
    let ent := if p.form ≠ 0 ∧ p.d = 4 then (3 + if p.wsc then 1 else 0) else if p.form ≠ 0 then (2 + if p.wsc then 1 else 0) else ent
    let segs := cutSegments ent gs [] 0 0
    let groups := cutBy (gs.map Prod.fst) blks
    cutBy (segs.map List.length) groups

/-- The groups of segment sg of an array; none where it has no such segment. -/
def segOf (s : State) (c : CoreId) (p : Prod) (a round wt sg : Nat) : List (List ABlk) := nthD (altSegs s c p a round wt) sg []

/-- Segments of a window tile: the most that any array has. -/
def maxSegs (s : State) (c : CoreId) (p : Prod) (round wt : Nat) : Nat :=
  (List.range p.arrs).foldl (fun m a => max m (altSegs s c p a round wt).length) 0

/-- Window tiles along N. -/
def altTiles (p : Prod) : Nat := ceilDiv p.n p.kt

/-- Values of row m of dY over the block rows [lo, hi) with scales, and their poison; and of the eight elements of X in a block
column (R129). -/
def dyRow (s : State) (c : CoreId) (p : Prod) (m lo hi : Nat) : OpRow × Bool :=
  if m < p.m then denseRow s c p.fy p.y p.yStride m p.ysc p.yscA p.yscS (8 * lo) (min p.n (8 * hi) - 8 * lo) else ([], false)
def xRow (s : State) (c : CoreId) (p : Prod) (m bc : Nat) : OpRow × Bool :=
  if m < p.m then denseRow s c p.fx p.x p.xStride m p.xsc p.xscA p.xscS (8 * bc) (min p.k (8 * bc + 8) - 8 * bc) else ([], false)

/-- The value and scale of position i of a block. -/
def wAt (f : NumFmt) (b : ABlk) (i : Nat) : Option (Val × Byte) :=
  (nthD b.vals i none).map fun q => (decodeNum f q.1, (nthD b.scale (i / 8) (127, false)).1)

/-- Poison of the stationary content of a segment: blocks, and W's scale bytes. -/
def segPoison (blks : List ABlk) : Bool := blks.any fun b => b.p || b.scale.any fun x => x.2

/-- The block row of the first block of a segment. -/
def firstRow (blks : List ABlk) : Nat := match blks with | [] => 0 | b :: _ => b.br

/-- The dX phase of a segment in one array for row tile j (R123, R124, R129): for each row, the stored values meet dY in increasing
n. -/
def dxPhase (s : State) (c : CoreId) (p : Prod) (bc j : Nat) (blks : List ABlk) (acc : List AccEnt) : List AccEnt :=
  if blks.isEmpty then acc
  else
    let lo := firstRow blks
    let hi := lo + blks.length
    let sp := segPoison blks
    let ws := blks.map fun b => (List.range 64).map (wAt p.fw b)
    let rows := (List.range 8).map fun r => let y := dyRow s c p (8 * j + r) lo hi; (y.1, y.2 || (xRow s c p (8 * j + r) bc).2)
    (List.range 64).map fun e =>
      let r := e / 8
      let k := e % 8
      let x := nthD acc e ⟨0, false⟩
      let y := nthD rows r ([], false)
      let col : OpRow := ws.flatMap fun b => (List.range 8).map fun q => nthD b (8 * q + k) none
      ⟨accRow p.int x.v y.1 col, x.p || (decide (8 * j + r < p.m) && y.2) || sp⟩

/-- The dW phase: each formed position adds X(m, k) · dY(m, n) for the rows of tile j in increasing m (R123, R124, R129). -/
def dwPhase (s : State) (c : CoreId) (p : Prod) (bc j : Nat) (blks : List ABlk) (dw : List AccEnt) : List AccEnt :=
  if blks.isEmpty then dw
  else
    let lo := firstRow blks
    let hi := lo + blks.length
    let sp := segPoison blks
    let rows := ((List.range 8).filter fun r => decide (8 * j + r < p.m)).map fun r =>
      (dyRow s c p (8 * j + r) lo hi, xRow s c p (8 * j + r) bc)
    let pois := sp || rows.any fun q => q.1.2 || q.2.2
    let at_ := blks.flatMap fun b => (dwPos p bc b).map fun i => (8 * (b.br - lo) + i / 8, i % 8)
    List.zipWith (fun (e : AccEnt) (q : Nat × Nat) =>
      ⟨rows.foldl (fun v row =>
          match nthD row.2.1 q.2 none, nthD row.1.1 q.1 none with
          | some x, some y => accAdd p.int v x y
          | _, _ => v) e.v, e.p || pois⟩) dw at_

/-- The dW accumulator of a segment before its first dW phase (R126). -/
def dwStart (s : State) (c : CoreId) (p : Prod) (bc : Nat) (blks : List ABlk) : List AccEnt :=
  blks.flatMap fun b => (dwPos p bc b).map fun i =>
    if p.dwIn && (nthD b.vals i none).isSome then
      let ad := padAddr c (compAddr p p.cin 32 b i)
      ⟨accStart p.int (BitVec.ofNat 32 (memNat s ad 4)), memPoison s ad 4⟩
    else ⟨0, false⟩

/-- The dW drain of a segment in one array: stored entries to the companion, candidates to the selector (R126, R135, R136). Poison of a block's
freeze word, or of the mask word of a dense-coded block, goes to its candidates (DESIGN CHOICE, log 105). -/
def dwDrainArray (s : State) (c : CoreId) (p : Prod) (bc : Nat) (blks : List ABlk) (dw : List AccEnt) : State × List Cand :=
  let at_ := blks.flatMap fun b => (dwPos p bc b).map fun i => (b, i)
  let both := List.zip at_ dw
  let cb := p.cBits
  let bytes (e : AccEnt) : List Byte :=
    if cb = 16 then leBytes 2 (convertNum .bf16 true .rne (f32 e.v))
    else if p.dwOut || p.int then leBytes 4 e.v.toNat
    else leBytes 4 (convertNum .f32 true .rne (f32 e.v))
  let r := both.foldl (fun (r : Run) q =>
    if (nthD q.1.1.vals q.1.2 none).isSome then r.bytes (padAddr c (compAddr p p.cbase cb q.1.1 q.1.2)) (bytes q.2) q.2.p true else r) run0
  let cands := if !p.sample then [] else both.filterMap fun q =>
    let b := q.1.1
    let i := q.1.2
    let blk := b.br * ceilDiv p.k 8 + bc
    let fa := frzAddr c p b.br bc
    let inactive := !(nthD b.vals i none).isSome || (b.dense && !b.mask.1.testBit i)
    if inactive && !(memNat s fa 8).testBit i then
      let v : W32 := if p.int then BitVec.ofNat 32 (convertNum .f32 false .rne (Val.ofInt q.2.v.toInt 0)) else q.2.v
      some (blk, i, v, q.2.p || memPoison s fa 8 || b.mask.2)
    else none
  (applyWrites s r.ws, cands)

/-- Findings of the feeder in a segment of every array, in increasing block number (R107). -/
def segBads (s : State) (c : CoreId) (p : Prod) (round wt sg : Nat) : List Status :=
  let blks := (List.range p.arrs).flatMap fun a => (segOf s c p a round wt sg).flatten
  (sortBy ABlk.br blks).flatMap ABlk.bads

/-- The segment after (round, wt, sg), if any. -/
def nextSeg (s : State) (c : CoreId) (p : Prod) (round wt sg : Nat) : Option (Nat × Nat × Nat) :=
  if sg + 1 < maxSegs s c p round wt then some (round, wt, sg + 1)
  else if wt + 1 < altTiles p then some (round, wt + 1, 0)
  else if round + 1 < p.rounds then some (round + 1, 0, 0)
  else none

/-- Is (wt, sg) the last segment of the N axis? -/
def lastSeg (s : State) (c : CoreId) (p : Prod) (round wt sg : Nat) : Bool :=
  decide (altTiles p ≤ wt + 1) && decide (maxSegs s c p round wt ≤ sg + 1)

/-- The bytes of a block of W in MXE.ALT: its values, its scale bytes, and the mask word of a dense-coded one under SAMPLE (R120, R135). -/
def altBlkReads (s : State) (c : CoreId) (p : Prod) (bc : Nat) (b : ABlk) : List (Nat × Nat) :=
  let rows := (List.range 8).filter fun r => decide (8 * b.br + r < p.n)
  let w := p.fw.width
  (if p.form = 1 then sbRanges s w (wEntry c p b.br bc) (padAddr c p.w) p.ext
   else rows.flatMap fun r =>
     if p.form = 2 then [(padAddr c (p.w + ((8 * b.br + r) * p.wStride + bc * pbGroup w : Nat)), pbGroup w)]
     else rowRange c w (p.w + ((8 * b.br + r) * p.wStride : Nat)) (8 * bc) (min 8 (p.k - 8 * bc))) ++
    rows.flatMap (fun r => scaleRange c p.wsc p.wscA p.wscS (8 * b.br + r) (8 * bc) 1) ++
    (if p.sample && b.dense then [(mskAddr c p b.br bc, 8)] else [])

/-- The blocks of a segment in every array, loaded into its stationary file (R120, R122): the bytes read by each array's port (R82), and the
blocks. -/
def segTouch (s : State) (c : CoreId) (p : Prod) (round wt sg : Nat) : State :=
  (List.range p.arrs).foldl (fun s a =>
    match stripOf p a round with
    | none => s
    | some bc => touchAll s (((segOf s c p a round wt sg).flatten).flatMap (altBlkReads s c p bc))) s
def segLoad (s : State) (c : CoreId) (p : Prod) (round wt sg : Nat) : List (List ABlk) :=
  (List.range p.arrs).map fun a => (segOf s c p a round wt sg).flatten

/-- Does the dX pass of a run start from a partial tile (R124)? -/
def altFromPart (p : Prod) (r : MxeRun) : Bool := r.pr != 0 || r.seg != 0 || p.accIn

/-- The bytes that an alt step reads for every array beside the segment's own: the rows of dY and X of its tile (R82, R123). -/
def altReads (c : CoreId) (p : Prod) (r : MxeRun) : List (Nat × Nat) :=
  (List.range p.arrs).flatMap fun a =>
    match stripOf p a r.round with
    | none => []
    | some bc =>
      let blks := nthD r.blks a []
      if blks.isEmpty then []
      else
        let lo := firstRow blks
        let hi := lo + blks.length
        ((List.range 8).filter fun q => decide (8 * r.tile + q < p.m)).flatMap fun q =>
            denseRange c p.fy p.y p.yStride (8 * r.tile + q) p.ysc p.yscA p.yscS (8 * lo) (min p.n (8 * hi) - 8 * lo) ++
              denseRange c p.fx p.x p.xStride (8 * r.tile + q) p.xsc p.xscA p.xscS (8 * bc) (min p.k (8 * bc + 8) - 8 * bc)

/-- The bytes that an alt step reads for array a alone: companion values and its partial tile (R124, R126). -/
def altOwn (c : CoreId) (p : Prod) (r : MxeRun) (a : Nat) : List (Nat × Nat) :=
  match stripOf p a r.round with
  | none => []
  | some bc =>
    (if r.tile = 0 ∧ p.dwIn then
      (nthD r.blks a []).flatMap fun b => ((dwPos p bc b).filter fun i => (nthD b.vals i none).isSome).map fun i =>
        (padAddr c (compAddr p p.cin 32 b i), 4)
     else []) ++ (if altFromPart p r then [(padAddr c (partAddr p a r.tile r.round), 256)] else [])

/-- The freeze words that the dW drain of a segment reads under SAMPLE (R135). -/
def sampleReads (c : CoreId) (p : Prod) (bc : Nat) (blks : List ABlk) : List (Nat × Nat) :=
  if p.sample then blks.map fun b => (frzAddr c p b.br bc, 8) else []

/-! Cost (R127, R128). -/

/-- Stationary bytes of a segment in an array. -/
def segBytes (s : State) (c : CoreId) (p : Prod) (a round wt sg : Nat) : Nat :=
  let blks := (segOf s c p a round wt sg).flatten
  (blks.map ABlk.bytes).foldl (· + ·) 0 + (if p.wsc then (blks.map fun b => min 8 (p.n - 8 * b.br)).foldl (· + ·) 0 else 0)

/-- Window bytes of an array in a step: dY tile over the window tile, the X tile, their scale bytes. -/
def altWin (p : Prod) (wt j : Nat) : Nat :=
  let r := min 8 (p.m - 8 * j)
  let len := min p.n ((wt + 1) * p.kt) - wt * p.kt
  r * (rowBytes len p.fy.width + (if p.ysc then scaleSpan (wt * p.kt) len else 0) + rowBytes 8 p.fx.width + (if p.xsc then 1 else 0))

/-- H(s, j) and S(s, j). -/
def altTimes (s : State) (c : CoreId) (p : Prod) (round wt sg j : Nat) : Nat × Nat :=
  let r := min 8 (p.m - 8 * j)
  let h := (List.range p.arrs).foldl (fun m a => max m (r * (segOf s c p a round wt sg).length)) 0
  let nx := if j + 1 = ceilDiv p.m 8 then nextSeg s c p round wt sg else none
  let f := (List.range p.arrs).foldl (fun m a =>
    match stripOf p a round with
    | none => m
    | some _ =>
      let st := match nx with | some q => segBytes s c p a q.1 q.2.1 q.2.2 | none => 0
      max m (max (ceilDiv (altWin p wt j) 128) (ceilDiv st 128))) 0
  (h, max (2 * h) f)

/-- v_max(s): the largest value count of an array's segment. -/
def segMax (s : State) (c : CoreId) (p : Prod) (round wt sg : Nat) : Nat :=
  (List.range p.arrs).foldl (fun m a =>
    max m ((((segOf s c p a round wt sg).flatten).map ABlk.n).foldl (· + ·) 0)) 0

/-- T_start of MXE.ALT. -/
def altStart (s : State) (c : CoreId) (p : Prod) : Nat :=
  let b0 := (List.range p.arrs).foldl (fun m a =>
    max m (segBytes s c p a 0 0 0 + altWin p 0 0 + if p.accIn then 256 else 0)) 0
  10 + ceilDiv b0 256

/-- Before the first K-step of an iteration: its first segment loaded and checked, and T_start (R107, R127). -/
def altFirst (s : State) (c : CoreId) (i : Inst) (p : Prod) (r : MxeRun) : State × MxeRun :=
  let t := r.t + altStart s c p
  let s := segTouch (advance s (runAt { r with t := t })) c p r.round r.pr r.seg
  let x := feedBads s c i p.strict (segBads s c p r.round r.pr r.seg) { r with t := t, blks := segLoad s c p r.round r.pr r.seg }
  (x.1, { x.2 with loaded := true })

/-- The dX and dW accumulators of array a after an alt step (R123). -/
def altAccs (s : State) (c : CoreId) (p : Prod) (r : MxeRun) (a : Nat) : List AccEnt × List AccEnt :=
  match stripOf p a r.round with
  | none => (acc0, [])
  | some bc =>
    let blks := nthD r.blks a []
    let a0 := if altFromPart p r then loadPart s c p a r.tile r.round else acc0
    let d0 := if r.tile = 0 then dwStart s c p bc blks else nthD r.dw a []
    (dxPhase s c p bc r.tile blks a0, dwPhase s c p bc r.tile blks d0)

/-- The a-cycles of an alt step (R127, R128): the end of its dX pass, the end of the step, and whether its start or its dW phase waited. -/
def altClock (s : State) (c : CoreId) (p : Prod) (r : MxeRun) : Nat × Nat × Bool :=
  let tm := altTimes s c p r.round r.pr r.seg r.tile
  let fr := bufFree r
  let st := max r.t fr
  let lw := if p.dwIn then ceilDiv (segMax s c p r.round r.pr r.seg) 32 else 0
  let w0 := st + tm.1
  let w1 := if r.tile = 0 then max w0 (r.wfree + lw) else w0
  (w0, max (st + tm.2) (w1 + tm.2 - tm.1), decide (r.t < fr) || decide (w0 < w1))

/-- One alt step (R123, R129, R107): the dX and dW phases of every array for segment and row tile of the run. Its dX pass has then ended; after
the last row tile the segment's dW drain is due, and the next segment has been loaded and checked (R122). -/
def altStep (s : State) (c : CoreId) (i : Inst) (p : Prod) (r : MxeRun) : State × MxeRun :=
  let f := if r.loaded then (s, r) else altFirst s c i p r
  let s := f.1
  if r.stop.isNone && f.2.stop.isSome then f
  else
    let r := f.2
    let s := advance s (runAt r)
    let s := (List.range p.arrs).foldl (fun s a => touchAll s (altOwn c p r a)) (touchAll s (altReads c p r))
    let out := (List.range p.arrs).map (altAccs s c p r)
    let k := altClock s c p r
    let s := countWait (advance s (r.start + k.1)) c k.2.2
    let r := pushEnd { r with acc := out.map Prod.fst, dw := out.map Prod.snd, t := k.2.1 }
      (p.drains && lastSeg s c p r.round r.pr r.seg) k.1
    if r.tile + 1 < p.tiles then (s, { r with tile := r.tile + 1 })
    else
      let r := { r with dwEnd := true }
      match nextSeg s c p r.round r.pr r.seg with
      | some n =>
        let s := segTouch s c p n.1 n.2.1 n.2.2
        feedBads s c i p.strict (segBads s c p n.1 n.2.1 n.2.2) { r with nblks := segLoad s c p n.1 n.2.1 n.2.2 }
      | none => (s, r)

/-- The dW drain of a segment in every array (R126, R135, R136): companion writes, candidates offered, the drain's time. The candidates reach the
selector by increasing array position, block and bit number (DESIGN CHOICE, log 106). The run keeps the store areas that it wrote (R138). -/
def dwDrain (s : State) (c : CoreId) (p : Prod) (r : MxeRun) : State × MxeRun :=
  let vmax := segMax s c p r.round r.pr r.seg
  let s := advance s (r.start + r.t)
  let out := (List.range p.arrs).foldl (fun (x : State × List Cand) a =>
    match stripOf p a r.round with
    | none => x
    | some bc =>
      let dw := nthD r.dw a []
      let s := if dw.any AccEnt.p then passPoisoned x.1 c else x.1
      let blks := nthD r.blks a []
      let q := dwDrainArray (touchAll s (sampleReads c p bc blks)) c p bc blks dw
      (q.1, x.2 ++ q.2)) (s, [])
  let fin := out.2.foldl (fun x q => offerGrow x c p.idx q) (out.1, 0, [])
  let s := writeGrowStores fin.1 c fin.2.2
  let sel := (r.sel ++ fin.2.2.map fun e => (e.1, (ctxOf s c e.1).store)).eraseDups
  let dt := max (ceilDiv vmax 32) (max (ceilDiv out.2.length 512) (ceilDiv fin.2.1 16))
  (s, { r with wfree := r.t + dt, dwEnd := false, sel := sel })

end Sys2Proof.Machine
end

