-- ==== Sys2Proof/Machine/MxeSteps.lean ====
section
/-!
DEFINITION. The steps of an executing matrix instruction: begin, tile step, end of pass, dW drain, and the move to the next position
or iteration (R86, R87, R97, R107, R111, R123, R126, R203).
-/

namespace Sys2Proof.Machine

/-- Iteration j of a matrix instruction, its descriptor read (R203). -/
def mxeLoad (s : State) (c : CoreId) (i : Inst) (r : MxeRun) (j : Nat) : MxeRun :=
  let bs := memBytes s (padAddr c (mAddr i.loop i.w 3 j)) 128
  mxeIter (parseProd i.loop i.w j bs) bs r j

/-- Where the descriptor of iteration j stands. -/
def mxeDesc (c : CoreId) (i : Inst) (j : Nat) : Nat × Nat := (padAddr c (mAddr i.loop i.w 3 j), 128)

/-- The iteration of a run. -/
def prodOf (i : Inst) (r : MxeRun) : Prod := parseProd i.loop i.w r.iter r.desc

/-- A matrix instruction begins at a-cycle t. -/
def beginMxe (s : State) (c : CoreId) (i : Inst) (t : Nat) : Inst :=
  { i with begun := true, start := t, doneAt := t, prog := .mxe (mxeLoad s c i { mxeRun0 with start := t } 0) }

/-- Does a drain wait for its stream's input buffer: the stream takes no tile, or its buffer is full for buf a-cycles (R102)? -/
def bufWaits (s : State) (c : CoreId) (p : Prod) (d : PassEnd) (buf : Nat) : Bool :=
  d.final && p.dr.handoff && (buf != 0 || handHeld s c p.dr.stream)

/-- The drain of one pass under an abort: an array whose drain waits for generator words, and a hand-off that waits for its stream's input
buffer, are discarded (R107, R176). -/
def cutDrain (c : CoreId) (p : Prod) (w : DrainWait) (x : State × MxeRun) (d : PassEnd) : State × MxeRun :=
  let waits := genWaits x.1 c p d x.2 w.gen
  let on (a : Nat) : Bool := !bufWaits x.1 c p d w.buf && nthD waits a 0 == 0
  drainPass (drewWords x.1 c p d x.2 ((List.range p.arrs).filter on)) c p d on x.2

/-- The run put back into its instruction. Where its stop has come due, the instruction takes no further tile step, and is aborted once every
drain that has begun has completed or been discarded (R107, R173). -/
def mxePut (s : State) (c : CoreId) (i : Inst) (r : MxeRun) : State :=
  match r.stop with
  | some f =>
    if r.ends.isEmpty && !r.dwEnd then abortInst s c i (stCode f.1) f.2 else putInst s c { i with prog := .mxe { r with lastRun := true } }
  | none => putInst s c { i with prog := .mxe r }

/-- The run after a tile step: where its stop has come due, what the step itself has ended is discarded with the current pass (R107). -/
def cutStep (r : MxeRun) (begun : List PassEnd) : MxeRun := if r.stop.isSome then { r with ends := begun, dwEnd := false } else r

/-- The end of an iteration: the next one, or the instruction's end (R159). -/
def mxeNextIter (s : State) (c : CoreId) (i : Inst) (r : MxeRun) : State :=
  if r.iter + 1 < loopCount i.loop then
    let s := touchAll s [mxeDesc c i (r.iter + 1)]
    putInst s c { i with prog := .mxe (mxeLoad s c i r (r.iter + 1)) }
  else putInst s c { i with finished := true, doneAt := i.start + max (max r.fr0 r.fr1) r.wfree, prog := .mxe r }

/-- The run goes on after a drain: a stop that has come due, the iteration's end once every pass has drained, or the run as it is. -/
def mxeGoOn (s : State) (c : CoreId) (i : Inst) (r : MxeRun) : State :=
  if r.stop.isNone && r.lastRun && r.ends.isEmpty && !r.dwEnd then mxeNextIter s c i r else mxePut s c i r

/-- MXE_TILE_STEP: the instruction's next tile step. -/
def mxeTile (s : State) (c : CoreId) (id : Nat) : State :=
  match instOf s c id with
  | some i =>
    match i.prog with
    | .mxe r =>
      if !i.begun || i.finished || !stepOpen r then s
      else
        let p := prodOf i r
        let x := if p.op = 0x48 then altStep s c i p r else tileStep s c i p r
        mxePut x.1 c i (cutStep x.2 r.ends)
    | _ => s
  | none => s

/-- A drain found waiting for its stream's input buffer (R102). -/
def holdEnd (r : MxeRun) : MxeRun := { r with ends := match r.ends with | d :: t => { d with held := true } :: t | [] => [] }

/-- How long a drain was held: from the end of its pass to the a-cycle at which its stream could take it (R102, R111). -/
def heldFor (s : State) (i : Inst) (d : PassEnd) : Nat := if d.held then s.now - (i.start + d.fin) else 0

/-- How long the drain of a pass keeps its buffer busy beyond its own time: the longest wait of an array for generator words, and for its stream
(R102, R104, R111). -/
def drainWait (p : Prod) (d : PassEnd) (hold : Nat) (waits : List Nat) (buf : Nat) : Nat :=
  waits.foldl max 0 + hold + if d.final && p.dr.handoff then buf else 0

/-- MXE_PASS_DRAIN: the drain of the oldest pass that has ended. A hand-off waits for its stream (R102); waits for generator words, which
other cores of the section may lengthen, are counted for each array; both keep the pass's buffer busy (R104, R111) and are discarded under an
abort, when the other begun drains complete (R107). -/
def mxeDrain (s : State) (c : CoreId) (id : Nat) (others : DrainWait) : State :=
  match instOf s c id with
  | some i =>
    match i.prog with
    | .mxe r =>
      match r.ends with
      | [] => s
      | d :: rest =>
        let p := prodOf i r
        let hold := heldFor s i d
        let s := advance s (i.start + d.fin)
        let waits := genWaits s c p d r others.gen
        let n := (waits.filter fun x => x != 0).length
        if r.stop.isSome then let x := cutDrain c p others (s, r) d; mxePut x.1 c i { x.2 with ends := rest }
        else if bufWaits s c p d 0 then putInst s c { i with prog := .mxe (holdEnd r) }
        else
          let s := if n = 0 then s else rbump s (.eng c .mxe .stat) 15 0 n
          let x := drainPass (drewWords s c p d r (List.range p.arrs)) c p d (fun _ => true) r
          mxeGoOn x.1 c i (freeBuf { x.2 with ends := rest } d.even (d.fin + drainTime p d.final + drainWait p d hold waits others.buf))
    | _ => s
  | none => s

/-- ALT_DW_DRAIN: the dW drain of the segment that has ended. -/
def mxeDwDrain (s : State) (c : CoreId) (id : Nat) : State :=
  match instOf s c id with
  | some i =>
    match i.prog with
    | .mxe r =>
      if !r.dwEnd then s
      else
        let p := prodOf i r
        let x := dwDrain s c p r
        mxeGoOn x.1 c i (match nextSeg x.1 c p r.round r.pr r.seg with
          | some q => { x.2 with round := q.1, pr := q.2.1, seg := q.2.2, tile := 0, blks := r.nblks }
          | none => { x.2 with lastRun := true })
    | _ => s
  | none => s

/-- The array range of a matrix word (R84). -/
def arrRange (w : W128) : Nat × Nat := (bits w 114 108, bits w 114 108 + bits w 107 101 + 1)

/-- Do the array ranges of two words overlap (R150)? -/
def arraysMeet (v w : W128) : Bool := decide ((arrRange v).1 < (arrRange w).2 ∧ (arrRange w).1 < (arrRange v).2)

/-- The abort of the core's MXE reaches its matrix instructions: each stops at the end of its current tile step; its event carries class none,
unless a fault that it met itself has stopped it before (R107, R173, R176, R452). -/
def mxeStop (s : State) (c : CoreId) (why : Status) : State :=
  let k := getCore s c
  putCore s c { k with insts := k.insts.map fun i =>
    match i.prog with
    | .mxe r => { i with prog := .mxe { r with stop := r.stop.or (some (why, clsNone)) } }
    | _ => i }

/-- The abort of a HANDOFF stream reaches the instruction that hands off to it, with class task where the stream met a fault, else none (R102,
R173, R452). -/
def mxeStreamStop (s : State) (c : CoreId) (st cls : Nat) : State :=
  let k := getCore s c
  putCore s c { k with insts := k.insts.map fun i =>
    match i.prog with
    | .mxe r =>
      let p := prodOf i r
      if i.begun && !i.finished && p.drains && p.dr.handoff && p.dr.stream == st then
        { i with prog := .mxe { r with stop := r.stop.or (some (.aborted, cls)) } }
      else i
    | _ => i }

end Sys2Proof.Machine
end

