-- ==== Sys2Proof/Machine/Mle.lean ====
section
/-!
DEFINITION. The moult engine: its words (R215, R216), its operations on masks, tiles and selector stores (R137 to R144), their time
and their abort.
-/

namespace Sys2Proof.Machine

/-! Fields (R215). -/

def lC (w : W128) : Nat := bits w 114 113
/-- Blocks of a piece: SCAN, and RECOMPRESS or RESET_STATE. -/
def lB (w : W128) : Nat := if opc w = 0x41 then bits w 112 105 + 1 else bits w 114 107 + 1
def lPoff (w : W128) : Nat := bits w 104 89
def lOldm (w : W128) : Nat := (if opc w = 0x41 then bits w 34 16 else bits w 106 88) * 8
/-- Freeze word of SCAN, new-mask word of RECOMPRESS and RESET_STATE. -/
def lThird (w : W128) : Nat := (if opc w = 0x41 then bits w 53 35 else bits w 87 69) * 8
def lTile (w : W128) : Nat := (if opc w = 0x41 then bits w 15 0 else bits w 47 32) * 64
def lFill (w : W128) : W32 := BitVec.ofNat 32 (bits w 31 0)
def lSwap (w : W128) : Bool := opc w == 0x44
/-- k of PRUNE, GROW and SWAP. -/
def lK (w : W128) : Nat := (if lSwap w then bits w 110 95 else bits w 112 97) + 1
def lIn (w : W128) : Nat := (if lSwap w then bits w 94 76 else bits w 96 78) * 8
def lOut (w : W128) : Nat := (if lSwap w then bits w 75 57 else bits w 77 59) * 8
def lFrz (w : W128) : Nat := (if lSwap w then bits w 56 38 else bits w 58 40) * 8
def lPb (w : W128) : Bool := if lSwap w then bit w 37 else bit w 39
def lRec (w : W128) : Nat := (if lSwap w then bits w 36 19 else bits w 34 17) * 16
def lCp (w : W128) : Nat := if lSwap w then bits w 114 113 else lC w
def lCg (w : W128) : Nat := if lSwap w then bits w 112 111 else lC w

/-- The context that MOULT.SELECT sets up (R138). -/
def selCtx (w : W128) : SelCtx :=
  ⟨true, bit w 112, bits w 111 96 + 1, bits w 95 68, bits w 67 52 + 1, bits w 51 36 * 64, bits w 15 0 * 64, [], false⟩

/-- Check 3 of R171 for an MLE word (R216). -/
def mleConsistent (s : State) (c : CoreId) (d : LoopDesc) (w : W128) : Bool :=
  let o := opc w
  if o = 0x40 then
    let x := selCtx w
    countsOne d && decide (x.k ≤ x.blocks * 64 ∧ x.first + x.blocks ≤ 2 ^ 28)
  else if o = 0x41 then
    let x := ctxOf s c (lC w)
    x.armed && x.prune && incsMultiple d 0 64 && incsMultiple d 1 8 && incsMultiple d 2 8 &&
      decide (lPoff w + loopCount d * lB w ≤ x.blocks)
  else if o = 0x42 then
    let x := ctxOf s c (lC w)
    countsOne d && x.armed && x.prune && bits w 58 40 == 0
  else if o = 0x43 then
    let x := ctxOf s c (lC w)
    countsOne d && x.armed && !x.prune
  else if o = 0x44 then
    let x := ctxOf s c (lCp w)
    let y := ctxOf s c (lCg w)
    countsOne d && lCp w != lCg w && x.armed && x.prune && y.armed && !y.prune && x.first == y.first && x.blocks == y.blocks && x.idx == y.idx
  else incsMultiple d 0 64 && incsMultiple d 1 8 && incsMultiple d 2 8 && (o == 0x45 || bits w 31 0 == 0)

/-- Check 5 (R161). The store area of a SELECT must lie in the scratchpad (DEDUCED, log 23). -/
def mleRegion (s : State) (c : CoreId) (d : LoopDesc) (w : W128) : Bool :=
  let o := opc w
  let rd (a n : Nat) : Bool := n == 0 || rangeOk d.rd a (a + n : Nat)
  let wr (a n : Nat) : Bool := n == 0 || rangeOk d.wr a (a + n : Nat)
  if o = 0x40 then let x := selCtx w; rangeOk (BitVec.allOnes 64) x.store (x.store + 8 * x.k : Nat)
  else if o = 0x41 then
    let x := ctxOf s c (lC w)
    streamOk d 0 (lTile w) (256 * lB w) true false && streamOk d 1 (lOldm w) (8 * lB w) true false &&
      streamOk d 2 (lThird w) (8 * lB w) true false && wr x.store (8 * x.k)
  else if o = 0x45 ∨ o = 0x46 then
    streamOk d 0 (lTile w) (256 * lB w) true true && streamOk d 1 (lOldm w) (8 * lB w) true false &&
      streamOk d 2 (lThird w) (8 * lB w) true false
  else
    let x := ctxOf s c (lCp w)
    let y := ctxOf s c (lCg w)
    rd (lIn w) (8 * x.blocks) && wr (lOut w) (8 * x.blocks) && (o == 0x42 || rd (lFrz w) (8 * x.blocks)) && wr (lRec w) 16 &&
      rd x.store (8 * x.entries.length) && rd y.store (8 * y.entries.length)

/-- Words of a mask plane from a local offset, with their poison. -/
def maskWords (s : State) (c : CoreId) (a n : Nat) : List (Nat × Bool) :=
  (List.range n).map fun i => (memNat s (padAddr c (a + 8 * i : Nat)) 8, memPoison s (padAddr c (a + 8 * i : Nat)) 8)

/-- Bit of a position index in a list of mask words. -/
def getBit (ws : List Nat) (x : Nat) : Bool := (nthD ws (x / 64) 0).testBit (x % 64)
/-- A bit set or cleared. -/
def putBit (ws : List Nat) (x : Nat) (b : Bool) : List Nat :=
  let w := nthD ws (x / 64) 0
  setNth ws (x / 64) (if b then w ||| 2 ^ (x % 64) else w - (w &&& 2 ^ (x % 64)))

/-- May a position grow (R139)? -/
def eligible (pb : Bool) (frz out : List Nat) (x : Nat) : Bool :=
  !getBit out x && !getBit frz x && (!pb || decide (((List.range 8).filter fun q => getBit out (x / 8 * 8 + q)).length < 2))

/-- The loop of MOULT.PRUNE: at most k positions deactivated in rank order. -/
def pruneLoop : List Nat → Nat → List Nat → Nat → List Nat × Nat
  | [], _, out, n => (out, n)
  | x :: r, k, out, n => if n = k then (out, n) else if getBit out x then pruneLoop r k (putBit out x false) (n + 1) else pruneLoop r k out n

/-- The loop of MOULT.GROW: at most k eligible positions activated in rank order. -/
def growLoop (pb : Bool) (frz : List Nat) : List Nat → Nat → List Nat → Nat → List Nat × Nat
  | [], _, out, n => (out, n)
  | x :: r, k, out, n =>
    if n = k then (out, n) else if eligible pb frz out x then growLoop pb frz r k (putBit out x true) (n + 1) else growLoop pb frz r k out n

/-- The first eligible entry of a list, with the entries after it. -/
def nextEligible (pb : Bool) (frz out : List Nat) : List Nat → Option (Nat × List Nat)
  | [] => none
  | x :: r => if eligible pb frz out x then some (x, r) else nextEligible pb frz out r

/-- The loop of MOULT.SWAP (R140): the mask and the number of pairs. -/
def swapLoop (pb : Bool) (frz : List Nat) : List Nat → List Nat → Nat → List Nat → Nat → List Nat × Nat
  | [], _, _, out, n => (out, n)
  | p :: ps, gs, k, out, n =>
    if n = k then (out, n)
    else if !getBit out p then swapLoop pb frz ps gs k out n
    else
      match nextEligible pb frz (putBit out p false) gs with
      | none => (out, n)
      | some q => swapLoop pb frz ps q.2 k (putBit (putBit out p false) q.1 true) (n + 1)

/-- A moult record (R142). -/
def moultRecord (pruned grown k flags : Nat) : List Byte := leBytes 4 pruned ++ leBytes 4 grown ++ leBytes 4 k ++ leBytes 4 flags

/-- MOULT.PRUNE, GROW and SWAP (R139 to R143): their writes, and the flags of their record. -/
def moultApply (s : State) (c : CoreId) (i : Inst) : State × Nat :=
  let w := i.w
  let o := opc w
  let x := ctxOf s c (lCp w)
  let y := ctxOf s c (lCg w)
  let ins := maskWords s c (lIn w) x.blocks
  let frz := if o = 0x42 then [] else maskWords s c (lFrz w) x.blocks
  let k := lK w
  let outAt := padAddr c (lOut w)
  let refused := x.poison || y.poison || ins.any Prod.snd || frz.any Prod.snd
  if refused then
    let r := if lOut w = lIn w then run0 else
      ((List.range x.blocks).foldl (fun r j => let q := nthD ins j (0, false); Run.bytes r (outAt + 8 * j) (leBytes 8 q.1) q.2 false) run0)
    let s := applyWrites s r.ws
    (writeAll s (padAddr c (lRec w)) (moultRecord 0 0 k 1) false, 1)
  else
    let words := ins.map Prod.fst
    let fw := frz.map Prod.fst
    let pe := x.entries.map Prod.fst
    let ge := y.entries.map Prod.fst
    let q := if o = 0x42 then pruneLoop pe k words 0
      else if o = 0x43 then growLoop (lPb w) fw ge k words 0
      else swapLoop (lPb w) fw pe ge k words 0
    let flags := if q.2 < k then 2 else 0
    let s := writeAll s outAt (q.1.flatMap fun v => leBytes 8 v) false
    let rec_ := moultRecord (if o = 0x43 then 0 else q.2) (if o = 0x42 then 0 else q.2) k flags
    (writeAll s (padAddr c (lRec w)) rec_ false, flags)

/-- Local address of stream st in iteration j of a looping MLE word. -/
def lAddr (d : LoopDesc) (w : W128) (st j : Nat) : Nat :=
  (((if st = 0 then lTile w else if st = 1 then lOldm w else lThird w) : Nat) + loopOff d st j).toNat

/-- The candidates of block b of a SCAN's iteration j, with their values and poison (R139). A poisoned old-mask or freeze word poisons the
candidates that its block offers, and nothing where it offers none (DESIGN CHOICE, log 105). -/
def scanBlock (s : State) (c : CoreId) (d : LoopDesc) (w : W128) (j b : Nat) : List (Nat × W32 × Bool) :=
  let ta := padAddr c (lAddr d w 0 j + 256 * b : Nat)
  let oa := padAddr c (lAddr d w 1 j + 8 * b : Nat)
  let fa := padAddr c (lAddr d w 2 j + 8 * b : Nat)
  let old := memNat s oa 8
  let frz := memNat s fa 8
  let mp := memPoison s oa 8 || memPoison s fa 8
  ((List.range 64).filter fun i => old.testBit i && !frz.testBit i).map fun i =>
    ((lPoff w + j * lB w + b) * 64 + i, BitVec.ofNat 32 (memNat s (ta + 4 * i) 4), mp || memPoison s (ta + 4 * i) 4)

/-- A scan in progress: its context, the candidates that its iteration has admitted, and the lowest entry that moved. -/
abbrev ScanAcc := SelCtx × Nat × Option Nat

/-- The candidates of one block offered (R138, R139). -/
def scanOffer (acc : ScanAcc) (es : List (Nat × W32 × Bool)) : ScanAcc :=
  es.foldl (fun y e =>
    let n := entryOf y.1 (e.1, e.2.1)
    (offer y.1 (e.1, e.2.1) e.2.2, y.2.1 + (if n.isSome then 1 else 0), lowest y.2.2 n)) acc

/-- A-cycles of a scan's iteration after n blocks and adm admissions (R144). -/
def scanTime (n adm : Nat) : Nat := 8 + max (ceilDiv n 2) (ceilDiv adm 16)

/-- The blocks of a scan's iteration j that have begun e a-cycles after its start: block i begins once the blocks before it have passed at
two blocks and 16 admissions an a-cycle (R144). -/
def scanIter (s : State) (c : CoreId) (d : LoopDesc) (w : W128) (j : Nat) (e : Option Nat) (x : SelCtx) : ScanAcc :=
  (List.range (lB w)).foldl (fun acc i =>
    let begun := match e with | none => true | some n => decide (8 + max (i / 2) (acc.2.1 / 16) ≤ n)
    if begun then scanOffer acc (scanBlock s c d w j i) else acc) (x, 0, none)

/-- A SCAN, whole or as far as its blocks had begun e a-cycles after its start: the state, and the a-cycles of the whole (R144). -/
def moultScan (s : State) (c : CoreId) (d : LoopDesc) (w : W128) (e : Option Nat) : State × Nat :=
  let out := (List.range (loopCount d)).foldl (fun (acc : SelCtx × Nat × Option Nat) j =>
    let whole := scanIter s c d w j none acc.1
    let t := acc.2.1 + scanTime (lB w) whole.2.1
    match e with
    | none => (whole.1, t, lowest acc.2.2 whole.2.2)
    | some n =>
      if n < acc.2.1 then (acc.1, t, acc.2.2)
      else
        let part := scanIter s c d w j (some (n - acc.2.1)) acc.1
        (part.1, t, lowest acc.2.2 part.2.2)) (ctxOf s c (lC w), 0, none)
  (writeStore (putCtx s c (lC w) out.1) c out.1 out.2.2, out.2.1)

/-- Block b of a RECOMPRESS or RESET_STATE's iteration j (R141, R143). -/
def mergeBlock (s : State) (c : CoreId) (d : LoopDesc) (w : W128) (j b : Nat) : State :=
  let ta := padAddr c (lAddr d w 0 j + 256 * b : Nat)
  let oa := padAddr c (lAddr d w 1 j + 8 * b : Nat)
  let na := padAddr c (lAddr d w 2 j + 8 * b : Nat)
  let old := memNat s oa 8
  let new := memNat s na 8
  let mp := memPoison s oa 8 || memPoison s na 8
  let fill := if opc w = 0x45 then (lFill w).toNat else 0
  let v (i : Nat) : Nat := if !new.testBit i then 0 else if old.testBit i then memNat s (ta + 4 * i) 4 else fill
  writeBytes s ta ((List.range 64).flatMap fun i => leBytes 4 (v i)) fun u => mp || unitPoison s (ta / 64 + u)

/-- A merge of at most limit blocks of its nest. -/
def moultMerge (s : State) (c : CoreId) (d : LoopDesc) (w : W128) (limit : Nat) : State :=
  let b := lB w
  (List.range (min limit (loopCount d * b))).foldl (fun s q => mergeBlock s c d w (q / b) (q % b)) s

/-- Local ranges that an MLE word writes. -/
def mleWrites (s : State) (c : CoreId) (d : LoopDesc) (w : W128) : List (Nat × Nat) :=
  let o := opc w
  if o = 0x40 then []
  else if o = 0x41 then let x := ctxOf s c (lC w); [(x.store, 8 * x.k)]
  else if o = 0x45 ∨ o = 0x46 then (List.range (loopCount d)).map fun j => (lAddr d w 0 j, 256 * lB w)
  else [(lOut w, 8 * (ctxOf s c (lCp w)).blocks), (lRec w, 16)]

/-- Former contents of what an operation writes. -/
def mleSnap (s : State) (c : CoreId) (d : LoopDesc) (w : W128) : MleUndo :=
  let units := (mleWrites s c d w).flatMap fun r =>
    if r.2 = 0 then [] else (List.range ((r.1 + r.2 - 1) / 64 + 1 - r.1 / 64)).map fun i => padBase c / 64 + r.1 / 64 + i
  ⟨units.map fun u => (u, unitBytes s u), units.map fun u => (u, tget s.poison false u),
   if opc w = 0x41 then [(lC w, ctxOf s c (lC w))] else []⟩

/-- The operation of an MLE word: state, a-cycles, and flags of its record (R139, R142, R144). -/
def mleRun (s : State) (c : CoreId) (i : Inst) : State × Nat × Nat :=
  let w := i.w
  let o := opc w
  let all := loopCount i.loop * lB w
  if o = 0x40 then (s, 4, 0)
  else if o = 0x41 then let x := moultScan s c i.loop w none; (x.1, x.2, 0)
  else if o = 0x45 ∨ o = 0x46 then (moultMerge s c i.loop w all, loopCount i.loop * (8 + ceilDiv (lB w) 2), 0)
  else
    let ks := (ctxOf s c (lCp w)).entries.length + (if lSwap w then (ctxOf s c (lCg w)).entries.length else 0)
    let x := moultApply s c i
    (x.1, 16 + ceilDiv ks 4, x.2)

/-- Byte ranges that an MLE word reads: tiles and mask planes, or its planes and the stores of its contexts (R139, R141). -/
def mleReads (s : State) (c : CoreId) (d : LoopDesc) (w : W128) : List (Nat × Nat) :=
  let o := opc w
  let at_ (a n : Nat) : Nat × Nat := (padAddr c (a : Nat), n)
  if o = 0x40 then []
  else if o = 0x41 ∨ o = 0x45 ∨ o = 0x46 then
    (List.range (loopCount d)).flatMap fun j =>
      [at_ (lAddr d w 0 j) (256 * lB w), at_ (lAddr d w 1 j) (8 * lB w), at_ (lAddr d w 2 j) (8 * lB w)]
  else
    let x := ctxOf s c (lCp w)
    let y := ctxOf s c (lCg w)
    [at_ (lIn w) (8 * x.blocks)] ++ (if o = 0x42 then [] else [at_ (lFrz w) (8 * x.blocks)]) ++
      [at_ x.store (8 * x.entries.length)] ++ (if lSwap w then [at_ y.store (8 * y.entries.length)] else [])

/-- A moult instruction begins at a-cycle t. -/
def beginMle (s : State) (c : CoreId) (i : Inst) (t : Nat) : State × Inst :=
  let s := touchAll s (mleReads s c i.loop i.w)
  let k := getCore s c
  let s1 := putCore s c { k with undo := mleSnap s c i.loop i.w }
  let r := mleRun s1 c i
  (r.1, { i with begun := true, start := t, doneAt := t + r.2.1, prog := .mle r.2.2, finished := true })

/-- The retirement of a SCAN, or of an MXE.ALT that samples, tags again the areas that it wrote of its poisoned contexts (R138). -/
def retagStores (s : State) (c : CoreId) (i : Inst) : State :=
  match i.prog with
  | .mle _ => if opc i.w = 0x41 then tagStore s c (ctxOf s c (lC i.w)) else s
  | .mxe r => r.sel.foldl (fun s e => let x := ctxOf s c e.1; if x.armed && !x.prune && x.store == e.2 then tagStore s c x else s) s
  | _ => s

/-- A moult instruction completes: SELECT arms its context (R138), a refused apply is logged and counted, one that fell short counted (R142,
R143). -/
def retireMle (s : State) (c : CoreId) (i : Inst) (flags : Nat) : State :=
  if opc i.w = 0x40 then putCtx s c (bits i.w 114 113) (selCtx i.w)
  else if flags = 1 then
    rbump (logEng s c (engIdx .mle) (stCode .moultPoison) clsTask i.bank i.idx 0) (.eng c .mle .stat) 31 16 1
  else if flags = 2 then rbump s (.eng c .mle .stat) 47 32 1
  else s

/-- Blocks that an executing merge has completed by an abort e a-cycles after its start (R144). -/
def mleDone (w : W128) (e n : Nat) : Nat :=
  let b := lB w
  let one := 8 + ceilDiv b 2
  min (n * b) (e / one * b + (if e % one < 8 then 0 else min b (2 * (e % one - 8 + 1))))

/-- The abort of an executing moult instruction (R144, R173): later blocks keep their former contents, a scan sets POISON. -/
def abortMle (s : State) (c : CoreId) (i : Inst) : State :=
  if opc i.w = 0x40 then s
  else
    let u := (getCore s c).undo
    let e := s.now - i.start
    let s := u.cells.foldl (fun s x => { s with mem := twrite s.mem memDefault (64 * x.1) x.2 }) s
    let s := u.tags.foldl (fun s x => setPoison s x.1 x.2) s
    let s := u.ctxs.foldl (fun s x => putCtx s c x.1 x.2) s
    let n := loopCount i.loop
    let o := opc i.w
    if o = 0x41 then
      let s := (moultScan s c i.loop i.w (some e)).1
      let x := ctxOf s c (lC i.w)
      putCtx s c (lC i.w) { x with poison := true }
    else if o = 0x45 ∨ o = 0x46 then moultMerge s c i.loop i.w (mleDone i.w e n)
    else s

end Sys2Proof.Machine
end

