-- ==== Sys2Proof/Machine/Engine.lean ====
section
/-!
DEFINITION. The engines as executors: fetch and queue (R152, R153), the checks at dispatch (R171), skips (R172), claims and the start
of execution (R150, R161 to R165), drains and aborts (R174 to R178), retirement (R149).
-/

namespace Sys2Proof.Machine

/-! Fetch and queue. -/

/-- Key of an instruction word in an engine's memory: bank and index. -/
def imKey (bank : Bool) (idx : Nat) : Nat := (if bank then 2048 else 0) + idx % 2048

/-- The word at an index of the active bank, as the queue takes it (R152). -/
def fetchWord (g : Engine) (idx : Nat) : QWord := ⟨tget g.imem 0 (imKey g.bank idx), tget g.ubad false (imKey g.bank idx)⟩

/-- Room for fetches: 16 entries (R153); one instruction during a STEP, and none once that is dispatched (R177). -/
def fetchRoom (g : Engine) : Nat :=
  if g.step = .off then 16 - g.queue.length else match g.wait with | .claim _ => 0 | _ => 1 - g.queue.length

/-- The fetches of the a-cycles up to t (R153): one word each, while the engine runs and the queue has room, wrapping past 2,047. They go
on while a BANKSW waits, which discards the queue at its end (R156). -/
def catchUp (g : Engine) (t : Nat) : Engine :=
  let n := if g.mode = .running then min (t - g.fetchAt) (fetchRoom g) else 0
  { g with queue := g.queue ++ (List.range n).map (fun i => fetchWord g (g.pc.toNat + g.queue.length + i)), fetchAt := max g.fetchAt t }

/-- Does an instruction of the engine run in the core, dispatched and not retired? -/
def anyInst (k : Core) (e : EngId) : Bool := k.insts.any fun i => i.eng == e

/-- Does a word claim regions: its entry names some, or it is an ENG.LDLOAD, which names one itself (R160, R162)? -/
def claimsWord (g : Engine) (w : W128) : Bool :=
  opc w == 0x04 || (decide (0x20 ≤ opc w) && match ldEntry g (ldOf w) with | some d => d.rd != 0 || d.wr != 0 | none => false)

/-- The a-cycle of a dispatch that could be made at t: one later where a later engine of the order MXE, VXE, SXE, DXE, MLE has claimed at t,
so that the claims of one a-cycle stand in that order (R162; DESIGN CHOICE, log 91). -/
def claimSlot (k : Core) (e : EngId) (g : Engine) (t : Nat) (q : QWord) : Nat :=
  if k.claimAt = t ∧ engIdx e < k.claimEng ∧ claimsWord g q.w then t + 1 else t

/-- The first a-cycle in which a stream can accept a task after its last refusal or abort (R263, R272). -/
def streamFrom (k : Core) (st : Nat) : Nat := max (tget k.sfree 0 st) (tget k.sabort 0 st)

/-- The a-cycle of the dispatch of a word that could be dispatched at t: a DXE.ISSUE waits for its stream (R150, R247). -/
def dispatchSlot (k : Core) (e : EngId) (g : Engine) (t : Nat) (q : QWord) : Nat :=
  claimSlot k e g (if e = .dxe ∧ opc q.w = 0x40 then max t (streamFrom k (dxStream q.w)) else t) q

/-- The head of an engine's queue at its next dispatch: the a-cycle, the word, and the engine with its fetches made. None while the
engine is not RUNNING or dispatch is held by a wait (R169). A FILL, DRAIN, SEM.ADD or SEM.SUB of the MLE holds nothing: the next word follows
it by 1 a-cycle (R218; DESIGN CHOICE, log 128). -/
def headOf (s : State) (c : CoreId) (e : EngId) : Option (Nat × QWord × Engine) :=
  let k := getCore s c
  let g := engGet k e
  let open_ := match g.wait with | .none | .entry => true | _ => false
  if g.mode ≠ .running ∨ g.closing.isSome ∨ !open_ ∨ g.step = .begun ∨ (e = .mle ∧ anyInst k e) then none
  else
    let t := max s.now g.nextAt
    let g1 := catchUp g t
    match g1.queue with
    | w :: _ => some (dispatchSlot k e g1 t w, w, g1)
    | [] =>
      let g2 := catchUp g1 (t + 1)
      match g2.queue with
      | w :: _ => some (dispatchSlot k e g2 (t + 1) w, w, g2)
      | [] => none

/-- The engine with its head popped, the PC moved on, and the first a-cycle of the next dispatch. -/
def popHead (g : Engine) (next : Nat) : Engine := { g with queue := g.queue.drop 1, pc := g.pc + 1, nextAt := next, wait := .none }

/-- The engine after a jump dispatched or satisfied at t: only instructions from the target onward, the first dispatched n a-cycles
later (R154). -/
def jumpTo (g : Engine) (target : BitVec 11) (t n : Nat) : Engine :=
  { g with queue := [], pc := target, nextAt := t + n, fetchAt := t + n - 1, wait := .none }

/-- A STEP whose instruction begins (R177): DRAINING until it retires. -/
def stepBegun (g : Engine) : Engine := if g.step = .armed then { g with step := .begun, mode := .draining } else g

/-! Checks at dispatch (R171). -/

/-- The rules of the full/empty layout (R196). -/
def feConsistent (e : EngId) (w : W128) : Bool :=
  let o := opc w
  let xrOk := if e = .sxe ∧ (o = 0x08 ∨ o = 0x09 ∨ o = 0x0A) then true else !feXr w
  xrOk && (feXr w || feXreg w == 0) && feAddr w % 8 == 0 && (!feLocal w || feAddr w / 0x400000 == 0) &&
    ((o == 0x08 && !feXr w) || feImm w == 0)

/-- Is the opcode a full/empty operation? -/
def isFe (o : Nat) : Bool := o == 0x02 || (decide (0x08 ≤ o) && decide (o ≤ 0x0B))

/-- Checks 3 and 5 of a common operation (R194, R196, R198). -/
def commonCheck (e : EngId) (w : W128) : Option Status :=
  let o := opc w
  if ldOf w ≠ 0 then some .inconsistent
  else if isFe o then (if feConsistent e w then none else some .inconsistent)
  else if o = 0x04 then
    if lddFirst w + lddCount w > 32 then some .inconsistent
    else if rangeOk (BitVec.ofNat 64 (2 ^ lddRegion w)) (lddSrc w) (lddSrc w + 128 * lddCount w : Nat) then none
    else some .region
  else none

/-- Checks 3 to 5 of an engine's own operation. -/
def engineCheck (s : State) (c : CoreId) (e : EngId) (t : Nat) (d : LoopDesc) (w : W128) : Option Status :=
  match e with
  | .mxe => if !mxeConsistent s c d w then some .inconsistent else if mxeRegion s c d w then none else some .region
  | .vxe => if !vxeConsistent d w then some .inconsistent else if vxeRegion d w then none else some .region
  | .sxe => if !sxeConsistent d w then some .inconsistent else sxeAddrCheck (getCore s c) t d w
  | .dxe =>
    if !dxeConsistent s c d w then some .inconsistent
    else if !dxeAligned d then some .align
    else if dxeRegion d w then none else some .region
  | .mle => if !mleConsistent s c d w then some .inconsistent else if mleRegion s c d w then none else some .region

/-- What the checks at dispatch decide. -/
inductive Verdict where
  /-- the instruction goes on, with its loop descriptor -/
  | pass (d : LoopDesc)
  /-- it is skipped (R172) -/
  | skip (why : Status)
  /-- its engine aborts: a marked word (R152), a poisoned register (R497), a word out of reach (R226) -/
  | abort (why : Status)
deriving DecidableEq, Repr

/-- Is a device address a full/empty word that the core may reach (R226, R408)? -/
def syncTarget (s : State) (c : CoreId) (a : Nat) : Option Status :=
  match placeOf a with
  | .pad o _ => if o = c then none else if coreSlice s o == coreSlice s c && (coreSlice s c).isSome then none else some .protection
  | .stack n off =>
    if !(sectSlice s n == coreSlice s c && (coreSlice s c).isSome) then some .protection
    else if inWindow s n off then none else some .syncTarget
  | _ => some .syncTarget

/-- The checks of R171 in their order, for the word at the head at a-cycle t. -/
def checkWord (s : State) (c : CoreId) (e : EngId) (t : Nat) (q : QWord) : Verdict :=
  let k := getCore s c
  let w := q.w
  let o := opc w
  if q.bad then .abort .imemUncorrectable
  else if !(opDefined e o && fieldsOk e w) then .skip .illegalOpcode
  else
    match ldEntry (engGet k e) (ldOf w) with
    | none => .skip .loopDesc
    | some d =>
      if o < 0x20 then
        match commonCheck e w with
        | some f => .skip f
        | none =>
          if isFe o then
            if o = 0x08 ∧ feXr w ∧ (xregAt k t 0 (feXreg w)).p then .abort .regPoison
            else if feLocal w then .pass d
            else match syncTarget s c (feAddr w) with | some f => .abort f | none => .pass d
          else if o = 0x04 then .pass { d with rd := BitVec.ofNat 64 (2 ^ lddRegion w) }
          else .pass d
      else if e = .sxe ∧ sxeConsistent d w ∧ sxePoisoned k t w then .abort .regPoison
      else match engineCheck s c e t d w with | some f => .skip f | none => .pass d

/-- Is the head held at dispatch by an entry being loaded (R160), an executing MXE instruction of an overlapping range, a stream that is
disabled or occupied (R150, R247), or a table load that has not written its slot (R131, R209)? -/
def heldAtDispatch (s : State) (c : CoreId) (e : EngId) (w : W128) : Bool :=
  let k := getCore s c
  let own := opDefined e (opc w) && fieldsOk e w && decide (0x20 ≤ opc w)
  ldLoading (engGet k e) (ldOf w) || sectRekeys s (coreSect c) ||
    (match e with
     | .mxe => own && k.insts.any fun i => i.eng == .mxe && decide (0x20 ≤ opc i.w) && arraysMeet i.w w
     | .dxe => own && (!bit k.sen (dxStream w) || (taskOf s c (dxStream w)).isSome ||
         k.insts.any fun i => match i.prog with | .dxe _ => !i.finished && dxStream i.w == dxStream w | _ => false)
     | .vxe => k.insts.any fun i => i.begun && !i.finished && (match i.prog with | .tload .. => true | _ => false)
     | _ => false)

/-! Beginning and settling. -/

/-- Claims held on a core's scoreboard (R162, R186). -/
def heldClaims (k : Core) : Nat := (k.insts.filter Inst.claims).length

/-- Does an earlier claim conflict with a later one (R163)? -/
def conflict (a b : Inst) : Bool := a.wr &&& (b.rd ||| b.wr) != 0 || a.rd &&& b.wr != 0

/-- May an instruction begin: no earlier unreleased claim conflicts (R163)? -/
def mayBegin (k : Core) (i : Inst) : Bool := !i.claims || !k.insts.any fun j => j.claims && decide (j.id < i.id) && conflict j i

/-- Events on their way that report late reads. -/
def lateEvents (s : State) : Nat := (s.log.inFlight.filter fun x => x.cause == stCode .lateRead).length

/-- The source entries of an ENG.LDLOAD that begins at t: entry n is written at t + 5 + n, whole, with its poison (R160, R198). -/
def loadWrites (s : State) (c : CoreId) (w : W128) (t q : Nat) : List LdWrite :=
  (List.range (lddCount w)).map fun n =>
    let a := padAddr c (lddSrc w + 128 * n : Nat)
    ⟨lddFirst w + n, memBytes s a 128, memPoison s a 128, t + (5 + n) * q⟩

/-- One entry written to a loop-descriptor file; entry 0 ignores it (R158, R160). -/
def putLd (g : Engine) (x : LdWrite) : Engine :=
  if x.entry = 0 then g
  else { g with ldf := twrite g.ldf 0 (128 * x.entry) x.bytes, ldPoison := tset g.ldPoison none x.entry (if x.p then some 0 else none) }

/-- A pending entry write takes its place among the others by the a-cycle in which it is made. -/
def ldInsert (q : List LdWrite) (x : LdWrite) : List LdWrite :=
  (q.filter fun y => decide (y.due ≤ x.due)) ++ x :: q.filter fun y => decide (x.due < y.due)

/-- The entry writes due by a-cycle t are made; what falls on entry 0 is logged (R158, R160, R198). -/
def finishLoad (s : State) (c : CoreId) (e : EngId) (t : Nat) : State :=
  let g := getEng s c e
  let due := g.ldq.filter fun x => decide (x.due ≤ t)
  let s := putEng s c e { due.foldl putLd g with ldq := g.ldq.filter fun x => decide (t < x.due) }
  if due.any fun x => x.entry == 0 then logEng s c (engIdx e) ntGeneral clsNone g.bank g.pc (coreBase c + engIdx e * 0x1000) else s

/-- The first effects of an instruction that begins at a-cycle t, the first a-cycle of its engine's next dispatch, and the target of a
taken branch (R149, R159, R163). -/
def beginWork (s : State) (c : CoreId) (i : Inst) (t : Nat) : State × Nat × Option (BitVec 11) :=
  let q := slotLen s c i.eng
  if opc i.w = 0x04 then
    let s := touchRange s (padAddr c (lddSrc i.w)) (128 * lddCount i.w)
    let s := putEng s c i.eng { getEng s c i.eng with ldq := (loadWrites s c i.w t q).foldl ldInsert (getEng s c i.eng).ldq }
    (putInst s c { i with begun := true, start := t, doneAt := t + (4 + lddCount i.w) * q, prog := .ldload, finished := true }, t + q, none)
  else
    match i.eng with
    | .mxe => let s := touchAll s [mxeDesc c i 0]; (putInst s c (beginMxe s c i t), t + 1, none)
    | .vxe => let x := beginVxe s c i t; (putInst x.1 c x.2.1, x.2.2, none)
    | .sxe => let x := beginSxe s c i t; (putInst x.1 c x.2.1, x.2.2.1, x.2.2.2)
    | .dxe => (putInst s c { i with begun := true, start := t, doneAt := t, prog := .dxe 0 }, t + 1, none)
    | .mle => let x := beginMle s c i t; (putInst x.1 c x.2, x.2.doneAt, none)

/-- The engine after instruction id has begun at t: no longer held by its claim, the next dispatch no earlier than next, a jump taken, a
STEP begun. -/
def begunEng (g : Engine) (id next t q : Nat) (jump : Option (BitVec 11)) : Engine :=
  let g := { g with wait := (if g.wait = .claim id then .none else g.wait), nextAt := max g.nextAt next }
  stepBegun (match jump with | some x => jumpTo g x t (3 * q) | none => g)

/-- Under LATCHECK HALT an engine that has read a late register drains, its fetches up to then made (R170). -/
def lateHalt (s : State) (c : CoreId) (e : EngId) (late : Nat) (g : Engine) : Engine :=
  if latcheck s c e = 2 ∧ late < lateEvents s ∧ g.mode = .running then { catchUp g s.now with mode := .draining } else g

/-- A branch leaves no record once it has begun. -/
def dropBranch (s : State) (c : CoreId) (i : Inst) : State :=
  if i.eng = .sxe ∧ sxeBranch (opc i.w) then
    let k := getCore s c
    putCore s c { k with insts := k.insts.filter fun x => x.id != i.id }
  else s

/-- An instruction begins execution at a-cycle t (R149, R159, R163): its first effects, the engine's next dispatch, a taken branch,
the drain of LATCHECK HALT (R170). -/
def beginInst (s : State) (c : CoreId) (i : Inst) (t : Nat) : State :=
  let r := beginWork s c i t
  let g := lateHalt r.1 c i.eng (lateEvents s) (begunEng (getEng r.1 c i.eng) i.id r.2.1 t (slotLen s c i.eng) r.2.2)
  dropBranch (putEng r.1 c i.eng g) c i

/-- Every instruction that may begin does so, in claim order (R163). -/
def startReady (s : State) (c : CoreId) : State :=
  ((getCore s c).insts.map Inst.id).foldl (fun s id =>
    match instOf s c id with
    | some i => if !i.begun && mayBegin (getCore s c) i then beginInst s c i s.now else s
    | none => s) s

/-- May a stream accept a task (R247)? -/
def streamFree (s : State) (c : CoreId) (st : Nat) : Bool := bit (getCore s c).sen st && (taskOf s c st).isNone

/-- The iterations of a DXE.ISSUE that its stream accepts now (R214). -/
def pump (c : CoreId) (id : Nat) : Nat → State → State
  | 0, s => s
  | n + 1, s =>
    match instOf s c id with
    | some i =>
      match i.prog with
      | .dxe j =>
        let all := loopCount i.loop
        if i.begun && !i.finished && streamFree s c (dxStream i.w) then
          let t := max s.now (streamFrom (getCore s c) (dxStream i.w))
          let s := issueTask s c i j t
          pump c id n (putInst s c { i with prog := .dxe (j + 1), finished := decide (all ≤ j + 1), doneAt := t })
        else s
      | _ => s
    | none => s

/-- Every DXE.ISSUE of a core pumped, in order. -/
def pumpAll (s : State) (c : CoreId) : State :=
  (getCore s c).insts.foldl (fun s i => match i.prog with | .dxe _ => pump c i.id (loopCount i.loop) s | _ => s) s

/-- Has the abort of a stream not yet reached its cancel boundary (R272, R275)? -/
def streamAborting (s : State) (c : CoreId) (st : Nat) : Bool := decide (s.now < tget (getCore s c).sabort 0 st)

/-- Is the full/empty operation of engine e? -/
def feOfEng (c : CoreId) (e : EngId) (x : FeOp) : Bool := x.src == .eng c e

/-- Does nothing dispatched remain in an engine (R174)? -/
def quiet (s : State) (c : CoreId) (e : EngId) : Bool :=
  let k := getCore s c
  !anyInst k e && !s.feOps.any (feOfEng c e) && !k.semOps.any (fun x => x.eng == e) && (engGet k e).closing.isNone &&
    (e != .dxe || (List.range 32).all fun st => (taskOf s c st).isNone && !streamAborting s c st)

/-- The end of a drain or abort that has nothing left to wait for (R174, R175). -/
def settleEngine (s : State) (c : CoreId) (e : EngId) : State :=
  let g := getEng s c e
  match g.mode with
  | .draining => if quiet s c e then putEng s c e { g with mode := .halted, step := .off } else s
  | .aborting =>
    if anyInst (getCore s c) e || (e == .dxe && (List.range 32).any fun st => streamAborting s c st) then s
    else
      let s := putEng s c e { g with mode := .halted, step := .off, abort := none }
      match g.abort with
      | some a => logEng s c (engIdx e) a.cause a.cls a.bank a.idx 0
      | none => s
  | _ => s

/-- What follows at once from a change in a core: claims that may begin, iterations that streams accept, drains and aborts that end. -/
def settleCore (s : State) (c : CoreId) : State :=
  let s := pumpAll (startReady s c) c
  allEng.foldl (fun s e => settleEngine s c e) s

/-! Stopping an engine. -/

/-- Has a remote operation left its engine: a FILL, once every earlier instruction of the engine has retired, local operations and
semaphore operations among them (R229)? -/
def feLeaves (s : State) (op : FeOp) : Bool :=
  match op.src, op.kind with
  | .eng c e, .fill =>
    !(getCore s c).insts.any (fun i => i.eng == e && decide (i.id < op.after)) &&
      !s.feOps.any (fun y => y.src == op.src && y.isLocal && decide (y.id < op.id)) &&
      !(getCore s c).semOps.any fun y => y.eng == e && decide (y.id < op.id)
  | _, _ => true

/-- Does an operation of an aborted engine go on: a remote FILL or DRAIN that has left it (R231)? -/
def feGone (s : State) (op : FeOp) : Bool := !op.isLocal && (op.kind == .fill || op.kind == .drain) && feLeaves s op

/-- The waiting full/empty or semaphore operation withdrawn from its word or counter, unless a remote word has satisfied it (R174). -/
def withdrawWait (s : State) (c : CoreId) (e : EngId) : State :=
  let g := getEng s c e
  match g.wait with
  | .sync op _ _ =>
    if s.feOps.any fun x => x.id == op && x.got.isSome then s
    else
      let s := { s with feOps := s.feOps.filter fun x => x.id != op }
      let k := getCore s c
      let k := { k with semOps := k.semOps.filter fun x => !(x.id == op && x.eng == e) }
      putCore s c (engPut k e { g with wait := .none })
  | .entry => putEng s c e { g with wait := .none }
  | _ => s

/-- An engine drains (R174). A STEP whose instruction has claimed and not begun ends; the instruction keeps its claim and executes (R174, R177;
DESIGN CHOICE, log 127). -/
def drainEngine (s : State) (c : CoreId) (e : EngId) : State :=
  let s := withdrawWait s c e
  let g := getEng s c e
  settleCore (putEng s c e { catchUp g s.now with mode := .draining, step := (if g.step = .armed then .off else g.step) }) c

/-- Index of the oldest instruction cancelled or discarded by an abort, in the order of dispatch: operations on words and counters stand by their
numbers between the instructions (R175). Where an older one is cancelled with a BANKSW that waits, that one (DESIGN CHOICE, log 115). -/
def oldestIdx (s : State) (c : CoreId) (e : EngId) : BitVec 11 :=
  let k := getCore s c
  let a := (k.insts.filter fun i => i.eng == e).map fun i => (2 * i.id + 1, 0, i.idx)
  let b := (s.feOps.filter fun x => feOfEng c e x && !feGone s x).map fun x => (2 * x.after, x.id, x.idx)
  let d := (k.semOps.filter fun x => x.eng == e).map fun x => (2 * x.after, x.id, x.idx)
  let g := engGet k e
  match (a ++ b ++ d).foldl (fun (m : Option (Nat × Nat × BitVec 11)) x =>
      match m with | none => some x | some y => if x.1 < y.1 ∨ (x.1 = y.1 ∧ x.2.1 < y.2.1) then some x else some y) none with
  | some x => x.2.2
  | none => if g.closing.isSome then g.pc - 1 else g.pc

/-- An IMCOPY's words from j on, written to its bank (R213). -/
def putWords (g : Engine) (bank : Bool) (dst : Nat) (ws : List W128) : Engine :=
  { g with imem := twrite g.imem 0 (imKey bank dst) ws, ubad := tclear g.ubad (imKey bank dst) ws.length }

/-- The first n bytes of iteration j of a VXE.TLOAD stand in its slot. -/
def slotPart (s : State) (c : CoreId) (i : Inst) (slot j n : Nat) : State :=
  let a := padAddr c ((vBase i.w : Int) + loopOff i.loop 0 j)
  let k := getCore s c
  let old := tget k.slots slotReset slot
  let bs := memBytes s a n
  let p := memPoison s a n || (decide (n < 4160) && tget k.slotP false slot)
  putCore s c { k with slots := tset k.slots slotReset slot (bs ++ old.drop n), slotP := tset k.slotP false slot p }

/-- Bytes of a VXE.TLOAD that stand in its slot x a-cycles after its start: whole iterations, then 128 bytes per a-cycle (R209). -/
def partTload (s : State) (c : CoreId) (i : Inst) (slot x : Nat) : State :=
  let whole := min (x / 33) (loopCount i.loop)
  let s := if whole = 0 then s else slotPart s c i slot (whole - 1) 4160
  if whole < loopCount i.loop ∧ x % 33 ≠ 0 then slotPart s c i slot whole (min 4160 (128 * (x % 33))) else s

/-- Scratchpad stores that have been issued by now take effect (R176, R209). -/
def landStores (s : State) (c : CoreId) (xs : List PadStore) : State :=
  xs.foldl (fun s x => writeBytes s (padAddr c x.off) x.bytes fun u => nthD x.p u false) s

/-- The writes that an SXE.IMCOPY still owes the bank that a BANKSW of its own engine waits for: they take effect though the engine aborts
(R156). -/
def keepAccepted (s : State) (c : CoreId) (e : EngId) : State :=
  let g := getEng s c e
  if g.closing.isNone then s
  else (getCore s c).insts.foldl (fun s i =>
    match i.prog with
    | .imcopy te b dst ws _ =>
      if i.eng == e && i.begun && !i.finished && te == e && b == !g.bank then putEng s c e (putWords (getEng s c e) b dst ws) else s
    | _ => s) s

/-- A scalar result that will not land. -/
def dropX (s : State) (c : CoreId) (n : Nat) : State :=
  let k := getCore s c
  putCore s c { k with xres := k.xres.filter fun x => x.seq != n }

/-- The abort of one executing instruction but those of the MXE (R173, R176). -/
def cancelInst (s : State) (c : CoreId) (i : Inst) (why : Nat) : State :=
  let e := i.eng
  let q := slotLen s c e
  let s : State :=
    match i.prog with
    | .ldload => finishLoad s c e s.now
    | .imcopy te bank dst ws n =>
      let s := if i.finished then s else dropX s c n
      putEng s c te (putWords (getEng s c te) bank dst (ws.take (4 * ((s.now - i.start) / q))))
    | .tload slot _ _ => partTload s c i slot ((s.now - i.start) / q)
    | .mle _ => abortMle s c i
    | _ => s
  abortInst s c i why clsNone

/-- Results and stores of the VXE or SXE that had not been issued by now are dropped; stores issued take effect at once (R176). -/
def cutFlight (s : State) (c : CoreId) (e : EngId) : State :=
  let k := getCore s c
  let mine (x : PadStore) : Bool := x.eng == e
  let s := landStores s c (k.stores.filter fun x => mine x && decide (x.iss ≤ s.now))
  let k := getCore s c
  let k := { k with stores := k.stores.filter fun x => !mine x }
  putCore s c (match e with
    | .vxe => { k with vres := k.vres.filter fun x => decide (x.iss ≤ s.now) }
    | .sxe => { k with xres := k.xres.filter fun x => decide (x.iss ≤ s.now) }
    | _ => k)

/-- Instructions that hand off to the streams of a core's DXE abort with them; their streams met no fault of their own (R102, R452). -/
def stopHandoffs (s : State) (c : CoreId) : State :=
  (List.range 32).foldl (fun s st => if (handTask s c st).isSome then mxeStreamStop s c st clsNone else s) s

/-- Steps 1 to 5 of an engine's abort (R175, R176), with the cause and class of its event and, for a marked word, that word's bank and
index. -/
def beginAbort (s : State) (c : CoreId) (e : EngId) (cause : Status) (cls : Nat) (at_ : Option (Bool × BitVec 11)) : State :=
  let g := getEng s c e
  if g.mode = .aborting then s
  else
    let pc := oldestIdx s c e
    let s := keepAccepted s c e
    let g := getEng s c e
    let ev := match at_ with | some x => x | none => (g.bank, pc)
    let s := putEng s c e { g with mode := .aborting, step := .off, queue := [], pc := pc, closing := none, wait := .none,
                                   fetchAt := s.now, nextAt := s.now, abort := some ⟨stCode cause, cls, ev.1, ev.2⟩ }
    let s := { s with feOps := s.feOps.filter fun x => !feOfEng c e x || feGone s x }
    let k := getCore s c
    let s := putCore s c { k with semOps := k.semOps.filter fun x => x.eng != e,
                                  insts := k.insts.filter fun i => !(i.eng == e && !i.begun) }
    let s := cutFlight s c e
    let s := if e = .dxe then stopTasks (stopHandoffs s c) c else s
    let s := (getCore s c).insts.foldl (fun s i =>
      match i.prog with
      | .mxe _ => if i.eng == e && i.finished then cancelInst s c i (stCode cause) else s
      | _ => if i.eng == e then cancelInst s c i (stCode cause) else s) s
    let s := if e = .mxe then mxeStop s c cause else s
    putEng s c e { getEng s c e with ldq := [] }

/-- An engine aborts: its claims are released, and what waits for them begins (R175). -/
def abortEngine (s : State) (c : CoreId) (e : EngId) (cause : Status) (cls : Nat) (at_ : Option (Bool × BitVec 11)) : State :=
  if (getEng s c e).mode = .aborting then s else settleCore (beginAbort s c e cause cls at_) c

/-- An engine aborts for a cause that the device finds: slice fatal (R453). -/
def faultEngine (s : State) (c : CoreId) (e : EngId) (cause : Status) (at_ : Option (Bool × BitVec 11)) : State :=
  abortEngine s c e cause clsSlice at_

/-! Dispatch. -/

/-- The head skipped at t (R172). -/
def skipHead (s : State) (c : CoreId) (e : EngId) (t : Nat) (why : Status) : State :=
  let g := getEng s c e
  let s := rbump s (.eng c e .stat) 63 48 1
  let s := logEng s c (engIdx e) (stCode why) clsNone g.bank g.pc 0
  settleCore (putEng s c e (stepBegun (popHead g (t + slotLen s c e)))) c

/-- What the head of an engine's queue does at its dispatch, when its opcode is o: held (none), skipped or aborted as the checks
say, or passed on with its a-cycle, word and loop descriptor. Time moves to the dispatch. -/
def atHead (s : State) (c : CoreId) (e : EngId) (o : Nat) (go : State → Nat → W128 → LoopDesc → State) : State :=
  match headOf s c e with
  | none => s
  | some (t, q, g) =>
    if q.bad || opc q.w != o || heldAtDispatch s c e q.w then s
    else
      let s := advance (putEng s c e g) t
      match checkWord s c e t q with
      | .skip why => skipHead s c e t why
      | .abort why => faultEngine s c e why none
      | .pass d => go s t q.w d

/-- Dispatch of an instruction that keeps a record until it retires (R162, R164): its claim entry, its record, its start. -/
def dispatchInst (c : CoreId) (e : EngId) (s : State) (t : Nat) (w : W128) (d : LoopDesc) : State :=
  let k := getCore s c
  let g := engGet k e
  let claims := d.rd != 0 || d.wr != 0
  if claims && decide (64 ≤ heldClaims k) then
    if g.wait = .entry then s else putEng (rbump s (.sbStat c) 63 48 1) c e { g with wait := .entry }
  else
    let i : Inst := ⟨k.nextInst, e, w, g.bank, g.pc, d, d.rd, d.wr, claims, (List.range 8).map fun p => sxeAddr k t w p, false, t, t, .plain, false⟩
    let u := if e = .sxe then lateReads s c e i (sxeLateBase k t w) else s
    let g := lateHalt u c e (lateEvents s) { popHead g (t + slotLen s c e) with wait := .claim i.id }
    let k := { k with insts := k.insts ++ [i], nextInst := k.nextInst + 1,
                      claimAt := (if claims then t else k.claimAt), claimEng := (if claims then engIdx e else k.claimEng) }
    settleCore (putCore u c (engPut k e g)) c

/-- The row of an engine's own opcode. -/
def runOp (s : State) (c : CoreId) (e : EngId) (o : Nat) : State := atHead s c e o (dispatchInst c e)

end Sys2Proof.Machine
end

