-- ==== Sys2Proof/Machine/Sync.lean ====
section
/-!
DEFINITION. Full/empty words and counting semaphores (R219 to R243): dispatch of the operations, their arrival at a word or counter,
waiters, overflow, poison, timeouts.
-/

namespace Sys2Proof.Machine

/-! Full/empty state (R219). -/

/-- Where the full/empty state of an address is held. -/
inductive FeCell where
  | unit (c : CoreId) (u : Nat)
  | line (n : N20) (w : Nat)
  | nowhere
deriving DecidableEq, Repr

/-- The cell of an address: the bit of a scratchpad unit, or of a word of an enabled sync line (R219, R227). -/
def feCell (s : State) (a : Nat) : FeCell :=
  match placeOf a with
  | .pad c _ => .unit c (a / 64)
  | .stack n off => if inWindow s n off then .line n (a / 8) else .nowhere
  | _ => .nowhere

/-- Is a cell full? -/
def feFull (s : State) : FeCell → Bool
  | .unit _ u => tget s.feb false u
  | .line _ w => (tget s.syncw ⟨0, false⟩ w).full
  | .nowhere => false

/-- A cell set full or empty. -/
def feSet (s : State) (x : FeCell) (b : Bool) : State :=
  match x with
  | .unit _ u => { s with feb := tset s.feb false u b }
  | .line _ w => { s with syncw := tset s.syncw ⟨0, false⟩ w ⟨(tget s.syncw ⟨0, false⟩ w).v, b⟩ }
  | .nowhere => s

/-- The 8 bytes of the word at an address as an operation reads them. -/
def feValue (s : State) (a : Nat) : W64 := BitVec.ofNat 64 (memNat s (a / 8 * 8) 8)

/-- Rank of a source at a word that core own holds (R222); a base-die controller ranks after the host (R310, log 24). -/
def feRank (own : Option CoreId) : FeSrc → Nat
  | .eng c e => if own = some c then engIdx e else 1000 + 8 * c.val + engIdx e
  | .stream c _ => if own = some c then engIdx .dxe else 1000 + 8 * c.val + engIdx .dxe
  | .bc n => 40000 + n.val
  | .exch _ => 20000
  | .host _ => 30000

/-- The core that holds a cell. -/
def feOwner : FeCell → Option CoreId
  | .unit c _ => some c
  | _ => none

/-- Order of kinds at one word in one a-cycle (R223). -/
def feKindRank : FeKind → Nat
  | .drain => 0 | .fill => 1 | .peek => 2 | .take => 3 | .jmpt => 3

/-! Operations without a source engine to stop: events. -/

/-- The event of an overflow (R221): the issuing engine, controller, channel or function, and the address. -/
def logOverflow (s : State) (src : FeSrc) (a : Nat) : State :=
  let sl := sliceByte (addrSlice s a)
  let cause := stCode .feOverflow
  match src with
  | .eng c e => logEv s cause clsNone sl 0 (engIdx e) c.val (mkDetail 0 a)
  | .stream c st => logEv s cause clsNone sl 0 st c.val (mkDetail 0 a)
  | .bc n => logEv s cause clsNone sl 3 0xFF n.val (mkDetail 0 a)
  | .exch ch => logEv s cause clsNone sl 5 0xFF 0 (mkDetail ch a)
  | .host f => logEv s cause clsNone sl 7 0xFF f.val (mkDetail 0 a)

/-- An overflow at a cell: counted and flagged by the owner, logged; nothing else changes (R221). -/
def feOverflow (s : State) (x : FeCell) (src : FeSrc) (a : Nat) : State :=
  match x with
  | .unit c _ => logOverflow (rsetf (rbump s (.syncStat c) 63 48 1) (.syncStat c) 1 1 1) src a
  | .line n _ => logOverflow (rsetf (rbump s (.sectSync n) 63 48 1) (.sectSync n) 0 0 1) src a
  | .nowhere => s

/-! Completion at the engine. -/

/-- The engine's waiting operation completes now with a value: XREG written with a clear flag, the jump of JMPT, the next dispatch
(R154, R196, R218, R497). -/
def feComplete (s : State) (c : CoreId) (e : EngId) (op : FeOp) (v : W64) : State :=
  let s := { s with feOps := s.feOps.filter fun x => x.id != op.id }
  let k := getCore s c
  let k := match op.xr with | some r => putX k 0 r ⟨v, false⟩ s.now s.now | none => k
  let g := engGet k e
  let q := slotLen s c e
  let g := if op.kind = .jmpt then jumpTo g (BitVec.ofNat 11 (bits v 10 0)) s.now (3 * q) else popHead g (s.now + q)
  settleCore (putCore s c (engPut k e (stepBegun g))) c

/-- Does the operation use the value it reads (R225)? -/
def feUses (op : FeOp) : Bool := op.xr.isSome || op.kind == .jmpt

/-- A PEEK, TAKE or JMPT satisfied at its full word (R220, R225, R230): a used value from a poisoned word leaves the state and stops
the engine; a TAKE or JMPT empties the word; a local operation completes, a remote one is on its way back. -/
def feSatisfy (s : State) (x : FeCell) (op : FeOp) : State :=
  let s := touchUnit s (op.addr / 64)
  let v := feValue s op.addr
  let p := feUses op && unitPoison s (op.addr / 64)
  let s := if p || op.kind == .peek then s else feSet s x false
  match op.src with
  | .eng c e =>
    if !op.isLocal then
      { s with feOps := s.feOps.map fun y => if y.id == op.id then { y with waiting := false, got := some (v, p) } else y }
    else if p then faultEngine s c e .syncPoison none
    else feComplete s c e op v
  | .bc _ => { s with feOps := s.feOps.map fun y => if y.id == op.id then { y with waiting := false, got := some (v, p) } else y }
  | .exch _ =>
    let p := unitPoison s (op.addr / 64)
    { s with feOps := s.feOps.map fun y => if y.id == op.id then { y with waiting := false, got := some (v, p) } else y }
  | _ => { s with feOps := s.feOps.filter fun y => y.id != op.id }

/-- Operations that wait on a cell. -/
def feWaiters (s : State) (x : FeCell) : List FeOp :=
  sortBy (fun y => y.since * 100000 + feRank (feOwner x) y.src) (s.feOps.filter fun y => y.waiting && feCell s y.addr == x)

/-- Is a waiting TAKE withheld: the exchange unit's, while its slice's use leaves no room (R462)? -/
def feWithheld (s : State) (y : FeOp) : Bool :=
  match y.src with
  | .exch k => (match fin? 20 (k / 256) with | some n => overShare s n | none => false)
  | _ => false

/-- The waiters of a cell that has become full: every PEEK, then the earliest TAKE or JMPT (R222, R223). -/
def feServe (s : State) (x : FeCell) : State :=
  let ws := feWaiters s x
  let s := (ws.filter fun y => y.kind == .peek).foldl (fun s y => feSatisfy s x y) s
  if !feFull s x then s
  else
    match ws.find? (fun y => (y.kind == .take || y.kind == .jmpt) && !feWithheld s y) with
    | some y => feSatisfy s x y
    | none => s

/-- A FILL reaches its word (R220, R221, R224). -/
def feFill (s : State) (src : FeSrc) (a : Nat) (v : W64) : State :=
  let x := feCell s a
  if feFull s x then feOverflow s x src a
  else
    match x with
    | .nowhere => s
    | _ =>
      let s := writeBytes s (a / 8 * 8) (leBytes 8 v.toNat) fun _ => false
      feServe (feSet s x true) x

/-- An operation withdrawn from the list of those in flight. -/
def dropFe (s : State) (id : Nat) : State := { s with feOps := s.feOps.filter fun y => y.id != id }

/-- An engine whose FILL or DRAIN has reached its word may now end its drain (R174). -/
def settleSrc (s : State) (src : FeSrc) : State :=
  match src with
  | .eng c _ => settleCore s c
  | _ => s

/-- FULL of SYNC_HOST_ADDR reports the state found (R232). -/
def hostFound (s : State) (c : CoreId) (b : Bool) : State := rsetf s (.hostAddr c) 23 23 (if b then 1 else 0)

/-- A host operation finds the state of its cell. -/
def noteFound (s : State) (x : FeCell) (src : FeSrc) : State :=
  match src, x with
  | .host _, .unit c _ => hostFound s c (feFull s x)
  | _, _ => s

/-- The event of an operation that no engine issued and whose word is not there (R226, R241): its issuer and the address. -/
def logNoWord (s : State) (src : FeSrc) (a : Nat) (why : Status) : State :=
  match src with
  | .stream c st => logEv s (stCode why) clsNone (sliceByte (coreSlice s c)) 0 st c.val (mkDetail 0 a)
  | .bc n => logEv s (stCode why) clsNone (sliceByte (sectSlice s n)) 3 0xFF n.val (mkDetail 0 a)
  | .exch ch => logEv s (stCode why) clsNone (sliceByte (fin? 20 (ch / 256))) 5 0xFF 0 (mkDetail ch a)
  | _ => s

/-- One operation applied at its word (R220). An engine whose word is no longer there aborts (R226); of another source's it is logged. -/
def feApply (s : State) (op : FeOp) : State :=
  let x := feCell s op.addr
  let s := if s.feOps.any (fun y => y.id == op.id) then noteFound s x op.src else s
  if !s.feOps.any (fun y => y.id == op.id) then s
  else if x = .nowhere then
    (match op.src with
     | .eng c e => faultEngine (dropFe s op.id) c e .syncTarget none
     | src => logNoWord (dropFe s op.id) src op.addr .syncTarget)
  else
    match op.kind with
    | .drain => settleSrc (feSet (dropFe s op.id) x false) op.src
    | .fill => settleSrc (feFill (dropFe s op.id) op.src op.addr op.val) op.src
    | _ =>
      if feFull s x then feSatisfy s x op
      else { s with feOps := s.feOps.map fun y => if y.id == op.id then { y with waiting := true, since := if op.isLocal then op.due else s.now } else y }

/-! Dispatch (R194, R196, R229). -/

/-- Kind of a full/empty opcode. -/
def feKindOf (o : Nat) : FeKind :=
  if o = 0x02 then .jmpt else if o = 0x08 then .fill else if o = 0x09 then .take else if o = 0x0A then .peek else .drain

/-- The head of an engine as a record, for the events of its reads. -/
def headInst (k : Core) (e : EngId) (w : W128) (t : Nat) : Inst :=
  let g := engGet k e
  ⟨k.nextInst, e, w, g.bank, g.pc, loopOne, 0, 0, false, [], true, t, t, .plain, true⟩

/-- Dispatch of a full/empty operation: FILL and DRAIN leave the queue, the others hold it (R222). -/
def dispatchFe (c : CoreId) (e : EngId) (s : State) (t : Nat) (w : W128) (_d : LoopDesc) : State :=
  let k := getCore s c
  let g := engGet k e
  let o := opc w
  let q := slotLen s c e
  let val : W64 := if feXr w then (xregAt k t 0 (feXreg w)).v else BitVec.ofNat 64 (feImm w)
  let a := if feLocal w then padBase c + feAddr w % 0x400000 else feAddr w
  let op : FeOp := ⟨s.nextOp, .eng c e, feKindOf o, a, feLocal w, val, if feXr w ∧ o ≠ 0x08 then some (feXreg w) else none,
    t + 2 * q, k.nextInst, g.pc, false, t, none⟩
  let late := if o = 0x08 ∧ feXr w ∧ xInFlight k t 0 (feXreg w) then 1 else 0
  let u := lateReads s c e (headInst k e w t) late
  let g := if o = 0x08 ∨ o = 0x0B then lateHalt u c e (lateEvents s) (stepBegun (popHead g (t + q))) else { g with wait := .sync op.id t false }
  settleCore { putEng u c e g with feOps := u.feOps ++ [op], nextOp := u.nextOp + 1 } c

/-- Do the operations of a source keep their order at every word, as the notifies of one channel do (R241)? -/
def feOrdered : FeSrc → Bool
  | .exch _ => true
  | _ => false

/-- Is a remote operation the earliest of its source to its word, or of its channel to any, that has not reached its word (R231, R241)? -/
def feFirst (s : State) (op : FeOp) : Bool :=
  !s.feOps.any fun y => y.src == op.src && !y.isLocal && !y.waiting && y.got.isNone && (y.addr == op.addr || feOrdered op.src) &&
    decide (y.id < op.id)

/-- The operations on their way to the word at address a. -/
def feOnWay (s : State) (a : Nat) : List FeOp :=
  let x := feCell s a
  s.feOps.filter fun y => (feCell s y.addr == x && (x != .nowhere || y.addr == a)) && !y.waiting && y.got.isNone

/-- The remote ones among them that are listed and may reach the word now. -/
def feRemote (s : State) (a : Nat) (rem : List Nat) : List FeOp :=
  (feOnWay s a).filter fun y => !y.isLocal && rem.contains y.id && feLeaves s y && feFirst s y

/-- The operations that reach the word at address a: the local ones of the earliest a-cycle when loc, and the remote ones listed. -/
def feArrivals (s : State) (a : Nat) (loc : Bool) (rem : List Nat) : List FeOp :=
  let ls := if loc then (feOnWay s a).filter FeOp.isLocal else []
  let d := ls.foldl (fun m y => min m y.due) ((ls.head?.map FeOp.due).getD 0)
  (ls.filter fun y => y.due == d) ++ feRemote s a rem

/-- The next remote operations of an engine to a word that one has reached now reach it in a later a-cycle (R231). -/
def fePush (s : State) (y : FeOp) : State :=
  if y.isLocal then s
  else { s with feOps := s.feOps.map fun x =>
    if x.src == y.src && x.addr == y.addr && !x.isLocal && !x.waiting && x.got.isNone then { x with due := max x.due (s.now + 1) } else x }

/-- Operations that reach one word in this a-cycle, applied in the order of R223. -/
def feTogether (s : State) (a : Nat) (xs : List FeOp) : State :=
  let own := feOwner (feCell s a)
  let s := (sortBy (fun y => feKindRank y.kind * 100000 + feRank own y.src) xs).foldl feApply s
  xs.foldl fePush s

/-- Full/empty operations reach one word in one a-cycle. -/
def feReach (s : State) (a : Nat) (loc : Bool) (rem : List Nat) : State :=
  let xs := feArrivals s a loc rem
  feTogether (advance s (xs.foldl (fun m y => max m y.due) 0)) a xs

/-- A host operation reaches its word now: after the local operations of earlier a-cycles, each a-cycle's in the order of R223, and after the
earlier ones of its function on their way to the word; with the local ones of this a-cycle and the remote ones listed (R223, R232). -/
def hostReach (s : State) (f : FuncId) (kind : FeKind) (a : Nat) (v : W64) (rem : List Nat) : State :=
  let op : FeOp := ⟨s.nextOp, .host f, kind, a, false, v, none, s.now, 0, 0, false, s.now, none⟩
  let own := feOwner (feCell s a)
  let ls := (feOnWay s a).filter FeOp.isLocal
  let s := (sortBy (fun y => y.due * 1000000 + feKindRank y.kind * 100000 + feRank own y.src) (ls.filter fun y => decide (y.due < s.now))).foldl
    feApply s
  let s := ((feOnWay s a).filter fun y => y.src == .host f).foldl feApply s
  let xs := (ls.filter fun y => y.due == s.now) ++ feRemote s a rem ++ [op]
  feTogether { s with feOps := s.feOps ++ [op], nextOp := s.nextOp + 1 } a xs

/-- The host FILLs held that no earlier BAR2 write of their function is still held before, and the rest (R232): fs names the functions of
the writes met. -/
def freeFills : List FuncId → List HeldAcc → List (FuncId × Nat × W64) × List HeldAcc
  | _, [] => ([], [])
  | fs, x :: r =>
    match x with
    | .fill f a v =>
      let y := freeFills fs r
      if fs.contains f then (y.1, x :: y.2) else ((f, a, v) :: y.1, y.2)
    | .write f _ _ => let y := freeFills (f :: fs) r; (y.1, x :: y.2)
    | _ => let y := freeFills fs r; (y.1, x :: y.2)

/-- A host FILL on its way to its word, which it reaches among the remote operations (R223, R232). -/
def sendFill (s : State) (f : FuncId) (a : Nat) (v : W64) : State :=
  { s with feOps := s.feOps ++ [⟨s.nextOp, .host f, .fill, a, false, v, none, s.now, 0, 0, false, s.now, none⟩], nextOp := s.nextOp + 1 }

/-- They go to their words. -/
def releaseFills (s : State) : State :=
  let x := freeFills [] s.held
  x.1.foldl (fun s y => sendFill s y.1 y.2.1 y.2.2) { s with held := x.2 }

/-- A host FILL: it takes effect only after every BAR2 write that its function posted before it (R232). -/
def hostFill (s : State) (f : FuncId) (a : Nat) (v : W64) (rem : List Nat) : State :=
  if s.held.any fun x => match x with | .write g _ _ => g == f | _ => false then { s with held := s.held ++ [.fill f a v] }
  else hostReach s f .fill a v rem

/-- The value of a satisfied remote operation arrives at its engine (R225, R230). -/
def feReturn (s : State) (c : CoreId) (e : EngId) : State :=
  match s.feOps.find? (fun y => feOfEng c e y && y.got.isSome) with
  | some op =>
    match op.got with
    | some (v, p) => if p then faultEngine s c e .syncPoison none else feComplete s c e op v
    | none => s
  | none => s

/-! Semaphores (R235 to R239). -/

/-- A counter's value; counter 4 i + j is field j of SEM_CNTi (R239). -/
def semGet (s : State) (c : CoreId) (n : Nat) : Nat := tget (getCore s c).sem 0 n
def semPut (s : State) (c : CoreId) (n v : Nat) : State :=
  let k := getCore s c
  putCore s c { k with sem := tset k.sem 0 n v }

/-- Dispatch of a semaphore operation: kind 0 add, 1 subtract, 2 wait. -/
def dispatchSem (kind : Nat) (c : CoreId) (e : EngId) (s : State) (t : Nat) (w : W128) (_d : LoopDesc) : State :=
  let k := getCore s c
  let g := engGet k e
  let q := slotLen s c e
  let op : SemOp := ⟨s.nextOp, e, kind, semCtr w, semN w, t + 2 * q, false, g.pc, k.nextInst⟩
  let g := if kind = 2 then { g with wait := .sync op.id t false } else stepBegun (popHead g (t + q))
  settleCore { putCore s c (engPut { k with semOps := k.semOps ++ [op] } e g) with nextOp := s.nextOp + 1 } c

/-- Is a counter's bank in mode WRAP: as SEM_MODE stood before this a-cycle (R238)? -/
def semWrap (s : State) (c : CoreId) (n : Nat) : Bool :=
  let k := getCore s c
  if k.modeAt = s.now then k.modeWas.testBit (n / 64) else rbit s (.semMode c) (n / 64)

/-- A saturation: its flag, the count and the event (R236). -/
def semFlag (s : State) (c : CoreId) (op : SemOp) (up : Bool) : State :=
  let s := rsetf s (.syncStat c) (if up then 2 else 3) (if up then 2 else 3) 1
  let s := rbump s (.syncStat c) 47 32 1
  logEng s c (engIdx op.eng) (stCode (if up then .semOverflow else .semUnderflow)) clsNone (getEng s c op.eng).bank op.idx op.ctr

/-- An add or subtract applied to its counter (R235, R236). -/
def semApply (s : State) (c : CoreId) (op : SemOp) : State :=
  let v : Int := (semGet s c op.ctr : Int) + (if op.kind = 0 then (op.n : Int) else -(op.n : Int))
  if semWrap s c op.ctr then semPut s c op.ctr (v % 65536).toNat
  else if v > 65535 then semFlag (semPut s c op.ctr 65535) c op true
  else if v < 0 then semFlag (semPut s c op.ctr 0) c op false
  else semPut s c op.ctr v.toNat

/-- A SEM.WAIT completes: its engine goes on (R218). -/
def semComplete (s : State) (c : CoreId) (op : SemOp) : State :=
  let k := getCore s c
  let k := { k with semOps := k.semOps.filter fun x => x.id != op.id }
  let g := popHead (engGet k op.eng) (s.now + slotLen s c op.eng)
  settleCore (putCore s c (engPut k op.eng (stepBegun g))) c

/-- The waits of a counter test its value: those it satisfies complete (R237). -/
def semServe (s : State) (c : CoreId) (n : Nat) : State :=
  ((getCore s c).semOps.filter fun x => x.waiting && x.ctr == n && decide (x.n ≤ semGet s c n)).foldl (fun s x => semComplete s c x) s

/-- Semaphore operations reach one counter in one a-cycle: adds and subtracts in engine order, then the waits, those from earlier a-cycles among
them, once (R237; DESIGN CHOICE, log 132). -/
def semReach (s : State) (c : CoreId) (n : Nat) : State :=
  let ops := (getCore s c).semOps.filter fun x => !x.waiting && x.ctr == n
  match ops with
  | [] => s
  | x :: r =>
    let d := r.foldl (fun m y => min m y.due) x.due
    let s := advance s d
    let xs := sortBy (fun y => engIdx y.eng) (ops.filter fun y => y.due == d)
    let changes := xs.filter fun y => y.kind != 2
    let s := changes.foldl (fun s y => semApply s c y) s
    let k := getCore s c
    let mark (y : SemOp) : SemOp := if xs.any (fun z => z.id == y.id) then { y with waiting := true } else y
    let k := { k with semOps := (k.semOps.filter fun y => !changes.any (fun z => z.id == y.id)).map mark }
    semServe (settleCore (putCore s c k) c) c n

/-! Timeouts (R233, R234). -/

/-- The address or counter number that the waiting operation op of an engine names. -/
def waitSubject (s : State) (c : CoreId) (op : Nat) : Nat :=
  match s.feOps.find? (fun x => x.id == op) with
  | some x => x.addr
  | none => match (getCore s c).semOps.find? (fun x => x.id == op) with | some x => x.ctr | none => 0

/-- A wait has lasted LIMIT × 1,024 a-cycles and its word has not satisfied it (R234). -/
def waitTimeout (s : State) (c : CoreId) (e : EngId) : State :=
  let g := getEng s c e
  let lim := rfld s (.eng c e .tmo) 15 0
  match g.wait with
  | .sync op start false =>
    if lim = 0 ∨ g.mode ≠ .running ∨ s.feOps.any (fun x => x.id == op && x.got.isSome) then s
    else
      let s := advance s (start + lim * 1024)
      let s := rsetf (rbump s (.syncStat c) 31 16 1) (.syncStat c) 0 0 1
      let s := logEng s c (engIdx e) (stCode .syncTimeout) clsNone g.bank g.pc (waitSubject s c op)
      if rfld s (.eng c e .tmo) 17 16 = 1 then drainEngine s c e
      else putEng s c e { getEng s c e with wait := .sync op start true }
  | _ => s

/-! Host operations (R232). -/

/-- Word offset that a value of SYNC_HOST_ADDR names, as a device address. -/
def hostWord (c : CoreId) (v : W64) : Nat := padBase c + 2 * bits v 20 0

/-- A write to SYNC_HOST_ADDR: OFFSET is stored, OP returns to 0; a misaligned OFFSET performs nothing and is logged (R232), and so is an
operation on a core whose section is in no slice (R404). While the core's slice takes no access under a new key, the write has not reached it
(R415; DEDUCED, log 123). -/
def hostOp (s : State) (c : CoreId) (v : W64) (act : State → State) : State :=
  if sectRekeys s (coreSect c) then s
  else
  let s := rsetf s (.hostAddr c) 20 0 (bits v 20 0)
  if bits v 1 0 ≠ 0 then
    logEv s (stCode .align) clsNone (sliceByte (coreSlice s c)) 0 0xFF c.val (mkDetail 0 (regOff (.hostAddr c)))
  else if (coreSlice s c).isNone then
    logEv s (stCode .protection) clsNone 0xFF 0 0xFF c.val (mkDetail 0 (regOff (.hostAddr c)))
  else act s

end Sys2Proof.Machine
end

