-- ==== Sys2Proof/Machine/CommonOps.lean ====
section
/-!
DEFINITION. The common operations of R194 at the head of an engine's queue, and the events of full/empty words and semaphores.
-/

namespace Sys2Proof.Machine

/-- What every meaning answers: a next state. -/
abbrev Out := Host.Outcome State Fault Refusal

/-- The engine of a passed head stored, with a STEP begun, and what follows settled. -/
def passHead (s : State) (c : CoreId) (e : EngId) (g : Engine) : State := settleCore (putEng s c e (stepBegun g)) c

/-- NOP: the next dispatch one a-cycle later (R194, R218). -/
def execNop (c : CoreId) (e : EngId) (s : State) : Out :=
  .next (atHead s c e 0x00 fun s t _ _ => passHead s c e (popHead (getEng s c e) (t + slotLen s c e)))

/-- JMP: TARGET in the active bank, dispatched 3 a-cycles later (R154). -/
def execJmp (c : CoreId) (e : EngId) (s : State) : Out :=
  .next (atHead s c e 0x01 fun s t w _ => passHead s c e (jumpTo (getEng s c e) (targetOf w) t (3 * slotLen s c e)))

/-- JMPT: TAKE on the word, then the jump (R154, R220). -/
def execJmpt (c : CoreId) (e : EngId) (s : State) : Out := .next (atHead s c e 0x02 (dispatchFe c e))

/-- Does a write accepted to a bank of an engine remain to take effect (R156)? Host writes take effect as they arrive. -/
def bankPending (k : Core) (e : EngId) (bank : Bool) : Bool :=
  k.insts.any fun i => match i.prog with | .imcopy te b _ _ _ => i.begun && !i.finished && te == e && b == bank | _ => false

/-- The other bank made active at a target (R156). -/
def switchBank (g : Engine) (target : BitVec 11) (next : Nat) : Engine :=
  { g with bank := !g.bank, queue := [], pc := target, closing := none, wait := .none, nextAt := next, fetchAt := next - 1 }

/-- BANKSW: the other bank closes; with no write to it outstanding it becomes active at once, else fetch goes on from the old bank until it
does (R156). -/
def execBanksw (c : CoreId) (e : EngId) (s : State) : Out :=
  .next (atHead s c e 0x03 fun s t w _ =>
    let g := getEng s c e
    let next := t + 3 * slotLen s c e
    if bankPending (getCore s c) e (!g.bank) then passHead s c e { popHead g next with closing := some (targetOf w) }
    else passHead s c e (switchBank g (targetOf w) next))

/-- BANKSW_BANK_CLOSED: the last accepted write to the closing bank has taken effect (R156). -/
def execBankswBankClosed (c : CoreId) (e : EngId) (s : State) : Out :=
  let g := getEng s c e
  .next (match g.closing with
    | some x => if bankPending (getCore s c) e (!g.bank) then s else settleCore (putEng s c e (switchBank g x (max g.nextAt (s.now + 1)))) c
    | none => s)

/-- ENG.LDLOAD (R160, R198). -/
def execEngLdload (c : CoreId) (e : EngId) (s : State) : Out := .next (runOp s c e 0x04)

/-- ENG.HALT: EN becomes 0 and the engine drains, with the PC at the next instruction (R194, R174). -/
def execEngHalt (c : CoreId) (e : EngId) (s : State) : Out :=
  .next (atHead s c e 0x05 fun s t _ _ =>
    let g := stepBegun (popHead (getEng s c e) (t + slotLen s c e))
    drainEngine (putEng s c e g) c e)

/-- FILL (R220, R229). -/
def execFill (c : CoreId) (e : EngId) (s : State) : Out := .next (atHead s c e 0x08 (dispatchFe c e))
/-- TAKE (R220). -/
def execTake (c : CoreId) (e : EngId) (s : State) : Out := .next (atHead s c e 0x09 (dispatchFe c e))
/-- PEEK (R220). -/
def execPeek (c : CoreId) (e : EngId) (s : State) : Out := .next (atHead s c e 0x0A (dispatchFe c e))
/-- DRAIN (R220). -/
def execDrain (c : CoreId) (e : EngId) (s : State) : Out := .next (atHead s c e 0x0B (dispatchFe c e))
/-- SEM.ADD (R235). -/
def execSemAdd (c : CoreId) (e : EngId) (s : State) : Out := .next (atHead s c e 0x0C (dispatchSem 0 c e))
/-- SEM.SUB (R235). -/
def execSemSub (c : CoreId) (e : EngId) (s : State) : Out := .next (atHead s c e 0x0D (dispatchSem 1 c e))
/-- SEM.WAIT (R235). -/
def execSemWait (c : CoreId) (e : EngId) (s : State) : Out := .next (atHead s c e 0x0E (dispatchSem 2 c e))

/-- FE_OP_REACH_WORD: the local operations due at the word when loc, and the remote ones named (R223). -/
def execFeOpReachWord (a : W44) (loc : Bool) (rem : List Nat) (s : State) : Out :=
  .next (if addrRekeys s a.toNat then s else feReach s a.toNat loc rem)
/-- REMOTE_VALUE_RETURN (R230). -/
def execRemoteValueReturn (c : CoreId) (e : EngId) (s : State) : Out := .next (feReturn s c e)
/-- SEM_OP_REACH_COUNTER (R237). -/
def execSemOpReachCounter (c : CoreId) (ctr : Fin 256) (s : State) : Out := .next (semReach s c ctr.val)
/-- SYNC_WAIT_TIMEOUT (R234). -/
def execSyncWaitTimeout (c : CoreId) (e : EngId) (s : State) : Out := .next (waitTimeout s c e)

end Sys2Proof.Machine
end

