-- ==== Sys2Proof/Machine/StreamOps.lean ====
section
/-!
DEFINITION. DXE.ISSUE, the ends of stream tasks and their completion records (R214, R266 to R272), and the retirement of instructions
(R149, R162, R171, R172).
-/

namespace Sys2Proof.Machine

/-- DXE.ISSUE (R214). -/
def execDxeIssue (c : CoreId) (s : State) : Out := .next (runOp s c .dxe 0x40)

/-- STREAM_TASK_COMPLETE (R266, R268); of a stream whose abort is under way, its cancel boundary (R272). -/
def execStreamTaskComplete (c : CoreId) (st : StreamId) (s : State) : Out := .next (settleCore (completeTask s c st.val) c)

/-- STREAM_TASK_FAULT: a task meets a fault of R269 and aborts; an instruction that hands off to it aborts too (R102). -/
def execStreamTaskFault (c : CoreId) (st : StreamId) (s : State) : Out :=
  let hand := (handTask s c st.val).isSome
  let t := faultTask s c st.val
  .next (settleCore (if hand && (taskOf t c st.val).isNone then mxeStreamStop t c st.val clsTask else t) c)

/-- COMPLETION_RECORD_WRITE: the stream's next record is written and its completion FILL leaves (R268), unless its word is none that the
core may reach: that is logged (R226, R408). A local word past the scratchpad stands at its address modulo 4 MiB (DESIGN CHOICE, log 130). -/
def execCompletionRecordWrite (c : CoreId) (st : StreamId) (s : State) : Out :=
  let k := getCore s c
  .next (match k.crecs.find? fun r => r.stream == st.val with
    | none => s
    | some r =>
      let s := advance s r.due
      let s := match r.rec? with | some o => writeAll s (padAddr c o) r.bytes false | none => s
      let s := match r.word? with
        | some (loc, a) =>
          let w := if loc then padBase c + a % 0x400000 else a
          match if loc then none else syncTarget s c w with
          | some why => logNoWord s (.stream c st.val) w why
          | none =>
            { s with feOps := s.feOps ++ [⟨s.nextOp, .stream c st.val, .fill, w, loc, r.value, none, r.due + 2, 0, 0, false, 0, none⟩],
                     nextOp := s.nextOp + 1 }
        | none => s
      let k := getCore s c
      settleCore (putCore s c { k with crecs := k.crecs.eraseP fun x => x.stream == st.val }) c)

/-- May a finished instruction retire: its stores landed, its stream tasks and records done (R149)? -/
def mayRetire (s : State) (c : CoreId) (i : Inst) : Bool :=
  let k := getCore s c
  i.begun && i.finished && !k.stores.any (fun x => x.inst == i.id) &&
    (match i.prog with
     | .dxe _ =>
       !(List.range 32).any (fun st => match taskOf s c st with | some t => t.inst == i.id | none => false) &&
         !k.crecs.any fun r => r.inst == i.id
     | _ => true)

/-- An instruction retires: its claim is released, and what waited may begin (R149, R162). -/
def retireInst (s : State) (c : CoreId) (i : Inst) : State :=
  let s := retagStores (advance s i.doneAt) c i
  let s := match i.prog with
    | .ldload => finishLoad s c i.eng s.now
    | .mle flags => retireMle s c i flags
    | _ => s
  let k := getCore s c
  settleCore (putCore s c { k with insts := k.insts.filter fun x => x.id != i.id }) c

/-- The head of an engine's queue when a check of R171 fails on it or its word is marked (R152, R172). -/
def rejectHead (s : State) (c : CoreId) (e : EngId) : State :=
  match headOf s c e with
  | none => s
  | some (t, q, g) =>
    if !q.bad && heldAtDispatch s c e q.w then s
    else
      match checkWord s c e t q with
      | .pass _ => s
      | .skip why => skipHead (advance (putEng s c e g) t) c e t why
      | .abort why => faultEngine (advance (putEng s c e g) t) c e why (if q.bad then some (g.bank, g.pc) else none)

/-- INSTRUCTION_RETIRE (R162, R172). -/
def execInstructionRetire (c : CoreId) (what : RetireOf) (s : State) : Out :=
  .next (match what with
    | .inst id => (match instOf s c id with | some i => if mayRetire s c i then retireInst s c i else s | none => s)
    | .skip e => rejectHead s c e)

end Sys2Proof.Machine
end

