-- ==== Sys2Proof/Machine/Access.lean ====
section
/-!
DEFINITION. Host access to BAR0 (R8 to R12, R381, R408, R409): who reaches a register, what a read returns, and the common form of a
write.
-/

namespace Sys2Proof.Machine

/-- Something goes out on a link. -/
def emit (s : State) (x : OutEv) : State := { s with out := x :: s.out }

/-- The slice of a VF; none for the PF (R378). -/
def funcSlice (f : FuncId) : Option N20 := if f.val = 0 then none else fin? 20 (f.val - 1)
/-- The VF of a slice. -/
def sliceFunc (n : N20) : FuncId := ⟨n.val + 1, by omega⟩
/-- Is a slice defined: does it hold a section (R404)? -/
def sliceDefined (s : State) (n : N20) : Bool := !(sliceSects s n).isEmpty
/-- Does the function exist: the PF, or the VF of a defined slice (R378)? -/
def funcExists (s : State) (f : FuncId) : Bool := match funcSlice f with | none => true | some n => sliceDefined s n
/-- READY of HUB_BOOT_STATUS (R399). -/
def hubReady (s : State) : Bool := rbit s .bootStatus 0
/-- Key state of a slice: 0 NONE, 1 DEVICE, 2 KEYED (R414). -/
def keyState (s : State) (n : N20) : Nat := rfld s (.sliceKey n) 63 60

/-- The section whose SECT, STK or CORE block covers a BAR0 offset (R381). -/
def offSect (o : Nat) : Option N20 :=
  if 0x90000 ≤ o ∧ o < 0xA4000 then fin? 20 ((o - 0x90000) / 0x1000)
  else if 0x100000 ≤ o ∧ o < 0x240000 then fin? 20 ((o - 0x100000) / 0x10000)
  else if 0x1000000 ≤ o then fin? 20 ((o - 0x1000000) / 0x8000 / 8)
  else none

/-- Does the VF of slice n reach an offset (R381)? -/
def vfReach (s : State) (n : N20) (o : Nat) : Bool :=
  match offSect o with
  | some x => sectSlice s x == some n
  | none =>
    match regOf o with
    | some .bootStatus => true
    | some (.clCfg m) | some (.clMem m _) | some (.clStat m) | some (.doorbell m) | some (.stepw m) => m == n
    | some r => regLocal r
    | none => false

/-- The registers of R409, which the PF may read in the blocks of a KEYED slice. -/
def keyedRead : Option Reg → Bool
  | some (.mcState _) | some (.cacheStat _) | some (.eccCnt _) | some (.lastUe _) | some (.retireStat _) | some (.retireList _ _)
  | some (.spadStat _) => true
  | _ => false

/-- Is an offset in a block of a KEYED slice (R408)? -/
def inKeyed (s : State) (o : Nat) : Bool :=
  match offSect o with
  | some x => match sectSlice s x with | some n => keyState s n == 2 | none => false
  | none => false

/-- The slice that a refused access concerns: that of the VF, or of the block (DEDUCED, log 26). -/
def accessSlice (s : State) (f : FuncId) (o : Nat) : Option N20 :=
  match funcSlice f with
  | some n => some n
  | none => (offSect o).bind (sectSlice s)

/-- The one event of a refused or ignored BAR0 access, with its offset (DEDUCED, log 26). -/
def logAccess (s : State) (f : FuncId) (o cause : Nat) : State :=
  logEv s cause clsNone (sliceByte (accessSlice s f o)) 7 0xFF f.val (mkDetail 0 o)

/-- Does a function reach an offset: write says whether for writing (R381, R408, R409)? -/
def reaches (s : State) (f : FuncId) (o : Nat) (write : Bool) : Bool :=
  match funcSlice f with
  | some n => vfReach s n o
  | none => !inKeyed s o || (!write && keyedRead (regOf o))

/-- A host write to a register: nothing from a function that does not exist; ignored until READY, where one that sets an enable is
logged (R381, R433); refused to a function that does not reach the register (R381, R408); else its effect. -/
def hostWrite (s : State) (f : FuncId) (r : Reg) (enable : Bool) (act : State → State) : State :=
  let o := regOff r
  if !funcExists s f then s
  else if !hubReady s then (if enable then logAccess s f o ntGeneral else s)
  else if !reaches s f o true then logAccess s f o (stCode .notPermitted)
  else act s

/-! Views (R9, R180 to R186, R239, R275, R335, R403, R420, R450, R471). -/

/-- State code of an engine or BUU. -/
def modeCode : EngMode → Nat
  | .halted => 0 | .running => 1 | .draining => 2 | .aborting => 3

/-- A number at a bit position. -/
def at_ (x lo : Nat) : Nat := x * 2 ^ lo
/-- One bit as a number. -/
def b2n (b : Bool) : Nat := if b then 1 else 0

/-- Instructions of an engine dispatched and not retired, a BANKSW that waits and operations that wait at their word or counter among them (R156,
R180; DEDUCED, log 116). -/
def inflight (s : State) (c : CoreId) (e : EngId) : Nat :=
  let k := getCore s c
  (k.insts.filter fun i => i.eng == e).length + (s.feOps.filter (feOfEng c e)).length +
    (k.semOps.filter fun x => x.eng == e).length + b2n (engGet k e).closing.isSome

/-- The bytes of loop-descriptor entry 0: every count 1, masks and increments 0 (R192). -/
def loopZero : List Byte := List.replicate 16 0 ++ (List.replicate 6 1).flatMap (leBytes 4) ++ List.replicate 88 0

/-- The word that ENG_IM_ADDR selects: an instruction, or 16 bytes of the loop-descriptor file with the entries that an ENG.LDLOAD has
written by now (R160, R183, R184). -/
def imWord (s : State) (c : CoreId) (e : EngId) : W128 :=
  let g := getEng s c e
  let g := (g.ldq.filter fun x => decide (x.due ≤ s.now)).foldl putLd g
  let t := rfld s (.eng c e .imAddr) 13 12
  let i := rfld s (.eng c e .imAddr) 10 0
  if t = 2 then
    (if i % 256 < 8 then BitVec.ofNat 128 (leNat ((loopZero.drop (16 * (i % 256))).take 16))
     else BitVec.ofNat 128 (leNat (tread g.ldf 0 (16 * (i % 256)) 16)))
  else tget g.imem 0 (imKey (t == 1) i)

/-- The value of an engine register. -/
def viewEng (s : State) (c : CoreId) (e : EngId) : EngReg → W64
  | .ctl =>
    let g := getEng s c e
    BitVec.ofNat 64 (at_ (rfld s (.eng c e .ctl) 6 5) 5 + at_ (b2n g.bank) 4 + b2n (g.mode == .running && g.step == .off))
  | .state =>
    let g := catchUp (getEng s c e) s.now
    let sync := match g.wait with | .sync .. => true | _ => false
    let sb := match g.wait with | .claim _ | .entry => true | _ => false
    BitVec.ofNat 64 (at_ (modeCode g.mode) 60 + at_ (b2n g.bank) 59 + at_ (b2n g.closing.isSome) 58 + at_ (b2n sync) 57 +
      at_ (b2n sb) 56 + at_ (g.queue.length % 32) 48 + at_ (min 255 (inflight s c e)) 40 + g.pc.toNat)
  | .pc => BitVec.ofNat 64 (getEng s c e).pc.toNat
  | .dataLo => (imWord s c e).setWidth 64
  | .dataHi => (imWord s c e >>> 64).setWidth 64
  | k => rget s (.eng c e k)

/-- STATE of a stream (R275). -/
def streamState (s : State) (c : CoreId) (st : Nat) : Nat :=
  if streamAborting s c st then 3 else if (taskOf s c st).isSome then 2 else if bit (getCore s c).sen st then 1 else 0

/-- Is an engine, stream or BUU of the slice not HALTED (R403)? -/
def sliceRunning (s : State) (n : N20) : Bool :=
  (sliceCores s n).any (fun c => allEng.any (fun e => (getEng s c e).mode != .halted) || (List.range 32).any fun st => streamState s c st != 0) ||
    (sliceSects s n).any fun x => (tget s.buu buuReset x.val).mode != .halted

/-- Identity signatures remaining and their share in units of 0.01 % (R420). -/
def idRemain (s : State) : Nat := 32768 - (s.fw.mram.nextA.getD 32768)
def idPercent (s : State) : Nat := 10000 * idRemain s / 32768
/-- Is the budget low (R420)? -/
def budgetLow (s : State) : Bool := decide (idPercent s < 500)

/-- A ring of the event log by its register number: 0 to 19 the slices, 20 the device. -/
def logRing (s : State) (n : Nat) : List LogRec := tget s.log.rings [] n

/-! Writes to the MRAM (R461, R464). -/

def putMram (s : State) (m : Mram) : State := { s with fw := { s.fw with mram := m } }

/-- Position of an MRAM record. -/
def mramKey : MramRec → Nat
  | .nextA => 0 | .nextB => 1 | .mono => 2 | .boot => 3 | .act => 4 | .archiveHead => 5

/-- A record's place. -/
def getWear (m : Mram) (r : MramRec) : Wear := tget m.wear wearReset (mramKey r)
def putWear (m : Mram) (r : MramRec) (w : Wear) : Mram := { m with wear := tset m.wear wearReset (mramKey r) w }

/-- One more write of a record (R464). -/
def wrote (r : MramRec) (m : Mram) : Mram := putWear m r { getWear m r with writes := (getWear m r).writes + 1 }

/-- A record written to the event archive of 2,048; its head moves (R461, R464). -/
def archiveRec (s : State) (r : LogRec) : State :=
  let m := s.fw.mram
  let a := m.archive ++ [r]
  putMram s (wrote .archiveHead { m with archive := a.drop (a.length - 2048), archNew := min 2048 (m.archNew + 1) })

/-! The next partition. -/

/-- The register that the next partition in MRAM holds at an offset (R431). -/
def nextPart (s : State) (r : Reg) : W64 := match s.fw.mram.part with | some t => tget t 0 (regOff r) | none => 0

/-- The value that a read of a register returns to a function that reaches it. -/
def viewReg (s : State) (f : FuncId) (r : Reg) : W64 :=
  match r with
  | .eng c e k => viewEng s c e k
  | .dxeSctl c => (getCore s c).sen.setWidth 64
  | .dxeSstate c => BitVec.ofNat 64 ((List.range 32).foldl (fun v st => v + at_ (streamState s c st) (2 * st)) 0)
  | .sbStat c => BitVec.ofNat 64 (at_ (rfld s (.sbStat c) 63 48) 48 + heldClaims (getCore s c) % 128)
  | .semCnt c i => BitVec.ofNat 64 ((List.range 4).foldl (fun v j => v + at_ (semGet s c (4 * i.val + j)) (16 * j)) 0)
  | .updState n =>
    let b := tget s.buu buuReset n.val
    BitVec.ofNat 64 (at_ (modeCode b.mode) 60 + at_ b.phase 58 + at_ (b2n b.normValid) 57 + at_ (b.prog % 2048) 32 + b.span % 2 ^ 32)
  | .updCtl n => putBits (putBits (rget s r) 1 1 0) 0 0 (b2n ((tget s.buu buuReset n.val).mode == .running))
  | .sliceState n => putBits (rget s r) 59 59 (b2n (sliceRunning s n))
  | .logStat n =>
    let q := logRing s n.val
    BitVec.ofNat 64 (at_ (rfld s (.logStat n) 63 48) 48 + at_ (q.length % 8192) 32 + ((q.getLast?.map LogRec.seq).getD 0) % 2 ^ 32)
  | .hubFunc => BitVec.ofNat 64 (at_ (sliceByte (funcSlice f)) 32 + at_ f.val 24 + at_ (rfld s .hubFunc 19 16) 16 + rfld s .hubFunc 4 0)
  | .budget =>
    BitVec.ofNat 64 (at_ (b2n (!s.sp.pend.isEmpty)) 49 + at_ (b2n (budgetLow s)) 48 + at_ (idPercent s) 32 +
      at_ ((if s.sp.tree && s.sp.sessSig.isSome then 32768 - s.sp.sessUsed else 0) % 65536) 16 + idRemain s % 65536)
  | .lmsState => BitVec.ofNat 64 (at_ (b2n s.sp.ok) 63 + at_ (s.fw.mram.mono % 2 ^ 32) 16 + (s.fw.mram.nextA.getD 0) % 65536)
  | .fwSlot =>
    let a := s.fw.act
    let st (n : Nat) : Nat := (tget s.fw.slots slotReset' n).st
    BitVec.ofNat 64 (at_ s.fw.mram.active.val 63 + at_ (rfld s .fwSlot 62 62) 62 + at_ (st 1 % 16) 58 + at_ (st 0 % 16) 54 +
      at_ (a.phase % 16) 50 + at_ (a.unit % 32) 45)
  | .nextPfBar2 | .nextSectmap _ | .nextKeyslot _ | .nextFabfw _ | .nextRseq _ => nextPart s r
  | _ => if regLocal r then fget s f r else rget s r

/-- A naturally aligned 8-byte read of BAR0: what it returns, and the event of a refused one (R381, R408, R409). -/
def readBar0 (s : State) (f : FuncId) (o : Nat) : State × W64 :=
  match regOf o with
  | some .bootStatus => (s, rget s .bootStatus)
  | x =>
    if !hubReady s then (s, 0)
    else if !reaches s f o false then
      ((match funcSlice f with | some _ => s | none => logAccess s f o (stCode .notPermitted)), 0)
    else match x with | some r => (s, viewReg s f r) | none => (s, 0)

/-! The generic write by access codes (R9 to R11). -/

/-- One field of a written value put into a register's stored value: RW and RWB set it unless its encoding is reserved or the lock
holds, W1C clears, RO and WO leave it; the events of ignored fields are counted. -/
def writeFld (locked : Bool) (old : W64) (v : W64) (a : W64 × Nat × Bool) (x : Fld) : W64 × Nat × Bool :=
  let n := bits v x.hi x.lo
  match x.acc with
  | .ro | .wo => a
  | .w1c => (putBits a.1 x.hi x.lo (bits old x.hi x.lo &&& (2 ^ (x.hi + 1 - x.lo) - 1 - n)), a.2)
  | .rw => if x.okLo ≤ n ∧ n ≤ x.okHi then (putBits a.1 x.hi x.lo n, a.2) else (a.1, a.2.1 + 1, a.2.2)
  | .rwb =>
    if locked then (a.1, a.2.1, true)
    else if x.okLo ≤ n ∧ n ≤ x.okHi then (putBits a.1 x.hi x.lo n, a.2) else (a.1, a.2.1 + 1, a.2.2)

/-- The stored value after a write, the fields ignored for a reserved encoding, and whether the lock refused it. -/
def writeFlds (locked : Bool) (fs : List Fld) (old v : W64) : W64 × Nat × Bool :=
  fs.foldl (fun a x => writeFld locked old v a x) (old, 0, false)

/-- The increments that the counters of a register have had in this a-cycle, added to a value written in it (R80, R182, R242). -/
def addIncs (s : State) (r : Reg) (v : W64) : W64 :=
  (regFields r).foldl (fun v x =>
    let n := tget (incsNow s) 0 (incKey r x.lo)
    if x.acc = .rw ∧ n ≠ 0 then putBits v x.hi x.lo (satAdd (2 ^ (x.hi + 1 - x.lo) - 1) (bits v x.hi x.lo) n) else v) v

/-- A plain write to a register by its access codes; each reserved encoding, and a write refused by the lock, logs one event. -/
def plainWrite (s : State) (f : FuncId) (r : Reg) (v : W64) : State :=
  let old := if regLocal r then fget s f r else rget s r
  let x := writeFlds (rbit s .prot 0) (regFields r) old v
  let s := if regLocal r then fput s f r x.1 else rput s r (addIncs s r x.1)
  let s := (List.range x.2.1).foldl (fun s _ => logAccess s f (regOff r) ntGeneral) s
  if x.2.2 then logAccess s f (regOff r) ntGeneral else s

end Sys2Proof.Machine
end

