-- ==== Sys2Proof/Machine/EngineCtl.lean ====
section
/-!
DEFINITION. Host writes to the engine, stream, synchronization and sync-window registers of a core or section (R174 to R186, R227,
R228, R232, R239, R271, R274, R50).
-/

namespace Sys2Proof.Machine

/-- One event of an engine register write that is refused or ignored, with the register's offset. -/
def logCtl (s : State) (c : CoreId) (e : EngId) (cause : Nat) (k : EngReg) : State :=
  let g := getEng s c e
  logEng s c (engIdx e) cause clsNone g.bank g.pc (regOff (.eng c e k))

/-- LATCHECK of a write: VXE and SXE only, 3 reserved (R179, R11). -/
def writeLatcheck (s : State) (c : CoreId) (e : EngId) (v : W64) : State :=
  match e with
  | .vxe | .sxe =>
    if bits v 6 5 = 3 then logCtl s c e ntGeneral .ctl
    else rsetf s (.eng c e .ctl) 6 5 (bits v 6 5)
  | _ => s

/-- BANK of a write: a change takes effect while HALTED, discards the queue and restarts fetch (R177). -/
def writeBank (s : State) (c : CoreId) (e : EngId) (v : W64) : State :=
  let g := getEng s c e
  if bit v 4 = g.bank then s
  else if g.mode = .halted then putEng s c e { g with bank := bit v 4, queue := [], fetchAt := s.now }
  else logCtl s c e (stCode .engineBusy) .ctl

/-- The engine runs from its PC, with the queue as it stands (R174, R177). -/
def enableEngine (s : State) (c : CoreId) (e : EngId) : State :=
  let g := catchUp (getEng s c e) s.now
  settleCore (putEng s c e { g with mode := .running, step := .off, fetchAt := max g.fetchAt s.now, nextAt := max g.nextAt s.now }) c

/-- STEP to a HALTED engine (R177). -/
def stepEngine (s : State) (c : CoreId) (e : EngId) : State :=
  let g := getEng s c e
  putEng s c e { g with mode := .running, step := .armed, fetchAt := max g.fetchAt s.now, nextAt := max g.nextAt s.now }

/-- EN = 1 without STEP and ABORT (R177). An engine of a section in no slice never leaves HALTED (R404). -/
def writeEn (s : State) (c : CoreId) (e : EngId) : State :=
  if (coreSlice s c).isNone then logCtl s c e (stCode .protection) .ctl
  else
    match (getEng s c e).mode with
    | .aborting => logCtl s c e (stCode .engineBusy) .ctl
    | _ => enableEngine s c e

/-- A write to ENG_CTL with every bit of it, as R177 gives for the engine's state. A STEP beside ABORT is ignored, and logged where the engine is
not HALTED; an EN beside an ABORT that has no effect logs nothing (DEDUCED, log 124). -/
def writeCtl (s : State) (c : CoreId) (e : EngId) (v : W64) : State :=
  let s := writeBank (writeLatcheck s c e v) c e v
  let m := (getEng s c e).mode
  if bit v 7 then
    let s := if bit v 3 && m != .halted then logCtl s c e (stCode .engineBusy) .ctl else s
    if m = .aborting then s else abortEngine s c e .aborted clsNone none
  else if bit v 3 then
    if m = .halted then
      (if bit v 0 then logCtl s c e (stCode .inconsistent) .ctl
       else if (coreSlice s c).isNone then logCtl s c e (stCode .protection) .ctl
       else stepEngine s c e)
    else
      let s := logCtl s c e (stCode .engineBusy) .ctl
      if bit v 0 then writeEn s c e else if m = .running then drainEngine s c e else s
  else if bit v 0 then writeEn s c e
  else if m = .running then drainEngine s c e
  else s

/-- A write to ENG_PC (R177, R181). -/
def writePc (s : State) (c : CoreId) (e : EngId) (v : W64) : State :=
  let g := getEng s c e
  if g.mode = .halted then putEng s c e { g with queue := [], pc := BitVec.ofNat 11 (bits v 10 0), fetchAt := s.now }
  else logCtl s c e (stCode .engineBusy) .pc

/-- INDEX moves on after an access to ENG_IM_DATA_HI, wrapping within its target (R183). -/
def imAdvance (s : State) (c : CoreId) (e : EngId) : State :=
  let t := rfld s (.eng c e .imAddr) 13 12
  let i := rfld s (.eng c e .imAddr) 10 0
  rsetf s (.eng c e .imAddr) 10 0 ((i + 1) % (if t = 2 then 256 else 2048))

/-- A host write refused by R155 or R160: counted, its status kept, one event. -/
def imRefuse (s : State) (c : CoreId) (e : EngId) (why : Status) : State :=
  let s := rsetf (rbump s (.eng c e .imstat) 63 48 1) (.eng c e .imstat) 15 0 (stCode why)
  logCtl s c e (stCode why) .dataHi

/-- May a write reach a bank (R155)? -/
def bankOpen (g : Engine) (bank : Bool) : Bool := g.mode == .halted || (bank != g.bank && g.closing.isNone)

/-- One 16-byte word written to the loop-descriptor file: entry 0 ignores it; the poison mark clears when all eight words of its
entry have been written (R158, R160). -/
def putLdWord (g : Engine) (i : Nat) (w : W128) : Engine :=
  let n := i / 8
  let p := match tget g.ldPoison none n with
    | some m => let m' := m ||| 2 ^ (i % 8); if m' = 255 then none else some m'
    | none => none
  { g with ldf := twrite g.ldf 0 (16 * i) (leBytes 16 w.toNat), ldPoison := tset g.ldPoison none n p }

/-- One instruction or loop-descriptor word written at a target and index: the status of a refusal, or the write (R155, R160). In the
loop-descriptor file an index of 256 or more counts modulo 256 (R183; DESIGN CHOICE, log 129). -/
def putImWord (s : State) (c : CoreId) (e : EngId) (t i : Nat) (w : W128) : State × Option Status :=
  let g := getEng s c e
  if t = 2 then
    if g.mode ≠ .halted then (s, some .engineBusy)
    else if i % 256 < 8 then (logCtl s c e ntGeneral .dataHi, none)
    else (putEng s c e (putLdWord g (i % 256) w), none)
  else if bankOpen g (t == 1) then (putEng s c e (putWords g (t == 1) i [w]), none)
  else (s, some .bankBusy)

/-- A write to ENG_IM_DATA_HI (R184). -/
def writeDataHi (s : State) (c : CoreId) (e : EngId) (v : W64) : State :=
  let w : W128 := v ++ rget s (.eng c e .dataLo)
  let x := putImWord s c e (rfld s (.eng c e .imAddr) 13 12) (rfld s (.eng c e .imAddr) 10 0) w
  imAdvance (match x.2 with | some why => imRefuse x.1 c e why | none => x.1) c e

/-- ENGINE_ENABLE: a write with EN = 1 and neither ABORT nor STEP (R177). -/
def execEngineEnable (f : FuncId) (c : CoreId) (e : EngId) (v : W64) (s : State) : Out :=
  .next (if bit v 0 && !bit v 7 && !bit v 3 then hostWrite s f (.eng c e .ctl) true fun s => writeCtl s c e v else s)

/-- ENGINE_DRAIN: a write with EN, ABORT and STEP 0 (R174). -/
def execEngineDrain (f : FuncId) (c : CoreId) (e : EngId) (v : W64) (s : State) : Out :=
  .next (if !bit v 0 && !bit v 7 && !bit v 3 then hostWrite s f (.eng c e .ctl) false fun s => writeCtl s c e v else s)

/-- ENGINE_ABORT: a write with ABORT = 1 (R175). -/
def execEngineAbort (f : FuncId) (c : CoreId) (e : EngId) (v : W64) (s : State) : Out :=
  .next (if bit v 7 then hostWrite s f (.eng c e .ctl) (bit v 0) fun s => writeCtl s c e v else s)

/-- ENGINE_STEP: a write with STEP = 1 and ABORT 0 (R177). -/
def execEngineStep (f : FuncId) (c : CoreId) (e : EngId) (v : W64) (s : State) : Out :=
  .next (if bit v 3 && !bit v 7 then hostWrite s f (.eng c e .ctl) (bit v 0) fun s => writeCtl s c e v else s)

/-- ENGINE_BANK_SELECT: a write whose BANK differs from the active bank (R177). -/
def execEngineBankSelect (f : FuncId) (c : CoreId) (e : EngId) (v : W64) (s : State) : Out :=
  .next (if bit v 4 != (getEng s c e).bank then hostWrite s f (.eng c e .ctl) (bit v 0) fun s => writeCtl s c e v else s)

/-- ENGINE_PC_WRITE (R181). -/
def execEnginePcWrite (f : FuncId) (c : CoreId) (e : EngId) (v : W64) (s : State) : Out :=
  .next (hostWrite s f (.eng c e .pc) false fun s => writePc s c e v)

/-- IM_DATA_HI_WRITE (R184). -/
def execImDataHiWrite (f : FuncId) (c : CoreId) (e : EngId) (v : W64) (s : State) : Out :=
  .next (hostWrite s f (.eng c e .dataHi) false fun s => writeDataHi s c e v)

/-- IM_DATA_HI_READ: the high half is returned and INDEX moves on (R184); a refused read returns 0 (R381, R408). -/
def execImDataHiRead (f : FuncId) (c : CoreId) (e : EngId) (s : State) : Out :=
  let o := regOff (.eng c e .dataHi)
  let x := readBar0 s f o
  let t := emit x.1 (.readReply f (leBytes 8 x.2.toNat) false)
  .next (if !funcExists s f then s else if hubReady s && reaches s f o false then imAdvance t c e else t)

/-! Streams (R271, R274). -/

/-- A write to DXE_SCTL: aborts first, whose EN bits then read 0; the other EN bits as written. -/
def writeSctl (s : State) (c : CoreId) (v : W64) : State :=
  let k := getCore s c
  let hit := (List.range 32).filter fun st => bit v (32 + st)
  let en : BitVec 32 := v.setWidth 32 &&& ~~~((v >>> 32).setWidth 32)
  let s := putCore s c { k with sen := en }
  let s := hit.foldl (fun s st =>
    let hand := (handTask s c st).isSome
    let t := stopTask s c st
    if hand then mxeStreamStop t c st clsNone else t) s
  settleCore s c

/-- Does a value written to DXE_SCTL enable a stream (R433)? -/
def sctlEnables (v : W64) : Bool := bits v 31 0 != 0

/-- STREAM_ENABLE: a write that sets a bit of EN which is 0 (R274). -/
def execStreamEnable (f : FuncId) (c : CoreId) (v : W64) (s : State) : Out :=
  .next (if v.setWidth 32 &&& ~~~(getCore s c).sen != 0 then hostWrite s f (.dxeSctl c) (sctlEnables v) fun s => writeSctl s c v else s)

/-- STREAM_DRAIN: a write that clears a bit of EN which is 1 (R271). -/
def execStreamDrain (f : FuncId) (c : CoreId) (v : W64) (s : State) : Out :=
  .next (if ~~~(v.setWidth 32) &&& (getCore s c).sen != 0 then hostWrite s f (.dxeSctl c) (sctlEnables v) fun s => writeSctl s c v else s)

/-- STREAM_ABORT: a write with a bit of ABORT (R271). -/
def execStreamAbort (f : FuncId) (c : CoreId) (v : W64) (s : State) : Out :=
  .next (if bits v 63 32 ≠ 0 then hostWrite s f (.dxeSctl c) (sctlEnables v) fun s => writeSctl s c v else s)

/-! Full/empty words, counters, windows, generators. -/

/-- A write to SYNC_HOST_ADDR with its OP (R232): FILL and DRAIN are operations of the host source, which reach the word in this a-cycle
with those of the core's engines, and the remote ones listed, that do (R223); READ copies the word. -/
def writeHostAddr (s : State) (f : FuncId) (c : CoreId) (v : W64) (rem : List Nat) : State :=
  match bits v 22 21 with
  | 0 => rsetf s (.hostAddr c) 20 0 (bits v 20 0)
  | 1 => hostOp s c v fun s => hostFill s f (hostWord c v) (rget s (.hostData c)) rem
  | 2 => hostOp s c v fun s => hostReach s f .drain (hostWord c v) 0 rem
  | _ => hostOp s c v fun s =>
      let a := hostWord c v
      let s := touchUnit s (a / 64)
      rput (hostFound s c (feFull s (feCell s a))) (.hostData c) (feValue s a)

/-- SYNC_HOST_FILL: OP = 1 (R232). -/
def execSyncHostFill (f : FuncId) (c : CoreId) (v : HostSync) (s : State) : Out :=
  .next (if bits v.v 22 21 = 1 then hostWrite s f (.hostAddr c) false fun s => writeHostAddr s f c v.v v.rem else s)
/-- SYNC_HOST_DRAIN: OP = 2 (R232). -/
def execSyncHostDrain (f : FuncId) (c : CoreId) (v : HostSync) (s : State) : Out :=
  .next (if bits v.v 22 21 = 2 then hostWrite s f (.hostAddr c) false fun s => writeHostAddr s f c v.v v.rem else s)
/-- SYNC_HOST_READ: OP = 3 (R232). -/
def execSyncHostRead (f : FuncId) (c : CoreId) (v : W64) (s : State) : Out :=
  .next (if bits v 22 21 = 3 then hostWrite s f (.hostAddr c) false fun s => writeHostAddr s f c v [] else s)

/-- Four counters set, and their waits tested (R237, R239). -/
def writeSemCnt (s : State) (c : CoreId) (i : Fin 64) (v : W64) : State :=
  (List.range 4).foldl (fun s j =>
    let n := 4 * i.val + j
    semServe (semPut s c n (bits v (16 * j + 15) (16 * j))) c n) s

/-- SEM_CNT_WRITE (R239). -/
def execSemCntWrite (f : FuncId) (c : CoreId) (i : Fin 64) (v : W64) (s : State) : Out :=
  .next (hostWrite s f (.semCnt c i) false fun s => writeSemCnt s c i v)

/-- The line words of a section's window, from the first. -/
def winWords (s : State) (n : N20) : Nat × Nat :=
  ((stkBase n + rfld s (.syncWin n) 19 0 * 0x10000) / 8, 8 * rfld s (.syncWin n) 42 32)

/-- Does an operation wait on a line of the section's window (R227)? -/
def winBusy (s : State) (n : N20) : Bool :=
  s.feOps.any fun x => x.waiting && (match feCell s x.addr with | .line m _ => m == n | _ => false)

/-- Every word of the window 0 and empty, without poison or error: at its enabling, and its contents discarded at its disabling (R228). -/
def winClear (s : State) (n : N20) : State :=
  let w := winWords s n
  { s with syncw := tclear s.syncw w.1 w.2, syncp := tclear s.syncp (w.1 / 8) (w.2 / 8), ecc := tclear s.ecc (syncErr 0 w.1) w.2 }

/-- A window enabled: the lines that the cache holds of its bytes leave it first, so that the HBM bytes hold what they held (R228), and its
sync lines take their places in the cache slice (R228, R284; DESIGN CHOICE, log 89). -/
def openWin (s : State) (n : N20) : State :=
  let w := winWords s n
  let us := (List.range (w.2 / 8)).map fun j => w.1 / 8 + j
  let s := (us.filter fun u => tget s.cached false u).foldl evictLine s
  us.foldl (fun s u => evictWay s n u 0) (winClear (rsetf s (.syncWin n) 63 63 1) n)

/-- One event of a write to a section's window that is ignored or refused. -/
def winEvent (s : State) (n : N20) (cause : Nat) : State :=
  logEv s cause clsNone (sliceByte (sectSlice s n)) 2 0xFF n.val (mkDetail 0 (regOff (.syncWin n)))

/-- A write to SECTnn_SYNC_WIN (R227, R228): BASE and LINES only while EN is 0; EN = 0 refused while an operation waits. -/
def writeSyncWin (s : State) (f : FuncId) (n : N20) (v : W64) : State :=
  let r : Reg := .syncWin n
  if rbit s r 63 then
    let same := bits v 42 32 == rfld s r 42 32 && bits v 19 0 == rfld s r 19 0
    let s := if same then s else winEvent s n ntGeneral
    if bit v 63 then s
    else if winBusy s n then winEvent s n (stCode .syncBusy)
    else rsetf (winClear s n) r 63 63 0
  else
    let s := plainWrite s f r (putBits v 63 63 0)
    if bit v 63 then openWin s n else s

/-- SYNC_WIN_ENABLE: a write of EN = 1 (R228). -/
def execSyncWinEnable (f : FuncId) (n : N20) (v : W64) (s : State) : Out :=
  .next (if bit v 63 then hostWrite s f (.syncWin n) true fun s => writeSyncWin s f n v else s)
/-- SYNC_WIN_DISABLE: a write of EN = 0 (R227, R228). -/
def execSyncWinDisable (f : FuncId) (n : N20) (v : W64) (s : State) : Out :=
  .next (if bit v 63 then s else hostWrite s f (.syncWin n) false fun s => writeSyncWin s f n v)

/-- The generator loaded with a value, or with 1 for 0 (R50). -/
def writeSrng (s : State) (n : N20) (v : W64) : State := rput s (.srng n) (BitVec.ofNat 64 (if bits v 31 0 = 0 then 1 else bits v 31 0))

/-- SRNG_SEED_WRITE (R50). -/
def execSrngSeedWrite (f : FuncId) (n : N20) (v : W64) (s : State) : Out :=
  .next (hostWrite s f (.srng n) false fun s => writeSrng s n v)

end Sys2Proof.Machine
end

