-- ==== Sys2Proof/Machine/Memory.lean ====
section
/-!
DEFINITION. The stacks and their controllers: accesses at the ordering point (R282 to R297), refresh, temperature, patrol scrub (R465) and
recalibration (R464 to R468).
-/

namespace Sys2Proof.Machine

/-! Placement within a stack (R283). -/

/-- Where a byte of a stack lies: channel, which of its two pseudo-channels, and the byte offset in the pseudo-channel. -/
structure DramPlace where
  channel : Nat
  pseudo : Nat
  off : Nat
deriving DecidableEq, Repr

/-- The pseudo-channel of stack address a: the exclusive or of the granule number's fields of six bits (R283). -/
def pcOf (a : Nat) : Nat :=
  let g := a / 256
  (g ^^^ (g / 2 ^ 6) ^^^ (g / 2 ^ 12) ^^^ (g / 2 ^ 18) ^^^ (g / 2 ^ 24)) % 64

/-- The place of stack address a. -/
def dramPlace (a : Nat) : DramPlace := ⟨pcOf a / 2, pcOf a % 2, a / 256 / 64 * 256 + a % 256⟩

/-- The stack address of a byte of a pseudo-channel: the low six bits of its granule number are those that give the pseudo-channel. -/
def dramAddr (x : DramPlace) : Nat :=
  let h := x.off / 256 * 64
  (h + (pcOf (h * 256) ^^^ (2 * x.channel + x.pseudo))) * 256 + x.off % 256

/-! Findings of a sector read. -/

/-- The bytes of an uncorrectable sector: free values, eight words (R296 gives none). -/
def freeSector : Nat → State → List Byte → State × List Byte
  | 0, s, bs => (s, bs)
  | n + 1, s, bs => let x := drawFree s; freeSector n x.1 (bs ++ leBytes 8 x.2.toNat)

/-- The bytes of a unit as they stand in memory. -/
def putUnit (s : State) (u : Nat) (bs : List Byte) : State := { s with mem := twrite s.mem memDefault (64 * u) bs }

/-- A sector that the controller cannot correct: its data is open; with a clear tag it is tagged, counted, recorded and logged (R296). -/
def uncorrectable (s : State) (n : N20) (u : Nat) : State :=
  let x := freeSector 8 s []
  let s := putUnit x.1 u x.2
  if tget s.poison false u then s
  else
    let off := 64 * u - stkBase n
    let s := rbump (setPoison s u true) (.eccCnt n) 31 16 1
    let s := rput s (.lastUe n) (putBits (putBits (rget s (.lastUe n)) 35 0 off) 63 63 1)
    logEv s (stCode .memUncorrectable) clsPoison (sliceByte (sectSlice s n)) 3 0xFF n.val (mkDetail (off / 0x10000) (64 * u))

/-- A correction that a read finds stands in the sector, so that later reads find it again, until the sector is rewritten or patrol scrub writes
it back (R295); the word of the sector that holds it is not told apart. -/
def keepError (s : State) (u : Nat) : State :=
  if (eccFind s u words8).1 = 0 then { s with ecc := tset s.ecc .none (8 * u) .single } else s

/-- Does a read of a DRAM sector correct it: by what the command says it finds, or by a single error that stands in it (R295)? -/
def corrects (s : State) (u : Nat) (found : SectorFind) : Bool := found == .corrected || (eccFind s u words8).1 != 0

/-- What a read of a sector finds, one outcome for the whole sector (R278, R295, R296): where the access reads the DRAM, the worse of what
the command says and of the errors that stand in it, after a correction inside the die; elsewhere the check of the line. -/
def sectorFind (s : State) (u : Nat) (found : SectorFind) : State :=
  match homeOf s u with
  | .dram n =>
    if tget s.cached false u then eccCheck s u words8
    else
      let t := if found = .onDie then rbump s (.eccCnt n) 15 0 1 else s
      if found = .uncorrectable then uncorrectable t n u
      else if (eccFind s u words8).2 then eccRecord t u 0 true
      else if corrects s u found then rbump (keepError t u) (.eccCnt n) 63 32 1
      else t
  | _ => eccCheck s u words8

/-! Accesses (R282 to R292). -/

/-- The line that a read allocates where the policy asks for it, never by the base die (R285, R286). -/
def readLine (s : State) (u : Nat) (base : Bool) : State :=
  match homeOf s u with
  | .dram n => if !base && rbit s (.cacheCtl n) 0 then takeLine s n u else s
  | _ => s

/-- The window of an element operation. -/
def reqWindow : MemKind → Nat
  | .add => 0 | .min => 1 | .max => 2 | .swap => 3 | _ => 4

/-- Element operations of a request applied in order, one access of its sector (R289, R290, R297). -/
def reqReduce (s : State) (q : MemReq) : State :=
  let k := reqWindow q.kind
  let sz := redSize q.fmt
  let step := if q.kind = .cas then 2 * sz else sz
  (List.range (q.len / sz)).foldl (fun s i =>
    let x := fieldAt q.data (step * i) sz
    let n := if q.kind = .cas then fieldAt q.data (step * i + sz) sz else 0
    (redElem s k q.fmt (q.addr.toNat + sz * i) x n q.poison).1) (redLine s k (q.addr.toNat / 64))

/-- An access applied at its ordering point. -/
def applyReq (s : State) (q : MemReq) : State :=
  let u := q.addr.toNat / 64
  let ch := chOf (q.addr.toNat % 64) (bytesAt q.data 0 q.len)
  match q.kind with
  | .read => readLine (sectorFind s u q.found) u q.base
  | .write => if fromDram s u && q.len != 64 then putMasked q.base (sectorFind s u q.found) u ch q.poison else writeMaskedAs q.base s u ch q.poison
  | _ => reqReduce (sectorFind s u q.found) q

/-- MEMORY_REQUEST_ARRIVE: an access within one line of a stack; a stack in RECAL holds it, and so does a scrub under a new key (R415); a stack
that is not open receives none, and none comes before its retirement list is loaded (R282, R298, R299). One to a stack of no slice is refused with
one event (R404; DESIGN CHOICE, log 134). -/
def execMemoryRequestArrive (q : MemReq) (s : State) : Out :=
  match placeOf q.addr.toNat with
  | .nothing => .fault (.unpopulatedAddress q.addr.toNat)
  | .stack n _ =>
    .next (if q.len = 0 ∨ 64 < q.addr.toNat % 64 + q.len ∨ !memUp s then s
      else if (sectSlice s n).isNone then logEv s (stCode .protection) clsNone 0xFF 3 0xFF n.val (mkDetail 0 q.addr.toNat)
      else if sectHeld s n && stackOpen s n then { s with held := s.held ++ [.req q] }
      else if rfld s (.mcState n) 63 60 = 2 then applyReq s q
      else s)
  | _ => .next s

/-- HBM_REFRESH: the stack's bank is refreshed and its contents stay; above 85 °C the rate is twice as high, so one falling due counts
two (R278). -/
def execHbmRefresh (n : N20) (s : State) : Out :=
  .next (if stackOpen s n then
      let k := if 85 < rfld s (.mcState n) 7 0 then 2 else 1
      { s with refreshes := tset s.refreshes 0 n.val (tget s.refreshes 0 n.val + k) }
    else s)

/-- DRAM_TEMP_UPDATE (R300): 0 until trained. -/
def execDramTempUpdate (n : N20) (temp : Byte) (s : State) : Out :=
  .next (if stackOpen s n then rsetf s (.mcState n) 7 0 temp.toNat else s)

/-! Patrol scrub (R465, R470). -/

/-- Sectors of a stack, and of a page. -/
def stkSectors : Nat := 0xC00000000 / 64
def pageSectors : Nat := 1024

/-- The next sector of the patrol at or after position i that lies in no retired page, over at most n pages; none at the pass's end. -/
def patrolNext (s : State) (n : N20) : Nat → Nat → Option Nat
  | 0, _ => none
  | k + 1, i =>
    if stkSectors ≤ i then none
    else if pageRetired s n (i / pageSectors) then patrolNext s n k ((i / pageSectors + 1) * pageSectors)
    else some i

/-- The patrol's position moved on to sector i; at the end of the stack the pass is counted and the next begins. -/
def patrolMove (s : State) (n : N20) (i : Nat) : State :=
  if stkSectors ≤ i then
    let s := { s with patrol := tset s.patrol 0 n.val 0 }
    rsetf (rbump s (.patrol n) 47 32 1) (.patrol n) 19 0 0
  else rsetf { s with patrol := tset s.patrol 0 n.val i } (.patrol n) 19 0 (i / pageSectors)

/-- Is a slice scrub of the stack's slice in progress (R464)? -/
def scrubbing (s : State) (n : N20) : Bool :=
  match sectSlice s n with | some x => (tget s.mp.scrub none x.val).isSome | none => false

/-- PATROL_SCRUB_READ: the next sector of a READY stack is read; a correction is written back unless another write reached the sector
in between; paused during slice scrub and RECAL (R464, R465). -/
def execPatrolScrubRead (n : N20) (found : SectorFind) (intervened : Bool) (s : State) : Out :=
  .next (if rfld s (.mcState n) 63 60 ≠ 2 ∨ scrubbing s n ∨ !memUp s then s
    else
      match patrolNext s n 513 (tget s.patrol 0 n.val) with
      | none => patrolMove s n stkSectors
      | some i =>
        let u := stkBase n / 64 + i
        let back := fromDram s u && corrects s u found && found != .uncorrectable && !intervened
        let s := sectorFind s u found
        patrolMove (if back then freshSector s u else s) n (i + 1))

/-! Recalibration. -/

/-- Is the current slot quiet: QMASK names it and the tick is a multiple of 2^QPER_LOG (R349)? -/
def quietSlot (s : State) : Bool :=
  rfld s .timeState 63 60 != 0 && (rget s .chorus).getLsbD (48 + s.tb.slot) &&
    (rget s .tick).toNat % 2 ^ rfld s .chorus 36 32 == 0
/-- Is the timebase in UNSYNC (R346)? -/
def unsync (s : State) : Bool := rfld s .timeState 63 60 == 0

/-- Is the slice of a section RUNNING (R403)? -/
def sectRunning (s : State) (n : N20) : Bool := match sectSlice s n with | some x => sliceRunning s x | none => false

/-- A unit's place among stacks, or 20 + port (R468). -/
def unitKey : RecalUnit → Nat
  | .stack n => n.val | .port p => 20 + p.val
/-- The quadrant of a stack, or 4 for a port (R466). -/
def unitQuad : RecalUnit → Nat
  | .stack n => n.val / 5 | .port _ => 4
/-- PTP time in ns at which a unit falls due: 50 ms after a stack's last recalibration, 1 s after a port's (R464). -/
def recalDueAt (s : State) (u : RecalUnit) : Nat :=
  tget s.tb.last 0 (unitKey u) + match u with | .stack _ => 50000000 | .port _ => 1000000000
/-- Is a unit due? -/
def recalDue (s : State) (u : RecalUnit) : Bool := decide (recalDueAt s u ≤ s.tb.time)
/-- The time of a unit's recalibration kept. -/
def recalNow (s : State) (u : RecalUnit) : State := { s with tb := { s.tb with last := tset s.tb.last 0 (unitKey u) s.tb.time } }

/-- A READY stack enters RECAL, once its retirement list is loaded (R300, R435 step 4). -/
def enterRecal (s : State) (n : N20) : State :=
  if rfld s (.mcState n) 63 60 = 2 ∧ memUp s then rsetf (recalNow s (.stack n)) (.mcState n) 63 60 3 else s

/-- Does another stack of the same quadrant recalibrate (R466)? -/
def quadRecal (s : State) (n : N20) : Bool := all20.any fun m => m.val / 5 == n.val / 5 && m != n && rfld s (.mcState m) 63 60 == 3

/-- May a quadrant (0 to 3) or a port (4) recalibrate in the present slot (R466)? -/
def slotFree (s : State) (k : Nat) : Bool := quietSlot s && !s.tb.used.contains k
/-- The present slot used for a recalibration (R466). -/
def useSlot (s : State) (k : Nat) : State := { s with tb := { s.tb with used := k :: s.tb.used } }

/-- Is the present quiet slot available to a unit (R466, R468)? -/
def slotAvail (s : State) (u : RecalUnit) : Bool :=
  slotFree s (unitQuad u) && match u with | .stack n => !quadRecal s n | .port _ => true

/-- HBM_PHY_RECAL: of a READY stack that is due, in a quiet slot, at most one stack of each quadrant; under UNSYNC, when the oscillator's time
makes it due, while its slice is not RUNNING (R464, R466, R468). -/
def execHbmPhyRecal (n : N20) (s : State) : Out :=
  .next (if rfld s (.mcState n) 63 60 ≠ 2 ∨ !memUp s then s
    else if slotAvail s (.stack n) && recalDue s (.stack n) then useSlot (enterRecal s n) (n.val / 5)
    else if unsync s && !sectRunning s n then enterRecal s n
    else s)

/-- The range of an access. -/
def heldRange : HeldAcc → Nat × Nat
  | .req q => (q.addr.toNat, max 1 q.len)
  | .read _ a n => (a, n)
  | .write _ a d => (a, d.length)
  | .fill _ _ _ => (0, 0)
/-- Is a held access one that stack n holds? -/
def heldBy (n : N20) (q : HeldAcc) : Bool :=
  let r := heldRange q
  decide (r.1 < stkBase n + 0xC00000000 ∧ stkBase n < r.1 + r.2)

/-- A BAR2 read of n bytes at device address a: the bytes with their poison (R382). -/
def readBar2 (s : State) (f : FuncId) (a n : Nat) : State :=
  let t := touchRange s a n
  emit t (.readReply f (memBytes t a n) (memPoison t a n))

/-- A held access completes (R299, R466). -/
def applyHeld (s : State) : HeldAcc → State
  | .req q => applyReq s q
  | .read f a n => readBar2 s f a n
  | .write _ a d => writeAll s a d false
  | .fill f a v => sendFill s f a v

/-- A held access ends without its stack: a BAR2 read returns 0xFF bytes, as from an address that is not there (R382, R467). -/
def dropHeld (s : State) : HeldAcc → State
  | .read f _ n => emit s (.readReply f (List.replicate n 0xFF) false)
  | _ => s

/-- A stack passes to FAILED (R453, R467): NT_STACK_FAILED, slice fatal for its slice; what it held is not served. -/
def failStack (s : State) (n : N20) : State :=
  let s := rsetf s (.mcState n) 63 60 4
  let s := releaseFills { (s.held.filter (heldBy n)).foldl dropHeld s with held := s.held.filter fun q => !heldBy n q }
  logEv s ntStackFailed (if (sectSlice s n).isSome then clsSlice else clsNone) (sliceByte (sectSlice s n)) 3 0xFF n.val (mkDetail 0 0)

/-- A unit's overdue mark set or cleared (R468). -/
def setOverdue (s : State) (u : RecalUnit) (b : Bool) : State :=
  { s with tb := { s.tb with overdue := tset s.tb.overdue false (unitKey u) b } }

/-- Does nothing hold an access any more? A FILL waits for writes, not for its memory. -/
def heldFree (s : State) (q : HeldAcc) : Bool := !(match q with | .fill .. => true | _ => false) && !holdsRange s [heldRange q]

/-- The held accesses that nothing holds any more complete in order, and the FILLs behind them go (R232, R299, R415, R466). -/
def serveHeld (s : State) : State :=
  releaseFills ((s.held.filter (heldFree s)).foldl applyHeld { s with held := s.held.filter fun q => !heldFree s q })

/-- A stack returns to READY, and the accesses that it has held complete (R299, R466). -/
def leaveRecal (s : State) (n : N20) : State := serveHeld (setOverdue (rsetf s (.mcState n) 63 60 2) (.stack n) false)

/-- A recalibration of a port: its link goes down where it fails (R467). -/
def recalPort (s : State) (p : PortId) (ok : Bool) : State :=
  let s := setOverdue (recalNow s (.port p)) (.port p) false
  if ok then s else rsetf s (.portStat p) 63 63 0

/-- Does a slice use the port: a valid clutch whose firewall names it (R408)? -/
def portUsed (s : State) (p : PortId) : Bool := all20.any fun n => rbit s (.clCfg n) 31 && (rget s (.fabfw n)).getLsbD p.val

/-- SERDES_RECAL: of a port that is due, in a quiet slot, one port at most, or under UNSYNC while no slice uses the port (R464, R466, R468). -/
def execSerdesRecal (p : PortId) (ok : Bool) (s : State) : Out :=
  .next (if slotAvail s (.port p) && recalDue s (.port p) then useSlot (recalPort s p ok) 4 else if unsync s && !portUsed s p then recalPort s p ok else s)

/-- Does a unit recalibrate at all: a READY stack, a port whose link is up? -/
def recalUnitUp (s : State) : RecalUnit → Bool
  | .stack n => rfld s (.mcState n) 63 60 == 2
  | .port p => rbit s (.portStat p) 63

/-- RECAL_OVERDUE: NT_RECAL_OVERDUE, once, of a unit that has been due for 250 ms of PTP time and has no quiet slot available (R468; DESIGN
CHOICE, log 120). -/
def execRecalOverdue (u : RecalUnit) (s : State) : Out :=
  .next (if tget s.tb.overdue false (unitKey u) || unsync s || !recalUnitUp s u || slotAvail s u ||
      decide (s.tb.time < recalDueAt s u + 250000000) then s
    else
      let s := setOverdue s u true
      match u with
      | .stack n => logEv s ntRecalOverdue clsNone (sliceByte (sectSlice s n)) 3 0xFF n.val (mkDetail 0 0)
      | .port p => logEv s ntRecalOverdue clsNone 0xFF 4 0xFF p.val (mkDetail 0 0))

/-- The chorus period in ns (R348). -/
def chorusP (s : State) : Nat := rfld s .chorus 7 0 * 800

/-- Does a chorus tick start now, met at its start and not by a step (R347, R348)? -/
def tickStarts (s : State) : Bool := s.tb.entered && s.tb.slot == 0 && s.tb.time % chorusP s == 0

/-- Is a unit that has been due for 2 s forced now: it is overdue, and a tick starts (R31, R468)? -/
def forcedNow (s : State) (u : RecalUnit) : Bool :=
  tget s.tb.overdue false (unitKey u) && decide (recalDueAt s u + 2000000000 ≤ s.tb.time) && tickStarts s

/-- A forced recalibration that falls in a quiet slot uses it, and needs it (R466, R468). -/
def forcedOpen (s : State) (u : RecalUnit) : Bool := forcedNow s u && (!quietSlot s || slotAvail s u)
def forcedUse (s : State) (u : RecalUnit) (t : State) : State := if !unsync s && quietSlot s then useSlot t (unitQuad u) else t

/-- RECAL_FORCED: a unit that has been due for 2 s recalibrates at the start of the next tick, whatever the slot plan holds; or when due under
UNSYNC (R468). Of a quadrant and of the ports, no more than one does in a quiet slot (R466). -/
def execRecalForced (u : RecalUnit) (s : State) : Out :=
  .next (match u with
    | .stack n =>
      if (if unsync s then !sectRunning s n else forcedOpen s u) && rfld s (.mcState n) 63 60 == 2 && memUp s then forcedUse s u (enterRecal s n) else s
    | .port p => if (if unsync s then !portUsed s p else forcedOpen s u) then forcedUse s u (recalPort s p true) else s)

end Sys2Proof.Machine
end

