-- ==== Sys2Proof/Machine/Buu.lean ====
section
/-!
DEFINITION. The base-die update units (R307 to R336): programs, spans, group sums, the rule templates, norm records, drain and abort.
-/

namespace Sys2Proof.Machine

def getBuu (s : State) (n : N20) : Buu := tget s.buu buuReset n.val
def putBuu (s : State) (n : N20) (b : Buu) : State := { s with buu := tset s.buu buuReset n.val b }

/-! The update program (R315). -/

/-- An update program, field by field; addresses of tensors and tables are stack offsets. -/
structure UProg where
  rule : Nat
  group : Nat
  form : Nat
  fmt : Nat
  grad : Nat
  wSc : Bool
  gBf : Bool
  sF8 : Bool
  sround : Bool
  sat : Bool
  skipNorm : Bool
  done : Nat
  r : Nat
  c : Nat
  w : Nat
  wIdx : Nat
  wStride : Nat
  wScale : Nat
  scStride : Nat
  mask : Nat
  freeze : Nat
  g : Nat
  s1 : Nat × Nat × Nat
  s2 : Nat × Nat × Nat
deriving DecidableEq, Repr

/-- Word i of a program, and bits of it. -/
def upWord (bs : List Byte) (i : Nat) : Nat := fieldAt bs (8 * i) 8
def upBits (bs : List Byte) (i hi lo : Nat) : Nat := upWord bs i / 2 ^ lo % 2 ^ (hi + 1 - lo)

/-- The program of 128 bytes. -/
def parseUp (bs : List Byte) : UProg :=
  let f (i hi lo : Nat) : Nat := upBits bs i hi lo
  let a (i : Nat) : Nat := f i 43 0
  ⟨f 0 63 62, f 0 61 50, f 0 49 48, f 0 47 44, a 0, f 1 63 63 == 1, f 1 62 62 == 1, f 1 61 61 == 1, f 1 60 60 == 1, f 1 59 59 == 1,
   f 1 58 58 == 1, a 1, f 2 63 44, f 3 63 44, a 2, a 3, f 4 63 48, a 4, f 5 63 48, a 5, a 6, a 7, (a 8, a 9, a 10), (a 11, a 12, a 13)⟩

/-- Format of W, and of the state tensors. -/
def upFmt (p : UProg) : NumFmt := (NumFmt.ofCode p.fmt).getD .bf16
def upSFmt (p : UProg) : NumFmt := if p.sF8 then .f8e else .bf16

/-- Is a stack offset populated and a multiple of m (R307, R315)? -/
def offOk (m a : Nat) : Bool := decide (a < 0xC00000000) && a % m == 0
/-- Do n bytes from a stack offset lie in the populated range (R18, R307)? -/
def spanOk (a n : Nat) : Bool := decide (a + n ≤ 0xC00000000)
/-- Does a range of device addresses lie in the populated range of section n's stack? -/
def ownStack (n : N20) (r : Nat × Nat) : Bool := decide (stkBase n ≤ r.1 ∧ r.1 + r.2 ≤ stkBase n + 0xC00000000)

/-- Is a device address a valid full/empty word for the BC of section n: in a scratchpad or a sync line of the stack's slice (R226,
R307)? -/
def bcTarget (s : State) (n : N20) (a : Nat) : Bool :=
  a % 8 == 0 && (sectSlice s n).isSome &&
    (match placeOf a with
     | .pad c _ => coreSlice s c == sectSlice s n
     | .stack m off => sectSlice s m == sectSlice s n && inWindow s m off
     | _ => false)

/-- Device address of a group table entry, and of an override entry (R317). -/
def groupAt (s : State) (n : N20) (g : Nat) : Nat := stkBase n + rfld s (.updGtab n) 35 0 + 64 * g
def ovrAt (s : State) (n : N20) (g : Nat) : Nat := stkBase n + rfld s (.updOvr n) 35 0 + 8 * g

/-- VALID of a group entry with a curve address in the stack that is a multiple of 8; its reserved bits and bytes are not looked at (R307,
R316, R317; DESIGN CHOICE, log 138). -/
def groupValid (s : State) (n : N20) (g : Nat) : Bool :=
  let w := memNat s (groupAt s n g) 8
  ownStack n (groupAt s n g, 64) && w.testBit 63 && offOk 8 (w % 2 ^ 44) && spanOk (w % 2 ^ 44) (8 * (w / 2 ^ 44 % 64 + 1))

/-- Bytes from the first to past the last of rows of a tensor at a stride in 64-byte units. -/
def rowsSpan (rows stride len : Nat) : Nat := (rows - 1) * stride * 64 + len

/-- Does every tensor of a program, as far as the program itself gives its extent, lie in the stack (R18, R307)? The data of SB64 blocks
follows from their index entries. -/
def upFits (p : UProg) (w sw : Nat) : Bool :=
  let blocks := 8 * (ceilDiv p.r 8 * ceilDiv p.c 8)
  let row (w : Nat) : Nat := if p.form = 2 then ceilDiv p.c 8 * pbGroup w else rowBytes p.c w
  let data (a idx w : Nat) : Bool := if p.form = 1 then spanOk idx (blocks / 2) else spanOk a (rowsSpan p.r p.wStride (row w))
  let scales (a : Nat) : Bool := spanOk a (rowsSpan p.r p.scStride (ceilDiv p.c 32))
  let s2 := p.rule == 1 || p.rule == 3
  data p.w p.wIdx w && data p.s1.1 p.s1.2.1 sw && (!s2 || data p.s2.1 p.s2.2.1 sw) && spanOk p.freeze blocks && spanOk p.mask blocks &&
    (p.form == 1 || spanOk p.g ((if p.gBf then 16 else 32) / w * rowsSpan p.r p.wStride (row w))) &&
    (!p.wSc || scales p.wScale) && scales p.s1.2.2 && (!s2 || scales p.s2.2.2)

/-- Does a program keep R307, R311 and R315 (R316)? Bits 47 to 44 of words 4 and 5, which R315 does not name, may be anything (DESIGN CHOICE,
log 136). -/
def upOk (s : State) (n : N20) (bs : List Byte) : Bool :=
  let p := parseUp bs
  let sb := p.form == 1
  decide (p.form < 3) && decide (1 ≤ p.fmt) && decide (p.fmt ≤ 5) &&
    upBits bs 1 57 44 == 0 && ([6, 7, 8, 9, 10, 11, 12, 13].all fun i => upBits bs i 63 44 == 0) && upWord bs 14 == 0 && upWord bs 15 == 0 &&
    decide (1 ≤ p.r) && decide (1 ≤ p.c) &&
    ([p.w, p.wIdx, p.wScale, p.mask, p.freeze, p.g, p.s1.1, p.s1.2.1, p.s1.2.2, p.s2.1, p.s2.2.1, p.s2.2.2].all (offOk 64)) &&
    (sb || (p.wIdx == 0 && p.s1.2.1 == 0 && p.s2.2.1 == 0)) && (!sb || p.wStride == 0) && (p.wSc || p.wScale == 0) &&
    (p.rule == 1 || p.rule == 3 || (p.s2.1 == 0 && p.s2.2.1 == 0 && p.s2.2.2 == 0)) &&
    upFits p (upFmt p).width (upSFmt p).width && bcTarget s n p.grad && bcTarget s n p.done

/-! Positions (R312 to R314). -/

/-- Where the positions of a block are stored: for each bit number the base and number of its code; the ranges of index entry, bitmap or
metadata that say so; and whether the block is dense-coded. -/
structure PosBlk where
  at_ : List (Option (Nat × Nat))
  head : List (Nat × Nat)
  denseCoded : Bool
deriving DecidableEq, Repr

/-- Block (br, bc) of a tensor of width w at data, with block index idx; a malformed block, and one that ends past the stack, stores no
position (DEDUCED, log 27); of a PB8 group that names one column twice the first value stays (R76; DESIGN CHOICE, log 135). -/
def posBlk (s : State) (form w data idx stride rows cols br bc : Nat) : PosBlk :=
  let ins (i : Nat) : Bool := !edgePos rows cols br bc i
  if form = 1 then
    let ea := idx + 4 * (br * ceilDiv cols 8 + bc)
    let e := memNat s ea 4
    let a := data + e / 128 * 16
    let last := data / 0x1000000000 * 0x1000000000 + 0xC00000000
    if last < a + (if e % 128 = 127 then denseSize w else blkSize (e % 128) w) then ⟨List.replicate 64 none, [(ea, 4)], false⟩
    else if e % 128 = 127 then ⟨(List.range 64).map fun i => if ins i then some (a, i) else none, [(ea, 4)], true⟩
    else if e % 128 = 0 ∨ 64 < e % 128 then ⟨List.replicate 64 none, [(ea, 4)], false⟩
    else
      let bm := memNat s a 8
      if rankBelow bm 64 ≠ e % 128 then ⟨List.replicate 64 none, [(ea, 4), (a, 8)], false⟩
      else ⟨(List.range 64).map fun i => if bm.testBit i && ins i then some (a + 8, rankBelow bm i) else none, [(ea, 4), (a, 8)], false⟩
  else if form = 2 then
    let row (r : Nat) : Nat := data + (8 * br + r) * stride * 64 + bc * pbGroup w
    let rs := (List.range 8).filter fun r => decide (8 * br + r < rows)
    ⟨(List.range 64).map fun i =>
       let m := memNat s (row (i / 8)) 1
       if !ins i || m / 64 == 3 then none
       else if 1 ≤ m / 64 ∧ m / 8 % 8 = i % 8 then some (row (i / 8) + 1, 0)
       else if m / 64 = 2 ∧ m % 8 = i % 8 then some (row (i / 8) + 1, 1) else none,
     rs.map fun r => (row r, 1), false⟩
  else ⟨(List.range 64).map fun i => if ins i then some (data + (8 * br + i / 8) * stride * 64, 8 * bc + i % 8) else none, [], false⟩

/-- Device address of the mask or freeze word of a block (R67). -/
def planeWord (n : N20) (base cols br bc : Nat) : Nat := stkBase n + base + 8 * (br * ceilDiv cols 8 + bc)

/-- W's block. -/
def wPos (s : State) (n : N20) (p : UProg) (br bc : Nat) : PosBlk :=
  posBlk s p.form (upFmt p).width (stkBase n + p.w) (stkBase n + p.wIdx) p.wStride p.r p.c br bc
/-- A state tensor's block. -/
def sPos (s : State) (n : N20) (p : UProg) (t : Nat × Nat × Nat) (br bc : Nat) : PosBlk :=
  posBlk s p.form (upSFmt p).width (stkBase n + t.1) (stkBase n + t.2.1) p.wStride p.r p.c br bc

/-- Is the mask word of a block read: DENSE W, and dense-coded blocks (R312)? -/
def readsMask (p : UProg) (b : PosBlk) : Bool := p.form == 0 || b.denseCoded

/-- Address of a stored position's gradient in the companion layout (R125). -/
def gradAt (n : N20) (p : UProg) (x : Nat × Nat) : Nat :=
  let cb := if p.gBf then 16 else 32
  stkBase n + p.g + cb / (upFmt p).width * (x.1 - (stkBase n + p.w)) + x.2 * (cb / 8)

/-- The bytes of a position's gradient. -/
def gradBytes (n : N20) (p : UProg) (x : Nat × Nat) : Nat × Nat := (gradAt n p x, if p.gBf then 2 else 4)

/-- The stored positions of a block, whose gradients lie in the stack (R18, R313; DEDUCED, log 27). -/
def stored (n : N20) (p : UProg) (b : PosBlk) : List Nat :=
  (List.range 64).filter fun i => match nthD b.at_ i none with | some y => ownStack n (gradBytes n p y) | none => false

/-- The updated positions of a block: stored, active, not frozen (R312). -/
def updated (s : State) (n : N20) (p : UProg) (b : PosBlk) (br bc : Nat) : List Nat :=
  let frz := memNat s (planeWord n p.freeze p.c br bc) 8
  let msk := memNat s (planeWord n p.mask p.c br bc) 8
  (stored n p b).filter fun i => !frz.testBit i && (!readsMask p b || msk.testBit i)

/-- The gradient of a position, in F32, and its poison. -/
def gradOf (s : State) (n : N20) (p : UProg) (x : Nat × Nat) : W32 × Bool :=
  let a := gradAt n p x
  if p.gBf then (BitVec.ofNat 32 (memNat s a 2 * 65536), memPoison s a 2) else (BitVec.ofNat 32 (memNat s a 4), memPoison s a 4)

/-- Spans of a pass, and the block row and span column of span k (R314). -/
def spanCols (p : UProg) : Nat := ceilDiv p.c 32
def spanTotal (p : UProg) : Nat := ceilDiv p.r 8 * spanCols p
def spanBlocks (p : UProg) (k : Nat) : List (Nat × Nat) :=
  let br := k / spanCols p
  let j := k % spanCols p
  ((List.range 4).map fun q => (br, 4 * j + q)).filter fun x => decide (x.2 < ceilDiv p.c 8)

/-! Pass 1 (R319 step 2, R325). -/

/-- A group refused for poison: once in a step it is counted and logged (R325, R454). -/
def refuseGroup (s : State) (n : N20) (g : Nat) : State :=
  let b := getBuu s n
  if tget b.refused false g then s
  else
    let s := putBuu s n { b with refused := tset b.refused false g true, first := b.first.or (some s.log.nextEv) }
    let s := rbump s (.updStat n) 63 48 1
    logEv s (stCode .updatePoison) clsSlice (sliceByte (sectSlice s n)) 3 0xFF n.val (mkDetail g 0)

/-- One block of pass 1: the sum goes on over its updated positions; poison met in what it reads. -/
def pass1Block (s : State) (n : N20) (p : UProg) (acc : W32 × Bool) (x : Nat × Nat) : W32 × Bool :=
  let b := wPos s n p x.1 x.2
  let any := b.at_.any Option.isSome
  let hp := b.head.any (fun r => memPoison s r.1 r.2) ||
    (any && (memPoison s (planeWord n p.freeze p.c x.1 x.2) 8 || (readsMask p b && memPoison s (planeWord n p.mask p.c x.1 x.2) 8)))
  let gp := (stored n p b).any fun i => match nthD b.at_ i none with | some y => (gradOf s n p y).2 | none => false
  (updated s n p b x.1 x.2).foldl (fun a i =>
    match nthD b.at_ i none with
    | some y => let g := gradOf s n p y; (f32Fma g.1 g.1 a.1, a.2)
    | none => a) (acc.1, acc.2 || hp || gp)

/-- The bytes that pass 1 reads for a block: what says where its positions are, its freeze and mask words, and the gradients of its stored
positions, updated or not (R312, R325). -/
def blockReads (s : State) (n : N20) (p : UProg) (x : Nat × Nat) : List (Nat × Nat) :=
  let b := wPos s n p x.1 x.2
  b.head ++
    (if b.at_.any Option.isSome then
      (planeWord n p.freeze p.c x.1 x.2, 8) :: (if readsMask p b then [(planeWord n p.mask p.c x.1 x.2, 8)] else []) else []) ++
    (stored n p b).filterMap fun i => (nthD b.at_ i none).map (gradBytes n p)

/-- A span of pass 1. -/
def pass1Span (s : State) (n : N20) (p : UProg) : State :=
  let s := touchBase s ((spanBlocks p (getBuu s n).span).flatMap (blockReads s n p))
  let b := getBuu s n
  let r := (spanBlocks p b.span).foldl (pass1Block s n p) (b.acc, false)
  let s := putBuu s n { b with acc := r.1, span := b.span + 1 }
  if r.2 then refuseGroup s n p.group else s

/-! Pass 2 (R317, R318, R321 to R326). -/

/-- A breakpoint of a curve: step and value (R318). -/
abbrev BreakPt := Nat × W32
/-- The breakpoints of the curve at a device address. -/
def readCurve (s : State) (a k : Nat) : List BreakPt :=
  (List.range k).map fun i => (memNat s (a + 8 * i) 4, BitVec.ofNat 32 (memNat s (a + 8 * i + 4) 4))

/-- Do the steps of a curve never decrease? -/
def curveOk : List BreakPt → Bool
  | a :: b :: r => decide (a.1 ≤ b.1) && curveOk (b :: r)
  | _ => true

/-- An unsigned number in F32 (R318). -/
def u32F (x : Nat) : W32 := toF32 (Val.ofInt x 0)

/-- The value of the curve after its first breakpoint: the segment that holds t, else the last value. -/
def curveFrom (t : Nat) : List BreakPt → W32
  | a :: b :: r =>
    if t < b.1 then f32Fma (f32Div (u32F (t - a.1)) (u32F (b.1 - a.1))) (f32Sub b.2 a.2) a.2 else curveFrom t (b :: r)
  | a :: [] => a.2
  | [] => 0

/-- The step size of a curve at step t (R318). -/
def curveVal (t : Nat) (bp : List BreakPt) : W32 :=
  match bp with
  | a :: _ => if t ≤ a.1 then a.2 else curveFrom t bp
  | [] => 0

/-- powi of R322, over at most k bits of n. -/
def powiAux : Nat → W32 → W32 → Nat → W32
  | 0, r, _, _ => r
  | k + 1, r, b, n => if n = 0 then r else powiAux k (if n % 2 = 1 then f32Mul r b else r) (f32Mul b b) (n / 2)
def powi (b : W32) (n : Nat) : W32 := powiAux 32 0x3F800000 b n

/-- The constant 1. -/
def f32One : W32 := 0x3F800000

/-- A bias correction (R322). -/
def biasCorr (on : Bool) (b : W32) (t : Nat) : W32 := if on then f32Sub f32One (powi b (min (t + 1) 0xFFFFFFFF)) else f32One

/-- The clipping factor (R321). -/
def clipFactor (clip norm : W32) : W32 :=
  if ltV Val.zero (f32 clip) && ltV (f32 clip) (f32 norm) then f32Div clip norm else f32One

/-- What the group entry and the curve or override entry give a program at its pass 2 (R317, R318, R321, R322); none where it is
refused there. -/
def pass2Of (s : State) (n : N20) (p : UProg) (b : Buu) : Option Pass2 :=
  let a := groupAt s n p.group
  let w := memNat s a 8
  let f (o : Nat) : W32 := BitVec.ofNat 32 (memNat s (a + o) 4)
  let t := rfld s (.updStep n) 31 0
  let bc (x : W32) : W32 := biasCorr (w.testBit 62) x t
  let mk (eta lam : W32) : Pass2 := ⟨clipFactor (f 24) b.norm, eta, lam, bc (f 8), bc (f 12), f 8, f 12, f 16⟩
  if !groupValid s n p.group ∨ (b.ovr ∧ !ownStack n (ovrAt s n p.group, 8)) then none
  else if b.ovr then
    let o := ovrAt s n p.group
    some (mk (BitVec.ofNat 32 (memNat s o 4)) (BitVec.ofNat 32 (memNat s (o + 4) 4)))
  else
    let bp := readCurve s (stkBase n + w % 2 ^ 36) (w / 2 ^ 44 % 64 + 1)
    if curveOk bp then some (mk (curveVal t bp) (f 20)) else none

/-- The bytes of the group entry, and of the override entry or the curve, that pass 2 of a program reads (R317, R318). -/
def entryReads (s : State) (n : N20) (p : UProg) (b : Buu) : List (Nat × Nat) :=
  let a := groupAt s n p.group
  let w := memNat s a 8
  (if ownStack n (a, 64) then [(a, 64)] else []) ++ (if !groupValid s n p.group ∨ (b.ovr ∧ !ownStack n (ovrAt s n p.group, 8)) then []
    else if b.ovr then [(ovrAt s n p.group, 8)]
    else [(stkBase n + w % 2 ^ 36, 8 * (w / 2 ^ 44 % 64 + 1))])

/-- sgn of R323. -/
def sgnF (x : W32) : W32 :=
  if (f32 x).isNan then 0x7FC00000 else if ltV (f32 x) Val.zero then 0xBF800000 else if ltV Val.zero (f32 x) then f32One else 0

/-- The rule templates: new w, m and v of a position (R323). -/
def ruleStep (rule : Nat) (q : Pass2) (w m v g : W32) : W32 × W32 × W32 :=
  let gc := f32Mul g q.c
  let b1m := f32Sub f32One q.beta1
  let b2m := f32Sub f32One q.beta2
  let r : W32 × W32 × W32 :=
    if rule = 0 then let m' := f32Fma q.beta1 m gc; (m', m', v)
    else if rule = 2 then (sgnF (f32Fma q.beta1 m (f32Mul b1m gc)), f32Fma q.beta2 m (f32Mul b2m gc), v)
    else
      let m' := f32Fma q.beta1 m (f32Mul b1m gc)
      let v' := f32Fma q.beta2 v (f32Mul b2m (f32Mul gc gc))
      (f32Div (f32Div m' q.bc1) (f32Add (f32Sqrt (f32Div v' q.bc2)) q.eps), m', v')
  (f32Fma (toF32 (negV (f32 q.eta))) (f32Fma q.lam w r.1) w, r.2.1, r.2.2)

/-- The scale byte of a row of span k in a scale array, and its address (R254). -/
def scAddr (n : N20) (p : UProg) (base row k : Nat) : Nat := stkBase n + base + row * p.scStride * 64 + k % spanCols p

/-- A stored value in F32 with its poison. -/
def loadVal (s : State) (f : NumFmt) (scaled : Bool) (sa : Nat) (x : Nat × Nat) : W32 × Bool :=
  let c := readCode s f.width x.1 x.2
  let v := decodeNum f c.1
  if scaled then (toF32 (scaledVal v (BitVec.ofNat 8 (memNat s sa 1))), c.2 || memPoison s sa 1) else (toF32 v, c.2)

/-- One updated position of a span: block, bit, row; where W, S1 and S2 hold it; its new values with their poison. -/
structure NewPos where
  row : Nat
  w : Nat × Nat
  m? : Option (Nat × Nat)
  v? : Option (Nat × Nat)
  wv : W32 × Bool
  mv : W32 × Bool
  vv : W32 × Bool
deriving DecidableEq, Repr

/-- Does a rule use S2 (R311)? -/
def usesS2 (p : UProg) : Bool := p.rule == 1 || p.rule == 3

/-- The new values of the updated positions of a block, in bit order (R313, R323). -/
def newBlock (s : State) (n : N20) (p : UProg) (q : Pass2) (k : Nat) (x : Nat × Nat) : List NewPos :=
  let b := wPos s n p x.1 x.2
  let b1 := sPos s n p p.s1 x.1 x.2
  let b2 := sPos s n p p.s2 x.1 x.2
  (updated s n p b x.1 x.2).filterMap fun i =>
    match nthD b.at_ i none with
    | none => none
    | some y =>
      let row := 8 * x.1 + i / 8
      let m? := nthD b1.at_ i none
      let v? := if usesS2 p then nthD b2.at_ i none else none
      let st (t : Nat × Nat × Nat) (o : Option (Nat × Nat)) : W32 × Bool :=
        match o with | some z => loadVal s (upSFmt p) true (scAddr n p t.2.2 row k) z | none => (0, false)
      let w := loadVal s (upFmt p) p.wSc (scAddr n p p.wScale row k) y
      let m := st p.s1 m?
      let v := st p.s2 v?
      let g := gradOf s n p y
      let r := ruleStep p.rule q w.1 m.1 v.1 g.1
      let pm := m.2 || g.2
      let pv := v.2 || g.2
      some ⟨row, y, m?, v?, (r.1, w.2 || pm || (usesS2 p && pv)), (r.2.1, pm), (r.2.2, pv)⟩

/-- How a scale block of a row is written: not scaled, kept under its byte, or chosen with its byte and poison (R324). -/
inductive ScaleUse where
  | none
  | keep (b : Byte)
  | pick (b : Byte) (p : Bool)
deriving DecidableEq, Repr

/-- Positions of a row stored in a tensor's blocks of a span. -/
def rowStored (bs : List PosBlk) (r : Nat) : Nat :=
  (bs.map fun b => ((List.range 8).filter fun j => (nthD b.at_ (8 * r + j) none).isSome).length).foldl (· + ·) 0

/-- The use of a row's scale byte, from its stored positions, its new values and the byte held (R324 steps 1 and 2). -/
def scaleUse (f : NumFmt) (stored : Nat) (news : List (W32 × Bool)) (held : Byte) : ScaleUse :=
  if stored = news.length then .pick (chooseScale f (news.map fun x => f32 x.1)) (news.any Prod.snd) else .keep held

/-- The code of a new value under its row's scale byte, and its poison. -/
def newCode (f : NumFmt) (sat : Bool) (r : Rnd) (u : ScaleUse) (x : W32 × Bool) : Nat × Bool :=
  match u with
  | .none => (convertNum f sat r (f32 x.1), x.2)
  | .keep b => (encodeScaled f sat r b (f32 x.1), x.2)
  | .pick b p => (encodeScaled f sat r b (f32 x.1), x.2 || p)

/-- A rounding for one stored value of a BUU: a word of the section's generator where SROUND is set (R49, R324). -/
def buuRound (s : State) (n : N20) (sround : Bool) : State × Rnd :=
  if sround then (let q := drawRng s n; (q.1, .sr q.2)) else (s, .rne)

/-- An element that pass 2 stores: its format, its place, the use of its row's scale byte, its new value with the poison. -/
structure NewCode where
  fmt : NumFmt
  at_ : Nat × Nat
  use : ScaleUse
  val : W32 × Bool
deriving DecidableEq, Repr

/-- One element stored at its place: rounded, saturated and scaled (R45, R323). -/
def putCode (n : N20) (p : UProg) (acc : State × Run) (x : NewCode) : State × Run :=
  let d := buuRound acc.1 n p.sround
  let c := newCode x.fmt p.sat d.2 x.use x.val
  (d.1, acc.2.code x.fmt.width x.at_.1 x.at_.2 c.1 c.2)

/-- The bytes of a code. -/
def codeRange (w : Nat) (x : Nat × Nat) : Nat × Nat := if w = 4 then (x.1 + x.2 / 2, 1) else (x.1 + x.2 * (w / 8), w / 8)

/-- The bytes that pass 2 reads for a block of span k: those of pass 1, and the values and scale bytes of its stored positions, updated or
not (R312). -/
def newReads (s : State) (n : N20) (p : UProg) (k : Nat) (x : Nat × Nat) : List (Nat × Nat) :=
  let b := wPos s n p x.1 x.2
  let us := stored n p b
  let row (i : Nat) : Nat := 8 * x.1 + i / 8
  let vals (f : NumFmt) (b : PosBlk) (sc : Bool) (base : Nat) : List (Nat × Nat) :=
    us.flatMap fun i => match nthD b.at_ i none with
      | some y => codeRange f.width y :: (if sc then [(scAddr n p base (row i) k, 1)] else [])
      | none => []
  let st (t : Nat × Nat × Nat) : List (Nat × Nat) :=
    let b := sPos s n p t x.1 x.2
    if us.isEmpty then [] else b.head ++ vals (upSFmt p) b true t.2.2
  blockReads s n p x ++ vals (upFmt p) b p.wSc p.wScale ++ st p.s1 ++ (if usesS2 p then st p.s2 else [])

/-- How the scale bytes of each of the eight rows of span k are written: for W, S1 and S2 (R324 steps 1 and 2). -/
def spanUses (s : State) (n : N20) (p : UProg) (q : Pass2) (k : Nat) : List (ScaleUse × ScaleUse × ScaleUse) :=
  let blks := spanBlocks p k
  let news := blks.flatMap (newBlock s n p q k)
  let br := k / spanCols p
  let wB := blks.map fun x => wPos s n p x.1 x.2
  let s1B := blks.map fun x => sPos s n p p.s1 x.1 x.2
  let s2B := blks.map fun x => sPos s n p p.s2 x.1 x.2
  let of (r : Nat) : List NewPos := news.filter fun x => x.row == 8 * br + r
  let held (base r : Nat) : Byte := BitVec.ofNat 8 (memNat s (scAddr n p base (8 * br + r) k) 1)
  let uw (r : Nat) : ScaleUse := if p.wSc then scaleUse (upFmt p) (rowStored wB r) ((of r).map NewPos.wv) (held p.wScale r) else .none
  let um (r : Nat) : ScaleUse :=
    scaleUse (upSFmt p) (rowStored s1B r) (((of r).filter fun x => x.m?.isSome).map NewPos.mv) (held p.s1.2.2 r)
  let uv (r : Nat) : ScaleUse :=
    scaleUse (upSFmt p) (rowStored s2B r) (((of r).filter fun x => x.v?.isSome).map NewPos.vv) (held p.s2.2.2 r)
  (List.range 8).map fun r => (uw r, um r, if usesS2 p then uv r else .none)

/-- The elements that span k stores: of each updated position in order its value in W, then in S1 and in S2 where those hold it (R323, R324). -/
def spanCodes (s : State) (n : N20) (p : UProg) (q : Pass2) (k : Nat) : List NewCode :=
  let table := spanUses s n p q k
  ((spanBlocks p k).flatMap (newBlock s n p q k)).flatMap fun y =>
    let u := nthD table (y.row - 8 * (k / spanCols p)) (.none, .none, .none)
    ⟨upFmt p, y.w, u.1, y.wv⟩ :: ((y.m?.toList.map fun z => ⟨upSFmt p, z, u.2.1, y.mv⟩) ++ y.v?.toList.map fun z => ⟨upSFmt p, z, u.2.2, y.vv⟩)

/-- The scale bytes that span k writes: address, byte and poison, row by row, those of W, S1 and S2 in order (R324 step 1). -/
def spanScales (s : State) (n : N20) (p : UProg) (q : Pass2) (k : Nat) : List (Nat × Byte × Bool) :=
  let table := spanUses s n p q k
  let br := k / spanCols p
  let one (base row : Nat) (u : ScaleUse) : List (Nat × Byte × Bool) :=
    match u with
    | .pick c pz => [(scAddr n p base (8 * br + row) k, c, pz)]
    | _ => []
  ((List.range 8).filter fun r => decide (8 * br + r < p.r)).flatMap fun row =>
    let u := nthD table row (.none, .none, .none)
    one p.wScale row u.1 ++ one p.s1.2.2 row u.2.1 ++ one p.s2.2.2 row u.2.2

/-- A span of pass 2: every updated position computed from what the span held, then written (R323, R324). -/
def pass2Span (s : State) (n : N20) (p : UProg) (q : Pass2) : State :=
  let k := (getBuu s n).span
  let s := touchBase s ((spanBlocks p k).flatMap (newReads s n p k))
  let x := (spanCodes s n p q k).foldl (putCode n p) (s, run0)
  let r := (spanScales s n p q k).foldl (fun r y => r.bytes y.1 [y.2.1] y.2.2 true) x.2
  let s := applyWritesAs true x.1 r.ws
  putBuu s n { getBuu s n with span := k + 1 }

/-! The step (R308, R319, R320). -/

/-- The list index is the last of the list. -/
def lastProg (s : State) (n : N20) (b : Buu) : Bool := decide (rfld s (.updCtl n) 42 32 ≤ b.prog + 1)

/-- Where program i of the list stands, and whether it lies in the stack (R307). -/
def upAt (s : State) (n : N20) (i : Nat) : Nat := stkBase n + rfld s (.updList n) 35 0 + 128 * i
def upIn (s : State) (n : N20) (i : Nat) : Bool := ownStack n (upAt s n i, 128)
/-- The bytes of program i; none where it passes the stack, which is all that the BUU reads (R18, R307). -/
def upBytes (s : State) (n : N20) (i : Nat) : List Byte := if upIn s n i then memBytes s (upAt s n i) 128 else []

/-- A program refused (R316): one event with its list index, one count. -/
def refuseProg (s : State) (n : N20) : State :=
  let b := getBuu s n
  let s := rbump (putBuu s n { b with bad := tset b.bad false b.prog true }) (.updStat n) 31 16 1
  logEv s (stCode .updateProgram) clsNone (sliceByte (sectSlice s n)) 3 0xFF n.val (mkDetail 0 b.prog)

/-- The current program's pass 1 is over: the next program's turn, or the end of pass 1; a drain ends here (R319, R327). -/
def endPass1 (s : State) (n : N20) : State :=
  let b := getBuu s n
  let b := { b with begun := false, span := 0, acc := 0, mode := (if b.mode = .draining then .halted else b.mode) }
  putBuu s n (if lastProg s n b then { b with phase := 1 } else { b with phase := 0, prog := b.prog + 1 })

/-- The BC's TAKE of section n that is in flight, waits or is satisfied. -/
def bcTake (s : State) (n : N20) : Option FeOp := s.feOps.find? fun x => x.src == .bc n && x.kind == .take

/-- The turn of the current program in pass 1: the BC's TAKE of its GRAD_WORD leaves; a program whose GRAD_WORD is no word that it may
take is refused and the next one's turn comes (R307, R316, R319); a stack in RECAL holds the reads (R299). At most k programs. -/
def buuArm (n : N20) : Nat → State → State
  | 0, s => s
  | k + 1, s =>
    let b := getBuu s n
    if b.mode ≠ .running ∨ b.phase ≠ 0 ∨ rfld s (.updCtl n) 42 32 = 0 ∨ !stackOpen s n ∨ sectHeld s n ∨ (bcTake s n).isSome then s
    else
      let bs := upBytes s n b.prog
      let g := (parseUp bs).grad
      if upIn s n b.prog && bcTarget s n g then
        { s with feOps := s.feOps ++ [⟨s.nextOp, .bc n, .take, g, false, 0, none, 0, 0, 0, false, s.now, none⟩], nextOp := s.nextOp + 1 }
      else
        let s := putBuu s n { b with ovr := (if b.prog = 0 then rbit s (.updCtl n) 8 else b.ovr), progs := tset b.progs [] b.prog bs }
        buuArm n k (endPass1 (refuseProg s n) n)

/-- The next program's turn, where it has come. -/
def buuNext (s : State) (n : N20) : State := buuArm n 1025 s

/-- The taken GRAD_WORD's program is read and its pass 1 starts, or it is refused (R316, R319). The group entry is read here for VALID, and again
at pass 2 (R317; DESIGN CHOICE, log 137). -/
def beginPass1 (s : State) (n : N20) : State :=
  let b := getBuu s n
  let s := touchBase s (if upIn s n b.prog then [(upAt s n b.prog, 128)] else [])
  let bs := upBytes s n b.prog
  let g := groupAt s n (parseUp bs).group
  let s := touchBase s (if upIn s n b.prog && ownStack n (g, 8) then [(g, 8)] else [])
  let s := putBuu s n { b with phase := 1, begun := true, span := 0, acc := 0, progs := tset b.progs [] b.prog bs,
                               ovr := (if b.prog = 0 then rbit s (.updCtl n) 8 else b.ovr) }
  if upIn s n b.prog && upOk s n bs && groupValid s n (parseUp bs).group then s
  else buuNext (endPass1 (refuseProg s n) n) n

/-- The current program as pass 1 read it. -/
def curProg (b : Buu) : UProg := parseUp (tget b.progs [] b.prog)

/-- One span of the current pass (R314); the sum enters the group's entry at the end of pass 1 (R319). A stack in RECAL holds what a span
reads and writes (R299). -/
def buuSpan (s : State) (n : N20) : State :=
  let b := getBuu s n
  let p := curProg b
  if !b.begun ∨ (b.mode ≠ .running ∧ b.mode ≠ .draining) ∨ !stackOpen s n ∨ sectHeld s n then s
  else if b.phase = 1 then
    let s := pass1Span s n p
    let b := getBuu s n
    if b.span < spanTotal p then s
    else
      let sums := if p.skipNorm then b.sums else tset b.sums 0 p.group (f32Add (tget b.sums 0 p.group) b.acc)
      buuNext (endPass1 (putBuu s n { b with sums := sums }) n) n
  else
    match b.p2 with
    | some q => if b.phase = 3 ∧ b.span < spanTotal p then pass2Span s n p q else s
    | none => s

/-- Is the norm of the step NaN or infinite (R321)? -/
def normBad (x : W32) : Bool := match f32 x with | .fin _ _ _ => false | _ => true

/-- Pass 2 of the current program starts (R319 step 6, R321). -/
def beginPass2 (s : State) (n : N20) : State :=
  let b := getBuu s n
  let p := curProg b
  let s := putBuu s n { b with phase := 3, begun := true, span := 0, p2 := none }
  if normBad b.norm then
    (if b.prog = 0 then
      logEv (rbump s (.updStat n) 47 32 1) (stCode .normNonfinite) clsNone (sliceByte (sectSlice s n)) 3 0xFF n.val
        (mkDetail (rfld s (.updStep n) 31 0) 0)
     else s)
  else if tget b.bad false b.prog || tget b.refused false p.group then s
  else
    let s := touchBase s (entryReads s n p b)
    match pass2Of s n p b with
    | some q => putBuu s n { getBuu s n with p2 := some q }
    | none => refuseProg s n

/-- Status that a program's DONE_WORD takes (R316, R320, R321, R325). -/
def doneStatus (b : Buu) : Status :=
  if normBad b.norm then .normNonfinite
  else if tget b.bad false b.prog then .updateProgram
  else if tget b.refused false (curProg b).group then .updatePoison
  else .ok

/-- The BC's FILL of a DONE_WORD with a status and the step (R320); a word that is no target takes none. -/
def fillDone (s : State) (n : N20) (a : Nat) (st : Status) : State :=
  let v : W64 := BitVec.ofNat 64 (stCode st + rfld s (.updStep n) 31 0 * 2 ^ 32)
  if bcTarget s n a then
    { s with feOps := s.feOps ++ [⟨s.nextOp, .bc n, .fill, a, false, v, none, 0, 0, 0, false, s.now, none⟩], nextOp := s.nextOp + 1 }
  else s

/-- The current program's DONE_WORD filled, where the program has been read (R307, R320). -/
def endProg (s : State) (n : N20) (st : Status) : State :=
  let b := getBuu s n
  if (tget b.progs [] b.prog).isEmpty then s else fillDone s n (curProg b).done st

/-- Is the current program the last of the step whose DONE_WORD takes ST_UPDATE_POISON (R454)? -/
def lastRefused (s : State) (n : N20) (b : Buu) : Bool :=
  !(List.range (rfld s (.updCtl n) 42 32)).any fun i =>
    decide (b.prog < i) && !tget b.bad false i && tget b.refused false (parseUp (tget b.progs [] i)).group

/-- The moment at which a refusal for poison becomes slice fatal: the record of the step's first one goes to the archive, where it has come
(R454, R461). -/
def poisonFatal (s : State) (n : N20) (b : Buu) : State :=
  match b.first, sectSlice s n with
  | some e, some x =>
    let s := { s with log := { s.log with fatals := s.log.fatals ++ [(x.val, stCode .updatePoison, e)] } }
    (match (logRing s x.val).find? fun r => r.ev.id == e with | some r => archiveRec s r | none => s)
  | _, _ => s

/-- A new step: nothing refused, program 0 in phase 0. -/
def newStep (b : Buu) : Buu :=
  { b with phase := 0, prog := 0, span := 0, begun := false, normValid := false, progs := [], bad := [], refused := [], first := none,
           p2 := none, acc := 0 }

/-- After pass 2 of the current program: its DONE_WORD, then the next program or the next step (R319 steps 7 and 8). -/
def programDone (s : State) (n : N20) : State :=
  let b := getBuu s n
  let st := doneStatus b
  let s := endProg s n st
  let s := if st = .updatePoison ∧ lastRefused s n b then poisonFatal s n b else s
  let m : EngMode := if b.mode = .draining then .halted else b.mode
  if lastProg s n b then
    let s := rsetf s (.updStep n) 31 0 ((rfld s (.updStep n) 31 0 + 1) % 2 ^ 32)
    buuNext (putBuu s n { newStep b with mode := m }) n
  else putBuu s n { b with prog := b.prog + 1, begun := false, span := 0, p2 := none, mode := m }

/-! Norm records (R319 steps 4 and 5, R334). -/

/-- A record written into STKnn_UPD_NORM. -/
def acceptNorm (s : State) (n : N20) (v : W64) : State :=
  let s := rput s (.updNorm n) v
  if bits v 63 32 = rfld s (.updStep n) 31 0 then putBuu s n { getBuu s n with normValid := true, norm := v.setWidth 32 }
  else
    logEv (rbump s (.updStat n) 15 0 1) (stCode .normStale) clsNone (sliceByte (sectSlice s n)) 3 0xFF n.val (mkDetail 0 (bits v 63 32))

/-! Drain and abort (R327). -/

/-- The BC's TAKE withdrawn, unless its word has satisfied it. -/
def withdrawTake (s : State) (n : N20) : State :=
  { s with feOps := s.feOps.filter fun x => !(x.src == .bc n && x.kind == .take && x.got.isNone) }

/-- EN cleared. -/
def drainBuu (s : State) (n : N20) : State :=
  let b := getBuu s n
  if b.mode ≠ .running then s
  else withdrawTake (putBuu s n { b with mode := (if b.begun then .draining else .halted) }) n

/-- EN set: the BUU starts or resumes. -/
def enableBuu (s : State) (n : N20) : State := buuNext (putBuu s n { getBuu s n with mode := .running }) n

/-- Byte ranges of W's values, of the state tensors' values, and of their scale arrays (R327). -/
def valRanges (s : State) (n : N20) (p : UProg) (f : NumFmt) (data idx : Nat) : List (Nat × Nat) :=
  let base := stkBase n + data
  if p.form = 1 then
    (List.range (ceilDiv p.r 8 * ceilDiv p.c 8)).map fun i =>
      let e := if spanOk (idx + 4 * i) 4 then memNat s (stkBase n + idx + 4 * i) 4 else 0
      (base + e / 128 * 16, if e % 128 = 127 then denseSize f.width else if e % 128 = 0 ∨ 64 < e % 128 then 0 else blkSize (e % 128) f.width)
  else
    (List.range p.r).map fun r =>
      (base + r * p.wStride * 64, if p.form = 2 then ceilDiv p.c 8 * pbGroup f.width else rowBytes p.c f.width)
def scRanges (n : N20) (p : UProg) (base : Nat) : List (Nat × Nat) :=
  (List.range p.r).map fun r => (stkBase n + base + r * p.scStride * 64, spanCols p)

/-- Every sector of the current program's W and state values and of their scale arrays tagged, as far as it lies in the stack (R327). -/
def tagProgram (s : State) (n : N20) (p : UProg) : State :=
  let rs := valRanges s n p (upFmt p) p.w p.wIdx ++ (if p.wSc then scRanges n p p.wScale else []) ++
    valRanges s n p (upSFmt p) p.s1.1 p.s1.2.1 ++ scRanges n p p.s1.2.2 ++
    (if usesS2 p then valRanges s n p (upSFmt p) p.s2.1 p.s2.2.1 ++ scRanges n p p.s2.2.2 else [])
  (rs.filter (ownStack n)).foldl (fun s r => tagRange s r.1 r.2) s

/-- The BUU aborts: by the host or with its slice (R327). -/
def abortBuu (s : State) (n : N20) : State :=
  let b := getBuu s n
  let p := curProg b
  let s := if b.phase = 3 then endProg (tagProgram s n p) n .aborted else s
  let s := { s with feOps := s.feOps.filter fun x => !(x.src == .bc n && x.kind == .take) }
  let s := putBuu s n { newStep b with mode := .halted, sums := [], due := none }
  let s := match sectSlice s n with
    | some x =>
      let t := tget s.fab fabSliceReset x.val
      { s with fab := tset s.fab fabSliceReset x.val { t with vecs := t.vecs.filter fun v => v.1 != n.val } }
    | none => s
  logEv s (stCode .aborted) clsNone (sliceByte (sectSlice s n)) 3 0xFF n.val (mkDetail 0 b.prog)

end Sys2Proof.Machine
end

