-- ==== Sys2Proof/Machine/UpdateOps.lean ====
section
/-!
DEFINITION. The commands of the parameter update, and the part of the norm that the exchange unit makes inside a slice (R319, R327, R334,
R363).
-/

namespace Sys2Proof.Machine

/-- Is the slice's clutch VALID (R371)? -/
def clutchOn (s : State) (n : N20) : Bool := rbit s (.clCfg n) 31

/-- Does a BUU take part in its slice's step (R363)? -/
def takesPart (s : State) (n : N20) : Bool :=
  let b := getBuu s n
  b.mode != .halted || b.prog != 0 || b.phase != 0

/-- Have all the vectors of a slice's step come (R363)? -/
def vecsReady (s : State) (x : N20) : Bool :=
  let ps := (sliceSects s x).filter (takesPart s)
  !ps.isEmpty && ps.all fun n => (getFab s x).vecs.any fun v => v.1 == n.val

/-- Group sums added in order of arrival (R363, R47). -/
def addSums (a b : Tab W32) : Tab W32 := b.foldl (fun t g => tset t 0 g.1 (f32Add (tget t 0 g.1) g.2)) a
/-- The slice's own sums. -/
def sliceSums (s : State) (x : N20) : Tab W32 := (getFab s x).vecs.foldl (fun t v => addSums t v.2) []
/-- The global norm of group sums, correctly rounded (R363 step 3). -/
def normOf (t : Tab W32) : W32 := sqrtV (t.foldl (fun a g => addV a (f32 g.2)) Val.zero)

/-- The step of a slice: that of its lowest-numbered BUU that takes part. -/
def sliceStep (s : State) (x : N20) : Nat :=
  match ((sliceSects s x).filter (takesPart s)).head? with | some n => rfld s (.updStep n) 31 0 | none => 0

/-- A norm record (R334). -/
def normRec (step : Nat) (n : W32) : W64 := BitVec.ofNat 64 (step % 2 ^ 32 * 2 ^ 32 + n.toNat)

/-- This slice's member index in its clutch (R350). -/
def clSelf (s : State) (x : N20) : Nat := rfld s (.clCfg x) 26 24
/-- Keys of the channels to and from member i. -/
def chanKey (chan i : Nat) : Nat := chan * 8 + i

/-- A remote FILL by the exchange unit: a notify or DONE of a channel, or a step word (R241, R360, R364); one outside the slice is refused with
one event (R404, R411; DESIGN CHOICE, log 134). -/
def exchFill (s : State) (x : N20) (chan i a : Nat) (v : W64) : State :=
  if placeOf a != .nothing && addrSlice s a != some x then logNoWord s (.exch (x.val * 256 + chanKey chan i)) a .protection
  else
    { s with feOps := s.feOps ++ [⟨s.nextOp, .exch (x.val * 256 + chanKey chan i), .fill, a, false, v, none, 0, 0, 0, false, 0, none⟩],
             nextOp := s.nextOp + 1 }

/-- The slice's step word filled with a step and MOULT, where it has one (R364). -/
def fillStepWord (s : State) (x : N20) (step : Nat) (moult : Bool) : State :=
  let a := rfld s (.stepw x) 43 0
  if a = 0 then s else exchFill s x 0 (clSelf s x) a (BitVec.ofNat 64 (step % 2 ^ 32 + (if moult then 2 ^ 32 else 0)))

/-- A slice without a valid clutch combines its own vectors as soon as all have come, as a clutch of one: a record with MOULT = 0 is due at
each of its BUUs, and its step word is filled (R363, R364). -/
def combineAlone (s : State) (x : N20) : State :=
  if clutchOn s x || !vecsReady s x then s
  else
    let r := normRec (sliceStep s x) (normOf (sliceSums s x))
    let s := (sliceSects s x).foldl (fun s n => putBuu s n { getBuu s n with due := some r }) s
    let s := fillStepWord s x (sliceStep s x) false
    putFab s x { getFab s x with vecs := [] }

/-- A BUU of section n may have ceased to take part: its slice combines where no other vector is awaited (R363). -/
def combineRest (s : State) (n : N20) : State :=
  if takesPart s n then s else match sectSlice s n with | some x => combineAlone s x | none => s

/-- A write that needs a HALTED BUU is ignored with one event. -/
def updBusy (s : State) (n : N20) : State :=
  logEv s (stCode .engineBusy) clsNone (sliceByte (sectSlice s n)) 3 0xFF n.val (mkDetail 0 (regOff (.updCtl n)))

/-- A write to STKnn_UPD_CTL: UPDATE_MODE at any time, LIST_COUNT while HALTED, a reserved one ignored with an event (R11); ABORT, else EN
(R327, R331). The BUU of a section in no slice is not enabled (R404). -/
def writeUpdCtl (s : State) (f : FuncId) (n : N20) (v : W64) : State :=
  let r : Reg := .updCtl n
  let b := getBuu s n
  let s := rsetf s r 8 8 (bits v 8 8)
  let cnt := bits v 42 32
  let s :=
    if cnt < 1 ∨ 1024 < cnt then logAccess s f (regOff r) ntGeneral
    else if cnt = rfld s r 42 32 then s
    else if b.mode ≠ .halted then updBusy s n
    else rsetf s r 42 32 cnt
  if bit v 1 then combineRest (abortBuu s n) n
  else if bit v 0 then
    (if b.mode = .running then s
     else if (sectSlice s n).isNone then
       logEv s (stCode .protection) clsNone 0xFF 3 0xFF n.val (mkDetail 0 (regOff r))
     else enableBuu s n)
  else combineRest (drainBuu s n) n

/-- UPDATE_ENABLE: a write of EN = 1 without ABORT (R327). -/
def execUpdateEnable (f : FuncId) (n : N20) (v : W64) (s : State) : Out :=
  .next (if bit v 0 && !bit v 1 then hostWrite s f (.updCtl n) true fun s => writeUpdCtl s f n v else s)
/-- UPDATE_DRAIN: a write of EN = 0 without ABORT (R327). -/
def execUpdateDrain (f : FuncId) (n : N20) (v : W64) (s : State) : Out :=
  .next (if !bit v 0 && !bit v 1 then hostWrite s f (.updCtl n) false fun s => writeUpdCtl s f n v else s)
/-- UPDATE_ABORT: a write of ABORT = 1 (R327). -/
def execUpdateAbort (f : FuncId) (n : N20) (v : W64) (s : State) : Out :=
  .next (if bit v 1 then hostWrite s f (.updCtl n) (bit v 0) fun s => writeUpdCtl s f n v else s)

/-- BUU_GRAD_WORD_TAKEN: the TAKE has found its word full; the program is read and starts its pass 1, or is refused (R316, R319);
a stack in RECAL holds the read, and one that is not open is not read (R299). -/
def execBuuGradWordTaken (n : N20) (s : State) : Out :=
  let b := getBuu s n
  .next (if b.mode ≠ .running ∨ b.phase ≠ 0 ∨ !stackOpen s n ∨ sectHeld s n then s
    else
      match bcTake s n with
      | none => s
      | some op =>
        let x := feCell s op.addr
        if op.got.isSome then beginPass1 (dropFe s op.id) n
        else if feFull s x then beginPass1 (dropFe (feSet s x false) op.id) n
        else s)

/-- BUU_SPAN (R314). -/
def execBuuSpan (n : N20) (s : State) : Out := .next (buuSpan s n)

/-- BUU_PASS1_END: the vector goes to the exchange unit and is cleared; the BUU waits for the norm (R319 step 3). -/
def execBuuPass1End (n : N20) (s : State) : Out :=
  let b := getBuu s n
  .next (if b.mode ≠ .running ∨ b.phase ≠ 1 ∨ b.begun ∨ !lastProg s n b then s
    else
      let s := putBuu s n { b with phase := 2, sums := [] }
      match sectSlice s n with
      | none => s
      | some x =>
        let t := getFab s x
        combineAlone (putFab s x { t with vecs := t.vecs ++ [(n.val, b.sums)] }) x)

/-- NORM_RECORD_WRITE: by the exchange unit the record that is due at this BUU (R363), by the host any record (R334). -/
def execNormRecordWrite (src : NormSrc) (n : N20) (v : W64) (s : State) : Out :=
  .next (match src with
    | .host f => hostWrite s f (.updNorm n) false fun s => acceptNorm s n v
    | .exchange =>
      if (getBuu s n).due = some v then acceptNorm (putBuu s n { getBuu s n with due := none }) n v else s)

/-- BUU_PASS2_PROGRAM: the norm has come, or the program before is done (R319 step 6); a stack in RECAL holds the reads, and one that is
not open is not read (R299). -/
def execBuuPass2Program (n : N20) (s : State) : Out :=
  let b := getBuu s n
  .next (if b.mode ≠ .running ∨ !stackOpen s n ∨ sectHeld s n then s
    else if b.phase = 2 ∧ b.normValid then beginPass2 (putBuu s n { b with prog := 0 }) n
    else if b.phase = 3 ∧ !b.begun then beginPass2 s n
    else s)

/-- BUU_PROGRAM_DONE: pass 2 of the current program has processed what it has to (R319 steps 7 and 8). -/
def execBuuProgramDone (n : N20) (s : State) : Out :=
  let b := getBuu s n
  .next (if b.phase ≠ 3 ∨ !b.begun ∨ (b.mode ≠ .running ∧ b.mode ≠ .draining) then s
    else if b.p2.isSome && decide (b.span < spanTotal (curProg b)) then s
    else combineRest (programDone s n) n)

/-- HBM_RECAL_END: the held accesses complete in order, and the BUU whose read was held goes on; or the stack fails (R299, R466, R467). -/
def execHbmRecalEnd (n : N20) (ok : Bool) (s : State) : Out :=
  .next (if rfld s (.mcState n) 63 60 ≠ 3 then s else if ok then buuNext (leaveRecal s n) n else failStack s n)

end Sys2Proof.Machine
end

