-- ==== Sys2Proof/Machine/Fabric.lean ====
section
/-!
DEFINITION. The exchange unit and the Israx Fabric Transport (R337 to R364): packets, sending and receiving channels, exchange
descriptors, encodings, the norm through the clutch master.
-/

namespace Sys2Proof.Machine

/-! Clutch (R350, R371, R372). -/

/-- Members, the master's index, replicas' shards, generation. -/
def clN (s : State) (x : N20) : Nat := rfld s (.clCfg x) 17 15 + 1
def clMaster (s : State) (x : N20) : Nat := rfld s (.clCfg x) 23 21
def clShards (s : State) (x : N20) : Nat := rfld s (.clCfg x) 20 18 + 1
def clGen (s : State) (x : N20) : Nat := rfld s (.clCfg x) 63 32
/-- Device and slice of member i. -/
def memDev (s : State) (x : N20) (i : Nat) : Nat := match fin? 8 i with | some k => rfld s (.clMem x k) 20 5 | none => 0
def memSlice (s : State) (x : N20) (i : Nat) : Nat := match fin? 8 i with | some k => rfld s (.clMem x k) 4 0 | none => 0
/-- The member index of a device's slice in a slice's valid clutch. -/
def memberOf (s : State) (x : N20) (dev sl : Nat) : Option Nat :=
  if clutchOn s x then (List.range (clN s x)).find? fun i => memDev s x i == dev && memSlice s x i == sl else none
/-- The other members of a clutch. -/
def clPeers (s : State) (x : N20) : List Nat := (List.range (clN s x)).filter fun i => i != clSelf s x

/-- The current chorus tick (R348). -/
def tickNow (s : State) : Nat := (rget s .tick).toNat
/-- State of the timebase: 0 UNSYNC, 1 LOCKED, 2 HOLDOVER, 3 UNLOCKED (R346). -/
def timeState (s : State) : Nat := rfld s .timeState 63 60
/-- May an exchange start, as far as the timebase goes (R346)? -/
def timeOpen (s : State) : Bool := timeState s == 1 || timeState s == 2

/-- The kind of the current slot for a slice, or none in a quiet slot (R349, R352). -/
def slotKind (s : State) (x : N20) : Option Nat :=
  if quietSlot s then none else some (bits (getFab s x).plan.codes (4 * s.tb.slot + 3) (4 * s.tb.slot))
/-- May traffic of a kind start in the current slot: its own kind or OPEN (R352)? -/
def slotFor (s : State) (x : N20) (kind : Nat) : Bool :=
  match slotKind s x with | some k => k == kind || k == 0 | none => false

/-! Packets (R340). -/

/-- What a packet's header says. -/
structure Hdr where
  ver : Nat
  type : Nat
  flags : Nat
  dev : Nat
  src : Nat
  dst : Nat
  chan : Nat
  codec : Nat
  action : Nat
  seq : BitVec 32
  gen : Nat
  addr : Nat
  len : Nat
  notify : Nat
  rsv : Nat
  poison : Nat
  aux : Nat
  scale : W32
deriving DecidableEq, Repr

/-- The header of an IFT packet. -/
def parseHdr (b : List Byte) : Hdr :=
  let f (o n : Nat) : Nat := fieldAt b o n
  ⟨f 0 1 / 16, f 0 1 % 16, f 1 1, f 2 2, f 4 1, f 5 1, f 6 1, f 7 1 / 16, f 7 1 % 16, BitVec.ofNat 32 (f 8 4), f 12 4, f 16 6, f 22 2, f 24 6,
   f 30 2, f 32 8, f 40 4, BitVec.ofNat 32 (f 44 4)⟩
/-- The payload of an IFT packet. -/
def payload (b : List Byte) : List Byte := b.drop 48

/-- The bytes of an IFT packet from its fields. -/
def mkPacket (s : State) (x : N20) (type flags dstSlice chan op : Nat) (seq addr notify poison aux : Nat) (scale : W32)
    (body : List Byte) : List Byte :=
  leBytes 1 (16 + type) ++ leBytes 1 flags ++ leBytes 2 (rfld s .fabDev 15 0) ++ leBytes 1 x.val ++ leBytes 1 dstSlice ++ leBytes 1 chan ++
    leBytes 1 op ++ leBytes 4 seq ++ leBytes 4 (clGen s x) ++ leBytes 6 addr ++ leBytes 2 body.length ++ leBytes 6 notify ++ leBytes 2 0 ++
    leBytes 8 poison ++ leBytes 4 aux ++ leBytes 4 scale.toNat ++ body

/-- Does a packet keep the table of R340: version, type, reserved fields, LENGTH, opcodes, NOTIFY_ADDR? -/
def hdrOk (b : List Byte) : Bool :=
  let h := parseHdr b
  decide (48 ≤ b.length) && h.ver == 1 && decide (h.type < 7) && decide (h.flags < 16) && decide (h.src < 20) && decide (h.dst < 20) &&
    decide (h.chan < 16) && h.rsv == 0 && h.len == b.length - 48 && decide (h.len ≤ 4096) && decide (h.addr < 2 ^ 44) &&
    decide (h.notify < 2 ^ 44) && (h.flags % 2 == 1 || h.notify == 0) &&
    (if h.type = 0 then
      decide (h.codec < 3) && decide (h.action < 2) && ((h.action == 1 && h.codec != 0) || h.addr % 64 == 0)
     else h.seq == 0)

/-- May the slice use a port: enabled, up, and in PORTS of its firewall (R369, R408)? -/
def portOpen (s : State) (x : N20) (p : PortId) : Bool :=
  rbit s (.portCtl p) 0 && rbit s (.portStat p) 63 && (rget s (.fabfw x)).getLsbD p.val

/-- UDP source port of a slice's channel, by the packet's header (R338). -/
def udpSource (x : N20) (b : List Byte) : Nat := 0xC000 + 16 * x.val + fieldAt b 6 1

/-- A packet on port p to device d: addressed to PREFIX_p followed by d (R338). -/
def emitFrame (s : State) (x : N20) (p : PortId) (dev : Nat) (b : List Byte) : State :=
  emit s (.frame p (BitVec.ofNat 128 ((rget s (.portAddr p)).toNat * 2 ^ 64 + dev)) (rfld s .fabDev 31 16) (udpSource x b) b)

/-- The ports that a slice may use. -/
def openPorts (s : State) (x : N20) : List PortId := (List.finRange 8).filter (portOpen s x)

/-- A packet given to one of the slice's open ports, any of them (a free value, log 77); nothing leaves where it has none (R369). -/
def sendFrame (s : State) (x : N20) (dev : Nat) (b : List Byte) : State :=
  match openPorts s x with
  | [] => s
  | p :: r =>
    let y := drawFree s
    emitFrame y.1 x (nthD (p :: r) (y.2.toNat % (r.length + 1)) p) dev b

/-- The tick kept at which a packet goes to member i (R366). -/
def noteOut (s : State) (x : N20) (i : Nat) : State :=
  let t := getFab s x
  putFab s x { t with lastOut := tset t.lastOut 0 i (tickNow s) }

/-- A packet to member i, with the tick kept (R366). -/
def sendTo (s : State) (x : N20) (i : Nat) (b : List Byte) : State := sendFrame (noteOut s x i) x (memDev s x i) b

/-- The same on the port that granted it, where one has (R339). -/
def sendOn (s : State) (x : N20) (port : Option PortId) (i : Nat) (b : List Byte) : State :=
  match port with
  | some p => emitFrame (noteOut s x i) x p (memDev s x i) b
  | none => sendTo s x i b

/-! Sending channels (R341, R342). -/

def txReset : TxChan := ⟨0, [], []⟩
def rxReset : RxChan := ⟨BitVec.allOnes 32, [], 0⟩
def getTx (s : State) (x : N20) (k : Nat) : TxChan := tget (getFab s x).tx txReset k
def putTx (s : State) (x : N20) (k : Nat) (t : TxChan) : State :=
  let f := getFab s x
  putFab s x { f with tx := tset f.tx txReset k t }
def getRx (s : State) (x : N20) (k : Nat) : RxChan := tget (getFab s x).rx rxReset k
def putRx (s : State) (x : N20) (k : Nat) (t : RxChan) : State :=
  let f := getFab s x
  putFab s x { f with rx := tset f.rx rxReset k t }

/-- Is a later than b in serial order (R240)? -/
def seqAfter (a b : BitVec 32) : Bool := (a - b).toNat != 0 && decide ((a - b).toNat < 2 ^ 31)

/-- May DATA and norm packets of the slice leave now, as far as the slot goes: it is not quiet and not of kind QUIET (R349, R352)? -/
def dataOpen (s : State) (x : N20) : Bool := match slotKind s x with | some k => k != 5 | none => false

/-- A packet's bytes with RETRY set. -/
def withRetry (b : List Byte) : List Byte := setNth b 1 (nthD b 1 0 ||| 4)

/-- Bytes of a packet's frame, as shares and quotas count them: the packet and 66 bytes of headers and FCS (R369; DESIGN CHOICE, log 113). -/
def frameLen (b : List Byte) : Nat := b.length + 66

/-- DATA bytes that a slice may send in an interval (R462). -/
def shareCap (f : FabSlice) : Nat := f.weight * 800000000 / 255

/-- Has a channel of the slice a packet to send: a retransmission that is due, which no quota withholds, or a new one while fewer than 4,096
are outstanding and its frame still fits under the interval's cap, which a share of 0 leaves none (R339, R342, R462)? -/
def txReady (f : FabSlice) (t : TxChan) : Bool :=
  t.sent.any TxPkt.due ||
    (match t.queue with
     | p :: _ => decide (t.sent.length < 4096) && decide (f.spent + frameLen p.bytes ≤ shareCap f)
     | [] => false)

/-- A packet as its retransmission sends it. -/
def retried (q : TxPkt) : TxPkt := ⟨q.seq, withRetry q.bytes, q.tries + 1, false⟩

/-- n DATA bytes more in the present interval (R462). -/
def charge (s : State) (x : N20) (n : Nat) : State :=
  let f := getFab s x
  putFab s x { f with spent := f.spent + n }

/-- The next packet of a channel to member i leaves, if the channel has one, on the port that granted it; the bytes of its frame, which the
quota counts (R339, R342, R462). -/
def sendNext (s : State) (x : N20) (port : Option PortId) (i key : Nat) : State × Nat :=
  let t := getTx s x key
  match t.sent.find? TxPkt.due, t.queue with
  | some q, _ =>
    let s := putTx s x key { t with sent := t.sent.map fun z => if z.seq == q.seq then retried q else z }
    (sendOn (charge s x (frameLen q.bytes)) x port i (retried q).bytes, frameLen q.bytes)
  | none, p :: r =>
    let s := putTx s x key { t with sent := t.sent ++ [p], queue := r }
    (sendOn (charge s x (frameLen p.bytes)) x port i p.bytes, frameLen p.bytes)
  | none, [] => (s, 0)

/-- At most n packets of a channel, while data may leave. -/
def pumpTx (x : N20) (i key : Nat) : Nat → State → State
  | 0, s => s
  | n + 1, s => if txReady (getFab s x) (getTx s x key) && dataOpen s x then pumpTx x i key n (sendNext s x none i key).1 else s

/-- Packets that a channel holds. -/
def txCount (t : TxChan) : Nat := t.sent.length + t.queue.length

/-- Everything that waits in a channel and may go. -/
def runTx (s : State) (x : N20) (i key : Nat) : State := pumpTx x i key (txCount (getTx s x key)) s

/-- The slice's first channel that has a packet which may leave now. -/
def readyChan (s : State) (x : N20) : Option Nat :=
  if clutchOn s x && dataOpen s x then ((getFab s x).tx.find? fun e => txReady (getFab s x) e.2).map Prod.fst else none

/-- A norm packet of a slice's master to member i, as it waits for a port (R339, R363). -/
structure NormPkt where
  x : N20
  i : Nat
  bytes : List Byte
deriving DecidableEq, Repr

/-- What a slice has to send: its first norm packet of q, else a channel that has a packet which may leave. -/
inductive Ready where
  | norm (p : NormPkt)
  | chan (k : Nat)
deriving DecidableEq, Repr
def readyIn (q : List NormPkt) (s : State) (x : N20) : Option Ready :=
  match q.find? fun y => y.x == x with
  | some y => some (.norm y)
  | none => (readyChan s x).map .chan

/-- It leaves on the port that granted it; the bytes of its frame (R339). -/
def sendReady (s : State) (x : N20) (port : Option PortId) : Ready → State × Nat
  | .norm y => (sendOn s x port y.i y.bytes, frameLen y.bytes)
  | .chan k => sendNext s x port (k % 8) k

/-- The norm packets that wait without the one sent. -/
def restNorm (q : List NormPkt) : Ready → List NormPkt
  | .norm y => takeOut (fun z => z == y) q
  | .chan _ => q

/-- Key of the bytes that a port has granted a slice. -/
def grantKey (p : PortId) (x : N20) : Nat := 20 * p.val + x.val

/-- The slice that a port's weighted round-robin grants next: of those with packets ready that use the port, the one to which it has granted
the fewest bytes in proportion to its weight, ties to the lower number (R339; DESIGN CHOICE, log 97). -/
def grantNext (q : List NormPkt) (s : State) (served : Tab Nat) (p : PortId) : Option (N20 × Ready) :=
  all20.foldl (fun best x =>
    match readyIn q s x, best with
    | none, _ => best
    | some k, none => if portOpen s x p then some (x, k) else none
    | some k, some y =>
      if portOpen s x p && decide (tget served 0 (grantKey p x) * (getFab s y.1).weight < tget served 0 (grantKey p y.1) * (getFab s x).weight)
      then some (x, k) else best) none

/-- The ports that a slice with packets ready uses. -/
def portsReady (q : List NormPkt) (s : State) : List PortId :=
  (List.finRange 8).filter fun p => all20.any fun x => (readyIn q s x).isSome && portOpen s x p

/-- The first slice with packets ready: one that has no port, where no port has any to grant. -/
def stranded (q : List NormPkt) (s : State) : Option (N20 × Ready) := all20.findSome? fun x => (readyIn q s x).map fun k => (x, k)

/-- At most n frames granted, each by a port, any that has one to grant (a free value, log 77), among the slices by the bytes that it has granted
so far; the norm packets of q take their slices' turns (R339). -/
def grantAll : Nat → List NormPkt → Tab Nat → State → State
  | 0, _, _, s => s
  | n + 1, q, served, s =>
    match portsReady q s with
    | [] => (match stranded q s with | none => s | some y => grantAll n (restNorm q y.2) served (sendReady s y.1 none y.2).1)
    | p :: r =>
      let d := drawFree s
      let port := nthD (p :: r) (d.2.toNat % (r.length + 1)) p
      match grantNext q d.1 served port with
      | none => s
      | some y =>
        let z := sendReady d.1 y.1 (some port) y.2
        grantAll n (restNorm q y.2) (tset served 0 (grantKey port y.1) (tget served 0 (grantKey port y.1) + z.2)) z.1

/-- Everything that waits in any slice's channels and may go, with the norm packets of q. -/
def runAllTx (q : List NormPkt) (s : State) : State :=
  grantAll (q.length + (all20.map fun x => ((getFab s x).tx.map fun e => txCount e.2).foldl (· + ·) 0).foldl (· + ·) 0) q [] s

/-- An ACK with a delivery mark (R342). -/
def sendAck (s : State) (x : N20) (chan i : Nat) : State :=
  let r := getRx s x (chanKey chan i)
  let s := putRx s x (chanKey chan i) { r with unacked := 0 }
  sendTo s x i (mkPacket s x 1 0 (memSlice s x i) chan 0 0 0 0 0 r.mark.toNat 0 [])

/-! Landing (R343, R356 to R358). -/

/-- A range lies in the slice (R344, R355). -/
def inSlice (s : State) (x : N20) (a n : Nat) : Bool :=
  let here (b : Nat) : Bool := match placeOf b with | .stack _ _ | .pad _ _ => addrSlice s b == some x | _ => false
  n == 0 || ((List.range ((a + n - 1) / 0x400000 + 1 - a / 0x400000)).all fun i => here (max a ((a / 0x400000 + i) * 0x400000))) && here (a + n - 1)

/-- Does any byte of a list of ranges lie on a stack that no access reaches (R299)? -/
def shutRange (s : State) (rs : List (Nat × Nat)) : Bool :=
  rs.any fun r => r.2 != 0 && all20.any fun n => !stackOpen s n && decide (r.1 < stkBase n + 0xC00000000 ∧ stkBase n < r.1 + r.2)

/-- Is a payload unit among bytes o to o + n - 1 poisoned? -/
def payPoison (poison o n : Nat) : Bool :=
  n != 0 && (List.range ((o + n - 1) / 64 + 1 - o / 64)).any fun i => poison.testBit (o / 64 + i)

/-- With the unit that a landing accessed last (elements of one sector that follow one another make one access of it, R297): SCALE × an
element added into its destination (R289, R356): the product is rounded to F32 and put into the destination's format
(DEDUCED, log 28); an element outside the slice, or on a stack that is not open, is not written (R299). -/
def addElem (acc : State × Option Nat) (x : N20) (bf : Bool) (a : Nat) (scale v : W32) (p : Bool) : State × Option Nat :=
  let m := f32Mul scale v
  let sz := if bf then 2 else 4
  if !inSlice acc.1 x a sz || shutRange acc.1 [(a, sz)] then acc
  else
    let s := if acc.2 = some (a / 64) then acc.1 else redTouch acc.1 0 (a / 64)
    ((redElem s 0 (if bf then 1 else 0) a (if bf then (toBf16 (f32 m)).toNat else m.toNat) 0 p).1, some (a / 64))

/-- k of a TOPK record's header (R357). -/
def topkK (h : Nat) : Nat := 16 * 2 ^ (h / 64 % 4)

/-- Entry j of a TOPK record: index and value (R357). -/
def topkEntry (r : List Byte) (k j : Nat) : Nat × W32 :=
  (fieldAt r (4 + j / 2 * 3) 3 / 2 ^ (12 * (j % 2)) % 4096, BitVec.ofNat 32 (fieldAt r (4 + 3 * k / 2 + 2 * j) 2 * 65536))

/-- TOPK records added in order, n of them; o is the offset of the next record, tail the block length of the last. An entry at or beyond its
block's length is skipped (R357). -/
def landTopk (x : N20) (bf : Bool) (dst : Nat) (scale : W32) (poison tail : Nat) : Nat → Nat → List Byte → State × Option Nat → State × Option Nat
  | 0, _, _, acc => acc
  | n + 1, o, b, acc =>
    let h := fieldAt b o 4
    let k := topkK h
    let len := 4 + 7 * k / 2
    let r := bytesAt b o len
    let p := payPoison poison o len
    let sz := if bf then 2 else 4
    let size := if n = 0 then tail else 4096
    let acc := (List.range k).foldl (fun acc j =>
      let e := topkEntry r k j
      if size ≤ e.1 then acc else addElem acc x bf (dst + (h / 256 * 4096 + e.1) * sz) scale e.2 p) acc
    if b.length ≤ o + len then acc else landTopk x bf dst scale poison tail n (o + len) b acc

/-- SIGN records added in order, n of them; g is the group within the packet, tail the length of the last (R358). -/
def landSign (x : N20) (bf : Bool) (dst : Nat) (scale : W32) (poison tail : Nat) : Nat → Nat → List Byte → State × Option Nat → State × Option Nat
  | 0, _, _, acc => acc
  | n + 1, g, b, acc =>
    let o := 36 * g
    let size := if n = 0 then min tail 256 else 256
    let sv : W32 := BitVec.ofNat 32 (fieldAt b o 4)
    let p := payPoison poison o (min 36 (b.length - o))
    let sz := if bf then 2 else 4
    let acc := (List.range size).foldl (fun acc i =>
      let neg := (fieldAt b (o + 4 + i / 8) 1).testBit (i % 8)
      addElem acc x bf (dst + (256 * g + i) * sz) scale (if neg then toF32 (negV (f32 sv)) else sv) p) acc
    if b.length ≤ o + 36 then acc else landSign x bf dst scale poison tail n (g + 1) b acc

/-- The payload of a DATA packet takes effect at DST (R343, R356); ADD elements without a codec travel as F32 (DEDUCED, log 28). A stack that
is not open is not reached (R299). -/
def landData (s : State) (x : N20) (action codec dst : Nat) (bf : Bool) (scale : W32) (poison aux tail : Nat) (b : List Byte) : State :=
  if action = 0 then (if shutRange s [(dst, b.length)] then s else writeBytes s dst b fun u => poison.testBit u)
  else if codec = 1 then (landTopk x bf dst scale poison tail aux 0 b (s, none)).1
  else if codec = 2 then (landSign x bf dst scale poison tail aux 0 b (s, none)).1
  else
    ((List.range (b.length / 4)).foldl (fun acc i =>
      addElem acc x bf (dst + i * (if bf then 2 else 4)) scale (BitVec.ofNat 32 (fieldAt b (4 * i) 4)) (payPoison poison (4 * i) 4))
      (s, none)).1

/-- The range of device addresses from which and up to which a DATA packet's payload lands: of a TOPK packet whole blocks of 4,096 elements,
of a SIGN packet whole groups of 256 (R356 to R358). -/
def landRange (action codec dst : Nat) (bf : Bool) (aux : Nat) (b : List Byte) : Nat × Nat :=
  let sz := if bf then 2 else 4
  if action = 0 then (dst, b.length)
  else if codec = 1 then
    let first := fieldAt b 0 4 / 256
    (dst + first * 4096 * sz, aux * 4096 * sz)
  else if codec = 2 then (dst, aux * 256 * sz)
  else (dst, b.length / 4 * sz)

/-! Exchange descriptors (R355, R356). -/

/-- An exchange descriptor, field by field. -/
structure XDesc where
  oper : Nat
  codec : Nat
  srcBf : Bool
  dstBf : Bool
  kind : Nat
  chan : Nat
  peers : Nat
  elems : Nat
  tau : W32
  src : Nat
  dst : Nat
  resid : Nat
  notify : Nat
  scale : W32
  done : Nat
deriving DecidableEq, Repr

/-- The descriptor of 64 bytes. -/
def parseX (b : List Byte) : XDesc :=
  let f (i hi lo : Nat) : Nat := fieldAt b (8 * i) 8 / 2 ^ lo % 2 ^ (hi + 1 - lo)
  ⟨f 0 63 61, f 0 60 59, f 0 58 58 == 1, f 0 57 57 == 1, f 0 56 53, f 0 52 49, f 0 48 41, f 1 63 32, BitVec.ofNat 32 (f 1 31 0),
   f 2 43 0, f 3 43 0, f 4 43 0, f 5 43 0, BitVec.ofNat 32 (f 6 63 32), f 7 43 0⟩

/-- Bytes of the source, and of the destination of one member (R356). -/
def xSrcLen (d : XDesc) : Nat := if d.oper < 2 then d.elems else d.elems * (if d.srcBf then 2 else 4)
def xDstLen (s : State) (x : N20) (d : XDesc) : Nat :=
  if d.oper = 0 then d.elems else if d.oper = 1 then d.elems * clN s x else d.elems * (if d.dstBf then 2 else 4)
/-- Where this member's bytes go: GATHER by its index. -/
def xDst (s : State) (x : N20) (d : XDesc) : Nat := if d.oper = 1 then d.dst + clSelf s x * d.elems else d.dst

/-- Does a descriptor keep the tables of R355 and R356? -/
def xOk (s : State) (x : N20) (b : List Byte) : Bool :=
  let d := parseX b
  let hi (i : Nat) : Bool := fieldAt b (8 * i) 8 / 2 ^ 44 == 0
  let coded := d.oper == 3 && d.codec != 0
  decide (d.oper < 4) && decide (d.codec < 3) && (d.oper == 3 || d.codec == 0) && (d.kind == 1 || d.kind == 2 || d.kind == 4) &&
    d.peers.testBit (clSelf s x) && decide (d.peers < 2 ^ clN s x) && fieldAt b 0 8 % 2 ^ 41 == 0 && decide (1 ≤ d.elems) &&
    hi 2 && hi 3 && hi 4 && hi 5 && hi 7 && fieldAt b 48 8 % 2 ^ 32 == 0 && (coded || d.resid == 0) && d.notify % 8 == 0 && d.done % 8 == 0 &&
    (coded || xDst s x d % 64 == 0) && inSlice s x d.src (xSrcLen d) && inSlice s x d.dst (xDstLen s x d) &&
    inSlice s x d.done 8 && feCell s d.done != .nowhere &&
    (!coded || inSlice s x d.resid (4 * d.elems))

/-- Elements of a codec's block or group, and of the last one of a descriptor (R357, R358). -/
def xUnit (d : XDesc) : Nat := if d.codec = 1 then 4096 else 256
def xTail (d : XDesc) : Nat := d.elems - (ceilDiv d.elems (xUnit d) - 1) * xUnit d

/-- A piece of an exchange: what one packet carries. -/
structure Piece where
  action : Nat
  codec : Nat
  dst : Nat
  body : List Byte
  poison : Nat
  aux : Nat
deriving DecidableEq, Repr

/-- Poison bits of payload units that bytes o to o + n - 1 touch. -/
def unitBits (o n : Nat) : Nat :=
  if n = 0 then 0 else (List.range ((o + n - 1) / 64 + 1 - o / 64)).foldl (fun m i => m ||| 2 ^ (o / 64 + i)) 0

/-- Source element i in F32, with its poison. -/
def xElem (s : State) (d : XDesc) (i : Nat) : W32 × Bool :=
  if d.srcBf then (BitVec.ofNat 32 (memNat s (d.src + 2 * i) 2 * 65536), memPoison s (d.src + 2 * i) 2)
  else (BitVec.ofNat 32 (memNat s (d.src + 4 * i) 4), memPoison s (d.src + 4 * i) 4)

/-- The pieces of a plain byte move: 4,096 bytes each (R340, R356). -/
def bytePieces (s : State) (d : XDesc) (dst : Nat) : List Piece :=
  (List.range (ceilDiv d.elems 4096)).map fun k =>
    let n := min 4096 (d.elems - 4096 * k)
    let a := d.src + 4096 * k
    let ps := (List.range (ceilDiv n 64)).foldl (fun m u => if memPoison s (a + 64 * u) (min 64 (n - 64 * u)) then m + 2 ^ u else m) 0
    ⟨0, 0, dst + 4096 * k, memBytes s a n, ps, 0⟩

/-- The pieces of an addition without codec: 1,024 F32 elements each (DEDUCED, log 28). -/
def addPieces (s : State) (d : XDesc) : List Piece :=
  let sz := if d.dstBf then 2 else 4
  (List.range (ceilDiv d.elems 1024)).map fun k =>
    let es := (List.range (min 1024 (d.elems - 1024 * k))).map fun i => xElem s d (1024 * k + i)
    let ps := (List.zip (List.range es.length) es).foldl (fun m e => if e.2.2 then m ||| 2 ^ (e.1 / 16) else m) 0
    ⟨1, 0, d.dst + 1024 * k * sz, es.flatMap fun e => leBytes 4 e.1.toNat, ps, 0⟩

/-- The compensated elements of block k of size z: source plus residual, with the poison of each (R357, R358). -/
def xBlock (s : State) (d : XDesc) (z k : Nat) : List (W32 × Bool) :=
  (List.range (min z (d.elems - z * k))).map fun i =>
    let e := xElem s d (z * k + i)
    let r := d.resid + 4 * (z * k + i)
    (f32Add e.1 (BitVec.ofNat 32 (memNat s r 4)), e.2 || memPoison s r 4)

/-- Elements of a block by falling rank of R54, ties to the lower index. -/
def magInsert (x : Nat × W32) : List (Nat × W32) → List (Nat × W32)
  | [] => [x]
  | y :: r => if magGt (f32 x.2) (f32 y.2) then x :: y :: r else y :: magInsert x r

/-- The number kept: the smallest of 16, 32, 64, 128 that is at least c; its code (R357). -/
def topkCode (c : Nat) : Nat := if c ≤ 16 then 0 else if c ≤ 32 then 1 else if c ≤ 64 then 2 else 3

/-- The indices that a block keeps, in increasing order, and its k code (R357). -/
def topkKeep (tau : W32) (es : List W32) : Nat × List Nat :=
  let c := (es.filter fun a => (f32 a).isNan || leV (f32 tau) (absV (f32 a))).length
  let code := topkCode c
  let k := 16 * 2 ^ code
  let ranked := (List.zip (List.range es.length) es).foldl (fun acc x => magInsert x acc) []
  (code, ((List.range es.length).filter fun i => (ranked.take k).any fun x => x.1 == i))

/-- A pair of 12-bit indices in 3 bytes. -/
def pack12 : List Nat → List Byte
  | a :: b :: r => leBytes 3 (a % 4096 + 4096 * (b % 4096)) ++ pack12 r
  | [a] => leBytes 3 (a % 4096)
  | [] => []

/-- The record of a TOPK block, and the residual of each element (R357, R359). -/
def topkRecord (tau : W32) (blk : Nat) (es : List W32) : List Byte × List W32 :=
  let x := topkKeep tau es
  let k := 16 * 2 ^ x.1
  let idx := x.2 ++ List.replicate (k - x.2.length) 0xFFF
  let vals := (x.2.map fun i => (toBf16 (f32 (nthD es i 0))).toNat) ++ List.replicate (k - x.2.length) 0
  (leBytes 4 (blk % 2 ^ 24 * 256 + x.1 * 64) ++ pack12 idx ++ vals.flatMap (leBytes 2),
   (List.zip (List.range es.length) es).map fun e =>
     if x.2.contains e.1 then f32Sub e.2 (BitVec.ofNat 32 ((toBf16 (f32 e.2)).toNat * 65536)) else e.2)

/-- The record of a SIGN group, and the residual of each element (R358, R359). -/
def signRecord (es : List W32) : List Byte × List W32 :=
  let sum := es.foldl (fun a e => f32Add a (toF32 (absV (f32 e)))) (0 : W32)
  let sv := if es.any (fun e => (f32 e).isNan) then (0x7FC00000 : W32) else f32Div sum (toF32 (Val.ofInt es.length 0))
  let neg (e : W32) : Bool := ltV (f32 e) Val.zero
  let bs := (List.range (ceilDiv es.length 8)).map fun j =>
    BitVec.ofNat 8 ((List.range 8).foldl (fun m i => match es[8 * j + i]? with | some e => if neg e then m + 2 ^ i else m | none => m) 0)
  (leBytes 4 sv.toNat ++ bs ++ List.replicate ((4 - bs.length % 4) % 4) 0,
   es.map fun e => f32Sub e (if neg e then toF32 (negV (f32 sv)) else sv))

/-- Records gathered into packets: as many whole records as 4,096 bytes hold (R357). Each record comes with the first element it
belongs to and its poison. -/
def gatherRecords (mk : Nat → List Byte → Nat → Nat → Piece) : List (Nat × List Byte × Bool) → List Byte → Nat → Nat → Nat → List Piece
  | [], b, ps, n, at0 => if n = 0 then [] else [mk at0 b ps n]
  | (e, r, p) :: rest, b, ps, n, at0 =>
    if n ≠ 0 ∧ 4096 < b.length + r.length then
      mk at0 b ps n :: gatherRecords mk rest r (if p then unitBits 0 r.length else 0) 1 e
    else
      gatherRecords mk rest (b ++ r) (if p then ps ||| unitBits b.length r.length else ps) (n + 1) (if n = 0 then e else at0)

/-- The pieces of an exchange and, for a codec, the residual of every element with its poison (R356 to R359). -/
def xPieces (s : State) (x : N20) (d : XDesc) : List Piece × List (W32 × Bool) :=
  if d.oper < 2 then (bytePieces s d (xDst s x d), [])
  else if d.oper = 2 ∨ d.codec = 0 then (addPieces s d, [])
  else
    let z := xUnit d
    let recs := (List.range (ceilDiv d.elems z)).map fun k =>
      let es := xBlock s d z k
      let r := if d.codec = 1 then topkRecord d.tau k (es.map Prod.fst) else signRecord (es.map Prod.fst)
      let p := es.any Prod.snd
      (k * z, r.1, p, List.zip r.2 (es.map fun e => if d.codec = 1 then e.2 else p))
    let sz := if d.dstBf then 2 else 4
    let mk (at0 : Nat) (b : List Byte) (ps n : Nat) : Piece := ⟨1, d.codec, if d.codec = 1 then d.dst else d.dst + at0 * sz, b, ps, n⟩
    (gatherRecords mk (recs.map fun r => (r.1, r.2.1, r.2.2.1)) [] 0 0 0, recs.flatMap fun r => r.2.2.2)

/-- The residuals written (R359). -/
def writeResid (s : State) (a : Nat) (rs : List (W32 × Bool)) : State :=
  let p (u : Nat) : Bool := (List.zip (List.range rs.length) rs).any fun r => r.2.2 && (a + 4 * r.1) / 64 == a / 64 + u
  writeBytes s a (rs.flatMap fun r => leBytes 4 r.1.toNat) p

/-- The packets of pieces to member i of an exchange: the last carries LAST and NOTIFY (R360). -/
def queuePieces (s : State) (x : N20) (d : XDesc) (i : Nat) (ps : List Piece) : State × Nat :=
  let key := chanKey d.chan i
  let t := getTx s x key
  let n := ps.length
  let pkts := (List.zip (List.range n) ps).map fun e =>
    let last := e.1 + 1 == n
    let seq := (t.next + e.1) % 2 ^ 32
    let flags := (if last then 3 else 0) + (if d.dstBf then 8 else 0)
    (⟨seq, mkPacket s x 0 flags (memSlice s x i) d.chan (e.2.codec * 16 + e.2.action) seq e.2.dst
        (if last then d.notify + 8 * clSelf s x else 0) e.2.poison e.2.aux (if e.2.action = 1 then d.scale else 0) e.2.body, 0, false⟩ : TxPkt)
  let s := putTx s x key { t with next := (t.next + n) % 2 ^ 32, queue := t.queue ++ pkts }
  (runTx s x i key, (t.next + n - 1) % 2 ^ 32)

/-- The ranges that an exchange reads, and those of this slice that it writes. -/
def exchReads (d : XDesc) : List (Nat × Nat) := (d.src, xSrcLen d) :: if d.oper = 3 ∧ d.codec ≠ 0 then [(d.resid, 4 * d.elems)] else []
def exchWrites (s : State) (x : N20) (d : XDesc) : List (Nat × Nat) :=
  (xDst s x d, if d.oper < 2 then d.elems else xDstLen s x d) :: if d.oper = 3 ∧ d.codec ≠ 0 then [(d.resid, 4 * d.elems)] else []

/-- Its own contribution, piece by piece, through the path of a peer's (R356). -/
def landOwn (s : State) (x : N20) (d : XDesc) (ps : List Piece) : State :=
  (List.zip (List.range ps.length) ps).foldl (fun s q =>
    landData s x q.2.action q.2.codec q.2.dst d.dstBf d.scale q.2.poison q.2.aux (if q.1 + 1 = ps.length then xTail d else xUnit d) q.2.body) s

/-- An exchange begins sending: source and residual are read, with their checks, before its packets are built (R32); packets to every peer,
its own contribution, its residual (R354, R356, R359, R360). -/
def beginExch (s : State) (x : N20) (d : XDesc) : State × List (Nat × Nat) :=
  let s := (exchReads d).foldl (fun s r => touchRange s r.1 r.2) s
  let p := xPieces s x d
  let s := if d.oper = 3 ∧ d.codec ≠ 0 then writeResid s d.resid p.2 else s
  let s := landOwn s x d p.1
  ((clPeers s x).filter fun i => d.peers.testBit i).foldl (fun (acc : State × List (Nat × Nat)) i =>
    let y := queuePieces acc.1 x d i p.1
    (y.1, acc.2 ++ [(i, y.2)])) (s, [])

/-- Has the last packet to every peer been acknowledged (R360)? -/
def exchAcked (s : State) (x : N20) (e : Exch) : Bool :=
  e.begun && e.last.all fun l =>
    let t := getTx s x (chanKey (parseX e.desc).chan l.1)
    !(t.sent ++ t.queue).any fun p => p.seq == l.2

/-! The norm through the master (R363, R364). -/

/-- A norm run for a step. -/
def normRun (step : Nat) : NormRun := ⟨step, [], [], false⟩

/-- The step for which a slice's exchange unit awaits the norm next: that of its lowest BUU that takes part, or the one after where that BUU has
its norm already and its vector is sent (R319, R363). -/
def normStep (s : State) (x : N20) : Nat :=
  match ((sliceSects s x).filter (takesPart s)).head? with
  | none => 0
  | some n =>
    let b := getBuu s n
    let had := (b.phase == 3 || (b.phase == 2 && b.normValid)) && !(getFab s x).vecs.any fun v => v.1 == n.val
    (sliceStep s x + b2n had) % 2 ^ 32

/-- The run that the master's exchange unit combines now: the one in progress, else that of its own BUUs' step; with no BUU in a step, the one
that follows the last (R363). -/
def masterRun (s : State) (x : N20) : NormRun :=
  match (getFab s x).norm with
  | some r => if r.from_.isEmpty && !r.sent && (sliceSects s x).any (takesPart s) && r.step != normStep s x then normRun (normStep s x) else r
  | none => normRun (normStep s x)

/-- Packets of a member's NORMSUM: four from replica 0, one from others (R363). -/
def normNeed (s : State) (x : N20) (i : Nat) : Nat := if i / clShards s x = 0 then 4 else 1

/-- A record reaches every BUU of a slice and its step word (R363 step 5, R364). -/
def applyNormRec (s : State) (x : N20) (step : Nat) (n : W32) (moult : Bool) : State :=
  fillStepWord ((sliceSects s x).foldl (fun s k => acceptNorm s k (normRec step n)) s) x step moult

/-- Does the master mark this record (R364)? -/
def markMoult (s : State) (x : N20) : Bool :=
  let m := (getFab s x).plan.moult
  m != BitVec.allOnes 64 && decide (m.toNat * 2 ^ rfld s .chorus 12 8 ≤ tickNow s) && !(getFab s x).marked.contains m.toNat

/-- May the norm packets of a slice go now: in a NORM or OPEN slot, with a share; a clutch of one member sends none (R350, R352)? -/
def normOpen (s : State) (x : N20) : Bool := clN s x == 1 || (slotFor s x 3 && dataOpen s x && (getFab s x).weight != 0)

/-- Once every member has sent, the master computes N; its record reaches the own slice, and a NORMREC is ready for every other member (R363 steps 3
and 4). -/
def normDone (s : State) (x : N20) : State × List NormPkt :=
  match (getFab s x).norm with
  | none => (s, [])
  | some r =>
    let all := (List.range (clN s x)).all fun i => if i = clSelf s x then r.sent else r.from_.any fun y => y.1 == i && decide (normNeed s x i ≤ y.2)
    if !all || !normOpen s x then (s, [])
    else
      let n := normOf r.sums
      let moult := markMoult s x
      let t := getFab s x
      let s := putFab s x { t with norm := some (normRun ((r.step + 1) % 2 ^ 32)), marked := if moult then t.plan.moult.toNat :: t.marked else t.marked }
      let body := leBytes 4 n.toNat ++ leBytes 4 r.step ++ leBytes 1 (if moult then 1 else 0)
      (applyNormRec s x r.step n moult,
        (clPeers s x).map fun i => ⟨x, i, mkPacket s x 6 0 (memSlice s x i) 0 0 0 0 0 0 r.step 0 body⟩)

/-- The same where the slot is open: the records leave at once (R363 step 4). -/
def finishNorm (s : State) (x : N20) : State :=
  let y := normDone s x
  y.2.foldl (fun s p => sendTo s x p.i p.bytes) y.1

/-- What may go now that could not before: packets that waited, and norm records that are ready, in the turns of their slices (R339, R349,
R352). -/
def slotOpens (s : State) : State :=
  let y := all20.foldl (fun (acc : State × List NormPkt) x =>
    if clutchOn acc.1 x && clSelf acc.1 x == clMaster acc.1 x then (let z := normDone acc.1 x; (z.1, acc.2 ++ z.2)) else acc) (s, [])
  runAllTx y.2 y.1

/-! Stopping (R350, R368). -/

/-- A slice's exchanges discarded, its packets dropped, its contexts and counts as a new generation leaves them. -/
def dropExch (s : State) (x : N20) : State :=
  let t := getFab s x
  putFab s x { t with exch := [], tx := [], rx := [], norm := none, vecs := [], lastOut := [], lastIn := [], bell := 0 }

end Sys2Proof.Machine
end

