-- ==== Sys2Proof/Machine/FabricOps.lean ====
section
/-!
DEFINITION. The commands of the fabric: doorbells and exchanges, packets received and their timers, plans, the norm through the master
(R337 to R366).
-/

namespace Sys2Proof.Machine

/-! Exchanges (R354 to R360). -/

/-- DONE of an exchange filled with a status, where it lies in the slice (R355, R360). -/
def fillExch (s : State) (x : N20) (d : XDesc) (st : Status) : State :=
  if inSlice s x d.done 8 then exchFill s x d.chan (clSelf s x) d.done (BitVec.ofNat 64 (stCode st)) else s

/-- An exchange descriptor refused: counted, logged, and DONE filled with ST_INCONSISTENT where the descriptor has been read (R355). -/
def refuseExch (s : State) (x : N20) (d : Option XDesc) (a : Nat) : State :=
  let s := rbump s (.clStat x) 31 16 1
  let s := logEv s (stCode .inconsistent) clsNone x.val 5 0xFF 0 (mkDetail 0 a)
  match d with
  | some d => fillExch s x d .inconsistent
  | none => s

/-- The descriptor at an address: an exchange that waits, or a refusal; one named by a poisoned word, foreign, or on a stack that is not open
is refused unread (R299, R355). -/
def takeDesc (s : State) (x : N20) (a : Nat) (p : Bool) : State :=
  let ok := !p && inSlice s x a 64 && !shutRange s [(a, 64)]
  let s := if ok then touchRange s a 64 else s
  let b := memBytes s a 64
  if ok && !memPoison s a 64 && xOk s x b then
    let t := getFab s x
    putFab s x { t with exch := t.exch ++ [⟨b, s.tb.starts, false, []⟩] }
  else refuseExch s x (if ok then some (parseX b) else none) a

/-- The source of a slice's exchange unit as it TAKEs the doorbell ring, and its TAKE that waits or has its word. -/
def bellSrc (x : N20) : FeSrc := .exch (x.val * 256 + 255)
def bellOp (s : State) (x : N20) : Option FeOp := s.feOps.find? fun y => y.src == bellSrc x && y.kind == .take

/-- The next word of a slice's doorbell ring (R354). -/
def bellWord (s : State) (x : N20) : Nat := rfld s (.doorbell x) 43 0 / 64 * 64 + 8 * ((getFab s x).bell % 64)

/-- The value v of the next word, with its poison, in the exchange unit's hands: the descriptor that it names is taken, which a stack in RECAL
holds (R299, R354). -/
def bellTaken (s : State) (x : N20) (v : W64) (p : Bool) : State :=
  if holdsRange s [(bits v 43 0, 64)] then s
  else
    let t := getFab s x
    takeDesc { putFab s x { t with bell := (t.bell + 1) % 64 } with feOps := s.feOps.filter fun y => !(y.src == bellSrc x && y.kind == .take) } x
      (bits v 43 0) p

/-- The exchange unit TAKEs the next word: a full one at once, where the descriptor's stack lets it be read; on an empty one it begins to wait
(R222, R354; DESIGN CHOICE, log 133). A word outside the slice is refused with one event (R404, R411). -/
def bellReach (s : State) (x : N20) : State :=
  let w := bellWord s x
  let c := feCell s w
  if placeOf w != .nothing && addrSlice s w != some x then logNoWord s (bellSrc x) w .protection
  else if c = .nowhere then s
  else if feFull s c then
    if holdsRange s [(bits (feValue s w) 43 0, 64)] then s
    else
      let s := touchUnit s (w / 64)
      bellTaken (feSet s c false) x (feValue s w) (unitPoison s (w / 64))
  else { s with feOps := s.feOps ++ [⟨s.nextOp, bellSrc x, .take, w, false, 0, none, s.now, 0, 0, true, s.now, none⟩], nextOp := s.nextOp + 1 }

/-- DOORBELL_TAKE: the next word of the ring (R354), while use leaves room (R462): a word that a waiting TAKE has got is followed, one that waits
takes a word that is full. -/
def execDoorbellTake (sl : N20) (s : State) : Out :=
  .next (if !clutchOn s sl then s
    else
      match bellOp s sl with
      | none => if overShare s sl then s else bellReach s sl
      | some y =>
        match y.got with
        | some z => bellTaken s sl z.1 z.2
        | none => if overShare s sl || !feFull s (feCell s y.addr) then s else feSatisfy s (feCell s y.addr) y)

/-- The exchanges of a slice with the first that satisfies p replaced or removed. -/
def exchAt (p : Exch → Bool) (f : Exch → Option Exch) : List Exch → List Exch
  | [] => []
  | e :: r => if p e then (match f e with | some y => y :: r | none => r) else e :: exchAt p f r

/-- May an exchange begin in the present slot: the slot started, and was not entered by a step, since the exchange was taken, and has had its kind
from its start (R347, R352; DEDUCED, log 96)? -/
def atStart (s : State) (x : N20) (e : Exch) : Bool :=
  s.tb.entered && decide (e.ready < s.tb.starts) && (getFab s x).kindAt != some s.tb.starts

/-- EXCHANGE_START: the first exchange that has not begun, at the start of a slot of its kind or an OPEN one, while the timebase lets
exchanges start (R346, R352, R354). A stack in RECAL holds it, and no stack that is not open is reached (R299). -/
def execExchangeStart (sl : N20) (s : State) : Out :=
  .next (match (getFab s sl).exch.find? fun e => !e.begun with
    | none => s
    | some e =>
      let d := parseX e.desc
      let rs := exchReads d ++ exchWrites s sl d
      if !timeOpen s || !slotFor s sl d.kind || !atStart s sl e || holdsRange s rs || shutRange s rs then s
      else
        let y := beginExch s sl d
        let t := getFab y.1 sl
        putFab y.1 sl { t with exch := exchAt (fun e => !e.begun) (fun e => some { e with begun := true, last := y.2 }) t.exch })

/-- EXCHANGE_COMPLETE: DONE takes ST_OK (R360). -/
def execExchangeComplete (sl : N20) (s : State) : Out :=
  .next (match (getFab s sl).exch.find? (exchAcked s sl) with
    | none => s
    | some e =>
      let t := getFab s sl
      let s := putFab s sl { t with exch := exchAt (exchAcked s sl) (fun _ => none) t.exch }
      fillExch s sl (parseX e.desc) .ok)

/-! Packets received (R340 to R344, R408). -/

/-- Does a port receive: enabled, up, in service (R369, R381)? -/
def portUp (s : State) (p : PortId) : Bool := hubReady s && rbit s (.portCtl p) 0 && rbit s (.portStat p) 63

/-- A packet discarded and counted (R337, R340, R344). -/
def rejectPkt (s : State) (p : PortId) : State := rbump s (.portStat p) 15 0 1

/-- The receiving slice and the sending member of a packet that the clutch, its generation and the firewall admitted (R344, R408). -/
def admitted (s : State) (p : PortId) (h : Hdr) : Option (N20 × Nat) :=
  match fin? 20 h.dst with
  | none => none
  | some x =>
    let w := rget s (.fabfw x)
    if clutchOn s x && h.gen == clGen s x && decide (bits w 63 48 ≤ h.dev) && decide (h.dev ≤ bits w 47 32) && w.getLsbD p.val then
      (memberOf s x h.dev h.src).map fun i => (x, i)
    else none

/-- The tick kept at which a packet last came from a member (R366). -/
def heard (s : State) (x : N20) (i : Nat) : State :=
  let t := getFab s x
  putFab s x { t with lastIn := tset t.lastIn 0 i (tickNow s) }

/-- Bytes that a packet's destination covers, as far as its header tells: the payload of a WRITE, the elements of an ADD without codec;
of an encoded packet the address alone (R344). -/
def dstExtent (h : Hdr) : Nat :=
  if h.action = 0 then h.len else if h.codec = 0 then h.len / 4 * (if h.flags.testBit 3 then 2 else 4) else 1

/-- Do a DATA packet's DST and NOTIFY_ADDR lie in the slice (R344)? -/
def dataInside (s : State) (x : N20) (h : Hdr) : Bool :=
  inSlice s x h.addr (max 1 (dstExtent h)) && (h.flags % 2 == 0 || inSlice s x h.notify 8)

/-- IFT_DATA_RECEIVE (R341, R342, R344). -/
def execIftDataReceive (p : PortId) (pkt : IftPacket) (s : State) : Out :=
  let h := parseHdr pkt.bytes
  .next (if !portUp s p ∨ h.type ≠ 0 then s
    else if !hdrOk pkt.bytes then rejectPkt s p
    else
      match admitted s p h with
      | none => rejectPkt s p
      | some (x, i) =>
        if !dataInside s x h then rejectPkt s p
        else
          let s := heard s x i
          let k := chanKey h.chan i
          let r := getRx s x k
          if !seqAfter h.seq r.mark || r.held.any (fun y => y.1 == h.seq) then sendAck (rbump s (.portStat p) 47 32 1) x h.chan i
          else if 4096 < (h.seq - r.mark).toNat then rbump s (.portStat p) 31 16 1
          else putRx s x k { r with held := r.held ++ [(h.seq, pkt)] })

/-- PACKET_LAND: the packet after the mark takes effect, its notify is made, and every eighth is acknowledged (R341 to R343, R241); a stack
in RECAL holds it (R299). -/
def execPacketLand (rx : RxKey) (s : State) : Out :=
  let x := rx.slice
  .next (match memberOf s x rx.dev.toNat rx.src.toNat with
    | none => s
    | some i =>
      let k := chanKey rx.chan i
      let r := getRx s x k
      match r.held.find? fun y => y.1 == r.mark + 1 with
      | none => s
      | some y =>
        let h := parseHdr y.2.bytes
        if holdsRange s [landRange h.action h.codec h.addr (h.flags.testBit 3) h.aux (payload y.2.bytes)] then s
        else
        let s := putRx s x k { r with mark := r.mark + 1, held := r.held.filter fun z => z.1 != y.1, unacked := r.unacked + 1 }
        let s := landData s x h.action h.codec h.addr (h.flags.testBit 3) h.scale h.poison h.aux y.2.tail (payload y.2.bytes)
        let s := if h.flags % 2 = 1 then exchFill s x rx.chan i h.notify (h.seq.setWidth 64) else s
        if 8 ≤ r.unacked + 1 then sendAck s x rx.chan i else s)

/-- ACK_TIMER (R342). -/
def execAckTimer (rx : RxKey) (s : State) : Out :=
  .next (match memberOf s rx.slice rx.dev.toNat rx.src.toNat with
    | none => s
    | some i => if (getRx s rx.slice (chanKey rx.chan i)).unacked = 0 then s else sendAck s rx.slice rx.chan i)

/-- IFT_ACK_RECEIVE: packets up to the mark are released, and those that wait go (R342). -/
def execIftAckReceive (p : PortId) (pkt : IftPacket) (s : State) : Out :=
  let h := parseHdr pkt.bytes
  .next (if !portUp s p ∨ h.type ≠ 1 then s
    else if !hdrOk pkt.bytes then rejectPkt s p
    else
      match admitted s p h with
      | none => rejectPkt s p
      | some (x, i) =>
        let s := heard s x i
        let k := chanKey h.chan i
        let t := getTx s x k
        let m : BitVec 32 := BitVec.ofNat 32 h.aux
        runTx (putTx s x k { t with sent := t.sent.filter fun q => seqAfter (BitVec.ofNat 32 q.seq) m }) x i k)

/-! Timers of a sender (R342, R366). -/

/-- Has the slice's job declared peer i silent already: is one of its pending slice-fatal events that of the peer? -/
def silentSaid (s : State) (x : N20) (i : Nat) : Bool :=
  s.log.fatals.any fun f => f.1 == x.val && f.2.1 == stCode .peerSilent &&
    (s.log.inFlight.any (fun e => e.id == f.2.2 && e.detail == mkDetail 0 i) ||
      (logRing s x.val).any fun r => r.ev.id == f.2.2 && r.ev.detail == mkDetail 0 i)

/-- A slice-fatal ST_PEER_SILENT with the peer's index, once for a peer in a job (R342, R366, R394). -/
def peerSilent (s : State) (x : N20) (i : Nat) : State :=
  if silentSaid s x i then s
  else logEv s (stCode .peerSilent) clsSlice x.val 5 0xFF 0 (mkDetail 0 i)

/-- RETRANSMIT_TIMEOUT: due to be sent again with RETRY as soon as data may leave, at most eight times; then the channel has failed (R339,
R342, R349, R352). -/
def execRetransmitTimeout (tx : TxKey) (seq : BitVec 32) (s : State) : Out :=
  let k := chanKey tx.chan tx.peer.val
  let t := getTx s tx.slice k
  .next (match t.sent.find? fun q => q.seq == seq.toNat with
    | none => s
    | some q =>
      if 8 ≤ q.tries then peerSilent s tx.slice tx.peer.val
      else
        runTx (putTx s tx.slice k { t with sent := t.sent.map fun z => if z.seq == q.seq then { z with due := true } else z })
          tx.slice tx.peer.val k)

/-- KEEPALIVE_ACK: 16 ticks without a packet to a peer (R366); the mark repeated is that of channel 0 (DEDUCED, log 18). -/
def execKeepaliveAck (sl : N20) (peer : Fin 8) (s : State) : Out :=
  .next (if clutchOn s sl && (clPeers s sl).contains peer.val && decide (tget (getFab s sl).lastOut 0 peer.val + 16 ≤ tickNow s) then
      sendAck s sl 0 peer.val
    else s)

/-- Does something of the slice wait on a peer: an exchange's packets at it, a NORMREC from the master, or at the master its NORMSUM
(R366)? -/
def waitsOn (s : State) (x : N20) (i : Nat) : Bool :=
  let t := getFab s x
  t.exch.any (fun e => e.begun && e.last.any fun l =>
      l.1 == i && (let c := getTx s x (chanKey (parseX e.desc).chan i); (c.sent ++ c.queue).any fun p => p.seq == l.2)) ||
    (match t.norm with
     | none => false
     | some r =>
       r.sent && (if clSelf s x = clMaster s x then !r.from_.any (fun y => y.1 == i && decide (normNeed s x i ≤ y.2)) else i == clMaster s x))

/-- PEER_SILENT (R366). -/
def execPeerSilent (sl : N20) (peer : Fin 8) (s : State) : Out :=
  .next (if clutchOn s sl && (clPeers s sl).contains peer.val && waitsOn s sl peer.val &&
        decide (tget (getFab s sl).lastIn 0 peer.val + rfld s (.clCfg sl) 7 0 ≤ tickNow s) then
      peerSilent s sl peer.val
    else s)

/-! Probes (R365). -/

/-- A mask of slices. -/
def sliceMask (p : N20 → Bool) : Nat := all20.foldl (fun m n => if p n then m + 2 ^ n.val else m) 0

/-- Readers of the ended-job masks: ports, then functions. -/
def readerPort (p : PortId) : Nat := p.val
def readerFunc (f : FuncId) : Nat := 8 + f.val

/-- PROBE: PROBE_ACK to the probe's source address on the port it came in on, with the reader's mask, which is cleared (R365). -/
def execProbe (p : PortId) (pkt : IftPacket) (s : State) : Out :=
  let h := parseHdr pkt.bytes
  .next (if !portUp s p ∨ h.type ≠ 2 then s
    else if !hdrOk pkt.bytes then rejectPkt s p
    else
      match fin? 20 h.dst with
      | none => rejectPkt s p
      | some x =>
        let body := leBytes 8 (timeState s) ++ leBytes 8 (tickNow s) ++ leBytes 4 (sliceMask (sliceRunning s)) ++
          leBytes 4 (tget s.mp.ended 0 (readerPort p)) ++ List.replicate 8 0
        let b := mkPacket s x 3 0 h.src h.chan 0 0 0 0 0 0 0 body
        let s := emit s (.frame p pkt.from_ (rfld s .fabDev 31 16) (udpSource x b) b)
        { s with mp := { s.mp with ended := tset s.mp.ended 0 (readerPort p) 0 } })

/-! Plans (R353). -/

/-- The plan that a PLAN packet's payload holds. -/
def planOf (b : List Byte) : Plan :=
  ⟨BitVec.ofNat 64 (fieldAt b 0 8), BitVec.ofNat 64 (fieldAt b 8 8), BitVec.ofNat 64 (fieldAt b 16 8)⟩

/-- A plan comes into force, at the start of the present slot or in its midst: the slot has its kind, and what waited may go (R352, R353). -/
def usePlan (s : State) (x : N20) (q : Plan) (start : Bool) : State :=
  let t := getFab s x
  let kind (w : W64) : Nat := bits w (4 * s.tb.slot + 3) (4 * s.tb.slot)
  slotOpens (putFab s x { t with plan := q, kindAt := if start || kind q.codes == kind t.plan.codes then t.kindAt else some s.tb.starts })

/-- A member receives a plan: applied at its EFFECTIVE tick, or at once, counted and logged, where that has passed; plans that wait go on
waiting (R353, R377). -/
def takePlan (s : State) (x : N20) (q : Plan) : State :=
  let t := getFab s x
  if q.effective.toNat < tickNow s then
    logEv (rbump (usePlan s x q false) (.clStat x) 47 32 1) (stCode .planLate) clsNone x.val 5 0xFF 0 (mkDetail 0 q.effective.toNat)
  else if q.effective.toNat = tickNow s then usePlan s x q false
  else putFab s x { t with pend := t.pend ++ [q] }

/-- PLAN: from the slice's master alone (R353). -/
def execPlan (p : PortId) (pkt : IftPacket) (s : State) : Out :=
  let h := parseHdr pkt.bytes
  .next (if !portUp s p ∨ h.type ≠ 4 then s
    else if !hdrOk pkt.bytes ∨ h.len ≠ 24 then rejectPkt s p
    else
      match admitted s p h with
      | none => rejectPkt s p
      | some (x, i) => if i = clMaster s x then takePlan (heard s x i) x (planOf (payload pkt.bytes)) else rejectPkt s p)

/-- Is a stored plan applied now: at its EFFECTIVE tick, or, where a step skipped that boundary, at the next epoch boundary (R347,
R353)? -/
def planDue (s : State) (q : Plan) : Bool :=
  q.effective.toNat == tickNow s || (decide (q.effective.toNat < tickNow s) && tickNow s % 2 ^ rfld s .chorus 12 8 == 0)

/-- PLAN_APPLY: the first stored plan that is due; one applied after its EFFECTIVE tick is counted and logs
no event (R353, R377; DEDUCED, log 112). -/
def execPlanApply (sl : N20) (s : State) : Out :=
  let t := getFab s sl
  .next (match t.pend.find? (planDue s) with
    | none => s
    | some q =>
      let u := usePlan (putFab s sl { t with pend := takeOut (planDue s) t.pend }) sl q (s.tb.entered && s.tb.slot == 0)
      if q.effective.toNat < tickNow s then rbump u (.clStat sl) 47 32 1 else u)

/-! The norm (R363, R364). -/

/-- The 1,024 group sums of packet q of a NORMSUM. -/
def sumsBody (t : Tab W32) (q : Nat) : List Byte := (List.range 1024).flatMap fun j => leBytes 4 (tget t 0 (1024 * q + j)).toNat

/-- A member's NORMSUM to the master (R363 step 1). -/
def sendSums (s : State) (x : N20) (step : Nat) (t : Tab W32) : State :=
  let m := clMaster s x
  if clSelf s x / clShards s x = 0 then
    (List.range 4).foldl (fun s q => sendTo s x m (mkPacket s x 5 0 (memSlice s x m) 0 0 0 (4096 * q) 0 0 step 0 (sumsBody t q))) s
  else sendTo s x m (mkPacket s x 5 0 (memSlice s x m) 0 0 0 0 0 0 step 0 [])

/-- The master's own sums: those of another step are discarded and counted (R363 step 2). -/
def ownSums (s : State) (x : N20) (step : Nat) (t : Tab W32) : State :=
  let r := masterRun s x
  if r.step ≠ step then rbump s (.clStat x) 63 48 1
  else
    let f := getFab s x
    putFab s x { f with norm := some { r with sums := if clSelf s x / clShards s x = 0 then addSums r.sums t else r.sums, sent := true } }

/-- NORMSUM_SEND (R363 steps 1 and 3). -/
def execNormsumSend (sl : N20) (s : State) : Out :=
  .next (if !clutchOn s sl || !vecsReady s sl || !normOpen s sl then s
    else
      let step := sliceStep s sl
      let t := sliceSums s sl
      if clSelf s sl = clMaster s sl then
        let s := ownSums s sl step t
        finishNorm (putFab s sl { getFab s sl with vecs := [] }) sl
      else
        let s := sendSums s sl step t
        putFab s sl { getFab s sl with vecs := [], norm := some { normRun step with sent := true } })

/-- Group sums that a NORMSUM carries: packet of 1,024 from DST / 4. -/
def sumsOf (h : Hdr) (b : List Byte) : Tab W32 := (List.range (h.len / 4)).map fun j => (h.addr / 4 + j, BitVec.ofNat 32 (fieldAt b (4 * j) 4))

/-- Members' counts with one more packet of member i. -/
def countFrom (i : Nat) : List (Nat × Nat) → List (Nat × Nat)
  | [] => [(i, 1)]
  | y :: r => if y.1 = i then (i, y.2 + 1) :: r else y :: countFrom i r

/-- The run that a NORMSUM meets: the one in progress; a master with no BUU in the step takes up the step of the first, unless that step is over
(DEDUCED, log 19). -/
def runFor (s : State) (x : N20) (step : Nat) : NormRun :=
  let r := masterRun s x
  let past := match (getFab s x).norm with | some q => decide (step < q.step) | none => false
  if r.from_.isEmpty && !r.sent && !(sliceSects s x).any (takesPart s) && !past then normRun step else r

/-- Has a NORMSUM the form its member gives it (R363 step 1)? -/
def sumsForm (s : State) (x : N20) (i : Nat) (h : Hdr) : Bool :=
  if i / clShards s x = 0 then h.len == 4096 && h.addr % 4096 == 0 && decide (h.addr < 16384) else h.len == 0

/-- NORMSUM: the master adds sums of the current step and discards others (R363 steps 2 to 4). -/
def execNormsum (p : PortId) (pkt : IftPacket) (s : State) : Out :=
  let h := parseHdr pkt.bytes
  .next (if !portUp s p ∨ h.type ≠ 5 then s
    else if !hdrOk pkt.bytes then rejectPkt s p
    else
      match admitted s p h with
      | none => rejectPkt s p
      | some (x, i) =>
        if clSelf s x ≠ clMaster s x ∨ i = clSelf s x ∨ !sumsForm s x i h then rejectPkt s p
        else
          let s := heard s x i
          let r := runFor s x h.aux
          if r.step ≠ h.aux then rbump s (.clStat x) 63 48 1
          else
            let t := getFab s x
            let r' := { r with sums := addSums r.sums (sumsOf h (payload pkt.bytes)), from_ := countFrom i r.from_ }
            finishNorm (putFab s x { t with norm := some r' }) x)

/-- NORMREC: from the master; the record reaches every BUU of the slice and the step word (R363 step 5, R364). -/
def execNormrec (p : PortId) (pkt : IftPacket) (s : State) : Out :=
  let h := parseHdr pkt.bytes
  .next (if !portUp s p ∨ h.type ≠ 6 then s
    else if !hdrOk pkt.bytes ∨ h.len < 9 then rejectPkt s p
    else
      match admitted s p h with
      | none => rejectPkt s p
      | some (x, i) =>
        if i ≠ clMaster s x ∨ i = clSelf s x then rejectPkt s p
        else
          let b := payload pkt.bytes
          let s := heard s x i
          let s := putFab s x { getFab s x with norm := none }
          applyNormRec s x (fieldAt b 4 4) (BitVec.ofNat 32 (fieldAt b 0 4)) (fieldAt b 8 1 % 2 == 1))

/-- FRAME_DISCARD: counted in REJECT, and the uncorrectable codewords that a failing FCS shows in FEC_UNCORR (R337, R340, R376; log 98). -/
def execFrameDiscard (p : PortId) (why : DiscardWhy) (s : State) : Out :=
  .next (if !portUp s p then s
    else
      match why with
      | .fcs n => rbump (rejectPkt s p) (.portStat p) 62 48 n
      | _ => rejectPkt s p)

end Sys2Proof.Machine
end

