-- ==== Sys2Proof/Machine/TimeOps.lean ====
section
/-!
DEFINITION. The timebase and the chorus (R345 to R349, R374, R375), the ports (R337, R369, R376, R489), and the fabric's quota interval
(R462, R463).
-/

namespace Sys2Proof.Machine

/-! Time. -/

/-- The tick and slot of a PTP time (R348). -/
def tickOf (s : State) (t : Nat) : Nat := if chorusP s = 0 then 0 else t / chorusP s
def slotOf (s : State) (t : Nat) : Nat := if chorusP s = 0 then 0 else t % chorusP s * 16 / chorusP s

/-- A change of the timebase's state logs one event (R346, R458); where exchanges may start again, the slot in progress is not one that they
saw start (R31, R352). -/
def setTimeState (s : State) (x : Nat) : State :=
  if timeState s = x then s
  else
    let s := { s with tb := { s.tb with entered := s.tb.entered && (timeOpen s || x != 1) } }
    logEv (rsetf s .timeState 63 60 x) ntTimeState clsNone 0xFF 6 0xFF 0 (BitVec.ofNat 64 x)

/-- PTP time set to t: a slot that is left is no longer in use (R466), and one met by a step not at its start is not entered (R347); outside
UNSYNC the tick follows and never decreases (R346, R347). A later time is a later a-cycle for the counters. -/
def setTime (s : State) (t : Nat) : State :=
  let s := if t = s.tb.time then s else laterCycle s
  let same := tickOf s t == tickOf s s.tb.time && slotOf s t == s.tb.slot
  let s := { s with tb := { s.tb with time := t, slot := slotOf s t, entered := same && s.tb.entered, used := if same then s.tb.used else [] } }
  if unsync s then s else rput s .tick (BitVec.ofNat 64 (max (tickNow s) (tickOf s t)))

/-- A signed offset in ns. -/
def offsetOf (o : BitVec 32) : Int := sbits o 31 0

/-- The timebase's reading after a message: an offset within 1 µs is slewed away later, a larger one is stepped (R347). -/
def timeAfter (m : PtpMsg) : Nat :=
  let o := offsetOf m.offset
  if o.natAbs ≤ 1000 then ((m.time.toNat : Int) + o).toNat else m.time.toNat

/-- PTP_MESSAGE_RECEIVE: on the port and in the domain of TIME_CTL; a valid one is followed by a delay request (R345 to R347; log 99). -/
def execPtpMessageReceive (p : PortId) (msg : PtpMsg) (s : State) : Out :=
  .next (if !portUp s p || !rbit s .timeCtl 0 || rfld s .timeCtl 3 1 != p.val || rfld s .timeCtl 11 4 != msg.domain.toNat || !msg.valid then s
    else
      let good := if (offsetOf msg.offset).natAbs ≤ 100 then s.tb.good + 1 else 0
      let s := rsetf s .timeState 31 0 msg.offset.toNat
      let s := { s with tb := { s.tb with good := good } }
      let s := if 16 ≤ good then setTimeState s 1 else s
      emit (setTime s (timeAfter msg)) (.delayReq p msg.domain.toNat))

/-- PTP_SYNC_LOSS (R346). -/
def execPtpSyncLoss (s : State) : Out :=
  .next (if timeState s = 1 then setTimeState { s with tb := { s.tb with good := 0 } } 2 else s)

/-- HOLDOVER_TIMEOUT (R346). -/
def execHoldoverTimeout (s : State) : Out := .next (if timeState s = 2 then setTimeState s 3 else s)

/-- A slot of the period starts (R348, R352). -/
def slotStarts (s : State) : State := slotOpens { s with tb := { s.tb with starts := s.tb.starts + 1, entered := true } }

/-- CHORUS_TICK: PTP time reaches the next multiple of P; the tick follows, held after a backward step (R347, R348). -/
def execChorusTick (s : State) : Out :=
  .next (if unsync s || chorusP s == 0 then s else slotStarts (setTime s ((s.tb.time / chorusP s + 1) * chorusP s)))

/-- PTP time at the start of slot j of the period (R348). -/
def slotTime (s : State) (j : Nat) : Nat := s.tb.time / chorusP s * chorusP s + j * chorusP s / 16

/-- CHORUS_SLOT_START: the next slot of the period begins; slot 0 begins with its tick (R348, R352). -/
def execChorusSlotStart (s : State) : Out :=
  .next (if unsync s || chorusP s == 0 || decide (15 ≤ s.tb.slot) then s
    else slotStarts (setTime s (slotTime s (s.tb.slot + 1))))

/-- Tick and slot as TIME_CHORUS gives them from now on: the slot in progress is not met at its start (R348). -/
def rechorus (s : State) : State :=
  let s := { s with tb := { s.tb with slot := slotOf s s.tb.time, entered := false } }
  if unsync s then s else rput s .tick (BitVec.ofNat 64 (tickOf s s.tb.time))

/-- A write to TIME_CHORUS: ignored and logged while any clutch is valid (R374); tick and slot follow a change (R348). -/
def writeChorus (s : State) (f : FuncId) (v : W64) : State :=
  if all20.any (clutchOn s) then logAccess s f (regOff .chorus) (stCode .clutchActive)
  else
    let t := plainWrite s f .chorus v
    if rget t .chorus == rget s .chorus then t else rechorus t

/-- A write to TIME_CTL: EN = 0 returns the timebase to UNSYNC, and no further tick is made (R346, R375). -/
def writeTimeCtl (s : State) (f : FuncId) (v : W64) : State :=
  let s := plainWrite s f .timeCtl v
  if bit v 0 then s
  else
    let s := setTimeState { s with tb := { s.tb with good := 0 } } 0
    rput s .tick 0

/-- TIMEBASE_ENABLE: a write of EN = 1 (R375). -/
def execTimebaseEnable (f : FuncId) (v : W64) (s : State) : Out :=
  .next (if bit v 0 then hostWrite s f .timeCtl true fun s => writeTimeCtl s f v else s)
/-- TIMEBASE_DISABLE: a write of EN = 0 (R346). -/
def execTimebaseDisable (f : FuncId) (v : W64) (s : State) : Out :=
  .next (if bit v 0 then s else hostWrite s f .timeCtl false fun s => writeTimeCtl s f v)

/-! Ports. -/

/-- A write to FABPn_CTL: ABORT first, else EN as written; a stopped port's link is down (R369, R376). -/
def writePortCtl (s : State) (p : PortId) (v : W64) : State :=
  let en := bit v 0 && !bit v 1
  let s := rsetf s (.portCtl p) 0 0 (b2n en)
  if en then s else rsetf s (.portStat p) 63 63 0

/-- PORT_ENABLE: EN = 1 without ABORT (R376). -/
def execPortEnable (f : FuncId) (p : PortId) (v : W64) (s : State) : Out :=
  .next (if bit v 0 && !bit v 1 then hostWrite s f (.portCtl p) true fun s => writePortCtl s p v else s)
/-- PORT_DRAIN: EN = 0 without ABORT (R369). -/
def execPortDrain (f : FuncId) (p : PortId) (v : W64) (s : State) : Out :=
  .next (if !bit v 0 && !bit v 1 then hostWrite s f (.portCtl p) false fun s => writePortCtl s p v else s)
/-- PORT_ABORT: ABORT = 1 (R369). -/
def execPortAbort (f : FuncId) (p : PortId) (v : W64) (s : State) : Out :=
  .next (if bit v 1 then hostWrite s f (.portCtl p) (bit v 0) fun s => writePortCtl s p v else s)

/-- PORT_LINK_UP: training of an enabled port with a cable completes (R337, R489). -/
def execPortLinkUp (p : PortId) (s : State) : Out :=
  .next (if rbit s (.portCtl p) 0 && tget s.tb.cable false p.val && hubReady s then rsetf s (.portStat p) 63 63 1 else s)
/-- PORT_LINK_DOWN (R467). -/
def execPortLinkDown (p : PortId) (s : State) : Out := .next (rsetf s (.portStat p) 63 63 0)

/-- CABLE_PRESENCE_CHANGE: without a cable LINK stays 0 (R489). -/
def execCablePresenceChange (p : PortId) (present : Bool) (s : State) : Out :=
  let s := { s with tb := { s.tb with cable := tset s.tb.cable false p.val present } }
  .next (if present then s else rsetf s (.portStat p) 63 63 0)

/-! Quota (R462, R463). -/

/-- An OVER_QUOTA bit of a slice. -/
def setOver (s : State) (n : N20) (k : Nat) (b : Bool) : State := rsetf s (.sliceState n) (56 + k) (56 + k) (b2n b)

/-- FABRIC_QUOTA_INTERVAL: the DATA bytes of the interval that ends are its use, but for those of its frames that are still in transmission, late
of them, which the next one counts (DESIGN CHOICE, log 113); a new weight and cap take force; the mark follows, and what the cap held back
goes (R462, R463). -/
def execFabricQuotaInterval (sl : N20) (late : Nat) (s : State) : Out :=
  let s := laterCycle s
  let w := rfld s (.share sl) 7 0
  let n := (getFab s sl).spent
  let t := { getFab s sl with bytes := n - late, weight := w, spent := min late n }
  .next (slotOpens (setOver (putFab s sl t) sl 0 (decide (w < shareUse t))))

end Sys2Proof.Machine
end

