-- ==== Sys2Proof/Machine/Rings.lean ====
section
/-!
DEFINITION. Command rings, packets and replies (R383 to R392, R397): the opcode table, the checks of R387, credits, the order of packets
on a slice, and the rows of the rings.
-/

namespace Sys2Proof.Machine

/-! The opcode table (R392). -/

/-- Response-time classes (R390). -/
inductive OpClass where
  | l | t | a
deriving DecidableEq, Repr

/-- Who may issue: the PF alone, the PF or the VF of the slice, any function. -/
inductive Issuer where
  | pf | own | any
deriving DecidableEq, Repr

/-- What SLICE names: the device, a slice, or either. -/
inductive OpScope where
  | device | slice | both
deriving DecidableEq, Repr

/-- A row of the table: its code, class, issuer, scope, the bits that its parameters P0 to P4 use, whether it changes its slice, and the
form of its progress with its total at start (R388, R389). -/
structure OpInfo where
  code : Nat
  cls : OpClass
  issuer : Issuer
  scope : OpScope
  masks : List Nat
  changes : Bool
  form : Nat
deriving DecidableEq, Repr

/-- Opcodes of R392. -/
def opPing : Nat := 0x0001
def opOpen : Nat := 0x0010
def opClose : Nat := 0x0011
def opScrub : Nat := 0x0012
def opQuery : Nat := 0x0013
def opLoad : Nat := 0x0020
def opStart : Nat := 0x0021
def opStop : Nat := 0x0022
def opClutch : Nat := 0x0030
def opMoult : Nat := 0x0031
def opRetire : Nat := 0x0040
def opKey : Nat := 0x0050
def opQuote : Nat := 0x0051
def opConfirm : Nat := 0x0052
def opBudget : Nat := 0x0053
def opQuota : Nat := 0x0054
def opUpdate : Nat := 0x0060
def opActivate : Nat := 0x0061
def opTele : Nat := 0x0070
def opLog : Nat := 0x0071
def opCap : Nat := 0x0072

/-- All 64 bits of a parameter. -/
def m64 : Nat := 2 ^ 64 - 1
/-- Bits of CSEL in P1. -/
def mCsel : Nat := 0x1FFFFF
/-- Bits of a pair of clutch members. -/
def mMem : Nat := 0x1FFFFF + 0x1FFFFF * 2 ^ 32

/-- The table of R392. -/
def opTable : List OpInfo :=
  [⟨opPing, .l, .any, .device, [], false, 0⟩,
   ⟨opOpen, .a, .pf, .slice, [0xFF + 0xFFFF * 2 ^ 32], true, 1⟩,
   ⟨opClose, .a, .pf, .slice, [], true, 1⟩,
   ⟨opScrub, .a, .own, .slice, [1], true, 1⟩,
   ⟨opQuery, .t, .any, .slice, [], false, 0⟩,
   ⟨opLoad, .a, .own, .slice, [m64, 0x7FFFFF + 0x7FF * 2 ^ 32, 0xFFF], true, 2⟩,
   ⟨opStart, .t, .own, .slice, [0x3FFF, mCsel], true, 0⟩,
   ⟨opStop, .a, .own, .slice, [1, mCsel], true, 0⟩,
   ⟨opClutch, .t, .own, .slice, [0x1FFFFF, mMem, mMem, mMem, mMem], true, 0⟩,
   ⟨opMoult, .t, .own, .slice, [m64, m64, m64], true, 0⟩,
   ⟨opRetire, .a, .pf, .device, [0x1F, 0xFFFFF], false, 0⟩,
   ⟨opKey, .a, .own, .slice, [m64, 0xFFFF], true, 0⟩,
   ⟨opQuote, .a, .own, .slice, [m64, m64, 0xFFFFFFFF], false, 0⟩,
   ⟨opConfirm, .t, .pf, .device, [0xFFFFFFFF, 3], false, 0⟩,
   ⟨opBudget, .t, .any, .both, [], false, 0⟩,
   ⟨opQuota, .t, .pf, .slice, [3, 0xFFFFFFFF], true, 0⟩,
   ⟨opUpdate, .a, .pf, .device, [m64, 0xFFFFFFFF], false, 2⟩,
   ⟨opActivate, .a, .pf, .device, [], false, 4⟩,
   ⟨opTele, .t, .any, .both, [m64], false, 0⟩,
   ⟨opLog, .t, .any, .both, [m64, 0xFFFFFFFFFFFF], false, 0⟩,
   ⟨opCap, .t, .pf, .device, [0xFFFF], false, 0⟩]

/-- The row of an opcode. -/
def opInfo (code : Nat) : Option OpInfo := opTable.find? fun x => x.code == code

/-! Packet fields (R386). -/

def pkOp (b : List Byte) : Nat := fieldAt b 0 2
def pkFlags (b : List Byte) : Nat := fieldAt b 2 1
def pkSlice (b : List Byte) : Nat := fieldAt b 3 1
def pkSeq (b : List Byte) : Nat := fieldAt b 4 4
/-- Parameter i. -/
def pkP (b : List Byte) (i : Nat) : Nat := fieldAt b (8 + 8 * i) 8
/-- Bits hi down to lo of parameter i. -/
def pkF (b : List Byte) (i hi lo : Nat) : Nat := pkP b i / 2 ^ lo % 2 ^ (hi + 1 - lo)
/-- The slice that a packet names, where it names one. -/
def pkSl (b : List Byte) : Option N20 := fin? 20 (pkSlice b)
def pkIrq (b : List Byte) : Bool := (pkFlags b).testBit 0
def pkProgress (b : List Byte) : Bool := (pkFlags b).testBit 1
def pkFence (b : List Byte) : Bool := (pkFlags b).testBit 2

/-! Function-local ring registers (R402). -/

/-- A field of a function's register. -/
def ffld (s : State) (f : FuncId) (r : Reg) (hi lo : Nat) : Nat := bits (fget s f r) hi lo
def fsetf (s : State) (f : FuncId) (r : Reg) (hi lo x : Nat) : State := fput s f r (putBits (fget s f r) hi lo x)
/-- Slots of a ring. -/
def ringLen (s : State) (f : FuncId) (r : Fin 4) : Nat := 2 ^ ffld s f (.ringCtl r) 12 8
def ringOn (s : State) (f : FuncId) (r : Fin 4) : Bool := ffld s f (.ringCtl r) 0 0 == 1
def sqHead (s : State) (f : FuncId) (r : Fin 4) : Nat := ffld s f (.sqdb r) 47 32
def sqTail (s : State) (f : FuncId) (r : Fin 4) : Nat := ffld s f (.sqdb r) 15 0
/-- Key of a ring's phase. -/
def ringKey (f : FuncId) (r : Fin 4) : Nat := f.val * 4 + r.val

/-- One event of a ring (R457: unit 7, the function, the ring). -/
def logRing1 (s : State) (f : FuncId) (r : Fin 4) (cause lo : Nat) : State :=
  logEv s cause clsNone (sliceByte (funcSlice f)) 7 r.val f.val (mkDetail 0 lo)

/-! Replies (R383, R385, R388). -/

/-- The 32 bytes of a reply without its phase. -/
def mkReply (st kind form seq done total ev slice : Nat) : List Byte :=
  leBytes 2 st ++ leBytes 1 kind ++ leBytes 1 form ++ leBytes 4 seq ++ leBytes 8 done ++ leBytes 8 total ++ leBytes 4 ev ++ leBytes 1 slice ++
    leBytes 3 0

/-- Is there a free slot in a ring's CQ (R383)? -/
def cqRoom (s : State) (f : FuncId) (r : Fin 4) : Bool :=
  (ffld s f (.cqdb r) 47 32 + 1) % ringLen s f r != ffld s f (.cqdb r) 15 0

/-- A reply written at CQDB.TAIL with the phase, and its interrupt (R383, R386). -/
def writeReply (s : State) (x : Reply) : State :=
  let t := ffld s x.f (.cqdb x.ring) 47 32
  let n := ringLen s x.f x.ring
  let ph := tget s.mp.phase true (ringKey x.f x.ring)
  let b := setNth x.bytes 2 (nthD x.bytes 2 0 ||| (if ph then 0x80 else 0))
  let s := emit s (.hostWrite x.f (ffld s x.f (.ringCq x.ring) 63 12 * 4096 + 32 * t) b)
  let s := fsetf s x.f (.cqdb x.ring) 47 32 ((t + 1) % n)
  let s := if t + 1 = n then { s with mp := { s.mp with phase := tset s.mp.phase true (ringKey x.f x.ring) (!ph) } } else s
  match x.vec with | some v => emit s (.interrupt x.f v) | none => s

/-- Waiting replies written in order where their ring has room. -/
def flushList : List Reply → List Reply → State → State
  | [], keep, s => { s with mp := { s.mp with replies := keep } }
  | x :: r, keep, s => if cqRoom s x.f x.ring then flushList r keep (writeReply s x) else flushList r (keep ++ [x]) s

def flushReplies (s : State) : State := flushList s.mp.replies [] s

/-- A reply handed to a ring; it waits for a free slot (R385). -/
def post (s : State) (f : FuncId) (r : Fin 4) (b : List Byte) (vec : Option Nat) (before : Option Nat := none) : State :=
  flushReplies { s with mp := { s.mp with replies := s.mp.replies ++ [⟨f, r, b, vec, before⟩] } }

/-- SLICE of a reply to a packet: the slice that it names, or 0xFF where it names none (R388). -/
def replySlice (s : State) (b : List Byte) : Nat := match pkSl b with | some n => if sliceDefined s n then n.val else 0xFF | none => 0xFF

/-- A packet's FINAL reply without a record of having taken it (R387, R391). -/
def replyFinal (s : State) (f : FuncId) (r : Fin 4) (b : List Byte) (st : Status) : State :=
  post s f r (mkReply (stCode st) 0 0 (pkSeq b) 0 0 0 (replySlice s b)) (if pkIrq b then some r.val else none) (some s.mp.nextId)

/-- Credits of a function. -/
def credits (s : State) (f : FuncId) : Nat := if f.val = 0 then 64 else tget s.mp.credits 0 f.val
/-- Packets taken by a function and not completed, PING apart. -/
def creditUse (s : State) (f : FuncId) : Nat := (s.mp.taken.filter fun t => t.f == f && pkOp t.bytes != opPing).length

/-- The OVER_QUOTA mark of a VF's credits clears when use no longer exceeds them (R462). -/
def easeCredits (s : State) (f : FuncId) : State :=
  match funcSlice f with
  | some n => if creditUse s f ≤ credits s f then setOver s n 2 false else s
  | none => s

/-- Taken packets without packet t; its credit is free. -/
def dropTaken (s : State) (t : Taken) : State :=
  easeCredits { s with mp := { s.mp with taken := s.mp.taken.filter fun y => y.id != t.id } } t.f

/-- The FINAL reply of a taken packet, which is then complete (R385). -/
def finishAs (s : State) (t : Taken) (st : Status) (form done total ev : Nat) : State :=
  let s := dropTaken s t
  if t.mute then s
  else post s t.f t.ring (mkReply (stCode st) 0 form (pkSeq t.bytes) done total ev (pkSlice t.bytes)) (if pkIrq t.bytes then some t.ring.val else none)
    (some (t.id + 1))

/-- A FINAL reply with FORM NONE and two result words. -/
def finish (s : State) (t : Taken) (st : Status) (done total : Nat) : State := finishAs s t st 0 done total 0

/-- Total of a packet's progress (R389, R392). -/
def opTotal (b : List Byte) : Nat :=
  let c := pkOp b
  if c = opOpen ∨ c = opClose ∨ c = opScrub then 10000
  else if c = opLoad then (pkF b 2 11 0) * (if pkF b 1 22 21 = 2 then 128 else 16) * (pkF b 1 15 8 + 1)
  else if c = opUpdate then pkF b 1 31 0
  else if c = opActivate then 26
  else 0
/-- Form of a packet's progress. -/
def opForm (b : List Byte) : Nat := match opInfo (pkOp b) with | some o => o.form | none => 0

/-- A FINAL reply with a form: ST_OK carries DONE = TOTAL, another status the progress made (R389). -/
def finishForm (s : State) (t : Taken) (st : Status) (ev : Nat) : State :=
  finishAs s t st (opForm t.bytes) (if st = .ok then opTotal t.bytes else t.done) (opTotal t.bytes) ev

/-- An EVENT reply to ring 0 of a function: vector 4 (R378, R388). -/
def postEvent (s : State) (f : FuncId) (st : Status) (done total ev slice : Nat) : State :=
  post s f 0 (mkReply (stCode st) 3 0 0xFFFFFFFF done total ev slice) (some 4)

/-! The checks of R387. -/

/-- Cores of a slice that CSEL names, in increasing number (R392). -/
def cselCores (s : State) (n : N20) (b : List Byte) : List CoreId := ((sliceCores s n).drop (pkF b 1 7 0)).take (pkF b 1 15 8 + 1)
/-- Do all cores of CSEL lie within the slice? -/
def cselOk (s : State) (n : N20) (b : List Byte) : Bool := decide (pkF b 1 7 0 + pkF b 1 15 8 + 1 ≤ (sliceCores s n).length)
/-- Engines of CSEL's mask. -/
def cselEngs (b : List Byte) : List EngId := allEng.filter fun e => (pkF b 1 20 16).testBit (engIdx e)

/-- A clutch member's device and slice in SET_CLUTCH (R392). -/
def ckMem (b : List Byte) (i : Nat) : Nat := pkF b (1 + i / 2) (if i % 2 = 0 then 20 else 52) (if i % 2 = 0 then 0 else 32)
def ckDev (b : List Byte) (i : Nat) : Nat := ckMem b i / 32
def ckSlice (b : List Byte) (i : Nat) : Nat := ckMem b i % 32

/-- Is a configuration of SET_CLUTCH consistent: members in range and on distinct devices, this slice at SELF, S dividing N (R350)? -/
def clutchOk (s : State) (n : N20) (b : List Byte) : Bool :=
  let m := pkF b 0 2 0 + 1
  let ds := (List.range m).map (ckDev b)
  pkF b 0 20 20 == 1 ||
    (m % (pkF b 0 5 3 + 1) == 0 && decide (pkF b 0 8 6 < m) && decide (pkF b 0 11 9 < m) && decide (1 ≤ pkF b 0 19 12) &&
      (List.range m).all (fun i => decide (ckSlice b i < 20)) && decide ds.Nodup &&
      ckDev b (pkF b 0 8 6) == rfld s .fabDev 15 0 && ckSlice b (pkF b 0 8 6) == n.val)

/-- The rules that an opcode puts on its parameters beyond their bits (R392 and the opcode's own rule). -/
def opRules (s : State) (b : List Byte) : Bool :=
  let c := pkOp b
  let sl (p : N20 → Bool) : Bool := match pkSl b with | some n => p n | none => false
  if c = opOpen then decide (1 ≤ pkF b 0 47 32 ∧ pkF b 0 47 32 ≤ 256)
  else if c = opLoad then
    sl (fun n => cselOk s n b) && (cselEngs b).length == 1 && pkF b 1 22 21 != 3 && decide (1 ≤ pkF b 2 11 0) &&
      (if pkF b 1 22 21 = 2 then decide (pkF b 2 11 0 ≤ 32) else decide (pkF b 2 11 0 ≤ 2048))
  else if c = opStart ∨ c = opStop then sl fun n => cselOk s n b
  else if c = opClutch then sl fun n => clutchOk s n b
  else if c = opMoult then (List.range 16).all fun j => decide (pkF b 0 (4 * j + 3) (4 * j) < 6)
  else if c = opRetire then decide (pkF b 0 4 0 < 20 ∧ pkF b 1 19 0 < 0xC0000)
  else if c = opKey then pkF b 1 15 0 == 1568
  else if c = opQuote then decide (16384 ≤ pkF b 2 31 0)
  else if c = opQuota then pkF b 0 1 0 != 3 && (pkF b 0 1 0 != 0 || decide (pkF b 1 31 0 < 256))
  else if c = opUpdate then pkF b 1 31 0 % 65536 == 0 && decide (65536 ≤ pkF b 1 31 0 ∧ pkF b 1 31 0 ≤ 268435456)
  else if c = opLog then decide (1 ≤ pkF b 1 47 32 ∧ pkF b 1 47 32 ≤ 4096)
  else if c = opCap then pkF b 0 15 0 == 0 || decide (800 ≤ pkF b 0 15 0 ∧ pkF b 0 15 0 ≤ 2200)
  else true

/-- Bits outside the masks of an opcode's parameters are 0 (R386). -/
def maskOk (o : OpInfo) (b : List Byte) : Bool := (List.range 7).all fun i => pkP b i &&& (m64 - nthD o.masks i 0) == 0

/-- Packets that the PF may not issue for a KEYED slice (R410). -/
def keyedRefused (c : Nat) : Bool := c == opLoad || c == opStart || c == opClutch || c == opMoult || c == opKey || c == opQuote

/-- Check 2: SLICE (R387, R392). -/
def chkSlice (s : State) (f : FuncId) (o : OpInfo) (b : List Byte) : Bool :=
  let named := match pkSl b with | some n => sliceDefined s n && (funcSlice f == none || funcSlice f == some n) | none => false
  match o.scope with
  | .device => pkSlice b == 0xFF
  | .slice => named
  | .both => pkSlice b == 0xFF || named

/-- Check 3: the issuing function (R387, R392, R410). -/
def chkIssuer (s : State) (f : FuncId) (o : OpInfo) (b : List Byte) : Bool :=
  (o.issuer != .pf || f.val == 0) && !(o.code == opLog && pkSlice b == 0xFF && f.val != 0) &&
    !(f.val == 0 && keyedRefused o.code && (match pkSl b with | some n => keyState s n == 2 | none => false))

/-- Check 4: no reserved value, and the opcode's rules (R387). -/
def chkParams (s : State) (o : OpInfo) (b : List Byte) : Bool :=
  decide (pkFlags b < 8) && pkSeq b != 0xFFFFFFFF && maskOk o b && opRules s b

/-- State of a slice (R403). -/
def sliceState (s : State) (n : N20) : Nat := rfld s (.sliceState n) 63 60
def setSliceState (s : State) (n : N20) (x : Nat) : State := rsetf s (.sliceState n) 63 60 x

/-- Check 5: the states that an opcode accepts (R387, R393). -/
def chkState (s : State) (b : List Byte) : Bool :=
  match pkSl b with
  | none => true
  | some n =>
    let c := pkOp b
    if c = opOpen then sliceState s n == 0
    else if c = opScrub ∨ c = opLoad ∨ c = opStart ∨ c = opStop ∨ c = opClutch ∨ c = opMoult ∨ c = opKey ∨ c = opQuote then sliceState s n == 2
    else true

/-- Checks 1 to 4 in order: the status of the first that fails (R387). -/
def firstChecks (s : State) (f : FuncId) (b : List Byte) : Option Status :=
  match opInfo (pkOp b) with
  | none => some .badOpcode
  | some o =>
    if !chkSlice s f o b then some .badSlice
    else if !chkIssuer s f o b then some .notPermitted
    else if !chkParams s o b then some .inconsistent
    else none

/-! Order of packets on a slice (R384, R390). -/

/-- Does a packet act on its slice otherwise than by reading? -/
def actsOn (b : List Byte) (n : N20) : Bool :=
  pkSl b == some n && (match opInfo (pkOp b) with | some o => o.changes || o.code == opQuote | none => false)
/-- Is a packet a change of its slice of class A? -/
def changesA (b : List Byte) : Bool := match opInfo (pkOp b) with | some o => o.changes && o.cls == .a | none => false
/-- Class of a packet. -/
def pkCls (b : List Byte) : OpClass := match opInfo (pkOp b) with | some o => o.cls | none => .t

/-- Does a job end of the slice run (R394)? -/
def jobEnding (s : State) (n : N20) : Bool := tget s.mp.jobE 0 n.val != 0

/-- Does a class-A packet taken before change the slice, or a job end (R390, R394)? -/
def sliceBusy (s : State) (t : Taken) (n : N20) : Bool :=
  jobEnding s n || s.mp.taken.any fun y => decide (y.id < t.id) && pkSl y.bytes == some n && changesA y.bytes
/-- Does a packet taken before and not begun act on the slice? -/
def sliceQueue (s : State) (t : Taken) (n : N20) : Bool := s.mp.taken.any fun y => decide (y.id < t.id) && actsOn y.bytes n && !y.begun

/-- Is a reply the FINAL of a packet of the ring taken before packet t? -/
def finalBefore (t : Taken) (x : Reply) : Bool :=
  x.f == t.f && x.ring == t.ring && (match x.before with | some k => decide (k ≤ t.id) | none => false)

/-- A packet with FENCE waits until the FINAL of every earlier one of its ring is written: one not complete, or complete with its reply
waiting for a free slot (R384). -/
def fenced (s : State) (t : Taken) : Bool :=
  pkFence t.bytes && (s.mp.taken.any (fun y => decide (y.id < t.id) && y.f == t.f && y.ring == t.ring) || s.mp.replies.any (finalBefore t))

/-- From the MP's swap to its HEALTH_OK, class-A packets wait (R445). -/
def mpHold (s : State) : Bool := s.fw.act.phase == 4 && s.fw.act.swapped

/-- What a taken packet may do now. -/
inductive Turn where
  | wait | busy | badState | go
deriving DecidableEq, Repr

/-- The turn of a packet: its fence, its slice's order, check 5 (R384, R387, R390). -/
def turnOf (s : State) (t : Taken) : Turn :=
  let a := pkCls t.bytes == .a
  if fenced s t || (a && mpHold s) then .wait
  else
    match pkSl t.bytes with
    | none => .go
    | some n =>
      if !actsOn t.bytes n then .go
      else if sliceBusy s t n then (if a then .wait else .busy)
      else if sliceQueue s t n then .wait
      else if !chkState s t.bytes then .badState
      else .go

/-- A taken packet replaced. -/
def putTaken (s : State) (t : Taken) : State := { s with mp := { s.mp with taken := s.mp.taken.map fun y => if y.id == t.id then t else y } }
/-- A taken packet by its number. -/
def getTaken (s : State) (id : Nat) : Option Taken := s.mp.taken.find? fun t => t.id == id

/-- The outcome of a packet decided by the event logged last, of a ring of the log: its FINAL reply waits for the event's sequence number
(R388). -/
def finishBy (s : State) (t : Taken) (st : Status) (form done total ring : Nat) : State :=
  putTaken s { t with owed := some ⟨st, form, done, total, ring, s.log.nextEv - 1⟩ }

/-- The work of the packet with a number and an opcode begins when its turn has come (R384, R387, R390). -/
def runPacket (s : State) (id op : Nat) (act : State → Taken → State) : State :=
  match getTaken s id with
  | none => s
  | some t =>
    if pkOp t.bytes ≠ op ∨ t.begun ∨ !hubReady s then s
    else
      match turnOf s t with
      | .wait => s
      | .busy => finish s t .sliceBusy 0 0
      | .badState => finish s t .sliceState 0 0
      | .go => act (putTaken s { t with begun := true }) { t with begun := true }

/-! Credits and the taking of packets (R384, R397). -/

/-- May the function's rings take packets at all: the PF, and a VF after OPEN_SLICE (R393)? -/
def takesPackets (s : State) (f : FuncId) : Bool := f.val == 0 || (funcExists s f && tget s.mp.vfOn false f.val)

/-- A packet accepted: kept with its number, and for class A an ACCEPTED reply (R385, R390). -/
def accept (s : State) (f : FuncId) (r : Fin 4) (b : List Byte) : State :=
  let t : Taken := ⟨s.mp.nextId, f, r, b, false, 0, 0, false, false, none, none, s.tb.time⟩
  let s1 := { s with mp := { s.mp with taken := s.mp.taken ++ [t], nextId := s.mp.nextId + 1 } }
  if turnOf s1 t = .badState then finish s1 t .sliceState 0 0
  else if pkCls b = .a then post s1 f r (mkReply (stCode .inProgress) 1 (opForm b) (pkSeq b) 0 (opTotal b) 0 (pkSlice b)) none
  else s1

/-- Slot i of a ring's SQ read on behalf of its function (R379, R383). -/
def readSlot (s : State) (f : FuncId) (r : Fin 4) (i : Nat) : State := emit s (.hostRead f (ffld s f (.ringSq r) 63 12 * 4096 + 64 * i) 64)

/-- A buffer that a packet names read on behalf of the packet's function (R379). -/
def readBuf (s : State) (t : Taken) (a n : Nat) : State := emit s (.hostRead t.f a n)

/-- PACKET_TAKE: the next packet of a ring, when it is takeable; a failed fetch disables the ring (R379, R384, R387). -/
def execPacketTake (f : FuncId) (r : Fin 4) (fetched : Option (List Byte)) (s : State) : Out :=
  .next (if !hubReady s || !ringOn s f r || !takesPackets s f || sqHead s f r == sqTail s f r then s
    else
      match fetched with
      | none => logRing1 (fsetf (readSlot s f r (sqHead s f r)) f (.ringCtl r) 0 0 0) f r (stCode .hostDma) (regOff (.ringCtl r))
      | some b =>
        if pkOp b ≠ opPing ∧ credits s f ≤ creditUse s f then s
        else
          let b := bytesAt b 0 64
          let s := fsetf (readSlot s f r (sqHead s f r)) f (.sqdb r) 47 32 ((sqHead s f r + 1) % ringLen s f r)
          match firstChecks s f b with
          | some st => replyFinal s f r b st
          | none => accept s f r b)

/-- Is a PROGRESS reply with DONE d due: DONE has advanced by 1 % of TOTAL since the last one, or a second has passed without one (R389)? -/
def progressDue (s : State) (t : Taken) (d : Nat) : Bool :=
  (decide (t.told < d) && decide (opTotal t.bytes ≤ 100 * (d - t.told))) || decide (t.toldAt + 1000000000 ≤ s.tb.time)

/-- PROGRESS_REPLY: written when it is due, of a packet that runs and asks for it; dropped when the CQ is full; DONE never decreases (R385,
R389). -/
def execProgressReply (id done : Nat) (s : State) : Out :=
  .next (match getTaken s id with
    | none => s
    | some t =>
      let d := if opForm t.bytes = 1 then done else t.done
      if !t.begun || t.owed.isSome || !pkProgress t.bytes || t.mute || opForm t.bytes == 0 || decide (d < t.told) || decide (opTotal t.bytes < d) ||
          !progressDue s t d then s
      else
        let s := putTaken s { t with done := d }
        if cqRoom s t.f t.ring && !s.mp.replies.any (fun x => x.f == t.f && x.ring == t.ring) then
          post (putTaken s { t with done := d, told := d, toldAt := s.tb.time }) t.f t.ring
            (mkReply (stCode .inProgress) 2 (opForm t.bytes) (pkSeq t.bytes) d (opTotal t.bytes) 0 (pkSlice t.bytes)) none
        else s)

/-! Ring registers (R383, R391, R402). -/

/-- A write to SQDB: TAIL below 2^SIZE, or one event (R383). -/
def writeSqdb (s : State) (f : FuncId) (r : Fin 4) (v : W64) : State :=
  if ringLen s f r ≤ bits v 15 0 then logRing1 s f r (stCode .ringDoorbell) (regOff (.sqdb r)) else fsetf s f (.sqdb r) 15 0 (bits v 15 0)
/-- A write to CQDB: replies that wait are written (R383). -/
def writeCqdb (s : State) (f : FuncId) (r : Fin 4) (v : W64) : State := flushReplies (fsetf s f (.cqdb r) 15 0 (bits v 15 0))

/-- SQ_DOORBELL (R383). -/
def execSqDoorbell (f : FuncId) (r : Fin 4) (v : W64) (s : State) : Out := .next (hostWrite s f (.sqdb r) false fun s => writeSqdb s f r v)
/-- CQ_DOORBELL (R383). -/
def execCqDoorbell (f : FuncId) (r : Fin 4) (v : W64) (s : State) : Out := .next (hostWrite s f (.cqdb r) false fun s => writeCqdb s f r v)

/-- Does a packet taken from the ring remain? -/
def ringTaken (s : State) (f : FuncId) (r : Fin 4) : Bool := s.mp.taken.any fun t => t.f == f && t.ring == r

/-- Pointers to 0 and the phase to 1, while EN is 0 and no taken packet remains: replies that wait find free slots (R385, R391). -/
def resetPointers (s : State) (f : FuncId) (r : Fin 4) : State :=
  if ringTaken s f r then s
  else
    let s := fput (fput s f (.sqdb r) 0) f (.cqdb r) 0
    flushReplies { s with mp := { s.mp with phase := tset s.mp.phase true (ringKey f r) true } }

/-- A write to SIZE: with EN = 1 it is ignored and logged; with EN = 0 it resets the pointers (R391, R402). -/
def writeRingSize (s : State) (f : FuncId) (r : Fin 4) (n : Nat) : State :=
  if ringOn s f r then logRing1 s f r ntGeneral (regOff (.ringCtl r))
  else resetPointers (fsetf s f (.ringCtl r) 12 8 n) f r

/-- The 64 bytes of a packet in host memory that the command does not give: free values (DESIGN CHOICE, log 108). -/
def drawPacket (s : State) : State × List Byte :=
  (List.range 8).foldl (fun x _ => let y := drawFree x.1; (y.1, x.2 ++ leBytes 8 y.2.toNat)) (s, [])

/-- Untaken packets discarded, each with FINAL ST_ABORTED in slot order; the bytes are those in the SQ's slots (R391). -/
def abortSlots (f : FuncId) (r : Fin 4) : Nat → List (List Byte) → State → State
  | 0, _, s => s
  | n + 1, b :: bs, s => abortSlots f r n bs (replyFinal s f r (bytesAt b 0 64) .aborted)
  | n + 1, [], s => abortSlots f r n [] (replyFinal (drawPacket s).1 f r (drawPacket s).2 .aborted)

/-- ABORT of a ring: EN is 0, untaken packets are read and end, an UPDATE_FIRMWARE is to stop (R379, R391). -/
def abortRing (s : State) (f : FuncId) (r : Fin 4) (pkts : List (List Byte)) : State :=
  let n := (sqTail s f r + ringLen s f r - sqHead s f r) % ringLen s f r
  let s := (List.range n).foldl (fun s i => readSlot s f r ((sqHead s f r + i) % ringLen s f r)) s
  let s := fsetf s f (.ringCtl r) 0 0 0
  let s := fsetf s f (.sqdb r) 47 32 (sqTail s f r)
  let s := { s with mp := { s.mp with taken := s.mp.taken.map fun t =>
    if t.f == f && t.ring == r && pkOp t.bytes == opUpdate then { t with cut := true } else t } }
  abortSlots f r n pkts s

/-- A write to MP_RINGr_CTL with the packets that stand untaken in the SQ (R391, R402). Its SIZE counts as a write to SIZE where it differs
from the present one: EN and SIZE share the register, and a write of EN alone is none (DEDUCED, log 68). -/
def writeRingCtl (s : State) (f : FuncId) (r : Fin 4) (v : W64) (pkts : List (List Byte)) : State :=
  let s := if bits v 12 8 = ffld s f (.ringCtl r) 12 8 then s else writeRingSize s f r (bits v 12 8)
  if bit v 1 then abortRing s f r pkts
  else if bit v 0 then
    let n := ffld s f (.ringCtl r) 12 8
    if 4 ≤ n ∧ n ≤ 16 then fsetf s f (.ringCtl r) 0 0 1 else logRing1 s f r (stCode .inconsistent) (regOff (.ringCtl r))
  else fsetf s f (.ringCtl r) 0 0 0

/-- A write to a base register: ignored and logged while EN is 1 (R391, R402). -/
def writeRingBase (s : State) (f : FuncId) (r : Fin 4) (sq : Bool) (v : W64) : State :=
  let k : Reg := if sq then .ringSq r else .ringCq r
  if ringOn s f r then logRing1 s f r ntGeneral (regOff k) else resetPointers (fsetf s f k 63 12 (bits v 63 12)) f r

/-- RING_ENABLE: EN = 1 without ABORT (R402). -/
def execRingEnable (f : FuncId) (r : Fin 4) (v : W64) (s : State) : Out :=
  .next (if bit v 0 && !bit v 1 then hostWrite s f (.ringCtl r) true fun s => writeRingCtl s f r v [] else s)
/-- RING_DRAIN: EN = 0 without ABORT (R391). -/
def execRingDrain (f : FuncId) (r : Fin 4) (v : W64) (s : State) : Out :=
  .next (if !bit v 0 && !bit v 1 then hostWrite s f (.ringCtl r) false fun s => writeRingCtl s f r v [] else s)
/-- RING_ABORT: ABORT = 1, with the untaken packets of the SQ (R391). -/
def execRingAbort (f : FuncId) (r : Fin 4) (v : W64) (pkts : List (List Byte)) (s : State) : Out :=
  .next (if bit v 1 then hostWrite s f (.ringCtl r) (bit v 0) fun s => writeRingCtl s f r v pkts else s)
/-- RING_CONFIG_WRITE: SIZE, also where it repeats the present one, or a base (R391, R402). -/
def execRingConfigWrite (f : FuncId) (r : Fin 4) (reg : RingReg) (v : W64) (s : State) : Out :=
  .next (match reg with
    | .size => hostWrite s f (.ringCtl r) false fun s => writeRingSize s f r (bits v 12 8)
    | .sq => hostWrite s f (.ringSq r) false fun s => writeRingBase s f r true v
    | .cq => hostWrite s f (.ringCq r) false fun s => writeRingBase s f r false v)

/-! Packets that only read (R392, R365). -/

/-- PING: answered at once by the reserved thread, outside every order but its fence (R365, R390). -/
def execPing (id : Nat) (s : State) : Out :=
  .next (runPacket s id opPing fun s t =>
    let m := tget s.mp.ended 0 (readerFunc t.f)
    let s := { s with mp := { s.mp with ended := tset s.mp.ended 0 (readerFunc t.f) 0 } }
    finish s t .ok (tickNow s) (sliceMask (sliceRunning s) + m * 2 ^ 32))

/-- The slice's lowest-numbered stack. -/
def lowStack (s : State) (n : N20) : Option N20 := (sliceSects s n).head?

/-- QUERY_SLICE (R392). -/
def execQuerySlice (id : Nat) (s : State) : Out :=
  .next (runPacket s id opQuery fun s t =>
    match pkSl t.bytes with
    | none => s
    | some n => finish s t .ok (viewReg s t.f (.sliceState n)).toNat (match lowStack s n with | some k => rfld s (.updStep k) 31 0 | none => 0))

end Sys2Proof.Machine
end

