-- ==== Sys2Proof/Machine/Slices.lean ====
section
/-!
DEFINITION. Operations on slices: abort, scrub, open, close, programs, engines, clutches, plans, quotas, page retirement, and the end of a
job (R177, R178, R297, R299, R350, R353, R393 to R396, R414, R415).
-/

namespace Sys2Proof.Machine

/-! Secrets of a slice (R414, R415, R425). -/

def getSec (s : State) (n : N20) : SliceSec := tget s.sp.slices sliceSecReset n.val
def putSec (s : State) (n : N20) (x : SliceSec) : State := { s with sp := { s.sp with slices := tset s.sp.slices sliceSecReset n.val x } }
/-- KEM_READY of a slice. -/
def kemReady (s : State) (n : N20) : Bool := rbit s (.sliceKey n) 59

/-- The key slot of a slice. -/
def slotOfSlice (s : State) (n : N20) : Nat :=
  match all20.find? fun k => rbit s (.keyslot k) 7 && rfld s (.keyslot k) 4 0 == n.val with | some k => k.val | none => 0

/-- The key in a slice's slot: its own, else the random one of the boot (R407, R413). -/
def slotKey (s : State) (n : N20) : List Byte :=
  let k := (getSec s n).key
  if k.isEmpty then tget s.sp.slotKeys [] (slotOfSlice s n) else k

/-- What a DRAM holds of sector u under a key: AES-256-XTS ciphertext with tweak u, the device address / 64 (R413). The stored memory is
that ciphertext as the present key decrypts it. -/
def dramSector (s : State) (key : List Byte) (u : Nat) : List Byte := Config.xtsEncrypt key u (tread s.mem memDefault (64 * u) 64)

/-- Sector u read under another key than the one it was stored under: other plaintext, and no error; a line in the cache is plaintext
(R413). -/
def rekeySector (old new : List Byte) (s : State) (u : Nat) : State :=
  if tget s.cached false u then s
  else { s with mem := twrite s.mem memDefault (64 * u) (bytesAt (Config.xtsDecrypt new u (dramSector s old u)) 0 64) }

/-- The sectors of stack n that hold written bytes. -/
def storedSectors (s : State) (n : N20) : List Nat :=
  ((s.mem.filter fun p => decide (stkBase n ≤ p.1) && decide (p.1 < stkBase n + 0xC00000000)).map fun p => p.1 / 64).eraseReps

/-- The stacks of a slice under a new key (R407, R413; sectors that nothing has written: log 109). -/
def rekey (s : State) (n : N20) (new : List Byte) : State :=
  (sliceSects s n).foldl (fun s k => (storedSectors s k).foldl (rekeySector (slotKey s n) new) s) s

/-- A key installed in the slice's slot, counted in KEYGEN (R414, R432). -/
def installKey (s : State) (n : N20) (k : List Byte) : State :=
  let s := rekey s n k
  let s := putSec s n { getSec s n with key := k }
  let s := { s with sp := { s.sp with slotKeys := tset s.sp.slotKeys [] (slotOfSlice s n) [] } }
  rsetf s (.sliceKey n) 31 0 ((rfld s (.sliceKey n) 31 0 + 1) % 2 ^ 32)

/-- A fresh key from the SP's generator (R414). -/
def drawKey (s : State) : State × List Byte :=
  ({ s with sp := { s.sp with keyDraws := s.sp.keyDraws + 1 } }, Config.drbgKey s.sp.keyDraws)

/-- A fresh ML-KEM key pair for the slice: KEM_READY is set (R415). -/
def drawKem (s : State) (n : N20) : State :=
  let s := putSec s n { getSec s n with kem := some (Config.kemKeyGen s.sp.kemDraws) }
  rsetf { s with sp := { s.sp with kemDraws := s.sp.kemDraws + 1 } } (.sliceKey n) 59 59 1

/-- The slice's key pair destroyed (R415, R416). -/
def dropKem (s : State) (n : N20) : State := rsetf (putSec s n { getSec s n with kem := none }) (.sliceKey n) 59 59 0

/-! Abort of a slice (R178, R271, R327, R368, R394 steps 2 and 3). -/

/-- The streams of a core reset at the end of its slice's abort: no record, completion FILL or wait remains (R271). -/
def resetStreams (s : State) (c : CoreId) : State :=
  let k := getCore s c
  let s := { s with feOps := s.feOps.filter fun x => match x.src with | .stream d _ => d != c | _ => true }
  settleCore (putCore s c { k with crecs := [], sfree := [], sabort := [] }) c

/-- Every engine and stream of a core aborts: a stop, class none (R178, R452). -/
def abortCore (s : State) (c : CoreId) : State :=
  let s := allEng.foldl (fun s e => beginAbort s c e .aborted clsNone none) s
  resetStreams (writeSctl s c (BitVec.ofNat 64 (0xFFFFFFFF * 2 ^ 32))) c

/-- The slice abort reaches the BUU of section k, whatever its state (R327). -/
def abortBuuOf (s : State) (k : N20) : State := abortBuu s k

/-- The clutch is no longer valid. -/
def clearClutch (s : State) (n : N20) : State := rsetf s (.clCfg n) 31 31 0

/-- The exchange unit's operations of a slice withdrawn (R368). -/
def dropExchOps (s : State) (n : N20) : State :=
  { s with feOps := s.feOps.filter fun x => match x.src with | .exch k => k / 256 != n.val | _ => true }

/-- Step 2 of R394. -/
def abortSlice (s : State) (n : N20) : State :=
  let s := (sliceCores s n).foldl abortCore s
  let s := (sliceSects s n).foldl abortBuuOf s
  clearClutch (dropExchOps (dropExch s n) n) n

/-- The rings of a slice's VF stop taking packets (R394 step 3). -/
def stopVfRings (s : State) (n : N20) : State :=
  (List.finRange 4).foldl (fun s r => fsetf s (sliceFunc n) (.ringCtl r) 0 0 0) s

/-- Every taken packet that acts on the slice, but one, receives FINAL ST_JOB_LOST with E (R394 step 3). -/
def endTaken (s : State) (n : N20) (e : Nat) (but : Option Nat) : State :=
  let ts := s.mp.taken.filter fun t => actsOn t.bytes n && some t.id != but
  let s := { s with sp := { s.sp with batch := s.sp.batch.filter fun q => !ts.any fun t => t.id == q.id } }
  ts.foldl (fun s t => finishAs s t .jobLost 0 0 0 e) s

/-! Scrub (R299). -/

/-- Is a stack byte of section n at offset o kept by a scrub: in a retired page? -/
def keptByte (s : State) (n : N20) (a : Nat) : Bool := pageRetired s n ((a - stkBase n) / 0x10000)

/-- A table with the keys of a stack removed but those in retired pages; each key stands for w bytes. -/
def clearStack {α : Type} (s : State) (n : N20) (w : Nat) (t : Tab α) : Tab α :=
  t.filter fun p => !(decide (stkBase n ≤ w * p.1) && decide (w * p.1 < stkBase n + 0xC00000000)) || keptByte s n (w * p.1)

/-- The stack of a section written with zeros and clear tags, its cache lines and sync lines invalid (R299). -/
def scrubStack (s : State) (n : N20) : State :=
  { s with mem := clearStack s n 1 s.mem, poison := clearStack s n 64 s.poison,
           ecc := tclear (tclear (clearStack s n 8 s.ecc) (syncErr (stkBase n / 64) 0) (0xC00000000 / 8)) (lineErr (stkBase n / 64) 0)
             (0xC00000000 / 8),
           cached := tclear s.cached (stkBase n / 64) (0xC00000000 / 64), dirty := tclear s.dirty (stkBase n / 64) (0xC00000000 / 64),
           syncw := tclear s.syncw (stkBase n / 8) (0xC00000000 / 8), syncp := tclear s.syncp (stkBase n / 64) (0xC00000000 / 64) }

/-- A core's scratchpad written with zeros, tags clear, F/E bits empty (R299). -/
def scrubPad (s : State) (c : CoreId) : State :=
  let a := padBase c
  { s with mem := tclear s.mem a 0x400000, poison := tclear s.poison (a / 64) 0x10000, feb := tclear s.feb (a / 64) 0x10000,
           ecc := tclear s.ecc (a / 8) 0x80000 }

/-- A scrub of a slice: the program measurement is 32 zero bytes after it (R299, R425). -/
def scrubSlice (s : State) (n : N20) : State :=
  let s := (sliceSects s n).foldl scrubStack s
  let s := (sliceCores s n).foldl scrubPad s
  putSec s n { getSec s n with pm := List.replicate 32 0 }

/-- A slice is reset at a job end: its cores as at reset, no operation of theirs in flight; registers stay (R394 step 4, log 30). -/
def resetSlice (s : State) (n : N20) : State :=
  let cs := sliceCores s n
  let s := { s with feOps := s.feOps.filter fun x =>
    (match x.src with | .eng c _ | .stream c _ => !cs.contains c | _ => true) && addrSlice s x.addr != some n }
  cs.foldl (fun s c => putCore s c coreReset) s

/-- A scrub in progress. -/
def beginScrub (s : State) (n : N20) (w : ScrubWhy) : State := { s with mp := { s.mp with scrub := tset s.mp.scrub none n.val (some w) } }
def endScrub (s : State) (n : N20) : State := { s with mp := { s.mp with scrub := tset s.mp.scrub none n.val none } }

/-- Has a core an access in flight: an instruction that has not retired, a store that has not landed, a task, a record that is due? -/
def coreAccess (k : Core) : Bool :=
  !k.insts.isEmpty || !k.stores.isEmpty || !k.crecs.isEmpty || k.tasks.any fun x => x.2.isSome

/-- Has a slice an access in flight: of its cores and BUUs, one that is held, a packet next to land, an operation on its way to a word of the
slice (R415; DEDUCED, log 123)? -/
def accessIn (s : State) (n : N20) : Bool :=
  (sliceCores s n).any (fun c => coreAccess (getCore s c)) ||
    (sliceSects s n).any (fun x => (tget s.buu buuReset x.val).mode != .halted) ||
  s.held.any (fun q => addrSlice s (match q with | .fill _ a _ => a | q => (heldRange q).1) == some n) ||
    (getFab s n).rx.any (fun x => x.2.held.any fun y => y.1 == x.2.mark + 1) ||
    s.feOps.any fun x => !x.waiting && x.got.isNone && addrSlice s x.addr == some n

/-- Does a packet act on a slice that has an access in flight? -/
def packetMeets (s : State) (id : Nat) : Bool :=
  match getTaken s id with
  | some t => (match pkSl t.bytes with | some n => accessIn s n | none => false)
  | none => false

/-! Open, close, scrub (R393, R415). -/

/-- OPEN_SLICE begins: a DEVICE key, then the scrub (R393, R414, R415). -/
def beginOpen (s : State) (t : Taken) (n : N20) : State :=
  let k := drawKey s
  let s := rsetf (installKey k.1 n k.2) (.sliceKey n) 63 60 1
  beginScrub (setSliceState s n 1) n (.key t.id)

/-- OPEN_SLICE completes: key pair, share, credits, quota, the VF enabled, the slice OPEN (R393, R415, R428). -/
def endOpen (s : State) (t : Taken) (n : N20) : State :=
  let s := drawKem s n
  let s := rsetf s (.share n) 7 0 (pkF t.bytes 0 7 0)
  let f := sliceFunc n
  let s := { s with mp := { s.mp with credits := tset s.mp.credits 0 f.val (pkF t.bytes 0 47 32), vfOn := tset s.mp.vfOn false f.val true } }
  let s := putSec s n { getSec s n with quota := 1024 }
  let s := setOver (setOver s n 1 (decide (1024 < (getSec s n).used))) n 2 (decide (credits s f < creditUse s f))
  let s := setOver s n 0 (decide (rfld s (.share n) 7 0 < shareUse (getFab s n)))
  finishForm (setSliceState s n 2) t .ok 0

/-- CLOSE_SLICE begins: the slice aborts, its packets end, its clutch is cleared (R393). -/
def beginClose (s : State) (t : Taken) (n : N20) : State :=
  let s := setSliceState s n 5
  let s := endTaken (stopVfRings (abortSlice s n) n) n 0 (some t.id)
  beginScrub s n (.packet t.id)

/-- A slice's ring of the log cleared (R459). -/
def clearLog (s : State) (n : N20) : State :=
  { s with log := { s.log with rings := tset s.log.rings [] n.val [], loss := tset s.log.loss false n.val false } }

/-- CLOSE_SLICE completes: key and key pair gone, ring cleared, the VF takes no packets, the slice CLOSED (R393, R414, R415, R459). -/
def endClose (s : State) (t : Taken) (n : N20) : State :=
  let s := dropKem (putSec s n { getSec s n with key := [] }) n
  let s := clearLog (rsetf s (.sliceKey n) 63 60 0) n
  let f := sliceFunc n
  let s := { s with mp := { s.mp with credits := tset s.mp.credits 0 f.val 0, vfOn := tset s.mp.vfOn false f.val false } }
  let s := { s with log := { s.log with fatals := s.log.fatals.filter fun x => x.1 != n.val } }
  finishForm (setSliceState s n 0) t .ok 0

/-- SCRUB_SLICE begins: with FORCE after an abort, without it only when nothing runs (R393). -/
def beginScrubSlice (s : State) (t : Taken) (n : N20) : State :=
  if pkF t.bytes 0 0 0 = 1 then
    beginScrub (setSliceState (endTaken (stopVfRings (abortSlice s n) n) n 0 (some t.id)) n 4) n (.packet t.id)
  else if sliceRunning s n then finish s t .sliceBusy 0 0
  else beginScrub (setSliceState s n 4) n (.packet t.id)

/-- A packet on its slice. -/
def runOnSlice (s : State) (id op : Nat) (act : State → Taken → N20 → State) : State :=
  runPacket s id op fun s t => match pkSl t.bytes with | some n => act s t n | none => s

/-- OPEN_SLICE: the key is changed only while the slice has no access in flight (R393, R415). -/
def execOpenSlice (id : Nat) (s : State) : Out := .next (if packetMeets s id then s else runOnSlice s id opOpen beginOpen)
/-- CLOSE_SLICE (R393). -/
def execCloseSlice (id : Nat) (s : State) : Out := .next (runOnSlice s id opClose beginClose)
/-- SCRUB_SLICE (R393). -/
def execScrubSlice (id : Nat) (s : State) : Out := .next (runOnSlice s id opScrub beginScrubSlice)

/-- What a packet's scrub leads to. -/
def afterScrub (s : State) (t : Taken) (n : N20) : State :=
  let c := pkOp t.bytes
  if c = opOpen then endOpen s t n
  else if c = opClose then endClose s t n
  else if c = opKey then finish (setSliceState (rsetf s (.sliceKey n) 63 60 2) n 2) t .ok 0 0
  else finishForm (setSliceState s n 2) t .ok 0

/-- The scrub of a slice for a packet is done: the accesses that waited for it are taken, and the packet ends. -/
def packetScrubbed (s : State) (n : N20) (id : Nat) : State :=
  let s := serveHeld (endScrub (scrubSlice s n) n)
  match getTaken s id with | some t => afterScrub s t n | none => s

/-- Is a slice being closed? Its key goes with the scrub's end, once no access is in flight (R415). -/
def closing (s : State) (n : N20) : Bool := sliceState s n == 5

/-- The scrub at a job's end is done: the slice is reset and scrubbed, and what waited for it goes (R394 step 4). -/
def jobScrubbed (s : State) (n : N20) : State := serveHeld (endScrub (scrubSlice (resetSlice s n) n) n)

/-- SLICE_SCRUB_COMPLETE: once nothing of the slice runs and none of its stacks is in RECAL, which holds the scrub's writes behind the others,
its memory is scrubbed, and the packet ends; at a job end the slice is reset too (R299, R393, R394 step 4, R415, R416, R466). -/
def execSliceScrubComplete (n : N20) (s : State) : Out :=
  .next (if (sliceSects s n).any (inRecal s) then s
    else match tget s.mp.scrub none n.val with
    | none => s
    | some (.key id) => packetScrubbed s n id
    | some (.packet id) => if sliceRunning s n || (closing s n && accessIn s n) then s else packetScrubbed s n id
    | some .job | some .keyJob => if sliceRunning s n then s else jobScrubbed s n)

/-! Programs and engines (R155, R160, R177, R393, R425). -/

/-- Words of a LOAD_PROGRAM: one for each instruction, eight for each loop-descriptor entry. -/
def loadCount (b : List Byte) : Nat := if pkF b 1 22 21 = 2 then 8 * pkF b 2 11 0 else pkF b 2 11 0

/-- An image written at a core's engine from an index, or the status of the refusal, checked once (R155, R160). -/
def loadCore (s : State) (c : CoreId) (e : EngId) (tg i : Nat) (ws : List W128) : State × Option Status :=
  let g := getEng s c e
  if tg = 2 then
    if g.mode ≠ .halted then (imRefuse s c e .engineBusy, some .engineBusy)
    else ((List.zip (List.range ws.length) ws).foldl (fun s w => (putImWord s c e tg ((i + w.1) % 256) w.2).1) s, none)
  else if bankOpen g (tg == 1) then
    ((List.zip (List.range ws.length) ws).foldl (fun s w => (putImWord s c e tg ((i + w.1) % 2048) w.2).1) s, none)
  else (imRefuse s c e .bankBusy, some .bankBusy)

/-- Work done core by core until the first refusal: the state, the cores completed, the refusal (R393). -/
def coreByCore (f : State → CoreId → State × Option Status) : List CoreId → Nat → State → State × Nat × Option Status
  | [], n, s => (s, n, none)
  | c :: r, n, s =>
    let x := f s c
    match x.2 with | none => coreByCore f r (n + 1) x.1 | some y => (x.1, n, some y)

/-- The measurement after a LOAD_PROGRAM: H is P1 in 8 bytes, P2 [11:0] in 4 and the count in 4, each little-endian (R425; DESIGN CHOICE,
log 114). -/
def extendPm (pm : List Byte) (b : List Byte) (cores : Nat) (image : List Byte) : List Byte :=
  let h := leBytes 8 (pkP b 1) ++ leBytes 4 (pkF b 2 11 0) ++ leBytes 4 cores
  Config.sha256 (pm ++ Config.sha256 (h ++ image))

/-- Sequence number of an event's record: its own, or that of the record it was merged into; none while it is in flight. -/
def seqOf (s : State) (n id cause : Nat) : Option Nat :=
  if s.log.inFlight.any fun e => e.id == id then none
  else
    match ((logRing s n).filter fun r => r.ev.cause == cause && decide (r.ev.id ≤ id)).getLast? with
    | some r => some r.seq
    | none => some (s.log.nextSeq - 1)

/-- The measurement of a LOAD_PROGRAM on its FINAL reply, unless no core took it (R425). -/
def measure (s : State) (t : Taken) : State :=
  match t.load, pkSl t.bytes with
  | some l, some n =>
    if l.wrote = 0 then s else putSec s n { getSec s n with pm := extendPm (getSec s n).pm t.bytes l.wrote l.image }
  | _, _ => s

/-- A FINAL reply that waited, with the sequence number of its event (R388). -/
def payOwed (s : State) (t : Taken) : State :=
  match t.owed with
  | none => s
  | some o =>
    match seqOf s o.ring o.ev (stCode o.st) with
    | some e => finishAs (measure s t) t o.st o.form o.done o.total e
    | none => s

/-- The FINAL replies whose events have reached their rings. -/
def payAll (s : State) : State := s.mp.taken.foldl payOwed s

/-- The next core of a LOAD_PROGRAM written: its bytes count as done; a refusal or the last core completes the packet (R389, R392, R393). -/
def loadNext (s : State) (t : Taken) (n : N20) (l : Loading) : State :=
  match l.cores, cselEngs t.bytes with
  | c :: cs, e :: _ =>
    let k := loadCount t.bytes
    let x := loadCore s c e (pkF t.bytes 1 22 21) (pkF t.bytes 1 42 32) (imageWords l.image k)
    (match x.2 with
     | some st => finishBy x.1 t st 0 l.wrote 0 n.val
     | none =>
       let t := { t with load := some { l with cores := cs, wrote := l.wrote + 1 }, done := 16 * k * (l.wrote + 1) }
       if cs.isEmpty then finish (measure x.1 t) t .ok (l.wrote + 1) 0 else putTaken x.1 t)
  | _, _ => finish s t .inconsistent 0 0

/-- The work of a LOAD_PROGRAM begins with its image fetched and its first core written. -/
def loadFirst (fetched : Option (List Byte)) (s : State) (t : Taken) (n : N20) : State :=
  let s := readBuf s t (pkP t.bytes 0) (16 * loadCount t.bytes)
  match fetched with
  | none => finish s t .hostDma 0 0
  | some b =>
    let l : Loading := ⟨bytesAt b 0 (16 * loadCount t.bytes), cselCores s n t.bytes, 0⟩
    loadNext s { t with load := some l } n l

/-- LOAD_PROGRAM: the first command of a packet fetches the image and writes the first core, each further one the next core
(R393, R425; DESIGN CHOICE, log 110). -/
def execLoadProgram (id : Nat) (fetched : Option (List Byte)) (s : State) : Out :=
  .next (match getTaken s id with
    | none => s
    | some t =>
      match t.load, pkSl t.bytes with
      | some l, some n => if t.owed.isSome then s else loadNext s t n l
      | _, _ => runOnSlice s id opLoad (loadFirst fetched))

/-- Does an engine refuse a start: a change of bank or PC while not HALTED, or EN while ABORTING (R177)? -/
def startRefused (s : State) (c : CoreId) (b : List Byte) (e : EngId) : Bool :=
  let g := getEng s c e
  let setsPc := pkF b 0 11 11 == 1
  let setsBank := pkF b 0 13 13 == 1 && (pkF b 0 12 12 == 1) != g.bank
  ((setsPc || setsBank) && g.mode != .halted) || g.mode == .aborting

/-- The named engines of a core start in one a-cycle, or the core is refused (R177, R393). -/
def startCore (b : List Byte) (s : State) (c : CoreId) : State × Option Status :=
  let es := cselEngs b
  match es.find? (startRefused s c b) with
  | some e => (logCtl s c e (stCode .engineBusy) .ctl, some .engineBusy)
  | none =>
    let s := es.foldl (fun s e =>
      let s := if pkF b 0 13 13 = 1 then writeBank s c e (BitVec.ofNat 64 (pkF b 0 12 12 * 16)) else s
      if pkF b 0 11 11 = 1 then writePc s c e (BitVec.ofNat 64 (pkF b 0 10 0)) else s) s
    (es.foldl (fun s e => writeEn s c e) s, none)

/-- START_ENGINES (R393). -/
def execStartEngines (id : Nat) (s : State) : Out :=
  .next (runOnSlice s id opStart fun s t n =>
    let x := coreByCore (startCore t.bytes) (cselCores s n t.bytes) 0 s
    match x.2.2 with
    | none => finish x.1 t .ok x.2.1 0
    | some st => finishBy x.1 t st 0 x.2.1 0 n.val)

/-- An engine stopped: drained, or aborted as a stop of the host (R174, R175). -/
def stopEngine (s : State) (c : CoreId) (e : EngId) (abort : Bool) : State :=
  let m := (getEng s c e).mode
  if abort then (if m = .aborting then s else abortEngine s c e .aborted clsNone none)
  else if m = .running then drainEngine s c e
  else s

/-- The FINAL reply of STOP_ENGINES, once every named engine is HALTED (R393). -/
def endStop (s : State) (t : Taken) (n : N20) : State :=
  let cs := cselCores s n t.bytes
  if cs.all (fun c => (cselEngs t.bytes).all fun e => (getEng s c e).mode == .halted) then finish s t .ok cs.length 0 else s

/-- STOP_ENGINES: the stop, and the reply at a time when all are HALTED (R393). -/
def execStopEngines (id : Nat) (s : State) : Out :=
  let s := runOnSlice s id opStop fun s t n =>
    (cselCores s n t.bytes).foldl (fun s c => (cselEngs t.bytes).foldl (fun s e => stopEngine s c e (pkF t.bytes 0 0 0 == 1)) s) s
  .next (match getTaken s id with
    | some t => if t.begun ∧ pkOp t.bytes = opStop then (match pkSl t.bytes with | some n => endStop s t n | none => s) else s
    | none => s)

/-! Clutches and plans (R350, R353, R367). -/

/-- The clutch's registers written with a new generation; the counts of the old one are gone (R350, R371, R372, R377). -/
def putClutch (s : State) (n : N20) (b : List Byte) : State :=
  let g := (clGen s n + 1) % 2 ^ 32
  let v := g * 2 ^ 32 + 2 ^ 31 + pkF b 0 8 6 * 2 ^ 24 + pkF b 0 11 9 * 2 ^ 21 + pkF b 0 5 3 * 2 ^ 18 + pkF b 0 2 0 * 2 ^ 15 + pkF b 0 19 12
  let s := rput s (.clCfg n) (BitVec.ofNat 64 v)
  let s := (List.finRange 8).foldl (fun s i => rput s (.clMem n i) (BitVec.ofNat 64 (ckMem b i.val))) s
  let t := getFab (dropExch s n) n
  let ticks := (List.range (pkF b 0 2 0 + 1)).foldl (fun m i => tset m 0 i (tickNow s)) ([] : Tab Nat)
  rput (putFab s n { fabSliceReset with bytes := t.bytes, weight := t.weight, spent := t.spent, lastOut := ticks, lastIn := ticks }) (.clStat n) 0

/-- A change of the generation, or the clutch cleared, while a job runs on it: slice fatal (R367, R453; DEDUCED, log 31). -/
def clutchLost (s : State) (n : N20) (was : Bool) : State :=
  if was then logEv s ntGeneral clsSlice n.val 5 0xFF 0 (mkDetail 0 (regOff (.clCfg n))) else s

/-- SET_CLUTCH (R350, R393, R408). -/
def setClutch (s : State) (t : Taken) (n : N20) : State :=
  let b := t.bytes
  let was := clutchOn s n && sliceRunning s n
  if pkF b 0 20 20 = 1 then
    let s := rsetf (rsetf s (.clCfg n) 31 31 0) (.clCfg n) 63 32 ((clGen s n + 1) % 2 ^ 32)
    let s := clutchLost (rput (dropExchOps (dropExch s n) n) (.clStat n) 0) n was
    finish s t .ok (clGen s n) 0
  else
    let w := rget s (.fabfw n)
    if !(List.range (pkF b 0 2 0 + 1)).all fun i => decide (bits w 63 48 ≤ ckDev b i) && decide (ckDev b i ≤ bits w 47 32) then
      finish s t .protection 0 0
    else
      let s := clutchLost (putClutch (dropExchOps s n) n b) n was
      finish s t .ok (clGen s n) 0

/-- SET_CLUTCH. -/
def execSetClutch (id : Nat) (s : State) : Out := .next (runOnSlice s id opClutch setClutch)

/-- The PLAN of SCHEDULE_MOULT to every member, the master included (R353). -/
def sendPlan (s : State) (n : N20) (b : List Byte) : State :=
  let body := leBytes 8 (pkP b 0) ++ leBytes 8 (pkP b 1) ++ leBytes 8 (pkP b 2)
  let s := (clPeers s n).foldl (fun s i => sendTo s n i (mkPacket s n 4 0 (memSlice s n i) 0 0 0 0 0 0 0 0 body)) s
  takePlan s n (planOf body)

/-- SCHEDULE_MOULT: from the master of a valid clutch, EFFECTIVE at an epoch boundary (R353, R393). -/
def execScheduleMoult (id : Nat) (s : State) : Out :=
  .next (runOnSlice s id opMoult fun s t n =>
    if !clutchOn s n || clSelf s n != clMaster s n then finish s t .notMaster 0 0
    else if pkP t.bytes 1 % 2 ^ rfld s .chorus 12 8 ≠ 0 then finish s t .inconsistent 0 0
    else finish (sendPlan s n t.bytes) t .ok 0 0)

/-! Quotas (R396, R462, R463). -/

/-- Use of a quota kind. -/
def quotaUse (s : State) (n : N20) (k : Nat) : Nat :=
  if k = 0 then shareUse (getFab s n) else if k = 1 then (getSec s n).used else creditUse s (sliceFunc n)

/-- A quota set. -/
def putQuota (s : State) (n : N20) (k q : Nat) : State :=
  if k = 0 then rsetf s (.share n) 7 0 q
  else if k = 1 then putSec s n { getSec s n with quota := q }
  else { s with mp := { s.mp with credits := tset s.mp.credits 0 (sliceFunc n).val q } }

/-- SET_QUOTA: in force whatever the use; ST_OVER_QUOTA and the mark when use exceeds it (R396). -/
def execSetQuota (id : Nat) (s : State) : Out :=
  .next (runOnSlice s id opQuota fun s t n =>
    let k := pkF t.bytes 0 1 0
    let q := pkF t.bytes 1 31 0
    let u := quotaUse s n k
    let s := setOver (putQuota s n k q) n k (decide (q < u))
    finish s t (if q < u then .overQuota else .ok) u 0)

/-! Page retirement (R297, R306). -/

/-- RETIRE_PAGE. -/
def execRetirePage (id : Nat) (s : State) : Out :=
  .next (runPacket s id opRetire fun s t =>
    match fin? 20 (pkF t.bytes 0 4 0) with
    | none => s
    | some n =>
      let p := pkF t.bytes 1 19 0
      let k := rfld s (.retireStat n) 41 32
      if pageRetired s n p then finish s t .ok k 0
      else
        match fin? 512 k with
        | none => finish s t .retireListFull k 0
        | some i =>
          let m := s.fw.mram
          let s := { s with fw := { s.fw with mram := { m with retire := tset m.retire [] n.val (tget m.retire [] n.val ++ [p]) } } }
          let s := rput s (.retireList n i) (BitVec.ofNat 64 (2 ^ 63 + p))
          finish (rsetf s (.retireStat n) 41 32 (k + 1)) t .ok (k + 1) 0)

/-! The end of a job (R394). -/

/-- Readers of the ended-job masks (R365). -/
def allReaders : List Nat := List.range 29

/-- A job end sets its slice's bit in every reader's mask (R365). -/
def markEnded (s : State) (n : N20) : State :=
  { s with mp := { s.mp with ended := allReaders.foldl (fun t r => tset t 0 r (tget t 0 r ||| 2 ^ n.val)) s.mp.ended } }

/-- The slice-fatal causes of a slice that wait are gone. -/
def clearFatals (s : State) (n : N20) : State := { s with log := { s.log with fatals := s.log.fatals.filter fun x => x.1 != n.val } }

/-- JOB_END: steps 1 to 3 of R394, for a slice-fatal cause whose record has come; a slice that is not OPEN or being scrubbed has no job. Where a
new key's scrub is under way, the slice takes no access before this one's end (R415). -/
def execJobEnd (n : N20) (cause : Nat) (s : State) : Out :=
  .next (match s.log.fatals.find? fun x => x.1 == n.val && x.2.1 == cause with
    | none => s
    | some x =>
      match seqOf s n.val x.2.2 cause with
      | none => s
      | some e =>
        if jobEnding s n then s
        else if sliceState s n ≠ 2 ∧ sliceState s n ≠ 4 then clearFatals s n
        else
          let s := setSliceState (clearFatals s n) n 3
          let s := { s with mp := { s.mp with jobE := tset s.mp.jobE 0 n.val (max 1 e) } }
          let s := endTaken (stopVfRings (abortSlice s n) n) n e none
          beginScrub (markEnded s n) n (if rekeying s n then .keyJob else .job))

/-- JOB_END_COMPLETE: step 5 of R394. -/
def execJobEndComplete (n : N20) (s : State) : Out :=
  let e := tget s.mp.jobE 0 n.val
  .next (if e = 0 ∨ (tget s.mp.scrub none n.val).isSome then s
    else
      let s := { s with mp := { s.mp with jobE := tset s.mp.jobE 0 n.val 0 } }
      let s := rbump (rsetf (clearFatals s n) (.sliceState n) 31 0 e) (.sliceState n) 47 32 1
      let s := postEvent (postEvent s 0 .jobLost 0 0 e n.val) (sliceFunc n) .jobLost 0 0 e n.val
      setSliceState s n 2)

/-! Budget and power cap (R392, R482). -/

/-- Session-tree signatures remaining. -/
def sessRemain (s : State) : Nat := if s.sp.tree && s.sp.sessSig.isSome then 32768 - s.sp.sessUsed else 0

/-- QUERY_BUDGET (R392). -/
def execQueryBudget (id : Nat) (s : State) : Out :=
  .next (runPacket s id opBudget fun s t =>
    let u := match pkSl t.bytes with | some n => (getSec s n).used | none => 0
    finish s t .ok (idRemain s + idPercent s * 2 ^ 32) (sessRemain s + u * 2 ^ 32))

/-- SET_POWER_CAP: from the next interval (R482). -/
def execSetPowerCap (id : Nat) (s : State) : Out :=
  .next (runPacket s id opCap fun s t => finish { s with mp := { s.mp with nextCap := some (pkF t.bytes 0 15 0) } } t .ok 0 0)

end Sys2Proof.Machine
end

