-- ==== Sys2Proof/Machine/LogOps.lean ====
section
/-!
DEFINITION. The event log: placing, merging, loss, reading (R456 to R461, R471); telemetry samples (R464, R469).
-/

namespace Sys2Proof.Machine

/-! Placing a record (R459). -/

/-- The ring of an event: its slice's, or the device's. -/
def evRing (e : Ev) : Nat := if e.slice < 20 then e.slice else 20

/-- The register of a ring. -/
def logReg (n : Nat) : Reg := match fin? 21 n with | some i => .logStat i | none => .logStat 20

/-- A ring's records replaced. -/
def putRing (s : State) (n : Nat) (q : List LogRec) : State := { s with log := { s.log with rings := tset s.log.rings [] n q } }

/-- Is a record never merged: slice fatal, device fatal, NT_LOG_LOST (R459)? -/
def neverMerged (e : Ev) : Bool := e.cls == clsSlice || e.cls == clsDevice || e.cause == ntLogLost

/-- May an event be merged into a record: the same unit, instance, sub and cause (R459)? -/
def sameSource (e : Ev) (r : LogRec) : Bool :=
  e.unit == r.ev.unit && e.inst == r.ev.inst && e.sub == r.ev.sub && e.cause == r.ev.cause && !neverMerged e && !neverMerged r.ev

/-- A record appended with the next SEQ to a ring that has room. -/
def appendRec (s : State) (n : Nat) (e : Ev) (rep : Nat) (arch : Bool) : State :=
  let q := logRing s n ++ [⟨s.log.nextSeq, e, rep, arch, false⟩]
  let s := putRing s n q
  { s with log := { s.log with nextSeq := s.log.nextSeq + 1 } }

/-- The oldest record of a full ring makes room; unread, it counts in LOST (R459, R471). -/
def makeRoom (s : State) (n : Nat) : State :=
  match logRing s n with
  | [] => s
  | r :: q =>
    if q.length + 1 < 4096 then s
    else
      let s := putRing s n q
      if r.read then s else rbump s (logReg n) 63 48 1

/-- The NT_LOG_LOST record of a ring, naming the first SEQ lost (R459). -/
def lossEv (s : State) (n lost : Nat) : Ev :=
  ⟨0, 0, ntLogLost, clsNone, (if n < 20 then n else 0xFF), 7, 0xFF, 0, s.bootCount % 65536, tickNow s, mkDetail 0 lost⟩

/-- A record placed in its ring: on entering loss NT_LOG_LOST goes before it (R459). -/
def placeRec (s : State) (n : Nat) (e : Ev) (rep : Nat) (arch : Bool) : State :=
  let lost := match logRing s n with
    | r :: q => if 4096 ≤ q.length + 1 ∧ !r.read ∧ !tget s.log.loss false n then some r.seq else none
    | [] => none
  let s := match lost with
    | some x =>
      let s := { s with log := { s.log with loss := tset s.log.loss false n true } }
      appendRec (makeRoom s n) n (lossEv s n x) 0 false
    | none => s
  appendRec (makeRoom s n) n e rep arch

/-- The newest record of a ring with k more occurrences, saturating; it goes on under the number of the event merged into it. -/
def mergeNewest (k id : Nat) : List LogRec → List LogRec
  | [] => []
  | [r] => [{ r with rep := min 0xFFFF (r.rep + k), ev := { r.ev with id := id } }]
  | r :: q => r :: mergeNewest k id q

/-- Is an event that of a slice-fatal fault now: a refusal for poison from the moment of R454 on? -/
def faultNow (s : State) (e : Ev) : Bool :=
  e.cls == clsSlice && (e.cause != stCode .updatePoison || s.log.fatals.any fun f => f.2.2 == e.id)

/-- The newest record of a ring goes to the archive where it is that of a slice-fatal fault (R461). -/
def archiveFault (s : State) (n : Nat) (e : Ev) : State :=
  if faultNow s e then (match (logRing s n).getLast? with | some r => archiveRec s r | none => s) else s

/-- An event's record placed, and archived (R459, R461). -/
def placeEv (s : State) (n : Nat) (e : Ev) : State := archiveFault (placeRec s n e e.rep false) n e

/-- EVENT_RECORD_ARRIVE: the first event in flight is placed, or merged where it comes within 1 ms of the placing of its ring's newest
record (R459); that of a slice-fatal fault is archived too (R461); a FINAL reply that waited for its sequence number goes (R388). -/
def execEventRecordArrive (soon : Bool) (s : State) : Out :=
  .next (match s.log.inFlight with
    | [] => s
    | e :: r =>
      if !hubReady s then s
      else
        let s := { s with log := { s.log with inFlight := r } }
        let n := evRing e
        match (logRing s n).getLast? with
        | some y =>
          payAll (if soon && sameSource e y then putRing s n (mergeNewest (1 + e.rep) e.id (logRing s n)) else placeEv s n e)
        | none => payAll (placeEv s n e))

/-! Reading (R456, R460). -/

/-- The 32 bytes of a record; without its detail where the PF reads a KEYED slice's (R410, R460). -/
def logBytes (hide : Bool) (r : LogRec) : List Byte :=
  leBytes 4 r.seq ++ leBytes 2 r.ev.cause ++ leBytes 1 (r.ev.cls * 32 + (if r.archived then 16 else 0)) ++ leBytes 1 r.ev.slice ++
    leBytes 1 r.ev.unit ++ leBytes 1 r.ev.sub ++ leBytes 2 r.ev.inst ++ leBytes 2 r.ev.boot ++ leBytes 2 r.rep ++ leBytes 8 r.ev.tick ++
    leBytes 8 (if hide then 0 else r.ev.detail.toNat)

/-- A slice's data hidden from the PF (R410). -/
def hidden (s : State) (f : FuncId) (n : N20) : Bool := f.val == 0 && keyState s n == 2

/-- READ_LOG: records from a first SEQ, in order, at most a maximum; those copied are read, and the ring leaves loss (R459, R460). -/
def readLog (s : State) (t : Taken) : State :=
  let n := match pkSl t.bytes with | some x => x.val | none => 20
  let hide := match pkSl t.bytes with | some x => hidden s t.f x | none => false
  let first := pkF t.bytes 1 31 0
  let got := ((logRing s n).filter fun r => decide (first ≤ r.seq)).take (pkF t.bytes 1 47 32)
  let upto := match got.getLast? with | some r => r.seq + 1 | none => first
  let s := putRing s n ((logRing s n).map fun r => if got.any (fun y => y.seq == r.seq) then { r with read := true } else r)
  let s := if got.isEmpty then s else { s with log := { s.log with loss := tset s.log.loss false n false } }
  let s := if got.isEmpty then s else emit s (.hostWrite t.f (pkP t.bytes 0) (got.flatMap (logBytes hide)))
  finish s t .ok got.length upto

/-- READ_LOG (R460). -/
def execReadLog (id : Nat) (s : State) : Out := .next (runPacket s id opLog readLog)

/-! Telemetry (R464, R469). -/

/-- What a sample says of section n. -/
def teleSect (s : State) (x : TeleSample) (n : N20) : List Byte :=
  let m := nthD x.sections n.val []
  leBytes 1 (rfld s (.mcState n) 63 60) ++ leBytes 1 (rfld s (.mcState n) 7 0) ++ leBytes 1 (nthD m 0 0) ++
    leBytes 1 (sliceByte (sectSlice s n)) ++ leBytes 4 (rfld s (.eccCnt n) 63 32) ++ leBytes 4 (rfld s (.eccCnt n) 31 16) ++
    leBytes 4 (nthD m 1 0) ++ leBytes 4 (nthD m 2 0) ++ List.replicate 12 0

/-- What a sample says of port p. -/
def telePort (s : State) (x : TeleSample) (p : PortId) : List Byte :=
  let m := nthD x.ports p.val []
  leBytes 1 (rfld s (.portStat p) 63 63) ++ List.replicate 3 0 ++ leBytes 4 (nthD m 0 0) ++ leBytes 4 (nthD m 1 0) ++ leBytes 4 (nthD m 2 0)

/-- The 832 bytes of a sample (R469): junction temperatures, MB read and written, and the ports' bytes and FEC counts are measured; the rest
stands in registers. -/
def teleBytes (s : State) (x : TeleSample) : List Byte :=
  leBytes 8 s.pwr.samples ++ leBytes 8 (tickNow s) ++ leBytes 2 (rfld s .pwrStat 63 48) ++ leBytes 2 (rfld s .pwrStat 47 32) ++
    leBytes 2 (rfld s .clkState 63 54) ++ leBytes 1 (rfld s .pwrTemp 63 56) ++ leBytes 1 (rfld s .pwrStat 2 0) ++
    leBytes 2 (rfld s .pwrStat 31 16) ++ List.replicate 38 0 ++ all20.flatMap (teleSect s x) ++ (List.finRange 8).flatMap (telePort s x)

/-- The FEC codewords that each port corrected in the last 1 ms, counted (R337, R376; log 98). -/
def countFec (s : State) (x : TeleSample) : State :=
  (List.finRange 8).foldl (fun s (p : PortId) => rbump s (.portFec p) 63 32 (nthD (nthD x.ports p.val []) 2 0)) s

/-- TELEMETRY_SAMPLE: one more complete sample (R464). -/
def execTelemetrySample (x : TeleSample) (s : State) : Out :=
  .next (if !hubReady s then s
    else
      let s := laterCycle { s with pwr := { s.pwr with samples := s.pwr.samples + 1 } }
      countFec { s with pwr := { s.pwr with sample := teleBytes s x } } x)

/-- Bytes lo to lo + n - 1 of a sample cleared. -/
def blank (lo n : Nat) (b : List Byte) : List Byte := b.take lo ++ List.replicate n 0 ++ b.drop (lo + n)

/-- What a function may see of a sample: a VF its slice's sections and no port (R393, R469); the PF no error counts or traffic of a KEYED
slice's sections (R410, log 32). -/
def teleFor (s : State) (f : FuncId) (b : List Byte) : List Byte :=
  let b := if f.val = 0 then b else blank 704 128 b
  all20.foldl (fun b n =>
    match funcSlice f, sectSlice s n with
    | some x, y => if y == some x then b else blank (64 + 32 * n.val) 32 b
    | none, some y => if keyState s y == 2 then blank (64 + 32 * n.val + 4) 16 b else b
    | none, none => b) b

/-- READ_TELEMETRY: the newest complete sample (R469). -/
def execReadTelemetry (id : Nat) (s : State) : Out :=
  .next (runPacket s id opTele fun s t =>
    finish (emit s (.hostWrite t.f (pkP t.bytes 0) (teleFor s t.f (bytesAt s.pwr.sample 0 832)))) t .ok 832 0)

/-- THERMAL_SENSOR_CALIBRATION of die 0 to 4: readings hold their last value meanwhile (R464). -/
def execThermalSensorCalibration (die : Fin 5) (s : State) : Out :=
  .next (if hubReady s then { s with pwr := { s.pwr with calib := tset s.pwr.calib 0 die.val (tget s.pwr.calib 0 die.val + 1) } } else s)

end Sys2Proof.Machine
end

