-- ==== Sys2Proof/Machine/Husk.lean ====
section
/-!
DEFINITION. Flash slots and husks: the CRC of a block, header, manifest, verification, the activation record (R423, R435, R438 to R440,
R442).
-/

namespace Sys2Proof.Machine

/-! CRC-32C. -/

/-- Eight steps of the reflected polynomial 0x82F63B78. -/
def crcBits : Nat → BitVec 32 → BitVec 32
  | 0, c => c
  | n + 1, c => crcBits n (if c.getLsbD 0 then (c >>> 1) ^^^ 0x82F63B78 else c >>> 1)
/-- CRC-32C of a byte string. -/
def crc32c (b : List Byte) : BitVec 32 := ~~~(b.foldl (fun c x => crcBits 8 (c ^^^ x.setWidth 32)) (BitVec.allOnes 32))

/-- Payload bytes of a block. -/
def blkPay : Nat := 65532
/-- Does a block hold the CRC of its payload (R438)? -/
def blockOk (b : List Byte) : Bool := b.length == 65536 && fieldAt b blkPay 4 == (crc32c (b.take blkPay)).toNat

/-- The payload stream of a slot (R438). -/
def payStream (bs : List (List Byte)) : List Byte := bs.flatMap fun b => b.take blkPay

/-! Header and manifest (R439, R440). -/

/-- Is every byte of a range 0? -/
def zeroAt (p : List Byte) (o n : Nat) : Bool := (bytesAt p o n).all fun x => x == 0

/-- Manifest bytes. -/
def manLen : Nat := 656
/-- Offset of entry i (R440). -/
def entAt (i : Nat) : Nat := 256 + 16 + 128 * i
def entIfv (p : List Byte) (i : Nat) : Nat := fieldAt p (entAt i + 2) 2
/-- LO and HI of the range of entry i for role r, 1 MP to 4 BC. -/
def entLo (p : List Byte) (i r : Nat) : Nat := fieldAt p (entAt i + 4 + 4 * (r - 1)) 2
def entHi (p : List Byte) (i r : Nat) : Nat := fieldAt p (entAt i + 6 + 4 * (r - 1)) 2
def entOff (p : List Byte) (i : Nat) : Nat := fieldAt p (entAt i + 20) 4
def entLen (p : List Byte) (i : Nat) : Nat := fieldAt p (entAt i + 24) 4
def entHash (p : List Byte) (i : Nat) : List Byte := bytesAt p (entAt i + 56) 32

/-- Header fields, vendor key, signature, and the unwrapped content key (R439). -/
def headOk (bs : List (List Byte)) (p : List Byte) : Bool :=
  let pub := bytesAt p 56 60
  fieldAt p 0 4 == 0x4B535548 && fieldAt p 4 4 == 1 && fieldAt p 8 4 == bs.length && decide (1 ≤ bs.length ∧ bs.length ≤ 4096) &&
    fieldAt p 12 4 == manLen && zeroAt p 120 136 && Config.sha256 pub == Config.fusedVendorHash &&
    Config.hssVerify pub (Config.sha256 (p.take (256 + manLen))) (bytesAt p (256 + manLen) (fieldAt p 116 4)) &&
    (Config.unwrapKey (bytesAt p 16 40)).isSome

/-- The fixed fields of the manifest (R440). -/
def manOk (p : List Byte) : Bool :=
  fieldAt p 256 4 == 5 && zeroAt p 260 12 && zeroAt p (entAt 0 + 4) 16 &&
    [0, 1, 2, 3, 4].all fun i => fieldAt p (entAt i) 1 == i && zeroAt p (entAt i + 1) 1 && zeroAt p (entAt i + 88) 40

/-- The image of entry i decrypts, and has its hash (R440). -/
def imageOk (p : List Byte) (i : Nat) : Bool :=
  match Config.unwrapKey (bytesAt p 16 40) with
  | none => false
  | some k =>
    match Config.gcmOpen k (bytesAt p (entAt i + 28) 12) (bytesAt p (entAt i) 28) (bytesAt p (entOff p i) (entLen p i)) (bytesAt p (entAt i + 40) 16) with
    | some x => Config.sha256 x == entHash p i
    | none => false

/-- No two images overlap, and none extends past BLOCKS (R440). -/
def imagesFit (bs : List (List Byte)) (p : List Byte) : Bool :=
  [0, 1, 2, 3, 4].all fun i => decide (entOff p i + entLen p i ≤ bs.length * blkPay) &&
    [0, 1, 2, 3, 4].all fun j => i == j || decide (entOff p i + entLen p i ≤ entOff p j) || decide (entOff p j + entLen p j ≤ entOff p i)

/-- Blocks that hold bytes o to o + n - 1 of the stream. -/
def blocksOf (o n : Nat) : List Nat := if n = 0 then [] else (List.range ((o + n - 1) / blkPay + 1 - o / blkPay)).map fun i => o / blkPay + i

/-- The checks of step 1 of boot: the blocks of header, manifest, signature and stage 1; their contents (R435). -/
def romOk (bs : List (List Byte)) : Bool :=
  let p := payStream bs
  let ks := blocksOf 0 (256 + manLen + fieldAt p 116 4) ++ blocksOf (entOff p 0) (entLen p 0)
  ks.all (fun k => blockOk (nthD bs k [])) && headOk bs p && imageOk p 0

/-- A slot is verified (R440). -/
def huskOk (bs : List (List Byte)) : Bool :=
  let p := payStream bs
  bs.all blockOk && headOk bs p && manOk p && imagesFit bs p && [0, 1, 2, 3, 4].all (imageOk p)

/-! Slots. -/

def getSlot (s : State) (i : Fin 2) : Slot := tget s.fw.slots slotReset' i.val
def putSlot (s : State) (i : Fin 2) (x : Slot) : State := { s with fw := { s.fw with slots := tset s.fw.slots slotReset' i.val x } }
/-- State codes of R450. -/
def slEmpty : Nat := 0
def slWriting : Nat := 1
def slVerifying : Nat := 2
def slVerified : Nat := 3
def slInvalid : Nat := 4
def slActive : Nat := 5
def setSlotSt (s : State) (i : Fin 2) (x : Nat) : State := putSlot s i { getSlot s i with st := x }
/-- The other slot. -/
def otherSlot (i : Fin 2) : Fin 2 := if i = 0 then 1 else 0
/-- Active and inactive slot. -/
def activeSlot (s : State) : Fin 2 := s.fw.mram.active
def idleSlot (s : State) : Fin 2 := otherSlot (activeSlot s)
/-- The payload stream of a slot. -/
def slotPay (s : State) (i : Fin 2) : List Byte := payStream (getSlot s i).blocks

/-! The activation record (R423). -/

/-- Roles in the order of the manifest: 1 MP, 2 SP, 3 QS, 4 BC. -/
def roleMp : Nat := 1
def roleSp : Nat := 2
def roleQs : Nat := 3
def roleBc : Nat := 4

/-- Header and manifest of a husk. -/
def manOf (p : List Byte) : List Byte := p.take (256 + manLen)

/-- The record of an activation of a slot's images, with the SP image that a manifest names (R423, R443, R448). -/
def actRecord (s : State) (i : Fin 2) (sp : List Byte) : List Byte :=
  let p := slotPay s i
  leBytes 4 s.fw.mram.actCount ++ leBytes 4 s.bootCount ++ leBytes 4 i.val ++ leBytes 4 (entIfv p roleMp) ++ List.replicate 16 0 ++
    entHash p roleMp ++ entHash sp roleSp ++ entHash p roleQs ++ entHash p roleBc

/-- The current activation record; zeros where there is none. -/
def curRecord (s : State) : List Byte := match s.fw.mram.cur with | some r => r.record | none => List.replicate 160 0

/-- Does the record name the images of the active slot (R448)? -/
def recordMatches (s : State) : Bool :=
  match s.fw.mram.cur with
  | none => false
  | some r =>
    let p := slotPay s (activeSlot s)
    r.record.drop 32 == entHash p roleMp ++ entHash p roleSp ++ entHash p roleQs ++ entHash p roleBc

/-! Compatibility (R442). -/

/-- Are image r of one stream and image q of another compatible: each one's IFV in the other's RANGE? -/
def pairOk (p : List Byte) (r : Nat) (p' : List Byte) (q : Nat) : Bool :=
  decide (entLo p r q ≤ entIfv p' q ∧ entIfv p' q ≤ entHi p r q) && decide (entLo p' q r ≤ entIfv p r ∧ entIfv p r ≤ entHi p' q r)

/-- The requirement of R442 between the running images and those of a new slot; the running SP may come of either. -/
def compatible (old sp new : List Byte) : Bool :=
  let rows : List (List (List Byte × Nat)) :=
    [[(old, roleBc), (new, roleBc), (old, roleQs), (old, roleMp), (sp, roleSp)],
     [(new, roleBc), (old, roleQs), (new, roleQs), (old, roleMp), (sp, roleSp)],
     [(new, roleBc), (new, roleQs), (new, roleMp), (sp, roleSp)],
     [(new, roleBc), (new, roleQs), (new, roleMp), (new, roleSp)]]
  rows.all (fun row => row.all fun x => row.all fun y => x.2 == y.2 || pairOk x.1 x.2 y.1 y.2) &&
    [roleMp, roleQs, roleBc].all (fun r => decide (entLo new r r ≤ entIfv old r ∧ entIfv old r ≤ entHi new r r)) &&
    decide (entLo new roleSp roleSp ≤ entIfv sp roleSp ∧ entIfv sp roleSp ≤ entHi new roleSp roleSp)

end Sys2Proof.Machine
end

