-- ==== Sys2Proof/Machine/Keys.lean ====
section
/-!
DEFINITION. The SP: identity signatures and their budget, the session tree, quotes and their batches, key delivery (R413 to R428). The
functions of the standards named there are uninterpreted (DESIGN CHOICE, log 20).
-/

namespace Sys2Proof.Machine

/-! Identity signatures (R418 to R420). -/

/-- The signing state at boot: confirmed when both copies pass and agree with MONO, after copies below MONO are brought up to it (R419). -/
def confirmState (s : State) : State :=
  let m := s.fw.mram
  match m.nextA, m.nextB with
  | some a, some b =>
    if a = b ∧ a ≤ m.mono then
      let up := { m with nextA := some m.mono, nextB := some m.mono }
      { putMram s (if a = m.mono then m else wrote .nextA (wrote .nextB up)) with sp := { s.sp with ok := true } }
    else { s with sp := { s.sp with ok := false } }
  | _, _ => { s with sp := { s.sp with ok := false } }

/-- NEXT. -/
def nextLeaf (s : State) : Nat := s.fw.mram.nextA.getD 32768

/-- Can an identity signature be made at all (R419)? -/
def canSign (s : State) : Bool := s.sp.ok && decide (nextLeaf s < 32768)

/-- An identity signature: MONO, both copies, then the leaf (R419). -/
def signIdentity (s : State) (msg : List Byte) : State × Option (List Byte) :=
  if !canSign s then (s, none)
  else
    let n := nextLeaf s
    let m := { s.fw.mram with mono := n + 1, nextA := some (n + 1), nextB := some (n + 1) }
    (putMram s (wrote .mono (wrote .nextA (wrote .nextB m))), some (Config.hssSign n msg))

/-- The session message (R418). -/
def sessMsg (s : State) : List Byte := Config.sessionPub s.bootCount ++ Config.sha256 (curRecord s) ++ leBytes 4 s.bootCount

/-- Is the current record of an activation in this boot (R423)? -/
def actThisBoot (s : State) : Bool := fieldAt (curRecord s) 4 4 == s.bootCount && s.fw.mram.cur.isSome

/-- The session message signed; its signature covers the record where none was made since boot (R418, R423). -/
def signSession (s : State) : State :=
  let x := signIdentity s (sessMsg s)
  match x.2 with
  | none => { x.1 with sp := { x.1.sp with refused := true } }
  | some g =>
    let s := { x.1 with sp := { x.1.sp with sessSig := some g } }
    match s.fw.mram.cur with
    | some r => if actThisBoot s then s else putMram s { s.fw.mram with cur := some { r with sig := g } }
    | none => s

/-- A new activation record signed and made current; the one before is kept (R443 steps 2 and 3, R448). -/
def signRecord' (s : State) (rec_ : List Byte) : State × Bool :=
  let x := signIdentity s rec_
  match x.2 with
  | none => (x.1, false)
  | some g => (putMram x.1 { x.1.fw.mram with old := x.1.fw.mram.cur, cur := some ⟨rec_, g⟩ }, true)

/-- An identity signature is held for confirmation: EVENT ST_BUDGET_LOW to the PF (R420). -/
def holdSign (s : State) (p : PendSign) (seq ring : Nat) : State :=
  let s := { s with sp := { s.sp with pend := s.sp.pend ++ [p] } }
  postEvent s 0 .budgetLow (seq + ring * 2 ^ 32) (idRemain s) 0 0xFF

/-- A session message or boot-time record is held under this number. -/
def noSeq : Nat := 0xFFFFFFFF

/-- SESSION_TREE_GENERATED: the tree is there, and its message is signed, held or refused (R420, R421). -/
def execSessionTreeGenerated (s : State) : Out :=
  .next (if !hubReady s || s.sp.tree then s
    else
      let s := { s with sp := { s.sp with tree := true } }
      if !canSign s then { s with sp := { s.sp with refused := true } }
      else if budgetLow s || !s.sp.pend.isEmpty then holdSign s .session noSeq 0
      else signSession s)

/-! Quotes (R422 to R428). -/

/-- The mask of quadrants whose sequencer a slice owns. -/
def seqMask (s : State) (n : N20) : Nat :=
  (List.finRange 4).foldl (fun m q => if rbit s (.rseq q) 7 && rfld s (.rseq q) 4 0 == n.val then m + 2 ^ q.val else m) 0
/-- The sections of a slice as a mask. -/
def sectMask (s : State) (n : N20) : Nat := sliceMask fun x => sectSlice s x == some n

/-- The slice configuration record (R424). -/
def configRecord (s : State) (n : N20) : List Byte :=
  let w := rget s (.fabfw n)
  bytesAt (leBytes 1 n.val ++ leBytes 4 (sectMask s n) ++ leBytes 1 (sliceFunc n).val ++ leBytes 1 (slotOfSlice s n) ++ leBytes 1 (seqMask s n) ++
    leBytes 2 (bits w 63 48) ++ leBytes 2 (bits w 47 32) ++ leBytes 1 (bits w 7 0) ++ leBytes 1 (rfld s .pfBar2 n.val n.val) ++
    leBytes 1 (rfld s (.clCfg n) 31 31) ++ leBytes 4 (clGen s n) ++ leBytes 1 (clN s n) ++ leBytes 1 (clShards s n) ++ leBytes 1 (clSelf s n) ++
    leBytes 1 (clMaster s n) ++ (List.range 8).flatMap fun i => leBytes 2 (memDev s n i) ++ leBytes 1 (memSlice s n i)) 0 128

/-- The encapsulation key of a slice while KEM_READY is 1. -/
def kemPub (s : State) (n : N20) : List Byte :=
  if kemReady s n then (match (getSec s n).kem with | some k => k.1 | none => []) else []

/-- "IX20 key confirm" in ASCII. -/
def confirmText : List Byte := [0x49, 0x58, 0x32, 0x30, 0x20, 0x6B, 0x65, 0x79, 0x20, 0x63, 0x6F, 0x6E, 0x66, 0x69, 0x72, 0x6D]

/-- The quote body (R422). -/
def quoteBody (s : State) (n : N20) (nonce : List Byte) : List Byte :=
  leBytes 4 1 ++ leBytes 1 n.val ++ leBytes 1 (keyState s n) ++ leBytes 2 0 ++ leBytes 4 s.bootCount ++ leBytes 4 s.fw.mram.actCount ++ nonce ++
    bytesAt (Config.sha256 Config.identityPub) 0 32 ++ bytesAt (Config.sha256 (curRecord s)) 0 32 ++
    bytesAt (Config.sha256 (configRecord s n)) 0 32 ++ bytesAt (getSec s n).pm 0 32 ++
    (if kemReady s n then bytesAt (Config.sha256 (kemPub s n)) 0 32 else List.replicate 32 0) ++
    (if keyState s n = 2 then bytesAt (Config.hmacSha256 (getSec s n).key (confirmText ++ nonce)) 0 16 else List.replicate 16 0) ++
    leBytes 8 (tickNow s) ++ leBytes 4 (idRemain s) ++ List.replicate 20 0

/-- Parents of a level of the tree. -/
def parents : List (List Byte) → List (List Byte)
  | a :: b :: r => Config.sha256 (1 :: a ++ b) :: parents r
  | r => r
/-- The root over d levels. -/
def treeRoot : Nat → List (List Byte) → List Byte
  | 0, xs => nthD xs 0 []
  | d + 1, xs => treeRoot d (parents xs)
/-- The siblings of leaf i from the leaf upward. -/
def treePath : Nat → Nat → List (List Byte) → List Byte
  | 0, _, _ => []
  | d + 1, i, xs => nthD xs (if i % 2 = 0 then i + 1 else i - 1) [] ++ treePath d (i / 2) (parents xs)
/-- The depth for n quotes: the smallest d with n ≤ 2^d. -/
def treeDepth (n : Nat) : Nat := ((List.range 32).find? fun d => decide (n ≤ 2 ^ d)).getD 0

/-- The identity signature covering the record, and that of the session message (R423, R427). -/
def recSig (s : State) : List Byte := match s.fw.mram.cur with | some r => r.sig | none => []

/-- What a quote's reply buffer takes (R427). -/
def quoteReply (s : State) (n : N20) (body : List Byte) (i d : Nat) (leaves : List (List Byte)) (sig : List Byte) : List Byte :=
  body ++ leBytes 4 i ++ leBytes 4 d ++ treePath d i leaves ++ bytesAt sig 0 2668 ++ bytesAt (Config.sessionPub s.bootCount) 0 56 ++
    bytesAt (s.sp.sessSig.getD []) 0 4916 ++ bytesAt (curRecord s) 0 160 ++ bytesAt (recSig s) 0 4916 ++ bytesAt Config.identityPub 0 60 ++
    (if kemReady s n then bytesAt (kemPub s n) 0 1568 else [])

/-- The open batch closes: its root is signed, and every quote has its reply (R426, R427). -/
def closeBatch (s : State) : State :=
  match s.sp.batch with
  | [] => s
  | qs =>
    let n := qs.length
    let d := treeDepth n
    let ls := qs.map fun q => Config.sha256 (0 :: q.body)
    let leaves := ls ++ List.replicate (2 ^ d - n) (List.replicate 32 0)
    let sig := Config.lmsSign s.bootCount s.sp.sessUsed (treeRoot d leaves ++ leBytes 4 n)
    let s := { s with sp := { s.sp with batch := [], sessUsed := s.sp.sessUsed + 1 } }
    (List.zip (List.range n) qs).foldl (fun s e =>
      match getTaken s e.2.id with
      | none => s
      | some t =>
        match pkSl t.bytes with
        | none => s
        | some x =>
          let b := quoteReply s x e.2.body e.1 d leaves sig
          finish (if t.mute then s else emit s (.hostWrite t.f e.2.buf b)) t .ok b.length 0) s

/-- Quotes that a batch opened now may hold (R426). -/
def batchLimit (s : State) : Nat := if rfld s .batch 31 16 = 0 then 1 else 2 ^ rfld s .batch 3 0

/-- Why a QUOTE is not signed now: the session message waits, or no signature can be made, or the quota is used (R420, R421, R428). -/
def quoteRefused (s : State) (n : N20) : Option Status :=
  if s.sp.refused then some .signRefused
  else if s.sp.sessSig.isNone then some .budgetLow
  else if 32768 ≤ s.sp.sessUsed then some .signRefused
  else if (getSec s n).quota ≤ (getSec s n).used then some .overQuota
  else none

/-- A quote admitted to the batch, charged to its slice; a full batch closes (R426, R428). -/
def admitQuote (s : State) (t : Taken) (n : N20) (req : List Byte) : State :=
  let x := getSec s n
  let s := putSec s n { x with used := x.used + 1 }
  let lim := if s.sp.batch.isEmpty then batchLimit s else s.sp.batchMax
  let q : QuoteReq := ⟨t.id, quoteBody s n (req.take 32), pkP t.bytes 1⟩
  let s := { s with sp := { s.sp with batch := s.sp.batch ++ [q], batchMax := lim } }
  if lim ≤ s.sp.batch.length then closeBatch s else s

/-- QUOTE: it waits for the session tree (R421, R422, R426 to R428). -/
def execQuote (id : Nat) (fetched : Option (List Byte)) (s : State) : Out :=
  .next (if !s.sp.tree then s
    else
      runOnSlice s id opQuote fun s t n =>
        match quoteRefused s n with
        | some st => finish s t st 0 0
        | none =>
          let s := readBuf s t (pkP t.bytes 0) 64
          match fetched with
          | none => finish s t .hostDma 0 0
          | some b =>
            let b := bytesAt b 0 64
            if (b.drop 32).any fun x => x != 0 then finish s t .inconsistent 0 0 else admitQuote s t n b)

/-- QUOTE_BATCH_CLOSE: the window has run out (R426). -/
def execQuoteBatchClose (s : State) : Out := .next (closeBatch s)

/-! Key delivery (R416). -/

/-- "IX20-XTS" in ASCII. -/
def xtsText : List Byte := [0x49, 0x58, 0x32, 0x30, 0x2D, 0x58, 0x54, 0x53]

/-- The tenant key from the ciphertext (R416 steps 2 and 3). -/
def tenantKey (s : State) (n : N20) (k : List Byte × List Byte) (c : List Byte) : List Byte :=
  bytesAt (Config.hkdfSha256 (Config.sha256 k.1) (Config.kemDecaps k.2 c) (xtsText ++ leBytes 1 n.val ++ leBytes 4 s.bootCount) 64) 0 64

/-- KEY_DELIVER on a slice. -/
def keyDeliver (fetched : Option (List Byte)) (s : State) (t : Taken) (n : N20) : State :=
  if sliceRunning s n then finish s t .sliceBusy 0 0
  else if keyState s n ≠ 1 then finish s t .sliceState 0 0
  else
    match (if kemReady s n then (getSec s n).kem else none), fetched with
    | none, _ => finish s t .keyInvalid 0 0
    | some _, none => finish (readBuf s t (pkP t.bytes 0) 1568) t .hostDma 0 0
    | some k, some c =>
      let s := readBuf s t (pkP t.bytes 0) 1568
      let key := tenantKey s n k (bytesAt c 0 1568)
      let s := dropKem s n
      if key.take 32 = key.drop 32 then finish s t .keyInvalid 0 0
      else beginScrub (setSliceState (installKey s n key) n 4) n (.key t.id)

/-- KEY_DELIVER: the key is changed only while the slice has no access in flight (R415, R416). -/
def execKeyDeliver (id : Nat) (fetched : Option (List Byte)) (s : State) : Out :=
  .next (if packetMeets s id then s else runOnSlice s id opKey (keyDeliver fetched))

end Sys2Proof.Machine
end

