-- ==== Sys2Proof/Machine/FwOps.lean ====
section
/-!
DEFINITION. Writing a husk, activation, confirmation of signatures, swaps, HEALTH_OK and revert (R420, R438 to R448, R464).
-/

namespace Sys2Proof.Machine

def putAct (s : State) (a : Activation) : State := { s with fw := { s.fw with act := a } }
def putUpd (s : State) (u : Option (Nat × Nat × Nat)) : State := { s with fw := { s.fw with upd := u } }

/-! Writing a husk (R441). -/

/-- Does an UPDATE_FIRMWARE or an activation run, the health minute of a boot among them (R441, R443)? -/
def fwBusy (s : State) : Bool := s.fw.upd.isSome || s.fw.act.phase != 0

/-- UPDATE_FIRMWARE: the inactive slot is being written; what it held is lost (R441). -/
def execUpdateFirmware (id : Nat) (s : State) : Out :=
  .next (runPacket s id opUpdate fun s t =>
    if fwBusy s then finish s t .slotBusy 0 0
    else putUpd (putSlot s (idleSlot s) ⟨slWriting, []⟩) (some (t.id, pkF t.bytes 1 31 0 / 65536, 0)))

/-- The update ends: its slot takes a state, its packet a status. -/
def endUpdate (s : State) (id st : Nat) (why : Status) : State :=
  let s := putUpd (setSlotSt s (idleSlot s) st) none
  match getTaken s id with | some t => finishForm s t why 0 | none => s

/-- Progress in bytes of the update's packet. -/
def updProgress (s : State) (id n : Nat) : State :=
  match getTaken s id with | some t => putTaken s { t with done := n } | none => s
/-- Has the packet's ring been aborted (R391)? -/
def wasCut (s : State) (id : Nat) : Bool := match getTaken s id with | some t => t.cut | none => false

/-- Block n of an update's image read from the buffer that its packet names (R379). -/
def readBlock (s : State) (id n : Nat) : State :=
  match getTaken s id with | some t => readBuf s t (pkP t.bytes 0 + 65536 * n) 65536 | none => s

/-- HUSK_BLOCK_PROGRAMMED: one block fetched, checked and programmed; an aborted ring stops here (R391, R441). -/
def execHuskBlockProgrammed (block : Option (List Byte)) (s : State) : Out :=
  .next (match s.fw.upd with
    | some (id, k + 1, n) =>
      let s := readBlock s id n
      (match block with
       | none => endUpdate s id slInvalid .hostDma
       | some b =>
         let b := bytesAt b 0 65536
         if !blockOk b then endUpdate s id slInvalid .huskInvalid
         else
           let i := idleSlot s
           let s := putSlot s i { getSlot s i with blocks := (getSlot s i).blocks ++ [b] }
           let s := updProgress s id (65536 * (n + 1))
           if wasCut s id then endUpdate s id slInvalid .aborted
           else putUpd (if k = 0 then setSlotSt s i slVerifying else s) (some (id, k, n + 1)))
    | _ => s)

/-- SLOT_VERIFICATION_END (R440, R441). -/
def execSlotVerificationEnd (s : State) : Out :=
  .next (match s.fw.upd with
    | some (id, 0, _) =>
      if huskOk (getSlot s (idleSlot s)).blocks then endUpdate s id slVerified .ok else endUpdate s id slInvalid .huskInvalid
    | _ => s)

/-- FLASH_SLOT_ERASE: an INVALID slot is erased; suspended during an update or activation (R464). -/
def execFlashSlotErase (slot : Fin 2) (s : State) : Out :=
  .next (if (getSlot s slot).st = slInvalid && !fwBusy s then putSlot s slot ⟨slEmpty, []⟩ else s)

/-- MRAM_WEAR_MOVE: a record written 65,536 times moves to the next of its 8 locations, with a higher generation (R464). -/
def execMramWearMove (rec : MramRec) (s : State) : Out :=
  let w := getWear s.fw.mram rec
  .next (if w.writes < 65536 then s
    else putMram s (putWear s.fw.mram rec ⟨w.gen + 1, (w.loc + 1) % 8, w.writes - 65536⟩))

/-- ACT_COUNT rises (R443, R448). -/
def bumpAct (s : State) : State := putMram s (wrote .act { s.fw.mram with actCount := s.fw.mram.actCount + 1 })

/-! Interface versions (R451). -/

/-- A role's field of HUB_FW_IFV. -/
def ifvLo (role : Nat) : Nat := if role = roleBc then 48 else if role = roleQs then 32 else if role = roleSp then 16 else 0
/-- A role's field reads the IFV of its image, by the manifest it came with. -/
def putIfv (s : State) (role : Nat) (man : List Byte) : State := rsetf s .fwIfv (ifvLo role + 15) (ifvLo role) (entIfv man role)
/-- A role's field reads the IFV of its image in a slot. -/
def setIfv (s : State) (role : Nat) (i : Fin 2) : State := putIfv s role (slotPay s i)

/-! Activation (R443 to R446). -/

/-- DONE of an activation's packet. -/
def actDone (s : State) (id n : Nat) : State := updProgress s id n

/-- The activation ends with a status; a revert is decided by the event logged with it (R388, R446). -/
def endAct (s : State) (why : Status) : State :=
  let a := s.fw.act
  let s := putAct s { a with phase := 0, unit := 0, swapped := false, pkt := none }
  match a.pkt with
  | some id =>
    (match getTaken s id with
     | some t => if why = .reverted then finishBy s t why (opForm t.bytes) t.done (opTotal t.bytes) 20 else finishForm s t why 0
     | none => s)
  | none => s

/-- Step 2 of an activation with its signature: steps 2 and 3, or the refusal (R420, R443). -/
def signAct (s : State) (id : Nat) : State :=
  let x := signRecord' s (actRecord s (idleSlot s) s.fw.act.spMan)
  if x.2 then actDone (putAct x.1 { x.1.fw.act with phase := 2, unit := 0, swapped := false, ifv := rget x.1 .fwIfv }) id 1
  else endAct x.1 .signRefused

/-- ACTIVATE_FIRMWARE: steps 1 and 2 of R443. -/
def beginAct (s : State) (t : Taken) : State :=
  let new := slotPay s (idleSlot s)
  if fwBusy s then finish s t .slotBusy 0 0
  else if (getSlot s (idleSlot s)).st ≠ slVerified then finish s t .huskInvalid 0 0
  else if !compatible (slotPay s (activeSlot s)) s.fw.act.spMan new then finish s t .incompatible 0 0
  else
    let s := bumpAct s
    let s := putAct s { s.fw.act with phase := 1, unit := 0, swapped := false, pkt := some t.id }
    if !canSign s then endAct s .signRefused
    else if budgetLow s then holdSign s (.packet t.id) (pkSeq t.bytes) t.ring.val
    else signAct s t.id

/-- ACTIVATE_FIRMWARE. -/
def execActivateFirmware (id : Nat) (s : State) : Out := .next (runPacket s id opActivate beginAct)

/-- The boot-time activation's record: signed, and current (R448). -/
def signBoot (s : State) : State :=
  let x := signRecord' s (actRecord s (activeSlot s) s.fw.act.spMan)
  if x.2 then putAct x.1 { x.1.fw.act with boot := true } else { x.1 with sp := { x.1.sp with refused := true } }

/-- Is a pending signature that which a CONFIRM_SIGN names (R420)? -/
def pendMatch (s : State) (seq ring : Nat) : PendSign → Bool
  | .session | .record => seq == noSeq
  | .packet id => match getTaken s id with | some t => pkSeq t.bytes == seq && t.ring.val == ring | none => false

/-- A confirmed signature is made (R420). -/
def makeSign (s : State) : PendSign → State
  | .session => signSession s
  | .record => signBoot s
  | .packet id => signAct s id

/-- CONFIRM_SIGN (R420). -/
def execConfirmSign (id : Nat) (s : State) : Out :=
  .next (runPacket s id opConfirm fun s t =>
    let p := pendMatch s (pkF t.bytes 0 31 0) (pkF t.bytes 1 1 0)
    match s.sp.pend.find? p with
    | none => finish s t .confirmMismatch 0 0
    | some x =>
      let s := { s with sp := { s.sp with pend := takeOut p s.sp.pend } }
      finish (makeSign s x) t .ok 0 0)

/-- SIGN_CONFIRM_TIMEOUT: an ACTIVATE_FIRMWARE that waits ends with ST_BUDGET_LOW (R420). -/
def execSignConfirmTimeout (s : State) : Out :=
  let isPkt (x : PendSign) : Bool := match x with | .packet _ => true | _ => false
  .next (if s.sp.pend.any isPkt then endAct { s with sp := { s.sp with pend := takeOut isPkt s.sp.pend } } .budgetLow else s)

/-- PROCESSOR_SWAP: the next processor's new image resumes its work from the state record (R443 to R445). A command takes effect between
spans, so a BUU holds its step as it stands (R444). -/
def execProcessorSwap (s : State) : Out :=
  let a := s.fw.act
  .next (if 2 ≤ a.phase ∧ a.phase ≤ 4 ∧ !a.swapped then putAct s { a with swapped := true } else s)

/-- Runtime images in the order of step 6 of R435: SP, MP, QS0 to QS3, BC00 to BC19; the role of image k. -/
def bootRole (k : Nat) : Nat := if k = 0 then roleSp else if k = 1 then roleMp else if k < 6 then roleQs else roleBc

/-- A runtime image of a boot posts HEALTH_OK; an activation leaves the SP with the image it runs (R442, R448, R451). -/
def bootHealth (s : State) : State :=
  let a := s.fw.act
  let s := if a.posted = 0 then putIfv s roleSp a.spMan else setIfv s (bootRole a.posted) (activeSlot s)
  let n := a.posted + 1
  putAct s { a with posted := n, phase := if n = 26 ∧ a.phase = 6 then 0 else a.phase }

/-- The last step of an activation: the pointer names the new slot (R443 step 7). -/
def finishAct (s : State) : State :=
  let new := idleSlot s
  let old := activeSlot s
  let s := setSlotSt (setSlotSt s old slVerified) new slActive
  let sp := entHash (slotPay s new) roleSp != entHash s.fw.act.spMan roleSp
  let s := rsetf (putMram s { s.fw.mram with active := new }) .fwSlot 62 62 (b2n sp)
  endAct s .ok

/-- The processor of the current step is healthy (R443 steps 4 to 7). -/
def actHealth (s : State) : State :=
  let a := s.fw.act
  let id := a.pkt.getD 0
  let new := idleSlot s
  if a.phase = 2 then
    let s := if a.unit = 0 then setIfv s roleBc new else s
    actDone (putAct s (if a.unit < 19 then { a with unit := a.unit + 1, swapped := false } else { a with phase := 3, unit := 0, swapped := false }))
      id (a.unit + 2)
  else if a.phase = 3 then
    let s := if a.unit = 0 then setIfv s roleQs new else s
    actDone (putAct s (if a.unit < 3 then { a with unit := a.unit + 1, swapped := false } else { a with phase := 4, unit := 0, swapped := false }))
      id (a.unit + 22)
  else finishAct (actDone (setIfv s roleMp new) id 26)

/-- HEALTH_OK: of the processor being swapped, else of the next runtime image of this boot (R443, R448). -/
def execHealthOk (s : State) : Out :=
  let a := s.fw.act
  .next (if 2 ≤ a.phase ∧ a.phase ≤ 4 then (if a.swapped then actHealth s else s)
    else if (s.fw.phase = .locked ∨ s.fw.phase = .ready) ∧ a.posted < 26 then bootHealth s
    else s)

/-- The old record and its signature are current again (R446, R447, R448). -/
def restoreRecord (s : State) : State := putMram s { s.fw.mram with cur := s.fw.mram.old }

/-- The event that names the processor that failed (R446, R457). -/
def logRevert (s : State) (phase unit : Nat) : State :=
  if phase = 2 then logEv s (stCode .reverted) clsNone 0xFF 3 0xFF unit 0
  else if phase = 3 then logEv s (stCode .reverted) clsNone 0xFF 9 0xFF unit 0
  else logEv s (stCode .reverted) clsNone 0xFF 7 0xFF 0 0

/-- FIRMWARE_REVERT: every processor swapped returns to its old image, and HUB_FW_IFV to what those had posted; the pointer stays (R446,
R451). -/
def execFirmwareRevert (s : State) : Out :=
  let a := s.fw.act
  .next (if 2 ≤ a.phase ∧ a.phase ≤ 4 ∧ a.swapped then
      let s := logRevert (restoreRecord s) a.phase a.unit
      endAct (rput s .fwIfv a.ifv) .reverted
    else s)

end Sys2Proof.Machine
end

