-- ==== Sys2Proof/Machine/ResetOps.lean ====
section
/-!
DEFINITION. Resets of the device, its functions and its link, device-fatal faults, and boot (R378, R380, R404 to R407, R433 to R437, R448,
R453, R455, R473, R486).
-/

namespace Sys2Proof.Machine

/-! Resets (R434). -/

/-- A write of a husk that a reset cut leaves its slot INVALID (R441). -/
def cutSlots (t : Tab Slot) : Tab Slot := t.map fun x => (x.1, if x.2.st = slWriting ∨ x.2.st = slVerifying then { x.2 with st := slInvalid } else x.2)

/-- Firmware state that a reset leaves: flash and MRAM; an activation in progress is abandoned and its record restored (R434, R447). -/
def keepFw (s : State) (ph : BootPhase) : Fw :=
  let s := if 2 ≤ s.fw.act.phase ∧ s.fw.act.phase ≤ 5 then restoreRecord s else s
  { fwReset with phase := ph, mram := s.fw.mram, slots := cutSlots s.fw.slots, pinLow := s.fw.pinLow }

/-- The device after a cold or warm reset: every unit at its reset values but what the reset keeps and what is no unit of it: the queue, the
model's counters, cables, sideband ports and the record of outputs (R434). -/
def deviceReset (s : State) (ph : BootPhase) (cause : Nat) (p : Pwr) : State :=
  let t : State := { State.reset with
    pending := s.pending, now := s.now, freeCtr := s.freeCtr, bootCount := s.bootCount, side := s.side, out := s.out, pwr := p,
    fw := keepFw s ph, tb := { State.reset.tb with cable := s.tb.cable }, sp := spReset s.sp.keyDraws s.sp.kemDraws }
  rsetf t .hubReset 63 56 cause

/-- LAST_CAUSE codes (R449). -/
def lcBrownout : Nat := 1
def lcThermal : Nat := 2
def lcWarm : Nat := 3
def lcPin : Nat := 4
def lcFatal : Nat := 5
def lcRevert : Nat := 6

/-- Power state that a warm reset keeps: the monitors' levels, the inputs, the latch (R434). -/
def keepPwr (s : State) : Pwr :=
  { pwrReset with warn := s.pwr.warn, rst := s.pwr.rst, latch := s.pwr.latch, maxRead := s.pwr.maxRead, aux := s.pwr.aux, lastMv := s.pwr.lastMv }

/-- A warm reset: the oscillators and power conversion run on (R434). -/
def warmReset (s : State) (cause : Nat) : State := rsetf (deviceReset s .released cause (keepPwr s)) .clkState 3 0 15

/-- A cold reset: held until its release condition (R434, R473, R485). -/
def coldReset (s : State) (cause : Nat) (hold : Bool) : State :=
  deviceReset s .held cause
    { pwrReset with latch := s.pwr.latch || hold, tripHold := hold, maxRead := s.pwr.maxRead, aux := s.pwr.aux, lastMv := s.pwr.lastMv }

/-- WARM_RESET: a write of HUB_RESET.WARM (R434, R449). -/
def execWarmReset (f : FuncId) (v : W64) (s : State) : Out :=
  .next (if bit v 0 then hostWrite s f .hubReset false fun s => warmReset s lcWarm else s)

/-- RESET_PIN_ASSERT: a warm reset, held while the pin is low (R434, R486). A device not powered stays held. -/
def execResetPinAssert (s : State) : Out :=
  let s := { s with fw := { s.fw with pinLow := true } }
  .next (if s.fw.phase = .held then s else warmReset s lcPin)

/-- Does the 48 V input feed the 6 V bus: in a device out of reset, or at 42.5 V or more (R473, R474)? -/
def fed (s : State) : Bool := s.fw.phase != .held || decide (42500 ≤ s.pwr.lastMv)
/-- Is the I3C target powered: from the auxiliary input or the 6 V bus (R474)? -/
def i3cUp (s : State) : Bool := s.pwr.aux || fed s
/-- A target without power keeps no dynamic address (PRESUMED, log 13). -/
def dropTarget (s : State) : State := if i3cUp s then s else { s with side := { s.side with dynAddr := none } }

/-- POWER_ON_RESET_RELEASE: both inputs have been up for 20 ms; unless a thermal reset holds it, or the 48 V input as last sampled is below
42.5 V (R472, R473, R485). -/
def execPowerOnResetRelease (s : State) : Out :=
  .next (if s.fw.phase = .held && !s.pwr.tripHold && fed s then
      rsetf { s with fw := { s.fw with phase := .released }, pwr := { s.pwr with aux := true } } .clkState 3 0 15
    else s)

/-- AUX_INPUT_LOSS: one event while the 48 V input feeds the device; the THERMTRIP# latch goes (R474, R485). -/
def execAuxInputLoss (s : State) : Out :=
  let s := { s with pwr := { s.pwr with latch := false, aux := false } }
  .next (if s.fw.phase = .held then dropTarget s else logEv s ntGeneral clsNone 0xFF 10 0xFF 4 0)

/-! Device-fatal faults (R453, R455). -/

/-- Step 2 of R455: a record of the cause with the last 64 records of the device ring go to the archive. -/
def archiveFatal (s : State) (cause unit inst : Nat) : State :=
  let e : Ev := ⟨s.log.nextEv, 0, cause, clsDevice, 0xFF, unit, 0xFF, inst, s.bootCount % 65536, tickNow s, 0⟩
  let q := logRing s 20
  ((q.drop (q.length - 64)) ++ [(⟨s.log.nextSeq, e, 0, false, false⟩ : LogRec)]).foldl archiveRec s

/-- A device-fatal fault ends in a warm reset (R455). -/
def deviceFatal (s : State) (unit inst : Nat) : State :=
  if s.fw.phase = .held then s else warmReset (archiveFatal s ntGeneral unit inst) lcFatal

/-- The clock source that failed is out of lock (R483, R496; until the boot ROM runs: DESIGN CHOICE, log 83). -/
def unlock (s : State) (src : Fin 4) : State := if s.fw.phase = .held then s else rsetf s .clkState src.val src.val 0

/-- DEVICE_FATAL_FAULT (R455, R457; the hub switch under the MP's unit: DESIGN CHOICE, log 64). -/
def execDeviceFatalFault (cause : FatalCause) (s : State) : Out :=
  .next (match cause with
    | .mpState | .switchState => deviceFatal s 7 0
    | .spState => deviceFatal s 8 0
    | .exchangeState => deviceFatal s 5 0
    | .clockLoss src die => unlock (deviceFatal s 10 die.val) src)

/-- WATCHDOG_EXPIRY: of a BC slice fatal for its stack's slice (R453), of the MP, SP or a QS device fatal (R455). -/
def execWatchdogExpiry (u : WatchUnit) (s : State) : Out :=
  .next (if s.fw.phase = .held then s
    else
      match u with
      | .bc n => logEv s ntGeneral (if (sectSlice s n).isSome then clsSlice else clsNone) (sliceByte (sectSlice s n)) 3 0xFF n.val 0
      | .mp => deviceFatal s 7 0
      | .sp => deviceFatal s 8 0
      | .qs q => deviceFatal s 9 q.val)

/-! Functions and the link (R378, R380). -/

/-- A function's rings stop without replies, its registers return to their reset values (R380). -/
def resetFunc (s : State) (f : FuncId) : State :=
  { s with
    fregs := tclear s.fregs (f.val * 2 ^ 26) (2 ^ 26)
    mp := { s.mp with
      taken := s.mp.taken.map fun t => if t.f == f then { t with mute := true } else t
      replies := s.mp.replies.filter fun x => x.f != f
      phase := tclear s.mp.phase (4 * f.val) 4 } }

/-- All functions. -/
def allFuncs : List FuncId := List.finRange 21

/-- VF_FLR (R380). -/
def execVfFlr (n : N20) (s : State) : Out := .next (if sliceDefined s n then resetFunc s (sliceFunc n) else s)
/-- PF_FLR: the PF and every VF (R380). -/
def execPfFlr (s : State) : Out := .next (allFuncs.foldl resetFunc s)
/-- PERST_ASSERT: the PCIe controller and every function (R380, R434). -/
def execPerstAssert (s : State) : Out := .next (rsetf (rsetf (allFuncs.foldl resetFunc s) .hubFunc 4 0 0) .hubFunc 19 16 0)

/-- PCIE_LINK_UP: width and rate as trained; a degraded link is logged once (R378, R400). No link trains in reset (R474, R486). -/
def execPcieLinkUp (width : Fin 17) (speed : Fin 7) (s : State) : Out :=
  .next (if s.fw.phase = .held ∨ s.fw.pinLow ∨ width.val = 0 ∨ speed.val = 0 then s
    else
      let s := rsetf (rsetf s .hubFunc 4 0 width.val) .hubFunc 19 16 speed.val
      if width.val = 16 ∧ speed.val = 6 then s else logGeneral s 7 0 (regOff .hubFunc))

/-! Boot (R435 to R437). -/

def setPhase (s : State) (p : BootPhase) : State := { s with fw := { s.fw with phase := p } }
/-- The stacks whose training has ended. -/
def putTrained (s : State) (t : Tab Bool) : State := { s with fw := { s.fw with trained := t } }

/-- Boot stops with a status (R406, R437). -/
def stopBoot (s : State) (st : Status) : State := setPhase (rsetf s .bootStatus 63 48 (stCode st)) .stopped

/-- The other slot becomes active, with an event; the failed one is INVALID (R437). -/
def fallBack (s : State) : State :=
  let bad := activeSlot s
  let good := otherSlot bad
  let s := putAct (setSlotSt (setSlotSt s bad slInvalid) good slActive) { s.fw.act with fell := true }
  logEv (putMram s { s.fw.mram with active := good }) (stCode .huskInvalid) clsNone 0xFF 11 0xFF 0 0

/-- The blocks of a slot. -/
def slotBlocks (s : State) (i : Fin 2) : List (List Byte) := (getSlot s i).blocks

/-- The reset is over: RESET# is no longer low, so that EXTEST acts as BYPASS, and every clock source is locked (R486, R488, R496; log 83). -/
def leaveReset (s : State) : State :=
  rsetf { s with fw := { s.fw with pinLow := false }, side := { s.side with extest := false } } .clkState 3 0 15

/-- BOOT_ROM: step 1, on the other slot where the active one fails (R435, R437). -/
def execBootRom (s : State) : Out :=
  .next (if s.fw.phase ≠ .released then s
    else
      let s := leaveReset s
      if romOk (slotBlocks s (activeSlot s)) then setPhase s .rom
      else if romOk (slotBlocks s (idleSlot s)) then setPhase (fallBack s) .rom
      else stopBoot s .huskInvalid)

/-- The lowest frequency requested of the a-clock (R479). -/
def aclkTarget (p : Pwr) : Nat := min (min p.thermReq p.powReq) (if p.dip then 400 else 800)

/-- Stage 1 has passed its checks: BOOT_COUNT, the a-clock at the lowest request, every stack in training, the images of the active slot (R435
steps 2 and 3, R479). -/
def beginStage1 (s : State) : State :=
  let s := putMram { s with bootCount := s.bootCount + 1 } (wrote .boot s.fw.mram)
  let s := rsetf (rsetf s .clkState 63 54 (aclkTarget s.pwr)) .clkState 53 44 (aclkTarget s.pwr)
  let s := all20.foldl (fun s n => rsetf s (.mcState n) 63 60 1) s
  let s := putAct s { actReset with spMan := manOf (slotPay s (activeSlot s)), fell := s.fw.act.fell }
  setPhase (putTrained s []) .stage1

/-- STAGE1_START: step 2, at STAGE 1 (R435, R437). -/
def execStage1Start (s : State) : Out :=
  .next (if s.fw.phase ≠ .rom then s
    else
      let s := rsetf s .bootStatus 47 40 1
      if huskOk (slotBlocks s (activeSlot s)) then beginStage1 s
      else if romOk (slotBlocks s (idleSlot s)) && huskOk (slotBlocks s (idleSlot s)) then beginStage1 (fallBack s)
      else stopBoot s .huskInvalid)

/-- HBM_STACK_TRAINING_DONE: the stack passes to READY or FAILED (R300, R435 step 3). -/
def execHbmStackTrainingDone (n : N20) (ok : Bool) (temp : Byte) (s : State) : Out :=
  .next (if s.fw.phase ≠ .stage1 ∨ rfld s (.mcState n) 63 60 ≠ 1 then s
    else
      let s := if ok then rsetf (rsetf s (.mcState n) 63 60 2) (.mcState n) 7 0 temp.toNat else rsetf s (.mcState n) 63 60 4
      let s := putTrained s (tset s.fw.trained false n.val true)
      if all20.all fun m => tget s.fw.trained false m.val then setPhase s .trained else s)

/-- A READY stack's retirement list loaded from MRAM; one that cannot be read leaves the stack FAILED (R298, R305, R306). -/
def loadRetire (s : State) (n : N20) : State :=
  if rfld s (.mcState n) 63 60 ≠ 2 then s
  else if tget s.fw.mram.retireBad false n.val then rsetf s (.mcState n) 63 60 4
  else
    let ps := tget s.fw.mram.retire [] n.val
    let s := (List.zip (List.range ps.length) ps).foldl (fun s e =>
      match fin? 512 e.1 with | some i => rput s (.retireList n i) (BitVec.ofNat 64 (2 ^ 63 + e.2)) | none => s) s
    rsetf s (.retireStat n) 41 32 (min 512 ps.length)

/-- All four sequencers. -/
def all4 : List (Fin 4) := List.finRange 4

/-- The registers of R405 from the next partition, or the defaults of R407. -/
def loadPartition (s : State) : State :=
  if s.fw.mram.part.isSome then
    let s := rput s .pfBar2 (nextPart s .nextPfBar2)
    let s := all20.foldl (fun s n => rput (rput (rput s (.sectmap n) (nextPart s (.nextSectmap n))) (.keyslot n) (nextPart s (.nextKeyslot n)))
      (.fabfw n) (nextPart s (.nextFabfw n))) s
    all4.foldl (fun s q => rput s (.rseq q) (nextPart s (.nextRseq q))) s
  else
    let s := rput s .pfBar2 1
    let s := all20.foldl (fun s n => rput s (.sectmap n) 0x80) s
    let s := rput (rput s (.keyslot 0) 0x80) (.fabfw 0) 0x0000FFFF000000FF
    all4.foldl (fun s q => rput s (.rseq q) 0x80) s

/-- A FAILED stack takes its section out of service, with one event (R436). -/
def dropSect (s : State) (n : N20) : State :=
  if rfld s (.mcState n) 63 60 ≠ 4 then s
  else logEv (rsetf s (.sectmap n) 7 7 0) ntStackFailed clsNone 0xFF 3 0xFF n.val 0

/-- Key slots of slices that R436 left without a section lose VALID; lost tells which slices had one before. -/
def dropSlots (had : List N20) (s : State) : State :=
  all20.foldl (fun s k =>
    match fin? 20 (rfld s (.keyslot k) 4 0) with
    | some x => if rbit s (.keyslot k) 7 && had.contains x && !sliceDefined s x then rsetf s (.keyslot k) 7 7 0 else s
    | none => s) s

/-- Check 1 of R406: the valid key slots and the defined slices match one to one. -/
def lockKeys (s : State) : Bool :=
  let owns (k x : N20) : Bool := rbit s (.keyslot k) 7 && rfld s (.keyslot k) 4 0 == x.val
  all20.all (fun x => !sliceDefined s x || (all20.filter fun k => owns k x).length == 1) &&
    all20.all fun k => !rbit s (.keyslot k) 7 || all20.any fun x => owns k x && sliceDefined s x
/-- Check 2: the firewall of each defined slice. -/
def lockFw (s : State) : Bool :=
  all20.all fun x => !sliceDefined s x ||
    (decide (rfld s (.fabfw x) 63 48 ≤ rfld s (.fabfw x) 47 32) && rfld s (.fabfw x) 7 0 != 0)
/-- Check 3: no reserved encoding. -/
def lockEnc (s : State) : Bool :=
  all20.all (fun n => decide (rfld s (.sectmap n) 4 0 < 20) && decide (rfld s (.keyslot n) 4 0 < 20)) &&
    all4.all fun q => decide (rfld s (.rseq q) 4 0 < 20)

/-- A write of 1 to PROT_LOCK: the checks, and the lock or the stop of boot (R406). -/
def lockProt (s : State) : State :=
  if lockKeys s && lockFw s && lockEnc s then setPhase (rsetf (rsetf s .prot 63 48 0) .prot 0 0 1) .locked
  else
    let s := logEv (rsetf s .prot 63 48 (stCode .inconsistent)) (stCode .inconsistent) clsNone 0xFF 8 0xFF 0 (mkDetail 0 (regOff .prot))
    stopBoot s .inconsistent

/-- Steps 4 and 5 of the boot: retirement lists, the next partition, sections out of service, the lock (R298, R406, R407, R435, R436). -/
def bootLock (s : State) : State :=
  let s := loadPartition (all20.foldl loadRetire s)
  let had := all20.filter (sliceDefined s)
  lockProt (dropSlots had (all20.foldl dropSect s))

/-- BOOT_PARTITION_LOCK (R435). -/
def execBootPartitionLock (s : State) : Out := .next (if s.fw.phase ≠ .trained then s else bootLock s)

/-- PROT_LOCK_WRITE: stage 1 writes the lock after the loads of steps 4 and 5, which come with it (R406, R429, R435; log 111); a write of 0
has no effect. Once the lock is set a write is refused, with one event (R9). -/
def execProtLockWrite (v : W64) (s : State) : Out :=
  .next (if rbit s .prot 0 then logAccess s 0 (regOff .prot) ntGeneral else if s.fw.phase = .trained && bit v 0 then bootLock s else s)

/-- A boot-time activation where boot fell back, or the record does not name the active slot's images; its health phase is over where every image
has posted HEALTH_OK already (R437, R448). -/
def bootActivation (s : State) : State :=
  if recordMatches s && !s.fw.act.fell then s
  else
    let s := bumpAct s
    let s := putAct s { s.fw.act with phase := if s.fw.act.posted = 26 then 0 else 6 }
    if !canSign s then { s with sp := { s.sp with refused := true } }
    else if budgetLow s then holdSign s .record noSeq 0
    else signBoot s

/-- Archive records written since the last boot go ahead in the device ring, with ARCHIVED set and new SEQ values from 1 (R461). -/
def copyArchive (s : State) : State :=
  let a := s.fw.mram.archive
  let s := (a.drop (a.length - s.fw.mram.archNew)).foldl (fun s r => appendRec s 20 r.ev r.rep true) s
  putMram s { s.fw.mram with archNew := 0 }

/-- A new random key in every key slot (R407). -/
def drawSlots (s : State) : State :=
  all20.foldl (fun s k =>
    let x := drawKey s
    { x.1 with sp := { x.1.sp with slotKeys := tset x.1.sp.slotKeys [] k.val x.2 } }) s

/-- BOOT_READY: steps 6 and 7 (R407, R419, R435, R448, R461). -/
def execBootReady (s : State) : Out :=
  .next (if s.fw.phase ≠ .locked then s
    else
      let s := bootActivation (copyArchive (confirmState (drawSlots s)))
      setPhase (rsetf (rsetf (rsetf s .bootStatus 63 48 0) .bootStatus 47 40 2) .bootStatus 0 0 1) .ready)

/-- BOOT_ACTIVATION_TIMEOUT: the record before this boot and the other slot return by a warm reset; without a verified slot READY is held at
0 (R448). -/
def execBootActivationTimeout (s : State) : Out :=
  .next (if s.fw.act.phase ≠ 6 then s
    else
      let other := idleSlot s
      if (getSlot s other).st = slVerified then
        let s := setSlotSt (setSlotSt s (activeSlot s) slVerified) other slActive
        let s := if s.fw.act.boot then restoreRecord s else s
        let s := putMram s { s.fw.mram with active := other }
        warmReset s lcRevert
      else
        let s := logEv (putAct s { s.fw.act with phase := 0 }) ntGeneral clsNone 0xFF 8 0xFF 0 0
        setPhase (rsetf s .bootStatus 0 0 0) .stopped)

end Sys2Proof.Machine
end

