-- ==== Sys2Proof/Machine/Bar2Ops.lean ====
section
/-!
DEFINITION. BAR2 (R281, R382, R401, R408).
-/

namespace Sys2Proof.Machine

/-- The device address of a BAR2 offset through an enabled aperture of the function (R382, R401). -/
def bar2Addr (s : State) (f : FuncId) (off : BitVec 36) : Option Nat :=
  match fin? 16 (off.toNat / 2 ^ 32) with
  | none => none
  | some a => if ffld s f (.ap a) 63 63 = 1 then some (ffld s f (.ap a) 11 0 * 2 ^ 32 + off.toNat % 2 ^ 32) else none

/-- Is a byte reachable: a scratchpad, or a stack that is open (R280, R281, R299)? -/
def bar2Place (s : State) (a : Nat) : Bool :=
  match placeOf a with | .pad _ _ => true | .stack n _ => stackOpen s n | _ => false

/-- Does the firewall permit a byte to a function (R408)? -/
def bar2Allowed (s : State) (f : FuncId) (a : Nat) : Bool :=
  match addrSlice s a, funcSlice f with
  | none, _ => false
  | some x, some n => x == n
  | some x, none => rbit s .pfBar2 x.val && keyState s x != 2

/-- Why an access of n bytes is refused (R382). -/
def bar2Check (s : State) (f : FuncId) (off : BitVec 36) (n : Nat) : Status × Nat :=
  match bar2Addr s f off with
  | none => (.address, 0)
  | some a =>
    let us := if n = 0 then [] else a :: (List.range ((a + n - 1) / 64 - a / 64)).map fun i => 64 * (a / 64 + i + 1)
    if !us.all (bar2Place s) then (.address, a)
    else if !us.all (bar2Allowed s f) then (.protection, a)
    else (.ok, a)

/-- An event's occurrences with one more, in flight or in its ring. -/
def countMore (s : State) (id : Nat) : State :=
  { s with log := { s.log with
      inFlight := s.log.inFlight.map fun e => if e.id == id then { e with rep := min 0xFFFF (e.rep + 1) } else e
      rings := s.log.rings.map fun r => (r.1, r.2.map fun y => if y.ev.id == id && y.ev.id != 0 then { y with rep := min 0xFFFF (y.rep + 1) } else y) } }

/-- A refusal: one event, and within 1 ms of it further ones of the function are counted in it (R382). -/
def bar2Refuse (s : State) (f : FuncId) (off : BitVec 36) (why : Status) (soon : Bool) : State :=
  match tget s.mp.refusal none f.val with
  | some id =>
    if soon then countMore s id
    else
      let n := s.log.nextEv
      let s := logEv s (stCode why) clsNone (sliceByte (funcSlice f)) 7 0xFF f.val (mkDetail 0 off.toNat)
      { s with mp := { s.mp with refusal := tset s.mp.refusal none f.val (some n) } }
  | none =>
    let n := s.log.nextEv
    let s := logEv s (stCode why) clsNone (sliceByte (funcSlice f)) 7 0xFF f.val (mkDetail 0 off.toNat)
    { s with mp := { s.mp with refusal := tset s.mp.refusal none f.val (some n) } }

/-- BAR2_READ: the bytes with their poison, or 0xFF bytes (R382); held by a stack in RECAL (R299). -/
def execBar2Read (f : FuncId) (off : BitVec 36) (len : Nat) (soon : Bool) (s : State) : Out :=
  .next (if !funcExists s f || len == 0 then s
    else
      let c := bar2Check s f off len
      if c.1 ≠ .ok then emit (bar2Refuse s f off c.1 soon) (.readReply f (List.replicate len 0xFF) false)
      else if holdsRange s [(c.2, len)] then { s with held := s.held ++ [.read f c.2 len] }
      else readBar2 s f c.2 len)

/-- BAR2_WRITE: the bytes written without poison; a poisoned one is discarded with ST_PROTECTION (R246, R382); held by a stack in RECAL
(R299). -/
def execBar2Write (f : FuncId) (off : BitVec 36) (data : List Byte) (poisoned soon : Bool) (s : State) : Out :=
  .next (if !funcExists s f || data.isEmpty then s
    else
      let c := bar2Check s f off data.length
      if c.1 ≠ .ok then bar2Refuse s f off c.1 soon
      else if poisoned then bar2Refuse s f off .protection soon
      else if holdsRange s [(c.2, data.length)] then { s with held := s.held ++ [.write f c.2 data] }
      else writeAll s c.2 data false)

end Sys2Proof.Machine
end

