-- ==== Sys2Proof/Machine/PowerOps.lean ====
section
/-!
DEFINITION. Power, clocks and temperature (R472 to R485, R493 to R496).
-/

namespace Sys2Proof.Machine

def putPwr (s : State) (p : Pwr) : State := { s with pwr := p }

/-! Levels (R472, R475, R476). -/

/-- Warning, reset and nominal levels of the rails in the order of R475, in mV. -/
def railWarn : List Nat := [5400, 720, 768, 720, 1008, 384, 864, 1728]
def railRst : List Nat := [5000, 690, 736, 690, 966, 368, 828, 1656]
def railNom : List Nat := [6000, 750, 800, 750, 1050, 400, 900, 1800]

/-- Levels of a sample: the input, then the rails; a rail not given stands at its nominal value. -/
def levels (x : RailSample) : List Nat := x.vinMv :: (List.range 8).map fun i => nthD x.rails i (nthD railNom i 0)

/-- Which levels lie below their warning. -/
def warnOf (x : RailSample) : List Bool := List.zipWith (fun v w => decide (v < w)) (levels x) (42000 :: railWarn)
/-- Which lie below their reset level, or as a rail 8 % above nominal. -/
def rstOf (x : RailSample) : List Bool :=
  List.zipWith (fun v w => decide (v < w)) (levels x) (38000 :: railRst) ++
    List.zipWith (fun v w => decide (108 * w < 100 * v)) ((levels x).drop 1) railNom
/-- Which levels have recovered: the input above 42.5 V, the rails above 98 % of nominal (R476). -/
def upOf (x : RailSample) : List Bool :=
  decide (42500 < x.vinMv) :: List.zipWith (fun v w => decide (98 * w < 100 * v)) ((levels x).drop 1) railNom

/-- Levels that cross: a crossing takes effect when two consecutive samples lie beyond the threshold. -/
def crossings (prev now : List Bool) : List Bool := List.zipWith (fun a b => a && b) prev now
/-- Does a level cross? -/
def twice (prev now : List Bool) : Bool := (crossings prev now).any id

/-! The a-clock (R479). -/

/-- Do the core domains run (R435 step 2)? -/
def coresUp (s : State) : Bool := rfld s .clkState 63 54 != 0

/-- DETAIL of an NT_THROTTLE: the controls, the a-clock that the change leads to, and at the end of a dip its lowest input (R479). -/
def throttleDetail (s : State) (wasDip : Bool) : W64 :=
  BitVec.ofNat 64 (rfld s .pwrStat 3 0 + (if coresUp s then aclkTarget s.pwr else 0) * 2 ^ 4 +
    (if wasDip && !s.pwr.dip then s.pwr.dipMin % 65536 * 2 ^ 14 else 0))

/-- In-band interrupts of a change from one set of controls to another (R487). -/
def throttleIbi (old new : Nat) (s : State) : State :=
  let s := if new &&& (7 - (old &&& 7)) != 0 then emit s (.ibi 1) else s
  if old &&& (7 - (new &&& 7)) != 0 then emit s (.ibi 2) else s

/-- The controls active, as the bits of PWR_STAT have them (R493). -/
def controls (p : Pwr) : Nat := b2n (decide (p.thermReq < 800)) + 2 * b2n p.dip + 4 * b2n (decide (p.powReq < 800))

/-- TARGET_MHZ and the bits of PWR_STAT follow the requests; a change of the set of active controls logs NT_THROTTLE (R479, R487, R493, R496). -/
def retarget (s : State) : State :=
  let old := rfld s .pwrStat 2 0
  let new := controls s.pwr
  let s := rsetf (rsetf s .clkState 53 44 (aclkTarget s.pwr)) .pwrStat 2 0 new
  if new = old then s
  else throttleIbi old new (logEv s ntThrottle clsNone 0xFF 10 0xFF 4 (throttleDetail s (old.testBit 1)))

/-- ACLK_CHANGE: the clock takes the lowest request (R479). -/
def execAclkChange (s : State) : Out := .next (if coresUp s then rsetf s .clkState 63 54 (aclkTarget s.pwr) else s)

/-! The monitor (R472, R475 to R477). -/

/-- MIN_MV follows the lowest input (R476, R494). -/
def followMin (s : State) (mv : Nat) : State := if mv < rfld s .vinMin 31 16 then rsetf s .vinMin 31 16 mv else s

/-- An excursion of the input above 60.0 V: one event with its highest voltage, when it ends (R472). -/
def overInput (s : State) (mv : Nat) : State :=
  let hi := decide (60000 < mv)
  let p := s.pwr
  if hi then putPwr s { p with overPrev := true, ovr := p.ovr || p.overPrev, overMax := max p.overMax mv }
  else
    let s := if p.ovr then logEv s ntGeneral clsNone 0xFF 10 0xFF 4 (BitVec.ofNat 64 p.overMax) else s
    putPwr s { s.pwr with overPrev := false, ovr := false, overMax := 0 }

/-- The levels that have crossed and not recovered: one that crosses, and one that has not risen above its recovery level (R476). -/
def lowAfter (low crossed up : List Bool) : List Bool :=
  List.zipWith (fun c lu => c || lu) crossed (List.zipWith (fun l u => l && !u) (low ++ List.replicate 9 false) up)

/-- A dip begins, with the lower of the two samples that crossed, or goes on (R476). -/
def dipStep (s : State) (x : RailSample) (crossed : List Bool) : State :=
  let p := s.pwr
  let low := lowAfter p.low crossed (upOf x)
  if p.dip then putPwr s { p with low := low, dipMin := min p.dipMin x.vinMv, lastMv := x.vinMv }
  else if crossed.any id then
    retarget (emit (putPwr s { p with dip := true, low := low, dipMin := min p.lastMv x.vinMv, lastMv := x.vinMv }) (.ibi 3))
  else putPwr s { p with lastMv := x.vinMv }

/-- A brownout reset (R455, R477). -/
def brownout (s : State) : State := dropTarget (coldReset (archiveFatal s ntGeneral 10 4) lcBrownout false)

/-- RAIL_MONITOR_SAMPLE (R475). In a device held in reset the monitor alone runs, and shows whether the 48 V input is there (R474). -/
def execRailMonitorSample (x : RailSample) (s : State) : Out :=
  let w := warnOf x
  let r := rstOf x
  let cw := crossings s.pwr.warn w
  let cr := twice s.pwr.rst r
  .next (if s.fw.phase = .held then dropTarget (putPwr s { s.pwr with lastMv := x.vinMv })
    else if cr then brownout (putPwr s { s.pwr with lastMv := x.vinMv })
    else
      let s := putPwr s { s.pwr with warn := w, rst := r, vacc := (s.pwr.vacc.1 + x.vinMv, s.pwr.vacc.2 + 1) }
      dipStep (overInput (followMin s x.vinMv) x.vinMv) x cw)

/-- DIP_END: 5 ms after every level has recovered; DIPS rises (R476). -/
def execDipEnd (s : State) : Out :=
  .next (if s.pwr.dip && !s.pwr.low.any id then
      retarget (rbump (putPwr s { s.pwr with dip := false, low := [] }) .vinMin 63 48 1)
    else s)

/-- A write to PWR_VIN_MIN: DIPS as written, CLEAR (R494). -/
def writeVinMin (s : State) (f : FuncId) (v : W64) : State :=
  let s := plainWrite s f .vinMin v
  if bit v 0 then rsetf s .vinMin 31 16 0xFFFF else s

/-- VIN_MIN_CLEAR (R494). -/
def execVinMinClear (f : FuncId) (v : W64) (s : State) : Out :=
  .next (if bit v 0 then hostWrite s f .vinMin false fun s => writeVinMin s f v else s)

/-! Temperature (R480, R484, R485, R495). -/

/-- The highest value of a list and its first position. -/
def hottest (xs : List Nat) : Nat × Nat :=
  (List.zip (List.range xs.length) xs).foldl (fun m e => if m.1 < e.2 then (e.2, e.1) else m) (0, 0)

/-- The band of a reading: 1 hot, 2 cool, 0 between (R480). -/
def bandOf (x : ThermSample) : Nat :=
  if x.tj.any (fun t => decide (1000 ≤ t)) || x.dram.any (fun t => decide (95 ≤ t)) then 1
  else if x.tj.all (fun t => decide (t ≤ 970)) && x.dram.all (fun t => decide (t ≤ 92)) then 2
  else 0

/-- A reading over the shutdown limits (R485). -/
def overTemp (x : ThermSample) : Bool := x.tj.any (fun t => decide (1150 ≤ t)) || x.dram.any fun t => decide (105 ≤ t)

/-- PWR_TEMP (R495). -/
def putTemps (s : State) (x : ThermSample) : State :=
  let j := hottest x.tj
  let d := hottest x.dram
  let s := rsetf (rsetf s .pwrTemp 63 56 (min 255 (j.1 / 10))) .pwrTemp 55 53 (min 4 (j.2 / 64))
  let s := rsetf (rsetf s .pwrTemp 47 40 (min 255 d.1)) .pwrTemp 39 35 d.2
  rsetf (rsetf s .pwrTemp 31 24 (min 255 x.inlet)) .pwrTemp 23 16 (min 255 x.outlet)

/-- PWR_TEMP is updated every 1 ms, which is every 100th sample of 10 µs (R480, R495). -/
def countTemps (s : State) (x : ThermSample) : State :=
  if s.pwr.temps + 1 < 100 then putPwr s { s.pwr with temps := s.pwr.temps + 1 } else putTemps (putPwr s { s.pwr with temps := 0 }) x

/-- A thermal shutdown: THERMTRIP#, the device-fatal sequence, a cold reset held until the sensors are cool (R485, R487). One that meets a
brownout reset turns it into its own; the sequence has run (DEDUCED, log 85). -/
def thermalShutdown (s : State) : State :=
  let s := emit s (.ibi 4)
  coldReset (if s.fw.phase = .held then s else archiveFatal s ntGeneral 10 4) lcThermal true

/-- Highest reading in tenths of a degree. -/
def maxReading (x : ThermSample) : Nat := max (hottest x.tj).1 (10 * (hottest x.dram).1)

/-- THERMAL_SAMPLE (R480, R485). -/
def execThermalSample (x : ThermSample) (s : State) : Out :=
  let s := putPwr s { s.pwr with maxRead := maxReading x }
  .next (if s.pwr.trip && overTemp x && !s.pwr.tripHold then thermalShutdown s
    else if s.fw.phase = .held then putPwr s { s.pwr with trip := overTemp x }
    else countTemps (putPwr s { s.pwr with band := bandOf x, trip := overTemp x }) x)

/-- THERMAL_CONTROL_STEP: down while hot, up while cool (R480). -/
def execThermalControlStep (s : State) : Out :=
  let p := s.pwr
  .next (if s.fw.phase = .held then s
    else if p.band = 1 then retarget (putPwr s { p with thermReq := max 200 (p.thermReq - 25) })
    else if p.band = 2 then retarget (putPwr s { p with thermReq := min 800 (p.thermReq + 25) })
    else s)

/-- THERMAL_RESET_RELEASE: every sensor at 85 °C or less (R485). -/
def execThermalResetRelease (s : State) : Out :=
  .next (if s.pwr.tripHold && decide (s.pwr.maxRead ≤ 850) then putPwr s { s.pwr with tripHold := false } else s)

/-- COOLANT_INLET_NOTICE (R484). -/
def execCoolantInletNotice (s : State) : Out :=
  .next (if 45 < rfld s .pwrTemp 31 24 then logEv s ntGeneral clsNone 0xFF 10 0xFF 4 (mkDetail 0 (regOff .pwrTemp)) else s)

/-! Power (R481, R482, R493). -/

/-- The cap in force (R481). -/
def capNow (s : State) : Nat := if rfld s .pwrStat 31 16 = 0 then 2200 else rfld s .pwrStat 31 16

/-- Sum of a window's measurements. -/
def sumOf (xs : List Nat) : Nat := xs.foldl (· + ·) 0

/-- The power control's request after an interval, from the window's n measurements by their sum, so that the average is not rounded; the
a-clock, the cap (R481). -/
def powerReq (sum n aclk cap req : Nat) : Nat :=
  if cap * n < sum then max 200 (aclk * cap * n / sum / 25 * 25)
  else if 100 * sum ≤ 95 * cap * n then min 800 (req + 25)
  else req

/-- The input's mean over the window; the register as it stands where there is no sample. -/
def vinMean (s : State) (w : List (Nat × Nat)) : Nat :=
  let n := w.foldl (fun a x => a + x.2) 0
  if n = 0 then rfld s .pwrStat 47 32 else w.foldl (fun a x => a + x.1) 0 / n

/-- POWER_CONTROL_INTERVAL: a new cap takes force; the window is judged (R481, R482). -/
def execPowerControlInterval (watts : Nat) (s : State) : Out :=
  .next (if s.fw.phase = .held then s
    else
      let s := match s.mp.nextCap with
        | some c => { rsetf s .pwrStat 31 16 c with mp := { s.mp with nextCap := none } }
        | none => s
      let win := (watts :: s.pwr.win).take 10
      let vwin := (s.pwr.vacc :: s.pwr.vwin).take 10
      let n := win.length
      let sum := sumOf win
      let cap := capNow s
      let req := powerReq sum n (rfld s .clkState 63 54) cap s.pwr.powReq
      let s := rsetf (rsetf s .pwrStat 63 48 (sum / n)) .pwrStat 47 32 (vinMean s vwin)
      let s := rsetf s .pwrStat 3 3 (if sum ≤ cap * n then 0 else if req = 200 then 1 else rfld s .pwrStat 3 3)
      retarget (putPwr s { s.pwr with win := win, vwin := vwin, vacc := (0, 0), powReq := req }))

end Sys2Proof.Machine
end

