-- ==== Sys2Proof/Machine/SideOps.lean ====
section
/-!
DEFINITION. The I3C target and the test port (R487, R488).
-/

namespace Sys2Proof.Machine

def putSide (s : State) (x : Side) : State := { s with side := x }

/-- I3C_DYNAMIC_ADDRESS: by SETDASA at the static address 0x30 + SLOT_ID, or by ENTDAA; one that has an address keeps it (R487). -/
def execI3cDynamicAddress (x : I3cAssign) (s : State) : Out :=
  .next (if s.side.dynAddr.isSome || !i3cUp s then s
    else
      match x with
      | .setdasa st a => if st.toNat = 0x30 + s.side.slotId then putSide s { s.side with dynAddr := some a } else s
      | .entdaa a => putSide s { s.side with dynAddr := some a })

/-- The 8 bytes at an offset of the target (R487). -/
def i3cValue (s : State) (off : Byte) : Nat :=
  match off.toNat with
  | 0x00 => 0x4958 + s.side.slotId * 65536
  | 0x08 => (rget s .bootStatus).toNat
  | 0x10 => (rget s .pwrStat).toNat
  | 0x18 => (rget s .pwrTemp).toNat
  | 0x20 => rfld s .hubReset 63 56
  | 0x28 => b2n s.pwr.latch
  | _ => 0

/-- I3C_PRIVATE_READ: the target answers while it is powered (R474, R487). -/
def execI3cPrivateRead (off : Byte) (s : State) : Out := .next (if i3cUp s then emit s (.i3cRead (leBytes 8 (i3cValue s off))) else s)

/-- I3C_THERMTRIP_CLEAR: a write of 1 to bit 0 at offset 0x28 (R487). -/
def execI3cThermtripClear (data : Byte) (s : State) : Out := .next (if bit data 0 && i3cUp s then putPwr s { s.pwr with latch := false } else s)

/-! Test port (R488). -/

/-- An instruction, with the register that it puts between TDI and TDO: the controller has left Test-Logic-Reset. A test port without power takes
none (R474). -/
def testInstr (s : State) (drive : Bool) (preload cells : List Bool) : State :=
  if fed s then emit (putSide s { s.side with cells := preload, extest := drive, tlr := false }) (.testReg cells) else s

/-- The BYPASS register: one cell, which captures 0 (IEEE 1149.1). -/
def bypass (s : State) : State := testInstr s false s.side.cells [false]

/-- JTAG_BYPASS. -/
def execJtagBypass (s : State) : Out := .next (bypass s)

/-- The IDCODE (R488). -/
def idcode : BitVec 32 := Config.siliconVersion ++ (0x4958 : BitVec 16) ++ Config.jedecCode ++ (1 : BitVec 1)

/-- JTAG_IDCODE. -/
def execJtagIdcode (s : State) : Out := .next (testInstr s false s.side.cells ((List.range 32).map fun i => idcode.getLsbD i))

/-- JTAG_SAMPLE_PRELOAD: the cells captured go out and those shifted in are held, only while RESET# is low; otherwise as BYPASS (R488). -/
def execJtagSamplePreload (cells : ScanCells) (s : State) : Out :=
  .next (if s.fw.pinLow then testInstr s false cells.preload cells.captured else bypass s)

/-- What the pins show to a chain of cells, and what is shifted into it: both come from outside the device. -/
def scanFree : List Bool → State → State × List Bool × List Bool
  | [], s => (s, [], [])
  | _ :: l, s =>
    let y := drawFree s
    let x := scanFree l y.1
    (x.1, y.2.getLsbD 0 :: x.2.1, y.2.getLsbD 1 :: x.2.2)

/-- JTAG_EXTEST: the cells drive the sideband pins, what the pins show is captured and goes out, and those shifted in drive them then, only while
RESET# is low; otherwise as BYPASS (R488, IEEE 1149.1). The command carries neither: both are free values (DESIGN CHOICE, log 140). -/
def execJtagExtest (s : State) : Out :=
  let x := scanFree s.side.cells s
  .next (if s.fw.pinLow && fed s then testInstr x.1 true x.2.2 x.2.1 else bypass s)

/-- TEST_LOGIC_RESET: TRST# low (R488). -/
def execTestLogicReset (s : State) : Out := .next (putSide s { s.side with extest := false, tlr := true })

end Sys2Proof.Machine
end

