-- ==== Sys2Proof/Machine/HostRegs.lean ====
section
/-!
DEFINITION. Writes to any register of BAR0, the next partition, and accesses that are not aligned (R8 to R12, R381, R407, R431).
-/

namespace Sys2Proof.Machine

/-- Does a write to a register set an enable field (R12, R433)? -/
def setsEnable : Reg → W64 → Bool
  | .eng _ _ .ctl, v => bit v 0
  | .dxeSctl _, v => sctlEnables v
  | .syncWin _, v => bit v 63
  | .updCtl _, v => bit v 0
  | .ringCtl _, v => bit v 0
  | .timeCtl, v => bit v 0
  | .portCtl _, v => bit v 0
  | .ap _, v => bit v 63
  | _, _ => false

/-- A register that only a HALTED BUU lets the host write (R332, R333): a write at another time logs ST_ENGINE_BUSY. -/
def writeHalted (s : State) (f : FuncId) (n : N20) (r : Reg) (v : W64) : State :=
  if (getBuu s n).mode = .halted then plainWrite s f r v
  else logEv s (stCode .engineBusy) clsNone (sliceByte (sectSlice s n)) 3 0xFF n.val (mkDetail 0 (regOff r))

/-- A register that only a clutch that is not VALID lets the host write (R373). -/
def writeUnclutched (s : State) (f : FuncId) (n : N20) (r : Reg) (v : W64) : State :=
  if clutchOn s n then logAccess s f (regOff r) (stCode .clutchActive) else plainWrite s f r v

/-- A write to a SECU_NEXT_ register: the value goes to MRAM, and each reserved encoding is ignored with one event (R11, R407). -/
def writeNext (s : State) (f : FuncId) (r : Reg) (v : W64) : State :=
  let x := writeFlds false (regFields r) (nextPart s r) v
  let t := tset (s.fw.mram.part.getD []) 0 (regOff r) x.1
  let s := { s with fw := { s.fw with mram := { s.fw.mram with part := some t } } }
  (List.range x.2.1).foldl (fun s _ => logAccess s f (regOff r) ntGeneral) s

/-- Is a register one of the next partition (R431)? -/
def isNext : Reg → Bool
  | .nextPfBar2 | .nextSectmap _ | .nextKeyslot _ | .nextFabfw _ | .nextRseq _ => true
  | _ => false

/-- A write to SEM_MODE: operations that reach a counter in this a-cycle still meet the mode before it (R238). -/
def writeSemMode (s : State) (f : FuncId) (c : CoreId) (v : W64) : State :=
  let k := getCore s c
  let was := if k.modeAt = s.now then k.modeWas else rfld s (.semMode c) 3 0
  plainWrite (putCore s c { k with modeAt := s.now, modeWas := was }) f (.semMode c) v

/-- The effect of a write to a register that the function reaches. -/
def writeReg (s : State) (f : FuncId) (r : Reg) (v : W64) : State :=
  match r with
  | .eng c e .ctl => writeCtl s c e v
  | .eng c e .pc => writePc s c e v
  | .eng c e .dataHi => writeDataHi s c e v
  | .dxeSctl c => writeSctl s c v
  | .hostAddr c => writeHostAddr s f c v []
  | .semCnt c i => writeSemCnt s c i v
  | .semMode c => writeSemMode s f c v
  | .syncWin n => writeSyncWin s f n v
  | .srng n => writeSrng s n v
  | .updCtl n => writeUpdCtl s f n v
  | .updNorm n => acceptNorm s n v
  | .updList n => writeHalted s f n r v
  | .updGtab n => writeHalted s f n r v
  | .updOvr n => writeHalted s f n r v
  | .updStep n => writeHalted s f n r v
  | .sqdb i => writeSqdb s f i v
  | .cqdb i => writeCqdb s f i v
  | .ringCtl i => writeRingCtl s f i v []
  | .ringSq i => writeRingBase s f i true v
  | .ringCq i => writeRingBase s f i false v
  | .chorus => writeChorus s f v
  | .timeCtl => writeTimeCtl s f v
  | .portCtl p => writePortCtl s p v
  | .doorbell n => writeUnclutched s f n r v
  | .stepw n => writeUnclutched s f n r v
  | .hubReset => if bit v 0 then warmReset s lcWarm else s
  | .vinMin => writeVinMin s f v
  | _ => if isNext r then writeNext s f r v else plainWrite s f r v

/-- REGISTER_WRITE: by its access codes, or as the register's own rule has it; an access that is not an aligned 8-byte one is ignored
with ST_ALIGN, and an offset without a register has no effect (R9 to R11, R381). -/
def execRegisterWrite (f : FuncId) (off : BitVec 26) (len : Nat) (v : W64) (s : State) : Out :=
  .next (if !funcExists s f then s
    else if len ≠ 8 ∨ off.toNat % 8 ≠ 0 then logAccess s f off.toNat (stCode .align)
    else
      match regOf off.toNat with
      | some r => hostWrite s f r (setsEnable r v) fun s => writeReg s f r v
      | none => if hubReady s && !reaches s f off.toNat true then logAccess s f off.toNat (stCode .notPermitted) else s)

/-- NEXT_PARTITION_WRITE (R407, R431). -/
def execNextPartitionWrite (f : FuncId) (off : BitVec 26) (v : W64) (s : State) : Out :=
  .next (match regOf off.toNat with
    | some r => if isNext r then hostWrite s f r false fun s => writeNext s f r v else s
    | none => s)

/-- BAR0_MISALIGNED_READ: zeros are returned, and one event is logged (R381). -/
def execBar0MisalignedRead (f : FuncId) (off : BitVec 26) (len : Nat) (s : State) : Out :=
  .next (if !funcExists s f || (len == 8 && off.toNat % 8 == 0) then s
    else emit (logAccess s f off.toNat (stCode .align)) (.readReply f (List.replicate len 0) false))

end Sys2Proof.Machine
end

