-- ==== Sys2Proof/Machine/MatrixOps.lean ====
section
/-! DEFINITION. The matrix operations at the head of a core's MXE and the steps of executing ones (R85, R116, R86, R97, R126). -/

namespace Sys2Proof.Machine

/-- MXE.WS (R85). -/
def execMxeWs (c : CoreId) (s : State) : Out := .next (runOp s c .mxe 0x40)
/-- MXE.OS (R85). -/
def execMxeOs (c : CoreId) (s : State) : Out := .next (runOp s c .mxe 0x41)
/-- MXE.IS (R85). -/
def execMxeIs (c : CoreId) (s : State) : Out := .next (runOp s c .mxe 0x42)
/-- MXE.ALT (R116). -/
def execMxeAlt (c : CoreId) (s : State) : Out := .next (runOp s c .mxe 0x48)
/-- MXE_TILE_STEP: one lockstep tile step of an executing instruction (R86, R107, R173). -/
def execMxeTileStep (c : CoreId) (id : Nat) (s : State) : Out := .next (settleCore (mxeTile s c id) c)
/-- MXE_PASS_DRAIN: the end of a pass (R89, R97); others says how long each array's drain waits for generator words while the other cores of
the section draw, and how long its stream's input buffer is full (R102, R104; DESIGN CHOICE, log 107). -/
def execMxePassDrain (c : CoreId) (id : Nat) (others : DrainWait) (s : State) : Out := .next (settleCore (mxeDrain s c id others) c)
/-- ALT_DW_DRAIN: the dW drain of a segment (R126). -/
def execAltDwDrain (c : CoreId) (id : Nat) (s : State) : Out := .next (settleCore (mxeDwDrain s c id) c)

end Sys2Proof.Machine
end

