-- ==== Sys2Proof/Machine/MoultOps.lean ====
section
/-! DEFINITION. The moult operations at the head of a core's MLE, one meaning per opcode (R138 to R141). -/

namespace Sys2Proof.Machine

/-- MOULT.SELECT (R138). -/
def execMoultSelect (c : CoreId) (s : State) : Out := .next (runOp s c .mle 0x40)
/-- MOULT.SCAN (R139). -/
def execMoultScan (c : CoreId) (s : State) : Out := .next (runOp s c .mle 0x41)
/-- MOULT.PRUNE (R139). -/
def execMoultPrune (c : CoreId) (s : State) : Out := .next (runOp s c .mle 0x42)
/-- MOULT.GROW (R139). -/
def execMoultGrow (c : CoreId) (s : State) : Out := .next (runOp s c .mle 0x43)
/-- MOULT.SWAP (R140). -/
def execMoultSwap (c : CoreId) (s : State) : Out := .next (runOp s c .mle 0x44)
/-- MOULT.RECOMPRESS (R141). -/
def execMoultRecompress (c : CoreId) (s : State) : Out := .next (runOp s c .mle 0x45)
/-- MOULT.RESET_STATE (R141). -/
def execMoultResetState (c : CoreId) (s : State) : Out := .next (runOp s c .mle 0x46)

end Sys2Proof.Machine
end

