-- ==== Sys2Proof/Machine/ScalarOps.lean ====
section
/-! DEFINITION. The SXE operations at the head of a core's scalar engine, one meaning per opcode (R211 to R213). -/

namespace Sys2Proof.Machine

/-- SXE.ADD (R211). -/
def execSxeAdd (c : CoreId) (s : State) : Out := .next (runOp s c .sxe 0x40)
/-- SXE.SUB (R211). -/
def execSxeSub (c : CoreId) (s : State) : Out := .next (runOp s c .sxe 0x41)
/-- SXE.MUL (R211). -/
def execSxeMul (c : CoreId) (s : State) : Out := .next (runOp s c .sxe 0x42)
/-- SXE.AND (R211). -/
def execSxeAnd (c : CoreId) (s : State) : Out := .next (runOp s c .sxe 0x43)
/-- SXE.OR (R211). -/
def execSxeOr (c : CoreId) (s : State) : Out := .next (runOp s c .sxe 0x44)
/-- SXE.XOR (R211). -/
def execSxeXor (c : CoreId) (s : State) : Out := .next (runOp s c .sxe 0x45)
/-- SXE.SHL (R211). -/
def execSxeShl (c : CoreId) (s : State) : Out := .next (runOp s c .sxe 0x46)
/-- SXE.SHR (R211). -/
def execSxeShr (c : CoreId) (s : State) : Out := .next (runOp s c .sxe 0x47)
/-- SXE.SAR (R211). -/
def execSxeSar (c : CoreId) (s : State) : Out := .next (runOp s c .sxe 0x48)
/-- SXE.MIN (R211). -/
def execSxeMin (c : CoreId) (s : State) : Out := .next (runOp s c .sxe 0x49)
/-- SXE.MAX (R211). -/
def execSxeMax (c : CoreId) (s : State) : Out := .next (runOp s c .sxe 0x4A)
/-- SXE.MINU (R211). -/
def execSxeMinu (c : CoreId) (s : State) : Out := .next (runOp s c .sxe 0x4B)
/-- SXE.MAXU (R211). -/
def execSxeMaxu (c : CoreId) (s : State) : Out := .next (runOp s c .sxe 0x4C)
/-- SXE.SLT (R211). -/
def execSxeSlt (c : CoreId) (s : State) : Out := .next (runOp s c .sxe 0x4D)
/-- SXE.SLTU (R211). -/
def execSxeSltu (c : CoreId) (s : State) : Out := .next (runOp s c .sxe 0x4E)
/-- SXE.ADDI (R211). -/
def execSxeAddi (c : CoreId) (s : State) : Out := .next (runOp s c .sxe 0x50)
/-- SXE.LI (R211). -/
def execSxeLi (c : CoreId) (s : State) : Out := .next (runOp s c .sxe 0x51)
/-- SXE.POPC (R211). -/
def execSxePopc (c : CoreId) (s : State) : Out := .next (runOp s c .sxe 0x52)
/-- SXE.CLZ (R211). -/
def execSxeClz (c : CoreId) (s : State) : Out := .next (runOp s c .sxe 0x53)
/-- SXE.CTZ (R211). -/
def execSxeCtz (c : CoreId) (s : State) : Out := .next (runOp s c .sxe 0x54)
/-- SXE.LD (R212). -/
def execSxeLd (c : CoreId) (s : State) : Out := .next (runOp s c .sxe 0x58)
/-- SXE.ST (R212). -/
def execSxeSt (c : CoreId) (s : State) : Out := .next (runOp s c .sxe 0x59)
/-- SXE.BEQ (R213). -/
def execSxeBeq (c : CoreId) (s : State) : Out := .next (runOp s c .sxe 0x60)
/-- SXE.BNE (R211). -/
def execSxeBne (c : CoreId) (s : State) : Out := .next (runOp s c .sxe 0x61)
/-- SXE.BLT (R211). -/
def execSxeBlt (c : CoreId) (s : State) : Out := .next (runOp s c .sxe 0x62)
/-- SXE.BGE (R211). -/
def execSxeBge (c : CoreId) (s : State) : Out := .next (runOp s c .sxe 0x63)
/-- SXE.BLTU (R211). -/
def execSxeBltu (c : CoreId) (s : State) : Out := .next (runOp s c .sxe 0x64)
/-- SXE.BGEU (R211). -/
def execSxeBgeu (c : CoreId) (s : State) : Out := .next (runOp s c .sxe 0x65)
/-- SXE.IMCOPY (R213). -/
def execSxeImcopy (c : CoreId) (s : State) : Out := .next (runOp s c .sxe 0x68)

/-- SXE_IMCOPY_COMPLETE: the words stand in their bank and ST_OK lands in XD of pipe 0 (R155, R213). -/
def execSxeImcopyComplete (c : CoreId) (s : State) : Out :=
  let k := getCore s c
  .next (match k.insts.find? fun i => i.eng == .sxe && !i.finished && (match i.prog with | .imcopy .. => true | _ => false) with
    | some i =>
      match i.prog with
      | .imcopy te bank dst ws _ =>
        let s := advance s i.doneAt
        let s := putEng s c te (putWords (getEng s c te) bank dst ws)
        putInst s c { i with finished := true }
      | _ => s
    | none => s)

/-- The results of a core's VXE or SXE that land first: their a-cycle. -/
def firstDue (k : Core) (e : EngId) : Option Nat :=
  let ds := match e with | .vxe => k.vres.map VRes.due | .sxe => k.xres.map XRes.due | _ => []
  match ds with | [] => none | d :: r => some (r.foldl min d)

/-- Vector results due by t take their registers (R167, R168). -/
def landV (k : Core) (t : Nat) : Core :=
  let regs := (k.vres.filter fun r => decide (r.due ≤ t)).map VRes.reg
  { k with vregs := regs.foldl (fun m r => tset m vregReset r (vregAt k t r)) k.vregs, vres := k.vres.filter fun r => decide (t < r.due) }

/-- Scalar results due by t take their registers (R167, R168). -/
def landX (k : Core) (t : Nat) : Core :=
  let regs := (k.xres.filter fun r => decide (r.due ≤ t)).map fun r => (r.pipe, r.reg)
  { k with xregs := regs.foldl (fun m r => tset m xregReset (xkey r.1 r.2) (xregAt k t r.1 r.2)) k.xregs,
           xres := k.xres.filter fun r => decide (t < r.due) }

/-- REGISTER_RESULT_LAND: the next results in flight of the VXE or SXE land in their a-cycle (R168). -/
def execRegisterResultLand (c : CoreId) (e : EngId) (s : State) : Out :=
  .next (match firstDue (getCore s c) e with
    | some t =>
      let s := advance s t
      let k := getCore s c
      putCore s c (match e with | .vxe => landV k t | .sxe => landX k t | _ => k)
    | none => s)

/-- SCRATCHPAD_STORE_LAND: the engine's next stores take effect in their a-cycle, those of one a-cycle in order of issue (R209, R212,
R224). -/
def execScratchpadStoreLand (c : CoreId) (e : EngId) (s : State) : Out :=
  let xs := (getCore s c).stores.filter fun x => x.eng == e
  .next (match xs with
    | [] => s
    | x :: r =>
      let t := r.foldl (fun m y => min m y.due) x.due
      let s := landStores (advance s t) c (xs.filter fun y => y.due == t)
      let k := getCore s c
      putCore s c { k with stores := k.stores.filter fun y => !(y.eng == e && y.due == t) })

end Sys2Proof.Machine
end

