-- ==== Sys2Proof/Machine/VectorOps.lean ====
section
/-! DEFINITION. The VXE operations at the head of a core's vector engine, one meaning per opcode (R205 to R209). -/

namespace Sys2Proof.Machine

/-- VXE.ADD (R205). -/
def execVxeAdd (c : CoreId) (s : State) : Out := .next (runOp s c .vxe 0x40)
/-- VXE.SUB (R205). -/
def execVxeSub (c : CoreId) (s : State) : Out := .next (runOp s c .vxe 0x41)
/-- VXE.MUL (R205). -/
def execVxeMul (c : CoreId) (s : State) : Out := .next (runOp s c .vxe 0x42)
/-- VXE.FMA (R205). -/
def execVxeFma (c : CoreId) (s : State) : Out := .next (runOp s c .vxe 0x43)
/-- VXE.MAX (R205). -/
def execVxeMax (c : CoreId) (s : State) : Out := .next (runOp s c .vxe 0x44)
/-- VXE.MIN (R205). -/
def execVxeMin (c : CoreId) (s : State) : Out := .next (runOp s c .vxe 0x45)
/-- VXE.ABS (R205). -/
def execVxeAbs (c : CoreId) (s : State) : Out := .next (runOp s c .vxe 0x46)
/-- VXE.NEG (R205). -/
def execVxeNeg (c : CoreId) (s : State) : Out := .next (runOp s c .vxe 0x47)
/-- VXE.CMPLT (R205). -/
def execVxeCmplt (c : CoreId) (s : State) : Out := .next (runOp s c .vxe 0x48)
/-- VXE.CMPLE (R205). -/
def execVxeCmple (c : CoreId) (s : State) : Out := .next (runOp s c .vxe 0x49)
/-- VXE.CMPEQ (R205). -/
def execVxeCmpeq (c : CoreId) (s : State) : Out := .next (runOp s c .vxe 0x4A)
/-- VXE.CMPNE (R205). -/
def execVxeCmpne (c : CoreId) (s : State) : Out := .next (runOp s c .vxe 0x4B)
/-- VXE.SEL (R205). -/
def execVxeSel (c : CoreId) (s : State) : Out := .next (runOp s c .vxe 0x4C)
/-- VXE.AND (R205). -/
def execVxeAnd (c : CoreId) (s : State) : Out := .next (runOp s c .vxe 0x50)
/-- VXE.OR (R205). -/
def execVxeOr (c : CoreId) (s : State) : Out := .next (runOp s c .vxe 0x51)
/-- VXE.XOR (R205). -/
def execVxeXor (c : CoreId) (s : State) : Out := .next (runOp s c .vxe 0x52)
/-- VXE.SHL (R205). -/
def execVxeShl (c : CoreId) (s : State) : Out := .next (runOp s c .vxe 0x53)
/-- VXE.SHR (R205). -/
def execVxeShr (c : CoreId) (s : State) : Out := .next (runOp s c .vxe 0x54)
/-- VXE.SAR (R205). -/
def execVxeSar (c : CoreId) (s : State) : Out := .next (runOp s c .vxe 0x55)
/-- VXE.EXP (R206). -/
def execVxeExp (c : CoreId) (s : State) : Out := .next (runOp s c .vxe 0x58)
/-- VXE.DIV (R205). -/
def execVxeDiv (c : CoreId) (s : State) : Out := .next (runOp s c .vxe 0x59)
/-- VXE.SQRT (R205). -/
def execVxeSqrt (c : CoreId) (s : State) : Out := .next (runOp s c .vxe 0x5A)
/-- VXE.TEVAL (R133). -/
def execVxeTeval (c : CoreId) (s : State) : Out := .next (runOp s c .vxe 0x5B)
/-- VXE.CVT (R207). -/
def execVxeCvt (c : CoreId) (s : State) : Out := .next (runOp s c .vxe 0x60)
/-- VXE.UNPK (R208). -/
def execVxeUnpk (c : CoreId) (s : State) : Out := .next (runOp s c .vxe 0x61)
/-- VXE.REDADD (R205). -/
def execVxeRedadd (c : CoreId) (s : State) : Out := .next (runOp s c .vxe 0x64)
/-- VXE.REDMAX (R205). -/
def execVxeRedmax (c : CoreId) (s : State) : Out := .next (runOp s c .vxe 0x65)
/-- VXE.REDMIN (R205). -/
def execVxeRedmin (c : CoreId) (s : State) : Out := .next (runOp s c .vxe 0x66)
/-- VXE.POPC (R205). -/
def execVxePopc (c : CoreId) (s : State) : Out := .next (runOp s c .vxe 0x67)
/-- VXE.PERM (R205). -/
def execVxePerm (c : CoreId) (s : State) : Out := .next (runOp s c .vxe 0x68)
/-- VXE.MOVI (R205). -/
def execVxeMovi (c : CoreId) (s : State) : Out := .next (runOp s c .vxe 0x6C)
/-- VXE.IOTA (R205). -/
def execVxeIota (c : CoreId) (s : State) : Out := .next (runOp s c .vxe 0x6D)
/-- VXE.LD (R209). -/
def execVxeLd (c : CoreId) (s : State) : Out := .next (runOp s c .vxe 0x70)
/-- VXE.ST (R209). -/
def execVxeSt (c : CoreId) (s : State) : Out := .next (runOp s c .vxe 0x71)
/-- VXE.TLOAD (R209, R131). -/
def execVxeTload (c : CoreId) (s : State) : Out := .next (runOp s c .vxe 0x72)

/-- VXE_TLOAD_COMPLETE: the slot holds the table 33 a-cycles per iteration after the start, with its poison (R209, R497). -/
def execVxeTloadComplete (c : CoreId) (s : State) : Out :=
  let k := getCore s c
  .next (match k.insts.find? fun i => i.eng == .vxe && i.begun && (match i.prog with | .tload .. => true | _ => false) with
    | some i =>
      match i.prog with
      | .tload slot bs p =>
        if i.finished then s
        else
          let s := advance s i.doneAt
          let k := getCore s c
          putInst (putCore s c { k with slots := tset k.slots slotReset slot bs, slotP := tset k.slotP false slot p }) c
            { i with finished := true }
      | _ => s
    | none => s)

end Sys2Proof.Machine
end

