-- ==== Sys2Proof/Machine/Dispatch.lean ====
section
/-! DEFINITION. The dispatch: one arm per command, one direct call of its meaning. -/

namespace Sys2Proof.Machine

open Sys2Proof

/-- The effect of a command on everything but the queue. -/
def exec (i : Instr) (s : State) : Host.Outcome State Fault Refusal :=
  match i with
  | .nop c e => Sys2Proof.Machine.execNop c e s
  | .jmp c e => Sys2Proof.Machine.execJmp c e s
  | .jmpt c e => Sys2Proof.Machine.execJmpt c e s
  | .banksw c e => Sys2Proof.Machine.execBanksw c e s
  | .bankswBankClosed c e => Sys2Proof.Machine.execBankswBankClosed c e s
  | .engLdload c e => Sys2Proof.Machine.execEngLdload c e s
  | .engHalt c e => Sys2Proof.Machine.execEngHalt c e s
  | .fill c e => Sys2Proof.Machine.execFill c e s
  | .take c e => Sys2Proof.Machine.execTake c e s
  | .peek c e => Sys2Proof.Machine.execPeek c e s
  | .drain c e => Sys2Proof.Machine.execDrain c e s
  | .semAdd c e => Sys2Proof.Machine.execSemAdd c e s
  | .semSub c e => Sys2Proof.Machine.execSemSub c e s
  | .semWait c e => Sys2Proof.Machine.execSemWait c e s
  | .feOpReachWord a loc rem => Sys2Proof.Machine.execFeOpReachWord a loc rem s
  | .remoteValueReturn c e => Sys2Proof.Machine.execRemoteValueReturn c e s
  | .semOpReachCounter c ctr => Sys2Proof.Machine.execSemOpReachCounter c ctr s
  | .syncWaitTimeout c e => Sys2Proof.Machine.execSyncWaitTimeout c e s
  | .mxeWs c => Sys2Proof.Machine.execMxeWs c s
  | .mxeOs c => Sys2Proof.Machine.execMxeOs c s
  | .mxeIs c => Sys2Proof.Machine.execMxeIs c s
  | .mxeAlt c => Sys2Proof.Machine.execMxeAlt c s
  | .mxeTileStep c id => Sys2Proof.Machine.execMxeTileStep c id s
  | .mxePassDrain c id others => Sys2Proof.Machine.execMxePassDrain c id others s
  | .altDwDrain c id => Sys2Proof.Machine.execAltDwDrain c id s
  | .vxeAdd c => Sys2Proof.Machine.execVxeAdd c s
  | .vxeSub c => Sys2Proof.Machine.execVxeSub c s
  | .vxeMul c => Sys2Proof.Machine.execVxeMul c s
  | .vxeFma c => Sys2Proof.Machine.execVxeFma c s
  | .vxeMax c => Sys2Proof.Machine.execVxeMax c s
  | .vxeMin c => Sys2Proof.Machine.execVxeMin c s
  | .vxeAbs c => Sys2Proof.Machine.execVxeAbs c s
  | .vxeNeg c => Sys2Proof.Machine.execVxeNeg c s
  | .vxeCmplt c => Sys2Proof.Machine.execVxeCmplt c s
  | .vxeCmple c => Sys2Proof.Machine.execVxeCmple c s
  | .vxeCmpeq c => Sys2Proof.Machine.execVxeCmpeq c s
  | .vxeCmpne c => Sys2Proof.Machine.execVxeCmpne c s
  | .vxeSel c => Sys2Proof.Machine.execVxeSel c s
  | .vxeAnd c => Sys2Proof.Machine.execVxeAnd c s
  | .vxeOr c => Sys2Proof.Machine.execVxeOr c s
  | .vxeXor c => Sys2Proof.Machine.execVxeXor c s
  | .vxeShl c => Sys2Proof.Machine.execVxeShl c s
  | .vxeShr c => Sys2Proof.Machine.execVxeShr c s
  | .vxeSar c => Sys2Proof.Machine.execVxeSar c s
  | .vxeExp c => Sys2Proof.Machine.execVxeExp c s
  | .vxeDiv c => Sys2Proof.Machine.execVxeDiv c s
  | .vxeSqrt c => Sys2Proof.Machine.execVxeSqrt c s
  | .vxeTeval c => Sys2Proof.Machine.execVxeTeval c s
  | .vxeCvt c => Sys2Proof.Machine.execVxeCvt c s
  | .vxeUnpk c => Sys2Proof.Machine.execVxeUnpk c s
  | .vxeRedadd c => Sys2Proof.Machine.execVxeRedadd c s
  | .vxeRedmax c => Sys2Proof.Machine.execVxeRedmax c s
  | .vxeRedmin c => Sys2Proof.Machine.execVxeRedmin c s
  | .vxePopc c => Sys2Proof.Machine.execVxePopc c s
  | .vxePerm c => Sys2Proof.Machine.execVxePerm c s
  | .vxeMovi c => Sys2Proof.Machine.execVxeMovi c s
  | .vxeIota c => Sys2Proof.Machine.execVxeIota c s
  | .vxeLd c => Sys2Proof.Machine.execVxeLd c s
  | .vxeSt c => Sys2Proof.Machine.execVxeSt c s
  | .vxeTload c => Sys2Proof.Machine.execVxeTload c s
  | .vxeTloadComplete c => Sys2Proof.Machine.execVxeTloadComplete c s
  | .sxeAdd c => Sys2Proof.Machine.execSxeAdd c s
  | .sxeSub c => Sys2Proof.Machine.execSxeSub c s
  | .sxeMul c => Sys2Proof.Machine.execSxeMul c s
  | .sxeAnd c => Sys2Proof.Machine.execSxeAnd c s
  | .sxeOr c => Sys2Proof.Machine.execSxeOr c s
  | .sxeXor c => Sys2Proof.Machine.execSxeXor c s
  | .sxeShl c => Sys2Proof.Machine.execSxeShl c s
  | .sxeShr c => Sys2Proof.Machine.execSxeShr c s
  | .sxeSar c => Sys2Proof.Machine.execSxeSar c s
  | .sxeMin c => Sys2Proof.Machine.execSxeMin c s
  | .sxeMax c => Sys2Proof.Machine.execSxeMax c s
  | .sxeMinu c => Sys2Proof.Machine.execSxeMinu c s
  | .sxeMaxu c => Sys2Proof.Machine.execSxeMaxu c s
  | .sxeSlt c => Sys2Proof.Machine.execSxeSlt c s
  | .sxeSltu c => Sys2Proof.Machine.execSxeSltu c s
  | .sxeAddi c => Sys2Proof.Machine.execSxeAddi c s
  | .sxeLi c => Sys2Proof.Machine.execSxeLi c s
  | .sxePopc c => Sys2Proof.Machine.execSxePopc c s
  | .sxeClz c => Sys2Proof.Machine.execSxeClz c s
  | .sxeCtz c => Sys2Proof.Machine.execSxeCtz c s
  | .sxeLd c => Sys2Proof.Machine.execSxeLd c s
  | .sxeSt c => Sys2Proof.Machine.execSxeSt c s
  | .sxeBeq c => Sys2Proof.Machine.execSxeBeq c s
  | .sxeBne c => Sys2Proof.Machine.execSxeBne c s
  | .sxeBlt c => Sys2Proof.Machine.execSxeBlt c s
  | .sxeBge c => Sys2Proof.Machine.execSxeBge c s
  | .sxeBltu c => Sys2Proof.Machine.execSxeBltu c s
  | .sxeBgeu c => Sys2Proof.Machine.execSxeBgeu c s
  | .sxeImcopy c => Sys2Proof.Machine.execSxeImcopy c s
  | .sxeImcopyComplete c => Sys2Proof.Machine.execSxeImcopyComplete c s
  | .registerResultLand c e => Sys2Proof.Machine.execRegisterResultLand c e s
  | .scratchpadStoreLand c e => Sys2Proof.Machine.execScratchpadStoreLand c e s
  | .dxeIssue c => Sys2Proof.Machine.execDxeIssue c s
  | .streamTaskComplete c st => Sys2Proof.Machine.execStreamTaskComplete c st s
  | .streamTaskFault c st => Sys2Proof.Machine.execStreamTaskFault c st s
  | .completionRecordWrite c st => Sys2Proof.Machine.execCompletionRecordWrite c st s
  | .instructionRetire c what => Sys2Proof.Machine.execInstructionRetire c what s
  | .moultSelect c => Sys2Proof.Machine.execMoultSelect c s
  | .moultScan c => Sys2Proof.Machine.execMoultScan c s
  | .moultPrune c => Sys2Proof.Machine.execMoultPrune c s
  | .moultGrow c => Sys2Proof.Machine.execMoultGrow c s
  | .moultSwap c => Sys2Proof.Machine.execMoultSwap c s
  | .moultRecompress c => Sys2Proof.Machine.execMoultRecompress c s
  | .moultResetState c => Sys2Proof.Machine.execMoultResetState c s
  | .engineEnable f c e v => Sys2Proof.Machine.execEngineEnable f c e v s
  | .engineDrain f c e v => Sys2Proof.Machine.execEngineDrain f c e v s
  | .engineAbort f c e v => Sys2Proof.Machine.execEngineAbort f c e v s
  | .engineStep f c e v => Sys2Proof.Machine.execEngineStep f c e v s
  | .engineBankSelect f c e v => Sys2Proof.Machine.execEngineBankSelect f c e v s
  | .enginePcWrite f c e v => Sys2Proof.Machine.execEnginePcWrite f c e v s
  | .imDataHiWrite f c e v => Sys2Proof.Machine.execImDataHiWrite f c e v s
  | .imDataHiRead f c e => Sys2Proof.Machine.execImDataHiRead f c e s
  | .streamEnable f c v => Sys2Proof.Machine.execStreamEnable f c v s
  | .streamDrain f c v => Sys2Proof.Machine.execStreamDrain f c v s
  | .streamAbort f c v => Sys2Proof.Machine.execStreamAbort f c v s
  | .syncHostFill f c v => Sys2Proof.Machine.execSyncHostFill f c v s
  | .syncHostDrain f c v => Sys2Proof.Machine.execSyncHostDrain f c v s
  | .syncHostRead f c v => Sys2Proof.Machine.execSyncHostRead f c v s
  | .semCntWrite f c k v => Sys2Proof.Machine.execSemCntWrite f c k v s
  | .syncWinEnable f n v => Sys2Proof.Machine.execSyncWinEnable f n v s
  | .syncWinDisable f n v => Sys2Proof.Machine.execSyncWinDisable f n v s
  | .srngSeedWrite f n v => Sys2Proof.Machine.execSrngSeedWrite f n v s
  | .registerWrite f off len v => Sys2Proof.Machine.execRegisterWrite f off len v s
  | .memoryRequestArrive q => Sys2Proof.Machine.execMemoryRequestArrive q s
  | .hbmRefresh n => Sys2Proof.Machine.execHbmRefresh n s
  | .dramTempUpdate n temp => Sys2Proof.Machine.execDramTempUpdate n temp s
  | .patrolScrubRead n found intervened => Sys2Proof.Machine.execPatrolScrubRead n found intervened s
  | .hbmPhyRecal n => Sys2Proof.Machine.execHbmPhyRecal n s
  | .hbmRecalEnd n ok => Sys2Proof.Machine.execHbmRecalEnd n ok s
  | .serdesRecal p ok => Sys2Proof.Machine.execSerdesRecal p ok s
  | .recalOverdue u => Sys2Proof.Machine.execRecalOverdue u s
  | .recalForced u => Sys2Proof.Machine.execRecalForced u s
  | .updateEnable f n v => Sys2Proof.Machine.execUpdateEnable f n v s
  | .updateDrain f n v => Sys2Proof.Machine.execUpdateDrain f n v s
  | .updateAbort f n v => Sys2Proof.Machine.execUpdateAbort f n v s
  | .buuGradWordTaken n => Sys2Proof.Machine.execBuuGradWordTaken n s
  | .buuSpan n => Sys2Proof.Machine.execBuuSpan n s
  | .buuPass1End n => Sys2Proof.Machine.execBuuPass1End n s
  | .normRecordWrite src n v => Sys2Proof.Machine.execNormRecordWrite src n v s
  | .buuPass2Program n => Sys2Proof.Machine.execBuuPass2Program n s
  | .buuProgramDone n => Sys2Proof.Machine.execBuuProgramDone n s
  | .doorbellTake sl => Sys2Proof.Machine.execDoorbellTake sl s
  | .exchangeStart sl => Sys2Proof.Machine.execExchangeStart sl s
  | .exchangeComplete sl => Sys2Proof.Machine.execExchangeComplete sl s
  | .iftDataReceive p pkt => Sys2Proof.Machine.execIftDataReceive p pkt s
  | .packetLand rx => Sys2Proof.Machine.execPacketLand rx s
  | .ackTimer rx => Sys2Proof.Machine.execAckTimer rx s
  | .iftAckReceive p pkt => Sys2Proof.Machine.execIftAckReceive p pkt s
  | .retransmitTimeout tx seq => Sys2Proof.Machine.execRetransmitTimeout tx seq s
  | .keepaliveAck sl peer => Sys2Proof.Machine.execKeepaliveAck sl peer s
  | .peerSilent sl peer => Sys2Proof.Machine.execPeerSilent sl peer s
  | .probe p pkt => Sys2Proof.Machine.execProbe p pkt s
  | .plan p pkt => Sys2Proof.Machine.execPlan p pkt s
  | .planApply sl => Sys2Proof.Machine.execPlanApply sl s
  | .normsumSend sl => Sys2Proof.Machine.execNormsumSend sl s
  | .normsum p pkt => Sys2Proof.Machine.execNormsum p pkt s
  | .normrec p pkt => Sys2Proof.Machine.execNormrec p pkt s
  | .frameDiscard p why => Sys2Proof.Machine.execFrameDiscard p why s
  | .ptpMessageReceive p msg => Sys2Proof.Machine.execPtpMessageReceive p msg s
  | .ptpSyncLoss => Sys2Proof.Machine.execPtpSyncLoss s
  | .holdoverTimeout => Sys2Proof.Machine.execHoldoverTimeout s
  | .chorusTick => Sys2Proof.Machine.execChorusTick s
  | .chorusSlotStart => Sys2Proof.Machine.execChorusSlotStart s
  | .timebaseEnable f v => Sys2Proof.Machine.execTimebaseEnable f v s
  | .timebaseDisable f v => Sys2Proof.Machine.execTimebaseDisable f v s
  | .portEnable f p v => Sys2Proof.Machine.execPortEnable f p v s
  | .portDrain f p v => Sys2Proof.Machine.execPortDrain f p v s
  | .portAbort f p v => Sys2Proof.Machine.execPortAbort f p v s
  | .portLinkUp p => Sys2Proof.Machine.execPortLinkUp p s
  | .portLinkDown p => Sys2Proof.Machine.execPortLinkDown p s
  | .cablePresenceChange p present => Sys2Proof.Machine.execCablePresenceChange p present s
  | .fabricQuotaInterval sl sent => Sys2Proof.Machine.execFabricQuotaInterval sl sent s
  | .sqDoorbell f r v => Sys2Proof.Machine.execSqDoorbell f r v s
  | .cqDoorbell f r v => Sys2Proof.Machine.execCqDoorbell f r v s
  | .packetTake f r fetched => Sys2Proof.Machine.execPacketTake f r fetched s
  | .progressReply id done => Sys2Proof.Machine.execProgressReply id done s
  | .ringEnable f r v => Sys2Proof.Machine.execRingEnable f r v s
  | .ringDrain f r v => Sys2Proof.Machine.execRingDrain f r v s
  | .ringAbort f r v pkts => Sys2Proof.Machine.execRingAbort f r v pkts s
  | .ringConfigWrite f r reg v => Sys2Proof.Machine.execRingConfigWrite f r reg v s
  | .ping id => Sys2Proof.Machine.execPing id s
  | .openSlice id => Sys2Proof.Machine.execOpenSlice id s
  | .closeSlice id => Sys2Proof.Machine.execCloseSlice id s
  | .scrubSlice id => Sys2Proof.Machine.execScrubSlice id s
  | .sliceScrubComplete n => Sys2Proof.Machine.execSliceScrubComplete n s
  | .querySlice id => Sys2Proof.Machine.execQuerySlice id s
  | .loadProgram id fetched => Sys2Proof.Machine.execLoadProgram id fetched s
  | .startEngines id => Sys2Proof.Machine.execStartEngines id s
  | .stopEngines id => Sys2Proof.Machine.execStopEngines id s
  | .setClutch id => Sys2Proof.Machine.execSetClutch id s
  | .scheduleMoult id => Sys2Proof.Machine.execScheduleMoult id s
  | .retirePage id => Sys2Proof.Machine.execRetirePage id s
  | .keyDeliver id fetched => Sys2Proof.Machine.execKeyDeliver id fetched s
  | .quote id fetched => Sys2Proof.Machine.execQuote id fetched s
  | .quoteBatchClose => Sys2Proof.Machine.execQuoteBatchClose s
  | .confirmSign id => Sys2Proof.Machine.execConfirmSign id s
  | .signConfirmTimeout => Sys2Proof.Machine.execSignConfirmTimeout s
  | .queryBudget id => Sys2Proof.Machine.execQueryBudget id s
  | .setQuota id => Sys2Proof.Machine.execSetQuota id s
  | .updateFirmware id => Sys2Proof.Machine.execUpdateFirmware id s
  | .activateFirmware id => Sys2Proof.Machine.execActivateFirmware id s
  | .processorSwap => Sys2Proof.Machine.execProcessorSwap s
  | .healthOk => Sys2Proof.Machine.execHealthOk s
  | .firmwareRevert => Sys2Proof.Machine.execFirmwareRevert s
  | .bootActivationTimeout => Sys2Proof.Machine.execBootActivationTimeout s
  | .readTelemetry id => Sys2Proof.Machine.execReadTelemetry id s
  | .readLog id => Sys2Proof.Machine.execReadLog id s
  | .setPowerCap id => Sys2Proof.Machine.execSetPowerCap id s
  | .jobEnd n cause => Sys2Proof.Machine.execJobEnd n cause s
  | .jobEndComplete n => Sys2Proof.Machine.execJobEndComplete n s
  | .eventRecordArrive soon => Sys2Proof.Machine.execEventRecordArrive soon s
  | .watchdogExpiry u => Sys2Proof.Machine.execWatchdogExpiry u s
  | .deviceFatalFault cause => Sys2Proof.Machine.execDeviceFatalFault cause s
  | .vfFlr n => Sys2Proof.Machine.execVfFlr n s
  | .pfFlr => Sys2Proof.Machine.execPfFlr s
  | .perstAssert => Sys2Proof.Machine.execPerstAssert s
  | .pcieLinkUp width speed => Sys2Proof.Machine.execPcieLinkUp width speed s
  | .bar2Read f off len soon => Sys2Proof.Machine.execBar2Read f off len soon s
  | .bar2Write f off data poisoned soon => Sys2Proof.Machine.execBar2Write f off data poisoned soon s
  | .warmReset f v => Sys2Proof.Machine.execWarmReset f v s
  | .resetPinAssert => Sys2Proof.Machine.execResetPinAssert s
  | .powerOnResetRelease => Sys2Proof.Machine.execPowerOnResetRelease s
  | .auxInputLoss => Sys2Proof.Machine.execAuxInputLoss s
  | .bootRom => Sys2Proof.Machine.execBootRom s
  | .stage1Start => Sys2Proof.Machine.execStage1Start s
  | .hbmStackTrainingDone n ok temp => Sys2Proof.Machine.execHbmStackTrainingDone n ok temp s
  | .bootPartitionLock => Sys2Proof.Machine.execBootPartitionLock s
  | .protLockWrite v => Sys2Proof.Machine.execProtLockWrite v s
  | .bootReady => Sys2Proof.Machine.execBootReady s
  | .sessionTreeGenerated => Sys2Proof.Machine.execSessionTreeGenerated s
  | .nextPartitionWrite f off v => Sys2Proof.Machine.execNextPartitionWrite f off v s
  | .railMonitorSample x => Sys2Proof.Machine.execRailMonitorSample x s
  | .dipEnd => Sys2Proof.Machine.execDipEnd s
  | .thermalSample x => Sys2Proof.Machine.execThermalSample x s
  | .thermalControlStep => Sys2Proof.Machine.execThermalControlStep s
  | .thermalResetRelease => Sys2Proof.Machine.execThermalResetRelease s
  | .powerControlInterval watts => Sys2Proof.Machine.execPowerControlInterval watts s
  | .aclkChange => Sys2Proof.Machine.execAclkChange s
  | .vinMinClear f v => Sys2Proof.Machine.execVinMinClear f v s
  | .coolantInletNotice => Sys2Proof.Machine.execCoolantInletNotice s
  | .telemetrySample x => Sys2Proof.Machine.execTelemetrySample x s
  | .thermalSensorCalibration die => Sys2Proof.Machine.execThermalSensorCalibration die s
  | .flashSlotErase slot => Sys2Proof.Machine.execFlashSlotErase slot s
  | .mramWearMove rec => Sys2Proof.Machine.execMramWearMove rec s
  | .i3cDynamicAddress x => Sys2Proof.Machine.execI3cDynamicAddress x s
  | .i3cPrivateRead off => Sys2Proof.Machine.execI3cPrivateRead off s
  | .i3cThermtripClear data => Sys2Proof.Machine.execI3cThermtripClear data s
  | .jtagBypass => Sys2Proof.Machine.execJtagBypass s
  | .jtagIdcode => Sys2Proof.Machine.execJtagIdcode s
  | .jtagSamplePreload cells => Sys2Proof.Machine.execJtagSamplePreload cells s
  | .jtagExtest => Sys2Proof.Machine.execJtagExtest s
  | .testLogicReset => Sys2Proof.Machine.execTestLogicReset s
  | .huskBlockProgrammed block => Sys2Proof.Machine.execHuskBlockProgrammed block s
  | .slotVerificationEnd => Sys2Proof.Machine.execSlotVerificationEnd s
  | .bar0MisalignedRead f off len => Sys2Proof.Machine.execBar0MisalignedRead f off len s

end Sys2Proof.Machine
end

