-- ==== Sys2Proof/Machine/Step.lean ====
section
/-!
DEFINITION. One step: the command at the front of the queue, by its meaning.
-/

namespace Sys2Proof.Machine

/-- The state whose queue is q. -/
def State.setPending (s : State) (q : List Instr) : State := { s with pending := q }

/-- One step. On an empty queue the block idles (DESIGN CHOICE, log 33). -/
def step (s : State) : Host.Outcome State Fault Refusal :=
  match s.pending with
  | [] => .next s
  | c :: rest => exec c (s.setPending rest)

/-- A state with the command that a table word spells at the front of its queue. -/
def State.withFetchWord (s : State) (nbits w : Nat) : State :=
  match decodeTableWord nbits w with
  | some c => s.setPending (c :: s.pending)
  | none => s

end Sys2Proof.Machine
end

