-- ==== Sys2Proof/Safety.lean ====
section
/-!
DEFINITION. What a sound state is, and what no command may undo: the terms of the statements about every step.
-/

namespace Sys2Proof.Machine

/-- Keys strictly rising. -/
def tasc {α : Type} (t : Tab α) : Prop := t.Pairwise fun p q => p.1 < q.1

/-- The canonical form of memory: addresses strictly rising, and no entry equal to what an unlisted address reads as (DESIGN CHOICE, log 4). -/
def Memory.wf (m : List Host.Cell) : Bool := twf m memDefault

/-- Memory, its tags, full/empty bits, sync lines, error marks and cache, and the tables of registers, counts, cores and units, are in
canonical form. -/
structure Canon (s : State) : Prop where
  mem : Memory.wf s.mem = true
  poison : twf s.poison false = true
  feb : twf s.feb false = true
  syncw : twf s.syncw ⟨0, false⟩ = true
  syncp : twf s.syncp false = true
  ecc : twf s.ecc .none = true
  cached : twf s.cached false = true
  regs : tasc s.regs
  fregs : tasc s.fregs
  cores : twf s.cores coreReset = true
  buu : twf s.buu buuReset = true
  fab : twf s.fab fabSliceReset = true
  dirty : twf s.dirty false = true
  incs : tasc s.incs

/-- Both copies of NEXT agree with MONO, and no leaf beyond the tree's 32,768 is counted (R419). -/
def leafOk (m : Mram) : Prop := m.nextA = some m.mono ∧ m.nextB = some m.mono ∧ m.mono ≤ 32768

/-- The invariant of the block. -/
structure Inv (s : State) : Prop where
  canon : Canon s
  leaf : leafOk s.fw.mram

/-- What a command may do to the parts of the state that only grow or that it does not own: the queue is not its business, time does not go
back, free values are not drawn twice, what has gone out stays out, BOOT_COUNT, ACT_COUNT and MONO never fall (R419, R423, R435), and the
canonical forms stay. -/
structure Keeps (s t : State) : Prop where
  queue : t.pending = s.pending
  time : s.now ≤ t.now
  free : s.freeCtr ≤ t.freeCtr
  outs : s.out <:+ t.out
  boots : s.bootCount ≤ t.bootCount
  acts : s.fw.mram.actCount ≤ t.fw.mram.actCount
  leaf : leafOk s.fw.mram → leafOk t.fw.mram ∧ s.fw.mram.mono ≤ t.fw.mram.mono
  canon : Canon s → Canon t

end Sys2Proof.Machine
end

