-- ==== Sys2Proof/Situations.lean ====
section
/-!
DEFINITION. The situations in which the statements speak: a calm core, an instruction that executes, a ring command that runs, and what a
command leaves alone.
-/

namespace Sys2Proof.Machine

/-! Frames. -/

/-- Every byte of memory, with its poison, full/empty bits and sync words, is as before. -/
structure SameMemory (s t : State) : Prop where
  mem : t.mem = s.mem
  poison : t.poison = s.poison
  feb : t.feb = s.feb
  syncw : t.syncw = s.syncw
  syncp : t.syncp = s.syncp
  ecc : t.ecc = s.ecc

/-- Everything outside the cores, the registers, the event log, the full/empty operations in flight and memory is as before. -/
structure SameUnits (s t : State) : Prop where
  fregs : t.fregs = s.fregs
  buu : t.buu = s.buu
  fab : t.fab = s.fab
  tb : t.tb = s.tb
  mp : t.mp = s.mp
  sp : t.sp = s.sp
  fw : t.fw = s.fw
  pwr : t.pwr = s.pwr
  side : t.side = s.side
  out : t.out = s.out
  boot : t.bootCount = s.bootCount

/-- Only engine e of core c, its results in flight and the records it keeps may differ: the other cores, the core's other engines, its
vector and scalar register files, table slots, selector contexts, stream tasks and counters are as before. -/
structure SameCores (s t : State) (c : CoreId) (e : EngId) : Prop where
  others : ∀ x : CoreId, x ≠ c → getCore t x = getCore s x
  engines : ∀ x : EngId, x ≠ e → getEng t c x = getEng s c x
  vregs : (getCore t c).vregs = (getCore s c).vregs
  xregs : (getCore t c).xregs = (getCore s c).xregs
  slots : (getCore t c).slots = (getCore s c).slots
  sem : (getCore t c).sem = (getCore s c).sem
  ctx : (getCore t c).ctx = (getCore s c).ctx
  sen : (getCore t c).sen = (getCore s c).sen
  tasks : (getCore t c).tasks = (getCore s c).tasks

/-! Cores and engines. -/

/-- Nothing dispatched remains in the core, and each of its engines is HALTED or RUNNING. -/
structure CalmCore (s : State) (c : CoreId) : Prop where
  insts : (getCore s c).insts = []
  modes : ∀ e : EngId, (getEng s c e).mode = .halted ∨ (getEng s c e).mode = .running

/-- The word w at the head of engine e executes normally at a-cycle t with loop descriptor d: the engine takes it from its queue (g is the
engine with its fetches made), nothing holds it at dispatch, it passes every check of R171, and no STEP is in progress. -/
structure Executes (s : State) (c : CoreId) (e : EngId) (w : W128) (t : Nat) (d : LoopDesc) (g : Engine) : Prop where
  head : headOf s c e = some (t, ⟨w, false⟩, g)
  held : heldAtDispatch s c e w = false
  pass : checkWord (advance (putEng s c e g) t) c e t ⟨w, false⟩ = .pass d
  step : g.step = .off

/-- n iterations of a vector register operation issued one per slot of q a-cycles from t, each reading its sources as they stand at its
issue; f gives an iteration's results and lat their latency (R159, R167). -/
def vIssue (f : List Byte → Bool → List Lane → List Lane → List Lane → List (Nat × List Lane)) (w : W128) (lat q t : Nat) (k : Core) :
    Nat → Core
  | 0 => k
  | j + 1 =>
    let x := vIssue f w lat q t k j
    let u := t + j * q
    let rs := f (tget x.slots slotReset (vSlot w)) (tget x.slotP false (vSlot w)) (vregAt x u (vVa w)) (vregAt x u (vVb w)) (vregAt x u (vVc w))
    { x with vres := x.vres ++ rs.map (fun r => ⟨r.1, r.2, u, u + lat * q, x.resSeq⟩), resSeq := x.resSeq + 1 }

/-- n iterations of a scalar register operation issued one per slot of q a-cycles from t in every pipe of PMASK, each reading its sources as
they stand at its issue; f gives a pipe's result from XA and XB (R159, R167, R211). -/
def xIssue (f : XReg → XReg → XReg) (w : W128) (lat q t : Nat) (k : Core) : Nat → Core
  | 0 => k
  | j + 1 =>
    let x := xIssue f w lat q t k j
    let u := t + j * q
    { x with
        xres := x.xres ++ (pipesOf w).mapIdx fun n p => ⟨p, xXd w, f (xregAt x u p (xXa w)) (xregAt x u p (xXb w)), u, u + lat * q, x.resSeq + n⟩
        resSeq := x.resSeq + (pipesOf w).length }

/-- What an instruction of engine e that ran in a calm core leaves beside its results: the engine is past it and dispatches next at the
a-cycle given, and one record keeps its claims until the a-cycle fin at which its timed work is done. -/
structure Ran (s u : State) (c : CoreId) (e : EngId) (w : W128) (t : Nat) (d : LoopDesc) (g : Engine) (next fin : Nat) : Prop where
  now : u.now = t
  pc : (getEng u c e).pc = g.pc + 1
  queue : (getEng u c e).queue =
    (if (getEng u c e).mode = .running then g.queue.drop 1 else (catchUp { g with queue := g.queue.drop 1, pc := g.pc + 1 } t).queue)
  next : (getEng u c e).nextAt = next
  record : ∃ i, (getCore u c).insts = [i] ∧ i.w = w ∧ i.eng = e ∧ i.bank = g.bank ∧ i.idx = g.pc ∧ i.rd = d.rd ∧ i.wr = d.wr ∧
    i.begun = true ∧ i.finished = true ∧ i.start = t ∧ i.doneAt = fin
  memory : SameMemory s u
  units : SameUnits s u
  cores : SameCores s u c e
  regs : latcheck s c e = 0 → u.regs = s.regs ∧ u.log = s.log

/-- Every instruction in the core that is dispatched and not retired has begun and has no stream task left to issue, and each engine of
the core is HALTED or RUNNING: nothing waits to follow from a change in the core. -/
structure StillCore (s : State) (c : CoreId) : Prop where
  insts : ∀ i ∈ (getCore s c).insts, i.begun = true ∧ (i.finished = false → ∀ n, i.prog ≠ .dxe n)
  modes : ∀ e : EngId, (getEng s c e).mode = .halted ∨ (getEng s c e).mode = .running

/-- Time has moved to t, engine e of core c has become g, and nothing else has changed but the operations in flight on full/empty words
and semaphores. -/
structure EngineOnly (s u : State) (c : CoreId) (e : EngId) (t : Nat) (g : Engine) : Prop where
  engine : getEng u c e = g
  engines : ∀ x : EngId, x ≠ e → getEng u c x = getEng s c x
  core : getCore u c = { getCore s c with eng := (getCore u c).eng, semOps := (getCore u c).semOps }
  others : ∀ x : CoreId, x ≠ c → getCore u x = getCore s x
  rest : u = { s with now := t, cores := u.cores, feOps := u.feOps, nextOp := u.nextOp }

/-! Aborts. -/

/-- Nothing of engine e is outstanding but at most one full/empty operation: nothing is dispatched in the core, no store, counter operation or
stream task is in flight, no bank closes, and each of its engines is HALTED or RUNNING. An abort of the engine ends at once. -/
structure IdleEngine (s : State) (c : CoreId) (e : EngId) (ops : List FeOp) : Prop where
  insts : (getCore s c).insts = []
  modes : ∀ x : EngId, (getEng s c x).mode = .halted ∨ (getEng s c x).mode = .running
  running : (getEng s c e).mode = .running
  open_ : (getEng s c e).closing = none
  stores : (getCore s c).stores = []
  sems : (getCore s c).semOps = []
  tasks : ∀ st, taskOf s c st = none ∧ streamAborting s c st = false
  ops : s.feOps.filter (feOfEng c e) = ops

/-- The word w at the head of engine e, a-cycle t, loop descriptor d, g the engine with its fetches made: it is defined, nothing holds it at
dispatch, and nothing of the engine is outstanding. -/
structure AtHeadAlone (s : State) (c : CoreId) (e : EngId) (w : W128) (t : Nat) (d : LoopDesc) (g : Engine) : Prop where
  head : headOf s c e = some (t, ⟨w, false⟩, g)
  held : heldAtDispatch s c e w = false
  known : opDefined e (opc w) = true ∧ fieldsOk e w = true
  entry : ldEntry g (ldOf w) = some d
  alone : IdleEngine s c e []

/-- Engine e has aborted and is HALTED with an empty queue at index pc, and its one event, slice fatal, carries the cause; no register file, no
memory, no other engine and no other core has changed (R175). -/
structure Faulted (s u : State) (c : CoreId) (e : EngId) (pc : BitVec 11) (cause : Status) : Prop where
  mode : (getEng u c e).mode = .halted
  queue : (getEng u c e).queue = []
  pc : (getEng u c e).pc = pc
  event : ∃ ev, u.log.inFlight = s.log.inFlight ++ [ev] ∧ ev.cause = stCode cause ∧ ev.cls = clsSlice ∧ ev.inst = c.val ∧ ev.sub = engIdx e
  ops : u.feOps = s.feOps.filter fun y => !feOfEng c e y
  regs : (getCore u c).xregs = (getCore s c).xregs ∧ (getCore u c).vregs = (getCore s c).vregs ∧
    (∀ r ∈ (getCore u c).xres, r ∈ (getCore s c).xres) ∧ (getCore u c).insts = []
  engines : ∀ x : EngId, x ≠ e → getEng u c x = getEng s c x
  others : ∀ x : CoreId, x ≠ c → getCore u x = getCore s x
  memory : SameMemory s u
  units : SameUnits s u

/-! Stores in flight. -/

/-- A byte of memory after store x of core c has landed (R209, R212). -/
def storeByte (c : CoreId) (a : Nat) (b : Byte) (x : PadStore) : Byte :=
  if padAddr c x.off ≤ a ∧ a < padAddr c x.off + x.bytes.length then nthD x.bytes (a - padAddr c x.off) 0 else b

/-- The poison tag of unit n after store x of core c has landed: a unit that it covers takes the poison of its data there, one that it covers in
part keeps a set tag too (R246). -/
def storeTag (c : CoreId) (n : Nat) (p : Bool) (x : PadStore) : Bool :=
  let lo := padAddr c x.off
  let hi := lo + x.bytes.length
  if max lo (64 * n) < min hi (64 * n + 64) then nthD x.p (n - lo / 64) false || (p && !decide (lo ≤ 64 * n ∧ 64 * n + 64 ≤ hi)) else p

/-! Full/empty words and hosts. -/

/-- Operation op is the only one that the command brings to its word, cell x, on which nothing waits, and no scrub under a new key keeps the
word's slice from taking it (R415). -/
structure ReachesAlone (s : State) (a : Nat) (loc : Bool) (rem : List Nat) (op : FeOp) (x : FeCell) : Prop where
  arrivals : feArrivals s a loc rem = [op]
  listed : s.feOps.any (fun y => y.id == op.id) = true
  cell : feCell s op.addr = x
  here : x ≠ .nowhere
  alone : feWaiters s x = []
  taken : addrRekeys s a = false

/-- The a-cycle at which an operation that arrives alone reaches its word. -/
def reachTime (s : State) (op : FeOp) : Nat := max s.now op.due

/-- The engine after its waiting operation completes at t with value v: past the instruction, or jumped by JMPT (R154, R218). -/
def afterWait (g : Engine) (kind : FeKind) (v : W64) (t q : Nat) : Engine :=
  if kind = .jmpt then
    { g with queue := [], pc := BitVec.ofNat 11 (bits v 10 0), nextAt := t + 3 * q, fetchAt := t + 3 * q - 1, wait := .none }
  else { g with queue := g.queue.drop 1, pc := g.pc + 1, nextAt := t + q, wait := .none }

/-- A host function that exists reaches a register, for writing, of a device that is ready. -/
structure HostOk (s : State) (f : FuncId) (r : Reg) : Prop where
  exist : funcExists s f = true
  ready : hubReady s = true
  reach : reaches s f (regOff r) true = true

/-- No counter of the register has counted in this a-cycle. -/
def NoIncs (s : State) (r : Reg) : Prop := ∀ lo, tget (incsNow s) 0 (incKey r lo) = 0

/-- A register that a host write changes by its access codes alone: not one whose rule gives the write an effect of its own. -/
def plainReg : Reg → Bool
  | .eng _ _ .ctl | .eng _ _ .pc | .eng _ _ .dataHi | .dxeSctl _ | .hostAddr _ | .semCnt _ _ | .semMode _ | .syncWin _ | .srng _ | .updCtl _ | .updNorm _
  | .updList _ | .updGtab _ | .updOvr _ | .updStep _ | .sqdb _ | .cqdb _ | .ringCtl _ | .ringSq _ | .ringCq _ | .chorus | .timeCtl
  | .portCtl _ | .doorbell _ | .stepw _ | .hubReset | .vinMin => false
  | r => !isNext r

/-- The stored value of a register, by function where each function has its own. -/
def regVal (s : State) (f : FuncId) (r : Reg) : W64 := if regLocal r then fget s f r else rget s r

/-- The increments that the counter field x of a register has had in this a-cycle (R182). -/
def incsOf (s : State) (r : Reg) (x : Fld) : Nat := if regLocal r then 0 else tget (incsNow s) 0 (incKey r x.lo)

/-- What a write of value v leaves in a field that held old, by its access code (R9, R11): locked says that PROT_LOCK holds, n is the
field's increments in this a-cycle (R182). -/
def fldAfter (locked : Bool) (n : Nat) (x : Fld) (old v : W64) : Nat :=
  match x.acc with
  | .ro | .wo => bits old x.hi x.lo
  | .w1c => bits old x.hi x.lo &&& (2 ^ (x.hi + 1 - x.lo) - 1 - bits v x.hi x.lo)
  | .rw =>
    min (2 ^ (x.hi + 1 - x.lo) - 1)
      ((if x.okLo ≤ bits v x.hi x.lo ∧ bits v x.hi x.lo ≤ x.okHi then bits v x.hi x.lo else bits old x.hi x.lo) + n)
  | .rwb =>
    if locked then bits old x.hi x.lo
    else if x.okLo ≤ bits v x.hi x.lo ∧ bits v x.hi x.lo ≤ x.okHi then bits v x.hi x.lo else bits old x.hi x.lo

/-- Does a write of v put a reserved encoding into a field that it could set (R11)? -/
def fldReserved (locked : Bool) (v : W64) (x : Fld) : Bool :=
  (x.acc == .rw || (x.acc == .rwb && !locked)) && !(decide (x.okLo ≤ bits v x.hi x.lo) && decide (bits v x.hi x.lo ≤ x.okHi))

/-- Nothing but registers and the event log differs. -/
structure RegsOnly (s u : State) : Prop where
  rest : u = { s with regs := u.regs, fregs := u.fregs, log := u.log }

/-- Events added to those on their way, in order, as many as causes are listed. -/
def LogsExactly (s u : State) (causes : List Nat) : Prop :=
  ∃ evs : List Ev, u.log.inFlight = s.log.inFlight ++ evs ∧ evs.map Ev.cause = causes

/-! The update unit. -/

/-- Does code z.2 of width w from byte z.1 lie in byte a? -/
def codeCovers (w : Nat) (z : Nat × Nat) (a : Nat) : Prop := z.1 + z.2 * w / 8 ≤ a ∧ a ≤ z.1 + (z.2 * w + w - 1) / 8

/-- Does the present span of pass 2 of program p write byte a: a code of an updated position in W or in a state tensor, or the scale byte of
one of the span's rows (R323, R324)? -/
def pass2Touches (s : State) (n : N20) (p : UProg) (q : Pass2) (a : Nat) : Prop :=
  let k := (getBuu s n).span
  (∃ x ∈ (spanBlocks p k).flatMap (newBlock s n p q k), codeCovers (upFmt p).width x.w a ∨
    (∃ z, x.m? = some z ∧ codeCovers (upSFmt p).width z a) ∨ (∃ z, x.v? = some z ∧ codeCovers (upSFmt p).width z a)) ∨
  ∃ r, r < 8 ∧ ((p.wSc = true ∧ a = scAddr n p p.wScale (8 * (k / spanCols p) + r) k) ∨
    a = scAddr n p p.s1.2.2 (8 * (k / spanCols p) + r) k ∨ (usesS2 p = true ∧ a = scAddr n p p.s2.2.2 (8 * (k / spanCols p) + r) k))

/-- Two ranges of bits, each a first bit and a length, share no bit. -/
def bitsApart (x y : Nat × Nat) : Prop := x.1 + x.2 ≤ y.1 ∨ y.1 + y.2 ≤ x.1

/-- The bits that the present span of pass 2 writes: each element's and each scale byte's first bit and length. -/
def spanBits (s : State) (n : N20) (p : UProg) (q : Pass2) : List (Nat × Nat) :=
  ((spanCodes s n p q (getBuu s n).span).map fun (x : NewCode) => (8 * x.at_.1 + x.at_.2 * x.fmt.width, x.fmt.width)) ++
    (spanScales s n p q (getBuu s n).span).map fun (y : Nat × Byte × Bool) => (8 * y.1, 8)

/-- What the present span of pass 2 writes lies in DRAM, each element and each scale byte in bits of its own. -/
structure SpanApart (s : State) (n : N20) (p : UProg) (q : Pass2) : Prop where
  apart : (spanBits s n p q).Pairwise bitsApart
  dram : ∀ z ∈ spanBits s n p q, ∀ i, i < z.2 → ∃ m, homeOf s ((z.1 + i) / 512) = .dram m

/-- The rounding of the stored element number j of a span: to nearest even, or by word j of the section's generator from its present state on
(R49, R324). -/
def spanRnd (s : State) (n : N20) (p : UProg) (j : Nat) : Rnd :=
  if p.sround then .sr (rngNext^[j + 1] (BitVec.ofNat 32 (rfld s (.srng n) 31 0))) else .rne

/-! Command packets. -/

/-- Packet t with number id has been taken, is of opcode op, has not begun, and its turn has come (R384, R387, R390). -/
structure TurnCome (s : State) (id op : Nat) (t : Taken) : Prop where
  taken : getTaken s id = some t
  op : pkOp t.bytes = op
  fresh : t.begun = false
  ready : hubReady s = true
  turn : turnOf s t = .go

/-- No reply waits, and the completion queue of ring r of function f has room (R383, R385). -/
structure CqFree (s : State) (f : FuncId) (r : Fin 4) : Prop where
  replies : s.mp.replies = []
  room : cqRoom s f r = true

/-- One reply has been written at the tail of the completion queue of ring r of function f with the ring's phase, followed by its interrupt,
after whatever else went out (R383, R388). -/
def Posted (s u : State) (f : FuncId) (r : Fin 4) (b : List Byte) (vec : Option Nat) : Prop :=
  ∃ pre, s.out <:+ pre ∧ u.out = (match vec with | some v => [.interrupt f v] | none => []) ++
    .hostWrite f (ffld s f (.ringCq r) 63 12 * 4096 + 32 * ffld s f (.cqdb r) 47 32)
      (setNth b 2 (nthD b 2 0 ||| (if tget s.mp.phase true (ringKey f r) then 0x80 else 0))) :: pre

/-- The completion queue of ring r of function f stands in its ring and has room for n replies (R383). -/
structure CqSpace (s : State) (f : FuncId) (r : Fin 4) (n : Nat) : Prop where
  tail : ffld s f (.cqdb r) 47 32 < ringLen s f r
  head : ffld s f (.cqdb r) 15 0 < ringLen s f r
  space : n ≤ (ffld s f (.cqdb r) 15 0 + ringLen s f r - ffld s f (.cqdb r) 47 32 - 1) % ringLen s f r

/-- The FINAL replies with status st to packets bs, in order, from the tail of ring r's completion queue on, each with the phase of its slot and
followed by its interrupt (R383, R386, R388). -/
def finalEvents (s : State) (f : FuncId) (r : Fin 4) (st : Status) (bs : List (List Byte)) : List OutEv :=
  bs.zipIdx.flatMap fun (x : List Byte × Nat) =>
    let k := ffld s f (.cqdb r) 47 32 + x.2
    let b := mkReply (stCode st) 0 0 (pkSeq x.1) 0 0 0 (replySlice s x.1)
    let phase := tget s.mp.phase true (ringKey f r) != decide (ringLen s f r ≤ k)
    .hostWrite f (ffld s f (.ringCq r) 63 12 * 4096 + 32 * (k % ringLen s f r)) (setNth b 2 (nthD b 2 0 ||| (if phase then 0x80 else 0))) ::
      (if pkIrq x.1 then [.interrupt f r.val] else [])

/-- Packet t is complete: it is no longer among those taken, and its FINAL reply has been posted (R385, R388, R389). -/
def Answered (s u : State) (t : Taken) (st : Status) (form done total ev : Nat) : Prop :=
  u.mp.taken = s.mp.taken.filter (fun y => y.id != t.id) ∧
    Posted s u t.f t.ring (mkReply (stCode st) 0 form (pkSeq t.bytes) done total ev (pkSlice t.bytes))
      (if pkIrq t.bytes then some t.ring.val else none)

/-- Packet t has begun its work and is not complete. -/
def Underway (s u : State) (t : Taken) : Prop :=
  u.mp.taken = s.mp.taken.map fun y => if y.id == t.id then { t with begun := true } else y

/-! Resets. -/

/-- The device after a reset with a cause, in boot phase ph: every register but LAST_CAUSE and the clock's locks at its reset value, every
unit, memory and the event log empty; the queue, the counters in MRAM, the keys drawn, the cables and the sideband ports stay (R434). -/
structure AfterReset (s u : State) (ph : BootPhase) (cause : Nat) : Prop where
  regs : ∀ r, r ≠ .hubReset → r ≠ .clkState → rget u r = regReset r
  fregs : ∀ f r, fget u f r = regReset r
  cause : rfld u .hubReset 63 56 = cause
  memory : u.mem = [] ∧ u.poison = [] ∧ u.feb = [] ∧ u.syncw = [] ∧ u.cached = [] ∧ u.dirty = [] ∧ u.held = []
  units : u.cores = [] ∧ u.buu = [] ∧ u.fab = [] ∧ u.feOps = [] ∧ u.mp = mpReset ∧ u.log.inFlight = [] ∧ u.log.rings = [] ∧ u.log.fatals = []
  keys : ∀ n, (getSec u n).key = [] ∧ (getSec u n).kem = none
  phase : u.fw.phase = ph
  counts : u.bootCount = s.bootCount ∧ u.fw.mram.mono = s.fw.mram.mono ∧ u.fw.mram.actCount = s.fw.mram.actCount ∧
    u.fw.mram.part = s.fw.mram.part ∧ u.fw.mram.retire = s.fw.mram.retire
  outside : u.pending = s.pending ∧ u.side = s.side ∧ s.out <:+ u.out ∧ u.tb.cable = s.tb.cable

end Sys2Proof.Machine
end

