-- ==== Sys2Proof/Certificates/Slice0/Obligations.lean ====
section
/-!
DEFINITION. The statements for the provers.
-/

open Sys2Proof Sys2Proof.Machine

/-- Where FE_OP_REACH_WORD brings one FILL or DRAIN of an engine, a stream, a controller or an exchange to its word, no operation waits
there, nothing waits to follow in the core of an engine that issued it, and no error is recorded in memory: a FILL of an empty word
stores its value and sets the word full; a FILL of a full word changes neither value nor state, and the word's owner counts the
overflow, sets its flag and logs ST_FE_OVERFLOW; a DRAIN leaves the word empty with its value as it was. The operation has left the
list, and a remote one of its engine to the same word that follows it comes in a later a-cycle; every other word keeps its value. -/
def Obligations.FullEmptyWordsTakeFillsAndDrains : Prop :=
  ∀ (s : State) (a : W44) (loc : Bool) (rem : List Nat) (op : FeOp) (x : FeCell),
    ReachesAlone s a.toNat loc rem op x → s.ecc = [] → (∀ f, op.src ≠ .host f) → (∀ c e, op.src = .eng c e → StillCore s c) →
    let left := (fePush { s with now := reachTime s op, feOps := s.feOps.filter fun y => y.id != op.id } op).feOps
    (op.kind = .drain → ∃ u, exec (.feOpReachWord a loc rem) s = .next u ∧ u.now = reachTime s op ∧ feFull u x = false ∧
      (∀ b, feValue u b = feValue s b) ∧ u.feOps = left ∧ u.cores = s.cores ∧ u.regs = s.regs) ∧
    (op.kind = .fill → feFull s x = false → ∃ u, exec (.feOpReachWord a loc rem) s = .next u ∧ u.now = reachTime s op ∧
      feFull u x = true ∧ feValue u op.addr = op.val ∧ (∀ b, b / 8 ≠ op.addr / 8 → feValue u b = feValue s b) ∧
      u.feOps = left ∧ u.cores = s.cores ∧ u.regs = s.regs) ∧
    (op.kind = .fill → feFull s x = true → ∃ u e, exec (.feOpReachWord a loc rem) s = .next u ∧ feFull u x = true ∧ SameMemory s u ∧
      u.feOps = left ∧ u.cores = s.cores ∧
      u.log.inFlight = s.log.inFlight ++ [e] ∧ e.cause = stCode .feOverflow ∧ e.cls = clsNone ∧
      (∀ c n, x = .unit c n → rfld u (.syncStat c) 63 48 = min 65535 (rfld s (.syncStat c) 63 48 + 1) ∧ rbit u (.syncStat c) 1 = true) ∧
      (∀ n k, x = .line n k → rfld u (.sectSync n) 63 48 = min 65535 (rfld s (.sectSync n) 63 48 + 1) ∧ rbit u (.sectSync n) 0 = true))

/-- Where FE_OP_REACH_WORD brings one TAKE, PEEK or JMPT of an engine to its word, no operation waits there and no error is recorded in
memory: at an empty word the operation waits, a local one from the a-cycle at which it was due, and nothing else changes, but that a
remote operation of its engine to the same word that follows it comes in a later a-cycle. At a full word it reads the 8 bytes; TAKE and
JMPT leave the word empty, PEEK leaves it full, and so does a used value that is poisoned. A remote operation then carries the value and
its poison back. A local one with a poisoned used value aborts its engine with ST_SYNC_POISON: nothing is written and nothing jumps.
Else it completes: XREG of pipe 0, where named, receives the value with a clear flag now, and the engine moves past the instruction, one
slot before its next dispatch, or jumps to bits 10 to 0 of the value, three slots before it. -/
def Obligations.FullEmptyWordsAnswerTakePeekJmpt : Prop :=
  ∀ (s : State) (a : W44) (loc : Bool) (rem : List Nat) (op : FeOp) (x : FeCell) (c : CoreId) (e : EngId),
    ReachesAlone s a.toNat loc rem op x → s.ecc = [] → op.src = .eng c e → (op.kind = .take ∨ op.kind = .peek ∨ op.kind = .jmpt) →
    let t := reachTime s op
    let v := feValue s op.addr
    (feFull s x = false → ∃ u, exec (.feOpReachWord a loc rem) s = .next u ∧
      u = fePush { s with now := t, feOps := s.feOps.map fun y => if y.id == op.id then { y with waiting := true, since := if op.isLocal then op.due else t } else y } op) ∧
    (feFull s x = true → op.isLocal = false →
      let p := feUses op && unitPoison s (op.addr / 64)
      ∃ u, exec (.feOpReachWord a loc rem) s = .next u ∧ feFull u x = (p || op.kind == .peek) ∧ (∀ b, feValue u b = feValue s b) ∧
        u.cores = s.cores ∧ u.regs = s.regs ∧
        u.feOps = (fePush { s with now := t, feOps := s.feOps.map fun y =>
          if y.id == op.id then { y with waiting := false, got := some (v, p) } else y } op).feOps) ∧
    (feFull s x = true → (feUses op && unitPoison s (op.addr / 64)) = true → op.isLocal = true → IdleEngine s c e [op] →
      ∃ u, exec (.feOpReachWord a loc rem) s = .next u ∧ u.now = t ∧ Faulted s u c e op.idx .syncPoison) ∧
    (feFull s x = true → (feUses op && unitPoison s (op.addr / 64)) = false → op.isLocal = true → StillCore s c →
      (getEng s c e).mode = .running → (getEng s c e).step = .off →
      ∃ u, exec (.feOpReachWord a loc rem) s = .next u ∧ u.now = t ∧ feFull u x = (op.kind == .peek) ∧ (∀ b, feValue u b = feValue s b) ∧
        u.feOps = s.feOps.filter (fun y => y.id != op.id) ∧ u.regs = s.regs ∧
        getEng u c e = afterWait (getEng s c e) op.kind v t (slotLen s c e) ∧
        (∀ r, op.xr = some r → (getCore u c).xres = (getCore s c).xres ++ [⟨0, r, ⟨v, false⟩, t, t, (getCore s c).resSeq⟩]) ∧
        (op.xr = none → (getCore u c).xres = (getCore s c).xres) ∧ (∀ y : EngId, y ≠ e → getEng u c y = getEng s c y) ∧
        (∀ y : CoreId, y ≠ c → getCore u y = getCore s y))

/-- Where a remote operation of engine e has been satisfied and its value is on its way: a value that is used and poisoned aborts the engine
with ST_SYNC_POISON and writes and jumps nothing. With one that is not, REMOTE_VALUE_RETURN completes it in a core where nothing waits
to follow: the operation leaves the list, XREG of pipe 0, where named, receives the value with a clear flag now, and the running engine
moves past the instruction or, for JMPT, jumps. Memory, full/empty bits, the other engines and the other cores are unchanged. Where a
running engine waits in a synchronization operation that no remote word has satisfied and that has not yet timed out, and LIMIT of its
timeout register is not 0, SYNC_WAIT_TIMEOUT moves time to LIMIT × 1,024 a-cycles after the wait began, adds 1 to the TIMEOUT count of
SYNC_STAT, sets its flag and logs ST_SYNC_TIMEOUT with the instruction. Under ACTION LOG the engine waits on, and the wait will not be
reported again; under ACTION HALT the wait is withdrawn and the engine no longer runs. Memory is unchanged. -/
def Obligations.WaitingOperationsCompleteOrTimeOut : Prop :=
  (∀ (s : State) (c : CoreId) (e : EngId) (op : FeOp) (v : W64),
    (IdleEngine s c e [op] → op.got = some (v, true) → op.kind ≠ .fill → op.kind ≠ .drain →
      ∃ u, exec (.remoteValueReturn c e) s = .next u ∧ u.now = s.now ∧ Faulted s u c e op.idx .syncPoison) ∧
    (s.feOps.find? (fun y => feOfEng c e y && y.got.isSome) = some op → op.got = some (v, false) → StillCore s c →
    (getEng s c e).mode = .running → (getEng s c e).step = .off →
    ∃ u, exec (.remoteValueReturn c e) s = .next u ∧ u.now = s.now ∧ SameMemory s u ∧ u.regs = s.regs ∧
      u.feOps = s.feOps.filter (fun y => y.id != op.id) ∧ getEng u c e = afterWait (getEng s c e) op.kind v s.now (slotLen s c e) ∧
      (∀ r, op.xr = some r → (getCore u c).xres = (getCore s c).xres ++ [⟨0, r, ⟨v, false⟩, s.now, s.now, (getCore s c).resSeq⟩]) ∧
      (op.xr = none → (getCore u c).xres = (getCore s c).xres) ∧ (∀ y : EngId, y ≠ e → getEng u c y = getEng s c y) ∧
      (∀ y : CoreId, y ≠ c → getCore u y = getCore s y))) ∧
  (∀ (s : State) (c : CoreId) (e : EngId) (op start : Nat),
    (getEng s c e).wait = .sync op start false → (getEng s c e).mode = .running → rfld s (.eng c e .tmo) 15 0 ≠ 0 → StillCore s c →
    s.feOps.any (fun y => y.id == op && y.got.isSome) = false →
    ∃ u ev, exec (.syncWaitTimeout c e) s = .next u ∧ u.now = max s.now (start + rfld s (.eng c e .tmo) 15 0 * 1024) ∧
      rfld u (.syncStat c) 31 16 = min 65535 (rfld s (.syncStat c) 31 16 + 1) ∧ rbit u (.syncStat c) 0 = true ∧
      u.log.inFlight = s.log.inFlight ++ [ev] ∧ ev.cause = stCode .syncTimeout ∧ ev.cls = clsNone ∧ ev.inst = c.val ∧ ev.sub = engIdx e ∧
      SameMemory s u ∧ (∀ y : CoreId, y ≠ c → getCore u y = getCore s y) ∧
      (rfld s (.eng c e .tmo) 17 16 = 0 → u.cores = (putEng s c e { getEng s c e with wait := .sync op start true }).cores ∧ u.feOps = s.feOps) ∧
      (rfld s (.eng c e .tmo) 17 16 = 1 → (getEng u c e).mode ≠ .running ∧ (getEng u c e).pc = (getEng s c e).pc ∧
        (getEng u c e).wait = .none ∧ u.feOps = s.feOps.filter fun y => y.id != op))

/-- Where SEM_OP_REACH_COUNTER brings one operation to counter n of a core in which nothing waits to follow and no operation waits on n:
SEM.ADD makes the counter the sum and SEM.SUB the difference, modulo 65,536 when its bank is in mode WRAP; in mode SATURATE a sum above
65,535 leaves 65,535 with the overflow flag, the count and ST_SEM_OVERFLOW, a difference below 0 leaves 0 with the underflow flag, the
count and ST_SEM_UNDERFLOW. SEM.WAIT with N at most the counter completes: its running engine moves past it; else the engine goes on
waiting. Every other counter keeps its value and memory is unchanged. -/
def Obligations.SemaphoreOperationsReachTheirCounter : Prop :=
  ∀ (s : State) (c : CoreId) (n : Fin 256) (op : SemOp),
    (getCore s c).semOps = [op] → op.waiting = false → op.ctr = n.val → StillCore s c →
    (getEng s c op.eng).mode = .running → (getEng s c op.eng).step = .off →
    let t := max s.now op.due
    let sum := semGet s c n.val + op.n
    (op.kind = 0 → ∃ u, exec (.semOpReachCounter c n) s = .next u ∧ u.now = t ∧ SameMemory s u ∧ (getCore u c).semOps = [] ∧
      (∀ k, k ≠ n.val → semGet u c k = semGet s c k) ∧
      (if semWrap { s with now := t } c n.val then semGet u c n.val = sum % 65536 ∧ u.log = s.log
       else if 65535 < sum then semGet u c n.val = 65535 ∧ rbit u (.syncStat c) 2 = true ∧
         rfld u (.syncStat c) 47 32 = min 65535 (rfld s (.syncStat c) 47 32 + 1) ∧
         ∃ e, u.log.inFlight = s.log.inFlight ++ [e] ∧ e.cause = stCode .semOverflow
       else semGet u c n.val = sum ∧ u.log = s.log)) ∧
    (op.kind = 1 → ∃ u, exec (.semOpReachCounter c n) s = .next u ∧ u.now = t ∧ SameMemory s u ∧ (getCore u c).semOps = [] ∧
      (∀ k, k ≠ n.val → semGet u c k = semGet s c k) ∧
      (if semWrap { s with now := t } c n.val then semGet u c n.val = (((semGet s c n.val : Int) - op.n) % 65536).toNat ∧ u.log = s.log
       else if semGet s c n.val < op.n then semGet u c n.val = 0 ∧ rbit u (.syncStat c) 3 = true ∧
         rfld u (.syncStat c) 47 32 = min 65535 (rfld s (.syncStat c) 47 32 + 1) ∧
         ∃ e, u.log.inFlight = s.log.inFlight ++ [e] ∧ e.cause = stCode .semUnderflow
       else semGet u c n.val = min 65535 (semGet s c n.val - op.n) ∧ (semGet s c n.val ≤ 65535 → u.log = s.log))) ∧
    (op.kind = 2 → ∃ u, exec (.semOpReachCounter c n) s = .next u ∧ u.now = t ∧ SameMemory s u ∧ u.log = s.log ∧
      (∀ k, semGet u c k = semGet s c k) ∧
      (if op.n ≤ semGet s c n.val then (getCore u c).semOps = [] ∧
         getEng u c op.eng = { getEng s c op.eng with queue := (getEng s c op.eng).queue.drop 1, pc := (getEng s c op.eng).pc + 1,
                                                      nextAt := t + slotLen s c op.eng, wait := .none }
       else (getCore u c).semOps = [{ op with waiting := true }] ∧ getEng u c op.eng = getEng s c op.eng))

/-- In a core where nothing waits to follow, a control operation at the head of an engine that passes the checks completes at its a-cycle t.
NOP: the PC moves on and the next instruction may dispatch one slot later. JMP: the PC becomes TARGET, the queue empties, and the next
dispatch is 3 slots later. BANKSW: with no accepted write to the other bank outstanding, the other bank becomes active at TARGET in the
same way; else the other bank is marked closing and the engine waits, past the BANKSW, while it goes on fetching from the old bank.
ENG.HALT: the PC stands at the next instruction, the queue holds what has been fetched by t, and the engine is HALTED when nothing of it
remains dispatched, else DRAINING. Nothing else in the state changes. For an engine that waits on a BANKSW whose other bank is closing
with no accepted write to it outstanding, in a core where nothing waits to follow, BANKSW_BANK_CLOSED makes the other bank active: the
PC becomes the BANKSW's TARGET, the queue is empty, no bank is closing, and the engine dispatches again no earlier than the BANKSW's
three slots and the next a-cycle. Nothing else changes. -/
def Obligations.ControlOperationsComplete : Prop :=
  (∀ (s : State) (c : CoreId) (e : EngId) (w : W128) (t : Nat) (d : LoopDesc) (g : Engine),
    StillCore s c → Executes s c e w t d g →
    let q := slotLen s c e
    let past : Engine := { g with queue := g.queue.drop 1, pc := g.pc + 1, nextAt := t + q, wait := .none }
    (opc w = 0x00 → ∃ u, exec (.nop c e) s = .next u ∧ EngineOnly s u c e t past ∧ u.feOps = s.feOps ∧ (getCore u c).semOps = (getCore s c).semOps) ∧
    (opc w = 0x01 → ∃ u, exec (.jmp c e) s = .next u ∧
      EngineOnly s u c e t { g with queue := [], pc := targetOf w, nextAt := t + 3 * q, fetchAt := t + 3 * q - 1, wait := .none } ∧
      u.feOps = s.feOps ∧ (getCore u c).semOps = (getCore s c).semOps) ∧
    (opc w = 0x03 → ∃ u, exec (.banksw c e) s = .next u ∧
      EngineOnly s u c e t (if bankPending (getCore s c) e (!g.bank)
        then { past with nextAt := t + 3 * q, closing := some (targetOf w) }
        else { g with bank := !g.bank, queue := [], pc := targetOf w, closing := none, nextAt := t + 3 * q, fetchAt := t + 3 * q - 1,
                      wait := .none }) ∧
      u.feOps = s.feOps ∧ (getCore u c).semOps = (getCore s c).semOps) ∧
    (opc w = 0x05 → ∃ u, exec (.engHalt c e) s = .next u ∧
      EngineOnly s u c e t { catchUp past t with mode := if quiet { s with now := t } c e then .halted else .draining } ∧
      u.feOps = s.feOps ∧ (getCore u c).semOps = (getCore s c).semOps)) ∧
  (∀ (s : State) (c : CoreId) (e : EngId) (target : BitVec 11),
    StillCore s c → (getEng s c e).closing = some target → bankPending (getCore s c) e (!(getEng s c e).bank) = false →
    let g := getEng s c e
    let next := max g.nextAt (s.now + 1)
    ∃ u, exec (.bankswBankClosed c e) s = .next u ∧ u.feOps = s.feOps ∧ (getCore u c).semOps = (getCore s c).semOps ∧
      EngineOnly s u c e s.now { g with bank := !g.bank, queue := [], pc := target, closing := none, wait := .none, nextAt := next,
                                        fetchAt := next - 1 })

/-- ENG.LDLOAD at the head of an engine of a core with nothing dispatched and no error recorded in memory, passing its checks, completes its
dispatch at its a-cycle t: the engine dispatches next one slot later, its record ends 4 + COUNT + 1 slots after t, and entry FIRST + n
is due 5 + n slots after t with the 128 bytes at SRC + 128 n and their poison, among the entries still due of an earlier load in the
order of their a-cycles. All of memory is unchanged, and the rest as Ran says. -/
def Obligations.LdloadCopiesEntries : Prop :=
  ∀ (s : State) (c : CoreId) (e : EngId) (w : W128) (t : Nat) (d : LoopDesc) (g : Engine),
    CalmCore s c → s.ecc = [] → Executes s c e w t d g → opc w = 0x04 →
    let q := slotLen s c e
    ∃ u, exec (.engLdload c e) s = .next u ∧ Ran s u c e w t d g (t + q) (t + (4 + lddCount w) * q) ∧
      (getEng u c e).ldq = ((List.range (lddCount w)).map (fun n =>
        ⟨lddFirst w + n, memBytes s (padAddr c (lddSrc w + 128 * n : Nat)) 128, memPoison s (padAddr c (lddSrc w + 128 * n : Nat)) 128,
         t + (5 + n) * q⟩)).foldl ldInsert (getEng s c e).ldq ∧
      (getEng u c e).ldf = (getEng s c e).ldf ∧ (getCore u c).vres = (getCore s c).vres ∧ (getCore u c).xres = (getCore s c).xres ∧
      (getCore u c).stores = (getCore s c).stores

/-- In a core where nothing waits to follow, a full/empty operation at the head of an engine that passes the checks completes its dispatch
at its a-cycle t. One operation is added to those in flight: its kind, its word (ADDR in the core's own scratchpad when LOCAL, else the
device address), the value of XREG of pipe 0 or IMM, XREG as its destination where XR is set and it is no FILL, and, when local, its
arrival 2 slots later. FILL and DRAIN are past at once and the next instruction may dispatch one slot later; TAKE, PEEK and JMPT stay at
the head, which waits for them. Nothing else changes: no word, no full/empty bit and no byte of memory; but a FILL that reads XREG while
a result for it is in flight, under LATCHECK LOG or HALT, adds 1 to LATE_READ and logs ST_LATE_READ, and under HALT its engine drains
with what it has fetched by t. A FILL whose XREG is poisoned aborts its engine with ST_REG_POISON and sends nothing. -/
def Obligations.FullEmptyOperationsDispatch : Prop :=
  (∀ (s : State) (c : CoreId) (e : EngId) (w : W128) (t : Nat) (d : LoopDesc) (g : Engine),
    AtHeadAlone s c e w t d g → opc w = 0x08 → commonCheck e w = none → feXr w = true → (xregAt (getCore s c) t 0 (feXreg w)).p = true →
    ∃ u, exec (.fill c e) s = .next u ∧ u.now = t ∧ Faulted s u c e g.pc .regPoison) ∧
  (∀ x ∈ ([(.fill, 0x08, .fill), (.take, 0x09, .take), (.peek, 0x0A, .peek), (.drain, 0x0B, .drain), (.jmpt, 0x02, .jmpt)] :
      List ((CoreId → EngId → Instr) × Nat × FeKind)),
    ∀ (s : State) (c : CoreId) (e : EngId) (w : W128) (t : Nat) (d : LoopDesc) (g : Engine),
      StillCore s c → Executes s c e w t d g → opc w = x.2.1 →
      let q := slotLen s c e
      let past : Engine := { g with queue := g.queue.drop 1, pc := g.pc + 1, nextAt := t + q, wait := .none }
      let late := x.2.2 = .fill ∧ feXr w = true ∧ xInFlight (getCore s c) t 0 (feXreg w) = true ∧ latcheck s c e ≠ 0
      ∃ u op, exec (x.1 c e) s = .next u ∧ u.feOps = s.feOps ++ [op] ∧ u.nextOp = s.nextOp + 1 ∧
        (getCore u c).semOps = (getCore s c).semOps ∧
        (¬ late → EngineOnly s u c e t (if x.2.2 = .fill ∨ x.2.2 = .drain then past else { g with wait := .sync s.nextOp t false })) ∧
        (late → getEng u c e = (if latcheck s c e = 2 then { catchUp past t with mode := .draining } else past) ∧ u.mem = s.mem ∧ u.feb = s.feb ∧
          rfld u (.eng c e .stat) 47 32 = min 65535 (rfld s (.eng c e .stat) 47 32 + 1) ∧ LogsExactly s u [stCode .lateRead]) ∧
        op.id = s.nextOp ∧ op.src = .eng c e ∧ op.kind = x.2.2 ∧ op.isLocal = feLocal w ∧
        op.addr = (if feLocal w then padBase c + feAddr w % 0x400000 else feAddr w) ∧
        op.val = (if feXr w then (xregAt (getCore s c) t 0 (feXreg w)).v else BitVec.ofNat 64 (feImm w)) ∧
        op.xr = (if feXr w ∧ x.2.2 ≠ .fill then some (feXreg w) else none) ∧ op.due = t + 2 * q ∧ op.waiting = false ∧ op.got = none)

/-- In a core where nothing waits to follow, SEM.ADD, SEM.SUB or SEM.WAIT at the head of an engine that passes the checks completes its
dispatch at its a-cycle t: one operation on counter CTR with N is in flight and reaches the counter 2 slots later. ADD and SUB are past
at once and the next instruction may dispatch one slot later; WAIT stays at the head, which waits for it. No counter and nothing else
changes. -/
def Obligations.SemaphoreOperationsDispatch : Prop :=
  ∀ x ∈ ([(.semAdd, 0x0C, 0), (.semSub, 0x0D, 1), (.semWait, 0x0E, 2)] : List ((CoreId → EngId → Instr) × Nat × Nat)),
    ∀ (s : State) (c : CoreId) (e : EngId) (w : W128) (t : Nat) (d : LoopDesc) (g : Engine),
      StillCore s c → Executes s c e w t d g → opc w = x.2.1 →
      let q := slotLen s c e
      ∃ u op, exec (x.1 c e) s = .next u ∧ (getCore u c).semOps = (getCore s c).semOps ++ [op] ∧ u.feOps = s.feOps ∧
        u.nextOp = s.nextOp + 1 ∧
        EngineOnly s u c e t (if x.2.2 = 2 then { g with wait := .sync s.nextOp t false }
          else { g with queue := g.queue.drop 1, pc := g.pc + 1, nextAt := t + q, wait := .none }) ∧
        op.id = s.nextOp ∧ op.eng = e ∧ op.kind = x.2.2 ∧ op.ctr = semCtr w ∧ op.n = semN w ∧ op.due = t + 2 * q ∧ op.waiting = false

/-- For ADD, SUB, MUL, MAX, MIN, the four comparisons, AND, OR, XOR, SHL, SHR, SAR and DIV of the VXE: in a core with nothing dispatched, an
instruction at the head that passes the checks completes its dispatch at its a-cycle t. Each iteration j of its loop nest issues at t +
j slots, reads VA and VB as they stand then, and puts VD = VA op VB lane by lane in flight, with the latency of the opcode, a poisoned
source lane poisoning the result lane. The engine is past the instruction and dispatches next after the last iteration; one record keeps
the claims; memory, every other register, engine, core and unit is unchanged, and with LATCHECK OFF so are all registers and the event
log. -/
def Obligations.VxeTwoSourceOperationsComplete : Prop :=
  ∀ x ∈ ([(.vxeAdd, 0x40, fun _ => 4, fun _ _ w a b _ => [(vVd w, map2 (laneAdd (vTy w)) a b)]),
      (.vxeSub, 0x41, fun _ => 4, fun _ _ w a b _ => [(vVd w, map2 (laneSub (vTy w)) a b)]),
      (.vxeMul, 0x42, fun _ => 5, fun _ _ w a b _ => [(vVd w, map2 (laneMul (vTy w)) a b)]),
      (.vxeMax, 0x44, fun _ => 3, fun _ _ w a b _ => [(vVd w, map2 (laneMax (vTy w)) a b)]),
      (.vxeMin, 0x45, fun _ => 3, fun _ _ w a b _ => [(vVd w, map2 (laneMin (vTy w)) a b)]),
      (.vxeCmplt, 0x48, fun _ => 3, fun _ _ w a b _ => [(vVd w, map2 (laneCmpLt (vTy w)) a b)]),
      (.vxeCmple, 0x49, fun _ => 3, fun _ _ w a b _ => [(vVd w, map2 (laneCmpLe (vTy w)) a b)]),
      (.vxeCmpeq, 0x4A, fun _ => 3, fun _ _ w a b _ => [(vVd w, map2 (laneCmpEq (vTy w)) a b)]),
      (.vxeCmpne, 0x4B, fun _ => 3, fun _ _ w a b _ => [(vVd w, map2 (laneCmpNe (vTy w)) a b)]),
      (.vxeAnd, 0x50, fun _ => 2, fun _ _ w a b _ => [(vVd w, map2 (fun x y => x &&& y) a b)]),
      (.vxeOr, 0x51, fun _ => 2, fun _ _ w a b _ => [(vVd w, map2 (fun x y => x ||| y) a b)]),
      (.vxeXor, 0x52, fun _ => 2, fun _ _ w a b _ => [(vVd w, map2 (fun x y => x ^^^ y) a b)]),
      (.vxeShl, 0x53, fun _ => 2, fun _ _ w a b _ => [(vVd w, map2 (fun x y => x <<< (y.toNat % 32)) a b)]),
      (.vxeShr, 0x54, fun _ => 2, fun _ _ w a b _ => [(vVd w, map2 (fun x y => x >>> (y.toNat % 32)) a b)]),
      (.vxeSar, 0x55, fun _ => 2, fun _ _ w a b _ => [(vVd w, map2 (fun x y => x.sshiftRight (y.toNat % 32)) a b)]),
      (.vxeDiv, 0x59, fun _ => 14, fun _ _ w a b _ => [(vVd w, map2 (f32Div) a b)])] :
      List ((CoreId → Instr) × Nat × (W128 → Nat) × (List Byte → Bool → W128 → List Lane → List Lane → List Lane → List (Nat × List Lane)))),
    ∀ (s : State) (c : CoreId) (w : W128) (t : Nat) (d : LoopDesc) (g : Engine),
      CalmCore s c → Executes s c .vxe w t d g → opc w = x.2.1 →
      let q := slotLen s c .vxe
      ∃ u, exec (x.1 c) s = .next u ∧
        Ran s u c .vxe w t d g (max (t + q) (t + loopCount d * q)) (t + (loopCount d - 1) * q + x.2.2.1 w * q) ∧
        (getCore u c).vres = (vIssue (fun tab p => x.2.2.2 tab p w) w (x.2.2.1 w) q t (getCore s c) (loopCount d)).vres ∧
        (getCore u c).xres = (getCore s c).xres ∧ (getCore u c).stores = (getCore s c).stores

/-- For FMA, SEL, ABS, NEG, EXP, SQRT, TEVAL, CVT, UNPK, REDADD, REDMAX, REDMIN, POPC, PERM, MOVI and IOTA of the VXE, in the situation of
the two-source operations: each iteration puts in flight the lanes that the opcode makes of its sources (TEVAL of the table slot named,
poisoned with the slot; CVT with SC writes the scale bytes to VB as well), with the opcode's latency (one more with SC for UNPK, two
more for CVT), and the rest is unchanged in the same way. -/
def Obligations.VxeOtherRegisterOperationsComplete : Prop :=
  ∀ x ∈ ([(.vxeFma, 0x43, fun _ => 6, fun _ _ w a b v => [(vVd w, map3 (laneFma (vTy w)) a b v)]),
      (.vxeSel, 0x4C, fun _ => 3, fun _ _ w a b v => [(vVd w, map3 (laneSel (vTy w)) a b v)]),
      (.vxeAbs, 0x46, fun _ => 3, fun _ _ w a _ _ => [(vVd w, map1 (laneAbs (vTy w)) a)]),
      (.vxeNeg, 0x47, fun _ => 3, fun _ _ w a _ _ => [(vVd w, map1 (laneNeg (vTy w)) a)]),
      (.vxeExp, 0x58, fun _ => 10, fun _ _ w a _ _ => [(vVd w, map1 expDev a)]),
      (.vxeSqrt, 0x5A, fun _ => 14, fun _ _ w a _ _ => [(vVd w, map1 f32Sqrt a)]),
      (.vxeTeval, 0x5B, fun _ => 8, fun tab p w a _ _ => [(vVd w, a.map fun y => ⟨teval tab y.v, y.p || p⟩)]),
      (.vxeCvt, 0x60, fun w => if vSc w then 7 else 5, fun _ _ w a _ _ => if vSc w then [(vVd w, (cvtScaled ((NumFmt.ofCode (vFmtCode w)).getD .f32) (vSat w) a).1), (vVb w, (cvtScaled ((NumFmt.ofCode (vFmtCode w)).getD .f32) (vSat w) a).2)]
        else [(vVd w, cvtPlain (vTy w) ((NumFmt.ofCode (vFmtCode w)).getD .f32) (vSat w) (vRtz w) a)]),
      (.vxeUnpk, 0x61, fun w => if vSc w then 6 else 5, fun _ _ w a b _ => [(vVd w, unpkLanes ((NumFmt.ofCode (vFmtCode w)).getD .f32) (vTy w) (vSc w) a b)]),
      (.vxeRedadd, 0x64, fun _ => 12, fun _ _ w a _ _ => [(vVd w, redLanes (laneAdd (vTy w)) a)]),
      (.vxeRedmax, 0x65, fun _ => 12, fun _ _ w a _ _ => [(vVd w, redLanes (laneMax (vTy w)) a)]),
      (.vxeRedmin, 0x66, fun _ => 12, fun _ _ w a _ _ => [(vVd w, redLanes (laneMin (vTy w)) a)]),
      (.vxePopc, 0x67, fun _ => 12, fun _ _ w a _ _ => [(vVd w, List.replicate 1024 ⟨BitVec.ofNat 32 ((a.filter fun y => y.v != 0).length), a.any Lane.p⟩)]),
      (.vxePerm, 0x68, fun _ => 8, fun _ _ w a b _ => [(vVd w, permLanes a b)]),
      (.vxeMovi, 0x6C, fun _ => 2, fun _ _ w _ _ _ => [(vVd w, List.replicate 1024 ⟨vImm w, false⟩)]),
      (.vxeIota, 0x6D, fun _ => 2, fun _ _ w _ _ _ => [(vVd w, (List.range 1024).map fun n => ⟨BitVec.ofNat 32 n + vImm w, false⟩)])] :
      List ((CoreId → Instr) × Nat × (W128 → Nat) × (List Byte → Bool → W128 → List Lane → List Lane → List Lane → List (Nat × List Lane)))),
    ∀ (s : State) (c : CoreId) (w : W128) (t : Nat) (d : LoopDesc) (g : Engine),
      CalmCore s c → Executes s c .vxe w t d g → opc w = x.2.1 →
      let q := slotLen s c .vxe
      ∃ u, exec (x.1 c) s = .next u ∧
        Ran s u c .vxe w t d g (max (t + q) (t + loopCount d * q)) (t + (loopCount d - 1) * q + x.2.2.1 w * q) ∧
        (getCore u c).vres = (vIssue (fun tab p => x.2.2.2 tab p w) w (x.2.2.1 w) q t (getCore s c) (loopCount d)).vres ∧
        (getCore u c).xres = (getCore s c).xres ∧ (getCore u c).stores = (getCore s c).stores

/-- In a core with nothing dispatched and with no error recorded in memory, VXE.LD and VXE.ST at the head that pass the checks complete
their dispatch at a-cycle t. Iteration j of VXE.LD puts in flight, 8 slots after its issue, VD with the 4,096 bytes at BASE plus the
offset of stream 0, each lane poisoned as its 64-byte unit is; iteration j of VXE.ST issues a store of VA as it stands at its issue,
4,096 bytes with the poison of 16 lanes for each unit, which takes effect 4 slots later. All of memory is unchanged at dispatch, and the
rest as Ran says. The model's own choice: every iteration of a VXE.LD reads memory as it stands at its dispatch, while R209 dates each
read in the a-cycle after (log 15). -/
def Obligations.VxeLoadStoreComplete : Prop :=
  ∀ (s : State) (c : CoreId) (w : W128) (t : Nat) (d : LoopDesc) (g : Engine),
    CalmCore s c → s.ecc = [] → Executes s c .vxe w t d g →
    let q := slotLen s c .vxe
    let at_ (j : Nat) : Int := (vBase w : Int) + loopOff d 0 j
    (opc w = 0x70 →
      ∃ u, exec (.vxeLd c) s = .next u ∧
        Ran s u c .vxe w t d g (max (t + q) (t + loopCount d * q)) (t + (loopCount d - 1) * q + 8 * q) ∧
        (getCore u c).vres = (getCore s c).vres ++ (List.range (loopCount d)).map (fun j =>
          ⟨vVd w, lanesOf (memBytes s (padAddr c (at_ j)) 4096) (fun l => unitPoison s (padAddr c (at_ j) / 64 + l / 16)),
           t + j * q, t + j * q + 8 * q, (getCore s c).resSeq + j⟩) ∧
        (getCore u c).stores = (getCore s c).stores) ∧
    (opc w = 0x71 →
      ∃ u, exec (.vxeSt c) s = .next u ∧
        Ran s u c .vxe w t d g (max (t + q) (t + loopCount d * q)) (t + (loopCount d - 1) * q + 4 * q) ∧
        (getCore u c).stores = (getCore s c).stores ++ (List.range (loopCount d)).map (fun j =>
          ⟨.vxe, (getCore s c).nextInst, (at_ j).toNat, laneBytes (vregAt (getCore s c) (t + j * q) (vVa w)),
           (List.range 64).map (fun n => (((vregAt (getCore s c) (t + j * q) (vVa w)).drop (16 * n)).take 16).any Lane.p),
           t + j * q, t + j * q + 4 * q, (getCore s c).resSeq + j⟩) ∧
        (getCore u c).vres = (getCore s c).vres)

/-- VXE.TLOAD at the head of a core with nothing dispatched, passing its checks with no error recorded in memory, begins at its a-cycle t,
keeps the VXE from dispatching for 33 slots per iteration, and its record holds the 4,160 bytes at BASE plus the offset of the last
iteration with their poison; the slot is still as it was. VXE_TLOAD_COMPLETE for such a record, begun and not finished, moves time to
the record's end, puts those bytes and that poison into the slot named, marks the record finished, and changes no other slot, no memory
and no other core. -/
def Obligations.VxeTloadCopiesItsTable : Prop :=
  (∀ (s : State) (c : CoreId) (w : W128) (t : Nat) (d : LoopDesc) (g : Engine),
    CalmCore s c → s.ecc = [] → Executes s c .vxe w t d g → opc w = 0x72 →
    let q := slotLen s c .vxe
    let a := padAddr c ((vBase w : Int) + loopOff d 0 (loopCount d - 1))
    ∃ u, exec (.vxeTload c) s = .next u ∧ SameMemory s u ∧ SameCores s u c .vxe ∧ SameUnits s u ∧
      (getEng u c .vxe).nextAt = max (t + q) (t + 33 * loopCount d * q) ∧ (getEng u c .vxe).pc = g.pc + 1 ∧
      ∃ i, (getCore u c).insts = [i] ∧ i.w = w ∧ i.begun = true ∧ i.finished = false ∧ i.doneAt = t + 33 * loopCount d * q ∧
        i.prog = .tload (vSlot w) (memBytes s a 4160) (memPoison s a 4160)) ∧
  (∀ (s : State) (c : CoreId) (i : Inst) (slot : Nat) (bs : List Byte) (p : Bool),
    (getCore s c).insts = [i] → i.eng = .vxe → i.begun = true → i.finished = false → i.prog = .tload slot bs p →
    ∃ u, exec (.vxeTloadComplete c) s = .next u ∧ u.now = max s.now i.doneAt ∧ SameMemory s u ∧ SameUnits s u ∧
      tget (getCore u c).slots slotReset slot = bs ∧ tget (getCore u c).slotP false slot = p ∧
      (∀ k, k ≠ slot → tget (getCore u c).slots slotReset k = tget (getCore s c).slots slotReset k ∧
        tget (getCore u c).slotP false k = tget (getCore s c).slotP false k) ∧
      (getCore u c).insts = [{ i with finished := true }] ∧ (getCore u c).vregs = (getCore s c).vregs ∧
      (∀ x : CoreId, x ≠ c → getCore u x = getCore s x))

/-- For the twenty register operations of the SXE (ADD to SLTU, ADDI, LI, POPC, CLZ, CTZ): in a core with nothing dispatched, an instruction
at the head that passes the checks completes its dispatch at its a-cycle t. Iteration j issues at t + j slots, reads XA and XB of each
pipe of PMASK as they stand then, and puts the operation's 64-bit result for XD of that pipe in flight with the opcode's latency (4 for
MUL, 1 for LI, else 2), poisoned when a source it reads is. No other pipe gets a result; memory, the vector results, and all else that
Ran names are unchanged. -/
def Obligations.SxeRegisterOperationsComplete : Prop :=
  ∀ x ∈ ([(.sxeAdd, 0x40, 2, fun _ a b => ⟨a.v + b.v, a.p || b.p⟩),
      (.sxeSub, 0x41, 2, fun _ a b => ⟨a.v - b.v, a.p || b.p⟩),
      (.sxeMul, 0x42, 4, fun _ a b => ⟨a.v * b.v, a.p || b.p⟩),
      (.sxeAnd, 0x43, 2, fun _ a b => ⟨a.v &&& b.v, a.p || b.p⟩),
      (.sxeOr, 0x44, 2, fun _ a b => ⟨a.v ||| b.v, a.p || b.p⟩),
      (.sxeXor, 0x45, 2, fun _ a b => ⟨a.v ^^^ b.v, a.p || b.p⟩),
      (.sxeShl, 0x46, 2, fun _ a b => ⟨a.v <<< (b.v.toNat % 64), a.p || b.p⟩),
      (.sxeShr, 0x47, 2, fun _ a b => ⟨a.v >>> (b.v.toNat % 64), a.p || b.p⟩),
      (.sxeSar, 0x48, 2, fun _ a b => ⟨a.v.sshiftRight (b.v.toNat % 64), a.p || b.p⟩),
      (.sxeMin, 0x49, 2, fun _ a b => ⟨if b.v.toInt < a.v.toInt then b.v else a.v, a.p || b.p⟩),
      (.sxeMax, 0x4A, 2, fun _ a b => ⟨if a.v.toInt < b.v.toInt then b.v else a.v, a.p || b.p⟩),
      (.sxeMinu, 0x4B, 2, fun _ a b => ⟨if b.v.toNat < a.v.toNat then b.v else a.v, a.p || b.p⟩),
      (.sxeMaxu, 0x4C, 2, fun _ a b => ⟨if a.v.toNat < b.v.toNat then b.v else a.v, a.p || b.p⟩),
      (.sxeSlt, 0x4D, 2, fun _ a b => ⟨if a.v.toInt < b.v.toInt then 1 else 0, a.p || b.p⟩),
      (.sxeSltu, 0x4E, 2, fun _ a b => ⟨if a.v.toNat < b.v.toNat then 1 else 0, a.p || b.p⟩),
      (.sxeAddi, 0x50, 2, fun w a _ => ⟨a.v + xImm w, a.p⟩),
      (.sxeLi, 0x51, 1, fun w _ _ => ⟨xImm w, false⟩),
      (.sxePopc, 0x52, 2, fun _ a _ => ⟨BitVec.ofNat 64 ((List.range 64).filter fun n => a.v.getLsbD n).length, a.p⟩),
      (.sxeClz, 0x53, 2, fun _ a _ => ⟨BitVec.ofNat 64 (64 - bitLen a.v.toNat), a.p⟩),
      (.sxeCtz, 0x54, 2, fun _ a _ => ⟨BitVec.ofNat 64 (((List.range 64).find? fun n => a.v.getLsbD n).getD 64), a.p⟩)] : List ((CoreId → Instr) × Nat × Nat × (W128 → XReg → XReg → XReg))),
    ∀ (s : State) (c : CoreId) (w : W128) (t : Nat) (d : LoopDesc) (g : Engine),
      CalmCore s c → Executes s c .sxe w t d g → opc w = x.2.1 →
      let q := slotLen s c .sxe
      ∃ u, exec (x.1 c) s = .next u ∧
        Ran s u c .sxe w t d g (max (t + q) (t + loopCount d * q)) (t + (loopCount d - 1) * q + x.2.2.1 * q) ∧
        (getCore u c).xres = (xIssue (x.2.2.2 w) w x.2.2.1 q t (getCore s c) (loopCount d)).xres ∧
        (getCore u c).vres = (getCore s c).vres ∧ (getCore u c).stores = (getCore s c).stores

/-- For BEQ, BNE, BLT, BGE, BLTU and BGEU: in a core with nothing dispatched and LATCHECK not HALT, a branch at the head that passes the
checks compares XA and XB of pipe 0 as they stand at its a-cycle t. Taken, the PC becomes TARGET, the queue empties, and the next
dispatch is 3 slots later; not taken, the PC moves to the next instruction, which may dispatch one slot later. The branch leaves no
record; no result, no store and no byte of memory changes, nor any other engine, core or unit. Where XA or XB of pipe 0 is poisoned the
branch aborts the SXE with ST_REG_POISON instead. -/
def Obligations.SxeBranchesComplete : Prop :=
  ∀ x ∈ ([(.sxeBeq, 0x60, fun a b => decide (a = b)),
      (.sxeBne, 0x61, fun a b => decide (a ≠ b)),
      (.sxeBlt, 0x62, fun a b => decide (a.toInt < b.toInt)),
      (.sxeBge, 0x63, fun a b => decide (b.toInt ≤ a.toInt)),
      (.sxeBltu, 0x64, fun a b => decide (a.toNat < b.toNat)),
      (.sxeBgeu, 0x65, fun a b => decide (b.toNat ≤ a.toNat))] : List ((CoreId → Instr) × Nat × (W64 → W64 → Bool))),
    ∀ (s : State) (c : CoreId) (w : W128) (t : Nat) (d : LoopDesc) (g : Engine),
      (AtHeadAlone s c .sxe w t d g → opc w = x.2.1 → sxeConsistent d w = true →
        ((xregAt (getCore s c) t 0 (xXa w)).p || (xregAt (getCore s c) t 0 (xXb w)).p) = true →
        ∃ u, exec (x.1 c) s = .next u ∧ u.now = t ∧ Faulted s u c .sxe g.pc .regPoison) ∧
      (CalmCore s c → latcheck s c .sxe ≠ 2 → Executes s c .sxe w t d g → opc w = x.2.1 →
      let q := slotLen s c .sxe
      let taken := x.2.2 (xregAt (getCore s c) t 0 (xXa w)).v (xregAt (getCore s c) t 0 (xXb w)).v
      ∃ u, exec (x.1 c) s = .next u ∧ u.now = t ∧ (getCore u c).insts = [] ∧
        (getEng u c .sxe).pc = (if taken then targetOf w else g.pc + 1) ∧
        (getEng u c .sxe).queue = (if taken then [] else g.queue.drop 1) ∧
        (getEng u c .sxe).nextAt = (if taken then t + 3 * q else t + q) ∧ (getEng u c .sxe).mode = .running ∧
        (getCore u c).xres = (getCore s c).xres ∧ (getCore u c).vres = (getCore s c).vres ∧ (getCore u c).stores = (getCore s c).stores ∧
        SameMemory s u ∧ SameUnits s u ∧ SameCores s u c .sxe)

/-- Where XA of any pipe of PMASK is poisoned, SXE.LD and SXE.ST abort the SXE with ST_REG_POISON. In a core with nothing dispatched and
with no error recorded in memory, those at the head that pass the checks complete their dispatch at a-cycle t. Each pipe p of PMASK
forms XA + IMM once, as XA stands at t. In iteration j it adds the offset of stream 0: SXE.LD puts in flight, 6 slots after the issue,
XD of pipe p with the little-endian 8 bytes there and their poison; SXE.ST issues a store of XB of pipe p as it stands at the issue,
with its poison, that takes effect 3 slots later. All of memory is unchanged at dispatch, and the rest as Ran says. The model's own
choice: an SXE.LD reads all its iterations as memory stands at its dispatch, while R209 dates each read in the a-cycle after (log 15). -/
def Obligations.SxeLoadStoreComplete : Prop :=
  ∀ (s : State) (c : CoreId) (w : W128) (t : Nat) (d : LoopDesc) (g : Engine),
    (AtHeadAlone s c .sxe w t d g → sxeConsistent d w = true → (pipesOf w).any (fun p => (xregAt (getCore s c) t p (xXa w)).p) = true →
      (opc w = 0x58 → ∃ u, exec (.sxeLd c) s = .next u ∧ u.now = t ∧ Faulted s u c .sxe g.pc .regPoison) ∧
      (opc w = 0x59 → ∃ u, exec (.sxeSt c) s = .next u ∧ u.now = t ∧ Faulted s u c .sxe g.pc .regPoison)) ∧
    (CalmCore s c → s.ecc = [] → Executes s c .sxe w t d g →
    let q := slotLen s c .sxe
    let n := (pipesOf w).length
    let at_ (p j : Nat) : Int := ((xregAt (getCore s c) t p (xXa w)).v + xImm w).toInt + loopOff d 0 j
    (opc w = 0x58 →
      ∃ u, exec (.sxeLd c) s = .next u ∧
        Ran s u c .sxe w t d g (max (t + q) (t + loopCount d * q)) (t + (loopCount d - 1) * q + 6 * q) ∧
        (getCore u c).xres = (getCore s c).xres ++ (List.range (loopCount d)).flatMap (fun j => (pipesOf w).mapIdx fun m p =>
          ⟨p, xXd w, ⟨BitVec.ofNat 64 (memNat s (padAddr c (at_ p j)) 8), memPoison s (padAddr c (at_ p j)) 8⟩,
           t + j * q, t + j * q + 6 * q, (getCore s c).resSeq + j * n + m⟩) ∧
        (getCore u c).stores = (getCore s c).stores) ∧
    (opc w = 0x59 →
      ∃ u, exec (.sxeSt c) s = .next u ∧
        Ran s u c .sxe w t d g (max (t + q) (t + loopCount d * q)) (t + (loopCount d - 1) * q + 3 * q) ∧
        (getCore u c).stores = (getCore s c).stores ++ (List.range (loopCount d)).flatMap (fun j => (pipesOf w).mapIdx fun m p =>
          ⟨.sxe, (getCore s c).nextInst, (at_ p j).toNat, leBytes 8 (xregAt (getCore s c) (t + j * q) p (xXb w)).v.toNat,
           [(xregAt (getCore s c) (t + j * q) p (xXb w)).p], t + j * q, t + j * q + 3 * q, (getCore s c).resSeq + j * n + m⟩) ∧
        (getCore u c).xres = (getCore s c).xres))

/-- SXE.IMCOPY at the head of a core with nothing dispatched and no error recorded in memory, passing its checks: where the target bank may
not be written, it puts ST_BANK_BUSY for XD of pipe 0 in flight with latency 2, logs one event, and no instruction memory changes; else
its record holds the COUNT + 1 words of the image at SRC and ends 2 slots plus one per 4 words later, when ST_OK for XD of pipe 0, in
flight from the dispatch on, lands. SXE_IMCOPY_COMPLETE of such a record writes the words from DST of the target bank on, clears their
marks, marks the record finished, and leaves the results in flight, every word of the engine's instruction memory outside that range,
and all of scratchpad and stack memory, as it was. -/
def Obligations.SxeImcopyReadsAndWritesItsImage : Prop :=
  (∀ (s : State) (c : CoreId) (w : W128) (t : Nat) (d : LoopDesc) (g : Engine),
    CalmCore s c → s.ecc = [] → Executes s c .sxe w t d g → opc w = 0x68 →
    let q := slotLen s c .sxe
    ∃ u i, exec (.sxeImcopy c) s = .next u ∧ u.now = t ∧ (getEng u c .sxe).pc = g.pc + 1 ∧ (getEng u c .sxe).nextAt = t + q ∧
      (getEng u c .sxe).imem = (getEng s c .sxe).imem ∧ SameMemory s u ∧ SameUnits s u ∧ SameCores s u c .sxe ∧
      (getCore u c).insts = [i] ∧ i.w = w ∧ i.begun = true ∧
      (if bankBusy (getEng s c (imcEng w)) (imcBank w) then
        i.finished = true ∧ i.doneAt = t + 2 * q ∧
        (getCore u c).xres = (getCore s c).xres ++ [⟨0, xXd w, ⟨BitVec.ofNat 64 (stCode .bankBusy), false⟩, t, t + 2 * q, (getCore s c).resSeq⟩] ∧
        ∃ e, u.log.inFlight = s.log.inFlight ++ [e] ∧ e.cause = stCode .bankBusy ∧ e.cls = clsNone
      else
        i.finished = false ∧ i.doneAt = t + (2 + ceilDiv (imcCount w) 4) * q ∧ u.log = s.log ∧
        (getCore u c).xres = (getCore s c).xres ++ [⟨0, xXd w, ⟨BitVec.ofNat 64 (stCode .ok), false⟩, t, i.doneAt, (getCore s c).resSeq⟩] ∧
        i.prog = .imcopy (imcEng w) (imcBank w) (imcDst w)
          (imageWords (memBytes s (padAddr c (imcSrc w)) (16 * imcCount w)) (imcCount w)) (getCore s c).resSeq)) ∧
  (∀ (s : State) (c : CoreId) (i : Inst) (te : EngId) (bank : Bool) (dst : Nat) (ws : List W128) (n : Nat),
    (getCore s c).insts = [i] → i.eng = .sxe → i.finished = false → i.prog = .imcopy te bank dst ws n →
    ∃ u, exec (.sxeImcopyComplete c) s = .next u ∧ u.now = max s.now i.doneAt ∧ SameMemory s u ∧ SameUnits s u ∧
      (∀ j, j < ws.length → tget (getEng u c te).imem 0 (imKey bank dst + j) = nthD ws j 0 ∧
        tget (getEng u c te).ubad false (imKey bank dst + j) = false) ∧
      (∀ k, k < imKey bank dst ∨ imKey bank dst + ws.length ≤ k →
        tget (getEng u c te).imem 0 k = tget (getEng s c te).imem 0 k ∧ tget (getEng u c te).ubad false k = tget (getEng s c te).ubad false k) ∧
      (getCore u c).xres = (getCore s c).xres ∧
      (getCore u c).insts = [{ i with finished := true }] ∧ SameCores s u c te)

/-- REGISTER_RESULT_LAND of the VXE or the SXE, where results are in flight and t is the earliest a-cycle in which one lands: time moves to
t, no result due by t remains in flight, every result due later stays as it was, and for every register (of every pipe, in the SXE) and
every a-cycle from t on, an instruction dispatched then reads the same lanes or value as before. So the register file holds the result
that landed latest, and of two that land in one a-cycle the one dispatched later. Memory, the other cores and all registers are
unchanged. -/
def Obligations.ResultsLandInTheirCycle : Prop :=
  ∀ (s : State) (c : CoreId) (t : Nat),
    (firstDue (getCore s c) .vxe = some t → ∃ u, exec (.registerResultLand c .vxe) s = .next u ∧ u.now = max s.now t ∧
      (getCore u c).vres = (getCore s c).vres.filter (fun r => decide (t < r.due)) ∧ (getCore s c).vres.any (fun r => r.due == t) = true ∧
      (∀ T reg, t ≤ T → vregAt (getCore u c) T reg = vregAt (getCore s c) T reg) ∧ (getCore u c).xregs = (getCore s c).xregs ∧
      (getCore u c).insts = (getCore s c).insts ∧ SameMemory s u ∧ u.regs = s.regs ∧ (∀ x : CoreId, x ≠ c → getCore u x = getCore s x)) ∧
    (firstDue (getCore s c) .sxe = some t → ∃ u, exec (.registerResultLand c .sxe) s = .next u ∧ u.now = max s.now t ∧
      (getCore u c).xres = (getCore s c).xres.filter (fun r => decide (t < r.due)) ∧ (getCore s c).xres.any (fun r => r.due == t) = true ∧
      (∀ T pipe reg, pipe < 8 → reg < 32 → (∀ r ∈ (getCore s c).xres, r.pipe < 8 ∧ r.reg < 32) → t ≤ T →
        xregAt (getCore u c) T pipe reg = xregAt (getCore s c) T pipe reg) ∧ (getCore u c).vregs = (getCore s c).vregs ∧
      (getCore u c).insts = (getCore s c).insts ∧ SameMemory s u ∧ u.regs = s.regs ∧ (∀ x : CoreId, x ≠ c → getCore u x = getCore s x))

/-- Where t is the first a-cycle in which stores of engine e of core c are due, all of those lie within the scratchpad, and no error is
recorded in memory, SCRATCHPAD_STORE_LAND moves time to t and lands every store due at t in the order of issue, so that of two at one
address the later stays (of the pipes of an SXE.ST, the higher-numbered): each byte is the last store's that covers it, and every byte
that none covers reads as before. The poison tag of a unit that a store covers becomes that of the store's data; one covered in part
keeps a set tag, and is set where the data is poisoned; every other tag stays. The stores have left the list and the others stay. No
register and no other core changes. -/
def Obligations.ScratchpadStoresLand : Prop :=
  ∀ (s : State) (c : CoreId) (e : EngId) (t : Nat),
    let now := (getCore s c).stores.filter fun y => y.eng == e && y.due == t
    now ≠ [] → (∀ y ∈ (getCore s c).stores, y.eng = e → t ≤ y.due) → s.ecc = [] → (∀ y ∈ now, y.off + y.bytes.length ≤ 0x400000) →
    ∃ u, exec (.scratchpadStoreLand c e) s = .next u ∧ u.now = max s.now t ∧
      (∀ a, memByte u a = now.foldl (storeByte c a) (memByte s a)) ∧
      (∀ n, unitPoison u n = now.foldl (storeTag c n) (unitPoison s n)) ∧
      (getCore u c).stores = (getCore s c).stores.filter (fun y => !(y.eng == e && y.due == t)) ∧
      (getCore u c).insts = (getCore s c).insts ∧ (getCore u c).vres = (getCore s c).vres ∧ (getCore u c).xres = (getCore s c).xres ∧
      u.regs = s.regs ∧ u.feb = s.feb ∧ (∀ y : CoreId, y ≠ c → getCore u y = getCore s y)

/-- DXE.ISSUE at the head of a core with nothing dispatched, passing its checks with no error recorded in memory, completes its dispatch at
a-cycle t. Where the descriptor of the first iteration and its extension pass the checks at issue, the stream's task is that descriptor
with the displacements and loop offsets added to its source, destination and index addresses, with no position counted yet; the record
has issued one iteration and is finished when the nest has no other. Memory is unchanged. -/
def Obligations.DxeIssueStartsAStreamTask : Prop :=
  ∀ (s : State) (c : CoreId) (w : W128) (t : Nat) (d : LoopDesc) (g : Engine),
    CalmCore s c → s.ecc = [] → Executes s c .dxe w t d g → opc w = 0x40 → 1 ≤ loopCount d →
    let da := padAddr c ((dxDesc w : Int) + loopOff d 0 0)
    let q0 := parseDesc (memBytes s da 64)
    let ea := padBase c + q0.ext * 64
    let ext := if q0.extEn then some (memBytes s ea 64) else none
    let q := { q0 with src := displace q0.src (dxDisp w 1 + loopOff d 1 0), dst := displace q0.dst (dxDisp w 2 + loopOff d 2 0),
                       idx := displace q0.idx (dxDisp w 3 + loopOff d 3 0) }
    descCheck c d.rd d.wr (memPoison s da 64 || (q0.extEn && memPoison s ea 64)) q ext = none →
    ∃ u i, exec (.dxeIssue c) s = .next u ∧ u.now = t ∧ (getEng u c .dxe).pc = g.pc + 1 ∧ (getEng u c .dxe).nextAt = t + 1 ∧
      taskOf u c (dxStream w) = some ⟨(getCore s c).nextInst, 0, g.bank, g.pc, d.rd, d.wr, t, memBytes s da 64, ext, q.src, q.dst, q.idx,
        cnt0, [], [], 0, []⟩ ∧
      (∀ st, st ≠ dxStream w → taskOf u c st = taskOf s c st) ∧ (getCore u c).insts = [i] ∧ i.w = w ∧ i.prog = .dxe 1 ∧ i.begun = true ∧
      i.finished = decide (loopCount d ≤ 1) ∧ SameMemory s u ∧ SameUnits s u ∧ u.regs = s.regs ∧ u.log = s.log ∧
      (∀ x : EngId, x ≠ .dxe → getEng u c x = getEng s c x) ∧ (∀ x : CoreId, x ≠ c → getCore u x = getCore s x)

/-- STREAM_TASK_COMPLETE for a running task that meets no fault, in a core where nothing waits to follow, with no error recorded in memory
and with no read or write of a stack in RECAL: time is at least the task's shortest end, the stream has no task, and memory holds what
the move writes, run on the state after its reads, and otherwise what it held. A hand-off task whose tiles have all come has then only
its row ends, block edges, PB8 rests and scale lines left to write; before that it stays, and nothing changes. A reduction store
combines its elements one after the other in the order of their coordinates, and a SWAP or CAS returns the old values, before it
completes. STREAM_TASK_FAULT for a running task that meets a fault, takes no hand-off and reads no stack in RECAL: the stream has no
task, memory holds the bytes the move wrote before the fault, and an event of the task class carries the fault's status. Other streams
keep their tasks. The model's own choices: the whole move takes place at this command (log 15), and faults of address and protection are
found before anything is written (log 55), what block order is with planes, padding and I64 elements and where its edge positions are
written (logs 119, 125, 126). COMPLETION_RECORD_WRITE for the next record of a stream, of 32 bytes at a 64-byte-aligned scratchpad
offset, in a core where nothing waits to follow and with no error recorded in memory: time moves to the record's a-cycle, its bytes
stand at the offset, every byte outside reads as before, and where the extension names a completion word that the core may reach one
FILL of it with the record's value is in flight (a local word past the scratchpad stands modulo 4 MiB, log 130); a word that it may not
reach is logged with its status instead. The record has left the list. -/
def Obligations.StreamTasksAndTheirRecordsEnd : Prop :=
  (∀ (s : State) (c : CoreId) (st : StreamId) (k : Task),
    taskOf s c st.val = some k → StillCore s c → s.ecc = [] →
    let v := taskSeen s c k
    let d := taskDesc k
    (d.kind = 4 → handAll k = false → ∃ u, exec (.streamTaskComplete c st) s = .next u ∧ taskOf u c st.val = some k ∧ SameMemory s u ∧ u.now = s.now) ∧
    ((taskRun v c k).stop = none → (d.kind = 4 → handAll k = true) →
      holdsRange s (readSeen s c d k.ext ++ writesOf c k (taskRun v c k)) = false →
      ∃ u, exec (.streamTaskComplete c st) s = .next u ∧ taskOf u c st.val = none ∧ u.now = max s.now (k.issueAt + taskTime s c k) ∧
        (d.kind = 4 → u.mem = (applyWrites v (handFinish c d k.ext).ws).mem) ∧
        (d.kind ≠ 4 → windowDst d = true → u.mem = (runReduce (advance v (k.issueAt + taskTime s c k)) c d k.ext none).1.mem) ∧
        (d.kind ≠ 4 → windowDst d = false → u.mem = (applyWrites v (taskRun v c k).ws).mem) ∧ (∀ x, x ≠ st.val → taskOf u c x = taskOf s c x) ∧
        (getCore u c).insts = (getCore s c).insts ∧ (∀ x : CoreId, x ≠ c → getCore u x = getCore s x)) ∧
    (∀ f, (taskRun v c k).stop = some f → handTask s c st.val = none → holdsRange s (readSeen s c (taskDesc k) k.ext) = false →
      ∃ u, exec (.streamTaskFault c st) s = .next u ∧ taskOf u c st.val = none ∧ u.now = s.now ∧
        u.mem = (applyWrites v (taskRun v c k).ws).mem ∧ (∀ x, x ≠ st.val → taskOf u c x = taskOf s c x) ∧
        (∃ e ∈ u.log.inFlight, e.cause = stCode f ∧ e.cls = clsTask ∧ e.sub = st.val ∧ e.inst = c.val) ∧
        (getCore u c).insts = (getCore s c).insts ∧ (∀ x : CoreId, x ≠ c → getCore u x = getCore s x))) ∧
  (∀ (s : State) (c : CoreId) (st : StreamId) (r : CompRec) (rest : List CompRec) (o : Nat),
    (getCore s c).crecs = r :: rest → r.stream = st.val → r.rec? = some o → o % 64 = 0 → o < 0x400000 → r.bytes.length = 32 →
    StillCore s c → s.ecc = [] →
    ∃ u, exec (.completionRecordWrite c st) s = .next u ∧ u.now = max s.now r.due ∧ (getCore u c).crecs = rest ∧
      (∀ n, n < 32 → memByte u (padAddr c o + n) = nthD r.bytes n 0) ∧
      (∀ a, a < padAddr c o ∨ padAddr c o + 32 ≤ a → memByte u a = memByte s a) ∧
      (r.word? = none → u.feOps = s.feOps) ∧
      (∀ a why, r.word? = some (false, a) → syncTarget s c a = some why → u.feOps = s.feOps ∧ LogsExactly s u [stCode why]) ∧
      (∀ loc a, r.word? = some (loc, a) → (loc = true ∨ syncTarget s c a = none) → ∃ op, u.feOps = s.feOps ++ [op] ∧ op.src = .stream c st.val ∧ op.kind = .fill ∧ op.val = r.value ∧
        op.isLocal = loc ∧ op.addr = (if loc then padBase c + a % 0x400000 else a) ∧ op.waiting = false) ∧
      (getCore u c).insts = (getCore s c).insts ∧ (∀ x : CoreId, x ≠ c → getCore u x = getCore s x))

/-- INSTRUCTION_RETIRE of an instruction that has begun and finished and whose stores and stream tasks are done, in a core where nothing
else waits to follow: time is at least the end of its work and its record leaves the list, so that its claim no longer holds. A SCAN,
and an MXE.ALT that samples, tag again the areas that they wrote of their poisoned contexts; no other memory changes. For a plain
instruction nothing else changes. For ENG.LDLOAD every entry due by then, but entry 0, stands in the loop-descriptor file and only later
ones are still being loaded. For MOULT.SELECT its context is armed with the word's fields and no entries; an apply refused for poison is
counted and logged, and one that fell short is counted. -/
def Obligations.FinishedInstructionsRetire : Prop :=
  ∀ (s : State) (c : CoreId) (i : Inst),
    instOf s c i.id = some i → mayRetire s c i = true → StillCore s c →
    let t := max s.now i.doneAt
    ∃ u, exec (.instructionRetire c (.inst i.id)) s = .next u ∧ u.now = t ∧
      (getCore u c).insts = (getCore s c).insts.filter (fun x => x.id != i.id) ∧ SameMemory (retagStores { s with now := t } c i) u ∧ SameUnits s u ∧
      (∀ x : CoreId, x ≠ c → getCore u x = getCore s x) ∧
      (i.prog = .plain → u.cores = (putCore s c { getCore s c with insts := (getCore s c).insts.filter fun x => x.id != i.id }).cores ∧
        u.regs = s.regs ∧ u.log = s.log) ∧
      (i.prog = .ldload → (getEng u c i.eng).ldq = ((getEng s c i.eng).ldq.filter fun x => decide (t < x.due)) ∧
        (getEng u c i.eng).ldf = (((getEng s c i.eng).ldq.filter fun x => decide (x.due ≤ t)).foldl putLd (getEng s c i.eng)).ldf) ∧
      (∀ n, i.prog = .mle n → opc i.w = 0x40 → tget (getCore u c).ctx ctxReset (bits i.w 114 113) =
        ⟨true, bit i.w 112, bits i.w 111 96 + 1, bits i.w 95 68, bits i.w 67 52 + 1, bits i.w 51 36 * 64, bits i.w 15 0 * 64, [], false⟩) ∧
      (i.prog = .mle 1 → opc i.w ≠ 0x40 → rfld u (.eng c .mle .stat) 31 16 = min 65535 (rfld s (.eng c .mle .stat) 31 16 + 1) ∧
        LogsExactly s u [stCode .moultPoison]) ∧
      (i.prog = .mle 2 → opc i.w ≠ 0x40 → rfld u (.eng c .mle .stat) 47 32 = min 65535 (rfld s (.eng c .mle .stat) 47 32 + 1) ∧ u.log = s.log)

/-- Where the word at the head of an engine is not marked and not held and fails a check of R171 with a status, INSTRUCTION_RETIRE of the
skip, in a core where nothing waits to follow and with no STEP armed: the engine's SKIPPED count rises by 1 (at most to 65,535), one
event of no error class with that status and the instruction's bank and index is logged, and the engine is past the word and may
dispatch the next one slot later. No claim is taken, no result is put in flight, and no byte of memory changes. -/
def Obligations.FailedChecksSkipTheInstruction : Prop :=
  ∀ (s : State) (c : CoreId) (e : EngId) (w : W128) (t : Nat) (g : Engine) (why : Status),
    StillCore s c → headOf s c e = some (t, ⟨w, false⟩, g) → heldAtDispatch s c e w = false → g.step = .off →
    checkWord (advance (putEng s c e g) t) c e t ⟨w, false⟩ = .skip why →
    ∃ u ev, exec (.instructionRetire c (.skip e)) s = .next u ∧
      rfld u (.eng c e .stat) 63 48 = min 65535 (rfld s (.eng c e .stat) 63 48 + 1) ∧ (∀ r, r ≠ .eng c e .stat → rget u r = rget s r) ∧
      u.log.inFlight = s.log.inFlight ++ [ev] ∧ ev.cause = stCode why ∧ ev.cls = clsNone ∧ ev.inst = c.val ∧ ev.sub = engIdx e ∧
      ev.detail = mkDetail ((if g.bank then 2048 else 0) + g.pc.toNat) 0 ∧
      getEng u c e = { g with queue := g.queue.drop 1, pc := g.pc + 1, nextAt := t + slotLen s c e, wait := .none } ∧
      (∀ x : EngId, x ≠ e → getEng u c x = getEng s c x) ∧ (getCore u c).insts = (getCore s c).insts ∧
      (getCore u c).vres = (getCore s c).vres ∧ (getCore u c).xres = (getCore s c).xres ∧ SameMemory s u ∧ SameUnits s u ∧
      (∀ x : CoreId, x ≠ c → getCore u x = getCore s x)

/-- For each of the four matrix instructions at the head of a core with nothing dispatched, passing its checks with no error recorded in
memory: its record begins at its a-cycle t with the 128 bytes of the product descriptor at the address of stream 3, the first position
of the loop order, accumulators of +0 in every array of its range, and no pass ended; the engine is past it and may dispatch the next
one a-cycle later. No byte of memory and nothing else changes. -/
def Obligations.MatrixInstructionsBegin : Prop :=
  ∀ x ∈ ([(.mxeWs, 0x40), (.mxeOs, 0x41), (.mxeIs, 0x42), (.mxeAlt, 0x48)] : List ((CoreId → Instr) × Nat)),
    ∀ (s : State) (c : CoreId) (w : W128) (t : Nat) (d : LoopDesc) (g : Engine),
      CalmCore s c → s.ecc = [] → Executes s c .mxe w t d g → opc w = x.2 →
      let desc := memBytes s (padAddr c (mAddr d w 3 0)) 128
      let p := parseProd d w 0 desc
      ∃ u i r, exec (x.1 c) s = .next u ∧ u.now = t ∧ (getCore u c).insts = [i] ∧ i.w = w ∧ i.eng = .mxe ∧ i.rd = d.rd ∧ i.wr = d.wr ∧
        i.begun = true ∧ i.finished = false ∧ i.start = t ∧ i.prog = .mxe r ∧ r.iter = 0 ∧ r.desc = desc ∧
        r.round = 0 ∧ r.pr = 0 ∧ r.seg = 0 ∧ r.tile = 0 ∧ r.wt = 0 ∧ r.ends = [] ∧ r.dwEnd = false ∧ r.lastRun = false ∧ r.stop = none ∧
        r.acc = List.replicate p.arrs (List.replicate 64 ⟨0, false⟩) ∧
        (getEng u c .mxe).pc = g.pc + 1 ∧ (getEng u c .mxe).queue = g.queue.drop 1 ∧ (getEng u c .mxe).nextAt = t + 1 ∧
        SameMemory s u ∧ SameUnits s u ∧ SameCores s u c .mxe ∧ u.regs = s.regs ∧ u.log = s.log

/-- MXE_TILE_STEP for a begun, unfinished matrix instruction that may take a step and has no stop, whose stationary content has been checked
or shows no case of R76 now, and whose step finds none, in a core where nothing waits to follow and with no error recorded in memory.
For WS, OS and IS: the accumulators of an array that has a strip become what they started from (the pass so far, the partial tile, or
+0) with the products of what the feeder holds added in increasing reduction order; after the last window tile of its range the pass has
ended with them and waits for its drain, and the run is at the next position of the loop order or has no further pass; else the next
window tile follows. For ALT: the dX accumulators are those of the alt step's dX phase and its pass has ended with them, the dW
accumulators those of its dW phase, and the next row tile follows or the dW drain is due. No byte of memory changes, and time moves on
to the step (to the end of its dX pass in ALT). -/
def Obligations.TileStepsAccumulate : Prop :=
  ∀ (s : State) (c : CoreId) (id : Nat) (i : Inst) (r : MxeRun),
    instOf s c id = some i → i.prog = .mxe r → i.begun = true → i.finished = false → stepOpen r = true → r.stop = none → StillCore s c →
    (getCore s c).insts = [i] → s.ecc = [] →
    let p := prodOf i r
    let q := posOf r
    (p.op ≠ 0x48 → r.loaded = true ∨ contentBads s c p q (arrStrips p q.round) = [] →
      (∀ n, nextPos p q = some n → contentBads s c p n (arrStrips p n.round) = []) →
      let r0 := if r.loaded then r else (firstLoad s c i p r).2
      let after (a : Nat) : List AccEnt := accTile p (winsOf p r0 a).1 (winsOf p r0 a).2 (accBefore s c p r a)
      ∃ u r', exec (.mxeTileStep c id) s = .next u ∧ (getCore u c).insts = [{ i with prog := .mxe r' }] ∧ r'.iter = r.iter ∧
        SameMemory s u ∧ u.now = max s.now (runAt r0) ∧ u.log = s.log ∧
        (if r.wt + 1 = passTiles p r.pr then
          (∃ e, r'.ends = r.ends ++ [e] ∧ e.round = r.round ∧ e.pr = r.pr ∧ e.tile = r.tile ∧
            e.final = (p.drains && decide (r.pr + 1 = p.ranges)) ∧
            ∀ a b, a < p.arrs → stripOf p a r.round = some b → nthD e.acc a [] = after a) ∧
          (∀ n, nextPos p q = some n → posOf r' = n) ∧ (nextPos p q = none → r'.lastRun = true)
        else r'.ends = r.ends ∧ posOf r' = { q with wt := r.wt + 1 } ∧
          ∀ a b, a < p.arrs → stripOf p a r.round = some b → nthD r'.acc a [] = after a)) ∧
    (p.op = 0x48 → r.loaded = true ∨ segBads s c p r.round r.pr r.seg = [] →
      (∀ n, nextSeg s c p r.round r.pr r.seg = some n → segBads s c p n.1 n.2.1 n.2.2 = []) →
      let r0 := if r.loaded then r else (altFirst s c i p r).2
      ∃ u r' e, exec (.mxeTileStep c id) s = .next u ∧ (getCore u c).insts = [{ i with prog := .mxe r' }] ∧ r'.iter = r.iter ∧
        SameMemory s u ∧ u.now = max (max s.now (runAt r0)) (r0.start + (altClock s c p r0).1) ∧ u.log = s.log ∧ r'.ends = r.ends ++ [e] ∧ e.round = r.round ∧ e.pr = r.pr ∧ e.seg = r.seg ∧
        e.tile = r.tile ∧ e.final = (p.drains && lastSeg s c p r.round r.pr r.seg) ∧
        (∀ a, a < p.arrs → nthD e.acc a [] = (altAccs s c p r0 a).1 ∧ nthD r'.dw a [] = (altAccs s c p r0 a).2) ∧
        (r.tile + 1 < p.tiles → r'.tile = r.tile + 1 ∧ r'.dwEnd = false) ∧ (p.tiles ≤ r.tile + 1 → r'.tile = r.tile ∧ r'.dwEnd = true))

/-- MXE_PASS_DRAIN for a run whose oldest ended pass is d, with no stop, in a core where nothing waits to follow and with no error recorded
in memory. Where d hands off to a stream that takes no tile now, its drain is held and memory stays. Else time is at least the end of d
and memory is what the drain makes of it: each array's partial tile stored where d is not the last pass of its reduction or ACC_OUT is
set, else the drain path's outputs; and, where no stream refused a tile, d has left the passes that wait, its buffer is free once the
drain's time has passed with its waits for generator words and for the stream's buffer, and the run goes on at its position, or, when it
has no further pass and no other drain is due, at the next iteration or the instruction's end. ALT_DW_DRAIN for a run whose dW drain is
due writes what the dW drain writes, and the run goes on at the next segment with its blocks, or ends in the same way. The model's own
choices: the waits that other cores of the section make for generator words, and how long the stream's buffer stays full, are operands
of the command (logs 44, 107). -/
def Obligations.PassesDrain : Prop :=
  ∀ (s : State) (c : CoreId) (id : Nat) (i : Inst) (r : MxeRun),
    instOf s c id = some i → i.prog = .mxe r → i.begun = true → i.finished = false → r.stop = none → StillCore s c →
    (getCore s c).insts = [i] → s.ecc = [] →
    let p := prodOf i r
    let goesOn (u : State) (r' : MxeRun) : Prop := (getCore u c).insts = [{ i with prog := .mxe r' }]
    let ends (u : State) : Prop := if r.iter + 1 < loopCount i.loop then ∃ r', goesOn u r' ∧ r'.iter = r.iter + 1 ∧ posOf r' = ⟨0, 0, 0, 0⟩
      else ∃ j, (getCore u c).insts = [j] ∧ j.id = i.id ∧ j.finished = true
    (∀ (d : PassEnd) (rest : List PassEnd) (others : DrainWait), r.ends = d :: rest →
      let v := advance s (i.start + d.fin)
      let held := bufWaits v c p d 0
      let waits := genWaits v c p d r others.gen
      let n := (waits.filter fun x => x != 0).length
      let x := drainPass (drewWords (if n = 0 then v else rbump v (.eng c .mxe .stat) 15 0 n) c p d r (List.range p.arrs)) c p d (fun _ => true) r
      (held = true → ∃ u, exec (.mxePassDrain c id others) s = .next u ∧ SameMemory s u ∧ goesOn u (holdEnd r)) ∧
      (held = false → x.2.stop = none →
        ∃ u, exec (.mxePassDrain c id others) s = .next u ∧ u.mem = x.1.mem ∧ u.poison = x.1.poison ∧
          (rest ≠ [] ∨ r.lastRun = false ∨ r.dwEnd = true → ∃ r', goesOn u r' ∧ r'.ends = rest ∧ posOf r' = posOf r ∧ r'.iter = r.iter ∧
            (if d.even then r'.fr0 else r'.fr1) = d.fin + drainTime p d.final + drainWait p d (heldFor s i d) waits others.buf) ∧
          (rest = [] → r.lastRun = true → r.dwEnd = false → ends u))) ∧
    (r.dwEnd = true → r.lastRun = false →
      let x := dwDrain s c p r
      ∃ u, exec (.altDwDrain c id) s = .next u ∧ u.mem = x.1.mem ∧ u.poison = x.1.poison ∧
        (∀ q, nextSeg x.1 c p r.round r.pr r.seg = some q →
          ∃ r', goesOn u r' ∧ (r'.round, r'.pr, r'.seg) = q ∧ r'.tile = 0 ∧ r'.dwEnd = false ∧ r'.blks = r.nblks ∧ r'.ends = r.ends) ∧
        (nextSeg x.1 c p r.round r.pr r.seg = none → r.ends = [] → ends u))

/-- For integer operands the accumulator after a row of present positions is the accumulator before plus the exact sum of the products,
modulo 2^32; absent positions of either row contribute nothing. -/
def Obligations.IntegerAccumulationIsExactModulo32Bits : Prop :=
  ∀ (acc : W32) (xs ws : List (Option (Int × Byte))),
    xs.length = ws.length →
    accRow true acc (xs.map fun o => o.map fun v => (Val.ofInt v.1 0, v.2)) (ws.map fun o => o.map fun v => (Val.ofInt v.1 0, v.2)) =
      acc + BitVec.ofInt 32 ((List.zip xs ws).foldl (fun n q => match q.1, q.2 with | some a, some b => n + a.1 * b.1 | _, _ => n) 0)

/-- A moult instruction at the head of a core with nothing dispatched, passing its checks with no error recorded in memory, runs at its
a-cycle t: m is the core as the operation finds it, with memory, contexts and registers as before. SELECT leaves memory as it is, takes
4 a-cycles and arms its context when it retires. SCAN offers its candidates to its context and writes the store area. RECOMPRESS and
RESET_STATE merge their blocks. PRUNE, GROW and SWAP, whose inputs carry no poison, write the new mask, then the moult record with what
was pruned and grown, K and the SHORT flag; an operation that fell short is noted in its record, to be counted when it retires. The
engine is past the instruction, its one record is finished, and nothing outside the operation's own results changes. The model's own
choice: an operation makes all of its reads and writes when it begins (log 15). -/
def Obligations.MoultInstructionsComplete : Prop :=
  ∀ (s : State) (c : CoreId) (w : W128) (t : Nat) (d : LoopDesc) (g : Engine),
    CalmCore s c → s.ecc = [] → Executes s c .mle w t d g →
    let begun (u m : State) (dur flags : Nat) : Prop :=
      SameMemory s m ∧ (getCore m c).ctx = (getCore s c).ctx ∧ m.regs = s.regs ∧ m.cached = s.cached ∧ u.now = t ∧ SameUnits s u ∧
      (getEng u c .mle).pc = g.pc + 1 ∧ (getEng u c .mle).nextAt = max (t + 1) (t + dur) ∧
      (∃ i, (getCore u c).insts = [i] ∧ i.w = w ∧ i.prog = .mle flags ∧ i.begun = true ∧ i.finished = true ∧ i.doneAt = t + dur ∧ i.rd = d.rd ∧ i.wr = d.wr) ∧
      (∀ x : EngId, x ≠ .mle → getEng u c x = getEng s c x) ∧ (∀ x : CoreId, x ≠ c → getCore u x = getCore s x)
    let words := (maskWords s c (lIn w) (ctxOf s c (lCp w)).blocks).map Prod.fst
    let frz := (maskWords s c (lFrz w) (ctxOf s c (lCp w)).blocks).map Prod.fst
    let pe := (ctxOf s c (lCp w)).entries.map Prod.fst
    let ge := (ctxOf s c (lCg w)).entries.map Prod.fst
    let clean := (ctxOf s c (lCp w)).poison = false ∧ (ctxOf s c (lCg w)).poison = false ∧
      (maskWords s c (lIn w) (ctxOf s c (lCp w)).blocks).any Prod.snd = false ∧
      (opc w ≠ 0x42 → (maskWords s c (lFrz w) (ctxOf s c (lCp w)).blocks).any Prod.snd = false)
    let short (q : List Nat × Nat) : Nat := if q.2 < lK w then 2 else 0
    let ends (u m : State) (q : List Nat × Nat) (pruned grown : Nat) : Prop :=
      let z := writeAll (writeAll m (padAddr c (lOut w)) (q.1.flatMap fun v => leBytes 8 v) false) (padAddr c (lRec w))
        (leBytes 4 pruned ++ leBytes 4 grown ++ leBytes 4 (lK w) ++ leBytes 4 (short q)) false
      SameMemory z u ∧ (getCore u c).ctx = (getCore s c).ctx
    (opc w = 0x40 → ∃ u m, exec (.moultSelect c) s = .next u ∧ begun u m 4 0 ∧ SameMemory s u ∧ (getCore u c).ctx = (getCore s c).ctx) ∧
    (opc w = 0x41 → ∃ u m, exec (.moultScan c) s = .next u ∧ begun u m (moultScan m c d w none).2 0 ∧
      SameMemory (moultScan m c d w none).1 u ∧
      (getCore u c).ctx = (getCore (moultScan m c d w none).1 c).ctx) ∧
    (opc w = 0x42 → clean → ∃ u m, exec (.moultPrune c) s = .next u ∧ begun u m (16 + ceilDiv pe.length 4) (short (pruneLoop pe (lK w) words 0)) ∧
      ends u m (pruneLoop pe (lK w) words 0) (pruneLoop pe (lK w) words 0).2 0) ∧
    (opc w = 0x43 → clean → ∃ u m, exec (.moultGrow c) s = .next u ∧ begun u m (16 + ceilDiv pe.length 4) (short (growLoop (lPb w) frz ge (lK w) words 0)) ∧
      ends u m (growLoop (lPb w) frz ge (lK w) words 0) 0 (growLoop (lPb w) frz ge (lK w) words 0).2) ∧
    (opc w = 0x44 → clean → ∃ u m, exec (.moultSwap c) s = .next u ∧ begun u m (16 + ceilDiv (pe.length + ge.length) 4)
      (short (swapLoop (lPb w) frz pe ge (lK w) words 0)) ∧
      ends u m (swapLoop (lPb w) frz pe ge (lK w) words 0) (swapLoop (lPb w) frz pe ge (lK w) words 0).2 (swapLoop (lPb w) frz pe ge (lK w) words 0).2) ∧
    (opc w = 0x45 → ∃ u m, exec (.moultRecompress c) s = .next u ∧ begun u m (loopCount d * (8 + ceilDiv (lB w) 2)) 0 ∧
      SameMemory (moultMerge m c d w (loopCount d * lB w)) u ∧ (getCore u c).ctx = (getCore s c).ctx) ∧
    (opc w = 0x46 → ∃ u m, exec (.moultResetState c) s = .next u ∧ begun u m (loopCount d * (8 + ceilDiv (lB w) 2)) 0 ∧
      SameMemory (moultMerge m c d w (loopCount d * lB w)) u ∧ (getCore u c).ctx = (getCore s c).ctx)

/-- For lists of positions within the mask: PRUNE changes at most k positions, clears only positions in its list, and sets none; GROW sets
at most k positions, each in its list, inactive before and outside the freeze mask, and clears none; SWAP sets only positions of its
second list outside the freeze mask, clears only positions of its first, and keeps the number of active positions. The count returned is
the number of positions cleared by PRUNE and set by GROW; for SWAP it is the number of pairs, at least the number of positions that end
cleared and, where the two lists share no position, equal to that number and to the number of positions that end set. -/
def Obligations.MoultLoopsKeepTheCountAndRespectTheMasks : Prop :=
  (∀ (ps : List Nat) (k : Nat) (ws : List Nat), (∀ x ∈ ps, x / 64 < ws.length) →
    let q := pruneLoop ps k ws 0
    q.2 ≤ k ∧ (∀ y, getBit q.1 y = true → getBit ws y = true) ∧ (∀ y, getBit ws y = true → getBit q.1 y = false → y ∈ ps) ∧
      ((List.range (64 * ws.length)).filter fun y => getBit ws y && !getBit q.1 y).length = q.2 ∧ q.1.length = ws.length) ∧
  (∀ (pb : Bool) (frz gs : List Nat) (k : Nat) (ws : List Nat), (∀ x ∈ gs, x / 64 < ws.length) →
    let q := growLoop pb frz gs k ws 0
    q.2 ≤ k ∧ (∀ y, getBit ws y = true → getBit q.1 y = true) ∧
      (∀ y, getBit q.1 y = true → getBit ws y = false → y ∈ gs ∧ getBit frz y = false) ∧
      ((List.range (64 * ws.length)).filter fun y => getBit q.1 y && !getBit ws y).length = q.2 ∧ q.1.length = ws.length) ∧
  (∀ (pb : Bool) (frz ps gs : List Nat) (k : Nat) (ws : List Nat), (∀ x ∈ ps, x / 64 < ws.length) → (∀ x ∈ gs, x / 64 < ws.length) →
    let q := swapLoop pb frz ps gs k ws 0
    let all := List.range (64 * ws.length)
    let cleared := (all.filter fun y => getBit ws y && !getBit q.1 y).length
    let grown := (all.filter fun y => getBit q.1 y && !getBit ws y).length
    q.2 ≤ k ∧ (∀ y, getBit q.1 y = true → getBit ws y = false → y ∈ gs ∧ getBit frz y = false) ∧
      (∀ y, getBit ws y = true → getBit q.1 y = false → y ∈ ps) ∧ q.1.length = ws.length ∧
      (all.filter (getBit q.1)).length = (all.filter (getBit ws)).length ∧ cleared ≤ q.2 ∧
      ((∀ x ∈ ps, x ∉ gs) → cleared = q.2 ∧ grown = q.2))

/-- A host write to the control register or PC of an engine that the function reaches, in a core where nothing waits to follow, whose
section belongs to a slice. ENGINE_ENABLE of a HALTED engine with the active bank unchanged: it is RUNNING from its PC with its queue as
it stands. ENGINE_STEP of a HALTED engine: the same with a STEP armed. ENGINE_BANK_SELECT of a HALTED engine with EN, STEP and ABORT 0:
the other bank is active with an empty queue and the same PC. ENGINE_PC_WRITE of a HALTED engine: the PC is as written and the queue is
empty. ENGINE_DRAIN of a RUNNING engine that waits for nothing: it is HALTED when nothing of it remains dispatched, else DRAINING.
ENGINE_ABORT of an engine with nothing dispatched: it is HALTED with an empty queue, its PC at the next instruction or at a BANKSW that
waited, and one event ST_ABORTED of no class is logged; where the engine is RUNNING the write does not set STEP too. The model's own
choice: a STEP beside the ABORT of a HALTED engine is ignored without an event (log 124). Memory and the other engines are unchanged. -/
def Obligations.EngineControlWritesComplete : Prop :=
  ∀ (s : State) (f : FuncId) (c : CoreId) (e : EngId) (v : W64),
    HostOk s f (.eng c e .ctl) → HostOk s f (.eng c e .pc) → StillCore s c → (coreSlice s c).isSome = true → bits v 6 5 ≠ 3 →
    let g := getEng s c e
    let same (u : State) : Prop := SameMemory s u ∧ SameUnits s u ∧ (∀ x : EngId, x ≠ e → getEng u c x = getEng s c x) ∧
      (∀ x : CoreId, x ≠ c → getCore u x = getCore s x) ∧ u.now = s.now
    (g.mode = .halted → bit v 0 = true → bit v 3 = false → bit v 7 = false → bit v 4 = g.bank →
      ∃ u, exec (.engineEnable f c e v) s = .next u ∧ same u ∧
        getEng u c e = { g with mode := .running, step := .off, fetchAt := max g.fetchAt s.now, nextAt := max g.nextAt s.now }) ∧
    (g.mode = .halted → bit v 0 = false → bit v 3 = true → bit v 7 = false → bit v 4 = g.bank →
      ∃ u, exec (.engineStep f c e v) s = .next u ∧ same u ∧
        getEng u c e = { g with mode := .running, step := .armed, fetchAt := max g.fetchAt s.now, nextAt := max g.nextAt s.now }) ∧
    (g.mode = .halted → bit v 0 = false → bit v 3 = false → bit v 7 = false → bit v 4 ≠ g.bank →
      ∃ u, exec (.engineBankSelect f c e v) s = .next u ∧ same u ∧ getEng u c e = { g with bank := bit v 4, queue := [], fetchAt := s.now }) ∧
    (g.mode = .halted → ∃ u, exec (.enginePcWrite f c e v) s = .next u ∧ same u ∧ u.regs = s.regs ∧ u.log = s.log ∧
      getEng u c e = { g with queue := [], pc := BitVec.ofNat 11 (bits v 10 0), fetchAt := s.now }) ∧
    (g.mode = .running → g.wait = .none → g.closing = none → bit v 0 = false → bit v 3 = false → bit v 7 = false → bit v 4 = g.bank →
      ∃ u, exec (.engineDrain f c e v) s = .next u ∧ same u ∧
        (getEng u c e).mode = (if quiet s c e then .halted else .draining) ∧ (getEng u c e).pc = g.pc ∧ (getEng u c e).bank = g.bank) ∧
    ((g.mode = .running ∨ g.mode = .halted) → (getCore s c).insts = [] → s.feOps = [] → (getCore s c).semOps = [] →
      (getCore s c).stores = [] → (∀ st, taskOf s c st = none ∧ streamAborting s c st = false) → bit v 7 = true → bit v 4 = g.bank →
      (bit v 3 = true → g.mode = .halted) →
      ∃ u ev, exec (.engineAbort f c e v) s = .next u ∧ same u ∧ (getEng u c e).mode = .halted ∧ (getEng u c e).queue = [] ∧
        (getEng u c e).pc = (if g.closing.isSome then g.pc - 1 else g.pc) ∧ u.log.inFlight = s.log.inFlight ++ [ev] ∧ ev.cause = stCode .aborted ∧ ev.cls = clsNone)

/-- For a function that reaches ENG_IM_DATA_HI of a HALTED engine: a write stores the word of the written value over ENG_IM_DATA_LO at
TARGET and INDEX (a bank's instruction, or 16 bytes of the loop-descriptor file, where an INDEX of 256 or more counts modulo 256, the
model's choice in log 129, and the 8 words of entry 0 ignore it), clears the instruction's mark, leaves every other instruction as it
was, and INDEX becomes the next index, wrapping at 2,048 instructions or 256 file words. A read returns the high half of the word there
and moves INDEX on in the same way, changing no word. -/
def Obligations.InstructionMemoryIsWrittenAndRead : Prop :=
  ∀ (s : State) (f : FuncId) (c : CoreId) (e : EngId) (v : W64),
    HostOk s f (.eng c e .dataHi) → reaches s f (regOff (.eng c e .dataHi)) false = true → (getEng s c e).mode = .halted →
    let tgt := rfld s (.eng c e .imAddr) 13 12
    let i := rfld s (.eng c e .imAddr) 10 0
    let w : W128 := v ++ rget s (.eng c e .dataLo)
    let next := (i + 1) % (if tgt = 2 then 256 else 2048)
    (∃ u, exec (.imDataHiWrite f c e v) s = .next u ∧ rfld u (.eng c e .imAddr) 10 0 = next ∧ SameMemory s u ∧ SameUnits s u ∧
      (∀ x : EngId, x ≠ e → getEng u c x = getEng s c x) ∧ (∀ x : CoreId, x ≠ c → getCore u x = getCore s x) ∧
      (tgt ≠ 2 → tget (getEng u c e).imem 0 (imKey (tgt == 1) i) = w ∧ tget (getEng u c e).ubad false (imKey (tgt == 1) i) = false ∧
        ∀ k, k ≠ imKey (tgt == 1) i → tget (getEng u c e).imem 0 k = tget (getEng s c e).imem 0 k) ∧
      (tgt = 2 → 8 ≤ i % 256 → (∀ n, n < 16 → tget (getEng u c e).ldf 0 (16 * (i % 256) + n) = nthD (leBytes 16 w.toNat) n 0) ∧
        (∀ k, k < 16 * (i % 256) ∨ 16 * (i % 256) + 16 ≤ k → tget (getEng u c e).ldf 0 k = tget (getEng s c e).ldf 0 k) ∧
        (getEng u c e).imem = (getEng s c e).imem) ∧
      (tgt = 2 → i % 256 < 8 → u.cores = s.cores)) ∧
    (∃ u, exec (.imDataHiRead f c e) s = .next u ∧ rfld u (.eng c e .imAddr) 10 0 = next ∧ u.cores = s.cores ∧ SameMemory s u ∧
      u.out = .readReply f (leBytes 8 ((imWord s c e >>> 64).setWidth 64).toNat) false :: s.out)

/-- For a function that reaches DXE_SCTL of a core where nothing waits to follow: a write that names no stream to abort makes the 32 enables
as written, whether it enables or drains streams, and changes no running task. A write that aborts one stream with a running task that
is no hand-off leaves that stream's enable 0 and its task gone, logs ST_ABORTED for it, leaves in memory what the grants already given
write (their number is a free value, log 55), and no other stream loses its task. No instruction record changes. -/
def Obligations.StreamControlWritesComplete : Prop :=
  ∀ (s : State) (f : FuncId) (c : CoreId) (v : W64),
    HostOk s f (.dxeSctl c) → StillCore s c →
    (bits v 63 32 = 0 → v.setWidth 32 &&& ~~~(getCore s c).sen ≠ (0 : BitVec 32) →
      ∃ u, exec (.streamEnable f c v) s = .next u ∧ u.cores = (putCore s c { getCore s c with sen := v.setWidth 32 }).cores ∧ SameMemory s u ∧
        SameUnits s u ∧ u.regs = s.regs ∧ u.log = s.log) ∧
    (bits v 63 32 = 0 → ~~~(v.setWidth 32) &&& (getCore s c).sen ≠ (0 : BitVec 32) →
      ∃ u, exec (.streamDrain f c v) s = .next u ∧ u.cores = (putCore s c { getCore s c with sen := v.setWidth 32 }).cores ∧ SameMemory s u ∧
        SameUnits s u ∧ u.regs = s.regs ∧ u.log = s.log) ∧
    (∀ (st : Nat) (k : Task), st < 32 → bits v 63 32 = 2 ^ st → taskOf s c st = some k → handTask s c st = none →
      let s1 := putCore s c { getCore s c with sen := v.setWidth 32 &&& ~~~((v >>> 32).setWidth 32) }
      ∃ u, exec (.streamAbort f c v) s = .next u ∧ taskOf u c st = none ∧ bit (getCore u c).sen st = false ∧
        (∀ x, x < 32 → x ≠ st → bit (getCore u c).sen x = bit v x) ∧ (∀ x, x ≠ st → taskOf u c x = taskOf s c x) ∧
        (∃ e ∈ u.log.inFlight, e.cause = stCode .aborted ∧ e.sub = st ∧ e.inst = c.val) ∧
        u.mem = (cutTask (drawFree (drawFree s1).1).1 c st k (Config.freeValue s.freeCtr).toNat).1.mem ∧
        (getCore u c).insts = (getCore s c).insts)

/-- For a function that reaches SYNC_HOST_ADDR of a core whose section is in a slice, with OFFSET naming an 8-byte-aligned word, no
operation waiting at the word or due there by now, no earlier FILL of the function on its way to it, no listed remote operation that may
reach it, no scrub of the slice under a new key (while there is one the write changes nothing, log 123), and no error recorded in
memory: FULL reports the state found; OP FILL of an empty word, with no BAR2 write of the function held, stores SYNC_HOST_DATA there and
sets it full, and with one held it waits behind it; OP FILL of a full word changes no word and counts, flags and logs ST_FE_OVERFLOW; OP
DRAIN leaves the word empty; OP READ copies the word to SYNC_HOST_DATA and leaves its state. A write to SEM_CNT of a core in which no
operation waits on a counter sets its four counters and no other; a write to SEM_MODE leaves the mode as written, and the mode that an
operation of the same a-cycle meets as it was (the model's choice, log 40). No engine changes. For a function that reaches the registers
of section n: SYNC_WIN_ENABLE of a disabled window with legal BASE and LINES makes them and EN as written and every word of the window 0
and empty with a clear tag; SYNC_WIN_DISABLE of an enabled window, with BASE and LINES unchanged and no operation waiting on its lines,
clears EN and keeps BASE and LINES; SRNG_SEED_WRITE makes the generator's state bits 31 to 0 of the value, or 1 for 0. No stored byte
and no core changes. -/
def Obligations.SyncRegistersAreWritten : Prop :=
  ((∀ (s : State) (f : FuncId) (c : CoreId) (v : W64),
    HostOk s f (.hostAddr c) → (coreSlice s c).isSome = true → bits v 1 0 = 0 → s.ecc = [] → feWaiters s (feCell s (hostWord c v)) = [] →
    (∀ y ∈ s.feOps, feCell s y.addr = feCell s (hostWord c v) → y.src ≠ .host f ∧ (y.isLocal = true → y.waiting = true ∨ y.got.isSome = true ∨ s.now < y.due)) →
    (sectRekeys s (coreSect c) = true → ∀ rem, (bits v 22 21 = 1 → exec (.syncHostFill f c ⟨v, rem⟩) s = .next s) ∧
      (bits v 22 21 = 2 → exec (.syncHostDrain f c ⟨v, rem⟩) s = .next s) ∧ (bits v 22 21 = 3 → exec (.syncHostRead f c v) s = .next s)) ∧
    (sectRekeys s (coreSect c) = false →
    let wrote (a : HeldAcc) : Bool := match a with | .write g _ _ => g == f | _ => false
    let x := feCell s (hostWord c v)
    (∀ rem, feRemote s (hostWord c v) rem = [] → bits v 22 21 = 1 → s.held.any wrote = false → feFull s x = false → x ≠ .nowhere →
      ∃ u, exec (.syncHostFill f c ⟨v, rem⟩) s = .next u ∧ rbit u (.hostAddr c) 23 = false ∧
      feFull u x = true ∧ feValue u (hostWord c v) = rget s (.hostData c) ∧
      (∀ b, b / 8 ≠ hostWord c v / 8 → feValue u b = feValue s b) ∧ u.cores = s.cores ∧ rfld u (.hostAddr c) 20 0 = bits v 20 0) ∧
    (∀ rem, feRemote s (hostWord c v) rem = [] → bits v 22 21 = 1 → s.held.any wrote = false → feFull s x = true →
      ∃ u e, exec (.syncHostFill f c ⟨v, rem⟩) s = .next u ∧ rbit u (.hostAddr c) 23 = true ∧ feFull u x = true ∧ SameMemory s u ∧
      u.cores = s.cores ∧ rfld u (.syncStat c) 63 48 = min 65535 (rfld s (.syncStat c) 63 48 + 1) ∧ rbit u (.syncStat c) 1 = true ∧
      u.log.inFlight = s.log.inFlight ++ [e] ∧ e.cause = stCode .feOverflow ∧ e.cls = clsNone ∧ e.inst = f.val) ∧
    (∀ rem, bits v 22 21 = 1 → s.held.any wrote = true → ∃ u, exec (.syncHostFill f c ⟨v, rem⟩) s = .next u ∧
      u.held = s.held ++ [.fill f (hostWord c v) (rget s (.hostData c))] ∧ u.cores = s.cores ∧ SameMemory s u) ∧
    (∀ rem, feRemote s (hostWord c v) rem = [] → bits v 22 21 = 2 → x ≠ .nowhere →
      ∃ u, exec (.syncHostDrain f c ⟨v, rem⟩) s = .next u ∧ rbit u (.hostAddr c) 23 = feFull s x ∧
      feFull u x = false ∧ (∀ b, feValue u b = feValue s b) ∧ u.cores = s.cores) ∧
    (bits v 22 21 = 3 → ∃ u, exec (.syncHostRead f c v) s = .next u ∧ rbit u (.hostAddr c) 23 = feFull s x ∧
      rget u (.hostData c) = feValue s (hostWord c v) ∧ feFull u x = feFull s x ∧ SameMemory s u ∧ u.cores = s.cores))) ∧
  (∀ (s : State) (f : FuncId) (c : CoreId) (k : Fin 64) (v : W64),
    HostOk s f (.semCnt c k) → (getCore s c).semOps = [] →
    ∃ u, exec (.semCntWrite f c k v) s = .next u ∧ (∀ j, j < 4 → semGet u c (4 * k.val + j) = bits v (16 * j + 15) (16 * j)) ∧
      (∀ n, n < 4 * k.val ∨ 4 * k.val + 4 ≤ n → semGet u c n = semGet s c n) ∧ SameMemory s u ∧ u.regs = s.regs ∧
      (∀ e : EngId, getEng u c e = getEng s c e) ∧ (∀ y : CoreId, y ≠ c → getCore u y = getCore s y)) ∧
  (∀ (s : State) (f : FuncId) (c : CoreId) (v : W64),
    HostOk s f (.semMode c) → NoIncs s (.semMode c) → ∃ u, exec (.registerWrite f (BitVec.ofNat 26 (regOff (.semMode c))) 8 v) s = .next u ∧
      rfld u (.semMode c) 3 0 = bits v 3 0 ∧ (∀ n, n < 256 → semWrap u c n = semWrap s c n) ∧ u.now = s.now ∧ SameMemory s u)) ∧
  (∀ (s : State) (f : FuncId) (n : N20) (v : W64),
    (HostOk s f (.syncWin n) → NoIncs s (.syncWin n) → bit v 63 = true → rbit s (.syncWin n) 63 = false → bits v 42 32 ≤ 1024 → bits v 19 0 ≤ 0xBFFFF →
      ∃ u, exec (.syncWinEnable f n v) s = .next u ∧ rbit u (.syncWin n) 63 = true ∧ rfld u (.syncWin n) 42 32 = bits v 42 32 ∧
        rfld u (.syncWin n) 19 0 = bits v 19 0 ∧ u.mem = s.mem ∧ u.cores = s.cores ∧
        ∀ k, k < 8 * bits v 42 32 → tget u.syncw ⟨0, false⟩ ((stkBase n + bits v 19 0 * 0x10000) / 8 + k) = ⟨0, false⟩ ∧
          tget u.syncp false ((stkBase n + bits v 19 0 * 0x10000) / 64 + k / 8) = false) ∧
    (HostOk s f (.syncWin n) → bit v 63 = false → rbit s (.syncWin n) 63 = true → bits v 42 32 = rfld s (.syncWin n) 42 32 →
      bits v 19 0 = rfld s (.syncWin n) 19 0 → winBusy s n = false →
      ∃ u, exec (.syncWinDisable f n v) s = .next u ∧ rbit u (.syncWin n) 63 = false ∧ rfld u (.syncWin n) 42 32 = bits v 42 32 ∧
        rfld u (.syncWin n) 19 0 = bits v 19 0 ∧ u.mem = s.mem ∧ u.cores = s.cores ∧ u.log = s.log) ∧
    (HostOk s f (.srng n) → ∃ u, exec (.srngSeedWrite f n v) s = .next u ∧
      rfld u (.srng n) 31 0 = (if bits v 31 0 = 0 then 1 else bits v 31 0) ∧ (∀ r, r ≠ .srng n → rget u r = rget s r) ∧
      u = { s with regs := u.regs }))

/-- REGISTER_WRITE of 8 aligned bytes to a register whose rule gives the write no effect of its own, by a function that exists and reaches
it, of a ready device: each field is left as its access code gives (RW and RWB set it unless the encoding is reserved, W1C clears the
bits written as 1, RO and WO keep it, a locked RWB keeps it; a counter that has counted in the same a-cycle adds its increments); bits
of no field keep their value; one general event is logged for each reserved encoding and one when the lock refuses; no other register of
any function and nothing else changes. NEXT_PARTITION_WRITE does the same to the next partition in MRAM. A write before READY changes
nothing, and is logged when it would set an enable; a write that the function does not reach logs ST_NOT_PERMITTED alone; a write or
read that is not 8 aligned bytes logs ST_ALIGN alone, and such a read returns zeros. The model's own choices: the fields of a logged
access (log 26), ST_ALIGN found before READY is asked (log 65), one event for each reserved field and for each locked write (log 66),
and that NEXT_PARTITION_WRITE keeps what the partition read (log 86). -/
def Obligations.RegisterWritesFollowTheirAccessCodes : Prop :=
  ∀ (s : State) (f : FuncId) (v : W64), funcExists s f = true →
    (∀ r, plainReg r = true → HostOk s f r → ∃ u, exec (.registerWrite f (BitVec.ofNat 26 (regOff r)) 8 v) s = .next u ∧ RegsOnly s u ∧
      (∀ x ∈ regFields r, bits (regVal u f r) x.hi x.lo = fldAfter (rbit s .prot 0) (incsOf s r x) x (regVal s f r) v) ∧
      (∀ i, i < 64 → (∀ x ∈ regFields r, i < x.lo ∨ x.hi < i) → bit (regVal u f r) i = bit (regVal s f r) i) ∧
      (∀ g q, ¬(q = r ∧ (regLocal r = true → g = f)) → regVal u g q = regVal s g q) ∧
      LogsExactly s u (List.replicate (((regFields r).filter (fldReserved (rbit s .prot 0) v)).length +
        (if rbit s .prot 0 && (regFields r).any (fun x => x.acc == .rwb) then 1 else 0)) ntGeneral)) ∧
    (∀ r, isNext r = true → HostOk s f r → ∃ u, exec (.nextPartitionWrite f (BitVec.ofNat 26 (regOff r)) v) s = .next u ∧
      (∀ x ∈ regFields r, bits (nextPart u r) x.hi x.lo = fldAfter false 0 x (nextPart s r) v) ∧
      (∀ q, isNext q = true → q ≠ r → nextPart u q = nextPart s q) ∧
      u = { s with log := u.log, fw := { s.fw with mram := { s.fw.mram with part := u.fw.mram.part } } } ∧
      LogsExactly s u (List.replicate ((regFields r).filter (fldReserved false v)).length ntGeneral)) ∧
    (∀ r, hubReady s = false → exec (.registerWrite f (BitVec.ofNat 26 (regOff r)) 8 v) s =
      .next (if setsEnable r v then logAccess s f (regOff r) ntGeneral else s)) ∧
    (∀ r, hubReady s = true → reaches s f (regOff r) true = false → exec (.registerWrite f (BitVec.ofNat 26 (regOff r)) 8 v) s =
      .next (logAccess s f (regOff r) (stCode .notPermitted))) ∧
    (∀ (off : BitVec 26) (len : Nat), len ≠ 8 ∨ off.toNat % 8 ≠ 0 →
      exec (.registerWrite f off len v) s = .next (logAccess s f off.toNat (stCode .align)) ∧
      exec (.bar0MisalignedRead f off len) s =
        .next { logAccess s f off.toNat (stCode .align) with out := .readReply f (List.replicate len 0) false :: s.out })

/-- MEMORY_REQUEST_ARRIVE with 1 to 64 bytes inside one line, once stage 1 has admitted accesses, at a stack of a slice that takes accesses
(log 123). At an address the map does not populate it stops with that fault. At a READY stack whose sector is found clean and where no
error is recorded: a write leaves its data in its bytes and every other byte of memory as it was, and the line's poison is the data's,
or stays set when the line is not covered whole; a read changes only what the cache holds; an element operation of one element leaves
the combination of the old value and the operand in its bytes and no other byte changed. A write to a retired page changes no byte and
raises HITS. A read that finds a sector uncorrectable tags it, counts it, records its address and logs ST_MEM_UNCORRECTABLE, and changes
no byte of another sector. A stack that is neither READY nor in RECAL, or whose retirement list is not loaded yet, receives nothing; at
a stack of no slice the access is refused with one event ST_PROTECTION (log 134). A stack's 48 GiB lie one to one on the 64
pseudo-channels of its 32 channels, 768 MiB on each. -/
def Obligations.MemoryAccessesApplyAtTheirOrderingPoint : Prop :=
  ∀ (s : State) (q : MemReq),
    let a := q.addr.toNat
    (placeOf a = .nothing → exec (.memoryRequestArrive q) s = .fault (.unpopulatedAddress a)) ∧
    (∀ n off, placeOf a = .stack n off → 0 < q.len → a % 64 + q.len ≤ 64 →
      (memUp s = true → (sectSlice s n).isSome = true → sectRekeys s n = false → rfld s (.mcState n) 63 60 = 2 → s.ecc = [] → homeOf s (a / 64) = .dram n →
        (q.found = .clean → q.kind = .write → ∃ u, exec (.memoryRequestArrive q) s = .next u ∧
          (∀ i, i < q.len → memBytes u (a + i) 1 = [nthD q.data i 0]) ∧ (∀ b, b < a ∨ a + q.len ≤ b → memBytes u b 1 = memBytes s b 1) ∧
          unitPoison u (a / 64) = (q.poison || (q.len != 64 && unitPoison s (a / 64))) ∧
          u = { s with mem := u.mem, poison := u.poison, cached := u.cached, dirty := u.dirty, freeCtr := u.freeCtr }) ∧
        (q.found = .clean → q.kind = .read → ∃ u, exec (.memoryRequestArrive q) s = .next u ∧
          u = { s with cached := u.cached, dirty := u.dirty, freeCtr := u.freeCtr }) ∧
        (q.found = .clean → q.kind ≠ .read → q.kind ≠ .write → q.len = redSize q.fmt → ∃ u, exec (.memoryRequestArrive q) s = .next u ∧
          memNat u a q.len = redCombine (reqWindow q.kind) q.fmt (memNat s a q.len) (fieldAt q.data 0 q.len)
            (if q.kind = .cas then fieldAt q.data q.len q.len else 0) % 2 ^ (8 * q.len) ∧
          (∀ b, b < a ∨ a + q.len ≤ b → memBytes u b 1 = memBytes s b 1) ∧
          u = { s with mem := u.mem, poison := u.poison, cached := u.cached, dirty := u.dirty, freeCtr := u.freeCtr }) ∧
        (q.found = .uncorrectable → q.kind = .read → tget s.cached false (a / 64) = false → unitPoison s (a / 64) = false →
          ∃ u ev, exec (.memoryRequestArrive q) s = .next u ∧ unitPoison u (a / 64) = true ∧
            rfld u (.eccCnt n) 31 16 = min 65535 (rfld s (.eccCnt n) 31 16 + 1) ∧ rbit u (.lastUe n) 63 = true ∧
            rfld u (.lastUe n) 35 0 = off / 64 * 64 ∧ (∀ b, b / 64 ≠ a / 64 → memBytes u b 1 = memBytes s b 1) ∧
            u.log.inFlight = s.log.inFlight ++ [ev] ∧ ev.cause = stCode .memUncorrectable)) ∧
      (memUp s = true → (sectSlice s n).isSome = true → sectRekeys s n = false → rfld s (.mcState n) 63 60 = 2 → homeOf s (a / 64) = .retired n → q.kind = .write →
        ∃ u, exec (.memoryRequestArrive q) s = .next u ∧ SameMemory s u ∧ (∀ r, r ≠ .retireStat n → rget u r = rget s r) ∧
          rfld u (.retireStat n) 31 0 = min (2 ^ 32 - 1) (rfld s (.retireStat n) 31 0 + 1)) ∧
      (memUp s = true → sectSlice s n = none → ∃ u ev, exec (.memoryRequestArrive q) s = .next u ∧ u = { s with log := u.log } ∧
        u.log.inFlight = s.log.inFlight ++ [ev] ∧ ev.cause = stCode .protection ∧ ev.unit = 3 ∧ ev.inst = n.val) ∧
      (memUp s = false ∨ ((sectSlice s n).isSome = true ∧ rfld s (.mcState n) 63 60 ≠ 2 ∧ rfld s (.mcState n) 63 60 ≠ 3) →
        exec (.memoryRequestArrive q) s = .next s)) ∧
    ∀ x y : Nat, x < 0xC00000000 → y < 0xC00000000 → (dramPlace x = dramPlace y → x = y) ∧ (dramPlace x).channel < 32 ∧ (dramPlace x).pseudo < 2 ∧
      (dramPlace x).off < 768 * 2 ^ 20 ∧ dramAddr (dramPlace x) = x

/-- An access that arrives at a stack in RECAL that belongs to a slice is held behind those before it and changes nothing else; when the
recalibration ends well, the stack is READY, the accesses that nothing else holds are applied in their order, the FILLs behind them go,
and the stack's BUU goes on. In a quiet slot in which no stack of its quadrant has recalibrated, HBM_PHY_RECAL takes a READY stack that
is due into RECAL, its time is kept and the slot is used for that quadrant; in a quiet slot that is used for the quadrant, while another
stack of it recalibrates, or where the stack is not due, it changes nothing. In the same way SERDES_RECAL recalibrates a port that is
due in a quiet slot in which none has, and changes nothing in one in which one has. A slot stays used until the time leaves it. -/
def Obligations.RecalibrationHoldsAccessesAndTakesOneSlot : Prop :=
  (∀ (s : State) (q : MemReq) (n : N20) (off : Nat), placeOf q.addr.toNat = .stack n off → 0 < q.len → q.addr.toNat % 64 + q.len ≤ 64 →
    memUp s = true → (sectSlice s n).isSome = true → rfld s (.mcState n) 63 60 = 3 → exec (.memoryRequestArrive q) s = .next { s with held := s.held ++ [.req q] }) ∧
  (∀ (s : State) (n : N20), rfld s (.mcState n) 63 60 = 3 → ∃ r, rfld r (.mcState n) 63 60 = 2 ∧
    r = { s with regs := r.regs, tb := { s.tb with overdue := r.tb.overdue } } ∧ (∀ x, x ≠ .mcState n → rget r x = rget s x) ∧
    exec (.hbmRecalEnd n true) s = .next (buuNext (releaseFills
      ((s.held.filter (heldFree r)).foldl applyHeld { r with held := s.held.filter fun q => !heldFree r q })) n)) ∧
  (∀ (s : State) (n : N20), quietSlot s = true → rfld s (.mcState n) 63 60 = 2 → memUp s = true →
    (slotFree s (n.val / 5) = true → quadRecal s n = false → recalDue s (.stack n) = true → ∃ u, exec (.hbmPhyRecal n) s = .next u ∧ rfld u (.mcState n) 63 60 = 3 ∧
      slotFree u (n.val / 5) = false ∧ quietSlot u = true ∧ (∀ x, x ≠ .mcState n → rget u x = rget s x) ∧
      u = { s with regs := u.regs, tb := { s.tb with used := n.val / 5 :: s.tb.used, last := tset s.tb.last 0 n.val s.tb.time } }) ∧
    (slotFree s (n.val / 5) = false ∨ quadRecal s n = true ∨ recalDue s (.stack n) = false → exec (.hbmPhyRecal n) s = .next s)) ∧
  (∀ (s : State) (p : PortId), quietSlot s = true →
    (slotFree s 4 = true → recalDue s (.port p) = true → ∃ u, exec (.serdesRecal p true) s = .next u ∧ slotFree u 4 = false ∧ quietSlot u = true ∧
      u = { s with tb := { s.tb with used := 4 :: s.tb.used, overdue := u.tb.overdue, last := tset s.tb.last 0 (20 + p.val) s.tb.time } }) ∧
    (slotFree s 4 = false ∨ recalDue s (.port p) = false → ∀ ok, exec (.serdesRecal p ok) s = .next s)) ∧
  (∀ (s : State) (t : Nat), (setTime s t).tb.used =
    if tickOf s t = tickOf s s.tb.time ∧ slotOf s t = s.tb.slot then s.tb.used else [])

/-- When the recalibration of a stack in RECAL fails, where no FILL of a host waited for a write that is dropped, the stack is FAILED,
nothing of it is held, no register but its state changes, one event NT_STACK_FAILED is logged, and where its section belongs to slice x
the event is of the slice-fatal class for x and the end of x's job is due for it. When the recalibration of a port that is due fails, in
a free quiet slot, or under UNSYNC while no slice uses the port, its LINK is 0 and no other register changes. Memory stays as it was. -/
def Obligations.FailedRecalibrationsFailTheirStackOrLink : Prop :=
  (∀ (s : State) (n : N20), rfld s (.mcState n) 63 60 = 3 → (freeFills [] (s.held.filter fun q => !heldBy n q)).1 = [] → ∃ u ev, exec (.hbmRecalEnd n false) s = .next u ∧ rfld u (.mcState n) 63 60 = 4 ∧
    u.held = s.held.filter (fun q => !heldBy n q) ∧ (∀ x, x ≠ .mcState n → rget u x = rget s x) ∧ SameMemory s u ∧
    u.log.inFlight = s.log.inFlight ++ [ev] ∧ ev.cause = ntStackFailed ∧ ev.unit = 3 ∧ ev.inst = n.val ∧
    (∀ x, sectSlice s n = some x → ev.cls = clsSlice ∧ ev.slice = x.val ∧ u.log.fatals = s.log.fatals ++ [(x.val, ntStackFailed, ev.id)]) ∧
    (sectSlice s n = none → ev.cls = clsNone ∧ u.log.fatals = s.log.fatals)) ∧
  (∀ (s : State) (p : PortId), (slotFree s 4 = true ∧ recalDue s (.port p) = true) ∨ (unsync s = true ∧ portUsed s p = false) →
    ∃ u, exec (.serdesRecal p false) s = .next u ∧ rbit u (.portStat p) 63 = false ∧ (∀ x, x ≠ .portStat p → rget u x = rget s x) ∧
      rfld u (.portStat p) 62 0 = rfld s (.portStat p) 62 0 ∧ SameMemory s u ∧ u.log = s.log)

/-- HBM_REFRESH of an open stack counts one refresh, or two above 85 °C, and changes no byte; DRAM_TEMP_UPDATE of an open stack sets its
temperature alone. PATROL_SCRUB_READ of a READY stack that is not being scrubbed, where no error is recorded: a sector found clean moves
the position past it, and at the end of the stack the pass is counted and the position returns to 0; no byte and no tag changes.
RECAL_OVERDUE, once ticks are made, of a unit that has been due for 250 ms and has no quiet slot available, marks it and logs
NT_RECAL_OVERDUE once: a second one, and one of a unit that has not, change nothing. RECAL_FORCED at the start of a tick takes a READY
stack that is overdue and has been due for 2 s, or under UNSYNC one whose slice is not RUNNING, into RECAL, and recalibrates a port that
is overdue and due for 2 s, or under UNSYNC one that no slice uses, whose mark is then clear; in a quiet slot it does so only where no
other stack of the quadrant, or port, has recalibrated in it, and uses the slot, so that another of them does not; at no other time does
it change anything. The model's own choices: the count of refreshes (log 9), a forced recalibration of a port that succeeds (log 87),
availability judged at the command (log 120). -/
def Obligations.StackUpkeepCompletes : Prop :=
  let forcedUsed (s : State) (k : Nat) : List Nat := if unsync s = false ∧ quietSlot s = true then k :: s.tb.used else s.tb.used
  (∀ (s : State) (n : N20), stackOpen s n = true →
    (let k := tget s.refreshes 0 n.val + (if 85 < rfld s (.mcState n) 7 0 then 2 else 1)
     exec (.hbmRefresh n) s = .next { s with refreshes := tset s.refreshes 0 n.val k }) ∧
    ∀ temp : Byte, ∃ u, exec (.dramTempUpdate n temp) s = .next u ∧ rfld u (.mcState n) 7 0 = temp.toNat ∧
      rfld u (.mcState n) 63 60 = rfld s (.mcState n) 63 60 ∧ (∀ x, x ≠ .mcState n → rget u x = rget s x) ∧ u = { s with regs := u.regs }) ∧
  (∀ (s : State) (n : N20) (b : Bool), rfld s (.mcState n) 63 60 = 2 → scrubbing s n = false → memUp s = true → s.ecc = [] →
    (∀ i, patrolNext s n 513 (tget s.patrol 0 n.val) = some i → ∃ u, exec (.patrolScrubRead n .clean b) s = .next u ∧ SameMemory s u ∧
      (i + 1 < stkSectors → tget u.patrol 0 n.val = i + 1 ∧ rfld u (.patrol n) 19 0 = (i + 1) / pageSectors ∧
        rfld u (.patrol n) 47 32 = rfld s (.patrol n) 47 32) ∧
      (i + 1 = stkSectors → tget u.patrol 0 n.val = 0 ∧ rfld u (.patrol n) 19 0 = 0 ∧
        rfld u (.patrol n) 47 32 = min 65535 (rfld s (.patrol n) 47 32 + 1)) ∧
      (∀ x, x ≠ .patrol n → rget u x = rget s x)) ∧
    (patrolNext s n 513 (tget s.patrol 0 n.val) = none → ∃ u, exec (.patrolScrubRead n .clean b) s = .next u ∧ SameMemory s u ∧
      tget u.patrol 0 n.val = 0 ∧ rfld u (.patrol n) 47 32 = min 65535 (rfld s (.patrol n) 47 32 + 1))) ∧
  (∀ (s : State) (x : RecalUnit), unsync s = false → tget s.tb.overdue false (unitKey x) = false → recalUnitUp s x = true →
    (slotAvail s x = true ∨ s.tb.time < recalDueAt s x + 250000000 → exec (.recalOverdue x) s = .next s) ∧
    (slotAvail s x = false → recalDueAt s x + 250000000 ≤ s.tb.time → ∃ u ev, exec (.recalOverdue x) s = .next u ∧ tget u.tb.overdue false (unitKey x) = true ∧ u.log.inFlight = s.log.inFlight ++ [ev] ∧
      ev.cause = ntRecalOverdue ∧ u.regs = s.regs ∧ SameMemory s u ∧ exec (.recalOverdue x) u = .next u)) ∧
  (∀ (s : State) (n : N20), (if unsync s then sectRunning s n = false else forcedNow s (.stack n) = true ∧ (quietSlot s = true → slotFree s (n.val / 5) = true ∧ quadRecal s n = false)) →
    rfld s (.mcState n) 63 60 = 2 → memUp s = true →
    ∃ u, exec (.recalForced (.stack n)) s = .next u ∧ rfld u (.mcState n) 63 60 = 3 ∧
      u = { s with regs := u.regs, tb := { s.tb with last := tset s.tb.last 0 n.val s.tb.time, used := forcedUsed s (n.val / 5) } } ∧
      ∀ x, x ≠ .mcState n → rget u x = rget s x) ∧
  (∀ (s : State) (p : PortId), (if unsync s then portUsed s p = false else forcedNow s (.port p) = true ∧ (quietSlot s = true → slotFree s 4 = true)) →
    let od := tset s.tb.overdue false (20 + p.val) false
    exec (.recalForced (.port p)) s = .next { s with tb := { s.tb with overdue := od, last := tset s.tb.last 0 (20 + p.val) s.tb.time, used := forcedUsed s 4 } }) ∧
  (∀ (s : State) (x : RecalUnit), unsync s = false → forcedNow s x = false ∨ (quietSlot s = true ∧ slotAvail s x = false) → exec (.recalForced x) s = .next s)

/-- A host write to STKnn_UPD_CTL, of a section in a slice, by a function that reaches it. EN = 1 to a HALTED unit: it runs, UPDATE_MODE and
a legal LIST_COUNT are as written, and at a step's start in an open stack that holds no accesses, whose next program names a word that
its controller may take, one TAKE of that word leaves. Where the slice's clutch is VALID or no vector waits in the slice, EN = 0 to a
RUNNING unit: it is DRAINING while a program's pass is in progress and HALTED otherwise, and its TAKE is withdrawn unless satisfied;
where vectors of all the other units of a slice without a valid clutch wait and this one ceases to take part, each unit's record is due
with their norm. ABORT, in the same case: the unit is HALTED at the start of a step with no sums and no norm, its TAKE is gone, one
event ST_ABORTED is logged and no byte of memory changes; in PHASE 3 the DONE word of the current program, where it has been read and
the controller may reach it, is to be filled with ST_ABORTED and the step, and otherwise no tag changes. NORM_RECORD_WRITE, by the host
or by the exchange unit with the record that is due: a record of the present step is accepted with its norm; one of another step is
counted and logged as ST_NORM_STALE and leaves the unit as it was. -/
def Obligations.UpdateControlWritesComplete : Prop :=
  ∀ (s : State) (f : FuncId) (n : N20) (v : W64),
    let b := getBuu s n
    let g := (parseUp (upBytes s n b.prog)).grad
    let mine (x : FeOp) : Bool := x.src == .bc n && x.kind == .take
    let alone : Bool := match sectSlice s n with | some x => clutchOn s x || (getFab s x).vecs.isEmpty | none => true
    (HostOk s f (.updCtl n) → (sectSlice s n).isSome = true →
      (bit v 0 = true → bit v 1 = false → b.mode = .halted → 1 ≤ bits v 42 32 → bits v 42 32 ≤ 1024 →
        (b.phase = 0 → stackOpen s n = true → sectHeld s n = false → bcTake s n = none → upIn s n b.prog = true → bcTarget s n g = true → ∃ u op, exec (.updateEnable f n v) s = .next u ∧
          getBuu u n = { b with mode := .running } ∧ rfld u (.updCtl n) 42 32 = bits v 42 32 ∧ rbit u (.updCtl n) 8 = bit v 8 ∧
          u.feOps = s.feOps ++ [op] ∧ mine op = true ∧ op.addr = g ∧ SameMemory s u ∧ u.cores = s.cores) ∧
        (b.phase ≠ 0 → ∃ u, exec (.updateEnable f n v) s = .next u ∧ getBuu u n = { b with mode := .running } ∧ u.feOps = s.feOps ∧
          SameMemory s u ∧ u.cores = s.cores)) ∧
      (bit v 0 = false → bit v 1 = false → b.mode = .running → alone = true → ∃ u, exec (.updateDrain f n v) s = .next u ∧
        getBuu u n = { b with mode := if b.begun then .draining else .halted } ∧
        u.feOps = s.feOps.filter (fun x => !(mine x && x.got.isNone)) ∧ SameMemory s u ∧ u.cores = s.cores) ∧
      (∀ x, bit v 0 = false → bit v 1 = false → b.mode = .running → b.begun = false → b.phase = 0 → b.prog = 0 → sectSlice s n = some x →
        clutchOn s x = false → n ∈ sliceSects s x → (∃ m ∈ sliceSects s x, m ≠ n ∧ takesPart s m = true) →
        (∀ m ∈ sliceSects s x, m ≠ n → takesPart s m = true → (getFab s x).vecs.any (fun w => w.1 == m.val) = true) →
        ∃ u r, exec (.updateDrain f n v) s = .next u ∧ r.setWidth 32 = normOf (sliceSums s x) ∧ (getFab u x).vecs = [] ∧
          ∀ m ∈ sliceSects s x, (getBuu u m).due = some r) ∧
      (bit v 1 = true → alone = true → bits v 42 32 = rfld s (.updCtl n) 42 32 → 1 ≤ bits v 42 32 → bits v 42 32 ≤ 1024 → ∃ u ev, exec (.updateAbort f n v) s = .next u ∧
        getBuu u n = { newStep b with mode := .halted, sums := [], due := none } ∧ u.feOps.all (fun x => !mine x) = true ∧
        u.mem = s.mem ∧ u.cores = s.cores ∧ u.log.inFlight = s.log.inFlight ++ [ev] ∧ ev.cause = stCode .aborted ∧
        (b.phase ≠ 3 → SameMemory s u ∧ u.feOps = s.feOps.filter fun x => !mine x) ∧
        (b.phase = 3 → tget b.progs [] b.prog ≠ [] → bcTarget s n (curProg b).done = true → ∃ op, u.feOps = (s.feOps.filter fun x => !mine x) ++ [op] ∧ op.src = .bc n ∧
          op.kind = .fill ∧ op.addr = (curProg b).done ∧ op.val = BitVec.ofNat 64 (stCode .aborted + rfld s (.updStep n) 31 0 * 2 ^ 32)))) ∧
    (∀ src, (match src with | NormSrc.host h => HostOk s h (.updNorm n) | .exchange => b.due = some v) →
      let d := match src with | NormSrc.host _ => b.due | .exchange => none
      ∃ u, exec (.normRecordWrite src n v) s = .next u ∧ SameMemory s u ∧ u.cores = s.cores ∧ rget u (.updNorm n) = v ∧
        (bits v 63 32 = rfld s (.updStep n) 31 0 → u.log = s.log ∧
          getBuu u n = { b with due := d, normValid := true, norm := v.setWidth 32 }) ∧
        (bits v 63 32 ≠ rfld s (.updStep n) 31 0 → getBuu u n = { b with due := d } ∧
          rfld u (.updStat n) 15 0 = min 65535 (rfld s (.updStat n) 15 0 + 1) ∧ LogsExactly s u [stCode .normStale]))

/-- In an open stack that holds no accesses for its commands that read it: BUU_GRAD_WORD_TAKEN of a RUNNING unit whose TAKE finds its word
full: the word is empty, the TAKE is gone and pass 1 of a valid program that lies in the stack has begun with its 128 bytes kept; a word
that is empty changes nothing. BUU_SPAN in pass 1 of a span without poison that is not the program's last: the sum goes on over the
span's updated positions in order, and nothing else changes; poison met in it refuses the program's group, which is counted and logged
as ST_UPDATE_POISON once in a step, while the sum goes on. BUU_PASS1_END after the last program: the unit waits for the norm with its
sums handed to the exchange unit of its slice. BUU_PASS2_PROGRAM once the norm has come: pass 2 of program 0 has begun with the values
of its group where the norm is finite and the group not refused; of a refused group pass 2 begins and ends without a value and writes
nothing. BUU_SPAN in pass 2 moves on one span and writes no byte but the codes of updated positions and the scale bytes of the span's
rows; where these share no bit and lie in DRAM, each holds its new value, rounded to nearest even or by its word of the section's
generator, and the chosen scale byte. BUU_PROGRAM_DONE of a program that has been read fills DONE_WORD with the status and step, and
goes to the next program, or after the last to the next step, whose number is one higher. No error is recorded in memory for the steps
that read it. The model's own choices: what a valid program and group entry are where R315 and R317 leave it open (logs 136, 138), the
entry read at pass 1 too (log 137), the positions of malformed blocks (logs 27, 135). -/
def Obligations.UpdateStepsComplete : Prop :=
  ∀ (s : State) (n : N20),
    let b := getBuu s n
    let p := curProg b
    let bs := upBytes s n b.prog
    (∀ op, b.mode = .running → b.phase = 0 → bcTake s n = some op → op.got = none →
      (feFull s (feCell s op.addr) = true → s.ecc = [] → stackOpen s n = true → sectHeld s n = false → upIn s n b.prog = true → upOk s n bs = true → groupValid s n (parseUp bs).group = true →
        ∃ u, exec (.buuGradWordTaken n) s = .next u ∧ feFull u (feCell u op.addr) = false ∧ u.feOps = s.feOps.filter (fun y => y.id != op.id) ∧
          getBuu u n = { b with phase := 1, begun := true, span := 0, acc := 0, progs := tset b.progs [] b.prog bs,
                                ovr := if b.prog = 0 then rbit s (.updCtl n) 8 else b.ovr } ∧
          u.mem = s.mem ∧ u.poison = s.poison ∧ u.log = s.log ∧ u.cores = s.cores) ∧
      (feFull s (feCell s op.addr) = false → exec (.buuGradWordTaken n) s = .next s)) ∧
    (b.begun = true → b.mode = .running ∨ b.mode = .draining → stackOpen s n = true → sectHeld s n = false → s.ecc = [] →
      (b.phase = 1 → b.span + 1 < spanTotal p → ∀ acc, (spanBlocks p b.span).foldl (pass1Block s n p) (b.acc, false) = (acc, false) →
        ∃ u, exec (.buuSpan n) s = .next u ∧ getBuu u n = { b with acc := acc, span := b.span + 1 } ∧ SameMemory s u ∧ u.log = s.log ∧
          u.cores = s.cores ∧ u.feOps = s.feOps) ∧
      (b.phase = 1 → b.span + 1 < spanTotal p → ∀ acc, (spanBlocks p b.span).foldl (pass1Block s n p) (b.acc, false) = (acc, true) →
        (tget b.refused false p.group = false → ∃ u ev, exec (.buuSpan n) s = .next u ∧ SameMemory s u ∧ u.cores = s.cores ∧ u.feOps = s.feOps ∧
          getBuu u n = { b with acc := acc, span := b.span + 1, refused := tset b.refused false p.group true, first := b.first.or (some s.log.nextEv) } ∧
          rfld u (.updStat n) 63 48 = min 65535 (rfld s (.updStat n) 63 48 + 1) ∧ u.log.inFlight = s.log.inFlight ++ [ev] ∧
          ev.cause = stCode .updatePoison ∧ ev.cls = clsSlice ∧ ev.inst = n.val ∧ ev.detail = mkDetail p.group 0) ∧
        (tget b.refused false p.group = true → ∃ u, exec (.buuSpan n) s = .next u ∧ SameMemory s u ∧ u.cores = s.cores ∧ u.feOps = s.feOps ∧
          getBuu u n = { b with acc := acc, span := b.span + 1 } ∧ u.log = s.log)) ∧
      (∀ q, b.phase = 3 → b.p2 = some q → b.span < spanTotal p → ∃ u, exec (.buuSpan n) s = .next u ∧
        getBuu u n = { b with span := b.span + 1 } ∧ (∀ a, ¬pass2Touches s n p q a → memBytes u a 1 = memBytes s a 1) ∧
        (SpanApart s n p q → (∀ j x, (spanCodes s n p q b.span)[j]? = some x →
            (readCode u x.fmt.width x.at_.1 x.at_.2).1 = (newCode x.fmt p.sat (spanRnd s n p j) x.use x.val).1 % 2 ^ x.fmt.width) ∧
          ∀ y ∈ spanScales s n p q b.span, memNat u y.1 1 = y.2.1.toNat) ∧
        u.cores = s.cores ∧ u.feb = s.feb ∧ u.feOps = s.feOps)) ∧
    (∀ x, b.mode = .running → b.phase = 1 → b.begun = false → lastProg s n b = true → sectSlice s n = some x → clutchOn s x = true →
      ∃ u, exec (.buuPass1End n) s = .next u ∧ getBuu u n = { b with phase := 2, sums := [] } ∧
        (getFab u x).vecs = (getFab s x).vecs ++ [(n.val, b.sums)] ∧ u = { s with buu := u.buu, fab := u.fab }) ∧
    (b.mode = .running → stackOpen s n = true → sectHeld s n = false → s.ecc = [] → b.phase = 2 → b.normValid = true → normBad b.norm = false → tget b.bad false 0 = false →
      (tget b.refused false (curProg { b with prog := 0 }).group = false → ∀ q, pass2Of s n (curProg { b with prog := 0 }) b = some q →
        ∃ u, exec (.buuPass2Program n) s = .next u ∧ getBuu u n = { b with prog := 0, phase := 3, begun := true, span := 0, p2 := some q } ∧
          u.mem = s.mem ∧ u.cores = s.cores ∧ u.feOps = s.feOps) ∧
      (tget b.refused false (curProg { b with prog := 0 }).group = true → ∃ u, exec (.buuPass2Program n) s = .next u ∧ u = { s with buu := u.buu } ∧
        getBuu u n = { b with prog := 0, phase := 3, begun := true, span := 0, p2 := none } ∧ exec (.buuSpan n) u = .next u)) ∧
    (b.phase = 3 → b.begun = true → b.mode = .running → b.p2 = none ∨ spanTotal p ≤ b.span → tget b.progs [] b.prog ≠ [] → bcTarget s n p.done = true →
      ∃ u op ops, exec (.buuProgramDone n) s = .next u ∧ u.feOps = s.feOps ++ op :: ops ∧ op.src = .bc n ∧ op.kind = .fill ∧ op.addr = p.done ∧
        op.val = BitVec.ofNat 64 (stCode (doneStatus b) + rfld s (.updStep n) 31 0 * 2 ^ 32) ∧ SameMemory s u ∧ u.cores = s.cores ∧
        (lastProg s n b = false → ops = [] ∧ getBuu u n = { b with prog := b.prog + 1, begun := false, span := 0, p2 := none } ∧
          u.regs = s.regs) ∧
        (lastProg s n b = true → rfld u (.updStep n) 31 0 = (rfld s (.updStep n) 31 0 + 1) % 2 ^ 32 ∧ (getBuu u n).normValid = false ∧
          (getBuu u n).mode = .running))

/-- DOORBELL_TAKE of a slice with a valid clutch and share left, when the next word of its ring is full: the word is empty, the ring's
position moves on by one of 64, and an exchange with the 64 bytes named waits behind the others where its descriptor lies in the slice,
on an open stack, is not poisoned and keeps its tables; a descriptor that does not is counted and logged as ST_INCONSISTENT and gives no
exchange, and one that is not read fills no DONE. On an empty word a TAKE begins to wait, and a word that has reached it is followed in
the same way; a word outside the slice is refused with ST_PROTECTION; a descriptor whose stack recalibrates changes nothing.
EXCHANGE_START, in a slot that has had the kind of the first exchange that has not begun from its start, when the timebase allows it and
every stack it needs is open: it has begun, and the channel to each peer of the exchange has as many more packets, and as many more
sequence numbers, as the exchange has pieces. EXCHANGE_COMPLETE of the first exchange whose last packets are all acknowledged: it is
gone, and a FILL of its DONE word with ST_OK is on its way. No stored byte changes but at a start, and no core. The model's own choices:
a TAKE that begins to wait at the command (log 133), the word outside the slice (log 134), the first exchange not begun and DONE outside
the slice (log 79), nothing done at a stack in RECAL (log 90), a slot met from its start (log 96). -/
def Obligations.ExchangesAreTakenSentAndCompleted : Prop :=
  ∀ (s : State) (x : N20),
    let t := getFab s x
    (let w := rfld s (.doorbell x) 43 0 / 64 * 64 + 8 * (t.bell % 64)
     let a := bits (feValue s w) 43 0
     let b := memBytes s a 64
     clutchOn s x = true → overShare s x = false → bellOp s x = none →
     (placeOf w ≠ .nothing → addrSlice s w ≠ some x → ∃ u, exec (.doorbellTake x) s = .next u ∧ LogsExactly s u [stCode .protection] ∧ u = { s with log := u.log }) ∧
     (addrSlice s w = some x → feFull s (feCell s w) = false → feCell s w ≠ .nowhere → ∃ u op, exec (.doorbellTake x) s = .next u ∧ u.feOps = s.feOps ++ [op] ∧
       bellOp u x = some op ∧ op.addr = w ∧ op.waiting = true ∧ op.got = none ∧ u = { s with feOps := u.feOps, nextOp := s.nextOp + 1 }) ∧
     (addrSlice s w = some x → feFull s (feCell s w) = true → unitPoison s (w / 64) = false → holdsRange s [(a, 64)] = false → inSlice s x a 64 = true →
         shutRange s [(a, 64)] = false → memPoison s a 64 = false → s.ecc = [] →
       ∃ u, exec (.doorbellTake x) s = .next u ∧ feFull u (feCell u w) = false ∧ u.mem = s.mem ∧ u.cores = s.cores ∧
         (xOk s x b = true → getFab u x = { t with bell := (t.bell + 1) % 64, exch := t.exch ++ [⟨b, s.tb.starts, false, []⟩] } ∧ u.log = s.log) ∧
         (xOk s x b = false → getFab u x = { t with bell := (t.bell + 1) % 64 } ∧ LogsExactly s u [stCode .inconsistent] ∧
           rfld u (.clStat x) 31 16 = min 65535 (rfld s (.clStat x) 31 16 + 1))) ∧
     (addrSlice s w = some x → feFull s (feCell s w) = true → holdsRange s [(a, 64)] = false → inSlice s x a 64 = false ∨ shutRange s [(a, 64)] = true → s.ecc = [] →
       ∃ u, exec (.doorbellTake x) s = .next u ∧ getFab u x = { t with bell := (t.bell + 1) % 64 } ∧ u.feOps = s.feOps ∧
         LogsExactly s u [stCode .inconsistent] ∧ rfld u (.clStat x) 31 16 = min 65535 (rfld s (.clStat x) 31 16 + 1)) ∧
     (addrSlice s w = some x → feFull s (feCell s w) = true → holdsRange s [(a, 64)] = true → exec (.doorbellTake x) s = .next s)) ∧
    (∀ op, clutchOn s x = true → bellOp s x = some op →
      (∀ v, op.got = some (v, false) → let a := bits v 43 0
        holdsRange s [(a, 64)] = false → inSlice s x a 64 = true → shutRange s [(a, 64)] = false → memPoison s a 64 = false → s.ecc = [] → xOk s x (memBytes s a 64) = true →
        ∃ u, exec (.doorbellTake x) s = .next u ∧ bellOp u x = none ∧ u.mem = s.mem ∧ u.cores = s.cores ∧ u.log = s.log ∧
          getFab u x = { t with bell := (t.bell + 1) % 64, exch := t.exch ++ [⟨memBytes s a 64, s.tb.starts, false, []⟩] }) ∧
      (op.got = none → feFull s (feCell s op.addr) = true → overShare s x = false → s.ecc = [] → ∃ u y, exec (.doorbellTake x) s = .next u ∧
        bellOp u x = some y ∧ y.got = some (feValue s op.addr, unitPoison s (op.addr / 64)) ∧ feFull u (feCell u op.addr) = false ∧ u.mem = s.mem) ∧
      (op.got = none → feFull s (feCell s op.addr) = false ∨ overShare s x = true → exec (.doorbellTake x) s = .next s)) ∧
    (clutchOn s x = false ∨ (overShare s x = true ∧ bellOp s x = none) → exec (.doorbellTake x) s = .next s) ∧
    (∀ e, t.exch.find? (fun y => !y.begun) = some e → timeOpen s = true → slotFor s x (parseX e.desc).kind = true →
        atStart s x e = true → holdsRange s (exchReads (parseX e.desc) ++ exchWrites s x (parseX e.desc)) = false →
        shutRange s (exchReads (parseX e.desc) ++ exchWrites s x (parseX e.desc)) = false →
      let d := parseX e.desc
      let n := (xPieces s x d).1.length
      ∃ u l, exec (.exchangeStart x) s = .next u ∧ u.cores = s.cores ∧ u.feOps = s.feOps ∧
        (getFab u x).exch = exchAt (fun y => !y.begun) (fun y => some { y with begun := true, last := l }) t.exch ∧
        l.map Prod.fst = (clPeers s x).filter (fun i => d.peers.testBit i) ∧
        ∀ i, i ∈ clPeers s x → d.peers.testBit i = true → let k := chanKey d.chan i
          (getTx u x k).next = ((getTx s x k).next + n) % 2 ^ 32 ∧
          (getTx u x k).sent.length + (getTx u x k).queue.length = (getTx s x k).sent.length + (getTx s x k).queue.length + n) ∧
    (∀ e, t.exch.find? (exchAcked s x) = some e → inSlice s x (parseX e.desc).done 8 = true → ∃ u op, exec (.exchangeComplete x) s = .next u ∧
      getFab u x = { t with exch := exchAt (exchAcked s x) (fun _ => none) t.exch } ∧ u.feOps = s.feOps ++ [op] ∧ op.kind = .fill ∧
      op.addr = (parseX e.desc).done ∧ op.val = 0 ∧ u = { s with fab := u.fab, feOps := u.feOps, nextOp := s.nextOp + 1 })

/-- IFT_DATA_RECEIVE on a port in service: a packet whose header is wrong, or that clutch, generation or firewall does not admit, raises
REJECT alone; an admitted one inside the slice, new and at most 4,096 after the mark, is held and nothing else changes but the tick
noted; one already landed or held is counted. PACKET_LAND of the packet after the mark, when no stack it lands on is in RECAL: the mark
moves on, and for a plain write without notify whose units all exist and are open, its payload stands at DST and no other byte changes;
a notify is a FILL of NOTIFY_ADDR with the sequence number, and one outside the slice is refused (log 134). ACK_TIMER and KEEPALIVE_ACK
send an ACK that carries the mark. IFT_ACK_RECEIVE releases every packet up to the mark it carries, and with nothing to send again, and
no room for the next packet's frame under the slice's cap of the interval, sends none of those that wait. RETRANSMIT_TIMEOUT sends the
packet again with RETRY where data may leave and nothing else waits in its channel, keeps it due where none may, and after eight tries
logs ST_PEER_SILENT with the peer; so does PEER_SILENT for a peer that is waited on and has been silent for PEER_TMO ticks, once for
each peer in a job. The model's own choices: the mark of channel 0 in a KEEPALIVE_ACK (log 18), the port of a frame, a free value among
those open (log 77), how a frame's bytes count (log 113). -/
def Obligations.PacketsLandInOrderAndAreAcknowledged : Prop :=
  ∀ (s : State),
    let goes (x : N20) (i : Nat) (b : List Byte) (u : State) : Prop :=
      ((∀ p, portOpen s x p = false) ∧ u.out = s.out) ∨ ∃ p, portOpen s x p = true ∧
        u.out = .frame p (BitVec.ofNat 128 ((rget s (.portAddr p)).toNat * 2 ^ 64 + memDev s x i)) (rfld s .fabDev 31 16) (udpSource x b) b :: s.out
    let ack (x : N20) (c i : Nat) : List Byte := mkPacket s x 1 0 (memSlice s x i) c 0 0 0 0 0 (getRx s x (chanKey c i)).mark.toNat 0 []
    (∀ p (pkt : IftPacket), portUp s p = true → (parseHdr pkt.bytes).type = 0 →
      let h := parseHdr pkt.bytes
      (hdrOk pkt.bytes = false ∨ admitted s p h = none → exec (.iftDataReceive p pkt) s = .next (rbump s (.portStat p) 15 0 1)) ∧
      (∀ x i, hdrOk pkt.bytes = true → admitted s p h = some (x, i) → dataInside s x h = true →
        let r := getRx s x (chanKey h.chan i)
        (seqAfter h.seq r.mark = true → r.held.any (fun y => y.1 == h.seq) = false → (h.seq - r.mark).toNat ≤ 4096 →
          ∃ u, exec (.iftDataReceive p pkt) s = .next u ∧ getRx u x (chanKey h.chan i) = { r with held := r.held ++ [(h.seq, pkt)] } ∧
            tget (getFab u x).lastIn 0 i = tickNow s ∧ u = { s with fab := u.fab }) ∧
        (seqAfter h.seq r.mark = false ∨ r.held.any (fun y => y.1 == h.seq) = true → ∃ u, exec (.iftDataReceive p pkt) s = .next u ∧
          rfld u (.portStat p) 47 32 = min 65535 (rfld s (.portStat p) 47 32 + 1) ∧ SameMemory s u ∧ goes x i (ack x h.chan i) u))) ∧
    (∀ (k : RxKey) i y, memberOf s k.slice k.dev.toNat k.src.toNat = some i →
      let r := getRx s k.slice (chanKey k.chan i)
      r.held.find? (fun y => y.1 == r.mark + 1) = some y →
      let h := parseHdr y.2.bytes
      let b := payload y.2.bytes
      holdsRange s [landRange h.action h.codec h.addr (h.flags.testBit 3) h.aux b] = false →
      ∃ u, exec (.packetLand k) s = .next u ∧ (getRx u k.slice (chanKey k.chan i)).mark = r.mark + 1 ∧
        (getRx u k.slice (chanKey k.chan i)).held = r.held.filter (fun z => z.1 != y.1) ∧ u.cores = s.cores ∧
        (h.flags % 2 = 0 → u.feOps = s.feOps) ∧
        (h.flags % 2 = 1 → placeOf h.notify ≠ .nothing → addrSlice s h.notify ≠ some k.slice → u.feOps = s.feOps) ∧
        (h.flags % 2 = 1 → addrSlice s h.notify = some k.slice → ∃ op, u.feOps = s.feOps ++ [op] ∧ op.kind = .fill ∧ op.addr = h.notify ∧ op.val = h.seq.setWidth 64) ∧
        (h.action = 0 → s.ecc = [] → shutRange s [(h.addr, b.length)] = false → (∀ j, j < b.length → ∀ n, homeOf s ((h.addr + j) / 64) ≠ .retired n ∧
            homeOf s ((h.addr + j) / 64) ≠ .nowhere) →
          (∀ j, j < b.length → memBytes u (h.addr + j) 1 = [nthD b j 0]) ∧
          ∀ a, a < h.addr ∨ h.addr + b.length ≤ a → memBytes u a 1 = memBytes s a 1)) ∧
    (∀ (k : RxKey) i, memberOf s k.slice k.dev.toNat k.src.toNat = some i → (getRx s k.slice (chanKey k.chan i)).unacked ≠ 0 →
      ∃ u, exec (.ackTimer k) s = .next u ∧ (getRx u k.slice (chanKey k.chan i)).unacked = 0 ∧ goes k.slice i (ack k.slice k.chan i) u ∧
        u = { s with fab := u.fab, out := u.out, freeCtr := u.freeCtr }) ∧
    (∀ p (pkt : IftPacket) x i, let h := parseHdr pkt.bytes
      portUp s p = true → h.type = 1 → hdrOk pkt.bytes = true → admitted s p h = some (x, i) →
      let t := getTx s x (chanKey h.chan i)
      ∃ u, exec (.iftAckReceive p pkt) s = .next u ∧ SameMemory s u ∧ u.regs = s.regs ∧
        ((getTx u x (chanKey h.chan i)).sent ++ (getTx u x (chanKey h.chan i)).queue).map TxPkt.seq =
          (t.sent.filter (fun q => seqAfter (BitVec.ofNat 32 q.seq) (BitVec.ofNat 32 h.aux)) ++ t.queue).map TxPkt.seq ∧
        (t.sent.any TxPkt.due = false → (∀ q, t.queue.head? = some q → (getFab s x).weight * 800000000 / 255 < (getFab s x).spent + frameLen q.bytes) →
          (getTx u x (chanKey h.chan i)).queue = t.queue ∧ u.out = s.out)) ∧
    (∀ (k : TxKey) (seq : BitVec 32) q, let t := getTx s k.slice (chanKey k.chan k.peer.val)
      t.sent.find? (fun z => z.seq == seq.toNat) = some q →
      (q.tries < 8 → dataOpen s k.slice = true → t.sent.any TxPkt.due = false → t.queue = [] →
        ∃ u, exec (.retransmitTimeout k seq) s = .next u ∧ goes k.slice k.peer.val (withRetry q.bytes) u ∧
        u = { s with fab := u.fab, out := u.out, freeCtr := u.freeCtr } ∧ (getTx u k.slice (chanKey k.chan k.peer.val)).sent =
          t.sent.map (fun z => if z.seq = q.seq then ⟨q.seq, withRetry q.bytes, q.tries + 1, false⟩ else z)) ∧
      (q.tries < 8 → dataOpen s k.slice = false → ∃ u, exec (.retransmitTimeout k seq) s = .next u ∧ u = { s with fab := u.fab } ∧
        (getTx u k.slice (chanKey k.chan k.peer.val)).sent = t.sent.map (fun z => if z.seq = q.seq then { z with due := true } else z)) ∧
      (8 ≤ q.tries → exec (.retransmitTimeout k seq) s = .next (peerSilent s k.slice k.peer.val))) ∧
    (∀ (x : N20) (i : Fin 8), clutchOn s x = true → (clPeers s x).contains i.val = true →
      (tget (getFab s x).lastOut 0 i.val + 16 ≤ tickNow s → ∃ u, exec (.keepaliveAck x i) s = .next u ∧
        goes x i.val (ack x 0 i.val) u ∧ tget (getFab u x).lastOut 0 i.val = tickNow s ∧
        u = { s with fab := u.fab, out := u.out, freeCtr := u.freeCtr }) ∧
      (waitsOn s x i.val = true → tget (getFab s x).lastIn 0 i.val + rfld s (.clCfg x) 7 0 ≤ tickNow s →
        (silentSaid s x i.val = false → ∃ u ev, exec (.peerSilent x i) s = .next u ∧
        u.log.inFlight = s.log.inFlight ++ [ev] ∧ ev.cause = stCode .peerSilent ∧ ev.cls = clsSlice ∧ ev.slice = x.val ∧ ev.detail = mkDetail 0 i.val ∧
        u = { s with log := u.log } ∧ exec (.peerSilent x i) u = .next u) ∧
        (silentSaid s x i.val = true → exec (.peerSilent x i) s = .next s)))

/-- On a port in service, with headers that keep their table: PROBE is answered to its source on its port with the timebase, tick and the
reader's mask of ended jobs, which is cleared; a PLAN from the clutch's master takes force at once when its tick is now, waits behind
others when it lies ahead, and is counted and logged as late when it has passed; PLAN_APPLY puts in force the first waiting plan that is
due, and counts one whose tick has passed, without an event (log 112). NORMSUM_SEND of a member that is not the master, when all its
vectors have come and the slot is open: they are gone, and the sums count as sent. A NORMSUM that the master receives for the present
step is added, and counted for its member; one for another step is counted as late and changes no sum. A NORMREC from the master: every
update unit of the slice accepts the norm of its step, and the slice's step word, where one is named, is filled, or refused where it
lies outside the slice (log 134). FRAME_DISCARD raises REJECT, and for a failing FCS FEC_UNCORR by the codewords it names. The model's
own choices: how many codewords a frame had (log 98), a master's sum that begins with a NORMSUM (log 19), the jobs that a PROBE_ACK
reports as running (log 74), the gates that PLAN, NORMSUM and NORMREC pass (log 75). -/
def Obligations.ClutchMessagesComplete : Prop :=
  ∀ (s : State) (p : PortId), portUp s p = true →
    (∀ n, exec (.frameDiscard p (.fcs n)) s = .next (rbump (rbump s (.portStat p) 15 0 1) (.portStat p) 62 48 n)) ∧
    (∀ why, (∀ n, why ≠ .fcs n) → exec (.frameDiscard p why) s = .next (rbump s (.portStat p) 15 0 1)) ∧
    ∀ (pkt : IftPacket), hdrOk pkt.bytes = true →
    let h := parseHdr pkt.bytes
    (h.type = 2 → ∃ u body x, exec (.probe p pkt) s = .next u ∧ x.val = h.dst ∧
      u.out = .frame p pkt.from_ (rfld s .fabDev 31 16) (udpSource x body) body :: s.out ∧ (parseHdr body).type = 3 ∧
      fieldAt (payload body) 0 8 = timeState s ∧ fieldAt (payload body) 8 8 = tickNow s ∧
      fieldAt (payload body) 20 4 = tget s.mp.ended 0 p.val % 2 ^ 32 ∧ tget u.mp.ended 0 p.val = 0 ∧
      u = { s with out := u.out, mp := { s.mp with ended := u.mp.ended } }) ∧
    (∀ x i, admitted s p h = some (x, i) →
      (h.type = 4 → h.len = 24 → i = clMaster s x →
        let q := planOf (payload pkt.bytes)
        (q.effective.toNat = tickNow s → ∃ u, exec (.plan p pkt) s = .next u ∧ (getFab u x).plan = q ∧ (getFab u x).pend = (getFab s x).pend ∧
          SameMemory s u ∧ u.cores = s.cores) ∧
        (tickNow s < q.effective.toNat → ∃ u, exec (.plan p pkt) s = .next u ∧ (getFab u x).plan = (getFab s x).plan ∧
          (getFab u x).pend = (getFab s x).pend ++ [q] ∧ u = { s with fab := u.fab }) ∧
        (q.effective.toNat < tickNow s → ∃ u, exec (.plan p pkt) s = .next u ∧ (getFab u x).plan = q ∧ SameMemory s u ∧ u.cores = s.cores ∧
          (∃ pre ev, u.log.inFlight = pre ++ [ev] ∧ ev.cause = stCode .planLate ∧ ev.slice = x.val) ∧
          rfld u (.clStat x) 47 32 = min 65535 (rfld s (.clStat x) 47 32 + 1))) ∧
      (h.type = 5 → clSelf s x = clMaster s x → i ≠ clSelf s x → sumsForm s x i h = true → (runFor s x h.aux).step ≠ h.aux →
        ∃ u, exec (.normsum p pkt) s = .next u ∧ (getFab u x).norm = (getFab s x).norm ∧
          rfld u (.clStat x) 63 48 = min 65535 (rfld s (.clStat x) 63 48 + 1) ∧ SameMemory s u) ∧
      (h.type = 5 → clSelf s x = clMaster s x → i ≠ clSelf s x → sumsForm s x i h = true → (runFor s x h.aux).step = h.aux → normOpen s x = false →
        let r := runFor s x h.aux
        ∃ u, exec (.normsum p pkt) s = .next u ∧ u = { s with fab := u.fab } ∧ (getFab u x).norm =
          some { r with sums := addSums r.sums (sumsOf h (payload pkt.bytes)), from_ := countFrom i r.from_ }) ∧
      (h.type = 6 → 9 ≤ h.len → i = clMaster s x → i ≠ clSelf s x →
        let step := fieldAt (payload pkt.bytes) 4 4
        let norm : W32 := BitVec.ofNat 32 (fieldAt (payload pkt.bytes) 0 4)
        ∃ u, exec (.normrec p pkt) s = .next u ∧ (getFab u x).norm = none ∧ SameMemory s u ∧
          (∀ n, n ∈ sliceSects s x → rget u (.updNorm n) = normRec step norm ∧
            (rfld s (.updStep n) 31 0 = step → getBuu u n = { getBuu s n with normValid := true, norm := norm })) ∧
          (rfld s (.stepw x) 43 0 ≠ 0 → placeOf (rfld s (.stepw x) 43 0) ≠ .nothing → addrSlice s (rfld s (.stepw x) 43 0) ≠ some x → u.feOps = s.feOps) ∧
          (rfld s (.stepw x) 43 0 ≠ 0 → addrSlice s (rfld s (.stepw x) 43 0) = some x → ∃ op, u.feOps = s.feOps ++ [op] ∧ op.kind = .fill ∧ op.addr = rfld s (.stepw x) 43 0 ∧
            op.val.setWidth 32 = BitVec.ofNat 32 step))) ∧
    (∀ x q, (getFab s x).pend.find? (planDue s) = some q → ∃ u, exec (.planApply x) s = .next u ∧ (getFab u x).plan = q ∧
      (getFab u x).pend = takeOut (planDue s) (getFab s x).pend ∧ SameMemory s u ∧ u.cores = s.cores ∧
      rfld u (.clStat x) 47 32 = min 65535 (rfld s (.clStat x) 47 32 + if q.effective.toNat < tickNow s then 1 else 0)) ∧
    (∀ x, clutchOn s x = true → vecsReady s x = true → normOpen s x = true → clSelf s x ≠ clMaster s x → ∃ u r, exec (.normsumSend x) s = .next u ∧
      (getFab u x).vecs = [] ∧ (getFab u x).norm = some r ∧ r.sent = true ∧ r.step = sliceStep s x ∧ SameMemory s u ∧ u.regs = s.regs)

/-- A valid PTP message on the port and in the domain of TIME_CTL records its offset and is followed by a delay request, and with fewer than
sixteen good ones in a row leaves the state; the sixteenth locks the timebase. The time is the message's, corrected by an offset within
1 µs, and outside UNSYNC the tick never falls. LOCKED becomes HOLDOVER on sync loss and HOLDOVER becomes UNLOCKED on its timeout, each
with one event. Outside UNSYNC, CHORUS_TICK brings the time to the next multiple of the period and CHORUS_SLOT_START to the next slot of
the period. TIMEBASE_ENABLE sets EN, port and domain; TIMEBASE_DISABLE returns to UNSYNC with tick 0. A port's EN is as written, 0 on
abort, and its LINK is 0 when it is disabled, when its cable goes or its link goes down; LINK rises for an enabled port with a cable. A
write that changes TIME_CHORUS while no clutch is VALID makes the slot, and outside UNSYNC the tick, those of the time.
FABRIC_QUOTA_INTERVAL takes the DATA bytes of the interval as its use, but for those still in transmission, puts the written weight in
force and marks a use above it. The model's own choices: one delay request for each message (log 99), the time that a message sets (log
76), what PORT_LINK_UP asks (log 78), a slot entered only at its start, not by a step or by TIME_CHORUS (log 96), and which bytes are in
transmission (log 113). -/
def Obligations.TimebaseAndPortsFollowTheirCommands : Prop :=
  ∀ (s : State) (f : FuncId) (p : PortId) (v : W64),
    let others (u : State) (q : Reg → Bool) : Prop := ∀ r, q r = false → rget u r = rget s r
    (∀ m : PtpMsg, portUp s p = true → rbit s .timeCtl 0 = true → rfld s .timeCtl 3 1 = p.val → rfld s .timeCtl 11 4 = m.domain.toNat →
      m.valid = true → let good := if (offsetOf m.offset).natAbs ≤ 100 then s.tb.good + 1 else 0
      ∃ u, exec (.ptpMessageReceive p m) s = .next u ∧ u.tb.good = good ∧ u.tb.time = timeAfter m ∧ rfld u .timeState 31 0 = m.offset.toNat ∧
        timeState u = (if 16 ≤ good then 1 else timeState s) ∧ tickNow s ≤ tickNow u ∧
        (timeState u ≠ 0 → tickNow u = max (tickNow s) (tickOf s (timeAfter m))) ∧ u.out = .delayReq p m.domain.toNat :: s.out ∧ SameMemory s u ∧ u.cores = s.cores ∧ u.fab = s.fab) ∧
    (timeState s = 1 → ∃ u, exec .ptpSyncLoss s = .next u ∧ timeState u = 2 ∧ u.tb = { s.tb with good := 0 } ∧ LogsExactly s u [ntTimeState] ∧
      others u (· == .timeState) ∧ SameMemory s u) ∧
    (timeState s = 2 → ∃ u, exec .holdoverTimeout s = .next u ∧ timeState u = 3 ∧ u.tb = s.tb ∧ LogsExactly s u [ntTimeState] ∧
      others u (· == .timeState) ∧ SameMemory s u) ∧
    (timeState s ≠ 0 → chorusP s ≠ 0 →
      (∃ u, exec .chorusTick s = .next u ∧ u.tb.time = (s.tb.time / chorusP s + 1) * chorusP s ∧ u.tb.slot = 0 ∧ u.tb.entered = true ∧ u.tb.starts = s.tb.starts + 1 ∧
        tickNow u = max (tickNow s) (s.tb.time / chorusP s + 1) % 2 ^ 64 ∧ SameMemory s u ∧ u.cores = s.cores) ∧
      (s.tb.slot < 15 → ∃ u, exec .chorusSlotStart s = .next u ∧ u.tb.slot = s.tb.slot + 1 ∧ u.tb.entered = true ∧
        u.tb.starts = s.tb.starts + 1 ∧ tickNow u = max (tickNow s) (s.tb.time / chorusP s) % 2 ^ 64 ∧
        SameMemory s u ∧ u.cores = s.cores)) ∧
    (HostOk s f .timeCtl → NoIncs s .timeCtl →
      (bit v 0 = true → ∃ u, exec (.timebaseEnable f v) s = .next u ∧ rbit u .timeCtl 0 = true ∧ rfld u .timeCtl 11 1 = bits v 11 1 ∧
        u = { s with regs := u.regs } ∧ others u (· == .timeCtl)) ∧
      (bit v 0 = false → ∃ u, exec (.timebaseDisable f v) s = .next u ∧ rbit u .timeCtl 0 = false ∧ timeState u = 0 ∧ tickNow u = 0 ∧
        SameMemory s u ∧ others u (fun r => r == .timeCtl || r == .timeState || r == .tick))) ∧
    (HostOk s f (.portCtl p) →
      (bit v 0 = true → bit v 1 = false → ∃ u, exec (.portEnable f p v) s = .next u ∧ rbit u (.portCtl p) 0 = true ∧ u = { s with regs := u.regs } ∧
        others u (· == .portCtl p)) ∧
      (bit v 0 = false → bit v 1 = false → ∃ u, exec (.portDrain f p v) s = .next u ∧ rbit u (.portCtl p) 0 = false ∧
        rbit u (.portStat p) 63 = false ∧ u = { s with regs := u.regs } ∧ others u (fun r => r == .portCtl p || r == .portStat p)) ∧
      (bit v 1 = true → ∃ u, exec (.portAbort f p v) s = .next u ∧ rbit u (.portCtl p) 0 = false ∧ rbit u (.portStat p) 63 = false ∧
        u = { s with regs := u.regs } ∧ others u (fun r => r == .portCtl p || r == .portStat p))) ∧
    (rbit s (.portCtl p) 0 = true → tget s.tb.cable false p.val = true → hubReady s = true → ∃ u, exec (.portLinkUp p) s = .next u ∧
      rbit u (.portStat p) 63 = true ∧ u = { s with regs := u.regs } ∧ others u (· == .portStat p)) ∧
    (∃ u, exec (.portLinkDown p) s = .next u ∧ rbit u (.portStat p) 63 = false ∧ rfld u (.portStat p) 62 0 = rfld s (.portStat p) 62 0 ∧
      u = { s with regs := u.regs } ∧ others u (· == .portStat p)) ∧
    (∀ b, ∃ u, exec (.cablePresenceChange p b) s = .next u ∧ tget u.tb.cable false p.val = b ∧ (b = false → rbit u (.portStat p) 63 = false) ∧
      (b = true → u.regs = s.regs) ∧ others u (· == .portStat p) ∧ SameMemory s u) ∧
    (HostOk s f .chorus → NoIncs s .chorus → (∀ x, clutchOn s x = false) →
      ∃ u, exec (.registerWrite f (BitVec.ofNat 26 (regOff .chorus)) 8 v) s = .next u ∧ SameMemory s u ∧ u.cores = s.cores ∧
        (rget u .chorus ≠ rget s .chorus → u.tb = { s.tb with slot := slotOf u s.tb.time, entered := false } ∧
          (timeState s ≠ 0 → tickNow u = tickOf u s.tb.time % 2 ^ 64)) ∧ (rget u .chorus = rget s .chorus → u.tb = s.tb)) ∧
    (∀ (x : N20) (late : Nat), ∃ u, exec (.fabricQuotaInterval x late) s = .next u ∧ (getFab u x).bytes = (getFab s x).spent - late ∧
      (getFab u x).weight = rfld s (.share x) 7 0 ∧ rbit u (.sliceState x) 56 = decide (rfld s (.share x) 7 0 < 255 * ((getFab s x).spent - late) / 800000000) ∧
      SameMemory s u ∧ u.cores = s.cores)

/-- SQ_DOORBELL sets TAIL below the ring's length, and logs ST_RING_DOORBELL alone otherwise; CQ_DOORBELL with no reply waiting sets the
host's position alone. PACKET_TAKE of an enabled ring with a packet waiting, of a function that takes packets: a failed fetch disables
the ring and logs ST_HOST_DMA; every fetch reads the slot at HEAD on behalf of the function; a packet for which no credit is free is
left; one that fails a check is passed and answered FINAL with the first check's status; one that passes is taken with the next number,
and answered ACCEPTED at once if it is of class A. PROGRESS_REPLY writes the work done when it does not decrease, the queue has room and
the reply is due: 1 % of the total done since the last one, or a second without one; else it writes nothing. RING_ENABLE with a SIZE of
4 to 16 sets EN, RING_DRAIN clears it, RING_ABORT also reads and passes the untaken packets and answers each in order FINAL with
ST_ABORTED, where the queue has room for them. RING_CONFIG_WRITE to a ring that is off with no packet taken, when no reply waits, sets
the field and clears pointers and phase, and to an enabled ring changes nothing but the log. The model's own choices: ACCEPTED leaves
when the packet is taken (log 67), the packets that an abort answers come with it (log 108), and a RING_CONFIG_WRITE counts although
SIZE repeats, while control writes keep SIZE (log 68). -/
def Obligations.RingsTakePacketsAndWriteReplies : Prop :=
  ∀ (s : State) (f : FuncId) (r : Fin 4) (v : W64),
    let n := bits v 12 8
    let cur := ffld s f (.ringCtl r) 12 8
    let read (i : Nat) : OutEv := .hostRead f (ffld s f (.ringSq r) 63 12 * 4096 + 64 * i) 64
    let slot := read (sqHead s f r)
    (HostOk s f (.sqdb r) →
      (bits v 15 0 < ringLen s f r → ∃ u, exec (.sqDoorbell f r v) s = .next u ∧ sqTail u f r = bits v 15 0 ∧ sqHead u f r = sqHead s f r ∧
        u = { s with fregs := u.fregs }) ∧
      (ringLen s f r ≤ bits v 15 0 → ∃ u, exec (.sqDoorbell f r v) s = .next u ∧ LogsExactly s u [stCode .ringDoorbell] ∧ u = { s with log := u.log })) ∧
    (HostOk s f (.cqdb r) → s.mp.replies = [] → ∃ u, exec (.cqDoorbell f r v) s = .next u ∧ ffld u f (.cqdb r) 15 0 = bits v 15 0 ∧
      ffld u f (.cqdb r) 47 32 = ffld s f (.cqdb r) 47 32 ∧ u = { s with fregs := u.fregs }) ∧
    (hubReady s = true → ringOn s f r = true → takesPackets s f = true → sqHead s f r ≠ sqTail s f r →
      (∃ u, exec (.packetTake f r none) s = .next u ∧ ringOn u f r = false ∧ LogsExactly s u [stCode .hostDma] ∧
        u = { s with fregs := u.fregs, log := u.log, out := .hostRead f (ffld s f (.ringSq r) 63 12 * 4096 + 64 * sqHead s f r) 64 :: s.out }) ∧
      ∀ b : List Byte, b.length = 64 →
        (pkOp b ≠ opPing → credits s f ≤ creditUse s f → exec (.packetTake f r (some b)) s = .next s) ∧
        (pkOp b = opPing ∨ creditUse s f < credits s f → CqFree s f r →
          (∀ st, firstChecks s f b = some st → ∃ u, exec (.packetTake f r (some b)) s = .next u ∧
            sqHead u f r = (sqHead s f r + 1) % ringLen s f r % 2 ^ 16 ∧ u.mp.taken = s.mp.taken ∧
            Posted s u f r (mkReply (stCode st) 0 0 (pkSeq b) 0 0 0 (replySlice s b)) (if pkIrq b then some r.val else none) ∧
            slot ∈ u.out ∧ SameMemory s u ∧ u.regs = s.regs ∧ u.log = s.log) ∧
          (let t : Taken := ⟨s.mp.nextId, f, r, b, false, 0, 0, false, false, none, none, s.tb.time⟩
           firstChecks s f b = none → turnOf { s with mp := { s.mp with taken := s.mp.taken ++ [t], nextId := s.mp.nextId + 1 } } t ≠ .badState →
           ∃ u, exec (.packetTake f r (some b)) s = .next u ∧ sqHead u f r = (sqHead s f r + 1) % ringLen s f r % 2 ^ 16 ∧
            u.mp.taken = s.mp.taken ++ [t] ∧ u.mp.nextId = s.mp.nextId + 1 ∧ SameMemory s u ∧ u.regs = s.regs ∧ u.log = s.log ∧
            (pkCls b = .a → Posted s u f r (mkReply (stCode .inProgress) 1 (opForm b) (pkSeq b) 0 (opTotal b) 0 (pkSlice b)) none) ∧
            slot ∈ u.out ∧ (pkCls b ≠ .a → u.out = slot :: s.out)))) ∧
    (∀ id done t, getTaken s id = some t → t.begun = true → pkProgress t.bytes = true → t.mute = false → t.owed = none → opForm t.bytes ≠ 0 →
      let d := if opForm t.bytes = 1 then done else t.done
      let due := (t.told < d ∧ opTotal t.bytes ≤ 100 * (d - t.told)) ∨ t.toldAt + 1000000000 ≤ s.tb.time
      (¬due → exec (.progressReply id done) s = .next s) ∧
      (due → t.told ≤ d → d ≤ opTotal t.bytes → CqFree s t.f t.ring → ∃ u, exec (.progressReply id done) s = .next u ∧
        u.mp.taken = s.mp.taken.map (fun y => if y.id = t.id then { t with done := d, told := d, toldAt := s.tb.time } else y) ∧
        Posted s u t.f t.ring (mkReply (stCode .inProgress) 2 (opForm t.bytes) (pkSeq t.bytes) d (opTotal t.bytes) 0 (pkSlice t.bytes)) none)) ∧
    (HostOk s f (.ringCtl r) →
      (bit v 0 = true → bit v 1 = false → n = cur ∨ ringOn s f r = false → 4 ≤ n → n ≤ 16 → ∃ u, exec (.ringEnable f r v) s = .next u ∧
        ringOn u f r = true ∧ ffld u f (.ringCtl r) 12 8 = n ∧ SameMemory s u ∧ u.regs = s.regs ∧ u.log = s.log ∧ u.out = s.out) ∧
      (bit v 0 = false → bit v 1 = false → n = cur → ∃ u, exec (.ringDrain f r v) s = .next u ∧ ringOn u f r = false ∧
        sqHead u f r = sqHead s f r ∧ sqTail u f r = sqTail s f r ∧ u = { s with fregs := u.fregs }) ∧
      (∀ bs : List (List Byte), bit v 1 = true → n = cur → n ≤ 16 → (∀ b ∈ bs, b.length = 64) → (sqTail s f r + ringLen s f r - sqHead s f r) % ringLen s f r = bs.length →
        s.mp.replies = [] → CqSpace s f r bs.length → ∃ u, exec (.ringAbort f r v bs) s = .next u ∧ ringOn u f r = false ∧ sqHead u f r = sqTail s f r ∧
        u.mp.replies = [] ∧ u.out = (finalEvents s f r .aborted bs).reverse ++ ((List.range bs.length).map fun i => read ((sqHead s f r + i) % ringLen s f r)).reverse ++ s.out) ∧
      (∀ bs, bit v 1 = true → n = cur → ∃ u, exec (.ringAbort f r v bs) s = .next u ∧ ringOn u f r = false ∧ sqHead u f r = sqTail s f r ∧
        SameMemory s u ∧ u.regs = s.regs)) ∧
    (∀ (k : RingReg) (g : Reg), (g = match k with | .size => .ringCtl r | .sq => .ringSq r | .cq => .ringCq r) → HostOk s f g →
      (ringOn s f r = true → ∃ u, exec (.ringConfigWrite f r k v) s = .next u ∧ LogsExactly s u [ntGeneral] ∧ u = { s with log := u.log }) ∧
      (ringOn s f r = false → ringTaken s f r = false → s.mp.replies = [] → ∃ u, exec (.ringConfigWrite f r k v) s = .next u ∧
        fget u f (.sqdb r) = 0 ∧ fget u f (.cqdb r) = 0 ∧ tget u.mp.phase true (ringKey f r) = true ∧
        (k = .size → ffld u f (.ringCtl r) 12 8 = n) ∧ (k ≠ .size → ffld u f g 63 12 = bits v 63 12) ∧
        SameMemory s u ∧ u.regs = s.regs ∧ u.log = s.log ∧ u.out = s.out))

/-- For a taken packet whose turn has come, with room for its reply. PING is answered with the tick, the running slices and the reader's
ended jobs, which are cleared; QUERY_SLICE with the slice's state register and its first stack's step. OPEN_SLICE, once the slice has no
access in flight and not before, draws a DEVICE key, changes no byte outside the slice, and makes the slice OPENING, CLOSE_SLICE makes
it CLOSING with its clutch invalid and its VF's rings off, SCRUB_SLICE of a slice that does not run makes it SCRUBBING: each has a scrub
under way and is not yet answered; SCRUB_SLICE without FORCE of a running slice is answered ST_SLICE_BUSY and changes nothing else.
While the scrub is one under a new key, an access to the slice's stacks is held (log 123). SLICE_SCRUB_COMPLETE, once nothing of the
slice runs and for CLOSE no access is in flight, with no access held and no stack of the slice in RECAL, where it waits: every byte of
its scratchpads and stacks outside retired pages reads 0 without poison, no byte elsewhere changes, and the packet is answered ST_OK;
after OPEN the slice is OPEN with its VF enabled and KEM_READY, after CLOSE it is CLOSED without key, after SCRUB it is OPEN. The
model's own choices: the running jobs of PING are the slices in RUNNING (log 74), and what counts as in flight (log 123). -/
def Obligations.SliceCommandsCompleteAndScrub : Prop :=
  ∀ (s : State) (id : Nat) (t : Taken), CqFree s t.f t.ring → t.mute = false →
    (TurnCome s id opPing t → ∃ u, exec (.ping id) s = .next u ∧
      Answered s u t .ok 0 (tickNow s) (sliceMask (sliceRunning s) + tget s.mp.ended 0 (readerFunc t.f) * 2 ^ 32) 0 ∧
      tget u.mp.ended 0 (readerFunc t.f) = 0 ∧ SameMemory s u ∧ u.cores = s.cores) ∧
    (∀ n, pkSl t.bytes = some n →
      (TurnCome s id opQuery t → ∃ u, exec (.querySlice id) s = .next u ∧ SameMemory s u ∧ u.cores = s.cores ∧
        Answered s u t .ok 0 (viewReg s t.f (.sliceState n)).toNat (match lowStack s n with | some k => rfld s (.updStep k) 31 0 | none => 0) 0) ∧
      (TurnCome s id opOpen t → packetMeets s id = true → exec (.openSlice id) s = .next s) ∧
      (TurnCome s id opOpen t → packetMeets s id = false → ∃ u, exec (.openSlice id) s = .next u ∧ sliceState u n = 1 ∧ keyState u n = 1 ∧
        (getSec u n).key = Config.drbgKey s.sp.keyDraws ∧ tget u.mp.scrub none n.val = some (.key t.id) ∧ Underway s u t ∧
        u.out = s.out ∧ u.cores = s.cores ∧ (∀ a, addrSlice s a ≠ some n → memBytes u a 1 = memBytes s a 1) ∧ u.poison = s.poison ∧
        u.feb = s.feb ∧ u.syncw = s.syncw ∧ u.ecc = s.ecc) ∧
      (TurnCome s id opClose t → ∃ u, exec (.closeSlice id) s = .next u ∧ sliceState u n = 5 ∧ clutchOn u n = false ∧
        tget u.mp.scrub none n.val = some (.packet t.id) ∧ getTaken u id = some { t with begun := true } ∧
        ∀ r, ringOn u (sliceFunc n) r = false) ∧
      (TurnCome s id opScrub t → pkF t.bytes 0 0 0 = 0 →
        (sliceRunning s n = false → ∃ u, exec (.scrubSlice id) s = .next u ∧ sliceState u n = 4 ∧ tget u.mp.scrub none n.val = some (.packet t.id) ∧
          Underway s u t ∧ u.out = s.out ∧ SameMemory s u ∧ u.cores = s.cores) ∧
        (sliceRunning s n = true → ∃ u, exec (.scrubSlice id) s = .next u ∧ Answered s u t .sliceBusy 0 0 0 0 ∧ sliceState u n = sliceState s n ∧
          SameMemory s u ∧ u.cores = s.cores)) ∧
      (∀ (j : Nat) (m : N20) (q : MemReq) (off : Nat), tget s.mp.scrub none n.val = some (.key j) → sectSlice s m = some n →
        placeOf q.addr.toNat = .stack m off → 0 < q.len → q.addr.toNat % 64 + q.len ≤ 64 → memUp s = true → stackOpen s m = true →
        exec (.memoryRequestArrive q) s = .next { s with held := s.held ++ [.req q] }) ∧
      ((∃ m ∈ sliceSects s n, inRecal s m = true) → exec (.sliceScrubComplete n) s = .next s) ∧
      ((∀ m ∈ sliceSects s n, inRecal s m = false) → tget s.mp.scrub none n.val = some (.key id) ∨ (tget s.mp.scrub none n.val = some (.packet id) ∧ sliceRunning s n = false ∧
          (sliceState s n = 5 → accessIn s n = false)) → s.held = [] → getTaken s id = some t → hubReady s = true →
        pkOp t.bytes = opOpen ∨ pkOp t.bytes = opClose ∨ pkOp t.bytes = opScrub →
        ∃ u, exec (.sliceScrubComplete n) s = .next u ∧ tget u.mp.scrub none n.val = none ∧ Answered s u t .ok 1 10000 10000 0 ∧
          (∀ a, addrSlice s a = some n → (∀ k m o, placeOf a ≠ .win k m o) → (∀ m, homeOf s (a / 64) ≠ .retired m) →
            memBytes u a 1 = [0] ∧ unitPoison u (a / 64) = false) ∧
          (∀ a, addrSlice s a ≠ some n → memBytes u a 1 = memBytes s a 1) ∧ (getSec u n).pm = List.replicate 32 0 ∧
          (pkOp t.bytes = opOpen → sliceState u n = 2 ∧ kemReady u n = true ∧ tget u.mp.vfOn false (sliceFunc n).val = true ∧
            rfld u (.share n) 7 0 = pkF t.bytes 0 7 0 ∧ tget u.mp.credits 0 (sliceFunc n).val = pkF t.bytes 0 47 32 ∧ (getSec u n).quota = 1024) ∧
          (pkOp t.bytes = opClose → sliceState u n = 0 ∧ keyState u n = 0 ∧ kemReady u n = false ∧ (getSec u n).key = [] ∧
            tget u.mp.vfOn false (sliceFunc n).val = false) ∧
          (pkOp t.bytes = opScrub → sliceState u n = 2)))

/-- For a taken packet whose turn has come, with room for its reply. With one core and one engine named: LOAD_PROGRAM writes the image, read
on behalf of its function, from its index in a bank that is open, or in the descriptor file of a HALTED engine, leaves every other
instruction, extends the slice's measurement and is answered ST_OK with 1 core; for the active bank of a RUNNING engine it writes
nothing, and ST_BANK_BUSY waits for the event that says so; with more cores it has written the first. START_ENGINES of a HALTED engine
runs it from the PC and bank named; STOP_ENGINES drains a RUNNING engine with nothing dispatched, which is HALTED. SET_CLUTCH with
members that the firewall admits makes the clutch valid with them and a generation one higher, and with CLEAR invalid; members outside
get ST_PROTECTION. SCHEDULE_MOULT at the master of a valid clutch puts its plan in force or keeps it for its tick. RETIRE_PAGE adds a
page to its stack's list, SET_QUOTA sets the quota and tells the use, QUERY_BUDGET tells what is left, SET_POWER_CAP takes the cap for
the next interval. The model's own choices: LOAD_PROGRAM's words of a descriptor file and its FINAL's form (log 69), what SET_QUOTA
takes (log 73), CLEAR raising GEN (log 80), one core per LOAD_PROGRAM command (log 110), the layout of a measurement (log 114). -/
def Obligations.ProgramAndSliceSettingsComplete : Prop :=
  ∀ (s : State) (id : Nat) (t : Taken), CqFree s t.f t.ring → t.mute = false →
    let b := t.bytes
    (∀ n, pkSl b = some n →
      (∀ c e, cselCores s n b = [c] → cselEngs b = [e] →
        (∀ img : List Byte, TurnCome s id opLoad t → t.load = none → let tg := pkF b 1 22 21; let i := pkF b 1 42 32; let k := loadCount b
          let w (j : Nat) : W128 := BitVec.ofNat 128 (fieldAt (bytesAt img 0 (16 * k)) (16 * j) 16)
          (tg < 2 → bankOpen (getEng s c e) (tg == 1) = true → k ≤ 2048 → ∃ u, exec (.loadProgram id (some img)) s = .next u ∧
            Answered s u t .ok 0 1 0 0 ∧ (∀ j, j < k → tget (getEng u c e).imem 0 (imKey (tg == 1) (i + j)) = w j) ∧
            (∀ x, (∀ j, j < k → x ≠ imKey (tg == 1) (i + j)) → tget (getEng u c e).imem 0 x = tget (getEng s c e).imem 0 x) ∧
            (getSec u n).pm = extendPm (getSec s n).pm b 1 (bytesAt img 0 (16 * k)) ∧ SameMemory s u) ∧
          (tg = 2 → (getEng s c e).mode = .halted → k ≤ 256 → ∃ u, exec (.loadProgram id (some img)) s = .next u ∧ Answered s u t .ok 0 1 0 0 ∧
            (∀ j m, j < k → m < 16 → 8 ≤ (i + j) % 256 →
              tget (getEng u c e).ldf 0 (16 * ((i + j) % 256) + m) = nthD (leBytes 16 (w j).toNat) m 0) ∧
            (getEng u c e).imem = (getEng s c e).imem ∧ SameMemory s u) ∧
          (tg < 2 → bankOpen (getEng s c e) (tg == 1) = false → ∃ u y, exec (.loadProgram id (some img)) s = .next u ∧
            getTaken u id = some y ∧ y.begun = true ∧ y.owed = some ⟨.bankBusy, 0, 0, 0, n.val, s.log.nextEv⟩ ∧ LogsExactly s u [stCode .bankBusy] ∧
            u.out = .hostRead t.f (pkP b 0) (16 * k) :: s.out ∧ u.cores = s.cores ∧ (getSec u n).pm = (getSec s n).pm)) ∧
        (TurnCome s id opStart t → StillCore s c → coreSlice s c = some n → (getEng s c e).mode = .halted → ∃ u, exec (.startEngines id) s = .next u ∧
          Answered s u t .ok 0 1 0 0 ∧ (getEng u c e).mode = .running ∧
          (getEng u c e).pc = (if pkF b 0 11 11 = 1 then BitVec.ofNat 11 (pkF b 0 10 0) else (getEng s c e).pc) ∧
          (getEng u c e).bank = (if pkF b 0 13 13 = 1 then pkF b 0 12 12 == 1 else (getEng s c e).bank) ∧ SameMemory s u ∧
          (∀ x, x ≠ e → getEng u c x = getEng s c x) ∧ ∀ x, x ≠ c → getCore u x = getCore s x) ∧
        (TurnCome s id opStop t → StillCore s c → (getEng s c e).mode = .running → (getEng s c e).wait = .none → quiet s c e = true →
          pkF b 0 0 0 = 0 → ∃ u, exec (.stopEngines id) s = .next u ∧ Answered s u t .ok 0 1 0 0 ∧ (getEng u c e).mode = .halted ∧
          (getEng u c e).pc = (getEng s c e).pc ∧ SameMemory s u)) ∧
      (∀ c x cs e (img : List Byte), cselCores s n b = c :: x :: cs → cselEngs b = [e] → pkF b 1 22 21 < 2 →
        bankOpen (getEng s c e) (pkF b 1 22 21 == 1) = true → TurnCome s id opLoad t → t.load = none →
        ∃ u, exec (.loadProgram id (some img)) s = .next u ∧ u.out = .hostRead t.f (pkP b 0) (16 * loadCount b) :: s.out ∧
          getTaken u id = some { t with begun := true, load := some ⟨bytesAt img 0 (16 * loadCount b), x :: cs, 1⟩, done := 16 * loadCount b }) ∧
      (TurnCome s id opClutch t →
        let ok := (List.range (pkF b 0 2 0 + 1)).all fun i => decide (rfld s (.fabfw n) 63 48 ≤ ckDev b i) && decide (ckDev b i ≤ rfld s (.fabfw n) 47 32)
        (pkF b 0 20 20 = 0 → ok = true → ∃ u, exec (.setClutch id) s = .next u ∧ Answered s u t .ok 0 ((clGen s n + 1) % 2 ^ 32) 0 0 ∧
          clutchOn u n = true ∧ clGen u n = (clGen s n + 1) % 2 ^ 32 ∧ clN u n = pkF b 0 2 0 + 1 ∧ clSelf u n = pkF b 0 8 6 ∧
          clMaster u n = pkF b 0 11 9 ∧ clShards u n = pkF b 0 5 3 + 1 ∧ rfld u (.clCfg n) 7 0 = pkF b 0 19 12 ∧
          (∀ i, i < 8 → memDev u n i = ckDev b i ∧ memSlice u n i = ckSlice b i) ∧ SameMemory s u ∧ u.cores = s.cores) ∧
        (pkF b 0 20 20 = 0 → ok = false → ∃ u, exec (.setClutch id) s = .next u ∧ Answered s u t .protection 0 0 0 0 ∧
          rget u (.clCfg n) = rget s (.clCfg n) ∧ u.fab = s.fab ∧ SameMemory s u) ∧
        (pkF b 0 20 20 = 1 → ∃ u, exec (.setClutch id) s = .next u ∧ Answered s u t .ok 0 ((clGen s n + 1) % 2 ^ 32) 0 0 ∧
          clutchOn u n = false ∧ clGen u n = (clGen s n + 1) % 2 ^ 32 ∧ SameMemory s u ∧ u.cores = s.cores)) ∧
      (TurnCome s id opMoult t → clutchOn s n = true → clSelf s n = clMaster s n → pkP b 1 % 2 ^ rfld s .chorus 12 8 = 0 →
        ∃ u, exec (.scheduleMoult id) s = .next u ∧ Answered s u t .ok 0 0 0 0 ∧ SameMemory s u ∧ u.cores = s.cores ∧
          (let q : Plan := ⟨BitVec.ofNat 64 (pkP b 0), BitVec.ofNat 64 (pkP b 1), BitVec.ofNat 64 (pkP b 2)⟩
           if tickNow s < pkP b 1 then (getFab u n).pend = (getFab s n).pend ++ [q] ∧ (getFab u n).plan = (getFab s n).plan
           else (getFab u n).plan = q ∧ (getFab u n).pend = (getFab s n).pend)) ∧
      (TurnCome s id opQuota t → let k := pkF b 0 1 0; let q := pkF b 1 31 0; let use := quotaUse s n k
        ∃ u, exec (.setQuota id) s = .next u ∧ Answered s u t (if q < use then .overQuota else .ok) 0 use 0 0 ∧
          (k = 0 → rfld u (.share n) 7 0 = q % 256) ∧ (k = 1 → (getSec u n).quota = q) ∧
          (2 ≤ k → tget u.mp.credits 0 (sliceFunc n).val = q) ∧ SameMemory s u ∧ u.cores = s.cores)) ∧
    (∀ n, TurnCome s id opRetire t → fin? 20 (pkF b 0 4 0) = some n → let p := pkF b 1 19 0; let k := rfld s (.retireStat n) 41 32
      (pageRetired s n p = false → k < 512 → ∃ u, exec (.retirePage id) s = .next u ∧ Answered s u t .ok 0 (k + 1) 0 0 ∧
        pageRetired u n p = true ∧ rfld u (.retireStat n) 41 32 = k + 1 ∧ tget u.fw.mram.retire [] n.val = tget s.fw.mram.retire [] n.val ++ [p] ∧
        SameMemory s u ∧ u.cores = s.cores) ∧
      (pageRetired s n p = false → 512 ≤ k → ∃ u, exec (.retirePage id) s = .next u ∧ Answered s u t .retireListFull 0 k 0 0 ∧ u.fw = s.fw)) ∧
    (TurnCome s id opBudget t → ∃ u, exec (.queryBudget id) s = .next u ∧ SameMemory s u ∧ u.sp = s.sp ∧ Answered s u t .ok 0
      (idRemain s + idPercent s * 2 ^ 32) (sessRemain s + (match pkSl b with | some n => (getSec s n).used | none => 0) * 2 ^ 32) 0) ∧
    (TurnCome s id opCap t → ∃ u, exec (.setPowerCap id) s = .next u ∧ u.mp.nextCap = some (pkF b 0 15 0) ∧ Answered s u t .ok 0 0 0 0 ∧
      SameMemory s u ∧ u.pwr = s.pwr)

/-- KEY_DELIVER to a slice that does not run and has no access in flight, with a DEVICE key and a key pair: the pair is destroyed, and a
delivered key with distinct halves is installed and counted with the slice SCRUBBING, and every stored sector of its stacks reads as its
ciphertext under the old key decrypts under the new; equal halves are answered ST_KEY_INVALID; while an access is in flight it changes
nothing. Once scrubbed, the slice is KEYED and OPEN and the packet answered. QUOTE of a slice that may be signed, with a well-formed
request: it is charged and joins the batch; a batch of one closes at once, as QUOTE_BATCH_CLOSE closes an open one: one session
signature is used, the reply buffer written, the packet answered ST_OK; a QUOTE that may not be signed is answered with its reason.
SESSION_TREE_GENERATED: the tree is there, and its message is signed with the next leaf, or held with an EVENT at a low budget, or
refused without signing state. CONFIRM_SIGN makes the signature held for it, and is answered ST_CONFIRM_MISMATCH where none is.
SIGN_CONFIRM_TIMEOUT ends a waiting activation with ST_BUDGET_LOW. The model's own choices: memory held in plaintext and decrypted again
under a new key (log 109), ACT_COUNT raised and EVENT_SEQ 0 at a refused signature (log 81), what is in flight (log 123). -/
def Obligations.KeysQuotesAndSignaturesComplete : Prop :=
  ∀ (s : State),
    (∀ (id : Nat) (t : Taken) (n : N20), CqFree s t.f t.ring → t.mute = false → pkSl t.bytes = some n →
      (∀ (k : List Byte × List Byte) (c : List Byte), TurnCome s id opKey t → sliceRunning s n = false → keyState s n = 1 → kemReady s n = true →
        (getSec s n).kem = some k →
        (packetMeets s id = true → exec (.keyDeliver id (some c)) s = .next s) ∧
        (packetMeets s id = false → let key := tenantKey s n k (bytesAt c 0 1568)
        (key.take 32 ≠ key.drop 32 → ∃ u, exec (.keyDeliver id (some c)) s = .next u ∧ (getSec u n).key = key ∧ kemReady u n = false ∧
          (getSec u n).kem = none ∧ rfld u (.sliceKey n) 31 0 = (rfld s (.sliceKey n) 31 0 + 1) % 2 ^ 32 ∧ sliceState u n = 4 ∧
          tget u.mp.scrub none n.val = some (.key t.id) ∧ Underway s u t ∧ u.cores = s.cores ∧
          (∀ a, addrSlice s a ≠ some n → memBytes u a 1 = memBytes s a 1) ∧ u.poison = s.poison ∧ u.feb = s.feb ∧
          (let us := (sliceSects s n).flatMap (storedSectors s)
           us.Nodup → ∀ v ∈ us, tget s.cached false v = false → tread u.mem memDefault (64 * v) 64 =
             bytesAt (Config.xtsDecrypt key v (Config.xtsEncrypt (slotKey s n) v (tread s.mem memDefault (64 * v) 64))) 0 64)) ∧
        (key.take 32 = key.drop 32 → ∃ u, exec (.keyDeliver id (some c)) s = .next u ∧ Answered s u t .keyInvalid 0 0 0 0 ∧
          (getSec u n).kem = none ∧ (getSec u n).key = (getSec s n).key ∧ SameMemory s u))) ∧
      (tget s.mp.scrub none n.val = some (.key id) → (∀ m ∈ sliceSects s n, inRecal s m = false) → s.held = [] → getTaken s id = some t → pkOp t.bytes = opKey →
        ∃ u, exec (.sliceScrubComplete n) s = .next u ∧ keyState u n = 2 ∧ sliceState u n = 2 ∧ Answered s u t .ok 0 0 0 0 ∧
          (getSec u n).key = (getSec s n).key) ∧
      (TurnCome s id opQuote t → s.sp.tree = true →
        (∀ st, quoteRefused s n = some st → ∃ u, exec (.quote id none) s = .next u ∧ Answered s u t st 0 0 0 0 ∧ u.sp = s.sp) ∧
        (∀ req : List Byte, quoteRefused s n = none → req.length = 64 → (∀ x ∈ req.drop 32, x = 0) → s.sp.batch = [] →
          (1 < batchLimit s → ∃ u q, exec (.quote id (some req)) s = .next u ∧ u.sp.batch = [q] ∧ q.id = t.id ∧
            q.body = quoteBody s n (req.take 32) ∧ u.sp.batchMax = batchLimit s ∧ (getSec u n).used = (getSec s n).used + 1 ∧
            u.sp.sessUsed = s.sp.sessUsed ∧ Underway s u t ∧ u.out = .hostRead t.f (pkP t.bytes 0) 64 :: s.out) ∧
          (batchLimit s = 1 → ∃ u buf, exec (.quote id (some req)) s = .next u ∧ u.sp.batch = [] ∧ (getSec u n).used = (getSec s n).used + 1 ∧
            u.sp.sessUsed = s.sp.sessUsed + 1 ∧ .hostWrite t.f (pkP t.bytes 1) buf ∈ u.out ∧
            buf.take 256 = (quoteBody s n (req.take 32)).take 256 ∧ Answered s u t .ok 0 buf.length 0 0))) ∧
      (∀ q, s.sp.batch = [q] → q.id = id → getTaken s id = some t → ∃ u buf, exec .quoteBatchClose s = .next u ∧ u.sp.batch = [] ∧
        u.sp.sessUsed = s.sp.sessUsed + 1 ∧ .hostWrite t.f q.buf buf ∈ u.out ∧ buf.take q.body.length = q.body ∧
        Answered s u t .ok 0 buf.length 0 0)) ∧
    (s.sp.batch = [] → exec .quoteBatchClose s = .next s) ∧
    (hubReady s = true → s.sp.tree = false →
      (canSign s = true → budgetLow s = false → s.sp.pend = [] → ∃ u, exec .sessionTreeGenerated s = .next u ∧ u.sp.tree = true ∧
        u.sp.sessSig = some (Config.hssSign (nextLeaf s) (sessMsg s)) ∧ u.fw.mram.mono = nextLeaf s + 1 ∧ u.fw.mram.nextA = some (nextLeaf s + 1) ∧
        u.fw.mram.nextB = some (nextLeaf s + 1) ∧ u.regs = s.regs ∧ SameMemory s u) ∧
      (canSign s = true → budgetLow s = true → CqFree s 0 0 → ∃ u, exec .sessionTreeGenerated s = .next u ∧ u.sp.tree = true ∧
        u.sp.pend = s.sp.pend ++ [.session] ∧ u.fw = s.fw ∧
        Posted s u 0 0 (mkReply (stCode .budgetLow) 3 0 0xFFFFFFFF noSeq (idRemain s) 0 0xFF) (some 4)) ∧
      (canSign s = false → ∃ u, exec .sessionTreeGenerated s = .next u ∧ u = { s with sp := { s.sp with tree := true, refused := true } })) ∧
    (∀ (id : Nat) (t : Taken), CqFree s t.f t.ring → t.mute = false →
      (TurnCome s id opConfirm t → pkF t.bytes 0 31 0 = noSeq → s.sp.pend = [.session] → canSign s = true → ∃ u, exec (.confirmSign id) s = .next u ∧
        u.sp.pend = [] ∧ u.sp.sessSig = some (Config.hssSign (nextLeaf s) (sessMsg s)) ∧ u.fw.mram.mono = nextLeaf s + 1 ∧
        Answered s u t .ok 0 0 0 0) ∧
      (TurnCome s id opConfirm t → s.sp.pend = [] → ∃ u, exec (.confirmSign id) s = .next u ∧ u.sp = s.sp ∧ u.fw = s.fw ∧
        Answered s u t .confirmMismatch 0 0 0 0) ∧
      (s.sp.pend = [.packet id] → s.fw.act.pkt = some id → getTaken s id = some t → ∃ u, exec .signConfirmTimeout s = .next u ∧ u.sp.pend = [] ∧
        u.fw.act.phase = 0 ∧ u.fw.act.pkt = none ∧ u.fw.mram = s.fw.mram ∧
        Answered s u t .budgetLow (opForm t.bytes) t.done (opTotal t.bytes) 0))

/-- UPDATE_FIRMWARE with nothing under way empties the inactive slot and marks it WRITING; otherwise it is answered ST_SLOT_BUSY.
HUSK_BLOCK_PROGRAMMED reads a block and adds one with a good CRC, the last making the slot VERIFYING; a block that fails or is not
fetched leaves the slot INVALID and ends the packet. SLOT_VERIFICATION_END leaves it VERIFIED or INVALID with the packet's answer.
ACTIVATE_FIRMWARE of a compatible VERIFIED slot counts ACT_COUNT and signs the new record with the next leaf, which becomes current;
refused, it is answered with the reason. PROCESSOR_SWAP swaps the processor whose turn it is, and its HEALTH_OK passes to the next;
after the MP's the pointer names the new slot and the packet is answered ST_OK. Runtime images of a boot post HEALTH_OK one by one, the
SP first with the version of the image it runs. FIRMWARE_REVERT restores the record and HUB_FW_IFV as the activation found it, keeps the
pointer, logs the processor, and ST_REVERTED waits for that event. FLASH_SLOT_ERASE empties an INVALID slot; MRAM_WEAR_MOVE moves a
record written 65,536 times to the next of its 8 locations with a generation one higher, and else changes nothing. -/
def Obligations.FirmwareCommandsComplete : Prop :=
  ∀ (s : State),
    let new := idleSlot s
    let a := s.fw.act
    (∀ (id : Nat) (t : Taken), CqFree s t.f t.ring → t.mute = false →
      (TurnCome s id opUpdate t →
        (fwBusy s = false → ∃ u, exec (.updateFirmware id) s = .next u ∧ getSlot u new = ⟨slWriting, []⟩ ∧
          u.fw.upd = some (t.id, pkF t.bytes 1 31 0 / 65536, 0) ∧ Underway s u t ∧ u.fw.mram = s.fw.mram ∧ u.regs = s.regs) ∧
        (fwBusy s = true → ∃ u, exec (.updateFirmware id) s = .next u ∧ Answered s u t .slotBusy 0 0 0 0 ∧ u.fw = s.fw)) ∧
      (∀ k n, s.fw.upd = some (id, k + 1, n) → getTaken s id = some t → pkOp t.bytes = opUpdate →
        (∀ b : List Byte, b.length = 65536 → blockOk b = true → t.cut = false → ∃ u, exec (.huskBlockProgrammed (some b)) s = .next u ∧
          (getSlot u new).blocks = (getSlot s new).blocks ++ [b] ∧ (getSlot u new).st = (if k = 0 then slVerifying else (getSlot s new).st) ∧
          u.fw.upd = some (id, k, n + 1) ∧ getTaken u id = some { t with done := 65536 * (n + 1) } ∧
          u.out = .hostRead t.f (pkP t.bytes 0 + 65536 * n) 65536 :: s.out) ∧
        (∀ x : Option (List Byte), (∀ b, x = some b → b.length = 65536 ∧ blockOk b = false) → ∃ u, exec (.huskBlockProgrammed x) s = .next u ∧
          (getSlot u new).st = slInvalid ∧ u.fw.upd = none ∧
          Answered s u t (if x.isSome then .huskInvalid else .hostDma) 2 t.done (opTotal t.bytes) 0)) ∧
      (∀ n, s.fw.upd = some (id, 0, n) → getTaken s id = some t → pkOp t.bytes = opUpdate → ∃ u, exec .slotVerificationEnd s = .next u ∧
        u.fw.upd = none ∧ (getSlot u new).blocks = (getSlot s new).blocks ∧
        (huskOk (getSlot s new).blocks = true → (getSlot u new).st = slVerified ∧ Answered s u t .ok 2 (opTotal t.bytes) (opTotal t.bytes) 0) ∧
        (huskOk (getSlot s new).blocks = false → (getSlot u new).st = slInvalid ∧ Answered s u t .huskInvalid 2 t.done (opTotal t.bytes) 0)) ∧
      (TurnCome s id opActivate t → fwBusy s = false →
        ((getSlot s new).st = slVerified → compatible (slotPay s (activeSlot s)) a.spMan (slotPay s new) = true → canSign s = true →
          budgetLow s = false → ∃ u rec_, exec (.activateFirmware id) s = .next u ∧ u.fw.mram.actCount = s.fw.mram.actCount + 1 ∧
            u.fw.mram.mono = nextLeaf s + 1 ∧ u.fw.mram.cur = some ⟨rec_, Config.hssSign (nextLeaf s) rec_⟩ ∧ u.fw.mram.old = s.fw.mram.cur ∧
            fieldAt rec_ 0 4 = (s.fw.mram.actCount + 1) % 2 ^ 32 ∧ fieldAt rec_ 8 4 = new.val ∧ u.fw.act.phase = 2 ∧ u.fw.act.unit = 0 ∧
            u.fw.act.ifv = rget s .fwIfv ∧ u.fw.act.pkt = some t.id ∧ u.fw.mram.active = s.fw.mram.active ∧ u.out = s.out) ∧
        ((getSlot s new).st ≠ slVerified → ∃ u, exec (.activateFirmware id) s = .next u ∧ Answered s u t .huskInvalid 0 0 0 0 ∧ u.fw = s.fw) ∧
        ((getSlot s new).st = slVerified → compatible (slotPay s (activeSlot s)) a.spMan (slotPay s new) = false →
          ∃ u, exec (.activateFirmware id) s = .next u ∧ Answered s u t .incompatible 0 0 0 0 ∧ u.fw = s.fw)) ∧
      (a.swapped = true → a.pkt = some id → getTaken s id = some t → pkOp t.bytes = opActivate →
        (a.phase = 4 → ∃ u, exec .healthOk s = .next u ∧ u.fw.mram.active = new ∧ u.fw.act.phase = 0 ∧ (getSlot u new).st = slActive ∧
          (getSlot u (activeSlot s)).st = slVerified ∧ Answered s u t .ok 4 26 26 0) ∧
        (2 ≤ a.phase → a.phase ≤ 4 → ∃ u, exec .firmwareRevert s = .next u ∧ u.fw.mram.cur = s.fw.mram.old ∧
          u.fw.mram.active = s.fw.mram.active ∧ u.fw.act.phase = 0 ∧ u.fw.slots = s.fw.slots ∧ rget u .fwIfv = a.ifv ∧ LogsExactly s u [stCode .reverted] ∧
          u.out = s.out ∧ getTaken u id = some { t with owed := some ⟨.reverted, 4, t.done, 26, 20, s.log.nextEv⟩ }))) ∧
    (2 ≤ a.phase → a.phase ≤ 4 → a.swapped = false → exec .processorSwap s = .next (putAct s { a with swapped := true })) ∧
    (a.phase = 2 → a.swapped = true → ∃ u, exec .healthOk s = .next u ∧ u.fw.act = (if a.unit < 19 then { a with unit := a.unit + 1, swapped := false }
      else { a with phase := 3, unit := 0, swapped := false }) ∧ u.fw.mram = s.fw.mram ∧ u.out = s.out) ∧
    (a.phase < 2 ∨ 4 < a.phase → s.fw.phase = .locked ∨ s.fw.phase = .ready → a.posted < 26 → ∃ u, exec .healthOk s = .next u ∧
      (a.posted = 0 → rfld u .fwIfv 31 16 = entIfv a.spMan roleSp % 65536) ∧ u.fw.act.posted = a.posted + 1 ∧ u.fw.act.phase = (if a.posted = 25 ∧ a.phase = 6 then 0 else a.phase) ∧ u.out = s.out) ∧
    (∀ i, (getSlot s i).st = slInvalid → fwBusy s = false → ∃ u, exec (.flashSlotErase i) s = .next u ∧ getSlot u i = ⟨slEmpty, []⟩ ∧
      (∀ j, j ≠ i → getSlot u j = getSlot s j) ∧ u = { s with fw := { s.fw with slots := u.fw.slots } }) ∧
    (∀ r, let w := getWear s.fw.mram r
      (w.writes < 65536 → exec (.mramWearMove r) s = .next s) ∧
      (65536 ≤ w.writes → ∃ u, exec (.mramWearMove r) s = .next u ∧ getWear u.fw.mram r = ⟨w.gen + 1, (w.loc + 1) % 8, w.writes - 65536⟩ ∧
        (∀ q, q ≠ r → getWear u.fw.mram q = getWear s.fw.mram q) ∧
        u = { s with fw := { s.fw with mram := { s.fw.mram with wear := u.fw.mram.wear } } }))

/-- EVENT_RECORD_ARRIVE takes the first event in flight: within 1 ms of its ring's newest record from the same source, where neither is
fatal, that record's repeat count rises and no record is added; otherwise it stands last in its ring with the next SEQ, the oldest
record making room in a ring of 4,096, counted as lost if nobody has read it; where that makes the ring enter loss, an NT_LOG_LOST
record with the SEQ lost goes before it; a slice-fatal record goes to the archive too, a refusal for poison once it is slice fatal; a
FINAL reply that waited for the event is posted with its SEQ. READ_LOG writes the records asked for in order, marks them read, and is
answered with their number and the SEQ after the last; READ_TELEMETRY writes the 832 bytes of the newest sample as the function may see
it. A watchdog of a base-die controller logs a slice-fatal event. JOB_END of an OPEN slice whose fatal record has come: the slice is
ENDING with its clutch invalid, its VF's rings off, its bit in every reader's mask and a scrub under way. JOB_END_COMPLETE after that
scrub: the slice is OPEN with LAST_EVENT set, one more job lost, and an EVENT with ST_JOB_LOST posted to PF and VF. The model's own
choices: a merged record takes the number of the event merged into it (log 63), the time at which a refusal for poison is archived (log
131), the mask bits set at JOB_END, JOBS_LOST and LAST_EVENT at JOB_END_COMPLETE (log 72). -/
def Obligations.EventsLogsAndJobEndsComplete : Prop :=
  ∀ (s : State),
    (∀ e r, s.log.inFlight = e :: r → hubReady s = true → let n := evRing e; let q := logRing s n
      let rec_ : LogRec := ⟨s.log.nextSeq, e, e.rep, false, false⟩
      (∀ t o, s.mp.taken = [t] → t.owed = some o → o.ring = n → o.ev = e.id → stCode o.st = e.cause → t.load = none → t.mute = false →
        CqFree s t.f t.ring → (∀ x ∈ r, x.id ≠ e.id) → q.length < 4096 → ∃ u, exec (.eventRecordArrive false) s = .next u ∧
        logRing u n = q ++ [rec_] ∧ Answered s u t o.st o.form o.done o.total s.log.nextSeq) ∧
      ((∀ t ∈ s.mp.taken, t.owed = none) →
      (∀ y, q.getLast? = some y → sameSource e y = true → ∃ u, exec (.eventRecordArrive true) s = .next u ∧ u.log.inFlight = r ∧
        logRing u n = q.dropLast ++ [{ y with rep := min 0xFFFF (y.rep + (1 + e.rep)), ev := { y.ev with id := e.id } }] ∧ u.log.nextSeq = s.log.nextSeq ∧ u.regs = s.regs) ∧
      (∀ soon, (soon = false ∨ ∀ y, q.getLast? = some y → sameSource e y = false) →
        (q.length < 4096 → ∃ u, exec (.eventRecordArrive soon) s = .next u ∧ u.log.inFlight = r ∧ logRing u n = q ++ [rec_] ∧
          u.log.nextSeq = s.log.nextSeq + 1 ∧ u = { s with log := u.log, fw := { s.fw with mram := u.fw.mram } } ∧
          (let fault : Prop := e.cls = clsSlice ∧ (e.cause ≠ stCode .updatePoison ∨ ∃ f ∈ s.log.fatals, f.2.2 = e.id)
           (¬fault → u.fw = s.fw) ∧ (fault → u.fw.mram.archive.getLast? = some rec_))) ∧
        (∀ o o2 q2, q = o :: o2 :: q2 → q.length = 4096 → o.read = false → tget s.log.loss false n = false →
          ∃ u, exec (.eventRecordArrive soon) s = .next u ∧ tget u.log.loss false n = true ∧
            logRing u n = q2 ++ [⟨s.log.nextSeq, lossEv s n o.seq, 0, false, false⟩, ⟨s.log.nextSeq + 1, e, e.rep, false, false⟩] ∧
            rfld u (logReg n) 63 48 = min 65535 (rfld s (logReg n) 63 48 + 1 + if o2.read then 0 else 1)) ∧
        (∀ o, q.head? = some o → q.length = 4096 → o.read = true ∨ tget s.log.loss false n = true → ∃ u, exec (.eventRecordArrive soon) s = .next u ∧
          logRing u n = q.drop 1 ++ [rec_] ∧
          rfld u (logReg n) 63 48 = (if o.read then rfld s (logReg n) 63 48 else min 65535 (rfld s (logReg n) 63 48 + 1)))))) ∧
    (∀ (id : Nat) (t : Taken), CqFree s t.f t.ring → t.mute = false →
      (TurnCome s id opLog t →
        let n := match pkSl t.bytes with | some x => x.val | none => 20
        let hide := match pkSl t.bytes with | some x => hidden s t.f x | none => false
        let got := ((logRing s n).filter fun r => decide (pkF t.bytes 1 31 0 ≤ r.seq)).take (pkF t.bytes 1 47 32)
        ∃ u, exec (.readLog id) s = .next u ∧ SameMemory s u ∧ u.regs = s.regs ∧
          Answered s u t .ok 0 got.length (match got.getLast? with | some r => r.seq + 1 | none => pkF t.bytes 1 31 0) 0 ∧
          (got ≠ [] → .hostWrite t.f (pkP t.bytes 0) (got.flatMap (logBytes hide)) ∈ u.out) ∧
          logRing u n = (logRing s n).map fun r => if got.any (fun y => y.seq == r.seq) then { r with read := true } else r) ∧
      (TurnCome s id opTele t → ∃ u, exec (.readTelemetry id) s = .next u ∧ Answered s u t .ok 0 832 0 0 ∧
        .hostWrite t.f (pkP t.bytes 0) (teleFor s t.f (bytesAt s.pwr.sample 0 832)) ∈ u.out ∧ u.pwr = s.pwr)) ∧
    (∀ n x, s.fw.phase ≠ .held → sectSlice s n = some x → ∃ u ev, exec (.watchdogExpiry (.bc n)) s = .next u ∧
      u.log.inFlight = s.log.inFlight ++ [ev] ∧ ev.cls = clsSlice ∧ ev.slice = x.val ∧ ev.unit = 3 ∧ ev.inst = n.val ∧ u = { s with log := u.log }) ∧
    (∀ (n : N20) (cause : Nat) x e, s.log.fatals.find? (fun y => y.1 == n.val && y.2.1 == cause) = some x → seqOf s n.val x.2.2 cause = some e →
      jobEnding s n = false → sliceState s n = 2 → ∃ u, exec (.jobEnd n cause) s = .next u ∧ sliceState u n = 3 ∧
        tget u.mp.jobE 0 n.val = max 1 e ∧ tget u.mp.scrub none n.val = some (if rekeying s n then .keyJob else .job) ∧ clutchOn u n = false ∧
        (∀ r, ringOn u (sliceFunc n) r = false) ∧ (∀ i, i < 29 → (tget u.mp.ended 0 i).testBit n.val = true) ∧
        (getFab u n).exch = [] ∧ (getFab u n).tx = []) ∧
    (∀ (n : N20), tget s.mp.jobE 0 n.val ≠ 0 → tget s.mp.scrub none n.val = none → CqFree s 0 0 → CqFree s (sliceFunc n) 0 →
      let e := tget s.mp.jobE 0 n.val
      ∃ u a b, exec (.jobEndComplete n) s = .next u ∧ sliceState u n = 2 ∧ rfld u (.sliceState n) 31 0 = e % 2 ^ 32 ∧
        rfld u (.sliceState n) 47 32 = min 65535 (rfld s (.sliceState n) 47 32 + 1) ∧ tget u.mp.jobE 0 n.val = 0 ∧
        Posted s u (sliceFunc n) 0 (mkReply (stCode .jobLost) 3 0 0xFFFFFFFF 0 0 e n.val) (some 4) ∧
        .hostWrite 0 a b ∈ u.out ∧ fieldAt b 0 2 = stCode .jobLost ∧ SameMemory s u)

/-- For a function that exists, of a ready device. BAR2_READ of bytes that its aperture maps and the firewall permits returns those bytes
with their poison and changes no byte; BAR2_WRITE of unpoisoned data to such bytes, none in a retired page, leaves the data there
without changing any other byte or full/empty bit. An access to a stack in RECAL, or to a slice that takes none under its new key, is
held. A refused access returns 0xFF bytes, or writes nothing, and logs one event with its status, or, within 1 ms of the function's
last, counts in it; a poisoned write is discarded with ST_PROTECTION. VF_FLR of a defined slice, PF_FLR and PERST_ASSERT return the
registers of the function, or of every function, to their reset values, drop its waiting replies and mute its packets, and leave memory,
the cores and the device's registers but for the link's width and speed, which PERST_ASSERT clears and PCIE_LINK_UP sets, logging one
event of a link that is not 16 wide at full speed. -/
def Obligations.FunctionsAndBar2Complete : Prop :=
  ∀ (s : State),
    (∀ (f : FuncId) (off : BitVec 36) (a : Nat), funcExists s f = true → hubReady s = true →
      (∀ len soon, 0 < len → bar2Check s f off len = (.ok, a) → holdsRange s [(a, len)] = true →
        exec (.bar2Read f off len soon) s = .next { s with held := s.held ++ [.read f a len] }) ∧
      (∀ (d : List Byte) soon, d ≠ [] → bar2Check s f off d.length = (.ok, a) → holdsRange s [(a, d.length)] = true →
        exec (.bar2Write f off d false soon) s = .next { s with held := s.held ++ [.write f a d] }) ∧
      (∀ len soon, 0 < len → bar2Check s f off len = (.ok, a) → holdsRange s [(a, len)] = false → s.ecc = [] → ∃ u, exec (.bar2Read f off len soon) s = .next u ∧
        u.out = .readReply f (memBytes s a len) (memPoison s a len) :: s.out ∧ u.mem = s.mem ∧ u.poison = s.poison ∧ u.cores = s.cores) ∧
      (∀ (d : List Byte) soon, d ≠ [] → bar2Check s f off d.length = (.ok, a) → holdsRange s [(a, d.length)] = false → s.ecc = [] →
        (∀ i, i < d.length → ∀ n, homeOf s ((a + i) / 64) ≠ .retired n) → ∃ u, exec (.bar2Write f off d false soon) s = .next u ∧
        (∀ i, i < d.length → memBytes u (a + i) 1 = [nthD d i 0]) ∧ (∀ b, b < a ∨ a + d.length ≤ b → memBytes u b 1 = memBytes s b 1) ∧
        u.feb = s.feb ∧ u.cores = s.cores ∧ u.log = s.log ∧ u.out = s.out) ∧
      (∀ len (d : List Byte) st, 0 < len → d.length = len → st ≠ .ok → bar2Check s f off len = (st, a) →
        tget s.mp.refusal none f.val = none → ∃ u w, exec (.bar2Read f off len false) s = .next u ∧
          u.out = .readReply f (List.replicate len 0xFF) false :: s.out ∧ LogsExactly s u [stCode st] ∧ SameMemory s u ∧
          exec (.bar2Write f off d false false) s = .next w ∧ w.out = s.out ∧ LogsExactly s w [stCode st] ∧ SameMemory s w) ∧
      (∀ (d : List Byte), d ≠ [] → bar2Check s f off d.length = (.ok, a) → tget s.mp.refusal none f.val = none →
        ∃ u, exec (.bar2Write f off d true false) s = .next u ∧ LogsExactly s u [stCode .protection] ∧ SameMemory s u) ∧
      (∀ len st id, 0 < len → st ≠ .ok → bar2Check s f off len = (st, a) → tget s.mp.refusal none f.val = some id →
        ∃ u, exec (.bar2Read f off len true) s = .next u ∧ u.log.inFlight.length = s.log.inFlight.length ∧
          ∀ e, e ∈ s.log.inFlight → e.id = id → { e with rep := min 0xFFFF (e.rep + 1) } ∈ u.log.inFlight)) ∧
    (let gone (u : State) (f : FuncId) : Prop := (∀ r, fget u f r = regReset r) ∧ (∀ x, x ∈ u.mp.replies → x.f ≠ f) ∧
       ∀ t, t ∈ u.mp.taken → t.f = f → t.mute = true
     (∀ n, sliceDefined s n = true → ∃ u, exec (.vfFlr n) s = .next u ∧ gone u (sliceFunc n) ∧ SameMemory s u ∧ u.regs = s.regs ∧
       u.cores = s.cores ∧ u.out = s.out ∧ ∀ f r, f ≠ sliceFunc n → fget u f r = fget s f r) ∧
     (∃ u, exec .pfFlr s = .next u ∧ (∀ f, gone u f) ∧ SameMemory s u ∧ u.regs = s.regs ∧ u.cores = s.cores ∧ u.out = s.out) ∧
     (∃ u, exec .perstAssert s = .next u ∧ (∀ f, gone u f) ∧ SameMemory s u ∧ u.cores = s.cores ∧ u.out = s.out ∧
       rfld u .hubFunc 4 0 = 0 ∧ rfld u .hubFunc 19 16 = 0 ∧ ∀ r, r ≠ .hubFunc → rget u r = rget s r)) ∧
    (∀ (w : Fin 17) (sp : Fin 7), s.fw.phase ≠ .held → s.fw.pinLow = false → w.val ≠ 0 → sp.val ≠ 0 → ∃ u, exec (.pcieLinkUp w sp) s = .next u ∧
      rfld u .hubFunc 4 0 = w.val ∧ rfld u .hubFunc 19 16 = sp.val ∧ (∀ r, r ≠ .hubFunc → rget u r = rget s r) ∧ SameMemory s u ∧
      LogsExactly s u (if w.val = 16 ∧ sp.val = 6 then [] else [ntGeneral]))

/-- WARM_RESET with WARM = 1 by a function that reaches HUB_RESET, RESET_PIN_ASSERT on a device not held, and DEVICE_FATAL_FAULT or the
watchdog of the MP, the SP or a QS in a device not held are warm resets with LAST_CAUSE WARM, RESET_PIN and DEVICE_FATAL: the device is
as after reset, its clocks locked, and boot may begin; the output record gains nothing. A device-fatal fault also leaves a record of its
unit in the event archive, and the loss of a clock source that source out of lock. POWER_ON_RESET_RELEASE frees a held device whose 48 V
input was last sampled at 42.5 V or more and that no thermal shutdown holds, with its clocks locked and the auxiliary input there, and
changes nothing else. AUX_INPUT_LOSS clears the THERMTRIP# latch and logs one NT_GENERAL event; a held device logs none, and its I3C
target keeps its address only while the 48 V input feeds it. The model's own choices: LOCK 0xF at the release and a warm reset, and a
lost source out of lock until boot (log 83), the cause NT_GENERAL in the archive and the hub switch's unit (log 64), the address lost
with the target's power (log 13). -/
def Obligations.ResetsReturnTheDeviceToItsResetState : Prop :=
  ∀ (s : State),
    let warm (u : State) (cause : Nat) : Prop := AfterReset s u .released cause ∧ rfld u .clkState 3 0 = 15 ∧ u.out = s.out
    let archived (u : State) (unit inst : Nat) : Prop := ∃ r, u.fw.mram.archive.getLast? = some r ∧ r.ev.cls = clsDevice ∧
      r.ev.cause = ntGeneral ∧ r.ev.unit = unit ∧ r.ev.inst = inst
    let fatal (u : State) (unit inst : Nat) : Prop := warm u 5 ∧ archived u unit inst
    (∀ f v, HostOk s f .hubReset → bit v 0 = true → ∃ u, exec (.warmReset f v) s = .next u ∧ warm u 3) ∧
    (∀ f v, bit v 0 = false → exec (.warmReset f v) s = .next s) ∧
    (s.fw.phase ≠ .held → ∃ u, exec .resetPinAssert s = .next u ∧ warm u 4 ∧ u.fw.pinLow = true) ∧
    (s.fw.phase ≠ .held →
      (∀ x ∈ [(FatalCause.mpState, 7), (.switchState, 7), (.spState, 8), (.exchangeState, 5)],
        ∃ u, exec (.deviceFatalFault x.1) s = .next u ∧ fatal u x.2 0) ∧
      ∀ (src : Fin 4) (die : Fin 5), ∃ w, exec (.deviceFatalFault (.clockLoss src die)) s = .next w ∧ AfterReset s w .released 5 ∧
        archived w 10 die.val ∧ w.out = s.out ∧ rbit w .clkState src.val = false ∧ ∀ i, i < 4 → i ≠ src.val → rbit w .clkState i = true) ∧
    (s.fw.phase ≠ .held → ∃ u w, exec (.watchdogExpiry .mp) s = .next u ∧ fatal u 7 0 ∧
      exec (.watchdogExpiry .sp) s = .next w ∧ fatal w 8 0 ∧ ∀ q, ∃ x, exec (.watchdogExpiry (.qs q)) s = .next x ∧ fatal x 9 q.val) ∧
    (s.fw.phase = .held → s.pwr.tripHold = false → 42500 ≤ s.pwr.lastMv → ∃ u, exec .powerOnResetRelease s = .next u ∧ u.fw = { s.fw with phase := .released } ∧
      rfld u .clkState 3 0 = 15 ∧ (∀ r, r ≠ .clkState → rget u r = rget s r) ∧ u = { s with fw := u.fw, regs := u.regs, pwr := { s.pwr with aux := true } }) ∧
    (s.fw.phase = .held → s.pwr.tripHold = true ∨ s.pwr.lastMv < 42500 → exec .powerOnResetRelease s = .next s) ∧
    (∃ u, exec .auxInputLoss s = .next u ∧ u.pwr = { s.pwr with latch := false, aux := false } ∧ LogsExactly s u (if s.fw.phase = .held then [] else [ntGeneral]) ∧
      u = { s with pwr := u.pwr, log := u.log, side := u.side } ∧
      u.side = if s.fw.phase = .held ∧ s.pwr.lastMv < 42500 then { s.side with dynAddr := none } else s.side)

/-- BOOT_ROM, with which RESET# has risen, and STAGE1_START, at STAGE 1, go on with the active slot where it passes, with the other one
where only that passes, and else stop boot with ST_HUSK_INVALID; stage 1 raises BOOT_COUNT, starts the a-clock at the lowest request and
puts every stack in training. A stack's training leaves it READY with its temperature, or FAILED, and the last one ends the step.
BOOT_PARTITION_LOCK of a device that holds no partition and whose key slots are empty gives every section to slice 0 but those of stacks
that are FAILED or whose list cannot be read, with one event each, loads the lists, and sets PROT_LOCK. PROT_LOCK_WRITE of 1 does the
same: it locks where the three checks pass and else stops boot with ST_INCONSISTENT; once the lock is set a write is refused with one
event. BOOT_READY draws a key for every slot and sets READY and STAGE, with the archive's new records in the device ring.
BOOT_ACTIVATION_TIMEOUT ends in a warm reset on the other slot where that is VERIFIED, and else holds READY at 0. The model's own
choices: PROT_LOCK_WRITE brings the loads with it (log 111), the marks INVALID and ACTIVE at a fallback (log 84), READY taken back by
the timeout (log 82), RESET# that rises at BOOT_ROM, with LOCK 0xF (log 83). -/
def Obligations.BootRunsItsSteps : Prop :=
  ∀ (s : State),
    let act := activeSlot s
    let idle := idleSlot s
    let ok (i : Fin 2) : Bool := romOk (slotBlocks s i) && huskOk (slotBlocks s i)
    let swapped (u : State) : Prop := u.fw.mram.active = idle ∧ (getSlot u act).st = slInvalid ∧ (getSlot u idle).st = slActive ∧
      LogsExactly s u [stCode .huskInvalid]
    let stop (u : State) (st : Status) : Prop := u.fw.phase = .stopped ∧ rfld u .bootStatus 63 48 = stCode st
    let began (u : State) : Prop := u.fw.phase = .stage1 ∧ u.bootCount = s.bootCount + 1 ∧ rfld u .bootStatus 47 40 = 1 ∧
      rfld u .clkState 63 54 = aclkTarget s.pwr ∧ rfld u .clkState 53 44 = aclkTarget s.pwr ∧ (∀ n, rfld u (.mcState n) 63 60 = 1) ∧ u.fw.trained = []
    (s.fw.phase = .released →
      (romOk (slotBlocks s act) = true → ∃ u, exec .bootRom s = .next u ∧ u.fw.phase = .rom ∧ u.fw.mram = s.fw.mram ∧
        u.fw.pinLow = false ∧ rfld u .clkState 3 0 = 15 ∧ (∀ r, r ≠ .clkState → rget u r = rget s r) ∧
        u = { s with fw := u.fw, regs := u.regs, side := { s.side with extest := false } }) ∧
      (romOk (slotBlocks s act) = false → romOk (slotBlocks s idle) = true → ∃ u, exec .bootRom s = .next u ∧ u.fw.phase = .rom ∧ swapped u) ∧
      (romOk (slotBlocks s act) = false → romOk (slotBlocks s idle) = false → ∃ u, exec .bootRom s = .next u ∧ stop u .huskInvalid)) ∧
    (s.fw.phase = .rom →
      (huskOk (slotBlocks s act) = true → ∃ u, exec .stage1Start s = .next u ∧ began u ∧ u.log = s.log) ∧
      (huskOk (slotBlocks s act) = false → ok idle = true → ∃ u, exec .stage1Start s = .next u ∧ began u ∧ swapped u) ∧
      (huskOk (slotBlocks s act) = false → ok idle = false → ∃ u, exec .stage1Start s = .next u ∧ stop u .huskInvalid ∧
        rfld u .bootStatus 47 40 = 1)) ∧
    (∀ n t, s.fw.phase = .stage1 → rfld s (.mcState n) 63 60 = 1 → ∃ u w, exec (.hbmStackTrainingDone n true t) s = .next u ∧
      exec (.hbmStackTrainingDone n false t) s = .next w ∧ rfld u (.mcState n) 63 60 = 2 ∧ rfld u (.mcState n) 7 0 = t.toNat ∧
      rfld w (.mcState n) 63 60 = 4 ∧ (∀ r, r ≠ .mcState n → rget u r = rget s r) ∧ u.fw.phase = w.fw.phase ∧
      (u.fw.phase = .trained ↔ ∀ m, m ≠ n → tget s.fw.trained false m.val = true)) ∧
    (s.fw.phase = .trained → s.fw.mram.part = none → (∀ k, k ≠ 0 → rget s (.keyslot k) = 0) →
      let dead (n : N20) : Bool := rfld s (.mcState n) 63 60 == 4 || (rfld s (.mcState n) 63 60 == 2 && tget s.fw.mram.retireBad false n.val)
      (∃ n, dead n = false) → ∃ u, exec .bootPartitionLock s = .next u ∧ u.fw.phase = .locked ∧ rfld u .prot 0 0 = 1 ∧ rfld u .prot 63 48 = 0 ∧
        (∀ n, rget u (.sectmap n) = if dead n then 0 else 0x80) ∧ rget u (.keyslot 0) = 0x80 ∧ rget u .pfBar2 = 1 ∧
        (∀ q, rget u (.rseq q) = 0x80) ∧ LogsExactly s u ((all20.filter dead).map fun _ => ntStackFailed) ∧
        (∀ n, dead n = false → rfld s (.mcState n) 63 60 = 2 → rfld u (.retireStat n) 41 32 = min 512 (tget s.fw.mram.retire [] n.val).length ∧
          ∀ (i : Fin 512) p, (tget s.fw.mram.retire [] n.val)[i.val]? = some p → rget u (.retireList n i) = BitVec.ofNat 64 (2 ^ 63 + p))) ∧
    (∀ v, s.fw.phase = .trained → bit v 0 = true → rbit s .prot 0 = false → ∃ u, exec (.protLockWrite v) s = .next u ∧
      exec .bootPartitionLock s = .next u ∧ (s.fw.mram.part = none → ∀ n, rget u (.sectmap n) = if rfld u (.mcState n) 63 60 = 4 then 0 else 0x80) ∧
      (if lockKeys u && lockFw u && lockEnc u then u.fw.phase = .locked ∧ rfld u .prot 0 0 = 1 ∧ rfld u .prot 63 48 = 0
        else stop u .inconsistent ∧ rfld u .prot 0 0 = 0 ∧ rfld u .prot 63 48 = stCode .inconsistent)) ∧
    (∀ v, rbit s .prot 0 = true → ∃ u, exec (.protLockWrite v) s = .next u ∧ LogsExactly s u [ntGeneral] ∧ u = { s with log := u.log }) ∧
    (s.fw.phase = .locked → ∃ u, exec .bootReady s = .next u ∧ u.fw.phase = .ready ∧ hubReady u = true ∧ rfld u .bootStatus 47 40 = 2 ∧
      rfld u .bootStatus 63 48 = 0 ∧ u.fw.mram.archNew = 0 ∧ (s.fw.act.fell = true → u.fw.act.phase = if s.fw.act.posted = 26 then 0 else 6) ∧ (∀ k : N20, tget u.sp.slotKeys [] k.val = Config.drbgKey (s.sp.keyDraws + k.val)) ∧
      (logRing u 20).map LogRec.ev = (logRing s 20).map LogRec.ev ++ (s.fw.mram.archive.drop (s.fw.mram.archive.length - s.fw.mram.archNew)).map LogRec.ev) ∧
    (s.fw.act.phase = 6 →
      ((getSlot s idle).st = slVerified → ∃ u, exec .bootActivationTimeout s = .next u ∧ AfterReset s u .released 6 ∧
        u.fw.mram.active = idle ∧ u.fw.mram.cur = (if s.fw.act.boot then s.fw.mram.old else s.fw.mram.cur) ∧ (getSlot u idle).st = slActive ∧ (getSlot u act).st = slVerified) ∧
      ((getSlot s idle).st ≠ slVerified → ∃ u, exec .bootActivationTimeout s = .next u ∧ u.fw.phase = .stopped ∧ hubReady u = false ∧
        LogsExactly s u [ntGeneral]))

/-- RAIL_MONITOR_SAMPLE of a device not held: a level beyond its reset threshold in this sample and the one before is a brownout, a cold
reset with LAST_CAUSE BROWNOUT, in which an I3C target without power loses its address; otherwise the levels are kept, MIN_MV follows
the lowest input, and a level below its warning twice while no dip lasts begins one, which asks for 400 MHz, keeps the lower of the two
input samples and raises an in-band interrupt; while it lasts, each level that crosses counts as low until it rises above its recovery
level. DIP_END of a dip with no level low counts it and ends its request. Where PWR_STAT names the active controls, each change of their
set, by a dip or by the power control, logs one NT_THROTTLE and raises its in-band interrupt. ACLK_CHANGE gives the a-clock the lowest
request and changes nothing else. VIN_MIN_CLEAR with CLEAR = 1 sets MIN_MV to 0xFFFF. POWER_CONTROL_INTERVAL brings a new cap into force
and judges the mean of the last ten intervals, unrounded: above the cap the request falls in the cap's proportion, in steps of 25 MHz
and not below 200, and at 95 % of it or less rises by 25 up to 800. The model's own choices: the mean over the intervals that there are
where fewer than ten have passed (log 12), recovery judged on single samples and the overvoltage event at the end of its excursion (log
85), the address lost with the target's power (log 13). -/
def Obligations.PowerAndClockControlsComplete : Prop :=
  ∀ (s : State),
    let agree : Prop := rfld s .pwrStat 2 0 = controls s.pwr
    (∀ x : RailSample, s.fw.phase ≠ .held →
      ((∃ i, nthD s.pwr.rst i false = true ∧ nthD (rstOf x) i false = true) → s.pwr.aux = true → ∃ u, exec (.railMonitorSample x) s = .next u ∧
        AfterReset s u .held 1 ∧ u.pwr.tripHold = false ∧ u.pwr.latch = s.pwr.latch ∧
        ∃ r, u.fw.mram.archive.getLast? = some r ∧ r.ev.cls = clsDevice ∧ r.ev.unit = 10) ∧
      ((∃ i, nthD s.pwr.rst i false = true ∧ nthD (rstOf x) i false = true) → s.pwr.aux = false → ∃ u, exec (.railMonitorSample x) s = .next u ∧
        u.fw.phase = .held ∧ rfld u .hubReset 63 56 = 1 ∧ u.side = (if x.vinMv < 42500 then { s.side with dynAddr := none } else s.side)) ∧
      ((∀ i, nthD s.pwr.rst i false = false ∨ nthD (rstOf x) i false = false) → ∃ u, exec (.railMonitorSample x) s = .next u ∧
        u.pwr.warn = warnOf x ∧ u.pwr.rst = rstOf x ∧ u.pwr.lastMv = x.vinMv ∧ rfld u .vinMin 31 16 = min (rfld s .vinMin 31 16) x.vinMv ∧
        SameMemory s u ∧ u.cores = s.cores ∧ u.fw = s.fw ∧
        (let cross (i : Nat) : Bool := nthD s.pwr.warn i false && nthD (warnOf x) i false
         let begins := ∃ i, cross i = true
         let above := if s.pwr.ovr && decide (x.vinMv ≤ 60000) then [ntGeneral] else []
         (begins → s.pwr.dip = false → u.pwr.dip = true ∧ u.pwr.dipMin = min s.pwr.lastMv x.vinMv ∧ .ibi 3 ∈ u.out ∧
            rfld u .pwrStat 1 1 = 1 ∧ rfld u .clkState 53 44 = min (min s.pwr.thermReq s.pwr.powReq) 400 ∧
            (agree → u.out = .ibi 1 :: .ibi 3 :: s.out ∧ LogsExactly s u (above ++ [ntThrottle]))) ∧
         (s.pwr.dip = true → s.pwr.warn.length = 9 → u.pwr.dip = true ∧ u.pwr.dipMin = min s.pwr.dipMin x.vinMv ∧ u.out = s.out ∧
            LogsExactly s u above ∧
            ∀ i, i < 9 → nthD u.pwr.low i false = (cross i || (nthD s.pwr.low i false && !nthD (upOf x) i false))) ∧
         (¬begins → s.pwr.dip = false → u.pwr.dip = false ∧ u.out = s.out ∧ LogsExactly s u above ∧ rget u .clkState = rget s .clkState)))) ∧
    (s.pwr.dip = true → s.pwr.low.any id = false → ∃ u, exec .dipEnd s = .next u ∧ u.pwr = { s.pwr with dip := false, low := [] } ∧
      rfld u .vinMin 63 48 = min 65535 (rfld s .vinMin 63 48 + 1) ∧ rfld u .clkState 53 44 = min (min s.pwr.thermReq s.pwr.powReq) 800 ∧
      rfld u .pwrStat 1 1 = 0 ∧ (agree → u.out = .ibi 2 :: s.out ∧ LogsExactly s u [ntThrottle]) ∧
      u = { s with pwr := u.pwr, regs := u.regs, incAt := u.incAt, incs := u.incs, log := u.log, out := u.out }) ∧
    (s.pwr.dip = false ∨ s.pwr.low.any id = true → exec .dipEnd s = .next s) ∧
    (coresUp s = true → ∃ u, exec .aclkChange s = .next u ∧ rfld u .clkState 63 54 = aclkTarget s.pwr ∧
      (∀ r, r ≠ .clkState → rget u r = rget s r) ∧ u = { s with regs := u.regs }) ∧
    (∀ f v, HostOk s f .vinMin → bit v 0 = true → ∃ u, exec (.vinMinClear f v) s = .next u ∧ rfld u .vinMin 31 16 = 0xFFFF ∧
      (∀ r, r ≠ .vinMin → rget u r = rget s r) ∧ RegsOnly s u) ∧
    (∀ f v, bit v 0 = false → exec (.vinMinClear f v) s = .next s) ∧
    (∀ watts, s.fw.phase ≠ .held → ∃ u, exec (.powerControlInterval watts) s = .next u ∧
      let win := (watts :: s.pwr.win).take 10
      let sum := win.sum
      let n := win.length
      let set := match s.mp.nextCap with | some c => c % 65536 | none => rfld s .pwrStat 31 16
      let cap := if set = 0 then 2200 else set
      u.pwr.win = win ∧ u.mp.nextCap = none ∧ rfld u .pwrStat 63 48 = sum / n % 65536 ∧ rfld u .pwrStat 31 16 = set ∧
      u.pwr.powReq = (if cap * n < sum then max 200 (rfld s .clkState 63 54 * cap * n / sum / 25 * 25)
        else if 100 * sum ≤ 95 * cap * n then min 800 (s.pwr.powReq + 25) else s.pwr.powReq) ∧
      (rfld u .pwrStat 3 3 = 1 ↔ cap * n < sum ∧ (u.pwr.powReq = 200 ∨ rfld s .pwrStat 3 3 = 1)) ∧ rfld u .clkState 53 44 = aclkTarget u.pwr ∧
      (∀ r, r ≠ .pwrStat → r ≠ .clkState → rget u r = rget s r) ∧ SameMemory s u ∧
      (agree → let was := decide (s.pwr.powReq < 800)
        let is := decide (u.pwr.powReq < 800)
        LogsExactly s u (if was = is then [] else [ntThrottle]) ∧ u.out = if was = is then s.out else .ibi (if is then 1 else 2) :: s.out))

/-- THERMAL_SAMPLE: a reading over the shutdown limits after one that was over them is a thermal shutdown, a cold reset with LAST_CAUSE
THERMAL that holds until every sensor is cool, with THERMTRIP# latched and an in-band interrupt, in a device held by a brownout too;
otherwise, in a device not held, the band is judged, and at every 100th sample PWR_TEMP takes the hottest junction in whole degrees, its
die, the hottest DRAM and the coolant. THERMAL_CONTROL_STEP lowers the thermal request by 25 MHz, not below 200, while hot, raises it up
to 800 while cool, and holds it between, with one NT_THROTTLE where the set of active controls changes. THERMAL_RESET_RELEASE frees the
reset once the highest reading is 85 °C or less. COOLANT_INLET_NOTICE logs one NT_GENERAL event while the inlet is above 45 °C.
TELEMETRY_SAMPLE makes one more sample of 832 bytes and counts the codewords that each port corrected; THERMAL_SENSOR_CALIBRATION counts
one on its die. Neither touches memory, another register or the log. The model's own choices: corrected codewords come with the sample
(log 98), PWR_TEMP's samples are counted from reset (log 85), and the count of calibrations is its own. -/
def Obligations.TemperatureControlAndTelemetryComplete : Prop :=
  ∀ (s : State),
    (∀ x : ThermSample,
      let tooHot : Prop := (∃ t ∈ x.tj, 1150 ≤ t) ∨ ∃ t ∈ x.dram, 105 ≤ t
      (s.fw.phase = .held → tooHot → s.pwr.trip = true → s.pwr.tripHold = false → ∃ u, exec (.thermalSample x) s = .next u ∧
        AfterReset s u .held 2 ∧ u.pwr.tripHold = true ∧ u.pwr.latch = true ∧ u.out = .ibi 4 :: s.out ∧ u.fw.mram.archive = s.fw.mram.archive) ∧
      (s.fw.phase = .held → ¬tooHot ∨ s.pwr.trip = false → ∃ u, exec (.thermalSample x) s = .next u ∧ (u.pwr.trip = true ↔ tooHot) ∧
        u = { s with pwr := { s.pwr with maxRead := u.pwr.maxRead, trip := u.pwr.trip } }) ∧
      (s.fw.phase ≠ .held → tooHot → s.pwr.trip = true → s.pwr.tripHold = false → ∃ u, exec (.thermalSample x) s = .next u ∧ AfterReset s u .held 2 ∧ u.pwr.tripHold = true ∧
        u.pwr.latch = true ∧ u.out = .ibi 4 :: s.out ∧ ∃ r, u.fw.mram.archive.getLast? = some r ∧ r.ev.cls = clsDevice ∧ r.ev.unit = 10) ∧
      (s.fw.phase ≠ .held → ¬tooHot ∨ s.pwr.trip = false → ∃ u, exec (.thermalSample x) s = .next u ∧
        (u.pwr.trip = true ↔ tooHot) ∧ (u.pwr.band = 1 ↔ (∃ t ∈ x.tj, 1000 ≤ t) ∨ ∃ t ∈ x.dram, 95 ≤ t) ∧
        (u.pwr.band = 2 ↔ (∀ t ∈ x.tj, t ≤ 970) ∧ ∀ t ∈ x.dram, t ≤ 92) ∧
        (s.pwr.temps + 1 < 100 → u.regs = s.regs ∧ u.pwr.temps = s.pwr.temps + 1) ∧
        (99 ≤ s.pwr.temps → u.pwr.temps = 0 ∧ (∀ t ∈ x.tj, min 255 (t / 10) ≤ rfld u .pwrTemp 63 56) ∧ (∀ t ∈ x.dram, min 255 t ≤ rfld u .pwrTemp 47 40) ∧
        (x.tj ≠ [] → ∃ i, i < x.tj.length ∧ (∀ t ∈ x.tj, t ≤ nthD x.tj i 0) ∧ rfld u .pwrTemp 63 56 = min 255 (nthD x.tj i 0 / 10) ∧
          rfld u .pwrTemp 55 53 = min 4 (i / 64)) ∧
        (x.dram ≠ [] → ∃ t ∈ x.dram, rfld u .pwrTemp 47 40 = min 255 t) ∧
        rfld u .pwrTemp 31 24 = min 255 x.inlet ∧ rfld u .pwrTemp 23 16 = min 255 x.outlet) ∧
        (∀ r, r ≠ .pwrTemp → rget u r = rget s r) ∧ u.pwr.thermReq = s.pwr.thermReq ∧ u = { s with pwr := u.pwr, regs := u.regs })) ∧
    (s.fw.phase ≠ .held → ∃ u, exec .thermalControlStep s = .next u ∧
      u.pwr = { s.pwr with thermReq := if s.pwr.band = 1 then max 200 (s.pwr.thermReq - 25) else if s.pwr.band = 2 then min 800 (s.pwr.thermReq + 25)
        else s.pwr.thermReq } ∧
      (s.pwr.band = 1 ∨ s.pwr.band = 2 → rfld u .clkState 53 44 = aclkTarget u.pwr ∧ (rfld u .pwrStat 0 0 = 1 ↔ u.pwr.thermReq < 800)) ∧
      (rfld s .pwrStat 2 0 = controls s.pwr → LogsExactly s u (if decide (s.pwr.thermReq < 800) = decide (u.pwr.thermReq < 800) then [] else [ntThrottle])) ∧
      (∀ r, r ≠ .clkState → r ≠ .pwrStat → rget u r = rget s r) ∧ u = { s with pwr := u.pwr, regs := u.regs, log := u.log, out := u.out }) ∧
    (∃ u, exec .thermalResetRelease s = .next u ∧ u = { s with pwr := { s.pwr with tripHold := s.pwr.tripHold && decide (850 < s.pwr.maxRead) } }) ∧
    (∃ u, exec .coolantInletNotice s = .next u ∧ LogsExactly s u (if 45 < rfld s .pwrTemp 31 24 then [ntGeneral] else []) ∧
      u = { s with log := u.log }) ∧
    (∀ x : TeleSample, hubReady s = true → ∃ u, exec (.telemetrySample x) s = .next u ∧ u.pwr.samples = s.pwr.samples + 1 ∧
      u.pwr.sample.length = 832 ∧ fieldAt u.pwr.sample 0 8 = (s.pwr.samples + 1) % 2 ^ 64 ∧
      fieldAt u.pwr.sample 16 2 = rfld s .pwrStat 63 48 ∧ fieldAt u.pwr.sample 20 2 = rfld s .clkState 63 54 ∧
      (∀ n : N20, fieldAt u.pwr.sample (64 + 32 * n.val) 1 = rfld s (.mcState n) 63 60 ∧
        fieldAt u.pwr.sample (64 + 32 * n.val + 1) 1 = rfld s (.mcState n) 7 0) ∧
      (∀ p : PortId, rfld u (.portFec p) 63 32 = min (2 ^ 32 - 1) (rfld s (.portFec p) 63 32 + nthD (nthD x.ports p.val []) 2 0)) ∧
      (∀ r, (∀ p, r ≠ .portFec p) → rget u r = rget s r) ∧ u = { s with pwr := u.pwr, regs := u.regs, incAt := u.incAt, incs := u.incs }) ∧
    (∀ d : Fin 5, hubReady s = true → ∃ u, exec (.thermalSensorCalibration d) s = .next u ∧
      u.pwr = { s.pwr with calib := tset s.pwr.calib 0 d.val (tget s.pwr.calib 0 d.val + 1) } ∧ u = { s with pwr := u.pwr })

/-- While the target has power, I3C_DYNAMIC_ADDRESS of a target without an address takes the address by ENTDAA, or by SETDASA at the static
address 0x30 + SLOT_ID and at no other; one that has an address keeps it. I3C_PRIVATE_READ answers eight bytes, least significant first:
the device word, HUB_BOOT_STATUS, PWR_STAT, PWR_TEMP, LAST_CAUSE, the THERMTRIP latch, and zeros at any other offset.
I3C_THERMTRIP_CLEAR of a byte with bit 0 set clears the latch, and any other byte changes nothing; without power none of the three has
an effect. While the 48 V input feeds the device, and not otherwise, JTAG_BYPASS scans one cell of 0 and JTAG_IDCODE the 32 bits of the
IDCODE, whose bit 0 is 1; SAMPLE/PRELOAD scans the cells captured and stores those shifted in, and EXTEST drives the pins, captures them
and stores new cells, free values (log 140), while RESET# is low, and both act as BYPASS otherwise. TEST_LOGIC_RESET returns the pins to
the device. None of them touches anything but its own port and the output record. -/
def Obligations.SidebandAndTestPortsAnswer : Prop :=
  ∀ (s : State),
    (i3cUp s = false → ∀ a b d, exec (.i3cDynamicAddress a) s = .next s ∧ exec (.i3cPrivateRead b) s = .next s ∧
      exec (.i3cThermtripClear d) s = .next s) ∧
    (∀ a, i3cUp s = true → s.side.dynAddr = none →
      exec (.i3cDynamicAddress (.entdaa a)) s = .next { s with side := { s.side with dynAddr := some a } } ∧
      ∀ st : BitVec 7, exec (.i3cDynamicAddress (.setdasa st a)) s =
        .next (if st.toNat = 0x30 + s.side.slotId then { s with side := { s.side with dynAddr := some a } } else s)) ∧
    (∀ x, s.side.dynAddr ≠ none → exec (.i3cDynamicAddress x) s = .next s) ∧
    (∀ off : Byte, i3cUp s = true → ∃ b, exec (.i3cPrivateRead off) s = .next { s with out := .i3cRead b :: s.out } ∧ b.length = 8 ∧
      (off = 0x00 → fieldAt b 0 2 = 0x4958) ∧ (off = 0x08 → leNat b = (rget s .bootStatus).toNat) ∧
      (off = 0x10 → leNat b = (rget s .pwrStat).toNat) ∧ (off = 0x18 → leNat b = (rget s .pwrTemp).toNat) ∧
      (off = 0x20 → leNat b = rfld s .hubReset 63 56) ∧ (off = 0x28 → leNat b = if s.pwr.latch then 1 else 0) ∧
      (off ≠ 0x00 → off ≠ 0x08 → off ≠ 0x10 → off ≠ 0x18 → off ≠ 0x20 → off ≠ 0x28 → leNat b = 0)) ∧
    (∀ d : Byte, i3cUp s = true → exec (.i3cThermtripClear d) s = .next (if bit d 0 then { s with pwr := { s.pwr with latch := false } } else s)) ∧
    (fed s = false → ∀ cs, exec .jtagBypass s = .next s ∧ exec .jtagIdcode s = .next s ∧ exec (.jtagSamplePreload cs) s = .next s ∧
      exec .jtagExtest s = .next s) ∧
    (let byp : State := { s with side := { s.side with extest := false, tlr := false }, out := .testReg [false] :: s.out }
     (fed s = true → exec .jtagBypass s = .next byp ∧
     (∃ cs, exec .jtagIdcode s = .next { byp with out := .testReg cs :: s.out } ∧ cs.length = 32 ∧ nthD cs 0 false = true ∧
       ∀ i, i < 16 → nthD cs (12 + i) false = (0x4958 : BitVec 16).getLsbD i) ∧
     (∀ cs : ScanCells, exec (.jtagSamplePreload cs) s = .next (if s.fw.pinLow then
       { s with side := { s.side with cells := cs.preload, extest := false, tlr := false }, out := .testReg cs.captured :: s.out } else byp)) ∧
     (s.fw.pinLow = false → exec .jtagExtest s = .next byp) ∧
     (s.fw.pinLow = true → ∃ u seen, exec .jtagExtest s = .next u ∧ u.out = .testReg seen :: s.out ∧ seen.length = s.side.cells.length ∧
       u.side.cells.length = s.side.cells.length ∧ u = { s with side := { s.side with extest := true, tlr := false, cells := u.side.cells }, out := u.out, freeCtr := u.freeCtr })) ∧
     exec .testLogicReset s = .next { s with side := { s.side with extest := false, tlr := true } })

/-- For every command c, every state s and every rest of the queue, step of s with c at the front of its queue is exec of c on s with the
queue's rest. With no command waiting the block idles: step answers the same state (the model's choice, assumption log 33). -/
def Obligations.StepRunsTheFrontCommand : Prop :=
  (∀ (c : Instr) (q : List Instr) (s : State), step { s with pending := c :: q } = exec c { s with pending := q }) ∧
  (∀ s : State, s.pending = [] → step s = .next s)

/-- For every register of the register map, with every core, engine, section, ring, port and index its block admits, the offset that the map
gives it is a multiple of 8 below 64 MB and decodes to that register and to no other. -/
def Obligations.RegisterOffsetsDecodeToTheirRegisters : Prop :=
  (∀ r : Reg, regOf (regOff r) = some r) ∧ (∀ r : Reg, regOff r < 2 ^ 26 ∧ regOff r % 8 = 0) ∧
    ∀ a r, regOf a = some r → regOff r = a

/-- State.reset meets the invariant that every step keeps. No command waits in it, memory, poison tags, full/empty bits and sync words list
nothing, every engine is HALTED with an empty queue, every register holds its reset value, and boot is held. Among the values the
specification gives: READY and STAGE are 0, LAST_CAUSE is 0, the a-clock is 0 MHz, no stack is out of state 0, every slice is CLOSED
with key state NONE, MIN_MV reads 0xFFFF, and a full/empty word is empty. That an unlisted byte of memory reads 0 is the model's choice
(assumption log 4). -/
def Obligations.ResetHoldsTheInvariantAndTheResetValues : Prop :=
  Inv State.reset ∧ State.reset.pending = [] ∧ State.reset.mem = [] ∧ State.reset.poison = [] ∧ State.reset.feb = [] ∧ State.reset.syncw = [] ∧
  (∀ r, rget State.reset r = regReset r) ∧ (∀ f r, fget State.reset f r = regReset r) ∧
  (∀ c e, (getEng State.reset c e).mode = .halted ∧ (getEng State.reset c e).queue = []) ∧ State.reset.fw.phase = .held ∧
  hubReady State.reset = false ∧ rfld State.reset .bootStatus 47 40 = 0 ∧ rfld State.reset .hubReset 63 56 = 0 ∧
  rfld State.reset .clkState 63 54 = 0 ∧ (∀ n, rfld State.reset (.mcState n) 63 60 = 0) ∧
  (∀ n, sliceState State.reset n = 0 ∧ keyState State.reset n = 0) ∧ rfld State.reset .vinMin 31 16 = 0xFFFF ∧
  ∀ a, tget State.reset.feb false a = false

/-- For every state that meets the invariant, if step answers a next state then that state meets it. The invariant: memory, its poison tags,
full/empty bits, sync words, error marks and cache lines, and the tables of registers, cores, update units and fabric units are in
canonical form; and both copies of NEXT agree with MONO, which has not passed the 32,768 leaves of the identity tree, so that no leaf
can be used twice. -/
def Obligations.EveryStepKeepsTheInvariant : Prop :=
  ∀ s t : State, Inv s → step s = .next t → Inv t

/-- For every state, if step answers a next state t: the commands waiting in t are those that waited behind the front one; a-cycle time has
not gone back; the counter of free values does not fall; everything that had left the block has left it still; BOOT_COUNT and ACT_COUNT
have not fallen; and where both copies of NEXT agreed with MONO, they agree in t, at a MONO that has not fallen. In every reset, update
and abort too. The a-cycle time (log 2), the counter of free values (log 3) and the record of outputs (log 25) are the model's own. -/
def Obligations.EveryStepKeepsItsHistory : Prop :=
  ∀ s t : State, step s = .next t →
    t.pending = s.pending.tail ∧ s.now ≤ t.now ∧ s.freeCtr ≤ t.freeCtr ∧ s.out <:+ t.out ∧ s.bootCount ≤ t.bootCount ∧
    s.fw.mram.actCount ≤ t.fw.mram.actCount ∧ (leafOk s.fw.mram → leafOk t.fw.mram ∧ s.fw.mram.mono ≤ t.fw.mram.mono)
end

