-- ==== Sys2Proof/Laws/Tab.lean ====
section
/-!
SUPPORT. The laws of tables: what a read after a write gives, and that every operation keeps the canonical form.
-/

namespace Sys2Proof.Machine

variable {α : Type}

theorem tasc_nil : tasc ([] : Tab α) := List.Pairwise.nil

theorem tasc_filter {t : Tab α} (p : Nat × α → Bool) (h : tasc t) : tasc (t.filter p) := List.Pairwise.filter p h

/-- The canonical form in two parts: keys rise, and no entry is the default. -/
theorem twf_iff [DecidableEq α] (t : Tab α) (d : α) : twf t d = true ↔ tasc t ∧ ∀ p ∈ t, p.2 ≠ d := by
  induction t with
  | nil => simp [twf, tasc]
  | cons a r ih =>
    cases r with
    | nil => simp [twf, tasc]
    | cons b r' =>
      obtain ⟨j, v⟩ := a
      obtain ⟨k, u⟩ := b
      rw [twf]
      simp only [Bool.and_eq_true, ih, bne_iff_ne, decide_eq_true_eq, ne_eq]
      constructor
      · rintro ⟨⟨hv, hlt⟩, ha, hd⟩
        refine ⟨List.pairwise_cons.2 ⟨?_, ha⟩, ?_⟩
        · intro q hq
          rcases List.mem_cons.1 hq with rfl | hq'
          · exact hlt
          · exact lt_trans hlt ((List.pairwise_cons.1 ha).1 q hq')
        · intro p hp
          rcases List.mem_cons.1 hp with rfl | hp'
          · exact hv
          · exact hd p hp'
      · rintro ⟨ha, hd⟩
        obtain ⟨h1, h2⟩ := List.pairwise_cons.1 ha
        exact ⟨⟨hd (j, v) (by simp), h1 (k, u) (by simp)⟩, h2, fun p hp => hd p (List.mem_cons_of_mem _ hp)⟩

theorem twf_nil [DecidableEq α] (d : α) : twf ([] : Tab α) d = true := rfl

theorem twf_filter [DecidableEq α] {t : Tab α} {d : α} (p : Nat × α → Bool) (h : twf t d = true) : twf (t.filter p) d = true := by
  rw [twf_iff] at *
  exact ⟨tasc_filter p h.1, fun q hq => h.2 q (List.mem_of_mem_filter hq)⟩

theorem mem_tins {t : Tab α} {k : Nat} {v : α} {p : Nat × α} : p ∈ tins t k v ↔ p = (k, v) ∨ p ∈ t := by
  induction t with
  | nil => simp [tins]
  | cons a r ih =>
    obtain ⟨j, u⟩ := a
    rw [tins]
    split <;> simp [ih, or_left_comm]

theorem tasc_tins {t : Tab α} {k : Nat} {v : α} (h : tasc t) (hk : ∀ p ∈ t, p.1 ≠ k) : tasc (tins t k v) := by
  induction t with
  | nil => simp [tins, tasc]
  | cons a r ih =>
    obtain ⟨j, u⟩ := a
    obtain ⟨h1, h2⟩ := List.pairwise_cons.1 h
    rw [tins]
    split
    · rename_i hlt
      refine List.pairwise_cons.2 ⟨?_, ih h2 fun p hp => hk p (List.mem_cons_of_mem _ hp)⟩
      intro q hq
      rcases mem_tins.1 hq with rfl | hq'
      · exact hlt
      · exact h1 q hq'
    · rename_i hlt
      have hne := hk (j, u) (by simp)
      refine List.pairwise_cons.2 ⟨?_, h⟩
      intro q hq
      rcases List.mem_cons.1 hq with rfl | hq'
      · simp only at *; omega
      · have := h1 q hq'; simp only at *; omega

theorem terase_ne {t : Tab α} {k : Nat} : ∀ p ∈ terase t k, p.1 ≠ k := by
  intro p hp
  simp only [terase, List.mem_filter, bne_iff_ne, ne_eq] at hp
  exact hp.2

theorem tasc_tset [DecidableEq α] {t : Tab α} {d v : α} {k : Nat} (h : tasc t) : tasc (tset t d k v) := by
  unfold tset
  split
  · exact tasc_filter _ h
  · exact tasc_tins (tasc_filter _ h) terase_ne

/-- Writing a key keeps the canonical form. -/
theorem twf_tset [DecidableEq α] {t : Tab α} {d v : α} {k : Nat} (h : twf t d = true) : twf (tset t d k v) d = true := by
  rw [twf_iff] at *
  refine ⟨tasc_tset h.1, ?_⟩
  intro p hp
  unfold tset at hp
  split at hp
  · exact h.2 p (List.mem_of_mem_filter hp)
  · rcases mem_tins.1 hp with rfl | hp'
    · assumption
    · exact h.2 p (List.mem_of_mem_filter hp')

theorem mem_tcells [DecidableEq α] {d : α} {vs : List α} {lo : Nat} {p : Nat × α} (h : p ∈ tcells d lo vs) :
    lo ≤ p.1 ∧ p.1 < lo + vs.length ∧ p.2 ≠ d := by
  induction vs generalizing lo with
  | nil => simp [tcells] at h
  | cons v r ih =>
    rw [tcells] at h
    split at h
    · obtain ⟨h1, h2, h3⟩ := ih h; simp only [List.length_cons]; exact ⟨by omega, by omega, h3⟩
    · rcases List.mem_cons.1 h with rfl | h'
      · simp only [List.length_cons]; exact ⟨le_refl _, by omega, by assumption⟩
      · obtain ⟨h1, h2, h3⟩ := ih h'; simp only [List.length_cons]; exact ⟨by omega, by omega, h3⟩

theorem tasc_tcells [DecidableEq α] {d : α} {vs : List α} {lo : Nat} : tasc (tcells d lo vs) := by
  induction vs generalizing lo with
  | nil => simp [tcells, tasc]
  | cons v r ih =>
    rw [tcells]
    split
    · exact ih
    · refine List.pairwise_cons.2 ⟨?_, ih⟩
      intro q hq
      have := mem_tcells hq
      simp only; omega

theorem tasc_twrite [DecidableEq α] {t : Tab α} {d : α} {lo : Nat} {vs : List α} (h : tasc t) : tasc (twrite t d lo vs) := by
  unfold twrite
  refine List.pairwise_append.2 ⟨List.pairwise_append.2 ⟨tasc_filter _ h, tasc_tcells, ?_⟩, tasc_filter _ h, ?_⟩
  · intro p hp q hq
    have h1 := mem_tcells hq
    have h2 := (List.mem_filter.1 hp).2
    simp only [decide_eq_true_eq] at h2; omega
  · intro p hp q hq
    have h2 := (List.mem_filter.1 hq).2
    simp only [decide_eq_true_eq] at h2
    rcases List.mem_append.1 hp with hp | hp
    · have h1 := (List.mem_filter.1 hp).2
      simp only [decide_eq_true_eq] at h1; omega
    · have h1 := mem_tcells hp; omega

/-- Writing a run of keys keeps the canonical form. -/
theorem twf_twrite [DecidableEq α] {t : Tab α} {d : α} {lo : Nat} {vs : List α} (h : twf t d = true) : twf (twrite t d lo vs) d = true := by
  rw [twf_iff] at *
  refine ⟨tasc_twrite h.1, ?_⟩
  intro p hp
  unfold twrite at hp
  simp only [List.mem_append] at hp
  rcases hp with (hp | hp) | hp
  · exact h.2 p (List.mem_of_mem_filter hp)
  · exact (mem_tcells hp).2.2
  · exact h.2 p (List.mem_of_mem_filter hp)

theorem twf_tclear [DecidableEq α] {t : Tab α} {d : α} {lo n : Nat} (h : twf t d = true) : twf (tclear t lo n) d = true := twf_filter _ h
theorem tasc_tclear {t : Tab α} {lo n : Nat} (h : tasc t) : tasc (tclear t lo n) := tasc_filter _ h

/-- Writes one after the other keep the canonical form that each keeps. -/
theorem twf_foldl [DecidableEq α] {β : Type} {d : α} (f : Tab α → β → Tab α) (hf : ∀ t b, twf t d = true → twf (f t b) d = true)
    (l : List β) (t : Tab α) (h : twf t d = true) : twf (l.foldl f t) d = true :=
  List.foldlRecOn (motive := fun t => twf t d = true) l f h fun t ht b _ => hf t b ht

/-! Reads after writes. -/

theorem tget_filter_ne {t : Tab α} {d : α} {k j : Nat} (h : k ≠ j) : tget (terase t j) d k = tget t d k := by
  induction t with
  | nil => rfl
  | cons a r ih =>
    obtain ⟨i, v⟩ := a
    unfold terase at *
    by_cases hi : i = j
    · subst hi
      have : (List.filter (fun p : Nat × α => p.1 != i) ((i, v) :: r)) = List.filter (fun p => p.1 != i) r := by simp
      rw [this, ih]
      simp [tget, Ne.symm h]
    · have : (List.filter (fun p : Nat × α => p.1 != j) ((i, v) :: r)) = (i, v) :: List.filter (fun p => p.1 != j) r := by simp [hi]
      rw [this]
      simp only [tget, ih]

theorem tget_terase_self {t : Tab α} {d : α} {k : Nat} : tget (terase t k) d k = d := by
  induction t with
  | nil => rfl
  | cons a r ih =>
    obtain ⟨i, v⟩ := a
    unfold terase at *
    by_cases hi : i = k
    · subst hi
      have : (List.filter (fun p : Nat × α => p.1 != i) ((i, v) :: r)) = List.filter (fun p => p.1 != i) r := by simp
      rw [this, ih]
    · have : (List.filter (fun p : Nat × α => p.1 != k) ((i, v) :: r)) = (i, v) :: List.filter (fun p => p.1 != k) r := by simp [hi]
      rw [this]
      simp only [tget, hi, if_false, ih]

theorem tget_tins_self {t : Tab α} {d v : α} {k : Nat} (hk : ∀ p ∈ t, p.1 ≠ k) : tget (tins t k v) d k = v := by
  induction t with
  | nil => simp [tins, tget]
  | cons a r ih =>
    obtain ⟨j, u⟩ := a
    have hj : j ≠ k := hk (j, u) (by simp)
    rw [tins]
    split
    · simp only [tget, hj, if_false]; exact ih fun p hp => hk p (List.mem_cons_of_mem _ hp)
    · simp [tget]

theorem tget_tins_ne {t : Tab α} {d v : α} {k j : Nat} (h : j ≠ k) : tget (tins t k v) d j = tget t d j := by
  induction t with
  | nil => simp [tins, tget, Ne.symm h]
  | cons a r ih =>
    obtain ⟨i, u⟩ := a
    rw [tins]
    split
    · simp only [tget, ih]
    · simp [tget, Ne.symm h]

/-- The key written reads as the value written. -/
@[simp] theorem tget_tset_self [DecidableEq α] (t : Tab α) (d v : α) (k : Nat) : tget (tset t d k v) d k = v := by
  unfold tset
  split
  · rename_i h; rw [tget_terase_self, h]
  · exact tget_tins_self terase_ne

/-- Every other key reads as before. -/
theorem tget_tset_ne [DecidableEq α] (t : Tab α) (d v e : α) {k j : Nat} (h : j ≠ k) : tget (tset t d k v) e j = tget t e j := by
  unfold tset
  split
  · exact tget_filter_ne h
  · rw [tget_tins_ne h]; exact tget_filter_ne h

theorem tget_filter_keep {t : Tab α} {d : α} {k : Nat} (p : Nat × α → Bool) (h : ∀ v, p (k, v) = true) :
    tget (t.filter p) d k = tget t d k := by
  induction t with
  | nil => rfl
  | cons a r ih =>
    obtain ⟨i, v⟩ := a
    by_cases hi : i = k
    · subst hi; simp [List.filter, h, tget]
    · by_cases hp : p (i, v) = true
      · simp [List.filter, hp, tget, hi, ih]
      · simp [List.filter, hp, tget, hi, ih]

theorem tget_none {t : Tab α} {d : α} {k : Nat} (h : ∀ p ∈ t, p.1 ≠ k) : tget t d k = d := by
  induction t with
  | nil => rfl
  | cons a r ih =>
    obtain ⟨i, v⟩ := a
    have : i ≠ k := h (i, v) (by simp)
    simp only [tget, this, if_false]
    exact ih fun p hp => h p (List.mem_cons_of_mem _ hp)

theorem tget_append {t u : Tab α} {d : α} {k : Nat} :
    tget (t ++ u) d k = if t.any (fun p => p.1 == k) then tget t d k else tget u d k := by
  induction t with
  | nil => simp
  | cons a r ih =>
    obtain ⟨i, v⟩ := a
    by_cases hi : i = k
    · subst hi; simp [tget]
    · have : (i == k) = false := by simp [hi]
      simp only [List.cons_append, tget, hi, if_false, ih, List.any_cons, this, Bool.false_or]

theorem tget_append_right {t u : Tab α} {d : α} {k : Nat} (h : ∀ p ∈ t, p.1 ≠ k) : tget (t ++ u) d k = tget u d k := by
  rw [tget_append]
  have : (t.any fun p => p.1 == k) = false := by
    rw [List.any_eq_false]; intro p hp; simp [h p hp]
  simp [this]

theorem tget_append_left {t u : Tab α} {d : α} {k : Nat} (h : ∀ p ∈ u, p.1 ≠ k) : tget (t ++ u) d k = tget t d k := by
  rw [tget_append]
  split
  · rfl
  · rename_i hn
    rw [tget_none h, tget_none]
    intro p hp hk
    apply hn
    simp only [List.any_eq_true, beq_iff_eq]
    exact ⟨p, hp, hk⟩

/-- A key outside the run written reads as before. -/
theorem tget_twrite_out [DecidableEq α] (t : Tab α) (d : α) (lo : Nat) (vs : List α) (k : Nat) (h : k < lo ∨ lo + vs.length ≤ k) :
    tget (twrite t d lo vs) d k = tget t d k := by
  unfold twrite
  rcases h with h | h
  · rw [tget_append_left, tget_append_left, tget_filter_keep]
    · intro v; simp [h]
    · intro p hp; have := mem_tcells hp; omega
    · intro p hp; have := (List.mem_filter.1 hp).2; simp only [decide_eq_true_eq] at this; omega
  · rw [tget_append_right, tget_filter_keep]
    · intro v; simp [h]
    · intro p hp
      rcases List.mem_append.1 hp with hp | hp
      · have := (List.mem_filter.1 hp).2; simp only [decide_eq_true_eq] at this; omega
      · have := mem_tcells hp; omega

theorem tget_tcells [DecidableEq α] (d : α) (vs : List α) (lo i : Nat) : tget (tcells d lo vs) d (lo + i) = nthD vs i d := by
  induction vs generalizing lo i with
  | nil => simp [tcells, tget, nthD]
  | cons v r ih =>
    rw [tcells]
    cases i with
    | zero =>
      split
      · rename_i hv
        rw [tget_none]
        · simp [nthD, hv]
        · intro p hp; have := mem_tcells hp; omega
      · simp [tget, nthD]
    | succ j =>
      have he : lo + (j + 1) = (lo + 1) + j := by omega
      split
      · rw [he, ih]; simp [nthD]
      · rw [tget, if_neg (by omega), he, ih]; simp [nthD]

/-- Key i of the run written reads as value i. -/
theorem tget_twrite_in [DecidableEq α] (t : Tab α) (d : α) (lo : Nat) (vs : List α) (i : Nat) (h : i < vs.length) :
    tget (twrite t d lo vs) d (lo + i) = nthD vs i d := by
  unfold twrite
  rw [tget_append_left, tget_append_right, tget_tcells]
  · intro p hp; have := (List.mem_filter.1 hp).2; simp only [decide_eq_true_eq] at this; omega
  · intro p hp; have := (List.mem_filter.1 hp).2; simp only [decide_eq_true_eq] at this; omega

end Sys2Proof.Machine
end

