-- ==== Sys2Proof/Laws/State.lean ====
section
/-!
SUPPORT. Each named update of the state, field by field, and what the reads of a register, a core and a unit give after a write.
-/

namespace Sys2Proof.Machine

@[simp] theorem State_setPending_pending (s : State) (q : List Instr) : (State.setPending s q).pending = q := rfl
@[simp] theorem State_setPending_now (s : State) (q : List Instr) : (State.setPending s q).now = s.now := rfl
@[simp] theorem State_setPending_freeCtr (s : State) (q : List Instr) : (State.setPending s q).freeCtr = s.freeCtr := rfl
@[simp] theorem State_setPending_mem (s : State) (q : List Instr) : (State.setPending s q).mem = s.mem := rfl
@[simp] theorem State_setPending_poison (s : State) (q : List Instr) : (State.setPending s q).poison = s.poison := rfl
@[simp] theorem State_setPending_feb (s : State) (q : List Instr) : (State.setPending s q).feb = s.feb := rfl
@[simp] theorem State_setPending_syncw (s : State) (q : List Instr) : (State.setPending s q).syncw = s.syncw := rfl
@[simp] theorem State_setPending_syncp (s : State) (q : List Instr) : (State.setPending s q).syncp = s.syncp := rfl
@[simp] theorem State_setPending_ecc (s : State) (q : List Instr) : (State.setPending s q).ecc = s.ecc := rfl
@[simp] theorem State_setPending_cached (s : State) (q : List Instr) : (State.setPending s q).cached = s.cached := rfl
@[simp] theorem State_setPending_dirty (s : State) (q : List Instr) : (State.setPending s q).dirty = s.dirty := rfl
@[simp] theorem State_setPending_held (s : State) (q : List Instr) : (State.setPending s q).held = s.held := rfl
@[simp] theorem State_setPending_patrol (s : State) (q : List Instr) : (State.setPending s q).patrol = s.patrol := rfl
@[simp] theorem State_setPending_refreshes (s : State) (q : List Instr) : (State.setPending s q).refreshes = s.refreshes := rfl
@[simp] theorem State_setPending_regs (s : State) (q : List Instr) : (State.setPending s q).regs = s.regs := rfl
@[simp] theorem State_setPending_incAt (s : State) (q : List Instr) : (State.setPending s q).incAt = s.incAt := rfl
@[simp] theorem State_setPending_incs (s : State) (q : List Instr) : (State.setPending s q).incs = s.incs := rfl
@[simp] theorem State_setPending_fregs (s : State) (q : List Instr) : (State.setPending s q).fregs = s.fregs := rfl
@[simp] theorem State_setPending_cores (s : State) (q : List Instr) : (State.setPending s q).cores = s.cores := rfl
@[simp] theorem State_setPending_feOps (s : State) (q : List Instr) : (State.setPending s q).feOps = s.feOps := rfl
@[simp] theorem State_setPending_nextOp (s : State) (q : List Instr) : (State.setPending s q).nextOp = s.nextOp := rfl
@[simp] theorem State_setPending_log (s : State) (q : List Instr) : (State.setPending s q).log = s.log := rfl
@[simp] theorem State_setPending_bootCount (s : State) (q : List Instr) : (State.setPending s q).bootCount = s.bootCount := rfl
@[simp] theorem State_setPending_buu (s : State) (q : List Instr) : (State.setPending s q).buu = s.buu := rfl
@[simp] theorem State_setPending_fab (s : State) (q : List Instr) : (State.setPending s q).fab = s.fab := rfl
@[simp] theorem State_setPending_tb (s : State) (q : List Instr) : (State.setPending s q).tb = s.tb := rfl
@[simp] theorem State_setPending_mp (s : State) (q : List Instr) : (State.setPending s q).mp = s.mp := rfl
@[simp] theorem State_setPending_sp (s : State) (q : List Instr) : (State.setPending s q).sp = s.sp := rfl
@[simp] theorem State_setPending_fw (s : State) (q : List Instr) : (State.setPending s q).fw = s.fw := rfl
@[simp] theorem State_setPending_pwr (s : State) (q : List Instr) : (State.setPending s q).pwr = s.pwr := rfl
@[simp] theorem State_setPending_side (s : State) (q : List Instr) : (State.setPending s q).side = s.side := rfl
@[simp] theorem State_setPending_out (s : State) (q : List Instr) : (State.setPending s q).out = s.out := rfl

@[simp] theorem rput_pending (s : State) (r : Reg) (v : W64) : (rput s r v).pending = s.pending := rfl
@[simp] theorem rput_now (s : State) (r : Reg) (v : W64) : (rput s r v).now = s.now := rfl
@[simp] theorem rput_freeCtr (s : State) (r : Reg) (v : W64) : (rput s r v).freeCtr = s.freeCtr := rfl
@[simp] theorem rput_mem (s : State) (r : Reg) (v : W64) : (rput s r v).mem = s.mem := rfl
@[simp] theorem rput_poison (s : State) (r : Reg) (v : W64) : (rput s r v).poison = s.poison := rfl
@[simp] theorem rput_feb (s : State) (r : Reg) (v : W64) : (rput s r v).feb = s.feb := rfl
@[simp] theorem rput_syncw (s : State) (r : Reg) (v : W64) : (rput s r v).syncw = s.syncw := rfl
@[simp] theorem rput_syncp (s : State) (r : Reg) (v : W64) : (rput s r v).syncp = s.syncp := rfl
@[simp] theorem rput_ecc (s : State) (r : Reg) (v : W64) : (rput s r v).ecc = s.ecc := rfl
@[simp] theorem rput_cached (s : State) (r : Reg) (v : W64) : (rput s r v).cached = s.cached := rfl
@[simp] theorem rput_dirty (s : State) (r : Reg) (v : W64) : (rput s r v).dirty = s.dirty := rfl
@[simp] theorem rput_held (s : State) (r : Reg) (v : W64) : (rput s r v).held = s.held := rfl
@[simp] theorem rput_patrol (s : State) (r : Reg) (v : W64) : (rput s r v).patrol = s.patrol := rfl
@[simp] theorem rput_refreshes (s : State) (r : Reg) (v : W64) : (rput s r v).refreshes = s.refreshes := rfl
@[simp] theorem rput_regs (s : State) (r : Reg) (v : W64) : (rput s r v).regs = tset s.regs (regReset r) (regOff r) v := rfl
@[simp] theorem rput_incAt (s : State) (r : Reg) (v : W64) : (rput s r v).incAt = s.incAt := rfl
@[simp] theorem rput_incs (s : State) (r : Reg) (v : W64) : (rput s r v).incs = s.incs := rfl
@[simp] theorem rput_fregs (s : State) (r : Reg) (v : W64) : (rput s r v).fregs = s.fregs := rfl
@[simp] theorem rput_cores (s : State) (r : Reg) (v : W64) : (rput s r v).cores = s.cores := rfl
@[simp] theorem rput_feOps (s : State) (r : Reg) (v : W64) : (rput s r v).feOps = s.feOps := rfl
@[simp] theorem rput_nextOp (s : State) (r : Reg) (v : W64) : (rput s r v).nextOp = s.nextOp := rfl
@[simp] theorem rput_log (s : State) (r : Reg) (v : W64) : (rput s r v).log = s.log := rfl
@[simp] theorem rput_bootCount (s : State) (r : Reg) (v : W64) : (rput s r v).bootCount = s.bootCount := rfl
@[simp] theorem rput_buu (s : State) (r : Reg) (v : W64) : (rput s r v).buu = s.buu := rfl
@[simp] theorem rput_fab (s : State) (r : Reg) (v : W64) : (rput s r v).fab = s.fab := rfl
@[simp] theorem rput_tb (s : State) (r : Reg) (v : W64) : (rput s r v).tb = s.tb := rfl
@[simp] theorem rput_mp (s : State) (r : Reg) (v : W64) : (rput s r v).mp = s.mp := rfl
@[simp] theorem rput_sp (s : State) (r : Reg) (v : W64) : (rput s r v).sp = s.sp := rfl
@[simp] theorem rput_fw (s : State) (r : Reg) (v : W64) : (rput s r v).fw = s.fw := rfl
@[simp] theorem rput_pwr (s : State) (r : Reg) (v : W64) : (rput s r v).pwr = s.pwr := rfl
@[simp] theorem rput_side (s : State) (r : Reg) (v : W64) : (rput s r v).side = s.side := rfl
@[simp] theorem rput_out (s : State) (r : Reg) (v : W64) : (rput s r v).out = s.out := rfl

@[simp] theorem fput_pending (s : State) (f : FuncId) (r : Reg) (v : W64) : (fput s f r v).pending = s.pending := rfl
@[simp] theorem fput_now (s : State) (f : FuncId) (r : Reg) (v : W64) : (fput s f r v).now = s.now := rfl
@[simp] theorem fput_freeCtr (s : State) (f : FuncId) (r : Reg) (v : W64) : (fput s f r v).freeCtr = s.freeCtr := rfl
@[simp] theorem fput_mem (s : State) (f : FuncId) (r : Reg) (v : W64) : (fput s f r v).mem = s.mem := rfl
@[simp] theorem fput_poison (s : State) (f : FuncId) (r : Reg) (v : W64) : (fput s f r v).poison = s.poison := rfl
@[simp] theorem fput_feb (s : State) (f : FuncId) (r : Reg) (v : W64) : (fput s f r v).feb = s.feb := rfl
@[simp] theorem fput_syncw (s : State) (f : FuncId) (r : Reg) (v : W64) : (fput s f r v).syncw = s.syncw := rfl
@[simp] theorem fput_syncp (s : State) (f : FuncId) (r : Reg) (v : W64) : (fput s f r v).syncp = s.syncp := rfl
@[simp] theorem fput_ecc (s : State) (f : FuncId) (r : Reg) (v : W64) : (fput s f r v).ecc = s.ecc := rfl
@[simp] theorem fput_cached (s : State) (f : FuncId) (r : Reg) (v : W64) : (fput s f r v).cached = s.cached := rfl
@[simp] theorem fput_dirty (s : State) (f : FuncId) (r : Reg) (v : W64) : (fput s f r v).dirty = s.dirty := rfl
@[simp] theorem fput_held (s : State) (f : FuncId) (r : Reg) (v : W64) : (fput s f r v).held = s.held := rfl
@[simp] theorem fput_patrol (s : State) (f : FuncId) (r : Reg) (v : W64) : (fput s f r v).patrol = s.patrol := rfl
@[simp] theorem fput_refreshes (s : State) (f : FuncId) (r : Reg) (v : W64) : (fput s f r v).refreshes = s.refreshes := rfl
@[simp] theorem fput_regs (s : State) (f : FuncId) (r : Reg) (v : W64) : (fput s f r v).regs = s.regs := rfl
@[simp] theorem fput_incAt (s : State) (f : FuncId) (r : Reg) (v : W64) : (fput s f r v).incAt = s.incAt := rfl
@[simp] theorem fput_incs (s : State) (f : FuncId) (r : Reg) (v : W64) : (fput s f r v).incs = s.incs := rfl
@[simp] theorem fput_fregs (s : State) (f : FuncId) (r : Reg) (v : W64) : (fput s f r v).fregs = tset s.fregs (regReset r) (fkey f r) v := rfl
@[simp] theorem fput_cores (s : State) (f : FuncId) (r : Reg) (v : W64) : (fput s f r v).cores = s.cores := rfl
@[simp] theorem fput_feOps (s : State) (f : FuncId) (r : Reg) (v : W64) : (fput s f r v).feOps = s.feOps := rfl
@[simp] theorem fput_nextOp (s : State) (f : FuncId) (r : Reg) (v : W64) : (fput s f r v).nextOp = s.nextOp := rfl
@[simp] theorem fput_log (s : State) (f : FuncId) (r : Reg) (v : W64) : (fput s f r v).log = s.log := rfl
@[simp] theorem fput_bootCount (s : State) (f : FuncId) (r : Reg) (v : W64) : (fput s f r v).bootCount = s.bootCount := rfl
@[simp] theorem fput_buu (s : State) (f : FuncId) (r : Reg) (v : W64) : (fput s f r v).buu = s.buu := rfl
@[simp] theorem fput_fab (s : State) (f : FuncId) (r : Reg) (v : W64) : (fput s f r v).fab = s.fab := rfl
@[simp] theorem fput_tb (s : State) (f : FuncId) (r : Reg) (v : W64) : (fput s f r v).tb = s.tb := rfl
@[simp] theorem fput_mp (s : State) (f : FuncId) (r : Reg) (v : W64) : (fput s f r v).mp = s.mp := rfl
@[simp] theorem fput_sp (s : State) (f : FuncId) (r : Reg) (v : W64) : (fput s f r v).sp = s.sp := rfl
@[simp] theorem fput_fw (s : State) (f : FuncId) (r : Reg) (v : W64) : (fput s f r v).fw = s.fw := rfl
@[simp] theorem fput_pwr (s : State) (f : FuncId) (r : Reg) (v : W64) : (fput s f r v).pwr = s.pwr := rfl
@[simp] theorem fput_side (s : State) (f : FuncId) (r : Reg) (v : W64) : (fput s f r v).side = s.side := rfl
@[simp] theorem fput_out (s : State) (f : FuncId) (r : Reg) (v : W64) : (fput s f r v).out = s.out := rfl

@[simp] theorem putCore_pending (s : State) (c : CoreId) (k : Core) : (putCore s c k).pending = s.pending := rfl
@[simp] theorem putCore_now (s : State) (c : CoreId) (k : Core) : (putCore s c k).now = s.now := rfl
@[simp] theorem putCore_freeCtr (s : State) (c : CoreId) (k : Core) : (putCore s c k).freeCtr = s.freeCtr := rfl
@[simp] theorem putCore_mem (s : State) (c : CoreId) (k : Core) : (putCore s c k).mem = s.mem := rfl
@[simp] theorem putCore_poison (s : State) (c : CoreId) (k : Core) : (putCore s c k).poison = s.poison := rfl
@[simp] theorem putCore_feb (s : State) (c : CoreId) (k : Core) : (putCore s c k).feb = s.feb := rfl
@[simp] theorem putCore_syncw (s : State) (c : CoreId) (k : Core) : (putCore s c k).syncw = s.syncw := rfl
@[simp] theorem putCore_syncp (s : State) (c : CoreId) (k : Core) : (putCore s c k).syncp = s.syncp := rfl
@[simp] theorem putCore_ecc (s : State) (c : CoreId) (k : Core) : (putCore s c k).ecc = s.ecc := rfl
@[simp] theorem putCore_cached (s : State) (c : CoreId) (k : Core) : (putCore s c k).cached = s.cached := rfl
@[simp] theorem putCore_dirty (s : State) (c : CoreId) (k : Core) : (putCore s c k).dirty = s.dirty := rfl
@[simp] theorem putCore_held (s : State) (c : CoreId) (k : Core) : (putCore s c k).held = s.held := rfl
@[simp] theorem putCore_patrol (s : State) (c : CoreId) (k : Core) : (putCore s c k).patrol = s.patrol := rfl
@[simp] theorem putCore_refreshes (s : State) (c : CoreId) (k : Core) : (putCore s c k).refreshes = s.refreshes := rfl
@[simp] theorem putCore_regs (s : State) (c : CoreId) (k : Core) : (putCore s c k).regs = s.regs := rfl
@[simp] theorem putCore_incAt (s : State) (c : CoreId) (k : Core) : (putCore s c k).incAt = s.incAt := rfl
@[simp] theorem putCore_incs (s : State) (c : CoreId) (k : Core) : (putCore s c k).incs = s.incs := rfl
@[simp] theorem putCore_fregs (s : State) (c : CoreId) (k : Core) : (putCore s c k).fregs = s.fregs := rfl
@[simp] theorem putCore_cores (s : State) (c : CoreId) (k : Core) : (putCore s c k).cores = tset s.cores coreReset c.val k := rfl
@[simp] theorem putCore_feOps (s : State) (c : CoreId) (k : Core) : (putCore s c k).feOps = s.feOps := rfl
@[simp] theorem putCore_nextOp (s : State) (c : CoreId) (k : Core) : (putCore s c k).nextOp = s.nextOp := rfl
@[simp] theorem putCore_log (s : State) (c : CoreId) (k : Core) : (putCore s c k).log = s.log := rfl
@[simp] theorem putCore_bootCount (s : State) (c : CoreId) (k : Core) : (putCore s c k).bootCount = s.bootCount := rfl
@[simp] theorem putCore_buu (s : State) (c : CoreId) (k : Core) : (putCore s c k).buu = s.buu := rfl
@[simp] theorem putCore_fab (s : State) (c : CoreId) (k : Core) : (putCore s c k).fab = s.fab := rfl
@[simp] theorem putCore_tb (s : State) (c : CoreId) (k : Core) : (putCore s c k).tb = s.tb := rfl
@[simp] theorem putCore_mp (s : State) (c : CoreId) (k : Core) : (putCore s c k).mp = s.mp := rfl
@[simp] theorem putCore_sp (s : State) (c : CoreId) (k : Core) : (putCore s c k).sp = s.sp := rfl
@[simp] theorem putCore_fw (s : State) (c : CoreId) (k : Core) : (putCore s c k).fw = s.fw := rfl
@[simp] theorem putCore_pwr (s : State) (c : CoreId) (k : Core) : (putCore s c k).pwr = s.pwr := rfl
@[simp] theorem putCore_side (s : State) (c : CoreId) (k : Core) : (putCore s c k).side = s.side := rfl
@[simp] theorem putCore_out (s : State) (c : CoreId) (k : Core) : (putCore s c k).out = s.out := rfl

@[simp] theorem advance_pending (s : State) (t : Nat) : (advance s t).pending = s.pending := rfl
@[simp] theorem advance_now (s : State) (t : Nat) : (advance s t).now = max s.now t := rfl
@[simp] theorem advance_freeCtr (s : State) (t : Nat) : (advance s t).freeCtr = s.freeCtr := rfl
@[simp] theorem advance_mem (s : State) (t : Nat) : (advance s t).mem = s.mem := rfl
@[simp] theorem advance_poison (s : State) (t : Nat) : (advance s t).poison = s.poison := rfl
@[simp] theorem advance_feb (s : State) (t : Nat) : (advance s t).feb = s.feb := rfl
@[simp] theorem advance_syncw (s : State) (t : Nat) : (advance s t).syncw = s.syncw := rfl
@[simp] theorem advance_syncp (s : State) (t : Nat) : (advance s t).syncp = s.syncp := rfl
@[simp] theorem advance_ecc (s : State) (t : Nat) : (advance s t).ecc = s.ecc := rfl
@[simp] theorem advance_cached (s : State) (t : Nat) : (advance s t).cached = s.cached := rfl
@[simp] theorem advance_dirty (s : State) (t : Nat) : (advance s t).dirty = s.dirty := rfl
@[simp] theorem advance_held (s : State) (t : Nat) : (advance s t).held = s.held := rfl
@[simp] theorem advance_patrol (s : State) (t : Nat) : (advance s t).patrol = s.patrol := rfl
@[simp] theorem advance_refreshes (s : State) (t : Nat) : (advance s t).refreshes = s.refreshes := rfl
@[simp] theorem advance_regs (s : State) (t : Nat) : (advance s t).regs = s.regs := rfl
@[simp] theorem advance_incAt (s : State) (t : Nat) : (advance s t).incAt = s.incAt := rfl
@[simp] theorem advance_incs (s : State) (t : Nat) : (advance s t).incs = s.incs := rfl
@[simp] theorem advance_fregs (s : State) (t : Nat) : (advance s t).fregs = s.fregs := rfl
@[simp] theorem advance_cores (s : State) (t : Nat) : (advance s t).cores = s.cores := rfl
@[simp] theorem advance_feOps (s : State) (t : Nat) : (advance s t).feOps = s.feOps := rfl
@[simp] theorem advance_nextOp (s : State) (t : Nat) : (advance s t).nextOp = s.nextOp := rfl
@[simp] theorem advance_log (s : State) (t : Nat) : (advance s t).log = s.log := rfl
@[simp] theorem advance_bootCount (s : State) (t : Nat) : (advance s t).bootCount = s.bootCount := rfl
@[simp] theorem advance_buu (s : State) (t : Nat) : (advance s t).buu = s.buu := rfl
@[simp] theorem advance_fab (s : State) (t : Nat) : (advance s t).fab = s.fab := rfl
@[simp] theorem advance_tb (s : State) (t : Nat) : (advance s t).tb = s.tb := rfl
@[simp] theorem advance_mp (s : State) (t : Nat) : (advance s t).mp = s.mp := rfl
@[simp] theorem advance_sp (s : State) (t : Nat) : (advance s t).sp = s.sp := rfl
@[simp] theorem advance_fw (s : State) (t : Nat) : (advance s t).fw = s.fw := rfl
@[simp] theorem advance_pwr (s : State) (t : Nat) : (advance s t).pwr = s.pwr := rfl
@[simp] theorem advance_side (s : State) (t : Nat) : (advance s t).side = s.side := rfl
@[simp] theorem advance_out (s : State) (t : Nat) : (advance s t).out = s.out := rfl

@[simp] theorem emit_pending (s : State) (x : OutEv) : (emit s x).pending = s.pending := rfl
@[simp] theorem emit_now (s : State) (x : OutEv) : (emit s x).now = s.now := rfl
@[simp] theorem emit_freeCtr (s : State) (x : OutEv) : (emit s x).freeCtr = s.freeCtr := rfl
@[simp] theorem emit_mem (s : State) (x : OutEv) : (emit s x).mem = s.mem := rfl
@[simp] theorem emit_poison (s : State) (x : OutEv) : (emit s x).poison = s.poison := rfl
@[simp] theorem emit_feb (s : State) (x : OutEv) : (emit s x).feb = s.feb := rfl
@[simp] theorem emit_syncw (s : State) (x : OutEv) : (emit s x).syncw = s.syncw := rfl
@[simp] theorem emit_syncp (s : State) (x : OutEv) : (emit s x).syncp = s.syncp := rfl
@[simp] theorem emit_ecc (s : State) (x : OutEv) : (emit s x).ecc = s.ecc := rfl
@[simp] theorem emit_cached (s : State) (x : OutEv) : (emit s x).cached = s.cached := rfl
@[simp] theorem emit_dirty (s : State) (x : OutEv) : (emit s x).dirty = s.dirty := rfl
@[simp] theorem emit_held (s : State) (x : OutEv) : (emit s x).held = s.held := rfl
@[simp] theorem emit_patrol (s : State) (x : OutEv) : (emit s x).patrol = s.patrol := rfl
@[simp] theorem emit_refreshes (s : State) (x : OutEv) : (emit s x).refreshes = s.refreshes := rfl
@[simp] theorem emit_regs (s : State) (x : OutEv) : (emit s x).regs = s.regs := rfl
@[simp] theorem emit_incAt (s : State) (x : OutEv) : (emit s x).incAt = s.incAt := rfl
@[simp] theorem emit_incs (s : State) (x : OutEv) : (emit s x).incs = s.incs := rfl
@[simp] theorem emit_fregs (s : State) (x : OutEv) : (emit s x).fregs = s.fregs := rfl
@[simp] theorem emit_cores (s : State) (x : OutEv) : (emit s x).cores = s.cores := rfl
@[simp] theorem emit_feOps (s : State) (x : OutEv) : (emit s x).feOps = s.feOps := rfl
@[simp] theorem emit_nextOp (s : State) (x : OutEv) : (emit s x).nextOp = s.nextOp := rfl
@[simp] theorem emit_log (s : State) (x : OutEv) : (emit s x).log = s.log := rfl
@[simp] theorem emit_bootCount (s : State) (x : OutEv) : (emit s x).bootCount = s.bootCount := rfl
@[simp] theorem emit_buu (s : State) (x : OutEv) : (emit s x).buu = s.buu := rfl
@[simp] theorem emit_fab (s : State) (x : OutEv) : (emit s x).fab = s.fab := rfl
@[simp] theorem emit_tb (s : State) (x : OutEv) : (emit s x).tb = s.tb := rfl
@[simp] theorem emit_mp (s : State) (x : OutEv) : (emit s x).mp = s.mp := rfl
@[simp] theorem emit_sp (s : State) (x : OutEv) : (emit s x).sp = s.sp := rfl
@[simp] theorem emit_fw (s : State) (x : OutEv) : (emit s x).fw = s.fw := rfl
@[simp] theorem emit_pwr (s : State) (x : OutEv) : (emit s x).pwr = s.pwr := rfl
@[simp] theorem emit_side (s : State) (x : OutEv) : (emit s x).side = s.side := rfl
@[simp] theorem emit_out (s : State) (x : OutEv) : (emit s x).out = x :: s.out := rfl

@[simp] theorem putUnit_pending (s : State) (u : Nat) (bs : List Byte) : (putUnit s u bs).pending = s.pending := rfl
@[simp] theorem putUnit_now (s : State) (u : Nat) (bs : List Byte) : (putUnit s u bs).now = s.now := rfl
@[simp] theorem putUnit_freeCtr (s : State) (u : Nat) (bs : List Byte) : (putUnit s u bs).freeCtr = s.freeCtr := rfl
@[simp] theorem putUnit_mem (s : State) (u : Nat) (bs : List Byte) : (putUnit s u bs).mem = twrite s.mem memDefault (64 * u) bs := rfl
@[simp] theorem putUnit_poison (s : State) (u : Nat) (bs : List Byte) : (putUnit s u bs).poison = s.poison := rfl
@[simp] theorem putUnit_feb (s : State) (u : Nat) (bs : List Byte) : (putUnit s u bs).feb = s.feb := rfl
@[simp] theorem putUnit_syncw (s : State) (u : Nat) (bs : List Byte) : (putUnit s u bs).syncw = s.syncw := rfl
@[simp] theorem putUnit_syncp (s : State) (u : Nat) (bs : List Byte) : (putUnit s u bs).syncp = s.syncp := rfl
@[simp] theorem putUnit_ecc (s : State) (u : Nat) (bs : List Byte) : (putUnit s u bs).ecc = s.ecc := rfl
@[simp] theorem putUnit_cached (s : State) (u : Nat) (bs : List Byte) : (putUnit s u bs).cached = s.cached := rfl
@[simp] theorem putUnit_dirty (s : State) (u : Nat) (bs : List Byte) : (putUnit s u bs).dirty = s.dirty := rfl
@[simp] theorem putUnit_held (s : State) (u : Nat) (bs : List Byte) : (putUnit s u bs).held = s.held := rfl
@[simp] theorem putUnit_patrol (s : State) (u : Nat) (bs : List Byte) : (putUnit s u bs).patrol = s.patrol := rfl
@[simp] theorem putUnit_refreshes (s : State) (u : Nat) (bs : List Byte) : (putUnit s u bs).refreshes = s.refreshes := rfl
@[simp] theorem putUnit_regs (s : State) (u : Nat) (bs : List Byte) : (putUnit s u bs).regs = s.regs := rfl
@[simp] theorem putUnit_incAt (s : State) (u : Nat) (bs : List Byte) : (putUnit s u bs).incAt = s.incAt := rfl
@[simp] theorem putUnit_incs (s : State) (u : Nat) (bs : List Byte) : (putUnit s u bs).incs = s.incs := rfl
@[simp] theorem putUnit_fregs (s : State) (u : Nat) (bs : List Byte) : (putUnit s u bs).fregs = s.fregs := rfl
@[simp] theorem putUnit_cores (s : State) (u : Nat) (bs : List Byte) : (putUnit s u bs).cores = s.cores := rfl
@[simp] theorem putUnit_feOps (s : State) (u : Nat) (bs : List Byte) : (putUnit s u bs).feOps = s.feOps := rfl
@[simp] theorem putUnit_nextOp (s : State) (u : Nat) (bs : List Byte) : (putUnit s u bs).nextOp = s.nextOp := rfl
@[simp] theorem putUnit_log (s : State) (u : Nat) (bs : List Byte) : (putUnit s u bs).log = s.log := rfl
@[simp] theorem putUnit_bootCount (s : State) (u : Nat) (bs : List Byte) : (putUnit s u bs).bootCount = s.bootCount := rfl
@[simp] theorem putUnit_buu (s : State) (u : Nat) (bs : List Byte) : (putUnit s u bs).buu = s.buu := rfl
@[simp] theorem putUnit_fab (s : State) (u : Nat) (bs : List Byte) : (putUnit s u bs).fab = s.fab := rfl
@[simp] theorem putUnit_tb (s : State) (u : Nat) (bs : List Byte) : (putUnit s u bs).tb = s.tb := rfl
@[simp] theorem putUnit_mp (s : State) (u : Nat) (bs : List Byte) : (putUnit s u bs).mp = s.mp := rfl
@[simp] theorem putUnit_sp (s : State) (u : Nat) (bs : List Byte) : (putUnit s u bs).sp = s.sp := rfl
@[simp] theorem putUnit_fw (s : State) (u : Nat) (bs : List Byte) : (putUnit s u bs).fw = s.fw := rfl
@[simp] theorem putUnit_pwr (s : State) (u : Nat) (bs : List Byte) : (putUnit s u bs).pwr = s.pwr := rfl
@[simp] theorem putUnit_side (s : State) (u : Nat) (bs : List Byte) : (putUnit s u bs).side = s.side := rfl
@[simp] theorem putUnit_out (s : State) (u : Nat) (bs : List Byte) : (putUnit s u bs).out = s.out := rfl

@[simp] theorem dropFe_pending (s : State) (id : Nat) : (dropFe s id).pending = s.pending := rfl
@[simp] theorem dropFe_now (s : State) (id : Nat) : (dropFe s id).now = s.now := rfl
@[simp] theorem dropFe_freeCtr (s : State) (id : Nat) : (dropFe s id).freeCtr = s.freeCtr := rfl
@[simp] theorem dropFe_mem (s : State) (id : Nat) : (dropFe s id).mem = s.mem := rfl
@[simp] theorem dropFe_poison (s : State) (id : Nat) : (dropFe s id).poison = s.poison := rfl
@[simp] theorem dropFe_feb (s : State) (id : Nat) : (dropFe s id).feb = s.feb := rfl
@[simp] theorem dropFe_syncw (s : State) (id : Nat) : (dropFe s id).syncw = s.syncw := rfl
@[simp] theorem dropFe_syncp (s : State) (id : Nat) : (dropFe s id).syncp = s.syncp := rfl
@[simp] theorem dropFe_ecc (s : State) (id : Nat) : (dropFe s id).ecc = s.ecc := rfl
@[simp] theorem dropFe_cached (s : State) (id : Nat) : (dropFe s id).cached = s.cached := rfl
@[simp] theorem dropFe_dirty (s : State) (id : Nat) : (dropFe s id).dirty = s.dirty := rfl
@[simp] theorem dropFe_held (s : State) (id : Nat) : (dropFe s id).held = s.held := rfl
@[simp] theorem dropFe_patrol (s : State) (id : Nat) : (dropFe s id).patrol = s.patrol := rfl
@[simp] theorem dropFe_refreshes (s : State) (id : Nat) : (dropFe s id).refreshes = s.refreshes := rfl
@[simp] theorem dropFe_regs (s : State) (id : Nat) : (dropFe s id).regs = s.regs := rfl
@[simp] theorem dropFe_incAt (s : State) (id : Nat) : (dropFe s id).incAt = s.incAt := rfl
@[simp] theorem dropFe_incs (s : State) (id : Nat) : (dropFe s id).incs = s.incs := rfl
@[simp] theorem dropFe_fregs (s : State) (id : Nat) : (dropFe s id).fregs = s.fregs := rfl
@[simp] theorem dropFe_cores (s : State) (id : Nat) : (dropFe s id).cores = s.cores := rfl
@[simp] theorem dropFe_feOps (s : State) (id : Nat) : (dropFe s id).feOps = s.feOps.filter fun y => y.id != id := rfl
@[simp] theorem dropFe_nextOp (s : State) (id : Nat) : (dropFe s id).nextOp = s.nextOp := rfl
@[simp] theorem dropFe_log (s : State) (id : Nat) : (dropFe s id).log = s.log := rfl
@[simp] theorem dropFe_bootCount (s : State) (id : Nat) : (dropFe s id).bootCount = s.bootCount := rfl
@[simp] theorem dropFe_buu (s : State) (id : Nat) : (dropFe s id).buu = s.buu := rfl
@[simp] theorem dropFe_fab (s : State) (id : Nat) : (dropFe s id).fab = s.fab := rfl
@[simp] theorem dropFe_tb (s : State) (id : Nat) : (dropFe s id).tb = s.tb := rfl
@[simp] theorem dropFe_mp (s : State) (id : Nat) : (dropFe s id).mp = s.mp := rfl
@[simp] theorem dropFe_sp (s : State) (id : Nat) : (dropFe s id).sp = s.sp := rfl
@[simp] theorem dropFe_fw (s : State) (id : Nat) : (dropFe s id).fw = s.fw := rfl
@[simp] theorem dropFe_pwr (s : State) (id : Nat) : (dropFe s id).pwr = s.pwr := rfl
@[simp] theorem dropFe_side (s : State) (id : Nat) : (dropFe s id).side = s.side := rfl
@[simp] theorem dropFe_out (s : State) (id : Nat) : (dropFe s id).out = s.out := rfl

@[simp] theorem putBuu_pending (s : State) (n : N20) (b : Buu) : (putBuu s n b).pending = s.pending := rfl
@[simp] theorem putBuu_now (s : State) (n : N20) (b : Buu) : (putBuu s n b).now = s.now := rfl
@[simp] theorem putBuu_freeCtr (s : State) (n : N20) (b : Buu) : (putBuu s n b).freeCtr = s.freeCtr := rfl
@[simp] theorem putBuu_mem (s : State) (n : N20) (b : Buu) : (putBuu s n b).mem = s.mem := rfl
@[simp] theorem putBuu_poison (s : State) (n : N20) (b : Buu) : (putBuu s n b).poison = s.poison := rfl
@[simp] theorem putBuu_feb (s : State) (n : N20) (b : Buu) : (putBuu s n b).feb = s.feb := rfl
@[simp] theorem putBuu_syncw (s : State) (n : N20) (b : Buu) : (putBuu s n b).syncw = s.syncw := rfl
@[simp] theorem putBuu_syncp (s : State) (n : N20) (b : Buu) : (putBuu s n b).syncp = s.syncp := rfl
@[simp] theorem putBuu_ecc (s : State) (n : N20) (b : Buu) : (putBuu s n b).ecc = s.ecc := rfl
@[simp] theorem putBuu_cached (s : State) (n : N20) (b : Buu) : (putBuu s n b).cached = s.cached := rfl
@[simp] theorem putBuu_dirty (s : State) (n : N20) (b : Buu) : (putBuu s n b).dirty = s.dirty := rfl
@[simp] theorem putBuu_held (s : State) (n : N20) (b : Buu) : (putBuu s n b).held = s.held := rfl
@[simp] theorem putBuu_patrol (s : State) (n : N20) (b : Buu) : (putBuu s n b).patrol = s.patrol := rfl
@[simp] theorem putBuu_refreshes (s : State) (n : N20) (b : Buu) : (putBuu s n b).refreshes = s.refreshes := rfl
@[simp] theorem putBuu_regs (s : State) (n : N20) (b : Buu) : (putBuu s n b).regs = s.regs := rfl
@[simp] theorem putBuu_incAt (s : State) (n : N20) (b : Buu) : (putBuu s n b).incAt = s.incAt := rfl
@[simp] theorem putBuu_incs (s : State) (n : N20) (b : Buu) : (putBuu s n b).incs = s.incs := rfl
@[simp] theorem putBuu_fregs (s : State) (n : N20) (b : Buu) : (putBuu s n b).fregs = s.fregs := rfl
@[simp] theorem putBuu_cores (s : State) (n : N20) (b : Buu) : (putBuu s n b).cores = s.cores := rfl
@[simp] theorem putBuu_feOps (s : State) (n : N20) (b : Buu) : (putBuu s n b).feOps = s.feOps := rfl
@[simp] theorem putBuu_nextOp (s : State) (n : N20) (b : Buu) : (putBuu s n b).nextOp = s.nextOp := rfl
@[simp] theorem putBuu_log (s : State) (n : N20) (b : Buu) : (putBuu s n b).log = s.log := rfl
@[simp] theorem putBuu_bootCount (s : State) (n : N20) (b : Buu) : (putBuu s n b).bootCount = s.bootCount := rfl
@[simp] theorem putBuu_buu (s : State) (n : N20) (b : Buu) : (putBuu s n b).buu = tset s.buu buuReset n.val b := rfl
@[simp] theorem putBuu_fab (s : State) (n : N20) (b : Buu) : (putBuu s n b).fab = s.fab := rfl
@[simp] theorem putBuu_tb (s : State) (n : N20) (b : Buu) : (putBuu s n b).tb = s.tb := rfl
@[simp] theorem putBuu_mp (s : State) (n : N20) (b : Buu) : (putBuu s n b).mp = s.mp := rfl
@[simp] theorem putBuu_sp (s : State) (n : N20) (b : Buu) : (putBuu s n b).sp = s.sp := rfl
@[simp] theorem putBuu_fw (s : State) (n : N20) (b : Buu) : (putBuu s n b).fw = s.fw := rfl
@[simp] theorem putBuu_pwr (s : State) (n : N20) (b : Buu) : (putBuu s n b).pwr = s.pwr := rfl
@[simp] theorem putBuu_side (s : State) (n : N20) (b : Buu) : (putBuu s n b).side = s.side := rfl
@[simp] theorem putBuu_out (s : State) (n : N20) (b : Buu) : (putBuu s n b).out = s.out := rfl

@[simp] theorem putFab_pending (s : State) (n : N20) (x : FabSlice) : (putFab s n x).pending = s.pending := rfl
@[simp] theorem putFab_now (s : State) (n : N20) (x : FabSlice) : (putFab s n x).now = s.now := rfl
@[simp] theorem putFab_freeCtr (s : State) (n : N20) (x : FabSlice) : (putFab s n x).freeCtr = s.freeCtr := rfl
@[simp] theorem putFab_mem (s : State) (n : N20) (x : FabSlice) : (putFab s n x).mem = s.mem := rfl
@[simp] theorem putFab_poison (s : State) (n : N20) (x : FabSlice) : (putFab s n x).poison = s.poison := rfl
@[simp] theorem putFab_feb (s : State) (n : N20) (x : FabSlice) : (putFab s n x).feb = s.feb := rfl
@[simp] theorem putFab_syncw (s : State) (n : N20) (x : FabSlice) : (putFab s n x).syncw = s.syncw := rfl
@[simp] theorem putFab_syncp (s : State) (n : N20) (x : FabSlice) : (putFab s n x).syncp = s.syncp := rfl
@[simp] theorem putFab_ecc (s : State) (n : N20) (x : FabSlice) : (putFab s n x).ecc = s.ecc := rfl
@[simp] theorem putFab_cached (s : State) (n : N20) (x : FabSlice) : (putFab s n x).cached = s.cached := rfl
@[simp] theorem putFab_dirty (s : State) (n : N20) (x : FabSlice) : (putFab s n x).dirty = s.dirty := rfl
@[simp] theorem putFab_held (s : State) (n : N20) (x : FabSlice) : (putFab s n x).held = s.held := rfl
@[simp] theorem putFab_patrol (s : State) (n : N20) (x : FabSlice) : (putFab s n x).patrol = s.patrol := rfl
@[simp] theorem putFab_refreshes (s : State) (n : N20) (x : FabSlice) : (putFab s n x).refreshes = s.refreshes := rfl
@[simp] theorem putFab_regs (s : State) (n : N20) (x : FabSlice) : (putFab s n x).regs = s.regs := rfl
@[simp] theorem putFab_incAt (s : State) (n : N20) (x : FabSlice) : (putFab s n x).incAt = s.incAt := rfl
@[simp] theorem putFab_incs (s : State) (n : N20) (x : FabSlice) : (putFab s n x).incs = s.incs := rfl
@[simp] theorem putFab_fregs (s : State) (n : N20) (x : FabSlice) : (putFab s n x).fregs = s.fregs := rfl
@[simp] theorem putFab_cores (s : State) (n : N20) (x : FabSlice) : (putFab s n x).cores = s.cores := rfl
@[simp] theorem putFab_feOps (s : State) (n : N20) (x : FabSlice) : (putFab s n x).feOps = s.feOps := rfl
@[simp] theorem putFab_nextOp (s : State) (n : N20) (x : FabSlice) : (putFab s n x).nextOp = s.nextOp := rfl
@[simp] theorem putFab_log (s : State) (n : N20) (x : FabSlice) : (putFab s n x).log = s.log := rfl
@[simp] theorem putFab_bootCount (s : State) (n : N20) (x : FabSlice) : (putFab s n x).bootCount = s.bootCount := rfl
@[simp] theorem putFab_buu (s : State) (n : N20) (x : FabSlice) : (putFab s n x).buu = s.buu := rfl
@[simp] theorem putFab_fab (s : State) (n : N20) (x : FabSlice) : (putFab s n x).fab = tset s.fab fabSliceReset n.val x := rfl
@[simp] theorem putFab_tb (s : State) (n : N20) (x : FabSlice) : (putFab s n x).tb = s.tb := rfl
@[simp] theorem putFab_mp (s : State) (n : N20) (x : FabSlice) : (putFab s n x).mp = s.mp := rfl
@[simp] theorem putFab_sp (s : State) (n : N20) (x : FabSlice) : (putFab s n x).sp = s.sp := rfl
@[simp] theorem putFab_fw (s : State) (n : N20) (x : FabSlice) : (putFab s n x).fw = s.fw := rfl
@[simp] theorem putFab_pwr (s : State) (n : N20) (x : FabSlice) : (putFab s n x).pwr = s.pwr := rfl
@[simp] theorem putFab_side (s : State) (n : N20) (x : FabSlice) : (putFab s n x).side = s.side := rfl
@[simp] theorem putFab_out (s : State) (n : N20) (x : FabSlice) : (putFab s n x).out = s.out := rfl

@[simp] theorem putSec_pending (s : State) (n : N20) (x : SliceSec) : (putSec s n x).pending = s.pending := rfl
@[simp] theorem putSec_now (s : State) (n : N20) (x : SliceSec) : (putSec s n x).now = s.now := rfl
@[simp] theorem putSec_freeCtr (s : State) (n : N20) (x : SliceSec) : (putSec s n x).freeCtr = s.freeCtr := rfl
@[simp] theorem putSec_mem (s : State) (n : N20) (x : SliceSec) : (putSec s n x).mem = s.mem := rfl
@[simp] theorem putSec_poison (s : State) (n : N20) (x : SliceSec) : (putSec s n x).poison = s.poison := rfl
@[simp] theorem putSec_feb (s : State) (n : N20) (x : SliceSec) : (putSec s n x).feb = s.feb := rfl
@[simp] theorem putSec_syncw (s : State) (n : N20) (x : SliceSec) : (putSec s n x).syncw = s.syncw := rfl
@[simp] theorem putSec_syncp (s : State) (n : N20) (x : SliceSec) : (putSec s n x).syncp = s.syncp := rfl
@[simp] theorem putSec_ecc (s : State) (n : N20) (x : SliceSec) : (putSec s n x).ecc = s.ecc := rfl
@[simp] theorem putSec_cached (s : State) (n : N20) (x : SliceSec) : (putSec s n x).cached = s.cached := rfl
@[simp] theorem putSec_dirty (s : State) (n : N20) (x : SliceSec) : (putSec s n x).dirty = s.dirty := rfl
@[simp] theorem putSec_held (s : State) (n : N20) (x : SliceSec) : (putSec s n x).held = s.held := rfl
@[simp] theorem putSec_patrol (s : State) (n : N20) (x : SliceSec) : (putSec s n x).patrol = s.patrol := rfl
@[simp] theorem putSec_refreshes (s : State) (n : N20) (x : SliceSec) : (putSec s n x).refreshes = s.refreshes := rfl
@[simp] theorem putSec_regs (s : State) (n : N20) (x : SliceSec) : (putSec s n x).regs = s.regs := rfl
@[simp] theorem putSec_incAt (s : State) (n : N20) (x : SliceSec) : (putSec s n x).incAt = s.incAt := rfl
@[simp] theorem putSec_incs (s : State) (n : N20) (x : SliceSec) : (putSec s n x).incs = s.incs := rfl
@[simp] theorem putSec_fregs (s : State) (n : N20) (x : SliceSec) : (putSec s n x).fregs = s.fregs := rfl
@[simp] theorem putSec_cores (s : State) (n : N20) (x : SliceSec) : (putSec s n x).cores = s.cores := rfl
@[simp] theorem putSec_feOps (s : State) (n : N20) (x : SliceSec) : (putSec s n x).feOps = s.feOps := rfl
@[simp] theorem putSec_nextOp (s : State) (n : N20) (x : SliceSec) : (putSec s n x).nextOp = s.nextOp := rfl
@[simp] theorem putSec_log (s : State) (n : N20) (x : SliceSec) : (putSec s n x).log = s.log := rfl
@[simp] theorem putSec_bootCount (s : State) (n : N20) (x : SliceSec) : (putSec s n x).bootCount = s.bootCount := rfl
@[simp] theorem putSec_buu (s : State) (n : N20) (x : SliceSec) : (putSec s n x).buu = s.buu := rfl
@[simp] theorem putSec_fab (s : State) (n : N20) (x : SliceSec) : (putSec s n x).fab = s.fab := rfl
@[simp] theorem putSec_tb (s : State) (n : N20) (x : SliceSec) : (putSec s n x).tb = s.tb := rfl
@[simp] theorem putSec_mp (s : State) (n : N20) (x : SliceSec) : (putSec s n x).mp = s.mp := rfl
@[simp] theorem putSec_sp (s : State) (n : N20) (x : SliceSec) : (putSec s n x).sp = { s.sp with slices := tset s.sp.slices sliceSecReset n.val x } := rfl
@[simp] theorem putSec_fw (s : State) (n : N20) (x : SliceSec) : (putSec s n x).fw = s.fw := rfl
@[simp] theorem putSec_pwr (s : State) (n : N20) (x : SliceSec) : (putSec s n x).pwr = s.pwr := rfl
@[simp] theorem putSec_side (s : State) (n : N20) (x : SliceSec) : (putSec s n x).side = s.side := rfl
@[simp] theorem putSec_out (s : State) (n : N20) (x : SliceSec) : (putSec s n x).out = s.out := rfl

@[simp] theorem putTaken_pending (s : State) (t : Taken) : (putTaken s t).pending = s.pending := rfl
@[simp] theorem putTaken_now (s : State) (t : Taken) : (putTaken s t).now = s.now := rfl
@[simp] theorem putTaken_freeCtr (s : State) (t : Taken) : (putTaken s t).freeCtr = s.freeCtr := rfl
@[simp] theorem putTaken_mem (s : State) (t : Taken) : (putTaken s t).mem = s.mem := rfl
@[simp] theorem putTaken_poison (s : State) (t : Taken) : (putTaken s t).poison = s.poison := rfl
@[simp] theorem putTaken_feb (s : State) (t : Taken) : (putTaken s t).feb = s.feb := rfl
@[simp] theorem putTaken_syncw (s : State) (t : Taken) : (putTaken s t).syncw = s.syncw := rfl
@[simp] theorem putTaken_syncp (s : State) (t : Taken) : (putTaken s t).syncp = s.syncp := rfl
@[simp] theorem putTaken_ecc (s : State) (t : Taken) : (putTaken s t).ecc = s.ecc := rfl
@[simp] theorem putTaken_cached (s : State) (t : Taken) : (putTaken s t).cached = s.cached := rfl
@[simp] theorem putTaken_dirty (s : State) (t : Taken) : (putTaken s t).dirty = s.dirty := rfl
@[simp] theorem putTaken_held (s : State) (t : Taken) : (putTaken s t).held = s.held := rfl
@[simp] theorem putTaken_patrol (s : State) (t : Taken) : (putTaken s t).patrol = s.patrol := rfl
@[simp] theorem putTaken_refreshes (s : State) (t : Taken) : (putTaken s t).refreshes = s.refreshes := rfl
@[simp] theorem putTaken_regs (s : State) (t : Taken) : (putTaken s t).regs = s.regs := rfl
@[simp] theorem putTaken_incAt (s : State) (t : Taken) : (putTaken s t).incAt = s.incAt := rfl
@[simp] theorem putTaken_incs (s : State) (t : Taken) : (putTaken s t).incs = s.incs := rfl
@[simp] theorem putTaken_fregs (s : State) (t : Taken) : (putTaken s t).fregs = s.fregs := rfl
@[simp] theorem putTaken_cores (s : State) (t : Taken) : (putTaken s t).cores = s.cores := rfl
@[simp] theorem putTaken_feOps (s : State) (t : Taken) : (putTaken s t).feOps = s.feOps := rfl
@[simp] theorem putTaken_nextOp (s : State) (t : Taken) : (putTaken s t).nextOp = s.nextOp := rfl
@[simp] theorem putTaken_log (s : State) (t : Taken) : (putTaken s t).log = s.log := rfl
@[simp] theorem putTaken_bootCount (s : State) (t : Taken) : (putTaken s t).bootCount = s.bootCount := rfl
@[simp] theorem putTaken_buu (s : State) (t : Taken) : (putTaken s t).buu = s.buu := rfl
@[simp] theorem putTaken_fab (s : State) (t : Taken) : (putTaken s t).fab = s.fab := rfl
@[simp] theorem putTaken_tb (s : State) (t : Taken) : (putTaken s t).tb = s.tb := rfl
@[simp] theorem putTaken_mp (s : State) (t : Taken) : (putTaken s t).mp = { s.mp with taken := s.mp.taken.map fun y => if y.id == t.id then t else y } := rfl
@[simp] theorem putTaken_sp (s : State) (t : Taken) : (putTaken s t).sp = s.sp := rfl
@[simp] theorem putTaken_fw (s : State) (t : Taken) : (putTaken s t).fw = s.fw := rfl
@[simp] theorem putTaken_pwr (s : State) (t : Taken) : (putTaken s t).pwr = s.pwr := rfl
@[simp] theorem putTaken_side (s : State) (t : Taken) : (putTaken s t).side = s.side := rfl
@[simp] theorem putTaken_out (s : State) (t : Taken) : (putTaken s t).out = s.out := rfl

@[simp] theorem putMram_pending (s : State) (m : Mram) : (putMram s m).pending = s.pending := rfl
@[simp] theorem putMram_now (s : State) (m : Mram) : (putMram s m).now = s.now := rfl
@[simp] theorem putMram_freeCtr (s : State) (m : Mram) : (putMram s m).freeCtr = s.freeCtr := rfl
@[simp] theorem putMram_mem (s : State) (m : Mram) : (putMram s m).mem = s.mem := rfl
@[simp] theorem putMram_poison (s : State) (m : Mram) : (putMram s m).poison = s.poison := rfl
@[simp] theorem putMram_feb (s : State) (m : Mram) : (putMram s m).feb = s.feb := rfl
@[simp] theorem putMram_syncw (s : State) (m : Mram) : (putMram s m).syncw = s.syncw := rfl
@[simp] theorem putMram_syncp (s : State) (m : Mram) : (putMram s m).syncp = s.syncp := rfl
@[simp] theorem putMram_ecc (s : State) (m : Mram) : (putMram s m).ecc = s.ecc := rfl
@[simp] theorem putMram_cached (s : State) (m : Mram) : (putMram s m).cached = s.cached := rfl
@[simp] theorem putMram_dirty (s : State) (m : Mram) : (putMram s m).dirty = s.dirty := rfl
@[simp] theorem putMram_held (s : State) (m : Mram) : (putMram s m).held = s.held := rfl
@[simp] theorem putMram_patrol (s : State) (m : Mram) : (putMram s m).patrol = s.patrol := rfl
@[simp] theorem putMram_refreshes (s : State) (m : Mram) : (putMram s m).refreshes = s.refreshes := rfl
@[simp] theorem putMram_regs (s : State) (m : Mram) : (putMram s m).regs = s.regs := rfl
@[simp] theorem putMram_incAt (s : State) (m : Mram) : (putMram s m).incAt = s.incAt := rfl
@[simp] theorem putMram_incs (s : State) (m : Mram) : (putMram s m).incs = s.incs := rfl
@[simp] theorem putMram_fregs (s : State) (m : Mram) : (putMram s m).fregs = s.fregs := rfl
@[simp] theorem putMram_cores (s : State) (m : Mram) : (putMram s m).cores = s.cores := rfl
@[simp] theorem putMram_feOps (s : State) (m : Mram) : (putMram s m).feOps = s.feOps := rfl
@[simp] theorem putMram_nextOp (s : State) (m : Mram) : (putMram s m).nextOp = s.nextOp := rfl
@[simp] theorem putMram_log (s : State) (m : Mram) : (putMram s m).log = s.log := rfl
@[simp] theorem putMram_bootCount (s : State) (m : Mram) : (putMram s m).bootCount = s.bootCount := rfl
@[simp] theorem putMram_buu (s : State) (m : Mram) : (putMram s m).buu = s.buu := rfl
@[simp] theorem putMram_fab (s : State) (m : Mram) : (putMram s m).fab = s.fab := rfl
@[simp] theorem putMram_tb (s : State) (m : Mram) : (putMram s m).tb = s.tb := rfl
@[simp] theorem putMram_mp (s : State) (m : Mram) : (putMram s m).mp = s.mp := rfl
@[simp] theorem putMram_sp (s : State) (m : Mram) : (putMram s m).sp = s.sp := rfl
@[simp] theorem putMram_fw (s : State) (m : Mram) : (putMram s m).fw = { s.fw with mram := m } := rfl
@[simp] theorem putMram_pwr (s : State) (m : Mram) : (putMram s m).pwr = s.pwr := rfl
@[simp] theorem putMram_side (s : State) (m : Mram) : (putMram s m).side = s.side := rfl
@[simp] theorem putMram_out (s : State) (m : Mram) : (putMram s m).out = s.out := rfl

@[simp] theorem putSlot_pending (s : State) (i : Fin 2) (x : Slot) : (putSlot s i x).pending = s.pending := rfl
@[simp] theorem putSlot_now (s : State) (i : Fin 2) (x : Slot) : (putSlot s i x).now = s.now := rfl
@[simp] theorem putSlot_freeCtr (s : State) (i : Fin 2) (x : Slot) : (putSlot s i x).freeCtr = s.freeCtr := rfl
@[simp] theorem putSlot_mem (s : State) (i : Fin 2) (x : Slot) : (putSlot s i x).mem = s.mem := rfl
@[simp] theorem putSlot_poison (s : State) (i : Fin 2) (x : Slot) : (putSlot s i x).poison = s.poison := rfl
@[simp] theorem putSlot_feb (s : State) (i : Fin 2) (x : Slot) : (putSlot s i x).feb = s.feb := rfl
@[simp] theorem putSlot_syncw (s : State) (i : Fin 2) (x : Slot) : (putSlot s i x).syncw = s.syncw := rfl
@[simp] theorem putSlot_syncp (s : State) (i : Fin 2) (x : Slot) : (putSlot s i x).syncp = s.syncp := rfl
@[simp] theorem putSlot_ecc (s : State) (i : Fin 2) (x : Slot) : (putSlot s i x).ecc = s.ecc := rfl
@[simp] theorem putSlot_cached (s : State) (i : Fin 2) (x : Slot) : (putSlot s i x).cached = s.cached := rfl
@[simp] theorem putSlot_dirty (s : State) (i : Fin 2) (x : Slot) : (putSlot s i x).dirty = s.dirty := rfl
@[simp] theorem putSlot_held (s : State) (i : Fin 2) (x : Slot) : (putSlot s i x).held = s.held := rfl
@[simp] theorem putSlot_patrol (s : State) (i : Fin 2) (x : Slot) : (putSlot s i x).patrol = s.patrol := rfl
@[simp] theorem putSlot_refreshes (s : State) (i : Fin 2) (x : Slot) : (putSlot s i x).refreshes = s.refreshes := rfl
@[simp] theorem putSlot_regs (s : State) (i : Fin 2) (x : Slot) : (putSlot s i x).regs = s.regs := rfl
@[simp] theorem putSlot_incAt (s : State) (i : Fin 2) (x : Slot) : (putSlot s i x).incAt = s.incAt := rfl
@[simp] theorem putSlot_incs (s : State) (i : Fin 2) (x : Slot) : (putSlot s i x).incs = s.incs := rfl
@[simp] theorem putSlot_fregs (s : State) (i : Fin 2) (x : Slot) : (putSlot s i x).fregs = s.fregs := rfl
@[simp] theorem putSlot_cores (s : State) (i : Fin 2) (x : Slot) : (putSlot s i x).cores = s.cores := rfl
@[simp] theorem putSlot_feOps (s : State) (i : Fin 2) (x : Slot) : (putSlot s i x).feOps = s.feOps := rfl
@[simp] theorem putSlot_nextOp (s : State) (i : Fin 2) (x : Slot) : (putSlot s i x).nextOp = s.nextOp := rfl
@[simp] theorem putSlot_log (s : State) (i : Fin 2) (x : Slot) : (putSlot s i x).log = s.log := rfl
@[simp] theorem putSlot_bootCount (s : State) (i : Fin 2) (x : Slot) : (putSlot s i x).bootCount = s.bootCount := rfl
@[simp] theorem putSlot_buu (s : State) (i : Fin 2) (x : Slot) : (putSlot s i x).buu = s.buu := rfl
@[simp] theorem putSlot_fab (s : State) (i : Fin 2) (x : Slot) : (putSlot s i x).fab = s.fab := rfl
@[simp] theorem putSlot_tb (s : State) (i : Fin 2) (x : Slot) : (putSlot s i x).tb = s.tb := rfl
@[simp] theorem putSlot_mp (s : State) (i : Fin 2) (x : Slot) : (putSlot s i x).mp = s.mp := rfl
@[simp] theorem putSlot_sp (s : State) (i : Fin 2) (x : Slot) : (putSlot s i x).sp = s.sp := rfl
@[simp] theorem putSlot_fw (s : State) (i : Fin 2) (x : Slot) : (putSlot s i x).fw = { s.fw with slots := tset s.fw.slots slotReset' i.val x } := rfl
@[simp] theorem putSlot_pwr (s : State) (i : Fin 2) (x : Slot) : (putSlot s i x).pwr = s.pwr := rfl
@[simp] theorem putSlot_side (s : State) (i : Fin 2) (x : Slot) : (putSlot s i x).side = s.side := rfl
@[simp] theorem putSlot_out (s : State) (i : Fin 2) (x : Slot) : (putSlot s i x).out = s.out := rfl

@[simp] theorem putAct_pending (s : State) (a : Activation) : (putAct s a).pending = s.pending := rfl
@[simp] theorem putAct_now (s : State) (a : Activation) : (putAct s a).now = s.now := rfl
@[simp] theorem putAct_freeCtr (s : State) (a : Activation) : (putAct s a).freeCtr = s.freeCtr := rfl
@[simp] theorem putAct_mem (s : State) (a : Activation) : (putAct s a).mem = s.mem := rfl
@[simp] theorem putAct_poison (s : State) (a : Activation) : (putAct s a).poison = s.poison := rfl
@[simp] theorem putAct_feb (s : State) (a : Activation) : (putAct s a).feb = s.feb := rfl
@[simp] theorem putAct_syncw (s : State) (a : Activation) : (putAct s a).syncw = s.syncw := rfl
@[simp] theorem putAct_syncp (s : State) (a : Activation) : (putAct s a).syncp = s.syncp := rfl
@[simp] theorem putAct_ecc (s : State) (a : Activation) : (putAct s a).ecc = s.ecc := rfl
@[simp] theorem putAct_cached (s : State) (a : Activation) : (putAct s a).cached = s.cached := rfl
@[simp] theorem putAct_dirty (s : State) (a : Activation) : (putAct s a).dirty = s.dirty := rfl
@[simp] theorem putAct_held (s : State) (a : Activation) : (putAct s a).held = s.held := rfl
@[simp] theorem putAct_patrol (s : State) (a : Activation) : (putAct s a).patrol = s.patrol := rfl
@[simp] theorem putAct_refreshes (s : State) (a : Activation) : (putAct s a).refreshes = s.refreshes := rfl
@[simp] theorem putAct_regs (s : State) (a : Activation) : (putAct s a).regs = s.regs := rfl
@[simp] theorem putAct_incAt (s : State) (a : Activation) : (putAct s a).incAt = s.incAt := rfl
@[simp] theorem putAct_incs (s : State) (a : Activation) : (putAct s a).incs = s.incs := rfl
@[simp] theorem putAct_fregs (s : State) (a : Activation) : (putAct s a).fregs = s.fregs := rfl
@[simp] theorem putAct_cores (s : State) (a : Activation) : (putAct s a).cores = s.cores := rfl
@[simp] theorem putAct_feOps (s : State) (a : Activation) : (putAct s a).feOps = s.feOps := rfl
@[simp] theorem putAct_nextOp (s : State) (a : Activation) : (putAct s a).nextOp = s.nextOp := rfl
@[simp] theorem putAct_log (s : State) (a : Activation) : (putAct s a).log = s.log := rfl
@[simp] theorem putAct_bootCount (s : State) (a : Activation) : (putAct s a).bootCount = s.bootCount := rfl
@[simp] theorem putAct_buu (s : State) (a : Activation) : (putAct s a).buu = s.buu := rfl
@[simp] theorem putAct_fab (s : State) (a : Activation) : (putAct s a).fab = s.fab := rfl
@[simp] theorem putAct_tb (s : State) (a : Activation) : (putAct s a).tb = s.tb := rfl
@[simp] theorem putAct_mp (s : State) (a : Activation) : (putAct s a).mp = s.mp := rfl
@[simp] theorem putAct_sp (s : State) (a : Activation) : (putAct s a).sp = s.sp := rfl
@[simp] theorem putAct_fw (s : State) (a : Activation) : (putAct s a).fw = { s.fw with act := a } := rfl
@[simp] theorem putAct_pwr (s : State) (a : Activation) : (putAct s a).pwr = s.pwr := rfl
@[simp] theorem putAct_side (s : State) (a : Activation) : (putAct s a).side = s.side := rfl
@[simp] theorem putAct_out (s : State) (a : Activation) : (putAct s a).out = s.out := rfl

@[simp] theorem putUpd_pending (s : State) (u : Option (Nat × Nat × Nat)) : (putUpd s u).pending = s.pending := rfl
@[simp] theorem putUpd_now (s : State) (u : Option (Nat × Nat × Nat)) : (putUpd s u).now = s.now := rfl
@[simp] theorem putUpd_freeCtr (s : State) (u : Option (Nat × Nat × Nat)) : (putUpd s u).freeCtr = s.freeCtr := rfl
@[simp] theorem putUpd_mem (s : State) (u : Option (Nat × Nat × Nat)) : (putUpd s u).mem = s.mem := rfl
@[simp] theorem putUpd_poison (s : State) (u : Option (Nat × Nat × Nat)) : (putUpd s u).poison = s.poison := rfl
@[simp] theorem putUpd_feb (s : State) (u : Option (Nat × Nat × Nat)) : (putUpd s u).feb = s.feb := rfl
@[simp] theorem putUpd_syncw (s : State) (u : Option (Nat × Nat × Nat)) : (putUpd s u).syncw = s.syncw := rfl
@[simp] theorem putUpd_syncp (s : State) (u : Option (Nat × Nat × Nat)) : (putUpd s u).syncp = s.syncp := rfl
@[simp] theorem putUpd_ecc (s : State) (u : Option (Nat × Nat × Nat)) : (putUpd s u).ecc = s.ecc := rfl
@[simp] theorem putUpd_cached (s : State) (u : Option (Nat × Nat × Nat)) : (putUpd s u).cached = s.cached := rfl
@[simp] theorem putUpd_dirty (s : State) (u : Option (Nat × Nat × Nat)) : (putUpd s u).dirty = s.dirty := rfl
@[simp] theorem putUpd_held (s : State) (u : Option (Nat × Nat × Nat)) : (putUpd s u).held = s.held := rfl
@[simp] theorem putUpd_patrol (s : State) (u : Option (Nat × Nat × Nat)) : (putUpd s u).patrol = s.patrol := rfl
@[simp] theorem putUpd_refreshes (s : State) (u : Option (Nat × Nat × Nat)) : (putUpd s u).refreshes = s.refreshes := rfl
@[simp] theorem putUpd_regs (s : State) (u : Option (Nat × Nat × Nat)) : (putUpd s u).regs = s.regs := rfl
@[simp] theorem putUpd_incAt (s : State) (u : Option (Nat × Nat × Nat)) : (putUpd s u).incAt = s.incAt := rfl
@[simp] theorem putUpd_incs (s : State) (u : Option (Nat × Nat × Nat)) : (putUpd s u).incs = s.incs := rfl
@[simp] theorem putUpd_fregs (s : State) (u : Option (Nat × Nat × Nat)) : (putUpd s u).fregs = s.fregs := rfl
@[simp] theorem putUpd_cores (s : State) (u : Option (Nat × Nat × Nat)) : (putUpd s u).cores = s.cores := rfl
@[simp] theorem putUpd_feOps (s : State) (u : Option (Nat × Nat × Nat)) : (putUpd s u).feOps = s.feOps := rfl
@[simp] theorem putUpd_nextOp (s : State) (u : Option (Nat × Nat × Nat)) : (putUpd s u).nextOp = s.nextOp := rfl
@[simp] theorem putUpd_log (s : State) (u : Option (Nat × Nat × Nat)) : (putUpd s u).log = s.log := rfl
@[simp] theorem putUpd_bootCount (s : State) (u : Option (Nat × Nat × Nat)) : (putUpd s u).bootCount = s.bootCount := rfl
@[simp] theorem putUpd_buu (s : State) (u : Option (Nat × Nat × Nat)) : (putUpd s u).buu = s.buu := rfl
@[simp] theorem putUpd_fab (s : State) (u : Option (Nat × Nat × Nat)) : (putUpd s u).fab = s.fab := rfl
@[simp] theorem putUpd_tb (s : State) (u : Option (Nat × Nat × Nat)) : (putUpd s u).tb = s.tb := rfl
@[simp] theorem putUpd_mp (s : State) (u : Option (Nat × Nat × Nat)) : (putUpd s u).mp = s.mp := rfl
@[simp] theorem putUpd_sp (s : State) (u : Option (Nat × Nat × Nat)) : (putUpd s u).sp = s.sp := rfl
@[simp] theorem putUpd_fw (s : State) (u : Option (Nat × Nat × Nat)) : (putUpd s u).fw = { s.fw with upd := u } := rfl
@[simp] theorem putUpd_pwr (s : State) (u : Option (Nat × Nat × Nat)) : (putUpd s u).pwr = s.pwr := rfl
@[simp] theorem putUpd_side (s : State) (u : Option (Nat × Nat × Nat)) : (putUpd s u).side = s.side := rfl
@[simp] theorem putUpd_out (s : State) (u : Option (Nat × Nat × Nat)) : (putUpd s u).out = s.out := rfl

@[simp] theorem setPhase_pending (s : State) (p : BootPhase) : (setPhase s p).pending = s.pending := rfl
@[simp] theorem setPhase_now (s : State) (p : BootPhase) : (setPhase s p).now = s.now := rfl
@[simp] theorem setPhase_freeCtr (s : State) (p : BootPhase) : (setPhase s p).freeCtr = s.freeCtr := rfl
@[simp] theorem setPhase_mem (s : State) (p : BootPhase) : (setPhase s p).mem = s.mem := rfl
@[simp] theorem setPhase_poison (s : State) (p : BootPhase) : (setPhase s p).poison = s.poison := rfl
@[simp] theorem setPhase_feb (s : State) (p : BootPhase) : (setPhase s p).feb = s.feb := rfl
@[simp] theorem setPhase_syncw (s : State) (p : BootPhase) : (setPhase s p).syncw = s.syncw := rfl
@[simp] theorem setPhase_syncp (s : State) (p : BootPhase) : (setPhase s p).syncp = s.syncp := rfl
@[simp] theorem setPhase_ecc (s : State) (p : BootPhase) : (setPhase s p).ecc = s.ecc := rfl
@[simp] theorem setPhase_cached (s : State) (p : BootPhase) : (setPhase s p).cached = s.cached := rfl
@[simp] theorem setPhase_dirty (s : State) (p : BootPhase) : (setPhase s p).dirty = s.dirty := rfl
@[simp] theorem setPhase_held (s : State) (p : BootPhase) : (setPhase s p).held = s.held := rfl
@[simp] theorem setPhase_patrol (s : State) (p : BootPhase) : (setPhase s p).patrol = s.patrol := rfl
@[simp] theorem setPhase_refreshes (s : State) (p : BootPhase) : (setPhase s p).refreshes = s.refreshes := rfl
@[simp] theorem setPhase_regs (s : State) (p : BootPhase) : (setPhase s p).regs = s.regs := rfl
@[simp] theorem setPhase_incAt (s : State) (p : BootPhase) : (setPhase s p).incAt = s.incAt := rfl
@[simp] theorem setPhase_incs (s : State) (p : BootPhase) : (setPhase s p).incs = s.incs := rfl
@[simp] theorem setPhase_fregs (s : State) (p : BootPhase) : (setPhase s p).fregs = s.fregs := rfl
@[simp] theorem setPhase_cores (s : State) (p : BootPhase) : (setPhase s p).cores = s.cores := rfl
@[simp] theorem setPhase_feOps (s : State) (p : BootPhase) : (setPhase s p).feOps = s.feOps := rfl
@[simp] theorem setPhase_nextOp (s : State) (p : BootPhase) : (setPhase s p).nextOp = s.nextOp := rfl
@[simp] theorem setPhase_log (s : State) (p : BootPhase) : (setPhase s p).log = s.log := rfl
@[simp] theorem setPhase_bootCount (s : State) (p : BootPhase) : (setPhase s p).bootCount = s.bootCount := rfl
@[simp] theorem setPhase_buu (s : State) (p : BootPhase) : (setPhase s p).buu = s.buu := rfl
@[simp] theorem setPhase_fab (s : State) (p : BootPhase) : (setPhase s p).fab = s.fab := rfl
@[simp] theorem setPhase_tb (s : State) (p : BootPhase) : (setPhase s p).tb = s.tb := rfl
@[simp] theorem setPhase_mp (s : State) (p : BootPhase) : (setPhase s p).mp = s.mp := rfl
@[simp] theorem setPhase_sp (s : State) (p : BootPhase) : (setPhase s p).sp = s.sp := rfl
@[simp] theorem setPhase_fw (s : State) (p : BootPhase) : (setPhase s p).fw = { s.fw with phase := p } := rfl
@[simp] theorem setPhase_pwr (s : State) (p : BootPhase) : (setPhase s p).pwr = s.pwr := rfl
@[simp] theorem setPhase_side (s : State) (p : BootPhase) : (setPhase s p).side = s.side := rfl
@[simp] theorem setPhase_out (s : State) (p : BootPhase) : (setPhase s p).out = s.out := rfl

@[simp] theorem putTrained_pending (s : State) (t : Tab Bool) : (putTrained s t).pending = s.pending := rfl
@[simp] theorem putTrained_now (s : State) (t : Tab Bool) : (putTrained s t).now = s.now := rfl
@[simp] theorem putTrained_freeCtr (s : State) (t : Tab Bool) : (putTrained s t).freeCtr = s.freeCtr := rfl
@[simp] theorem putTrained_mem (s : State) (t : Tab Bool) : (putTrained s t).mem = s.mem := rfl
@[simp] theorem putTrained_poison (s : State) (t : Tab Bool) : (putTrained s t).poison = s.poison := rfl
@[simp] theorem putTrained_feb (s : State) (t : Tab Bool) : (putTrained s t).feb = s.feb := rfl
@[simp] theorem putTrained_syncw (s : State) (t : Tab Bool) : (putTrained s t).syncw = s.syncw := rfl
@[simp] theorem putTrained_syncp (s : State) (t : Tab Bool) : (putTrained s t).syncp = s.syncp := rfl
@[simp] theorem putTrained_ecc (s : State) (t : Tab Bool) : (putTrained s t).ecc = s.ecc := rfl
@[simp] theorem putTrained_cached (s : State) (t : Tab Bool) : (putTrained s t).cached = s.cached := rfl
@[simp] theorem putTrained_dirty (s : State) (t : Tab Bool) : (putTrained s t).dirty = s.dirty := rfl
@[simp] theorem putTrained_held (s : State) (t : Tab Bool) : (putTrained s t).held = s.held := rfl
@[simp] theorem putTrained_patrol (s : State) (t : Tab Bool) : (putTrained s t).patrol = s.patrol := rfl
@[simp] theorem putTrained_refreshes (s : State) (t : Tab Bool) : (putTrained s t).refreshes = s.refreshes := rfl
@[simp] theorem putTrained_regs (s : State) (t : Tab Bool) : (putTrained s t).regs = s.regs := rfl
@[simp] theorem putTrained_incAt (s : State) (t : Tab Bool) : (putTrained s t).incAt = s.incAt := rfl
@[simp] theorem putTrained_incs (s : State) (t : Tab Bool) : (putTrained s t).incs = s.incs := rfl
@[simp] theorem putTrained_fregs (s : State) (t : Tab Bool) : (putTrained s t).fregs = s.fregs := rfl
@[simp] theorem putTrained_cores (s : State) (t : Tab Bool) : (putTrained s t).cores = s.cores := rfl
@[simp] theorem putTrained_feOps (s : State) (t : Tab Bool) : (putTrained s t).feOps = s.feOps := rfl
@[simp] theorem putTrained_nextOp (s : State) (t : Tab Bool) : (putTrained s t).nextOp = s.nextOp := rfl
@[simp] theorem putTrained_log (s : State) (t : Tab Bool) : (putTrained s t).log = s.log := rfl
@[simp] theorem putTrained_bootCount (s : State) (t : Tab Bool) : (putTrained s t).bootCount = s.bootCount := rfl
@[simp] theorem putTrained_buu (s : State) (t : Tab Bool) : (putTrained s t).buu = s.buu := rfl
@[simp] theorem putTrained_fab (s : State) (t : Tab Bool) : (putTrained s t).fab = s.fab := rfl
@[simp] theorem putTrained_tb (s : State) (t : Tab Bool) : (putTrained s t).tb = s.tb := rfl
@[simp] theorem putTrained_mp (s : State) (t : Tab Bool) : (putTrained s t).mp = s.mp := rfl
@[simp] theorem putTrained_sp (s : State) (t : Tab Bool) : (putTrained s t).sp = s.sp := rfl
@[simp] theorem putTrained_fw (s : State) (t : Tab Bool) : (putTrained s t).fw = { s.fw with trained := t } := rfl
@[simp] theorem putTrained_pwr (s : State) (t : Tab Bool) : (putTrained s t).pwr = s.pwr := rfl
@[simp] theorem putTrained_side (s : State) (t : Tab Bool) : (putTrained s t).side = s.side := rfl
@[simp] theorem putTrained_out (s : State) (t : Tab Bool) : (putTrained s t).out = s.out := rfl

@[simp] theorem putPwr_pending (s : State) (p : Pwr) : (putPwr s p).pending = s.pending := rfl
@[simp] theorem putPwr_now (s : State) (p : Pwr) : (putPwr s p).now = s.now := rfl
@[simp] theorem putPwr_freeCtr (s : State) (p : Pwr) : (putPwr s p).freeCtr = s.freeCtr := rfl
@[simp] theorem putPwr_mem (s : State) (p : Pwr) : (putPwr s p).mem = s.mem := rfl
@[simp] theorem putPwr_poison (s : State) (p : Pwr) : (putPwr s p).poison = s.poison := rfl
@[simp] theorem putPwr_feb (s : State) (p : Pwr) : (putPwr s p).feb = s.feb := rfl
@[simp] theorem putPwr_syncw (s : State) (p : Pwr) : (putPwr s p).syncw = s.syncw := rfl
@[simp] theorem putPwr_syncp (s : State) (p : Pwr) : (putPwr s p).syncp = s.syncp := rfl
@[simp] theorem putPwr_ecc (s : State) (p : Pwr) : (putPwr s p).ecc = s.ecc := rfl
@[simp] theorem putPwr_cached (s : State) (p : Pwr) : (putPwr s p).cached = s.cached := rfl
@[simp] theorem putPwr_dirty (s : State) (p : Pwr) : (putPwr s p).dirty = s.dirty := rfl
@[simp] theorem putPwr_held (s : State) (p : Pwr) : (putPwr s p).held = s.held := rfl
@[simp] theorem putPwr_patrol (s : State) (p : Pwr) : (putPwr s p).patrol = s.patrol := rfl
@[simp] theorem putPwr_refreshes (s : State) (p : Pwr) : (putPwr s p).refreshes = s.refreshes := rfl
@[simp] theorem putPwr_regs (s : State) (p : Pwr) : (putPwr s p).regs = s.regs := rfl
@[simp] theorem putPwr_incAt (s : State) (p : Pwr) : (putPwr s p).incAt = s.incAt := rfl
@[simp] theorem putPwr_incs (s : State) (p : Pwr) : (putPwr s p).incs = s.incs := rfl
@[simp] theorem putPwr_fregs (s : State) (p : Pwr) : (putPwr s p).fregs = s.fregs := rfl
@[simp] theorem putPwr_cores (s : State) (p : Pwr) : (putPwr s p).cores = s.cores := rfl
@[simp] theorem putPwr_feOps (s : State) (p : Pwr) : (putPwr s p).feOps = s.feOps := rfl
@[simp] theorem putPwr_nextOp (s : State) (p : Pwr) : (putPwr s p).nextOp = s.nextOp := rfl
@[simp] theorem putPwr_log (s : State) (p : Pwr) : (putPwr s p).log = s.log := rfl
@[simp] theorem putPwr_bootCount (s : State) (p : Pwr) : (putPwr s p).bootCount = s.bootCount := rfl
@[simp] theorem putPwr_buu (s : State) (p : Pwr) : (putPwr s p).buu = s.buu := rfl
@[simp] theorem putPwr_fab (s : State) (p : Pwr) : (putPwr s p).fab = s.fab := rfl
@[simp] theorem putPwr_tb (s : State) (p : Pwr) : (putPwr s p).tb = s.tb := rfl
@[simp] theorem putPwr_mp (s : State) (p : Pwr) : (putPwr s p).mp = s.mp := rfl
@[simp] theorem putPwr_sp (s : State) (p : Pwr) : (putPwr s p).sp = s.sp := rfl
@[simp] theorem putPwr_fw (s : State) (p : Pwr) : (putPwr s p).fw = s.fw := rfl
@[simp] theorem putPwr_pwr (s : State) (p : Pwr) : (putPwr s p).pwr = p := rfl
@[simp] theorem putPwr_side (s : State) (p : Pwr) : (putPwr s p).side = s.side := rfl
@[simp] theorem putPwr_out (s : State) (p : Pwr) : (putPwr s p).out = s.out := rfl

@[simp] theorem putSide_pending (s : State) (x : Side) : (putSide s x).pending = s.pending := rfl
@[simp] theorem putSide_now (s : State) (x : Side) : (putSide s x).now = s.now := rfl
@[simp] theorem putSide_freeCtr (s : State) (x : Side) : (putSide s x).freeCtr = s.freeCtr := rfl
@[simp] theorem putSide_mem (s : State) (x : Side) : (putSide s x).mem = s.mem := rfl
@[simp] theorem putSide_poison (s : State) (x : Side) : (putSide s x).poison = s.poison := rfl
@[simp] theorem putSide_feb (s : State) (x : Side) : (putSide s x).feb = s.feb := rfl
@[simp] theorem putSide_syncw (s : State) (x : Side) : (putSide s x).syncw = s.syncw := rfl
@[simp] theorem putSide_syncp (s : State) (x : Side) : (putSide s x).syncp = s.syncp := rfl
@[simp] theorem putSide_ecc (s : State) (x : Side) : (putSide s x).ecc = s.ecc := rfl
@[simp] theorem putSide_cached (s : State) (x : Side) : (putSide s x).cached = s.cached := rfl
@[simp] theorem putSide_dirty (s : State) (x : Side) : (putSide s x).dirty = s.dirty := rfl
@[simp] theorem putSide_held (s : State) (x : Side) : (putSide s x).held = s.held := rfl
@[simp] theorem putSide_patrol (s : State) (x : Side) : (putSide s x).patrol = s.patrol := rfl
@[simp] theorem putSide_refreshes (s : State) (x : Side) : (putSide s x).refreshes = s.refreshes := rfl
@[simp] theorem putSide_regs (s : State) (x : Side) : (putSide s x).regs = s.regs := rfl
@[simp] theorem putSide_incAt (s : State) (x : Side) : (putSide s x).incAt = s.incAt := rfl
@[simp] theorem putSide_incs (s : State) (x : Side) : (putSide s x).incs = s.incs := rfl
@[simp] theorem putSide_fregs (s : State) (x : Side) : (putSide s x).fregs = s.fregs := rfl
@[simp] theorem putSide_cores (s : State) (x : Side) : (putSide s x).cores = s.cores := rfl
@[simp] theorem putSide_feOps (s : State) (x : Side) : (putSide s x).feOps = s.feOps := rfl
@[simp] theorem putSide_nextOp (s : State) (x : Side) : (putSide s x).nextOp = s.nextOp := rfl
@[simp] theorem putSide_log (s : State) (x : Side) : (putSide s x).log = s.log := rfl
@[simp] theorem putSide_bootCount (s : State) (x : Side) : (putSide s x).bootCount = s.bootCount := rfl
@[simp] theorem putSide_buu (s : State) (x : Side) : (putSide s x).buu = s.buu := rfl
@[simp] theorem putSide_fab (s : State) (x : Side) : (putSide s x).fab = s.fab := rfl
@[simp] theorem putSide_tb (s : State) (x : Side) : (putSide s x).tb = s.tb := rfl
@[simp] theorem putSide_mp (s : State) (x : Side) : (putSide s x).mp = s.mp := rfl
@[simp] theorem putSide_sp (s : State) (x : Side) : (putSide s x).sp = s.sp := rfl
@[simp] theorem putSide_fw (s : State) (x : Side) : (putSide s x).fw = s.fw := rfl
@[simp] theorem putSide_pwr (s : State) (x : Side) : (putSide s x).pwr = s.pwr := rfl
@[simp] theorem putSide_side (s : State) (x : Side) : (putSide s x).side = x := rfl
@[simp] theorem putSide_out (s : State) (x : Side) : (putSide s x).out = s.out := rfl

@[simp] theorem putRing_pending (s : State) (n : Nat) (q : List LogRec) : (putRing s n q).pending = s.pending := rfl
@[simp] theorem putRing_now (s : State) (n : Nat) (q : List LogRec) : (putRing s n q).now = s.now := rfl
@[simp] theorem putRing_freeCtr (s : State) (n : Nat) (q : List LogRec) : (putRing s n q).freeCtr = s.freeCtr := rfl
@[simp] theorem putRing_mem (s : State) (n : Nat) (q : List LogRec) : (putRing s n q).mem = s.mem := rfl
@[simp] theorem putRing_poison (s : State) (n : Nat) (q : List LogRec) : (putRing s n q).poison = s.poison := rfl
@[simp] theorem putRing_feb (s : State) (n : Nat) (q : List LogRec) : (putRing s n q).feb = s.feb := rfl
@[simp] theorem putRing_syncw (s : State) (n : Nat) (q : List LogRec) : (putRing s n q).syncw = s.syncw := rfl
@[simp] theorem putRing_syncp (s : State) (n : Nat) (q : List LogRec) : (putRing s n q).syncp = s.syncp := rfl
@[simp] theorem putRing_ecc (s : State) (n : Nat) (q : List LogRec) : (putRing s n q).ecc = s.ecc := rfl
@[simp] theorem putRing_cached (s : State) (n : Nat) (q : List LogRec) : (putRing s n q).cached = s.cached := rfl
@[simp] theorem putRing_dirty (s : State) (n : Nat) (q : List LogRec) : (putRing s n q).dirty = s.dirty := rfl
@[simp] theorem putRing_held (s : State) (n : Nat) (q : List LogRec) : (putRing s n q).held = s.held := rfl
@[simp] theorem putRing_patrol (s : State) (n : Nat) (q : List LogRec) : (putRing s n q).patrol = s.patrol := rfl
@[simp] theorem putRing_refreshes (s : State) (n : Nat) (q : List LogRec) : (putRing s n q).refreshes = s.refreshes := rfl
@[simp] theorem putRing_regs (s : State) (n : Nat) (q : List LogRec) : (putRing s n q).regs = s.regs := rfl
@[simp] theorem putRing_incAt (s : State) (n : Nat) (q : List LogRec) : (putRing s n q).incAt = s.incAt := rfl
@[simp] theorem putRing_incs (s : State) (n : Nat) (q : List LogRec) : (putRing s n q).incs = s.incs := rfl
@[simp] theorem putRing_fregs (s : State) (n : Nat) (q : List LogRec) : (putRing s n q).fregs = s.fregs := rfl
@[simp] theorem putRing_cores (s : State) (n : Nat) (q : List LogRec) : (putRing s n q).cores = s.cores := rfl
@[simp] theorem putRing_feOps (s : State) (n : Nat) (q : List LogRec) : (putRing s n q).feOps = s.feOps := rfl
@[simp] theorem putRing_nextOp (s : State) (n : Nat) (q : List LogRec) : (putRing s n q).nextOp = s.nextOp := rfl
@[simp] theorem putRing_log (s : State) (n : Nat) (q : List LogRec) : (putRing s n q).log = { s.log with rings := tset s.log.rings [] n q } := rfl
@[simp] theorem putRing_bootCount (s : State) (n : Nat) (q : List LogRec) : (putRing s n q).bootCount = s.bootCount := rfl
@[simp] theorem putRing_buu (s : State) (n : Nat) (q : List LogRec) : (putRing s n q).buu = s.buu := rfl
@[simp] theorem putRing_fab (s : State) (n : Nat) (q : List LogRec) : (putRing s n q).fab = s.fab := rfl
@[simp] theorem putRing_tb (s : State) (n : Nat) (q : List LogRec) : (putRing s n q).tb = s.tb := rfl
@[simp] theorem putRing_mp (s : State) (n : Nat) (q : List LogRec) : (putRing s n q).mp = s.mp := rfl
@[simp] theorem putRing_sp (s : State) (n : Nat) (q : List LogRec) : (putRing s n q).sp = s.sp := rfl
@[simp] theorem putRing_fw (s : State) (n : Nat) (q : List LogRec) : (putRing s n q).fw = s.fw := rfl
@[simp] theorem putRing_pwr (s : State) (n : Nat) (q : List LogRec) : (putRing s n q).pwr = s.pwr := rfl
@[simp] theorem putRing_side (s : State) (n : Nat) (q : List LogRec) : (putRing s n q).side = s.side := rfl
@[simp] theorem putRing_out (s : State) (n : Nat) (q : List LogRec) : (putRing s n q).out = s.out := rfl

/-! Reads after writes. -/

@[simp] theorem rget_rput (s : State) (r : Reg) (v : W64) : rget (rput s r v) r = v := tget_tset_self _ _ _ _

theorem rget_rput_ne (s : State) {r q : Reg} (v : W64) (h : regOff q ≠ regOff r) : rget (rput s r v) q = rget s q :=
  tget_tset_ne _ _ _ _ h

@[simp] theorem fget_fput (s : State) (f : FuncId) (r : Reg) (v : W64) : fget (fput s f r v) f r = v := tget_tset_self _ _ _ _

theorem fget_fput_ne (s : State) {f g : FuncId} {r q : Reg} (v : W64) (h : fkey g q ≠ fkey f r) : fget (fput s f r v) g q = fget s g q :=
  tget_tset_ne _ _ _ _ h

@[simp] theorem getCore_putCore (s : State) (c : CoreId) (k : Core) : getCore (putCore s c k) c = k := tget_tset_self _ _ _ _

theorem getCore_putCore_ne (s : State) {c d : CoreId} (k : Core) (h : d ≠ c) : getCore (putCore s c k) d = getCore s d :=
  tget_tset_ne _ _ _ _ fun e => h (Fin.ext e)

@[simp] theorem engGet_engPut (k : Core) (e : EngId) (g : Engine) : engGet (engPut k e g) e = g := tget_tset_self _ _ _ _

theorem engIdx_inj {a b : EngId} (h : engIdx a = engIdx b) : a = b := by cases a <;> cases b <;> simp_all [engIdx]

theorem engGet_engPut_ne (k : Core) {e f : EngId} (g : Engine) (h : f ≠ e) : engGet (engPut k e g) f = engGet k f :=
  tget_tset_ne _ _ _ _ fun x => h (engIdx_inj x)

@[simp] theorem getEng_putEng (s : State) (c : CoreId) (e : EngId) (g : Engine) : getEng (putEng s c e g) c e = g := by
  simp [getEng, putEng]

@[simp] theorem getBuu_putBuu (s : State) (n : N20) (b : Buu) : getBuu (putBuu s n b) n = b := tget_tset_self _ _ _ _

@[simp] theorem getFab_putFab (s : State) (n : N20) (x : FabSlice) : getFab (putFab s n x) n = x := tget_tset_self _ _ _ _

@[simp] theorem rget_fput (s : State) (f : FuncId) (r q : Reg) (v : W64) : rget (fput s f r v) q = rget s q := rfl
@[simp] theorem rget_putCore (s : State) (c : CoreId) (k : Core) (q : Reg) : rget (putCore s c k) q = rget s q := rfl
@[simp] theorem rget_putBuu (s : State) (n : N20) (b : Buu) (q : Reg) : rget (putBuu s n b) q = rget s q := rfl
@[simp] theorem rget_emit (s : State) (x : OutEv) (q : Reg) : rget (emit s x) q = rget s q := rfl
@[simp] theorem getCore_rput (s : State) (r : Reg) (v : W64) (c : CoreId) : getCore (rput s r v) c = getCore s c := rfl

/-- An event goes to the log and changes nothing else; a slice-fatal one waits for the MP (R453, R456). -/
theorem logEv_else (s : State) (cause cls slice unit sub inst : Nat) (detail : W64) :
    ∃ l, logEv s cause cls slice unit sub inst detail = { s with log := l } := by
  unfold logEv
  dsimp only
  split <;> exact ⟨_, rfl⟩

/-- Every byte outside the run written reads as before, and each byte of it as written. -/
theorem memByte_putUnit_out (s : State) (u : Nat) (bs : List Byte) (a : Nat) (h : a < 64 * u ∨ 64 * u + bs.length ≤ a) :
    memByte (putUnit s u bs) a = memByte s a := tget_twrite_out _ _ _ _ _ h

theorem memByte_putUnit_in (s : State) (u : Nat) (bs : List Byte) (i : Nat) (h : i < bs.length) :
    memByte (putUnit s u bs) (64 * u + i) = nthD bs i memDefault := tget_twrite_in _ _ _ _ _ h

end Sys2Proof.Machine
end

