-- ==== Sys2Proof/Laws/Executes.lean ====
section
/-!
SUPPORT. What dispatch does in a calm core: the head is taken, and a core in which nothing can begin, issue or settle stays as it is.
-/

namespace Sys2Proof.Machine

/-- Work over a list of which no piece changes the state leaves the state. -/
theorem still_foldl {β : Type} {s : State} {l : List β} {f : State → β → State} (h : ∀ b ∈ l, f s b = s) : l.foldl f s = s :=
  List.foldlRecOn (motive := fun t => t = s) l f rfl fun _ ht b hb => ht ▸ h b hb

theorem settleEngine_still {s : State} {c : CoreId} {e : EngId}
    (h : (getEng s c e).mode = .halted ∨ (getEng s c e).mode = .running ∨ (anyInst (getCore s c) e = true)) : settleEngine s c e = s := by
  unfold settleEngine
  rcases h with h | h | h
  · simp [h]
  · simp [h]
  · have hq : quiet s c e = false := by simp [quiet, h]
    dsimp only
    simp only [hq, h]
    split <;> rfl

/-- Where every instruction has begun, none begins. -/
theorem startReady_still {s : State} {c : CoreId} (hi : ∀ i ∈ (getCore s c).insts, i.begun = true ∧ (i.finished = false → ∀ n, i.prog ≠ .dxe n)) :
    startReady s c = s := by
  unfold startReady
  apply still_foldl
  intro id _
  unfold instOf
  cases hf : (getCore s c).insts.find? (fun i => i.id == id) with
  | none => rfl
  | some i => simp [(hi i (List.mem_of_find?_eq_some hf)).1]

/-- Where no instruction has a stream task left to issue, none is issued. -/
theorem pump_still {s : State} {c : CoreId} (hi : ∀ i ∈ (getCore s c).insts, i.begun = true ∧ (i.finished = false → ∀ n, i.prog ≠ .dxe n))
    (id n : Nat) : pump c id n s = s := by
  cases n with
  | zero => rfl
  | succ n =>
    unfold pump instOf
    cases hf : (getCore s c).insts.find? (fun i => i.id == id) with
    | none => rfl
    | some i =>
      have h := hi i (List.mem_of_find?_eq_some hf)
      dsimp only
      split
      · rename_i j hj
        have hb : i.finished = true := by
          by_contra hn; exact h.2 (by simpa using hn) j hj
        simp [hb]
      · rfl

theorem pumpAll_still {s : State} {c : CoreId} (hi : ∀ i ∈ (getCore s c).insts, i.begun = true ∧ (i.finished = false → ∀ n, i.prog ≠ .dxe n)) :
    pumpAll s c = s := by
  unfold pumpAll
  apply still_foldl
  intro i _
  cases hp : i.prog <;> simp [pump_still hi]

/-- A core whose instructions have all begun, are no stream issues, and whose stopping engines still hold an instruction, settles at once. -/
theorem settleCore_still {s : State} {c : CoreId} (hi : ∀ i ∈ (getCore s c).insts, i.begun = true ∧ (i.finished = false → ∀ n, i.prog ≠ .dxe n))
    (hm : ∀ e, (getEng s c e).mode = .halted ∨ (getEng s c e).mode = .running ∨ (anyInst (getCore s c) e = true)) :
    settleCore s c = s := by
  unfold settleCore
  simp only [startReady_still hi, pumpAll_still hi]
  exact still_foldl fun e _ => settleEngine_still (hm e)

theorem settleCore_calm {s : State} {c : CoreId} (h : CalmCore s c) : settleCore s c = s :=
  settleCore_still (by simp [h.insts]) fun e => (h.modes e).elim .inl fun x => .inr (.inl x)

/-- The head that executes is passed on. -/
theorem atHead_executes {s : State} {c : CoreId} {e : EngId} {w : W128} {t o : Nat} {d : LoopDesc} {g : Engine}
    (h : Executes s c e w t d g) (ho : opc w = o) (go : State → Nat → W128 → LoopDesc → State) :
    atHead s c e o go = go (advance (putEng s c e g) t) t w d := by
  unfold atHead
  rw [h.head]
  simp [ho, h.held, h.pass]

theorem catchUp_mode (g : Engine) (t : Nat) : (catchUp g t).mode = g.mode := rfl
theorem catchUp_step (g : Engine) (t : Nat) : (catchUp g t).step = g.step := rfl
theorem catchUp_bank (g : Engine) (t : Nat) : (catchUp g t).bank = g.bank := rfl
theorem catchUp_pc (g : Engine) (t : Nat) : (catchUp g t).pc = g.pc := rfl

/-- A dispatch is made no earlier than it could be. -/
theorem le_dispatchSlot (k : Core) (e : EngId) (g : Engine) (t : Nat) (q : QWord) : t ≤ dispatchSlot k e g t q := by
  unfold dispatchSlot claimSlot
  split <;> split <;> omega

/-- The engine of a head that can be dispatched is RUNNING, dispatches no earlier than now, and differs in its queue alone. -/
theorem headOf_some {s : State} {c : CoreId} {e : EngId} {t : Nat} {q : QWord} {g : Engine} (h : headOf s c e = some (t, q, g)) :
    (getEng s c e).mode = .running ∧ s.now ≤ t ∧ (getEng s c e).nextAt ≤ t ∧
      g = { getEng s c e with queue := g.queue, fetchAt := g.fetchAt } := by
  unfold headOf at h
  simp only [getEng] at *
  generalize (match (engGet (getCore s c) e).wait with
    | .none | .entry => true
    | _ => false) = o at h
  split_ifs at h with hc
  have hr : (engGet (getCore s c) e).mode = .running := by
    by_contra hn; exact hc (.inl hn)
  split at h
  · simp only [Option.some.injEq] at h
    obtain ⟨rfl, rfl, rfl⟩ := h
    exact ⟨hr, (le_max_left _ _).trans (le_dispatchSlot ..), (le_max_right _ _).trans (le_dispatchSlot ..), rfl⟩
  · split at h
    · simp only [Option.some.injEq] at h
      obtain ⟨rfl, rfl, rfl⟩ := h
      exact ⟨hr, ((le_max_left _ _).trans (Nat.le_succ _)).trans (le_dispatchSlot ..),
        ((le_max_right _ _).trans (Nat.le_succ _)).trans (le_dispatchSlot ..), rfl⟩
    · cases h

theorem Executes.running {s : State} {c : CoreId} {e : EngId} {w : W128} {t : Nat} {d : LoopDesc} {g : Engine}
    (h : Executes s c e w t d g) : g.mode = .running := by
  obtain ⟨h1, _, _, h4⟩ := headOf_some h.head
  rw [h4]; exact h1

theorem SameCores_trans {s t u : State} {c e} (h : SameCores s t c e) (k : SameCores t u c e) : SameCores s u c e :=
  ⟨fun x hx => (k.others x hx).trans (h.others x hx), fun x hx => (k.engines x hx).trans (h.engines x hx), k.vregs.trans h.vregs,
   k.xregs.trans h.xregs, k.slots.trans h.slots, k.sem.trans h.sem, k.ctx.trans h.ctx, k.sen.trans h.sen, k.tasks.trans h.tasks⟩
theorem SameMemory_refl (s : State) : SameMemory s s := by constructor <;> rfl
theorem SameUnits_refl (s : State) : SameUnits s s := by constructor <;> rfl
theorem SameMemory_trans {s t u : State} (h : SameMemory s t) (k : SameMemory t u) : SameMemory s u :=
  ⟨k.1.trans h.1, k.2.trans h.2, k.3.trans h.3, k.4.trans h.4, k.5.trans h.5, k.6.trans h.6⟩
theorem SameUnits_trans {s t u : State} (h : SameUnits s t) (k : SameUnits t u) : SameUnits s u :=
  ⟨k.1.trans h.1, k.2.trans h.2, k.3.trans h.3, k.4.trans h.4, k.5.trans h.5, k.6.trans h.6, k.7.trans h.7, k.8.trans h.8, k.9.trans h.9,
   k.10.trans h.10, k.11.trans h.11⟩

/-- lateReads touches registers, their counts and the log alone -/
theorem lateReads_else (s : State) (c : CoreId) (e : EngId) (i : Inst) (n : Nat) :
    ∃ r a b l, lateReads s c e i n = { s with regs := r, incAt := a, incs := b, log := l } ∧ (latcheck s c e = 0 → r = s.regs ∧ l = s.log) := by
  unfold lateReads
  split
  · exact ⟨s.regs, s.incAt, s.incs, s.log, rfl, fun _ => ⟨rfl, rfl⟩⟩
  · rename_i hn
    have hl : ∀ (l : List Nat) (s : State), ∃ q, l.foldl (fun s _ => logEng s c (engIdx e) (stCode .lateRead) clsNone i.bank i.idx 0) s
        = { s with log := q } := by
      intro l
      induction l with
      | nil => intro s; exact ⟨s.log, rfl⟩
      | cons a r ih =>
        intro s
        rw [List.foldl_cons]
        obtain ⟨q, hq⟩ : ∃ q, logEng s c (engIdx e) (stCode .lateRead) clsNone i.bank i.idx 0 = { s with log := q } := logEv_else ..
        rw [hq]
        exact ih { s with log := q }
    obtain ⟨q, h⟩ := hl (List.range n) (rbump s (.eng c e .stat) 47 32 n)
    dsimp only
    rw [h]
    exact ⟨_, _, _, _, rfl, fun h0 => absurd (Or.inl h0) hn⟩


/-- s with core c changed to k, and possibly registers, their counts and the log -/
structure CoreTo (s u : State) (c : CoreId) (k : Core) (q : Prop) : Prop where
  eq : ∃ cs r a b l, u = { s with cores := cs, regs := r, incAt := a, incs := b, log := l } ∧ tget cs coreReset c.val = k ∧
    (∀ x : CoreId, x ≠ c → tget cs coreReset x.val = getCore s x) ∧ (q → r = s.regs ∧ l = s.log)

theorem CoreTo.refl (s : State) (c : CoreId) (q : Prop) : CoreTo s s c (getCore s c) q :=
  ⟨⟨s.cores, s.regs, s.incAt, s.incs, s.log, rfl, rfl, fun _ _ => rfl, fun _ => ⟨rfl, rfl⟩⟩⟩

theorem CoreTo.put {s u : State} {c : CoreId} {k k' : Core} {q : Prop} (h : CoreTo s u c k q) : CoreTo s (putCore u c k') c k' q := by
  obtain ⟨cs, r, a, b, l, rfl, h1, h2, h3⟩ := h.eq
  refine ⟨⟨tset cs coreReset c.val k', r, a, b, l, rfl, tget_tset_self _ _ _ _, fun x hx => ?_, h3⟩⟩
  rw [← h2 x hx]
  exact tget_tset_ne _ _ _ _ fun e => hx (Fin.ext e)

theorem CoreTo.core {s u : State} {c : CoreId} {k : Core} {q : Prop} (h : CoreTo s u c k q) : getCore u c = k := by
  obtain ⟨cs, r, a, b, l, rfl, h1, h2, h3⟩ := h.eq; exact h1

theorem CoreTo.else_ {s u : State} {c : CoreId} {k : Core} {q : Prop} (h : CoreTo s u c k q) :
    SameMemory s u ∧ SameUnits s u ∧ (∀ x, x ≠ c → getCore u x = getCore s x) ∧ u.now = s.now ∧ u.feOps = s.feOps ∧
      (q → u.regs = s.regs ∧ u.log = s.log) := by
  obtain ⟨cs, r, a, b, l, rfl, h1, h2, h3⟩ := h.eq
  exact ⟨by constructor <;> rfl, by constructor <;> rfl, h2, rfl, rfl, h3⟩

theorem latcheck_rbump_stat (s : State) (c : CoreId) (e : EngId) (a b n : Nat) :
    latcheck (rbump s (.eng c e .stat) a b n) c e = latcheck s c e := by
  have h : rget (rbump s (.eng c e .stat) a b n) (.eng c e .ctl) = rget s (.eng c e .ctl) :=
    rget_rput_ne _ _ (by simp [regOff, engRegOff])
  unfold latcheck rfld
  cases e <;> simp only [h]

theorem lateReads_latcheck (s : State) (c : CoreId) (e : EngId) (i : Inst) (n : Nat) :
    latcheck (lateReads s c e i n) c e = latcheck s c e := by
  unfold lateReads
  split
  · rfl
  · dsimp only
    rw [← latcheck_rbump_stat s c e 47 32 n]
    generalize rbump s (.eng c e .stat) 47 32 n = s'
    generalize List.range n = l
    induction l generalizing s' with
    | nil => rfl
    | cons a r ih =>
      rw [List.foldl_cons, ih]
      obtain ⟨q, hq⟩ : ∃ q, logEng s' c (engIdx e) (stCode .lateRead) clsNone i.bank i.idx 0 = { s' with log := q } := logEv_else ..
      rw [hq]; rfl

theorem CoreTo.late {s u : State} {c : CoreId} {e : EngId} {k : Core} (h : CoreTo s u c k (latcheck s c e = 0)) (i : Inst) (n : Nat)
    (hl : latcheck u c e = latcheck s c e) : CoreTo s (lateReads u c e i n) c k (latcheck s c e = 0) := by
  obtain ⟨cs, r, a, b, l, rfl, h1, h2, h3⟩ := h.eq
  obtain ⟨r', a', b', l', he, hq⟩ := lateReads_else { s with cores := cs, regs := r, incAt := a, incs := b, log := l } c e i n
  refine ⟨⟨cs, r', a', b', l', ?_, h1, h2, fun hx => ?_⟩⟩
  · rw [he]
  · have := hq (hl.trans hx)
    exact ⟨this.1.trans (h3 hx).1, this.2.trans (h3 hx).2⟩

theorem vxe_fold (f) (s : State) (c : CoreId) (i : Inst) (q t : Nat)
    (h0 : opc i.w ≠ 0x70) (h1 : opc i.w ≠ 0x71)
    (hf : ∀ tab p a b v, vxeResults tab p i.w a b v = f tab p a b v) (n : Nat) :
    CoreTo s ((List.range n).foldl (fun s j => vxeIter s c i q (t + j * q) j) s) c
      (vIssue f i.w (vxeLat (opc i.w) (vSc i.w)) q t (getCore s c) n) (latcheck s c .vxe = 0) ∧
     latcheck ((List.range n).foldl (fun s j => vxeIter s c i q (t + j * q) j) s) c .vxe = latcheck s c .vxe := by
  induction n with
  | zero => exact ⟨CoreTo.refl _ _ _, rfl⟩
  | succ n ih =>
    rw [List.range_succ, List.foldl_append, List.foldl_cons, List.foldl_nil]
    generalize (List.range n).foldl (fun s j => vxeIter s c i q (t + j * q) j) s = u at *
    obtain ⟨hc, hl⟩ := ih
    unfold vxeIter
    simp only [h0, h1, if_false]
    have hlate := hc.late i ((vxeReads i.w).filter (vInFlight (getCore u c) (t + n * q))).length hl
    refine ⟨?_, (show _ = _ from ?_)⟩
    · rw [hlate.core, vIssue]
      simp only [← hf]
      exact hlate.put
    · exact (lateReads_latcheck u c .vxe i _).trans hl


/-- the state in which a dispatched instruction begins -/
def atBegin (s : State) (c : CoreId) (e : EngId) (w : W128) (t : Nat) (d : LoopDesc) : State × Inst :=
  let k := getCore s c
  let g := engGet k e
  let i : Inst := ⟨k.nextInst, e, w, g.bank, g.pc, d, d.rd, d.wr, d.rd != 0 || d.wr != 0, (List.range 8).map fun p => sxeAddr k t w p, false, t, t, .plain, false⟩
  let g := { popHead g (t + slotLen s c e) with wait := .claim i.id }
  let k := { k with
    insts := k.insts ++ [i], nextInst := k.nextInst + 1
    claimAt := (if i.claims then t else k.claimAt), claimEng := (if i.claims then engIdx e else k.claimEng) }
  (putCore s c (engPut k e g), i)

/-- An instruction that reads no register at its dispatch counts no late read there. -/
theorem lateReads_dispatch {s : State} {c : CoreId} {e : EngId} {i : Inst} {k : Core} {t : Nat} {w : W128}
    (hm : e = .sxe → sxeMem (opc w) = false) : (if e = .sxe then lateReads s c e i (sxeLateBase k t w) else s) = s := by
  split
  · rename_i he; simp [sxeLateBase, hm he, lateReads]
  · rfl

theorem lateHalt_same (s : State) (c : CoreId) (e : EngId) (g : Engine) : lateHalt s c e (lateEvents s) g = g := by
  simp [lateHalt]

theorem dispatchInst_calm {s : State} {c : CoreId} {e : EngId} {w t d} (h : (getCore s c).insts = [])
    (hm : e = .sxe → sxeMem (opc w) = false) :
    dispatchInst c e s t w d = 
      (allEng.foldl (fun s e => settleEngine s c e) (pumpAll (beginInst (atBegin s c e w t d).1 c (atBegin s c e w t d).2 s.now) c)) := by
  have hk : heldClaims (getCore s c) = 0 := by simp [heldClaims, h]
  have hd : dispatchInst c e s t w d = settleCore (atBegin s c e w t d).1 c := by
    unfold dispatchInst
    simp only [hk, show decide (64 ≤ 0) = false from rfl, Bool.and_false, Bool.false_eq_true, if_false, lateReads_dispatch hm, lateHalt_same]
    rfl
  have hi : (getCore (atBegin s c e w t d).1 c).insts = [(atBegin s c e w t d).2] := by simp [atBegin, engPut, h]
  have hb : mayBegin (getCore (atBegin s c e w t d).1 c) (atBegin s c e w t d).2 = true := by simp [mayBegin, hi]
  have hf : (atBegin s c e w t d).2.begun = false := rfl
  have hn : (atBegin s c e w t d).1.now = s.now := rfl
  rw [hd]
  unfold settleCore startReady instOf
  rw [hi]
  simp only [List.map_cons, List.map_nil, List.foldl_cons, List.foldl_nil, List.find?_cons, beq_self_eq_true, hi, hb, hf, hn]
  rfl

theorem vIssue_congr (f w lat q t) (k k' : Core) (hv : k'.vres = k.vres) (h2 : k'.vregs = k.vregs) (h3 : k'.slots = k.slots) (h4 : k'.slotP = k.slotP)
    (h5 : k'.resSeq = k.resSeq) (n : Nat) :
    (vIssue f w lat q t k' n).vres = (vIssue f w lat q t k n).vres ∧ (vIssue f w lat q t k' n).vregs = (vIssue f w lat q t k n).vregs ∧
    (vIssue f w lat q t k' n).slots = (vIssue f w lat q t k n).slots ∧ (vIssue f w lat q t k' n).slotP = (vIssue f w lat q t k n).slotP ∧
    (vIssue f w lat q t k' n).resSeq = (vIssue f w lat q t k n).resSeq := by
  induction n with
  | zero => exact ⟨hv, h2, h3, h4, h5⟩
  | succ n ih =>
    obtain ⟨a1, a2, a3, a4, a5⟩ := ih
    have hr : ∀ u r, vregAt (vIssue f w lat q t k' n) u r = vregAt (vIssue f w lat q t k n) u r := by
      intro u r; unfold vregAt; rw [a1, a2]
    simp only [vIssue, hr, a1, a2, a3, a4, a5, and_self]

theorem vIssue_else (f w lat q t) (k : Core) (n : Nat) : ∃ v r, vIssue f w lat q t k n = { k with vres := v, resSeq := r } := by
  induction n with
  | zero => exact ⟨_, _, rfl⟩
  | succ n ih =>
    obtain ⟨v, r, h⟩ := ih
    rw [vIssue, h]
    exact ⟨_, _, rfl⟩

theorem slotLen_put (s : State) (c : CoreId) (k : Core) (e : EngId) : slotLen (putCore s c k) c e = slotLen s c e := rfl


/-- In a calm core the instruction begins at t at once, and nothing else follows from its beginning, when the record it leaves (if any) has begun and
is no stream issue. -/
theorem runOp_calm {s : State} {c : CoreId} {e : EngId} {w t d g} {o : Nat} (hc : CalmCore s c) (hx : Executes s c e w t d g) (ho : opc w = o)
    (hs : e = .sxe → sxeMem o = false) {u : State} (hu : beginInst (atBegin (advance (putEng s c e g) t) c e w t d).1 c (atBegin (advance (putEng s c e g) t) c e w t d).2 t = u)
    (hi : ∀ i ∈ (getCore u c).insts, i.begun = true ∧ (i.finished = false → ∀ n, i.prog ≠ .dxe n))
    (hm : ∀ x, (getEng u c x).mode = .halted ∨ (getEng u c x).mode = .running ∨ anyInst (getCore u c) x = true) :
    runOp s c e o = u := by
  obtain ⟨he1, he2, he3, he4⟩ := headOf_some hx.head
  unfold runOp
  rw [atHead_executes hx ho, dispatchInst_calm (by simp [putEng, advance, getCore, putCore, engPut]; exact hc.insts) (by rw [ho]; exact hs)]
  have hnow : (advance (putEng s c e g) t).now = t := by simp [advance, putEng, putCore]; omega
  rw [hnow, hu]
  rw [pumpAll_still hi]
  exact still_foldl fun x _ => settleEngine_still (hm x)

/-- the core and engine in which the instruction begins -/
theorem atBegin_core {s : State} {c : CoreId} {e : EngId} {w t d} {g : Engine} (hc : (getCore s c).insts = []) :
    let p := atBegin (advance (putEng s c e g) t) c e w t d
    (getCore p.1 c).insts = [p.2] ∧ getEng p.1 c e = { popHead g (t + slotLen s c e) with wait := .claim p.2.id } ∧
    (∀ x, x ≠ e → getEng p.1 c x = getEng s c x) ∧ (∃ eng ins n a b, getCore p.1 c = { getCore s c with eng := eng, insts := ins, nextInst := n, claimAt := a, claimEng := b }) ∧
    p.1 = { s with now := max s.now t, cores := p.1.cores } ∧ (∀ x : CoreId, x ≠ c → getCore p.1 x = getCore s x) := by
  intro p
  have h0 : getCore (advance (putEng s c e g) t) c = engPut (getCore s c) e g := by simp [getCore, advance, putEng, putCore]
  have h1 : (getCore (advance (putEng s c e g) t) c).insts = [] := by rw [h0]; exact hc
  refine ⟨by simp [p, atBegin, engPut, h1], ?_, ?_, ?_, rfl, ?_⟩
  · simp only [p, atBegin, getEng, getCore_putCore, engGet_engPut, h0]; rfl
  · intro x hx
    simp only [p, atBegin, getEng, getCore_putCore]
    rw [engGet_engPut_ne _ _ hx, h0]
    exact engGet_engPut_ne _ _ hx
  · exact ⟨_, _, _, _, _, by simp only [p, atBegin, getCore_putCore, h0]; rfl⟩
  · intro x hx
    simp only [p, atBegin]
    rw [getCore_putCore_ne _ _ hx]
    exact getCore_putCore_ne _ _ hx

theorem begunEng_facts {g : Engine} {id n next t q : Nat} (hs : g.step = .off) (hn : g.nextAt = n) :
    let h := begunEng g id next t q none
    h.pc = g.pc ∧ h.queue = g.queue ∧ h.nextAt = max n next ∧ h.mode = g.mode := by
  simp [begunEng, stepBegun, hs, hn]

theorem lateHalt_facts (s : State) (c : CoreId) (e : EngId) (l : Nat) (g : Engine) :
    (lateHalt s c e l g).pc = g.pc ∧ (lateHalt s c e l g).nextAt = g.nextAt ∧
    (g.mode = .running → (lateHalt s c e l g).queue = (if (lateHalt s c e l g).mode = .running then g.queue else (catchUp g s.now).queue)) := by
  unfold lateHalt
  split
  · exact ⟨rfl, rfl, fun _ => by simp⟩
  · exact ⟨rfl, rfl, fun h => by simp [h]⟩

/-- What an engine has fetched by t depends on its PC, bank, memory, queue and mode alone. -/
theorem catchUp_queue {g h : Engine} (hb : h.bank = g.bank) (hi : h.imem = g.imem) (hu : h.ubad = g.ubad) (hq : h.queue = g.queue)
    (hp : h.pc = g.pc) (hm : h.mode = g.mode) (hs : h.step = .off) (hg : g.step = .off) (hf : h.fetchAt = g.fetchAt) (t : Nat) :
    (catchUp h t).queue = (catchUp g t).queue := by
  simp only [catchUp, fetchRoom, fetchWord, hb, hi, hu, hq, hp, hm, hs, hg, hf, if_true]

/-- What an instruction leaves that keeps a record and changes, beside it, only results and stores in flight. -/
theorem ran_of {s : State} {c : CoreId} {e : EngId} {w : W128} {t : Nat} {d : LoopDesc} {g : Engine} {o next fin : Nat} {u0 : State} {K : Core}
    (hc : CalmCore s c) (hx : Executes s c e w t d g) (ho : opc w = o) (hbr : e = .sxe → sxeBranch o = false) (hmem : e = .sxe → sxeMem o = false)
    (hw : beginWork (atBegin (advance (putEng s c e g) t) c e w t d).1 c (atBegin (advance (putEng s c e g) t) c e w t d).2 t =
      (putInst u0 c { (atBegin (advance (putEng s c e g) t) c e w t d).2 with begun := true, start := t, doneAt := fin, finished := true },
       next, none))
    (hF : CoreTo (atBegin (advance (putEng s c e g) t) c e w t d).1 u0 c K (latcheck s c e = 0))
    (hK : ∃ v x st r, K = { getCore (atBegin (advance (putEng s c e g) t) c e w t d).1 c with vres := v, xres := x, stores := st, resSeq := r }) :
    Ran s (runOp s c e o) c e w t d g (max (t + slotLen s c e) next) fin ∧ (getCore (runOp s c e o) c).vres = K.vres ∧
      (getCore (runOp s c e o) c).xres = K.xres ∧ (getCore (runOp s c e o) c).stores = K.stores := by
  obtain ⟨he1, he2, he3, he4⟩ := headOf_some hx.head
  obtain ⟨a1, a2, a3, ⟨eng, ins, nn, ca, ce, a4⟩, a5, a6⟩ := atBegin_core (s := s) (c := c) (e := e) (w := w) (t := t) (d := d) (g := g) hc.insts
  set s1 := (atBegin (advance (putEng s c e g) t) c e w t d).1 with hs1
  set i := (atBegin (advance (putEng s c e g) t) c e w t d).2 with hi
  have hiw : i.w = w := rfl
  have hie : i.eng = e := rfl
  obtain ⟨v, x, st, r, hve⟩ := hK
  set i' : Inst := { i with begun := true, start := t, doneAt := fin, finished := true } with hi'
  have hq : slotLen s1 c e = slotLen s c e := by unfold slotLen latcheck rfld rget; rw [a5]
  have hb : beginInst s1 c i t = putEng (putInst u0 c i') c e
      (lateHalt (putInst u0 c i') c e (lateEvents s1) (begunEng (getEng (putInst u0 c i') c e) i.id next t (slotLen s1 c e) none)) := by
    unfold beginInst dropBranch
    rw [hw, hie, hiw, ho]
    by_cases he : e = .sxe
    · simp [hbr he]
    · simp [he]
  have hu0i : (getCore u0 c).insts = [i] := by rw [hF.core, hve]; exact a1
  have hg0 : getEng (putInst u0 c i') c e = { popHead g (t + slotLen s c e) with wait := .claim i.id } := by
    rw [← a2]; unfold getEng; rw [putInst, getCore_putCore, hF.core, hve]; rfl
  obtain ⟨b1, b3, b2⟩ := lateHalt_facts (putInst u0 c i') c e (lateEvents s1) (begunEng (getEng (putInst u0 c i') c e) i.id next t (slotLen s1 c e) none)
  obtain ⟨d1, d2, d3, d4⟩ := begunEng_facts (g := getEng (putInst u0 c i') c e) (id := i.id) (n := t + slotLen s c e) (next := next) (t := t) (q := slotLen s1 c e) (by rw [hg0]; exact hx.step) (by rw [hg0]; rfl)
  set g' := lateHalt (putInst u0 c i') c e (lateEvents s1) (begunEng (getEng (putInst u0 c i') c e) i.id next t (slotLen s1 c e) none) with hg'
  have hcore : getCore (putEng (putInst u0 c i') c e g') c = engPut { getCore u0 c with insts := [i'] } e g' := by
    simp [putEng, putInst, hu0i, hi']
  have hne : ∀ y, y ≠ e → getEng (putEng (putInst u0 c i') c e g') c y = getEng s c y := by
    intro y hxe
    rw [← a3 y hxe]
    unfold getEng
    rw [hcore, engGet_engPut_ne _ _ hxe, hF.core, hve]; rfl
  have hrun : runOp s c e o = putEng (putInst u0 c i') c e g' := by
    refine runOp_calm hc hx ho hmem hb ?_ ?_
    · rw [hcore]
      intro j hj
      have : j = i' := by simpa [engPut] using hj
      subst this
      exact ⟨rfl, by intro hfin; simp [hi'] at hfin⟩
    · intro y
      by_cases hxe : y = e
      · subst hxe; right; right; rw [hcore]; simp [anyInst, engPut, hi', hie]
      · rw [hne y hxe]
        exact (hc.modes y).elim .inl fun h => .inr (.inl h)
  rw [hrun]
  have hfin : CoreTo s1 (putEng (putInst u0 c i') c e g') c (engPut { getCore u0 c with insts := [i'] } e g') (latcheck s c e = 0) := by
    rw [← hcore]
    have := (hF.put (k' := { getCore u0 c with insts := (getCore u0 c).insts.map fun x => if x.id == i'.id then i' else x })).put (k' := engPut (getCore (putInst u0 c i') c) e g')
    rw [show getCore (putEng (putInst u0 c i') c e g') c = engPut (getCore (putInst u0 c i') c) e g' from by simp [putEng]]
    exact this
  obtain ⟨f1, f2, f3, f4, f5, f6⟩ := hfin.else_
  have hgv : getEng (putEng (putInst u0 c i') c e g') c e = g' := getEng_putEng ..
  have hcr : getCore u0 c = { getCore s c with eng := eng, insts := ins, nextInst := nn, claimAt := ca, claimEng := ce, vres := v, xres := x, stores := st, resSeq := r } := by
    rw [hF.core, hve, a4]
  refine ⟨?_, by rw [hcore]; show (getCore u0 c).vres = _; rw [hF.core], by rw [hcore]; show (getCore u0 c).xres = _; rw [hF.core],
    by rw [hcore]; show (getCore u0 c).stores = _; rw [hF.core]⟩
  exact {
    now := by rw [f4, a5]; simp; omega
    pc := by rw [hgv, b1, d1, hg0]; rfl
    queue := by
      have hm : (begunEng (getEng (putInst u0 c i') c e) i.id next t (slotLen s1 c e) none).mode = .running := by
        rw [d4, hg0]; exact hx.running
      have hn : (putInst u0 c i').now = t := by
        have := f4; rw [a5] at this; simp [putEng, putInst, putCore] at this ⊢; omega
      rw [hgv, b2 hm, hn]
      split
      · rw [d2, hg0]; rfl
      · have hb : begunEng (getEng (putInst u0 c i') c e) i.id next t (slotLen s1 c e) none =
            { popHead g (t + slotLen s c e) with nextAt := max (t + slotLen s c e) next } := by
          simp [begunEng, stepBegun, hg0, popHead, hx.step]
        rw [hb]
        refine catchUp_queue (h := { popHead g (t + slotLen s c e) with nextAt := max (t + slotLen s c e) next })
          (g := { g with queue := g.queue.drop 1, pc := g.pc + 1 }) ?_ ?_ ?_ ?_ ?_ ?_ hx.step hx.step ?_ t <;> rfl
    next := by rw [hgv, b3, d3]
    record := ⟨i', by rw [hcore]; rfl, rfl, rfl, (by
        simp only [hi', hi, atBegin]
        simp [getCore, advance, putEng, putCore]), (by
        simp only [hi', hi, atBegin]
        simp [getCore, advance, putEng, putCore]), rfl, rfl, rfl, rfl, rfl, rfl⟩
    memory := by
      obtain ⟨m1, m2, m3, m4, m5, m6⟩ := f1
      rw [a5] at m1 m2 m3 m4 m5 m6
      exact ⟨m1, m2, m3, m4, m5, m6⟩
    units := by
      obtain ⟨m1, m2, m3, m4, m5, m6, m7, m8, m9, m10, m11⟩ := f2
      rw [a5] at m1 m2 m3 m4 m5 m6 m7 m8 m9 m10 m11
      exact ⟨m1, m2, m3, m4, m5, m6, m7, m8, m9, m10, m11⟩
    cores := {
      others := fun y hy => (f3 y hy).trans (a6 y hy)
      engines := hne
      vregs := by rw [hcore, hcr]; rfl
      xregs := by rw [hcore, hcr]; rfl
      slots := by rw [hcore, hcr]; rfl
      sem := by rw [hcore, hcr]; rfl
      ctx := by rw [hcore, hcr]; rfl
      sen := by rw [hcore, hcr]; rfl
      tasks := by rw [hcore, hcr]; rfl }
    regs := by
      intro hz
      have := f6 hz
      rw [a5] at this
      exact this }

/-- A vector register operation: its results are those of the loop nest that starts at its dispatch. -/
theorem vxe_ran {s : State} {c : CoreId} {w : W128} {t : Nat} {d : LoopDesc} {g : Engine} (hc : CalmCore s c) (hx : Executes s c .vxe w t d g)
    (f : List Byte → Bool → List Lane → List Lane → List Lane → List (Nat × List Lane)) (o : Nat) (lat : Nat) (ho : opc w = o)
    (h0 : o ≠ 0x70) (h1 : o ≠ 0x71) (h2 : o ≠ 0x72) (h4 : o ≠ 0x04) (hlat : vxeLat o (vSc w) = lat)
    (hf : ∀ tab p a b v, vxeResults tab p w a b v = f tab p a b v) :
    Ran s (runOp s c .vxe o) c .vxe w t d g (max (t + slotLen s c .vxe) (t + loopCount d * slotLen s c .vxe))
      (t + (loopCount d - 1) * slotLen s c .vxe + lat * slotLen s c .vxe) ∧
    (getCore (runOp s c .vxe o) c).vres = (vIssue f w lat (slotLen s c .vxe) t (getCore s c) (loopCount d)).vres ∧
    (getCore (runOp s c .vxe o) c).xres = (getCore s c).xres ∧ (getCore (runOp s c .vxe o) c).stores = (getCore s c).stores := by
  subst hlat
  obtain ⟨a1, a2, a3, ⟨eng, ins, nn, ca, ce, a4⟩, a5, a6⟩ := atBegin_core (s := s) (c := c) (e := .vxe) (w := w) (t := t) (d := d) (g := g) hc.insts
  have hq : slotLen (atBegin (advance (putEng s c .vxe g) t) c .vxe w t d).1 c .vxe = slotLen s c .vxe := by
    unfold slotLen latcheck rfld rget; rw [a5]
  have hlc : latcheck (atBegin (advance (putEng s c .vxe g) t) c .vxe w t d).1 c .vxe = latcheck s c .vxe := by
    unfold latcheck rfld rget; rw [a5]
  obtain ⟨hF, -⟩ := vxe_fold f (atBegin (advance (putEng s c .vxe g) t) c .vxe w t d).1 c (atBegin (advance (putEng s c .vxe g) t) c .vxe w t d).2
    (slotLen s c .vxe) t (by rw [show (atBegin (advance (putEng s c .vxe g) t) c .vxe w t d).2.w = w from rfl, ho]; exact h0)
    (by rw [show (atBegin (advance (putEng s c .vxe g) t) c .vxe w t d).2.w = w from rfl, ho]; exact h1) (by exact hf) (loopCount d)
  rw [hlc] at hF
  obtain ⟨v, r, hve⟩ := vIssue_else f w (vxeLat o (vSc w)) (slotLen s c .vxe) t (getCore (atBegin (advance (putEng s c .vxe g) t) c .vxe w t d).1 c) (loopCount d)
  rw [show (atBegin (advance (putEng s c .vxe g) t) c .vxe w t d).2.w = w from rfl, ho] at hF
  obtain ⟨h, k1, k2, k3⟩ := ran_of (next := t + loopCount d * slotLen s c .vxe)
    (fin := t + (loopCount d - 1) * slotLen s c .vxe + vxeLat o (vSc w) * slotLen s c .vxe) hc hx ho (by simp) (by simp) (by
      unfold beginWork beginVxe
      rw [show (atBegin (advance (putEng s c .vxe g) t) c .vxe w t d).2.w = w from rfl, ho, hq]
      simp only [h4, h2, if_false]
      simp only [show (atBegin (advance (putEng s c .vxe g) t) c .vxe w t d).2.eng = .vxe from rfl,
        show (atBegin (advance (putEng s c .vxe g) t) c .vxe w t d).2.loop = d from rfl]
      have hs : vxeSpan w = vxeLat o (vSc w) := by unfold vxeSpan; rw [ho]; simp [h1]
      rw [hs]
      rfl) hF ⟨v, _, _, r, hve⟩
  refine ⟨h, ?_, ?_, ?_⟩
  · rw [k1]
    exact (vIssue_congr _ _ _ _ _ _ _ (by rw [a4]) (by rw [a4]) (by rw [a4]) (by rw [a4]) (by rw [a4]) _).1
  · rw [k2, hve, a4]
  · rw [k3, hve, a4]

theorem pipes_fold {s : State} {c : CoreId} {q : Prop} (v : Nat → XReg) (reg t due : Nat) :
    ∀ (ps : List Nat) (u : State) (k : Core), CoreTo s u c k q →
      CoreTo s (ps.foldl (fun s p => putCore s c (putX (getCore s c) p reg (v p) t due)) u) c
        { k with xres := k.xres ++ ps.mapIdx fun n p => ⟨p, reg, v p, t, due, k.resSeq + n⟩, resSeq := k.resSeq + ps.length } q := by
  intro ps
  induction ps with
  | nil => intro u k h; simpa using h
  | cons p r ih =>
    intro u k h
    rw [List.foldl_cons]
    have := ih _ _ (h.put (k' := putX (getCore u c) p reg (v p) t due))
    rw [h.core] at this ⊢
    simp only [putX] at this ⊢
    simp only [List.mapIdx_cons, List.length_cons]
    have e1 : k.resSeq + 1 + r.length = k.resSeq + (r.length + 1) := by omega
    have e2 : ∀ n, k.resSeq + 1 + n = k.resSeq + (n + 1) := by intro n; omega
    simp only [e1, e2, List.append_assoc, List.singleton_append] at this
    simpa using this

/-- latcheck survives a change of cores and log -/
theorem sxe_fold (f : XReg → XReg → XReg) (s : State) (c : CoreId) (i : Inst) (xa : Nat → Int) (q t : Nat)
    (h0 : opc i.w ≠ 0x58) (h1 : opc i.w ≠ 0x59)
    (hf : ∀ a b : XReg, (⟨sxeResult (opc i.w) a.v b.v (xImm i.w), (sxeUsesA (opc i.w) && a.p) || (sxeUsesB (opc i.w) && b.p)⟩ : XReg) = f a b) (n : Nat) :
    CoreTo s ((List.range n).foldl (fun s j => sxeIter s c i xa q (t + j * q) j) s) c
      (xIssue f i.w (sxeLat (opc i.w)) q t (getCore s c) n) (latcheck s c .sxe = 0) ∧
     latcheck ((List.range n).foldl (fun s j => sxeIter s c i xa q (t + j * q) j) s) c .sxe = latcheck s c .sxe := by
  induction n with
  | zero => exact ⟨CoreTo.refl _ _ _, rfl⟩
  | succ n ih =>
    rw [List.range_succ, List.foldl_append, List.foldl_cons, List.foldl_nil]
    generalize (List.range n).foldl (fun s j => sxeIter s c i xa q (t + j * q) j) s = u at *
    obtain ⟨hc, hl⟩ := ih
    unfold sxeIter
    simp only [h0, h1, if_false]
    have hlate := hc.late i (sxeLate (getCore u c) (t + n * q) i.w) hl
    have hp := pipes_fold (fun p => f (xregAt (getCore (lateReads u c .sxe i (sxeLate (getCore u c) (t + n * q) i.w)) c) (t + n * q) p (xXa i.w))
      (xregAt (getCore (lateReads u c .sxe i (sxeLate (getCore u c) (t + n * q) i.w)) c) (t + n * q) p (xXb i.w))) (xXd i.w) (t + n * q) (t + n * q + sxeLat (opc i.w) * q) (pipesOf i.w) _ _ hlate
    rw [hlate.core] at hp
    refine ⟨?_, ?_⟩
    · rw [xIssue]
      simp only [← hf] at hp ⊢
      rw [hlate.core]
      exact hp
    · have hr : ∀ (ps : List Nat) (g : State → Nat → Core) (z : State), latcheck (ps.foldl (fun s p => putCore s c (g s p)) z) c .sxe = latcheck z c .sxe := by
        intro ps g
        induction ps with
        | nil => intro z; rfl
        | cons a r ih => intro z; rw [List.foldl_cons, ih]; rfl
      rw [hr]
      exact (lateReads_latcheck u c .sxe i _).trans hl

theorem xIssue_congr (f w lat q t) (k k' : Core) (hv : k'.xres = k.xres) (h2 : k'.xregs = k.xregs) (h5 : k'.resSeq = k.resSeq) (n : Nat) :
    (xIssue f w lat q t k' n).xres = (xIssue f w lat q t k n).xres ∧ (xIssue f w lat q t k' n).xregs = (xIssue f w lat q t k n).xregs ∧
    (xIssue f w lat q t k' n).resSeq = (xIssue f w lat q t k n).resSeq := by
  induction n with
  | zero => exact ⟨hv, h2, h5⟩
  | succ n ih =>
    obtain ⟨a1, a2, a5⟩ := ih
    have hr : ∀ u p r, xregAt (xIssue f w lat q t k' n) u p r = xregAt (xIssue f w lat q t k n) u p r := by
      intro u p r; unfold xregAt; rw [a1, a2]
    simp only [xIssue, hr, a1, a2, a5, and_self]

theorem xIssue_else (f w lat q t) (k : Core) (n : Nat) : ∃ v r, xIssue f w lat q t k n = { k with xres := v, resSeq := r } := by
  induction n with
  | zero => exact ⟨_, _, rfl⟩
  | succ n ih =>
    obtain ⟨v, r, h⟩ := ih
    rw [xIssue, h]
    exact ⟨_, _, rfl⟩

/-- A scalar register operation: its results are those of the loop nest that starts at its dispatch. -/
theorem sxe_ran {s : State} {c : CoreId} {w : W128} {t : Nat} {d : LoopDesc} {g : Engine} (hc : CalmCore s c) (hx : Executes s c .sxe w t d g)
    (f : XReg → XReg → XReg) (o : Nat) (lat : Nat) (ho : opc w = o) (h0 : o ≠ 0x58) (h1 : o ≠ 0x59) (h2 : o ≠ 0x68) (h4 : o ≠ 0x04)
    (hb : sxeBranch o = false) (hlat : sxeLat o = lat)
    (hf : ∀ a b : XReg, (⟨sxeResult o a.v b.v (xImm w), (sxeUsesA o && a.p) || (sxeUsesB o && b.p)⟩ : XReg) = f a b) :
    Ran s (runOp s c .sxe o) c .sxe w t d g (max (t + slotLen s c .sxe) (t + loopCount d * slotLen s c .sxe))
      (t + (loopCount d - 1) * slotLen s c .sxe + lat * slotLen s c .sxe) ∧
    (getCore (runOp s c .sxe o) c).vres = (getCore s c).vres ∧
    (getCore (runOp s c .sxe o) c).xres = (xIssue f w lat (slotLen s c .sxe) t (getCore s c) (loopCount d)).xres ∧
    (getCore (runOp s c .sxe o) c).stores = (getCore s c).stores := by
  subst hlat
  obtain ⟨a1, a2, a3, ⟨eng, ins, nn, ca, ce, a4⟩, a5, a6⟩ := atBegin_core (s := s) (c := c) (e := .sxe) (w := w) (t := t) (d := d) (g := g) hc.insts
  have hq : slotLen (atBegin (advance (putEng s c .sxe g) t) c .sxe w t d).1 c .sxe = slotLen s c .sxe := by
    unfold slotLen latcheck rfld rget; rw [a5]
  have hlc : latcheck (atBegin (advance (putEng s c .sxe g) t) c .sxe w t d).1 c .sxe = latcheck s c .sxe := by
    unfold latcheck rfld rget; rw [a5]
  have hiw : (atBegin (advance (putEng s c .sxe g) t) c .sxe w t d).2.w = w := rfl
  obtain ⟨hF, -⟩ := sxe_fold f (atBegin (advance (putEng s c .sxe g) t) c .sxe w t d).1 c (atBegin (advance (putEng s c .sxe g) t) c .sxe w t d).2
    (fun p => nthD (atBegin (advance (putEng s c .sxe g) t) c .sxe w t d).2.xa p 0)
    (slotLen s c .sxe) t (by rw [hiw, ho]; exact h0) (by rw [hiw, ho]; exact h1) (by rw [hiw, ho]; exact hf) (loopCount d)
  rw [hlc, hiw, ho] at hF
  obtain ⟨v, r, hve⟩ := xIssue_else f w (sxeLat o) (slotLen s c .sxe) t (getCore (atBegin (advance (putEng s c .sxe g) t) c .sxe w t d).1 c) (loopCount d)
  obtain ⟨h, k1, k2, k3⟩ := ran_of (next := t + loopCount d * slotLen s c .sxe)
    (fin := t + (loopCount d - 1) * slotLen s c .sxe + sxeLat o * slotLen s c .sxe) hc hx ho (fun _ => hb) (fun _ => by simp [sxeMem, h0, h1]) (by
      unfold beginWork beginSxe
      rw [hiw, ho]
      simp only [h4, if_false]
      simp only [show (atBegin (advance (putEng s c .sxe g) t) c .sxe w t d).2.eng = .sxe from rfl]
      rw [hiw, ho, hq]
      simp only [hb, h2, h1, if_false, Bool.false_eq_true]
      rfl) hF ⟨_, v, _, r, hve⟩
  refine ⟨h, ?_, ?_, ?_⟩
  · rw [k1, hve, a4]
  · rw [k2]
    exact (xIssue_congr _ _ _ _ _ _ _ (by rw [a4]) (by rw [a4]) (by rw [a4]) _).1
  · rw [k3, hve, a4]

end Sys2Proof.Machine
end

