-- ==== Sys2Proof/Laws/Keeps.lean ====
section
/-!
SUPPORT. The base of the laws that every function over State keeps (Safety.Keeps): reflexivity, composition, record updates and folds.
-/

namespace Sys2Proof.Machine

theorem Keeps.refl (s : State) : Keeps s s :=
  ⟨rfl, le_rfl, le_rfl, List.suffix_refl _, le_rfl, le_rfl, fun h => ⟨h, le_rfl⟩, fun h => h⟩

theorem Keeps.trans {s t u : State} (h : Keeps s t) (k : Keeps t u) : Keeps s u :=
  ⟨k.queue.trans h.queue, h.time.trans k.time, h.free.trans k.free, h.outs.trans k.outs, h.boots.trans k.boots, h.acts.trans k.acts,
   fun l => ⟨(k.leaf (h.leaf l).1).1, (h.leaf l).2.trans (k.leaf (h.leaf l).1).2⟩, fun c => k.canon (h.canon c)⟩

/-- A record update: the queue of X, and each other field as its hypothesis says. -/
theorem keeps_mk {z X : State} {now freeCtr : Nat} {mem : List Host.Cell} {poison feb : Tab Bool} {syncw : Tab SyncWord} {syncp : Tab Bool}
    {ecc : Tab EccErr} {cached dirty : Tab Bool} {held : List HeldAcc} {patrol refreshes : Tab Nat} {regs : Tab W64} {incAt : Nat}
    {incs : Tab Nat} {fregs : Tab W64} {cores : Tab Core}
    {feOps : List FeOp} {nextOp : Nat} {log : EvLog} {bootCount : Nat} {buu : Tab Buu} {fab : Tab FabSlice} {tb : TimeBase} {mp : Mp}
    {sp : Sp} {fw : Fw} {pwr : Pwr} {side : Side} {out : List OutEv}
    (h : Keeps z X) (h1 : X.now ≤ now) (h2 : X.freeCtr ≤ freeCtr) (h3 : X.out <:+ out) (h4 : X.bootCount ≤ bootCount)
    (h5 : X.fw.mram.actCount ≤ fw.mram.actCount)
    (h6 : leafOk X.fw.mram → leafOk fw.mram ∧ X.fw.mram.mono ≤ fw.mram.mono)
    (c1 : twf X.mem memDefault = true → twf mem memDefault = true) (c2 : twf X.poison false = true → twf poison false = true)
    (c3 : twf X.feb false = true → twf feb false = true) (c4 : twf X.syncw ⟨0, false⟩ = true → twf syncw ⟨0, false⟩ = true)
    (c5 : twf X.syncp false = true → twf syncp false = true) (c6 : twf X.ecc .none = true → twf ecc .none = true)
    (c7 : twf X.cached false = true → twf cached false = true) (c8 : tasc X.regs → tasc regs) (c9 : tasc X.fregs → tasc fregs)
    (c10 : twf X.cores coreReset = true → twf cores coreReset = true) (c11 : twf X.buu buuReset = true → twf buu buuReset = true)
    (c12 : twf X.fab fabSliceReset = true → twf fab fabSliceReset = true) (c13 : twf X.dirty false = true → twf dirty false = true)
    (c14 : tasc X.incs → tasc incs) :
    Keeps z ⟨X.pending, now, freeCtr, mem, poison, feb, syncw, syncp, ecc, cached, dirty, held, patrol, refreshes, regs, incAt, incs, fregs,
      cores, feOps, nextOp, log, bootCount, buu, fab, tb, mp, sp, fw, pwr, side, out⟩ :=
  h.trans ⟨rfl, h1, h2, h3, h4, h5, h6, fun c => ⟨c1 c.mem, c2 c.poison, c3 c.feb, c4 c.syncw, c5 c.syncp, c6 c.ecc, c7 c.cached,
    c8 c.regs, c9 c.fregs, c10 c.cores, c11 c.buu, c12 c.fab, c13 c.dirty, c14 c.incs⟩⟩

/-- Work done piece by piece keeps what each piece keeps. -/
theorem keeps_foldl {β : Type} {z : State} (g : State → β → State) (l : List β) (X : State) (hg : ∀ t b, Keeps z t → Keeps z (g t b))
    (h : Keeps z X) : Keeps z (l.foldl g X) :=
  List.foldlRecOn l g h fun t ht b _ => hg t b ht

theorem keeps_foldl_fst {α β : Type} {z : State} (g : State × α → β → State × α) (l : List β) (X : State × α)
    (hg : ∀ t b, Keeps z t.1 → Keeps z (g t b).1) (h : Keeps z X.1) : Keeps z (l.foldl g X).1 :=
  List.foldlRecOn (motive := fun t => Keeps z t.1) l g h fun t ht b _ => hg t b ht

/-- Whatever next state an outcome gives, it keeps what Keeps says. -/
structure KeepsOut (s : State) (o : Out) : Prop where
  next : ∀ t, o = .next t → Keeps s t

theorem keepsOut_next {s t : State} (h : Keeps s t) : KeepsOut s (.next t) :=
  ⟨fun _ hu => by cases hu; exact h⟩

theorem keepsOut_fault {s : State} {f : Fault} : KeepsOut s (.fault f) :=
  ⟨fun _ hu => by cases hu⟩

theorem keeps_ite {z A B : State} {c : Prop} [Decidable c] (h1 : Keeps z A) (h2 : Keeps z B) : Keeps z (if c then A else B) := by
  split
  · exact h1
  · exact h2

theorem keeps_ite_fst {α : Type} {z : State} {A B : State × α} {c : Prop} [Decidable c] (h1 : Keeps z A.1) (h2 : Keeps z B.1) :
    Keeps z (if c then A else B).1 := by
  split
  · exact h1
  · exact h2

end Sys2Proof.Machine
end

