-- ==== Sys2Proof/Laws/Keeps/Ops.lean ====
section
/-!
SUPPORT. What the functions of Machine/Ops.lean keep (Safety.Keeps).
-/

set_option linter.unusedTactic false
set_option linter.unreachableTactic false

namespace Sys2Proof.Machine

theorem keeps_logEv {z : State} (s : State) (cause : Nat) (cls : Nat) (slice : Nat) (unit : Nat) (sub : Nat) (inst : Nat) (detail : W64)  (h : Keeps z s) : Keeps z (logEv s cause cls slice unit sub inst detail) := by
  unfold logEv
  repeat' (first
      | (with_reducible assumption)
      | ((try lift_lets -underBinder); intro x; refine (fun hx : Keeps z x => ?_) (?_ : Keeps z x); (on_goal 1 => clear_value x); (on_goal 2 => simp only [x]))
      | ((try lift_lets -underBinder); intro x; refine (fun hx : Keeps z x.1 => ?_) (?_ : Keeps z x.1); (on_goal 1 => clear_value x); (on_goal 2 => simp only [x]))
      | ((try lift_lets -underBinder); intro x; clear_value x)
      | (with_reducible first | apply keeps_ite | apply keeps_ite_fst)
      | (intro _)
      | split
      | (apply keeps_mk <;> first
          | assumption | with_reducible exact le_rfl | with_reducible exact List.suffix_refl _ | with_reducible exact fun h => h | exact fun _ => tasc_nil
          | with_reducible exact fun h => ⟨h, le_rfl⟩ | exact fun h => ⟨⟨h.1, h.2.1, h.2.2⟩, le_rfl⟩ | exact fun h => twf_tset h
          | exact fun h => twf_twrite h | exact fun h => twf_tclear h | exact fun h => tasc_tset h | exact fun h => tasc_tclear h
          | exact Nat.le_succ _ | exact le_max_left _ _ | exact List.suffix_cons _ _
          | exact fun h => twf_foldl _ (fun _ _ h => twf_tset h) _ _ h | skip)
      | (exact twf_foldl _ (fun _ _ h => twf_tset h) _ _ (by assumption)))

theorem keeps_fput {z : State} (s : State) (f : FuncId) (r : Reg) (v : W64)  (h : Keeps z s) : Keeps z (fput s f r v) := by
  unfold fput
  repeat' (first
      | (with_reducible assumption)
      | (intro _)
      | split
      | (apply keeps_mk <;> first
          | assumption | with_reducible exact le_rfl | with_reducible exact List.suffix_refl _ | with_reducible exact fun h => h | exact fun _ => tasc_nil
          | with_reducible exact fun h => ⟨h, le_rfl⟩ | exact fun h => ⟨⟨h.1, h.2.1, h.2.2⟩, le_rfl⟩ | exact fun h => twf_tset h
          | exact fun h => twf_twrite h | exact fun h => twf_tclear h | exact fun h => tasc_tset h | exact fun h => tasc_tclear h
          | exact Nat.le_succ _ | exact le_max_left _ _ | exact List.suffix_cons _ _
          | exact fun h => twf_foldl _ (fun _ _ h => twf_tset h) _ _ h | skip)
      | (exact twf_foldl _ (fun _ _ h => twf_tset h) _ _ (by assumption)))

theorem keeps_rput {z : State} (s : State) (r : Reg) (v : W64)  (h : Keeps z s) : Keeps z (rput s r v) := by
  unfold rput
  repeat' (first
      | (with_reducible assumption)
      | (intro _)
      | split
      | (apply keeps_mk <;> first
          | assumption | with_reducible exact le_rfl | with_reducible exact List.suffix_refl _ | with_reducible exact fun h => h | exact fun _ => tasc_nil
          | with_reducible exact fun h => ⟨h, le_rfl⟩ | exact fun h => ⟨⟨h.1, h.2.1, h.2.2⟩, le_rfl⟩ | exact fun h => twf_tset h
          | exact fun h => twf_twrite h | exact fun h => twf_tclear h | exact fun h => tasc_tset h | exact fun h => tasc_tclear h
          | exact Nat.le_succ _ | exact le_max_left _ _ | exact List.suffix_cons _ _
          | exact fun h => twf_foldl _ (fun _ _ h => twf_tset h) _ _ h | skip)
      | (exact twf_foldl _ (fun _ _ h => twf_tset h) _ _ (by assumption)))

theorem keeps_noteInc {z : State} (s : State) (r : Reg) (lo k : Nat) (h : Keeps z s) : Keeps z (noteInc s r lo k) := by
  have hi : tasc s.incs → tasc (incsNow s) := by
    intro hs; unfold incsNow; split
    · exact hs
    · exact tasc_nil
  unfold noteInc
  exact keeps_mk h le_rfl le_rfl (List.suffix_refl _) le_rfl le_rfl (fun l => ⟨l, le_rfl⟩) id id id id id id id id id id id id id
    fun hs => tasc_tset (hi hs)

theorem keeps_rsetf {z : State} (s : State) (r : Reg) (hi : Nat) (lo : Nat) (x : Nat)  (h : Keeps z s) : Keeps z (rsetf s r hi lo x) := by
  unfold rsetf
  repeat' (first
      | (with_reducible assumption)
      | (with_reducible first | apply keeps_rput)
      | (intro _)
      | split)

theorem keeps_rbump {z : State} (s : State) (r : Reg) (hi : Nat) (lo : Nat) (k : Nat)  (h : Keeps z s) : Keeps z (rbump s r hi lo k) := by
  unfold rbump
  repeat' (first
      | (with_reducible assumption)
      | (with_reducible first | apply keeps_noteInc | apply keeps_rsetf)
      | (intro _)
      | split)

theorem keeps_setPoison {z : State} (s : State) (u : Nat) (p : Bool)  (h : Keeps z s) : Keeps z (setPoison s u p) := by
  unfold setPoison
  repeat' (first
      | (with_reducible assumption)
      | (with_reducible first | apply keeps_ite | apply keeps_ite_fst)
      | (intro _)
      | split
      | (apply keeps_mk <;> first
          | assumption | with_reducible exact le_rfl | with_reducible exact List.suffix_refl _ | with_reducible exact fun h => h | exact fun _ => tasc_nil
          | with_reducible exact fun h => ⟨h, le_rfl⟩ | exact fun h => ⟨⟨h.1, h.2.1, h.2.2⟩, le_rfl⟩ | exact fun h => twf_tset h
          | exact fun h => twf_twrite h | exact fun h => twf_tclear h | exact fun h => tasc_tset h | exact fun h => tasc_tclear h
          | exact Nat.le_succ _ | exact le_max_left _ _ | exact List.suffix_cons _ _
          | exact fun h => twf_foldl _ (fun _ _ h => twf_tset h) _ _ h | skip)
      | (exact twf_foldl _ (fun _ _ h => twf_tset h) _ _ (by assumption)))

theorem keeps_lineRecord {z : State} (s : State) (n : N20) (u : Nat) (one : Nat) (two : Bool)  (h : Keeps z s) : Keeps z (lineRecord s n u one two) := by
  unfold lineRecord
  repeat' (first
      | (with_reducible assumption)
      | ((try lift_lets -underBinder); intro x; refine (fun hx : Keeps z x => ?_) (?_ : Keeps z x); (on_goal 1 => clear_value x); (on_goal 2 => simp only [x]))
      | ((try lift_lets -underBinder); intro x; refine (fun hx : Keeps z x.1 => ?_) (?_ : Keeps z x.1); (on_goal 1 => clear_value x); (on_goal 2 => simp only [x]))
      | ((try lift_lets -underBinder); intro x; clear_value x)
      | (with_reducible first | apply keeps_rbump | apply keeps_setPoison | apply keeps_logEv | apply keeps_ite | apply keeps_ite_fst)
      | (intro _)
      | split)

theorem keeps_eccRecord {z : State} (s : State) (u : Nat) (one : Nat) (two : Bool)  (h : Keeps z s) : Keeps z (eccRecord s u one two) := by
  unfold eccRecord
  repeat' (first
      | (with_reducible assumption)
      | ((try lift_lets -underBinder); intro x; refine (fun hx : Keeps z x => ?_) (?_ : Keeps z x); (on_goal 1 => clear_value x); (on_goal 2 => simp only [x]))
      | ((try lift_lets -underBinder); intro x; refine (fun hx : Keeps z x.1 => ?_) (?_ : Keeps z x.1); (on_goal 1 => clear_value x); (on_goal 2 => simp only [x]))
      | ((try lift_lets -underBinder); intro x; clear_value x)
      | (with_reducible first | apply keeps_rbump | apply keeps_setPoison | apply keeps_rsetf | apply keeps_logEv | apply keeps_lineRecord | apply keeps_rput | apply keeps_ite | apply keeps_ite_fst)
      | (intro _)
      | split)

theorem keeps_eccCheck {z : State} (s : State) (u : Nat) (ks : List Nat)  (h : Keeps z s) : Keeps z (eccCheck s u ks) := by
  unfold eccCheck
  repeat' (first
      | (with_reducible assumption)
      | ((try lift_lets -underBinder); intro x; refine (fun hx : Keeps z x => ?_) (?_ : Keeps z x); (on_goal 1 => clear_value x); (on_goal 2 => simp only [x]))
      | ((try lift_lets -underBinder); intro x; refine (fun hx : Keeps z x.1 => ?_) (?_ : Keeps z x.1); (on_goal 1 => clear_value x); (on_goal 2 => simp only [x]))
      | ((try lift_lets -underBinder); intro x; clear_value x)
      | (with_reducible first | apply keeps_rbump | apply keeps_eccRecord | apply keeps_ite | apply keeps_ite_fst)
      | (intro _)
      | split)

theorem keeps_drawFree {z : State} (s : State)  (h : Keeps z s) : Keeps z (drawFree s).1 := by
  unfold drawFree
  repeat' (first
      | (with_reducible assumption)
      | (intro _)
      | split
      | (apply keeps_mk <;> first
          | assumption | with_reducible exact le_rfl | with_reducible exact List.suffix_refl _ | with_reducible exact fun h => h | exact fun _ => tasc_nil
          | with_reducible exact fun h => ⟨h, le_rfl⟩ | exact fun h => ⟨⟨h.1, h.2.1, h.2.2⟩, le_rfl⟩ | exact fun h => twf_tset h
          | exact fun h => twf_twrite h | exact fun h => twf_tclear h | exact fun h => tasc_tset h | exact fun h => tasc_tclear h
          | exact Nat.le_succ _ | exact le_max_left _ _ | exact List.suffix_cons _ _
          | exact fun h => twf_foldl _ (fun _ _ h => twf_tset h) _ _ h | skip)
      | (exact twf_foldl _ (fun _ _ h => twf_tset h) _ _ (by assumption)))

theorem keeps_dropLine {z : State} (s : State) (u : Nat)  (h : Keeps z s) : Keeps z (dropLine s u) := by
  unfold dropLine
  repeat' (first
      | (with_reducible assumption)
      | (intro _)
      | split
      | (apply keeps_mk <;> first
          | assumption | with_reducible exact le_rfl | with_reducible exact List.suffix_refl _ | with_reducible exact fun h => h | exact fun _ => tasc_nil
          | with_reducible exact fun h => ⟨h, le_rfl⟩ | exact fun h => ⟨⟨h.1, h.2.1, h.2.2⟩, le_rfl⟩ | exact fun h => twf_tset h
          | exact fun h => twf_twrite h | exact fun h => twf_tclear h | exact fun h => tasc_tset h | exact fun h => tasc_tclear h
          | exact Nat.le_succ _ | exact le_max_left _ _ | exact List.suffix_cons _ _
          | exact fun h => twf_foldl _ (fun _ _ h => twf_tset h) _ _ h | skip)
      | (exact twf_foldl _ (fun _ _ h => twf_tset h) _ _ (by assumption)))

theorem keeps_freshWords {z : State} (s : State) (key : Nat → Nat) (ks : List Nat)  (h : Keeps z s) : Keeps z (freshWords s key ks) := by
  unfold freshWords
  repeat' (first
      | (with_reducible assumption)
      | (with_reducible refine keeps_foldl _ _ _ ?_ ?_; (on_goal 1 => (intro _ _ _)))
      | (with_reducible refine keeps_foldl_fst _ _ _ ?_ ?_; (on_goal 1 => (intro _ _ _)))
      | (intro _)
      | split
      | (apply keeps_mk <;> first
          | assumption | with_reducible exact le_rfl | with_reducible exact List.suffix_refl _ | with_reducible exact fun h => h | exact fun _ => tasc_nil
          | with_reducible exact fun h => ⟨h, le_rfl⟩ | exact fun h => ⟨⟨h.1, h.2.1, h.2.2⟩, le_rfl⟩ | exact fun h => twf_tset h
          | exact fun h => twf_twrite h | exact fun h => twf_tclear h | exact fun h => tasc_tset h | exact fun h => tasc_tclear h
          | exact Nat.le_succ _ | exact le_max_left _ _ | exact List.suffix_cons _ _
          | exact fun h => twf_foldl _ (fun _ _ h => twf_tset h) _ _ h | skip)
      | (exact twf_foldl _ (fun _ _ h => twf_tset h) _ _ (by assumption)))

theorem keeps_lineCheck {z : State} (s : State) (u : Nat)  (h : Keeps z s) : Keeps z (lineCheck s u) := by
  unfold lineCheck
  repeat' (first
      | (with_reducible assumption)
      | ((try lift_lets -underBinder); intro x; refine (fun hx : Keeps z x => ?_) (?_ : Keeps z x); (on_goal 1 => clear_value x); (on_goal 2 => simp only [x]))
      | ((try lift_lets -underBinder); intro x; refine (fun hx : Keeps z x.1 => ?_) (?_ : Keeps z x.1); (on_goal 1 => clear_value x); (on_goal 2 => simp only [x]))
      | ((try lift_lets -underBinder); intro x; clear_value x)
      | (with_reducible first | apply keeps_lineRecord | apply keeps_eccCheck | apply keeps_ite | apply keeps_ite_fst)
      | (intro _)
      | split)

theorem keeps_evictLine {z : State} (s : State) (u : Nat)  (h : Keeps z s) : Keeps z (evictLine s u) := by
  unfold evictLine
  repeat' (first
      | (with_reducible assumption)
      | (with_reducible first | apply keeps_dropLine | apply keeps_freshWords | apply keeps_lineCheck | apply keeps_ite | apply keeps_ite_fst)
      | (intro _)
      | split)

theorem keeps_evictWay {z : State} (s : State) (n : N20) (u : Nat) (more : Nat)  (h : Keeps z s) : Keeps z (evictWay s n u more) := by
  unfold evictWay
  repeat' (first
      | (with_reducible assumption)
      | ((try lift_lets -underBinder); intro x; refine (fun hx : Keeps z x => ?_) (?_ : Keeps z x); (on_goal 1 => clear_value x); (on_goal 2 => simp only [x]))
      | ((try lift_lets -underBinder); intro x; refine (fun hx : Keeps z x.1 => ?_) (?_ : Keeps z x.1); (on_goal 1 => clear_value x); (on_goal 2 => simp only [x]))
      | ((try lift_lets -underBinder); intro x; clear_value x)
      | (with_reducible first | apply keeps_drawFree | apply keeps_evictLine | apply keeps_ite | apply keeps_ite_fst)
      | (intro _)
      | split)

theorem keeps_takeLine {z : State} (s : State) (n : N20) (u : Nat)  (h : Keeps z s) : Keeps z (takeLine s n u) := by
  unfold takeLine
  repeat' (first
      | (with_reducible assumption)
      | ((try lift_lets -underBinder); intro x; refine (fun hx : Keeps z x => ?_) (?_ : Keeps z x); (on_goal 1 => clear_value x); (on_goal 2 => simp only [x]))
      | ((try lift_lets -underBinder); intro x; refine (fun hx : Keeps z x.1 => ?_) (?_ : Keeps z x.1); (on_goal 1 => clear_value x); (on_goal 2 => simp only [x]))
      | ((try lift_lets -underBinder); intro x; clear_value x)
      | (with_reducible first | apply keeps_evictWay | apply keeps_ite | apply keeps_ite_fst)
      | (intro _)
      | split
      | (apply keeps_mk <;> first
          | assumption | with_reducible exact le_rfl | with_reducible exact List.suffix_refl _ | with_reducible exact fun h => h | exact fun _ => tasc_nil
          | with_reducible exact fun h => ⟨h, le_rfl⟩ | exact fun h => ⟨⟨h.1, h.2.1, h.2.2⟩, le_rfl⟩ | exact fun h => twf_tset h
          | exact fun h => twf_twrite h | exact fun h => twf_tclear h | exact fun h => tasc_tset h | exact fun h => tasc_tclear h
          | exact Nat.le_succ _ | exact le_max_left _ _ | exact List.suffix_cons _ _
          | exact fun h => twf_foldl _ (fun _ _ h => twf_tset h) _ _ h | skip)
      | (exact twf_foldl _ (fun _ _ h => twf_tset h) _ _ (by assumption)))

theorem keeps_touchUnit {z : State} (s : State) (u : Nat)  (h : Keeps z s) : Keeps z (touchUnit s u) := by
  unfold touchUnit
  repeat' (first
      | (with_reducible assumption)
      | ((try lift_lets -underBinder); intro x; refine (fun hx : Keeps z x => ?_) (?_ : Keeps z x); (on_goal 1 => clear_value x); (on_goal 2 => simp only [x]))
      | ((try lift_lets -underBinder); intro x; refine (fun hx : Keeps z x.1 => ?_) (?_ : Keeps z x.1); (on_goal 1 => clear_value x); (on_goal 2 => simp only [x]))
      | ((try lift_lets -underBinder); intro x; clear_value x)
      | (with_reducible first | apply keeps_eccCheck | apply keeps_takeLine | apply keeps_ite | apply keeps_ite_fst)
      | (intro _)
      | split)

theorem keeps_touchAll {z : State} (s : State) (rs : List (Nat × Nat))  (h : Keeps z s) : Keeps z (touchAll s rs) := by
  unfold touchAll
  repeat' (first
      | (with_reducible assumption)
      | (with_reducible first | apply keeps_touchUnit)
      | (with_reducible refine keeps_foldl _ _ _ ?_ ?_; (on_goal 1 => (intro _ _ _)))
      | (with_reducible refine keeps_foldl_fst _ _ _ ?_ ?_; (on_goal 1 => (intro _ _ _)))
      | (intro _)
      | split)

theorem keeps_advance {z : State} (s : State) (t : Nat)  (h : Keeps z s) : Keeps z (advance s t) := by
  unfold advance
  repeat' (first
      | (with_reducible assumption)
      | (intro _)
      | split
      | (apply keeps_mk <;> first
          | assumption | with_reducible exact le_rfl | with_reducible exact List.suffix_refl _ | with_reducible exact fun h => h | exact fun _ => tasc_nil
          | with_reducible exact fun h => ⟨h, le_rfl⟩ | exact fun h => ⟨⟨h.1, h.2.1, h.2.2⟩, le_rfl⟩ | exact fun h => twf_tset h
          | exact fun h => twf_twrite h | exact fun h => twf_tclear h | exact fun h => tasc_tset h | exact fun h => tasc_tclear h
          | exact Nat.le_succ _ | exact le_max_left _ _ | exact List.suffix_cons _ _
          | exact fun h => twf_foldl _ (fun _ _ h => twf_tset h) _ _ h | skip)
      | (exact twf_foldl _ (fun _ _ h => twf_tset h) _ _ (by assumption)))

theorem keeps_logEng {z : State} (s : State) (c : CoreId) (sub : Nat) (cause : Nat) (cls : Nat) (bank : Bool) (idx : BitVec 11) (lo : Nat)  (h : Keeps z s) : Keeps z (logEng s c sub cause cls bank idx lo) := by
  unfold logEng
  repeat' (first
      | (with_reducible assumption)
      | (with_reducible first | apply keeps_logEv | apply keeps_ite | apply keeps_ite_fst)
      | (intro _)
      | split)

theorem keeps_freshSector {z : State} (s : State) (u : Nat)  (h : Keeps z s) : Keeps z (freshSector s u) := by
  unfold freshSector
  repeat' (first
      | (with_reducible assumption)
      | (with_reducible first | apply keeps_freshWords)
      | (intro _)
      | split)

theorem keeps_lineAfter {z : State} (base : Bool) (s : State) (n : N20) (u : Nat) (whole : Bool) (ks : List Nat)  (h : Keeps z s) : Keeps z (lineAfter base s n u whole ks) := by
  unfold lineAfter
  repeat' (first
      | (with_reducible assumption)
      | ((try lift_lets -underBinder); intro x; refine (fun hx : Keeps z x => ?_) (?_ : Keeps z x); (on_goal 1 => clear_value x); (on_goal 2 => simp only [x]))
      | ((try lift_lets -underBinder); intro x; refine (fun hx : Keeps z x.1 => ?_) (?_ : Keeps z x.1); (on_goal 1 => clear_value x); (on_goal 2 => simp only [x]))
      | ((try lift_lets -underBinder); intro x; clear_value x)
      | (with_reducible first | apply keeps_freshWords | apply keeps_freshSector | apply keeps_takeLine | apply keeps_dropLine | apply keeps_ite | apply keeps_ite_fst)
      | (intro _)
      | split
      | (apply keeps_mk <;> first
          | assumption | with_reducible exact le_rfl | with_reducible exact List.suffix_refl _ | with_reducible exact fun h => h | exact fun _ => tasc_nil
          | with_reducible exact fun h => ⟨h, le_rfl⟩ | exact fun h => ⟨⟨h.1, h.2.1, h.2.2⟩, le_rfl⟩ | exact fun h => twf_tset h
          | exact fun h => twf_twrite h | exact fun h => twf_tclear h | exact fun h => tasc_tset h | exact fun h => tasc_tclear h
          | exact Nat.le_succ _ | exact le_max_left _ _ | exact List.suffix_cons _ _
          | exact fun h => twf_foldl _ (fun _ _ h => twf_tset h) _ _ h | skip)
      | (exact twf_foldl _ (fun _ _ h => twf_tset h) _ _ (by assumption)))

theorem keeps_putMasked {z : State} (base : Bool) (s : State) (u : Nat) (ch : List ByteCh) (p : Bool)  (h : Keeps z s) : Keeps z (putMasked base s u ch p) := by
  unfold putMasked
  repeat' (first
      | (with_reducible assumption)
      | ((try lift_lets -underBinder); intro x; refine (fun hx : Keeps z x => ?_) (?_ : Keeps z x); (on_goal 1 => clear_value x); (on_goal 2 => simp only [x]))
      | ((try lift_lets -underBinder); intro x; refine (fun hx : Keeps z x.1 => ?_) (?_ : Keeps z x.1); (on_goal 1 => clear_value x); (on_goal 2 => simp only [x]))
      | ((try lift_lets -underBinder); intro x; clear_value x)
      | (with_reducible first | apply keeps_setPoison | apply keeps_freshWords | apply keeps_lineAfter)
      | (with_reducible refine keeps_foldl _ _ _ ?_ ?_; (on_goal 1 => (intro _ _ _)))
      | (with_reducible refine keeps_foldl_fst _ _ _ ?_ ?_; (on_goal 1 => (intro _ _ _)))
      | (intro _)
      | split
      | (apply keeps_mk <;> first
          | assumption | with_reducible exact le_rfl | with_reducible exact List.suffix_refl _ | with_reducible exact fun h => h | exact fun _ => tasc_nil
          | with_reducible exact fun h => ⟨h, le_rfl⟩ | exact fun h => ⟨⟨h.1, h.2.1, h.2.2⟩, le_rfl⟩ | exact fun h => twf_tset h
          | exact fun h => twf_twrite h | exact fun h => twf_tclear h | exact fun h => tasc_tset h | exact fun h => tasc_tclear h
          | exact Nat.le_succ _ | exact le_max_left _ _ | exact List.suffix_cons _ _
          | exact fun h => twf_foldl _ (fun _ _ h => twf_tset h) _ _ h | skip)
      | (exact twf_foldl _ (fun _ _ h => twf_tset h) _ _ (by assumption)))

theorem keeps_writeMaskedAs {z : State} (base : Bool) (s : State) (u : Nat) (ch : List ByteCh) (p : Bool)  (h : Keeps z s) : Keeps z (writeMaskedAs base s u ch p) := by
  unfold writeMaskedAs
  repeat' (first
      | (with_reducible assumption)
      | ((try lift_lets -underBinder); intro x; refine (fun hx : Keeps z x => ?_) (?_ : Keeps z x); (on_goal 1 => clear_value x); (on_goal 2 => simp only [x]))
      | ((try lift_lets -underBinder); intro x; refine (fun hx : Keeps z x.1 => ?_) (?_ : Keeps z x.1); (on_goal 1 => clear_value x); (on_goal 2 => simp only [x]))
      | ((try lift_lets -underBinder); intro x; clear_value x)
      | (with_reducible first | apply keeps_rbump | apply keeps_putMasked | apply keeps_eccCheck | apply keeps_ite | apply keeps_ite_fst)
      | (intro _)
      | split)

theorem keeps_putCore {z : State} (s : State) (c : CoreId) (k : Core)  (h : Keeps z s) : Keeps z (putCore s c k) := by
  unfold putCore
  repeat' (first
      | (with_reducible assumption)
      | (intro _)
      | split
      | (apply keeps_mk <;> first
          | assumption | with_reducible exact le_rfl | with_reducible exact List.suffix_refl _ | with_reducible exact fun h => h | exact fun _ => tasc_nil
          | with_reducible exact fun h => ⟨h, le_rfl⟩ | exact fun h => ⟨⟨h.1, h.2.1, h.2.2⟩, le_rfl⟩ | exact fun h => twf_tset h
          | exact fun h => twf_twrite h | exact fun h => twf_tclear h | exact fun h => tasc_tset h | exact fun h => tasc_tclear h
          | exact Nat.le_succ _ | exact le_max_left _ _ | exact List.suffix_cons _ _
          | exact fun h => twf_foldl _ (fun _ _ h => twf_tset h) _ _ h | skip)
      | (exact twf_foldl _ (fun _ _ h => twf_tset h) _ _ (by assumption)))

theorem keeps_tagRange {z : State} (s : State) (a : Nat) (n : Nat)  (h : Keeps z s) : Keeps z (tagRange s a n) := by
  unfold tagRange
  repeat' (first
      | (with_reducible assumption)
      | ((try lift_lets -underBinder); intro x; refine (fun hx : Keeps z x => ?_) (?_ : Keeps z x); (on_goal 1 => clear_value x); (on_goal 2 => simp only [x]))
      | ((try lift_lets -underBinder); intro x; refine (fun hx : Keeps z x.1 => ?_) (?_ : Keeps z x.1); (on_goal 1 => clear_value x); (on_goal 2 => simp only [x]))
      | ((try lift_lets -underBinder); intro x; clear_value x)
      | (with_reducible first | apply keeps_ite | apply keeps_ite_fst)
      | (intro _)
      | split
      | (apply keeps_mk <;> first
          | assumption | with_reducible exact le_rfl | with_reducible exact List.suffix_refl _ | with_reducible exact fun h => h | exact fun _ => tasc_nil
          | with_reducible exact fun h => ⟨h, le_rfl⟩ | exact fun h => ⟨⟨h.1, h.2.1, h.2.2⟩, le_rfl⟩ | exact fun h => twf_tset h
          | exact fun h => twf_twrite h | exact fun h => twf_tclear h | exact fun h => tasc_tset h | exact fun h => tasc_tclear h
          | exact Nat.le_succ _ | exact le_max_left _ _ | exact List.suffix_cons _ _
          | exact fun h => twf_foldl _ (fun _ _ h => twf_tset h) _ _ h | skip)
      | (exact twf_foldl _ (fun _ _ h => twf_tset h) _ _ (by assumption)))

theorem keeps_writeMasked {z : State} (s : State) (u : Nat) (ch : List ByteCh) (p : Bool)  (h : Keeps z s) : Keeps z (writeMasked s u ch p) := by
  unfold writeMasked
  repeat' (first
      | (with_reducible assumption)
      | (with_reducible first | apply keeps_writeMaskedAs)
      | (intro _)
      | split)

theorem keeps_writeUnit {z : State} (s : State) (u : Nat) (o : Nat) (new : List Byte) (p : Bool)  (h : Keeps z s) : Keeps z (writeUnit s u o new p) := by
  unfold writeUnit
  repeat' (first
      | (with_reducible assumption)
      | (with_reducible first | apply keeps_writeMasked)
      | (intro _)
      | split)

theorem keeps_writeBytes {z : State} (s : State) (a : Nat) (bs : List Byte) (p : Nat → Bool)  (h : Keeps z s) : Keeps z (writeBytes s a bs p) := by
  unfold writeBytes
  repeat' (first
      | (with_reducible assumption)
      | ((try lift_lets -underBinder); intro x; refine (fun hx : Keeps z x => ?_) (?_ : Keeps z x); (on_goal 1 => clear_value x); (on_goal 2 => simp only [x]))
      | ((try lift_lets -underBinder); intro x; refine (fun hx : Keeps z x.1 => ?_) (?_ : Keeps z x.1); (on_goal 1 => clear_value x); (on_goal 2 => simp only [x]))
      | ((try lift_lets -underBinder); intro x; clear_value x)
      | (with_reducible first | apply keeps_writeUnit | apply keeps_ite | apply keeps_ite_fst)
      | (with_reducible refine keeps_foldl _ _ _ ?_ ?_; (on_goal 1 => (intro _ _ _)))
      | (with_reducible refine keeps_foldl_fst _ _ _ ?_ ?_; (on_goal 1 => (intro _ _ _)))
      | (intro _)
      | split)

theorem keeps_writeAll {z : State} (s : State) (a : Nat) (bs : List Byte) (p : Bool)  (h : Keeps z s) : Keeps z (writeAll s a bs p) := by
  unfold writeAll
  repeat' (first
      | (with_reducible assumption)
      | (with_reducible first | apply keeps_writeBytes)
      | (intro _)
      | split)

theorem keeps_touchRange {z : State} (s : State) (a : Nat) (n : Nat)  (h : Keeps z s) : Keeps z (touchRange s a n) := by
  unfold touchRange
  repeat' (first
      | (with_reducible assumption)
      | (with_reducible first | apply keeps_touchUnit | apply keeps_ite | apply keeps_ite_fst)
      | (with_reducible refine keeps_foldl _ _ _ ?_ ?_; (on_goal 1 => (intro _ _ _)))
      | (with_reducible refine keeps_foldl_fst _ _ _ ?_ ?_; (on_goal 1 => (intro _ _ _)))
      | (intro _)
      | split)

theorem keeps_touchBase {z : State} (s : State) (rs : List (Nat × Nat))  (h : Keeps z s) : Keeps z (touchBase s rs) := by
  unfold touchBase
  repeat' (first
      | (with_reducible assumption)
      | (with_reducible first | apply keeps_eccCheck)
      | (with_reducible refine keeps_foldl _ _ _ ?_ ?_; (on_goal 1 => (intro _ _ _)))
      | (with_reducible refine keeps_foldl_fst _ _ _ ?_ ?_; (on_goal 1 => (intro _ _ _)))
      | (intro _)
      | split)

theorem keeps_drawRng {z : State} (s : State) (n : N20)  (h : Keeps z s) : Keeps z (drawRng s n).1 := by
  unfold drawRng
  repeat' (first
      | (with_reducible assumption)
      | ((try lift_lets -underBinder); intro x; refine (fun hx : Keeps z x => ?_) (?_ : Keeps z x); (on_goal 1 => clear_value x); (on_goal 2 => simp only [x]))
      | ((try lift_lets -underBinder); intro x; refine (fun hx : Keeps z x.1 => ?_) (?_ : Keeps z x.1); (on_goal 1 => clear_value x); (on_goal 2 => simp only [x]))
      | ((try lift_lets -underBinder); intro x; clear_value x)
      | (with_reducible first | apply keeps_rput)
      | (intro _)
      | split)

theorem keeps_putEng {z : State} (s : State) (c : CoreId) (e : EngId) (g : Engine)  (h : Keeps z s) : Keeps z (putEng s c e g) := by
  unfold putEng
  repeat' (first
      | (with_reducible assumption)
      | (with_reducible first | apply keeps_putCore)
      | (intro _)
      | split)

theorem keeps_putFab {z : State} (s : State) (n : N20) (x : FabSlice)  (h : Keeps z s) : Keeps z (putFab s n x) := by
  unfold putFab
  repeat' (first
      | (with_reducible assumption)
      | (intro _)
      | split
      | (apply keeps_mk <;> first
          | assumption | with_reducible exact le_rfl | with_reducible exact List.suffix_refl _ | with_reducible exact fun h => h | exact fun _ => tasc_nil
          | with_reducible exact fun h => ⟨h, le_rfl⟩ | exact fun h => ⟨⟨h.1, h.2.1, h.2.2⟩, le_rfl⟩ | exact fun h => twf_tset h
          | exact fun h => twf_twrite h | exact fun h => twf_tclear h | exact fun h => tasc_tset h | exact fun h => tasc_tclear h
          | exact Nat.le_succ _ | exact le_max_left _ _ | exact List.suffix_cons _ _
          | exact fun h => twf_foldl _ (fun _ _ h => twf_tset h) _ _ h | skip)
      | (exact twf_foldl _ (fun _ _ h => twf_tset h) _ _ (by assumption)))

theorem keeps_laterCycle {z : State} (s : State)  (h : Keeps z s) : Keeps z (laterCycle s) := by
  unfold laterCycle
  repeat' (first
      | (with_reducible assumption)
      | (intro _)
      | split
      | (apply keeps_mk <;> first
          | assumption | with_reducible exact le_rfl | with_reducible exact List.suffix_refl _ | with_reducible exact fun h => h | exact fun _ => tasc_nil
          | with_reducible exact fun h => ⟨h, le_rfl⟩ | exact fun h => ⟨⟨h.1, h.2.1, h.2.2⟩, le_rfl⟩ | exact fun h => twf_tset h
          | exact fun h => twf_twrite h | exact fun h => twf_tclear h | exact fun h => tasc_tset h | exact fun h => tasc_tclear h
          | exact Nat.le_succ _ | exact le_max_left _ _ | exact List.suffix_cons _ _
          | exact fun h => twf_foldl _ (fun _ _ h => twf_tset h) _ _ h | skip)
      | (exact twf_foldl _ (fun _ _ h => twf_tset h) _ _ (by assumption)))

theorem keeps_logGeneral {z : State} (s : State) (unit : Nat) (inst : Nat) (lo : Nat)  (h : Keeps z s) : Keeps z (logGeneral s unit inst lo) := by
  unfold logGeneral
  repeat' (first
      | (with_reducible assumption)
      | (with_reducible first | apply keeps_logEv)
      | (intro _)
      | split)

end Sys2Proof.Machine
end

