-- ==== Sys2Proof/Laws/Keeps/Sxe.lean ====
section
/-!
SUPPORT. What the functions of Machine/Sxe.lean keep (Safety.Keeps).
-/

set_option linter.unusedTactic false
set_option linter.unreachableTactic false

namespace Sys2Proof.Machine

theorem keeps_sxeIter {z : State} (s : State) (c : CoreId) (i : Inst) (xa : Nat → Int) (q : Nat) (t : Nat) (j : Nat)  (h : Keeps z s) : Keeps z (sxeIter s c i xa q t j) := by
  unfold sxeIter
  repeat' (first
      | (with_reducible assumption)
      | ((try lift_lets -underBinder); intro x; refine (fun hx : Keeps z x => ?_) (?_ : Keeps z x); (on_goal 1 => clear_value x); (on_goal 2 => simp only [x]))
      | ((try lift_lets -underBinder); intro x; refine (fun hx : Keeps z x.1 => ?_) (?_ : Keeps z x.1); (on_goal 1 => clear_value x); (on_goal 2 => simp only [x]))
      | ((try lift_lets -underBinder); intro x; clear_value x)
      | (with_reducible first | apply keeps_lateReads | apply keeps_touchRange | apply keeps_putCore | apply keeps_ite | apply keeps_ite_fst)
      | (with_reducible refine keeps_foldl _ _ _ ?_ ?_; (on_goal 1 => (intro _ _ _)))
      | (with_reducible refine keeps_foldl_fst _ _ _ ?_ ?_; (on_goal 1 => (intro _ _ _)))
      | (intro _)
      | split)

theorem keeps_beginSxe {z : State} (s : State) (c : CoreId) (i : Inst) (t : Nat)  (h : Keeps z s) : Keeps z (beginSxe s c i t).1 := by
  unfold beginSxe
  repeat' (first
      | (with_reducible assumption)
      | ((try lift_lets -underBinder); intro x; refine (fun hx : Keeps z x => ?_) (?_ : Keeps z x); (on_goal 1 => clear_value x); (on_goal 2 => simp only [x]))
      | ((try lift_lets -underBinder); intro x; refine (fun hx : Keeps z x.1 => ?_) (?_ : Keeps z x.1); (on_goal 1 => clear_value x); (on_goal 2 => simp only [x]))
      | ((try lift_lets -underBinder); intro x; clear_value x)
      | (with_reducible first | apply keeps_lateReads | apply keeps_putCore | apply keeps_logEng | apply keeps_touchRange | apply keeps_sxeIter | apply keeps_ite | apply keeps_ite_fst)
      | (with_reducible refine keeps_foldl _ _ _ ?_ ?_; (on_goal 1 => (intro _ _ _)))
      | (with_reducible refine keeps_foldl_fst _ _ _ ?_ ?_; (on_goal 1 => (intro _ _ _)))
      | (intro _)
      | split)

end Sys2Proof.Machine
end

