-- ==== Sys2Proof/Laws/Keeps/StreamRun.lean ====
section
/-!
SUPPORT. What the functions of Machine/StreamRun.lean keep (Safety.Keeps).
-/

set_option linter.unusedTactic false
set_option linter.unreachableTactic false

namespace Sys2Proof.Machine

theorem keeps_applyWritesAs {z : State} (base : Bool) (s : State) (newestFirst : List ByteW)  (h : Keeps z s) : Keeps z (applyWritesAs base s newestFirst) := by
  unfold applyWritesAs
  repeat' (first
      | (with_reducible assumption)
      | ((try lift_lets -underBinder); intro x; refine (fun hx : Keeps z x => ?_) (?_ : Keeps z x); (on_goal 1 => clear_value x); (on_goal 2 => simp only [x]))
      | ((try lift_lets -underBinder); intro x; refine (fun hx : Keeps z x.1 => ?_) (?_ : Keeps z x.1); (on_goal 1 => clear_value x); (on_goal 2 => simp only [x]))
      | ((try lift_lets -underBinder); intro x; clear_value x)
      | (with_reducible first | apply keeps_writeMaskedAs)
      | (with_reducible refine keeps_foldl _ _ _ ?_ ?_; (on_goal 1 => (intro _ _ _)))
      | (with_reducible refine keeps_foldl_fst _ _ _ ?_ ?_; (on_goal 1 => (intro _ _ _)))
      | (intro _)
      | split)

theorem keeps_applyWrites {z : State} (s : State) (newestFirst : List ByteW)  (h : Keeps z s) : Keeps z (applyWrites s newestFirst) := by
  unfold applyWrites
  repeat' (first
      | (with_reducible assumption)
      | (with_reducible first | apply keeps_applyWritesAs)
      | (intro _)
      | split)

end Sys2Proof.Machine
end

