-- ==== Sys2Proof/Laws/Keeps/Reduce.lean ====
section
/-!
SUPPORT. What the functions of Machine/Reduce.lean keep (Safety.Keeps).
-/

set_option linter.unusedTactic false
set_option linter.unreachableTactic false

namespace Sys2Proof.Machine

theorem keeps_redLine {z : State} (s : State) (k : Nat) (u : Nat)  (h : Keeps z s) : Keeps z (redLine s k u) := by
  unfold redLine
  repeat' (first
      | (with_reducible assumption)
      | (with_reducible first | apply keeps_takeLine | apply keeps_ite | apply keeps_ite_fst)
      | (intro _)
      | split)

theorem keeps_redTouch {z : State} (s : State) (k : Nat) (u : Nat)  (h : Keeps z s) : Keeps z (redTouch s k u) := by
  unfold redTouch
  repeat' (first
      | (with_reducible assumption)
      | (with_reducible first | apply keeps_redLine | apply keeps_eccCheck)
      | (intro _)
      | split)

theorem keeps_redElem {z : State} (s : State) (k : Nat) (f : Nat) (d : Nat) (x : Nat) (n : Nat) (p : Bool)  (h : Keeps z s) : Keeps z (redElem s k f d x n p).1 := by
  unfold redElem
  repeat' (first
      | (with_reducible assumption)
      | ((try lift_lets -underBinder); intro x; refine (fun hx : Keeps z x => ?_) (?_ : Keeps z x); (on_goal 1 => clear_value x); (on_goal 2 => simp only [x]))
      | ((try lift_lets -underBinder); intro x; refine (fun hx : Keeps z x.1 => ?_) (?_ : Keeps z x.1); (on_goal 1 => clear_value x); (on_goal 2 => simp only [x]))
      | ((try lift_lets -underBinder); intro x; clear_value x)
      | (with_reducible first | apply keeps_putMasked)
      | (intro _)
      | split)

theorem keeps_runReduce {z : State} (s : State) (c : CoreId) (d : SDesc) (e : Option (List Byte)) (g : Option Nat)  (h : Keeps z s) : Keeps z (runReduce s c d e g).1 := by
  unfold runReduce
  repeat' (first
      | (with_reducible assumption)
      | ((try lift_lets -underBinder); intro x; refine (fun hx : Keeps z x => ?_) (?_ : Keeps z x); (on_goal 1 => clear_value x); (on_goal 2 => simp only [x]))
      | ((try lift_lets -underBinder); intro x; refine (fun hx : Keeps z x.1 => ?_) (?_ : Keeps z x.1); (on_goal 1 => clear_value x); (on_goal 2 => simp only [x]))
      | ((try lift_lets -underBinder); intro x; clear_value x)
      | (with_reducible first | apply keeps_redTouch | apply keeps_redElem | apply keeps_writeAll | apply keeps_ite | apply keeps_ite_fst)
      | (with_reducible refine keeps_foldl _ _ _ ?_ ?_; (on_goal 1 => (intro _ _ _)))
      | (with_reducible refine keeps_foldl_fst _ _ _ ?_ ?_; (on_goal 1 => (intro _ _ _)))
      | (intro _)
      | split)

end Sys2Proof.Machine
end

