-- ==== Sys2Proof/Laws/Keeps/DxeTask.lean ====
section
/-!
SUPPORT. What the functions of Machine/DxeTask.lean keep (Safety.Keeps).
-/

set_option linter.unusedTactic false
set_option linter.unreachableTactic false

namespace Sys2Proof.Machine

theorem keeps_taskSeen {z : State} (s : State) (c : CoreId) (t : Task)  (h : Keeps z s) : Keeps z (taskSeen s c t) := by
  unfold taskSeen
  repeat' (first
      | (with_reducible assumption)
      | ((try lift_lets -underBinder); intro x; refine (fun hx : Keeps z x => ?_) (?_ : Keeps z x); (on_goal 1 => clear_value x); (on_goal 2 => simp only [x]))
      | ((try lift_lets -underBinder); intro x; refine (fun hx : Keeps z x.1 => ?_) (?_ : Keeps z x.1); (on_goal 1 => clear_value x); (on_goal 2 => simp only [x]))
      | ((try lift_lets -underBinder); intro x; clear_value x)
      | (with_reducible first | apply keeps_touchAll)
      | (intro _)
      | split)

theorem keeps_logStream {z : State} (s : State) (c : CoreId) (st : Nat) (cause : Nat) (cls : Nat) (bank : Bool) (idx : BitVec 11) (lo : Nat)  (h : Keeps z s) : Keeps z (logStream s c st cause cls bank idx lo) := by
  unfold logStream
  repeat' (first
      | (with_reducible assumption)
      | (with_reducible first | apply keeps_logEv | apply keeps_ite | apply keeps_ite_fst)
      | (intro _)
      | split)

theorem keeps_countRun {z : State} (s : State) (c : CoreId) (st : Nat) (t : Task) (r : Run) (bytes : Nat)  (h : Keeps z s) : Keeps z (countRun s c st t r bytes).1 := by
  unfold countRun
  repeat' (first
      | (with_reducible assumption)
      | ((try lift_lets -underBinder); intro x; refine (fun hx : Keeps z x => ?_) (?_ : Keeps z x); (on_goal 1 => clear_value x); (on_goal 2 => simp only [x]))
      | ((try lift_lets -underBinder); intro x; refine (fun hx : Keeps z x.1 => ?_) (?_ : Keeps z x.1); (on_goal 1 => clear_value x); (on_goal 2 => simp only [x]))
      | ((try lift_lets -underBinder); intro x; clear_value x)
      | (with_reducible first | apply keeps_rbump | apply keeps_logEv | apply keeps_logStream)
      | (intro _)
      | split)

theorem keeps_cutTask {z : State} (s : State) (c : CoreId) (st : Nat) (t : Task) (g : Nat)  (h : Keeps z s) : Keeps z (cutTask s c st t g).1 := by
  unfold cutTask
  repeat' (first
      | (with_reducible assumption)
      | ((try lift_lets -underBinder); intro x; refine (fun hx : Keeps z x => ?_) (?_ : Keeps z x); (on_goal 1 => clear_value x); (on_goal 2 => simp only [x]))
      | ((try lift_lets -underBinder); intro x; refine (fun hx : Keeps z x.1 => ?_) (?_ : Keeps z x.1); (on_goal 1 => clear_value x); (on_goal 2 => simp only [x]))
      | ((try lift_lets -underBinder); intro x; clear_value x)
      | (with_reducible first | apply keeps_taskSeen | apply keeps_runReduce | apply keeps_countRun | apply keeps_applyWrites | apply keeps_ite | apply keeps_ite_fst)
      | (intro _)
      | split)

theorem keeps_tagExtents {z : State} (s : State) (c : CoreId) (d : SDesc) (e : Option (List Byte))  (h : Keeps z s) : Keeps z (tagExtents s c d e) := by
  unfold tagExtents
  repeat' (first
      | (with_reducible assumption)
      | (with_reducible first | apply keeps_tagRange)
      | (with_reducible refine keeps_foldl _ _ _ ?_ ?_; (on_goal 1 => (intro _ _ _)))
      | (with_reducible refine keeps_foldl_fst _ _ _ ?_ ?_; (on_goal 1 => (intro _ _ _)))
      | (intro _)
      | split)

theorem keeps_putTask {z : State} (s : State) (c : CoreId) (st : Nat) (t : Option Task)  (h : Keeps z s) : Keeps z (putTask s c st t) := by
  unfold putTask
  repeat' (first
      | (with_reducible assumption)
      | ((try lift_lets -underBinder); intro x; refine (fun hx : Keeps z x => ?_) (?_ : Keeps z x); (on_goal 1 => clear_value x); (on_goal 2 => simp only [x]))
      | ((try lift_lets -underBinder); intro x; refine (fun hx : Keeps z x.1 => ?_) (?_ : Keeps z x.1); (on_goal 1 => clear_value x); (on_goal 2 => simp only [x]))
      | ((try lift_lets -underBinder); intro x; clear_value x)
      | (with_reducible first | apply keeps_putCore)
      | (intro _)
      | split)

theorem keeps_queueRecord {z : State} (s : State) (c : CoreId) (st : Nat) (inst : Nat) (iter : Nat) (e : Option (List Byte)) (status : Nat) (flags : Nat) (cnt : TaskCnt) (t : Nat) (issueAt : Nat)  (h : Keeps z s) : Keeps z (queueRecord s c st inst iter e status flags cnt t issueAt) := by
  unfold queueRecord
  repeat' (first
      | (with_reducible assumption)
      | ((try lift_lets -underBinder); intro x; refine (fun hx : Keeps z x => ?_) (?_ : Keeps z x); (on_goal 1 => clear_value x); (on_goal 2 => simp only [x]))
      | ((try lift_lets -underBinder); intro x; refine (fun hx : Keeps z x.1 => ?_) (?_ : Keeps z x.1); (on_goal 1 => clear_value x); (on_goal 2 => simp only [x]))
      | ((try lift_lets -underBinder); intro x; clear_value x)
      | (with_reducible first | apply keeps_putCore | apply keeps_ite | apply keeps_ite_fst)
      | (intro _)
      | split)

theorem keeps_abortTask {z : State} (s : State) (c : CoreId) (st : Nat) (t : Task) (status : Nat) (cls : Nat) (cnt : TaskCnt) (fin : Nat)  (h : Keeps z s) : Keeps z (abortTask s c st t status cls cnt fin) := by
  unfold abortTask
  repeat' (first
      | (with_reducible assumption)
      | ((try lift_lets -underBinder); intro x; refine (fun hx : Keeps z x => ?_) (?_ : Keeps z x); (on_goal 1 => clear_value x); (on_goal 2 => simp only [x]))
      | ((try lift_lets -underBinder); intro x; refine (fun hx : Keeps z x.1 => ?_) (?_ : Keeps z x.1); (on_goal 1 => clear_value x); (on_goal 2 => simp only [x]))
      | ((try lift_lets -underBinder); intro x; clear_value x)
      | (with_reducible first | apply keeps_tagExtents | apply keeps_logStream | apply keeps_putTask | apply keeps_queueRecord | apply keeps_ite | apply keeps_ite_fst)
      | (intro _)
      | split)

theorem keeps_stopTask {z : State} (s : State) (c : CoreId) (st : Nat)  (h : Keeps z s) : Keeps z (stopTask s c st) := by
  unfold stopTask
  repeat' (first
      | (with_reducible assumption)
      | ((try lift_lets -underBinder); intro x; refine (fun hx : Keeps z x => ?_) (?_ : Keeps z x); (on_goal 1 => clear_value x); (on_goal 2 => simp only [x]))
      | ((try lift_lets -underBinder); intro x; refine (fun hx : Keeps z x.1 => ?_) (?_ : Keeps z x.1); (on_goal 1 => clear_value x); (on_goal 2 => simp only [x]))
      | ((try lift_lets -underBinder); intro x; clear_value x)
      | (with_reducible first | apply keeps_drawFree | apply keeps_cutTask | apply keeps_abortTask | apply keeps_putCore)
      | (intro _)
      | split)

theorem keeps_stopTasks {z : State} (s : State) (c : CoreId)  (h : Keeps z s) : Keeps z (stopTasks s c) := by
  unfold stopTasks
  repeat' (first
      | (with_reducible assumption)
      | (with_reducible first | apply keeps_stopTask)
      | (with_reducible refine keeps_foldl _ _ _ ?_ ?_; (on_goal 1 => (intro _ _ _)))
      | (with_reducible refine keeps_foldl_fst _ _ _ ?_ ?_; (on_goal 1 => (intro _ _ _)))
      | (intro _)
      | split)

theorem keeps_faultTask {z : State} (s : State) (c : CoreId) (st : Nat)  (h : Keeps z s) : Keeps z (faultTask s c st) := by
  unfold faultTask
  repeat' (first
      | (with_reducible assumption)
      | ((try lift_lets -underBinder); intro x; refine (fun hx : Keeps z x => ?_) (?_ : Keeps z x); (on_goal 1 => clear_value x); (on_goal 2 => simp only [x]))
      | ((try lift_lets -underBinder); intro x; refine (fun hx : Keeps z x.1 => ?_) (?_ : Keeps z x.1); (on_goal 1 => clear_value x); (on_goal 2 => simp only [x]))
      | ((try lift_lets -underBinder); intro x; clear_value x)
      | (with_reducible first | apply keeps_taskSeen | apply keeps_countRun | apply keeps_applyWrites | apply keeps_abortTask | apply keeps_ite | apply keeps_ite_fst)
      | (intro _)
      | split)

theorem keeps_issueAs {z : State} (s : State) (c : CoreId) (i : Inst) (j : Nat) (t : Nat) (bs : List Byte) (e : Option (List Byte)) (poisoned : Bool) (q : SDesc) (a9 : Option Status)  (h : Keeps z s) : Keeps z (issueAs s c i j t bs e poisoned q a9) := by
  unfold issueAs
  repeat' (first
      | (with_reducible assumption)
      | ((try lift_lets -underBinder); intro x; refine (fun hx : Keeps z x => ?_) (?_ : Keeps z x); (on_goal 1 => clear_value x); (on_goal 2 => simp only [x]))
      | ((try lift_lets -underBinder); intro x; refine (fun hx : Keeps z x.1 => ?_) (?_ : Keeps z x.1); (on_goal 1 => clear_value x); (on_goal 2 => simp only [x]))
      | ((try lift_lets -underBinder); intro x; clear_value x)
      | (with_reducible first | apply keeps_logStream | apply keeps_putCore | apply keeps_queueRecord | apply keeps_putTask | apply keeps_ite | apply keeps_ite_fst)
      | (intro _)
      | split)

theorem keeps_issueTask {z : State} (s : State) (c : CoreId) (i : Inst) (j : Nat) (t : Nat)  (h : Keeps z s) : Keeps z (issueTask s c i j t) := by
  unfold issueTask
  repeat' (first
      | (with_reducible assumption)
      | ((try lift_lets -underBinder); intro x; refine (fun hx : Keeps z x => ?_) (?_ : Keeps z x); (on_goal 1 => clear_value x); (on_goal 2 => simp only [x]))
      | ((try lift_lets -underBinder); intro x; refine (fun hx : Keeps z x.1 => ?_) (?_ : Keeps z x.1); (on_goal 1 => clear_value x); (on_goal 2 => simp only [x]))
      | ((try lift_lets -underBinder); intro x; clear_value x)
      | (with_reducible first | apply keeps_touchRange | apply keeps_issueAs | apply keeps_ite | apply keeps_ite_fst)
      | (intro _)
      | split)

end Sys2Proof.Machine
end

