-- ==== Sys2Proof/Laws/Keeps/Select.lean ====
section
/-!
SUPPORT. What the functions of Machine/Select.lean keep (Safety.Keeps).
-/

set_option linter.unusedTactic false
set_option linter.unreachableTactic false

namespace Sys2Proof.Machine

theorem keeps_putCtx {z : State} (s : State) (c : CoreId) (j : Nat) (x : SelCtx)  (h : Keeps z s) : Keeps z (putCtx s c j x) := by
  unfold putCtx
  repeat' (first
      | (with_reducible assumption)
      | ((try lift_lets -underBinder); intro x; refine (fun hx : Keeps z x => ?_) (?_ : Keeps z x); (on_goal 1 => clear_value x); (on_goal 2 => simp only [x]))
      | ((try lift_lets -underBinder); intro x; refine (fun hx : Keeps z x.1 => ?_) (?_ : Keeps z x.1); (on_goal 1 => clear_value x); (on_goal 2 => simp only [x]))
      | ((try lift_lets -underBinder); intro x; clear_value x)
      | (with_reducible first | apply keeps_putCore)
      | (intro _)
      | split)

theorem keeps_offerGrow {z : State} (a : State × Nat × List (Nat × Option Nat)) (c : CoreId) (idxAddr : Int) (q : Cand)  (h : Keeps z a.1) : Keeps z (offerGrow a c idxAddr q).1 := by
  unfold offerGrow
  repeat' (first
      | (with_reducible assumption)
      | ((try lift_lets -underBinder); intro x; refine (fun hx : Keeps z x => ?_) (?_ : Keeps z x); (on_goal 1 => clear_value x); (on_goal 2 => simp only [x]))
      | ((try lift_lets -underBinder); intro x; refine (fun hx : Keeps z x.1 => ?_) (?_ : Keeps z x.1); (on_goal 1 => clear_value x); (on_goal 2 => simp only [x]))
      | ((try lift_lets -underBinder); intro x; clear_value x)
      | (with_reducible first | apply keeps_rbump | apply keeps_putCtx | apply keeps_ite | apply keeps_ite_fst)
      | (intro _)
      | split)

theorem keeps_tagStore {z : State} (s : State) (c : CoreId) (x : SelCtx)  (h : Keeps z s) : Keeps z (tagStore s c x) := by
  unfold tagStore
  repeat' (first
      | (with_reducible assumption)
      | (with_reducible first | apply keeps_tagRange | apply keeps_ite | apply keeps_ite_fst)
      | (intro _)
      | split)

theorem keeps_writeStore {z : State} (s : State) (c : CoreId) (x : SelCtx) (n : Option Nat)  (h : Keeps z s) : Keeps z (writeStore s c x n) := by
  unfold writeStore
  repeat' (first
      | (with_reducible assumption)
      | (with_reducible first | apply keeps_tagStore | apply keeps_writeAll)
      | (intro _)
      | split)

theorem keeps_writeGrowStores {z : State} (s : State) (c : CoreId) (ents : List (Nat × Option Nat))  (h : Keeps z s) : Keeps z (writeGrowStores s c ents) := by
  unfold writeGrowStores
  repeat' (first
      | (with_reducible assumption)
      | (with_reducible first | apply keeps_writeStore)
      | (with_reducible refine keeps_foldl _ _ _ ?_ ?_; (on_goal 1 => (intro _ _ _)))
      | (with_reducible refine keeps_foldl_fst _ _ _ ?_ ?_; (on_goal 1 => (intro _ _ _)))
      | (intro _)
      | split)

end Sys2Proof.Machine
end

