-- ==== Sys2Proof/Laws/Keeps/Handoff.lean ====
section
/-!
SUPPORT. What the functions of Machine/Handoff.lean keep (Safety.Keeps).
-/

set_option linter.unusedTactic false
set_option linter.unreachableTactic false

namespace Sys2Proof.Machine

theorem keeps_handCount {z : State} (s : State) (c : CoreId) (st : Nat) (t : Task) (r : Run)  (h : Keeps z s) : Keeps z (handCount s c st t r).1 := by
  unfold handCount
  repeat' (first
      | (with_reducible assumption)
      | ((try lift_lets -underBinder); intro x; refine (fun hx : Keeps z x => ?_) (?_ : Keeps z x); (on_goal 1 => clear_value x); (on_goal 2 => simp only [x]))
      | ((try lift_lets -underBinder); intro x; refine (fun hx : Keeps z x.1 => ?_) (?_ : Keeps z x.1); (on_goal 1 => clear_value x); (on_goal 2 => simp only [x]))
      | ((try lift_lets -underBinder); intro x; clear_value x)
      | (with_reducible first | apply keeps_countRun | apply keeps_applyWrites | apply keeps_ite | apply keeps_ite_fst)
      | (intro _)
      | split)

theorem keeps_completeTask {z : State} (s : State) (c : CoreId) (st : Nat)  (h : Keeps z s) : Keeps z (completeTask s c st) := by
  unfold completeTask
  repeat' (first
      | (with_reducible assumption)
      | ((try lift_lets -underBinder); intro x; refine (fun hx : Keeps z x => ?_) (?_ : Keeps z x); (on_goal 1 => clear_value x); (on_goal 2 => simp only [x]))
      | ((try lift_lets -underBinder); intro x; refine (fun hx : Keeps z x.1 => ?_) (?_ : Keeps z x.1); (on_goal 1 => clear_value x); (on_goal 2 => simp only [x]))
      | ((try lift_lets -underBinder); intro x; clear_value x)
      | (with_reducible first | apply keeps_advance | apply keeps_taskSeen | apply keeps_handCount | apply keeps_runReduce | apply keeps_countRun | apply keeps_applyWrites | apply keeps_tagRange | apply keeps_queueRecord | apply keeps_putTask | apply keeps_ite | apply keeps_ite_fst)
      | (with_reducible refine keeps_foldl _ _ _ ?_ ?_; (on_goal 1 => (intro _ _ _)))
      | (with_reducible refine keeps_foldl_fst _ _ _ ?_ ?_; (on_goal 1 => (intro _ _ _)))
      | (intro _)
      | split)

theorem keeps_handReceive {z : State} (s : State) (c : CoreId) (st : Nat) (ents : List (Nat × Nat × AccEnt))  (h : Keeps z s) : Keeps z (handReceive s c st ents).1 := by
  unfold handReceive
  repeat' (first
      | (with_reducible assumption)
      | ((try lift_lets -underBinder); intro x; refine (fun hx : Keeps z x => ?_) (?_ : Keeps z x); (on_goal 1 => clear_value x); (on_goal 2 => simp only [x]))
      | ((try lift_lets -underBinder); intro x; refine (fun hx : Keeps z x.1 => ?_) (?_ : Keeps z x.1); (on_goal 1 => clear_value x); (on_goal 2 => simp only [x]))
      | ((try lift_lets -underBinder); intro x; clear_value x)
      | (with_reducible first | apply keeps_handCount | apply keeps_putTask | apply keeps_touchAll | apply keeps_abortTask | apply keeps_ite | apply keeps_ite_fst)
      | (with_reducible refine keeps_foldl _ _ _ ?_ ?_; (on_goal 1 => (intro _ _ _)))
      | (with_reducible refine keeps_foldl_fst _ _ _ ?_ ?_; (on_goal 1 => (intro _ _ _)))
      | (intro _)
      | split)

end Sys2Proof.Machine
end

