-- ==== Sys2Proof/Laws/Keeps/Mxe.lean ====
section
/-!
SUPPORT. What the functions of Machine/Mxe.lean keep (Safety.Keeps).
-/

set_option linter.unusedTactic false
set_option linter.unreachableTactic false

namespace Sys2Proof.Machine

theorem keeps_feedBads {z : State} (s : State) (c : CoreId) (i : Inst) (strict : Bool) (bads : List Status) (r : MxeRun)  (h : Keeps z s) : Keeps z (feedBads s c i strict bads r).1 := by
  unfold feedBads
  repeat' (first
      | (with_reducible assumption)
      | ((try lift_lets -underBinder); intro x; refine (fun hx : Keeps z x => ?_) (?_ : Keeps z x); (on_goal 1 => clear_value x); (on_goal 2 => simp only [x]))
      | ((try lift_lets -underBinder); intro x; refine (fun hx : Keeps z x.1 => ?_) (?_ : Keeps z x.1); (on_goal 1 => clear_value x); (on_goal 2 => simp only [x]))
      | ((try lift_lets -underBinder); intro x; clear_value x)
      | (with_reducible first | apply keeps_rbump | apply keeps_logEng | apply keeps_ite | apply keeps_ite_fst)
      | (intro _)
      | split)

theorem keeps_countWait {z : State} (s : State) (c : CoreId) (waited : Bool)  (h : Keeps z s) : Keeps z (countWait s c waited) := by
  unfold countWait
  repeat' (first
      | (with_reducible assumption)
      | (with_reducible first | apply keeps_rbump | apply keeps_ite | apply keeps_ite_fst)
      | (intro _)
      | split)

theorem keeps_passPoisoned {z : State} (s : State) (c : CoreId)  (h : Keeps z s) : Keeps z (passPoisoned s c) := by
  unfold passPoisoned
  repeat' (first
      | (with_reducible assumption)
      | (with_reducible first | apply keeps_rbump)
      | (intro _)
      | split)

theorem keeps_putInst {z : State} (s : State) (c : CoreId) (i : Inst)  (h : Keeps z s) : Keeps z (putInst s c i) := by
  unfold putInst
  repeat' (first
      | (with_reducible assumption)
      | ((try lift_lets -underBinder); intro x; refine (fun hx : Keeps z x => ?_) (?_ : Keeps z x); (on_goal 1 => clear_value x); (on_goal 2 => simp only [x]))
      | ((try lift_lets -underBinder); intro x; refine (fun hx : Keeps z x.1 => ?_) (?_ : Keeps z x.1); (on_goal 1 => clear_value x); (on_goal 2 => simp only [x]))
      | ((try lift_lets -underBinder); intro x; clear_value x)
      | (with_reducible first | apply keeps_putCore | apply keeps_ite | apply keeps_ite_fst)
      | (intro _)
      | split)

theorem keeps_tagRegions {z : State} (s : State) (c : CoreId) (mask : W64)  (h : Keeps z s) : Keeps z (tagRegions s c mask) := by
  unfold tagRegions
  repeat' (first
      | (with_reducible assumption)
      | (with_reducible first | apply keeps_tagRange | apply keeps_ite | apply keeps_ite_fst)
      | (with_reducible refine keeps_foldl _ _ _ ?_ ?_; (on_goal 1 => (intro _ _ _)))
      | (with_reducible refine keeps_foldl_fst _ _ _ ?_ ?_; (on_goal 1 => (intro _ _ _)))
      | (intro _)
      | split)

theorem keeps_abortInst {z : State} (s : State) (c : CoreId) (i : Inst) (why : Nat) (cls : Nat)  (h : Keeps z s) : Keeps z (abortInst s c i why cls) := by
  unfold abortInst
  repeat' (first
      | (with_reducible assumption)
      | ((try lift_lets -underBinder); intro x; refine (fun hx : Keeps z x => ?_) (?_ : Keeps z x); (on_goal 1 => clear_value x); (on_goal 2 => simp only [x]))
      | ((try lift_lets -underBinder); intro x; refine (fun hx : Keeps z x.1 => ?_) (?_ : Keeps z x.1); (on_goal 1 => clear_value x); (on_goal 2 => simp only [x]))
      | ((try lift_lets -underBinder); intro x; clear_value x)
      | (with_reducible first | apply keeps_tagRegions | apply keeps_logEng | apply keeps_putCore)
      | (intro _)
      | split)

theorem keeps_drainStats {z : State} (s : State) (c : CoreId) (p : Prod) (a : Nat) (outs : List HeldOut) (run : MxeRun)  (h : Keeps z s) : Keeps z (drainStats s c p a outs run).1 := by
  unfold drainStats
  repeat' (first
      | (with_reducible assumption)
      | ((try lift_lets -underBinder); intro x; refine (fun hx : Keeps z x => ?_) (?_ : Keeps z x); (on_goal 1 => clear_value x); (on_goal 2 => simp only [x]))
      | ((try lift_lets -underBinder); intro x; refine (fun hx : Keeps z x.1 => ?_) (?_ : Keeps z x.1); (on_goal 1 => clear_value x); (on_goal 2 => simp only [x]))
      | ((try lift_lets -underBinder); intro x; clear_value x)
      | (with_reducible first | apply keeps_writeAll)
      | (with_reducible refine keeps_foldl _ _ _ ?_ ?_; (on_goal 1 => (intro _ _ _)))
      | (with_reducible refine keeps_foldl_fst _ _ _ ?_ ?_; (on_goal 1 => (intro _ _ _)))
      | (intro _)
      | split)

theorem keeps_drainRnd {z : State} (s : State) (c : CoreId) (sround : Bool)  (h : Keeps z s) : Keeps z (drainRnd s c sround).1 := by
  unfold drainRnd
  repeat' (first
      | (with_reducible assumption)
      | ((try lift_lets -underBinder); intro x; refine (fun hx : Keeps z x => ?_) (?_ : Keeps z x); (on_goal 1 => clear_value x); (on_goal 2 => simp only [x]))
      | ((try lift_lets -underBinder); intro x; refine (fun hx : Keeps z x.1 => ?_) (?_ : Keeps z x.1); (on_goal 1 => clear_value x); (on_goal 2 => simp only [x]))
      | ((try lift_lets -underBinder); intro x; clear_value x)
      | (with_reducible first | apply keeps_drawRng | apply keeps_ite | apply keeps_ite_fst)
      | (intro _)
      | split)

theorem keeps_drainWrite {z : State} (s : State) (c : CoreId) (p : Prod) (scale : HeldOut → Option (Byte × Bool)) (outs : List HeldOut)  (h : Keeps z s) : Keeps z (drainWrite s c p scale outs) := by
  unfold drainWrite
  repeat' (first
      | (with_reducible assumption)
      | ((try lift_lets -underBinder); intro x; refine (fun hx : Keeps z x => ?_) (?_ : Keeps z x); (on_goal 1 => clear_value x); (on_goal 2 => simp only [x]))
      | ((try lift_lets -underBinder); intro x; refine (fun hx : Keeps z x.1 => ?_) (?_ : Keeps z x.1); (on_goal 1 => clear_value x); (on_goal 2 => simp only [x]))
      | ((try lift_lets -underBinder); intro x; clear_value x)
      | (with_reducible first | apply keeps_drainRnd | apply keeps_applyWrites)
      | (with_reducible refine keeps_foldl _ _ _ ?_ ?_; (on_goal 1 => (intro _ _ _)))
      | (with_reducible refine keeps_foldl_fst _ _ _ ?_ ?_; (on_goal 1 => (intro _ _ _)))
      | (intro _)
      | split)

theorem keeps_drainScaled {z : State} (s : State) (c : CoreId) (p : Prod) (held : List HeldOut)  (h : Keeps z s) : Keeps z (drainScaled s c p held) := by
  unfold drainScaled
  repeat' (first
      | (with_reducible assumption)
      | ((try lift_lets -underBinder); intro x; refine (fun hx : Keeps z x => ?_) (?_ : Keeps z x); (on_goal 1 => clear_value x); (on_goal 2 => simp only [x]))
      | ((try lift_lets -underBinder); intro x; refine (fun hx : Keeps z x.1 => ?_) (?_ : Keeps z x.1); (on_goal 1 => clear_value x); (on_goal 2 => simp only [x]))
      | ((try lift_lets -underBinder); intro x; clear_value x)
      | (with_reducible first | apply keeps_writeAll | apply keeps_drainWrite)
      | (with_reducible refine keeps_foldl _ _ _ ?_ ?_; (on_goal 1 => (intro _ _ _)))
      | (with_reducible refine keeps_foldl_fst _ _ _ ?_ ?_; (on_goal 1 => (intro _ _ _)))
      | (intro _)
      | split)

theorem keeps_drainArray {z : State} (s : State) (c : CoreId) (p : Prod) (d : PassEnd) (a : Nat) (run : MxeRun)  (h : Keeps z s) : Keeps z (drainArray s c p d a run).1 := by
  unfold drainArray
  repeat' (first
      | (with_reducible assumption)
      | ((try lift_lets -underBinder); intro x; refine (fun hx : Keeps z x => ?_) (?_ : Keeps z x); (on_goal 1 => clear_value x); (on_goal 2 => simp only [x]))
      | ((try lift_lets -underBinder); intro x; refine (fun hx : Keeps z x.1 => ?_) (?_ : Keeps z x.1); (on_goal 1 => clear_value x); (on_goal 2 => simp only [x]))
      | ((try lift_lets -underBinder); intro x; clear_value x)
      | (with_reducible first | apply keeps_touchAll | apply keeps_passPoisoned | apply keeps_drainStats | apply keeps_handReceive | apply keeps_drainScaled | apply keeps_drainWrite | apply keeps_ite | apply keeps_ite_fst)
      | (intro _)
      | split)

theorem keeps_storePart {z : State} (s : State) (c : CoreId) (p : Prod) (a : Nat) (j : Nat) (round : Nat) (acc : List AccEnt)  (h : Keeps z s) : Keeps z (storePart s c p a j round acc) := by
  unfold storePart
  repeat' (first
      | (with_reducible assumption)
      | ((try lift_lets -underBinder); intro x; refine (fun hx : Keeps z x => ?_) (?_ : Keeps z x); (on_goal 1 => clear_value x); (on_goal 2 => simp only [x]))
      | ((try lift_lets -underBinder); intro x; refine (fun hx : Keeps z x.1 => ?_) (?_ : Keeps z x.1); (on_goal 1 => clear_value x); (on_goal 2 => simp only [x]))
      | ((try lift_lets -underBinder); intro x; clear_value x)
      | (with_reducible first | apply keeps_writeBytes | apply keeps_ite | apply keeps_ite_fst)
      | (intro _)
      | split)

theorem keeps_drainPass {z : State} (s : State) (c : CoreId) (p : Prod) (d : PassEnd) (on : Nat → Bool) (run : MxeRun)  (h : Keeps z s) : Keeps z (drainPass s c p d on run).1 := by
  unfold drainPass
  repeat' (first
      | (with_reducible assumption)
      | ((try lift_lets -underBinder); intro x; refine (fun hx : Keeps z x => ?_) (?_ : Keeps z x); (on_goal 1 => clear_value x); (on_goal 2 => simp only [x]))
      | ((try lift_lets -underBinder); intro x; refine (fun hx : Keeps z x.1 => ?_) (?_ : Keeps z x.1); (on_goal 1 => clear_value x); (on_goal 2 => simp only [x]))
      | ((try lift_lets -underBinder); intro x; clear_value x)
      | (with_reducible first | apply keeps_drainArray | apply keeps_passPoisoned | apply keeps_storePart | apply keeps_ite | apply keeps_ite_fst)
      | (with_reducible refine keeps_foldl _ _ _ ?_ ?_; (on_goal 1 => (intro _ _ _)))
      | (with_reducible refine keeps_foldl_fst _ _ _ ?_ ?_; (on_goal 1 => (intro _ _ _)))
      | (intro _)
      | split)

theorem keeps_drewWords {z : State} (s : State) (c : CoreId) (p : Prod) (d : PassEnd) (run : MxeRun) (arrs : List Nat)  (h : Keeps z s) : Keeps z (drewWords s c p d run arrs) := by
  unfold drewWords
  repeat' (first
      | (with_reducible assumption)
      | ((try lift_lets -underBinder); intro x; refine (fun hx : Keeps z x => ?_) (?_ : Keeps z x); (on_goal 1 => clear_value x); (on_goal 2 => simp only [x]))
      | ((try lift_lets -underBinder); intro x; refine (fun hx : Keeps z x.1 => ?_) (?_ : Keeps z x.1); (on_goal 1 => clear_value x); (on_goal 2 => simp only [x]))
      | ((try lift_lets -underBinder); intro x; clear_value x)
      | (with_reducible first | apply keeps_putCore | apply keeps_ite | apply keeps_ite_fst)
      | (intro _)
      | split)

theorem keeps_loadAhead {z : State} (s : State) (c : CoreId) (i : Inst) (p : Prod) (q : MPos) (check : Bool) (r : MxeRun)  (h : Keeps z s) : Keeps z (loadAhead s c i p q check r).1 := by
  unfold loadAhead
  repeat' (first
      | (with_reducible assumption)
      | ((try lift_lets -underBinder); intro x; refine (fun hx : Keeps z x => ?_) (?_ : Keeps z x); (on_goal 1 => clear_value x); (on_goal 2 => simp only [x]))
      | ((try lift_lets -underBinder); intro x; refine (fun hx : Keeps z x.1 => ?_) (?_ : Keeps z x.1); (on_goal 1 => clear_value x); (on_goal 2 => simp only [x]))
      | ((try lift_lets -underBinder); intro x; clear_value x)
      | (with_reducible first | apply keeps_touchAll | apply keeps_feedBads | apply keeps_ite | apply keeps_ite_fst)
      | (with_reducible refine keeps_foldl _ _ _ ?_ ?_; (on_goal 1 => (intro _ _ _)))
      | (with_reducible refine keeps_foldl_fst _ _ _ ?_ ?_; (on_goal 1 => (intro _ _ _)))
      | (intro _)
      | split)

theorem keeps_firstLoad {z : State} (s : State) (c : CoreId) (i : Inst) (p : Prod) (r : MxeRun)  (h : Keeps z s) : Keeps z (firstLoad s c i p r).1 := by
  unfold firstLoad
  repeat' (first
      | (with_reducible assumption)
      | ((try lift_lets -underBinder); intro x; refine (fun hx : Keeps z x => ?_) (?_ : Keeps z x); (on_goal 1 => clear_value x); (on_goal 2 => simp only [x]))
      | ((try lift_lets -underBinder); intro x; refine (fun hx : Keeps z x.1 => ?_) (?_ : Keeps z x.1); (on_goal 1 => clear_value x); (on_goal 2 => simp only [x]))
      | ((try lift_lets -underBinder); intro x; clear_value x)
      | (with_reducible first | apply keeps_loadAhead | apply keeps_advance)
      | (intro _)
      | split)

theorem keeps_tileStep {z : State} (s : State) (c : CoreId) (i : Inst) (p : Prod) (r : MxeRun)  (h : Keeps z s) : Keeps z (tileStep s c i p r).1 := by
  unfold tileStep
  repeat' (first
      | (with_reducible assumption)
      | ((try lift_lets -underBinder); intro x; refine (fun hx : Keeps z x => ?_) (?_ : Keeps z x); (on_goal 1 => clear_value x); (on_goal 2 => simp only [x]))
      | ((try lift_lets -underBinder); intro x; refine (fun hx : Keeps z x.1 => ?_) (?_ : Keeps z x.1); (on_goal 1 => clear_value x); (on_goal 2 => simp only [x]))
      | ((try lift_lets -underBinder); intro x; clear_value x)
      | (with_reducible first | apply keeps_firstLoad | apply keeps_countWait | apply keeps_advance | apply keeps_touchAll | apply keeps_loadAhead | apply keeps_ite | apply keeps_ite_fst)
      | (intro _)
      | split)

end Sys2Proof.Machine
end

