-- ==== Sys2Proof/Laws/Keeps/Alt.lean ====
section
/-!
SUPPORT. What the functions of Machine/Alt.lean keep (Safety.Keeps).
-/

set_option linter.unusedTactic false
set_option linter.unreachableTactic false

namespace Sys2Proof.Machine

theorem keeps_segTouch {z : State} (s : State) (c : CoreId) (p : Prod) (round : Nat) (wt : Nat) (sg : Nat)  (h : Keeps z s) : Keeps z (segTouch s c p round wt sg) := by
  unfold segTouch
  repeat' (first
      | (with_reducible assumption)
      | (with_reducible first | apply keeps_touchAll)
      | (with_reducible refine keeps_foldl _ _ _ ?_ ?_; (on_goal 1 => (intro _ _ _)))
      | (with_reducible refine keeps_foldl_fst _ _ _ ?_ ?_; (on_goal 1 => (intro _ _ _)))
      | (intro _)
      | split)

theorem keeps_altFirst {z : State} (s : State) (c : CoreId) (i : Inst) (p : Prod) (r : MxeRun)  (h : Keeps z s) : Keeps z (altFirst s c i p r).1 := by
  unfold altFirst
  repeat' (first
      | (with_reducible assumption)
      | ((try lift_lets -underBinder); intro x; refine (fun hx : Keeps z x => ?_) (?_ : Keeps z x); (on_goal 1 => clear_value x); (on_goal 2 => simp only [x]))
      | ((try lift_lets -underBinder); intro x; refine (fun hx : Keeps z x.1 => ?_) (?_ : Keeps z x.1); (on_goal 1 => clear_value x); (on_goal 2 => simp only [x]))
      | ((try lift_lets -underBinder); intro x; clear_value x)
      | (with_reducible first | apply keeps_segTouch | apply keeps_advance | apply keeps_feedBads)
      | (intro _)
      | split)

theorem keeps_altStep {z : State} (s : State) (c : CoreId) (i : Inst) (p : Prod) (r : MxeRun)  (h : Keeps z s) : Keeps z (altStep s c i p r).1 := by
  unfold altStep
  repeat' (first
      | (with_reducible assumption)
      | ((try lift_lets -underBinder); intro x; refine (fun hx : Keeps z x => ?_) (?_ : Keeps z x); (on_goal 1 => clear_value x); (on_goal 2 => simp only [x]))
      | ((try lift_lets -underBinder); intro x; refine (fun hx : Keeps z x.1 => ?_) (?_ : Keeps z x.1); (on_goal 1 => clear_value x); (on_goal 2 => simp only [x]))
      | ((try lift_lets -underBinder); intro x; clear_value x)
      | (with_reducible first | apply keeps_altFirst | apply keeps_advance | apply keeps_touchAll | apply keeps_countWait | apply keeps_segTouch | apply keeps_feedBads | apply keeps_ite | apply keeps_ite_fst)
      | (with_reducible refine keeps_foldl _ _ _ ?_ ?_; (on_goal 1 => (intro _ _ _)))
      | (with_reducible refine keeps_foldl_fst _ _ _ ?_ ?_; (on_goal 1 => (intro _ _ _)))
      | (intro _)
      | split)

theorem keeps_dwDrainArray {z : State} (s : State) (c : CoreId) (p : Prod) (bc : Nat) (blks : List ABlk) (dw : List AccEnt)  (h : Keeps z s) : Keeps z (dwDrainArray s c p bc blks dw).1 := by
  unfold dwDrainArray
  repeat' (first
      | (with_reducible assumption)
      | ((try lift_lets -underBinder); intro x; refine (fun hx : Keeps z x => ?_) (?_ : Keeps z x); (on_goal 1 => clear_value x); (on_goal 2 => simp only [x]))
      | ((try lift_lets -underBinder); intro x; refine (fun hx : Keeps z x.1 => ?_) (?_ : Keeps z x.1); (on_goal 1 => clear_value x); (on_goal 2 => simp only [x]))
      | ((try lift_lets -underBinder); intro x; clear_value x)
      | (with_reducible first | apply keeps_applyWrites | apply keeps_ite | apply keeps_ite_fst)
      | (with_reducible refine keeps_foldl _ _ _ ?_ ?_; (on_goal 1 => (intro _ _ _)))
      | (with_reducible refine keeps_foldl_fst _ _ _ ?_ ?_; (on_goal 1 => (intro _ _ _)))
      | (intro _)
      | split)

theorem keeps_dwDrain {z : State} (s : State) (c : CoreId) (p : Prod) (r : MxeRun)  (h : Keeps z s) : Keeps z (dwDrain s c p r).1 := by
  unfold dwDrain
  repeat' (first
      | (with_reducible assumption)
      | ((try lift_lets -underBinder); intro x; refine (fun hx : Keeps z x => ?_) (?_ : Keeps z x); (on_goal 1 => clear_value x); (on_goal 2 => simp only [x]))
      | ((try lift_lets -underBinder); intro x; refine (fun hx : Keeps z x.1 => ?_) (?_ : Keeps z x.1); (on_goal 1 => clear_value x); (on_goal 2 => simp only [x]))
      | ((try lift_lets -underBinder); intro x; clear_value x)
      | (with_reducible first | apply keeps_advance | apply keeps_passPoisoned | apply keeps_dwDrainArray | apply keeps_touchAll | apply keeps_offerGrow | apply keeps_writeGrowStores | apply keeps_ite | apply keeps_ite_fst)
      | (with_reducible refine keeps_foldl _ _ _ ?_ ?_; (on_goal 1 => (intro _ _ _)))
      | (with_reducible refine keeps_foldl_fst _ _ _ ?_ ?_; (on_goal 1 => (intro _ _ _)))
      | (intro _)
      | split)

end Sys2Proof.Machine
end

