-- ==== Sys2Proof/Laws/Keeps/MxeSteps.lean ====
section
/-!
SUPPORT. What the functions of Machine/MxeSteps.lean keep (Safety.Keeps).
-/

set_option linter.unusedTactic false
set_option linter.unreachableTactic false

namespace Sys2Proof.Machine

theorem keeps_mxeStreamStop {z : State} (s : State) (c : CoreId) (st : Nat) (cls : Nat)  (h : Keeps z s) : Keeps z (mxeStreamStop s c st cls) := by
  unfold mxeStreamStop
  repeat' (first
      | (with_reducible assumption)
      | ((try lift_lets -underBinder); intro x; refine (fun hx : Keeps z x => ?_) (?_ : Keeps z x); (on_goal 1 => clear_value x); (on_goal 2 => simp only [x]))
      | ((try lift_lets -underBinder); intro x; refine (fun hx : Keeps z x.1 => ?_) (?_ : Keeps z x.1); (on_goal 1 => clear_value x); (on_goal 2 => simp only [x]))
      | ((try lift_lets -underBinder); intro x; clear_value x)
      | (with_reducible first | apply keeps_putCore | apply keeps_ite | apply keeps_ite_fst)
      | (intro _)
      | split)

theorem keeps_mxeStop {z : State} (s : State) (c : CoreId) (why : Status)  (h : Keeps z s) : Keeps z (mxeStop s c why) := by
  unfold mxeStop
  repeat' (first
      | (with_reducible assumption)
      | ((try lift_lets -underBinder); intro x; refine (fun hx : Keeps z x => ?_) (?_ : Keeps z x); (on_goal 1 => clear_value x); (on_goal 2 => simp only [x]))
      | ((try lift_lets -underBinder); intro x; refine (fun hx : Keeps z x.1 => ?_) (?_ : Keeps z x.1); (on_goal 1 => clear_value x); (on_goal 2 => simp only [x]))
      | ((try lift_lets -underBinder); intro x; clear_value x)
      | (with_reducible first | apply keeps_putCore)
      | (intro _)
      | split)

theorem keeps_mxeNextIter {z : State} (s : State) (c : CoreId) (i : Inst) (r : MxeRun)  (h : Keeps z s) : Keeps z (mxeNextIter s c i r) := by
  unfold mxeNextIter
  repeat' (first
      | (with_reducible assumption)
      | ((try lift_lets -underBinder); intro x; refine (fun hx : Keeps z x => ?_) (?_ : Keeps z x); (on_goal 1 => clear_value x); (on_goal 2 => simp only [x]))
      | ((try lift_lets -underBinder); intro x; refine (fun hx : Keeps z x.1 => ?_) (?_ : Keeps z x.1); (on_goal 1 => clear_value x); (on_goal 2 => simp only [x]))
      | ((try lift_lets -underBinder); intro x; clear_value x)
      | (with_reducible first | apply keeps_touchAll | apply keeps_putInst | apply keeps_ite | apply keeps_ite_fst)
      | (intro _)
      | split)

theorem keeps_mxePut {z : State} (s : State) (c : CoreId) (i : Inst) (r : MxeRun)  (h : Keeps z s) : Keeps z (mxePut s c i r) := by
  unfold mxePut
  repeat' (first
      | (with_reducible assumption)
      | (with_reducible first | apply keeps_abortInst | apply keeps_putInst | apply keeps_ite | apply keeps_ite_fst)
      | (intro _)
      | split)

theorem keeps_mxeGoOn {z : State} (s : State) (c : CoreId) (i : Inst) (r : MxeRun)  (h : Keeps z s) : Keeps z (mxeGoOn s c i r) := by
  unfold mxeGoOn
  repeat' (first
      | (with_reducible assumption)
      | (with_reducible first | apply keeps_mxeNextIter | apply keeps_mxePut | apply keeps_ite | apply keeps_ite_fst)
      | (intro _)
      | split)

theorem keeps_mxeDwDrain {z : State} (s : State) (c : CoreId) (id : Nat)  (h : Keeps z s) : Keeps z (mxeDwDrain s c id) := by
  unfold mxeDwDrain
  repeat' (first
      | (with_reducible assumption)
      | ((try lift_lets -underBinder); intro x; refine (fun hx : Keeps z x => ?_) (?_ : Keeps z x); (on_goal 1 => clear_value x); (on_goal 2 => simp only [x]))
      | ((try lift_lets -underBinder); intro x; refine (fun hx : Keeps z x.1 => ?_) (?_ : Keeps z x.1); (on_goal 1 => clear_value x); (on_goal 2 => simp only [x]))
      | ((try lift_lets -underBinder); intro x; clear_value x)
      | (with_reducible first | apply keeps_dwDrain | apply keeps_mxeGoOn | apply keeps_ite | apply keeps_ite_fst)
      | (intro _)
      | split)

theorem keeps_cutDrain {z : State} (c : CoreId) (p : Prod) (w : DrainWait) (x : State × MxeRun) (d : PassEnd)  (h : Keeps z x.1) : Keeps z (cutDrain c p w x d).1 := by
  unfold cutDrain
  repeat' (first
      | (with_reducible assumption)
      | ((try lift_lets -underBinder); intro x; refine (fun hx : Keeps z x => ?_) (?_ : Keeps z x); (on_goal 1 => clear_value x); (on_goal 2 => simp only [x]))
      | ((try lift_lets -underBinder); intro x; refine (fun hx : Keeps z x.1 => ?_) (?_ : Keeps z x.1); (on_goal 1 => clear_value x); (on_goal 2 => simp only [x]))
      | ((try lift_lets -underBinder); intro x; clear_value x)
      | (with_reducible first | apply keeps_drainPass | apply keeps_drewWords)
      | (intro _)
      | split)

theorem keeps_mxeDrain {z : State} (s : State) (c : CoreId) (id : Nat) (others : DrainWait)  (h : Keeps z s) : Keeps z (mxeDrain s c id others) := by
  unfold mxeDrain
  repeat' (first
      | (with_reducible assumption)
      | ((try lift_lets -underBinder); intro x; refine (fun hx : Keeps z x => ?_) (?_ : Keeps z x); (on_goal 1 => clear_value x); (on_goal 2 => simp only [x]))
      | ((try lift_lets -underBinder); intro x; refine (fun hx : Keeps z x.1 => ?_) (?_ : Keeps z x.1); (on_goal 1 => clear_value x); (on_goal 2 => simp only [x]))
      | ((try lift_lets -underBinder); intro x; clear_value x)
      | (with_reducible first | apply keeps_advance | apply keeps_cutDrain | apply keeps_mxePut | apply keeps_putInst | apply keeps_rbump | apply keeps_drainPass | apply keeps_drewWords | apply keeps_mxeGoOn | apply keeps_ite | apply keeps_ite_fst)
      | (intro _)
      | split)

theorem keeps_mxeTile {z : State} (s : State) (c : CoreId) (id : Nat)  (h : Keeps z s) : Keeps z (mxeTile s c id) := by
  unfold mxeTile
  repeat' (first
      | (with_reducible assumption)
      | ((try lift_lets -underBinder); intro x; refine (fun hx : Keeps z x => ?_) (?_ : Keeps z x); (on_goal 1 => clear_value x); (on_goal 2 => simp only [x]))
      | ((try lift_lets -underBinder); intro x; refine (fun hx : Keeps z x.1 => ?_) (?_ : Keeps z x.1); (on_goal 1 => clear_value x); (on_goal 2 => simp only [x]))
      | ((try lift_lets -underBinder); intro x; clear_value x)
      | (with_reducible first | apply keeps_altStep | apply keeps_tileStep | apply keeps_mxePut | apply keeps_ite | apply keeps_ite_fst)
      | (intro _)
      | split)

end Sys2Proof.Machine
end

