-- ==== Sys2Proof/Laws/Keeps/Mle.lean ====
section
/-!
SUPPORT. What the functions of Machine/Mle.lean keep (Safety.Keeps).
-/

set_option linter.unusedTactic false
set_option linter.unreachableTactic false

namespace Sys2Proof.Machine

theorem keeps_moultScan {z : State} (s : State) (c : CoreId) (d : LoopDesc) (w : W128) (e : Option Nat)  (h : Keeps z s) : Keeps z (moultScan s c d w e).1 := by
  unfold moultScan
  repeat' (first
      | (with_reducible assumption)
      | ((try lift_lets -underBinder); intro x; refine (fun hx : Keeps z x => ?_) (?_ : Keeps z x); (on_goal 1 => clear_value x); (on_goal 2 => simp only [x]))
      | ((try lift_lets -underBinder); intro x; refine (fun hx : Keeps z x.1 => ?_) (?_ : Keeps z x.1); (on_goal 1 => clear_value x); (on_goal 2 => simp only [x]))
      | ((try lift_lets -underBinder); intro x; clear_value x)
      | (with_reducible first | apply keeps_writeStore | apply keeps_putCtx | apply keeps_ite | apply keeps_ite_fst)
      | (with_reducible refine keeps_foldl _ _ _ ?_ ?_; (on_goal 1 => (intro _ _ _)))
      | (with_reducible refine keeps_foldl_fst _ _ _ ?_ ?_; (on_goal 1 => (intro _ _ _)))
      | (intro _)
      | split)

theorem keeps_mergeBlock {z : State} (s : State) (c : CoreId) (d : LoopDesc) (w : W128) (j : Nat) (b : Nat)  (h : Keeps z s) : Keeps z (mergeBlock s c d w j b) := by
  unfold mergeBlock
  repeat' (first
      | (with_reducible assumption)
      | ((try lift_lets -underBinder); intro x; refine (fun hx : Keeps z x => ?_) (?_ : Keeps z x); (on_goal 1 => clear_value x); (on_goal 2 => simp only [x]))
      | ((try lift_lets -underBinder); intro x; refine (fun hx : Keeps z x.1 => ?_) (?_ : Keeps z x.1); (on_goal 1 => clear_value x); (on_goal 2 => simp only [x]))
      | ((try lift_lets -underBinder); intro x; clear_value x)
      | (with_reducible first | apply keeps_writeBytes | apply keeps_ite | apply keeps_ite_fst)
      | (intro _)
      | split)

theorem keeps_moultMerge {z : State} (s : State) (c : CoreId) (d : LoopDesc) (w : W128) (limit : Nat)  (h : Keeps z s) : Keeps z (moultMerge s c d w limit) := by
  unfold moultMerge
  repeat' (first
      | (with_reducible assumption)
      | ((try lift_lets -underBinder); intro x; refine (fun hx : Keeps z x => ?_) (?_ : Keeps z x); (on_goal 1 => clear_value x); (on_goal 2 => simp only [x]))
      | ((try lift_lets -underBinder); intro x; refine (fun hx : Keeps z x.1 => ?_) (?_ : Keeps z x.1); (on_goal 1 => clear_value x); (on_goal 2 => simp only [x]))
      | ((try lift_lets -underBinder); intro x; clear_value x)
      | (with_reducible first | apply keeps_mergeBlock)
      | (with_reducible refine keeps_foldl _ _ _ ?_ ?_; (on_goal 1 => (intro _ _ _)))
      | (with_reducible refine keeps_foldl_fst _ _ _ ?_ ?_; (on_goal 1 => (intro _ _ _)))
      | (intro _)
      | split)

theorem keeps_moultApply {z : State} (s : State) (c : CoreId) (i : Inst)  (h : Keeps z s) : Keeps z (moultApply s c i).1 := by
  unfold moultApply
  repeat' (first
      | (with_reducible assumption)
      | ((try lift_lets -underBinder); intro x; refine (fun hx : Keeps z x => ?_) (?_ : Keeps z x); (on_goal 1 => clear_value x); (on_goal 2 => simp only [x]))
      | ((try lift_lets -underBinder); intro x; refine (fun hx : Keeps z x.1 => ?_) (?_ : Keeps z x.1); (on_goal 1 => clear_value x); (on_goal 2 => simp only [x]))
      | ((try lift_lets -underBinder); intro x; clear_value x)
      | (with_reducible first | apply keeps_applyWrites | apply keeps_writeAll | apply keeps_ite | apply keeps_ite_fst)
      | (with_reducible refine keeps_foldl _ _ _ ?_ ?_; (on_goal 1 => (intro _ _ _)))
      | (with_reducible refine keeps_foldl_fst _ _ _ ?_ ?_; (on_goal 1 => (intro _ _ _)))
      | (intro _)
      | split)

theorem keeps_mleRun {z : State} (s : State) (c : CoreId) (i : Inst)  (h : Keeps z s) : Keeps z (mleRun s c i).1 := by
  unfold mleRun
  repeat' (first
      | (with_reducible assumption)
      | ((try lift_lets -underBinder); intro x; refine (fun hx : Keeps z x => ?_) (?_ : Keeps z x); (on_goal 1 => clear_value x); (on_goal 2 => simp only [x]))
      | ((try lift_lets -underBinder); intro x; refine (fun hx : Keeps z x.1 => ?_) (?_ : Keeps z x.1); (on_goal 1 => clear_value x); (on_goal 2 => simp only [x]))
      | ((try lift_lets -underBinder); intro x; clear_value x)
      | (with_reducible first | apply keeps_moultScan | apply keeps_moultMerge | apply keeps_moultApply | apply keeps_ite | apply keeps_ite_fst)
      | (intro _)
      | split)

theorem keeps_beginMle {z : State} (s : State) (c : CoreId) (i : Inst) (t : Nat)  (h : Keeps z s) : Keeps z (beginMle s c i t).1 := by
  unfold beginMle
  repeat' (first
      | (with_reducible assumption)
      | ((try lift_lets -underBinder); intro x; refine (fun hx : Keeps z x => ?_) (?_ : Keeps z x); (on_goal 1 => clear_value x); (on_goal 2 => simp only [x]))
      | ((try lift_lets -underBinder); intro x; refine (fun hx : Keeps z x.1 => ?_) (?_ : Keeps z x.1); (on_goal 1 => clear_value x); (on_goal 2 => simp only [x]))
      | ((try lift_lets -underBinder); intro x; clear_value x)
      | (with_reducible first | apply keeps_touchAll | apply keeps_putCore | apply keeps_mleRun)
      | (intro _)
      | split)

theorem keeps_abortMle {z : State} (s : State) (c : CoreId) (i : Inst)  (h : Keeps z s) : Keeps z (abortMle s c i) := by
  unfold abortMle
  repeat' (first
      | (with_reducible assumption)
      | ((try lift_lets -underBinder); intro x; refine (fun hx : Keeps z x => ?_) (?_ : Keeps z x); (on_goal 1 => clear_value x); (on_goal 2 => simp only [x]))
      | ((try lift_lets -underBinder); intro x; refine (fun hx : Keeps z x.1 => ?_) (?_ : Keeps z x.1); (on_goal 1 => clear_value x); (on_goal 2 => simp only [x]))
      | ((try lift_lets -underBinder); intro x; clear_value x)
      | (with_reducible first | apply keeps_setPoison | apply keeps_putCtx | apply keeps_moultScan | apply keeps_moultMerge | apply keeps_ite | apply keeps_ite_fst)
      | (with_reducible refine keeps_foldl _ _ _ ?_ ?_; (on_goal 1 => (intro _ _ _)))
      | (with_reducible refine keeps_foldl_fst _ _ _ ?_ ?_; (on_goal 1 => (intro _ _ _)))
      | (intro _)
      | split
      | (apply keeps_mk <;> first
          | assumption | with_reducible exact le_rfl | with_reducible exact List.suffix_refl _ | with_reducible exact fun h => h | exact fun _ => tasc_nil
          | with_reducible exact fun h => ⟨h, le_rfl⟩ | exact fun h => ⟨⟨h.1, h.2.1, h.2.2⟩, le_rfl⟩ | exact fun h => twf_tset h
          | exact fun h => twf_twrite h | exact fun h => twf_tclear h | exact fun h => tasc_tset h | exact fun h => tasc_tclear h
          | exact Nat.le_succ _ | exact le_max_left _ _ | exact List.suffix_cons _ _
          | exact fun h => twf_foldl _ (fun _ _ h => twf_tset h) _ _ h | skip)
      | (exact twf_foldl _ (fun _ _ h => twf_tset h) _ _ (by assumption)))

theorem keeps_retagStores {z : State} (s : State) (c : CoreId) (i : Inst)  (h : Keeps z s) : Keeps z (retagStores s c i) := by
  unfold retagStores
  repeat' (first
      | (with_reducible assumption)
      | ((try lift_lets -underBinder); intro x; refine (fun hx : Keeps z x => ?_) (?_ : Keeps z x); (on_goal 1 => clear_value x); (on_goal 2 => simp only [x]))
      | ((try lift_lets -underBinder); intro x; refine (fun hx : Keeps z x.1 => ?_) (?_ : Keeps z x.1); (on_goal 1 => clear_value x); (on_goal 2 => simp only [x]))
      | ((try lift_lets -underBinder); intro x; clear_value x)
      | (with_reducible first | apply keeps_tagStore | apply keeps_ite | apply keeps_ite_fst)
      | (with_reducible refine keeps_foldl _ _ _ ?_ ?_; (on_goal 1 => (intro _ _ _)))
      | (with_reducible refine keeps_foldl_fst _ _ _ ?_ ?_; (on_goal 1 => (intro _ _ _)))
      | (intro _)
      | split)

theorem keeps_retireMle {z : State} (s : State) (c : CoreId) (i : Inst) (flags : Nat)  (h : Keeps z s) : Keeps z (retireMle s c i flags) := by
  unfold retireMle
  repeat' (first
      | (with_reducible assumption)
      | (with_reducible first | apply keeps_putCtx | apply keeps_rbump | apply keeps_logEng | apply keeps_ite | apply keeps_ite_fst)
      | (intro _)
      | split)

end Sys2Proof.Machine
end

