-- ==== Sys2Proof/Laws/Keeps/Engine.lean ====
section
/-!
SUPPORT. What the functions of Machine/Engine.lean keep (Safety.Keeps).
-/

set_option linter.unusedTactic false
set_option linter.unreachableTactic false

namespace Sys2Proof.Machine

theorem keeps_pump {z : State} (c : CoreId) (id : Nat) (n : Nat) (s : State) (h : Keeps z s) : Keeps z (pump c id n s) := by
  induction n generalizing s with
  | zero => exact h
  | succ n ih =>
    rw [pump]
    repeat' (first
      | (with_reducible assumption)
      | ((try lift_lets -underBinder); intro x; refine (fun hx : Keeps z x => ?_) (?_ : Keeps z x); (on_goal 1 => clear_value x); (on_goal 2 => simp only [x]))
      | ((try lift_lets -underBinder); intro x; clear_value x)
      | (with_reducible apply ih)
      | (with_reducible apply keeps_putInst)
      | (with_reducible apply keeps_issueTask)
      | (with_reducible apply keeps_ite)
      | split)

theorem keeps_pumpAll {z : State} (s : State) (c : CoreId)  (h : Keeps z s) : Keeps z (pumpAll s c) := by
  unfold pumpAll
  repeat' (first
      | (with_reducible assumption)
      | (with_reducible first | apply keeps_pump)
      | (with_reducible refine keeps_foldl _ _ _ ?_ ?_; (on_goal 1 => (intro _ _ _)))
      | (with_reducible refine keeps_foldl_fst _ _ _ ?_ ?_; (on_goal 1 => (intro _ _ _)))
      | (intro _)
      | split)

theorem keeps_beginWork {z : State} (s : State) (c : CoreId) (i : Inst) (t : Nat)  (h : Keeps z s) : Keeps z (beginWork s c i t).1 := by
  unfold beginWork
  repeat' (first
      | (with_reducible assumption)
      | ((try lift_lets -underBinder); intro x; refine (fun hx : Keeps z x => ?_) (?_ : Keeps z x); (on_goal 1 => clear_value x); (on_goal 2 => simp only [x]))
      | ((try lift_lets -underBinder); intro x; refine (fun hx : Keeps z x.1 => ?_) (?_ : Keeps z x.1); (on_goal 1 => clear_value x); (on_goal 2 => simp only [x]))
      | ((try lift_lets -underBinder); intro x; clear_value x)
      | (with_reducible first | apply keeps_touchRange | apply keeps_putEng | apply keeps_putInst | apply keeps_touchAll | apply keeps_beginVxe | apply keeps_beginSxe | apply keeps_beginMle | apply keeps_ite | apply keeps_ite_fst)
      | (with_reducible refine keeps_foldl _ _ _ ?_ ?_; (on_goal 1 => (intro _ _ _)))
      | (with_reducible refine keeps_foldl_fst _ _ _ ?_ ?_; (on_goal 1 => (intro _ _ _)))
      | (intro _)
      | split)

theorem keeps_dropBranch {z : State} (s : State) (c : CoreId) (i : Inst)  (h : Keeps z s) : Keeps z (dropBranch s c i) := by
  unfold dropBranch
  repeat' (first
      | (with_reducible assumption)
      | ((try lift_lets -underBinder); intro x; refine (fun hx : Keeps z x => ?_) (?_ : Keeps z x); (on_goal 1 => clear_value x); (on_goal 2 => simp only [x]))
      | ((try lift_lets -underBinder); intro x; refine (fun hx : Keeps z x.1 => ?_) (?_ : Keeps z x.1); (on_goal 1 => clear_value x); (on_goal 2 => simp only [x]))
      | ((try lift_lets -underBinder); intro x; clear_value x)
      | (with_reducible first | apply keeps_putCore | apply keeps_ite | apply keeps_ite_fst)
      | (intro _)
      | split)

theorem keeps_beginInst {z : State} (s : State) (c : CoreId) (i : Inst) (t : Nat)  (h : Keeps z s) : Keeps z (beginInst s c i t) := by
  unfold beginInst
  repeat' (first
      | (with_reducible assumption)
      | ((try lift_lets -underBinder); intro x; refine (fun hx : Keeps z x => ?_) (?_ : Keeps z x); (on_goal 1 => clear_value x); (on_goal 2 => simp only [x]))
      | ((try lift_lets -underBinder); intro x; refine (fun hx : Keeps z x.1 => ?_) (?_ : Keeps z x.1); (on_goal 1 => clear_value x); (on_goal 2 => simp only [x]))
      | ((try lift_lets -underBinder); intro x; clear_value x)
      | (with_reducible first | apply keeps_beginWork | apply keeps_dropBranch | apply keeps_putEng)
      | (intro _)
      | split)

theorem keeps_startReady {z : State} (s : State) (c : CoreId)  (h : Keeps z s) : Keeps z (startReady s c) := by
  unfold startReady
  repeat' (first
      | (with_reducible assumption)
      | (with_reducible first | apply keeps_beginInst | apply keeps_ite | apply keeps_ite_fst)
      | (with_reducible refine keeps_foldl _ _ _ ?_ ?_; (on_goal 1 => (intro _ _ _)))
      | (with_reducible refine keeps_foldl_fst _ _ _ ?_ ?_; (on_goal 1 => (intro _ _ _)))
      | (intro _)
      | split)

theorem keeps_settleEngine {z : State} (s : State) (c : CoreId) (e : EngId)  (h : Keeps z s) : Keeps z (settleEngine s c e) := by
  unfold settleEngine
  repeat' (first
      | (with_reducible assumption)
      | ((try lift_lets -underBinder); intro x; refine (fun hx : Keeps z x => ?_) (?_ : Keeps z x); (on_goal 1 => clear_value x); (on_goal 2 => simp only [x]))
      | ((try lift_lets -underBinder); intro x; refine (fun hx : Keeps z x.1 => ?_) (?_ : Keeps z x.1); (on_goal 1 => clear_value x); (on_goal 2 => simp only [x]))
      | ((try lift_lets -underBinder); intro x; clear_value x)
      | (with_reducible first | apply keeps_putEng | apply keeps_logEng | apply keeps_ite | apply keeps_ite_fst)
      | (intro _)
      | split)

theorem keeps_settleCore {z : State} (s : State) (c : CoreId)  (h : Keeps z s) : Keeps z (settleCore s c) := by
  unfold settleCore
  repeat' (first
      | (with_reducible assumption)
      | ((try lift_lets -underBinder); intro x; refine (fun hx : Keeps z x => ?_) (?_ : Keeps z x); (on_goal 1 => clear_value x); (on_goal 2 => simp only [x]))
      | ((try lift_lets -underBinder); intro x; refine (fun hx : Keeps z x.1 => ?_) (?_ : Keeps z x.1); (on_goal 1 => clear_value x); (on_goal 2 => simp only [x]))
      | ((try lift_lets -underBinder); intro x; clear_value x)
      | (with_reducible first | apply keeps_pumpAll | apply keeps_startReady | apply keeps_settleEngine)
      | (with_reducible refine keeps_foldl _ _ _ ?_ ?_; (on_goal 1 => (intro _ _ _)))
      | (with_reducible refine keeps_foldl_fst _ _ _ ?_ ?_; (on_goal 1 => (intro _ _ _)))
      | (intro _)
      | split)

theorem keeps_skipHead {z : State} (s : State) (c : CoreId) (e : EngId) (t : Nat) (why : Status)  (h : Keeps z s) : Keeps z (skipHead s c e t why) := by
  unfold skipHead
  repeat' (first
      | (with_reducible assumption)
      | ((try lift_lets -underBinder); intro x; refine (fun hx : Keeps z x => ?_) (?_ : Keeps z x); (on_goal 1 => clear_value x); (on_goal 2 => simp only [x]))
      | ((try lift_lets -underBinder); intro x; refine (fun hx : Keeps z x.1 => ?_) (?_ : Keeps z x.1); (on_goal 1 => clear_value x); (on_goal 2 => simp only [x]))
      | ((try lift_lets -underBinder); intro x; clear_value x)
      | (with_reducible first | apply keeps_rbump | apply keeps_logEng | apply keeps_settleCore | apply keeps_putEng)
      | (intro _)
      | split)

theorem keeps_keepAccepted {z : State} (s : State) (c : CoreId) (e : EngId)  (h : Keeps z s) : Keeps z (keepAccepted s c e) := by
  unfold keepAccepted
  repeat' (first
      | (with_reducible assumption)
      | ((try lift_lets -underBinder); intro x; refine (fun hx : Keeps z x => ?_) (?_ : Keeps z x); (on_goal 1 => clear_value x); (on_goal 2 => simp only [x]))
      | ((try lift_lets -underBinder); intro x; refine (fun hx : Keeps z x.1 => ?_) (?_ : Keeps z x.1); (on_goal 1 => clear_value x); (on_goal 2 => simp only [x]))
      | ((try lift_lets -underBinder); intro x; clear_value x)
      | (with_reducible first | apply keeps_putEng | apply keeps_ite | apply keeps_ite_fst)
      | (with_reducible refine keeps_foldl _ _ _ ?_ ?_; (on_goal 1 => (intro _ _ _)))
      | (with_reducible refine keeps_foldl_fst _ _ _ ?_ ?_; (on_goal 1 => (intro _ _ _)))
      | (intro _)
      | split)

theorem keeps_landStores {z : State} (s : State) (c : CoreId) (xs : List PadStore)  (h : Keeps z s) : Keeps z (landStores s c xs) := by
  unfold landStores
  repeat' (first
      | (with_reducible assumption)
      | (with_reducible first | apply keeps_writeBytes)
      | (with_reducible refine keeps_foldl _ _ _ ?_ ?_; (on_goal 1 => (intro _ _ _)))
      | (with_reducible refine keeps_foldl_fst _ _ _ ?_ ?_; (on_goal 1 => (intro _ _ _)))
      | (intro _)
      | split)

theorem keeps_cutFlight {z : State} (s : State) (c : CoreId) (e : EngId)  (h : Keeps z s) : Keeps z (cutFlight s c e) := by
  unfold cutFlight
  repeat' (first
      | (with_reducible assumption)
      | ((try lift_lets -underBinder); intro x; refine (fun hx : Keeps z x => ?_) (?_ : Keeps z x); (on_goal 1 => clear_value x); (on_goal 2 => simp only [x]))
      | ((try lift_lets -underBinder); intro x; refine (fun hx : Keeps z x.1 => ?_) (?_ : Keeps z x.1); (on_goal 1 => clear_value x); (on_goal 2 => simp only [x]))
      | ((try lift_lets -underBinder); intro x; clear_value x)
      | (with_reducible first | apply keeps_landStores | apply keeps_putCore)
      | (intro _)
      | split)

theorem keeps_stopHandoffs {z : State} (s : State) (c : CoreId)  (h : Keeps z s) : Keeps z (stopHandoffs s c) := by
  unfold stopHandoffs
  repeat' (first
      | (with_reducible assumption)
      | (with_reducible first | apply keeps_mxeStreamStop | apply keeps_ite | apply keeps_ite_fst)
      | (with_reducible refine keeps_foldl _ _ _ ?_ ?_; (on_goal 1 => (intro _ _ _)))
      | (with_reducible refine keeps_foldl_fst _ _ _ ?_ ?_; (on_goal 1 => (intro _ _ _)))
      | (intro _)
      | split)

theorem keeps_finishLoad {z : State} (s : State) (c : CoreId) (e : EngId) (t : Nat)  (h : Keeps z s) : Keeps z (finishLoad s c e t) := by
  unfold finishLoad
  repeat' (first
      | (with_reducible assumption)
      | ((try lift_lets -underBinder); intro x; refine (fun hx : Keeps z x => ?_) (?_ : Keeps z x); (on_goal 1 => clear_value x); (on_goal 2 => simp only [x]))
      | ((try lift_lets -underBinder); intro x; refine (fun hx : Keeps z x.1 => ?_) (?_ : Keeps z x.1); (on_goal 1 => clear_value x); (on_goal 2 => simp only [x]))
      | ((try lift_lets -underBinder); intro x; clear_value x)
      | (with_reducible first | apply keeps_putEng | apply keeps_logEng | apply keeps_ite | apply keeps_ite_fst)
      | (with_reducible refine keeps_foldl _ _ _ ?_ ?_; (on_goal 1 => (intro _ _ _)))
      | (with_reducible refine keeps_foldl_fst _ _ _ ?_ ?_; (on_goal 1 => (intro _ _ _)))
      | (intro _)
      | split)

theorem keeps_dropX {z : State} (s : State) (c : CoreId) (n : Nat)  (h : Keeps z s) : Keeps z (dropX s c n) := by
  unfold dropX
  repeat' (first
      | (with_reducible assumption)
      | ((try lift_lets -underBinder); intro x; refine (fun hx : Keeps z x => ?_) (?_ : Keeps z x); (on_goal 1 => clear_value x); (on_goal 2 => simp only [x]))
      | ((try lift_lets -underBinder); intro x; refine (fun hx : Keeps z x.1 => ?_) (?_ : Keeps z x.1); (on_goal 1 => clear_value x); (on_goal 2 => simp only [x]))
      | ((try lift_lets -underBinder); intro x; clear_value x)
      | (with_reducible first | apply keeps_putCore)
      | (intro _)
      | split)

theorem keeps_slotPart {z : State} (s : State) (c : CoreId) (i : Inst) (slot : Nat) (j : Nat) (n : Nat)  (h : Keeps z s) : Keeps z (slotPart s c i slot j n) := by
  unfold slotPart
  repeat' (first
      | (with_reducible assumption)
      | ((try lift_lets -underBinder); intro x; refine (fun hx : Keeps z x => ?_) (?_ : Keeps z x); (on_goal 1 => clear_value x); (on_goal 2 => simp only [x]))
      | ((try lift_lets -underBinder); intro x; refine (fun hx : Keeps z x.1 => ?_) (?_ : Keeps z x.1); (on_goal 1 => clear_value x); (on_goal 2 => simp only [x]))
      | ((try lift_lets -underBinder); intro x; clear_value x)
      | (with_reducible first | apply keeps_putCore)
      | (intro _)
      | split)

theorem keeps_partTload {z : State} (s : State) (c : CoreId) (i : Inst) (slot : Nat) (x : Nat)  (h : Keeps z s) : Keeps z (partTload s c i slot x) := by
  unfold partTload
  repeat' (first
      | (with_reducible assumption)
      | ((try lift_lets -underBinder); intro x; refine (fun hx : Keeps z x => ?_) (?_ : Keeps z x); (on_goal 1 => clear_value x); (on_goal 2 => simp only [x]))
      | ((try lift_lets -underBinder); intro x; refine (fun hx : Keeps z x.1 => ?_) (?_ : Keeps z x.1); (on_goal 1 => clear_value x); (on_goal 2 => simp only [x]))
      | ((try lift_lets -underBinder); intro x; clear_value x)
      | (with_reducible first | apply keeps_slotPart | apply keeps_ite | apply keeps_ite_fst)
      | (intro _)
      | split)

theorem keeps_cancelInst {z : State} (s : State) (c : CoreId) (i : Inst) (why : Nat)  (h : Keeps z s) : Keeps z (cancelInst s c i why) := by
  unfold cancelInst
  repeat' (first
      | (with_reducible assumption)
      | ((try lift_lets -underBinder); intro x; refine (fun hx : Keeps z x => ?_) (?_ : Keeps z x); (on_goal 1 => clear_value x); (on_goal 2 => simp only [x]))
      | ((try lift_lets -underBinder); intro x; refine (fun hx : Keeps z x.1 => ?_) (?_ : Keeps z x.1); (on_goal 1 => clear_value x); (on_goal 2 => simp only [x]))
      | ((try lift_lets -underBinder); intro x; clear_value x)
      | (with_reducible first | apply keeps_finishLoad | apply keeps_dropX | apply keeps_putEng | apply keeps_partTload | apply keeps_abortMle | apply keeps_abortInst | apply keeps_ite | apply keeps_ite_fst)
      | (intro _)
      | split)

theorem keeps_beginAbort {z : State} (s : State) (c : CoreId) (e : EngId) (cause : Status) (cls : Nat) (at_ : Option (Bool × BitVec 11))  (h : Keeps z s) : Keeps z (beginAbort s c e cause cls at_) := by
  unfold beginAbort
  repeat' (first
      | (with_reducible assumption)
      | ((try lift_lets -underBinder); intro x; refine (fun hx : Keeps z x => ?_) (?_ : Keeps z x); (on_goal 1 => clear_value x); (on_goal 2 => simp only [x]))
      | ((try lift_lets -underBinder); intro x; refine (fun hx : Keeps z x.1 => ?_) (?_ : Keeps z x.1); (on_goal 1 => clear_value x); (on_goal 2 => simp only [x]))
      | ((try lift_lets -underBinder); intro x; clear_value x)
      | (with_reducible first | apply keeps_keepAccepted | apply keeps_putEng | apply keeps_putCore | apply keeps_cutFlight | apply keeps_stopTasks | apply keeps_stopHandoffs | apply keeps_cancelInst | apply keeps_mxeStop | apply keeps_ite | apply keeps_ite_fst)
      | (with_reducible refine keeps_foldl _ _ _ ?_ ?_; (on_goal 1 => (intro _ _ _)))
      | (with_reducible refine keeps_foldl_fst _ _ _ ?_ ?_; (on_goal 1 => (intro _ _ _)))
      | (intro _)
      | split
      | (apply keeps_mk <;> first
          | assumption | with_reducible exact le_rfl | with_reducible exact List.suffix_refl _ | with_reducible exact fun h => h | exact fun _ => tasc_nil
          | with_reducible exact fun h => ⟨h, le_rfl⟩ | exact fun h => ⟨⟨h.1, h.2.1, h.2.2⟩, le_rfl⟩ | exact fun h => twf_tset h
          | exact fun h => twf_twrite h | exact fun h => twf_tclear h | exact fun h => tasc_tset h | exact fun h => tasc_tclear h
          | exact Nat.le_succ _ | exact le_max_left _ _ | exact List.suffix_cons _ _
          | exact fun h => twf_foldl _ (fun _ _ h => twf_tset h) _ _ h | skip)
      | (exact twf_foldl _ (fun _ _ h => twf_tset h) _ _ (by assumption)))

theorem keeps_abortEngine {z : State} (s : State) (c : CoreId) (e : EngId) (cause : Status) (cls : Nat) (at_ : Option (Bool × BitVec 11))  (h : Keeps z s) : Keeps z (abortEngine s c e cause cls at_) := by
  unfold abortEngine
  repeat' (first
      | (with_reducible assumption)
      | (with_reducible first | apply keeps_settleCore | apply keeps_beginAbort | apply keeps_ite | apply keeps_ite_fst)
      | (intro _)
      | split)

theorem keeps_faultEngine {z : State} (s : State) (c : CoreId) (e : EngId) (cause : Status) (at_ : Option (Bool × BitVec 11))  (h : Keeps z s) : Keeps z (faultEngine s c e cause at_) := by
  unfold faultEngine
  repeat' (first
      | (with_reducible assumption)
      | (with_reducible first | apply keeps_abortEngine)
      | (intro _)
      | split)

theorem keeps_atHead {z : State} (s : State) (c : CoreId) (e : EngId) (o : Nat) (go : State → Nat → W128 → LoopDesc → State) (hgo : ∀ t x0 x1 x2, Keeps z t → Keeps z (go t x0 x1 x2)) (h : Keeps z s) : Keeps z (atHead s c e o go) := by
  unfold atHead
  repeat' (first
      | (with_reducible assumption)
      | ((try lift_lets -underBinder); intro x; refine (fun hx : Keeps z x => ?_) (?_ : Keeps z x); (on_goal 1 => clear_value x); (on_goal 2 => simp only [x]))
      | ((try lift_lets -underBinder); intro x; refine (fun hx : Keeps z x.1 => ?_) (?_ : Keeps z x.1); (on_goal 1 => clear_value x); (on_goal 2 => simp only [x]))
      | ((try lift_lets -underBinder); intro x; clear_value x)
      | (with_reducible first | apply keeps_advance | apply keeps_putEng | apply keeps_skipHead | apply keeps_faultEngine | apply hgo | apply keeps_ite | apply keeps_ite_fst)
      | (intro _)
      | split)

theorem keeps_withdrawWait {z : State} (s : State) (c : CoreId) (e : EngId)  (h : Keeps z s) : Keeps z (withdrawWait s c e) := by
  unfold withdrawWait
  repeat' (first
      | (with_reducible assumption)
      | ((try lift_lets -underBinder); intro x; refine (fun hx : Keeps z x => ?_) (?_ : Keeps z x); (on_goal 1 => clear_value x); (on_goal 2 => simp only [x]))
      | ((try lift_lets -underBinder); intro x; refine (fun hx : Keeps z x.1 => ?_) (?_ : Keeps z x.1); (on_goal 1 => clear_value x); (on_goal 2 => simp only [x]))
      | ((try lift_lets -underBinder); intro x; clear_value x)
      | (with_reducible first | apply keeps_putCore | apply keeps_putEng | apply keeps_ite | apply keeps_ite_fst)
      | (intro _)
      | split
      | (apply keeps_mk <;> first
          | assumption | with_reducible exact le_rfl | with_reducible exact List.suffix_refl _ | with_reducible exact fun h => h | exact fun _ => tasc_nil
          | with_reducible exact fun h => ⟨h, le_rfl⟩ | exact fun h => ⟨⟨h.1, h.2.1, h.2.2⟩, le_rfl⟩ | exact fun h => twf_tset h
          | exact fun h => twf_twrite h | exact fun h => twf_tclear h | exact fun h => tasc_tset h | exact fun h => tasc_tclear h
          | exact Nat.le_succ _ | exact le_max_left _ _ | exact List.suffix_cons _ _
          | exact fun h => twf_foldl _ (fun _ _ h => twf_tset h) _ _ h | skip)
      | (exact twf_foldl _ (fun _ _ h => twf_tset h) _ _ (by assumption)))

theorem keeps_drainEngine {z : State} (s : State) (c : CoreId) (e : EngId)  (h : Keeps z s) : Keeps z (drainEngine s c e) := by
  unfold drainEngine
  repeat' (first
      | (with_reducible assumption)
      | ((try lift_lets -underBinder); intro x; refine (fun hx : Keeps z x => ?_) (?_ : Keeps z x); (on_goal 1 => clear_value x); (on_goal 2 => simp only [x]))
      | ((try lift_lets -underBinder); intro x; refine (fun hx : Keeps z x.1 => ?_) (?_ : Keeps z x.1); (on_goal 1 => clear_value x); (on_goal 2 => simp only [x]))
      | ((try lift_lets -underBinder); intro x; clear_value x)
      | (with_reducible first | apply keeps_withdrawWait | apply keeps_settleCore | apply keeps_putEng | apply keeps_ite | apply keeps_ite_fst)
      | (intro _)
      | split)

theorem keeps_dispatchInst {z : State} (c : CoreId) (e : EngId) (s : State) (t : Nat) (w : W128) (d : LoopDesc)  (h : Keeps z s) : Keeps z (dispatchInst c e s t w d) := by
  unfold dispatchInst
  repeat' (first
      | (with_reducible assumption)
      | ((try lift_lets -underBinder); intro x; refine (fun hx : Keeps z x => ?_) (?_ : Keeps z x); (on_goal 1 => clear_value x); (on_goal 2 => simp only [x]))
      | ((try lift_lets -underBinder); intro x; refine (fun hx : Keeps z x.1 => ?_) (?_ : Keeps z x.1); (on_goal 1 => clear_value x); (on_goal 2 => simp only [x]))
      | ((try lift_lets -underBinder); intro x; clear_value x)
      | (with_reducible first | apply keeps_putEng | apply keeps_rbump | apply keeps_lateReads | apply keeps_settleCore | apply keeps_putCore | apply keeps_ite | apply keeps_ite_fst)
      | (intro _)
      | split)

theorem keeps_runOp {z : State} (s : State) (c : CoreId) (e : EngId) (o : Nat)  (h : Keeps z s) : Keeps z (runOp s c e o) := by
  unfold runOp
  repeat' (first
      | (with_reducible assumption)
      | (with_reducible apply keeps_atHead; (on_goal 1 => (intro _ _ _ _ _)))
      | (with_reducible first | apply keeps_dispatchInst)
      | (intro _)
      | split)

end Sys2Proof.Machine
end

