-- ==== Sys2Proof/Laws/Keeps/Sync.lean ====
section
/-!
SUPPORT. What the functions of Machine/Sync.lean keep (Safety.Keeps).
-/

set_option linter.unusedTactic false
set_option linter.unreachableTactic false

namespace Sys2Proof.Machine

theorem keeps_dispatchFe {z : State} (c : CoreId) (e : EngId) (s : State) (t : Nat) (w : W128) (_d : LoopDesc)  (h : Keeps z s) : Keeps z (dispatchFe c e s t w _d) := by
  unfold dispatchFe
  repeat' (first
      | (with_reducible assumption)
      | ((try lift_lets -underBinder); intro x; refine (fun hx : Keeps z x => ?_) (?_ : Keeps z x); (on_goal 1 => clear_value x); (on_goal 2 => simp only [x]))
      | ((try lift_lets -underBinder); intro x; refine (fun hx : Keeps z x.1 => ?_) (?_ : Keeps z x.1); (on_goal 1 => clear_value x); (on_goal 2 => simp only [x]))
      | ((try lift_lets -underBinder); intro x; clear_value x)
      | (with_reducible first | apply keeps_lateReads | apply keeps_settleCore | apply keeps_putEng | apply keeps_ite | apply keeps_ite_fst)
      | (intro _)
      | split
      | (apply keeps_mk <;> first
          | assumption | with_reducible exact le_rfl | with_reducible exact List.suffix_refl _ | with_reducible exact fun h => h | exact fun _ => tasc_nil
          | with_reducible exact fun h => ⟨h, le_rfl⟩ | exact fun h => ⟨⟨h.1, h.2.1, h.2.2⟩, le_rfl⟩ | exact fun h => twf_tset h
          | exact fun h => twf_twrite h | exact fun h => twf_tclear h | exact fun h => tasc_tset h | exact fun h => tasc_tclear h
          | exact Nat.le_succ _ | exact le_max_left _ _ | exact List.suffix_cons _ _
          | exact fun h => twf_foldl _ (fun _ _ h => twf_tset h) _ _ h | skip)
      | (exact twf_foldl _ (fun _ _ h => twf_tset h) _ _ (by assumption)))

theorem keeps_hostFound {z : State} (s : State) (c : CoreId) (b : Bool)  (h : Keeps z s) : Keeps z (hostFound s c b) := by
  unfold hostFound
  repeat' (first
      | (with_reducible assumption)
      | (with_reducible first | apply keeps_rsetf | apply keeps_ite | apply keeps_ite_fst)
      | (intro _)
      | split)

theorem keeps_noteFound {z : State} (s : State) (x : FeCell) (src : FeSrc)  (h : Keeps z s) : Keeps z (noteFound s x src) := by
  unfold noteFound
  repeat' (first
      | (with_reducible assumption)
      | (with_reducible first | apply keeps_hostFound)
      | (intro _)
      | split)

theorem keeps_dropFe {z : State} (s : State) (id : Nat)  (h : Keeps z s) : Keeps z (dropFe s id) := by
  unfold dropFe
  repeat' (first
      | (with_reducible assumption)
      | (intro _)
      | split
      | (apply keeps_mk <;> first
          | assumption | with_reducible exact le_rfl | with_reducible exact List.suffix_refl _ | with_reducible exact fun h => h | exact fun _ => tasc_nil
          | with_reducible exact fun h => ⟨h, le_rfl⟩ | exact fun h => ⟨⟨h.1, h.2.1, h.2.2⟩, le_rfl⟩ | exact fun h => twf_tset h
          | exact fun h => twf_twrite h | exact fun h => twf_tclear h | exact fun h => tasc_tset h | exact fun h => tasc_tclear h
          | exact Nat.le_succ _ | exact le_max_left _ _ | exact List.suffix_cons _ _
          | exact fun h => twf_foldl _ (fun _ _ h => twf_tset h) _ _ h | skip)
      | (exact twf_foldl _ (fun _ _ h => twf_tset h) _ _ (by assumption)))

theorem keeps_logNoWord {z : State} (s : State) (src : FeSrc) (a : Nat) (why : Status)  (h : Keeps z s) : Keeps z (logNoWord s src a why) := by
  unfold logNoWord
  repeat' (first
      | (with_reducible assumption)
      | (with_reducible first | apply keeps_logEv)
      | (intro _)
      | split)

theorem keeps_settleSrc {z : State} (s : State) (src : FeSrc)  (h : Keeps z s) : Keeps z (settleSrc s src) := by
  unfold settleSrc
  repeat' (first
      | (with_reducible assumption)
      | (with_reducible first | apply keeps_settleCore)
      | (intro _)
      | split)

theorem keeps_feSet {z : State} (s : State) (x : FeCell) (b : Bool)  (h : Keeps z s) : Keeps z (feSet s x b) := by
  unfold feSet
  repeat' (first
      | (with_reducible assumption)
      | (intro _)
      | split
      | (apply keeps_mk <;> first
          | assumption | with_reducible exact le_rfl | with_reducible exact List.suffix_refl _ | with_reducible exact fun h => h | exact fun _ => tasc_nil
          | with_reducible exact fun h => ⟨h, le_rfl⟩ | exact fun h => ⟨⟨h.1, h.2.1, h.2.2⟩, le_rfl⟩ | exact fun h => twf_tset h
          | exact fun h => twf_twrite h | exact fun h => twf_tclear h | exact fun h => tasc_tset h | exact fun h => tasc_tclear h
          | exact Nat.le_succ _ | exact le_max_left _ _ | exact List.suffix_cons _ _
          | exact fun h => twf_foldl _ (fun _ _ h => twf_tset h) _ _ h | skip)
      | (exact twf_foldl _ (fun _ _ h => twf_tset h) _ _ (by assumption)))

theorem keeps_logOverflow {z : State} (s : State) (src : FeSrc) (a : Nat)  (h : Keeps z s) : Keeps z (logOverflow s src a) := by
  unfold logOverflow
  repeat' (first
      | (with_reducible assumption)
      | ((try lift_lets -underBinder); intro x; refine (fun hx : Keeps z x => ?_) (?_ : Keeps z x); (on_goal 1 => clear_value x); (on_goal 2 => simp only [x]))
      | ((try lift_lets -underBinder); intro x; refine (fun hx : Keeps z x.1 => ?_) (?_ : Keeps z x.1); (on_goal 1 => clear_value x); (on_goal 2 => simp only [x]))
      | ((try lift_lets -underBinder); intro x; clear_value x)
      | (with_reducible first | apply keeps_logEv)
      | (intro _)
      | split)

theorem keeps_feOverflow {z : State} (s : State) (x : FeCell) (src : FeSrc) (a : Nat)  (h : Keeps z s) : Keeps z (feOverflow s x src a) := by
  unfold feOverflow
  repeat' (first
      | (with_reducible assumption)
      | (with_reducible first | apply keeps_logOverflow | apply keeps_rsetf | apply keeps_rbump)
      | (intro _)
      | split)

theorem keeps_feComplete {z : State} (s : State) (c : CoreId) (e : EngId) (op : FeOp) (v : W64)  (h : Keeps z s) : Keeps z (feComplete s c e op v) := by
  unfold feComplete
  repeat' (first
      | (with_reducible assumption)
      | ((try lift_lets -underBinder); intro x; refine (fun hx : Keeps z x => ?_) (?_ : Keeps z x); (on_goal 1 => clear_value x); (on_goal 2 => simp only [x]))
      | ((try lift_lets -underBinder); intro x; refine (fun hx : Keeps z x.1 => ?_) (?_ : Keeps z x.1); (on_goal 1 => clear_value x); (on_goal 2 => simp only [x]))
      | ((try lift_lets -underBinder); intro x; clear_value x)
      | (with_reducible first | apply keeps_settleCore | apply keeps_putCore | apply keeps_ite | apply keeps_ite_fst)
      | (intro _)
      | split
      | (apply keeps_mk <;> first
          | assumption | with_reducible exact le_rfl | with_reducible exact List.suffix_refl _ | with_reducible exact fun h => h | exact fun _ => tasc_nil
          | with_reducible exact fun h => ⟨h, le_rfl⟩ | exact fun h => ⟨⟨h.1, h.2.1, h.2.2⟩, le_rfl⟩ | exact fun h => twf_tset h
          | exact fun h => twf_twrite h | exact fun h => twf_tclear h | exact fun h => tasc_tset h | exact fun h => tasc_tclear h
          | exact Nat.le_succ _ | exact le_max_left _ _ | exact List.suffix_cons _ _
          | exact fun h => twf_foldl _ (fun _ _ h => twf_tset h) _ _ h | skip)
      | (exact twf_foldl _ (fun _ _ h => twf_tset h) _ _ (by assumption)))

theorem keeps_feSatisfy {z : State} (s : State) (x : FeCell) (op : FeOp)  (h : Keeps z s) : Keeps z (feSatisfy s x op) := by
  unfold feSatisfy
  repeat' (first
      | (with_reducible assumption)
      | ((try lift_lets -underBinder); intro x; refine (fun hx : Keeps z x => ?_) (?_ : Keeps z x); (on_goal 1 => clear_value x); (on_goal 2 => simp only [x]))
      | ((try lift_lets -underBinder); intro x; refine (fun hx : Keeps z x.1 => ?_) (?_ : Keeps z x.1); (on_goal 1 => clear_value x); (on_goal 2 => simp only [x]))
      | ((try lift_lets -underBinder); intro x; clear_value x)
      | (with_reducible first | apply keeps_touchUnit | apply keeps_feSet | apply keeps_faultEngine | apply keeps_feComplete | apply keeps_ite | apply keeps_ite_fst)
      | (intro _)
      | split
      | (apply keeps_mk <;> first
          | assumption | with_reducible exact le_rfl | with_reducible exact List.suffix_refl _ | with_reducible exact fun h => h | exact fun _ => tasc_nil
          | with_reducible exact fun h => ⟨h, le_rfl⟩ | exact fun h => ⟨⟨h.1, h.2.1, h.2.2⟩, le_rfl⟩ | exact fun h => twf_tset h
          | exact fun h => twf_twrite h | exact fun h => twf_tclear h | exact fun h => tasc_tset h | exact fun h => tasc_tclear h
          | exact Nat.le_succ _ | exact le_max_left _ _ | exact List.suffix_cons _ _
          | exact fun h => twf_foldl _ (fun _ _ h => twf_tset h) _ _ h | skip)
      | (exact twf_foldl _ (fun _ _ h => twf_tset h) _ _ (by assumption)))

theorem keeps_feServe {z : State} (s : State) (x : FeCell)  (h : Keeps z s) : Keeps z (feServe s x) := by
  unfold feServe
  repeat' (first
      | (with_reducible assumption)
      | ((try lift_lets -underBinder); intro x; refine (fun hx : Keeps z x => ?_) (?_ : Keeps z x); (on_goal 1 => clear_value x); (on_goal 2 => simp only [x]))
      | ((try lift_lets -underBinder); intro x; refine (fun hx : Keeps z x.1 => ?_) (?_ : Keeps z x.1); (on_goal 1 => clear_value x); (on_goal 2 => simp only [x]))
      | ((try lift_lets -underBinder); intro x; clear_value x)
      | (with_reducible first | apply keeps_feSatisfy | apply keeps_ite | apply keeps_ite_fst)
      | (with_reducible refine keeps_foldl _ _ _ ?_ ?_; (on_goal 1 => (intro _ _ _)))
      | (with_reducible refine keeps_foldl_fst _ _ _ ?_ ?_; (on_goal 1 => (intro _ _ _)))
      | (intro _)
      | split)

theorem keeps_feFill {z : State} (s : State) (src : FeSrc) (a : Nat) (v : W64)  (h : Keeps z s) : Keeps z (feFill s src a v) := by
  unfold feFill
  repeat' (first
      | (with_reducible assumption)
      | ((try lift_lets -underBinder); intro x; refine (fun hx : Keeps z x => ?_) (?_ : Keeps z x); (on_goal 1 => clear_value x); (on_goal 2 => simp only [x]))
      | ((try lift_lets -underBinder); intro x; refine (fun hx : Keeps z x.1 => ?_) (?_ : Keeps z x.1); (on_goal 1 => clear_value x); (on_goal 2 => simp only [x]))
      | ((try lift_lets -underBinder); intro x; clear_value x)
      | (with_reducible first | apply keeps_feOverflow | apply keeps_writeBytes | apply keeps_feServe | apply keeps_feSet | apply keeps_ite | apply keeps_ite_fst)
      | (intro _)
      | split)

theorem keeps_feApply {z : State} (s : State) (op : FeOp)  (h : Keeps z s) : Keeps z (feApply s op) := by
  unfold feApply
  repeat' (first
      | (with_reducible assumption)
      | ((try lift_lets -underBinder); intro x; refine (fun hx : Keeps z x => ?_) (?_ : Keeps z x); (on_goal 1 => clear_value x); (on_goal 2 => simp only [x]))
      | ((try lift_lets -underBinder); intro x; refine (fun hx : Keeps z x.1 => ?_) (?_ : Keeps z x.1); (on_goal 1 => clear_value x); (on_goal 2 => simp only [x]))
      | ((try lift_lets -underBinder); intro x; clear_value x)
      | (with_reducible first | apply keeps_noteFound | apply keeps_faultEngine | apply keeps_dropFe | apply keeps_logNoWord | apply keeps_settleSrc | apply keeps_feSet | apply keeps_feFill | apply keeps_feSatisfy | apply keeps_ite | apply keeps_ite_fst)
      | (intro _)
      | split
      | (apply keeps_mk <;> first
          | assumption | with_reducible exact le_rfl | with_reducible exact List.suffix_refl _ | with_reducible exact fun h => h | exact fun _ => tasc_nil
          | with_reducible exact fun h => ⟨h, le_rfl⟩ | exact fun h => ⟨⟨h.1, h.2.1, h.2.2⟩, le_rfl⟩ | exact fun h => twf_tset h
          | exact fun h => twf_twrite h | exact fun h => twf_tclear h | exact fun h => tasc_tset h | exact fun h => tasc_tclear h
          | exact Nat.le_succ _ | exact le_max_left _ _ | exact List.suffix_cons _ _
          | exact fun h => twf_foldl _ (fun _ _ h => twf_tset h) _ _ h | skip)
      | (exact twf_foldl _ (fun _ _ h => twf_tset h) _ _ (by assumption)))

theorem keeps_fePush {z : State} (s : State) (y : FeOp)  (h : Keeps z s) : Keeps z (fePush s y) := by
  unfold fePush
  repeat' (first
      | (with_reducible assumption)
      | (with_reducible first | apply keeps_ite | apply keeps_ite_fst)
      | (intro _)
      | split
      | (apply keeps_mk <;> first
          | assumption | with_reducible exact le_rfl | with_reducible exact List.suffix_refl _ | with_reducible exact fun h => h | exact fun _ => tasc_nil
          | with_reducible exact fun h => ⟨h, le_rfl⟩ | exact fun h => ⟨⟨h.1, h.2.1, h.2.2⟩, le_rfl⟩ | exact fun h => twf_tset h
          | exact fun h => twf_twrite h | exact fun h => twf_tclear h | exact fun h => tasc_tset h | exact fun h => tasc_tclear h
          | exact Nat.le_succ _ | exact le_max_left _ _ | exact List.suffix_cons _ _
          | exact fun h => twf_foldl _ (fun _ _ h => twf_tset h) _ _ h | skip)
      | (exact twf_foldl _ (fun _ _ h => twf_tset h) _ _ (by assumption)))

theorem keeps_feTogether {z : State} (s : State) (a : Nat) (xs : List FeOp)  (h : Keeps z s) : Keeps z (feTogether s a xs) := by
  unfold feTogether
  repeat' (first
      | (with_reducible assumption)
      | ((try lift_lets -underBinder); intro x; refine (fun hx : Keeps z x => ?_) (?_ : Keeps z x); (on_goal 1 => clear_value x); (on_goal 2 => simp only [x]))
      | ((try lift_lets -underBinder); intro x; refine (fun hx : Keeps z x.1 => ?_) (?_ : Keeps z x.1); (on_goal 1 => clear_value x); (on_goal 2 => simp only [x]))
      | ((try lift_lets -underBinder); intro x; clear_value x)
      | (with_reducible first | apply keeps_feApply | apply keeps_fePush)
      | (with_reducible refine keeps_foldl _ _ _ ?_ ?_; (on_goal 1 => (intro _ _ _)))
      | (with_reducible refine keeps_foldl_fst _ _ _ ?_ ?_; (on_goal 1 => (intro _ _ _)))
      | (intro _)
      | split)

theorem keeps_feReach {z : State} (s : State) (a : Nat) (loc : Bool) (rem : List Nat)  (h : Keeps z s) : Keeps z (feReach s a loc rem) := by
  unfold feReach
  repeat' (first
      | (with_reducible assumption)
      | ((try lift_lets -underBinder); intro x; refine (fun hx : Keeps z x => ?_) (?_ : Keeps z x); (on_goal 1 => clear_value x); (on_goal 2 => simp only [x]))
      | ((try lift_lets -underBinder); intro x; refine (fun hx : Keeps z x.1 => ?_) (?_ : Keeps z x.1); (on_goal 1 => clear_value x); (on_goal 2 => simp only [x]))
      | ((try lift_lets -underBinder); intro x; clear_value x)
      | (with_reducible first | apply keeps_feTogether | apply keeps_advance)
      | (with_reducible refine keeps_foldl _ _ _ ?_ ?_; (on_goal 1 => (intro _ _ _)))
      | (with_reducible refine keeps_foldl_fst _ _ _ ?_ ?_; (on_goal 1 => (intro _ _ _)))
      | (intro _)
      | split)

theorem keeps_feReturn {z : State} (s : State) (c : CoreId) (e : EngId)  (h : Keeps z s) : Keeps z (feReturn s c e) := by
  unfold feReturn
  repeat' (first
      | (with_reducible assumption)
      | (with_reducible first | apply keeps_faultEngine | apply keeps_feComplete | apply keeps_ite | apply keeps_ite_fst)
      | (intro _)
      | split)

theorem keeps_dispatchSem {z : State} (kind : Nat) (c : CoreId) (e : EngId) (s : State) (t : Nat) (w : W128) (_d : LoopDesc)  (h : Keeps z s) : Keeps z (dispatchSem kind c e s t w _d) := by
  unfold dispatchSem
  repeat' (first
      | (with_reducible assumption)
      | ((try lift_lets -underBinder); intro x; refine (fun hx : Keeps z x => ?_) (?_ : Keeps z x); (on_goal 1 => clear_value x); (on_goal 2 => simp only [x]))
      | ((try lift_lets -underBinder); intro x; refine (fun hx : Keeps z x.1 => ?_) (?_ : Keeps z x.1); (on_goal 1 => clear_value x); (on_goal 2 => simp only [x]))
      | ((try lift_lets -underBinder); intro x; clear_value x)
      | (with_reducible first | apply keeps_settleCore | apply keeps_putCore | apply keeps_ite | apply keeps_ite_fst)
      | (intro _)
      | split
      | (apply keeps_mk <;> first
          | assumption | with_reducible exact le_rfl | with_reducible exact List.suffix_refl _ | with_reducible exact fun h => h | exact fun _ => tasc_nil
          | with_reducible exact fun h => ⟨h, le_rfl⟩ | exact fun h => ⟨⟨h.1, h.2.1, h.2.2⟩, le_rfl⟩ | exact fun h => twf_tset h
          | exact fun h => twf_twrite h | exact fun h => twf_tclear h | exact fun h => tasc_tset h | exact fun h => tasc_tclear h
          | exact Nat.le_succ _ | exact le_max_left _ _ | exact List.suffix_cons _ _
          | exact fun h => twf_foldl _ (fun _ _ h => twf_tset h) _ _ h | skip)
      | (exact twf_foldl _ (fun _ _ h => twf_tset h) _ _ (by assumption)))

theorem keeps_semPut {z : State} (s : State) (c : CoreId) (n : Nat) (v : Nat)  (h : Keeps z s) : Keeps z (semPut s c n v) := by
  unfold semPut
  repeat' (first
      | (with_reducible assumption)
      | ((try lift_lets -underBinder); intro x; refine (fun hx : Keeps z x => ?_) (?_ : Keeps z x); (on_goal 1 => clear_value x); (on_goal 2 => simp only [x]))
      | ((try lift_lets -underBinder); intro x; refine (fun hx : Keeps z x.1 => ?_) (?_ : Keeps z x.1); (on_goal 1 => clear_value x); (on_goal 2 => simp only [x]))
      | ((try lift_lets -underBinder); intro x; clear_value x)
      | (with_reducible first | apply keeps_putCore)
      | (intro _)
      | split)

theorem keeps_semFlag {z : State} (s : State) (c : CoreId) (op : SemOp) (up : Bool)  (h : Keeps z s) : Keeps z (semFlag s c op up) := by
  unfold semFlag
  repeat' (first
      | (with_reducible assumption)
      | ((try lift_lets -underBinder); intro x; refine (fun hx : Keeps z x => ?_) (?_ : Keeps z x); (on_goal 1 => clear_value x); (on_goal 2 => simp only [x]))
      | ((try lift_lets -underBinder); intro x; refine (fun hx : Keeps z x.1 => ?_) (?_ : Keeps z x.1); (on_goal 1 => clear_value x); (on_goal 2 => simp only [x]))
      | ((try lift_lets -underBinder); intro x; clear_value x)
      | (with_reducible first | apply keeps_rsetf | apply keeps_rbump | apply keeps_logEng | apply keeps_ite | apply keeps_ite_fst)
      | (intro _)
      | split)

theorem keeps_semApply {z : State} (s : State) (c : CoreId) (op : SemOp)  (h : Keeps z s) : Keeps z (semApply s c op) := by
  unfold semApply
  repeat' (first
      | (with_reducible assumption)
      | ((try lift_lets -underBinder); intro x; refine (fun hx : Keeps z x => ?_) (?_ : Keeps z x); (on_goal 1 => clear_value x); (on_goal 2 => simp only [x]))
      | ((try lift_lets -underBinder); intro x; refine (fun hx : Keeps z x.1 => ?_) (?_ : Keeps z x.1); (on_goal 1 => clear_value x); (on_goal 2 => simp only [x]))
      | ((try lift_lets -underBinder); intro x; clear_value x)
      | (with_reducible first | apply keeps_semPut | apply keeps_semFlag | apply keeps_ite | apply keeps_ite_fst)
      | (intro _)
      | split)

theorem keeps_semComplete {z : State} (s : State) (c : CoreId) (op : SemOp)  (h : Keeps z s) : Keeps z (semComplete s c op) := by
  unfold semComplete
  repeat' (first
      | (with_reducible assumption)
      | ((try lift_lets -underBinder); intro x; refine (fun hx : Keeps z x => ?_) (?_ : Keeps z x); (on_goal 1 => clear_value x); (on_goal 2 => simp only [x]))
      | ((try lift_lets -underBinder); intro x; refine (fun hx : Keeps z x.1 => ?_) (?_ : Keeps z x.1); (on_goal 1 => clear_value x); (on_goal 2 => simp only [x]))
      | ((try lift_lets -underBinder); intro x; clear_value x)
      | (with_reducible first | apply keeps_settleCore | apply keeps_putCore)
      | (intro _)
      | split)

theorem keeps_semServe {z : State} (s : State) (c : CoreId) (n : Nat)  (h : Keeps z s) : Keeps z (semServe s c n) := by
  unfold semServe
  repeat' (first
      | (with_reducible assumption)
      | (with_reducible first | apply keeps_semComplete)
      | (with_reducible refine keeps_foldl _ _ _ ?_ ?_; (on_goal 1 => (intro _ _ _)))
      | (with_reducible refine keeps_foldl_fst _ _ _ ?_ ?_; (on_goal 1 => (intro _ _ _)))
      | (intro _)
      | split)

theorem keeps_semReach {z : State} (s : State) (c : CoreId) (n : Nat)  (h : Keeps z s) : Keeps z (semReach s c n) := by
  unfold semReach
  repeat' (first
      | (with_reducible assumption)
      | ((try lift_lets -underBinder); intro x; refine (fun hx : Keeps z x => ?_) (?_ : Keeps z x); (on_goal 1 => clear_value x); (on_goal 2 => simp only [x]))
      | ((try lift_lets -underBinder); intro x; refine (fun hx : Keeps z x.1 => ?_) (?_ : Keeps z x.1); (on_goal 1 => clear_value x); (on_goal 2 => simp only [x]))
      | ((try lift_lets -underBinder); intro x; clear_value x)
      | (with_reducible first | apply keeps_advance | apply keeps_semApply | apply keeps_semServe | apply keeps_settleCore | apply keeps_putCore | apply keeps_ite | apply keeps_ite_fst)
      | (with_reducible refine keeps_foldl _ _ _ ?_ ?_; (on_goal 1 => (intro _ _ _)))
      | (with_reducible refine keeps_foldl_fst _ _ _ ?_ ?_; (on_goal 1 => (intro _ _ _)))
      | (intro _)
      | split)

theorem keeps_waitTimeout {z : State} (s : State) (c : CoreId) (e : EngId)  (h : Keeps z s) : Keeps z (waitTimeout s c e) := by
  unfold waitTimeout
  repeat' (first
      | (with_reducible assumption)
      | ((try lift_lets -underBinder); intro x; refine (fun hx : Keeps z x => ?_) (?_ : Keeps z x); (on_goal 1 => clear_value x); (on_goal 2 => simp only [x]))
      | ((try lift_lets -underBinder); intro x; refine (fun hx : Keeps z x.1 => ?_) (?_ : Keeps z x.1); (on_goal 1 => clear_value x); (on_goal 2 => simp only [x]))
      | ((try lift_lets -underBinder); intro x; clear_value x)
      | (with_reducible first | apply keeps_advance | apply keeps_rsetf | apply keeps_rbump | apply keeps_logEng | apply keeps_drainEngine | apply keeps_putEng | apply keeps_ite | apply keeps_ite_fst)
      | (intro _)
      | split)

theorem keeps_hostOp {z : State} (s : State) (c : CoreId) (v : W64) (act : State → State) (hact : ∀ t , Keeps z t → Keeps z (act t )) (h : Keeps z s) : Keeps z (hostOp s c v act) := by
  unfold hostOp
  repeat' (first
      | (with_reducible assumption)
      | ((try lift_lets -underBinder); intro x; refine (fun hx : Keeps z x => ?_) (?_ : Keeps z x); (on_goal 1 => clear_value x); (on_goal 2 => simp only [x]))
      | ((try lift_lets -underBinder); intro x; refine (fun hx : Keeps z x.1 => ?_) (?_ : Keeps z x.1); (on_goal 1 => clear_value x); (on_goal 2 => simp only [x]))
      | ((try lift_lets -underBinder); intro x; clear_value x)
      | (with_reducible first | apply keeps_rsetf | apply keeps_logEv | apply hact | apply keeps_ite | apply keeps_ite_fst)
      | (intro _)
      | split)

theorem keeps_hostReach {z : State} (s : State) (f : FuncId) (kind : FeKind) (a : Nat) (v : W64) (rem : List Nat)  (h : Keeps z s) : Keeps z (hostReach s f kind a v rem) := by
  unfold hostReach
  repeat' (first
      | (with_reducible assumption)
      | ((try lift_lets -underBinder); intro x; refine (fun hx : Keeps z x => ?_) (?_ : Keeps z x); (on_goal 1 => clear_value x); (on_goal 2 => simp only [x]))
      | ((try lift_lets -underBinder); intro x; refine (fun hx : Keeps z x.1 => ?_) (?_ : Keeps z x.1); (on_goal 1 => clear_value x); (on_goal 2 => simp only [x]))
      | ((try lift_lets -underBinder); intro x; clear_value x)
      | (with_reducible first | apply keeps_feApply | apply keeps_feTogether)
      | (with_reducible refine keeps_foldl _ _ _ ?_ ?_; (on_goal 1 => (intro _ _ _)))
      | (with_reducible refine keeps_foldl_fst _ _ _ ?_ ?_; (on_goal 1 => (intro _ _ _)))
      | (intro _)
      | split
      | (apply keeps_mk <;> first
          | assumption | with_reducible exact le_rfl | with_reducible exact List.suffix_refl _ | with_reducible exact fun h => h | exact fun _ => tasc_nil
          | with_reducible exact fun h => ⟨h, le_rfl⟩ | exact fun h => ⟨⟨h.1, h.2.1, h.2.2⟩, le_rfl⟩ | exact fun h => twf_tset h
          | exact fun h => twf_twrite h | exact fun h => twf_tclear h | exact fun h => tasc_tset h | exact fun h => tasc_tclear h
          | exact Nat.le_succ _ | exact le_max_left _ _ | exact List.suffix_cons _ _
          | exact fun h => twf_foldl _ (fun _ _ h => twf_tset h) _ _ h | skip)
      | (exact twf_foldl _ (fun _ _ h => twf_tset h) _ _ (by assumption)))

theorem keeps_hostFill {z : State} (s : State) (f : FuncId) (a : Nat) (v : W64) (rem : List Nat)  (h : Keeps z s) : Keeps z (hostFill s f a v rem) := by
  unfold hostFill
  repeat' (first
      | (with_reducible assumption)
      | (with_reducible first | apply keeps_hostReach | apply keeps_ite | apply keeps_ite_fst)
      | (intro _)
      | split
      | (apply keeps_mk <;> first
          | assumption | with_reducible exact le_rfl | with_reducible exact List.suffix_refl _ | with_reducible exact fun h => h | exact fun _ => tasc_nil
          | with_reducible exact fun h => ⟨h, le_rfl⟩ | exact fun h => ⟨⟨h.1, h.2.1, h.2.2⟩, le_rfl⟩ | exact fun h => twf_tset h
          | exact fun h => twf_twrite h | exact fun h => twf_tclear h | exact fun h => tasc_tset h | exact fun h => tasc_tclear h
          | exact Nat.le_succ _ | exact le_max_left _ _ | exact List.suffix_cons _ _
          | exact fun h => twf_foldl _ (fun _ _ h => twf_tset h) _ _ h | skip)
      | (exact twf_foldl _ (fun _ _ h => twf_tset h) _ _ (by assumption)))

theorem keeps_sendFill {z : State} (s : State) (f : FuncId) (a : Nat) (v : W64)  (h : Keeps z s) : Keeps z (sendFill s f a v) := by
  unfold sendFill
  repeat' (first
      | (with_reducible assumption)
      | (intro _)
      | split
      | (apply keeps_mk <;> first
          | assumption | with_reducible exact le_rfl | with_reducible exact List.suffix_refl _ | with_reducible exact fun h => h | exact fun _ => tasc_nil
          | with_reducible exact fun h => ⟨h, le_rfl⟩ | exact fun h => ⟨⟨h.1, h.2.1, h.2.2⟩, le_rfl⟩ | exact fun h => twf_tset h
          | exact fun h => twf_twrite h | exact fun h => twf_tclear h | exact fun h => tasc_tset h | exact fun h => tasc_tclear h
          | exact Nat.le_succ _ | exact le_max_left _ _ | exact List.suffix_cons _ _
          | exact fun h => twf_foldl _ (fun _ _ h => twf_tset h) _ _ h | skip)
      | (exact twf_foldl _ (fun _ _ h => twf_tset h) _ _ (by assumption)))

theorem keeps_releaseFills {z : State} (s : State)  (h : Keeps z s) : Keeps z (releaseFills s) := by
  unfold releaseFills
  repeat' (first
      | (with_reducible assumption)
      | ((try lift_lets -underBinder); intro x; refine (fun hx : Keeps z x => ?_) (?_ : Keeps z x); (on_goal 1 => clear_value x); (on_goal 2 => simp only [x]))
      | ((try lift_lets -underBinder); intro x; refine (fun hx : Keeps z x.1 => ?_) (?_ : Keeps z x.1); (on_goal 1 => clear_value x); (on_goal 2 => simp only [x]))
      | ((try lift_lets -underBinder); intro x; clear_value x)
      | (with_reducible first | apply keeps_sendFill)
      | (with_reducible refine keeps_foldl _ _ _ ?_ ?_; (on_goal 1 => (intro _ _ _)))
      | (with_reducible refine keeps_foldl_fst _ _ _ ?_ ?_; (on_goal 1 => (intro _ _ _)))
      | (intro _)
      | split
      | (apply keeps_mk <;> first
          | assumption | with_reducible exact le_rfl | with_reducible exact List.suffix_refl _ | with_reducible exact fun h => h | exact fun _ => tasc_nil
          | with_reducible exact fun h => ⟨h, le_rfl⟩ | exact fun h => ⟨⟨h.1, h.2.1, h.2.2⟩, le_rfl⟩ | exact fun h => twf_tset h
          | exact fun h => twf_twrite h | exact fun h => twf_tclear h | exact fun h => tasc_tset h | exact fun h => tasc_tclear h
          | exact Nat.le_succ _ | exact le_max_left _ _ | exact List.suffix_cons _ _
          | exact fun h => twf_foldl _ (fun _ _ h => twf_tset h) _ _ h | skip)
      | (exact twf_foldl _ (fun _ _ h => twf_tset h) _ _ (by assumption)))

end Sys2Proof.Machine
end

