-- ==== Sys2Proof/Laws/Keeps/CommonOps.lean ====
section
/-!
SUPPORT. What the functions of Machine/CommonOps.lean keep (Safety.Keeps).
-/

set_option linter.unusedTactic false
set_option linter.unreachableTactic false

namespace Sys2Proof.Machine

theorem keeps_passHead {z : State} (s : State) (c : CoreId) (e : EngId) (g : Engine)  (h : Keeps z s) : Keeps z (passHead s c e g) := by
  unfold passHead
  repeat' (first
      | (with_reducible assumption)
      | (with_reducible first | apply keeps_settleCore | apply keeps_putEng)
      | (intro _)
      | split)

theorem keeps_execBanksw {z : State} (c : CoreId) (e : EngId) (s : State)  (h : Keeps z s) : KeepsOut z (execBanksw c e s) := by
  unfold execBanksw
  repeat' (first
      | (with_reducible assumption)
      | (with_reducible first | apply keepsOut_next | exact keepsOut_fault)
      | ((try lift_lets -underBinder); intro x; refine (fun hx : Keeps z x => ?_) (?_ : Keeps z x); (on_goal 1 => clear_value x); (on_goal 2 => simp only [x]))
      | ((try lift_lets -underBinder); intro x; refine (fun hx : Keeps z x.1 => ?_) (?_ : Keeps z x.1); (on_goal 1 => clear_value x); (on_goal 2 => simp only [x]))
      | ((try lift_lets -underBinder); intro x; clear_value x)
      | (with_reducible apply keeps_atHead; (on_goal 1 => (intro _ _ _ _ _)))
      | (with_reducible first | apply keeps_passHead | apply keeps_ite | apply keeps_ite_fst)
      | (intro _)
      | split)

theorem keeps_execBankswBankClosed {z : State} (c : CoreId) (e : EngId) (s : State)  (h : Keeps z s) : KeepsOut z (execBankswBankClosed c e s) := by
  unfold execBankswBankClosed
  repeat' (first
      | (with_reducible assumption)
      | (with_reducible first | apply keepsOut_next | exact keepsOut_fault)
      | ((try lift_lets -underBinder); intro x; refine (fun hx : Keeps z x => ?_) (?_ : Keeps z x); (on_goal 1 => clear_value x); (on_goal 2 => simp only [x]))
      | ((try lift_lets -underBinder); intro x; refine (fun hx : Keeps z x.1 => ?_) (?_ : Keeps z x.1); (on_goal 1 => clear_value x); (on_goal 2 => simp only [x]))
      | ((try lift_lets -underBinder); intro x; clear_value x)
      | (with_reducible first | apply keeps_settleCore | apply keeps_putEng | apply keeps_ite | apply keeps_ite_fst)
      | (intro _)
      | split)

theorem keeps_execDrain {z : State} (c : CoreId) (e : EngId) (s : State)  (h : Keeps z s) : KeepsOut z (execDrain c e s) := by
  unfold execDrain
  repeat' (first
      | (with_reducible assumption)
      | (with_reducible first | apply keepsOut_next | exact keepsOut_fault)
      | (with_reducible apply keeps_atHead; (on_goal 1 => (intro _ _ _ _ _)))
      | (with_reducible first | apply keeps_dispatchFe)
      | (intro _)
      | split)

theorem keeps_execEngHalt {z : State} (c : CoreId) (e : EngId) (s : State)  (h : Keeps z s) : KeepsOut z (execEngHalt c e s) := by
  unfold execEngHalt
  repeat' (first
      | (with_reducible assumption)
      | (with_reducible first | apply keepsOut_next | exact keepsOut_fault)
      | ((try lift_lets -underBinder); intro x; refine (fun hx : Keeps z x => ?_) (?_ : Keeps z x); (on_goal 1 => clear_value x); (on_goal 2 => simp only [x]))
      | ((try lift_lets -underBinder); intro x; refine (fun hx : Keeps z x.1 => ?_) (?_ : Keeps z x.1); (on_goal 1 => clear_value x); (on_goal 2 => simp only [x]))
      | ((try lift_lets -underBinder); intro x; clear_value x)
      | (with_reducible apply keeps_atHead; (on_goal 1 => (intro _ _ _ _ _)))
      | (with_reducible first | apply keeps_drainEngine | apply keeps_putEng)
      | (intro _)
      | split)

theorem keeps_execEngLdload {z : State} (c : CoreId) (e : EngId) (s : State)  (h : Keeps z s) : KeepsOut z (execEngLdload c e s) := by
  unfold execEngLdload
  repeat' (first
      | (with_reducible assumption)
      | (with_reducible first | apply keepsOut_next | exact keepsOut_fault)
      | (with_reducible first | apply keeps_runOp)
      | (intro _)
      | split)

theorem keeps_execFeOpReachWord {z : State} (a : W44) (loc : Bool) (rem : List Nat) (s : State)  (h : Keeps z s) : KeepsOut z (execFeOpReachWord a loc rem s) := by
  unfold execFeOpReachWord
  repeat' (first
      | (with_reducible assumption)
      | (with_reducible first | apply keepsOut_next | exact keepsOut_fault)
      | (with_reducible first | apply keeps_feReach | apply keeps_ite | apply keeps_ite_fst)
      | (intro _)
      | split)

theorem keeps_execFill {z : State} (c : CoreId) (e : EngId) (s : State)  (h : Keeps z s) : KeepsOut z (execFill c e s) := by
  unfold execFill
  repeat' (first
      | (with_reducible assumption)
      | (with_reducible first | apply keepsOut_next | exact keepsOut_fault)
      | (with_reducible apply keeps_atHead; (on_goal 1 => (intro _ _ _ _ _)))
      | (with_reducible first | apply keeps_dispatchFe)
      | (intro _)
      | split)

theorem keeps_execJmp {z : State} (c : CoreId) (e : EngId) (s : State)  (h : Keeps z s) : KeepsOut z (execJmp c e s) := by
  unfold execJmp
  repeat' (first
      | (with_reducible assumption)
      | (with_reducible first | apply keepsOut_next | exact keepsOut_fault)
      | (with_reducible apply keeps_atHead; (on_goal 1 => (intro _ _ _ _ _)))
      | (with_reducible first | apply keeps_passHead)
      | (intro _)
      | split)

theorem keeps_execJmpt {z : State} (c : CoreId) (e : EngId) (s : State)  (h : Keeps z s) : KeepsOut z (execJmpt c e s) := by
  unfold execJmpt
  repeat' (first
      | (with_reducible assumption)
      | (with_reducible first | apply keepsOut_next | exact keepsOut_fault)
      | (with_reducible apply keeps_atHead; (on_goal 1 => (intro _ _ _ _ _)))
      | (with_reducible first | apply keeps_dispatchFe)
      | (intro _)
      | split)

theorem keeps_execNop {z : State} (c : CoreId) (e : EngId) (s : State)  (h : Keeps z s) : KeepsOut z (execNop c e s) := by
  unfold execNop
  repeat' (first
      | (with_reducible assumption)
      | (with_reducible first | apply keepsOut_next | exact keepsOut_fault)
      | (with_reducible apply keeps_atHead; (on_goal 1 => (intro _ _ _ _ _)))
      | (with_reducible first | apply keeps_passHead)
      | (intro _)
      | split)

theorem keeps_execPeek {z : State} (c : CoreId) (e : EngId) (s : State)  (h : Keeps z s) : KeepsOut z (execPeek c e s) := by
  unfold execPeek
  repeat' (first
      | (with_reducible assumption)
      | (with_reducible first | apply keepsOut_next | exact keepsOut_fault)
      | (with_reducible apply keeps_atHead; (on_goal 1 => (intro _ _ _ _ _)))
      | (with_reducible first | apply keeps_dispatchFe)
      | (intro _)
      | split)

theorem keeps_execRemoteValueReturn {z : State} (c : CoreId) (e : EngId) (s : State)  (h : Keeps z s) : KeepsOut z (execRemoteValueReturn c e s) := by
  unfold execRemoteValueReturn
  repeat' (first
      | (with_reducible assumption)
      | (with_reducible first | apply keepsOut_next | exact keepsOut_fault)
      | (with_reducible first | apply keeps_feReturn)
      | (intro _)
      | split)

theorem keeps_execSemAdd {z : State} (c : CoreId) (e : EngId) (s : State)  (h : Keeps z s) : KeepsOut z (execSemAdd c e s) := by
  unfold execSemAdd
  repeat' (first
      | (with_reducible assumption)
      | (with_reducible first | apply keepsOut_next | exact keepsOut_fault)
      | (with_reducible apply keeps_atHead; (on_goal 1 => (intro _ _ _ _ _)))
      | (with_reducible first | apply keeps_dispatchSem)
      | (intro _)
      | split)

theorem keeps_execSemOpReachCounter {z : State} (c : CoreId) (ctr : Fin 256) (s : State)  (h : Keeps z s) : KeepsOut z (execSemOpReachCounter c ctr s) := by
  unfold execSemOpReachCounter
  repeat' (first
      | (with_reducible assumption)
      | (with_reducible first | apply keepsOut_next | exact keepsOut_fault)
      | (with_reducible first | apply keeps_semReach)
      | (intro _)
      | split)

theorem keeps_execSemSub {z : State} (c : CoreId) (e : EngId) (s : State)  (h : Keeps z s) : KeepsOut z (execSemSub c e s) := by
  unfold execSemSub
  repeat' (first
      | (with_reducible assumption)
      | (with_reducible first | apply keepsOut_next | exact keepsOut_fault)
      | (with_reducible apply keeps_atHead; (on_goal 1 => (intro _ _ _ _ _)))
      | (with_reducible first | apply keeps_dispatchSem)
      | (intro _)
      | split)

theorem keeps_execSemWait {z : State} (c : CoreId) (e : EngId) (s : State)  (h : Keeps z s) : KeepsOut z (execSemWait c e s) := by
  unfold execSemWait
  repeat' (first
      | (with_reducible assumption)
      | (with_reducible first | apply keepsOut_next | exact keepsOut_fault)
      | (with_reducible apply keeps_atHead; (on_goal 1 => (intro _ _ _ _ _)))
      | (with_reducible first | apply keeps_dispatchSem)
      | (intro _)
      | split)

theorem keeps_execSyncWaitTimeout {z : State} (c : CoreId) (e : EngId) (s : State)  (h : Keeps z s) : KeepsOut z (execSyncWaitTimeout c e s) := by
  unfold execSyncWaitTimeout
  repeat' (first
      | (with_reducible assumption)
      | (with_reducible first | apply keepsOut_next | exact keepsOut_fault)
      | (with_reducible first | apply keeps_waitTimeout)
      | (intro _)
      | split)

theorem keeps_execTake {z : State} (c : CoreId) (e : EngId) (s : State)  (h : Keeps z s) : KeepsOut z (execTake c e s) := by
  unfold execTake
  repeat' (first
      | (with_reducible assumption)
      | (with_reducible first | apply keepsOut_next | exact keepsOut_fault)
      | (with_reducible apply keeps_atHead; (on_goal 1 => (intro _ _ _ _ _)))
      | (with_reducible first | apply keeps_dispatchFe)
      | (intro _)
      | split)

end Sys2Proof.Machine
end

