-- ==== Sys2Proof/Laws/Keeps/StreamOps.lean ====
section
/-!
SUPPORT. What the functions of Machine/StreamOps.lean keep (Safety.Keeps).
-/

set_option linter.unusedTactic false
set_option linter.unreachableTactic false

namespace Sys2Proof.Machine

theorem keeps_execCompletionRecordWrite {z : State} (c : CoreId) (st : StreamId) (s : State)  (h : Keeps z s) : KeepsOut z (execCompletionRecordWrite c st s) := by
  unfold execCompletionRecordWrite
  repeat' (first
      | (with_reducible assumption)
      | (with_reducible first | apply keepsOut_next | exact keepsOut_fault)
      | ((try lift_lets -underBinder); intro x; refine (fun hx : Keeps z x => ?_) (?_ : Keeps z x); (on_goal 1 => clear_value x); (on_goal 2 => simp only [x]))
      | ((try lift_lets -underBinder); intro x; refine (fun hx : Keeps z x.1 => ?_) (?_ : Keeps z x.1); (on_goal 1 => clear_value x); (on_goal 2 => simp only [x]))
      | ((try lift_lets -underBinder); intro x; clear_value x)
      | (with_reducible first | apply keeps_advance | apply keeps_writeAll | apply keeps_logNoWord | apply keeps_settleCore | apply keeps_putCore | apply keeps_ite | apply keeps_ite_fst)
      | (intro _)
      | split
      | (apply keeps_mk <;> first
          | assumption | with_reducible exact le_rfl | with_reducible exact List.suffix_refl _ | with_reducible exact fun h => h | exact fun _ => tasc_nil
          | with_reducible exact fun h => ⟨h, le_rfl⟩ | exact fun h => ⟨⟨h.1, h.2.1, h.2.2⟩, le_rfl⟩ | exact fun h => twf_tset h
          | exact fun h => twf_twrite h | exact fun h => twf_tclear h | exact fun h => tasc_tset h | exact fun h => tasc_tclear h
          | exact Nat.le_succ _ | exact le_max_left _ _ | exact List.suffix_cons _ _
          | exact fun h => twf_foldl _ (fun _ _ h => twf_tset h) _ _ h | skip)
      | (exact twf_foldl _ (fun _ _ h => twf_tset h) _ _ (by assumption)))

theorem keeps_execDxeIssue {z : State} (c : CoreId) (s : State)  (h : Keeps z s) : KeepsOut z (execDxeIssue c s) := by
  unfold execDxeIssue
  repeat' (first
      | (with_reducible assumption)
      | (with_reducible first | apply keepsOut_next | exact keepsOut_fault)
      | (with_reducible first | apply keeps_runOp)
      | (intro _)
      | split)

theorem keeps_retireInst {z : State} (s : State) (c : CoreId) (i : Inst)  (h : Keeps z s) : Keeps z (retireInst s c i) := by
  unfold retireInst
  repeat' (first
      | (with_reducible assumption)
      | ((try lift_lets -underBinder); intro x; refine (fun hx : Keeps z x => ?_) (?_ : Keeps z x); (on_goal 1 => clear_value x); (on_goal 2 => simp only [x]))
      | ((try lift_lets -underBinder); intro x; refine (fun hx : Keeps z x.1 => ?_) (?_ : Keeps z x.1); (on_goal 1 => clear_value x); (on_goal 2 => simp only [x]))
      | ((try lift_lets -underBinder); intro x; clear_value x)
      | (with_reducible first | apply keeps_retagStores | apply keeps_advance | apply keeps_finishLoad | apply keeps_retireMle | apply keeps_settleCore | apply keeps_putCore)
      | (intro _)
      | split)

theorem keeps_rejectHead {z : State} (s : State) (c : CoreId) (e : EngId)  (h : Keeps z s) : Keeps z (rejectHead s c e) := by
  unfold rejectHead
  repeat' (first
      | (with_reducible assumption)
      | (with_reducible first | apply keeps_skipHead | apply keeps_advance | apply keeps_putEng | apply keeps_faultEngine | apply keeps_ite | apply keeps_ite_fst)
      | (intro _)
      | split)

theorem keeps_execInstructionRetire {z : State} (c : CoreId) (what : RetireOf) (s : State)  (h : Keeps z s) : KeepsOut z (execInstructionRetire c what s) := by
  unfold execInstructionRetire
  repeat' (first
      | (with_reducible assumption)
      | (with_reducible first | apply keepsOut_next | exact keepsOut_fault)
      | (with_reducible first | apply keeps_retireInst | apply keeps_rejectHead | apply keeps_ite | apply keeps_ite_fst)
      | (intro _)
      | split)

theorem keeps_execStreamTaskComplete {z : State} (c : CoreId) (st : StreamId) (s : State)  (h : Keeps z s) : KeepsOut z (execStreamTaskComplete c st s) := by
  unfold execStreamTaskComplete
  repeat' (first
      | (with_reducible assumption)
      | (with_reducible first | apply keepsOut_next | exact keepsOut_fault)
      | (with_reducible first | apply keeps_settleCore | apply keeps_completeTask)
      | (intro _)
      | split)

theorem keeps_execStreamTaskFault {z : State} (c : CoreId) (st : StreamId) (s : State)  (h : Keeps z s) : KeepsOut z (execStreamTaskFault c st s) := by
  unfold execStreamTaskFault
  repeat' (first
      | (with_reducible assumption)
      | (with_reducible first | apply keepsOut_next | exact keepsOut_fault)
      | ((try lift_lets -underBinder); intro x; refine (fun hx : Keeps z x => ?_) (?_ : Keeps z x); (on_goal 1 => clear_value x); (on_goal 2 => simp only [x]))
      | ((try lift_lets -underBinder); intro x; refine (fun hx : Keeps z x.1 => ?_) (?_ : Keeps z x.1); (on_goal 1 => clear_value x); (on_goal 2 => simp only [x]))
      | ((try lift_lets -underBinder); intro x; clear_value x)
      | (with_reducible first | apply keeps_faultTask | apply keeps_settleCore | apply keeps_mxeStreamStop | apply keeps_ite | apply keeps_ite_fst)
      | (intro _)
      | split)

end Sys2Proof.Machine
end

