-- ==== Sys2Proof/Laws/Keeps/Access.lean ====
section
/-!
SUPPORT. What the functions of Machine/Access.lean keep (Safety.Keeps).
-/

set_option linter.unusedTactic false
set_option linter.unreachableTactic false

namespace Sys2Proof.Machine

theorem wrote_act (r : MramRec) (m : Mram) : (wrote r m).actCount = m.actCount := rfl
theorem wrote_mono (r : MramRec) (m : Mram) : (wrote r m).mono = m.mono := rfl
theorem wrote_leaf {r : MramRec} {m : Mram} (h : leafOk m) : leafOk (wrote r m) := h

theorem keeps_putMram {z : State} (s : State) (m : Mram) (h1 : s.fw.mram.actCount ≤ m.actCount)
    (h2 : leafOk s.fw.mram → leafOk m ∧ s.fw.mram.mono ≤ m.mono) (h : Keeps z s) : Keeps z (putMram s m) := by
  unfold putMram
  exact keeps_mk h le_rfl le_rfl (List.suffix_refl _) le_rfl h1 h2 id id id id id id id id id id id id id id

theorem keeps_archiveRec {z : State} (s : State) (r : LogRec) (h : Keeps z s) : Keeps z (archiveRec s r) := by
  unfold archiveRec
  exact keeps_putMram s _ (by rw [wrote_act]) (fun l => ⟨wrote_leaf ⟨l.1, l.2.1, l.2.2⟩, by rw [wrote_mono]⟩) h

theorem keeps_emit {z : State} (s : State) (x : OutEv)  (h : Keeps z s) : Keeps z (emit s x) := by
  unfold emit
  repeat' (first
      | (with_reducible assumption)
      | (intro _)
      | split
      | (apply keeps_mk <;> first
          | assumption | with_reducible exact le_rfl | with_reducible exact List.suffix_refl _ | with_reducible exact fun h => h | exact fun _ => tasc_nil
          | with_reducible exact fun h => ⟨h, le_rfl⟩ | exact fun h => ⟨⟨h.1, h.2.1, h.2.2⟩, le_rfl⟩ | exact fun h => twf_tset h
          | exact fun h => twf_twrite h | exact fun h => twf_tclear h | exact fun h => tasc_tset h | exact fun h => tasc_tclear h
          | exact Nat.le_succ _ | exact le_max_left _ _ | exact List.suffix_cons _ _
          | exact fun h => twf_foldl _ (fun _ _ h => twf_tset h) _ _ h | skip)
      | (exact twf_foldl _ (fun _ _ h => twf_tset h) _ _ (by assumption)))

theorem keeps_logAccess {z : State} (s : State) (f : FuncId) (o : Nat) (cause : Nat)  (h : Keeps z s) : Keeps z (logAccess s f o cause) := by
  unfold logAccess
  repeat' (first
      | (with_reducible assumption)
      | (with_reducible first | apply keeps_logEv)
      | (intro _)
      | split)

theorem keeps_hostWrite {z : State} (s : State) (f : FuncId) (r : Reg) (enable : Bool) (act : State → State) (hact : ∀ t , Keeps z t → Keeps z (act t )) (h : Keeps z s) : Keeps z (hostWrite s f r enable act) := by
  unfold hostWrite
  repeat' (first
      | (with_reducible assumption)
      | ((try lift_lets -underBinder); intro x; refine (fun hx : Keeps z x => ?_) (?_ : Keeps z x); (on_goal 1 => clear_value x); (on_goal 2 => simp only [x]))
      | ((try lift_lets -underBinder); intro x; refine (fun hx : Keeps z x.1 => ?_) (?_ : Keeps z x.1); (on_goal 1 => clear_value x); (on_goal 2 => simp only [x]))
      | ((try lift_lets -underBinder); intro x; clear_value x)
      | (with_reducible first | apply keeps_logAccess | apply hact | apply keeps_ite | apply keeps_ite_fst)
      | (intro _)
      | split)

theorem keeps_plainWrite {z : State} (s : State) (f : FuncId) (r : Reg) (v : W64)  (h : Keeps z s) : Keeps z (plainWrite s f r v) := by
  unfold plainWrite
  repeat' (first
      | (with_reducible assumption)
      | ((try lift_lets -underBinder); intro x; refine (fun hx : Keeps z x => ?_) (?_ : Keeps z x); (on_goal 1 => clear_value x); (on_goal 2 => simp only [x]))
      | ((try lift_lets -underBinder); intro x; refine (fun hx : Keeps z x.1 => ?_) (?_ : Keeps z x.1); (on_goal 1 => clear_value x); (on_goal 2 => simp only [x]))
      | ((try lift_lets -underBinder); intro x; clear_value x)
      | (with_reducible first | apply keeps_fput | apply keeps_rput | apply keeps_logAccess | apply keeps_ite | apply keeps_ite_fst)
      | (with_reducible refine keeps_foldl _ _ _ ?_ ?_; (on_goal 1 => (intro _ _ _)))
      | (with_reducible refine keeps_foldl_fst _ _ _ ?_ ?_; (on_goal 1 => (intro _ _ _)))
      | (intro _)
      | split)

theorem keeps_readBar0 {z : State} (s : State) (f : FuncId) (o : Nat)  (h : Keeps z s) : Keeps z (readBar0 s f o).1 := by
  unfold readBar0
  repeat' (first
      | (with_reducible assumption)
      | (with_reducible first | apply keeps_logAccess | apply keeps_ite | apply keeps_ite_fst)
      | (intro _)
      | split)

end Sys2Proof.Machine
end

