-- ==== Sys2Proof/Laws/Keeps/EngineCtl.lean ====
section
/-!
SUPPORT. What the functions of Machine/EngineCtl.lean keep (Safety.Keeps).
-/

set_option linter.unusedTactic false
set_option linter.unreachableTactic false

namespace Sys2Proof.Machine

theorem keeps_enableEngine {z : State} (s : State) (c : CoreId) (e : EngId)  (h : Keeps z s) : Keeps z (enableEngine s c e) := by
  unfold enableEngine
  repeat' (first
      | (with_reducible assumption)
      | ((try lift_lets -underBinder); intro x; refine (fun hx : Keeps z x => ?_) (?_ : Keeps z x); (on_goal 1 => clear_value x); (on_goal 2 => simp only [x]))
      | ((try lift_lets -underBinder); intro x; refine (fun hx : Keeps z x.1 => ?_) (?_ : Keeps z x.1); (on_goal 1 => clear_value x); (on_goal 2 => simp only [x]))
      | ((try lift_lets -underBinder); intro x; clear_value x)
      | (with_reducible first | apply keeps_settleCore | apply keeps_putEng)
      | (intro _)
      | split)

theorem keeps_logCtl {z : State} (s : State) (c : CoreId) (e : EngId) (cause : Nat) (k : EngReg)  (h : Keeps z s) : Keeps z (logCtl s c e cause k) := by
  unfold logCtl
  repeat' (first
      | (with_reducible assumption)
      | ((try lift_lets -underBinder); intro x; refine (fun hx : Keeps z x => ?_) (?_ : Keeps z x); (on_goal 1 => clear_value x); (on_goal 2 => simp only [x]))
      | ((try lift_lets -underBinder); intro x; refine (fun hx : Keeps z x.1 => ?_) (?_ : Keeps z x.1); (on_goal 1 => clear_value x); (on_goal 2 => simp only [x]))
      | ((try lift_lets -underBinder); intro x; clear_value x)
      | (with_reducible first | apply keeps_logEng)
      | (intro _)
      | split)

theorem keeps_writeBank {z : State} (s : State) (c : CoreId) (e : EngId) (v : W64)  (h : Keeps z s) : Keeps z (writeBank s c e v) := by
  unfold writeBank
  repeat' (first
      | (with_reducible assumption)
      | ((try lift_lets -underBinder); intro x; refine (fun hx : Keeps z x => ?_) (?_ : Keeps z x); (on_goal 1 => clear_value x); (on_goal 2 => simp only [x]))
      | ((try lift_lets -underBinder); intro x; refine (fun hx : Keeps z x.1 => ?_) (?_ : Keeps z x.1); (on_goal 1 => clear_value x); (on_goal 2 => simp only [x]))
      | ((try lift_lets -underBinder); intro x; clear_value x)
      | (with_reducible first | apply keeps_putEng | apply keeps_logCtl | apply keeps_ite | apply keeps_ite_fst)
      | (intro _)
      | split)

theorem keeps_writeLatcheck {z : State} (s : State) (c : CoreId) (e : EngId) (v : W64)  (h : Keeps z s) : Keeps z (writeLatcheck s c e v) := by
  unfold writeLatcheck
  repeat' (first
      | (with_reducible assumption)
      | (with_reducible first | apply keeps_logCtl | apply keeps_rsetf | apply keeps_ite | apply keeps_ite_fst)
      | (intro _)
      | split)

theorem keeps_stepEngine {z : State} (s : State) (c : CoreId) (e : EngId)  (h : Keeps z s) : Keeps z (stepEngine s c e) := by
  unfold stepEngine
  repeat' (first
      | (with_reducible assumption)
      | ((try lift_lets -underBinder); intro x; refine (fun hx : Keeps z x => ?_) (?_ : Keeps z x); (on_goal 1 => clear_value x); (on_goal 2 => simp only [x]))
      | ((try lift_lets -underBinder); intro x; refine (fun hx : Keeps z x.1 => ?_) (?_ : Keeps z x.1); (on_goal 1 => clear_value x); (on_goal 2 => simp only [x]))
      | ((try lift_lets -underBinder); intro x; clear_value x)
      | (with_reducible first | apply keeps_putEng)
      | (intro _)
      | split)

theorem keeps_writeEn {z : State} (s : State) (c : CoreId) (e : EngId)  (h : Keeps z s) : Keeps z (writeEn s c e) := by
  unfold writeEn
  repeat' (first
      | (with_reducible assumption)
      | (with_reducible first | apply keeps_logCtl | apply keeps_enableEngine | apply keeps_ite | apply keeps_ite_fst)
      | (intro _)
      | split)

theorem keeps_writeCtl {z : State} (s : State) (c : CoreId) (e : EngId) (v : W64)  (h : Keeps z s) : Keeps z (writeCtl s c e v) := by
  unfold writeCtl
  repeat' (first
      | (with_reducible assumption)
      | ((try lift_lets -underBinder); intro x; refine (fun hx : Keeps z x => ?_) (?_ : Keeps z x); (on_goal 1 => clear_value x); (on_goal 2 => simp only [x]))
      | ((try lift_lets -underBinder); intro x; refine (fun hx : Keeps z x.1 => ?_) (?_ : Keeps z x.1); (on_goal 1 => clear_value x); (on_goal 2 => simp only [x]))
      | ((try lift_lets -underBinder); intro x; clear_value x)
      | (with_reducible first | apply keeps_writeBank | apply keeps_writeLatcheck | apply keeps_logCtl | apply keeps_abortEngine | apply keeps_stepEngine | apply keeps_writeEn | apply keeps_drainEngine | apply keeps_ite | apply keeps_ite_fst)
      | (intro _)
      | split)

theorem keeps_execEngineAbort {z : State} (f : FuncId) (c : CoreId) (e : EngId) (v : W64) (s : State)  (h : Keeps z s) : KeepsOut z (execEngineAbort f c e v s) := by
  unfold execEngineAbort
  repeat' (first
      | (with_reducible assumption)
      | (with_reducible first | apply keepsOut_next | exact keepsOut_fault)
      | (with_reducible apply keeps_hostWrite; (on_goal 1 => (intro _ _)))
      | (with_reducible first | apply keeps_writeCtl | apply keeps_ite | apply keeps_ite_fst)
      | (intro _)
      | split)

theorem keeps_execEngineBankSelect {z : State} (f : FuncId) (c : CoreId) (e : EngId) (v : W64) (s : State)  (h : Keeps z s) : KeepsOut z (execEngineBankSelect f c e v s) := by
  unfold execEngineBankSelect
  repeat' (first
      | (with_reducible assumption)
      | (with_reducible first | apply keepsOut_next | exact keepsOut_fault)
      | (with_reducible apply keeps_hostWrite; (on_goal 1 => (intro _ _)))
      | (with_reducible first | apply keeps_writeCtl | apply keeps_ite | apply keeps_ite_fst)
      | (intro _)
      | split)

theorem keeps_execEngineDrain {z : State} (f : FuncId) (c : CoreId) (e : EngId) (v : W64) (s : State)  (h : Keeps z s) : KeepsOut z (execEngineDrain f c e v s) := by
  unfold execEngineDrain
  repeat' (first
      | (with_reducible assumption)
      | (with_reducible first | apply keepsOut_next | exact keepsOut_fault)
      | (with_reducible apply keeps_hostWrite; (on_goal 1 => (intro _ _)))
      | (with_reducible first | apply keeps_writeCtl | apply keeps_ite | apply keeps_ite_fst)
      | (intro _)
      | split)

theorem keeps_execEngineEnable {z : State} (f : FuncId) (c : CoreId) (e : EngId) (v : W64) (s : State)  (h : Keeps z s) : KeepsOut z (execEngineEnable f c e v s) := by
  unfold execEngineEnable
  repeat' (first
      | (with_reducible assumption)
      | (with_reducible first | apply keepsOut_next | exact keepsOut_fault)
      | (with_reducible apply keeps_hostWrite; (on_goal 1 => (intro _ _)))
      | (with_reducible first | apply keeps_writeCtl | apply keeps_ite | apply keeps_ite_fst)
      | (intro _)
      | split)

theorem keeps_writePc {z : State} (s : State) (c : CoreId) (e : EngId) (v : W64)  (h : Keeps z s) : Keeps z (writePc s c e v) := by
  unfold writePc
  repeat' (first
      | (with_reducible assumption)
      | ((try lift_lets -underBinder); intro x; refine (fun hx : Keeps z x => ?_) (?_ : Keeps z x); (on_goal 1 => clear_value x); (on_goal 2 => simp only [x]))
      | ((try lift_lets -underBinder); intro x; refine (fun hx : Keeps z x.1 => ?_) (?_ : Keeps z x.1); (on_goal 1 => clear_value x); (on_goal 2 => simp only [x]))
      | ((try lift_lets -underBinder); intro x; clear_value x)
      | (with_reducible first | apply keeps_putEng | apply keeps_logCtl | apply keeps_ite | apply keeps_ite_fst)
      | (intro _)
      | split)

theorem keeps_execEnginePcWrite {z : State} (f : FuncId) (c : CoreId) (e : EngId) (v : W64) (s : State)  (h : Keeps z s) : KeepsOut z (execEnginePcWrite f c e v s) := by
  unfold execEnginePcWrite
  repeat' (first
      | (with_reducible assumption)
      | (with_reducible first | apply keepsOut_next | exact keepsOut_fault)
      | (with_reducible apply keeps_hostWrite; (on_goal 1 => (intro _ _)))
      | (with_reducible first | apply keeps_writePc)
      | (intro _)
      | split)

theorem keeps_execEngineStep {z : State} (f : FuncId) (c : CoreId) (e : EngId) (v : W64) (s : State)  (h : Keeps z s) : KeepsOut z (execEngineStep f c e v s) := by
  unfold execEngineStep
  repeat' (first
      | (with_reducible assumption)
      | (with_reducible first | apply keepsOut_next | exact keepsOut_fault)
      | (with_reducible apply keeps_hostWrite; (on_goal 1 => (intro _ _)))
      | (with_reducible first | apply keeps_writeCtl | apply keeps_ite | apply keeps_ite_fst)
      | (intro _)
      | split)

theorem keeps_imAdvance {z : State} (s : State) (c : CoreId) (e : EngId)  (h : Keeps z s) : Keeps z (imAdvance s c e) := by
  unfold imAdvance
  repeat' (first
      | (with_reducible assumption)
      | ((try lift_lets -underBinder); intro x; refine (fun hx : Keeps z x => ?_) (?_ : Keeps z x); (on_goal 1 => clear_value x); (on_goal 2 => simp only [x]))
      | ((try lift_lets -underBinder); intro x; refine (fun hx : Keeps z x.1 => ?_) (?_ : Keeps z x.1); (on_goal 1 => clear_value x); (on_goal 2 => simp only [x]))
      | ((try lift_lets -underBinder); intro x; clear_value x)
      | (with_reducible first | apply keeps_rsetf | apply keeps_ite | apply keeps_ite_fst)
      | (intro _)
      | split)

theorem keeps_execImDataHiRead {z : State} (f : FuncId) (c : CoreId) (e : EngId) (s : State)  (h : Keeps z s) : KeepsOut z (execImDataHiRead f c e s) := by
  unfold execImDataHiRead
  repeat' (first
      | (with_reducible assumption)
      | (with_reducible first | apply keepsOut_next | exact keepsOut_fault)
      | ((try lift_lets -underBinder); intro x; refine (fun hx : Keeps z x => ?_) (?_ : Keeps z x); (on_goal 1 => clear_value x); (on_goal 2 => simp only [x]))
      | ((try lift_lets -underBinder); intro x; refine (fun hx : Keeps z x.1 => ?_) (?_ : Keeps z x.1); (on_goal 1 => clear_value x); (on_goal 2 => simp only [x]))
      | ((try lift_lets -underBinder); intro x; clear_value x)
      | (with_reducible first | apply keeps_readBar0 | apply keeps_emit | apply keeps_imAdvance | apply keeps_ite | apply keeps_ite_fst)
      | (intro _)
      | split)

theorem keeps_putImWord {z : State} (s : State) (c : CoreId) (e : EngId) (t : Nat) (i : Nat) (w : W128)  (h : Keeps z s) : Keeps z (putImWord s c e t i w).1 := by
  unfold putImWord
  repeat' (first
      | (with_reducible assumption)
      | ((try lift_lets -underBinder); intro x; refine (fun hx : Keeps z x => ?_) (?_ : Keeps z x); (on_goal 1 => clear_value x); (on_goal 2 => simp only [x]))
      | ((try lift_lets -underBinder); intro x; refine (fun hx : Keeps z x.1 => ?_) (?_ : Keeps z x.1); (on_goal 1 => clear_value x); (on_goal 2 => simp only [x]))
      | ((try lift_lets -underBinder); intro x; clear_value x)
      | (with_reducible first | apply keeps_logCtl | apply keeps_putEng | apply keeps_ite | apply keeps_ite_fst)
      | (intro _)
      | split)

theorem keeps_imRefuse {z : State} (s : State) (c : CoreId) (e : EngId) (why : Status)  (h : Keeps z s) : Keeps z (imRefuse s c e why) := by
  unfold imRefuse
  repeat' (first
      | (with_reducible assumption)
      | ((try lift_lets -underBinder); intro x; refine (fun hx : Keeps z x => ?_) (?_ : Keeps z x); (on_goal 1 => clear_value x); (on_goal 2 => simp only [x]))
      | ((try lift_lets -underBinder); intro x; refine (fun hx : Keeps z x.1 => ?_) (?_ : Keeps z x.1); (on_goal 1 => clear_value x); (on_goal 2 => simp only [x]))
      | ((try lift_lets -underBinder); intro x; clear_value x)
      | (with_reducible first | apply keeps_rsetf | apply keeps_rbump | apply keeps_logCtl)
      | (intro _)
      | split)

theorem keeps_writeDataHi {z : State} (s : State) (c : CoreId) (e : EngId) (v : W64)  (h : Keeps z s) : Keeps z (writeDataHi s c e v) := by
  unfold writeDataHi
  repeat' (first
      | (with_reducible assumption)
      | ((try lift_lets -underBinder); intro x; refine (fun hx : Keeps z x => ?_) (?_ : Keeps z x); (on_goal 1 => clear_value x); (on_goal 2 => simp only [x]))
      | ((try lift_lets -underBinder); intro x; refine (fun hx : Keeps z x.1 => ?_) (?_ : Keeps z x.1); (on_goal 1 => clear_value x); (on_goal 2 => simp only [x]))
      | ((try lift_lets -underBinder); intro x; clear_value x)
      | (with_reducible first | apply keeps_putImWord | apply keeps_imAdvance | apply keeps_imRefuse)
      | (intro _)
      | split)

theorem keeps_execImDataHiWrite {z : State} (f : FuncId) (c : CoreId) (e : EngId) (v : W64) (s : State)  (h : Keeps z s) : KeepsOut z (execImDataHiWrite f c e v s) := by
  unfold execImDataHiWrite
  repeat' (first
      | (with_reducible assumption)
      | (with_reducible first | apply keepsOut_next | exact keepsOut_fault)
      | (with_reducible apply keeps_hostWrite; (on_goal 1 => (intro _ _)))
      | (with_reducible first | apply keeps_writeDataHi)
      | (intro _)
      | split)

theorem keeps_writeSemCnt {z : State} (s : State) (c : CoreId) (i : Fin 64) (v : W64)  (h : Keeps z s) : Keeps z (writeSemCnt s c i v) := by
  unfold writeSemCnt
  repeat' (first
      | (with_reducible assumption)
      | ((try lift_lets -underBinder); intro x; refine (fun hx : Keeps z x => ?_) (?_ : Keeps z x); (on_goal 1 => clear_value x); (on_goal 2 => simp only [x]))
      | ((try lift_lets -underBinder); intro x; refine (fun hx : Keeps z x.1 => ?_) (?_ : Keeps z x.1); (on_goal 1 => clear_value x); (on_goal 2 => simp only [x]))
      | ((try lift_lets -underBinder); intro x; clear_value x)
      | (with_reducible first | apply keeps_semServe | apply keeps_semPut)
      | (with_reducible refine keeps_foldl _ _ _ ?_ ?_; (on_goal 1 => (intro _ _ _)))
      | (with_reducible refine keeps_foldl_fst _ _ _ ?_ ?_; (on_goal 1 => (intro _ _ _)))
      | (intro _)
      | split)

theorem keeps_execSemCntWrite {z : State} (f : FuncId) (c : CoreId) (i : Fin 64) (v : W64) (s : State)  (h : Keeps z s) : KeepsOut z (execSemCntWrite f c i v s) := by
  unfold execSemCntWrite
  repeat' (first
      | (with_reducible assumption)
      | (with_reducible first | apply keepsOut_next | exact keepsOut_fault)
      | (with_reducible apply keeps_hostWrite; (on_goal 1 => (intro _ _)))
      | (with_reducible first | apply keeps_writeSemCnt)
      | (intro _)
      | split)

theorem keeps_writeSrng {z : State} (s : State) (n : N20) (v : W64)  (h : Keeps z s) : Keeps z (writeSrng s n v) := by
  unfold writeSrng
  repeat' (first
      | (with_reducible assumption)
      | (with_reducible first | apply keeps_rput | apply keeps_ite | apply keeps_ite_fst)
      | (intro _)
      | split)

theorem keeps_execSrngSeedWrite {z : State} (f : FuncId) (n : N20) (v : W64) (s : State)  (h : Keeps z s) : KeepsOut z (execSrngSeedWrite f n v s) := by
  unfold execSrngSeedWrite
  repeat' (first
      | (with_reducible assumption)
      | (with_reducible first | apply keepsOut_next | exact keepsOut_fault)
      | (with_reducible apply keeps_hostWrite; (on_goal 1 => (intro _ _)))
      | (with_reducible first | apply keeps_writeSrng)
      | (intro _)
      | split)

theorem keeps_writeSctl {z : State} (s : State) (c : CoreId) (v : W64)  (h : Keeps z s) : Keeps z (writeSctl s c v) := by
  unfold writeSctl
  repeat' (first
      | (with_reducible assumption)
      | ((try lift_lets -underBinder); intro x; refine (fun hx : Keeps z x => ?_) (?_ : Keeps z x); (on_goal 1 => clear_value x); (on_goal 2 => simp only [x]))
      | ((try lift_lets -underBinder); intro x; refine (fun hx : Keeps z x.1 => ?_) (?_ : Keeps z x.1); (on_goal 1 => clear_value x); (on_goal 2 => simp only [x]))
      | ((try lift_lets -underBinder); intro x; clear_value x)
      | (with_reducible first | apply keeps_putCore | apply keeps_stopTask | apply keeps_mxeStreamStop | apply keeps_settleCore | apply keeps_ite | apply keeps_ite_fst)
      | (with_reducible refine keeps_foldl _ _ _ ?_ ?_; (on_goal 1 => (intro _ _ _)))
      | (with_reducible refine keeps_foldl_fst _ _ _ ?_ ?_; (on_goal 1 => (intro _ _ _)))
      | (intro _)
      | split)

theorem keeps_execStreamAbort {z : State} (f : FuncId) (c : CoreId) (v : W64) (s : State)  (h : Keeps z s) : KeepsOut z (execStreamAbort f c v s) := by
  unfold execStreamAbort
  repeat' (first
      | (with_reducible assumption)
      | (with_reducible first | apply keepsOut_next | exact keepsOut_fault)
      | (with_reducible apply keeps_hostWrite; (on_goal 1 => (intro _ _)))
      | (with_reducible first | apply keeps_writeSctl | apply keeps_ite | apply keeps_ite_fst)
      | (intro _)
      | split)

theorem keeps_execStreamDrain {z : State} (f : FuncId) (c : CoreId) (v : W64) (s : State)  (h : Keeps z s) : KeepsOut z (execStreamDrain f c v s) := by
  unfold execStreamDrain
  repeat' (first
      | (with_reducible assumption)
      | (with_reducible first | apply keepsOut_next | exact keepsOut_fault)
      | (with_reducible apply keeps_hostWrite; (on_goal 1 => (intro _ _)))
      | (with_reducible first | apply keeps_writeSctl | apply keeps_ite | apply keeps_ite_fst)
      | (intro _)
      | split)

theorem keeps_execStreamEnable {z : State} (f : FuncId) (c : CoreId) (v : W64) (s : State)  (h : Keeps z s) : KeepsOut z (execStreamEnable f c v s) := by
  unfold execStreamEnable
  repeat' (first
      | (with_reducible assumption)
      | (with_reducible first | apply keepsOut_next | exact keepsOut_fault)
      | (with_reducible apply keeps_hostWrite; (on_goal 1 => (intro _ _)))
      | (with_reducible first | apply keeps_writeSctl | apply keeps_ite | apply keeps_ite_fst)
      | (intro _)
      | split)

theorem keeps_writeHostAddr {z : State} (s : State) (f : FuncId) (c : CoreId) (v : W64) (rem : List Nat)  (h : Keeps z s) : Keeps z (writeHostAddr s f c v rem) := by
  unfold writeHostAddr
  repeat' (first
      | (with_reducible assumption)
      | ((try lift_lets -underBinder); intro x; refine (fun hx : Keeps z x => ?_) (?_ : Keeps z x); (on_goal 1 => clear_value x); (on_goal 2 => simp only [x]))
      | ((try lift_lets -underBinder); intro x; refine (fun hx : Keeps z x.1 => ?_) (?_ : Keeps z x.1); (on_goal 1 => clear_value x); (on_goal 2 => simp only [x]))
      | ((try lift_lets -underBinder); intro x; clear_value x)
      | (with_reducible apply keeps_hostOp; (on_goal 1 => (intro _ _)))
      | (with_reducible first | apply keeps_rsetf | apply keeps_hostFill | apply keeps_hostReach | apply keeps_touchUnit | apply keeps_rput | apply keeps_hostFound)
      | (intro _)
      | split)

theorem keeps_execSyncHostDrain {z : State} (f : FuncId) (c : CoreId) (v : HostSync) (s : State)  (h : Keeps z s) : KeepsOut z (execSyncHostDrain f c v s) := by
  unfold execSyncHostDrain
  repeat' (first
      | (with_reducible assumption)
      | (with_reducible first | apply keepsOut_next | exact keepsOut_fault)
      | (with_reducible apply keeps_hostWrite; (on_goal 1 => (intro _ _)))
      | (with_reducible first | apply keeps_writeHostAddr | apply keeps_ite | apply keeps_ite_fst)
      | (intro _)
      | split)

theorem keeps_execSyncHostFill {z : State} (f : FuncId) (c : CoreId) (v : HostSync) (s : State)  (h : Keeps z s) : KeepsOut z (execSyncHostFill f c v s) := by
  unfold execSyncHostFill
  repeat' (first
      | (with_reducible assumption)
      | (with_reducible first | apply keepsOut_next | exact keepsOut_fault)
      | (with_reducible apply keeps_hostWrite; (on_goal 1 => (intro _ _)))
      | (with_reducible first | apply keeps_writeHostAddr | apply keeps_ite | apply keeps_ite_fst)
      | (intro _)
      | split)

theorem keeps_execSyncHostRead {z : State} (f : FuncId) (c : CoreId) (v : W64) (s : State)  (h : Keeps z s) : KeepsOut z (execSyncHostRead f c v s) := by
  unfold execSyncHostRead
  repeat' (first
      | (with_reducible assumption)
      | (with_reducible first | apply keepsOut_next | exact keepsOut_fault)
      | (with_reducible apply keeps_hostWrite; (on_goal 1 => (intro _ _)))
      | (with_reducible first | apply keeps_writeHostAddr | apply keeps_ite | apply keeps_ite_fst)
      | (intro _)
      | split)

theorem keeps_winEvent {z : State} (s : State) (n : N20) (cause : Nat)  (h : Keeps z s) : Keeps z (winEvent s n cause) := by
  unfold winEvent
  repeat' (first
      | (with_reducible assumption)
      | (with_reducible first | apply keeps_logEv)
      | (intro _)
      | split)

theorem keeps_winClear {z : State} (s : State) (n : N20)  (h : Keeps z s) : Keeps z (winClear s n) := by
  unfold winClear
  repeat' (first
      | (with_reducible assumption)
      | ((try lift_lets -underBinder); intro x; refine (fun hx : Keeps z x => ?_) (?_ : Keeps z x); (on_goal 1 => clear_value x); (on_goal 2 => simp only [x]))
      | ((try lift_lets -underBinder); intro x; refine (fun hx : Keeps z x.1 => ?_) (?_ : Keeps z x.1); (on_goal 1 => clear_value x); (on_goal 2 => simp only [x]))
      | ((try lift_lets -underBinder); intro x; clear_value x)
      | (intro _)
      | split
      | (apply keeps_mk <;> first
          | assumption | with_reducible exact le_rfl | with_reducible exact List.suffix_refl _ | with_reducible exact fun h => h | exact fun _ => tasc_nil
          | with_reducible exact fun h => ⟨h, le_rfl⟩ | exact fun h => ⟨⟨h.1, h.2.1, h.2.2⟩, le_rfl⟩ | exact fun h => twf_tset h
          | exact fun h => twf_twrite h | exact fun h => twf_tclear h | exact fun h => tasc_tset h | exact fun h => tasc_tclear h
          | exact Nat.le_succ _ | exact le_max_left _ _ | exact List.suffix_cons _ _
          | exact fun h => twf_foldl _ (fun _ _ h => twf_tset h) _ _ h | skip)
      | (exact twf_foldl _ (fun _ _ h => twf_tset h) _ _ (by assumption)))

theorem keeps_openWin {z : State} (s : State) (n : N20)  (h : Keeps z s) : Keeps z (openWin s n) := by
  unfold openWin
  repeat' (first
      | (with_reducible assumption)
      | ((try lift_lets -underBinder); intro x; refine (fun hx : Keeps z x => ?_) (?_ : Keeps z x); (on_goal 1 => clear_value x); (on_goal 2 => simp only [x]))
      | ((try lift_lets -underBinder); intro x; refine (fun hx : Keeps z x.1 => ?_) (?_ : Keeps z x.1); (on_goal 1 => clear_value x); (on_goal 2 => simp only [x]))
      | ((try lift_lets -underBinder); intro x; clear_value x)
      | (with_reducible first | apply keeps_evictLine | apply keeps_evictWay | apply keeps_winClear | apply keeps_rsetf)
      | (with_reducible refine keeps_foldl _ _ _ ?_ ?_; (on_goal 1 => (intro _ _ _)))
      | (with_reducible refine keeps_foldl_fst _ _ _ ?_ ?_; (on_goal 1 => (intro _ _ _)))
      | (intro _)
      | split)

theorem keeps_writeSyncWin {z : State} (s : State) (f : FuncId) (n : N20) (v : W64)  (h : Keeps z s) : Keeps z (writeSyncWin s f n v) := by
  unfold writeSyncWin
  repeat' (first
      | (with_reducible assumption)
      | ((try lift_lets -underBinder); intro x; refine (fun hx : Keeps z x => ?_) (?_ : Keeps z x); (on_goal 1 => clear_value x); (on_goal 2 => simp only [x]))
      | ((try lift_lets -underBinder); intro x; refine (fun hx : Keeps z x.1 => ?_) (?_ : Keeps z x.1); (on_goal 1 => clear_value x); (on_goal 2 => simp only [x]))
      | ((try lift_lets -underBinder); intro x; clear_value x)
      | (with_reducible first | apply keeps_winEvent | apply keeps_rsetf | apply keeps_winClear | apply keeps_plainWrite | apply keeps_openWin | apply keeps_ite | apply keeps_ite_fst)
      | (intro _)
      | split)

theorem keeps_execSyncWinDisable {z : State} (f : FuncId) (n : N20) (v : W64) (s : State)  (h : Keeps z s) : KeepsOut z (execSyncWinDisable f n v s) := by
  unfold execSyncWinDisable
  repeat' (first
      | (with_reducible assumption)
      | (with_reducible first | apply keepsOut_next | exact keepsOut_fault)
      | (with_reducible apply keeps_hostWrite; (on_goal 1 => (intro _ _)))
      | (with_reducible first | apply keeps_writeSyncWin | apply keeps_ite | apply keeps_ite_fst)
      | (intro _)
      | split)

theorem keeps_execSyncWinEnable {z : State} (f : FuncId) (n : N20) (v : W64) (s : State)  (h : Keeps z s) : KeepsOut z (execSyncWinEnable f n v s) := by
  unfold execSyncWinEnable
  repeat' (first
      | (with_reducible assumption)
      | (with_reducible first | apply keepsOut_next | exact keepsOut_fault)
      | (with_reducible apply keeps_hostWrite; (on_goal 1 => (intro _ _)))
      | (with_reducible first | apply keeps_writeSyncWin | apply keeps_ite | apply keeps_ite_fst)
      | (intro _)
      | split)

end Sys2Proof.Machine
end

