-- ==== Sys2Proof/Laws/Keeps/Memory.lean ====
section
/-!
SUPPORT. What the functions of Machine/Memory.lean keep (Safety.Keeps).
-/

set_option linter.unusedTactic false
set_option linter.unreachableTactic false

namespace Sys2Proof.Machine

theorem keeps_readBar2 {z : State} (s : State) (f : FuncId) (a : Nat) (n : Nat)  (h : Keeps z s) : Keeps z (readBar2 s f a n) := by
  unfold readBar2
  repeat' (first
      | (with_reducible assumption)
      | ((try lift_lets -underBinder); intro x; refine (fun hx : Keeps z x => ?_) (?_ : Keeps z x); (on_goal 1 => clear_value x); (on_goal 2 => simp only [x]))
      | ((try lift_lets -underBinder); intro x; refine (fun hx : Keeps z x.1 => ?_) (?_ : Keeps z x.1); (on_goal 1 => clear_value x); (on_goal 2 => simp only [x]))
      | ((try lift_lets -underBinder); intro x; clear_value x)
      | (with_reducible first | apply keeps_touchRange | apply keeps_emit)
      | (intro _)
      | split)

theorem keeps_readLine {z : State} (s : State) (u : Nat) (base : Bool)  (h : Keeps z s) : Keeps z (readLine s u base) := by
  unfold readLine
  repeat' (first
      | (with_reducible assumption)
      | (with_reducible first | apply keeps_takeLine | apply keeps_ite | apply keeps_ite_fst)
      | (intro _)
      | split)

theorem keeps_freeSector {z : State} (n : Nat) (s : State) (bs : List Byte) (h : Keeps z s) : Keeps z (freeSector n s bs).1 := by
  induction n generalizing s bs with
  | zero => exact h
  | succ n ih =>
    rw [freeSector]
    exact ih _ _ (keeps_drawFree _ h)

theorem keeps_putUnit {z : State} (s : State) (u : Nat) (bs : List Byte)  (h : Keeps z s) : Keeps z (putUnit s u bs) := by
  unfold putUnit
  repeat' (first
      | (with_reducible assumption)
      | (intro _)
      | split
      | (apply keeps_mk <;> first
          | assumption | with_reducible exact le_rfl | with_reducible exact List.suffix_refl _ | with_reducible exact fun h => h | exact fun _ => tasc_nil
          | with_reducible exact fun h => ⟨h, le_rfl⟩ | exact fun h => ⟨⟨h.1, h.2.1, h.2.2⟩, le_rfl⟩ | exact fun h => twf_tset h
          | exact fun h => twf_twrite h | exact fun h => twf_tclear h | exact fun h => tasc_tset h | exact fun h => tasc_tclear h
          | exact Nat.le_succ _ | exact le_max_left _ _ | exact List.suffix_cons _ _
          | exact fun h => twf_foldl _ (fun _ _ h => twf_tset h) _ _ h | skip)
      | (exact twf_foldl _ (fun _ _ h => twf_tset h) _ _ (by assumption)))

theorem keeps_uncorrectable {z : State} (s : State) (n : N20) (u : Nat)  (h : Keeps z s) : Keeps z (uncorrectable s n u) := by
  unfold uncorrectable
  repeat' (first
      | (with_reducible assumption)
      | ((try lift_lets -underBinder); intro x; refine (fun hx : Keeps z x => ?_) (?_ : Keeps z x); (on_goal 1 => clear_value x); (on_goal 2 => simp only [x]))
      | ((try lift_lets -underBinder); intro x; refine (fun hx : Keeps z x.1 => ?_) (?_ : Keeps z x.1); (on_goal 1 => clear_value x); (on_goal 2 => simp only [x]))
      | ((try lift_lets -underBinder); intro x; clear_value x)
      | (with_reducible first | apply keeps_freeSector | apply keeps_putUnit | apply keeps_rbump | apply keeps_setPoison | apply keeps_rput | apply keeps_logEv | apply keeps_ite | apply keeps_ite_fst)
      | (intro _)
      | split)

theorem keeps_keepError {z : State} (s : State) (u : Nat)  (h : Keeps z s) : Keeps z (keepError s u) := by
  unfold keepError
  repeat' (first
      | (with_reducible assumption)
      | (with_reducible first | apply keeps_ite | apply keeps_ite_fst)
      | (intro _)
      | split
      | (apply keeps_mk <;> first
          | assumption | with_reducible exact le_rfl | with_reducible exact List.suffix_refl _ | with_reducible exact fun h => h | exact fun _ => tasc_nil
          | with_reducible exact fun h => ⟨h, le_rfl⟩ | exact fun h => ⟨⟨h.1, h.2.1, h.2.2⟩, le_rfl⟩ | exact fun h => twf_tset h
          | exact fun h => twf_twrite h | exact fun h => twf_tclear h | exact fun h => tasc_tset h | exact fun h => tasc_tclear h
          | exact Nat.le_succ _ | exact le_max_left _ _ | exact List.suffix_cons _ _
          | exact fun h => twf_foldl _ (fun _ _ h => twf_tset h) _ _ h | skip)
      | (exact twf_foldl _ (fun _ _ h => twf_tset h) _ _ (by assumption)))

theorem keeps_sectorFind {z : State} (s : State) (u : Nat) (found : SectorFind)  (h : Keeps z s) : Keeps z (sectorFind s u found) := by
  unfold sectorFind
  repeat' (first
      | (with_reducible assumption)
      | ((try lift_lets -underBinder); intro x; refine (fun hx : Keeps z x => ?_) (?_ : Keeps z x); (on_goal 1 => clear_value x); (on_goal 2 => simp only [x]))
      | ((try lift_lets -underBinder); intro x; refine (fun hx : Keeps z x.1 => ?_) (?_ : Keeps z x.1); (on_goal 1 => clear_value x); (on_goal 2 => simp only [x]))
      | ((try lift_lets -underBinder); intro x; clear_value x)
      | (with_reducible first | apply keeps_eccCheck | apply keeps_rbump | apply keeps_uncorrectable | apply keeps_eccRecord | apply keeps_keepError | apply keeps_ite | apply keeps_ite_fst)
      | (intro _)
      | split)

theorem keeps_reqReduce {z : State} (s : State) (q : MemReq)  (h : Keeps z s) : Keeps z (reqReduce s q) := by
  unfold reqReduce
  repeat' (first
      | (with_reducible assumption)
      | ((try lift_lets -underBinder); intro x; refine (fun hx : Keeps z x => ?_) (?_ : Keeps z x); (on_goal 1 => clear_value x); (on_goal 2 => simp only [x]))
      | ((try lift_lets -underBinder); intro x; refine (fun hx : Keeps z x.1 => ?_) (?_ : Keeps z x.1); (on_goal 1 => clear_value x); (on_goal 2 => simp only [x]))
      | ((try lift_lets -underBinder); intro x; clear_value x)
      | (with_reducible first | apply keeps_redElem | apply keeps_redLine | apply keeps_ite | apply keeps_ite_fst)
      | (with_reducible refine keeps_foldl _ _ _ ?_ ?_; (on_goal 1 => (intro _ _ _)))
      | (with_reducible refine keeps_foldl_fst _ _ _ ?_ ?_; (on_goal 1 => (intro _ _ _)))
      | (intro _)
      | split)

theorem keeps_applyReq {z : State} (s : State) (q : MemReq)  (h : Keeps z s) : Keeps z (applyReq s q) := by
  unfold applyReq
  repeat' (first
      | (with_reducible assumption)
      | ((try lift_lets -underBinder); intro x; refine (fun hx : Keeps z x => ?_) (?_ : Keeps z x); (on_goal 1 => clear_value x); (on_goal 2 => simp only [x]))
      | ((try lift_lets -underBinder); intro x; refine (fun hx : Keeps z x.1 => ?_) (?_ : Keeps z x.1); (on_goal 1 => clear_value x); (on_goal 2 => simp only [x]))
      | ((try lift_lets -underBinder); intro x; clear_value x)
      | (with_reducible first | apply keeps_readLine | apply keeps_sectorFind | apply keeps_putMasked | apply keeps_writeMaskedAs | apply keeps_reqReduce | apply keeps_ite | apply keeps_ite_fst)
      | (intro _)
      | split)

theorem keeps_applyHeld {z : State} (s : State) (a1 : HeldAcc)  (h : Keeps z s) : Keeps z (applyHeld s a1) := by
  unfold applyHeld
  repeat' (first
      | (with_reducible assumption)
      | (with_reducible first | apply keeps_applyReq | apply keeps_readBar2 | apply keeps_writeAll | apply keeps_sendFill)
      | (intro _)
      | split)

theorem keeps_dropHeld {z : State} (s : State) (a1 : HeldAcc)  (h : Keeps z s) : Keeps z (dropHeld s a1) := by
  unfold dropHeld
  repeat' (first
      | (with_reducible assumption)
      | (with_reducible first | apply keeps_emit)
      | (intro _)
      | split)

theorem keeps_recalNow {z : State} (s : State) (u : RecalUnit)  (h : Keeps z s) : Keeps z (recalNow s u) := by
  unfold recalNow
  repeat' (first
      | (with_reducible assumption)
      | ((try lift_lets -underBinder); intro x; refine (fun hx : Keeps z x => ?_) (?_ : Keeps z x); (on_goal 1 => clear_value x); (on_goal 2 => simp only [x]))
      | ((try lift_lets -underBinder); intro x; refine (fun hx : Keeps z x.1 => ?_) (?_ : Keeps z x.1); (on_goal 1 => clear_value x); (on_goal 2 => simp only [x]))
      | ((try lift_lets -underBinder); intro x; clear_value x)
      | (intro _)
      | split
      | (apply keeps_mk <;> first
          | assumption | with_reducible exact le_rfl | with_reducible exact List.suffix_refl _ | with_reducible exact fun h => h | exact fun _ => tasc_nil
          | with_reducible exact fun h => ⟨h, le_rfl⟩ | exact fun h => ⟨⟨h.1, h.2.1, h.2.2⟩, le_rfl⟩ | exact fun h => twf_tset h
          | exact fun h => twf_twrite h | exact fun h => twf_tclear h | exact fun h => tasc_tset h | exact fun h => tasc_tclear h
          | exact Nat.le_succ _ | exact le_max_left _ _ | exact List.suffix_cons _ _
          | exact fun h => twf_foldl _ (fun _ _ h => twf_tset h) _ _ h | skip)
      | (exact twf_foldl _ (fun _ _ h => twf_tset h) _ _ (by assumption)))

theorem keeps_enterRecal {z : State} (s : State) (n : N20)  (h : Keeps z s) : Keeps z (enterRecal s n) := by
  unfold enterRecal
  repeat' (first
      | (with_reducible assumption)
      | (with_reducible first | apply keeps_rsetf | apply keeps_recalNow | apply keeps_ite | apply keeps_ite_fst)
      | (intro _)
      | split)

theorem keeps_execDramTempUpdate {z : State} (n : N20) (temp : Byte) (s : State)  (h : Keeps z s) : KeepsOut z (execDramTempUpdate n temp s) := by
  unfold execDramTempUpdate
  repeat' (first
      | (with_reducible assumption)
      | (with_reducible first | apply keepsOut_next | exact keepsOut_fault)
      | (with_reducible first | apply keeps_rsetf | apply keeps_ite | apply keeps_ite_fst)
      | (intro _)
      | split)

theorem keeps_useSlot {z : State} (s : State) (k : Nat)  (h : Keeps z s) : Keeps z (useSlot s k) := by
  unfold useSlot
  repeat' (first
      | (with_reducible assumption)
      | ((try lift_lets -underBinder); intro x; refine (fun hx : Keeps z x => ?_) (?_ : Keeps z x); (on_goal 1 => clear_value x); (on_goal 2 => simp only [x]))
      | ((try lift_lets -underBinder); intro x; refine (fun hx : Keeps z x.1 => ?_) (?_ : Keeps z x.1); (on_goal 1 => clear_value x); (on_goal 2 => simp only [x]))
      | ((try lift_lets -underBinder); intro x; clear_value x)
      | (intro _)
      | split
      | (apply keeps_mk <;> first
          | assumption | with_reducible exact le_rfl | with_reducible exact List.suffix_refl _ | with_reducible exact fun h => h | exact fun _ => tasc_nil
          | with_reducible exact fun h => ⟨h, le_rfl⟩ | exact fun h => ⟨⟨h.1, h.2.1, h.2.2⟩, le_rfl⟩ | exact fun h => twf_tset h
          | exact fun h => twf_twrite h | exact fun h => twf_tclear h | exact fun h => tasc_tset h | exact fun h => tasc_tclear h
          | exact Nat.le_succ _ | exact le_max_left _ _ | exact List.suffix_cons _ _
          | exact fun h => twf_foldl _ (fun _ _ h => twf_tset h) _ _ h | skip)
      | (exact twf_foldl _ (fun _ _ h => twf_tset h) _ _ (by assumption)))

theorem keeps_execHbmPhyRecal {z : State} (n : N20) (s : State)  (h : Keeps z s) : KeepsOut z (execHbmPhyRecal n s) := by
  unfold execHbmPhyRecal
  repeat' (first
      | (with_reducible assumption)
      | (with_reducible first | apply keepsOut_next | exact keepsOut_fault)
      | (with_reducible first | apply keeps_useSlot | apply keeps_enterRecal | apply keeps_ite | apply keeps_ite_fst)
      | (intro _)
      | split)

theorem keeps_execHbmRefresh {z : State} (n : N20) (s : State)  (h : Keeps z s) : KeepsOut z (execHbmRefresh n s) := by
  unfold execHbmRefresh
  repeat' (first
      | (with_reducible assumption)
      | (with_reducible first | apply keepsOut_next | exact keepsOut_fault)
      | ((try lift_lets -underBinder); intro x; refine (fun hx : Keeps z x => ?_) (?_ : Keeps z x); (on_goal 1 => clear_value x); (on_goal 2 => simp only [x]))
      | ((try lift_lets -underBinder); intro x; refine (fun hx : Keeps z x.1 => ?_) (?_ : Keeps z x.1); (on_goal 1 => clear_value x); (on_goal 2 => simp only [x]))
      | ((try lift_lets -underBinder); intro x; clear_value x)
      | (with_reducible first | apply keeps_ite | apply keeps_ite_fst)
      | (intro _)
      | split
      | (apply keeps_mk <;> first
          | assumption | with_reducible exact le_rfl | with_reducible exact List.suffix_refl _ | with_reducible exact fun h => h | exact fun _ => tasc_nil
          | with_reducible exact fun h => ⟨h, le_rfl⟩ | exact fun h => ⟨⟨h.1, h.2.1, h.2.2⟩, le_rfl⟩ | exact fun h => twf_tset h
          | exact fun h => twf_twrite h | exact fun h => twf_tclear h | exact fun h => tasc_tset h | exact fun h => tasc_tclear h
          | exact Nat.le_succ _ | exact le_max_left _ _ | exact List.suffix_cons _ _
          | exact fun h => twf_foldl _ (fun _ _ h => twf_tset h) _ _ h | skip)
      | (exact twf_foldl _ (fun _ _ h => twf_tset h) _ _ (by assumption)))

theorem keeps_execMemoryRequestArrive {z : State} (q : MemReq) (s : State)  (h : Keeps z s) : KeepsOut z (execMemoryRequestArrive q s) := by
  unfold execMemoryRequestArrive
  repeat' (first
      | (with_reducible assumption)
      | (with_reducible first | apply keepsOut_next | exact keepsOut_fault)
      | (with_reducible first | apply keeps_logEv | apply keeps_applyReq | apply keeps_ite | apply keeps_ite_fst)
      | (intro _)
      | split
      | (apply keeps_mk <;> first
          | assumption | with_reducible exact le_rfl | with_reducible exact List.suffix_refl _ | with_reducible exact fun h => h | exact fun _ => tasc_nil
          | with_reducible exact fun h => ⟨h, le_rfl⟩ | exact fun h => ⟨⟨h.1, h.2.1, h.2.2⟩, le_rfl⟩ | exact fun h => twf_tset h
          | exact fun h => twf_twrite h | exact fun h => twf_tclear h | exact fun h => tasc_tset h | exact fun h => tasc_tclear h
          | exact Nat.le_succ _ | exact le_max_left _ _ | exact List.suffix_cons _ _
          | exact fun h => twf_foldl _ (fun _ _ h => twf_tset h) _ _ h | skip)
      | (exact twf_foldl _ (fun _ _ h => twf_tset h) _ _ (by assumption)))

theorem keeps_patrolMove {z : State} (s : State) (n : N20) (i : Nat)  (h : Keeps z s) : Keeps z (patrolMove s n i) := by
  unfold patrolMove
  repeat' (first
      | (with_reducible assumption)
      | ((try lift_lets -underBinder); intro x; refine (fun hx : Keeps z x => ?_) (?_ : Keeps z x); (on_goal 1 => clear_value x); (on_goal 2 => simp only [x]))
      | ((try lift_lets -underBinder); intro x; refine (fun hx : Keeps z x.1 => ?_) (?_ : Keeps z x.1); (on_goal 1 => clear_value x); (on_goal 2 => simp only [x]))
      | ((try lift_lets -underBinder); intro x; clear_value x)
      | (with_reducible first | apply keeps_rsetf | apply keeps_rbump | apply keeps_ite | apply keeps_ite_fst)
      | (intro _)
      | split
      | (apply keeps_mk <;> first
          | assumption | with_reducible exact le_rfl | with_reducible exact List.suffix_refl _ | with_reducible exact fun h => h | exact fun _ => tasc_nil
          | with_reducible exact fun h => ⟨h, le_rfl⟩ | exact fun h => ⟨⟨h.1, h.2.1, h.2.2⟩, le_rfl⟩ | exact fun h => twf_tset h
          | exact fun h => twf_twrite h | exact fun h => twf_tclear h | exact fun h => tasc_tset h | exact fun h => tasc_tclear h
          | exact Nat.le_succ _ | exact le_max_left _ _ | exact List.suffix_cons _ _
          | exact fun h => twf_foldl _ (fun _ _ h => twf_tset h) _ _ h | skip)
      | (exact twf_foldl _ (fun _ _ h => twf_tset h) _ _ (by assumption)))

theorem keeps_execPatrolScrubRead {z : State} (n : N20) (found : SectorFind) (intervened : Bool) (s : State)  (h : Keeps z s) : KeepsOut z (execPatrolScrubRead n found intervened s) := by
  unfold execPatrolScrubRead
  repeat' (first
      | (with_reducible assumption)
      | (with_reducible first | apply keepsOut_next | exact keepsOut_fault)
      | ((try lift_lets -underBinder); intro x; refine (fun hx : Keeps z x => ?_) (?_ : Keeps z x); (on_goal 1 => clear_value x); (on_goal 2 => simp only [x]))
      | ((try lift_lets -underBinder); intro x; refine (fun hx : Keeps z x.1 => ?_) (?_ : Keeps z x.1); (on_goal 1 => clear_value x); (on_goal 2 => simp only [x]))
      | ((try lift_lets -underBinder); intro x; clear_value x)
      | (with_reducible first | apply keeps_patrolMove | apply keeps_sectorFind | apply keeps_freshSector | apply keeps_ite | apply keeps_ite_fst)
      | (intro _)
      | split)

theorem keeps_forcedUse {z : State} (s : State) (u : RecalUnit) (t : State)  (h : Keeps z t) : Keeps z (forcedUse s u t) := by
  unfold forcedUse
  repeat' (first
      | (with_reducible assumption)
      | (with_reducible first | apply keeps_useSlot | apply keeps_ite | apply keeps_ite_fst)
      | (intro _)
      | split)

theorem keeps_setOverdue {z : State} (s : State) (u : RecalUnit) (b : Bool)  (h : Keeps z s) : Keeps z (setOverdue s u b) := by
  unfold setOverdue
  repeat' (first
      | (with_reducible assumption)
      | ((try lift_lets -underBinder); intro x; refine (fun hx : Keeps z x => ?_) (?_ : Keeps z x); (on_goal 1 => clear_value x); (on_goal 2 => simp only [x]))
      | ((try lift_lets -underBinder); intro x; refine (fun hx : Keeps z x.1 => ?_) (?_ : Keeps z x.1); (on_goal 1 => clear_value x); (on_goal 2 => simp only [x]))
      | ((try lift_lets -underBinder); intro x; clear_value x)
      | (intro _)
      | split
      | (apply keeps_mk <;> first
          | assumption | with_reducible exact le_rfl | with_reducible exact List.suffix_refl _ | with_reducible exact fun h => h | exact fun _ => tasc_nil
          | with_reducible exact fun h => ⟨h, le_rfl⟩ | exact fun h => ⟨⟨h.1, h.2.1, h.2.2⟩, le_rfl⟩ | exact fun h => twf_tset h
          | exact fun h => twf_twrite h | exact fun h => twf_tclear h | exact fun h => tasc_tset h | exact fun h => tasc_tclear h
          | exact Nat.le_succ _ | exact le_max_left _ _ | exact List.suffix_cons _ _
          | exact fun h => twf_foldl _ (fun _ _ h => twf_tset h) _ _ h | skip)
      | (exact twf_foldl _ (fun _ _ h => twf_tset h) _ _ (by assumption)))

theorem keeps_recalPort {z : State} (s : State) (p : PortId) (ok : Bool)  (h : Keeps z s) : Keeps z (recalPort s p ok) := by
  unfold recalPort
  repeat' (first
      | (with_reducible assumption)
      | ((try lift_lets -underBinder); intro x; refine (fun hx : Keeps z x => ?_) (?_ : Keeps z x); (on_goal 1 => clear_value x); (on_goal 2 => simp only [x]))
      | ((try lift_lets -underBinder); intro x; refine (fun hx : Keeps z x.1 => ?_) (?_ : Keeps z x.1); (on_goal 1 => clear_value x); (on_goal 2 => simp only [x]))
      | ((try lift_lets -underBinder); intro x; clear_value x)
      | (with_reducible first | apply keeps_setOverdue | apply keeps_recalNow | apply keeps_rsetf | apply keeps_ite | apply keeps_ite_fst)
      | (intro _)
      | split)

theorem keeps_execRecalForced {z : State} (u : RecalUnit) (s : State)  (h : Keeps z s) : KeepsOut z (execRecalForced u s) := by
  unfold execRecalForced
  repeat' (first
      | (with_reducible assumption)
      | (with_reducible first | apply keepsOut_next | exact keepsOut_fault)
      | (with_reducible first | apply keeps_forcedUse | apply keeps_enterRecal | apply keeps_recalPort | apply keeps_ite | apply keeps_ite_fst)
      | (intro _)
      | split)

theorem keeps_execRecalOverdue {z : State} (u : RecalUnit) (s : State)  (h : Keeps z s) : KeepsOut z (execRecalOverdue u s) := by
  unfold execRecalOverdue
  repeat' (first
      | (with_reducible assumption)
      | (with_reducible first | apply keepsOut_next | exact keepsOut_fault)
      | ((try lift_lets -underBinder); intro x; refine (fun hx : Keeps z x => ?_) (?_ : Keeps z x); (on_goal 1 => clear_value x); (on_goal 2 => simp only [x]))
      | ((try lift_lets -underBinder); intro x; refine (fun hx : Keeps z x.1 => ?_) (?_ : Keeps z x.1); (on_goal 1 => clear_value x); (on_goal 2 => simp only [x]))
      | ((try lift_lets -underBinder); intro x; clear_value x)
      | (with_reducible first | apply keeps_setOverdue | apply keeps_logEv | apply keeps_ite | apply keeps_ite_fst)
      | (intro _)
      | split)

theorem keeps_execSerdesRecal {z : State} (p : PortId) (ok : Bool) (s : State)  (h : Keeps z s) : KeepsOut z (execSerdesRecal p ok s) := by
  unfold execSerdesRecal
  repeat' (first
      | (with_reducible assumption)
      | (with_reducible first | apply keepsOut_next | exact keepsOut_fault)
      | (with_reducible first | apply keeps_useSlot | apply keeps_recalPort | apply keeps_ite | apply keeps_ite_fst)
      | (intro _)
      | split)

theorem keeps_failStack {z : State} (s : State) (n : N20)  (h : Keeps z s) : Keeps z (failStack s n) := by
  unfold failStack
  repeat' (first
      | (with_reducible assumption)
      | ((try lift_lets -underBinder); intro x; refine (fun hx : Keeps z x => ?_) (?_ : Keeps z x); (on_goal 1 => clear_value x); (on_goal 2 => simp only [x]))
      | ((try lift_lets -underBinder); intro x; refine (fun hx : Keeps z x.1 => ?_) (?_ : Keeps z x.1); (on_goal 1 => clear_value x); (on_goal 2 => simp only [x]))
      | ((try lift_lets -underBinder); intro x; clear_value x)
      | (with_reducible first | apply keeps_rsetf | apply keeps_releaseFills | apply keeps_dropHeld | apply keeps_logEv | apply keeps_ite | apply keeps_ite_fst)
      | (with_reducible refine keeps_foldl _ _ _ ?_ ?_; (on_goal 1 => (intro _ _ _)))
      | (with_reducible refine keeps_foldl_fst _ _ _ ?_ ?_; (on_goal 1 => (intro _ _ _)))
      | (intro _)
      | split
      | (apply keeps_mk <;> first
          | assumption | with_reducible exact le_rfl | with_reducible exact List.suffix_refl _ | with_reducible exact fun h => h | exact fun _ => tasc_nil
          | with_reducible exact fun h => ⟨h, le_rfl⟩ | exact fun h => ⟨⟨h.1, h.2.1, h.2.2⟩, le_rfl⟩ | exact fun h => twf_tset h
          | exact fun h => twf_twrite h | exact fun h => twf_tclear h | exact fun h => tasc_tset h | exact fun h => tasc_tclear h
          | exact Nat.le_succ _ | exact le_max_left _ _ | exact List.suffix_cons _ _
          | exact fun h => twf_foldl _ (fun _ _ h => twf_tset h) _ _ h | skip)
      | (exact twf_foldl _ (fun _ _ h => twf_tset h) _ _ (by assumption)))

theorem keeps_serveHeld {z : State} (s : State)  (h : Keeps z s) : Keeps z (serveHeld s) := by
  unfold serveHeld
  repeat' (first
      | (with_reducible assumption)
      | (with_reducible first | apply keeps_releaseFills | apply keeps_applyHeld)
      | (with_reducible refine keeps_foldl _ _ _ ?_ ?_; (on_goal 1 => (intro _ _ _)))
      | (with_reducible refine keeps_foldl_fst _ _ _ ?_ ?_; (on_goal 1 => (intro _ _ _)))
      | (intro _)
      | split
      | (apply keeps_mk <;> first
          | assumption | with_reducible exact le_rfl | with_reducible exact List.suffix_refl _ | with_reducible exact fun h => h | exact fun _ => tasc_nil
          | with_reducible exact fun h => ⟨h, le_rfl⟩ | exact fun h => ⟨⟨h.1, h.2.1, h.2.2⟩, le_rfl⟩ | exact fun h => twf_tset h
          | exact fun h => twf_twrite h | exact fun h => twf_tclear h | exact fun h => tasc_tset h | exact fun h => tasc_tclear h
          | exact Nat.le_succ _ | exact le_max_left _ _ | exact List.suffix_cons _ _
          | exact fun h => twf_foldl _ (fun _ _ h => twf_tset h) _ _ h | skip)
      | (exact twf_foldl _ (fun _ _ h => twf_tset h) _ _ (by assumption)))

theorem keeps_leaveRecal {z : State} (s : State) (n : N20)  (h : Keeps z s) : Keeps z (leaveRecal s n) := by
  unfold leaveRecal
  repeat' (first
      | (with_reducible assumption)
      | (with_reducible first | apply keeps_serveHeld | apply keeps_setOverdue | apply keeps_rsetf)
      | (intro _)
      | split)

end Sys2Proof.Machine
end

