-- ==== Sys2Proof/Laws/Keeps/UpdateOps.lean ====
section
/-!
SUPPORT. What the functions of Machine/UpdateOps.lean keep (Safety.Keeps).
-/

set_option linter.unusedTactic false
set_option linter.unreachableTactic false

namespace Sys2Proof.Machine

theorem keeps_exchFill {z : State} (s : State) (x : N20) (chan : Nat) (i : Nat) (a : Nat) (v : W64)  (h : Keeps z s) : Keeps z (exchFill s x chan i a v) := by
  unfold exchFill
  repeat' (first
      | (with_reducible assumption)
      | (with_reducible first | apply keeps_logNoWord | apply keeps_ite | apply keeps_ite_fst)
      | (intro _)
      | split
      | (apply keeps_mk <;> first
          | assumption | with_reducible exact le_rfl | with_reducible exact List.suffix_refl _ | with_reducible exact fun h => h | exact fun _ => tasc_nil
          | with_reducible exact fun h => ⟨h, le_rfl⟩ | exact fun h => ⟨⟨h.1, h.2.1, h.2.2⟩, le_rfl⟩ | exact fun h => twf_tset h
          | exact fun h => twf_twrite h | exact fun h => twf_tclear h | exact fun h => tasc_tset h | exact fun h => tasc_tclear h
          | exact Nat.le_succ _ | exact le_max_left _ _ | exact List.suffix_cons _ _
          | exact fun h => twf_foldl _ (fun _ _ h => twf_tset h) _ _ h | skip)
      | (exact twf_foldl _ (fun _ _ h => twf_tset h) _ _ (by assumption)))

theorem keeps_fillStepWord {z : State} (s : State) (x : N20) (step : Nat) (moult : Bool)  (h : Keeps z s) : Keeps z (fillStepWord s x step moult) := by
  unfold fillStepWord
  repeat' (first
      | (with_reducible assumption)
      | ((try lift_lets -underBinder); intro x; refine (fun hx : Keeps z x => ?_) (?_ : Keeps z x); (on_goal 1 => clear_value x); (on_goal 2 => simp only [x]))
      | ((try lift_lets -underBinder); intro x; refine (fun hx : Keeps z x.1 => ?_) (?_ : Keeps z x.1); (on_goal 1 => clear_value x); (on_goal 2 => simp only [x]))
      | ((try lift_lets -underBinder); intro x; clear_value x)
      | (with_reducible first | apply keeps_exchFill | apply keeps_ite | apply keeps_ite_fst)
      | (intro _)
      | split)

theorem keeps_updBusy {z : State} (s : State) (n : N20)  (h : Keeps z s) : Keeps z (updBusy s n) := by
  unfold updBusy
  repeat' (first
      | (with_reducible assumption)
      | (with_reducible first | apply keeps_logEv)
      | (intro _)
      | split)

theorem keeps_combineAlone {z : State} (s : State) (x : N20)  (h : Keeps z s) : Keeps z (combineAlone s x) := by
  unfold combineAlone
  repeat' (first
      | (with_reducible assumption)
      | ((try lift_lets -underBinder); intro x; refine (fun hx : Keeps z x => ?_) (?_ : Keeps z x); (on_goal 1 => clear_value x); (on_goal 2 => simp only [x]))
      | ((try lift_lets -underBinder); intro x; refine (fun hx : Keeps z x.1 => ?_) (?_ : Keeps z x.1); (on_goal 1 => clear_value x); (on_goal 2 => simp only [x]))
      | ((try lift_lets -underBinder); intro x; clear_value x)
      | (with_reducible first | apply keeps_putBuu | apply keeps_fillStepWord | apply keeps_putFab | apply keeps_ite | apply keeps_ite_fst)
      | (with_reducible refine keeps_foldl _ _ _ ?_ ?_; (on_goal 1 => (intro _ _ _)))
      | (with_reducible refine keeps_foldl_fst _ _ _ ?_ ?_; (on_goal 1 => (intro _ _ _)))
      | (intro _)
      | split)

theorem keeps_combineRest {z : State} (s : State) (n : N20)  (h : Keeps z s) : Keeps z (combineRest s n) := by
  unfold combineRest
  repeat' (first
      | (with_reducible assumption)
      | (with_reducible first | apply keeps_combineAlone | apply keeps_ite | apply keeps_ite_fst)
      | (intro _)
      | split)

theorem keeps_writeUpdCtl {z : State} (s : State) (f : FuncId) (n : N20) (v : W64)  (h : Keeps z s) : Keeps z (writeUpdCtl s f n v) := by
  unfold writeUpdCtl
  repeat' (first
      | (with_reducible assumption)
      | ((try lift_lets -underBinder); intro x; refine (fun hx : Keeps z x => ?_) (?_ : Keeps z x); (on_goal 1 => clear_value x); (on_goal 2 => simp only [x]))
      | ((try lift_lets -underBinder); intro x; refine (fun hx : Keeps z x.1 => ?_) (?_ : Keeps z x.1); (on_goal 1 => clear_value x); (on_goal 2 => simp only [x]))
      | ((try lift_lets -underBinder); intro x; clear_value x)
      | (with_reducible first | apply keeps_rsetf | apply keeps_logAccess | apply keeps_updBusy | apply keeps_combineRest | apply keeps_abortBuu | apply keeps_logEv | apply keeps_enableBuu | apply keeps_drainBuu | apply keeps_ite | apply keeps_ite_fst)
      | (intro _)
      | split)

theorem keeps_execBuuGradWordTaken {z : State} (n : N20) (s : State)  (h : Keeps z s) : KeepsOut z (execBuuGradWordTaken n s) := by
  unfold execBuuGradWordTaken
  repeat' (first
      | (with_reducible assumption)
      | (with_reducible first | apply keepsOut_next | exact keepsOut_fault)
      | ((try lift_lets -underBinder); intro x; refine (fun hx : Keeps z x => ?_) (?_ : Keeps z x); (on_goal 1 => clear_value x); (on_goal 2 => simp only [x]))
      | ((try lift_lets -underBinder); intro x; refine (fun hx : Keeps z x.1 => ?_) (?_ : Keeps z x.1); (on_goal 1 => clear_value x); (on_goal 2 => simp only [x]))
      | ((try lift_lets -underBinder); intro x; clear_value x)
      | (with_reducible first | apply keeps_beginPass1 | apply keeps_dropFe | apply keeps_feSet | apply keeps_ite | apply keeps_ite_fst)
      | (intro _)
      | split)

theorem keeps_execBuuPass1End {z : State} (n : N20) (s : State)  (h : Keeps z s) : KeepsOut z (execBuuPass1End n s) := by
  unfold execBuuPass1End
  repeat' (first
      | (with_reducible assumption)
      | (with_reducible first | apply keepsOut_next | exact keepsOut_fault)
      | ((try lift_lets -underBinder); intro x; refine (fun hx : Keeps z x => ?_) (?_ : Keeps z x); (on_goal 1 => clear_value x); (on_goal 2 => simp only [x]))
      | ((try lift_lets -underBinder); intro x; refine (fun hx : Keeps z x.1 => ?_) (?_ : Keeps z x.1); (on_goal 1 => clear_value x); (on_goal 2 => simp only [x]))
      | ((try lift_lets -underBinder); intro x; clear_value x)
      | (with_reducible first | apply keeps_putBuu | apply keeps_combineAlone | apply keeps_putFab | apply keeps_ite | apply keeps_ite_fst)
      | (intro _)
      | split)

theorem keeps_execBuuPass2Program {z : State} (n : N20) (s : State)  (h : Keeps z s) : KeepsOut z (execBuuPass2Program n s) := by
  unfold execBuuPass2Program
  repeat' (first
      | (with_reducible assumption)
      | (with_reducible first | apply keepsOut_next | exact keepsOut_fault)
      | ((try lift_lets -underBinder); intro x; refine (fun hx : Keeps z x => ?_) (?_ : Keeps z x); (on_goal 1 => clear_value x); (on_goal 2 => simp only [x]))
      | ((try lift_lets -underBinder); intro x; refine (fun hx : Keeps z x.1 => ?_) (?_ : Keeps z x.1); (on_goal 1 => clear_value x); (on_goal 2 => simp only [x]))
      | ((try lift_lets -underBinder); intro x; clear_value x)
      | (with_reducible first | apply keeps_beginPass2 | apply keeps_putBuu | apply keeps_ite | apply keeps_ite_fst)
      | (intro _)
      | split)

theorem keeps_execBuuProgramDone {z : State} (n : N20) (s : State)  (h : Keeps z s) : KeepsOut z (execBuuProgramDone n s) := by
  unfold execBuuProgramDone
  repeat' (first
      | (with_reducible assumption)
      | (with_reducible first | apply keepsOut_next | exact keepsOut_fault)
      | ((try lift_lets -underBinder); intro x; refine (fun hx : Keeps z x => ?_) (?_ : Keeps z x); (on_goal 1 => clear_value x); (on_goal 2 => simp only [x]))
      | ((try lift_lets -underBinder); intro x; refine (fun hx : Keeps z x.1 => ?_) (?_ : Keeps z x.1); (on_goal 1 => clear_value x); (on_goal 2 => simp only [x]))
      | ((try lift_lets -underBinder); intro x; clear_value x)
      | (with_reducible first | apply keeps_combineRest | apply keeps_programDone | apply keeps_ite | apply keeps_ite_fst)
      | (intro _)
      | split)

theorem keeps_execBuuSpan {z : State} (n : N20) (s : State)  (h : Keeps z s) : KeepsOut z (execBuuSpan n s) := by
  unfold execBuuSpan
  repeat' (first
      | (with_reducible assumption)
      | (with_reducible first | apply keepsOut_next | exact keepsOut_fault)
      | (with_reducible first | apply keeps_buuSpan)
      | (intro _)
      | split)

theorem keeps_execHbmRecalEnd {z : State} (n : N20) (ok : Bool) (s : State)  (h : Keeps z s) : KeepsOut z (execHbmRecalEnd n ok s) := by
  unfold execHbmRecalEnd
  repeat' (first
      | (with_reducible assumption)
      | (with_reducible first | apply keepsOut_next | exact keepsOut_fault)
      | (with_reducible first | apply keeps_buuNext | apply keeps_leaveRecal | apply keeps_failStack | apply keeps_ite | apply keeps_ite_fst)
      | (intro _)
      | split)

theorem keeps_execNormRecordWrite {z : State} (src : NormSrc) (n : N20) (v : W64) (s : State)  (h : Keeps z s) : KeepsOut z (execNormRecordWrite src n v s) := by
  unfold execNormRecordWrite
  repeat' (first
      | (with_reducible assumption)
      | (with_reducible first | apply keepsOut_next | exact keepsOut_fault)
      | ((try lift_lets -underBinder); intro x; refine (fun hx : Keeps z x => ?_) (?_ : Keeps z x); (on_goal 1 => clear_value x); (on_goal 2 => simp only [x]))
      | ((try lift_lets -underBinder); intro x; refine (fun hx : Keeps z x.1 => ?_) (?_ : Keeps z x.1); (on_goal 1 => clear_value x); (on_goal 2 => simp only [x]))
      | ((try lift_lets -underBinder); intro x; clear_value x)
      | (with_reducible apply keeps_hostWrite; (on_goal 1 => (intro _ _)))
      | (with_reducible first | apply keeps_acceptNorm | apply keeps_putBuu | apply keeps_ite | apply keeps_ite_fst)
      | (intro _)
      | split)

theorem keeps_execUpdateAbort {z : State} (f : FuncId) (n : N20) (v : W64) (s : State)  (h : Keeps z s) : KeepsOut z (execUpdateAbort f n v s) := by
  unfold execUpdateAbort
  repeat' (first
      | (with_reducible assumption)
      | (with_reducible first | apply keepsOut_next | exact keepsOut_fault)
      | (with_reducible apply keeps_hostWrite; (on_goal 1 => (intro _ _)))
      | (with_reducible first | apply keeps_writeUpdCtl | apply keeps_ite | apply keeps_ite_fst)
      | (intro _)
      | split)

theorem keeps_execUpdateDrain {z : State} (f : FuncId) (n : N20) (v : W64) (s : State)  (h : Keeps z s) : KeepsOut z (execUpdateDrain f n v s) := by
  unfold execUpdateDrain
  repeat' (first
      | (with_reducible assumption)
      | (with_reducible first | apply keepsOut_next | exact keepsOut_fault)
      | (with_reducible apply keeps_hostWrite; (on_goal 1 => (intro _ _)))
      | (with_reducible first | apply keeps_writeUpdCtl | apply keeps_ite | apply keeps_ite_fst)
      | (intro _)
      | split)

theorem keeps_execUpdateEnable {z : State} (f : FuncId) (n : N20) (v : W64) (s : State)  (h : Keeps z s) : KeepsOut z (execUpdateEnable f n v s) := by
  unfold execUpdateEnable
  repeat' (first
      | (with_reducible assumption)
      | (with_reducible first | apply keepsOut_next | exact keepsOut_fault)
      | (with_reducible apply keeps_hostWrite; (on_goal 1 => (intro _ _)))
      | (with_reducible first | apply keeps_writeUpdCtl | apply keeps_ite | apply keeps_ite_fst)
      | (intro _)
      | split)

end Sys2Proof.Machine
end

