-- ==== Sys2Proof/Laws/Keeps/Fabric.lean ====
section
/-!
SUPPORT. What the functions of Machine/Fabric.lean keep (Safety.Keeps).
-/

set_option linter.unusedTactic false
set_option linter.unreachableTactic false

namespace Sys2Proof.Machine

theorem keeps_addElem {z : State} (acc : State × Option Nat) (x : N20) (bf : Bool) (a : Nat) (scale : W32) (v : W32) (p : Bool)  (h : Keeps z acc.1) : Keeps z (addElem acc x bf a scale v p).1 := by
  unfold addElem
  repeat' (first
      | (with_reducible assumption)
      | ((try lift_lets -underBinder); intro x; refine (fun hx : Keeps z x => ?_) (?_ : Keeps z x); (on_goal 1 => clear_value x); (on_goal 2 => simp only [x]))
      | ((try lift_lets -underBinder); intro x; refine (fun hx : Keeps z x.1 => ?_) (?_ : Keeps z x.1); (on_goal 1 => clear_value x); (on_goal 2 => simp only [x]))
      | ((try lift_lets -underBinder); intro x; clear_value x)
      | (with_reducible first | apply keeps_redTouch | apply keeps_redElem | apply keeps_ite | apply keeps_ite_fst)
      | (intro _)
      | split)

theorem keeps_applyNormRec {z : State} (s : State) (x : N20) (step : Nat) (n : W32) (moult : Bool)  (h : Keeps z s) : Keeps z (applyNormRec s x step n moult) := by
  unfold applyNormRec
  repeat' (first
      | (with_reducible assumption)
      | (with_reducible first | apply keeps_fillStepWord | apply keeps_acceptNorm)
      | (with_reducible refine keeps_foldl _ _ _ ?_ ?_; (on_goal 1 => (intro _ _ _)))
      | (with_reducible refine keeps_foldl_fst _ _ _ ?_ ?_; (on_goal 1 => (intro _ _ _)))
      | (intro _)
      | split)

theorem keeps_writeResid {z : State} (s : State) (a : Nat) (rs : List (W32 × Bool))  (h : Keeps z s) : Keeps z (writeResid s a rs) := by
  unfold writeResid
  repeat' (first
      | (with_reducible assumption)
      | ((try lift_lets -underBinder); intro x; refine (fun hx : Keeps z x => ?_) (?_ : Keeps z x); (on_goal 1 => clear_value x); (on_goal 2 => simp only [x]))
      | ((try lift_lets -underBinder); intro x; refine (fun hx : Keeps z x.1 => ?_) (?_ : Keeps z x.1); (on_goal 1 => clear_value x); (on_goal 2 => simp only [x]))
      | ((try lift_lets -underBinder); intro x; clear_value x)
      | (with_reducible first | apply keeps_writeBytes)
      | (intro _)
      | split)

theorem keeps_landTopk {z : State} (x : N20) (bf : Bool) (dst : Nat) (scale : W32) (poison : Nat) (tail : Nat) (a6 : Nat) (a7 : Nat) (a8 : List Byte) (a9 : State × Option Nat)  (h : Keeps z a9.1) : Keeps z (landTopk x bf dst scale poison tail a6 a7 a8 a9).1 := by
  induction a6 generalizing x bf dst scale poison tail a7 a8 a9 with
  | zero =>
    rw [landTopk]
    repeat' (first
      | (with_reducible assumption)
      | ((try lift_lets -underBinder); intro x; refine (fun hx : Keeps z x => ?_) (?_ : Keeps z x); (on_goal 1 => clear_value x); (on_goal 2 => simp only [x]))
      | ((try lift_lets -underBinder); intro x; refine (fun hx : Keeps z x.1 => ?_) (?_ : Keeps z x.1); (on_goal 1 => clear_value x); (on_goal 2 => simp only [x]))
      | ((try lift_lets -underBinder); intro x; clear_value x)
      | (with_reducible first | apply keeps_addElem | apply keeps_ite | apply keeps_ite_fst | apply ih)
      | (with_reducible refine keeps_foldl _ _ _ ?_ ?_; (on_goal 1 => (intro _ _ _)))
      | (with_reducible refine keeps_foldl_fst _ _ _ ?_ ?_; (on_goal 1 => (intro _ _ _)))
      | (intro _)
      | split
      | (apply keeps_mk <;> first
          | assumption | with_reducible exact le_rfl | with_reducible exact List.suffix_refl _ | with_reducible exact fun h => h | exact fun _ => tasc_nil
          | with_reducible exact fun h => ⟨h, le_rfl⟩ | exact fun h => ⟨⟨h.1, h.2.1, h.2.2⟩, le_rfl⟩ | exact fun h => twf_tset h
          | exact fun h => twf_twrite h | exact fun h => twf_tclear h | exact fun h => tasc_tset h | exact fun h => tasc_tclear h
          | exact Nat.le_succ _ | exact le_max_left _ _ | exact List.suffix_cons _ _
          | exact fun h => twf_foldl _ (fun _ _ h => twf_tset h) _ _ h | skip)
      | (exact twf_foldl _ (fun _ _ h => twf_tset h) _ _ (by assumption)))
  | succ a6 ih =>
    rw [landTopk]
    repeat' (first
      | (with_reducible assumption)
      | ((try lift_lets -underBinder); intro x; refine (fun hx : Keeps z x => ?_) (?_ : Keeps z x); (on_goal 1 => clear_value x); (on_goal 2 => simp only [x]))
      | ((try lift_lets -underBinder); intro x; refine (fun hx : Keeps z x.1 => ?_) (?_ : Keeps z x.1); (on_goal 1 => clear_value x); (on_goal 2 => simp only [x]))
      | ((try lift_lets -underBinder); intro x; clear_value x)
      | (with_reducible first | apply keeps_addElem | apply keeps_ite | apply keeps_ite_fst | apply ih)
      | (with_reducible refine keeps_foldl _ _ _ ?_ ?_; (on_goal 1 => (intro _ _ _)))
      | (with_reducible refine keeps_foldl_fst _ _ _ ?_ ?_; (on_goal 1 => (intro _ _ _)))
      | (intro _)
      | split
      | (apply keeps_mk <;> first
          | assumption | with_reducible exact le_rfl | with_reducible exact List.suffix_refl _ | with_reducible exact fun h => h | exact fun _ => tasc_nil
          | with_reducible exact fun h => ⟨h, le_rfl⟩ | exact fun h => ⟨⟨h.1, h.2.1, h.2.2⟩, le_rfl⟩ | exact fun h => twf_tset h
          | exact fun h => twf_twrite h | exact fun h => twf_tclear h | exact fun h => tasc_tset h | exact fun h => tasc_tclear h
          | exact Nat.le_succ _ | exact le_max_left _ _ | exact List.suffix_cons _ _
          | exact fun h => twf_foldl _ (fun _ _ h => twf_tset h) _ _ h | skip)
      | (exact twf_foldl _ (fun _ _ h => twf_tset h) _ _ (by assumption)))

theorem keeps_landSign {z : State} (x : N20) (bf : Bool) (dst : Nat) (scale : W32) (poison : Nat) (tail : Nat) (a6 : Nat) (a7 : Nat) (a8 : List Byte) (a9 : State × Option Nat)  (h : Keeps z a9.1) : Keeps z (landSign x bf dst scale poison tail a6 a7 a8 a9).1 := by
  induction a6 generalizing x bf dst scale poison tail a7 a8 a9 with
  | zero =>
    rw [landSign]
    repeat' (first
      | (with_reducible assumption)
      | ((try lift_lets -underBinder); intro x; refine (fun hx : Keeps z x => ?_) (?_ : Keeps z x); (on_goal 1 => clear_value x); (on_goal 2 => simp only [x]))
      | ((try lift_lets -underBinder); intro x; refine (fun hx : Keeps z x.1 => ?_) (?_ : Keeps z x.1); (on_goal 1 => clear_value x); (on_goal 2 => simp only [x]))
      | ((try lift_lets -underBinder); intro x; clear_value x)
      | (with_reducible first | apply keeps_addElem | apply keeps_ite | apply keeps_ite_fst | apply ih)
      | (with_reducible refine keeps_foldl _ _ _ ?_ ?_; (on_goal 1 => (intro _ _ _)))
      | (with_reducible refine keeps_foldl_fst _ _ _ ?_ ?_; (on_goal 1 => (intro _ _ _)))
      | (intro _)
      | split
      | (apply keeps_mk <;> first
          | assumption | with_reducible exact le_rfl | with_reducible exact List.suffix_refl _ | with_reducible exact fun h => h | exact fun _ => tasc_nil
          | with_reducible exact fun h => ⟨h, le_rfl⟩ | exact fun h => ⟨⟨h.1, h.2.1, h.2.2⟩, le_rfl⟩ | exact fun h => twf_tset h
          | exact fun h => twf_twrite h | exact fun h => twf_tclear h | exact fun h => tasc_tset h | exact fun h => tasc_tclear h
          | exact Nat.le_succ _ | exact le_max_left _ _ | exact List.suffix_cons _ _
          | exact fun h => twf_foldl _ (fun _ _ h => twf_tset h) _ _ h | skip)
      | (exact twf_foldl _ (fun _ _ h => twf_tset h) _ _ (by assumption)))
  | succ a6 ih =>
    rw [landSign]
    repeat' (first
      | (with_reducible assumption)
      | ((try lift_lets -underBinder); intro x; refine (fun hx : Keeps z x => ?_) (?_ : Keeps z x); (on_goal 1 => clear_value x); (on_goal 2 => simp only [x]))
      | ((try lift_lets -underBinder); intro x; refine (fun hx : Keeps z x.1 => ?_) (?_ : Keeps z x.1); (on_goal 1 => clear_value x); (on_goal 2 => simp only [x]))
      | ((try lift_lets -underBinder); intro x; clear_value x)
      | (with_reducible first | apply keeps_addElem | apply keeps_ite | apply keeps_ite_fst | apply ih)
      | (with_reducible refine keeps_foldl _ _ _ ?_ ?_; (on_goal 1 => (intro _ _ _)))
      | (with_reducible refine keeps_foldl_fst _ _ _ ?_ ?_; (on_goal 1 => (intro _ _ _)))
      | (intro _)
      | split
      | (apply keeps_mk <;> first
          | assumption | with_reducible exact le_rfl | with_reducible exact List.suffix_refl _ | with_reducible exact fun h => h | exact fun _ => tasc_nil
          | with_reducible exact fun h => ⟨h, le_rfl⟩ | exact fun h => ⟨⟨h.1, h.2.1, h.2.2⟩, le_rfl⟩ | exact fun h => twf_tset h
          | exact fun h => twf_twrite h | exact fun h => twf_tclear h | exact fun h => tasc_tset h | exact fun h => tasc_tclear h
          | exact Nat.le_succ _ | exact le_max_left _ _ | exact List.suffix_cons _ _
          | exact fun h => twf_foldl _ (fun _ _ h => twf_tset h) _ _ h | skip)
      | (exact twf_foldl _ (fun _ _ h => twf_tset h) _ _ (by assumption)))

theorem keeps_landData {z : State} (s : State) (x : N20) (action : Nat) (codec : Nat) (dst : Nat) (bf : Bool) (scale : W32) (poison : Nat) (aux : Nat) (tail : Nat) (b : List Byte)  (h : Keeps z s) : Keeps z (landData s x action codec dst bf scale poison aux tail b) := by
  unfold landData
  repeat' (first
      | (with_reducible assumption)
      | (with_reducible first | apply keeps_writeBytes | apply keeps_landTopk | apply keeps_landSign | apply keeps_addElem | apply keeps_ite | apply keeps_ite_fst)
      | (with_reducible refine keeps_foldl _ _ _ ?_ ?_; (on_goal 1 => (intro _ _ _)))
      | (with_reducible refine keeps_foldl_fst _ _ _ ?_ ?_; (on_goal 1 => (intro _ _ _)))
      | (intro _)
      | split)

theorem keeps_landOwn {z : State} (s : State) (x : N20) (d : XDesc) (ps : List Piece)  (h : Keeps z s) : Keeps z (landOwn s x d ps) := by
  unfold landOwn
  repeat' (first
      | (with_reducible assumption)
      | (with_reducible first | apply keeps_landData | apply keeps_ite | apply keeps_ite_fst)
      | (with_reducible refine keeps_foldl _ _ _ ?_ ?_; (on_goal 1 => (intro _ _ _)))
      | (with_reducible refine keeps_foldl_fst _ _ _ ?_ ?_; (on_goal 1 => (intro _ _ _)))
      | (intro _)
      | split)

theorem keeps_putTx {z : State} (s : State) (x : N20) (k : Nat) (t : TxChan)  (h : Keeps z s) : Keeps z (putTx s x k t) := by
  unfold putTx
  repeat' (first
      | (with_reducible assumption)
      | ((try lift_lets -underBinder); intro x; refine (fun hx : Keeps z x => ?_) (?_ : Keeps z x); (on_goal 1 => clear_value x); (on_goal 2 => simp only [x]))
      | ((try lift_lets -underBinder); intro x; refine (fun hx : Keeps z x.1 => ?_) (?_ : Keeps z x.1); (on_goal 1 => clear_value x); (on_goal 2 => simp only [x]))
      | ((try lift_lets -underBinder); intro x; clear_value x)
      | (with_reducible first | apply keeps_putFab)
      | (intro _)
      | split)

theorem keeps_emitFrame {z : State} (s : State) (x : N20) (p : PortId) (dev : Nat) (b : List Byte)  (h : Keeps z s) : Keeps z (emitFrame s x p dev b) := by
  unfold emitFrame
  repeat' (first
      | (with_reducible assumption)
      | (with_reducible first | apply keeps_emit)
      | (intro _)
      | split)

theorem keeps_noteOut {z : State} (s : State) (x : N20) (i : Nat)  (h : Keeps z s) : Keeps z (noteOut s x i) := by
  unfold noteOut
  repeat' (first
      | (with_reducible assumption)
      | ((try lift_lets -underBinder); intro x; refine (fun hx : Keeps z x => ?_) (?_ : Keeps z x); (on_goal 1 => clear_value x); (on_goal 2 => simp only [x]))
      | ((try lift_lets -underBinder); intro x; refine (fun hx : Keeps z x.1 => ?_) (?_ : Keeps z x.1); (on_goal 1 => clear_value x); (on_goal 2 => simp only [x]))
      | ((try lift_lets -underBinder); intro x; clear_value x)
      | (with_reducible first | apply keeps_putFab)
      | (intro _)
      | split)

theorem keeps_sendFrame {z : State} (s : State) (x : N20) (dev : Nat) (b : List Byte)  (h : Keeps z s) : Keeps z (sendFrame s x dev b) := by
  unfold sendFrame
  repeat' (first
      | (with_reducible assumption)
      | ((try lift_lets -underBinder); intro x; refine (fun hx : Keeps z x => ?_) (?_ : Keeps z x); (on_goal 1 => clear_value x); (on_goal 2 => simp only [x]))
      | ((try lift_lets -underBinder); intro x; refine (fun hx : Keeps z x.1 => ?_) (?_ : Keeps z x.1); (on_goal 1 => clear_value x); (on_goal 2 => simp only [x]))
      | ((try lift_lets -underBinder); intro x; clear_value x)
      | (with_reducible first | apply keeps_drawFree | apply keeps_emitFrame)
      | (intro _)
      | split)

theorem keeps_sendTo {z : State} (s : State) (x : N20) (i : Nat) (b : List Byte)  (h : Keeps z s) : Keeps z (sendTo s x i b) := by
  unfold sendTo
  repeat' (first
      | (with_reducible assumption)
      | (with_reducible first | apply keeps_sendFrame | apply keeps_noteOut)
      | (intro _)
      | split)

theorem keeps_sendOn {z : State} (s : State) (x : N20) (port : Option PortId) (i : Nat) (b : List Byte)  (h : Keeps z s) : Keeps z (sendOn s x port i b) := by
  unfold sendOn
  repeat' (first
      | (with_reducible assumption)
      | (with_reducible first | apply keeps_emitFrame | apply keeps_noteOut | apply keeps_sendTo)
      | (intro _)
      | split)

theorem keeps_charge {z : State} (s : State) (x : N20) (n : Nat)  (h : Keeps z s) : Keeps z (charge s x n) := by
  unfold charge
  repeat' (first
      | (with_reducible assumption)
      | ((try lift_lets -underBinder); intro x; refine (fun hx : Keeps z x => ?_) (?_ : Keeps z x); (on_goal 1 => clear_value x); (on_goal 2 => simp only [x]))
      | ((try lift_lets -underBinder); intro x; refine (fun hx : Keeps z x.1 => ?_) (?_ : Keeps z x.1); (on_goal 1 => clear_value x); (on_goal 2 => simp only [x]))
      | ((try lift_lets -underBinder); intro x; clear_value x)
      | (with_reducible first | apply keeps_putFab)
      | (intro _)
      | split)

theorem keeps_sendNext {z : State} (s : State) (x : N20) (port : Option PortId) (i : Nat) (key : Nat)  (h : Keeps z s) : Keeps z (sendNext s x port i key).1 := by
  unfold sendNext
  repeat' (first
      | (with_reducible assumption)
      | ((try lift_lets -underBinder); intro x; refine (fun hx : Keeps z x => ?_) (?_ : Keeps z x); (on_goal 1 => clear_value x); (on_goal 2 => simp only [x]))
      | ((try lift_lets -underBinder); intro x; refine (fun hx : Keeps z x.1 => ?_) (?_ : Keeps z x.1); (on_goal 1 => clear_value x); (on_goal 2 => simp only [x]))
      | ((try lift_lets -underBinder); intro x; clear_value x)
      | (with_reducible first | apply keeps_putTx | apply keeps_sendOn | apply keeps_charge | apply keeps_ite | apply keeps_ite_fst)
      | (intro _)
      | split)

theorem keeps_pumpTx {z : State} (x : N20) (i key : Nat) (n : Nat) (s : State) (h : Keeps z s) : Keeps z (pumpTx x i key n s) := by
  induction n generalizing s with
  | zero => exact h
  | succ n ih =>
    rw [pumpTx]
    split
    · exact ih _ (keeps_sendNext _ _ _ _ _ h)
    · exact h

theorem keeps_runTx {z : State} (s : State) (x : N20) (i : Nat) (key : Nat)  (h : Keeps z s) : Keeps z (runTx s x i key) := by
  unfold runTx
  repeat' (first
      | (with_reducible assumption)
      | (with_reducible first | apply keeps_pumpTx)
      | (intro _)
      | split)

theorem keeps_queuePieces {z : State} (s : State) (x : N20) (d : XDesc) (i : Nat) (ps : List Piece)  (h : Keeps z s) : Keeps z (queuePieces s x d i ps).1 := by
  unfold queuePieces
  repeat' (first
      | (with_reducible assumption)
      | ((try lift_lets -underBinder); intro x; refine (fun hx : Keeps z x => ?_) (?_ : Keeps z x); (on_goal 1 => clear_value x); (on_goal 2 => simp only [x]))
      | ((try lift_lets -underBinder); intro x; refine (fun hx : Keeps z x.1 => ?_) (?_ : Keeps z x.1); (on_goal 1 => clear_value x); (on_goal 2 => simp only [x]))
      | ((try lift_lets -underBinder); intro x; clear_value x)
      | (with_reducible first | apply keeps_putTx | apply keeps_runTx | apply keeps_ite | apply keeps_ite_fst)
      | (intro _)
      | split)

theorem keeps_beginExch {z : State} (s : State) (x : N20) (d : XDesc)  (h : Keeps z s) : Keeps z (beginExch s x d).1 := by
  unfold beginExch
  repeat' (first
      | (with_reducible assumption)
      | ((try lift_lets -underBinder); intro x; refine (fun hx : Keeps z x => ?_) (?_ : Keeps z x); (on_goal 1 => clear_value x); (on_goal 2 => simp only [x]))
      | ((try lift_lets -underBinder); intro x; refine (fun hx : Keeps z x.1 => ?_) (?_ : Keeps z x.1); (on_goal 1 => clear_value x); (on_goal 2 => simp only [x]))
      | ((try lift_lets -underBinder); intro x; clear_value x)
      | (with_reducible first | apply keeps_touchRange | apply keeps_writeResid | apply keeps_landOwn | apply keeps_queuePieces | apply keeps_ite | apply keeps_ite_fst)
      | (with_reducible refine keeps_foldl _ _ _ ?_ ?_; (on_goal 1 => (intro _ _ _)))
      | (with_reducible refine keeps_foldl_fst _ _ _ ?_ ?_; (on_goal 1 => (intro _ _ _)))
      | (intro _)
      | split)

theorem keeps_dropExch {z : State} (s : State) (x : N20)  (h : Keeps z s) : Keeps z (dropExch s x) := by
  unfold dropExch
  repeat' (first
      | (with_reducible assumption)
      | ((try lift_lets -underBinder); intro x; refine (fun hx : Keeps z x => ?_) (?_ : Keeps z x); (on_goal 1 => clear_value x); (on_goal 2 => simp only [x]))
      | ((try lift_lets -underBinder); intro x; refine (fun hx : Keeps z x.1 => ?_) (?_ : Keeps z x.1); (on_goal 1 => clear_value x); (on_goal 2 => simp only [x]))
      | ((try lift_lets -underBinder); intro x; clear_value x)
      | (with_reducible first | apply keeps_putFab)
      | (intro _)
      | split)

theorem keeps_normDone {z : State} (s : State) (x : N20)  (h : Keeps z s) : Keeps z (normDone s x).1 := by
  unfold normDone
  repeat' (first
      | (with_reducible assumption)
      | ((try lift_lets -underBinder); intro x; refine (fun hx : Keeps z x => ?_) (?_ : Keeps z x); (on_goal 1 => clear_value x); (on_goal 2 => simp only [x]))
      | ((try lift_lets -underBinder); intro x; refine (fun hx : Keeps z x.1 => ?_) (?_ : Keeps z x.1); (on_goal 1 => clear_value x); (on_goal 2 => simp only [x]))
      | ((try lift_lets -underBinder); intro x; clear_value x)
      | (with_reducible first | apply keeps_putFab | apply keeps_applyNormRec | apply keeps_ite | apply keeps_ite_fst)
      | (intro _)
      | split)

theorem keeps_finishNorm {z : State} (s : State) (x : N20)  (h : Keeps z s) : Keeps z (finishNorm s x) := by
  unfold finishNorm
  repeat' (first
      | (with_reducible assumption)
      | ((try lift_lets -underBinder); intro x; refine (fun hx : Keeps z x => ?_) (?_ : Keeps z x); (on_goal 1 => clear_value x); (on_goal 2 => simp only [x]))
      | ((try lift_lets -underBinder); intro x; refine (fun hx : Keeps z x.1 => ?_) (?_ : Keeps z x.1); (on_goal 1 => clear_value x); (on_goal 2 => simp only [x]))
      | ((try lift_lets -underBinder); intro x; clear_value x)
      | (with_reducible first | apply keeps_normDone | apply keeps_sendTo)
      | (with_reducible refine keeps_foldl _ _ _ ?_ ?_; (on_goal 1 => (intro _ _ _)))
      | (with_reducible refine keeps_foldl_fst _ _ _ ?_ ?_; (on_goal 1 => (intro _ _ _)))
      | (intro _)
      | split)

theorem keeps_sendReady {z : State} (s : State) (x : N20) (port : Option PortId) (a3 : Ready)  (h : Keeps z s) : Keeps z (sendReady s x port a3).1 := by
  unfold sendReady
  repeat' (first
      | (with_reducible assumption)
      | (with_reducible first | apply keeps_sendOn | apply keeps_sendNext)
      | (intro _)
      | split)

theorem keeps_grantAll {z : State} (n : Nat) (q : List NormPkt) (served : Tab Nat) (s : State) (h : Keeps z s) :
    Keeps z (grantAll n q served s) := by
  induction n generalizing q served s with
  | zero => exact h
  | succ n ih =>
    rw [grantAll]
    split
    · split
      · exact h
      · exact ih _ _ _ (keeps_sendReady _ _ _ _ h)
    · dsimp only
      split
      · exact h
      · exact ih _ _ _ (keeps_sendReady _ _ _ _ (keeps_drawFree _ h))

theorem keeps_putRx {z : State} (s : State) (x : N20) (k : Nat) (t : RxChan)  (h : Keeps z s) : Keeps z (putRx s x k t) := by
  unfold putRx
  repeat' (first
      | (with_reducible assumption)
      | ((try lift_lets -underBinder); intro x; refine (fun hx : Keeps z x => ?_) (?_ : Keeps z x); (on_goal 1 => clear_value x); (on_goal 2 => simp only [x]))
      | ((try lift_lets -underBinder); intro x; refine (fun hx : Keeps z x.1 => ?_) (?_ : Keeps z x.1); (on_goal 1 => clear_value x); (on_goal 2 => simp only [x]))
      | ((try lift_lets -underBinder); intro x; clear_value x)
      | (with_reducible first | apply keeps_putFab)
      | (intro _)
      | split)

theorem keeps_runAllTx {z : State} (q : List NormPkt) (s : State)  (h : Keeps z s) : Keeps z (runAllTx q s) := by
  unfold runAllTx
  repeat' (first
      | (with_reducible assumption)
      | (with_reducible first | apply keeps_grantAll)
      | (with_reducible refine keeps_foldl _ _ _ ?_ ?_; (on_goal 1 => (intro _ _ _)))
      | (with_reducible refine keeps_foldl_fst _ _ _ ?_ ?_; (on_goal 1 => (intro _ _ _)))
      | (intro _)
      | split)

theorem keeps_sendAck {z : State} (s : State) (x : N20) (chan : Nat) (i : Nat)  (h : Keeps z s) : Keeps z (sendAck s x chan i) := by
  unfold sendAck
  repeat' (first
      | (with_reducible assumption)
      | ((try lift_lets -underBinder); intro x; refine (fun hx : Keeps z x => ?_) (?_ : Keeps z x); (on_goal 1 => clear_value x); (on_goal 2 => simp only [x]))
      | ((try lift_lets -underBinder); intro x; refine (fun hx : Keeps z x.1 => ?_) (?_ : Keeps z x.1); (on_goal 1 => clear_value x); (on_goal 2 => simp only [x]))
      | ((try lift_lets -underBinder); intro x; clear_value x)
      | (with_reducible first | apply keeps_putRx | apply keeps_sendTo)
      | (intro _)
      | split)

theorem keeps_slotOpens {z : State} (s : State)  (h : Keeps z s) : Keeps z (slotOpens s) := by
  unfold slotOpens
  repeat' (first
      | (with_reducible assumption)
      | ((try lift_lets -underBinder); intro x; refine (fun hx : Keeps z x => ?_) (?_ : Keeps z x); (on_goal 1 => clear_value x); (on_goal 2 => simp only [x]))
      | ((try lift_lets -underBinder); intro x; refine (fun hx : Keeps z x.1 => ?_) (?_ : Keeps z x.1); (on_goal 1 => clear_value x); (on_goal 2 => simp only [x]))
      | ((try lift_lets -underBinder); intro x; clear_value x)
      | (with_reducible first | apply keeps_normDone | apply keeps_runAllTx | apply keeps_ite | apply keeps_ite_fst)
      | (with_reducible refine keeps_foldl _ _ _ ?_ ?_; (on_goal 1 => (intro _ _ _)))
      | (with_reducible refine keeps_foldl_fst _ _ _ ?_ ?_; (on_goal 1 => (intro _ _ _)))
      | (intro _)
      | split)

end Sys2Proof.Machine
end

