-- ==== Sys2Proof/Laws/Keeps/FabricOps.lean ====
section
/-!
SUPPORT. What the functions of Machine/FabricOps.lean keep (Safety.Keeps).
-/

set_option linter.unusedTactic false
set_option linter.unreachableTactic false

namespace Sys2Proof.Machine

theorem keeps_fillExch {z : State} (s : State) (x : N20) (d : XDesc) (st : Status)  (h : Keeps z s) : Keeps z (fillExch s x d st) := by
  unfold fillExch
  repeat' (first
      | (with_reducible assumption)
      | (with_reducible first | apply keeps_exchFill | apply keeps_ite | apply keeps_ite_fst)
      | (intro _)
      | split)

theorem keeps_refuseExch {z : State} (s : State) (x : N20) (d : Option XDesc) (a : Nat)  (h : Keeps z s) : Keeps z (refuseExch s x d a) := by
  unfold refuseExch
  repeat' (first
      | (with_reducible assumption)
      | ((try lift_lets -underBinder); intro x; refine (fun hx : Keeps z x => ?_) (?_ : Keeps z x); (on_goal 1 => clear_value x); (on_goal 2 => simp only [x]))
      | ((try lift_lets -underBinder); intro x; refine (fun hx : Keeps z x.1 => ?_) (?_ : Keeps z x.1); (on_goal 1 => clear_value x); (on_goal 2 => simp only [x]))
      | ((try lift_lets -underBinder); intro x; clear_value x)
      | (with_reducible first | apply keeps_rbump | apply keeps_logEv | apply keeps_fillExch)
      | (intro _)
      | split)

theorem keeps_takeDesc {z : State} (s : State) (x : N20) (a : Nat) (p : Bool)  (h : Keeps z s) : Keeps z (takeDesc s x a p) := by
  unfold takeDesc
  repeat' (first
      | (with_reducible assumption)
      | ((try lift_lets -underBinder); intro x; refine (fun hx : Keeps z x => ?_) (?_ : Keeps z x); (on_goal 1 => clear_value x); (on_goal 2 => simp only [x]))
      | ((try lift_lets -underBinder); intro x; refine (fun hx : Keeps z x.1 => ?_) (?_ : Keeps z x.1); (on_goal 1 => clear_value x); (on_goal 2 => simp only [x]))
      | ((try lift_lets -underBinder); intro x; clear_value x)
      | (with_reducible first | apply keeps_touchRange | apply keeps_putFab | apply keeps_refuseExch | apply keeps_ite | apply keeps_ite_fst)
      | (intro _)
      | split)

theorem keeps_bellTaken {z : State} (s : State) (x : N20) (v : W64) (p : Bool)  (h : Keeps z s) : Keeps z (bellTaken s x v p) := by
  unfold bellTaken
  repeat' (first
      | (with_reducible assumption)
      | ((try lift_lets -underBinder); intro x; refine (fun hx : Keeps z x => ?_) (?_ : Keeps z x); (on_goal 1 => clear_value x); (on_goal 2 => simp only [x]))
      | ((try lift_lets -underBinder); intro x; refine (fun hx : Keeps z x.1 => ?_) (?_ : Keeps z x.1); (on_goal 1 => clear_value x); (on_goal 2 => simp only [x]))
      | ((try lift_lets -underBinder); intro x; clear_value x)
      | (with_reducible first | apply keeps_takeDesc | apply keeps_putFab | apply keeps_ite | apply keeps_ite_fst)
      | (intro _)
      | split
      | (apply keeps_mk <;> first
          | assumption | with_reducible exact le_rfl | with_reducible exact List.suffix_refl _ | with_reducible exact fun h => h | exact fun _ => tasc_nil
          | with_reducible exact fun h => ⟨h, le_rfl⟩ | exact fun h => ⟨⟨h.1, h.2.1, h.2.2⟩, le_rfl⟩ | exact fun h => twf_tset h
          | exact fun h => twf_twrite h | exact fun h => twf_tclear h | exact fun h => tasc_tset h | exact fun h => tasc_tclear h
          | exact Nat.le_succ _ | exact le_max_left _ _ | exact List.suffix_cons _ _
          | exact fun h => twf_foldl _ (fun _ _ h => twf_tset h) _ _ h | skip)
      | (exact twf_foldl _ (fun _ _ h => twf_tset h) _ _ (by assumption)))

theorem keeps_bellReach {z : State} (s : State) (x : N20)  (h : Keeps z s) : Keeps z (bellReach s x) := by
  unfold bellReach
  repeat' (first
      | (with_reducible assumption)
      | ((try lift_lets -underBinder); intro x; refine (fun hx : Keeps z x => ?_) (?_ : Keeps z x); (on_goal 1 => clear_value x); (on_goal 2 => simp only [x]))
      | ((try lift_lets -underBinder); intro x; refine (fun hx : Keeps z x.1 => ?_) (?_ : Keeps z x.1); (on_goal 1 => clear_value x); (on_goal 2 => simp only [x]))
      | ((try lift_lets -underBinder); intro x; clear_value x)
      | (with_reducible first | apply keeps_logNoWord | apply keeps_touchUnit | apply keeps_bellTaken | apply keeps_feSet | apply keeps_ite | apply keeps_ite_fst)
      | (intro _)
      | split
      | (apply keeps_mk <;> first
          | assumption | with_reducible exact le_rfl | with_reducible exact List.suffix_refl _ | with_reducible exact fun h => h | exact fun _ => tasc_nil
          | with_reducible exact fun h => ⟨h, le_rfl⟩ | exact fun h => ⟨⟨h.1, h.2.1, h.2.2⟩, le_rfl⟩ | exact fun h => twf_tset h
          | exact fun h => twf_twrite h | exact fun h => twf_tclear h | exact fun h => tasc_tset h | exact fun h => tasc_tclear h
          | exact Nat.le_succ _ | exact le_max_left _ _ | exact List.suffix_cons _ _
          | exact fun h => twf_foldl _ (fun _ _ h => twf_tset h) _ _ h | skip)
      | (exact twf_foldl _ (fun _ _ h => twf_tset h) _ _ (by assumption)))

theorem keeps_execAckTimer {z : State} (rx : RxKey) (s : State)  (h : Keeps z s) : KeepsOut z (execAckTimer rx s) := by
  unfold execAckTimer
  repeat' (first
      | (with_reducible assumption)
      | (with_reducible first | apply keepsOut_next | exact keepsOut_fault)
      | (with_reducible first | apply keeps_sendAck | apply keeps_ite | apply keeps_ite_fst)
      | (intro _)
      | split)

theorem keeps_execDoorbellTake {z : State} (sl : N20) (s : State)  (h : Keeps z s) : KeepsOut z (execDoorbellTake sl s) := by
  unfold execDoorbellTake
  repeat' (first
      | (with_reducible assumption)
      | (with_reducible first | apply keepsOut_next | exact keepsOut_fault)
      | (with_reducible first | apply keeps_bellReach | apply keeps_bellTaken | apply keeps_feSatisfy | apply keeps_ite | apply keeps_ite_fst)
      | (intro _)
      | split)

theorem keeps_execExchangeComplete {z : State} (sl : N20) (s : State)  (h : Keeps z s) : KeepsOut z (execExchangeComplete sl s) := by
  unfold execExchangeComplete
  repeat' (first
      | (with_reducible assumption)
      | (with_reducible first | apply keepsOut_next | exact keepsOut_fault)
      | ((try lift_lets -underBinder); intro x; refine (fun hx : Keeps z x => ?_) (?_ : Keeps z x); (on_goal 1 => clear_value x); (on_goal 2 => simp only [x]))
      | ((try lift_lets -underBinder); intro x; refine (fun hx : Keeps z x.1 => ?_) (?_ : Keeps z x.1); (on_goal 1 => clear_value x); (on_goal 2 => simp only [x]))
      | ((try lift_lets -underBinder); intro x; clear_value x)
      | (with_reducible first | apply keeps_putFab | apply keeps_fillExch)
      | (intro _)
      | split)

theorem keeps_execExchangeStart {z : State} (sl : N20) (s : State)  (h : Keeps z s) : KeepsOut z (execExchangeStart sl s) := by
  unfold execExchangeStart
  repeat' (first
      | (with_reducible assumption)
      | (with_reducible first | apply keepsOut_next | exact keepsOut_fault)
      | ((try lift_lets -underBinder); intro x; refine (fun hx : Keeps z x => ?_) (?_ : Keeps z x); (on_goal 1 => clear_value x); (on_goal 2 => simp only [x]))
      | ((try lift_lets -underBinder); intro x; refine (fun hx : Keeps z x.1 => ?_) (?_ : Keeps z x.1); (on_goal 1 => clear_value x); (on_goal 2 => simp only [x]))
      | ((try lift_lets -underBinder); intro x; clear_value x)
      | (with_reducible first | apply keeps_beginExch | apply keeps_putFab | apply keeps_ite | apply keeps_ite_fst)
      | (intro _)
      | split)

theorem keeps_rejectPkt {z : State} (s : State) (p : PortId)  (h : Keeps z s) : Keeps z (rejectPkt s p) := by
  unfold rejectPkt
  repeat' (first
      | (with_reducible assumption)
      | (with_reducible first | apply keeps_rbump)
      | (intro _)
      | split)

theorem keeps_execFrameDiscard {z : State} (p : PortId) (why : DiscardWhy) (s : State)  (h : Keeps z s) : KeepsOut z (execFrameDiscard p why s) := by
  unfold execFrameDiscard
  repeat' (first
      | (with_reducible assumption)
      | (with_reducible first | apply keepsOut_next | exact keepsOut_fault)
      | (with_reducible first | apply keeps_rbump | apply keeps_rejectPkt | apply keeps_ite | apply keeps_ite_fst)
      | (intro _)
      | split)

theorem keeps_heard {z : State} (s : State) (x : N20) (i : Nat)  (h : Keeps z s) : Keeps z (heard s x i) := by
  unfold heard
  repeat' (first
      | (with_reducible assumption)
      | ((try lift_lets -underBinder); intro x; refine (fun hx : Keeps z x => ?_) (?_ : Keeps z x); (on_goal 1 => clear_value x); (on_goal 2 => simp only [x]))
      | ((try lift_lets -underBinder); intro x; refine (fun hx : Keeps z x.1 => ?_) (?_ : Keeps z x.1); (on_goal 1 => clear_value x); (on_goal 2 => simp only [x]))
      | ((try lift_lets -underBinder); intro x; clear_value x)
      | (with_reducible first | apply keeps_putFab)
      | (intro _)
      | split)

theorem keeps_execIftAckReceive {z : State} (p : PortId) (pkt : IftPacket) (s : State)  (h : Keeps z s) : KeepsOut z (execIftAckReceive p pkt s) := by
  unfold execIftAckReceive
  repeat' (first
      | (with_reducible assumption)
      | (with_reducible first | apply keepsOut_next | exact keepsOut_fault)
      | ((try lift_lets -underBinder); intro x; refine (fun hx : Keeps z x => ?_) (?_ : Keeps z x); (on_goal 1 => clear_value x); (on_goal 2 => simp only [x]))
      | ((try lift_lets -underBinder); intro x; refine (fun hx : Keeps z x.1 => ?_) (?_ : Keeps z x.1); (on_goal 1 => clear_value x); (on_goal 2 => simp only [x]))
      | ((try lift_lets -underBinder); intro x; clear_value x)
      | (with_reducible first | apply keeps_rejectPkt | apply keeps_heard | apply keeps_runTx | apply keeps_putTx | apply keeps_ite | apply keeps_ite_fst)
      | (intro _)
      | split)

theorem keeps_execIftDataReceive {z : State} (p : PortId) (pkt : IftPacket) (s : State)  (h : Keeps z s) : KeepsOut z (execIftDataReceive p pkt s) := by
  unfold execIftDataReceive
  repeat' (first
      | (with_reducible assumption)
      | (with_reducible first | apply keepsOut_next | exact keepsOut_fault)
      | ((try lift_lets -underBinder); intro x; refine (fun hx : Keeps z x => ?_) (?_ : Keeps z x); (on_goal 1 => clear_value x); (on_goal 2 => simp only [x]))
      | ((try lift_lets -underBinder); intro x; refine (fun hx : Keeps z x.1 => ?_) (?_ : Keeps z x.1); (on_goal 1 => clear_value x); (on_goal 2 => simp only [x]))
      | ((try lift_lets -underBinder); intro x; clear_value x)
      | (with_reducible first | apply keeps_rejectPkt | apply keeps_heard | apply keeps_sendAck | apply keeps_rbump | apply keeps_putRx | apply keeps_ite | apply keeps_ite_fst)
      | (intro _)
      | split)

theorem keeps_execKeepaliveAck {z : State} (sl : N20) (peer : Fin 8) (s : State)  (h : Keeps z s) : KeepsOut z (execKeepaliveAck sl peer s) := by
  unfold execKeepaliveAck
  repeat' (first
      | (with_reducible assumption)
      | (with_reducible first | apply keepsOut_next | exact keepsOut_fault)
      | (with_reducible first | apply keeps_sendAck | apply keeps_ite | apply keeps_ite_fst)
      | (intro _)
      | split)

theorem keeps_execNormrec {z : State} (p : PortId) (pkt : IftPacket) (s : State)  (h : Keeps z s) : KeepsOut z (execNormrec p pkt s) := by
  unfold execNormrec
  repeat' (first
      | (with_reducible assumption)
      | (with_reducible first | apply keepsOut_next | exact keepsOut_fault)
      | ((try lift_lets -underBinder); intro x; refine (fun hx : Keeps z x => ?_) (?_ : Keeps z x); (on_goal 1 => clear_value x); (on_goal 2 => simp only [x]))
      | ((try lift_lets -underBinder); intro x; refine (fun hx : Keeps z x.1 => ?_) (?_ : Keeps z x.1); (on_goal 1 => clear_value x); (on_goal 2 => simp only [x]))
      | ((try lift_lets -underBinder); intro x; clear_value x)
      | (with_reducible first | apply keeps_rejectPkt | apply keeps_heard | apply keeps_putFab | apply keeps_applyNormRec | apply keeps_ite | apply keeps_ite_fst)
      | (intro _)
      | split)

theorem keeps_execNormsum {z : State} (p : PortId) (pkt : IftPacket) (s : State)  (h : Keeps z s) : KeepsOut z (execNormsum p pkt s) := by
  unfold execNormsum
  repeat' (first
      | (with_reducible assumption)
      | (with_reducible first | apply keepsOut_next | exact keepsOut_fault)
      | ((try lift_lets -underBinder); intro x; refine (fun hx : Keeps z x => ?_) (?_ : Keeps z x); (on_goal 1 => clear_value x); (on_goal 2 => simp only [x]))
      | ((try lift_lets -underBinder); intro x; refine (fun hx : Keeps z x.1 => ?_) (?_ : Keeps z x.1); (on_goal 1 => clear_value x); (on_goal 2 => simp only [x]))
      | ((try lift_lets -underBinder); intro x; clear_value x)
      | (with_reducible first | apply keeps_rejectPkt | apply keeps_heard | apply keeps_rbump | apply keeps_finishNorm | apply keeps_putFab | apply keeps_ite | apply keeps_ite_fst)
      | (intro _)
      | split)

theorem keeps_ownSums {z : State} (s : State) (x : N20) (step : Nat) (t : Tab W32)  (h : Keeps z s) : Keeps z (ownSums s x step t) := by
  unfold ownSums
  repeat' (first
      | (with_reducible assumption)
      | ((try lift_lets -underBinder); intro x; refine (fun hx : Keeps z x => ?_) (?_ : Keeps z x); (on_goal 1 => clear_value x); (on_goal 2 => simp only [x]))
      | ((try lift_lets -underBinder); intro x; refine (fun hx : Keeps z x.1 => ?_) (?_ : Keeps z x.1); (on_goal 1 => clear_value x); (on_goal 2 => simp only [x]))
      | ((try lift_lets -underBinder); intro x; clear_value x)
      | (with_reducible first | apply keeps_rbump | apply keeps_putFab | apply keeps_ite | apply keeps_ite_fst)
      | (intro _)
      | split)

theorem keeps_sendSums {z : State} (s : State) (x : N20) (step : Nat) (t : Tab W32)  (h : Keeps z s) : Keeps z (sendSums s x step t) := by
  unfold sendSums
  repeat' (first
      | (with_reducible assumption)
      | ((try lift_lets -underBinder); intro x; refine (fun hx : Keeps z x => ?_) (?_ : Keeps z x); (on_goal 1 => clear_value x); (on_goal 2 => simp only [x]))
      | ((try lift_lets -underBinder); intro x; refine (fun hx : Keeps z x.1 => ?_) (?_ : Keeps z x.1); (on_goal 1 => clear_value x); (on_goal 2 => simp only [x]))
      | ((try lift_lets -underBinder); intro x; clear_value x)
      | (with_reducible first | apply keeps_sendTo | apply keeps_ite | apply keeps_ite_fst)
      | (with_reducible refine keeps_foldl _ _ _ ?_ ?_; (on_goal 1 => (intro _ _ _)))
      | (with_reducible refine keeps_foldl_fst _ _ _ ?_ ?_; (on_goal 1 => (intro _ _ _)))
      | (intro _)
      | split)

theorem keeps_execNormsumSend {z : State} (sl : N20) (s : State)  (h : Keeps z s) : KeepsOut z (execNormsumSend sl s) := by
  unfold execNormsumSend
  repeat' (first
      | (with_reducible assumption)
      | (with_reducible first | apply keepsOut_next | exact keepsOut_fault)
      | ((try lift_lets -underBinder); intro x; refine (fun hx : Keeps z x => ?_) (?_ : Keeps z x); (on_goal 1 => clear_value x); (on_goal 2 => simp only [x]))
      | ((try lift_lets -underBinder); intro x; refine (fun hx : Keeps z x.1 => ?_) (?_ : Keeps z x.1); (on_goal 1 => clear_value x); (on_goal 2 => simp only [x]))
      | ((try lift_lets -underBinder); intro x; clear_value x)
      | (with_reducible first | apply keeps_ownSums | apply keeps_finishNorm | apply keeps_putFab | apply keeps_sendSums | apply keeps_ite | apply keeps_ite_fst)
      | (intro _)
      | split)

theorem keeps_execPacketLand {z : State} (rx : RxKey) (s : State)  (h : Keeps z s) : KeepsOut z (execPacketLand rx s) := by
  unfold execPacketLand
  repeat' (first
      | (with_reducible assumption)
      | (with_reducible first | apply keepsOut_next | exact keepsOut_fault)
      | ((try lift_lets -underBinder); intro x; refine (fun hx : Keeps z x => ?_) (?_ : Keeps z x); (on_goal 1 => clear_value x); (on_goal 2 => simp only [x]))
      | ((try lift_lets -underBinder); intro x; refine (fun hx : Keeps z x.1 => ?_) (?_ : Keeps z x.1); (on_goal 1 => clear_value x); (on_goal 2 => simp only [x]))
      | ((try lift_lets -underBinder); intro x; clear_value x)
      | (with_reducible first | apply keeps_putRx | apply keeps_landData | apply keeps_exchFill | apply keeps_sendAck | apply keeps_ite | apply keeps_ite_fst)
      | (intro _)
      | split)

theorem keeps_peerSilent {z : State} (s : State) (x : N20) (i : Nat)  (h : Keeps z s) : Keeps z (peerSilent s x i) := by
  unfold peerSilent
  repeat' (first
      | (with_reducible assumption)
      | (with_reducible first | apply keeps_logEv | apply keeps_ite | apply keeps_ite_fst)
      | (intro _)
      | split)

theorem keeps_execPeerSilent {z : State} (sl : N20) (peer : Fin 8) (s : State)  (h : Keeps z s) : KeepsOut z (execPeerSilent sl peer s) := by
  unfold execPeerSilent
  repeat' (first
      | (with_reducible assumption)
      | (with_reducible first | apply keepsOut_next | exact keepsOut_fault)
      | (with_reducible first | apply keeps_peerSilent | apply keeps_ite | apply keeps_ite_fst)
      | (intro _)
      | split)

theorem keeps_usePlan {z : State} (s : State) (x : N20) (q : Plan) (start : Bool)  (h : Keeps z s) : Keeps z (usePlan s x q start) := by
  unfold usePlan
  repeat' (first
      | (with_reducible assumption)
      | ((try lift_lets -underBinder); intro x; refine (fun hx : Keeps z x => ?_) (?_ : Keeps z x); (on_goal 1 => clear_value x); (on_goal 2 => simp only [x]))
      | ((try lift_lets -underBinder); intro x; refine (fun hx : Keeps z x.1 => ?_) (?_ : Keeps z x.1); (on_goal 1 => clear_value x); (on_goal 2 => simp only [x]))
      | ((try lift_lets -underBinder); intro x; clear_value x)
      | (with_reducible first | apply keeps_slotOpens | apply keeps_putFab | apply keeps_ite | apply keeps_ite_fst)
      | (intro _)
      | split)

theorem keeps_takePlan {z : State} (s : State) (x : N20) (q : Plan)  (h : Keeps z s) : Keeps z (takePlan s x q) := by
  unfold takePlan
  repeat' (first
      | (with_reducible assumption)
      | ((try lift_lets -underBinder); intro x; refine (fun hx : Keeps z x => ?_) (?_ : Keeps z x); (on_goal 1 => clear_value x); (on_goal 2 => simp only [x]))
      | ((try lift_lets -underBinder); intro x; refine (fun hx : Keeps z x.1 => ?_) (?_ : Keeps z x.1); (on_goal 1 => clear_value x); (on_goal 2 => simp only [x]))
      | ((try lift_lets -underBinder); intro x; clear_value x)
      | (with_reducible first | apply keeps_logEv | apply keeps_rbump | apply keeps_usePlan | apply keeps_putFab | apply keeps_ite | apply keeps_ite_fst)
      | (intro _)
      | split)

theorem keeps_execPlan {z : State} (p : PortId) (pkt : IftPacket) (s : State)  (h : Keeps z s) : KeepsOut z (execPlan p pkt s) := by
  unfold execPlan
  repeat' (first
      | (with_reducible assumption)
      | (with_reducible first | apply keepsOut_next | exact keepsOut_fault)
      | ((try lift_lets -underBinder); intro x; refine (fun hx : Keeps z x => ?_) (?_ : Keeps z x); (on_goal 1 => clear_value x); (on_goal 2 => simp only [x]))
      | ((try lift_lets -underBinder); intro x; refine (fun hx : Keeps z x.1 => ?_) (?_ : Keeps z x.1); (on_goal 1 => clear_value x); (on_goal 2 => simp only [x]))
      | ((try lift_lets -underBinder); intro x; clear_value x)
      | (with_reducible first | apply keeps_rejectPkt | apply keeps_takePlan | apply keeps_heard | apply keeps_ite | apply keeps_ite_fst)
      | (intro _)
      | split)

theorem keeps_execPlanApply {z : State} (sl : N20) (s : State)  (h : Keeps z s) : KeepsOut z (execPlanApply sl s) := by
  unfold execPlanApply
  repeat' (first
      | (with_reducible assumption)
      | (with_reducible first | apply keepsOut_next | exact keepsOut_fault)
      | ((try lift_lets -underBinder); intro x; refine (fun hx : Keeps z x => ?_) (?_ : Keeps z x); (on_goal 1 => clear_value x); (on_goal 2 => simp only [x]))
      | ((try lift_lets -underBinder); intro x; refine (fun hx : Keeps z x.1 => ?_) (?_ : Keeps z x.1); (on_goal 1 => clear_value x); (on_goal 2 => simp only [x]))
      | ((try lift_lets -underBinder); intro x; clear_value x)
      | (with_reducible first | apply keeps_usePlan | apply keeps_putFab | apply keeps_rbump | apply keeps_ite | apply keeps_ite_fst)
      | (intro _)
      | split)

theorem keeps_execProbe {z : State} (p : PortId) (pkt : IftPacket) (s : State)  (h : Keeps z s) : KeepsOut z (execProbe p pkt s) := by
  unfold execProbe
  repeat' (first
      | (with_reducible assumption)
      | (with_reducible first | apply keepsOut_next | exact keepsOut_fault)
      | ((try lift_lets -underBinder); intro x; refine (fun hx : Keeps z x => ?_) (?_ : Keeps z x); (on_goal 1 => clear_value x); (on_goal 2 => simp only [x]))
      | ((try lift_lets -underBinder); intro x; refine (fun hx : Keeps z x.1 => ?_) (?_ : Keeps z x.1); (on_goal 1 => clear_value x); (on_goal 2 => simp only [x]))
      | ((try lift_lets -underBinder); intro x; clear_value x)
      | (with_reducible first | apply keeps_rejectPkt | apply keeps_emit | apply keeps_ite | apply keeps_ite_fst)
      | (intro _)
      | split
      | (apply keeps_mk <;> first
          | assumption | with_reducible exact le_rfl | with_reducible exact List.suffix_refl _ | with_reducible exact fun h => h | exact fun _ => tasc_nil
          | with_reducible exact fun h => ⟨h, le_rfl⟩ | exact fun h => ⟨⟨h.1, h.2.1, h.2.2⟩, le_rfl⟩ | exact fun h => twf_tset h
          | exact fun h => twf_twrite h | exact fun h => twf_tclear h | exact fun h => tasc_tset h | exact fun h => tasc_tclear h
          | exact Nat.le_succ _ | exact le_max_left _ _ | exact List.suffix_cons _ _
          | exact fun h => twf_foldl _ (fun _ _ h => twf_tset h) _ _ h | skip)
      | (exact twf_foldl _ (fun _ _ h => twf_tset h) _ _ (by assumption)))

theorem keeps_execRetransmitTimeout {z : State} (tx : TxKey) (seq : BitVec 32) (s : State)  (h : Keeps z s) : KeepsOut z (execRetransmitTimeout tx seq s) := by
  unfold execRetransmitTimeout
  repeat' (first
      | (with_reducible assumption)
      | (with_reducible first | apply keepsOut_next | exact keepsOut_fault)
      | ((try lift_lets -underBinder); intro x; refine (fun hx : Keeps z x => ?_) (?_ : Keeps z x); (on_goal 1 => clear_value x); (on_goal 2 => simp only [x]))
      | ((try lift_lets -underBinder); intro x; refine (fun hx : Keeps z x.1 => ?_) (?_ : Keeps z x.1); (on_goal 1 => clear_value x); (on_goal 2 => simp only [x]))
      | ((try lift_lets -underBinder); intro x; clear_value x)
      | (with_reducible first | apply keeps_peerSilent | apply keeps_runTx | apply keeps_putTx | apply keeps_ite | apply keeps_ite_fst)
      | (intro _)
      | split)

end Sys2Proof.Machine
end

