-- ==== Sys2Proof/Laws/Keeps/Rings.lean ====
section
/-!
SUPPORT. What the functions of Machine/Rings.lean keep (Safety.Keeps).
-/

set_option linter.unusedTactic false
set_option linter.unreachableTactic false

namespace Sys2Proof.Machine

theorem keeps_putTaken {z : State} (s : State) (t : Taken)  (h : Keeps z s) : Keeps z (putTaken s t) := by
  unfold putTaken
  repeat' (first
      | (with_reducible assumption)
      | ((try lift_lets -underBinder); intro x; refine (fun hx : Keeps z x => ?_) (?_ : Keeps z x); (on_goal 1 => clear_value x); (on_goal 2 => simp only [x]))
      | ((try lift_lets -underBinder); intro x; refine (fun hx : Keeps z x.1 => ?_) (?_ : Keeps z x.1); (on_goal 1 => clear_value x); (on_goal 2 => simp only [x]))
      | ((try lift_lets -underBinder); intro x; clear_value x)
      | (with_reducible first | apply keeps_ite | apply keeps_ite_fst)
      | (intro _)
      | split
      | (apply keeps_mk <;> first
          | assumption | with_reducible exact le_rfl | with_reducible exact List.suffix_refl _ | with_reducible exact fun h => h | exact fun _ => tasc_nil
          | with_reducible exact fun h => ⟨h, le_rfl⟩ | exact fun h => ⟨⟨h.1, h.2.1, h.2.2⟩, le_rfl⟩ | exact fun h => twf_tset h
          | exact fun h => twf_twrite h | exact fun h => twf_tclear h | exact fun h => tasc_tset h | exact fun h => tasc_tclear h
          | exact Nat.le_succ _ | exact le_max_left _ _ | exact List.suffix_cons _ _
          | exact fun h => twf_foldl _ (fun _ _ h => twf_tset h) _ _ h | skip)
      | (exact twf_foldl _ (fun _ _ h => twf_tset h) _ _ (by assumption)))

theorem keeps_finishBy {z : State} (s : State) (t : Taken) (st : Status) (form : Nat) (done : Nat) (total : Nat) (ring : Nat)  (h : Keeps z s) : Keeps z (finishBy s t st form done total ring) := by
  unfold finishBy
  repeat' (first
      | (with_reducible assumption)
      | (with_reducible first | apply keeps_putTaken)
      | (intro _)
      | split)

theorem keeps_easeCredits {z : State} (s : State) (f : FuncId)  (h : Keeps z s) : Keeps z (easeCredits s f) := by
  unfold easeCredits
  repeat' (first
      | (with_reducible assumption)
      | (with_reducible first | apply keeps_setOver | apply keeps_ite | apply keeps_ite_fst)
      | (intro _)
      | split)

theorem keeps_dropTaken {z : State} (s : State) (t : Taken)  (h : Keeps z s) : Keeps z (dropTaken s t) := by
  unfold dropTaken
  repeat' (first
      | (with_reducible assumption)
      | ((try lift_lets -underBinder); intro x; refine (fun hx : Keeps z x => ?_) (?_ : Keeps z x); (on_goal 1 => clear_value x); (on_goal 2 => simp only [x]))
      | ((try lift_lets -underBinder); intro x; refine (fun hx : Keeps z x.1 => ?_) (?_ : Keeps z x.1); (on_goal 1 => clear_value x); (on_goal 2 => simp only [x]))
      | ((try lift_lets -underBinder); intro x; clear_value x)
      | (with_reducible first | apply keeps_easeCredits)
      | (intro _)
      | split
      | (apply keeps_mk <;> first
          | assumption | with_reducible exact le_rfl | with_reducible exact List.suffix_refl _ | with_reducible exact fun h => h | exact fun _ => tasc_nil
          | with_reducible exact fun h => ⟨h, le_rfl⟩ | exact fun h => ⟨⟨h.1, h.2.1, h.2.2⟩, le_rfl⟩ | exact fun h => twf_tset h
          | exact fun h => twf_twrite h | exact fun h => twf_tclear h | exact fun h => tasc_tset h | exact fun h => tasc_tclear h
          | exact Nat.le_succ _ | exact le_max_left _ _ | exact List.suffix_cons _ _
          | exact fun h => twf_foldl _ (fun _ _ h => twf_tset h) _ _ h | skip)
      | (exact twf_foldl _ (fun _ _ h => twf_tset h) _ _ (by assumption)))

theorem keeps_fsetf {z : State} (s : State) (f : FuncId) (r : Reg) (hi : Nat) (lo : Nat) (x : Nat)  (h : Keeps z s) : Keeps z (fsetf s f r hi lo x) := by
  unfold fsetf
  repeat' (first
      | (with_reducible assumption)
      | (with_reducible first | apply keeps_fput)
      | (intro _)
      | split)

theorem keeps_writeReply {z : State} (s : State) (x : Reply)  (h : Keeps z s) : Keeps z (writeReply s x) := by
  unfold writeReply
  repeat' (first
      | (with_reducible assumption)
      | ((try lift_lets -underBinder); intro x; refine (fun hx : Keeps z x => ?_) (?_ : Keeps z x); (on_goal 1 => clear_value x); (on_goal 2 => simp only [x]))
      | ((try lift_lets -underBinder); intro x; refine (fun hx : Keeps z x.1 => ?_) (?_ : Keeps z x.1); (on_goal 1 => clear_value x); (on_goal 2 => simp only [x]))
      | ((try lift_lets -underBinder); intro x; clear_value x)
      | (with_reducible first | apply keeps_emit | apply keeps_fsetf | apply keeps_ite | apply keeps_ite_fst)
      | (intro _)
      | split
      | (apply keeps_mk <;> first
          | assumption | with_reducible exact le_rfl | with_reducible exact List.suffix_refl _ | with_reducible exact fun h => h | exact fun _ => tasc_nil
          | with_reducible exact fun h => ⟨h, le_rfl⟩ | exact fun h => ⟨⟨h.1, h.2.1, h.2.2⟩, le_rfl⟩ | exact fun h => twf_tset h
          | exact fun h => twf_twrite h | exact fun h => twf_tclear h | exact fun h => tasc_tset h | exact fun h => tasc_tclear h
          | exact Nat.le_succ _ | exact le_max_left _ _ | exact List.suffix_cons _ _
          | exact fun h => twf_foldl _ (fun _ _ h => twf_tset h) _ _ h | skip)
      | (exact twf_foldl _ (fun _ _ h => twf_tset h) _ _ (by assumption)))

theorem keeps_flushList {z : State} (a0 : List Reply) (a1 : List Reply) (a2 : State)  (h : Keeps z a2) : Keeps z (flushList a0 a1 a2) := by
  induction a0 generalizing a1 a2 with
  | nil =>
    rw [flushList]
    repeat' (first
      | (with_reducible assumption)
      | ((try lift_lets -underBinder); intro x; refine (fun hx : Keeps z x => ?_) (?_ : Keeps z x); (on_goal 1 => clear_value x); (on_goal 2 => simp only [x]))
      | ((try lift_lets -underBinder); intro x; refine (fun hx : Keeps z x.1 => ?_) (?_ : Keeps z x.1); (on_goal 1 => clear_value x); (on_goal 2 => simp only [x]))
      | ((try lift_lets -underBinder); intro x; clear_value x)
      | (with_reducible first | apply keeps_writeReply | apply keeps_ite | apply keeps_ite_fst | apply ih)
      | (with_reducible refine keeps_foldl _ _ _ ?_ ?_; (on_goal 1 => (intro _ _ _)))
      | (with_reducible refine keeps_foldl_fst _ _ _ ?_ ?_; (on_goal 1 => (intro _ _ _)))
      | (intro _)
      | split
      | (apply keeps_mk <;> first
          | assumption | with_reducible exact le_rfl | with_reducible exact List.suffix_refl _ | with_reducible exact fun h => h | exact fun _ => tasc_nil
          | with_reducible exact fun h => ⟨h, le_rfl⟩ | exact fun h => ⟨⟨h.1, h.2.1, h.2.2⟩, le_rfl⟩ | exact fun h => twf_tset h
          | exact fun h => twf_twrite h | exact fun h => twf_tclear h | exact fun h => tasc_tset h | exact fun h => tasc_tclear h
          | exact Nat.le_succ _ | exact le_max_left _ _ | exact List.suffix_cons _ _
          | exact fun h => twf_foldl _ (fun _ _ h => twf_tset h) _ _ h | skip)
      | (exact twf_foldl _ (fun _ _ h => twf_tset h) _ _ (by assumption)))
  | cons y a0 ih =>
    rw [flushList]
    repeat' (first
      | (with_reducible assumption)
      | ((try lift_lets -underBinder); intro x; refine (fun hx : Keeps z x => ?_) (?_ : Keeps z x); (on_goal 1 => clear_value x); (on_goal 2 => simp only [x]))
      | ((try lift_lets -underBinder); intro x; refine (fun hx : Keeps z x.1 => ?_) (?_ : Keeps z x.1); (on_goal 1 => clear_value x); (on_goal 2 => simp only [x]))
      | ((try lift_lets -underBinder); intro x; clear_value x)
      | (with_reducible first | apply keeps_writeReply | apply keeps_ite | apply keeps_ite_fst | apply ih)
      | (with_reducible refine keeps_foldl _ _ _ ?_ ?_; (on_goal 1 => (intro _ _ _)))
      | (with_reducible refine keeps_foldl_fst _ _ _ ?_ ?_; (on_goal 1 => (intro _ _ _)))
      | (intro _)
      | split
      | (apply keeps_mk <;> first
          | assumption | with_reducible exact le_rfl | with_reducible exact List.suffix_refl _ | with_reducible exact fun h => h | exact fun _ => tasc_nil
          | with_reducible exact fun h => ⟨h, le_rfl⟩ | exact fun h => ⟨⟨h.1, h.2.1, h.2.2⟩, le_rfl⟩ | exact fun h => twf_tset h
          | exact fun h => twf_twrite h | exact fun h => twf_tclear h | exact fun h => tasc_tset h | exact fun h => tasc_tclear h
          | exact Nat.le_succ _ | exact le_max_left _ _ | exact List.suffix_cons _ _
          | exact fun h => twf_foldl _ (fun _ _ h => twf_tset h) _ _ h | skip)
      | (exact twf_foldl _ (fun _ _ h => twf_tset h) _ _ (by assumption)))

theorem keeps_flushReplies {z : State} (s : State)  (h : Keeps z s) : Keeps z (flushReplies s) := by
  unfold flushReplies
  repeat' (first
      | (with_reducible assumption)
      | (with_reducible first | apply keeps_flushList)
      | (intro _)
      | split)

theorem keeps_post {z : State} (s : State) (f : FuncId) (r : Fin 4) (b : List Byte) (vec : Option Nat) (before : optParam (Option Nat) none)  (h : Keeps z s) : Keeps z (post s f r b vec before) := by
  unfold post
  repeat' (first
      | (with_reducible assumption)
      | ((try lift_lets -underBinder); intro x; refine (fun hx : Keeps z x => ?_) (?_ : Keeps z x); (on_goal 1 => clear_value x); (on_goal 2 => simp only [x]))
      | ((try lift_lets -underBinder); intro x; refine (fun hx : Keeps z x.1 => ?_) (?_ : Keeps z x.1); (on_goal 1 => clear_value x); (on_goal 2 => simp only [x]))
      | ((try lift_lets -underBinder); intro x; clear_value x)
      | (with_reducible first | apply keeps_flushReplies)
      | (intro _)
      | split
      | (apply keeps_mk <;> first
          | assumption | with_reducible exact le_rfl | with_reducible exact List.suffix_refl _ | with_reducible exact fun h => h | exact fun _ => tasc_nil
          | with_reducible exact fun h => ⟨h, le_rfl⟩ | exact fun h => ⟨⟨h.1, h.2.1, h.2.2⟩, le_rfl⟩ | exact fun h => twf_tset h
          | exact fun h => twf_twrite h | exact fun h => twf_tclear h | exact fun h => tasc_tset h | exact fun h => tasc_tclear h
          | exact Nat.le_succ _ | exact le_max_left _ _ | exact List.suffix_cons _ _
          | exact fun h => twf_foldl _ (fun _ _ h => twf_tset h) _ _ h | skip)
      | (exact twf_foldl _ (fun _ _ h => twf_tset h) _ _ (by assumption)))

theorem keeps_finishAs {z : State} (s : State) (t : Taken) (st : Status) (form : Nat) (done : Nat) (total : Nat) (ev : Nat)  (h : Keeps z s) : Keeps z (finishAs s t st form done total ev) := by
  unfold finishAs
  repeat' (first
      | (with_reducible assumption)
      | ((try lift_lets -underBinder); intro x; refine (fun hx : Keeps z x => ?_) (?_ : Keeps z x); (on_goal 1 => clear_value x); (on_goal 2 => simp only [x]))
      | ((try lift_lets -underBinder); intro x; refine (fun hx : Keeps z x.1 => ?_) (?_ : Keeps z x.1); (on_goal 1 => clear_value x); (on_goal 2 => simp only [x]))
      | ((try lift_lets -underBinder); intro x; clear_value x)
      | (with_reducible first | apply keeps_dropTaken | apply keeps_post | apply keeps_ite | apply keeps_ite_fst)
      | (intro _)
      | split)

theorem keeps_finishForm {z : State} (s : State) (t : Taken) (st : Status) (ev : Nat)  (h : Keeps z s) : Keeps z (finishForm s t st ev) := by
  unfold finishForm
  repeat' (first
      | (with_reducible assumption)
      | (with_reducible first | apply keeps_finishAs | apply keeps_ite | apply keeps_ite_fst)
      | (intro _)
      | split)

theorem keeps_finish {z : State} (s : State) (t : Taken) (st : Status) (done : Nat) (total : Nat)  (h : Keeps z s) : Keeps z (finish s t st done total) := by
  unfold finish
  repeat' (first
      | (with_reducible assumption)
      | (with_reducible first | apply keeps_finishAs)
      | (intro _)
      | split)

theorem keeps_postEvent {z : State} (s : State) (f : FuncId) (st : Status) (done : Nat) (total : Nat) (ev : Nat) (slice : Nat)  (h : Keeps z s) : Keeps z (postEvent s f st done total ev slice) := by
  unfold postEvent
  repeat' (first
      | (with_reducible assumption)
      | (with_reducible first | apply keeps_post)
      | (intro _)
      | split)

theorem keeps_runPacket {z : State} (s : State) (id : Nat) (op : Nat) (act : State → Taken → State) (hact : ∀ t x0, Keeps z t → Keeps z (act t x0)) (h : Keeps z s) : Keeps z (runPacket s id op act) := by
  unfold runPacket
  repeat' (first
      | (with_reducible assumption)
      | (with_reducible first | apply keeps_finish | apply keeps_putTaken | apply hact | apply keeps_ite | apply keeps_ite_fst)
      | (intro _)
      | split)

theorem keeps_readBuf {z : State} (s : State) (t : Taken) (a : Nat) (n : Nat)  (h : Keeps z s) : Keeps z (readBuf s t a n) := by
  unfold readBuf
  repeat' (first
      | (with_reducible assumption)
      | (with_reducible first | apply keeps_emit)
      | (intro _)
      | split)

theorem keeps_logRing1 {z : State} (s : State) (f : FuncId) (r : Fin 4) (cause : Nat) (lo : Nat)  (h : Keeps z s) : Keeps z (logRing1 s f r cause lo) := by
  unfold logRing1
  repeat' (first
      | (with_reducible assumption)
      | (with_reducible first | apply keeps_logEv)
      | (intro _)
      | split)

theorem keeps_writeSqdb {z : State} (s : State) (f : FuncId) (r : Fin 4) (v : W64)  (h : Keeps z s) : Keeps z (writeSqdb s f r v) := by
  unfold writeSqdb
  repeat' (first
      | (with_reducible assumption)
      | (with_reducible first | apply keeps_logRing1 | apply keeps_fsetf | apply keeps_ite | apply keeps_ite_fst)
      | (intro _)
      | split)

theorem keeps_writeCqdb {z : State} (s : State) (f : FuncId) (r : Fin 4) (v : W64)  (h : Keeps z s) : Keeps z (writeCqdb s f r v) := by
  unfold writeCqdb
  repeat' (first
      | (with_reducible assumption)
      | (with_reducible first | apply keeps_flushReplies | apply keeps_fsetf)
      | (intro _)
      | split)

theorem keeps_resetPointers {z : State} (s : State) (f : FuncId) (r : Fin 4)  (h : Keeps z s) : Keeps z (resetPointers s f r) := by
  unfold resetPointers
  repeat' (first
      | (with_reducible assumption)
      | ((try lift_lets -underBinder); intro x; refine (fun hx : Keeps z x => ?_) (?_ : Keeps z x); (on_goal 1 => clear_value x); (on_goal 2 => simp only [x]))
      | ((try lift_lets -underBinder); intro x; refine (fun hx : Keeps z x.1 => ?_) (?_ : Keeps z x.1); (on_goal 1 => clear_value x); (on_goal 2 => simp only [x]))
      | ((try lift_lets -underBinder); intro x; clear_value x)
      | (with_reducible first | apply keeps_fput | apply keeps_flushReplies | apply keeps_ite | apply keeps_ite_fst)
      | (intro _)
      | split
      | (apply keeps_mk <;> first
          | assumption | with_reducible exact le_rfl | with_reducible exact List.suffix_refl _ | with_reducible exact fun h => h | exact fun _ => tasc_nil
          | with_reducible exact fun h => ⟨h, le_rfl⟩ | exact fun h => ⟨⟨h.1, h.2.1, h.2.2⟩, le_rfl⟩ | exact fun h => twf_tset h
          | exact fun h => twf_twrite h | exact fun h => twf_tclear h | exact fun h => tasc_tset h | exact fun h => tasc_tclear h
          | exact Nat.le_succ _ | exact le_max_left _ _ | exact List.suffix_cons _ _
          | exact fun h => twf_foldl _ (fun _ _ h => twf_tset h) _ _ h | skip)
      | (exact twf_foldl _ (fun _ _ h => twf_tset h) _ _ (by assumption)))

theorem keeps_writeRingSize {z : State} (s : State) (f : FuncId) (r : Fin 4) (n : Nat)  (h : Keeps z s) : Keeps z (writeRingSize s f r n) := by
  unfold writeRingSize
  repeat' (first
      | (with_reducible assumption)
      | (with_reducible first | apply keeps_logRing1 | apply keeps_resetPointers | apply keeps_fsetf | apply keeps_ite | apply keeps_ite_fst)
      | (intro _)
      | split)

theorem keeps_readSlot {z : State} (s : State) (f : FuncId) (r : Fin 4) (i : Nat)  (h : Keeps z s) : Keeps z (readSlot s f r i) := by
  unfold readSlot
  repeat' (first
      | (with_reducible assumption)
      | (with_reducible first | apply keeps_emit)
      | (intro _)
      | split)

theorem keeps_replyFinal {z : State} (s : State) (f : FuncId) (r : Fin 4) (b : List Byte) (st : Status)  (h : Keeps z s) : Keeps z (replyFinal s f r b st) := by
  unfold replyFinal
  repeat' (first
      | (with_reducible assumption)
      | (with_reducible first | apply keeps_post | apply keeps_ite | apply keeps_ite_fst)
      | (intro _)
      | split)

theorem keeps_drawPacket {z : State} (s : State)  (h : Keeps z s) : Keeps z (drawPacket s).1 := by
  unfold drawPacket
  repeat' (first
      | (with_reducible assumption)
      | ((try lift_lets -underBinder); intro x; refine (fun hx : Keeps z x => ?_) (?_ : Keeps z x); (on_goal 1 => clear_value x); (on_goal 2 => simp only [x]))
      | ((try lift_lets -underBinder); intro x; refine (fun hx : Keeps z x.1 => ?_) (?_ : Keeps z x.1); (on_goal 1 => clear_value x); (on_goal 2 => simp only [x]))
      | ((try lift_lets -underBinder); intro x; clear_value x)
      | (with_reducible first | apply keeps_drawFree)
      | (with_reducible refine keeps_foldl _ _ _ ?_ ?_; (on_goal 1 => (intro _ _ _)))
      | (with_reducible refine keeps_foldl_fst _ _ _ ?_ ?_; (on_goal 1 => (intro _ _ _)))
      | (intro _)
      | split)

theorem keeps_abortSlots {z : State} (f : FuncId) (r : Fin 4) (n : Nat) (bs : List (List Byte)) (s : State) (h : Keeps z s) :
    Keeps z (abortSlots f r n bs s) := by
  induction n generalizing bs s with
  | zero => exact h
  | succ n ih =>
    cases bs with
    | nil => exact ih _ _ (keeps_replyFinal _ _ _ _ _ (keeps_drawPacket _ h))
    | cons b bs => exact ih _ _ (keeps_replyFinal _ _ _ _ _ h)

theorem keeps_abortRing {z : State} (s : State) (f : FuncId) (r : Fin 4) (pkts : List (List Byte))  (h : Keeps z s) : Keeps z (abortRing s f r pkts) := by
  unfold abortRing
  repeat' (first
      | (with_reducible assumption)
      | ((try lift_lets -underBinder); intro x; refine (fun hx : Keeps z x => ?_) (?_ : Keeps z x); (on_goal 1 => clear_value x); (on_goal 2 => simp only [x]))
      | ((try lift_lets -underBinder); intro x; refine (fun hx : Keeps z x.1 => ?_) (?_ : Keeps z x.1); (on_goal 1 => clear_value x); (on_goal 2 => simp only [x]))
      | ((try lift_lets -underBinder); intro x; clear_value x)
      | (with_reducible first | apply keeps_readSlot | apply keeps_fsetf | apply keeps_abortSlots | apply keeps_ite | apply keeps_ite_fst)
      | (with_reducible refine keeps_foldl _ _ _ ?_ ?_; (on_goal 1 => (intro _ _ _)))
      | (with_reducible refine keeps_foldl_fst _ _ _ ?_ ?_; (on_goal 1 => (intro _ _ _)))
      | (intro _)
      | split
      | (apply keeps_mk <;> first
          | assumption | with_reducible exact le_rfl | with_reducible exact List.suffix_refl _ | with_reducible exact fun h => h | exact fun _ => tasc_nil
          | with_reducible exact fun h => ⟨h, le_rfl⟩ | exact fun h => ⟨⟨h.1, h.2.1, h.2.2⟩, le_rfl⟩ | exact fun h => twf_tset h
          | exact fun h => twf_twrite h | exact fun h => twf_tclear h | exact fun h => tasc_tset h | exact fun h => tasc_tclear h
          | exact Nat.le_succ _ | exact le_max_left _ _ | exact List.suffix_cons _ _
          | exact fun h => twf_foldl _ (fun _ _ h => twf_tset h) _ _ h | skip)
      | (exact twf_foldl _ (fun _ _ h => twf_tset h) _ _ (by assumption)))

theorem keeps_writeRingCtl {z : State} (s : State) (f : FuncId) (r : Fin 4) (v : W64) (pkts : List (List Byte))  (h : Keeps z s) : Keeps z (writeRingCtl s f r v pkts) := by
  unfold writeRingCtl
  repeat' (first
      | (with_reducible assumption)
      | ((try lift_lets -underBinder); intro x; refine (fun hx : Keeps z x => ?_) (?_ : Keeps z x); (on_goal 1 => clear_value x); (on_goal 2 => simp only [x]))
      | ((try lift_lets -underBinder); intro x; refine (fun hx : Keeps z x.1 => ?_) (?_ : Keeps z x.1); (on_goal 1 => clear_value x); (on_goal 2 => simp only [x]))
      | ((try lift_lets -underBinder); intro x; clear_value x)
      | (with_reducible first | apply keeps_writeRingSize | apply keeps_abortRing | apply keeps_fsetf | apply keeps_logRing1 | apply keeps_ite | apply keeps_ite_fst)
      | (intro _)
      | split)

theorem keeps_writeRingBase {z : State} (s : State) (f : FuncId) (r : Fin 4) (sq : Bool) (v : W64)  (h : Keeps z s) : Keeps z (writeRingBase s f r sq v) := by
  unfold writeRingBase
  repeat' (first
      | (with_reducible assumption)
      | ((try lift_lets -underBinder); intro x; refine (fun hx : Keeps z x => ?_) (?_ : Keeps z x); (on_goal 1 => clear_value x); (on_goal 2 => simp only [x]))
      | ((try lift_lets -underBinder); intro x; refine (fun hx : Keeps z x.1 => ?_) (?_ : Keeps z x.1); (on_goal 1 => clear_value x); (on_goal 2 => simp only [x]))
      | ((try lift_lets -underBinder); intro x; clear_value x)
      | (with_reducible first | apply keeps_logRing1 | apply keeps_resetPointers | apply keeps_fsetf | apply keeps_ite | apply keeps_ite_fst)
      | (intro _)
      | split)

theorem keeps_setSliceState {z : State} (s : State) (n : N20) (x : Nat)  (h : Keeps z s) : Keeps z (setSliceState s n x) := by
  unfold setSliceState
  repeat' (first
      | (with_reducible assumption)
      | (with_reducible first | apply keeps_rsetf)
      | (intro _)
      | split)

theorem keeps_accept {z : State} (s : State) (f : FuncId) (r : Fin 4) (b : List Byte)  (h : Keeps z s) : Keeps z (accept s f r b) := by
  unfold accept
  repeat' (first
      | (with_reducible assumption)
      | ((try lift_lets -underBinder); intro x; refine (fun hx : Keeps z x => ?_) (?_ : Keeps z x); (on_goal 1 => clear_value x); (on_goal 2 => simp only [x]))
      | ((try lift_lets -underBinder); intro x; refine (fun hx : Keeps z x.1 => ?_) (?_ : Keeps z x.1); (on_goal 1 => clear_value x); (on_goal 2 => simp only [x]))
      | ((try lift_lets -underBinder); intro x; clear_value x)
      | (with_reducible first | apply keeps_finish | apply keeps_post | apply keeps_ite | apply keeps_ite_fst)
      | (intro _)
      | split
      | (apply keeps_mk <;> first
          | assumption | with_reducible exact le_rfl | with_reducible exact List.suffix_refl _ | with_reducible exact fun h => h | exact fun _ => tasc_nil
          | with_reducible exact fun h => ⟨h, le_rfl⟩ | exact fun h => ⟨⟨h.1, h.2.1, h.2.2⟩, le_rfl⟩ | exact fun h => twf_tset h
          | exact fun h => twf_twrite h | exact fun h => twf_tclear h | exact fun h => tasc_tset h | exact fun h => tasc_tclear h
          | exact Nat.le_succ _ | exact le_max_left _ _ | exact List.suffix_cons _ _
          | exact fun h => twf_foldl _ (fun _ _ h => twf_tset h) _ _ h | skip)
      | (exact twf_foldl _ (fun _ _ h => twf_tset h) _ _ (by assumption)))

theorem keeps_execCqDoorbell {z : State} (f : FuncId) (r : Fin 4) (v : W64) (s : State)  (h : Keeps z s) : KeepsOut z (execCqDoorbell f r v s) := by
  unfold execCqDoorbell
  repeat' (first
      | (with_reducible assumption)
      | (with_reducible first | apply keepsOut_next | exact keepsOut_fault)
      | (with_reducible apply keeps_hostWrite; (on_goal 1 => (intro _ _)))
      | (with_reducible first | apply keeps_writeCqdb)
      | (intro _)
      | split)

theorem keeps_execPacketTake {z : State} (f : FuncId) (r : Fin 4) (fetched : Option (List Byte)) (s : State)  (h : Keeps z s) : KeepsOut z (execPacketTake f r fetched s) := by
  unfold execPacketTake
  repeat' (first
      | (with_reducible assumption)
      | (with_reducible first | apply keepsOut_next | exact keepsOut_fault)
      | ((try lift_lets -underBinder); intro x; refine (fun hx : Keeps z x => ?_) (?_ : Keeps z x); (on_goal 1 => clear_value x); (on_goal 2 => simp only [x]))
      | ((try lift_lets -underBinder); intro x; refine (fun hx : Keeps z x.1 => ?_) (?_ : Keeps z x.1); (on_goal 1 => clear_value x); (on_goal 2 => simp only [x]))
      | ((try lift_lets -underBinder); intro x; clear_value x)
      | (with_reducible first | apply keeps_logRing1 | apply keeps_fsetf | apply keeps_readSlot | apply keeps_replyFinal | apply keeps_accept | apply keeps_ite | apply keeps_ite_fst)
      | (intro _)
      | split)

theorem keeps_execPing {z : State} (id : Nat) (s : State)  (h : Keeps z s) : KeepsOut z (execPing id s) := by
  unfold execPing
  repeat' (first
      | (with_reducible assumption)
      | (with_reducible first | apply keepsOut_next | exact keepsOut_fault)
      | ((try lift_lets -underBinder); intro x; refine (fun hx : Keeps z x => ?_) (?_ : Keeps z x); (on_goal 1 => clear_value x); (on_goal 2 => simp only [x]))
      | ((try lift_lets -underBinder); intro x; refine (fun hx : Keeps z x.1 => ?_) (?_ : Keeps z x.1); (on_goal 1 => clear_value x); (on_goal 2 => simp only [x]))
      | ((try lift_lets -underBinder); intro x; clear_value x)
      | (with_reducible apply keeps_runPacket; (on_goal 1 => (intro _ _ _)))
      | (with_reducible first | apply keeps_finish)
      | (intro _)
      | split
      | (apply keeps_mk <;> first
          | assumption | with_reducible exact le_rfl | with_reducible exact List.suffix_refl _ | with_reducible exact fun h => h | exact fun _ => tasc_nil
          | with_reducible exact fun h => ⟨h, le_rfl⟩ | exact fun h => ⟨⟨h.1, h.2.1, h.2.2⟩, le_rfl⟩ | exact fun h => twf_tset h
          | exact fun h => twf_twrite h | exact fun h => twf_tclear h | exact fun h => tasc_tset h | exact fun h => tasc_tclear h
          | exact Nat.le_succ _ | exact le_max_left _ _ | exact List.suffix_cons _ _
          | exact fun h => twf_foldl _ (fun _ _ h => twf_tset h) _ _ h | skip)
      | (exact twf_foldl _ (fun _ _ h => twf_tset h) _ _ (by assumption)))

theorem keeps_execProgressReply {z : State} (id : Nat) (done : Nat) (s : State)  (h : Keeps z s) : KeepsOut z (execProgressReply id done s) := by
  unfold execProgressReply
  repeat' (first
      | (with_reducible assumption)
      | (with_reducible first | apply keepsOut_next | exact keepsOut_fault)
      | ((try lift_lets -underBinder); intro x; refine (fun hx : Keeps z x => ?_) (?_ : Keeps z x); (on_goal 1 => clear_value x); (on_goal 2 => simp only [x]))
      | ((try lift_lets -underBinder); intro x; refine (fun hx : Keeps z x.1 => ?_) (?_ : Keeps z x.1); (on_goal 1 => clear_value x); (on_goal 2 => simp only [x]))
      | ((try lift_lets -underBinder); intro x; clear_value x)
      | (with_reducible first | apply keeps_putTaken | apply keeps_post | apply keeps_ite | apply keeps_ite_fst)
      | (intro _)
      | split)

theorem keeps_execQuerySlice {z : State} (id : Nat) (s : State)  (h : Keeps z s) : KeepsOut z (execQuerySlice id s) := by
  unfold execQuerySlice
  repeat' (first
      | (with_reducible assumption)
      | (with_reducible first | apply keepsOut_next | exact keepsOut_fault)
      | (with_reducible apply keeps_runPacket; (on_goal 1 => (intro _ _ _)))
      | (with_reducible first | apply keeps_finish)
      | (intro _)
      | split)

theorem keeps_execRingAbort {z : State} (f : FuncId) (r : Fin 4) (v : W64) (pkts : List (List Byte)) (s : State)  (h : Keeps z s) : KeepsOut z (execRingAbort f r v pkts s) := by
  unfold execRingAbort
  repeat' (first
      | (with_reducible assumption)
      | (with_reducible first | apply keepsOut_next | exact keepsOut_fault)
      | (with_reducible apply keeps_hostWrite; (on_goal 1 => (intro _ _)))
      | (with_reducible first | apply keeps_writeRingCtl | apply keeps_ite | apply keeps_ite_fst)
      | (intro _)
      | split)

theorem keeps_execRingConfigWrite {z : State} (f : FuncId) (r : Fin 4) (reg : RingReg) (v : W64) (s : State)  (h : Keeps z s) : KeepsOut z (execRingConfigWrite f r reg v s) := by
  unfold execRingConfigWrite
  repeat' (first
      | (with_reducible assumption)
      | (with_reducible first | apply keepsOut_next | exact keepsOut_fault)
      | (with_reducible apply keeps_hostWrite; (on_goal 1 => (intro _ _)))
      | (with_reducible first | apply keeps_writeRingSize | apply keeps_writeRingBase)
      | (intro _)
      | split)

theorem keeps_execRingDrain {z : State} (f : FuncId) (r : Fin 4) (v : W64) (s : State)  (h : Keeps z s) : KeepsOut z (execRingDrain f r v s) := by
  unfold execRingDrain
  repeat' (first
      | (with_reducible assumption)
      | (with_reducible first | apply keepsOut_next | exact keepsOut_fault)
      | (with_reducible apply keeps_hostWrite; (on_goal 1 => (intro _ _)))
      | (with_reducible first | apply keeps_writeRingCtl | apply keeps_ite | apply keeps_ite_fst)
      | (intro _)
      | split)

theorem keeps_execRingEnable {z : State} (f : FuncId) (r : Fin 4) (v : W64) (s : State)  (h : Keeps z s) : KeepsOut z (execRingEnable f r v s) := by
  unfold execRingEnable
  repeat' (first
      | (with_reducible assumption)
      | (with_reducible first | apply keepsOut_next | exact keepsOut_fault)
      | (with_reducible apply keeps_hostWrite; (on_goal 1 => (intro _ _)))
      | (with_reducible first | apply keeps_writeRingCtl | apply keeps_ite | apply keeps_ite_fst)
      | (intro _)
      | split)

theorem keeps_execSqDoorbell {z : State} (f : FuncId) (r : Fin 4) (v : W64) (s : State)  (h : Keeps z s) : KeepsOut z (execSqDoorbell f r v s) := by
  unfold execSqDoorbell
  repeat' (first
      | (with_reducible assumption)
      | (with_reducible first | apply keepsOut_next | exact keepsOut_fault)
      | (with_reducible apply keeps_hostWrite; (on_goal 1 => (intro _ _)))
      | (with_reducible first | apply keeps_writeSqdb)
      | (intro _)
      | split)

end Sys2Proof.Machine
end

