-- ==== Sys2Proof/Laws/Keeps/Husk.lean ====
section
/-!
SUPPORT. What the functions of Machine/Husk.lean keep (Safety.Keeps).
-/

set_option linter.unusedTactic false
set_option linter.unreachableTactic false

namespace Sys2Proof.Machine

theorem keeps_putSlot {z : State} (s : State) (i : Fin 2) (x : Slot)  (h : Keeps z s) : Keeps z (putSlot s i x) := by
  unfold putSlot
  dsimp only
  repeat' (first
      | (with_reducible assumption)
      | (exact fun h => ⟨⟨h.1, h.2.1, h.2.2⟩, le_rfl⟩)
      | (intro _)
      | split
      | (apply keeps_mk <;> first
          | assumption | with_reducible exact le_rfl | with_reducible exact List.suffix_refl _ | with_reducible exact fun h => h | exact fun _ => tasc_nil
          | with_reducible exact fun h => ⟨h, le_rfl⟩ | exact fun h => ⟨⟨h.1, h.2.1, h.2.2⟩, le_rfl⟩ | exact fun h => twf_tset h
          | exact fun h => twf_twrite h | exact fun h => twf_tclear h | exact fun h => tasc_tset h | exact fun h => tasc_tclear h
          | exact Nat.le_succ _ | exact le_max_left _ _ | exact List.suffix_cons _ _
          | exact fun h => twf_foldl _ (fun _ _ h => twf_tset h) _ _ h | skip)
      | (exact twf_foldl _ (fun _ _ h => twf_tset h) _ _ (by assumption))
      | (with_reducible exact le_rfl)
      | (exact Nat.le_succ _)
      | (with_reducible exact fun h => ⟨h, le_rfl⟩))

theorem keeps_setSlotSt {z : State} (s : State) (i : Fin 2) (x : Nat)  (h : Keeps z s) : Keeps z (setSlotSt s i x) := by
  unfold setSlotSt
  repeat' (first
      | (with_reducible assumption)
      | ((try lift_lets -underBinder); intro x; refine (fun hx : Keeps z x => ?_) (?_ : Keeps z x); (on_goal 1 => clear_value x); (on_goal 2 => simp only [x]))
      | ((try lift_lets -underBinder); intro x; refine (fun hx : Keeps z x.1 => ?_) (?_ : Keeps z x.1); (on_goal 1 => clear_value x); (on_goal 2 => simp only [x]))
      | ((try lift_lets -underBinder); intro x; clear_value x)
      | (with_reducible first | apply keeps_putSlot)
      | (intro _)
      | split)

end Sys2Proof.Machine
end

