-- ==== Sys2Proof/Laws/Keeps/Keys.lean ====
section
/-!
SUPPORT. What the functions of Machine/Keys.lean keep (Safety.Keeps).
-/

set_option linter.unusedTactic false
set_option linter.unreachableTactic false

namespace Sys2Proof.Machine

theorem keeps_holdSign {z : State} (s : State) (p : PendSign) (seq : Nat) (ring : Nat)  (h : Keeps z s) : Keeps z (holdSign s p seq ring) := by
  unfold holdSign
  repeat' (first
      | (with_reducible assumption)
      | ((try lift_lets -underBinder); intro x; refine (fun hx : Keeps z x => ?_) (?_ : Keeps z x); (on_goal 1 => clear_value x); (on_goal 2 => simp only [x]))
      | ((try lift_lets -underBinder); intro x; refine (fun hx : Keeps z x.1 => ?_) (?_ : Keeps z x.1); (on_goal 1 => clear_value x); (on_goal 2 => simp only [x]))
      | ((try lift_lets -underBinder); intro x; clear_value x)
      | (with_reducible first | apply keeps_postEvent)
      | (intro _)
      | split
      | (apply keeps_mk <;> first
          | assumption | with_reducible exact le_rfl | with_reducible exact List.suffix_refl _ | with_reducible exact fun h => h | exact fun _ => tasc_nil
          | with_reducible exact fun h => ⟨h, le_rfl⟩ | exact fun h => ⟨⟨h.1, h.2.1, h.2.2⟩, le_rfl⟩ | exact fun h => twf_tset h
          | exact fun h => twf_twrite h | exact fun h => twf_tclear h | exact fun h => tasc_tset h | exact fun h => tasc_tclear h
          | exact Nat.le_succ _ | exact le_max_left _ _ | exact List.suffix_cons _ _
          | exact fun h => twf_foldl _ (fun _ _ h => twf_tset h) _ _ h | skip)
      | (exact twf_foldl _ (fun _ _ h => twf_tset h) _ _ (by assumption)))

theorem keeps_signIdentity {z : State} (s : State) (msg : List Byte) (h : Keeps z s) : Keeps z (signIdentity s msg).1 := by
  unfold signIdentity
  split
  · exact h
  · rename_i hc
    have hlt : nextLeaf s < 32768 := by
      simp only [canSign, Bool.not_eq_true', Bool.not_eq_false, Bool.and_eq_true, decide_eq_true_eq] at hc
      exact hc.2
    refine keeps_putMram s _ le_rfl (fun l => ?_) h
    have hn : nextLeaf s = s.fw.mram.mono := by rw [nextLeaf, l.1]; rfl
    refine ⟨⟨rfl, rfl, ?_⟩, ?_⟩ <;> simp only [wrote, putWear] <;> omega

theorem keeps_signRecordP {z : State} (s : State) (rec_ : List Byte)  (h : Keeps z s) : Keeps z (signRecord' s rec_).1 := by
  unfold signRecord'
  dsimp only
  repeat' (first
      | (with_reducible assumption)
      | (with_reducible first | apply keeps_signIdentity | apply keeps_putMram)
      | (exact fun h => ⟨⟨h.1, h.2.1, h.2.2⟩, le_rfl⟩)
      | (intro _)
      | split
      | (with_reducible exact le_rfl)
      | (exact Nat.le_succ _)
      | (with_reducible exact fun h => ⟨h, le_rfl⟩))

theorem keeps_signSession {z : State} (s : State)  (h : Keeps z s) : Keeps z (signSession s) := by
  unfold signSession
  dsimp only
  repeat' (first
      | (with_reducible assumption)
      | (with_reducible first | apply keeps_signIdentity | apply keeps_putMram | apply keeps_ite | apply keeps_ite_fst)
      | (exact fun h => ⟨⟨h.1, h.2.1, h.2.2⟩, le_rfl⟩)
      | (intro _)
      | split
      | (apply keeps_mk <;> first
          | assumption | with_reducible exact le_rfl | with_reducible exact List.suffix_refl _ | with_reducible exact fun h => h | exact fun _ => tasc_nil
          | with_reducible exact fun h => ⟨h, le_rfl⟩ | exact fun h => ⟨⟨h.1, h.2.1, h.2.2⟩, le_rfl⟩ | exact fun h => twf_tset h
          | exact fun h => twf_twrite h | exact fun h => twf_tclear h | exact fun h => tasc_tset h | exact fun h => tasc_tclear h
          | exact Nat.le_succ _ | exact le_max_left _ _ | exact List.suffix_cons _ _
          | exact fun h => twf_foldl _ (fun _ _ h => twf_tset h) _ _ h | skip)
      | (exact twf_foldl _ (fun _ _ h => twf_tset h) _ _ (by assumption))
      | (with_reducible exact le_rfl)
      | (exact Nat.le_succ _)
      | (with_reducible exact fun h => ⟨h, le_rfl⟩))

theorem keeps_closeBatch {z : State} (s : State)  (h : Keeps z s) : Keeps z (closeBatch s) := by
  unfold closeBatch
  repeat' (first
      | (with_reducible assumption)
      | ((try lift_lets -underBinder); intro x; refine (fun hx : Keeps z x => ?_) (?_ : Keeps z x); (on_goal 1 => clear_value x); (on_goal 2 => simp only [x]))
      | ((try lift_lets -underBinder); intro x; refine (fun hx : Keeps z x.1 => ?_) (?_ : Keeps z x.1); (on_goal 1 => clear_value x); (on_goal 2 => simp only [x]))
      | ((try lift_lets -underBinder); intro x; clear_value x)
      | (with_reducible first | apply keeps_finish | apply keeps_emit | apply keeps_ite | apply keeps_ite_fst)
      | (with_reducible refine keeps_foldl _ _ _ ?_ ?_; (on_goal 1 => (intro _ _ _)))
      | (with_reducible refine keeps_foldl_fst _ _ _ ?_ ?_; (on_goal 1 => (intro _ _ _)))
      | (intro _)
      | split
      | (apply keeps_mk <;> first
          | assumption | with_reducible exact le_rfl | with_reducible exact List.suffix_refl _ | with_reducible exact fun h => h | exact fun _ => tasc_nil
          | with_reducible exact fun h => ⟨h, le_rfl⟩ | exact fun h => ⟨⟨h.1, h.2.1, h.2.2⟩, le_rfl⟩ | exact fun h => twf_tset h
          | exact fun h => twf_twrite h | exact fun h => twf_tclear h | exact fun h => tasc_tset h | exact fun h => tasc_tclear h
          | exact Nat.le_succ _ | exact le_max_left _ _ | exact List.suffix_cons _ _
          | exact fun h => twf_foldl _ (fun _ _ h => twf_tset h) _ _ h | skip)
      | (exact twf_foldl _ (fun _ _ h => twf_tset h) _ _ (by assumption)))

theorem keeps_admitQuote {z : State} (s : State) (t : Taken) (n : N20) (req : List Byte)  (h : Keeps z s) : Keeps z (admitQuote s t n req) := by
  unfold admitQuote
  repeat' (first
      | (with_reducible assumption)
      | ((try lift_lets -underBinder); intro x; refine (fun hx : Keeps z x => ?_) (?_ : Keeps z x); (on_goal 1 => clear_value x); (on_goal 2 => simp only [x]))
      | ((try lift_lets -underBinder); intro x; refine (fun hx : Keeps z x.1 => ?_) (?_ : Keeps z x.1); (on_goal 1 => clear_value x); (on_goal 2 => simp only [x]))
      | ((try lift_lets -underBinder); intro x; clear_value x)
      | (with_reducible first | apply keeps_putSec | apply keeps_closeBatch | apply keeps_ite | apply keeps_ite_fst)
      | (intro _)
      | split
      | (apply keeps_mk <;> first
          | assumption | with_reducible exact le_rfl | with_reducible exact List.suffix_refl _ | with_reducible exact fun h => h | exact fun _ => tasc_nil
          | with_reducible exact fun h => ⟨h, le_rfl⟩ | exact fun h => ⟨⟨h.1, h.2.1, h.2.2⟩, le_rfl⟩ | exact fun h => twf_tset h
          | exact fun h => twf_twrite h | exact fun h => twf_tclear h | exact fun h => tasc_tset h | exact fun h => tasc_tclear h
          | exact Nat.le_succ _ | exact le_max_left _ _ | exact List.suffix_cons _ _
          | exact fun h => twf_foldl _ (fun _ _ h => twf_tset h) _ _ h | skip)
      | (exact twf_foldl _ (fun _ _ h => twf_tset h) _ _ (by assumption)))

theorem keeps_confirmState {z : State} (s : State) (h : Keeps z s) : Keeps z (confirmState s) := by
  unfold confirmState
  dsimp only
  split
  · split
    · refine keeps_mk (keeps_putMram s _ (by split <;> exact le_rfl) (fun l => by
        split
        · exact ⟨l, le_rfl⟩
        · exact ⟨⟨rfl, rfl, l.2.2⟩, le_rfl⟩) h) ?_ ?_ ?_ ?_ ?_ ?_ ?_ ?_ ?_ ?_ ?_ ?_ ?_ ?_ ?_ ?_ ?_ ?_ ?_ ?_ <;>
        first
          | with_reducible exact le_rfl | with_reducible exact List.suffix_refl _ | with_reducible exact fun h => h
          | with_reducible exact fun h => ⟨h, le_rfl⟩
    · refine keeps_mk h ?_ ?_ ?_ ?_ ?_ ?_ ?_ ?_ ?_ ?_ ?_ ?_ ?_ ?_ ?_ ?_ ?_ ?_ ?_ ?_ <;>
        first
          | with_reducible exact le_rfl | with_reducible exact List.suffix_refl _ | with_reducible exact fun h => h
          | with_reducible exact fun h => ⟨h, le_rfl⟩
  · refine keeps_mk h ?_ ?_ ?_ ?_ ?_ ?_ ?_ ?_ ?_ ?_ ?_ ?_ ?_ ?_ ?_ ?_ ?_ ?_ ?_ ?_ <;>
        first
          | with_reducible exact le_rfl | with_reducible exact List.suffix_refl _ | with_reducible exact fun h => h
          | with_reducible exact fun h => ⟨h, le_rfl⟩

theorem keeps_keyDeliver {z : State} (fetched : Option (List Byte)) (s : State) (t : Taken) (n : N20)  (h : Keeps z s) : Keeps z (keyDeliver fetched s t n) := by
  unfold keyDeliver
  repeat' (first
      | (with_reducible assumption)
      | ((try lift_lets -underBinder); intro x; refine (fun hx : Keeps z x => ?_) (?_ : Keeps z x); (on_goal 1 => clear_value x); (on_goal 2 => simp only [x]))
      | ((try lift_lets -underBinder); intro x; refine (fun hx : Keeps z x.1 => ?_) (?_ : Keeps z x.1); (on_goal 1 => clear_value x); (on_goal 2 => simp only [x]))
      | ((try lift_lets -underBinder); intro x; clear_value x)
      | (with_reducible first | apply keeps_finish | apply keeps_readBuf | apply keeps_dropKem | apply keeps_beginScrub | apply keeps_setSliceState | apply keeps_installKey | apply keeps_ite | apply keeps_ite_fst)
      | (intro _)
      | split)

theorem keeps_execKeyDeliver {z : State} (id : Nat) (fetched : Option (List Byte)) (s : State)  (h : Keeps z s) : KeepsOut z (execKeyDeliver id fetched s) := by
  unfold execKeyDeliver
  repeat' (first
      | (with_reducible assumption)
      | (with_reducible first | apply keepsOut_next | exact keepsOut_fault)
      | (with_reducible apply keeps_runOnSlice; (on_goal 1 => (intro _ _ _ _)))
      | (with_reducible first | apply keeps_keyDeliver | apply keeps_ite | apply keeps_ite_fst)
      | (intro _)
      | split)

theorem keeps_execQuote {z : State} (id : Nat) (fetched : Option (List Byte)) (s : State)  (h : Keeps z s) : KeepsOut z (execQuote id fetched s) := by
  unfold execQuote
  repeat' (first
      | (with_reducible assumption)
      | (with_reducible first | apply keepsOut_next | exact keepsOut_fault)
      | ((try lift_lets -underBinder); intro x; refine (fun hx : Keeps z x => ?_) (?_ : Keeps z x); (on_goal 1 => clear_value x); (on_goal 2 => simp only [x]))
      | ((try lift_lets -underBinder); intro x; refine (fun hx : Keeps z x.1 => ?_) (?_ : Keeps z x.1); (on_goal 1 => clear_value x); (on_goal 2 => simp only [x]))
      | ((try lift_lets -underBinder); intro x; clear_value x)
      | (with_reducible apply keeps_runOnSlice; (on_goal 1 => (intro _ _ _ _)))
      | (with_reducible first | apply keeps_finish | apply keeps_readBuf | apply keeps_admitQuote | apply keeps_ite | apply keeps_ite_fst)
      | (intro _)
      | split)

theorem keeps_execQuoteBatchClose {z : State} (s : State)  (h : Keeps z s) : KeepsOut z (execQuoteBatchClose s) := by
  unfold execQuoteBatchClose
  repeat' (first
      | (with_reducible assumption)
      | (with_reducible first | apply keepsOut_next | exact keepsOut_fault)
      | (with_reducible first | apply keeps_closeBatch)
      | (intro _)
      | split)

theorem keeps_execSessionTreeGenerated {z : State} (s : State)  (h : Keeps z s) : KeepsOut z (execSessionTreeGenerated s) := by
  unfold execSessionTreeGenerated
  repeat' (first
      | (with_reducible assumption)
      | (with_reducible first | apply keepsOut_next | exact keepsOut_fault)
      | ((try lift_lets -underBinder); intro x; refine (fun hx : Keeps z x => ?_) (?_ : Keeps z x); (on_goal 1 => clear_value x); (on_goal 2 => simp only [x]))
      | ((try lift_lets -underBinder); intro x; refine (fun hx : Keeps z x.1 => ?_) (?_ : Keeps z x.1); (on_goal 1 => clear_value x); (on_goal 2 => simp only [x]))
      | ((try lift_lets -underBinder); intro x; clear_value x)
      | (with_reducible first | apply keeps_holdSign | apply keeps_signSession | apply keeps_ite | apply keeps_ite_fst)
      | (intro _)
      | split
      | (apply keeps_mk <;> first
          | assumption | with_reducible exact le_rfl | with_reducible exact List.suffix_refl _ | with_reducible exact fun h => h | exact fun _ => tasc_nil
          | with_reducible exact fun h => ⟨h, le_rfl⟩ | exact fun h => ⟨⟨h.1, h.2.1, h.2.2⟩, le_rfl⟩ | exact fun h => twf_tset h
          | exact fun h => twf_twrite h | exact fun h => twf_tclear h | exact fun h => tasc_tset h | exact fun h => tasc_tclear h
          | exact Nat.le_succ _ | exact le_max_left _ _ | exact List.suffix_cons _ _
          | exact fun h => twf_foldl _ (fun _ _ h => twf_tset h) _ _ h | skip)
      | (exact twf_foldl _ (fun _ _ h => twf_tset h) _ _ (by assumption)))

end Sys2Proof.Machine
end

