-- ==== Sys2Proof/Laws/Keeps/FwOps.lean ====
section
/-!
SUPPORT. What the functions of Machine/FwOps.lean keep (Safety.Keeps).
-/

set_option linter.unusedTactic false
set_option linter.unreachableTactic false

namespace Sys2Proof.Machine

theorem keeps_updProgress {z : State} (s : State) (id : Nat) (n : Nat)  (h : Keeps z s) : Keeps z (updProgress s id n) := by
  unfold updProgress
  repeat' (first
      | (with_reducible assumption)
      | (with_reducible first | apply keeps_putTaken)
      | (intro _)
      | split)

theorem keeps_actDone {z : State} (s : State) (id : Nat) (n : Nat)  (h : Keeps z s) : Keeps z (actDone s id n) := by
  unfold actDone
  repeat' (first
      | (with_reducible assumption)
      | (with_reducible first | apply keeps_updProgress)
      | (intro _)
      | split)

theorem keeps_putIfv {z : State} (s : State) (role : Nat) (man : List Byte)  (h : Keeps z s) : Keeps z (putIfv s role man) := by
  unfold putIfv
  repeat' (first
      | (with_reducible assumption)
      | (with_reducible first | apply keeps_rsetf)
      | (intro _)
      | split)

theorem keeps_setIfv {z : State} (s : State) (role : Nat) (i : Fin 2)  (h : Keeps z s) : Keeps z (setIfv s role i) := by
  unfold setIfv
  repeat' (first
      | (with_reducible assumption)
      | (with_reducible first | apply keeps_putIfv)
      | (intro _)
      | split)

theorem keeps_putAct {z : State} (s : State) (a : Activation)  (h : Keeps z s) : Keeps z (putAct s a) := by
  unfold putAct
  dsimp only
  repeat' (first
      | (with_reducible assumption)
      | (exact fun h => ⟨⟨h.1, h.2.1, h.2.2⟩, le_rfl⟩)
      | (intro _)
      | split
      | (apply keeps_mk <;> first
          | assumption | with_reducible exact le_rfl | with_reducible exact List.suffix_refl _ | with_reducible exact fun h => h | exact fun _ => tasc_nil
          | with_reducible exact fun h => ⟨h, le_rfl⟩ | exact fun h => ⟨⟨h.1, h.2.1, h.2.2⟩, le_rfl⟩ | exact fun h => twf_tset h
          | exact fun h => twf_twrite h | exact fun h => twf_tclear h | exact fun h => tasc_tset h | exact fun h => tasc_tclear h
          | exact Nat.le_succ _ | exact le_max_left _ _ | exact List.suffix_cons _ _
          | exact fun h => twf_foldl _ (fun _ _ h => twf_tset h) _ _ h | skip)
      | (exact twf_foldl _ (fun _ _ h => twf_tset h) _ _ (by assumption))
      | (with_reducible exact le_rfl)
      | (exact Nat.le_succ _)
      | (with_reducible exact fun h => ⟨h, le_rfl⟩))

theorem keeps_endAct {z : State} (s : State) (why : Status)  (h : Keeps z s) : Keeps z (endAct s why) := by
  unfold endAct
  repeat' (first
      | (with_reducible assumption)
      | ((try lift_lets -underBinder); intro x; refine (fun hx : Keeps z x => ?_) (?_ : Keeps z x); (on_goal 1 => clear_value x); (on_goal 2 => simp only [x]))
      | ((try lift_lets -underBinder); intro x; refine (fun hx : Keeps z x.1 => ?_) (?_ : Keeps z x.1); (on_goal 1 => clear_value x); (on_goal 2 => simp only [x]))
      | ((try lift_lets -underBinder); intro x; clear_value x)
      | (with_reducible first | apply keeps_putAct | apply keeps_finishBy | apply keeps_finishForm | apply keeps_ite | apply keeps_ite_fst)
      | (intro _)
      | split)

theorem keeps_finishAct {z : State} (s : State)  (h : Keeps z s) : Keeps z (finishAct s) := by
  unfold finishAct
  dsimp only
  repeat' (first
      | (with_reducible assumption)
      | (with_reducible first | apply keeps_setSlotSt | apply keeps_rsetf | apply keeps_putMram | apply keeps_endAct)
      | (exact fun h => ⟨⟨h.1, h.2.1, h.2.2⟩, le_rfl⟩)
      | (intro _)
      | split
      | (with_reducible exact le_rfl)
      | (exact Nat.le_succ _)
      | (with_reducible exact fun h => ⟨h, le_rfl⟩))

theorem keeps_actHealth {z : State} (s : State)  (h : Keeps z s) : Keeps z (actHealth s) := by
  unfold actHealth
  repeat' (first
      | (with_reducible assumption)
      | ((try lift_lets -underBinder); intro x; refine (fun hx : Keeps z x => ?_) (?_ : Keeps z x); (on_goal 1 => clear_value x); (on_goal 2 => simp only [x]))
      | ((try lift_lets -underBinder); intro x; refine (fun hx : Keeps z x.1 => ?_) (?_ : Keeps z x.1); (on_goal 1 => clear_value x); (on_goal 2 => simp only [x]))
      | ((try lift_lets -underBinder); intro x; clear_value x)
      | (with_reducible first | apply keeps_setIfv | apply keeps_actDone | apply keeps_putAct | apply keeps_finishAct | apply keeps_ite | apply keeps_ite_fst)
      | (intro _)
      | split)

theorem keeps_bumpAct {z : State} (s : State) (h : Keeps z s) : Keeps z (bumpAct s) := by
  unfold bumpAct
  exact keeps_putMram s _ (by rw [wrote_act]; exact Nat.le_succ _) (fun l => ⟨wrote_leaf ⟨l.1, l.2.1, l.2.2⟩, by rw [wrote_mono]⟩) h

theorem keeps_signAct {z : State} (s : State) (id : Nat)  (h : Keeps z s) : Keeps z (signAct s id) := by
  unfold signAct
  repeat' (first
      | (with_reducible assumption)
      | ((try lift_lets -underBinder); intro x; refine (fun hx : Keeps z x => ?_) (?_ : Keeps z x); (on_goal 1 => clear_value x); (on_goal 2 => simp only [x]))
      | ((try lift_lets -underBinder); intro x; refine (fun hx : Keeps z x.1 => ?_) (?_ : Keeps z x.1); (on_goal 1 => clear_value x); (on_goal 2 => simp only [x]))
      | ((try lift_lets -underBinder); intro x; clear_value x)
      | (with_reducible first | apply keeps_signRecordP | apply keeps_actDone | apply keeps_putAct | apply keeps_endAct | apply keeps_ite | apply keeps_ite_fst)
      | (intro _)
      | split)

theorem keeps_beginAct {z : State} (s : State) (t : Taken)  (h : Keeps z s) : Keeps z (beginAct s t) := by
  unfold beginAct
  repeat' (first
      | (with_reducible assumption)
      | ((try lift_lets -underBinder); intro x; refine (fun hx : Keeps z x => ?_) (?_ : Keeps z x); (on_goal 1 => clear_value x); (on_goal 2 => simp only [x]))
      | ((try lift_lets -underBinder); intro x; refine (fun hx : Keeps z x.1 => ?_) (?_ : Keeps z x.1); (on_goal 1 => clear_value x); (on_goal 2 => simp only [x]))
      | ((try lift_lets -underBinder); intro x; clear_value x)
      | (with_reducible first | apply keeps_finish | apply keeps_bumpAct | apply keeps_putAct | apply keeps_endAct | apply keeps_holdSign | apply keeps_signAct | apply keeps_ite | apply keeps_ite_fst)
      | (intro _)
      | split)

theorem keeps_bootHealth {z : State} (s : State)  (h : Keeps z s) : Keeps z (bootHealth s) := by
  unfold bootHealth
  repeat' (first
      | (with_reducible assumption)
      | ((try lift_lets -underBinder); intro x; refine (fun hx : Keeps z x => ?_) (?_ : Keeps z x); (on_goal 1 => clear_value x); (on_goal 2 => simp only [x]))
      | ((try lift_lets -underBinder); intro x; refine (fun hx : Keeps z x.1 => ?_) (?_ : Keeps z x.1); (on_goal 1 => clear_value x); (on_goal 2 => simp only [x]))
      | ((try lift_lets -underBinder); intro x; clear_value x)
      | (with_reducible first | apply keeps_putIfv | apply keeps_setIfv | apply keeps_putAct | apply keeps_ite | apply keeps_ite_fst)
      | (intro _)
      | split)

theorem keeps_putUpd {z : State} (s : State) (u : Option (Nat × Nat × Nat))  (h : Keeps z s) : Keeps z (putUpd s u) := by
  unfold putUpd
  dsimp only
  repeat' (first
      | (with_reducible assumption)
      | (exact fun h => ⟨⟨h.1, h.2.1, h.2.2⟩, le_rfl⟩)
      | (intro _)
      | split
      | (apply keeps_mk <;> first
          | assumption | with_reducible exact le_rfl | with_reducible exact List.suffix_refl _ | with_reducible exact fun h => h | exact fun _ => tasc_nil
          | with_reducible exact fun h => ⟨h, le_rfl⟩ | exact fun h => ⟨⟨h.1, h.2.1, h.2.2⟩, le_rfl⟩ | exact fun h => twf_tset h
          | exact fun h => twf_twrite h | exact fun h => twf_tclear h | exact fun h => tasc_tset h | exact fun h => tasc_tclear h
          | exact Nat.le_succ _ | exact le_max_left _ _ | exact List.suffix_cons _ _
          | exact fun h => twf_foldl _ (fun _ _ h => twf_tset h) _ _ h | skip)
      | (exact twf_foldl _ (fun _ _ h => twf_tset h) _ _ (by assumption))
      | (with_reducible exact le_rfl)
      | (exact Nat.le_succ _)
      | (with_reducible exact fun h => ⟨h, le_rfl⟩))

theorem keeps_endUpdate {z : State} (s : State) (id : Nat) (st : Nat) (why : Status)  (h : Keeps z s) : Keeps z (endUpdate s id st why) := by
  unfold endUpdate
  repeat' (first
      | (with_reducible assumption)
      | ((try lift_lets -underBinder); intro x; refine (fun hx : Keeps z x => ?_) (?_ : Keeps z x); (on_goal 1 => clear_value x); (on_goal 2 => simp only [x]))
      | ((try lift_lets -underBinder); intro x; refine (fun hx : Keeps z x.1 => ?_) (?_ : Keeps z x.1); (on_goal 1 => clear_value x); (on_goal 2 => simp only [x]))
      | ((try lift_lets -underBinder); intro x; clear_value x)
      | (with_reducible first | apply keeps_putUpd | apply keeps_setSlotSt | apply keeps_finishForm)
      | (intro _)
      | split)

theorem keeps_execActivateFirmware {z : State} (id : Nat) (s : State)  (h : Keeps z s) : KeepsOut z (execActivateFirmware id s) := by
  unfold execActivateFirmware
  repeat' (first
      | (with_reducible assumption)
      | (with_reducible first | apply keepsOut_next | exact keepsOut_fault)
      | (with_reducible apply keeps_runPacket; (on_goal 1 => (intro _ _ _)))
      | (with_reducible first | apply keeps_beginAct)
      | (intro _)
      | split)

theorem keeps_signBoot {z : State} (s : State)  (h : Keeps z s) : Keeps z (signBoot s) := by
  unfold signBoot
  repeat' (first
      | (with_reducible assumption)
      | ((try lift_lets -underBinder); intro x; refine (fun hx : Keeps z x => ?_) (?_ : Keeps z x); (on_goal 1 => clear_value x); (on_goal 2 => simp only [x]))
      | ((try lift_lets -underBinder); intro x; refine (fun hx : Keeps z x.1 => ?_) (?_ : Keeps z x.1); (on_goal 1 => clear_value x); (on_goal 2 => simp only [x]))
      | ((try lift_lets -underBinder); intro x; clear_value x)
      | (with_reducible first | apply keeps_signRecordP | apply keeps_putAct | apply keeps_ite | apply keeps_ite_fst)
      | (intro _)
      | split
      | (apply keeps_mk <;> first
          | assumption | with_reducible exact le_rfl | with_reducible exact List.suffix_refl _ | with_reducible exact fun h => h | exact fun _ => tasc_nil
          | with_reducible exact fun h => ⟨h, le_rfl⟩ | exact fun h => ⟨⟨h.1, h.2.1, h.2.2⟩, le_rfl⟩ | exact fun h => twf_tset h
          | exact fun h => twf_twrite h | exact fun h => twf_tclear h | exact fun h => tasc_tset h | exact fun h => tasc_tclear h
          | exact Nat.le_succ _ | exact le_max_left _ _ | exact List.suffix_cons _ _
          | exact fun h => twf_foldl _ (fun _ _ h => twf_tset h) _ _ h | skip)
      | (exact twf_foldl _ (fun _ _ h => twf_tset h) _ _ (by assumption)))

theorem keeps_makeSign {z : State} (s : State) (a1 : PendSign)  (h : Keeps z s) : Keeps z (makeSign s a1) := by
  unfold makeSign
  repeat' (first
      | (with_reducible assumption)
      | (with_reducible first | apply keeps_signSession | apply keeps_signBoot | apply keeps_signAct)
      | (intro _)
      | split)

theorem keeps_execConfirmSign {z : State} (id : Nat) (s : State)  (h : Keeps z s) : KeepsOut z (execConfirmSign id s) := by
  unfold execConfirmSign
  repeat' (first
      | (with_reducible assumption)
      | (with_reducible first | apply keepsOut_next | exact keepsOut_fault)
      | ((try lift_lets -underBinder); intro x; refine (fun hx : Keeps z x => ?_) (?_ : Keeps z x); (on_goal 1 => clear_value x); (on_goal 2 => simp only [x]))
      | ((try lift_lets -underBinder); intro x; refine (fun hx : Keeps z x.1 => ?_) (?_ : Keeps z x.1); (on_goal 1 => clear_value x); (on_goal 2 => simp only [x]))
      | ((try lift_lets -underBinder); intro x; clear_value x)
      | (with_reducible apply keeps_runPacket; (on_goal 1 => (intro _ _ _)))
      | (with_reducible first | apply keeps_finish | apply keeps_makeSign)
      | (intro _)
      | split
      | (apply keeps_mk <;> first
          | assumption | with_reducible exact le_rfl | with_reducible exact List.suffix_refl _ | with_reducible exact fun h => h | exact fun _ => tasc_nil
          | with_reducible exact fun h => ⟨h, le_rfl⟩ | exact fun h => ⟨⟨h.1, h.2.1, h.2.2⟩, le_rfl⟩ | exact fun h => twf_tset h
          | exact fun h => twf_twrite h | exact fun h => twf_tclear h | exact fun h => tasc_tset h | exact fun h => tasc_tclear h
          | exact Nat.le_succ _ | exact le_max_left _ _ | exact List.suffix_cons _ _
          | exact fun h => twf_foldl _ (fun _ _ h => twf_tset h) _ _ h | skip)
      | (exact twf_foldl _ (fun _ _ h => twf_tset h) _ _ (by assumption)))

theorem keeps_logRevert {z : State} (s : State) (phase : Nat) (unit : Nat)  (h : Keeps z s) : Keeps z (logRevert s phase unit) := by
  unfold logRevert
  repeat' (first
      | (with_reducible assumption)
      | (with_reducible first | apply keeps_logEv | apply keeps_ite | apply keeps_ite_fst)
      | (intro _)
      | split)

theorem keeps_restoreRecord {z : State} (s : State)  (h : Keeps z s) : Keeps z (restoreRecord s) := by
  unfold restoreRecord
  dsimp only
  repeat' (first
      | (with_reducible assumption)
      | (with_reducible first | apply keeps_putMram)
      | (exact fun h => ⟨⟨h.1, h.2.1, h.2.2⟩, le_rfl⟩)
      | (intro _)
      | split
      | (with_reducible exact le_rfl)
      | (exact Nat.le_succ _)
      | (with_reducible exact fun h => ⟨h, le_rfl⟩))

theorem keeps_execFirmwareRevert {z : State} (s : State)  (h : Keeps z s) : KeepsOut z (execFirmwareRevert s) := by
  unfold execFirmwareRevert
  repeat' (first
      | (with_reducible assumption)
      | (with_reducible first | apply keepsOut_next | exact keepsOut_fault)
      | ((try lift_lets -underBinder); intro x; refine (fun hx : Keeps z x => ?_) (?_ : Keeps z x); (on_goal 1 => clear_value x); (on_goal 2 => simp only [x]))
      | ((try lift_lets -underBinder); intro x; refine (fun hx : Keeps z x.1 => ?_) (?_ : Keeps z x.1); (on_goal 1 => clear_value x); (on_goal 2 => simp only [x]))
      | ((try lift_lets -underBinder); intro x; clear_value x)
      | (with_reducible first | apply keeps_logRevert | apply keeps_restoreRecord | apply keeps_endAct | apply keeps_rput | apply keeps_ite | apply keeps_ite_fst)
      | (intro _)
      | split)

theorem keeps_execFlashSlotErase {z : State} (slot : Fin 2) (s : State)  (h : Keeps z s) : KeepsOut z (execFlashSlotErase slot s) := by
  unfold execFlashSlotErase
  repeat' (first
      | (with_reducible assumption)
      | (with_reducible first | apply keepsOut_next | exact keepsOut_fault)
      | (with_reducible first | apply keeps_putSlot | apply keeps_ite | apply keeps_ite_fst)
      | (intro _)
      | split)

theorem keeps_execHealthOk {z : State} (s : State)  (h : Keeps z s) : KeepsOut z (execHealthOk s) := by
  unfold execHealthOk
  repeat' (first
      | (with_reducible assumption)
      | (with_reducible first | apply keepsOut_next | exact keepsOut_fault)
      | ((try lift_lets -underBinder); intro x; refine (fun hx : Keeps z x => ?_) (?_ : Keeps z x); (on_goal 1 => clear_value x); (on_goal 2 => simp only [x]))
      | ((try lift_lets -underBinder); intro x; refine (fun hx : Keeps z x.1 => ?_) (?_ : Keeps z x.1); (on_goal 1 => clear_value x); (on_goal 2 => simp only [x]))
      | ((try lift_lets -underBinder); intro x; clear_value x)
      | (with_reducible first | apply keeps_actHealth | apply keeps_bootHealth | apply keeps_ite | apply keeps_ite_fst)
      | (intro _)
      | split)

theorem keeps_readBlock {z : State} (s : State) (id : Nat) (n : Nat)  (h : Keeps z s) : Keeps z (readBlock s id n) := by
  unfold readBlock
  repeat' (first
      | (with_reducible assumption)
      | (with_reducible first | apply keeps_readBuf)
      | (intro _)
      | split)

theorem keeps_execHuskBlockProgrammed {z : State} (block : Option (List Byte)) (s : State)  (h : Keeps z s) : KeepsOut z (execHuskBlockProgrammed block s) := by
  unfold execHuskBlockProgrammed
  repeat' (first
      | (with_reducible assumption)
      | (with_reducible first | apply keepsOut_next | exact keepsOut_fault)
      | ((try lift_lets -underBinder); intro x; refine (fun hx : Keeps z x => ?_) (?_ : Keeps z x); (on_goal 1 => clear_value x); (on_goal 2 => simp only [x]))
      | ((try lift_lets -underBinder); intro x; refine (fun hx : Keeps z x.1 => ?_) (?_ : Keeps z x.1); (on_goal 1 => clear_value x); (on_goal 2 => simp only [x]))
      | ((try lift_lets -underBinder); intro x; clear_value x)
      | (with_reducible first | apply keeps_readBlock | apply keeps_endUpdate | apply keeps_putSlot | apply keeps_updProgress | apply keeps_putUpd | apply keeps_setSlotSt | apply keeps_ite | apply keeps_ite_fst)
      | (intro _)
      | split)

theorem keeps_execMramWearMove {z : State} (rec : MramRec) (s : State) (h : Keeps z s) : KeepsOut z (execMramWearMove rec s) := by
  unfold execMramWearMove
  dsimp only
  apply keepsOut_next
  split
  · exact h
  · exact keeps_putMram s _ (by rw [putWear]) (fun l => ⟨⟨l.1, l.2.1, l.2.2⟩, by rw [putWear]⟩) h

theorem keeps_execProcessorSwap {z : State} (s : State)  (h : Keeps z s) : KeepsOut z (execProcessorSwap s) := by
  unfold execProcessorSwap
  repeat' (first
      | (with_reducible assumption)
      | (with_reducible first | apply keepsOut_next | exact keepsOut_fault)
      | ((try lift_lets -underBinder); intro x; refine (fun hx : Keeps z x => ?_) (?_ : Keeps z x); (on_goal 1 => clear_value x); (on_goal 2 => simp only [x]))
      | ((try lift_lets -underBinder); intro x; refine (fun hx : Keeps z x.1 => ?_) (?_ : Keeps z x.1); (on_goal 1 => clear_value x); (on_goal 2 => simp only [x]))
      | ((try lift_lets -underBinder); intro x; clear_value x)
      | (with_reducible first | apply keeps_putAct | apply keeps_ite | apply keeps_ite_fst)
      | (intro _)
      | split)

theorem keeps_execSignConfirmTimeout {z : State} (s : State)  (h : Keeps z s) : KeepsOut z (execSignConfirmTimeout s) := by
  unfold execSignConfirmTimeout
  repeat' (first
      | (with_reducible assumption)
      | (with_reducible first | apply keepsOut_next | exact keepsOut_fault)
      | ((try lift_lets -underBinder); intro x; refine (fun hx : Keeps z x => ?_) (?_ : Keeps z x); (on_goal 1 => clear_value x); (on_goal 2 => simp only [x]))
      | ((try lift_lets -underBinder); intro x; refine (fun hx : Keeps z x.1 => ?_) (?_ : Keeps z x.1); (on_goal 1 => clear_value x); (on_goal 2 => simp only [x]))
      | ((try lift_lets -underBinder); intro x; clear_value x)
      | (with_reducible first | apply keeps_endAct | apply keeps_ite | apply keeps_ite_fst)
      | (intro _)
      | split
      | (apply keeps_mk <;> first
          | assumption | with_reducible exact le_rfl | with_reducible exact List.suffix_refl _ | with_reducible exact fun h => h | exact fun _ => tasc_nil
          | with_reducible exact fun h => ⟨h, le_rfl⟩ | exact fun h => ⟨⟨h.1, h.2.1, h.2.2⟩, le_rfl⟩ | exact fun h => twf_tset h
          | exact fun h => twf_twrite h | exact fun h => twf_tclear h | exact fun h => tasc_tset h | exact fun h => tasc_tclear h
          | exact Nat.le_succ _ | exact le_max_left _ _ | exact List.suffix_cons _ _
          | exact fun h => twf_foldl _ (fun _ _ h => twf_tset h) _ _ h | skip)
      | (exact twf_foldl _ (fun _ _ h => twf_tset h) _ _ (by assumption)))

theorem keeps_execSlotVerificationEnd {z : State} (s : State)  (h : Keeps z s) : KeepsOut z (execSlotVerificationEnd s) := by
  unfold execSlotVerificationEnd
  repeat' (first
      | (with_reducible assumption)
      | (with_reducible first | apply keepsOut_next | exact keepsOut_fault)
      | (with_reducible first | apply keeps_endUpdate | apply keeps_ite | apply keeps_ite_fst)
      | (intro _)
      | split)

theorem keeps_execUpdateFirmware {z : State} (id : Nat) (s : State)  (h : Keeps z s) : KeepsOut z (execUpdateFirmware id s) := by
  unfold execUpdateFirmware
  repeat' (first
      | (with_reducible assumption)
      | (with_reducible first | apply keepsOut_next | exact keepsOut_fault)
      | (with_reducible apply keeps_runPacket; (on_goal 1 => (intro _ _ _)))
      | (with_reducible first | apply keeps_finish | apply keeps_putUpd | apply keeps_putSlot | apply keeps_ite | apply keeps_ite_fst)
      | (intro _)
      | split)

end Sys2Proof.Machine
end

