-- ==== Sys2Proof/Laws/Keeps/ResetOps.lean ====
section
/-!
SUPPORT. What the functions of Machine/ResetOps.lean keep (Safety.Keeps).
-/

set_option linter.unusedTactic false
set_option linter.unreachableTactic false

namespace Sys2Proof.Machine

theorem keepFw_mram (s : State) (ph : BootPhase) : Keeps s { s with fw := keepFw s ph } := by
  have hr : ∃ t, Keeps s t ∧ (keepFw s ph).mram = t.fw.mram := by
    unfold keepFw
    by_cases hc : 2 ≤ s.fw.act.phase ∧ s.fw.act.phase ≤ 5
    · exact ⟨restoreRecord s, keeps_restoreRecord s (Keeps.refl s), by simp [hc]⟩
    · exact ⟨s, Keeps.refl s, by simp [hc]⟩
  obtain ⟨t, ht, he⟩ := hr
  exact keeps_mk (Keeps.refl s) le_rfl le_rfl (List.suffix_refl _) le_rfl (he ▸ ht.acts) (he ▸ ht.leaf) id id id id id id id id id id
    id id id id

theorem keeps_deviceReset {z : State} (s : State) (ph : BootPhase) (cause : Nat) (p : Pwr) (h : Keeps z s) :
    Keeps z (deviceReset s ph cause p) := by
  have hk := keepFw_mram s ph
  unfold deviceReset
  apply keeps_rsetf
  refine keeps_mk h le_rfl le_rfl (List.suffix_refl _) le_rfl hk.acts hk.leaf ?_ ?_ ?_ ?_ ?_ ?_ ?_ ?_ ?_ ?_ ?_ ?_ ?_ ?_ <;>
    first | exact fun _ => tasc_nil | exact fun _ => rfl

theorem keeps_warmReset {z : State} (s : State) (cause : Nat)  (h : Keeps z s) : Keeps z (warmReset s cause) := by
  unfold warmReset
  repeat' (first
      | (with_reducible assumption)
      | (with_reducible first | apply keeps_rsetf | apply keeps_deviceReset)
      | (intro _)
      | split)

theorem keeps_dropTarget {z : State} (s : State)  (h : Keeps z s) : Keeps z (dropTarget s) := by
  unfold dropTarget
  repeat' (first
      | (with_reducible assumption)
      | ((try lift_lets -underBinder); intro x; refine (fun hx : Keeps z x => ?_) (?_ : Keeps z x); (on_goal 1 => clear_value x); (on_goal 2 => simp only [x]))
      | ((try lift_lets -underBinder); intro x; refine (fun hx : Keeps z x.1 => ?_) (?_ : Keeps z x.1); (on_goal 1 => clear_value x); (on_goal 2 => simp only [x]))
      | ((try lift_lets -underBinder); intro x; clear_value x)
      | (with_reducible first | apply keeps_ite | apply keeps_ite_fst)
      | (intro _)
      | split
      | (apply keeps_mk <;> first
          | assumption | with_reducible exact le_rfl | with_reducible exact List.suffix_refl _ | with_reducible exact fun h => h | exact fun _ => tasc_nil
          | with_reducible exact fun h => ⟨h, le_rfl⟩ | exact fun h => ⟨⟨h.1, h.2.1, h.2.2⟩, le_rfl⟩ | exact fun h => twf_tset h
          | exact fun h => twf_twrite h | exact fun h => twf_tclear h | exact fun h => tasc_tset h | exact fun h => tasc_tclear h
          | exact Nat.le_succ _ | exact le_max_left _ _ | exact List.suffix_cons _ _
          | exact fun h => twf_foldl _ (fun _ _ h => twf_tset h) _ _ h | skip)
      | (exact twf_foldl _ (fun _ _ h => twf_tset h) _ _ (by assumption)))

theorem keeps_coldReset {z : State} (s : State) (cause : Nat) (hold : Bool)  (h : Keeps z s) : Keeps z (coldReset s cause hold) := by
  unfold coldReset
  repeat' (first
      | (with_reducible assumption)
      | ((try lift_lets -underBinder); intro x; refine (fun hx : Keeps z x => ?_) (?_ : Keeps z x); (on_goal 1 => clear_value x); (on_goal 2 => simp only [x]))
      | ((try lift_lets -underBinder); intro x; refine (fun hx : Keeps z x.1 => ?_) (?_ : Keeps z x.1); (on_goal 1 => clear_value x); (on_goal 2 => simp only [x]))
      | ((try lift_lets -underBinder); intro x; clear_value x)
      | (with_reducible first | apply keeps_deviceReset)
      | (intro _)
      | split)

theorem keeps_archiveFatal {z : State} (s : State) (cause : Nat) (unit : Nat) (inst : Nat)  (h : Keeps z s) : Keeps z (archiveFatal s cause unit inst) := by
  unfold archiveFatal
  repeat' (first
      | (with_reducible assumption)
      | ((try lift_lets -underBinder); intro x; refine (fun hx : Keeps z x => ?_) (?_ : Keeps z x); (on_goal 1 => clear_value x); (on_goal 2 => simp only [x]))
      | ((try lift_lets -underBinder); intro x; refine (fun hx : Keeps z x.1 => ?_) (?_ : Keeps z x.1); (on_goal 1 => clear_value x); (on_goal 2 => simp only [x]))
      | ((try lift_lets -underBinder); intro x; clear_value x)
      | (with_reducible first | apply keeps_archiveRec)
      | (with_reducible refine keeps_foldl _ _ _ ?_ ?_; (on_goal 1 => (intro _ _ _)))
      | (with_reducible refine keeps_foldl_fst _ _ _ ?_ ?_; (on_goal 1 => (intro _ _ _)))
      | (intro _)
      | split)

theorem keeps_setPhase {z : State} (s : State) (p : BootPhase)  (h : Keeps z s) : Keeps z (setPhase s p) := by
  unfold setPhase
  dsimp only
  repeat' (first
      | (with_reducible assumption)
      | (exact fun h => ⟨⟨h.1, h.2.1, h.2.2⟩, le_rfl⟩)
      | (intro _)
      | split
      | (apply keeps_mk <;> first
          | assumption | with_reducible exact le_rfl | with_reducible exact List.suffix_refl _ | with_reducible exact fun h => h | exact fun _ => tasc_nil
          | with_reducible exact fun h => ⟨h, le_rfl⟩ | exact fun h => ⟨⟨h.1, h.2.1, h.2.2⟩, le_rfl⟩ | exact fun h => twf_tset h
          | exact fun h => twf_twrite h | exact fun h => twf_tclear h | exact fun h => tasc_tset h | exact fun h => tasc_tclear h
          | exact Nat.le_succ _ | exact le_max_left _ _ | exact List.suffix_cons _ _
          | exact fun h => twf_foldl _ (fun _ _ h => twf_tset h) _ _ h | skip)
      | (exact twf_foldl _ (fun _ _ h => twf_tset h) _ _ (by assumption))
      | (with_reducible exact le_rfl)
      | (exact Nat.le_succ _)
      | (with_reducible exact fun h => ⟨h, le_rfl⟩))

theorem keeps_putTrained {z : State} (s : State) (t : Tab Bool)  (h : Keeps z s) : Keeps z (putTrained s t) := by
  unfold putTrained
  dsimp only
  repeat' (first
      | (with_reducible assumption)
      | (exact fun h => ⟨⟨h.1, h.2.1, h.2.2⟩, le_rfl⟩)
      | (intro _)
      | split
      | (apply keeps_mk <;> first
          | assumption | with_reducible exact le_rfl | with_reducible exact List.suffix_refl _ | with_reducible exact fun h => h | exact fun _ => tasc_nil
          | with_reducible exact fun h => ⟨h, le_rfl⟩ | exact fun h => ⟨⟨h.1, h.2.1, h.2.2⟩, le_rfl⟩ | exact fun h => twf_tset h
          | exact fun h => twf_twrite h | exact fun h => twf_tclear h | exact fun h => tasc_tset h | exact fun h => tasc_tclear h
          | exact Nat.le_succ _ | exact le_max_left _ _ | exact List.suffix_cons _ _
          | exact fun h => twf_foldl _ (fun _ _ h => twf_tset h) _ _ h | skip)
      | (exact twf_foldl _ (fun _ _ h => twf_tset h) _ _ (by assumption))
      | (with_reducible exact le_rfl)
      | (exact Nat.le_succ _)
      | (with_reducible exact fun h => ⟨h, le_rfl⟩))

theorem keeps_beginStage1 {z : State} (s : State) (h : Keeps z s) : Keeps z (beginStage1 s) := by
  unfold beginStage1
  dsimp only
  apply keeps_setPhase
  apply keeps_putTrained
  apply keeps_putAct
  refine keeps_foldl _ _ _ (fun t x ht => keeps_rsetf _ _ _ _ _ ht) ?_
  apply keeps_rsetf
  apply keeps_rsetf
  refine keeps_putMram { s with bootCount := s.bootCount + 1 } _ (by rw [wrote_act])
    (fun l => ⟨wrote_leaf ⟨l.1, l.2.1, l.2.2⟩, by rw [wrote_mono]⟩) ?_
  exact keeps_mk h le_rfl le_rfl (List.suffix_refl _) (Nat.le_succ _) le_rfl (fun l => ⟨l, le_rfl⟩) id id id id id id id id id id
    id id id id

theorem keeps_bootActivation {z : State} (s : State)  (h : Keeps z s) : Keeps z (bootActivation s) := by
  unfold bootActivation
  repeat' (first
      | (with_reducible assumption)
      | ((try lift_lets -underBinder); intro x; refine (fun hx : Keeps z x => ?_) (?_ : Keeps z x); (on_goal 1 => clear_value x); (on_goal 2 => simp only [x]))
      | ((try lift_lets -underBinder); intro x; refine (fun hx : Keeps z x.1 => ?_) (?_ : Keeps z x.1); (on_goal 1 => clear_value x); (on_goal 2 => simp only [x]))
      | ((try lift_lets -underBinder); intro x; clear_value x)
      | (with_reducible first | apply keeps_bumpAct | apply keeps_putAct | apply keeps_holdSign | apply keeps_signBoot | apply keeps_ite | apply keeps_ite_fst)
      | (intro _)
      | split
      | (apply keeps_mk <;> first
          | assumption | with_reducible exact le_rfl | with_reducible exact List.suffix_refl _ | with_reducible exact fun h => h | exact fun _ => tasc_nil
          | with_reducible exact fun h => ⟨h, le_rfl⟩ | exact fun h => ⟨⟨h.1, h.2.1, h.2.2⟩, le_rfl⟩ | exact fun h => twf_tset h
          | exact fun h => twf_twrite h | exact fun h => twf_tclear h | exact fun h => tasc_tset h | exact fun h => tasc_tclear h
          | exact Nat.le_succ _ | exact le_max_left _ _ | exact List.suffix_cons _ _
          | exact fun h => twf_foldl _ (fun _ _ h => twf_tset h) _ _ h | skip)
      | (exact twf_foldl _ (fun _ _ h => twf_tset h) _ _ (by assumption)))

theorem keeps_loadPartition {z : State} (s : State)  (h : Keeps z s) : Keeps z (loadPartition s) := by
  unfold loadPartition
  repeat' (first
      | (with_reducible assumption)
      | ((try lift_lets -underBinder); intro x; refine (fun hx : Keeps z x => ?_) (?_ : Keeps z x); (on_goal 1 => clear_value x); (on_goal 2 => simp only [x]))
      | ((try lift_lets -underBinder); intro x; refine (fun hx : Keeps z x.1 => ?_) (?_ : Keeps z x.1); (on_goal 1 => clear_value x); (on_goal 2 => simp only [x]))
      | ((try lift_lets -underBinder); intro x; clear_value x)
      | (with_reducible first | apply keeps_rput | apply keeps_ite | apply keeps_ite_fst)
      | (with_reducible refine keeps_foldl _ _ _ ?_ ?_; (on_goal 1 => (intro _ _ _)))
      | (with_reducible refine keeps_foldl_fst _ _ _ ?_ ?_; (on_goal 1 => (intro _ _ _)))
      | (intro _)
      | split)

theorem keeps_loadRetire {z : State} (s : State) (n : N20)  (h : Keeps z s) : Keeps z (loadRetire s n) := by
  unfold loadRetire
  repeat' (first
      | (with_reducible assumption)
      | ((try lift_lets -underBinder); intro x; refine (fun hx : Keeps z x => ?_) (?_ : Keeps z x); (on_goal 1 => clear_value x); (on_goal 2 => simp only [x]))
      | ((try lift_lets -underBinder); intro x; refine (fun hx : Keeps z x.1 => ?_) (?_ : Keeps z x.1); (on_goal 1 => clear_value x); (on_goal 2 => simp only [x]))
      | ((try lift_lets -underBinder); intro x; clear_value x)
      | (with_reducible first | apply keeps_rsetf | apply keeps_rput | apply keeps_ite | apply keeps_ite_fst)
      | (with_reducible refine keeps_foldl _ _ _ ?_ ?_; (on_goal 1 => (intro _ _ _)))
      | (with_reducible refine keeps_foldl_fst _ _ _ ?_ ?_; (on_goal 1 => (intro _ _ _)))
      | (intro _)
      | split)

theorem keeps_stopBoot {z : State} (s : State) (st : Status)  (h : Keeps z s) : Keeps z (stopBoot s st) := by
  unfold stopBoot
  repeat' (first
      | (with_reducible assumption)
      | (with_reducible first | apply keeps_setPhase | apply keeps_rsetf)
      | (intro _)
      | split)

theorem keeps_lockProt {z : State} (s : State)  (h : Keeps z s) : Keeps z (lockProt s) := by
  unfold lockProt
  repeat' (first
      | (with_reducible assumption)
      | ((try lift_lets -underBinder); intro x; refine (fun hx : Keeps z x => ?_) (?_ : Keeps z x); (on_goal 1 => clear_value x); (on_goal 2 => simp only [x]))
      | ((try lift_lets -underBinder); intro x; refine (fun hx : Keeps z x.1 => ?_) (?_ : Keeps z x.1); (on_goal 1 => clear_value x); (on_goal 2 => simp only [x]))
      | ((try lift_lets -underBinder); intro x; clear_value x)
      | (with_reducible first | apply keeps_setPhase | apply keeps_rsetf | apply keeps_logEv | apply keeps_stopBoot | apply keeps_ite | apply keeps_ite_fst)
      | (intro _)
      | split)

theorem keeps_dropSlots {z : State} (had : List N20) (s : State)  (h : Keeps z s) : Keeps z (dropSlots had s) := by
  unfold dropSlots
  repeat' (first
      | (with_reducible assumption)
      | (with_reducible first | apply keeps_rsetf | apply keeps_ite | apply keeps_ite_fst)
      | (with_reducible refine keeps_foldl _ _ _ ?_ ?_; (on_goal 1 => (intro _ _ _)))
      | (with_reducible refine keeps_foldl_fst _ _ _ ?_ ?_; (on_goal 1 => (intro _ _ _)))
      | (intro _)
      | split)

theorem keeps_dropSect {z : State} (s : State) (n : N20)  (h : Keeps z s) : Keeps z (dropSect s n) := by
  unfold dropSect
  repeat' (first
      | (with_reducible assumption)
      | (with_reducible first | apply keeps_logEv | apply keeps_rsetf | apply keeps_ite | apply keeps_ite_fst)
      | (intro _)
      | split)

theorem keeps_bootLock {z : State} (s : State)  (h : Keeps z s) : Keeps z (bootLock s) := by
  unfold bootLock
  repeat' (first
      | (with_reducible assumption)
      | ((try lift_lets -underBinder); intro x; refine (fun hx : Keeps z x => ?_) (?_ : Keeps z x); (on_goal 1 => clear_value x); (on_goal 2 => simp only [x]))
      | ((try lift_lets -underBinder); intro x; refine (fun hx : Keeps z x.1 => ?_) (?_ : Keeps z x.1); (on_goal 1 => clear_value x); (on_goal 2 => simp only [x]))
      | ((try lift_lets -underBinder); intro x; clear_value x)
      | (with_reducible first | apply keeps_loadPartition | apply keeps_loadRetire | apply keeps_lockProt | apply keeps_dropSlots | apply keeps_dropSect)
      | (with_reducible refine keeps_foldl _ _ _ ?_ ?_; (on_goal 1 => (intro _ _ _)))
      | (with_reducible refine keeps_foldl_fst _ _ _ ?_ ?_; (on_goal 1 => (intro _ _ _)))
      | (intro _)
      | split)

theorem keeps_copyArchive {z : State} (s : State)  (h : Keeps z s) : Keeps z (copyArchive s) := by
  unfold copyArchive
  dsimp only
  repeat' (first
      | (with_reducible assumption)
      | (with_reducible first | apply keeps_appendRec | apply keeps_putMram)
      | (exact fun h => ⟨⟨h.1, h.2.1, h.2.2⟩, le_rfl⟩)
      | (with_reducible refine keeps_foldl _ _ _ ?_ ?_; (on_goal 1 => (intro _ _ _)))
      | (with_reducible refine keeps_foldl_fst _ _ _ ?_ ?_; (on_goal 1 => (intro _ _ _)))
      | (intro _)
      | split
      | (with_reducible exact le_rfl)
      | (exact Nat.le_succ _)
      | (with_reducible exact fun h => ⟨h, le_rfl⟩))

theorem keeps_deviceFatal {z : State} (s : State) (unit : Nat) (inst : Nat)  (h : Keeps z s) : Keeps z (deviceFatal s unit inst) := by
  unfold deviceFatal
  repeat' (first
      | (with_reducible assumption)
      | (with_reducible first | apply keeps_warmReset | apply keeps_archiveFatal | apply keeps_ite | apply keeps_ite_fst)
      | (intro _)
      | split)

theorem keeps_drawSlots {z : State} (s : State)  (h : Keeps z s) : Keeps z (drawSlots s) := by
  unfold drawSlots
  repeat' (first
      | (with_reducible assumption)
      | ((try lift_lets -underBinder); intro x; refine (fun hx : Keeps z x => ?_) (?_ : Keeps z x); (on_goal 1 => clear_value x); (on_goal 2 => simp only [x]))
      | ((try lift_lets -underBinder); intro x; refine (fun hx : Keeps z x.1 => ?_) (?_ : Keeps z x.1); (on_goal 1 => clear_value x); (on_goal 2 => simp only [x]))
      | ((try lift_lets -underBinder); intro x; clear_value x)
      | (with_reducible first | apply keeps_drawKey)
      | (with_reducible refine keeps_foldl _ _ _ ?_ ?_; (on_goal 1 => (intro _ _ _)))
      | (with_reducible refine keeps_foldl_fst _ _ _ ?_ ?_; (on_goal 1 => (intro _ _ _)))
      | (intro _)
      | split
      | (apply keeps_mk <;> first
          | assumption | with_reducible exact le_rfl | with_reducible exact List.suffix_refl _ | with_reducible exact fun h => h | exact fun _ => tasc_nil
          | with_reducible exact fun h => ⟨h, le_rfl⟩ | exact fun h => ⟨⟨h.1, h.2.1, h.2.2⟩, le_rfl⟩ | exact fun h => twf_tset h
          | exact fun h => twf_twrite h | exact fun h => twf_tclear h | exact fun h => tasc_tset h | exact fun h => tasc_tclear h
          | exact Nat.le_succ _ | exact le_max_left _ _ | exact List.suffix_cons _ _
          | exact fun h => twf_foldl _ (fun _ _ h => twf_tset h) _ _ h | skip)
      | (exact twf_foldl _ (fun _ _ h => twf_tset h) _ _ (by assumption)))

theorem keeps_execAuxInputLoss {z : State} (s : State)  (h : Keeps z s) : KeepsOut z (execAuxInputLoss s) := by
  unfold execAuxInputLoss
  repeat' (first
      | (with_reducible assumption)
      | (with_reducible first | apply keepsOut_next | exact keepsOut_fault)
      | ((try lift_lets -underBinder); intro x; refine (fun hx : Keeps z x => ?_) (?_ : Keeps z x); (on_goal 1 => clear_value x); (on_goal 2 => simp only [x]))
      | ((try lift_lets -underBinder); intro x; refine (fun hx : Keeps z x.1 => ?_) (?_ : Keeps z x.1); (on_goal 1 => clear_value x); (on_goal 2 => simp only [x]))
      | ((try lift_lets -underBinder); intro x; clear_value x)
      | (with_reducible first | apply keeps_dropTarget | apply keeps_logEv | apply keeps_ite | apply keeps_ite_fst)
      | (intro _)
      | split
      | (apply keeps_mk <;> first
          | assumption | with_reducible exact le_rfl | with_reducible exact List.suffix_refl _ | with_reducible exact fun h => h | exact fun _ => tasc_nil
          | with_reducible exact fun h => ⟨h, le_rfl⟩ | exact fun h => ⟨⟨h.1, h.2.1, h.2.2⟩, le_rfl⟩ | exact fun h => twf_tset h
          | exact fun h => twf_twrite h | exact fun h => twf_tclear h | exact fun h => tasc_tset h | exact fun h => tasc_tclear h
          | exact Nat.le_succ _ | exact le_max_left _ _ | exact List.suffix_cons _ _
          | exact fun h => twf_foldl _ (fun _ _ h => twf_tset h) _ _ h | skip)
      | (exact twf_foldl _ (fun _ _ h => twf_tset h) _ _ (by assumption)))

theorem keeps_execBootActivationTimeout {z : State} (s : State)  (h : Keeps z s) : KeepsOut z (execBootActivationTimeout s) := by
  unfold execBootActivationTimeout
  dsimp only
  repeat' (first
      | (with_reducible assumption)
      | (with_reducible first | apply keepsOut_next | exact keepsOut_fault)
      | (with_reducible first | apply keeps_setSlotSt | apply keeps_restoreRecord | apply keeps_putMram | apply keeps_warmReset | apply keeps_logEv | apply keeps_putAct | apply keeps_setPhase | apply keeps_rsetf | apply keeps_ite | apply keeps_ite_fst)
      | (exact fun h => ⟨⟨h.1, h.2.1, h.2.2⟩, le_rfl⟩)
      | (intro _)
      | split
      | (with_reducible exact le_rfl)
      | (exact Nat.le_succ _)
      | (with_reducible exact fun h => ⟨h, le_rfl⟩))

theorem keeps_execBootPartitionLock {z : State} (s : State)  (h : Keeps z s) : KeepsOut z (execBootPartitionLock s) := by
  unfold execBootPartitionLock
  repeat' (first
      | (with_reducible assumption)
      | (with_reducible first | apply keepsOut_next | exact keepsOut_fault)
      | (with_reducible first | apply keeps_bootLock | apply keeps_ite | apply keeps_ite_fst)
      | (intro _)
      | split)

theorem keeps_execBootReady {z : State} (s : State)  (h : Keeps z s) : KeepsOut z (execBootReady s) := by
  unfold execBootReady
  repeat' (first
      | (with_reducible assumption)
      | (with_reducible first | apply keepsOut_next | exact keepsOut_fault)
      | ((try lift_lets -underBinder); intro x; refine (fun hx : Keeps z x => ?_) (?_ : Keeps z x); (on_goal 1 => clear_value x); (on_goal 2 => simp only [x]))
      | ((try lift_lets -underBinder); intro x; refine (fun hx : Keeps z x.1 => ?_) (?_ : Keeps z x.1); (on_goal 1 => clear_value x); (on_goal 2 => simp only [x]))
      | ((try lift_lets -underBinder); intro x; clear_value x)
      | (with_reducible first | apply keeps_bootActivation | apply keeps_copyArchive | apply keeps_confirmState | apply keeps_drawSlots | apply keeps_setPhase | apply keeps_rsetf | apply keeps_ite | apply keeps_ite_fst)
      | (intro _)
      | split)

theorem keeps_leaveReset {z : State} (s : State)  (h : Keeps z s) : Keeps z (leaveReset s) := by
  unfold leaveReset
  dsimp only
  repeat' (first
      | (with_reducible assumption)
      | (with_reducible first | apply keeps_rsetf)
      | (exact fun h => ⟨⟨h.1, h.2.1, h.2.2⟩, le_rfl⟩)
      | (intro _)
      | split
      | (apply keeps_mk <;> first
          | assumption | with_reducible exact le_rfl | with_reducible exact List.suffix_refl _ | with_reducible exact fun h => h | exact fun _ => tasc_nil
          | with_reducible exact fun h => ⟨h, le_rfl⟩ | exact fun h => ⟨⟨h.1, h.2.1, h.2.2⟩, le_rfl⟩ | exact fun h => twf_tset h
          | exact fun h => twf_twrite h | exact fun h => twf_tclear h | exact fun h => tasc_tset h | exact fun h => tasc_tclear h
          | exact Nat.le_succ _ | exact le_max_left _ _ | exact List.suffix_cons _ _
          | exact fun h => twf_foldl _ (fun _ _ h => twf_tset h) _ _ h | skip)
      | (exact twf_foldl _ (fun _ _ h => twf_tset h) _ _ (by assumption))
      | (with_reducible exact le_rfl)
      | (exact Nat.le_succ _)
      | (with_reducible exact fun h => ⟨h, le_rfl⟩))

theorem keeps_fallBack {z : State} (s : State)  (h : Keeps z s) : Keeps z (fallBack s) := by
  unfold fallBack
  dsimp only
  repeat' (first
      | (with_reducible assumption)
      | (with_reducible first | apply keeps_putAct | apply keeps_setSlotSt | apply keeps_logEv | apply keeps_putMram)
      | (exact fun h => ⟨⟨h.1, h.2.1, h.2.2⟩, le_rfl⟩)
      | (intro _)
      | split
      | (with_reducible exact le_rfl)
      | (exact Nat.le_succ _)
      | (with_reducible exact fun h => ⟨h, le_rfl⟩))

theorem keeps_execBootRom {z : State} (s : State)  (h : Keeps z s) : KeepsOut z (execBootRom s) := by
  unfold execBootRom
  repeat' (first
      | (with_reducible assumption)
      | (with_reducible first | apply keepsOut_next | exact keepsOut_fault)
      | ((try lift_lets -underBinder); intro x; refine (fun hx : Keeps z x => ?_) (?_ : Keeps z x); (on_goal 1 => clear_value x); (on_goal 2 => simp only [x]))
      | ((try lift_lets -underBinder); intro x; refine (fun hx : Keeps z x.1 => ?_) (?_ : Keeps z x.1); (on_goal 1 => clear_value x); (on_goal 2 => simp only [x]))
      | ((try lift_lets -underBinder); intro x; clear_value x)
      | (with_reducible first | apply keeps_leaveReset | apply keeps_setPhase | apply keeps_fallBack | apply keeps_stopBoot | apply keeps_ite | apply keeps_ite_fst)
      | (intro _)
      | split)

theorem keeps_unlock {z : State} (s : State) (src : Fin 4)  (h : Keeps z s) : Keeps z (unlock s src) := by
  unfold unlock
  repeat' (first
      | (with_reducible assumption)
      | (with_reducible first | apply keeps_rsetf | apply keeps_ite | apply keeps_ite_fst)
      | (intro _)
      | split)

theorem keeps_execDeviceFatalFault {z : State} (cause : FatalCause) (s : State)  (h : Keeps z s) : KeepsOut z (execDeviceFatalFault cause s) := by
  unfold execDeviceFatalFault
  repeat' (first
      | (with_reducible assumption)
      | (with_reducible first | apply keepsOut_next | exact keepsOut_fault)
      | (with_reducible first | apply keeps_deviceFatal | apply keeps_unlock)
      | (intro _)
      | split)

theorem keeps_execHbmStackTrainingDone {z : State} (n : N20) (ok : Bool) (temp : Byte) (s : State)  (h : Keeps z s) : KeepsOut z (execHbmStackTrainingDone n ok temp s) := by
  unfold execHbmStackTrainingDone
  repeat' (first
      | (with_reducible assumption)
      | (with_reducible first | apply keepsOut_next | exact keepsOut_fault)
      | ((try lift_lets -underBinder); intro x; refine (fun hx : Keeps z x => ?_) (?_ : Keeps z x); (on_goal 1 => clear_value x); (on_goal 2 => simp only [x]))
      | ((try lift_lets -underBinder); intro x; refine (fun hx : Keeps z x.1 => ?_) (?_ : Keeps z x.1); (on_goal 1 => clear_value x); (on_goal 2 => simp only [x]))
      | ((try lift_lets -underBinder); intro x; clear_value x)
      | (with_reducible first | apply keeps_rsetf | apply keeps_putTrained | apply keeps_setPhase | apply keeps_ite | apply keeps_ite_fst)
      | (intro _)
      | split)

theorem keeps_execPcieLinkUp {z : State} (width : Fin 17) (speed : Fin 7) (s : State)  (h : Keeps z s) : KeepsOut z (execPcieLinkUp width speed s) := by
  unfold execPcieLinkUp
  repeat' (first
      | (with_reducible assumption)
      | (with_reducible first | apply keepsOut_next | exact keepsOut_fault)
      | ((try lift_lets -underBinder); intro x; refine (fun hx : Keeps z x => ?_) (?_ : Keeps z x); (on_goal 1 => clear_value x); (on_goal 2 => simp only [x]))
      | ((try lift_lets -underBinder); intro x; refine (fun hx : Keeps z x.1 => ?_) (?_ : Keeps z x.1); (on_goal 1 => clear_value x); (on_goal 2 => simp only [x]))
      | ((try lift_lets -underBinder); intro x; clear_value x)
      | (with_reducible first | apply keeps_rsetf | apply keeps_logGeneral | apply keeps_ite | apply keeps_ite_fst)
      | (intro _)
      | split)

theorem keeps_resetFunc {z : State} (s : State) (f : FuncId)  (h : Keeps z s) : Keeps z (resetFunc s f) := by
  unfold resetFunc
  repeat' (first
      | (with_reducible assumption)
      | ((try lift_lets -underBinder); intro x; refine (fun hx : Keeps z x => ?_) (?_ : Keeps z x); (on_goal 1 => clear_value x); (on_goal 2 => simp only [x]))
      | ((try lift_lets -underBinder); intro x; refine (fun hx : Keeps z x.1 => ?_) (?_ : Keeps z x.1); (on_goal 1 => clear_value x); (on_goal 2 => simp only [x]))
      | ((try lift_lets -underBinder); intro x; clear_value x)
      | (with_reducible first | apply keeps_ite | apply keeps_ite_fst)
      | (intro _)
      | split
      | (apply keeps_mk <;> first
          | assumption | with_reducible exact le_rfl | with_reducible exact List.suffix_refl _ | with_reducible exact fun h => h | exact fun _ => tasc_nil
          | with_reducible exact fun h => ⟨h, le_rfl⟩ | exact fun h => ⟨⟨h.1, h.2.1, h.2.2⟩, le_rfl⟩ | exact fun h => twf_tset h
          | exact fun h => twf_twrite h | exact fun h => twf_tclear h | exact fun h => tasc_tset h | exact fun h => tasc_tclear h
          | exact Nat.le_succ _ | exact le_max_left _ _ | exact List.suffix_cons _ _
          | exact fun h => twf_foldl _ (fun _ _ h => twf_tset h) _ _ h | skip)
      | (exact twf_foldl _ (fun _ _ h => twf_tset h) _ _ (by assumption)))

theorem keeps_execPerstAssert {z : State} (s : State)  (h : Keeps z s) : KeepsOut z (execPerstAssert s) := by
  unfold execPerstAssert
  repeat' (first
      | (with_reducible assumption)
      | (with_reducible first | apply keepsOut_next | exact keepsOut_fault)
      | (with_reducible first | apply keeps_rsetf | apply keeps_resetFunc)
      | (with_reducible refine keeps_foldl _ _ _ ?_ ?_; (on_goal 1 => (intro _ _ _)))
      | (with_reducible refine keeps_foldl_fst _ _ _ ?_ ?_; (on_goal 1 => (intro _ _ _)))
      | (intro _)
      | split)

theorem keeps_execPfFlr {z : State} (s : State)  (h : Keeps z s) : KeepsOut z (execPfFlr s) := by
  unfold execPfFlr
  repeat' (first
      | (with_reducible assumption)
      | (with_reducible first | apply keepsOut_next | exact keepsOut_fault)
      | (with_reducible first | apply keeps_resetFunc)
      | (with_reducible refine keeps_foldl _ _ _ ?_ ?_; (on_goal 1 => (intro _ _ _)))
      | (with_reducible refine keeps_foldl_fst _ _ _ ?_ ?_; (on_goal 1 => (intro _ _ _)))
      | (intro _)
      | split)

theorem keeps_execPowerOnResetRelease {z : State} (s : State)  (h : Keeps z s) : KeepsOut z (execPowerOnResetRelease s) := by
  unfold execPowerOnResetRelease
  dsimp only
  repeat' (first
      | (with_reducible assumption)
      | (with_reducible first | apply keepsOut_next | exact keepsOut_fault)
      | (with_reducible first | apply keeps_rsetf | apply keeps_ite | apply keeps_ite_fst)
      | (exact fun h => ⟨⟨h.1, h.2.1, h.2.2⟩, le_rfl⟩)
      | (intro _)
      | split
      | (apply keeps_mk <;> first
          | assumption | with_reducible exact le_rfl | with_reducible exact List.suffix_refl _ | with_reducible exact fun h => h | exact fun _ => tasc_nil
          | with_reducible exact fun h => ⟨h, le_rfl⟩ | exact fun h => ⟨⟨h.1, h.2.1, h.2.2⟩, le_rfl⟩ | exact fun h => twf_tset h
          | exact fun h => twf_twrite h | exact fun h => twf_tclear h | exact fun h => tasc_tset h | exact fun h => tasc_tclear h
          | exact Nat.le_succ _ | exact le_max_left _ _ | exact List.suffix_cons _ _
          | exact fun h => twf_foldl _ (fun _ _ h => twf_tset h) _ _ h | skip)
      | (exact twf_foldl _ (fun _ _ h => twf_tset h) _ _ (by assumption))
      | (with_reducible exact le_rfl)
      | (exact Nat.le_succ _)
      | (with_reducible exact fun h => ⟨h, le_rfl⟩))

theorem keeps_execProtLockWrite {z : State} (v : W64) (s : State)  (h : Keeps z s) : KeepsOut z (execProtLockWrite v s) := by
  unfold execProtLockWrite
  repeat' (first
      | (with_reducible assumption)
      | (with_reducible first | apply keepsOut_next | exact keepsOut_fault)
      | (with_reducible first | apply keeps_logAccess | apply keeps_bootLock | apply keeps_ite | apply keeps_ite_fst)
      | (intro _)
      | split)

theorem keeps_execResetPinAssert {z : State} (s : State)  (h : Keeps z s) : KeepsOut z (execResetPinAssert s) := by
  unfold execResetPinAssert
  dsimp only
  repeat' (first
      | (with_reducible assumption)
      | (with_reducible first | apply keepsOut_next | exact keepsOut_fault)
      | (with_reducible first | apply keeps_warmReset | apply keeps_ite | apply keeps_ite_fst)
      | (exact fun h => ⟨⟨h.1, h.2.1, h.2.2⟩, le_rfl⟩)
      | (intro _)
      | split
      | (apply keeps_mk <;> first
          | assumption | with_reducible exact le_rfl | with_reducible exact List.suffix_refl _ | with_reducible exact fun h => h | exact fun _ => tasc_nil
          | with_reducible exact fun h => ⟨h, le_rfl⟩ | exact fun h => ⟨⟨h.1, h.2.1, h.2.2⟩, le_rfl⟩ | exact fun h => twf_tset h
          | exact fun h => twf_twrite h | exact fun h => twf_tclear h | exact fun h => tasc_tset h | exact fun h => tasc_tclear h
          | exact Nat.le_succ _ | exact le_max_left _ _ | exact List.suffix_cons _ _
          | exact fun h => twf_foldl _ (fun _ _ h => twf_tset h) _ _ h | skip)
      | (exact twf_foldl _ (fun _ _ h => twf_tset h) _ _ (by assumption))
      | (with_reducible exact le_rfl)
      | (exact Nat.le_succ _)
      | (with_reducible exact fun h => ⟨h, le_rfl⟩))

theorem keeps_execStage1Start {z : State} (s : State)  (h : Keeps z s) : KeepsOut z (execStage1Start s) := by
  unfold execStage1Start
  repeat' (first
      | (with_reducible assumption)
      | (with_reducible first | apply keepsOut_next | exact keepsOut_fault)
      | ((try lift_lets -underBinder); intro x; refine (fun hx : Keeps z x => ?_) (?_ : Keeps z x); (on_goal 1 => clear_value x); (on_goal 2 => simp only [x]))
      | ((try lift_lets -underBinder); intro x; refine (fun hx : Keeps z x.1 => ?_) (?_ : Keeps z x.1); (on_goal 1 => clear_value x); (on_goal 2 => simp only [x]))
      | ((try lift_lets -underBinder); intro x; clear_value x)
      | (with_reducible first | apply keeps_rsetf | apply keeps_beginStage1 | apply keeps_fallBack | apply keeps_stopBoot | apply keeps_ite | apply keeps_ite_fst)
      | (intro _)
      | split)

theorem keeps_execVfFlr {z : State} (n : N20) (s : State)  (h : Keeps z s) : KeepsOut z (execVfFlr n s) := by
  unfold execVfFlr
  repeat' (first
      | (with_reducible assumption)
      | (with_reducible first | apply keepsOut_next | exact keepsOut_fault)
      | (with_reducible first | apply keeps_resetFunc | apply keeps_ite | apply keeps_ite_fst)
      | (intro _)
      | split)

theorem keeps_execWarmReset {z : State} (f : FuncId) (v : W64) (s : State)  (h : Keeps z s) : KeepsOut z (execWarmReset f v s) := by
  unfold execWarmReset
  repeat' (first
      | (with_reducible assumption)
      | (with_reducible first | apply keepsOut_next | exact keepsOut_fault)
      | (with_reducible apply keeps_hostWrite; (on_goal 1 => (intro _ _)))
      | (with_reducible first | apply keeps_warmReset | apply keeps_ite | apply keeps_ite_fst)
      | (intro _)
      | split)

theorem keeps_execWatchdogExpiry {z : State} (u : WatchUnit) (s : State)  (h : Keeps z s) : KeepsOut z (execWatchdogExpiry u s) := by
  unfold execWatchdogExpiry
  repeat' (first
      | (with_reducible assumption)
      | (with_reducible first | apply keepsOut_next | exact keepsOut_fault)
      | (with_reducible first | apply keeps_logEv | apply keeps_deviceFatal | apply keeps_ite | apply keeps_ite_fst)
      | (intro _)
      | split)

end Sys2Proof.Machine
end

