-- ==== Sys2Proof/Laws/Keeps/PowerOps.lean ====
section
/-!
SUPPORT. What the functions of Machine/PowerOps.lean keep (Safety.Keeps).
-/

set_option linter.unusedTactic false
set_option linter.unreachableTactic false

namespace Sys2Proof.Machine

theorem keeps_writeVinMin {z : State} (s : State) (f : FuncId) (v : W64)  (h : Keeps z s) : Keeps z (writeVinMin s f v) := by
  unfold writeVinMin
  repeat' (first
      | (with_reducible assumption)
      | ((try lift_lets -underBinder); intro x; refine (fun hx : Keeps z x => ?_) (?_ : Keeps z x); (on_goal 1 => clear_value x); (on_goal 2 => simp only [x]))
      | ((try lift_lets -underBinder); intro x; refine (fun hx : Keeps z x.1 => ?_) (?_ : Keeps z x.1); (on_goal 1 => clear_value x); (on_goal 2 => simp only [x]))
      | ((try lift_lets -underBinder); intro x; clear_value x)
      | (with_reducible first | apply keeps_plainWrite | apply keeps_rsetf | apply keeps_ite | apply keeps_ite_fst)
      | (intro _)
      | split)

theorem keeps_brownout {z : State} (s : State)  (h : Keeps z s) : Keeps z (brownout s) := by
  unfold brownout
  repeat' (first
      | (with_reducible assumption)
      | (with_reducible first | apply keeps_dropTarget | apply keeps_coldReset | apply keeps_archiveFatal)
      | (intro _)
      | split)

theorem keeps_putPwr {z : State} (s : State) (p : Pwr)  (h : Keeps z s) : Keeps z (putPwr s p) := by
  unfold putPwr
  repeat' (first
      | (with_reducible assumption)
      | (intro _)
      | split
      | (apply keeps_mk <;> first
          | assumption | with_reducible exact le_rfl | with_reducible exact List.suffix_refl _ | with_reducible exact fun h => h | exact fun _ => tasc_nil
          | with_reducible exact fun h => ⟨h, le_rfl⟩ | exact fun h => ⟨⟨h.1, h.2.1, h.2.2⟩, le_rfl⟩ | exact fun h => twf_tset h
          | exact fun h => twf_twrite h | exact fun h => twf_tclear h | exact fun h => tasc_tset h | exact fun h => tasc_tclear h
          | exact Nat.le_succ _ | exact le_max_left _ _ | exact List.suffix_cons _ _
          | exact fun h => twf_foldl _ (fun _ _ h => twf_tset h) _ _ h | skip)
      | (exact twf_foldl _ (fun _ _ h => twf_tset h) _ _ (by assumption)))

theorem keeps_putTemps {z : State} (s : State) (x : ThermSample)  (h : Keeps z s) : Keeps z (putTemps s x) := by
  unfold putTemps
  repeat' (first
      | (with_reducible assumption)
      | ((try lift_lets -underBinder); intro x; refine (fun hx : Keeps z x => ?_) (?_ : Keeps z x); (on_goal 1 => clear_value x); (on_goal 2 => simp only [x]))
      | ((try lift_lets -underBinder); intro x; refine (fun hx : Keeps z x.1 => ?_) (?_ : Keeps z x.1); (on_goal 1 => clear_value x); (on_goal 2 => simp only [x]))
      | ((try lift_lets -underBinder); intro x; clear_value x)
      | (with_reducible first | apply keeps_rsetf)
      | (intro _)
      | split)

theorem keeps_countTemps {z : State} (s : State) (x : ThermSample)  (h : Keeps z s) : Keeps z (countTemps s x) := by
  unfold countTemps
  repeat' (first
      | (with_reducible assumption)
      | ((try lift_lets -underBinder); intro x; refine (fun hx : Keeps z x => ?_) (?_ : Keeps z x); (on_goal 1 => clear_value x); (on_goal 2 => simp only [x]))
      | ((try lift_lets -underBinder); intro x; refine (fun hx : Keeps z x.1 => ?_) (?_ : Keeps z x.1); (on_goal 1 => clear_value x); (on_goal 2 => simp only [x]))
      | ((try lift_lets -underBinder); intro x; clear_value x)
      | (with_reducible first | apply keeps_putPwr | apply keeps_putTemps | apply keeps_ite | apply keeps_ite_fst)
      | (intro _)
      | split)

theorem keeps_throttleIbi {z : State} (old : Nat) (new : Nat) (s : State)  (h : Keeps z s) : Keeps z (throttleIbi old new s) := by
  unfold throttleIbi
  repeat' (first
      | (with_reducible assumption)
      | ((try lift_lets -underBinder); intro x; refine (fun hx : Keeps z x => ?_) (?_ : Keeps z x); (on_goal 1 => clear_value x); (on_goal 2 => simp only [x]))
      | ((try lift_lets -underBinder); intro x; refine (fun hx : Keeps z x.1 => ?_) (?_ : Keeps z x.1); (on_goal 1 => clear_value x); (on_goal 2 => simp only [x]))
      | ((try lift_lets -underBinder); intro x; clear_value x)
      | (with_reducible first | apply keeps_emit | apply keeps_ite | apply keeps_ite_fst)
      | (intro _)
      | split)

theorem keeps_retarget {z : State} (s : State)  (h : Keeps z s) : Keeps z (retarget s) := by
  unfold retarget
  repeat' (first
      | (with_reducible assumption)
      | ((try lift_lets -underBinder); intro x; refine (fun hx : Keeps z x => ?_) (?_ : Keeps z x); (on_goal 1 => clear_value x); (on_goal 2 => simp only [x]))
      | ((try lift_lets -underBinder); intro x; refine (fun hx : Keeps z x.1 => ?_) (?_ : Keeps z x.1); (on_goal 1 => clear_value x); (on_goal 2 => simp only [x]))
      | ((try lift_lets -underBinder); intro x; clear_value x)
      | (with_reducible first | apply keeps_rsetf | apply keeps_throttleIbi | apply keeps_logEv | apply keeps_ite | apply keeps_ite_fst)
      | (intro _)
      | split)

theorem keeps_dipStep {z : State} (s : State) (x : RailSample) (crossed : List Bool)  (h : Keeps z s) : Keeps z (dipStep s x crossed) := by
  unfold dipStep
  repeat' (first
      | (with_reducible assumption)
      | ((try lift_lets -underBinder); intro x; refine (fun hx : Keeps z x => ?_) (?_ : Keeps z x); (on_goal 1 => clear_value x); (on_goal 2 => simp only [x]))
      | ((try lift_lets -underBinder); intro x; refine (fun hx : Keeps z x.1 => ?_) (?_ : Keeps z x.1); (on_goal 1 => clear_value x); (on_goal 2 => simp only [x]))
      | ((try lift_lets -underBinder); intro x; clear_value x)
      | (with_reducible first | apply keeps_putPwr | apply keeps_retarget | apply keeps_emit | apply keeps_ite | apply keeps_ite_fst)
      | (intro _)
      | split)

theorem keeps_execAclkChange {z : State} (s : State)  (h : Keeps z s) : KeepsOut z (execAclkChange s) := by
  unfold execAclkChange
  repeat' (first
      | (with_reducible assumption)
      | (with_reducible first | apply keepsOut_next | exact keepsOut_fault)
      | (with_reducible first | apply keeps_rsetf | apply keeps_ite | apply keeps_ite_fst)
      | (intro _)
      | split)

theorem keeps_execCoolantInletNotice {z : State} (s : State)  (h : Keeps z s) : KeepsOut z (execCoolantInletNotice s) := by
  unfold execCoolantInletNotice
  repeat' (first
      | (with_reducible assumption)
      | (with_reducible first | apply keepsOut_next | exact keepsOut_fault)
      | (with_reducible first | apply keeps_logEv | apply keeps_ite | apply keeps_ite_fst)
      | (intro _)
      | split)

theorem keeps_execDipEnd {z : State} (s : State)  (h : Keeps z s) : KeepsOut z (execDipEnd s) := by
  unfold execDipEnd
  repeat' (first
      | (with_reducible assumption)
      | (with_reducible first | apply keepsOut_next | exact keepsOut_fault)
      | ((try lift_lets -underBinder); intro x; refine (fun hx : Keeps z x => ?_) (?_ : Keeps z x); (on_goal 1 => clear_value x); (on_goal 2 => simp only [x]))
      | ((try lift_lets -underBinder); intro x; refine (fun hx : Keeps z x.1 => ?_) (?_ : Keeps z x.1); (on_goal 1 => clear_value x); (on_goal 2 => simp only [x]))
      | ((try lift_lets -underBinder); intro x; clear_value x)
      | (with_reducible first | apply keeps_retarget | apply keeps_rbump | apply keeps_putPwr | apply keeps_ite | apply keeps_ite_fst)
      | (intro _)
      | split)

theorem keeps_execPowerControlInterval {z : State} (watts : Nat) (s : State)  (h : Keeps z s) : KeepsOut z (execPowerControlInterval watts s) := by
  unfold execPowerControlInterval
  repeat' (first
      | (with_reducible assumption)
      | (with_reducible first | apply keepsOut_next | exact keepsOut_fault)
      | ((try lift_lets -underBinder); intro x; refine (fun hx : Keeps z x => ?_) (?_ : Keeps z x); (on_goal 1 => clear_value x); (on_goal 2 => simp only [x]))
      | ((try lift_lets -underBinder); intro x; refine (fun hx : Keeps z x.1 => ?_) (?_ : Keeps z x.1); (on_goal 1 => clear_value x); (on_goal 2 => simp only [x]))
      | ((try lift_lets -underBinder); intro x; clear_value x)
      | (with_reducible first | apply keeps_rsetf | apply keeps_retarget | apply keeps_putPwr | apply keeps_ite | apply keeps_ite_fst)
      | (intro _)
      | split
      | (apply keeps_mk <;> first
          | assumption | with_reducible exact le_rfl | with_reducible exact List.suffix_refl _ | with_reducible exact fun h => h | exact fun _ => tasc_nil
          | with_reducible exact fun h => ⟨h, le_rfl⟩ | exact fun h => ⟨⟨h.1, h.2.1, h.2.2⟩, le_rfl⟩ | exact fun h => twf_tset h
          | exact fun h => twf_twrite h | exact fun h => twf_tclear h | exact fun h => tasc_tset h | exact fun h => tasc_tclear h
          | exact Nat.le_succ _ | exact le_max_left _ _ | exact List.suffix_cons _ _
          | exact fun h => twf_foldl _ (fun _ _ h => twf_tset h) _ _ h | skip)
      | (exact twf_foldl _ (fun _ _ h => twf_tset h) _ _ (by assumption)))

theorem keeps_overInput {z : State} (s : State) (mv : Nat)  (h : Keeps z s) : Keeps z (overInput s mv) := by
  unfold overInput
  repeat' (first
      | (with_reducible assumption)
      | ((try lift_lets -underBinder); intro x; refine (fun hx : Keeps z x => ?_) (?_ : Keeps z x); (on_goal 1 => clear_value x); (on_goal 2 => simp only [x]))
      | ((try lift_lets -underBinder); intro x; refine (fun hx : Keeps z x.1 => ?_) (?_ : Keeps z x.1); (on_goal 1 => clear_value x); (on_goal 2 => simp only [x]))
      | ((try lift_lets -underBinder); intro x; clear_value x)
      | (with_reducible first | apply keeps_putPwr | apply keeps_logEv | apply keeps_ite | apply keeps_ite_fst)
      | (intro _)
      | split)

theorem keeps_followMin {z : State} (s : State) (mv : Nat)  (h : Keeps z s) : Keeps z (followMin s mv) := by
  unfold followMin
  repeat' (first
      | (with_reducible assumption)
      | (with_reducible first | apply keeps_rsetf | apply keeps_ite | apply keeps_ite_fst)
      | (intro _)
      | split)

theorem keeps_execRailMonitorSample {z : State} (x : RailSample) (s : State)  (h : Keeps z s) : KeepsOut z (execRailMonitorSample x s) := by
  unfold execRailMonitorSample
  repeat' (first
      | (with_reducible assumption)
      | (with_reducible first | apply keepsOut_next | exact keepsOut_fault)
      | ((try lift_lets -underBinder); intro x; refine (fun hx : Keeps z x => ?_) (?_ : Keeps z x); (on_goal 1 => clear_value x); (on_goal 2 => simp only [x]))
      | ((try lift_lets -underBinder); intro x; refine (fun hx : Keeps z x.1 => ?_) (?_ : Keeps z x.1); (on_goal 1 => clear_value x); (on_goal 2 => simp only [x]))
      | ((try lift_lets -underBinder); intro x; clear_value x)
      | (with_reducible first | apply keeps_dropTarget | apply keeps_putPwr | apply keeps_brownout | apply keeps_dipStep | apply keeps_overInput | apply keeps_followMin | apply keeps_ite | apply keeps_ite_fst)
      | (intro _)
      | split)

theorem keeps_execThermalControlStep {z : State} (s : State)  (h : Keeps z s) : KeepsOut z (execThermalControlStep s) := by
  unfold execThermalControlStep
  repeat' (first
      | (with_reducible assumption)
      | (with_reducible first | apply keepsOut_next | exact keepsOut_fault)
      | ((try lift_lets -underBinder); intro x; refine (fun hx : Keeps z x => ?_) (?_ : Keeps z x); (on_goal 1 => clear_value x); (on_goal 2 => simp only [x]))
      | ((try lift_lets -underBinder); intro x; refine (fun hx : Keeps z x.1 => ?_) (?_ : Keeps z x.1); (on_goal 1 => clear_value x); (on_goal 2 => simp only [x]))
      | ((try lift_lets -underBinder); intro x; clear_value x)
      | (with_reducible first | apply keeps_retarget | apply keeps_putPwr | apply keeps_ite | apply keeps_ite_fst)
      | (intro _)
      | split)

theorem keeps_execThermalResetRelease {z : State} (s : State)  (h : Keeps z s) : KeepsOut z (execThermalResetRelease s) := by
  unfold execThermalResetRelease
  repeat' (first
      | (with_reducible assumption)
      | (with_reducible first | apply keepsOut_next | exact keepsOut_fault)
      | ((try lift_lets -underBinder); intro x; refine (fun hx : Keeps z x => ?_) (?_ : Keeps z x); (on_goal 1 => clear_value x); (on_goal 2 => simp only [x]))
      | ((try lift_lets -underBinder); intro x; refine (fun hx : Keeps z x.1 => ?_) (?_ : Keeps z x.1); (on_goal 1 => clear_value x); (on_goal 2 => simp only [x]))
      | ((try lift_lets -underBinder); intro x; clear_value x)
      | (with_reducible first | apply keeps_putPwr | apply keeps_ite | apply keeps_ite_fst)
      | (intro _)
      | split)

theorem keeps_thermalShutdown {z : State} (s : State)  (h : Keeps z s) : Keeps z (thermalShutdown s) := by
  unfold thermalShutdown
  repeat' (first
      | (with_reducible assumption)
      | ((try lift_lets -underBinder); intro x; refine (fun hx : Keeps z x => ?_) (?_ : Keeps z x); (on_goal 1 => clear_value x); (on_goal 2 => simp only [x]))
      | ((try lift_lets -underBinder); intro x; refine (fun hx : Keeps z x.1 => ?_) (?_ : Keeps z x.1); (on_goal 1 => clear_value x); (on_goal 2 => simp only [x]))
      | ((try lift_lets -underBinder); intro x; clear_value x)
      | (with_reducible first | apply keeps_emit | apply keeps_coldReset | apply keeps_archiveFatal | apply keeps_ite | apply keeps_ite_fst)
      | (intro _)
      | split)

theorem keeps_execThermalSample {z : State} (x : ThermSample) (s : State) (h : Keeps z s) : KeepsOut z (execThermalSample x s) := by
  unfold execThermalSample
  have hp := keeps_putPwr s { s.pwr with maxRead := maxReading x } h
  refine keepsOut_next (keeps_ite (keeps_thermalShutdown _ hp) (keeps_ite (keeps_putPwr _ _ hp) (keeps_countTemps _ _ (keeps_putPwr _ _ hp))))

theorem keeps_execVinMinClear {z : State} (f : FuncId) (v : W64) (s : State)  (h : Keeps z s) : KeepsOut z (execVinMinClear f v s) := by
  unfold execVinMinClear
  repeat' (first
      | (with_reducible assumption)
      | (with_reducible first | apply keepsOut_next | exact keepsOut_fault)
      | (with_reducible apply keeps_hostWrite; (on_goal 1 => (intro _ _)))
      | (with_reducible first | apply keeps_writeVinMin | apply keeps_ite | apply keeps_ite_fst)
      | (intro _)
      | split)

end Sys2Proof.Machine
end

