-- ==== Sys2Proof/Laws/Keeps/SideOps.lean ====
section
/-!
SUPPORT. What the functions of Machine/SideOps.lean keep (Safety.Keeps).
-/

set_option linter.unusedTactic false
set_option linter.unreachableTactic false

namespace Sys2Proof.Machine

theorem keeps_putSide {z : State} (s : State) (x : Side)  (h : Keeps z s) : Keeps z (putSide s x) := by
  unfold putSide
  repeat' (first
      | (with_reducible assumption)
      | (intro _)
      | split
      | (apply keeps_mk <;> first
          | assumption | with_reducible exact le_rfl | with_reducible exact List.suffix_refl _ | with_reducible exact fun h => h | exact fun _ => tasc_nil
          | with_reducible exact fun h => ⟨h, le_rfl⟩ | exact fun h => ⟨⟨h.1, h.2.1, h.2.2⟩, le_rfl⟩ | exact fun h => twf_tset h
          | exact fun h => twf_twrite h | exact fun h => twf_tclear h | exact fun h => tasc_tset h | exact fun h => tasc_tclear h
          | exact Nat.le_succ _ | exact le_max_left _ _ | exact List.suffix_cons _ _
          | exact fun h => twf_foldl _ (fun _ _ h => twf_tset h) _ _ h | skip)
      | (exact twf_foldl _ (fun _ _ h => twf_tset h) _ _ (by assumption)))

theorem keeps_testInstr {z : State} (s : State) (drive : Bool) (preload : List Bool) (cells : List Bool)  (h : Keeps z s) : Keeps z (testInstr s drive preload cells) := by
  unfold testInstr
  repeat' (first
      | (with_reducible assumption)
      | ((try lift_lets -underBinder); intro x; refine (fun hx : Keeps z x => ?_) (?_ : Keeps z x); (on_goal 1 => clear_value x); (on_goal 2 => simp only [x]))
      | ((try lift_lets -underBinder); intro x; refine (fun hx : Keeps z x.1 => ?_) (?_ : Keeps z x.1); (on_goal 1 => clear_value x); (on_goal 2 => simp only [x]))
      | ((try lift_lets -underBinder); intro x; clear_value x)
      | (with_reducible first | apply keeps_emit | apply keeps_putSide | apply keeps_ite | apply keeps_ite_fst)
      | (intro _)
      | split)

theorem keeps_bypass {z : State} (s : State)  (h : Keeps z s) : Keeps z (bypass s) := by
  unfold bypass
  repeat' (first
      | (with_reducible assumption)
      | (with_reducible first | apply keeps_testInstr)
      | (intro _)
      | split)

theorem keeps_execI3cDynamicAddress {z : State} (x : I3cAssign) (s : State)  (h : Keeps z s) : KeepsOut z (execI3cDynamicAddress x s) := by
  unfold execI3cDynamicAddress
  repeat' (first
      | (with_reducible assumption)
      | (with_reducible first | apply keepsOut_next | exact keepsOut_fault)
      | ((try lift_lets -underBinder); intro x; refine (fun hx : Keeps z x => ?_) (?_ : Keeps z x); (on_goal 1 => clear_value x); (on_goal 2 => simp only [x]))
      | ((try lift_lets -underBinder); intro x; refine (fun hx : Keeps z x.1 => ?_) (?_ : Keeps z x.1); (on_goal 1 => clear_value x); (on_goal 2 => simp only [x]))
      | ((try lift_lets -underBinder); intro x; clear_value x)
      | (with_reducible first | apply keeps_putSide | apply keeps_ite | apply keeps_ite_fst)
      | (intro _)
      | split)

theorem keeps_execI3cPrivateRead {z : State} (off : Byte) (s : State)  (h : Keeps z s) : KeepsOut z (execI3cPrivateRead off s) := by
  unfold execI3cPrivateRead
  repeat' (first
      | (with_reducible assumption)
      | (with_reducible first | apply keepsOut_next | exact keepsOut_fault)
      | (with_reducible first | apply keeps_emit | apply keeps_ite | apply keeps_ite_fst)
      | (intro _)
      | split)

theorem keeps_execI3cThermtripClear {z : State} (data : Byte) (s : State)  (h : Keeps z s) : KeepsOut z (execI3cThermtripClear data s) := by
  unfold execI3cThermtripClear
  repeat' (first
      | (with_reducible assumption)
      | (with_reducible first | apply keepsOut_next | exact keepsOut_fault)
      | ((try lift_lets -underBinder); intro x; refine (fun hx : Keeps z x => ?_) (?_ : Keeps z x); (on_goal 1 => clear_value x); (on_goal 2 => simp only [x]))
      | ((try lift_lets -underBinder); intro x; refine (fun hx : Keeps z x.1 => ?_) (?_ : Keeps z x.1); (on_goal 1 => clear_value x); (on_goal 2 => simp only [x]))
      | ((try lift_lets -underBinder); intro x; clear_value x)
      | (with_reducible first | apply keeps_putPwr | apply keeps_ite | apply keeps_ite_fst)
      | (intro _)
      | split)

theorem keeps_execJtagBypass {z : State} (s : State)  (h : Keeps z s) : KeepsOut z (execJtagBypass s) := by
  unfold execJtagBypass
  repeat' (first
      | (with_reducible assumption)
      | (with_reducible first | apply keepsOut_next | exact keepsOut_fault)
      | (with_reducible first | apply keeps_bypass)
      | (intro _)
      | split)

theorem keeps_scanFree {z : State} (l : List Bool) (s : State) (h : Keeps z s) : Keeps z (scanFree l s).1 := by
  induction l generalizing s with
  | nil => exact h
  | cons b l ih =>
    rw [scanFree]
    exact ih _ (keeps_drawFree _ h)

theorem keeps_execJtagExtest {z : State} (s : State)  (h : Keeps z s) : KeepsOut z (execJtagExtest s) := by
  unfold execJtagExtest
  repeat' (first
      | (with_reducible assumption)
      | (with_reducible first | apply keepsOut_next | exact keepsOut_fault)
      | ((try lift_lets -underBinder); intro x; refine (fun hx : Keeps z x => ?_) (?_ : Keeps z x); (on_goal 1 => clear_value x); (on_goal 2 => simp only [x]))
      | ((try lift_lets -underBinder); intro x; refine (fun hx : Keeps z x.1 => ?_) (?_ : Keeps z x.1); (on_goal 1 => clear_value x); (on_goal 2 => simp only [x]))
      | ((try lift_lets -underBinder); intro x; clear_value x)
      | (with_reducible first | apply keeps_scanFree | apply keeps_testInstr | apply keeps_bypass | apply keeps_ite | apply keeps_ite_fst)
      | (intro _)
      | split)

theorem keeps_execJtagIdcode {z : State} (s : State)  (h : Keeps z s) : KeepsOut z (execJtagIdcode s) := by
  unfold execJtagIdcode
  repeat' (first
      | (with_reducible assumption)
      | (with_reducible first | apply keepsOut_next | exact keepsOut_fault)
      | (with_reducible first | apply keeps_testInstr)
      | (intro _)
      | split)

theorem keeps_execJtagSamplePreload {z : State} (cells : ScanCells) (s : State)  (h : Keeps z s) : KeepsOut z (execJtagSamplePreload cells s) := by
  unfold execJtagSamplePreload
  repeat' (first
      | (with_reducible assumption)
      | (with_reducible first | apply keepsOut_next | exact keepsOut_fault)
      | (with_reducible first | apply keeps_testInstr | apply keeps_bypass | apply keeps_ite | apply keeps_ite_fst)
      | (intro _)
      | split)

theorem keeps_execTestLogicReset {z : State} (s : State)  (h : Keeps z s) : KeepsOut z (execTestLogicReset s) := by
  unfold execTestLogicReset
  repeat' (first
      | (with_reducible assumption)
      | (with_reducible first | apply keepsOut_next | exact keepsOut_fault)
      | ((try lift_lets -underBinder); intro x; refine (fun hx : Keeps z x => ?_) (?_ : Keeps z x); (on_goal 1 => clear_value x); (on_goal 2 => simp only [x]))
      | ((try lift_lets -underBinder); intro x; refine (fun hx : Keeps z x.1 => ?_) (?_ : Keeps z x.1); (on_goal 1 => clear_value x); (on_goal 2 => simp only [x]))
      | ((try lift_lets -underBinder); intro x; clear_value x)
      | (with_reducible first | apply keeps_putSide)
      | (intro _)
      | split)

end Sys2Proof.Machine
end

