-- ==== Sys2Proof/Laws/Keeps/HostRegs.lean ====
section
/-!
SUPPORT. What the functions of Machine/HostRegs.lean keep (Safety.Keeps).
-/

set_option linter.unusedTactic false
set_option linter.unreachableTactic false

namespace Sys2Proof.Machine

theorem keeps_execBar0MisalignedRead {z : State} (f : FuncId) (off : BitVec 26) (len : Nat) (s : State)  (h : Keeps z s) : KeepsOut z (execBar0MisalignedRead f off len s) := by
  unfold execBar0MisalignedRead
  repeat' (first
      | (with_reducible assumption)
      | (with_reducible first | apply keepsOut_next | exact keepsOut_fault)
      | (with_reducible first | apply keeps_emit | apply keeps_logAccess | apply keeps_ite | apply keeps_ite_fst)
      | (intro _)
      | split)

theorem keeps_writeNext {z : State} (s : State) (f : FuncId) (r : Reg) (v : W64)  (h : Keeps z s) : Keeps z (writeNext s f r v) := by
  unfold writeNext
  dsimp only
  repeat' (first
      | (with_reducible assumption)
      | (with_reducible first | apply keeps_logAccess)
      | (exact fun h => ⟨⟨h.1, h.2.1, h.2.2⟩, le_rfl⟩)
      | (with_reducible refine keeps_foldl _ _ _ ?_ ?_; (on_goal 1 => (intro _ _ _)))
      | (with_reducible refine keeps_foldl_fst _ _ _ ?_ ?_; (on_goal 1 => (intro _ _ _)))
      | (intro _)
      | split
      | (apply keeps_mk <;> first
          | assumption | with_reducible exact le_rfl | with_reducible exact List.suffix_refl _ | with_reducible exact fun h => h | exact fun _ => tasc_nil
          | with_reducible exact fun h => ⟨h, le_rfl⟩ | exact fun h => ⟨⟨h.1, h.2.1, h.2.2⟩, le_rfl⟩ | exact fun h => twf_tset h
          | exact fun h => twf_twrite h | exact fun h => twf_tclear h | exact fun h => tasc_tset h | exact fun h => tasc_tclear h
          | exact Nat.le_succ _ | exact le_max_left _ _ | exact List.suffix_cons _ _
          | exact fun h => twf_foldl _ (fun _ _ h => twf_tset h) _ _ h | skip)
      | (exact twf_foldl _ (fun _ _ h => twf_tset h) _ _ (by assumption))
      | (with_reducible exact le_rfl)
      | (exact Nat.le_succ _)
      | (with_reducible exact fun h => ⟨h, le_rfl⟩))

theorem keeps_execNextPartitionWrite {z : State} (f : FuncId) (off : BitVec 26) (v : W64) (s : State)  (h : Keeps z s) : KeepsOut z (execNextPartitionWrite f off v s) := by
  unfold execNextPartitionWrite
  repeat' (first
      | (with_reducible assumption)
      | (with_reducible first | apply keepsOut_next | exact keepsOut_fault)
      | (with_reducible apply keeps_hostWrite; (on_goal 1 => (intro _ _)))
      | (with_reducible first | apply keeps_writeNext | apply keeps_ite | apply keeps_ite_fst)
      | (intro _)
      | split)

theorem keeps_writeSemMode {z : State} (s : State) (f : FuncId) (c : CoreId) (v : W64)  (h : Keeps z s) : Keeps z (writeSemMode s f c v) := by
  unfold writeSemMode
  repeat' (first
      | (with_reducible assumption)
      | ((try lift_lets -underBinder); intro x; refine (fun hx : Keeps z x => ?_) (?_ : Keeps z x); (on_goal 1 => clear_value x); (on_goal 2 => simp only [x]))
      | ((try lift_lets -underBinder); intro x; refine (fun hx : Keeps z x.1 => ?_) (?_ : Keeps z x.1); (on_goal 1 => clear_value x); (on_goal 2 => simp only [x]))
      | ((try lift_lets -underBinder); intro x; clear_value x)
      | (with_reducible first | apply keeps_plainWrite | apply keeps_putCore | apply keeps_ite | apply keeps_ite_fst)
      | (intro _)
      | split)

theorem keeps_writeHalted {z : State} (s : State) (f : FuncId) (n : N20) (r : Reg) (v : W64)  (h : Keeps z s) : Keeps z (writeHalted s f n r v) := by
  unfold writeHalted
  repeat' (first
      | (with_reducible assumption)
      | (with_reducible first | apply keeps_plainWrite | apply keeps_logEv | apply keeps_ite | apply keeps_ite_fst)
      | (intro _)
      | split)

theorem keeps_writeUnclutched {z : State} (s : State) (f : FuncId) (n : N20) (r : Reg) (v : W64)  (h : Keeps z s) : Keeps z (writeUnclutched s f n r v) := by
  unfold writeUnclutched
  repeat' (first
      | (with_reducible assumption)
      | (with_reducible first | apply keeps_logAccess | apply keeps_plainWrite | apply keeps_ite | apply keeps_ite_fst)
      | (intro _)
      | split)

theorem keeps_writeReg {z : State} (s : State) (f : FuncId) (r : Reg) (v : W64) (h : Keeps z s) : Keeps z (writeReg s f r v) := by
  unfold writeReg
  cases r
  case eng c e k => cases k <;> (try simp only [isNext, Bool.false_eq_true, if_false, if_true]) <;> repeat' (first | (with_reducible assumption) | (with_reducible apply keeps_writeCtl) | (with_reducible apply keeps_writePc) | (with_reducible apply keeps_writeDataHi) | (with_reducible apply keeps_writeSctl) | (with_reducible apply keeps_writeHostAddr) | (with_reducible apply keeps_writeSemCnt) | (with_reducible apply keeps_writeSemMode) | (with_reducible apply keeps_writeSyncWin) | (with_reducible apply keeps_writeSrng) | (with_reducible apply keeps_writeUpdCtl) | (with_reducible apply keeps_acceptNorm) | (with_reducible apply keeps_writeHalted) | (with_reducible apply keeps_writeSqdb) | (with_reducible apply keeps_writeCqdb) | (with_reducible apply keeps_writeRingCtl) | (with_reducible apply keeps_writeRingBase) | (with_reducible apply keeps_writeChorus) | (with_reducible apply keeps_writeTimeCtl) | (with_reducible apply keeps_writePortCtl) | (with_reducible apply keeps_writeUnclutched) | (with_reducible apply keeps_warmReset) | (with_reducible apply keeps_writeVinMin) | (with_reducible apply keeps_writeNext) | (with_reducible apply keeps_plainWrite) | split)
  all_goals ((try simp only [isNext, Bool.false_eq_true, if_false, if_true]); repeat' (first | (with_reducible assumption) | (with_reducible apply keeps_writeCtl) | (with_reducible apply keeps_writePc) | (with_reducible apply keeps_writeDataHi) | (with_reducible apply keeps_writeSctl) | (with_reducible apply keeps_writeHostAddr) | (with_reducible apply keeps_writeSemCnt) | (with_reducible apply keeps_writeSemMode) | (with_reducible apply keeps_writeSyncWin) | (with_reducible apply keeps_writeSrng) | (with_reducible apply keeps_writeUpdCtl) | (with_reducible apply keeps_acceptNorm) | (with_reducible apply keeps_writeHalted) | (with_reducible apply keeps_writeSqdb) | (with_reducible apply keeps_writeCqdb) | (with_reducible apply keeps_writeRingCtl) | (with_reducible apply keeps_writeRingBase) | (with_reducible apply keeps_writeChorus) | (with_reducible apply keeps_writeTimeCtl) | (with_reducible apply keeps_writePortCtl) | (with_reducible apply keeps_writeUnclutched) | (with_reducible apply keeps_warmReset) | (with_reducible apply keeps_writeVinMin) | (with_reducible apply keeps_writeNext) | (with_reducible apply keeps_plainWrite) | split))

theorem keeps_execRegisterWrite {z : State} (f : FuncId) (off : BitVec 26) (len : Nat) (v : W64) (s : State)  (h : Keeps z s) : KeepsOut z (execRegisterWrite f off len v s) := by
  unfold execRegisterWrite
  repeat' (first
      | (with_reducible assumption)
      | (with_reducible first | apply keepsOut_next | exact keepsOut_fault)
      | (with_reducible apply keeps_hostWrite; (on_goal 1 => (intro _ _)))
      | (with_reducible first | apply keeps_logAccess | apply keeps_writeReg | apply keeps_ite | apply keeps_ite_fst)
      | (intro _)
      | split)

end Sys2Proof.Machine
end

