-- ==== Sys2Proof/Laws/Keeps/MatrixOps.lean ====
section
/-!
SUPPORT. What the functions of Machine/MatrixOps.lean keep (Safety.Keeps).
-/

set_option linter.unusedTactic false
set_option linter.unreachableTactic false

namespace Sys2Proof.Machine

theorem keeps_execAltDwDrain {z : State} (c : CoreId) (id : Nat) (s : State)  (h : Keeps z s) : KeepsOut z (execAltDwDrain c id s) := by
  unfold execAltDwDrain
  repeat' (first
      | (with_reducible assumption)
      | (with_reducible first | apply keepsOut_next | exact keepsOut_fault)
      | (with_reducible first | apply keeps_settleCore | apply keeps_mxeDwDrain)
      | (intro _)
      | split)

theorem keeps_execMxeAlt {z : State} (c : CoreId) (s : State)  (h : Keeps z s) : KeepsOut z (execMxeAlt c s) := by
  unfold execMxeAlt
  repeat' (first
      | (with_reducible assumption)
      | (with_reducible first | apply keepsOut_next | exact keepsOut_fault)
      | (with_reducible first | apply keeps_runOp)
      | (intro _)
      | split)

theorem keeps_execMxeIs {z : State} (c : CoreId) (s : State)  (h : Keeps z s) : KeepsOut z (execMxeIs c s) := by
  unfold execMxeIs
  repeat' (first
      | (with_reducible assumption)
      | (with_reducible first | apply keepsOut_next | exact keepsOut_fault)
      | (with_reducible first | apply keeps_runOp)
      | (intro _)
      | split)

theorem keeps_execMxeOs {z : State} (c : CoreId) (s : State)  (h : Keeps z s) : KeepsOut z (execMxeOs c s) := by
  unfold execMxeOs
  repeat' (first
      | (with_reducible assumption)
      | (with_reducible first | apply keepsOut_next | exact keepsOut_fault)
      | (with_reducible first | apply keeps_runOp)
      | (intro _)
      | split)

theorem keeps_execMxePassDrain {z : State} (c : CoreId) (id : Nat) (others : DrainWait) (s : State)  (h : Keeps z s) : KeepsOut z (execMxePassDrain c id others s) := by
  unfold execMxePassDrain
  repeat' (first
      | (with_reducible assumption)
      | (with_reducible first | apply keepsOut_next | exact keepsOut_fault)
      | (with_reducible first | apply keeps_settleCore | apply keeps_mxeDrain)
      | (intro _)
      | split)

theorem keeps_execMxeTileStep {z : State} (c : CoreId) (id : Nat) (s : State)  (h : Keeps z s) : KeepsOut z (execMxeTileStep c id s) := by
  unfold execMxeTileStep
  repeat' (first
      | (with_reducible assumption)
      | (with_reducible first | apply keepsOut_next | exact keepsOut_fault)
      | (with_reducible first | apply keeps_settleCore | apply keeps_mxeTile)
      | (intro _)
      | split)

theorem keeps_execMxeWs {z : State} (c : CoreId) (s : State)  (h : Keeps z s) : KeepsOut z (execMxeWs c s) := by
  unfold execMxeWs
  repeat' (first
      | (with_reducible assumption)
      | (with_reducible first | apply keepsOut_next | exact keepsOut_fault)
      | (with_reducible first | apply keeps_runOp)
      | (intro _)
      | split)

end Sys2Proof.Machine
end

