-- ==== Sys2Proof/Laws/Keeps/MoultOps.lean ====
section
/-!
SUPPORT. What the functions of Machine/MoultOps.lean keep (Safety.Keeps).
-/

set_option linter.unusedTactic false
set_option linter.unreachableTactic false

namespace Sys2Proof.Machine

theorem keeps_execMoultGrow {z : State} (c : CoreId) (s : State)  (h : Keeps z s) : KeepsOut z (execMoultGrow c s) := by
  unfold execMoultGrow
  repeat' (first
      | (with_reducible assumption)
      | (with_reducible first | apply keepsOut_next | exact keepsOut_fault)
      | (with_reducible first | apply keeps_runOp)
      | (intro _)
      | split)

theorem keeps_execMoultPrune {z : State} (c : CoreId) (s : State)  (h : Keeps z s) : KeepsOut z (execMoultPrune c s) := by
  unfold execMoultPrune
  repeat' (first
      | (with_reducible assumption)
      | (with_reducible first | apply keepsOut_next | exact keepsOut_fault)
      | (with_reducible first | apply keeps_runOp)
      | (intro _)
      | split)

theorem keeps_execMoultRecompress {z : State} (c : CoreId) (s : State)  (h : Keeps z s) : KeepsOut z (execMoultRecompress c s) := by
  unfold execMoultRecompress
  repeat' (first
      | (with_reducible assumption)
      | (with_reducible first | apply keepsOut_next | exact keepsOut_fault)
      | (with_reducible first | apply keeps_runOp)
      | (intro _)
      | split)

theorem keeps_execMoultResetState {z : State} (c : CoreId) (s : State)  (h : Keeps z s) : KeepsOut z (execMoultResetState c s) := by
  unfold execMoultResetState
  repeat' (first
      | (with_reducible assumption)
      | (with_reducible first | apply keepsOut_next | exact keepsOut_fault)
      | (with_reducible first | apply keeps_runOp)
      | (intro _)
      | split)

theorem keeps_execMoultScan {z : State} (c : CoreId) (s : State)  (h : Keeps z s) : KeepsOut z (execMoultScan c s) := by
  unfold execMoultScan
  repeat' (first
      | (with_reducible assumption)
      | (with_reducible first | apply keepsOut_next | exact keepsOut_fault)
      | (with_reducible first | apply keeps_runOp)
      | (intro _)
      | split)

theorem keeps_execMoultSelect {z : State} (c : CoreId) (s : State)  (h : Keeps z s) : KeepsOut z (execMoultSelect c s) := by
  unfold execMoultSelect
  repeat' (first
      | (with_reducible assumption)
      | (with_reducible first | apply keepsOut_next | exact keepsOut_fault)
      | (with_reducible first | apply keeps_runOp)
      | (intro _)
      | split)

theorem keeps_execMoultSwap {z : State} (c : CoreId) (s : State)  (h : Keeps z s) : KeepsOut z (execMoultSwap c s) := by
  unfold execMoultSwap
  repeat' (first
      | (with_reducible assumption)
      | (with_reducible first | apply keepsOut_next | exact keepsOut_fault)
      | (with_reducible first | apply keeps_runOp)
      | (intro _)
      | split)

end Sys2Proof.Machine
end

