-- ==== Sys2Proof/Laws/Keeps/ScalarOps.lean ====
section
/-!
SUPPORT. What the functions of Machine/ScalarOps.lean keep (Safety.Keeps).
-/

set_option linter.unusedTactic false
set_option linter.unreachableTactic false

namespace Sys2Proof.Machine

theorem keeps_execRegisterResultLand {z : State} (c : CoreId) (e : EngId) (s : State)  (h : Keeps z s) : KeepsOut z (execRegisterResultLand c e s) := by
  unfold execRegisterResultLand
  repeat' (first
      | (with_reducible assumption)
      | (with_reducible first | apply keepsOut_next | exact keepsOut_fault)
      | ((try lift_lets -underBinder); intro x; refine (fun hx : Keeps z x => ?_) (?_ : Keeps z x); (on_goal 1 => clear_value x); (on_goal 2 => simp only [x]))
      | ((try lift_lets -underBinder); intro x; refine (fun hx : Keeps z x.1 => ?_) (?_ : Keeps z x.1); (on_goal 1 => clear_value x); (on_goal 2 => simp only [x]))
      | ((try lift_lets -underBinder); intro x; clear_value x)
      | (with_reducible first | apply keeps_advance | apply keeps_putCore)
      | (intro _)
      | split)

theorem keeps_execScratchpadStoreLand {z : State} (c : CoreId) (e : EngId) (s : State)  (h : Keeps z s) : KeepsOut z (execScratchpadStoreLand c e s) := by
  unfold execScratchpadStoreLand
  repeat' (first
      | (with_reducible assumption)
      | (with_reducible first | apply keepsOut_next | exact keepsOut_fault)
      | ((try lift_lets -underBinder); intro x; refine (fun hx : Keeps z x => ?_) (?_ : Keeps z x); (on_goal 1 => clear_value x); (on_goal 2 => simp only [x]))
      | ((try lift_lets -underBinder); intro x; refine (fun hx : Keeps z x.1 => ?_) (?_ : Keeps z x.1); (on_goal 1 => clear_value x); (on_goal 2 => simp only [x]))
      | ((try lift_lets -underBinder); intro x; clear_value x)
      | (with_reducible first | apply keeps_landStores | apply keeps_advance | apply keeps_putCore)
      | (with_reducible refine keeps_foldl _ _ _ ?_ ?_; (on_goal 1 => (intro _ _ _)))
      | (with_reducible refine keeps_foldl_fst _ _ _ ?_ ?_; (on_goal 1 => (intro _ _ _)))
      | (intro _)
      | split)

theorem keeps_execSxeAdd {z : State} (c : CoreId) (s : State)  (h : Keeps z s) : KeepsOut z (execSxeAdd c s) := by
  unfold execSxeAdd
  repeat' (first
      | (with_reducible assumption)
      | (with_reducible first | apply keepsOut_next | exact keepsOut_fault)
      | (with_reducible first | apply keeps_runOp)
      | (intro _)
      | split)

theorem keeps_execSxeAddi {z : State} (c : CoreId) (s : State)  (h : Keeps z s) : KeepsOut z (execSxeAddi c s) := by
  unfold execSxeAddi
  repeat' (first
      | (with_reducible assumption)
      | (with_reducible first | apply keepsOut_next | exact keepsOut_fault)
      | (with_reducible first | apply keeps_runOp)
      | (intro _)
      | split)

theorem keeps_execSxeAnd {z : State} (c : CoreId) (s : State)  (h : Keeps z s) : KeepsOut z (execSxeAnd c s) := by
  unfold execSxeAnd
  repeat' (first
      | (with_reducible assumption)
      | (with_reducible first | apply keepsOut_next | exact keepsOut_fault)
      | (with_reducible first | apply keeps_runOp)
      | (intro _)
      | split)

theorem keeps_execSxeBeq {z : State} (c : CoreId) (s : State)  (h : Keeps z s) : KeepsOut z (execSxeBeq c s) := by
  unfold execSxeBeq
  repeat' (first
      | (with_reducible assumption)
      | (with_reducible first | apply keepsOut_next | exact keepsOut_fault)
      | (with_reducible first | apply keeps_runOp)
      | (intro _)
      | split)

theorem keeps_execSxeBge {z : State} (c : CoreId) (s : State)  (h : Keeps z s) : KeepsOut z (execSxeBge c s) := by
  unfold execSxeBge
  repeat' (first
      | (with_reducible assumption)
      | (with_reducible first | apply keepsOut_next | exact keepsOut_fault)
      | (with_reducible first | apply keeps_runOp)
      | (intro _)
      | split)

theorem keeps_execSxeBgeu {z : State} (c : CoreId) (s : State)  (h : Keeps z s) : KeepsOut z (execSxeBgeu c s) := by
  unfold execSxeBgeu
  repeat' (first
      | (with_reducible assumption)
      | (with_reducible first | apply keepsOut_next | exact keepsOut_fault)
      | (with_reducible first | apply keeps_runOp)
      | (intro _)
      | split)

theorem keeps_execSxeBlt {z : State} (c : CoreId) (s : State)  (h : Keeps z s) : KeepsOut z (execSxeBlt c s) := by
  unfold execSxeBlt
  repeat' (first
      | (with_reducible assumption)
      | (with_reducible first | apply keepsOut_next | exact keepsOut_fault)
      | (with_reducible first | apply keeps_runOp)
      | (intro _)
      | split)

theorem keeps_execSxeBltu {z : State} (c : CoreId) (s : State)  (h : Keeps z s) : KeepsOut z (execSxeBltu c s) := by
  unfold execSxeBltu
  repeat' (first
      | (with_reducible assumption)
      | (with_reducible first | apply keepsOut_next | exact keepsOut_fault)
      | (with_reducible first | apply keeps_runOp)
      | (intro _)
      | split)

theorem keeps_execSxeBne {z : State} (c : CoreId) (s : State)  (h : Keeps z s) : KeepsOut z (execSxeBne c s) := by
  unfold execSxeBne
  repeat' (first
      | (with_reducible assumption)
      | (with_reducible first | apply keepsOut_next | exact keepsOut_fault)
      | (with_reducible first | apply keeps_runOp)
      | (intro _)
      | split)

theorem keeps_execSxeClz {z : State} (c : CoreId) (s : State)  (h : Keeps z s) : KeepsOut z (execSxeClz c s) := by
  unfold execSxeClz
  repeat' (first
      | (with_reducible assumption)
      | (with_reducible first | apply keepsOut_next | exact keepsOut_fault)
      | (with_reducible first | apply keeps_runOp)
      | (intro _)
      | split)

theorem keeps_execSxeCtz {z : State} (c : CoreId) (s : State)  (h : Keeps z s) : KeepsOut z (execSxeCtz c s) := by
  unfold execSxeCtz
  repeat' (first
      | (with_reducible assumption)
      | (with_reducible first | apply keepsOut_next | exact keepsOut_fault)
      | (with_reducible first | apply keeps_runOp)
      | (intro _)
      | split)

theorem keeps_execSxeImcopy {z : State} (c : CoreId) (s : State)  (h : Keeps z s) : KeepsOut z (execSxeImcopy c s) := by
  unfold execSxeImcopy
  repeat' (first
      | (with_reducible assumption)
      | (with_reducible first | apply keepsOut_next | exact keepsOut_fault)
      | (with_reducible first | apply keeps_runOp)
      | (intro _)
      | split)

theorem keeps_execSxeImcopyComplete {z : State} (c : CoreId) (s : State)  (h : Keeps z s) : KeepsOut z (execSxeImcopyComplete c s) := by
  unfold execSxeImcopyComplete
  repeat' (first
      | (with_reducible assumption)
      | (with_reducible first | apply keepsOut_next | exact keepsOut_fault)
      | ((try lift_lets -underBinder); intro x; refine (fun hx : Keeps z x => ?_) (?_ : Keeps z x); (on_goal 1 => clear_value x); (on_goal 2 => simp only [x]))
      | ((try lift_lets -underBinder); intro x; refine (fun hx : Keeps z x.1 => ?_) (?_ : Keeps z x.1); (on_goal 1 => clear_value x); (on_goal 2 => simp only [x]))
      | ((try lift_lets -underBinder); intro x; clear_value x)
      | (with_reducible first | apply keeps_advance | apply keeps_putEng | apply keeps_putInst)
      | (intro _)
      | split)

theorem keeps_execSxeLd {z : State} (c : CoreId) (s : State)  (h : Keeps z s) : KeepsOut z (execSxeLd c s) := by
  unfold execSxeLd
  repeat' (first
      | (with_reducible assumption)
      | (with_reducible first | apply keepsOut_next | exact keepsOut_fault)
      | (with_reducible first | apply keeps_runOp)
      | (intro _)
      | split)

theorem keeps_execSxeLi {z : State} (c : CoreId) (s : State)  (h : Keeps z s) : KeepsOut z (execSxeLi c s) := by
  unfold execSxeLi
  repeat' (first
      | (with_reducible assumption)
      | (with_reducible first | apply keepsOut_next | exact keepsOut_fault)
      | (with_reducible first | apply keeps_runOp)
      | (intro _)
      | split)

theorem keeps_execSxeMax {z : State} (c : CoreId) (s : State)  (h : Keeps z s) : KeepsOut z (execSxeMax c s) := by
  unfold execSxeMax
  repeat' (first
      | (with_reducible assumption)
      | (with_reducible first | apply keepsOut_next | exact keepsOut_fault)
      | (with_reducible first | apply keeps_runOp)
      | (intro _)
      | split)

theorem keeps_execSxeMaxu {z : State} (c : CoreId) (s : State)  (h : Keeps z s) : KeepsOut z (execSxeMaxu c s) := by
  unfold execSxeMaxu
  repeat' (first
      | (with_reducible assumption)
      | (with_reducible first | apply keepsOut_next | exact keepsOut_fault)
      | (with_reducible first | apply keeps_runOp)
      | (intro _)
      | split)

theorem keeps_execSxeMin {z : State} (c : CoreId) (s : State)  (h : Keeps z s) : KeepsOut z (execSxeMin c s) := by
  unfold execSxeMin
  repeat' (first
      | (with_reducible assumption)
      | (with_reducible first | apply keepsOut_next | exact keepsOut_fault)
      | (with_reducible first | apply keeps_runOp)
      | (intro _)
      | split)

theorem keeps_execSxeMinu {z : State} (c : CoreId) (s : State)  (h : Keeps z s) : KeepsOut z (execSxeMinu c s) := by
  unfold execSxeMinu
  repeat' (first
      | (with_reducible assumption)
      | (with_reducible first | apply keepsOut_next | exact keepsOut_fault)
      | (with_reducible first | apply keeps_runOp)
      | (intro _)
      | split)

theorem keeps_execSxeMul {z : State} (c : CoreId) (s : State)  (h : Keeps z s) : KeepsOut z (execSxeMul c s) := by
  unfold execSxeMul
  repeat' (first
      | (with_reducible assumption)
      | (with_reducible first | apply keepsOut_next | exact keepsOut_fault)
      | (with_reducible first | apply keeps_runOp)
      | (intro _)
      | split)

theorem keeps_execSxeOr {z : State} (c : CoreId) (s : State)  (h : Keeps z s) : KeepsOut z (execSxeOr c s) := by
  unfold execSxeOr
  repeat' (first
      | (with_reducible assumption)
      | (with_reducible first | apply keepsOut_next | exact keepsOut_fault)
      | (with_reducible first | apply keeps_runOp)
      | (intro _)
      | split)

theorem keeps_execSxePopc {z : State} (c : CoreId) (s : State)  (h : Keeps z s) : KeepsOut z (execSxePopc c s) := by
  unfold execSxePopc
  repeat' (first
      | (with_reducible assumption)
      | (with_reducible first | apply keepsOut_next | exact keepsOut_fault)
      | (with_reducible first | apply keeps_runOp)
      | (intro _)
      | split)

theorem keeps_execSxeSar {z : State} (c : CoreId) (s : State)  (h : Keeps z s) : KeepsOut z (execSxeSar c s) := by
  unfold execSxeSar
  repeat' (first
      | (with_reducible assumption)
      | (with_reducible first | apply keepsOut_next | exact keepsOut_fault)
      | (with_reducible first | apply keeps_runOp)
      | (intro _)
      | split)

theorem keeps_execSxeShl {z : State} (c : CoreId) (s : State)  (h : Keeps z s) : KeepsOut z (execSxeShl c s) := by
  unfold execSxeShl
  repeat' (first
      | (with_reducible assumption)
      | (with_reducible first | apply keepsOut_next | exact keepsOut_fault)
      | (with_reducible first | apply keeps_runOp)
      | (intro _)
      | split)

theorem keeps_execSxeShr {z : State} (c : CoreId) (s : State)  (h : Keeps z s) : KeepsOut z (execSxeShr c s) := by
  unfold execSxeShr
  repeat' (first
      | (with_reducible assumption)
      | (with_reducible first | apply keepsOut_next | exact keepsOut_fault)
      | (with_reducible first | apply keeps_runOp)
      | (intro _)
      | split)

theorem keeps_execSxeSlt {z : State} (c : CoreId) (s : State)  (h : Keeps z s) : KeepsOut z (execSxeSlt c s) := by
  unfold execSxeSlt
  repeat' (first
      | (with_reducible assumption)
      | (with_reducible first | apply keepsOut_next | exact keepsOut_fault)
      | (with_reducible first | apply keeps_runOp)
      | (intro _)
      | split)

theorem keeps_execSxeSltu {z : State} (c : CoreId) (s : State)  (h : Keeps z s) : KeepsOut z (execSxeSltu c s) := by
  unfold execSxeSltu
  repeat' (first
      | (with_reducible assumption)
      | (with_reducible first | apply keepsOut_next | exact keepsOut_fault)
      | (with_reducible first | apply keeps_runOp)
      | (intro _)
      | split)

theorem keeps_execSxeSt {z : State} (c : CoreId) (s : State)  (h : Keeps z s) : KeepsOut z (execSxeSt c s) := by
  unfold execSxeSt
  repeat' (first
      | (with_reducible assumption)
      | (with_reducible first | apply keepsOut_next | exact keepsOut_fault)
      | (with_reducible first | apply keeps_runOp)
      | (intro _)
      | split)

theorem keeps_execSxeSub {z : State} (c : CoreId) (s : State)  (h : Keeps z s) : KeepsOut z (execSxeSub c s) := by
  unfold execSxeSub
  repeat' (first
      | (with_reducible assumption)
      | (with_reducible first | apply keepsOut_next | exact keepsOut_fault)
      | (with_reducible first | apply keeps_runOp)
      | (intro _)
      | split)

theorem keeps_execSxeXor {z : State} (c : CoreId) (s : State)  (h : Keeps z s) : KeepsOut z (execSxeXor c s) := by
  unfold execSxeXor
  repeat' (first
      | (with_reducible assumption)
      | (with_reducible first | apply keepsOut_next | exact keepsOut_fault)
      | (with_reducible first | apply keeps_runOp)
      | (intro _)
      | split)

end Sys2Proof.Machine
end

