-- ==== Sys2Proof/Laws/Keeps/VectorOps.lean ====
section
/-!
SUPPORT. What the functions of Machine/VectorOps.lean keep (Safety.Keeps).
-/

set_option linter.unusedTactic false
set_option linter.unreachableTactic false

namespace Sys2Proof.Machine

theorem keeps_execVxeAbs {z : State} (c : CoreId) (s : State)  (h : Keeps z s) : KeepsOut z (execVxeAbs c s) := by
  unfold execVxeAbs
  repeat' (first
      | (with_reducible assumption)
      | (with_reducible first | apply keepsOut_next | exact keepsOut_fault)
      | (with_reducible first | apply keeps_runOp)
      | (intro _)
      | split)

theorem keeps_execVxeAdd {z : State} (c : CoreId) (s : State)  (h : Keeps z s) : KeepsOut z (execVxeAdd c s) := by
  unfold execVxeAdd
  repeat' (first
      | (with_reducible assumption)
      | (with_reducible first | apply keepsOut_next | exact keepsOut_fault)
      | (with_reducible first | apply keeps_runOp)
      | (intro _)
      | split)

theorem keeps_execVxeAnd {z : State} (c : CoreId) (s : State)  (h : Keeps z s) : KeepsOut z (execVxeAnd c s) := by
  unfold execVxeAnd
  repeat' (first
      | (with_reducible assumption)
      | (with_reducible first | apply keepsOut_next | exact keepsOut_fault)
      | (with_reducible first | apply keeps_runOp)
      | (intro _)
      | split)

theorem keeps_execVxeCmpeq {z : State} (c : CoreId) (s : State)  (h : Keeps z s) : KeepsOut z (execVxeCmpeq c s) := by
  unfold execVxeCmpeq
  repeat' (first
      | (with_reducible assumption)
      | (with_reducible first | apply keepsOut_next | exact keepsOut_fault)
      | (with_reducible first | apply keeps_runOp)
      | (intro _)
      | split)

theorem keeps_execVxeCmple {z : State} (c : CoreId) (s : State)  (h : Keeps z s) : KeepsOut z (execVxeCmple c s) := by
  unfold execVxeCmple
  repeat' (first
      | (with_reducible assumption)
      | (with_reducible first | apply keepsOut_next | exact keepsOut_fault)
      | (with_reducible first | apply keeps_runOp)
      | (intro _)
      | split)

theorem keeps_execVxeCmplt {z : State} (c : CoreId) (s : State)  (h : Keeps z s) : KeepsOut z (execVxeCmplt c s) := by
  unfold execVxeCmplt
  repeat' (first
      | (with_reducible assumption)
      | (with_reducible first | apply keepsOut_next | exact keepsOut_fault)
      | (with_reducible first | apply keeps_runOp)
      | (intro _)
      | split)

theorem keeps_execVxeCmpne {z : State} (c : CoreId) (s : State)  (h : Keeps z s) : KeepsOut z (execVxeCmpne c s) := by
  unfold execVxeCmpne
  repeat' (first
      | (with_reducible assumption)
      | (with_reducible first | apply keepsOut_next | exact keepsOut_fault)
      | (with_reducible first | apply keeps_runOp)
      | (intro _)
      | split)

theorem keeps_execVxeCvt {z : State} (c : CoreId) (s : State)  (h : Keeps z s) : KeepsOut z (execVxeCvt c s) := by
  unfold execVxeCvt
  repeat' (first
      | (with_reducible assumption)
      | (with_reducible first | apply keepsOut_next | exact keepsOut_fault)
      | (with_reducible first | apply keeps_runOp)
      | (intro _)
      | split)

theorem keeps_execVxeDiv {z : State} (c : CoreId) (s : State)  (h : Keeps z s) : KeepsOut z (execVxeDiv c s) := by
  unfold execVxeDiv
  repeat' (first
      | (with_reducible assumption)
      | (with_reducible first | apply keepsOut_next | exact keepsOut_fault)
      | (with_reducible first | apply keeps_runOp)
      | (intro _)
      | split)

theorem keeps_execVxeExp {z : State} (c : CoreId) (s : State)  (h : Keeps z s) : KeepsOut z (execVxeExp c s) := by
  unfold execVxeExp
  repeat' (first
      | (with_reducible assumption)
      | (with_reducible first | apply keepsOut_next | exact keepsOut_fault)
      | (with_reducible first | apply keeps_runOp)
      | (intro _)
      | split)

theorem keeps_execVxeFma {z : State} (c : CoreId) (s : State)  (h : Keeps z s) : KeepsOut z (execVxeFma c s) := by
  unfold execVxeFma
  repeat' (first
      | (with_reducible assumption)
      | (with_reducible first | apply keepsOut_next | exact keepsOut_fault)
      | (with_reducible first | apply keeps_runOp)
      | (intro _)
      | split)

theorem keeps_execVxeIota {z : State} (c : CoreId) (s : State)  (h : Keeps z s) : KeepsOut z (execVxeIota c s) := by
  unfold execVxeIota
  repeat' (first
      | (with_reducible assumption)
      | (with_reducible first | apply keepsOut_next | exact keepsOut_fault)
      | (with_reducible first | apply keeps_runOp)
      | (intro _)
      | split)

theorem keeps_execVxeLd {z : State} (c : CoreId) (s : State)  (h : Keeps z s) : KeepsOut z (execVxeLd c s) := by
  unfold execVxeLd
  repeat' (first
      | (with_reducible assumption)
      | (with_reducible first | apply keepsOut_next | exact keepsOut_fault)
      | (with_reducible first | apply keeps_runOp)
      | (intro _)
      | split)

theorem keeps_execVxeMax {z : State} (c : CoreId) (s : State)  (h : Keeps z s) : KeepsOut z (execVxeMax c s) := by
  unfold execVxeMax
  repeat' (first
      | (with_reducible assumption)
      | (with_reducible first | apply keepsOut_next | exact keepsOut_fault)
      | (with_reducible first | apply keeps_runOp)
      | (intro _)
      | split)

theorem keeps_execVxeMin {z : State} (c : CoreId) (s : State)  (h : Keeps z s) : KeepsOut z (execVxeMin c s) := by
  unfold execVxeMin
  repeat' (first
      | (with_reducible assumption)
      | (with_reducible first | apply keepsOut_next | exact keepsOut_fault)
      | (with_reducible first | apply keeps_runOp)
      | (intro _)
      | split)

theorem keeps_execVxeMovi {z : State} (c : CoreId) (s : State)  (h : Keeps z s) : KeepsOut z (execVxeMovi c s) := by
  unfold execVxeMovi
  repeat' (first
      | (with_reducible assumption)
      | (with_reducible first | apply keepsOut_next | exact keepsOut_fault)
      | (with_reducible first | apply keeps_runOp)
      | (intro _)
      | split)

theorem keeps_execVxeMul {z : State} (c : CoreId) (s : State)  (h : Keeps z s) : KeepsOut z (execVxeMul c s) := by
  unfold execVxeMul
  repeat' (first
      | (with_reducible assumption)
      | (with_reducible first | apply keepsOut_next | exact keepsOut_fault)
      | (with_reducible first | apply keeps_runOp)
      | (intro _)
      | split)

theorem keeps_execVxeNeg {z : State} (c : CoreId) (s : State)  (h : Keeps z s) : KeepsOut z (execVxeNeg c s) := by
  unfold execVxeNeg
  repeat' (first
      | (with_reducible assumption)
      | (with_reducible first | apply keepsOut_next | exact keepsOut_fault)
      | (with_reducible first | apply keeps_runOp)
      | (intro _)
      | split)

theorem keeps_execVxeOr {z : State} (c : CoreId) (s : State)  (h : Keeps z s) : KeepsOut z (execVxeOr c s) := by
  unfold execVxeOr
  repeat' (first
      | (with_reducible assumption)
      | (with_reducible first | apply keepsOut_next | exact keepsOut_fault)
      | (with_reducible first | apply keeps_runOp)
      | (intro _)
      | split)

theorem keeps_execVxePerm {z : State} (c : CoreId) (s : State)  (h : Keeps z s) : KeepsOut z (execVxePerm c s) := by
  unfold execVxePerm
  repeat' (first
      | (with_reducible assumption)
      | (with_reducible first | apply keepsOut_next | exact keepsOut_fault)
      | (with_reducible first | apply keeps_runOp)
      | (intro _)
      | split)

theorem keeps_execVxePopc {z : State} (c : CoreId) (s : State)  (h : Keeps z s) : KeepsOut z (execVxePopc c s) := by
  unfold execVxePopc
  repeat' (first
      | (with_reducible assumption)
      | (with_reducible first | apply keepsOut_next | exact keepsOut_fault)
      | (with_reducible first | apply keeps_runOp)
      | (intro _)
      | split)

theorem keeps_execVxeRedadd {z : State} (c : CoreId) (s : State)  (h : Keeps z s) : KeepsOut z (execVxeRedadd c s) := by
  unfold execVxeRedadd
  repeat' (first
      | (with_reducible assumption)
      | (with_reducible first | apply keepsOut_next | exact keepsOut_fault)
      | (with_reducible first | apply keeps_runOp)
      | (intro _)
      | split)

theorem keeps_execVxeRedmax {z : State} (c : CoreId) (s : State)  (h : Keeps z s) : KeepsOut z (execVxeRedmax c s) := by
  unfold execVxeRedmax
  repeat' (first
      | (with_reducible assumption)
      | (with_reducible first | apply keepsOut_next | exact keepsOut_fault)
      | (with_reducible first | apply keeps_runOp)
      | (intro _)
      | split)

theorem keeps_execVxeRedmin {z : State} (c : CoreId) (s : State)  (h : Keeps z s) : KeepsOut z (execVxeRedmin c s) := by
  unfold execVxeRedmin
  repeat' (first
      | (with_reducible assumption)
      | (with_reducible first | apply keepsOut_next | exact keepsOut_fault)
      | (with_reducible first | apply keeps_runOp)
      | (intro _)
      | split)

theorem keeps_execVxeSar {z : State} (c : CoreId) (s : State)  (h : Keeps z s) : KeepsOut z (execVxeSar c s) := by
  unfold execVxeSar
  repeat' (first
      | (with_reducible assumption)
      | (with_reducible first | apply keepsOut_next | exact keepsOut_fault)
      | (with_reducible first | apply keeps_runOp)
      | (intro _)
      | split)

theorem keeps_execVxeSel {z : State} (c : CoreId) (s : State)  (h : Keeps z s) : KeepsOut z (execVxeSel c s) := by
  unfold execVxeSel
  repeat' (first
      | (with_reducible assumption)
      | (with_reducible first | apply keepsOut_next | exact keepsOut_fault)
      | (with_reducible first | apply keeps_runOp)
      | (intro _)
      | split)

theorem keeps_execVxeShl {z : State} (c : CoreId) (s : State)  (h : Keeps z s) : KeepsOut z (execVxeShl c s) := by
  unfold execVxeShl
  repeat' (first
      | (with_reducible assumption)
      | (with_reducible first | apply keepsOut_next | exact keepsOut_fault)
      | (with_reducible first | apply keeps_runOp)
      | (intro _)
      | split)

theorem keeps_execVxeShr {z : State} (c : CoreId) (s : State)  (h : Keeps z s) : KeepsOut z (execVxeShr c s) := by
  unfold execVxeShr
  repeat' (first
      | (with_reducible assumption)
      | (with_reducible first | apply keepsOut_next | exact keepsOut_fault)
      | (with_reducible first | apply keeps_runOp)
      | (intro _)
      | split)

theorem keeps_execVxeSqrt {z : State} (c : CoreId) (s : State)  (h : Keeps z s) : KeepsOut z (execVxeSqrt c s) := by
  unfold execVxeSqrt
  repeat' (first
      | (with_reducible assumption)
      | (with_reducible first | apply keepsOut_next | exact keepsOut_fault)
      | (with_reducible first | apply keeps_runOp)
      | (intro _)
      | split)

theorem keeps_execVxeSt {z : State} (c : CoreId) (s : State)  (h : Keeps z s) : KeepsOut z (execVxeSt c s) := by
  unfold execVxeSt
  repeat' (first
      | (with_reducible assumption)
      | (with_reducible first | apply keepsOut_next | exact keepsOut_fault)
      | (with_reducible first | apply keeps_runOp)
      | (intro _)
      | split)

theorem keeps_execVxeSub {z : State} (c : CoreId) (s : State)  (h : Keeps z s) : KeepsOut z (execVxeSub c s) := by
  unfold execVxeSub
  repeat' (first
      | (with_reducible assumption)
      | (with_reducible first | apply keepsOut_next | exact keepsOut_fault)
      | (with_reducible first | apply keeps_runOp)
      | (intro _)
      | split)

theorem keeps_execVxeTeval {z : State} (c : CoreId) (s : State)  (h : Keeps z s) : KeepsOut z (execVxeTeval c s) := by
  unfold execVxeTeval
  repeat' (first
      | (with_reducible assumption)
      | (with_reducible first | apply keepsOut_next | exact keepsOut_fault)
      | (with_reducible first | apply keeps_runOp)
      | (intro _)
      | split)

theorem keeps_execVxeTload {z : State} (c : CoreId) (s : State)  (h : Keeps z s) : KeepsOut z (execVxeTload c s) := by
  unfold execVxeTload
  repeat' (first
      | (with_reducible assumption)
      | (with_reducible first | apply keepsOut_next | exact keepsOut_fault)
      | (with_reducible first | apply keeps_runOp)
      | (intro _)
      | split)

theorem keeps_execVxeTloadComplete {z : State} (c : CoreId) (s : State)  (h : Keeps z s) : KeepsOut z (execVxeTloadComplete c s) := by
  unfold execVxeTloadComplete
  repeat' (first
      | (with_reducible assumption)
      | (with_reducible first | apply keepsOut_next | exact keepsOut_fault)
      | ((try lift_lets -underBinder); intro x; refine (fun hx : Keeps z x => ?_) (?_ : Keeps z x); (on_goal 1 => clear_value x); (on_goal 2 => simp only [x]))
      | ((try lift_lets -underBinder); intro x; refine (fun hx : Keeps z x.1 => ?_) (?_ : Keeps z x.1); (on_goal 1 => clear_value x); (on_goal 2 => simp only [x]))
      | ((try lift_lets -underBinder); intro x; clear_value x)
      | (with_reducible first | apply keeps_advance | apply keeps_putInst | apply keeps_putCore | apply keeps_ite | apply keeps_ite_fst)
      | (intro _)
      | split)

theorem keeps_execVxeUnpk {z : State} (c : CoreId) (s : State)  (h : Keeps z s) : KeepsOut z (execVxeUnpk c s) := by
  unfold execVxeUnpk
  repeat' (first
      | (with_reducible assumption)
      | (with_reducible first | apply keepsOut_next | exact keepsOut_fault)
      | (with_reducible first | apply keeps_runOp)
      | (intro _)
      | split)

theorem keeps_execVxeXor {z : State} (c : CoreId) (s : State)  (h : Keeps z s) : KeepsOut z (execVxeXor c s) := by
  unfold execVxeXor
  repeat' (first
      | (with_reducible assumption)
      | (with_reducible first | apply keepsOut_next | exact keepsOut_fault)
      | (with_reducible first | apply keeps_runOp)
      | (intro _)
      | split)

end Sys2Proof.Machine
end

