-- ==== Sys2Proof/Tests/Base.lean ====
section
/-!
SUPPORT. Small states for the tests, and the situations of the statements as checks that Lean can evaluate.
-/

namespace Sys2Proof.Tests

-- one test at a time: the kernel evaluates each, and their threads would add up
set_option Elab.async false

open Sys2Proof Sys2Proof.Machine

/-- A device that is READY: section 0 with its stack READY makes slice 0, which is OPEN; the a-clock runs. -/
def dev : State :=
  let s : State := { State.reset with fw := { State.reset.fw with phase := .ready }, bootCount := 1 }
  let s := rsetf (rsetf s .bootStatus 0 0 1) .bootStatus 47 40 2
  let s := rsetf (rput s (.sectmap 0) 0x80) (.mcState 0) 63 60 2
  rsetf (setSliceState s 0 2) .clkState 63 54 800

/-- An instruction word: OPC, LD and the bits below. -/
def word (op ld rest : Nat) : W128 := BitVec.ofNat 128 (op * 2 ^ 120 + ld * 2 ^ 115 + rest)

/-- Entry 1 of a loop-descriptor file: every region readable and writable, six counts of 1, increments of 0. -/
def openEntry : Tab Byte :=
  (List.range 16).map (fun i => (128 + i, 0xFF)) ++ (List.range 6).map fun l => (144 + 4 * l, 1)

/-- The device with the word at the head of an engine of core 0, which runs. -/
def headed (e : EngId) (w : W128) (s : State) : State :=
  putEng s 0 e { getEng s 0 e with mode := .running, queue := [⟨w, false⟩], fetchAt := 100, ldf := openEntry }

/-- Does the word at the head of an engine of core 0 execute normally? -/
def runs (s : State) (e : EngId) (w : W128) : Bool :=
  match headOf s 0 e with
  | some (t, q, g) => q == ⟨w, false⟩ && !heldAtDispatch s 0 e w && g.step == .off &&
      (match checkWord (advance (putEng s 0 e g) t) 0 e t ⟨w, false⟩ with | .pass _ => true | _ => false)
  | none => false

theorem runs_executes {s : State} {e : EngId} {w : W128} (h : runs s e w = true) : ∃ t d g, Executes s 0 e w t d g := by
  unfold runs at h
  split at h
  · rename_i t q g hh
    simp only [Bool.and_eq_true, beq_iff_eq, Bool.not_eq_true'] at h
    obtain ⟨⟨⟨hq, hd⟩, hs⟩, hc⟩ := h
    subst hq
    split at hc
    · rename_i d hp
      exact ⟨t, d, g, ⟨hh, hd, hp, hs⟩⟩
    · cases hc
  · cases h

/-- The engines. -/
def engs : List EngId := [.mxe, .vxe, .sxe, .dxe, .mle]

/-- Has core 0 nothing dispatched, and is each engine HALTED or RUNNING? -/
def calm (s : State) : Bool := (getCore s 0).insts.isEmpty && engs.all fun e => (getEng s 0 e).mode == .halted || (getEng s 0 e).mode == .running

theorem calm_core {s : State} (h : calm s = true) : CalmCore s 0 := by
  simp only [calm, Bool.and_eq_true, List.isEmpty_iff, List.all_eq_true, engs, List.mem_cons, List.not_mem_nil, or_false,
    Bool.or_eq_true, beq_iff_eq] at h
  exact ⟨h.1, fun e => h.2 e (by cases e <;> simp)⟩

theorem calm_still {s : State} (h : calm s = true) : StillCore s 0 := by
  have k := calm_core h
  exact ⟨fun i hi => by rw [k.insts] at hi; simp at hi, k.modes⟩

/-- Has core 0 nothing waiting to follow? -/
def still (s : State) : Bool :=
  (getCore s 0).insts.all (fun i => i.begun && (i.finished || (match i.prog with | .dxe _ => false | _ => true))) &&
    engs.all fun e => (getEng s 0 e).mode == .halted || (getEng s 0 e).mode == .running

theorem still_core {s : State} (h : still s = true) : StillCore s 0 := by
  simp only [still, Bool.and_eq_true, List.all_eq_true, engs, List.mem_cons, List.not_mem_nil, or_false, Bool.or_eq_true,
    beq_iff_eq] at h
  refine ⟨fun i hi => ⟨(h.1 i hi).1, fun hf n hn => ?_⟩, fun e => h.2 e (by cases e <;> simp)⟩
  have := (h.1 i hi).2
  rw [hf, hn] at this
  simp at this

/-- Is nothing of engine e of core 0 outstanding but the full/empty operations listed? -/
def idleWith (s : State) (e : EngId) (ops : List FeOp) : Bool :=
  let k := getCore s 0
  calm s && (getEng s 0 e).mode == .running && (getEng s 0 e).closing.isNone && k.stores.isEmpty && k.semOps.isEmpty && k.tasks.isEmpty &&
    k.sabort.isEmpty && s.feOps.filter (feOfEng 0 e) == ops

theorem idle_engine {s : State} {e : EngId} {ops : List FeOp} (h : idleWith s e ops = true) : IdleEngine s 0 e ops := by
  simp only [idleWith, Bool.and_eq_true, beq_iff_eq, List.isEmpty_iff, Option.isNone_iff_eq_none] at h
  obtain ⟨⟨⟨⟨⟨⟨⟨hc, hr⟩, ho⟩, hs⟩, hm⟩, ht⟩, ha⟩, hf⟩ := h
  have k := calm_core hc
  exact ⟨k.insts, k.modes, hr, ho, hs, hm, fun st => ⟨by simp [taskOf, ht, tget], by simp [streamAborting, ha, tget]⟩, hf⟩

/-- Is the word at the head of an idle engine of core 0, defined and held by nothing, and does f hold of its a-cycle and loop descriptor? -/
def alone (s : State) (e : EngId) (w : W128) (f : Nat → LoopDesc → Bool) : Bool :=
  match headOf s 0 e with
  | some (t, q, g) => q == ⟨w, false⟩ && !heldAtDispatch s 0 e w && (opDefined e (opc w) && fieldsOk e w) && idleWith s e [] &&
      (match ldEntry g (ldOf w) with | some d => f t d | none => false)
  | none => false

theorem at_alone {s : State} {e : EngId} {w : W128} {f : Nat → LoopDesc → Bool} (h : alone s e w f = true) :
    ∃ t d g, AtHeadAlone s 0 e w t d g ∧ f t d = true := by
  unfold alone at h
  split at h
  · rename_i t q g hh
    simp only [Bool.and_eq_true, beq_iff_eq, Bool.not_eq_true'] at h
    obtain ⟨⟨⟨⟨hq, hd⟩, hk⟩, hi⟩, hl⟩ := h
    subst hq
    split at hl
    · rename_i d hp
      exact ⟨t, d, g, ⟨hh, hd, hk, hp, idle_engine hi⟩, hl⟩
    · cases hl
  · cases h

/-- Does a function of a ready device reach a register? -/
def host (s : State) (f : FuncId) (r : Reg) : Bool := funcExists s f && hubReady s && reaches s f (regOff r) true

theorem host_ok {s : State} {f : FuncId} {r : Reg} (h : host s f r = true) : HostOk s f r := by
  simp only [host, Bool.and_eq_true] at h
  exact ⟨h.1.1, h.1.2, h.2⟩

/-- Has the turn of a packet of opcode op with number id come? -/
def turn (s : State) (id op : Nat) (t : Taken) : Bool :=
  getTaken s id == some t && pkOp t.bytes == op && !t.begun && hubReady s && turnOf s t == .go

theorem turn_come {s : State} {id op : Nat} {t : Taken} (h : turn s id op t = true) : TurnCome s id op t := by
  simp only [turn, Bool.and_eq_true, beq_iff_eq, Bool.not_eq_true'] at h
  exact ⟨h.1.1.1.1, h.1.1.1.2, h.1.1.2, h.1.2, h.2⟩

/-- Is there room for a reply? -/
def room (s : State) (f : FuncId) (r : Fin 4) : Bool := s.mp.replies.isEmpty && cqRoom s f r

theorem room_free {s : State} {f : FuncId} {r : Fin 4} (h : room s f r = true) : CqFree s f r := by
  simp only [room, Bool.and_eq_true, List.isEmpty_iff] at h
  exact ⟨h.1, h.2⟩

end Sys2Proof.Tests
end

