-- ==== Sys2Proof/Tests/Cores.lean ====
section
/-!
SUPPORT. Witnesses of the statements about instructions at dispatch: for each, a core in which the hypotheses hold.
-/

namespace Sys2Proof.Tests

-- one test at a time: the kernel evaluates each, and their threads would add up
set_option Elab.async false

open Sys2Proof Sys2Proof.Machine

/-- A word at the head of an otherwise idle engine of core 0. -/
def one (e : EngId) (w : W128) : State := headed e w dev

/-- In a calm core the word executes normally. -/
def Fits (s : State) (e : EngId) (w : W128) : Prop := CalmCore s 0 ∧ StillCore s 0 ∧ s.ecc = [] ∧ ∃ t d g, Executes s 0 e w t d g

theorem fits {s : State} {e : EngId} {w : W128} (h : (calm s && s.ecc.isEmpty && runs s e w) = true) : Fits s e w := by
  simp only [Bool.and_eq_true, List.isEmpty_iff] at h
  exact ⟨calm_core h.1.1, calm_still h.1.1, h.1.2, runs_executes h.2⟩

/-- Words that fit one after the other. -/
theorem fits_all {e : EngId} {ws : List W128} (h : (ws.all fun w => calm (one e w) && (one e w).ecc.isEmpty && runs (one e w) e w) = true) :
    ∀ w ∈ ws, Fits (one e w) e w := fun w hw => fits (List.all_eq_true.1 h w hw)

/-! Common operations (R195 to R198): LOCAL words at offset 64, targets 2,047, counter 255. -/

theorem witness_common : ∀ w ∈ [word 0x00 0 0, word 0x01 0 2047, word 0x03 0 2047, word 0x05 0 0, word 0x04 0 (31 * 2 ^ 110 + 63 * 2 ^ 99 + 65534)],
    Fits (one .sxe w) .sxe w := fits_all (by decide +kernel)

theorem witness_fullEmpty : ∀ w ∈ [0x08, 0x09, 0x0A, 0x0B, 0x02].map (fun o => word o 0 (2 ^ 114 + 64 * 2 ^ 64)), Fits (one .vxe w) .vxe w :=
  fits_all (by decide +kernel)

theorem witness_semaphores : ∀ w ∈ [0x0C, 0x0D, 0x0E].map (fun o => word o 0 (255 * 2 ^ 107 + 65535)), Fits (one .dxe w) .dxe w :=
  fits_all (by decide +kernel)

/-- A FILL of a word of the section's stack in a sync window is remote. -/
theorem witness_remoteFill :
    let s := rput (one .sxe (word 0x08 0 0)) (.syncWin 0) (BitVec.ofNat 64 (2 ^ 63 + 2 ^ 32))
    Fits s .sxe (word 0x08 0 0) := fits (by decide +kernel)

/-- BANKSW with an instruction of the other bank in the core waits; a closed bank becomes the active one. -/
theorem witness_bankClosed :
    let s := putEng dev 0 .mle { getEng dev 0 .mle with mode := .running, closing := some 7 }
    StillCore s 0 ∧ (getEng s 0 .mle).closing = some 7 ∧ bankPending (getCore s 0) .mle (!(getEng s 0 .mle).bank) = false :=
  ⟨still_core (by decide +kernel), by decide +kernel, by decide +kernel⟩

/-- A FILL, a branch and a load and store of the SXE that name register 3 of pipe 0, whose flag is set. -/
theorem witness_poisonedRegister :
    let bad (w : W128) : State := let s := one .sxe w; putCore s 0 { getCore s 0 with xregs := [(3, ⟨5, true⟩)] }
    let fill := word 0x08 0 (2 ^ 114 + 2 ^ 113 + 3 * 2 ^ 108 + 64 * 2 ^ 64)
    (∃ t d g, AtHeadAlone (bad fill) 0 .sxe fill t d g ∧ (commonCheck .sxe fill == none && feXr fill &&
      (xregAt (getCore (bad fill) 0) t 0 (feXreg fill)).p) = true) ∧
    (let w := word 0x60 0 (2 ^ 107 + 3 * 2 ^ 97)
     ∃ t d g, AtHeadAlone (bad w) 0 .sxe w t d g ∧ (sxeConsistent d w && (xregAt (getCore (bad w) 0) t 0 (xXa w)).p) = true) ∧
    (let w := word 0x58 1 (2 ^ 107 + 3 * 2 ^ 97)
     ∃ t d g, AtHeadAlone (bad w) 0 .sxe w t d g ∧ (sxeConsistent d w && (pipesOf w).any (fun p => (xregAt (getCore (bad w) 0) t p (xXa w)).p)) = true) ∧
    (let w := word 0x59 1 (2 ^ 107 + 3 * 2 ^ 97)
     ∃ t d g, AtHeadAlone (bad w) 0 .sxe w t d g ∧ (sxeConsistent d w && (pipesOf w).any (fun p => (xregAt (getCore (bad w) 0) t p (xXa w)).p)) = true) :=
  ⟨at_alone (by decide +kernel), at_alone (by decide +kernel), at_alone (by decide +kernel), at_alone (by decide +kernel)⟩

/-! VXE (R204 to R209). -/

theorem witness_vxeTwoSource : ∀ w ∈ ([0x40, 0x41, 0x42, 0x44, 0x45, 0x48, 0x49, 0x4A, 0x4B, 0x59].map fun o => word o 1 0) ++
    [0x50, 0x51, 0x52, 0x53, 0x54, 0x55].map (fun o => word o 1 (2 ^ 114)), Fits (one .vxe w) .vxe w := fits_all (by decide +kernel)

theorem witness_vxeOther : ∀ w ∈ ([0x43, 0x4C, 0x46, 0x47, 0x58, 0x5A, 0x5B, 0x60, 0x61, 0x64, 0x65, 0x66, 0x68, 0x6C].map fun o => word o 0 0) ++
    [0x67, 0x6D].map (fun o => word o 0 (2 ^ 114)), Fits (one .vxe w) .vxe w := fits_all (by decide +kernel)

/-- VXE.LD and VXE.ST reach the last 4,096 bytes below BASE's limit; VXE.TLOAD names slot 63. -/
theorem witness_vxeMemory : ∀ w ∈ [word 0x70 1 (65472 / 64 * 64 * 2 ^ 48), word 0x71 1 0, word 0x72 1 (63 * 2 ^ 84)],
    Fits (one .vxe w) .vxe w := fits_all (by decide +kernel)

/-- A calm core whose one instruction is begun. -/
def oneInst (i : Inst) : State := putCore dev 0 { getCore dev 0 with insts := [i] }

/-- An instruction of an engine, begun and not finished, with its program. -/
def inst (e : EngId) (w : W128) (p : Prog) : Inst :=
  ⟨5, e, w, false, 3, loopOne, 0, 0, true, [], true, 0, 4, p, false⟩

theorem witness_tloadComplete : (getCore (oneInst (inst .vxe (word 0x72 1 0) (.tload 63 slotReset false))) 0).insts =
    [inst .vxe (word 0x72 1 0) (.tload 63 slotReset false)] := rfl

/-! SXE (R210 to R213): pipes 0 and 7. -/

theorem witness_sxeRegister : ∀ w ∈ [0x40, 0x41, 0x42, 0x43, 0x44, 0x45, 0x46, 0x47, 0x48, 0x49, 0x4A, 0x4B, 0x4C, 0x4D, 0x4E, 0x50, 0x51,
    0x52, 0x53, 0x54].map (fun o => word o 1 (129 * 2 ^ 107)), Fits (one .sxe w) .sxe w := fits_all (by decide +kernel)

theorem witness_sxeBranch : (∀ w ∈ [0x60, 0x61, 0x62, 0x63, 0x64, 0x65].map (fun o => word o 0 (2 ^ 107 + 2047)), Fits (one .sxe w) .sxe w) ∧
    latcheck (one .sxe (word 0x60 0 (2 ^ 107 + 2047))) 0 .sxe ≠ 2 := ⟨fits_all (by decide +kernel), by decide +kernel⟩

theorem witness_sxeMemory : ∀ w ∈ [word 0x58 1 (129 * 2 ^ 107 + 4194296), word 0x59 1 (129 * 2 ^ 107), word 0x68 1 (2 ^ 107)],
    Fits (one .sxe w) .sxe w := fits_all (by decide +kernel)

/-- SXE.IMCOPY into the active bank of a running engine finds it busy; into the other bank it does not. -/
theorem witness_imcopyBanks :
    let s := one .sxe (word 0x68 1 (2 ^ 107 + 2 * 2 ^ 89))
    bankBusy (getEng s 0 .sxe) false = true ∧ bankBusy (getEng s 0 .sxe) true = false := by decide +kernel

/-! Moult (R138 to R143). -/

/-- Core 0 with contexts 0 (PRUNE) and 1 (GROW) armed on one block. -/
def armed (s : State) : State :=
  putCore s 0 { getCore s 0 with ctx := [(0, ⟨true, true, 1, 0, 1, 0, 0x1000, [], false⟩), (1, ⟨true, false, 1, 0, 1, 0, 0x2000, [], false⟩)] }

theorem witness_moult :
    (∀ w ∈ [word 0x40 1 0, word 0x45 1 0, word 0x46 1 0], Fits (one .mle w) .mle w) ∧
    ∀ w ∈ [word 0x41 1 0, word 0x42 1 0, word 0x43 1 (2 ^ 113), word 0x44 1 (2 ^ 111)], Fits (armed (one .mle w)) .mle w :=
  ⟨fits_all (by decide +kernel), fun w hw => fits (List.all_eq_true.1
    (show ([word 0x41 1 0, word 0x42 1 0, word 0x43 1 (2 ^ 113), word 0x44 1 (2 ^ 111)].all fun w =>
      calm (armed (one .mle w)) && (armed (one .mle w)).ecc.isEmpty && runs (armed (one .mle w)) .mle w) = true by decide +kernel) w hw)⟩

end Sys2Proof.Tests
end

