-- ==== Sys2Proof/Tests/Effects.lean ====
section
/-!
SUPPORT. Witnesses of the statements about what follows a dispatch: full/empty words, semaphores, results, stream tasks, matrix passes and
retirement.
-/

namespace Sys2Proof.Tests

-- one test at a time: the kernel evaluates each, and their threads would add up
set_option Elab.async false

open Sys2Proof Sys2Proof.Machine

/-! Full/empty words and semaphores. -/

/-- A local operation of core 0's SXE on the word at offset 64, which reaches it at a-cycle 2. -/
def feOp (k : FeKind) : FeOp := ⟨9, .eng 0 .sxe, k, padBase 0 + 64, true, 5, some 3, 2, 0, 0, false, 0, none⟩

/-- The device with the operation in flight; the word is full or empty. -/
def feDev (k : FeKind) (full : Bool) : State :=
  let s := { headed .sxe (word 0x09 0 0) dev with feOps := [feOp k] }
  if full then { s with feb := [((padBase 0 + 64) / 64, true)] } else s

/-- The same, remote and satisfied with the value 7. -/
def gotDev : State := { feDev .take false with feOps := [{ feOp .take with isLocal := false, got := some (7, false) }] }

theorem witness_FullEmptyWords : ∀ k ∈ [FeKind.fill, .drain, .take, .peek, .jmpt], ∀ b ∈ [true, false],
    feArrivals (feDev k b) (padBase 0 + 64) true [] = [feOp k] ∧ (feDev k b).feOps.any (fun y => y.id == (feOp k).id) = true ∧
      feCell (feDev k b) (feOp k).addr ≠ .nowhere ∧ feWaiters (feDev k b) (feCell (feDev k b) (feOp k).addr) = [] ∧
      feFull (feDev k b) (feCell (feDev k b) (feOp k).addr) = b ∧ (feDev k b).ecc = [] ∧
      (feUses (feOp k) && unitPoison (feDev k b) ((feOp k).addr / 64)) = false ∧ (feOp k).src = .eng 0 .sxe ∧
      still (feDev k b) = true ∧ (getEng (feDev k b) 0 .sxe).mode = .running ∧ (getEng (feDev k b) 0 .sxe).step = .off := by decide +kernel

theorem witness_remoteValue : gotDev.feOps.find? (fun y => feOfEng 0 .sxe y && y.got.isSome) =
      some { feOp .take with isLocal := false, got := some (7, false) } ∧ still gotDev = true ∧ (getEng gotDev 0 .sxe).mode = .running ∧
    (getEng gotDev 0 .sxe).step = .off := by decide +kernel

/-- A local TAKE of a poisoned word, and a remote one that brings a poisoned value back, nothing else of the engine outstanding. -/
theorem witness_poisonedWord :
    let s := { feDev .take true with poison := [((padBase 0 + 64) / 64, true)] }
    let g := { gotDev with feOps := [{ feOp .take with isLocal := false, got := some (7, true) }] }
    IdleEngine s 0 .sxe [feOp .take] ∧ (feUses (feOp .take) && unitPoison s ((feOp .take).addr / 64)) = true ∧
      feFull s (feCell s (feOp .take).addr) = true ∧ IdleEngine g 0 .sxe [{ feOp .take with isLocal := false, got := some (7, true) }] :=
  ⟨idle_engine (by decide +kernel), by decide +kernel, by decide +kernel, idle_engine (by decide +kernel)⟩

/-- A wait that has not timed out, with LIMIT 1, under both actions. -/
def waitDev (action : Nat) : State :=
  let s := rput (feDev .take false) (.eng 0 .sxe .tmo) (BitVec.ofNat 64 (1 + action * 2 ^ 16))
  putEng s 0 .sxe { getEng s 0 .sxe with wait := .sync 9 0 false }

theorem witness_waitTimeout : ∀ a ∈ [0, 1], (getEng (waitDev a) 0 .sxe).wait = .sync 9 0 false ∧ (getEng (waitDev a) 0 .sxe).mode = .running ∧
    rfld (waitDev a) (.eng 0 .sxe .tmo) 15 0 ≠ 0 ∧ rfld (waitDev a) (.eng 0 .sxe .tmo) 17 16 = a ∧ still (waitDev a) = true := by decide +kernel

/-- An operation on counter 255 of core 0. -/
def semOp (k n : Nat) : SemOp := ⟨4, .sxe, k, 255, n, 2, false, 0, 0⟩
def semDev (k n : Nat) : State := let s := headed .sxe (word 0x0E 0 0) dev; putCore s 0 { getCore s 0 with semOps := [semOp k n] }

theorem witness_SemaphoreOperationsReach : ∀ k ∈ [0, 1, 2], ∀ n ∈ [0, 65535],
    (getCore (semDev k n) 0).semOps = [semOp k n] ∧ (semOp k n).waiting = false ∧ (semOp k n).ctr = (255 : Fin 256).val ∧
      still (semDev k n) = true ∧ (getEng (semDev k n) 0 (semOp k n).eng).mode = .running ∧ (getEng (semDev k n) 0 (semOp k n).eng).step = .off := by
  decide +kernel

/-! Results and stores. -/

/-- Core 0 with a result of each register file due at a-cycle 4 and a store to the last unit of the scratchpad. -/
def resDev : State :=
  putCore dev 0 { getCore dev 0 with vres := [⟨1, [], 0, 4, 0⟩], xres := [⟨7, 31, ⟨5, false⟩, 0, 4, 1⟩],
                                     stores := [⟨.sxe, 0, 0x3FFFF8, List.replicate 8 1, [false], 0, 4, 2⟩] }

theorem witness_ResultsLand : firstDue (getCore resDev 0) .vxe = some 4 ∧ firstDue (getCore resDev 0) .sxe = some 4 ∧
    ∀ r ∈ (getCore resDev 0).xres, r.pipe < 8 ∧ r.reg < 32 := by decide +kernel

/-- Two stores of one SXE.ST at the last word of the scratchpad, in a unit whose tag is set, and a later store. -/
theorem witness_ScratchpadStores :
    let st (seq due b : Nat) (p : Bool) : PadStore := ⟨.sxe, 0, 0x3FFFF8, List.replicate 8 (BitVec.ofNat 8 b), [p], 0, due, seq⟩
    let s := putCore { dev with poison := [((padBase 0 + 0x3FFFC0) / 64, true)] } 0 { getCore dev 0 with stores := [st 2 4 1 true, st 3 4 2 false, st 4 9 3 false] }
    (getCore s 0).stores.filter (fun y => y.eng == .sxe && y.due == 4) = [st 2 4 1 true, st 3 4 2 false] ∧
      (∀ y ∈ (getCore s 0).stores, y.eng = .sxe → 4 ≤ y.due) ∧ s.ecc = [] ∧ (0x3FFFF8 : Nat) + 8 ≤ 0x400000 ∧
      (let u := match exec (.scratchpadStoreLand 0 .sxe) s with | .next t => t | _ => s
       memByte u (padBase 0 + 0x3FFFF8) = 2 ∧ unitPoison u ((padBase 0 + 0x3FFFC0) / 64) = true) := by decide +kernel

/-! Stream tasks. -/

/-- A MOVE of 64 RAW bytes within the scratchpad. -/
def moveBytes : List Byte :=
  ([11 * 2 ^ 53 + 11 * 2 ^ 49 + 2 ^ 32 + 2 ^ 31, 64 * 2 ^ 44 + 0x8000, 2 ^ 44 + 0x9000, 2 ^ 44, 0, 0, 0, 0] : List Nat).flatMap (leBytes 8)

/-- The device with the descriptor at offset 0x6000 of core 0, stream 0 enabled. -/
def moveDev : State :=
  let s := { dev with mem := twrite dev.mem 0 (padBase 0 + 0x6000) moveBytes }
  putCore s 0 { getCore s 0 with sen := 1 }

theorem witness_DxeIssue :
    let w := word 0x40 1 (0x6000 / 64)
    let s := headed .dxe w moveDev
    Fits s .dxe w ∧ descCheck 0 (BitVec.allOnes 64) (BitVec.allOnes 64) (memPoison s (padBase 0 + 0x6000) 64)
      (parseDesc (memBytes s (padBase 0 + 0x6000) 64)) none = none := ⟨fits (by decide +kernel), by decide +kernel⟩

/-- A task of stream 31 as DXE.ISSUE leaves it; from a local source, or from a hole of the address map. -/
def task (hole : Bool) : Task :=
  let b := if hole then setNth moveBytes 4 0 else moveBytes
  ⟨0, 0, false, 0, BitVec.allOnes 64, BitVec.allOnes 64, 0, b, none, if hole then 0xD0000000000 else 0x8000, 0x9000, 0, cnt0, [], [], 0, []⟩
def taskDev (hole : Bool) : State := putTask dev 0 31 (some (task hole))

theorem witness_StreamTasksEnd : still (taskDev false) = true ∧ taskOf (taskDev false) 0 31 = some (task false) ∧
    (taskRun (taskSeen (taskDev false) 0 (task false)) 0 (task false)).stop = none ∧ (taskDesc (task false)).kind ≠ 4 ∧ windowDst (taskDesc (task false)) = false ∧
    taskOf (taskDev true) 0 31 = some (task true) ∧ (taskRun (taskSeen (taskDev true) 0 (task true)) 0 (task true)).stop = some .address ∧
    handTask (taskDev true) 0 31 = none ∧ still (taskDev true) = true := by decide +kernel

/-- A HANDOFF of eight F32 values to the scratchpad, with its tile come or not; a store of four F32 values into the ADD window of stack 0. -/
def handTaskOf (all : Bool) : Task :=
  let b := ([4 * 2 ^ 61 + 2 ^ 31, 8 * 2 ^ 44, 2 ^ 44 + 0x9000, 2 ^ 44, 0, 2 ^ 32, 0, 0] : List Nat).flatMap (leBytes 8)
  ⟨0, 0, false, 0, BitVec.allOnes 64, BitVec.allOnes 64, 0, b, none, 0, 0x9000, 0, cnt0, [], if all then [(0, 255)] else [], 0, []⟩
def addTask : Task :=
  let b := ([2 ^ 32, 4 * 2 ^ 44 + 0x8000, 2 ^ 44 + 0x20000000000, 2 ^ 44, 0, 0, 0, 0] : List Nat).flatMap (leBytes 8)
  ⟨0, 0, false, 0, BitVec.allOnes 64, BitVec.allOnes 64, 0, b, none, 0x8000, 0x20000000000, 0, cnt0, [], [], 0, []⟩

theorem witness_HandoffsAndReductions :
    (∀ all ∈ [true, false], let k := handTaskOf all
      let s := putTask dev 0 31 (some k)
      taskOf s 0 31 = some k ∧ still s = true ∧ s.ecc = [] ∧ (taskDesc k).kind = 4 ∧ handAll k = all ∧ (taskRun (taskSeen s 0 k) 0 k).stop = none ∧
        holdsRange s (readSeen s 0 (taskDesc k) k.ext ++ writesOf 0 k (taskRun (taskSeen s 0 k) 0 k)) = false) ∧
    (let s := putTask dev 0 31 (some addTask)
     still s = true ∧ (taskDesc addTask).kind ≠ 4 ∧ windowDst (taskDesc addTask) = true ∧ (taskRun (taskSeen s 0 addTask) 0 addTask).stop = none ∧
       holdsRange s (readSeen s 0 (taskDesc addTask) none ++ writesOf 0 addTask (taskRun (taskSeen s 0 addTask) 0 addTask)) = false) := by
  decide +kernel

/-- A completion record of stream 31 at the last unit of the scratchpad, with a local completion word. -/
def crec (w : Option (Bool × Nat)) : CompRec := ⟨31, 0, some 0x3FFFC0, List.replicate 32 7, w, 9, 4⟩
def crecDev (w : Option (Bool × Nat)) : State := putCore dev 0 { getCore dev 0 with crecs := [crec w] }

theorem witness_CompletionRecords : ∀ w ∈ [none, some (true, 64)], (getCore (crecDev w) 0).crecs = [crec w] ∧ (crec w).rec? = some 0x3FFFC0 ∧
    (0x3FFFC0 : Nat) % 64 = 0 ∧ (crec w).bytes.length = 32 ∧ still (crecDev w) = true ∧ (crecDev w).ecc = [] := by decide +kernel

/-! Retirement and skips. -/

/-- A finished instruction with its program. -/
def doneDev (e : EngId) (w : W128) (p : Prog) : State := oneInst { inst e w p with finished := true }

theorem witness_FinishedInstructions : ∀ x ∈ [(EngId.vxe, word 0x40 0 0, Prog.plain), (.sxe, word 0x04 0 0, .ldload), (.mle, word 0x40 0 0, .mle 0),
    (.mle, word 0x40 0 0, .mle 2)],
    instOf (doneDev x.1 x.2.1 x.2.2) 0 5 = some { inst x.1 x.2.1 x.2.2 with finished := true } ∧
      mayRetire (doneDev x.1 x.2.1 x.2.2) 0 { inst x.1 x.2.1 x.2.2 with finished := true } = true ∧ still (doneDev x.1 x.2.1 x.2.2) = true := by
  decide +kernel

/-- An undefined opcode is skipped with ST_ILLEGAL_OPCODE, an SXE.ADD without a pipe with ST_INCONSISTENT. -/
theorem witness_FailedChecks : ∀ x ∈ [(word 0xFF 0 0, Status.illegalOpcode), (word 0x40 0 0, .inconsistent)],
    let s := one .sxe x.1
    ∃ t g, headOf s 0 .sxe = some (t, ⟨x.1, false⟩, g) ∧ heldAtDispatch s 0 .sxe x.1 = false ∧ g.step = .off ∧ StillCore s 0 ∧
      checkWord (advance (putEng s 0 .sxe g) t) 0 .sxe t ⟨x.1, false⟩ = .skip x.2 := by
  intro x hx
  refine ⟨0, getEng (one .sxe x.1) 0 .sxe, ?_⟩
  simp only [List.mem_cons, List.not_mem_nil, or_false] at hx
  rcases hx with rfl | rfl <;>
    exact ⟨by decide +kernel, by decide +kernel, by decide +kernel, still_core (by decide +kernel), by decide +kernel⟩

/-! Matrix instructions. -/

/-- A product of one row, one output and one reduction position in BF16, drained as F32 to offset 0x5000; its descriptor lies at 0x4000. -/
def prodBytes : List Byte :=
  ([1 + 2 ^ 20 + 2 ^ 40, 8 + 8 * 2 ^ 16 + 2 ^ 32 + 2 ^ 48, 0, 0, 0, 0, 0, 0, 0, 2 ^ 32 + 0x5000, 0, 0, 0, 0, 0, 0] : List Nat).flatMap (leBytes 8)
def prodDev : State := { dev with mem := twrite dev.mem 0 (padBase 0 + 0x4000) prodBytes }
/-- A matrix word with x at 0x1000, W at 0x2000, partial tiles at 0x3000 and the descriptor at 0x4000, for one array. -/
def mword (op : Nat) : W128 := word op 1 (0x40 + 0x80 * 2 ^ 16 + 0xC0 * 2 ^ 32 + 0x100 * 2 ^ 48)

theorem witness_MatrixInstructionsBegin : ∀ op ∈ [0x40, 0x41, 0x42, 0x48], Fits (headed .mxe (mword op) prodDev) .mxe (mword op) := by
  intro op h
  exact fits (List.all_eq_true.1 (show ([0x40, 0x41, 0x42, 0x48].all fun op => calm (headed .mxe (mword op) prodDev) &&
    (headed .mxe (mword op) prodDev).ecc.isEmpty && runs (headed .mxe (mword op) prodDev) .mxe (mword op)) = true by decide +kernel) op h)

/-- The state an outcome answers. -/
def after (o : Host.Outcome State Fault Refusal) : State := match o with | .next t => t | _ => State.reset

/-- After the dispatch of a matrix instruction, after its first tile step, after its drain. -/
def begun (op : Nat) : State :=
  let s := headed .mxe (mword op) prodDev
  after (if op = 0x48 then exec (.mxeAlt 0) s else exec (.mxeWs 0) s)
def stepped (op : Nat) : State := after (exec (.mxeTileStep 0 0) (begun op))
def drained (op : Nat) : State := after (exec (.mxePassDrain 0 0 ⟨[], 0⟩) (stepped op))

/-- The run of the one instruction in core 0 and what a check says of it. -/
def runIs (s : State) (f : Inst → MxeRun → Bool) : Bool :=
  match (getCore s 0).insts with
  | [i] => i.id == 0 && i.begun && !i.finished && (match i.prog with | .mxe r => r.stop.isNone && f i r | _ => false)
  | _ => false

theorem run_is {s : State} {f : Inst → MxeRun → Bool} (h : runIs s f = true) : ∃ i r, instOf s 0 0 = some i ∧ i.prog = .mxe r ∧
    i.begun = true ∧ i.finished = false ∧ r.stop = none ∧ (getCore s 0).insts = [i] ∧ f i r = true := by
  unfold runIs at h
  split at h
  · rename_i i hi
    simp only [Bool.and_eq_true, beq_iff_eq, Bool.not_eq_true'] at h
    obtain ⟨⟨⟨h1, h2⟩, h3⟩, h4⟩ := h
    split at h4
    · rename_i r hr
      simp only [Bool.and_eq_true, Option.isNone_iff_eq_none] at h4
      exact ⟨i, r, by simp [instOf, hi, h1], hr, h2, h3, h4.1, hi, h4.2⟩
    · cases h4
  · cases h

theorem witness_TileStepsAccumulate : ∀ op ∈ [0x40, 0x48], still (begun op) = true ∧ runIs (begun op) (fun i r =>
    let p := prodOf i r
    stepOpen r && p.op == op && (begun op).ecc.isEmpty &&
      (if op = 0x48 then (segBads (begun op) 0 p r.round r.pr r.seg).isEmpty && (nextSeg (begun op) 0 p r.round r.pr r.seg).isNone
       else (contentBads (begun op) 0 p (posOf r) (arrStrips p r.round)).isEmpty && (nextPos p (posOf r)).isNone)) = true := by decide +kernel

theorem witness_PassesDrain : (∀ op ∈ [0x40, 0x48], still (stepped op) = true ∧ (stepped op).ecc = [] ∧ runIs (stepped op) (fun i r =>
      let p := prodOf i r
      p.op == op && (if op = 0x40 then r.lastRun && !r.dwEnd else r.dwEnd) &&
        (match r.ends with
         | [d] => !bufWaits (stepped op) 0 p d 0 &&
           (drainPass (drewWords (stepped op) 0 p d r (List.range p.arrs)) 0 p d (fun _ => true) r).2.stop.isNone && decide (loopCount i.loop ≤ r.iter + 1)
         | _ => false)) = true) ∧
    still (drained 0x48) = true ∧ runIs (drained 0x48) (fun _ r => r.dwEnd && !r.lastRun && r.ends.isEmpty) = true := by decide +kernel

/-- A pass that hands off to a stream that takes no tile: its drain is held. -/
theorem witness_PassesDrain_held : runIs (stepped 0x40) (fun i r =>
    let p := { prodOf i r with dr := { (prodOf i r).dr with handoff := true } }
    (match r.ends with | [d] => bufWaits (stepped 0x40) 0 p d 0 | _ => false)) = true := by
  decide +kernel

end Sys2Proof.Tests
end

