-- ==== Sys2Proof/Tests/Units.lean ====
section
/-!
SUPPORT. Witnesses of the statements about host registers, memory, stacks and the update unit.
-/

namespace Sys2Proof.Tests

-- one test at a time: the kernel evaluates each, and their threads would add up
set_option Elab.async false

open Sys2Proof Sys2Proof.Machine

/-! Control registers of a core. -/

/-- Values written to ENG_CTL: EN, STEP, the other bank, 0, ABORT. -/
theorem witness_EngineControlWrites :
    let s := dev
    let r := headed .mxe (word 0 0 0) dev
    (∀ x ∈ [s, r], host x 0 (.eng 0 .mxe .ctl) = true ∧ host x 0 (.eng 0 .mxe .pc) = true ∧ still x = true ∧ (coreSlice x 0).isSome = true ∧
      (getCore x 0).insts = [] ∧ x.feOps = [] ∧ (getCore x 0).sabort = [] ∧ (getCore x 0).semOps = [] ∧ (getCore x 0).stores = [] ∧ (getEng x 0 .mxe).wait = .none ∧
      (getEng x 0 .mxe).closing = none ∧ (getEng x 0 .mxe).bank = false) ∧
    (getCore dev 0).tasks = [] ∧ (getCore r 0).tasks = [] ∧
    (getEng s 0 .mxe).mode = .halted ∧ (getEng r 0 .mxe).mode = .running ∧
    ∀ v ∈ [1, 8, 16, 0, 128], bits (BitVec.ofNat 64 v) 6 5 ≠ 3 := by decide +kernel

/-- INDEX at its last value in a bank and in the descriptor file, and in entry 0. -/
theorem witness_InstructionMemory : ∀ a ∈ [2047, 0x2000 + 255, 0x2000],
    let s := rput dev (.eng 0 .vxe .imAddr) (BitVec.ofNat 64 a)
    host s 0 (.eng 0 .vxe .dataHi) = true ∧ reaches s 0 (regOff (.eng 0 .vxe .dataHi)) false = true ∧ (getEng s 0 .vxe).mode = .halted ∧
      rfld s (.eng 0 .vxe .imAddr) 13 12 = (if a = 2047 then 0 else 2) := by decide +kernel

theorem witness_StreamControl : host (taskDev false) 0 (.dxeSctl 0) = true ∧ still (taskDev false) = true ∧
    taskOf (taskDev false) 0 31 = some (task false) ∧ handTask (taskDev false) 0 31 = none ∧ bits (BitVec.ofNat 64 (2 ^ 63)) 63 32 = 2 ^ 31 ∧
    ((1 : W64).setWidth 32 &&& ~~~(getCore (taskDev false) 0).sen ≠ (0 : BitVec 32)) ∧
    (~~~((0 : W64).setWidth 32) &&& (getCore moveDev 0).sen ≠ (0 : BitVec 32)) ∧ host moveDev 0 (.dxeSctl 0) = true ∧ still moveDev = true := by
  decide +kernel

/-- OP 1 to 3 at the last word of core 159's scratchpad, which section 19 holds. -/
theorem witness_SyncHost :
    let s := rput dev (.sectmap 19) 0x80
    host s 0 (.hostAddr 159) = true ∧ host s 0 (.semCnt 159 63) = true ∧ (getCore s 159).semOps = [] ∧ s.ecc = [] ∧ s.feOps = [] ∧ (coreSlice s 159).isSome = true ∧ s.incs = [] ∧
    ∀ op ∈ [1, 2, 3], let v : W64 := BitVec.ofNat 64 (op * 2 ^ 21 + 0x1FFFF8)
      bits v 22 21 = op ∧ bits v 1 0 = 0 ∧ feWaiters s (feCell s (hostWord 159 v)) = [] ∧ feCell s (hostWord 159 v) ≠ .nowhere ∧
        feFull s (feCell s (hostWord 159 v)) = false ∧
        feRemote s (hostWord 159 v) [7] = [] ∧ sectRekeys s (coreSect 159) = false ∧ s.held = [] ∧
        sectRekeys { s with mp := { s.mp with scrub := [(0, some (.key 5))] } } (coreSect 159) = true ∧
        feFull { s with feb := [(hostWord 159 v / 64, true)] } (feCell s (hostWord 159 v)) = true := by decide +kernel

/-- A window of 1,024 lines at the last page of stack 0, enabled and then disabled. -/
theorem witness_SyncWindow :
    let on : W64 := BitVec.ofNat 64 (2 ^ 63 + 1024 * 2 ^ 32 + 0xBFFFF)
    let off : W64 := BitVec.ofNat 64 (1024 * 2 ^ 32 + 0xBFFFF)
    host dev 0 (.syncWin 0) = true ∧ dev.incs = [] ∧ bit on 63 = true ∧ rbit dev (.syncWin 0) 63 = false ∧ bits on 42 32 ≤ 1024 ∧ bits on 19 0 ≤ 0xBFFFF ∧
    (let s := rput dev (.syncWin 0) on
     host s 0 (.syncWin 0) = true ∧ bit off 63 = false ∧ rbit s (.syncWin 0) 63 = true ∧ bits off 42 32 = rfld s (.syncWin 0) 42 32 ∧
       bits off 19 0 = rfld s (.syncWin 0) 19 0 ∧ winBusy s 0 = false) ∧ host dev 0 (.srng 0) = true := by decide +kernel

/-! Register writes. -/

theorem witness_RegisterWrites : funcExists dev 0 = true ∧ plainReg (.cacheCtl 0) = true ∧ host dev 0 (.cacheCtl 0) = true ∧
    isNext (.nextSectmap 19) = true ∧ host dev 0 (.nextSectmap 19) = true ∧ hubReady State.reset = false ∧ funcExists State.reset 0 = true ∧
    hubReady dev = true ∧ funcExists dev 1 = true ∧ reaches dev 1 (regOff .hubReset) true = false := by decide +kernel

/-! Memory and stacks. -/

/-- A request to an address of stack 0, or elsewhere. -/
def req (k : MemKind) (a len fmt : Nat) (f : SectorFind) : MemReq := ⟨k, BitVec.ofNat 44 a, len, List.replicate (2 * len) 1, fmt, false, false, f⟩

/-- Page 0xBFFFF of stack 0 on its retirement list. -/
def retDev : State := rput (rsetf dev (.retireStat 0) 41 32 1) (.retireList 0 0) (BitVec.ofNat 64 (2 ^ 63 + 0xBFFFF))

theorem witness_MemoryAccesses : memUp dev = true ∧ memUp State.reset = false ∧ placeOf 0xD0000000000 = .nothing ∧ placeOf 0xC00000000 = .nothing ∧
    placeOf 0xBFFFFFFC0 = .stack 0 0xBFFFFFFC0 ∧ rfld dev (.mcState 0) 63 60 = 2 ∧ dev.ecc = [] ∧ homeOf dev (0xBFFFFFFC0 / 64) = .dram 0 ∧
    (∀ q ∈ [req .write 0xBFFFFFFC0 64 0 .clean, req .read 0xBFFFFFFC0 1 0 .clean, req .add 0xBFFFFFFC0 4 0 .clean,
      req .cas 0xBFFFFFFC0 8 11 .clean, req .read 0xBFFFFFFC0 64 0 .uncorrectable],
      0 < q.len ∧ q.addr.toNat % 64 + q.len ≤ 64 ∧ (q.kind = .read ∨ q.kind = .write ∨ q.len = redSize q.fmt)) ∧
    tget dev.cached false (0xBFFFFFFC0 / 64) = false ∧ unitPoison dev (0xBFFFFFFC0 / 64) = false ∧
    homeOf retDev (0xBFFFFFFC0 / 64) = .retired 0 ∧ rfld retDev (.mcState 0) 63 60 = 2 ∧
    sectRekeys dev 0 = false ∧ sectRekeys retDev 0 = false ∧ (sectSlice dev 0).isSome = true ∧ (sectSlice retDev 0).isSome = true ∧
    placeOf (19 * 0x1000000000) = .stack 19 0 ∧ sectSlice dev 19 = none ∧
    (let s := rput dev (.sectmap 19) 0x80; (sectSlice s 19).isSome = true ∧ rfld s (.mcState 19) 63 60 = 0) := by decide +kernel

/-- Tick 0 in slot 0, which QMASK makes quiet, at a time at which every unit has been due for more than 2 s; stack 0 READY or in RECAL. -/
def quietDev (used : List Nat) : State :=
  let s := rput (rsetf dev .timeState 63 60 1) .chorus (BitVec.ofNat 64 (2 ^ 48 + 32))
  { s with tb := { s.tb with time := 5120000000, entered := true, used := used, overdue := [(0, true), (27, true)] } }
def recalDev : State := { rsetf dev (.mcState 0) 63 60 3 with held := [.req (req .write 0 64 0 .clean)] }

theorem witness_Recalibration : memUp recalDev = true ∧ (sectSlice recalDev 0).isSome = true ∧ rfld recalDev (.mcState 0) 63 60 = 3 ∧ placeOf (req .read 0 8 0 .clean).addr.toNat = .stack 0 0 ∧
    quietSlot (quietDev []) = true ∧ rfld (quietDev []) (.mcState 0) 63 60 = 2 ∧ slotFree (quietDev []) 0 = true ∧
    quadRecal (quietDev []) 0 = false ∧ slotFree (quietDev [0]) 0 = false ∧ slotFree (quietDev []) 4 = true ∧ slotFree (quietDev [4]) 4 = false ∧
    quietSlot (quietDev [0]) = true ∧ quietSlot (quietDev [4]) = true ∧ memUp (quietDev []) = true ∧
    (∀ u ∈ [RecalUnit.stack 0, .port 7], recalDue (quietDev []) u = true ∧
      recalDue { quietDev [] with tb := { (quietDev []).tb with time := 49999999 } } u = false) := by decide +kernel

theorem witness_FailedRecalibrations : rfld recalDev (.mcState 0) 63 60 = 3 ∧ sectSlice recalDev 0 = some 0 ∧
    (let s := rsetf recalDev (.mcState 19) 63 60 3; rfld s (.mcState 19) 63 60 = 3 ∧ sectSlice s 19 = none) ∧
    (freeFills [] (recalDev.held.filter fun q => !heldBy 0 q)).1 = [] ∧ recalDue (quietDev []) (.port 7) = true ∧
    slotFree (quietDev []) 4 = true ∧ unsync dev = true ∧ portUsed dev 7 = false := by decide +kernel

theorem witness_StackUpkeep : stackOpen dev 0 = true ∧ rfld dev (.mcState 0) 63 60 = 2 ∧ scrubbing dev 0 = false ∧ memUp dev = true ∧ dev.ecc = [] ∧
    sectRunning dev 0 = false ∧ unsync dev = true ∧ rfld (quietDev []) (.mcState 0) 63 60 = 2 ∧
    patrolNext dev 0 513 (tget dev.patrol 0 0) = some 0 ∧
    (let s := { dev with patrol := [(0, stkSectors - 1)] }; patrolNext s 0 513 (tget s.patrol 0 0) = some (stkSectors - 1)) ∧
    unsync (quietDev []) = false ∧ tget (quietDev []).tb.overdue false (unitKey (.port 0)) = false ∧
    tget (quietDev []).tb.overdue false (0 : N20).val = true ∧ tget (quietDev []).tb.overdue false (20 + (7 : PortId).val) = true ∧
    memUp (quietDev []) = true ∧ forcedNow (quietDev []) (.stack 0) = true ∧ forcedNow (quietDev []) (.port 7) = true ∧
    forcedNow (quietDev []) (.stack 1) = false ∧ quietSlot (quietDev []) = true ∧ slotFree (quietDev []) 0 = true ∧ quadRecal (quietDev []) 0 = false ∧
    slotFree (quietDev []) 4 = true ∧ slotAvail (quietDev [0]) (.stack 0) = false ∧ slotAvail (quietDev [4]) (.port 7) = false ∧
    (let s := rput (quietDev []) .chorus 32; quietSlot s = false ∧ forcedNow s (.stack 0) = true) ∧
    (∀ used ∈ [[], [0]], let s := rsetf (quietDev used) (.mcState 1) 63 60 2
      unsync s = false ∧ tget s.tb.overdue false (unitKey (.stack 1)) = false ∧ recalUnitUp s (.stack 1) = true ∧
        slotAvail s (.stack 1) = used.isEmpty ∧ recalDueAt s (.stack 1) + 250000000 ≤ s.tb.time) := by
  decide +kernel

/-! The update unit. -/

/-- A program of one position in BF16 whose GRAD_WORD and DONE_WORD lie in core 0's scratchpad. -/
def upProg : List Byte :=
  ([2 ^ 44 + (padBase 0 + 64), padBase 0 + 128, 2 ^ 44 + 0x10000, 2 ^ 44, 2 ^ 48, 2 ^ 48, 0x20000, 0x30000, 0x40000, 0, 0, 0, 0, 0, 0, 0] :
    List Nat).flatMap (leBytes 8)

/-- The unit of section 0 with one program at 0x60000, its group's entry at 0x70000 and overrides at 0x80000. -/
def upDev (b : Buu) : State :=
  let s := rput (rput (rput (rput dev (.updList 0) 0x60000) (.updGtab 0) 0x70000) (.updOvr 0) 0x80000) (.updCtl 0) (BitVec.ofNat 64 (2 ^ 32 + 256))
  let s := { s with mem := twrite (twrite [] 0 0x60000 upProg) 0 0x70000 (leBytes 8 (2 ^ 63)) }
  putBuu s 0 b

def upTake : FeOp := ⟨3, .bc 0, .take, padBase 0 + 64, false, 0, none, 0, 0, 0, false, 0, none⟩
def upRun : Buu := { buuReset with mode := .running }
/-- In pass 1 and in pass 2 of the program. -/
def upPass (ph : Nat) : Buu := { upRun with phase := ph, begun := true, progs := [(0, upProg)], ovr := true }

theorem witness_UpdateControl :
    let s := upDev buuReset
    let r := { upDev upRun with feOps := [upTake] }
    host s 0 (.updCtl 0) = true ∧ (getBuu s 0).mode = .halted ∧ (getBuu s 0).phase = 0 ∧ stackOpen s 0 = true ∧ sectHeld s 0 = false ∧ (getFab r 0).vecs = [] ∧ bcTake s 0 = none ∧
    (sectSlice s 0).isSome = true ∧ upIn s 0 (getBuu s 0).prog = true ∧
    (let t := upDev (upPass 3); (getBuu t 0).phase = 3 ∧ tget (getBuu t 0).progs [] (getBuu t 0).prog = upProg ∧ upProg ≠ [] ∧ bcTarget t 0 (curProg (getBuu t 0)).done = true) ∧
    bcTarget s 0 (parseUp (upBytes s 0 (getBuu s 0).prog)).grad = true ∧ (let v : W64 := BitVec.ofNat 64 (1024 * 2 ^ 32 + 1); bit v 0 = true ∧
      bit v 1 = false ∧ 1 ≤ bits v 42 32 ∧ bits v 42 32 ≤ 1024) ∧
    host r 0 (.updCtl 0) = true ∧ (getBuu r 0).mode = .running ∧ bits (BitVec.ofNat 64 (2 ^ 32 + 2)) 42 32 = rfld r (.updCtl 0) 42 32 ∧
    host s 0 (.updNorm 0) = true ∧ bits (0 : W64) 63 32 = rfld s (.updStep 0) 31 0 ∧ bits (BitVec.ofNat 64 (2 ^ 63)) 63 32 ≠ rfld s (.updStep 0) 31 0 ∧
    (getBuu (upDev { upRun with phase := 2, due := some 5 }) 0).due = some 5 ∧
    (getBuu (upDev { upPass 1 with mode := .halted }) 0).phase ≠ 0 ∧ (getBuu (upDev { upPass 1 with mode := .halted }) 0).mode = .halted ∧
    (let t := putBuu (rput (upDev upRun) (.sectmap 1) 0x80) 1 { upRun with phase := 2 }
     let t := putFab t 0 { getFab t 0 with vecs := [(1, [])] }
     (getBuu t 0).begun = false ∧ (getBuu t 0).phase = 0 ∧ (getBuu t 0).prog = 0 ∧ sectSlice t 0 = some 0 ∧ clutchOn t 0 = false ∧
       0 ∈ sliceSects t 0 ∧ 1 ∈ sliceSects t 0 ∧ takesPart t 1 = true ∧
       ∀ m ∈ sliceSects t 0, m ≠ 0 → takesPart t m = true → (getFab t 0).vecs.any (fun w => w.1 == m.val) = true) := by
  decide +kernel

theorem witness_UpdateSteps :
    (∀ full ∈ [true, false], let s := { upDev upRun with feOps := [upTake], feb := if full then [((padBase 0 + 64) / 64, true)] else [] }
      (getBuu s 0).mode = .running ∧ (getBuu s 0).phase = 0 ∧ bcTake s 0 = some upTake ∧ upTake.got = none ∧ feFull s (feCell s upTake.addr) = full ∧
        s.ecc = [] ∧ stackOpen s 0 = true ∧ sectHeld s 0 = false ∧ upIn s 0 0 = true ∧ upOk s 0 (upBytes s 0 0) = true ∧ groupValid s 0 (parseUp (upBytes s 0 0)).group = true) ∧
    (let s := upDev { upPass 3 with p2 := pass2Of (upDev (upPass 3)) 0 (curProg (upPass 3)) (upPass 3) }
     (getBuu s 0).begun = true ∧ stackOpen s 0 = true ∧ sectHeld s 0 = false ∧ s.ecc = [] ∧
       (getBuu s 0).span < spanTotal (curProg (getBuu s 0)) ∧ (getBuu s 0).p2.isSome = true) ∧
    (let s := upDev { upPass 1 with progs := [(0, setNth (setNth upProg 21 0) 22 1)] }
     (getBuu s 0).span + 1 < spanTotal (curProg (getBuu s 0)) ∧
       ((spanBlocks (curProg (getBuu s 0)) 0).foldl (pass1Block s 0 (curProg (getBuu s 0))) (0, false)).2 = false) ∧
    (let s := rput (upDev { upPass 1 with begun := false }) (.clCfg 0) (BitVec.ofNat 64 (2 ^ 31))
     lastProg s 0 (getBuu s 0) = true ∧ sectSlice s 0 = some 0 ∧ clutchOn s 0 = true) ∧
    (let b : Buu := { upPass 2 with normValid := true, norm := 0x3F800000 }
     let s := upDev b
     (getBuu s 0) = b ∧ stackOpen s 0 = true ∧ sectHeld s 0 = false ∧ s.ecc = [] ∧ normBad b.norm = false ∧ tget b.bad false 0 = false ∧ tget b.refused false (curProg b).group = false ∧
       (pass2Of s 0 (curProg { b with prog := 0 }) b).isSome = true) ∧
    (let s := upDev (upPass 3)
     (getBuu s 0).p2 = none ∧ tget (getBuu s 0).progs [] (getBuu s 0).prog = upProg ∧ bcTarget s 0 (curProg (getBuu s 0)).done = true ∧ lastProg s 0 (getBuu s 0) = true) := by decide +kernel

/-- A poisoned gradient meets pass 1, its group refused before or not; pass 2 of a refused group. -/
theorem witness_UpdateRefusals :
    (∀ bad ∈ [[], [(0, true)]], let b : Buu := { upPass 1 with progs := [(0, setNth (setNth upProg 21 0) 22 1)], refused := bad }
      let s := { upDev b with poison := [((stkBase 0 + 0x20000) / 64, true), ((stkBase 0 + 0x10000) / 64, true), (0x40000 / 64, true), (0, true)] }
      (getBuu s 0).span + 1 < spanTotal (curProg (getBuu s 0)) ∧ tget (getBuu s 0).refused false (curProg (getBuu s 0)).group = !bad.isEmpty ∧
        ((spanBlocks (curProg (getBuu s 0)) 0).foldl (pass1Block s 0 (curProg (getBuu s 0))) (0, false)).2 = true) ∧
    (let b : Buu := { upPass 2 with normValid := true, norm := 0x3F800000, refused := [(0, true)] }
     tget b.refused false (curProg { b with prog := 0 }).group = true ∧ normBad b.norm = false ∧ tget b.bad false 0 = false) := by decide +kernel

/-- The span of pass 2 of the program of one position, which is active, with the group's values. -/
def pass2Dev : State :=
  let s := upDev { upPass 3 with p2 := pass2Of (upDev (upPass 3)) 0 (curProg (upPass 3)) (upPass 3) }
  { s with mem := twrite s.mem 0 0 [1] }
def pass2Val : Pass2 := ((getBuu pass2Dev 0).p2).getD ⟨0, 0, 0, 0, 0, 0, 0, 0⟩

theorem witness_UpdateValues : SpanApart pass2Dev 0 (curProg (upPass 3)) pass2Val ∧ (getBuu pass2Dev 0).p2 = some pass2Val ∧
    (spanCodes pass2Dev 0 (curProg (upPass 3)) pass2Val 0).length = 2 :=
  ⟨⟨by unfold bitsApart; decide +kernel, by decide +kernel⟩, by decide +kernel, by decide +kernel⟩

end Sys2Proof.Tests
end

