-- ==== Sys2Proof/Tests/Fabric.lean ====
section
/-!
SUPPORT. Witnesses of the statements about the exchange unit, the clutch, the timebase and the ports.
-/

namespace Sys2Proof.Tests

-- one test at a time: the kernel evaluates each, and their threads would add up
set_option Elab.async false

open Sys2Proof Sys2Proof.Machine

/-- Slice 0 in a clutch of generation 7 with members 0 (device 1, slice 0) and 1 (device 2, slice 3), as the member named, with the master
named, of one replica; port 7 is in service, the timebase LOCKED at tick 100 in a slot met at its start. -/
def clutch (self master : Nat) : State :=
  let s := rput dev (.clCfg 0) (BitVec.ofNat 64 (7 * 2 ^ 32 + 2 ^ 31 + self * 2 ^ 24 + master * 2 ^ 21 + 2 ^ 18 + 2 ^ 15 + 80))
  let s := rput (rput s (.clMem 0 0) (1 * 32)) (.clMem 0 1) (BitVec.ofNat 64 (2 * 32 + 3))
  let s := rput (rput (rput s (.fabfw 0) (BitVec.ofNat 64 (0xFFFF * 2 ^ 32 + 0xFF))) (.portCtl 7) 1) (.portStat 7) (BitVec.ofNat 64 (2 ^ 63))
  let s := rput (rput (rsetf s .timeState 63 60 1) .tick 100) (.share 0) 64
  let s := rput s (.doorbell 0) (BitVec.ofNat 64 (padBase 0 + 0x1000))
  putFab { s with tb := { s.tb with starts := 3, entered := true } } 0 { getFab s 0 with weight := 64 }

/-- A packet from device 2, slice 3 to slice 0, generation 7. -/
def ift (type flags op seq addr notify aux : Nat) (body : List Byte) : IftPacket :=
  ⟨leBytes 1 (16 + type) ++ leBytes 1 flags ++ leBytes 2 2 ++ [3, 0, 0] ++ leBytes 1 op ++ leBytes 4 seq ++ leBytes 4 7 ++ leBytes 6 addr ++
    leBytes 2 body.length ++ leBytes 6 notify ++ leBytes 2 0 ++ leBytes 8 0 ++ leBytes 4 aux ++ leBytes 4 0 ++ body, 2, 0⟩

/-- A MOVE of 64 bytes from the scratchpad of core 0 to peer 1, with a bad operation in its place, and its DONE word. -/
def xDesc (oper : Nat) : List Byte :=
  ([oper * 2 ^ 61 + 2 ^ 53 + 3 * 2 ^ 41, 64 * 2 ^ 32, padBase 0 + 0x2000, padBase 0 + 0x3000, 0, 0, 0, padBase 0 + 0x4000] : List Nat).flatMap
    (leBytes 8)

/-- The doorbell word names a descriptor at 0x5000 of the scratchpad of core 0. -/
def bellDev (oper : Nat) (full : Bool) : State :=
  let s := clutch 0 0
  let m := twrite (twrite [] 0 (padBase 0 + 0x1000) (leBytes 8 (padBase 0 + 0x5000))) 0 (padBase 0 + 0x5000) (xDesc oper)
  { s with mem := m, feb := if full then [((padBase 0 + 0x1000) / 64, true)] else [] }

/-- An exchange taken, begun or not, whose last packet to member 1 is number 5. -/
def exchDev (begun : Bool) : State :=
  let s := clutch 0 0
  putFab s 0 { getFab s 0 with exch := [⟨xDesc 0, 2, begun, if begun then [(1, 5)] else []⟩] }

theorem witness_Exchanges :
    (let s := bellDev 0 true
     let w := rfld s (.doorbell 0) 43 0 / 64 * 64
     let a := bits (feValue s w) 43 0
     clutchOn s 0 = true ∧ overShare s 0 = false ∧ bellOp s 0 = none ∧ addrSlice s w = some 0 ∧ feFull s (feCell s w) = true ∧ unitPoison s (w / 64) = false ∧
       holdsRange s [(a, 64)] = false ∧ inSlice s 0 a 64 = true ∧ shutRange s [(a, 64)] = false ∧ memPoison s a 64 = false ∧ s.ecc = [] ∧ xOk s 0 (memBytes s a 64) = true) ∧
    (let s := bellDev 7 true
     let w := rfld s (.doorbell 0) 43 0 / 64 * 64
     let a := bits (feValue s w) 43 0
     feFull s (feCell s w) = true ∧ inSlice s 0 a 64 = true ∧ xOk s 0 (memBytes s a 64) = false) ∧
    (∀ a ∈ [0, 0x1000000000], let s := { bellDev 0 true with mem := twrite [] 0 (padBase 0 + 0x1000) (leBytes 8 a) }
     let s := if a = 0 then rsetf s (.mcState 0) 63 60 3 else s
     bits (feValue s (padBase 0 + 0x1000)) 43 0 = a ∧ feFull s (feCell s (padBase 0 + 0x1000)) = true ∧ holdsRange s [(a, 64)] = decide (a = 0) ∧
       (a ≠ 0 → inSlice s 0 a 64 = false)) ∧
    feFull (bellDev 0 false) (feCell (bellDev 0 false) (padBase 0 + 0x1000)) = false ∧ feCell (bellDev 0 false) (padBase 0 + 0x1000) ≠ .nowhere ∧
    (let s := exchDev false
     ((getFab s 0).exch.find? (fun y => !y.begun)).isSome = true ∧ timeOpen s = true ∧ slotFor s 0 (parseX (xDesc 0)).kind = true ∧
       (getFab s 0).exch.all (atStart s 0) = true ∧ holdsRange s (exchReads (parseX (xDesc 0)) ++ exchWrites s 0 (parseX (xDesc 0))) = false ∧
       shutRange s (exchReads (parseX (xDesc 0)) ++ exchWrites s 0 (parseX (xDesc 0))) = false) ∧
    (let s := exchDev true
     ((getFab s 0).exch.find? (exchAcked s 0)).isSome = true ∧ inSlice s 0 (parseX (xDesc 0)).done 8 = true) := by decide +kernel

/-- The exchange unit's TAKE of the doorbell word, waiting or with what it has got. -/
def bellTake (got : Option (W64 × Bool)) : FeOp := ⟨4, bellSrc 0, .take, padBase 0 + 0x1000, false, 0, none, 0, 0, 0, got.isNone, 0, got⟩
def bellWait (got : Option (W64 × Bool)) (full : Bool) : State := { bellDev 0 full with feOps := [bellTake got] }

/-- A ring outside the slice, no share left, a descriptor on a failed stack, a TAKE that waits or has its word. -/
theorem witness_Doorbells :
    (let s := rput (bellDev 0 true) (.doorbell 0) (BitVec.ofNat 64 (padBase 8)); placeOf (padBase 8) ≠ .nothing ∧ addrSlice s (padBase 8) ≠ some 0 ∧
      rfld s (.doorbell 0) 43 0 / 64 * 64 = padBase 8 ∧ overShare (rput s (.share 0) 0) 0 = true) ∧
    (let s := rput (rsetf (bellDev 0 true) (.mcState 19) 63 60 4) (.sectmap 19) 0x80
     inSlice s 0 (stkBase 19) 64 = true ∧ shutRange s [(stkBase 19, 64)] = true) ∧
    (∀ full ∈ [true, false], let s := bellWait none full
      clutchOn s 0 = true ∧ bellOp s 0 = some (bellTake none) ∧ feFull s (feCell s (bellTake none).addr) = full ∧ overShare s 0 = false ∧ s.ecc = []) ∧
    (let got : Option (W64 × Bool) := some (16492674437120, false)
     let s := bellWait got false
     bellOp s 0 = some (bellTake got) ∧ clutchOn s 0 = true ∧ bits (16492674437120 : W64) 43 0 = padBase 0 + 0x5000 ∧
       xOk s 0 (memBytes s (padBase 0 + 0x5000) 64) = true) := by decide +kernel

/-- A new packet, the 4,096th after the mark, one landed already; a reserved version, another generation. -/
theorem witness_PacketsReceived :
    let s := clutch 0 0
    let a := padBase 0 + 0x6000
    portUp s 7 = true ∧
    (∀ n ∈ [0, 4095, 2 ^ 32 - 1], let p := ift 0 1 0 n a (padBase 0 + 0x7000) 0 (List.replicate 8 5)
      let h := parseHdr p.bytes
      h.type = 0 ∧ hdrOk p.bytes = true ∧ admitted s 7 h = some (0, 1) ∧ dataInside s 0 h = true ∧
        (n = 2 ^ 32 - 1 → seqAfter h.seq (getRx s 0 (chanKey h.chan 1)).mark = false) ∧
        (n ≠ 2 ^ 32 - 1 → seqAfter h.seq (getRx s 0 (chanKey h.chan 1)).mark = true ∧
          (h.seq - (getRx s 0 (chanKey h.chan 1)).mark).toNat ≤ 4096)) ∧
    hdrOk (ift 0 0 0 0 (a + 1) 0 0 [5]).bytes = false ∧
    admitted { s with regs := rput s (.fabfw 0) 0 |>.regs } 7 (parseHdr (ift 0 0 0 0 a 0 0 [5]).bytes) = none := by decide +kernel

/-- A packet held that lands, its channel with a packet to acknowledge, and one sent that waits for its ACK with the tries given. -/
def chanDev (tries : Nat) (flags : Nat) : State :=
  let s := clutch 0 0
  let s := putRx s 0 (chanKey 0 1) ⟨4, [(5, (ift 0 flags 0 5 (padBase 0 + 0x6000) (if flags = 1 then padBase 0 + 0x7000 else 0) 0 [1, 2, 3, 4]))], 1⟩
  putTx s 0 (chanKey 0 1) ⟨6, [⟨5, (ift 0 0 0 5 (padBase 0) 0 0 [1]).bytes, tries, false⟩], []⟩

theorem witness_PacketsLand :
    let k : RxKey := ⟨0, 0, 2, 3⟩
    let t : TxKey := ⟨0, 0, 1⟩
    (addrSlice (chanDev 0 1) (padBase 0 + 0x7000) = some 0 ∧ placeOf (padBase 8) ≠ .nothing ∧ addrSlice (chanDev 0 1) (padBase 8) ≠ some 0) ∧
    (∀ f ∈ [0, 1], let s := chanDev 0 f
      memberOf s 0 2 3 = some 1 ∧ ((getRx s 0 (chanKey k.chan 1)).held.find? (fun y => y.1 == (getRx s 0 (chanKey k.chan 1)).mark + 1)).isSome = true ∧
        s.ecc = [] ∧ homeOf s ((padBase 0 + 0x6000) / 64) = .pad 0 0x180 ∧
        shutRange s [(padBase 0 + 0x6000, 4)] = false ∧ holdsRange s [(padBase 0 + 0x6000, 4)] = false ∧ (getRx s 0 (chanKey k.chan 1)).unacked ≠ 0) ∧
    (let h := parseHdr (ift 1 0 0 0 0 0 5 []).bytes
     h.type = 1 ∧ hdrOk (ift 1 0 0 0 0 0 5 []).bytes = true ∧ admitted (chanDev 0 0) 7 h = some (0, 1) ∧
     (let b := (ift 0 0 0 6 (padBase 0) 0 0 [2]).bytes
      let s := putFab (chanDev 0 0) 0 { getFab (chanDev 0 0) 0 with weight := 32, spent := 100392156 - b.length - 65 }
      let s := putTx s 0 (chanKey 0 1) ⟨7, [], [⟨6, b, 0, false⟩]⟩
      (getFab s 0).weight * 800000000 / 255 + 1 = (getFab s 0).spent + frameLen b ∧
        (getTx s 0 (chanKey h.chan 1)).queue.map TxPkt.seq = [6])) ∧
    (∀ n ∈ [0, 7, 8], ((getTx (chanDev n 0) t.slice (chanKey t.chan 1)).sent.find? (fun z => z.seq == (5 : BitVec 32).toNat)).map TxPkt.tries = some n ∧
      dataOpen (chanDev n 0) 0 = true ∧ (getTx (chanDev n 0) t.slice (chanKey t.chan 1)).sent.any TxPkt.due = false ∧
      dataOpen (rput (chanDev n 0) .chorus (BitVec.ofNat 64 (2 ^ 48))) 0 = false) ∧
    (let s := rput (exchDev true) .tick 100
     let s := putTx s 0 (chanKey 0 1) ⟨6, [⟨5, [], 1, false⟩], []⟩
     clutchOn s 0 = true ∧ (clPeers s 0).contains 1 = true ∧ tget (getFab s 0).lastOut 0 1 + 16 ≤ tickNow s ∧ waitsOn s 0 1 = true ∧
       tget (getFab s 0).lastIn 0 1 + rfld s (.clCfg 0) 7 0 ≤ tickNow s ∧
       silentSaid s 0 1 = false ∧
       (let e : Ev := ⟨6, 0, stCode .peerSilent, clsSlice, 0, 5, 0xFF, 0, 1, 0, mkDetail 0 1⟩
        let w := { s with log := { s.log with inFlight := [e], fatals := [(0, stCode .peerSilent, 6)] } }
        silentSaid w 0 1 = true ∧ silentSaid w 0 0 = false)) := by decide +kernel

/-- File 16, under R463: at a share of 32 a frame that brings the interval's bytes to 100,392,156 goes and one byte more does not; the next
interval lets it go (here with the port's link down, so that no port is drawn). -/
theorem test_quotaHoldsFrames :
    let b := (ift 0 0 0 6 (padBase 0) 0 0 [2]).bytes
    let s (n : Nat) : State :=
      let s := putFab (rput (clutch 0 0) (.share 0) 32) 0 { getFab (clutch 0 0) 0 with weight := 32, spent := 100392156 - frameLen b + n }
      runTx (putTx s 0 (chanKey 0 1) ⟨7, [], [⟨6, b, 0, false⟩]⟩) 0 1 (chanKey 0 1)
    let waits (s : State) : Nat := (getTx s 0 (chanKey 0 1)).queue.length
    waits (s 0) = 0 ∧ (getFab (s 0) 0).spent = 100392156 ∧ waits (s 1) = 1 ∧
      (match execFabricQuotaInterval 0 0 (rput (s 1) (.portStat 7) 0) with | .next t => (waits t, (getFab t 0).spent) | _ => (9, 9)) = (0, frameLen b) := by decide +kernel

/-- A PLAN of 24 bytes with its EFFECTIVE tick. -/
def planPkt (eff : Nat) : IftPacket := ift 4 0 0 0 0 0 0 (leBytes 8 0 ++ leBytes 8 eff ++ leBytes 8 0)

theorem witness_ClutchMessages :
    let s := clutch 0 1
    let m := clutch 0 0
    (let q : Plan := ⟨0, 100, 0⟩
     let x := putFab s 0 { getFab s 0 with pend := [⟨0, 101, 0⟩, q] }
     (getFab x 0).pend.find? (planDue x) = some q) ∧
    portUp s 7 = true ∧ portUp m 7 = true ∧ hdrOk (ift 2 0 0 0 0 0 0 []).bytes = true ∧ (parseHdr (ift 2 0 0 0 0 0 0 []).bytes).type = 2 ∧
    (∀ e ∈ [99, 100, 101], let h := parseHdr (planPkt e).bytes
      hdrOk (planPkt e).bytes = true ∧ h.type = 4 ∧ h.len = 24 ∧ admitted s 7 h = some (0, 1) ∧ clMaster s 0 = 1 ∧
        (planOf (payload (planPkt e).bytes)).effective.toNat = e ∧ tickNow s = 100) ∧
    (∀ st ∈ [0, 9], let p := ift 5 0 0 0 4096 0 st (List.replicate 4096 0)
      let h := parseHdr p.bytes
      let x := putBuu m 0 { upRun with phase := 1 }
      hdrOk p.bytes = true ∧ h.type = 5 ∧ admitted x 7 h = some (0, 1) ∧ clSelf x 0 = clMaster x 0 ∧ sumsForm x 0 1 h = true ∧
        (if st = 0 then (runFor x 0 h.aux).step = h.aux ∧ normOpen x 0 = true else (runFor x 0 h.aux).step ≠ h.aux)) ∧
    normOpen (rput (rsetf (putBuu m 0 { upRun with phase := 1 }) .timeState 63 60 1) (.share 0) 0 |> fun s => putFab s 0 { getFab s 0 with weight := 0 }) 0 = false ∧
    (let p := ift 6 0 0 0 0 0 0 (leBytes 4 0x3F800000 ++ leBytes 4 0 ++ [0])
     let h := parseHdr p.bytes
     hdrOk p.bytes = true ∧ h.type = 6 ∧ 9 ≤ h.len ∧ admitted s 7 h = some (0, 1) ∧ clMaster s 0 = 1 ∧ clSelf s 0 = 0 ∧
       rfld (rput s (.stepw 0) (BitVec.ofNat 64 (padBase 0 + 0x8000))) (.stepw 0) 43 0 ≠ 0 ∧ addrSlice s (padBase 0 + 0x8000) = some 0 ∧
       placeOf (padBase 8) ≠ .nothing ∧ addrSlice s (padBase 8) ≠ some 0 ∧ (sliceSects s 0).contains 0 = true) ∧
    (let x := putBuu s 0 { upRun with phase := 1 }
     let x := putFab x 0 { getFab x 0 with vecs := [(0, [])] }
     clutchOn x 0 = true ∧ vecsReady x 0 = true ∧ normOpen x 0 = true ∧ clSelf x 0 ≠ clMaster x 0) := by decide +kernel

theorem witness_TimebaseAndPorts :
    let s := { rput (clutch 0 0) .timeCtl 1 with tb := { (clutch 0 0).tb with good := 15, cable := [(7, true)] } }
    let s := rput s (.portCtl 0) 1
    let s := rput s (.portStat 0) (BitVec.ofNat 64 (2 ^ 63))
    portUp s 0 = true ∧ rbit s .timeCtl 0 = true ∧ rfld s .timeCtl 3 1 = 0 ∧ rfld s .timeCtl 11 4 = 0 ∧
    (offsetOf 100).natAbs ≤ 100 ∧ ¬ (offsetOf 101).natAbs ≤ 100 ∧ (offsetOf (BitVec.ofInt 32 (-100))).natAbs ≤ 100 ∧
    s.incs = [] ∧ timeState s = 1 ∧ timeState (rsetf s .timeState 63 60 2) = 2 ∧ chorusP s ≠ 0 ∧ s.tb.slot < 15 ∧
    host s 0 .timeCtl = true ∧ host s 0 (.portCtl 7) = true ∧ host dev 0 .chorus = true ∧ dev.incs = [] ∧ all20.any (clutchOn dev) = false ∧ rbit s (.portCtl 7) 0 = true ∧ tget s.tb.cable false 7 = true ∧ hubReady s = true := by
  decide +kernel

end Sys2Proof.Tests
end

