-- ==== Sys2Proof/Tests/Rings.lean ====
section
/-!
SUPPORT. Witnesses of the statements about rings, packets, slices, keys, firmware, events and functions. What a key, a signature or an image
decides is opaque in the model (DESIGN CHOICE, log 20), so no state here shows an image that verifies or a delivered key's halves; the statements split
on those alone.
-/

namespace Sys2Proof.Tests

-- one test at a time: the kernel evaluates each, and their threads would add up
set_option Elab.async false

open Sys2Proof Sys2Proof.Machine

/-- A command packet of opcode op for a slice with its parameters; SEQ 9, IRQ and PROGRESS set. -/
def packet (op slice : Nat) (ps : List Nat) : List Byte :=
  bytesAt (leBytes 2 op ++ [3, BitVec.ofNat 8 slice] ++ leBytes 4 9 ++ ps.flatMap (leBytes 8)) 0 64

/-- Ring 0 of the PF enabled with 16 slots. -/
def ringed (s : State) : State := fput s 0 (.ringCtl 0) (BitVec.ofNat 64 (4 * 256 + 1))

/-- The packet as number 0 of that ring, taken and alone. -/
def tk (b : List Byte) (begun : Bool) : Taken := ⟨0, 0, 0, b, begun, 0, 0, false, false, none, none, 0⟩
def took (b : List Byte) (begun : Bool) (s : State) : State :=
  { ringed s with mp := { s.mp with taken := [tk b begun], nextId := 1 } }

/-- May the packet begin, with room for its reply? -/
def goes (s : State) (b : List Byte) : Bool := turn (took b false s) 0 (pkOp b) (tk b false) && room (took b false s) 0 0

/-! Rings. -/

/-- Doorbells at the last slot and one beyond; packets waiting: one refused, one of class A, one of class T. -/
theorem witness_Rings :
    let s := fput (ringed dev) 0 (.sqdb 0) 1
    host s 0 (.sqdb 0) = true ∧ ringLen s 0 0 = 16 ∧ host s 0 (.cqdb 0) = true ∧ s.mp.replies = [] ∧
    hubReady s = true ∧ ringOn s 0 0 = true ∧ takesPackets s 0 = true ∧ sqHead s 0 0 ≠ sqTail s 0 0 ∧ room s 0 0 = true ∧
    creditUse s 0 < credits s 0 ∧
    (let w := { s with mp := { s.mp with taken := List.replicate 64 (tk (packet opQuery 0 []) false) } }
     credits w 0 ≤ creditUse w 0 ∧ pkOp (packet opQuery 0 []) ≠ opPing) ∧
    firstChecks s 0 (packet 0x7777 0 []) = some .badOpcode ∧
    (∀ b ∈ [packet opScrub 0 [0], packet opQuery 0 []], firstChecks s 0 b = none ∧ b.length = 64 ∧
      turnOf { s with mp := { s.mp with taken := s.mp.taken ++ [tk b false], nextId := 1 } } (tk b false) ≠ .badState) ∧
    pkCls (packet opScrub 0 [0]) = .a ∧ pkCls (packet opQuery 0 []) = .t ∧
    (let b := packet opScrub 0 [0]
     let w := took b true dev
     getTaken w 0 = some (tk b true) ∧ pkProgress b = true ∧ opForm b = 1 ∧ room w 0 0 = true ∧ opTotal b = 10000 ∧ w.tb.time = 0 ∧
       ∀ d ∈ [99, 100], progressDue w (tk b true) d = decide (d = 100)) ∧
    (∀ z ∈ [4, 16], let v : W64 := BitVec.ofNat 64 (z * 256 + 1); host dev 0 (.ringCtl 0) = true ∧ bit v 0 = true ∧ bit v 1 = false ∧
      bits v 12 8 = z ∧ ringOn dev 0 0 = false ∧ ringTaken dev 0 0 = false) ∧
    host s 0 (.ringCtl 0) = true ∧ bits (BitVec.ofNat 64 (4 * 256 + 2)) 12 8 = ffld s 0 (.ringCtl 0) 12 8 ∧
    (sqTail s 0 0 + ringLen s 0 0 - sqHead s 0 0) % ringLen s 0 0 = 1 ∧
    (let w := fput (fput s 0 (.sqdb 0) 15) 0 (.cqdb 0) (BitVec.ofNat 64 (5 * 2 ^ 32 + 5))
     (sqTail w 0 0 + ringLen w 0 0 - sqHead w 0 0) % ringLen w 0 0 = 15 ∧ ffld w 0 (.cqdb 0) 47 32 < ringLen w 0 0 ∧ ffld w 0 (.cqdb 0) 15 0 < ringLen w 0 0 ∧
       15 ≤ (ffld w 0 (.cqdb 0) 15 0 + ringLen w 0 0 - ffld w 0 (.cqdb 0) 47 32 - 1) % ringLen w 0 0) ∧ host s 0 (.ringSq 0) = true ∧ host s 0 (.ringCq 0) = true := by
  decide +kernel

/-! Slices. -/

/-- A scrub of slice 0 under way for the packet, under a new key or not. -/
def scrubs (y : ScrubWhy) (b : List Byte) (s : State) : State :=
  let w := took b true s
  { w with mp := { w.mp with scrub := [(0, some y)] } }

/-- An access to slice 0's stack that is held. -/
def meets (s : State) : State := { s with held := [.req (req .read 0 8 0 .clean)] }

theorem witness_SliceCommands :
    (∀ b ∈ [packet opPing 0xFF [], packet opQuery 0 [], packet opClose 0 [], packet opScrub 0 [0]], goes dev b = true) ∧
    (let b := packet opOpen 0 [16 * 2 ^ 32]
     let s := setSliceState dev 0 0
     goes s b = true ∧ packetMeets (took b false s) 0 = false ∧ goes (meets s) b = true ∧ packetMeets (took b false (meets s)) 0 = true) ∧
    sliceRunning dev 0 = false ∧
    goes (headed .mxe 0 dev) (packet opScrub 0 [0]) = true ∧ sliceRunning (headed .mxe 0 dev) 0 = true ∧
    (∀ x ∈ [(ScrubWhy.key 0, packet opOpen 0 [16 * 2 ^ 32]), (.packet 0, packet opClose 0 []), (.packet 0, packet opScrub 0 [0]),
        (.key 0, packet opKey 0 [0, 1568])],
      let w := scrubs x.1 x.2 dev
      tget w.mp.scrub none 0 = some x.1 ∧ (sliceSects w 0).any (inRecal w) = false ∧ sliceRunning w 0 = false ∧ accessIn w 0 = false ∧ w.held = [] ∧ getTaken w 0 = some (tk x.2 true) ∧
        hubReady w = true ∧ room w 0 0 = true ∧ pkSl x.2 = some 0) ∧
    (sliceSects recalDev 0).any (inRecal recalDev) = true ∧ sliceState (setSliceState dev 0 5) 0 = 5 ∧ accessIn (setSliceState dev 0 5) 0 = false ∧
    (let w := scrubs (.key 0) (packet opOpen 0 [16 * 2 ^ 32]) dev
     sectSlice w 0 = some 0 ∧ placeOf 0 = .stack 0 0 ∧ memUp w = true ∧ stackOpen w 0 = true) := by decide +kernel

/-- LOAD_PROGRAM of the words at the end of bank 0, of the entries at the end of the descriptor file, and into a running bank; the start
and the stop of the matrix engine; a clutch of one member; a plan for now and for tick 1024; settings. -/
theorem witness_ProgramsAndSettings :
    let load (tg i n : Nat) : List Byte := packet opLoad 0 [0, 2 ^ 16 + tg * 2 ^ 21 + i * 2 ^ 32, n]
    let start := packet opStart 0 [2 ^ 11 + 5, 2 ^ 16]
    let stop := packet opStop 0 [0, 2 ^ 16]
    let run := headed .mxe 0 dev
    let ck (d : Nat) : List Byte := packet opClutch 0 [80 * 2 ^ 12, d * 32]
    let m := clutch 0 0
    (∀ b ∈ [load 0 2047 1, load 2 31 1], goes dev b = true ∧ cselCores dev 0 b = [0] ∧ cselEngs b = [.mxe] ∧ loadCount b ≤ 2048) ∧
    (let b := packet opLoad 0 [0, 2 ^ 16 + 2 ^ 8 + 2047 * 2 ^ 32, 1]
     goes dev b = true ∧ cselCores dev 0 b = [0, 1] ∧ cselEngs b = [.mxe] ∧ pkF b 1 22 21 = 0 ∧ (tk b false).load = none) ∧
    pkF (load 0 2047 1) 1 22 21 = 0 ∧ bankOpen (getEng dev 0 .mxe) false = true ∧ pkF (load 2 31 1) 1 22 21 = 2 ∧ loadCount (load 2 31 1) ≤ 256 ∧
    (getEng dev 0 .mxe).mode = .halted ∧ goes run (load 0 0 1) = true ∧ bankOpen (getEng run 0 .mxe) false = false ∧
    goes dev start = true ∧ cselCores dev 0 start = [0] ∧ cselEngs start = [.mxe] ∧ still (took start false dev) = true ∧ coreSlice dev 0 = some 0 ∧
    goes run stop = true ∧ still (took stop false run) = true ∧ (getEng run 0 .mxe).mode = .running ∧ (getEng run 0 .mxe).wait = .none ∧
    quiet run 0 .mxe = true ∧
    goes m (ck 0) = true ∧ rfld m (.fabfw 0) 63 48 ≤ ckDev (ck 0) 0 ∧ ckDev (ck 0) 0 ≤ rfld m (.fabfw 0) 47 32 ∧
    (let w := rput m (.fabfw 0) (BitVec.ofNat 64 (9 * 2 ^ 48 + 9 * 2 ^ 32)); goes w (ck 0) = true ∧ ¬ rfld w (.fabfw 0) 63 48 ≤ ckDev (ck 0) 0) ∧
    goes m (packet opClutch 0 [2 ^ 20]) = true ∧
    (∀ e ∈ [0, 1024], goes m (packet opMoult 0 [0, e, 0]) = true ∧ pkP (packet opMoult 0 [0, e, 0]) 1 % 2 ^ rfld m .chorus 12 8 = 0) ∧
    (∀ k ∈ [0, 1, 2], goes dev (packet opQuota 0 [k, 7]) = true) ∧
    goes dev (packet opRetire 0xFF [19, 0xBFFFF]) = true ∧ fin? 20 (pkF (packet opRetire 0xFF [19, 0xBFFFF]) 0 4 0) = some 19 ∧
    pageRetired dev 19 0xBFFFF = false ∧ rfld dev (.retireStat 19) 41 32 < 512 ∧
    (let w := rsetf dev (.retireStat 19) 41 32 512; goes w (packet opRetire 0xFF [19, 0xBFFFF]) = true ∧ pageRetired w 19 0xBFFFF = false ∧
      512 ≤ rfld w (.retireStat 19) 41 32) ∧
    goes dev (packet opBudget 0xFF []) = true ∧ goes dev (packet opCap 0xFF [800]) = true := by decide +kernel

/-! Keys and signing. -/

/-- Slice 0 with a DEVICE key, a key pair and a quota; the session tree signed; a batch of up to 2^k quotes. -/
def keyDev (k : Nat) : State :=
  let s := rsetf (rsetf dev (.sliceKey 0) 63 60 1) (.sliceKey 0) 59 59 1
  let s := rput s .batch (BitVec.ofNat 64 (100 * 2 ^ 16 + k))
  let s := putSec s 0 { getSec s 0 with kem := some ([], []), quota := 4 }
  { s with sp := { s.sp with tree := true, sessSig := some [], ok := true }, fw := { s.fw with mram := { s.fw.mram with nextA := some 0 } } }

/-- The session tree not yet there, with identity leaves used. -/
def treeDev (used : Nat) : State :=
  let s := keyDev 0
  ringed { s with sp := { s.sp with tree := false }, fw := { s.fw with mram := { s.fw.mram with nextA := some used } } }

theorem witness_KeysAndSignatures :
    let q := packet opQuote 0 [0, 0, 16384]
    let c := packet opConfirm 0xFF [0xFFFFFFFF, 0]
    let pend (p : List PendSign) (s : State) : State := { s with sp := { s.sp with pend := p } }
    (let b := packet opKey 0 [0, 1568]
     goes (keyDev 1) b = true ∧ packetMeets (took b false (keyDev 1)) 0 = false ∧ goes (meets (keyDev 1)) b = true ∧
       packetMeets (took b false (meets (keyDev 1))) 0 = true) ∧
    sliceRunning (keyDev 1) 0 = false ∧ keyState (keyDev 1) 0 = 1 ∧ kemReady (keyDev 1) 0 = true ∧
    (getSec (keyDev 1) 0).kem = some ([], []) ∧
    (let w : State := { keyDev 1 with mem := [(64, 1), (70, 2), (128, 3)] }
     ((sliceSects w 0).flatMap (storedSectors w)) = [1, 2] ∧ tget w.cached false 1 = false) ∧
    (∀ k ∈ [0, 1], goes (keyDev k) q = true ∧ (keyDev k).sp.tree = true ∧ quoteRefused (keyDev k) 0 = none ∧ (keyDev k).sp.batch = [] ∧
      batchLimit (keyDev k) = k + 1) ∧
    quoteRefused { keyDev 0 with sp := { (keyDev 0).sp with sessUsed := 32768 } } 0 = some .signRefused ∧
    (let w := took q true (keyDev 1)
     let w := { w with sp := { w.sp with batch := [⟨0, [], 0⟩] } }
     getTaken w 0 = some (tk q true) ∧ room w 0 0 = true) ∧
    hubReady (treeDev 0) = true ∧ (treeDev 0).sp.tree = false ∧ (treeDev 0).sp.pend = [] ∧ canSign (treeDev 0) = true ∧ budgetLow (treeDev 0) = false ∧
    canSign (treeDev 32000) = true ∧ budgetLow (treeDev 32000) = true ∧ room (treeDev 32000) 0 0 = true ∧ canSign (treeDev 32768) = false ∧
    goes (pend [.session] (treeDev 32000)) c = true ∧ pkF c 0 31 0 = noSeq ∧ canSign (treeDev 32000) = true ∧ goes (treeDev 0) c = true ∧
    (let a := packet opActivate 0xFF []
     let w := pend [.packet 0] (took a true (treeDev 32000))
     let w := { w with fw := { w.fw with act := { w.fw.act with pkt := some 0 } } }
     getTaken w 0 = some (tk a true) ∧ room w 0 0 = true) := by decide +kernel

/-! Firmware. -/

/-- The inactive slot in a state with blocks, the active one empty; an update or an activation in progress. -/
def fwDev (st : Nat) (bs : List (List Byte)) (upd : Option (Nat × Nat × Nat)) (phase unit : Nat) (swapped : Bool) (s : State) : State :=
  { s with fw := { s.fw with slots := [(0, ⟨slActive, []⟩), (1, ⟨st, bs⟩)], upd := upd,
                             act := { s.fw.act with phase := phase, unit := unit, swapped := swapped, pkt := some 0 } } }

/-- A manifest whose MP image has version 1, outside every range of zeros. -/
def newMan : List (List Byte) := [List.replicate (entAt 1 + 2) 0 ++ [1]]

theorem witness_Firmware :
    let u := packet opUpdate 0xFF [0, 65536]
    let a := packet opActivate 0xFF []
    let d := treeDev 0
    idleSlot d = 1 ∧ goes (fwDev 0 [] none 0 0 false d) u = true ∧ fwBusy (fwDev 0 [] none 0 0 false d) = false ∧
    goes (fwDev 1 [] (some (5, 1, 0)) 0 0 false d) u = true ∧ fwBusy (fwDev 1 [] (some (5, 1, 0)) 0 0 false d) = true ∧
    (∀ k ∈ [0, 1, 2], let w := fwDev 1 [] (some (0, k, 0)) 0 0 false (took u true d)
      w.fw.upd = some (0, k, 0) ∧ getTaken w 0 = some (tk u true) ∧ room w 0 0 = true ∧ (tk u true).cut = false) ∧
    huskOk [] = false ∧
    (let w := fwDev slVerified [] none 0 0 false d
     goes w a = true ∧ fwBusy w = false ∧ (getSlot w 1).st = slVerified ∧
       compatible (slotPay w (activeSlot w)) w.fw.act.spMan (slotPay w 1) = true ∧ canSign w = true ∧ budgetLow w = false) ∧
    (let w := fwDev slVerified newMan none 0 0 false d
     goes w a = true ∧ compatible (slotPay w (activeSlot w)) w.fw.act.spMan (slotPay w 1) = false) ∧
    (getSlot (fwDev slEmpty [] none 0 0 false d) 1).st ≠ slVerified ∧
    (∀ ph ∈ [2, 3, 4], let w := fwDev slVerified [] none ph 0 true (took a true d)
      w.fw.act.swapped = true ∧ w.fw.act.phase = ph ∧ w.fw.act.pkt = some 0 ∧ getTaken w 0 = some (tk a true) ∧ room w 0 0 = true) ∧
    (∀ n ∈ [18, 19], (fwDev slVerified [] none 2 n true d).fw.act.unit = n) ∧
    (∀ n ∈ [0, 25], let w := { fwDev slVerified [] none 6 0 false d with fw := { (fwDev slVerified [] none 6 0 false d).fw with act :=
        { (fwDev slVerified [] none 6 0 false d).fw.act with posted := n } } }
      w.fw.phase = .ready ∧ w.fw.act.phase = 6 ∧ w.fw.act.posted = n ∧ n < 26) ∧
    (getSlot (fwDev slInvalid [] none 0 0 false d) 1).st = slInvalid ∧ fwBusy (fwDev slInvalid [] none 0 0 false d) = false ∧
    (∀ n ∈ [65535, 65536], (getWear (putWear dev.fw.mram .mono ⟨3, 7, n⟩) .mono).writes = n) := by decide +kernel

/-! Events, logs, functions. -/

/-- An event of slice 0, and its record in slice 0's ring. -/
def ev (slice : Nat) : Ev := ⟨1, 0, ntGeneral, clsNone, slice, 5, 0xFF, 0, 1, 0, 0⟩
def rec (seq : Nat) (read : Bool) : LogRec := ⟨seq, ev 0, 0, false, read⟩
def logDev (q : List LogRec) : State := { dev with log := { dev.log with inFlight := [ev 0], rings := [(0, q)], nextSeq := 5000 } }

/-- A full ring whose oldest record has been read, one in loss, and one that enters loss, the next record read or not. -/
theorem witness_FullRings :
    (let q := rec 1 true :: List.replicate 4095 (rec 2 false)
     logRing (logDev q) 0 = q ∧ q.length = 4096 ∧ q.head? = some (rec 1 true)) ∧
    (let q := List.replicate 4096 (rec 1 false)
     let w := { logDev q with log := { (logDev q).log with loss := [(0, true)] } }
     logRing w 0 = q ∧ q.length = 4096 ∧ q.head? = some (rec 1 false) ∧ tget w.log.loss false 0 = true) ∧
    (∀ r, let q := rec 1 false :: rec 2 r :: List.replicate 4094 (rec 3 false)
      logRing (logDev q) 0 = q ∧ q.length = 4096 ∧ (rec 1 false).read = false ∧ (rec 2 r).read = r ∧ tget (logDev q).log.loss false 0 = false) :=
  ⟨⟨rfl, by rw [List.length_cons, List.length_replicate], rfl⟩, ⟨rfl, List.length_replicate .., rfl, rfl⟩,
    fun _ => ⟨rfl, by rw [List.length_cons, List.length_cons, List.length_replicate], rfl, rfl, rfl⟩⟩

/-- An event that decides a FINAL reply, with the packet that waits for it. -/
def owedDev : State :=
  let e : Ev := ⟨1, 0, stCode .bankBusy, clsNone, 0, 5, 0xFF, 0, 1, 0, 0⟩
  let w := took (packet opLoad 0 []) true dev
  { w with mp := { w.mp with taken := [{ tk (packet opLoad 0 []) true with owed := some ⟨.bankBusy, 0, 0, 0, 0, 1⟩ }] },
           log := { w.log with inFlight := [e], nextSeq := 5000 } }

theorem witness_OwedReplies : owedDev.log.inFlight.map (fun e => (evRing e, e.id, e.cause)) = [(0, 1, stCode .bankBusy)] ∧ hubReady owedDev = true ∧
    owedDev.mp.taken.map (fun t => (t.owed, t.load, t.mute)) = [(some ⟨.bankBusy, 0, 0, 0, 0, 1⟩, none, false)] ∧ room owedDev 0 0 = true ∧
    (logRing owedDev 0).length = 0 := by decide +kernel

theorem witness_EventsAndLogs :
    (logDev []).mp.taken = [] ∧
    (∀ q ∈ [[], [rec 1 false]], (logDev q).log.inFlight = [ev 0] ∧ hubReady (logDev q) = true ∧ evRing (ev 0) = 0 ∧ logRing (logDev q) 0 = q) ∧
    faultNow (logDev []) (ev 0) = false ∧ faultNow (logDev []) { ev 0 with cls := clsSlice } = true ∧
    (let e : Ev := { ev 0 with cls := clsSlice, cause := stCode .updatePoison }
     faultNow (logDev []) e = false ∧ faultNow { logDev [] with log := { (logDev []).log with fatals := [(0, stCode .updatePoison, 1)] } } e = true) ∧
    rekeying dev 0 = false ∧ rekeying (scrubs (.key 0) [] dev) 0 = true ∧ evRing { ev 0 with cls := clsSlice } = 0 ∧ sameSource { ev 0 with cls := clsSlice } (rec 1 false) = false ∧
    sameSource (ev 0) (rec 1 false) = true ∧
    goes (logDev [rec 1 false]) (packet opLog 0 [0x1000, 1 * 2 ^ 32]) = true ∧ goes dev (packet opTele 0xFF [0x1000]) = true ∧
    dev.fw.phase ≠ .held ∧ sectSlice dev 0 = some 0 ∧
    (let w := { logDev [rec 7 false] with log := { (logDev [rec 7 false]).log with inFlight := [], fatals := [(0, ntGeneral, 1)] } }
     w.log.fatals.find? (fun y => y.1 == 0 && y.2.1 == ntGeneral) = some (0, ntGeneral, 1) ∧ seqOf w 0 1 ntGeneral = some 7 ∧
       jobEnding w 0 = false ∧ sliceState w 0 = 2) ∧
    (let w := { fput (ringed dev) (sliceFunc 0) (.ringCtl 0) (BitVec.ofNat 64 (4 * 256 + 1)) with mp := { dev.mp with jobE := [(0, 7)] } }
     tget w.mp.jobE 0 0 ≠ 0 ∧ tget w.mp.scrub none 0 = none ∧ room w 0 0 = true ∧ room w (sliceFunc 0) 0 = true) := by decide +kernel

/-- Aperture 15 of the PF on the first 4 GB of the map, where core 0's scratchpad and stack 0 lie; slice 0 lets the PF in, or not. -/
def apDev (open_ : Bool) (page : Nat) : State :=
  rput (fput dev 0 (.ap 15) (BitVec.ofNat 64 (2 ^ 63 + page))) .pfBar2 (if open_ then 1 else 0)

theorem witness_Functions :
    let off : BitVec 36 := BitVec.ofNat 36 (15 * 2 ^ 32 + 0x3F)
    let s := apDev true (padBase 0 / 2 ^ 32)
    let refused : State := { s with mp := { s.mp with refusal := [(0, some 3)] } }
    funcExists s 0 = true ∧ hubReady s = true ∧ bar2Check s 0 off 2 = (.ok, padBase 0 + 0x3F) ∧ s.ecc = [] ∧
    holdsRange s [(padBase 0 + 0x3F, 2)] = false ∧
    (let w := rsetf (apDev true 0) (.mcState 0) 63 60 3; bar2Check w 0 off 2 = (.ok, 0x3F) ∧ holdsRange w [(0x3F, 2)] = true) ∧
    (∀ i ∈ [0, 1], homeOf s ((padBase 0 + 0x3F + i) / 64) = .pad 0 i) ∧
    bar2Check (apDev false (padBase 0 / 2 ^ 32)) 0 off 2 = (.protection, padBase 0 + 0x3F) ∧
    (bar2Check (apDev true 0xFFF) 0 off 2).1 = .address ∧ tget s.mp.refusal none 0 = none ∧
    tget refused.mp.refusal none 0 = some 3 ∧ sliceDefined s 0 = true ∧ s.fw.phase ≠ .held ∧ s.fw.pinLow = false := by decide +kernel

end Sys2Proof.Tests
end

