-- ==== Sys2Proof/Tests/Boot.lean ====
section
/-!
SUPPORT. Witnesses of the statements about resets, boot, power, temperature and the invariant. Whether an image verifies is opaque in the
model (DESIGN CHOICE, log 20), so the states below hold no image that does.
-/

namespace Sys2Proof.Tests

-- one test at a time: the kernel evaluates each, and their threads would add up
set_option Elab.async false

open Sys2Proof Sys2Proof.Machine

/-! A block with a good CRC, and one without (R438). -/

theorem leNat_leBytes (k : Nat) : ∀ n < 256 ^ k, leNat (leBytes k n) = n := by
  induction k with
  | zero => intro n h; simp at h; simp [h, leBytes, leNat]
  | succ k ih =>
    intro n h
    rw [leBytes, leNat, ih (n / 256) (by rw [Nat.pow_succ] at h; omega), BitVec.toNat_ofNat]
    omega

/-- A block of zeros with a CRC. -/
def blockOf (c : BitVec 32) : List Byte := List.replicate blkPay 0 ++ leBytes 4 c.toNat

theorem blockOf_length (c : BitVec 32) : (blockOf c).length = 65536 := by
  rw [blockOf, List.length_append, List.length_replicate]; rfl

theorem blockOf_take (c : BitVec 32) : (blockOf c).take blkPay = List.replicate blkPay 0 := by
  rw [blockOf, List.take_append_of_le_length (by simp), List.take_of_length_le (by simp)]

theorem blockOf_drop (c : BitVec 32) : (blockOf c).drop blkPay = leBytes 4 c.toNat := by
  rw [blockOf, List.drop_append_of_le_length (by simp), List.drop_of_length_le (by simp), List.nil_append]

theorem blockOf_ok (c : BitVec 32) : blockOk (blockOf c) = (c == crc32c (List.replicate blkPay 0)) := by
  have h4 : (leBytes 4 c.toNat).length = 4 := by simp [leBytes]
  have hf : fieldAt (blockOf c) blkPay 4 = c.toNat := by
    rw [fieldAt, bytesAt, blockOf_drop, List.take_of_length_le (Nat.le_of_eq h4), h4]
    simp only [Nat.sub_self, List.replicate_zero, List.append_nil]
    exact leNat_leBytes 4 _ c.isLt
  rw [blockOk, blockOf_length, hf, blockOf_take, Bool.eq_iff_iff]
  simp [BitVec.toNat_inj]

theorem witness_Blocks : (∃ b, blockOk b = true ∧ b.length = 65536) ∧ ∃ b, blockOk b = false ∧ b.length = 65536 := by
  generalize hc : crc32c (List.replicate blkPay 0) = c
  refine ⟨⟨blockOf c, by rw [blockOf_ok, hc, beq_self_eq_true], blockOf_length _⟩, ⟨blockOf (c + 1), ?_, blockOf_length _⟩⟩
  rw [blockOf_ok, hc, beq_eq_false_iff_ne]
  intro h
  bv_omega

/-! Resets and boot. -/

/-- A device in a boot phase. -/
def inPhase (p : BootPhase) (s : State) : State := { s with fw := { s.fw with phase := p } }

theorem witness_Resets : host dev 0 .hubReset = true ∧ dev.fw.phase ≠ .held ∧ State.reset.fw.phase = .held ∧
    State.reset.pwr.tripHold = false ∧
    (∀ mv ∈ [42499, 42500], ∀ t ∈ [true, false], let w : State := { State.reset with pwr := { State.reset.pwr with tripHold := t, lastMv := mv } }
      w.fw.phase = .held ∧ w.pwr.tripHold = t ∧ fed w = decide (42500 ≤ mv)) := by decide +kernel

theorem witness_Boot :
    let s := fwDev slVerified [] none 0 0 false State.reset
    let tr := inPhase .trained State.reset
    romOk (slotBlocks s (activeSlot s)) = false ∧ romOk (slotBlocks s (idleSlot s)) = false ∧ huskOk (slotBlocks s (activeSlot s)) = false ∧
    (let w := rsetf (inPhase .stage1 State.reset) (.mcState 19) 63 60 1
     let all : State := { w with fw := { w.fw with trained := (List.range 19).map fun n => (n, true) } }
     rfld w (.mcState 19) 63 60 = 1 ∧ (∃ m : N20, m ≠ 19 ∧ tget w.fw.trained false m.val = false) ∧ rfld all (.mcState 19) 63 60 = 1 ∧
       ∀ m : N20, m ≠ 19 → tget all.fw.trained false m.val = true) ∧
    tr.fw.mram.part = none ∧ (∀ k : N20, k ≠ 0 → rget tr (.keyslot k) = 0) ∧ rfld tr (.mcState 0) 63 60 ≠ 4 ∧ rfld tr (.mcState 0) 63 60 ≠ 2 ∧
    rbit tr .prot 0 = false ∧ (lockKeys tr && lockFw tr && lockEnc tr) = true ∧
    (let w := rput tr (.sectmap 19) 0x80; (lockKeys w && lockFw w && lockEnc w) = false) ∧ rbit (rput tr .prot 1) .prot 0 = true ∧
    (let w := fwDev slVerified [] none 6 0 false dev; w.fw.act.phase = 6 ∧ (getSlot w (idleSlot w)).st = slVerified) ∧
    (let w := fwDev slEmpty [] none 6 0 false dev; (getSlot w (idleSlot w)).st ≠ slVerified) := by decide +kernel

/-! Power and temperature. -/

/-- A sample with the input at mv millivolts and every rail nominal. -/
def rails (mv : Nat) : RailSample := ⟨mv, railNom⟩
/-- After a sample with the input at mv millivolts. -/
def afterRail (mv : Nat) (dip : Bool) (low : List Bool) (aux : Bool) : State :=
  let r : Nat := if dip then 2 else 0
  { rsetf dev .pwrStat 2 0 r with
      pwr := { dev.pwr with warn := warnOf (rails mv), rst := rstOf (rails mv), dip := dip, low := low, aux := aux } }

/-- Just below and at the reset and warning levels, twice; the auxiliary input there or not; a dip with a level low and with none. -/
theorem witness_Power :
    nthD (rstOf (rails 37999)) 0 false = true ∧ (rstOf (rails 38000)).all (fun x => !x) = true ∧ nthD (warnOf (rails 41999)) 0 false = true ∧
    (warnOf (rails 42000)).all (fun x => !x) = true ∧ dev.fw.phase ≠ .held ∧
    (∀ x ∈ [true, false], nthD (afterRail 37999 false [] x).pwr.rst 0 false = true ∧ (afterRail 37999 false [] x).pwr.aux = x ∧
      (afterRail 37999 false [] x).fw.phase ≠ .held) ∧
    nthD (afterRail 41999 false [] true).pwr.warn 0 false = true ∧ nthD (afterRail 41999 false [] true).pwr.rst 0 false = false ∧
    (∀ x ∈ [true, false], let w := afterRail 41999 x [true] true
      w.pwr.dip = x ∧ w.pwr.low.any id = true ∧ w.pwr.warn.length = 9 ∧ rfld w .pwrStat 2 0 = controls w.pwr) ∧
    (let w := afterRail 43000 true [false] true
     w.pwr.dip = true ∧ w.pwr.low.any id = false ∧ rfld w .pwrStat 2 0 = controls w.pwr ∧ nthD (upOf (rails 42501)) 0 false = true ∧
       nthD (upOf (rails 42500)) 0 false = false) ∧
    coresUp dev = true ∧ host dev 0 .vinMin = true := by decide +kernel

/-- Over the limits, at them, and below. -/
theorem witness_Temperature :
    (∃ t ∈ [1150], 1150 ≤ t) ∧ ¬ (∃ t ∈ [1149], 1150 ≤ t) ∧ ¬ (∃ t ∈ [104], 105 ≤ t) ∧
    (∀ p ∈ [BootPhase.ready, .held], ∀ x ∈ [true, false], ∀ n ∈ [98, 99],
      let w := inPhase p { dev with pwr := { dev.pwr with trip := x, temps := n } }
      w.fw.phase = p ∧ w.pwr.trip = x ∧ w.pwr.tripHold = false ∧ w.pwr.temps = n) ∧ dev.fw.phase ≠ .held ∧ hubReady dev = true ∧
    rfld dev .pwrStat 2 0 = controls dev.pwr ∧ i3cUp dev = true ∧ fed dev = true ∧
    (∀ x ∈ [true, false], let w : State := { State.reset with pwr := { State.reset.pwr with aux := x } }; i3cUp w = x ∧ fed w = false) ∧
    (∀ x ∈ [true, false], { dev with fw := { dev.fw with pinLow := x } }.fw.pinLow = x) ∧
    { dev with pwr := { dev.pwr with band := 2 } }.pwr.band = 2 ∧ dev.side.dynAddr = none ∧
    { dev with side := { dev.side with dynAddr := some 9 } }.side.dynAddr ≠ none := by decide +kernel

/-! The invariant: a ready device meets it, and its step is a next state. -/

/-- A ready device whose registers, memory and leaf counters are all in use, with a command waiting. -/
def invDev : State :=
  let s := { treeDev 5 with mem := [(4, 1), (9, 7)], feb := [(3, true)], pending := [.holdoverTimeout, .chorusTick] }
  { s with fw := { s.fw with mram := { s.fw.mram with nextA := some 5, nextB := some 5, mono := 5 } } }

/-- The canonical form as one check. -/
def canonOk (s : State) : Bool :=
  Memory.wf s.mem && twf s.poison false && twf s.feb false && twf s.syncw ⟨0, false⟩ && twf s.syncp false && twf s.ecc .none && twf s.cached false &&
    twf s.cores coreReset && twf s.buu buuReset && twf s.fab fabSliceReset && twf s.dirty false

theorem canon_of {s : State} (h : canonOk s = true) (hr : tasc s.regs) (hf : tasc s.fregs) (hi : tasc s.incs) : Canon s := by
  simp only [canonOk, Bool.and_eq_true] at h
  constructor <;> first | exact hr | exact hf | exact hi | simp only [h]

theorem witness_Inv : Inv invDev ∧ ∃ t, step invDev = .next t ∧ t.pending = [.chorusTick] :=
  ⟨⟨canon_of (by decide +kernel) (by unfold tasc; decide +kernel) (by unfold tasc; decide +kernel) (by unfold tasc; decide +kernel), rfl, rfl, by decide⟩,
    _, rfl, by decide +kernel⟩

end Sys2Proof.Tests
end

