-- ==== Sys2Proof/Tests/Slice0.lean ====
section
/-!
SUPPORT. Ill-formed commands that the checks refuse; the specification's worked examples, with the section each stands in; the step on its
queue; and the last witnesses.
-/

namespace Sys2Proof.Tests

-- one test at a time: the kernel evaluates each, and their threads would add up
set_option Elab.async false

open Sys2Proof Sys2Proof.Machine

/-! One ill-formed term for each check of Instr.wf. -/

theorem test_wf_memory_request : [req .read 0 0 0 .clean, req .write 63 2 0 .clean, ⟨.read, 0, 8, [1], 0, false, false, .clean⟩,
    ⟨.cas, 0, 8, List.replicate 8 0, 11, false, false, .clean⟩, ⟨.write, 0, 2, [1], 0, false, false, .clean⟩].all
      (fun q => !(Instr.memoryRequestArrive q).wf) = true := by decide
theorem test_wf_packets : let k : IftPacket := ⟨[1, 2, 3], 0, 0⟩
    (Instr.iftDataReceive 0 k).wf = false ∧ (Instr.iftAckReceive 0 k).wf = false ∧ (Instr.probe 0 k).wf = false ∧ (Instr.plan 0 k).wf = false ∧
    (Instr.normsum 0 k).wf = false ∧ (Instr.normrec 0 k).wf = false := by decide
theorem test_wf_channels : let k : RxKey := ⟨0, 16, 0, 0⟩
    (Instr.packetLand k).wf = false ∧ (Instr.ackTimer k).wf = false ∧ (Instr.retransmitTimeout ⟨0, 16, 0⟩ 0).wf = false := by decide
theorem test_wf_fetched : (Instr.packetTake 0 0 (some [1])).wf = false ∧ (Instr.ringAbort 0 0 2 [[1]]).wf = false ∧
    (Instr.huskBlockProgrammed (some [1])).wf = false := by decide
theorem test_wf_samples : (Instr.railMonitorSample ⟨48000, []⟩).wf = false ∧ (Instr.thermalSample ⟨[], [], 0, 0⟩).wf = false ∧
    (Instr.telemetrySample ⟨[], []⟩).wf = false := by decide
theorem test_wf_accesses : (Instr.registerWrite 0 0 0 0).wf = false ∧ (Instr.bar2Read 0 0 0 false).wf = false ∧
    (Instr.bar2Write 0 0 [] false false).wf = false ∧ (Instr.bar0MisalignedRead 0 8 8).wf = false ∧ (Instr.nextPartitionWrite 0 4 0).wf = false := by
  decide

/-! Worked examples of the specification. -/

/-- File 02, under R51, R52: conversions to F4 and to the 8-bit formats. -/
theorem test_conversions :
    convertNum .f4 false .rne (.fin false 5 (-1)) = 0b0100 ∧ convertNum .f4 false .rne (Val.ofInt (-5) 0) = 0b1110 ∧
    convertNum .f4 false .rne (Val.ofInt 7 0) = 0b0111 ∧ convertNum .f4 false .rne (.fin false 1 (-2)) = 0 ∧
    convertNum .f4 false .rne (.fin true 1 (-3)) = 0 ∧ convertNum .f8e false .rne (Val.ofInt 500 0) = 0x7E ∧
    convertNum .f8e false .rne (Val.ofInt 460 0) = 0x7E ∧ convertNum .f8w false .rne (Val.ofInt 70000 0) = 0x7C ∧
    convertNum .f8w true .rne (Val.ofInt 70000 0) = 0x7B := by decide +kernel

/-- File 02, under R49: 300.0 to F8E, to nearest even and stochastically at and below the draw 0xA0000000. -/
theorem test_stochastic : convertNum .f8e false .rne (Val.ofInt 300 0) = 0x79 ∧
    convertNum .f8e false (.sr 0xA0000000) (Val.ofInt 300 0) = 0x7A ∧ convertNum .f8e false (.sr 0x9FFFFFFF) (Val.ofInt 300 0) = 0x79 := by
  decide +kernel

/-- File 02, under R43: a block with the largest magnitude 1,000.0 and 3.3 (13,841,203 × 2^-22 to F32). -/
theorem test_scale : let v : Val := .fin false 13841203 (-22)
    chooseScale .f8e [Val.ofInt 1000 0, v] = 0x81 ∧ encodeScaled .f8e false .rne 0x81 (Val.ofInt 1000 0) = 0x78 ∧
    encodeScaled .f8e false .rne 0x81 v = 0x35 := by decide +kernel

/-- File 02, under R45: 2^24, 1, 1 in that order and in the other. -/
theorem test_order : [0x4B800000, 0x3F800000, 0x3F800000].foldl f32Add 0 = 0x4B800000 ∧
    [0x3F800000, 0x3F800000, 0x4B800000].foldl f32Add 0 = 0x4B800001 := by decide +kernel

/-- File 03, under R63: the block of five F8E values. -/
theorem test_sb64 : let at_ (i : Nat) : Option Nat :=
      match i with | 3 => some 0x3C | 16 => some 0xA8 | 23 => some 0x4C | 45 => some 0x30 | 57 => some 0xC4 | _ => none
    sbBytes 8 ((List.range 64).map at_) = [0x08, 0, 0x81, 0, 0, 0x20, 0, 0x02, 0x3C, 0xA8, 0x4C, 0x30, 0xC4, 0, 0, 0] := by decide +kernel

/-- File 03, under R65 and R73: the groups 8E 30 C4 and 8C BC 3C. -/
theorem test_pb8 : pbBytes 8 [none, some 0x30, none, none, none, none, some 0xC4, none] = [0x8E, 0x30, 0xC4] ∧
    pbBytes 8 [none, some 0xBC, none, none, some 0x3C] = [0x8C, 0xBC, 0x3C] := by decide

/-- File 08, under R238: counter 12 of a SAT bank at 0, the VXE's subtract before the DXE's add. -/
theorem test_semaphores :
    let sub : SemOp := ⟨0, .vxe, 1, 12, 1, 2, false, 0, 0⟩
    let add : SemOp := ⟨1, .dxe, 0, 12, 1, 2, false, 0, 0⟩
    let s := headed .dxe (word 0x0C 0 0) (headed .vxe (word 0x0D 0 0) dev)
    let s := putCore s 0 { getCore s 0 with semOps := [sub, add] }
    (match execSemOpReachCounter 0 12 s with | .next t => (semGet t 0 12, rfld t (.syncStat 0) 47 32) | _ => (0, 0)) = (1, 1) := by decide +kernel

/-- File 11, under R320: the curve (0, 0.0), (1,000, 3.0e-4), (51,000, 3.0e-5) at its points, before, beyond, and at a quarter. -/
theorem test_curve : let c : List BreakPt := [(0, 0), (1000, 0x399D4952), (51000, 0x37FBA882)]
    curveVal 0 c = 0 ∧ curveVal 1000 c = 0x399D4952 ∧ curveVal 51000 c = 0x37FBA882 ∧ curveVal 60000 c = 0x37FBA882 ∧
    curveVal 250 c = f32Mul 0x3E800000 0x399D4952 := by decide +kernel

/-- File 12, under R348: the tick and the slot of a PTP time with P = 25,600. -/
theorem test_time : let s := rsetf dev .chorus 7 0 32
    chorusP s = 25600 ∧ tickOf s 1700000000123456789 = 66406250004822 ∧ slotOf s 1700000000123456789 = 8 ∧ 66406250004822 % 1024 = 342 := by
  decide +kernel

/-- File 13, under R381: SYNC_STAT of core C093 and STK07_RETIRE_STAT. -/
theorem test_offsets : regOff (.syncStat 93) = 0x12ED100 ∧ regOff (.retireStat 7) = 0x170010 ∧ regOf 0x12ED100 = some (.syncStat 93) := by
  decide +kernel

/-- File 13, under R397: the packet 12 00 03 03 34 12 00 00 and its ACCEPTED and FINAL replies. -/
theorem test_packet : let b := bytesAt [0x12, 0, 3, 3, 0x34, 0x12, 0, 0] 0 64
    pkOp b = 0x12 ∧ pkIrq b = true ∧ pkProgress b = true ∧ pkSl b = some 3 ∧ pkSeq b = 0x1234 ∧ opTotal b = 10000 ∧ opForm b = 1 ∧
    (mkReply (stCode .inProgress) 1 1 0x1234 0 10000 0 3).take 8 = [0x01, 0x01, 0x01, 1, 0x34, 0x12, 0, 0] := by decide +kernel

/-- File 16, under R462: 200,000,000 DATA bytes are a use of 63; with a share of 32 the doorbell waits. File 17, under R482: a cap of
1,600 W at 800 MHz and 2,050 W asks for 600 MHz. -/
theorem test_share_and_cap : shareUse { fabSliceReset with bytes := 200000000 } = 63 ∧ shareUse { fabSliceReset with bytes := 100392156 } = 31 ∧
    (let s := rsetf (rput dev .pwrStat (BitVec.ofNat 64 (1600 * 2 ^ 16))) .clkState 63 54 800
     (match execPowerControlInterval 2050 s with | .next t => t.pwr.powReq | _ => 0) = 600) := by decide +kernel

/-- File 10, under R280: device address 0x7A_1234_5640 lies in STK07 at 0xA_1234_5640. -/
theorem test_address : placeOf 0x7A12345640 = .stack 7 0xA12345640 := by decide +kernel

/-- File 10, under R283: stack address 0x4000_0000, and the rows at a stride of 16 KiB from it. -/
theorem test_dramPlace : dramPlace 0x40000000 = ⟨8, 0, 0x1000000⟩ ∧ pcOf 0x40000100 = 17 ∧
    (List.range 64).all (fun j => pcOf (0x40000000 + j * 0x4000) == j ^^^ 16) = true := by decide +kernel

/-! The step. -/

theorem test_step_idle : step State.reset = .next State.reset := rfl
theorem test_step_front : step { State.reset with pending := [.chorusTick, .holdoverTimeout] } =
    exec .chorusTick { State.reset with pending := [.holdoverTimeout] } := rfl
theorem test_fault : (match exec (.memoryRequestArrive (req .read 0xC00000000 8 0 .clean)) dev with
    | .fault (.unpopulatedAddress a) => a | _ => 0) = 0xC00000000 := by decide +kernel
theorem test_tableWord : decodeTableWord 32 7 = none ∧ State.reset.withFetchWord 32 7 = State.reset := ⟨rfl, rfl⟩

/-! The last witnesses. -/

theorem witness_MoultLoops : (∀ x ∈ [63, 0], x / 64 < [0xFF, 0].length) ∧ (∀ x ∈ [64, 127], x / 64 < [0xFF, 0].length) ∧
    (∀ x ∈ [63, 0], x ∉ [64, 127]) ∧ getBit [0xFF, 0] 0 = true ∧ getBit [0xFF, 0] 64 = false := by decide
theorem witness_IntegerAccumulation : [some ((3 : Int), (127 : Byte)), none].length = [none, some ((-4 : Int), (127 : Byte))].length := rfl
theorem witness_RegisterOffsets : regOf 0x12ED100 ≠ none := by decide +kernel

end Sys2Proof.Tests
end

namespace Sys2Proof.Machine

/-! The decoder of BAR0 (R381). Columns and blocks first: what a block's decoder finds stands at that offset of the block. -/

theorem fin?_eq_some {n k : Nat} {i : Fin n} : fin? n k = some i ↔ k = i.val := by
  unfold fin?
  split
  · simp only [Option.some.injEq, Fin.ext_iff]
  · simp only [reduceCtorEq, false_iff]; omega

@[simp] theorem fin?_val {n : Nat} (i : Fin n) : fin? n i.val = some i := fin?_eq_some.2 rfl

theorem colOf_eq_some {n : Nat} {mk : Fin n → Reg} {base o : Nat} {r : Reg} (hb : base % 8 = 0) :
    colOf mk base o = some r ↔ ∃ i : Fin n, o = base + 8 * i.val ∧ mk i = r := by
  unfold colOf
  split
  · simp only [Option.map_eq_some_iff, fin?_eq_some]
    refine exists_congr fun i => and_congr_left fun _ => ?_
    omega
  · simp only [reduceCtorEq, false_iff, not_exists, not_and]
    intro i h; omega

theorem colOf_regOff {n : Nat} {mk : Fin n → Reg} {base o : Nat} {r : Reg} (d : Nat) (hb : base % 8 = 0)
    (hm : ∀ i, regOff (mk i) = d + base + 8 * i.val) (h : colOf mk base o = some r) : regOff r = d + o := by
  obtain ⟨i, rfl, rfl⟩ := (colOf_eq_some hb).1 h
  rw [hm, Nat.add_assoc]

theorem sectRegOf_regOff {n : N20} {o : Nat} {r : Reg} (h : sectRegOf n o = some r) : regOff r = 0x90000 + 0x1000 * n.val + o := by
  unfold sectRegOf at h
  split at h <;> simp only [Option.some.injEq, reduceCtorEq] at h <;> subst h <;> simp only [regOff] <;> omega

theorem engRegOf_regOff {o : Nat} {k : EngReg} (h : engRegOf o = some k) : engRegOff k = o := by
  unfold engRegOf at h
  split at h <;> simp only [Option.some.injEq, reduceCtorEq] at h <;> subst h <;> rfl

theorem engIdx_engOf {i : Nat} (h : i < 5) : engIdx (engOf i) = i := by
  interval_cases i <;> rfl

theorem coreRegOf_regOff {c : CoreId} {o : Nat} {r : Reg} (h : coreRegOf c o = some r) : regOff r = coreBase c + o := by
  unfold coreRegOf at h
  split at h
  case h_9 =>
    split at h
    · obtain ⟨k, hk, rfl⟩ := Option.map_eq_some_iff.1 h
      rw [regOff, engRegOf_regOff hk, engIdx_engOf (by omega)]
      omega
    · split at h
      · obtain ⟨i, hi, rfl⟩ := Option.map_eq_some_iff.1 h
        rw [fin?_eq_some] at hi
        simp only [regOff]; omega
      · cases h
  all_goals cases h; rfl

theorem stkRegOf_regOff {n : N20} {o : Nat} {r : Reg} (h : stkRegOf n o = some r) : regOff r = 0x100000 + 0x10000 * n.val + o := by
  unfold stkRegOf at h
  split at h
  case h_13 =>
    split at h
    · obtain ⟨i, hi, rfl⟩ := Option.map_eq_some_iff.1 h
      rw [fin?_eq_some] at hi
      simp only [regOff]; omega
    · cases h
  all_goals cases h; simp only [regOff]; omega

theorem fabRegOf_regOff {n : N20} {o : Nat} {r : Reg} (h : fabRegOf n o = some r) : regOff r = 0x61000 + 0x100 * n.val + o := by
  unfold fabRegOf at h
  split at h
  case h_6 => exact colOf_regOff _ rfl (fun i => by simp only [regOff]; omega) h
  all_goals cases h; simp only [regOff]; omega

theorem ringRegOf_regOff {q : Fin 4} {o : Nat} {r : Reg} (h : ringRegOf q o = some r) : regOff r = 0x10000 + 0x100 * q.val + o := by
  unfold ringRegOf at h
  split at h <;> cases h <;> simp only [regOff] <;> omega

theorem portRegOf_regOff {p : PortId} {o : Nat} {r : Reg} (h : portRegOf p o = some r) : regOff r = 0x70000 + 0x1000 * p.val + o := by
  unfold portRegOf at h
  split at h <;> cases h <;> simp only [regOff] <;> omega

theorem secuRegOf_regOff {o : Nat} {r : Reg} (h : secuRegOf o = some r) : regOff r = 0x20000 + o := by
  unfold secuRegOf at h
  split at h
  case h_7 =>
    split_ifs at h
    all_goals exact colOf_regOff 0x20000 rfl (fun i => by simp only [regOff]) h
  all_goals cases h; rfl


/-- The registers of a block that repeats: block i of n starts at base + size * i. -/
theorem fin?_bind_regOff {n base size a : Nat} {g : Fin n → Option Reg} {r : Reg}
    (hg : ∀ i : Fin n, g i = some r → regOff r = base + size * i.val + (a - base) % size) (ha : base ≤ a)
    (h : (fin? n ((a - base) / size)).bind g = some r) : regOff r = a := by
  obtain ⟨i, hi, hr⟩ := Option.bind_eq_some_iff.1 h
  have hq := Nat.div_add_mod (a - base) size
  rw [fin?_eq_some.1 hi] at hq
  rw [hg i hr]; omega



theorem regOf_regOff {a : Nat} {r : Reg} (h : regOf a = some r) : regOff r = a := by
  unfold regOf at h
  obtain ⟨_, h⟩ | ⟨_, h⟩ := ite_eq_iff.1 h
  · split at h
    case h_6 => simpa using colOf_regOff 0 rfl (fun i => by simp only [regOff, Nat.zero_add]) h
    all_goals cases h; rfl
  obtain ⟨_, h⟩ | ⟨_, h⟩ := ite_eq_iff.1 h
  · exact fin?_bind_regOff (fun q hq => by rw [ringRegOf_regOff hq]; omega) (by omega) h
  obtain ⟨_, h⟩ | ⟨_, h⟩ := ite_eq_iff.1 h
  · simpa using colOf_regOff 0 rfl (fun i => by simp only [regOff, Nat.zero_add]) h
  obtain ⟨_, h⟩ | ⟨_, h⟩ := ite_eq_iff.1 h
  · simpa using colOf_regOff 0 rfl (fun i => by simp only [regOff, Nat.zero_add]) h
  obtain ⟨_, h⟩ | ⟨_, h⟩ := ite_eq_iff.1 h
  · rw [secuRegOf_regOff h]; omega
  obtain ⟨_, h⟩ | ⟨_, h⟩ := ite_eq_iff.1 h
  · split at h <;> cases h <;> simp only [regOff] <;> omega
  obtain ⟨_, h⟩ | ⟨_, h⟩ := ite_eq_iff.1 h
  · obtain ⟨rfl, h⟩ | ⟨_, h⟩ := ite_eq_iff.1 h <;> cases h; rfl
  obtain ⟨_, h⟩ | ⟨_, h⟩ := ite_eq_iff.1 h
  · split at h <;> cases h <;> simp only [regOff] <;> omega
  obtain ⟨_, h⟩ | ⟨_, h⟩ := ite_eq_iff.1 h
  · obtain ⟨rfl, h⟩ | ⟨_, h⟩ := ite_eq_iff.1 h
    · cases h; rfl
    obtain ⟨_, h⟩ | ⟨_, h⟩ := ite_eq_iff.1 h
    · cases h
    · exact fin?_bind_regOff (fun n hn => by rw [fabRegOf_regOff hn]; omega) (by omega) h
  obtain ⟨_, h⟩ | ⟨_, h⟩ := ite_eq_iff.1 h
  · exact fin?_bind_regOff (fun p hp => by rw [portRegOf_regOff hp]; omega) (by omega) h
  obtain ⟨_, h⟩ | ⟨_, h⟩ := ite_eq_iff.1 h
  · refine fin?_bind_regOff (fun q hq => ?_) (by omega) h
    obtain ⟨ho, hq⟩ | ⟨_, hq⟩ := ite_eq_iff.1 hq <;> cases hq
    simp only [regOff]; omega
  obtain ⟨_, h⟩ | ⟨_, h⟩ := ite_eq_iff.1 h
  · exact fin?_bind_regOff (fun n hn => by rw [sectRegOf_regOff hn]; omega) (by omega) h
  obtain ⟨_, h⟩ | ⟨_, h⟩ := ite_eq_iff.1 h
  · exact fin?_bind_regOff (fun n hn => by rw [stkRegOf_regOff hn]; omega) (by omega) h
  · exact fin?_bind_regOff (fun c hc => by rw [coreRegOf_regOff hc, coreBase]; omega) (by omega) h

/-- The block of index i in n blocks of one size from a base. -/
theorem fin?_block {n : Nat} (base size : Nat) {o : Nat} (i : Fin n) (ho : o < size) :
    fin? n ((base + size * i.val + o - base) / size) = some i := by
  rw [fin?_eq_some, Nat.add_assoc, Nat.add_sub_cancel_left, Nat.mul_add_div (by omega), Nat.div_eq_of_lt ho, Nat.add_zero]

/-- The place in its block of an offset, where the base is a multiple of the block's size. -/
theorem block_mod (k size : Nat) {i o : Nat} (ho : o < size) : (size * k + size * i + o) % size = o := by
  rw [← Nat.mul_add, Nat.mul_add_mod, Nat.mod_eq_of_lt ho]

theorem regOf_ring (q : Fin 4) {o : Nat} (ho : o < 0x100) : regOf (0x10000 + 0x100 * q.val + o) = ringRegOf q o := by
  unfold regOf
  rw [if_neg (by omega), if_pos (by omega), fin?_block _ _ q ho, Option.bind_some, block_mod 0x100 0x100 ho]

theorem regOf_secu {o : Nat} (ho : o < 0x10000) : regOf (0x20000 + o) = secuRegOf o := by
  unfold regOf
  rw [if_neg (by omega), if_neg (by omega), if_neg (by omega), if_neg (by omega), if_pos (by omega), Nat.add_sub_cancel_left]

theorem regOf_fab (n : N20) {o : Nat} (ho : o < 0x100) : regOf (0x61000 + 0x100 * n.val + o) = fabRegOf n o := by
  unfold regOf
  iterate 8 rw [if_neg (by omega)]
  rw [if_pos (by omega), if_neg (by omega), if_neg (by omega), fin?_block _ _ n ho, Option.bind_some, block_mod 0x610 0x100 ho]

theorem regOf_port (p : PortId) {o : Nat} (ho : o < 0x1000) : regOf (0x70000 + 0x1000 * p.val + o) = portRegOf p o := by
  unfold regOf
  iterate 9 rw [if_neg (by omega)]
  rw [if_pos (by omega), fin?_block _ _ p ho, Option.bind_some, block_mod 0x70 0x1000 ho]

theorem regOf_sect (n : N20) {o : Nat} (ho : o < 0x1000) : regOf (0x90000 + 0x1000 * n.val + o) = sectRegOf n o := by
  unfold regOf
  iterate 11 rw [if_neg (by omega)]
  rw [if_pos (by omega), fin?_block _ _ n ho, Option.bind_some, block_mod 0x90 0x1000 ho]

theorem regOf_stk (n : N20) {o : Nat} (ho : o < 0x10000) : regOf (0x100000 + 0x10000 * n.val + o) = stkRegOf n o := by
  unfold regOf
  iterate 12 rw [if_neg (by omega)]
  rw [if_pos (by omega), fin?_block _ _ n ho, Option.bind_some, block_mod 0x10 0x10000 ho]

theorem regOf_core (c : CoreId) {o : Nat} (ho : o < 0x8000) : regOf (coreBase c + o) = coreRegOf c o := by
  unfold regOf coreBase
  rw [Nat.mul_comm c.val]
  iterate 13 rw [if_neg (by omega)]
  rw [fin?_block _ _ c ho, Option.bind_some, block_mod 0x200 0x8000 ho]


theorem colOf_at {n : Nat} (mk : Fin n → Reg) {base : Nat} (hb : base % 8 = 0) (i : Fin n) : colOf mk base (base + 8 * i.val) = some (mk i) :=
  (colOf_eq_some hb).2 ⟨i, rfl, rfl⟩

theorem stkRegOf_retireList (n : N20) (i : Fin 512) : stkRegOf n (0x1000 + 8 * i.val) = some (.retireList n i) := by
  unfold stkRegOf
  split
  case h_13 =>
    have hi : (0x1000 + 8 * i.val - 0x1000) / 8 = i.val := by omega
    rw [if_pos (by omega), hi, fin?_val, Option.map_some]
  all_goals omega

theorem coreRegOf_semCnt (c : CoreId) (i : Fin 64) : coreRegOf c (0x6000 + 8 * i.val) = some (.semCnt c i) := by
  unfold coreRegOf
  split
  case h_9 =>
    have hi : (0x6000 + 8 * i.val - 0x6000) / 8 = i.val := by omega
    rw [if_neg (by omega), if_pos (by omega), hi, fin?_val, Option.map_some]
  all_goals omega

theorem coreRegOf_eng (c : CoreId) (e : EngId) (k : EngReg) : coreRegOf c (0x1000 * engIdx e + engRegOff k) = some (.eng c e k) := by
  cases e <;> cases k <;> rfl

theorem engOff_lt (e : EngId) (k : EngReg) : 0x1000 * engIdx e + engRegOff k < 0x5000 := by
  cases e <;> cases k <;> decide

theorem fabRegOf_clMem (n : N20) (i : Fin 8) : fabRegOf n (0x8 + 8 * i.val) = some (.clMem n i) := by
  unfold fabRegOf
  split
  case h_6 => exact colOf_at _ rfl i
  all_goals omega

/-! A register that its block's decoder finds is found at its offset. -/

theorem regOf_regOff_ring {q : Fin 4} {o : Nat} {r : Reg} (ho : o < 0x100) (h : ringRegOf q o = some r) : regOf (regOff r) = some r := by
  rw [ringRegOf_regOff h, regOf_ring q ho, h]
theorem regOf_regOff_secu {o : Nat} {r : Reg} (ho : o < 0x10000) (h : secuRegOf o = some r) : regOf (regOff r) = some r := by
  rw [secuRegOf_regOff h, regOf_secu ho, h]
theorem regOf_regOff_fab {n : N20} {o : Nat} {r : Reg} (ho : o < 0x100) (h : fabRegOf n o = some r) : regOf (regOff r) = some r := by
  rw [fabRegOf_regOff h, regOf_fab n ho, h]
theorem regOf_regOff_port {p : PortId} {o : Nat} {r : Reg} (ho : o < 0x1000) (h : portRegOf p o = some r) : regOf (regOff r) = some r := by
  rw [portRegOf_regOff h, regOf_port p ho, h]
theorem regOf_regOff_sect {n : N20} {o : Nat} {r : Reg} (ho : o < 0x1000) (h : sectRegOf n o = some r) : regOf (regOff r) = some r := by
  rw [sectRegOf_regOff h, regOf_sect n ho, h]
theorem regOf_regOff_stk {n : N20} {o : Nat} {r : Reg} (ho : o < 0x10000) (h : stkRegOf n o = some r) : regOf (regOff r) = some r := by
  rw [stkRegOf_regOff h, regOf_stk n ho, h]
theorem regOf_regOff_core {c : CoreId} {o : Nat} {r : Reg} (ho : o < 0x8000) (h : coreRegOf c o = some r) : regOf (regOff r) = some r := by
  rw [coreRegOf_regOff h, regOf_core c ho, h]

theorem regOf_regOff_ap (a : Fin 16) : regOf (regOff (.ap a)) = some (.ap a) := by
  have ha : regOff (.ap a) = 0x100 + 8 * a.val := rfl
  unfold regOf
  rw [ha, if_pos (by omega)]
  split
  case h_6 => exact colOf_at _ rfl a
  all_goals omega

theorem regOf_regOff_sliceState (n : N20) : regOf (regOff (.sliceState n)) = some (.sliceState n) := by
  have ha : regOff (.sliceState n) = 0x11000 + 8 * n.val := rfl
  unfold regOf
  rw [ha, if_neg (by omega), if_neg (by omega), if_pos (by omega), colOf_at _ rfl]

theorem regOf_regOff_logStat (n : Fin 21) : regOf (regOff (.logStat n)) = some (.logStat n) := by
  have ha : regOff (.logStat n) = 0x12000 + 8 * n.val := rfl
  unfold regOf
  rw [ha, if_neg (by omega), if_neg (by omega), if_neg (by omega), if_pos (by omega), colOf_at _ rfl]

theorem regOf_regOff_rseq (q : Fin 4) : regOf (regOff (.rseq q)) = some (.rseq q) := by
  have ha : regOff (.rseq q) = 0x80000 + 0x1000 * q.val + 0x100 := by simp only [regOff]; omega
  unfold regOf
  rw [ha]
  iterate 10 rw [if_neg (by omega)]
  rw [if_pos (by omega), fin?_block 0x80000 0x1000 q (by decide), Option.bind_some, if_pos (block_mod 0x80 0x1000 (by decide))]

/-- The columns of the SECU_ block, one after the other (R405, R431). -/
theorem secuRegOf_columns : (∀ n, secuRegOf (0x100 + 8 * n.val) = some (.sectmap n)) ∧ (∀ n, secuRegOf (0x200 + 8 * n.val) = some (.keyslot n)) ∧
    (∀ n, secuRegOf (0x300 + 8 * n.val) = some (.fabfw n)) ∧ (∀ n, secuRegOf (0x900 + 8 * n.val) = some (.nextSectmap n)) ∧
    (∀ n, secuRegOf (0xA00 + 8 * n.val) = some (.nextKeyslot n)) ∧ (∀ n, secuRegOf (0xB00 + 8 * n.val) = some (.nextFabfw n)) ∧
    (∀ q, secuRegOf (0xC00 + 8 * q.val) = some (.nextRseq q)) ∧ (∀ n, secuRegOf (0x1000 + 8 * n.val) = some (.sliceKey n)) := by
  decide

/-- Every register is found at its offset. -/
theorem regOf_regOff_self (r : Reg) : regOf (regOff r) = some r := by
  obtain ⟨hSect, hKey, hFw, hNextSect, hNextKey, hNextFw, hNextRseq, hSliceKey⟩ := secuRegOf_columns
  cases r with
  | bootStatus | hubFunc | hubReset | fwSlot | fwIfv | prot | pfBar2 | nextPfBar2 | budget | batch | lmsState | pwrStat | vinMin | pwrTemp | clkState | chorus | timeCtl | timeState | tick | fabDev => rfl
  | ap a => exact regOf_regOff_ap a
  | sliceState n => exact regOf_regOff_sliceState n
  | logStat n => exact regOf_regOff_logStat n
  | rseq q => exact regOf_regOff_rseq q
  | sectmap n => exact regOf_regOff_secu (by omega) (hSect n)
  | keyslot n => exact regOf_regOff_secu (by omega) (hKey n)
  | fabfw n => exact regOf_regOff_secu (by omega) (hFw n)
  | nextSectmap n => exact regOf_regOff_secu (by omega) (hNextSect n)
  | nextKeyslot n => exact regOf_regOff_secu (by omega) (hNextKey n)
  | nextFabfw n => exact regOf_regOff_secu (by omega) (hNextFw n)
  | nextRseq n => exact regOf_regOff_secu (by omega) (hNextRseq n)
  | sliceKey n => exact regOf_regOff_secu (by omega) (hSliceKey n)
  | ringCtl n => exact regOf_regOff_ring (o := 0x0) (by decide) rfl
  | ringSq n => exact regOf_regOff_ring (o := 0x8) (by decide) rfl
  | ringCq n => exact regOf_regOff_ring (o := 0x10) (by decide) rfl
  | sqdb n => exact regOf_regOff_ring (o := 0x18) (by decide) rfl
  | cqdb n => exact regOf_regOff_ring (o := 0x20) (by decide) rfl
  | clCfg n => exact regOf_regOff_fab (o := 0x0) (by decide) rfl
  | doorbell n => exact regOf_regOff_fab (o := 0x48) (by decide) rfl
  | stepw n => exact regOf_regOff_fab (o := 0x50) (by decide) rfl
  | share n => exact regOf_regOff_fab (o := 0x58) (by decide) rfl
  | clStat n => exact regOf_regOff_fab (o := 0x60) (by decide) rfl
  | clMem n i => exact regOf_regOff_fab (by omega) (fabRegOf_clMem n i)
  | portCtl n => exact regOf_regOff_port (o := 0x0) (by decide) rfl
  | portAddr n => exact regOf_regOff_port (o := 0x8) (by decide) rfl
  | portStat n => exact regOf_regOff_port (o := 0x10) (by decide) rfl
  | portFec n => exact regOf_regOff_port (o := 0x18) (by decide) rfl
  | srng n => exact regOf_regOff_sect (o := 0x400) (by decide) rfl
  | syncWin n => exact regOf_regOff_sect (o := 0x500) (by decide) rfl
  | sectSync n => exact regOf_regOff_sect (o := 0x508) (by decide) rfl
  | mcState n => exact regOf_regOff_sect (o := 0x600) (by decide) rfl
  | cacheCtl n => exact regOf_regOff_sect (o := 0x700) (by decide) rfl
  | cacheStat n => exact regOf_regOff_sect (o := 0x708) (by decide) rfl
  | eccCnt n => exact regOf_regOff_stk (o := 0x0) (by decide) rfl
  | lastUe n => exact regOf_regOff_stk (o := 0x8) (by decide) rfl
  | retireStat n => exact regOf_regOff_stk (o := 0x10) (by decide) rfl
  | updCtl n => exact regOf_regOff_stk (o := 0x100) (by decide) rfl
  | updList n => exact regOf_regOff_stk (o := 0x108) (by decide) rfl
  | updGtab n => exact regOf_regOff_stk (o := 0x110) (by decide) rfl
  | updOvr n => exact regOf_regOff_stk (o := 0x118) (by decide) rfl
  | updStep n => exact regOf_regOff_stk (o := 0x120) (by decide) rfl
  | updNorm n => exact regOf_regOff_stk (o := 0x128) (by decide) rfl
  | updState n => exact regOf_regOff_stk (o := 0x130) (by decide) rfl
  | updStat n => exact regOf_regOff_stk (o := 0x138) (by decide) rfl
  | patrol n => exact regOf_regOff_stk (o := 0x200) (by decide) rfl
  | retireList n i => exact regOf_regOff_stk (by omega) (stkRegOf_retireList n i)
  | eng c e k => exact regOf_regOff_core ((engOff_lt e k).trans (by decide)) (coreRegOf_eng c e k)
  | dxeSctl n => exact regOf_regOff_core (o := 0x3100) (by decide) rfl
  | dxeSstate n => exact regOf_regOff_core (o := 0x3108) (by decide) rfl
  | sbStat n => exact regOf_regOff_core (o := 0x5000) (by decide) rfl
  | syncStat n => exact regOf_regOff_core (o := 0x5100) (by decide) rfl
  | hostAddr n => exact regOf_regOff_core (o := 0x5108) (by decide) rfl
  | hostData n => exact regOf_regOff_core (o := 0x5110) (by decide) rfl
  | semMode n => exact regOf_regOff_core (o := 0x5200) (by decide) rfl
  | spadStat n => exact regOf_regOff_core (o := 0x5300) (by decide) rfl
  | semCnt c i => exact regOf_regOff_core (by omega) (coreRegOf_semCnt c i)

theorem regOff_injective : Function.Injective regOff := fun r q h =>
  Option.some.inj (by rw [← regOf_regOff_self r, h, regOf_regOff_self q])

theorem engRegOff_mod (k : EngReg) : engRegOff k % 8 = 0 := by cases k <;> rfl

theorem regOff_lt (r : Reg) : regOff r < 2 ^ 26 := by
  cases r with
  | eng c e k =>
    have := engOff_lt e k
    simp only [regOff, coreBase]; omega
  | _ => simp only [regOff, coreBase]; omega

theorem regOff_aligned (r : Reg) : regOff r % 8 = 0 := by
  cases r with
  | eng c e k =>
    have := engRegOff_mod k
    simp only [regOff, coreBase]; omega
  | bootStatus | hubFunc | hubReset | fwSlot | fwIfv | prot | pfBar2 | nextPfBar2 | budget | batch | lmsState | pwrStat | vinMin | pwrTemp | clkState | chorus | timeCtl | timeState | tick | fabDev => rfl
  | _ => simp only [regOff, coreBase]; omega

/-- Settles O57: each block's decoder and its offsets undo each other, block by block. -/
theorem registerOffsetsDecodeToTheirRegisters : Obligations.RegisterOffsetsDecodeToTheirRegisters :=
  ⟨regOf_regOff_self, fun r => ⟨regOff_lt r, regOff_aligned r⟩, fun _ _ => regOf_regOff⟩

end Sys2Proof.Machine

namespace Sys2Proof.Machine

/-! The state after reset (R12). -/

theorem canon_reset : Canon State.reset where
  mem := rfl
  poison := rfl
  feb := rfl
  syncw := rfl
  syncp := rfl
  ecc := rfl
  cached := rfl
  regs := tasc_nil
  fregs := tasc_nil
  cores := rfl
  buu := rfl
  fab := rfl
  dirty := rfl
  incs := tasc_nil

theorem inv_reset : Inv State.reset := ⟨canon_reset, rfl, rfl, Nat.zero_le _⟩

@[simp] theorem rget_reset (r : Reg) : rget State.reset r = regReset r := rfl
@[simp] theorem fget_reset (f : FuncId) (r : Reg) : fget State.reset f r = regReset r := rfl
@[simp] theorem getEng_reset (c : CoreId) (e : EngId) : getEng State.reset c e = engReset := rfl

/-- Settles O58: every table of the reset state is empty, so each read gives the default, and the registers their reset values (R12). -/
theorem resetHoldsTheInvariantAndTheResetValues : Obligations.ResetHoldsTheInvariantAndTheResetValues := by
  unfold Obligations.ResetHoldsTheInvariantAndTheResetValues
  have halted (c : CoreId) (e : EngId) : (getEng State.reset c e).mode = .halted ∧ (getEng State.reset c e).queue = [] := by
    rw [getEng_reset]
    exact ⟨rfl, rfl⟩
  have stackState : ∀ n, rfld State.reset (.mcState n) 63 60 = 0 := by decide
  have slices : ∀ n, sliceState State.reset n = 0 ∧ keyState State.reset n = 0 := by decide
  have fields : hubReady State.reset = false ∧ rfld State.reset .bootStatus 47 40 = 0 ∧ rfld State.reset .hubReset 63 56 = 0 ∧
      rfld State.reset .clkState 63 54 = 0 ∧ rfld State.reset .vinMin 31 16 = 0xFFFF := by decide
  obtain ⟨ready, stage, cause, clock, minMv⟩ := fields
  exact ⟨inv_reset, rfl, rfl, rfl, rfl, rfl, rget_reset, fget_reset, halted, rfl, ready, stage, cause, clock, stackState, slices, minMv,
    fun _ => rfl⟩
end Sys2Proof.Machine

namespace Sys2Proof.Machine

/-! The bits of a word. -/

theorem testBit_bits {n : Nat} (w : BitVec n) (hi lo j : Nat) : (bits w hi lo).testBit j = (decide (j < hi + 1 - lo) && bit w (lo + j)) := by
  rw [bits, Nat.testBit_mod_two_pow, Nat.testBit_shiftRight, BitVec.testBit_toNat, bit]

theorem bits_lt {n : Nat} (w : BitVec n) (hi lo : Nat) : bits w hi lo < 2 ^ (hi + 1 - lo) := Nat.mod_lt _ (Nat.two_pow_pos _)

/-- Two words agree in a field where they agree in each of its bits. -/
theorem bits_congr {n : Nat} {v w : BitVec n} {hi lo : Nat} (h : ∀ i, lo ≤ i → i ≤ hi → bit v i = bit w i) : bits v hi lo = bits w hi lo := by
  refine Nat.eq_of_testBit_eq fun j => ?_
  rw [testBit_bits, testBit_bits]
  by_cases hj : j < hi + 1 - lo
  · rw [h _ (by omega) (by omega)]
  · simp only [hj, decide_false, Bool.false_and]

/-- Each bit of a word with a field replaced. -/
theorem bit_putBits (v : W64) (hi lo x : Nat) {i : Nat} (h64 : i < 64) :
    bit (putBits v hi lo x) i = if lo ≤ i ∧ i ≤ hi then x.testBit (i - lo) else bit v i := by
  simp only [bit, putBits, BitVec.getLsbD_or, BitVec.getLsbD_and, BitVec.getLsbD_not, BitVec.getLsbD_shiftLeft, BitVec.getLsbD_ofNat,
    Nat.testBit_shiftLeft, Nat.testBit_two_pow_sub_one, Nat.testBit_mod_two_pow, h64, decide_true, Bool.true_and]
  obtain hlo | hlo := Nat.lt_or_ge i lo
  · simp [hlo, hlo.not_ge]
  obtain hhi | hhi := Nat.lt_or_ge hi i
  · have hk : hi + 1 - lo ≤ i - lo := by omega
    simp [hlo.not_gt, hhi.not_ge, hk.not_gt]
  · have hk : i - lo < hi + 1 - lo := by omega
    have h63 : i - lo < 64 := by omega
    simp only [hlo, hhi, hk, h63, decide_true]
    simp [hlo.not_gt]

theorem bit_ge {n : Nat} (w : BitVec n) {i : Nat} (h : n ≤ i) : bit w i = false := BitVec.getLsbD_of_ge w i h

/-- A field replaced holds the value, cut to its width. -/
theorem bits_putBits_self (v : W64) {hi lo : Nat} (x : Nat) (h64 : hi < 64) : bits (putBits v hi lo x) hi lo = x % 2 ^ (hi + 1 - lo) := by
  refine Nat.eq_of_testBit_eq fun j => ?_
  rw [testBit_bits, Nat.testBit_mod_two_pow]
  by_cases hj : j < hi + 1 - lo
  · rw [bit_putBits _ _ _ _ (by omega), if_pos (by omega), Nat.add_sub_cancel_left]
  · simp only [hj, decide_false, Bool.false_and]

/-- A bit outside the field replaced is as before. -/
theorem bit_putBits_out (v : W64) {hi lo : Nat} (x : Nat) {i : Nat} (h : i < lo ∨ hi < i) : bit (putBits v hi lo x) i = bit v i := by
  by_cases h64 : i < 64
  · rw [bit_putBits _ _ _ _ h64, if_neg (by omega)]
  · rw [bit_ge _ (by omega), bit_ge _ (by omega)]

/-- A field apart from the one replaced is as before. -/
theorem bits_putBits_apart (v : W64) {hi lo : Nat} (x : Nat) {hi' lo' : Nat} (h : hi' < lo ∨ hi < lo') :
    bits (putBits v hi lo x) hi' lo' = bits v hi' lo' :=
  bits_congr fun _ _ _ => bit_putBits_out _ _ (by omega)

/-! Writes field by field (R9 to R11). -/

/-- The fields of a register share no bit. -/
theorem regFields_apart (r : Reg) : (regFields r).Pairwise fun x y => y.hi < x.lo := by
  cases r with
  | eng c e k => cases e <;> cases k <;> exact of_decide_eq_true rfl
  | _ => exact of_decide_eq_true rfl

/-- The fields of a register lie in its 64 bits. -/
theorem regFields_hi_lt (r : Reg) : ∀ x ∈ regFields r, x.hi < 64 := by
  cases r with
  | eng c e k => cases e <;> cases k <;> exact of_decide_eq_true rfl
  | _ => exact of_decide_eq_true rfl

section Fold
variable {β : Type} {val : β → W64} {step : β → Fld → β}
  (hout : ∀ b x i, i < x.lo ∨ x.hi < i → bit (val (step b x)) i = bit (val b) i)
include hout

/-- Steps that each change one field leave a bit of no field. -/
theorem bit_foldl_fields {fs : List Fld} {i : Nat} (hi : ∀ x ∈ fs, i < x.lo ∨ x.hi < i) (b : β) :
    bit (val (fs.foldl step b)) i = bit (val b) i := by
  induction fs generalizing b with
  | nil => rfl
  | cons y fs ih =>
    rw [List.foldl_cons, ih (fun x hx => hi x (List.mem_cons_of_mem _ hx)), hout _ _ _ (hi y List.mem_cons_self)]

/-- Steps that each take their field from the value that old gives to the one that new gives, over fields that fall, do so for all of them. -/
theorem bits_foldl_fields {old new : Fld → Nat} {fs : List Fld} (hp : fs.Pairwise fun x y => y.hi < x.lo)
    (hin : ∀ b, ∀ x ∈ fs, bits (val b) x.hi x.lo = old x → bits (val (step b x)) x.hi x.lo = new x) (b : β)
    (h : ∀ x ∈ fs, bits (val b) x.hi x.lo = old x) : ∀ x ∈ fs, bits (val (fs.foldl step b)) x.hi x.lo = new x := by
  induction fs generalizing b with
  | nil => simp only [List.not_mem_nil, false_imp_iff, implies_true]
  | cons y fs ih =>
    obtain ⟨hy, hp⟩ := List.pairwise_cons.1 hp
    obtain ⟨hb, hfs⟩ := List.forall_mem_cons.1 h
    obtain ⟨hiny, hin⟩ := List.forall_mem_cons.1 (fun x hx b => hin b x hx)
    refine List.forall_mem_cons.2 ⟨?_, ih hp (fun b x hx => hin x hx b) _ fun x hx => ?_⟩
    · rw [← hiny b hb, List.foldl_cons]
      exact bits_congr fun i hl hh => bit_foldl_fields hout (fun x hx => .inr (by have := hy x hx; omega)) _
    · rw [← hfs x hx]
      exact bits_congr fun i hl hh => hout _ _ _ (.inl (by have := hy x hx; omega))

end Fold

/-- The value of v in a field that takes it unless its encoding is reserved, in which case the field keeps what old has (R11). -/
def fldTaken (x : Fld) (old v : W64) : Nat :=
  if x.okLo ≤ bits v x.hi x.lo ∧ bits v x.hi x.lo ≤ x.okHi then bits v x.hi x.lo else bits old x.hi x.lo

theorem fldTaken_lt (x : Fld) (old v : W64) : fldTaken x old v < 2 ^ (x.hi + 1 - x.lo) := by
  unfold fldTaken
  split
  · exact bits_lt v x.hi x.lo
  · exact bits_lt old x.hi x.lo

theorem fldAfter_rw {x : Fld} (h : x.acc = .rw) (locked : Bool) (n : Nat) (old v : W64) :
    fldAfter locked n x old v = satAdd (2 ^ (x.hi + 1 - x.lo) - 1) (fldTaken x old v) n := by
  unfold fldAfter
  rw [h]; rfl

theorem fldAfter_not_rw {x : Fld} (h : x.acc ≠ .rw) (locked : Bool) (n : Nat) (old v : W64) :
    fldAfter locked n x old v = fldAfter locked 0 x old v := by
  cases hx : x.acc <;> simp_all only [fldAfter, ne_eq, not_true_eq_false]

/-- A field without increments in this a-cycle keeps the value written. -/
theorem satAdd_fldTaken_zero (x : Fld) (old v : W64) : satAdd (2 ^ (x.hi + 1 - x.lo) - 1) (fldTaken x old v) 0 = fldTaken x old v :=
  Nat.min_eq_right (Nat.le_sub_one_of_lt (fldTaken_lt x old v))

/-- A field that a write can set reports a reserved encoding, and no other field does (R11). -/
theorem fldReserved_eq (locked : Bool) (v : W64) (x : Fld) : fldReserved locked v x =
    match x.acc with
    | .rw => !decide (x.okLo ≤ bits v x.hi x.lo ∧ bits v x.hi x.lo ≤ x.okHi)
    | .rwb => !locked && !decide (x.okLo ≤ bits v x.hi x.lo ∧ bits v x.hi x.lo ≤ x.okHi)
    | _ => false := by
  unfold fldReserved
  cases x.acc <;> cases locked <;> simp only [Bool.decide_and] <;> rfl

theorem acc_beq_rwb (c : Acc) : (c == .rwb) = match c with | .rwb => true | _ => false := by cases c <;> rfl

/-- What a write does to one field: it keeps the field or puts into it what its access code gives, counts one event for a reserved encoding that
it could have set, and notes a refusal by the lock. -/
theorem writeFld_cases (locked : Bool) (old v : W64) (a : W64 × Nat × Bool) (x : Fld) :
    ∃ w, writeFld locked old v a x = (w, a.2.1 + (if fldReserved locked v x then 1 else 0), a.2.2 || locked && x.acc == .rwb) ∧
      (w = a.1 ∧ fldAfter locked 0 x old v = bits old x.hi x.lo ∨
        w = putBits a.1 x.hi x.lo (fldAfter locked 0 x old v) ∧ fldAfter locked 0 x old v < 2 ^ (x.hi + 1 - x.lo)) := by
  have hv := bits_lt v x.hi x.lo
  have hw1c : bits old x.hi x.lo &&& (2 ^ (x.hi + 1 - x.lo) - 1 - bits v x.hi x.lo) < 2 ^ (x.hi + 1 - x.lo) :=
    Nat.and_le_left.trans_lt (bits_lt old _ _)
  rw [fldReserved_eq, acc_beq_rwb]
  cases hx : x.acc with
  | ro | wo => exact ⟨a.1, by simp [writeFld, hx], .inl ⟨rfl, by rw [fldAfter, hx]⟩⟩
  | w1c => exact ⟨_, by simp [writeFld, hx, fldAfter], .inr ⟨rfl, by simpa only [fldAfter, hx] using hw1c⟩⟩
  | rw =>
    rw [fldAfter_rw hx, satAdd_fldTaken_zero, fldTaken]
    by_cases hok : x.okLo ≤ bits v x.hi x.lo ∧ bits v x.hi x.lo ≤ x.okHi
    · rw [if_pos hok]
      exact ⟨_, by simp [writeFld, hx, hok], .inr ⟨rfl, hv⟩⟩
    · rw [if_neg hok]
      exact ⟨a.1, by simp [writeFld, hx, hok], .inl ⟨rfl, rfl⟩⟩
  | rwb =>
    cases locked with
    | true => exact ⟨a.1, by simp [writeFld, hx], .inl ⟨rfl, by simp [fldAfter, hx]⟩⟩
    | false =>
      have hf : fldAfter false 0 x old v = fldTaken x old v := by simp [fldAfter, hx, fldTaken]
      rw [hf, fldTaken]
      by_cases hok : x.okLo ≤ bits v x.hi x.lo ∧ bits v x.hi x.lo ≤ x.okHi
      · rw [if_pos hok]
        exact ⟨_, by simp [writeFld, hx, hok], .inr ⟨rfl, hv⟩⟩
      · rw [if_neg hok]
        exact ⟨a.1, by simp [writeFld, hx, hok], .inl ⟨rfl, rfl⟩⟩

/-- A write of one field keeps every bit outside it. -/
theorem bit_writeFld (locked : Bool) (old v : W64) (a : W64 × Nat × Bool) (x : Fld) (i : Nat) (h : i < x.lo ∨ x.hi < i) :
    bit (writeFld locked old v a x).1 i = bit a.1 i := by
  obtain ⟨w, hw, ⟨rfl, -⟩ | ⟨rfl, -⟩⟩ := writeFld_cases locked old v a x
  · rw [hw]
  · rw [hw, bit_putBits_out _ _ h]

/-- A write of one field leaves it as its access code gives. -/
theorem bits_writeFld (locked : Bool) (old v : W64) (a : W64 × Nat × Bool) {x : Fld} (h64 : x.hi < 64)
    (h : bits a.1 x.hi x.lo = bits old x.hi x.lo) : bits (writeFld locked old v a x).1 x.hi x.lo = fldAfter locked 0 x old v := by
  obtain ⟨w, hw, ⟨rfl, hf⟩ | ⟨rfl, hf⟩⟩ := writeFld_cases locked old v a x
  · rw [hw, hf, h]
  · rw [hw, bits_putBits_self _ _ h64, Nat.mod_eq_of_lt hf]

theorem count_writeFld (locked : Bool) (old v : W64) (a : W64 × Nat × Bool) (x : Fld) :
    (writeFld locked old v a x).2.1 = a.2.1 + if fldReserved locked v x then 1 else 0 := by
  obtain ⟨w, hw, -⟩ := writeFld_cases locked old v a x
  rw [hw]

theorem lock_writeFld (locked : Bool) (old v : W64) (a : W64 × Nat × Bool) (x : Fld) :
    (writeFld locked old v a x).2.2 = (a.2.2 || locked && x.acc == .rwb) := by
  obtain ⟨w, hw, -⟩ := writeFld_cases locked old v a x
  rw [hw]

theorem count_foldl_writeFld (locked : Bool) (old v : W64) (fs : List Fld) (a : W64 × Nat × Bool) :
    (fs.foldl (writeFld locked old v) a).2.1 = a.2.1 + (fs.filter (fldReserved locked v)).length := by
  induction fs generalizing a with
  | nil => rfl
  | cons x fs ih =>
    rw [List.foldl_cons, ih, count_writeFld, List.filter_cons]
    by_cases hx : fldReserved locked v x = true
    · rw [if_pos hx, if_pos hx, List.length_cons]; omega
    · rw [if_neg hx, if_neg hx, Nat.add_zero]

theorem lock_foldl_writeFld (locked : Bool) (old v : W64) (fs : List Fld) (a : W64 × Nat × Bool) :
    (fs.foldl (writeFld locked old v) a).2.2 = (a.2.2 || locked && fs.any fun x => x.acc == .rwb) := by
  induction fs generalizing a with
  | nil => simp only [List.foldl_nil, List.any_nil, Bool.and_false, Bool.or_false]
  | cons x fs ih => rw [List.foldl_cons, ih, lock_writeFld, List.any_cons, Bool.and_or_distrib_left, Bool.or_assoc]

/-- What a write of v to a register of value old leaves and reports: each field by its access code, every other bit as it was, the count of
reserved encodings, and whether the lock refused it (R9, R11). -/
theorem writeFlds_spec (locked : Bool) (r : Reg) (old v : W64) :
    (∀ x ∈ regFields r, bits (writeFlds locked (regFields r) old v).1 x.hi x.lo = fldAfter locked 0 x old v) ∧
    (∀ i, (∀ x ∈ regFields r, i < x.lo ∨ x.hi < i) → bit (writeFlds locked (regFields r) old v).1 i = bit old i) ∧
    (writeFlds locked (regFields r) old v).2.1 = ((regFields r).filter (fldReserved locked v)).length ∧
    (writeFlds locked (regFields r) old v).2.2 = (locked && (regFields r).any fun x => x.acc == .rwb) := by
  refine ⟨?_, fun i hi => ?_, ?_, ?_⟩
  · exact bits_foldl_fields (val := Prod.fst) (bit_writeFld locked old v) (regFields_apart r)
      (fun b x hx => bits_writeFld locked old v b (regFields_hi_lt r x hx)) _ fun _ _ => rfl
  · exact bit_foldl_fields (val := Prod.fst) (bit_writeFld locked old v) hi _
  · exact (count_foldl_writeFld ..).trans (Nat.zero_add _)
  · exact (lock_foldl_writeFld ..).trans (Bool.false_or _)

/-- A counter field with its increments of this a-cycle added, saturating at its maximum (R80, R182, R242). -/
def addInc (s : State) (r : Reg) (v : W64) (x : Fld) : W64 :=
  let n := tget (incsNow s) 0 (incKey r x.lo)
  if x.acc = .rw ∧ n ≠ 0 then putBits v x.hi x.lo (satAdd (2 ^ (x.hi + 1 - x.lo) - 1) (bits v x.hi x.lo) n) else v

theorem addIncs_eq_foldl (s : State) (r : Reg) (v : W64) : addIncs s r v = (regFields r).foldl (addInc s r) v := rfl

theorem satAdd_lt (k a b : Nat) : satAdd (2 ^ k - 1) a b < 2 ^ k :=
  (Nat.min_le_left _ _).trans_lt (Nat.sub_one_lt (Nat.two_pow_pos k).ne')

theorem bit_addInc (s : State) (r : Reg) (v : W64) (x : Fld) (i : Nat) (h : i < x.lo ∨ x.hi < i) : bit (addInc s r v x) i = bit v i := by
  unfold addInc
  dsimp only
  split
  · exact bit_putBits_out _ _ h
  · rfl

theorem bits_addInc (s : State) (r : Reg) (v : W64) {x : Fld} (h64 : x.hi < 64) : bits (addInc s r v x) x.hi x.lo =
    if x.acc = .rw then satAdd (2 ^ (x.hi + 1 - x.lo) - 1) (bits v x.hi x.lo) (tget (incsNow s) 0 (incKey r x.lo)) else bits v x.hi x.lo := by
  have hv := bits_lt v x.hi x.lo
  by_cases hrw : x.acc = .rw
  · by_cases hn : tget (incsNow s) 0 (incKey r x.lo) = 0
    · simp only [addInc, hrw, hn, ne_eq, not_true_eq_false, and_false, if_false, if_true, satAdd]
      omega
    · simp only [addInc, hrw, hn, ne_eq, not_false_eq_true, and_self, if_true]
      rw [bits_putBits_self _ _ h64, Nat.mod_eq_of_lt (satAdd_lt _ _ _)]
  · simp only [addInc, hrw, false_and, if_false]

/-- What a write of v to a register of value old leaves after the increments of this a-cycle. -/
theorem addIncs_writeFlds_spec (s : State) (locked : Bool) (r : Reg) (old v : W64) :
    (∀ x ∈ regFields r, bits (addIncs s r (writeFlds locked (regFields r) old v).1) x.hi x.lo =
      fldAfter locked (tget (incsNow s) 0 (incKey r x.lo)) x old v) ∧
    (∀ i, (∀ x ∈ regFields r, i < x.lo ∨ x.hi < i) → bit (addIncs s r (writeFlds locked (regFields r) old v).1) i = bit old i) := by
  obtain ⟨hin, hout, -, -⟩ := writeFlds_spec locked r old v
  rw [addIncs_eq_foldl]
  refine ⟨?_, fun i hi => (bit_foldl_fields (val := id) (bit_addInc s r) hi _).trans (hout i hi)⟩
  have hstep : ∀ (u : W64), ∀ x ∈ regFields r, bits u x.hi x.lo = fldAfter locked 0 x old v →
      bits (addInc s r u x) x.hi x.lo = fldAfter locked (tget (incsNow s) 0 (incKey r x.lo)) x old v := by
    intro u x hx hu
    rw [bits_addInc s r u (regFields_hi_lt r x hx), hu]
    split
    case isTrue h => rw [fldAfter_rw h, fldAfter_rw h, satAdd_fldTaken_zero]
    case isFalse h => exact (fldAfter_not_rw h ..).symm
  exact bits_foldl_fields (val := id) (bit_addInc s r) (regFields_apart r) hstep _ hin

end Sys2Proof.Machine

namespace Sys2Proof.Machine

/-! Events. -/

/-- Nothing but the event log differs, and the events on their way have grown by those with the causes listed. -/
structure Logged (s u : State) (causes : List Nat) : Prop where
  rest : u = { s with log := u.log }
  events : LogsExactly s u causes

theorem Logged.refl (s : State) : Logged s s [] := ⟨rfl, [], (List.append_nil _).symm, rfl⟩

theorem LogsExactly.trans {s t u : State} {a b : List Nat} (h : LogsExactly s t a) (k : LogsExactly t u b) : LogsExactly s u (a ++ b) := by
  obtain ⟨as, has, rfl⟩ := h
  obtain ⟨bs, hbs, rfl⟩ := k
  exact ⟨as ++ bs, by rw [hbs, has, List.append_assoc], List.map_append⟩

theorem Logged.trans {s t u : State} {a b : List Nat} (h : Logged s t a) (k : Logged t u b) : Logged s u (a ++ b) :=
  ⟨k.rest.trans (by rw [h.rest]), h.events.trans k.events⟩

/-- An event logged is one more on its way (R459). -/
theorem logged_logEv (s : State) (cause cls slice unit sub inst : Nat) (detail : W64) :
    Logged s (logEv s cause cls slice unit sub inst detail) [cause] := ⟨rfl, [_], rfl, rfl⟩

theorem logged_logAccess (s : State) (f : FuncId) (o cause : Nat) : Logged s (logAccess s f o cause) [cause] := logged_logEv ..

/-- One event of a refused access for each element of a list. -/
theorem logged_foldl_logAccess (s : State) (f : FuncId) (o cause : Nat) {α : Type} (l : List α) :
    Logged s (l.foldl (fun s _ => logAccess s f o cause) s) (List.replicate l.length cause) := by
  induction l generalizing s with
  | nil => exact .refl s
  | cons x l ih => exact (logged_logAccess s f o cause).trans (ih _)

section Same
variable {s u : State} {causes : List Nat} (h : Logged s u causes)
include h
theorem Logged.regs : u.regs = s.regs := by rw [h.rest]
theorem Logged.fregs : u.fregs = s.fregs := by rw [h.rest]
theorem Logged.rget (r : Reg) : rget u r = rget s r := by rw [Machine.rget, h.regs]; rfl
theorem Logged.fget (f : FuncId) (r : Reg) : fget u f r = fget s f r := by rw [Machine.fget, h.fregs]; rfl
theorem Logged.regVal (f : FuncId) (r : Reg) : regVal u f r = regVal s f r := by rw [Machine.regVal, h.rget, h.fget]; rfl
end Same

/-! A host's write. -/

theorem HostOk.hostWrite {s : State} {f : FuncId} {r : Reg} (h : HostOk s f r) (enable : Bool) (act : State → State) :
    hostWrite s f r enable act = act s := by
  obtain ⟨hex, hrdy, hreach⟩ := h
  simp only [Machine.hostWrite, hex, hrdy, hreach, Bool.not_true, Bool.false_eq_true, if_false]

/-- A register whose rule gives a write no effect of its own is written by its access codes. -/
theorem writeReg_plain {r : Reg} (h : plainReg r = true) (s : State) (f : FuncId) (v : W64) : writeReg s f r v = plainWrite s f r v := by
  cases r with
  | eng c e k =>
    cases k with
    | ctl | pc | dataHi => cases h
    | _ => rfl
  | dxeSctl | hostAddr | semCnt | semMode | syncWin | srng | updCtl | updNorm | updList | updGtab | updOvr | updStep | sqdb | cqdb | ringCtl
  | ringSq | ringCq | chorus | timeCtl | portCtl | doorbell | stepw | hubReset | vinMin | nextPfBar2 | nextSectmap | nextKeyslot | nextFabfw
  | nextRseq => cases h
  | _ => rfl

/-- A register's offset as the 26 bits of an access. -/
theorem toNat_regOff (r : Reg) : (BitVec.ofNat 26 (regOff r)).toNat = regOff r := by
  rw [BitVec.toNat_ofNat, Nat.mod_eq_of_lt (regOff_lt r)]

/-- REGISTER_WRITE of 8 aligned bytes is the write of the register at the offset (R8, R381). -/
theorem exec_registerWrite_regOff {s : State} {f : FuncId} (hex : funcExists s f = true) (r : Reg) (v : W64) :
    exec (.registerWrite f (BitVec.ofNat 26 (regOff r)) 8 v) s = .next (hostWrite s f r (setsEnable r v) fun s => writeReg s f r v) := by
  have hal : ¬((8 : Nat) ≠ 8 ∨ regOff r % 8 ≠ 0) := by
    have := regOff_aligned r
    omega
  show execRegisterWrite _ _ _ _ _ = _
  simp only [execRegisterWrite, hex, toNat_regOff, regOf_regOff_self, Bool.not_true, Bool.false_eq_true, if_false, if_neg hal]

theorem exec_nextPartitionWrite_regOff (s : State) (f : FuncId) {r : Reg} (hn : isNext r = true) (v : W64) :
    exec (.nextPartitionWrite f (BitVec.ofNat 26 (regOff r)) v) s = .next (hostWrite s f r false fun s => writeNext s f r v) := by
  show execNextPartitionWrite _ _ _ _ = _
  simp only [execNextPartitionWrite, toNat_regOff, regOf_regOff_self, hn, if_true]

/-- The value that a plain write stores in a register (R9 to R11, R182). -/
def plainValue (s : State) (f : FuncId) (r : Reg) (v : W64) : W64 :=
  let x := (writeFlds (rbit s .prot 0) (regFields r) (regVal s f r) v).1
  if regLocal r then x else addIncs s r x

/-- A register stored, in the function's own copy where it has one. -/
def regPut (s : State) (f : FuncId) (r : Reg) (w : W64) : State := if regLocal r then fput s f r w else rput s r w

theorem regVal_regPut (s : State) (f : FuncId) (r : Reg) (w : W64) : regVal (regPut s f r w) f r = w := by
  unfold regVal regPut
  split
  · exact fget_fput s f r w
  · exact rget_rput s r w

theorem fkey_inj {f g : FuncId} {r q : Reg} (h : fkey g q = fkey f r) : g = f ∧ q = r := by
  have hr := regOff_lt r
  have hq := regOff_lt q
  unfold fkey at h
  refine ⟨Fin.ext ?_, regOff_injective ?_⟩ <;> omega

/-- Every other register, and every other function's copy of a function-local one, is as before. -/
theorem regVal_regPut_other (s : State) {f g : FuncId} {r q : Reg} (w : W64) (h : ¬(q = r ∧ (regLocal r = true → g = f))) :
    regVal (regPut s f r w) g q = regVal s g q := by
  unfold regVal regPut
  by_cases hr : regLocal r = true
  · have hk : fkey g q ≠ fkey f r := fun hk => h ⟨(fkey_inj hk).2, fun _ => (fkey_inj hk).1⟩
    rw [if_pos hr, fget_fput_ne s w hk, rget_fput]
  · have hk : regOff q ≠ regOff r := fun hk => h ⟨regOff_injective hk, fun hl => absurd hl hr⟩
    rw [if_neg hr, rget_rput_ne s w hk]
    rfl

@[simp] theorem regPut_log (s : State) (f : FuncId) (r : Reg) (w : W64) : (regPut s f r w).log = s.log := by
  unfold regPut
  split <;> rfl

theorem regPut_regsOnly (s : State) (f : FuncId) (r : Reg) (w : W64) : RegsOnly s (regPut s f r w) := by
  unfold regPut
  split <;> exact ⟨rfl⟩

theorem plainWrite_eq (s : State) (f : FuncId) (r : Reg) (v : W64) : plainWrite s f r v =
    let x := writeFlds (rbit s .prot 0) (regFields r) (regVal s f r) v
    let t := (List.range x.2.1).foldl (fun s _ => logAccess s f (regOff r) ntGeneral) (regPut s f r (plainValue s f r v))
    if x.2.2 then logAccess t f (regOff r) ntGeneral else t := by
  unfold plainWrite regPut plainValue regVal
  cases regLocal r <;> rfl

/-- A plain write stores its value and logs one event for each reserved encoding and one where the lock refuses (R9, R11). -/
theorem plainWrite_logged (s : State) (f : FuncId) (r : Reg) (v : W64) :
    Logged (regPut s f r (plainValue s f r v)) (plainWrite s f r v)
      (List.replicate (((regFields r).filter (fldReserved (rbit s .prot 0) v)).length +
        (if rbit s .prot 0 && (regFields r).any (fun x => x.acc == .rwb) then 1 else 0)) ntGeneral) := by
  obtain ⟨-, -, hcount, hlock⟩ := writeFlds_spec (rbit s .prot 0) r (regVal s f r) v
  have hres := logged_foldl_logAccess (regPut s f r (plainValue s f r v)) f (regOff r) ntGeneral
    (List.range ((regFields r).filter (fldReserved (rbit s .prot 0) v)).length)
  rw [List.length_range] at hres
  rw [plainWrite_eq]
  dsimp only
  rw [hcount, hlock, List.replicate_add]
  split
  · exact hres.trans (logged_logAccess ..)
  · exact hres.trans (.refl _)

/-- What a plain write leaves in the register (R9 to R11, R182). -/
theorem plainValue_spec (s : State) (f : FuncId) (r : Reg) (v : W64) :
    (∀ x ∈ regFields r, bits (plainValue s f r v) x.hi x.lo = fldAfter (rbit s .prot 0) (incsOf s r x) x (regVal s f r) v) ∧
    (∀ i, (∀ x ∈ regFields r, i < x.lo ∨ x.hi < i) → bit (plainValue s f r v) i = bit (regVal s f r) i) := by
  unfold plainValue incsOf
  dsimp only
  split
  · obtain ⟨hin, hout, -, -⟩ := writeFlds_spec (rbit s .prot 0) r (regVal s f r) v
    exact ⟨hin, hout⟩
  · exact addIncs_writeFlds_spec s _ r _ v

/-- REGISTER_WRITE of 8 aligned bytes to a register without an effect of its own (R9 to R11, R182, R381). -/
theorem exec_registerWrite_plain {s : State} {f : FuncId} {r : Reg} (hp : plainReg r = true) (h : HostOk s f r) (v : W64) :
    exec (.registerWrite f (BitVec.ofNat 26 (regOff r)) 8 v) s = .next (plainWrite s f r v) := by
  rw [exec_registerWrite_regOff h.exist, h.hostWrite, writeReg_plain hp]

theorem plainWrite_spec (s : State) (f : FuncId) (r : Reg) (v : W64) : RegsOnly s (plainWrite s f r v) ∧
    (∀ x ∈ regFields r, bits (regVal (plainWrite s f r v) f r) x.hi x.lo = fldAfter (rbit s .prot 0) (incsOf s r x) x (regVal s f r) v) ∧
    (∀ i, i < 64 → (∀ x ∈ regFields r, i < x.lo ∨ x.hi < i) → bit (regVal (plainWrite s f r v) f r) i = bit (regVal s f r) i) ∧
    (∀ g q, ¬(q = r ∧ (regLocal r = true → g = f)) → regVal (plainWrite s f r v) g q = regVal s g q) ∧
    LogsExactly s (plainWrite s f r v) (List.replicate (((regFields r).filter (fldReserved (rbit s .prot 0) v)).length +
      (if rbit s .prot 0 && (regFields r).any (fun x => x.acc == .rwb) then 1 else 0)) ntGeneral) := by
  have hlog := plainWrite_logged s f r v
  obtain ⟨hrest⟩ := regPut_regsOnly s f r (plainValue s f r v)
  obtain ⟨hin, hout⟩ := plainValue_spec s f r v
  have hval : regVal (plainWrite s f r v) f r = plainValue s f r v := (hlog.regVal f r).trans (regVal_regPut ..)
  refine ⟨⟨?_⟩, ?_, fun i _ hi => ?_, fun g q hq => ?_, ?_⟩
  · rw [hlog.rest, hrest]
  · rw [hval]; exact hin
  · rw [hval]; exact hout i hi
  · rw [hlog.regVal, regVal_regPut_other s _ hq]
  · obtain ⟨evs, hev, hc⟩ := hlog.events
    exact ⟨evs, by rw [hev, regPut_log], hc⟩

/-- The state with a register of the next partition stored in MRAM (R407, R431). -/
def nextPut (s : State) (r : Reg) (w : W64) : State :=
  { s with fw := { s.fw with mram := { s.fw.mram with part := some (tset (s.fw.mram.part.getD []) 0 (regOff r) w) } } }

@[simp] theorem nextPart_nextPut_self (s : State) (r : Reg) (w : W64) : nextPart (nextPut s r w) r = w := tget_tset_self _ _ _ _

theorem nextPart_nextPut_ne (s : State) {r q : Reg} (w : W64) (h : q ≠ r) : nextPart (nextPut s r w) q = nextPart s q := by
  have hset : nextPart (nextPut s r w) q = tget (s.fw.mram.part.getD []) 0 (regOff q) := tget_tset_ne _ _ _ _ fun hk => h (regOff_injective hk)
  rw [hset, nextPart]
  cases s.fw.mram.part <;> rfl

theorem Logged.nextPart {s u : State} {causes : List Nat} (h : Logged s u causes) (r : Reg) : nextPart u r = nextPart s r := by
  have hfw : u.fw = s.fw := by rw [h.rest]
  rw [Machine.nextPart, hfw]; rfl

/-- A write to the next partition stores what the access codes give and logs one event for each reserved encoding (R11, R407). -/
theorem writeNext_logged (s : State) (f : FuncId) (r : Reg) (v : W64) :
    Logged (nextPut s r (writeFlds false (regFields r) (nextPart s r) v).1) (writeNext s f r v)
      (List.replicate ((regFields r).filter (fldReserved false v)).length ntGeneral) := by
  obtain ⟨-, -, hcount, -⟩ := writeFlds_spec false r (nextPart s r) v
  have hres := logged_foldl_logAccess (nextPut s r (writeFlds false (regFields r) (nextPart s r) v).1) f (regOff r) ntGeneral
    (List.range ((regFields r).filter (fldReserved false v)).length)
  rw [List.length_range, ← hcount] at hres
  rwa [← hcount]

theorem writeNext_spec (s : State) (f : FuncId) (r : Reg) (v : W64) :
    (∀ x ∈ regFields r, bits (nextPart (writeNext s f r v) r) x.hi x.lo = fldAfter false 0 x (nextPart s r) v) ∧
    (∀ q, q ≠ r → nextPart (writeNext s f r v) q = nextPart s q) ∧
    writeNext s f r v = { s with log := (writeNext s f r v).log, fw := { s.fw with mram := { s.fw.mram with part := (writeNext s f r v).fw.mram.part } } } ∧
    LogsExactly s (writeNext s f r v) (List.replicate ((regFields r).filter (fldReserved false v)).length ntGeneral) := by
  have hlog := writeNext_logged s f r v
  obtain ⟨hin, -, -, -⟩ := writeFlds_spec false r (nextPart s r) v
  refine ⟨?_, fun q hq => ?_, ?_, hlog.events⟩
  · rw [hlog.nextPart, nextPart_nextPut_self]; exact hin
  · rw [hlog.nextPart, nextPart_nextPut_ne s _ hq]
  · rw [hlog.rest]; rfl

/-- REGISTER_WRITE and BAR0_MISALIGNED_READ of anything but 8 aligned bytes log ST_ALIGN, and such a read returns zeros (R381). -/
theorem exec_misaligned {s : State} {f : FuncId} (hex : funcExists s f = true) {off : BitVec 26} {len : Nat} (h : len ≠ 8 ∨ off.toNat % 8 ≠ 0) (v : W64) :
    exec (.registerWrite f off len v) s = .next (logAccess s f off.toNat (stCode .align)) ∧
    exec (.bar0MisalignedRead f off len) s =
      .next { logAccess s f off.toNat (stCode .align) with out := .readReply f (List.replicate len 0) false :: s.out } := by
  have hread : (len == 8 && off.toNat % 8 == 0) = false := by
    simp only [Bool.and_eq_false_iff, beq_eq_false_iff_ne]; exact h
  constructor
  · show execRegisterWrite _ _ _ _ _ = _
    simp only [execRegisterWrite, hex, if_pos h, Bool.not_true, Bool.false_eq_true, if_false]
  · show execBar0MisalignedRead _ _ _ _ = _
    simp only [execBar0MisalignedRead, hex, hread, Bool.not_true, Bool.or_self, Bool.false_eq_true, if_false]
    rfl

/-- Settles O33: a plain write is the fold of its fields' writes, each of which changes its own bits alone. -/
theorem registerWritesFollowTheirAccessCodes : Obligations.RegisterWritesFollowTheirAccessCodes := by
  intro s f v hex
  refine ⟨fun r hp hok => ?_, fun r hn hok => ?_, fun r hrdy => ?_, fun r hrdy hno => ?_, fun off len hal => exec_misaligned hex hal v⟩
  · exact ⟨_, exec_registerWrite_plain hp hok v, plainWrite_spec s f r v⟩
  · obtain ⟨hin, hother, hrest, hlog⟩ := writeNext_spec s f r v
    exact ⟨_, by rw [exec_nextPartitionWrite_regOff s f hn, hok.hostWrite], hin, fun q _ => hother q, hrest, hlog⟩
  · rw [exec_registerWrite_regOff hex]
    simp only [hostWrite, hex, hrdy, Bool.not_true, Bool.not_false, Bool.false_eq_true, if_false, if_true]
  · rw [exec_registerWrite_regOff hex]
    simp only [hostWrite, hex, hrdy, hno, Bool.not_true, Bool.not_false, Bool.false_eq_true, if_false, if_true]

end Sys2Proof.Machine

namespace Sys2Proof.Machine

/-! Registers after the write of a field. -/

theorem rget_rput_of_ne (s : State) {r q : Reg} (v : W64) (h : q ≠ r) : rget (rput s r v) q = rget s q :=
  rget_rput_ne s v fun hk => h (regOff_injective hk)

theorem rget_rsetf_of_ne (s : State) {r q : Reg} (hi lo x : Nat) (h : q ≠ r) : rget (rsetf s r hi lo x) q = rget s q :=
  rget_rput_of_ne s _ h

@[simp] theorem rget_rsetf_self (s : State) (r : Reg) (hi lo x : Nat) : rget (rsetf s r hi lo x) r = putBits (rget s r) hi lo x := rget_rput ..

theorem rget_congr {s u : State} (h : u.regs = s.regs) (r : Reg) : rget u r = rget s r := by
  rw [rget, h]; rfl

theorem rfld_congr {s u : State} {r : Reg} (h : rget u r = rget s r) (hi lo : Nat) : rfld u r hi lo = rfld s r hi lo := by
  rw [rfld, h]; rfl

theorem rfld_rsetf_of_ne (s : State) {r q : Reg} (hi lo x a b : Nat) (h : q ≠ r) : rfld (rsetf s r hi lo x) q a b = rfld s q a b :=
  rfld_congr (rget_rsetf_of_ne s hi lo x h) a b

/-- A field written reads as the value written, where it fits. -/
theorem rfld_rsetf_self (s : State) (r : Reg) {hi lo x : Nat} (h64 : hi < 64) (hx : x < 2 ^ (hi + 1 - lo)) : rfld (rsetf s r hi lo x) r hi lo = x := by
  rw [rfld, rget_rsetf_self, bits_putBits_self _ _ h64, Nat.mod_eq_of_lt hx]

/-- A field apart from the one written reads as before. -/
theorem rfld_rsetf_apart (s : State) (r : Reg) {hi lo : Nat} (x : Nat) {a b : Nat} (h : a < lo ∨ hi < b) :
    rfld (rsetf s r hi lo x) r a b = rfld s r a b := by
  rw [rfld, rget_rsetf_self, bits_putBits_apart _ _ h]; rfl

theorem bits_one {n : Nat} (w : BitVec n) (i : Nat) : bits w i i = (bit w i).toNat := by
  rw [bits, Nat.add_sub_cancel_left, pow_one, Nat.shiftRight_eq_div_pow, bit, ← BitVec.testBit_toNat, Nat.testBit_eq_decide_div_mod_eq]
  have := Nat.mod_lt (w.toNat / 2 ^ i) (by decide : 0 < 2)
  obtain h | h : w.toNat / 2 ^ i % 2 = 0 ∨ w.toNat / 2 ^ i % 2 = 1 := by omega
  · rw [h]; rfl
  · rw [h]; rfl

/-- One bit of a register as a field of width one. -/
theorem rbit_eq (s : State) (r : Reg) (i : Nat) : rbit s r i = decide (rfld s r i i = 1) := by
  rw [rfld, bits_one, rbit]
  cases bit (rget s r) i <;> rfl

/-! What writes of some registers leave unchanged. -/

/-- Only registers of P differ. -/
structure Writes (P : Reg → Prop) (s u : State) : Prop where
  others : ∀ r, ¬P r → rget u r = rget s r
  rest : u = { s with regs := u.regs }

/-- No register but those of P and nothing of the firmware's state differs. -/
structure Touches (P : Reg → Prop) (s u : State) : Prop where
  others : ∀ r, ¬P r → rget u r = rget s r
  fw : u.fw = s.fw

section Writes
variable {P : Reg → Prop} {s t u : State}

theorem Writes.refl (P : Reg → Prop) (s : State) : Writes P s s := ⟨fun _ _ => rfl, rfl⟩

theorem Writes.trans (h : Writes P s t) (k : Writes P t u) : Writes P s u :=
  ⟨fun r hr => (k.others r hr).trans (h.others r hr), by rw [k.rest, h.rest]⟩

theorem Writes.mono {Q : Reg → Prop} (h : Writes P s u) (hPQ : ∀ r, P r → Q r) : Writes Q s u :=
  ⟨fun r hr => h.others r fun hp => hr (hPQ r hp), h.rest⟩

theorem writes_rput (s : State) {r : Reg} (v : W64) (hr : P r) : Writes P s (rput s r v) :=
  ⟨fun _ hq => rget_rput_of_ne s v fun hk => hq (hk ▸ hr), rfl⟩

theorem writes_rsetf (s : State) {r : Reg} (hi lo x : Nat) (hr : P r) : Writes P s (rsetf s r hi lo x) := writes_rput s _ hr

theorem writes_foldl {α : Type} {step : State → α → State} {l : List α} (h : ∀ t, ∀ x ∈ l, Writes P t (step t x)) (s : State) :
    Writes P s (l.foldl step s) :=
  List.foldlRecOn (motive := Writes P s) l step (.refl P s) fun t ht x hx => ht.trans (h t x hx)

theorem Writes.fw (h : Writes P s u) : u.fw = s.fw := by rw [h.rest]
theorem Writes.touches (h : Writes P s u) : Touches P s u := ⟨h.others, h.fw⟩
theorem Writes.bootCount (h : Writes P s u) : u.bootCount = s.bootCount := by rw [h.rest]
theorem Writes.sp (h : Writes P s u) : u.sp = s.sp := by rw [h.rest]
theorem Writes.log (h : Writes P s u) : u.log = s.log := by rw [h.rest]
theorem Writes.rfld (h : Writes P s u) {r : Reg} (hr : ¬P r) (hi lo : Nat) : rfld u r hi lo = Machine.rfld s r hi lo :=
  rfld_congr (h.others r hr) hi lo
end Writes

/-! A walk over all twenty sections, slices or slots. -/

theorem mem_all20 (n : N20) : n ∈ all20 := List.mem_finRange n

theorem all20_nodup : all20.Nodup := List.nodup_finRange 20

/-- In a walk over a list without repetitions, the step at n takes P n to Q n where every other step keeps both. -/
theorem foldl_at {σ ι : Type} {step : σ → ι → σ} {l : List ι} (hl : l.Nodup) {P Q : σ → Prop} {n : ι} (hn : n ∈ l)
    (hP : ∀ t, ∀ m ∈ l, m ≠ n → P t → P (step t m)) (hPQ : ∀ t, P t → Q (step t n)) (hQ : ∀ t, ∀ m ∈ l, m ≠ n → Q t → Q (step t m))
    {s : σ} (h : P s) :
    Q (l.foldl step s) := by
  obtain ⟨a, b, rfl⟩ := List.append_of_mem hn
  rw [List.nodup_append] at hl
  obtain ⟨-, hb, hab⟩ := hl
  have hpre : P (a.foldl step s) := List.foldlRecOn (motive := P) a step h fun t ht m hm =>
    hP t m (List.mem_append_left _ hm) (hab m hm n List.mem_cons_self) ht
  rw [List.foldl_append, List.foldl_cons]
  exact List.foldlRecOn (motive := Q) b step (hPQ _ hpre) fun t ht m hm =>
    hQ t m (List.mem_append_right _ (List.mem_cons_of_mem _ hm)) (fun he => (List.nodup_cons.1 hb).1 (he ▸ hm)) ht

/-- Where the step of each section writes registers of that section alone, a walk over all sections leaves in the registers that no other
section's step writes what the step of section n leaves there from a state that agrees with the first on them. -/
theorem foldl_block {P : N20 → Reg → Prop} {step : State → N20 → State} (hstep : ∀ t m, Touches (P m) t (step t m)) (s : State) (n : N20) :
    ∃ t, t.fw = s.fw ∧ (∀ r, (∀ m, m ≠ n → ¬P m r) → rget t r = rget s r) ∧
      ∀ r, (∀ m, m ≠ n → ¬P m r) → rget (all20.foldl step s) r = rget (step t n) r := by
  refine foldl_at (P := fun t => t.fw = s.fw ∧ ∀ r, (∀ m, m ≠ n → ¬P m r) → rget t r = rget s r)
    (Q := fun u => ∃ t, t.fw = s.fw ∧ (∀ r, (∀ m, m ≠ n → ¬P m r) → rget t r = rget s r) ∧
      ∀ r, (∀ m, m ≠ n → ¬P m r) → rget u r = rget (step t n) r) all20_nodup (mem_all20 n) ?_ ?_ ?_ ⟨rfl, fun _ _ => rfl⟩
  · rintro t m - hm ⟨hfw, hregs⟩
    exact ⟨(hstep t m).fw.trans hfw, fun r hr => ((hstep t m).others r (hr m hm)).trans (hregs r hr)⟩
  · rintro t ⟨hfw, hregs⟩
    exact ⟨t, hfw, hregs, fun _ _ => rfl⟩
  · rintro u m - hm ⟨t, hfw, hregs, hu⟩
    exact ⟨t, hfw, hregs, fun r hr => ((hstep u m).others r (hr m hm)).trans (hu r hr)⟩

end Sys2Proof.Machine

namespace Sys2Proof.Machine

/-! Flash slots (R437, R438). -/

theorem otherSlot_ne (i : Fin 2) : otherSlot i ≠ i := by fin_cases i <;> decide

@[simp] theorem getSlot_putSlot (s : State) (i : Fin 2) (x : Slot) : getSlot (putSlot s i x) i = x := tget_tset_self _ _ _ _

theorem getSlot_putSlot_ne (s : State) {i j : Fin 2} (x : Slot) (h : j ≠ i) : getSlot (putSlot s i x) j = getSlot s j :=
  tget_tset_ne _ _ _ _ fun hk => h (Fin.ext hk)

theorem getSlot_congr {s u : State} (h : u.fw.slots = s.fw.slots) (i : Fin 2) : getSlot u i = getSlot s i := by
  rw [getSlot, h]; rfl

/-- Two slots given states, one after the other: each has its own, with its blocks as they were. -/
theorem getSlot_setSlotSt_two (s : State) {i j : Fin 2} (x y : Nat) (h : j ≠ i) :
    getSlot (setSlotSt (setSlotSt s i x) j y) i = { getSlot s i with st := x } ∧
    getSlot (setSlotSt (setSlotSt s i x) j y) j = { getSlot s j with st := y } := by
  unfold setSlotSt
  constructor
  · rw [getSlot_putSlot_ne _ _ h.symm, getSlot_putSlot]
  · rw [getSlot_putSlot, getSlot_putSlot_ne _ _ h]

/-- The other slot is active and the slot that failed INVALID, with one event: what a fallback of the boot leaves (R437; log 84). -/
structure FellBack (s u : State) : Prop where
  active : u.fw.mram.active = idleSlot s
  bad : (getSlot u (activeSlot s)).st = slInvalid
  good : (getSlot u (idleSlot s)).st = slActive
  log : LogsExactly s u [stCode .huskInvalid]

/-- The slots after a fallback of the boot, before its event. -/
def swapSlots (s : State) : State :=
  let t := putAct (setSlotSt (setSlotSt s (activeSlot s) slInvalid) (idleSlot s) slActive) { s.fw.act with fell := true }
  putMram t { t.fw.mram with active := idleSlot s }

theorem fallBack_logged (s : State) : Logged (swapSlots s) (fallBack s) [stCode .huskInvalid] := logged_logEv ..

@[simp] theorem swapSlots_slots (s : State) :
    (swapSlots s).fw.slots = (setSlotSt (setSlotSt s (activeSlot s) slInvalid) (idleSlot s) slActive).fw.slots := by
  simp only [swapSlots, putMram_fw, putAct_fw]

@[simp] theorem swapSlots_active (s : State) : (swapSlots s).fw.mram.active = idleSlot s := by
  simp only [swapSlots, putMram_fw]

theorem swapSlots_rest (s : State) : swapSlots s = { s with fw := (swapSlots s).fw } := by
  simp only [swapSlots, putMram, putAct, setSlotSt, putSlot]

theorem Logged.fw {s u : State} {causes : List Nat} (h : Logged s u causes) : u.fw = s.fw := by rw [h.rest]

theorem fallBack_fellBack (s : State) : FellBack s (fallBack s) := by
  have hlog := fallBack_logged s
  obtain ⟨hbad, hgood⟩ := getSlot_setSlotSt_two s slInvalid slActive (otherSlot_ne (activeSlot s))
  have hslots := getSlot_congr (s := setSlotSt (setSlotSt s (activeSlot s) slInvalid) (idleSlot s) slActive) (u := fallBack s)
    (by rw [hlog.fw, swapSlots_slots])
  refine ⟨by rw [hlog.fw, swapSlots_active], ?_, ?_, ?_⟩
  · rw [hslots, idleSlot, hbad]
  · rw [hslots, idleSlot, hgood]
  · obtain ⟨evs, hevs, hc⟩ := hlog.events
    exact ⟨evs, by rw [hevs, swapSlots_rest], hc⟩

/-- A fallback changes the firmware's state and the event log alone. -/
theorem fallBack_rest (s : State) : fallBack s = { s with fw := (fallBack s).fw, log := (fallBack s).log } := by
  rw [(fallBack_logged s).rest, swapSlots_rest]

/-- The four facts of a fallback, as the statements about boot list them. -/
theorem FellBack.swapped {s u : State} (h : FellBack s u) : u.fw.mram.active = idleSlot s ∧ (getSlot u (activeSlot s)).st = slInvalid ∧
    (getSlot u (idleSlot s)).st = slActive ∧ LogsExactly s u [stCode .huskInvalid] := ⟨h.active, h.bad, h.good, h.log⟩

/-- A state with the same slots and events as after the fallback. -/
theorem FellBack.of_same {r s t u : State} (h : FellBack s t) (hr : activeSlot r = activeSlot s) (hlr : r.log = s.log)
    (ha : u.fw.mram.active = t.fw.mram.active) (hs : u.fw.slots = t.fw.slots)
    (hl : u.log = t.log) : FellBack r u := by
  obtain ⟨hact, hbad, hgood, hlog⟩ := h
  have hi : idleSlot r = idleSlot s := congrArg otherSlot hr
  refine ⟨by rw [ha, hact, hi], by rw [getSlot_congr hs, hr, hbad], by rw [getSlot_congr hs, hi, hgood], ?_⟩
  unfold LogsExactly at *
  rwa [hl, hlr]

/-! Step 1: the boot ROM (R435, R437). -/

theorem stCode_lt (st : Status) : stCode st < 2 ^ 16 := by cases st <;> decide

/-- Boot stopped with a status. -/
theorem stopBoot_spec (s : State) (st : Status) :
    (stopBoot s st).fw.phase = .stopped ∧ rfld (stopBoot s st) .bootStatus 63 48 = stCode st :=
  ⟨rfl, rfld_rsetf_self s .bootStatus (by decide) (stCode_lt st)⟩

theorem leaveReset_spec (s : State) : (leaveReset s).fw.mram = s.fw.mram ∧ (leaveReset s).fw.slots = s.fw.slots ∧ (leaveReset s).log = s.log ∧
    (leaveReset s).fw.pinLow = false ∧ rfld (leaveReset s) .clkState 3 0 = 15 ∧ (∀ r, r ≠ .clkState → rget (leaveReset s) r = rget s r) ∧
    leaveReset s = { s with fw := (leaveReset s).fw, regs := (leaveReset s).regs, side := { s.side with extest := false } } :=
  ⟨rfl, rfl, rfl, rfl, rfld_rsetf_self _ .clkState (by decide) (by decide), fun _ h => rget_rsetf_of_ne _ 3 0 15 h, rfl⟩

@[simp] theorem activeSlot_leaveReset (s : State) : activeSlot (leaveReset s) = activeSlot s := rfl
@[simp] theorem idleSlot_leaveReset (s : State) : idleSlot (leaveReset s) = idleSlot s := rfl
@[simp] theorem slotBlocks_leaveReset (s : State) (i : Fin 2) : slotBlocks (leaveReset s) i = slotBlocks s i := rfl
@[simp] theorem activeSlot_rsetf (s : State) (r : Reg) (hi lo x : Nat) : activeSlot (rsetf s r hi lo x) = activeSlot s := rfl
@[simp] theorem idleSlot_rsetf (s : State) (r : Reg) (hi lo x : Nat) : idleSlot (rsetf s r hi lo x) = idleSlot s := rfl
@[simp] theorem slotBlocks_rsetf (s : State) (r : Reg) (hi lo x : Nat) (i : Fin 2) : slotBlocks (rsetf s r hi lo x) i = slotBlocks s i := rfl

/-- BOOT_ROM of a device that has left its reset goes on with the active slot, with the other one, or stops (R435, R437). -/
theorem exec_bootRom {s : State} (h : s.fw.phase = .released) : exec .bootRom s = .next
    (if romOk (slotBlocks s (activeSlot s)) then setPhase (leaveReset s) .rom
     else if romOk (slotBlocks s (idleSlot s)) then setPhase (fallBack (leaveReset s)) .rom
     else stopBoot (leaveReset s) .huskInvalid) := by
  change execBootRom s = _
  simp only [execBootRom, h, ne_eq, not_true_eq_false, if_false, activeSlot_leaveReset, idleSlot_leaveReset, slotBlocks_leaveReset]
  rfl

theorem bootRom_active {s : State} (h : s.fw.phase = .released) (hok : romOk (slotBlocks s (activeSlot s)) = true) :
    ∃ u, exec .bootRom s = .next u ∧ u.fw.phase = .rom ∧ u.fw.mram = s.fw.mram ∧ u.fw.pinLow = false ∧ rfld u .clkState 3 0 = 15 ∧
      (∀ r, r ≠ .clkState → rget u r = rget s r) ∧ u = { s with fw := u.fw, regs := u.regs, side := { s.side with extest := false } } := by
  obtain ⟨hmram, -, -, hpin, hclk, hregs, hrest⟩ := leaveReset_spec s
  refine ⟨setPhase (leaveReset s) .rom, ?_, rfl, hmram, hpin, hclk, hregs, rfl⟩
  rw [exec_bootRom h, if_pos hok]

theorem bootRom_other {s : State} (h : s.fw.phase = .released) (hbad : romOk (slotBlocks s (activeSlot s)) = false)
    (hok : romOk (slotBlocks s (idleSlot s)) = true) : ∃ u, exec .bootRom s = .next u ∧ u.fw.phase = .rom ∧ FellBack s u := by
  refine ⟨setPhase (fallBack (leaveReset s)) .rom, ?_, rfl, ?_⟩
  · rw [exec_bootRom h, if_neg (Bool.eq_false_iff.1 hbad), if_pos hok]
  · obtain ⟨hmram, -, hlog, -⟩ := leaveReset_spec s
    exact (fallBack_fellBack (leaveReset s)).of_same rfl hlog.symm rfl rfl rfl

theorem bootRom_stops {s : State} (h : s.fw.phase = .released) (hbad : romOk (slotBlocks s (activeSlot s)) = false)
    (hbad' : romOk (slotBlocks s (idleSlot s)) = false) : ∃ u, exec .bootRom s = .next u ∧ u.fw.phase = .stopped ∧
      rfld u .bootStatus 63 48 = stCode .huskInvalid := by
  refine ⟨stopBoot (leaveReset s) .huskInvalid, ?_, stopBoot_spec _ _⟩
  rw [exec_bootRom h, if_neg (Bool.eq_false_iff.1 hbad), if_neg (Bool.eq_false_iff.1 hbad')]

/-! Step 2: stage 1 (R435, R437). -/

theorem aclkTarget_lt (p : Pwr) : aclkTarget p < 2 ^ 10 := by
  unfold aclkTarget
  have : (if p.dip then 400 else 800) ≤ 800 := by split <;> decide
  omega

/-- The stacks put in training, one after the other. -/
def trainAll (s : State) : State := all20.foldl (fun s n => rsetf s (.mcState n) 63 60 1) s

theorem trainAll_writes (s : State) : Writes (fun r => ∃ n, r = .mcState n) s (trainAll s) :=
  writes_foldl (fun t n _ => writes_rsetf t 63 60 1 ⟨n, rfl⟩) s

theorem trainAll_mcState (s : State) (n : N20) : rfld (trainAll s) (.mcState n) 63 60 = 1 := by
  unfold trainAll
  refine foldl_at (P := fun _ => True) (Q := fun t => rfld t (.mcState n) 63 60 = 1) all20_nodup (mem_all20 n) (fun _ _ _ _ _ => trivial)
    (fun t _ => ?_) (fun t m _ hm ht => ?_) trivial
  · exact rfld_rsetf_self t _ (by decide) (by decide)
  · rw [rfld_rsetf_of_ne t 63 60 1 63 60 fun hk => hm (Reg.mcState.inj hk).symm, ht]

/-- BOOT_COUNT raised and the a-clock at the lowest request (R435 step 2, R479). -/
def clockUp (s : State) : State :=
  let t := putMram { s with bootCount := s.bootCount + 1 } (wrote .boot s.fw.mram)
  rsetf (rsetf t .clkState 63 54 (aclkTarget t.pwr)) .clkState 53 44 (aclkTarget t.pwr)

theorem clockUp_spec (s : State) : (clockUp s).bootCount = s.bootCount + 1 ∧ (∀ r, r ≠ .clkState → rget (clockUp s) r = rget s r) ∧
    rfld (clockUp s) .clkState 63 54 = aclkTarget s.pwr ∧ rfld (clockUp s) .clkState 53 44 = aclkTarget s.pwr ∧
    (clockUp s).log = s.log ∧ (clockUp s).fw = { s.fw with mram := wrote .boot s.fw.mram } := by
  have ht := aclkTarget_lt s.pwr
  refine ⟨rfl, fun r hr => ?_, ?_, rfld_rsetf_self _ _ (by decide) ht, rfl, rfl⟩
  · rw [clockUp, rget_rsetf_of_ne _ _ _ _ hr, rget_rsetf_of_ne _ _ _ _ hr]; rfl
  · rw [clockUp, rfld_rsetf_apart _ _ _ (by decide)]
    exact rfld_rsetf_self _ _ (by decide) ht

theorem beginStage1_eq (s : State) : beginStage1 s =
    setPhase (putTrained (putAct (trainAll (clockUp s))
      { actReset with spMan := manOf (slotPay (trainAll (clockUp s)) (activeSlot (trainAll (clockUp s)))),
                      fell := (trainAll (clockUp s)).fw.act.fell }) []) .stage1 := by
  simp only [beginStage1, trainAll, clockUp]

theorem rget_beginStage1 (s : State) (r : Reg) : rget (beginStage1 s) r = rget (trainAll (clockUp s)) r :=
  rget_congr (by rw [beginStage1_eq, setPhase_regs, putTrained_regs, putAct_regs]) r

/-- What stage 1 leaves behind once its checks have passed (R435 steps 2 and 3, R479). -/
theorem beginStage1_spec (s : State) : (beginStage1 s).fw.phase = .stage1 ∧ (beginStage1 s).bootCount = s.bootCount + 1 ∧
    rget (beginStage1 s) .bootStatus = rget s .bootStatus ∧ rfld (beginStage1 s) .clkState 63 54 = aclkTarget s.pwr ∧
    rfld (beginStage1 s) .clkState 53 44 = aclkTarget s.pwr ∧ (∀ n, rfld (beginStage1 s) (.mcState n) 63 60 = 1) ∧
    (beginStage1 s).fw.trained = [] ∧ (beginStage1 s).log = s.log ∧ (beginStage1 s).fw.slots = s.fw.slots ∧
    (beginStage1 s).fw.mram.active = s.fw.mram.active := by
  obtain ⟨hboot, hregs, hhi, hlo, hlog, hfw⟩ := clockUp_spec s
  have hw := trainAll_writes (clockUp s)
  have hclk : rget (beginStage1 s) .clkState = rget (clockUp s) .clkState := (rget_beginStage1 s _).trans (hw.others _ (by simp))
  refine ⟨?_, ?_, ?_, by rw [rfld_congr hclk, hhi], by rw [rfld_congr hclk, hlo], fun n => ?_, ?_, ?_, ?_, ?_⟩
  · rw [beginStage1_eq, setPhase_fw]
  · rw [beginStage1_eq, setPhase_bootCount, putTrained_bootCount, putAct_bootCount, hw.bootCount, hboot]
  · rw [rget_beginStage1, hw.others _ (by simp), hregs _ (by simp)]
  · rw [rfld_congr (rget_beginStage1 s _), trainAll_mcState]
  · rw [beginStage1_eq, setPhase_fw, putTrained_fw]
  · rw [beginStage1_eq, setPhase_log, putTrained_log, putAct_log, hw.log, hlog]
  · rw [beginStage1_eq, setPhase_fw, putTrained_fw, putAct_fw, hw.fw, hfw]
  · rw [beginStage1_eq, setPhase_fw, putTrained_fw, putAct_fw, hw.fw, hfw]
    rfl

/-- STAGE1_START after the boot ROM, at STAGE 1 (R435, R437). -/
theorem exec_stage1Start {s : State} (h : s.fw.phase = .rom) : exec .stage1Start s = .next
    (if huskOk (slotBlocks s (activeSlot s)) then beginStage1 (rsetf s .bootStatus 47 40 1)
     else if romOk (slotBlocks s (idleSlot s)) && huskOk (slotBlocks s (idleSlot s)) then beginStage1 (fallBack (rsetf s .bootStatus 47 40 1))
     else stopBoot (rsetf s .bootStatus 47 40 1) .huskInvalid) := by
  change execStage1Start s = _
  simp only [execStage1Start, h, ne_eq, not_true_eq_false, if_false, activeSlot_rsetf, idleSlot_rsetf, slotBlocks_rsetf]
  rfl

/-- Stage 1 has begun: step 2 of boot is done, and every stack is in training (R435, R479). -/
structure Began (s u : State) : Prop where
  phase : u.fw.phase = .stage1
  boots : u.bootCount = s.bootCount + 1
  stage : rfld u .bootStatus 47 40 = 1
  hiclk : rfld u .clkState 63 54 = aclkTarget s.pwr
  loclk : rfld u .clkState 53 44 = aclkTarget s.pwr
  ready : ∀ n, rfld u (.mcState n) 63 60 = 1
  trained : u.fw.trained = []

/-- The seven facts of a begun stage 1, as the statements about boot list them. -/
theorem Began.facts {s u : State} (h : Began s u) : u.fw.phase = .stage1 ∧ u.bootCount = s.bootCount + 1 ∧ rfld u .bootStatus 47 40 = 1 ∧
    rfld u .clkState 63 54 = aclkTarget s.pwr ∧ rfld u .clkState 53 44 = aclkTarget s.pwr ∧ (∀ n, rfld u (.mcState n) 63 60 = 1) ∧
    u.fw.trained = [] := ⟨h.phase, h.boots, h.stage, h.hiclk, h.loclk, h.ready, h.trained⟩

theorem began_beginStage1 {s t : State} (hb : t.bootCount = s.bootCount) (hp : t.pwr = s.pwr) (hs : rfld t .bootStatus 47 40 = 1) :
    Began s (beginStage1 t) := by
  obtain ⟨hphase, hboots, hstat, hhi, hlo, hmc, htr, -⟩ := beginStage1_spec t
  exact ⟨hphase, by rw [hboots, hb], by rw [rfld_congr hstat, hs], by rw [hhi, hp], by rw [hlo, hp], hmc, htr⟩

theorem rfld_stageOne (s : State) : rfld (rsetf s .bootStatus 47 40 1) .bootStatus 47 40 = 1 :=
  rfld_rsetf_self s .bootStatus (by decide) (by decide)

theorem stage1Start_active {s : State} (h : s.fw.phase = .rom) (hok : huskOk (slotBlocks s (activeSlot s)) = true) :
    ∃ u, exec .stage1Start s = .next u ∧ Began s u ∧ u.log = s.log := by
  refine ⟨_, by rw [exec_stage1Start h, if_pos hok], began_beginStage1 (t := rsetf s .bootStatus 47 40 1) rfl rfl (rfld_stageOne s), ?_⟩
  obtain ⟨-, -, -, -, -, -, -, hlog, -⟩ := beginStage1_spec (rsetf s .bootStatus 47 40 1)
  rw [hlog]; rfl

theorem stage1Start_other {s : State} (h : s.fw.phase = .rom) (hbad : huskOk (slotBlocks s (activeSlot s)) = false)
    (hok : (romOk (slotBlocks s (idleSlot s)) && huskOk (slotBlocks s (idleSlot s))) = true) :
    ∃ u, exec .stage1Start s = .next u ∧ Began s u ∧ FellBack s u := by
  let t := fallBack (rsetf s .bootStatus 47 40 1)
  have hrest : t = { rsetf s .bootStatus 47 40 1 with fw := t.fw, log := t.log } := fallBack_rest _
  have hstat : rget t .bootStatus = rget (rsetf s .bootStatus 47 40 1) .bootStatus := rget_congr (by rw [hrest]) _
  refine ⟨beginStage1 t, by rw [exec_stage1Start h, if_neg (Bool.eq_false_iff.1 hbad), if_pos hok], ?_, ?_⟩
  · exact began_beginStage1 (by rw [hrest]; rfl) (by rw [hrest]; rfl) ((rfld_congr hstat _ _).trans (rfld_stageOne s))
  · obtain ⟨-, -, -, -, -, -, -, hlog, hslots, hactive⟩ := beginStage1_spec t
    exact (fallBack_fellBack (rsetf s .bootStatus 47 40 1)).of_same rfl rfl hactive hslots hlog

theorem stage1Start_stops {s : State} (h : s.fw.phase = .rom) (hbad : huskOk (slotBlocks s (activeSlot s)) = false)
    (hbad' : (romOk (slotBlocks s (idleSlot s)) && huskOk (slotBlocks s (idleSlot s))) = false) : ∃ u, exec .stage1Start s = .next u ∧
      (u.fw.phase = .stopped ∧ rfld u .bootStatus 63 48 = stCode .huskInvalid) ∧ rfld u .bootStatus 47 40 = 1 := by
  refine ⟨stopBoot (rsetf s .bootStatus 47 40 1) .huskInvalid, ?_, stopBoot_spec _ _, ?_⟩
  · rw [exec_stage1Start h, if_neg (Bool.eq_false_iff.1 hbad), if_neg (Bool.eq_false_iff.1 hbad')]
  · exact (rfld_rsetf_apart _ .bootStatus _ (by decide)).trans (rfld_stageOne s)

/-! Step 3: training (R300, R435). -/

/-- The stack after its training: READY with its temperature, or FAILED; its training has ended (R300). -/
def trainEnd (s : State) (n : N20) (ok : Bool) (t : Byte) : State :=
  let r := if ok then rsetf (rsetf s (.mcState n) 63 60 2) (.mcState n) 7 0 t.toNat else rsetf s (.mcState n) 63 60 4
  putTrained r (tset s.fw.trained false n.val true)

theorem exec_trainingDone {s : State} {n : N20} (hp : s.fw.phase = .stage1) (hm : rfld s (.mcState n) 63 60 = 1) (ok : Bool) (t : Byte) :
    exec (.hbmStackTrainingDone n ok t) s = .next
      (if all20.all fun m => tget (tset s.fw.trained false n.val true) false m.val then setPhase (trainEnd s n ok t) .trained
       else trainEnd s n ok t) := by
  change execHbmStackTrainingDone n ok t s = _
  rw [execHbmStackTrainingDone, if_neg (by rw [hp, hm]; decide)]
  cases ok <;> rfl

theorem trainEnd_ready (s : State) (n : N20) (t : Byte) : rfld (trainEnd s n true t) (.mcState n) 63 60 = 2 ∧
    rfld (trainEnd s n true t) (.mcState n) 7 0 = t.toNat := by
  constructor
  · exact (rfld_rsetf_apart _ (.mcState n) _ (by decide)).trans (rfld_rsetf_self _ _ (by decide) (by decide))
  · exact rfld_rsetf_self _ (.mcState n) (by decide) t.isLt

theorem trainEnd_failed (s : State) (n : N20) (t : Byte) : rfld (trainEnd s n false t) (.mcState n) 63 60 = 4 :=
  rfld_rsetf_self s (.mcState n) (by decide) (by decide)

theorem trainEnd_other (s : State) {n : N20} (t : Byte) {r : Reg} (hr : r ≠ .mcState n) : rget (trainEnd s n true t) r = rget s r := by
  have hset : rget (trainEnd s n true t) r = rget (rsetf (rsetf s (.mcState n) 63 60 2) (.mcState n) 7 0 t.toNat) r := rfl
  rw [hset, rget_rsetf_of_ne _ _ _ _ hr, rget_rsetf_of_ne _ _ _ _ hr]

theorem trainEnd_phase (s : State) (n : N20) (ok : Bool) (t : Byte) : (trainEnd s n ok t).fw.phase = s.fw.phase := by cases ok <;> rfl

/-- Every stack has ended its training once n has exactly where every other one had. -/
theorem trained_all_iff (t : Tab Bool) (n : N20) :
    (all20.all fun m => tget (tset t false n.val true) false m.val) = true ↔ ∀ m : N20, m ≠ n → tget t false m.val = true := by
  rw [List.all_eq_true]
  constructor
  · intro h m hm
    rw [← h m (mem_all20 m), tget_tset_ne _ _ _ _ fun hk => hm (Fin.ext hk)]
  · intro h m _
    by_cases hm : m = n
    · rw [hm, tget_tset_self]
    · rw [tget_tset_ne _ _ _ _ fun hk => hm (Fin.ext hk), h m hm]

/-- HBM_STACK_TRAINING_DONE of a stack in training (R300, R435 step 3). -/
theorem trainingDone {s : State} {n : N20} (t : Byte) (hp : s.fw.phase = .stage1) (hm : rfld s (.mcState n) 63 60 = 1) :
    ∃ u w, exec (.hbmStackTrainingDone n true t) s = .next u ∧ exec (.hbmStackTrainingDone n false t) s = .next w ∧
      rfld u (.mcState n) 63 60 = 2 ∧ rfld u (.mcState n) 7 0 = t.toNat ∧ rfld w (.mcState n) 63 60 = 4 ∧
      (∀ r, r ≠ .mcState n → rget u r = rget s r) ∧ u.fw.phase = w.fw.phase ∧
      (u.fw.phase = .trained ↔ ∀ m, m ≠ n → tget s.fw.trained false m.val = true) := by
  obtain ⟨hready, htemp⟩ := trainEnd_ready s n t
  refine ⟨_, _, exec_trainingDone hp hm true t, exec_trainingDone hp hm false t, ?_⟩
  rw [← trained_all_iff]
  split
  case isTrue hall => exact ⟨hready, htemp, trainEnd_failed s n t, fun r => trainEnd_other s t, rfl, iff_of_true rfl hall⟩
  case isFalse hall =>
    refine ⟨hready, htemp, trainEnd_failed s n t, fun r => trainEnd_other s t, ?_, iff_of_false ?_ hall⟩
    · rw [trainEnd_phase, trainEnd_phase]
    · rw [trainEnd_phase, hp]; decide

end Sys2Proof.Machine

namespace Sys2Proof.Machine

/-! Step 4 of boot: the retirement lists (R298, R305, R306). -/

/-- The registers that the load of the retirement list of stack n may write. -/
def retireOf (n : N20) (r : Reg) : Prop := r = .mcState n ∨ r = .retireStat n ∨ ∃ i, r = .retireList n i

/-- One entry of a retirement list put into its register. -/
def putRetired (n : N20) (s : State) (e : Nat × Nat) : State :=
  match fin? 512 e.1 with | some i => rput s (.retireList n i) (BitVec.ofNat 64 (2 ^ 63 + e.2)) | none => s

/-- A retirement list with its place of each page. -/
def placed (ps : List Nat) : List (Nat × Nat) := List.zip (List.range ps.length) ps

theorem putRetired_writes (n : N20) (s : State) (e : Nat × Nat) : Writes (fun r => ∃ i, r = .retireList n i) s (putRetired n s e) := by
  unfold putRetired
  split
  · exact writes_rput s _ ⟨_, rfl⟩
  · exact .refl _ s

theorem mem_placed {ps : List Nat} {i p : Nat} : (i, p) ∈ placed ps ↔ ps[i]? = some p := by
  rw [placed, List.mem_iff_getElem?]
  constructor
  · rintro ⟨j, hj⟩
    obtain ⟨hr, hp⟩ := List.getElem?_zip_eq_some.1 hj
    obtain ⟨_, hij⟩ := List.getElem?_eq_some_iff.1 hr
    rw [List.getElem_range] at hij
    obtain rfl : j = i := hij
    exact hp
  · intro hp
    obtain ⟨hi, -⟩ := List.getElem?_eq_some_iff.1 hp
    exact ⟨i, List.getElem?_zip_eq_some.2 ⟨by simp [hi], hp⟩⟩

theorem placed_nodup (ps : List Nat) : (placed ps).Nodup :=
  List.Nodup.of_map Prod.fst (by rw [placed, List.map_fst_zip (by simp)]; exact List.nodup_range)

/-- After the walk over a list each of its first 512 entries stands in its register. -/
theorem rget_putRetired (n : N20) (ps : List Nat) (s : State) {i : Fin 512} {p : Nat} (hp : ps[i.val]? = some p) :
    rget ((placed ps).foldl (putRetired n) s) (.retireList n i) = BitVec.ofNat 64 (2 ^ 63 + p) := by
  refine foldl_at (P := fun _ => True) (Q := fun t => rget t (.retireList n i) = BitVec.ofNat 64 (2 ^ 63 + p)) (placed_nodup ps)
    (mem_placed.2 hp) (fun _ _ _ _ _ => trivial) (fun t _ => ?_) (fun t m hm hne ht => ?_) trivial
  · rw [putRetired, fin?_val, rget_rput]
  · have hi : m.1 ≠ i.val := by
      intro he
      have hm' : ps[m.1]? = some m.2 := mem_placed.1 hm
      rw [he, hp, Option.some.injEq] at hm'
      exact hne (Prod.ext_iff.2 ⟨he, hm'.symm⟩)
    unfold putRetired
    split
    case h_1 j hj =>
      rw [rget_rput_of_ne _ _ fun hk => hi ?_, ht]
      rw [fin?_eq_some.1 hj, (Reg.retireList.inj hk).2]
    case h_2 => exact ht

theorem loadRetire_ready {s : State} {n : N20} (hr : rfld s (.mcState n) 63 60 = 2) (hb : tget s.fw.mram.retireBad false n.val = false) :
    loadRetire s n = rsetf ((placed (tget s.fw.mram.retire [] n.val)).foldl (putRetired n) s) (.retireStat n) 41 32
      (min 512 (tget s.fw.mram.retire [] n.val).length) := by
  rw [loadRetire, if_neg (not_not_intro hr), if_neg (by rw [hb]; decide)]
  rfl

theorem loadRetire_bad {s : State} {n : N20} (hr : rfld s (.mcState n) 63 60 = 2) (hb : tget s.fw.mram.retireBad false n.val = true) :
    loadRetire s n = rsetf s (.mcState n) 63 60 4 := by
  rw [loadRetire, if_neg (not_not_intro hr), if_pos hb]

theorem loadRetire_not_ready {s : State} {n : N20} (hr : rfld s (.mcState n) 63 60 ≠ 2) : loadRetire s n = s := by
  rw [loadRetire, if_pos hr]

theorem loadRetire_writes (s : State) (n : N20) : Writes (retireOf n) s (loadRetire s n) := by
  by_cases hr : rfld s (.mcState n) 63 60 = 2
  · cases hb : tget s.fw.mram.retireBad false n.val with
    | true =>
      rw [loadRetire_bad hr hb]
      exact writes_rsetf _ _ _ _ (.inl rfl)
    | false =>
      rw [loadRetire_ready hr hb]
      refine .trans (writes_foldl (fun t e _ => ?_) s) (writes_rsetf _ _ _ _ (.inr (.inl rfl)))
      exact (putRetired_writes n t e).mono fun r hr => .inr (.inr hr)
  · rw [loadRetire_not_ready hr]
    exact .refl _ s

/-- Is a stack out of service: FAILED, or READY with a list that cannot be read (R298, R436)? -/
def deadStack (s : State) (n : N20) : Bool :=
  rfld s (.mcState n) 63 60 == 4 || (rfld s (.mcState n) 63 60 == 2 && tget s.fw.mram.retireBad false n.val)

/-- A stack is FAILED after the load of its list exactly where it is out of service. -/
theorem loadRetire_failed (s : State) (n : N20) : (rfld (loadRetire s n) (.mcState n) 63 60 == 4) = deadStack s n := by
  by_cases hr : rfld s (.mcState n) 63 60 = 2
  · cases hb : tget s.fw.mram.retireBad false n.val with
    | true =>
      rw [loadRetire_bad hr hb, rfld_rsetf_self _ _ (by decide) (by decide), deadStack, hr, hb]; rfl
    | false =>
      have hfold := writes_foldl (l := placed (tget s.fw.mram.retire [] n.val)) (fun t e _ => putRetired_writes n t e) s
      rw [loadRetire_ready hr hb, rfld_rsetf_of_ne _ _ _ _ _ _ (by simp), hfold.rfld (by simp), deadStack, hr, hb]; rfl
  · rw [loadRetire_not_ready hr, deadStack, beq_eq_false_iff_ne.2 hr, Bool.false_and, Bool.or_false]

/-- What the load of a list that can be read leaves in the registers of its READY stack. -/
theorem loadRetire_list {s : State} {n : N20} (hr : rfld s (.mcState n) 63 60 = 2) (hb : tget s.fw.mram.retireBad false n.val = false) :
    rfld (loadRetire s n) (.retireStat n) 41 32 = min 512 (tget s.fw.mram.retire [] n.val).length ∧
    ∀ (i : Fin 512) p, (tget s.fw.mram.retire [] n.val)[i.val]? = some p →
      rget (loadRetire s n) (.retireList n i) = BitVec.ofNat 64 (2 ^ 63 + p) := by
  rw [loadRetire_ready hr hb]
  constructor
  · exact rfld_rsetf_self _ _ (by decide) ((Nat.min_le_left _ _).trans_lt (by decide))
  · intro i p hp
    rw [rget_rsetf_of_ne _ _ _ _ (by simp), rget_putRetired n _ s hp]

/-- Every stack's list loaded. -/
def loadLists (s : State) : State := all20.foldl loadRetire s

theorem loadLists_writes (s : State) : Writes (fun r => ∃ n, retireOf n r) s (loadLists s) :=
  writes_foldl (fun t n _ => (loadRetire_writes t n).mono fun _ hr => ⟨n, hr⟩) s

theorem not_retireOf_mcState {m n : N20} (h : m ≠ n) : ¬retireOf m (.mcState n) := by
  simp [retireOf, h.symm]
theorem not_retireOf_retireStat {m n : N20} (h : m ≠ n) : ¬retireOf m (.retireStat n) := by
  simp [retireOf, h.symm]
theorem not_retireOf_retireList {m n : N20} (i : Fin 512) (h : m ≠ n) : ¬retireOf m (.retireList n i) := by
  simp [retireOf, h.symm]

/-- The lists loaded: which stacks are FAILED then, and what the registers of the others hold (R298, R305, R306). -/
theorem loadLists_spec (s : State) (n : N20) : (rfld (loadLists s) (.mcState n) 63 60 == 4) = deadStack s n ∧
    (deadStack s n = false → rfld s (.mcState n) 63 60 = 2 →
      rfld (loadLists s) (.retireStat n) 41 32 = min 512 (tget s.fw.mram.retire [] n.val).length ∧
      ∀ (i : Fin 512) p, (tget s.fw.mram.retire [] n.val)[i.val]? = some p →
        rget (loadLists s) (.retireList n i) = BitVec.ofNat 64 (2 ^ 63 + p)) := by
  obtain ⟨t, hfw, ht, hu⟩ := foldl_block (fun t m => (loadRetire_writes t m).touches) s n
  have hmc : rfld t (.mcState n) 63 60 = rfld s (.mcState n) 63 60 := rfld_congr (ht _ fun _ => not_retireOf_mcState) _ _
  constructor
  · rw [loadLists, rfld_congr (hu _ fun _ => not_retireOf_mcState), loadRetire_failed, deadStack, deadStack, hmc, hfw]
  · intro hd hr
    have hb : tget t.fw.mram.retireBad false n.val = false := by
      rw [deadStack, hr] at hd
      rw [hfw]; simpa using hd
    obtain ⟨hstat, hlist⟩ := loadRetire_list (hmc.trans hr) hb
    rw [hfw] at hstat hlist
    constructor
    · rw [loadLists, rfld_congr (hu _ fun _ => not_retireOf_retireStat), hstat]
    · intro i p hp
      rw [loadLists, hu _ (fun _ => not_retireOf_retireList i), hlist i p hp]

/-! The partition (R405, R407). -/

/-- A register of R405. -/
def isPart : Reg → Bool
  | .pfBar2 | .sectmap _ | .keyslot _ | .fabfw _ | .rseq _ => true
  | _ => false

/-- The default partition of R407: every section and sequencer with slice 0. -/
def defaultPart (s : State) : State :=
  let s := all20.foldl (fun s n => rput s (.sectmap n) 0x80) (rput s .pfBar2 1)
  all4.foldl (fun s q => rput s (.rseq q) 0x80) (rput (rput s (.keyslot 0) 0x80) (.fabfw 0) 0x0000FFFF000000FF)

theorem loadPartition_none {s : State} (h : s.fw.mram.part = none) : loadPartition s = defaultPart s := by
  rw [loadPartition, h]; rfl

theorem loadPartition_writes (s : State) : Writes (fun r => isPart r = true) s (loadPartition s) := by
  have hput (t : State) (r : Reg) (v : W64) (hr : isPart r = true) : Writes (fun r => isPart r = true) t (rput t r v) := writes_rput t v hr
  unfold loadPartition
  dsimp only
  split
  · refine .trans (.trans (hput s .pfBar2 _ rfl) (writes_foldl (fun t n _ => ?_) _)) (writes_foldl (fun t q _ => hput t (.rseq q) _ rfl) _)
    exact ((hput t (.sectmap n) _ rfl).trans (hput _ (.keyslot n) _ rfl)).trans (hput _ (.fabfw n) _ rfl)
  · refine .trans (.trans (.trans ?_ (hput _ (.keyslot 0) _ rfl)) (hput _ (.fabfw 0) _ rfl))
      (writes_foldl (fun t q _ => hput t (.rseq q) _ rfl) _)
    exact .trans (hput s .pfBar2 _ rfl) (writes_foldl (fun t n _ => hput t (.sectmap n) _ rfl) _)

/-- A walk that puts one value into a column of registers. -/
theorem rget_foldl_rput {ι : Type} {l : List ι} (hl : l.Nodup) {mk : ι → Reg} (hmk : Function.Injective mk) (v : W64) {n : ι} (hn : n ∈ l) (s : State) :
    rget (l.foldl (fun s m => rput s (mk m) v) s) (mk n) = v :=
  foldl_at (P := fun _ => True) (Q := fun t => rget t (mk n) = v) hl hn (fun _ _ _ _ _ => trivial) (fun t _ => rget_rput t _ v)
    (fun t _ _ hne ht => (rget_rput_of_ne t v fun hk => hne (hmk hk).symm).trans ht) trivial

theorem rget_foldl_rput_other {ι : Type} (l : List ι) {mk : ι → Reg} (v : W64) {r : Reg} (hr : ∀ m, r ≠ mk m) (s : State) :
    rget (l.foldl (fun s m => rput s (mk m) v) s) r = rget s r :=
  (writes_foldl (P := fun q => ∃ m, q = mk m) (fun t m _ => writes_rput t v ⟨m, rfl⟩) s).others r fun ⟨m, hm⟩ => hr m hm

theorem defaultPart_spec (s : State) : rget (defaultPart s) .pfBar2 = 1 ∧ (∀ n, rget (defaultPart s) (.sectmap n) = 0x80) ∧
    rget (defaultPart s) (.keyslot 0) = 0x80 ∧ (∀ k, k ≠ 0 → rget (defaultPart s) (.keyslot k) = rget s (.keyslot k)) ∧
    rget (defaultPart s) (.fabfw 0) = 0x0000FFFF000000FF ∧ ∀ q, rget (defaultPart s) (.rseq q) = 0x80 := by
  unfold defaultPart
  dsimp only
  refine ⟨?_, fun n => ?_, ?_, fun k hk => ?_, ?_, fun q => ?_⟩
  · rw [rget_foldl_rput_other all4 _ (by simp), rget_rput_of_ne _ _ (by simp), rget_rput_of_ne _ _ (by simp),
      rget_foldl_rput_other all20 _ (by simp), rget_rput]
  · rw [rget_foldl_rput_other all4 _ (by simp), rget_rput_of_ne _ _ (by simp), rget_rput_of_ne _ _ (by simp),
      rget_foldl_rput all20_nodup (fun _ _ => Reg.sectmap.inj) _ (mem_all20 n)]
  · rw [rget_foldl_rput_other all4 _ (by simp), rget_rput_of_ne _ _ (by simp), rget_rput]
  · rw [rget_foldl_rput_other all4 _ (by simp), rget_rput_of_ne _ _ (by simp), rget_rput_of_ne _ _ (by simp [hk]),
      rget_foldl_rput_other all20 _ (by simp), rget_rput_of_ne _ _ (by simp)]
  · rw [rget_foldl_rput_other all4 _ (by simp), rget_rput]
  · exact rget_foldl_rput (List.nodup_finRange 4) (fun _ _ => Reg.rseq.inj) _ (List.mem_finRange q) _

/-! Sections out of service and their key slots (R436). -/

theorem dropSect_touches (s : State) (n : N20) : Touches (fun r => r = .sectmap n) s (dropSect s n) := by
  unfold dropSect
  split
  · exact ⟨fun _ _ => rfl, rfl⟩
  · have hlog := logged_logEv (rsetf s (.sectmap n) 7 7 0) ntStackFailed clsNone 0xFF 3 0xFF n.val 0
    exact ⟨fun r hr => (hlog.rget r).trans (rget_rsetf_of_ne s _ _ _ hr), hlog.fw⟩

/-- Every section whose stack is FAILED taken out of service. -/
def dropSects (s : State) : State := all20.foldl dropSect s

theorem touches_foldl {P : Reg → Prop} {α : Type} {step : State → α → State} {l : List α} (h : ∀ t, ∀ x ∈ l, Touches P t (step t x)) (s : State) :
    Touches P s (l.foldl step s) :=
  List.foldlRecOn (motive := Touches P s) l step ⟨fun _ _ => rfl, rfl⟩ fun t ht x hx =>
    ⟨fun r hr => ((h t x hx).others r hr).trans (ht.others r hr), (h t x hx).fw.trans ht.fw⟩

theorem Touches.mono {P Q : Reg → Prop} {s u : State} (h : Touches P s u) (hPQ : ∀ r, P r → Q r) : Touches Q s u :=
  ⟨fun r hr => h.others r fun hp => hr (hPQ r hp), h.fw⟩

theorem dropSects_touches (s : State) : Touches (fun r => ∃ n, r = .sectmap n) s (dropSects s) :=
  touches_foldl (fun t n _ => (dropSect_touches t n).mono fun _ hr => ⟨n, hr⟩) s

theorem rget_dropSects (s : State) (n : N20) : rget (dropSects s) (.sectmap n) =
    if rfld s (.mcState n) 63 60 = 4 then putBits (rget s (.sectmap n)) 7 7 0 else rget s (.sectmap n) := by
  obtain ⟨t, -, ht, hu⟩ := foldl_block dropSect_touches s n
  have hmc : rfld t (.mcState n) 63 60 = rfld s (.mcState n) 63 60 := rfld_congr (ht _ (by simp)) _ _
  have hsect (m : N20) (hm : m ≠ n) : ¬(Reg.sectmap n = .sectmap m) := fun hk => hm (Reg.sectmap.inj hk).symm
  rw [dropSects, hu _ hsect, dropSect, hmc, ← ht _ hsect]
  by_cases h4 : rfld s (.mcState n) 63 60 = 4
  · rw [if_neg (not_not_intro h4), if_pos h4, (logged_logEv ..).rget, rget_rsetf_self]
  · rw [if_pos h4, if_neg h4]

/-- One event for each section out of service, in order (R436). -/
theorem dropSects_log (s : State) : LogsExactly s (dropSects s)
    ((all20.filter fun n => rfld s (.mcState n) 63 60 == 4).map fun _ => ntStackFailed) := by
  unfold dropSects
  generalize all20 = l
  induction l generalizing s with
  | nil => exact (Logged.refl s).events
  | cons n l ih =>
    have hmc (m : N20) : rfld (dropSect s n) (.mcState m) 63 60 = rfld s (.mcState m) 63 60 :=
      rfld_congr ((dropSect_touches s n).others _ (by simp)) _ _
    have hrest := ih (dropSect s n)
    simp only [hmc] at hrest
    rw [List.foldl_cons, List.filter_cons]
    by_cases h4 : rfld s (.mcState n) 63 60 = 4
    · have hone : LogsExactly s (dropSect s n) [ntStackFailed] := by
        rw [dropSect, if_neg (not_not_intro h4)]
        exact (logged_logEv (rsetf s (.sectmap n) 7 7 0) ntStackFailed clsNone 0xFF 3 0xFF n.val 0).events
      rw [if_pos (beq_iff_eq.2 h4)]
      exact hone.trans hrest
    · have hnone : dropSect s n = s := by rw [dropSect, if_pos h4]
      rw [if_neg (by simpa using h4)]
      rwa [hnone] at hrest ⊢

theorem dropSlots_writes (had : List N20) (s : State) : Writes (fun r => ∃ k, r = .keyslot k) s (dropSlots had s) := by
  refine writes_foldl (fun t k _ => ?_) s
  split
  · split
    · exact writes_rsetf _ _ _ _ ⟨k, rfl⟩
    · exact .refl _ t
  · exact .refl _ t

/-! Step 5: the protection lock (R406). -/

theorem sectSlice_congr {s u : State} {n : N20} (h : rget u (.sectmap n) = rget s (.sectmap n)) : sectSlice u n = sectSlice s n := by
  rw [sectSlice, rbit, rfld, h]; rfl

theorem sliceDefined_congr {s u : State} (h : ∀ n, rget u (.sectmap n) = rget s (.sectmap n)) (x : N20) : sliceDefined u x = sliceDefined s x := by
  rw [sliceDefined, sliceDefined, sliceSects, sliceSects]
  simp only [fun n => sectSlice_congr (h n)]

/-- The three checks of R406 read nothing but the registers of R405. -/
theorem lockChecks_congr {s u : State} (h : ∀ r, isPart r = true → rget u r = rget s r) :
    lockKeys u = lockKeys s ∧ lockFw u = lockFw s ∧ lockEnc u = lockEnc s := by
  have hdef := sliceDefined_congr (s := s) (u := u) fun n => h _ rfl
  have hsect (n : N20) := rfld_congr (h (.sectmap n) rfl)
  have hkey (k : N20) := rfld_congr (h (.keyslot k) rfl)
  have hvalid (k : N20) : rbit u (.keyslot k) 7 = rbit s (.keyslot k) 7 := congrArg (bit · 7) (h _ rfl)
  have hfw (n : N20) := rfld_congr (h (.fabfw n) rfl)
  have hseq (q : Fin 4) := rfld_congr (h (.rseq q) rfl)
  refine ⟨?_, ?_, ?_⟩
  · simp only [lockKeys, hvalid, hkey, hdef]
  · simp only [lockFw, hfw, hdef]
  · simp only [lockEnc, hsect, hkey, hseq]

/-- Do the three checks of R406 pass? -/
def lockPasses (s : State) : Bool := lockKeys s && lockFw s && lockEnc s

theorem lockProt_pass {s : State} (h : lockPasses s = true) :
    lockProt s = setPhase (rsetf (rsetf s .prot 63 48 0) .prot 0 0 1) .locked := by
  rw [lockPasses] at h
  rw [lockProt, if_pos h]

theorem lockProt_fail {s : State} (h : lockPasses s = false) : ∃ t, Logged (rsetf s .prot 63 48 (stCode .inconsistent)) t [stCode .inconsistent] ∧
    lockProt s = stopBoot t .inconsistent := by
  rw [lockProt, if_neg (by rw [← lockPasses, h]; decide)]
  exact ⟨_, logged_logEv .., rfl⟩

/-- The lock writes no register but SECU_PROT and HUB_BOOT_STATUS. -/
theorem rget_lockProt (s : State) {r : Reg} (hp : r ≠ .prot) (hb : r ≠ .bootStatus) : rget (lockProt s) r = rget s r := by
  cases h : lockPasses s with
  | true =>
    rw [lockProt_pass h]
    exact (rget_rsetf_of_ne _ _ _ _ hp).trans (rget_rsetf_of_ne _ _ _ _ hp)
  | false =>
    obtain ⟨t, ht, he⟩ := lockProt_fail h
    have hstop : rget (stopBoot t .inconsistent) r = rget (rsetf t .bootStatus 63 48 (stCode .inconsistent)) r := rfl
    rw [he, hstop, rget_rsetf_of_ne _ _ _ _ hb, ht.rget, rget_rsetf_of_ne _ _ _ _ hp]

theorem lockPasses_lockProt (s : State) : lockPasses (lockProt s) = lockPasses s := by
  have hpart : ∀ r, isPart r = true → rget (lockProt s) r = rget s r := fun r hr =>
    rget_lockProt s (fun hk => by rw [hk] at hr; cases hr) (fun hk => by rw [hk] at hr; cases hr)
  obtain ⟨hkeys, hfw, henc⟩ := lockChecks_congr hpart
  rw [lockPasses, lockPasses, hkeys, hfw, henc]

/-- A write of 1 to PROT_LOCK locks where the checks pass (R406). -/
theorem lockProt_locks {s : State} (h : lockPasses s = true) : (lockProt s).fw.phase = .locked ∧ rfld (lockProt s) .prot 0 0 = 1 ∧
    rfld (lockProt s) .prot 63 48 = 0 ∧ (lockProt s).log = s.log := by
  rw [lockProt_pass h]
  refine ⟨rfl, rfld_rsetf_self (rsetf s .prot 63 48 0) .prot (by decide) (by decide), ?_, rfl⟩
  exact (rfld_rsetf_apart (rsetf s .prot 63 48 0) .prot 1 (by decide)).trans (rfld_rsetf_self s .prot (by decide) (by decide))

/-- It stops boot with ST_INCONSISTENT where they do not (R406). -/
theorem lockProt_stops {s : State} (h : lockPasses s = false) : (lockProt s).fw.phase = .stopped ∧
    rfld (lockProt s) .bootStatus 63 48 = stCode .inconsistent ∧ rfld (lockProt s) .prot 0 0 = rfld s .prot 0 0 ∧
    rfld (lockProt s) .prot 63 48 = stCode .inconsistent := by
  obtain ⟨t, ht, he⟩ := lockProt_fail h
  obtain ⟨hphase, hstat⟩ := stopBoot_spec t .inconsistent
  have hprot : rget (stopBoot t .inconsistent) .prot = rget (rsetf s .prot 63 48 (stCode .inconsistent)) .prot :=
    (rget_rsetf_of_ne t 63 48 (stCode .inconsistent) (r := .bootStatus) (by simp)).trans (ht.rget _)
  rw [he]
  refine ⟨hphase, hstat, ?_, ?_⟩
  · rw [rfld_congr hprot, rfld_rsetf_apart _ _ _ (by decide)]
  · rw [rfld_congr hprot, rfld_rsetf_self _ _ (by decide) (stCode_lt _)]

end Sys2Proof.Machine

namespace Sys2Proof.Machine

/-! Steps 4 and 5 of boot together (R298, R406, R407, R435, R436). -/

/-- The lists and the partition loaded. -/
def loadAll (s : State) : State := loadPartition (loadLists s)

/-- The device as the checks of the lock find it. -/
def beforeLock (s : State) : State := dropSlots (all20.filter (sliceDefined (loadAll s))) (dropSects (loadAll s))

theorem bootLock_eq (s : State) : bootLock s = lockProt (beforeLock s) := by
  simp only [bootLock, beforeLock, loadAll, loadLists, dropSects]

/-- A register that none of the loads writes. -/
theorem rget_beforeLock (s : State) {r : Reg} (hl : ∀ n, ¬retireOf n r) (hp : isPart r = false) : rget (beforeLock s) r = rget s r := by
  rw [beforeLock, (dropSlots_writes _ _).others r, (dropSects_touches _).others r, loadAll, (loadPartition_writes _).others r (by simp [hp]),
    (loadLists_writes s).others r fun ⟨n, hn⟩ => hl n hn]
  · rintro ⟨n, rfl⟩; cases hp
  · rintro ⟨n, rfl⟩; cases hp

/-- A register that the load of the lists alone may write. -/
theorem rget_beforeLock_of_loadLists (s : State) {r : Reg} (hp : isPart r = false) : rget (beforeLock s) r = rget (loadLists s) r := by
  rw [beforeLock, (dropSlots_writes _ _).others r, (dropSects_touches _).others r, loadAll, (loadPartition_writes _).others r (by simp [hp])]
  · rintro ⟨n, rfl⟩; cases hp
  · rintro ⟨n, rfl⟩; cases hp

/-- A register that only the partition's load writes, key slots apart. -/
theorem rget_beforeLock_of_loadAll (s : State) {r : Reg} (hk : ∀ k, r ≠ .keyslot k) (hs : ∀ n, r ≠ .sectmap n) :
    rget (beforeLock s) r = rget (loadAll s) r := by
  rw [beforeLock, (dropSlots_writes _ _).others r fun ⟨k, h⟩ => hk k h, (dropSects_touches _).others r fun ⟨n, h⟩ => hs n h]

theorem loadAll_failed (s : State) (n : N20) : (rfld (loadAll s) (.mcState n) 63 60 == 4) = deadStack s n := by
  rw [loadAll, (loadPartition_writes _).rfld (by simp [isPart]), (loadLists_spec s n).1]

theorem beforeLock_log (s : State) : LogsExactly s (beforeLock s) ((all20.filter (deadStack s)).map fun _ => ntStackFailed) := by
  have hlog : (loadAll s).log = s.log := by rw [loadAll, (loadPartition_writes _).log, (loadLists_writes s).log]
  obtain ⟨evs, hevs, hc⟩ := dropSects_log (loadAll s)
  simp only [loadAll_failed] at hc
  exact ⟨evs, by rw [beforeLock, (dropSlots_writes _ _).log, hevs, hlog], hc⟩

section NoPartition
variable {s : State} (hpart : s.fw.mram.part = none)
include hpart

theorem loadAll_default : loadAll s = defaultPart (loadLists s) :=
  loadPartition_none (by rw [(loadLists_writes s).fw, hpart])

theorem rget_dropSects_default (n : N20) : rget (dropSects (loadAll s)) (.sectmap n) = if deadStack s n then 0 else 0x80 := by
  obtain ⟨-, hsect, -⟩ := defaultPart_spec (loadLists s)
  rw [rget_dropSects, loadAll_default hpart, hsect n, ← loadAll_default hpart,
    ← loadAll_failed s n]
  by_cases h4 : rfld (loadAll s) (.mcState n) 63 60 = 4
  · rw [if_pos h4, if_pos (beq_iff_eq.2 h4)]; decide
  · rw [if_neg h4, if_neg (by simpa using h4)]

theorem rget_beforeLock_sectmap (n : N20) : rget (beforeLock s) (.sectmap n) = if deadStack s n then 0 else 0x80 := by
  rw [beforeLock, (dropSlots_writes _ _).others _ (by simp), rget_dropSects_default hpart]

end NoPartition

/-- The partition of a first boot: the sections in service with slice 0, whose key slot alone is VALID (R407, R436). -/
structure FirstMap (dead : N20 → Bool) (u : State) : Prop where
  sect : ∀ n, rget u (.sectmap n) = if dead n then 0 else 0x80
  key : ∀ k, rget u (.keyslot k) = if k = 0 then 0x80 else 0
  fw : rget u (.fabfw 0) = 0x0000FFFF000000FF
  seq : ∀ q, rget u (.rseq q) = 0x80

section FirstMap
variable {dead : N20 → Bool} {u : State} (h : FirstMap dead u)
include h

theorem FirstMap.sectSlice (n : N20) : sectSlice u n = if dead n then none else some 0 := by
  rw [Machine.sectSlice, rbit, rfld, h.sect n]
  cases dead n <;> rfl

theorem FirstMap.valid (k : N20) : rbit u (.keyslot k) 7 = decide (k = 0) := by
  rw [rbit, h.key k]
  split
  case isTrue hk => rw [decide_eq_true hk]; decide
  case isFalse hk => rw [decide_eq_false hk]; decide

theorem FirstMap.owner (k : N20) : rfld u (.keyslot k) 4 0 = 0 := by
  rw [rfld, h.key k]
  split <;> decide

/-- Slice 0 alone is defined, where one section is in service. -/
theorem FirstMap.sliceDefined (hlive : ∃ n, dead n = false) (x : N20) : sliceDefined u x = decide (x = 0) := by
  rw [Machine.sliceDefined, sliceSects, Bool.eq_iff_iff, Bool.not_eq_true', List.isEmpty_eq_false_iff_exists_mem, decide_eq_true_iff]
  simp only [List.mem_filter, mem_all20, true_and, h.sectSlice, beq_iff_eq]
  constructor
  · rintro ⟨n, hn⟩
    split at hn
    · cases hn
    · exact (Option.some.inj hn).symm
  · rintro rfl
    obtain ⟨n, hn⟩ := hlive
    exact ⟨n, by rw [hn]; rfl⟩

theorem FirstMap.lockKeys (hlive : ∃ n, dead n = false) : lockKeys u = true := by
  simp only [Machine.lockKeys, h.sliceDefined hlive, h.valid, h.owner]
  decide

theorem FirstMap.lockFw (hlive : ∃ n, dead n = false) : lockFw u = true := by
  rw [Machine.lockFw, List.all_eq_true]
  intro x _
  rw [h.sliceDefined hlive]
  by_cases hx : x = 0
  · rw [hx, rfld, rfld, rfld, h.fw]; decide
  · rw [decide_eq_false hx]; rfl

theorem FirstMap.lockEnc : lockEnc u = true := by
  have hsect (n : N20) : rfld u (.sectmap n) 4 0 = 0 := by
    rw [rfld, h.sect n]
    split <;> decide
  have hseq (q : Fin 4) : rfld u (.rseq q) 4 0 = 0 := by
    rw [rfld, h.seq q]; decide
  simp only [Machine.lockEnc, hsect, hseq, h.owner]
  decide

theorem FirstMap.lockPasses (hlive : ∃ n, dead n = false) : lockPasses u = true := by
  rw [Machine.lockPasses, h.lockKeys hlive, h.lockFw hlive, h.lockEnc]; rfl

/-- No key slot loses VALID: slice 0 has a section. -/
theorem FirstMap.dropSlots (hlive : ∃ n, dead n = false) (had : List N20) : dropSlots had u = u := by
  refine still_foldl fun k _ => ?_
  have hfin : fin? 20 (rfld u (.keyslot k) 4 0) = some 0 := by rw [h.owner]; rfl
  rw [hfin, h.valid]
  dsimp only
  rw [h.sliceDefined hlive, decide_eq_true rfl, Bool.not_true, Bool.and_false, if_neg Bool.false_ne_true]

end FirstMap

/-- The first boot leaves its map for the lock's checks (R407, R436). -/
theorem dropSects_firstMap {s : State} (hpart : s.fw.mram.part = none) (hkeys : ∀ k, k ≠ 0 → rget s (.keyslot k) = 0) :
    FirstMap (deadStack s) (dropSects (loadAll s)) := by
  obtain ⟨-, hsect, hkey0, hkey, hfw, hseq⟩ := defaultPart_spec (loadLists s)
  have hother {r : Reg} (hr : ∀ n, r ≠ .sectmap n) : rget (dropSects (loadAll s)) r = rget (defaultPart (loadLists s)) r := by
    rw [(dropSects_touches _).others r fun ⟨n, hn⟩ => hr n hn, loadAll_default hpart]
  refine ⟨rget_dropSects_default hpart, fun k => ?_, ?_, fun q => ?_⟩
  · rw [hother (by simp)]
    split
    case isTrue hk => rw [hk, hkey0]
    case isFalse hk => rw [hkey k hk, (loadLists_writes s).others _ (by simp [retireOf]), hkeys k hk]
  · rw [hother (by simp), hfw]
  · rw [hother (by simp), hseq]

theorem beforeLock_firstMap {s : State} (hpart : s.fw.mram.part = none) (hkeys : ∀ k, k ≠ 0 → rget s (.keyslot k) = 0)
    (hlive : ∃ n, deadStack s n = false) : FirstMap (deadStack s) (beforeLock s) := by
  have hmap := dropSects_firstMap hpart hkeys
  rw [beforeLock, hmap.dropSlots hlive]
  exact hmap

/-- BOOT_PARTITION_LOCK of a device without a partition in MRAM (R298, R406, R407, R435, R436). -/
theorem bootPartitionLock_firstBoot {s : State} (hp : s.fw.phase = .trained) (hpart : s.fw.mram.part = none)
    (hkeys : ∀ k, k ≠ 0 → rget s (.keyslot k) = 0) (hlive : ∃ n, deadStack s n = false) :
    ∃ u, exec .bootPartitionLock s = .next u ∧ u.fw.phase = .locked ∧ rfld u .prot 0 0 = 1 ∧ rfld u .prot 63 48 = 0 ∧
      (∀ n, rget u (.sectmap n) = if deadStack s n then 0 else 0x80) ∧ rget u (.keyslot 0) = 0x80 ∧ rget u .pfBar2 = 1 ∧
      (∀ q, rget u (.rseq q) = 0x80) ∧ LogsExactly s u ((all20.filter (deadStack s)).map fun _ => ntStackFailed) ∧
      (∀ n, deadStack s n = false → rfld s (.mcState n) 63 60 = 2 →
        rfld u (.retireStat n) 41 32 = min 512 (tget s.fw.mram.retire [] n.val).length ∧
        ∀ (i : Fin 512) p, (tget s.fw.mram.retire [] n.val)[i.val]? = some p → rget u (.retireList n i) = BitVec.ofNat 64 (2 ^ 63 + p)) := by
  have hmap := beforeLock_firstMap hpart hkeys hlive
  obtain ⟨hphase, hlock, hstat, hlog⟩ := lockProt_locks (hmap.lockPasses hlive)
  obtain ⟨hbar, -⟩ := defaultPart_spec (loadLists s)
  have hlist (r : Reg) (hr : r ≠ .prot) (hb : r ≠ .bootStatus) (hr' : isPart r = false) :
      rget (lockProt (beforeLock s)) r = rget (loadLists s) r := by
    rw [rget_lockProt _ hr hb, rget_beforeLock_of_loadLists s hr']
  refine ⟨lockProt (beforeLock s), ?_, hphase, hlock, hstat, fun n => ?_, ?_, ?_, fun q => ?_, ?_, fun n hd hr => ?_⟩
  · rw [← bootLock_eq]
    change execBootPartitionLock s = _
    rw [execBootPartitionLock, if_neg (not_not_intro hp)]
  · rw [rget_lockProt _ (by simp) (by simp), hmap.sect]
  · rw [rget_lockProt _ (by simp) (by simp), hmap.key]; rfl
  · rw [rget_lockProt _ (by simp) (by simp), rget_beforeLock_of_loadAll s (by simp) (by simp), loadAll_default hpart, hbar]
  · rw [rget_lockProt _ (by simp) (by simp), hmap.seq]
  · obtain ⟨evs, hevs, hc⟩ := beforeLock_log s
    exact ⟨evs, by rw [hlog, hevs], hc⟩
  · obtain ⟨hcount, hpages⟩ := (loadLists_spec s n).2 hd hr
    refine ⟨?_, fun i p hi => ?_⟩
    · rw [rfld_congr (hlist _ (by simp) (by simp) rfl), hcount]
    · rw [hlist _ (by simp) (by simp) rfl, hpages i p hi]

/-- PROT_LOCK_WRITE of 1 by stage 1: the loads and the lock of BOOT_PARTITION_LOCK, whatever MRAM holds (R406, R429, R435; log 111). -/
theorem protLockWrite_locks {s : State} {v : W64} (hp : s.fw.phase = .trained) (hv : bit v 0 = true) (hopen : rbit s .prot 0 = false) :
    ∃ u, exec (.protLockWrite v) s = .next u ∧ exec .bootPartitionLock s = .next u ∧
      (s.fw.mram.part = none → ∀ n, rget u (.sectmap n) = if rfld u (.mcState n) 63 60 = 4 then 0 else 0x80) ∧
      (if lockKeys u && lockFw u && lockEnc u then u.fw.phase = .locked ∧ rfld u .prot 0 0 = 1 ∧ rfld u .prot 63 48 = 0
        else (u.fw.phase = .stopped ∧ rfld u .bootStatus 63 48 = stCode .inconsistent) ∧ rfld u .prot 0 0 = 0 ∧
          rfld u .prot 63 48 = stCode .inconsistent) := by
  refine ⟨bootLock s, ?_, ?_, fun hpart n => ?_, ?_⟩
  · change execProtLockWrite v s = _
    rw [execProtLockWrite, if_neg (Bool.eq_false_iff.1 hopen), if_pos (by rw [hp, hv]; rfl)]
  · change execBootPartitionLock s = _
    rw [execBootPartitionLock, if_neg (not_not_intro hp)]
  · have hmc : rfld (lockProt (beforeLock s)) (.mcState n) 63 60 = rfld (loadLists s) (.mcState n) 63 60 := by
      rw [rfld_congr (rget_lockProt _ (by simp) (by simp)), rfld_congr (rget_beforeLock_of_loadLists s rfl)]
    rw [bootLock_eq, hmc, rget_lockProt _ (by simp) (by simp), rget_beforeLock_sectmap hpart, ← (loadLists_spec s n).1]
    simp only [beq_iff_eq]
  · have hprot : rfld (beforeLock s) .prot 0 0 = 0 := by
      rw [rfld_congr (rget_beforeLock s (by simp [retireOf]) rfl), rfld, bits_one]
      exact congrArg Bool.toNat hopen
    rw [bootLock_eq, ← lockPasses, lockPasses_lockProt]
    cases hpass : lockPasses (beforeLock s) with
    | true =>
      obtain ⟨hphase, hlock, hstat, -⟩ := lockProt_locks hpass
      exact ⟨hphase, hlock, hstat⟩
    | false =>
      obtain ⟨hphase, hboot, hlock, hstat⟩ := lockProt_stops hpass
      exact ⟨⟨hphase, hboot⟩, hlock.trans hprot, hstat⟩

/-- Once the lock is set a write of it is refused, with one event (R9). -/
theorem protLockWrite_refused {s : State} (v : W64) (h : rbit s .prot 0 = true) :
    ∃ u, exec (.protLockWrite v) s = .next u ∧ LogsExactly s u [ntGeneral] ∧ u = { s with log := u.log } := by
  have hlog := logged_logAccess s 0 (regOff .prot) ntGeneral
  refine ⟨_, ?_, hlog.events, hlog.rest⟩
  change execProtLockWrite v s = _
  rw [execProtLockWrite, if_pos h]

end Sys2Proof.Machine

namespace Sys2Proof.Machine

/-! Steps 6 and 7 of boot: signatures, keys, the archive, READY (R407, R419, R435, R448, R461). -/

/-- What a reply, a signature, or the decision about one leaves of the state that READY speaks of. -/
structure SignsOnly (s u : State) : Prop where
  archNew : u.fw.mram.archNew = s.fw.mram.archNew
  phase : u.fw.act.phase = s.fw.act.phase
  keys : u.sp.slotKeys = s.sp.slotKeys
  log : u.log = s.log

theorem SignsOnly.trans {s t u : State} (h : SignsOnly s t) (k : SignsOnly t u) : SignsOnly s u :=
  ⟨k.archNew.trans h.archNew, k.phase.trans h.phase, k.keys.trans h.keys, k.log.trans h.log⟩

theorem writeReply_rest (s : State) (x : Reply) : (writeReply s x).fw = s.fw ∧ (writeReply s x).sp = s.sp ∧ (writeReply s x).log = s.log := by
  unfold writeReply
  dsimp only
  split <;> split <;> exact ⟨rfl, rfl, rfl⟩

theorem flushList_rest (l keep : List Reply) (s : State) :
    (flushList l keep s).fw = s.fw ∧ (flushList l keep s).sp = s.sp ∧ (flushList l keep s).log = s.log := by
  induction l generalizing keep s with
  | nil => exact ⟨rfl, rfl, rfl⟩
  | cons x l ih =>
    rw [flushList]
    split
    · obtain ⟨hfw, hsp, hlog⟩ := writeReply_rest s x
      obtain ⟨hfw', hsp', hlog'⟩ := ih keep (writeReply s x)
      exact ⟨hfw'.trans hfw, hsp'.trans hsp, hlog'.trans hlog⟩
    · exact ih _ s

theorem holdSign_signsOnly (s : State) (p : PendSign) (seq ring : Nat) : SignsOnly s (holdSign s p seq ring) := by
  let t : State := { s with sp := { s.sp with pend := s.sp.pend ++ [p] } }
  obtain ⟨l, k, hpost⟩ : ∃ l w, holdSign s p seq ring = flushList l [] { t with mp := w } := ⟨_, _, rfl⟩
  obtain ⟨hfw, hsp, hlog⟩ := flushList_rest l [] { t with mp := k }
  rw [hpost]
  exact ⟨by rw [hfw], by rw [hfw], by rw [hsp], by rw [hlog]⟩

theorem signIdentity_signsOnly (s : State) (msg : List Byte) : SignsOnly s (signIdentity s msg).1 := by
  unfold signIdentity
  split <;> exact ⟨rfl, rfl, rfl, rfl⟩

theorem signRecord'_signsOnly (s : State) (rec_ : List Byte) : SignsOnly s (signRecord' s rec_).1 := by
  have h := signIdentity_signsOnly s rec_
  unfold signRecord'
  dsimp only
  split
  · exact h
  · exact h.trans ⟨rfl, rfl, rfl, rfl⟩

theorem signBoot_signsOnly (s : State) : SignsOnly s (signBoot s) := by
  have h := signRecord'_signsOnly s (actRecord s (activeSlot s) s.fw.act.spMan)
  unfold signBoot
  dsimp only
  split <;> exact h.trans ⟨rfl, rfl, rfl, rfl⟩

/-- The phase of the boot's activation: the health phase, unless every image has posted HEALTH_OK already (R448). -/
def healthPhase (s : State) : Nat := if s.fw.act.posted = 26 then 0 else 6

/-- The signature of the boot's activation record made, held for confirmation, or refused (R419, R420, R448). -/
def signOrHold (t : State) : State :=
  if !canSign t then { t with sp := { t.sp with refused := true } }
  else if budgetLow t then holdSign t .record noSeq 0
  else signBoot t

theorem signOrHold_signsOnly (t : State) : SignsOnly t (signOrHold t) := by
  unfold signOrHold
  split
  · exact ⟨rfl, rfl, rfl, rfl⟩
  · split
    · exact holdSign_signsOnly t _ _ _
    · exact signBoot_signsOnly t

/-- The boot's own activation, where one is made: its phase, with a signature made, held or refused (R420, R437, R448). -/
theorem bootActivation_spec (s : State) : (bootActivation s).fw.mram.archNew = s.fw.mram.archNew ∧ (bootActivation s).sp.slotKeys = s.sp.slotKeys ∧
    (bootActivation s).log = s.log ∧ (s.fw.act.fell = true → (bootActivation s).fw.act.phase = healthPhase s) := by
  by_cases hm : (recordMatches s && !s.fw.act.fell) = true
  · have hstay : bootActivation s = s := by rw [bootActivation, if_pos hm]
    rw [hstay]
    refine ⟨rfl, rfl, rfl, fun hf => ?_⟩
    rw [hf] at hm
    simp at hm
  · let t := putAct (bumpAct s) { (bumpAct s).fw.act with phase := healthPhase s }
    have hsign : SignsOnly t (bootActivation s) := by
      have hboot : bootActivation s = signOrHold t := by rw [bootActivation, if_neg hm]; rfl
      rw [hboot]
      exact signOrHold_signsOnly t
    obtain ⟨harch, hphase, hkeys, hlog⟩ := hsign
    exact ⟨harch.trans rfl, hkeys.trans rfl, hlog.trans rfl, fun _ => hphase.trans rfl⟩

/-! The archive's new records (R461). -/

theorem logRing_congr {s u : State} (h : u.log = s.log) (n : Nat) : logRing u n = logRing s n := by
  rw [logRing, h]; rfl

theorem logRing_appendRec (s : State) (n : Nat) (e : Ev) (rep : Nat) (arch : Bool) :
    (logRing (appendRec s n e rep arch) n).map LogRec.ev = (logRing s n).map LogRec.ev ++ [e] := by
  have hring : logRing (appendRec s n e rep arch) n = logRing s n ++ [⟨s.log.nextSeq, e, rep, arch, false⟩] := tget_tset_self _ _ _ _
  rw [hring, List.map_append]; rfl

theorem logRing_foldl_appendRec (l : List LogRec) (s : State) :
    (logRing (l.foldl (fun s r => appendRec s 20 r.ev r.rep true) s) 20).map LogRec.ev = (logRing s 20).map LogRec.ev ++ l.map LogRec.ev := by
  induction l generalizing s with
  | nil => simp only [List.foldl_nil, List.map_nil, List.append_nil]
  | cons r l ih => rw [List.foldl_cons, ih, logRing_appendRec, List.map_cons, List.append_assoc, List.singleton_append]

theorem foldl_appendRec_rest (l : List LogRec) (s : State) :
    l.foldl (fun s r => appendRec s 20 r.ev r.rep true) s = { s with log := (l.foldl (fun s r => appendRec s 20 r.ev r.rep true) s).log } := by
  induction l generalizing s with
  | nil => rfl
  | cons r l ih =>
    rw [List.foldl_cons, ih]
    rfl

/-- The archive's new records go ahead in the device ring, and none of them is new any more (R461). -/
theorem copyArchive_spec (s : State) : (copyArchive s).fw = { s.fw with mram := { s.fw.mram with archNew := 0 } } ∧ (copyArchive s).sp = s.sp ∧
    (logRing (copyArchive s) 20).map LogRec.ev =
      (logRing s 20).map LogRec.ev ++ (s.fw.mram.archive.drop (s.fw.mram.archive.length - s.fw.mram.archNew)).map LogRec.ev := by
  let l := s.fw.mram.archive.drop (s.fw.mram.archive.length - s.fw.mram.archNew)
  let t := l.foldl (fun s r => appendRec s 20 r.ev r.rep true) s
  have hcopy : copyArchive s = putMram t { t.fw.mram with archNew := 0 } := rfl
  have hrest : t = { s with log := t.log } := foldl_appendRec_rest l s
  have hfw : t.fw = s.fw := by rw [hrest]
  have hsp : t.sp = s.sp := by rw [hrest]
  refine ⟨by rw [hcopy, putMram_fw, hfw], by rw [hcopy, putMram_sp, hsp], ?_⟩
  have hring : logRing (copyArchive s) 20 = logRing t 20 := by rw [hcopy]; rfl
  rw [hring]
  exact logRing_foldl_appendRec l s

/-! The keys of the slots (R407). -/

/-- A walk over all twenty, told by how many it has passed. -/
theorem foldl_all20_count {σ : Type} {step : σ → N20 → σ} {P : Nat → σ → Prop} (hstep : ∀ t (k : N20), P k.val t → P (k.val + 1) (step t k))
    {s : σ} (h : P 0 s) : P 20 (all20.foldl step s) := by
  have hpre : ∀ n, n ≤ 20 → P n ((all20.take n).foldl step s) := by
    intro n hn
    induction n with
    | zero => exact h
    | succ n ih =>
      have hlen : n < all20.length := by rw [all20, List.length_finRange]; omega
      have hget : (all20[n]).val = n := by simp [all20]
      rw [List.take_succ_eq_append_getElem hlen, List.foldl_append, List.foldl_cons, List.foldl_nil]
      have hn' := hstep _ all20[n] (hget.symm ▸ ih (by omega))
      rwa [hget] at hn'
  exact hpre 20 le_rfl

/-- One key drawn for a slot. -/
def drawSlot (s : State) (k : N20) : State :=
  { (drawKey s).1 with sp := { (drawKey s).1.sp with slotKeys := tset (drawKey s).1.sp.slotKeys [] k.val (drawKey s).2 } }

theorem drawSlot_eq (s : State) (k : N20) : drawSlot s k = { s with sp := { s.sp with
    keyDraws := s.sp.keyDraws + 1, slotKeys := tset s.sp.slotKeys [] k.val (Config.drbgKey s.sp.keyDraws) } } := by
  simp only [drawSlot, drawKey]

theorem drawSlot_slotKeys (s : State) (k : N20) :
    (drawSlot s k).sp.slotKeys = tset s.sp.slotKeys [] k.val (Config.drbgKey s.sp.keyDraws) := by rw [drawSlot_eq]
theorem drawSlot_keyDraws (s : State) (k : N20) : (drawSlot s k).sp.keyDraws = s.sp.keyDraws + 1 := by rw [drawSlot_eq]
theorem drawSlot_rest (s : State) (k : N20) : drawSlot s k = { s with sp := (drawSlot s k).sp } := by rw [drawSlot_eq]

theorem drawSlots_eq (s : State) : drawSlots s = all20.foldl drawSlot s := rfl

/-- A new key in each slot, in their order, and nothing else but the count of keys drawn (R407). -/
theorem drawSlots_spec (s : State) : (∀ k : N20, tget (drawSlots s).sp.slotKeys [] k.val = Config.drbgKey (s.sp.keyDraws + k.val)) ∧
    drawSlots s = { s with sp := (drawSlots s).sp } := by
  have h := foldl_all20_count (step := drawSlot) (s := s)
    (P := fun n t => (∀ k : N20, k.val < n → tget t.sp.slotKeys [] k.val = Config.drbgKey (s.sp.keyDraws + k.val)) ∧
      t.sp.keyDraws = s.sp.keyDraws + n ∧ t = { s with sp := t.sp }) ?_ ⟨by simp, rfl, rfl⟩
  · rw [← drawSlots_eq] at h
    obtain ⟨hkeys, -, hrest⟩ := h
    exact ⟨fun k => hkeys k k.isLt, hrest⟩
  · rintro t k ⟨hkeys, hdraws, hrest⟩
    refine ⟨fun j hj => ?_, ?_, ?_⟩
    · rw [drawSlot_slotKeys, hdraws]
      by_cases hk : j.val = k.val
      · rw [hk, tget_tset_self]
      · rw [tget_tset_ne _ _ _ _ hk, hkeys j (by omega)]
    · rw [drawSlot_keyDraws, hdraws, Nat.add_assoc]
    · rw [drawSlot_rest, hrest]

/-- The signing state at boot, confirmed or not: the archive, the activation, the slots' keys and the log stay (R419). -/
theorem confirmState_rest (s : State) : (confirmState s).fw.mram.archive = s.fw.mram.archive ∧
    (confirmState s).fw.mram.archNew = s.fw.mram.archNew ∧ (confirmState s).fw.act = s.fw.act ∧
    (confirmState s).sp.slotKeys = s.sp.slotKeys ∧ (confirmState s).log = s.log := by
  unfold confirmState
  dsimp only
  split
  · split
    · split <;> exact ⟨rfl, rfl, rfl, rfl, rfl⟩
    · exact ⟨rfl, rfl, rfl, rfl, rfl⟩
  · exact ⟨rfl, rfl, rfl, rfl, rfl⟩

/-- READY at STAGE 2 (R399, R435 step 7). -/
def markReady (s : State) : State :=
  setPhase (rsetf (rsetf (rsetf s .bootStatus 63 48 0) .bootStatus 47 40 2) .bootStatus 0 0 1) .ready

/-- READY and STAGE are fields of one register; the rest of the state stays. -/
theorem markReady_rest (s : State) : (markReady s).sp = s.sp ∧ (markReady s).log = s.log ∧ (markReady s).fw = { s.fw with phase := .ready } := by
  have hput (t : State) (hi lo x : Nat) : Writes (fun r => r = .bootStatus) t (rsetf t .bootStatus hi lo x) := writes_rsetf t hi lo x rfl
  have hw := ((hput s 63 48 0).trans (hput _ 47 40 2)).trans (hput _ 0 0 1)
  refine ⟨?_, ?_, ?_⟩
  · rw [markReady, setPhase_sp, hw.sp]
  · rw [markReady, setPhase_log, hw.log]
  · rw [markReady, setPhase_fw, hw.fw]

theorem markReady_spec (s : State) : (markReady s).fw.phase = .ready ∧ hubReady (markReady s) = true ∧
    rfld (markReady s) .bootStatus 47 40 = 2 ∧ rfld (markReady s) .bootStatus 63 48 = 0 := by
  let t := rsetf (rsetf s .bootStatus 63 48 0) .bootStatus 47 40 2
  have hready : rget (markReady s) .bootStatus = rget (rsetf t .bootStatus 0 0 1) .bootStatus := rfl
  refine ⟨rfl, ?_, ?_, ?_⟩
  · rw [hubReady, rbit_eq, rfld_congr hready, rfld_rsetf_self _ _ (by decide) (by decide)]; rfl
  · rw [rfld_congr hready, rfld_rsetf_apart _ _ _ (by decide), rfld_rsetf_self _ _ (by decide) (by decide)]
  · rw [rfld_congr hready, rfld_rsetf_apart _ _ _ (by decide), rfld_rsetf_apart _ _ _ (by decide), rfld_rsetf_self _ _ (by decide) (by decide)]

/-- BOOT_READY after the lock (R407, R419, R435, R448, R461). -/
theorem bootReady_spec {s : State} (h : s.fw.phase = .locked) : ∃ u, exec .bootReady s = .next u ∧ u.fw.phase = .ready ∧ hubReady u = true ∧
    rfld u .bootStatus 47 40 = 2 ∧ rfld u .bootStatus 63 48 = 0 ∧ u.fw.mram.archNew = 0 ∧
    (s.fw.act.fell = true → u.fw.act.phase = if s.fw.act.posted = 26 then 0 else 6) ∧
    (∀ k : N20, tget u.sp.slotKeys [] k.val = Config.drbgKey (s.sp.keyDraws + k.val)) ∧
    (logRing u 20).map LogRec.ev =
      (logRing s 20).map LogRec.ev ++ (s.fw.mram.archive.drop (s.fw.mram.archive.length - s.fw.mram.archNew)).map LogRec.ev := by
  obtain ⟨hkeys, hdraw⟩ := drawSlots_spec s
  obtain ⟨harch, hnew, hact, hsp, hlog⟩ := confirmState_rest (drawSlots s)
  obtain ⟨hcfw, hcsp, hring⟩ := copyArchive_spec (confirmState (drawSlots s))
  obtain ⟨hbnew, hbkeys, hblog, hbact⟩ := bootActivation_spec (copyArchive (confirmState (drawSlots s)))
  obtain ⟨hphase, hready, hstage, hstat⟩ := markReady_spec (bootActivation (copyArchive (confirmState (drawSlots s))))
  obtain ⟨hmsp, hmlog, hmfw⟩ := markReady_rest (bootActivation (copyArchive (confirmState (drawSlots s))))
  have hfw : (drawSlots s).fw = s.fw := by rw [hdraw]
  have hact' : (copyArchive (confirmState (drawSlots s))).fw.act = s.fw.act := by rw [hcfw, hact, hfw]
  refine ⟨markReady (bootActivation (copyArchive (confirmState (drawSlots s)))), ?_, hphase, hready, hstage, hstat, ?_, fun hf => ?_,
    fun k => ?_, ?_⟩
  · change execBootReady s = _
    rw [execBootReady, if_neg (not_not_intro h)]
    rfl
  · rw [hmfw, hbnew, hcfw]
  · have hhealth := hbact (by rw [hact', hf])
    rw [healthPhase, hact'] at hhealth
    rw [hmfw, hhealth]
  · rw [hmsp, hbkeys, hcsp, hsp, hkeys k]
  · rw [logRing_congr hmlog, logRing_congr hblog, hring, logRing_congr hlog, harch, hnew, hfw, logRing_congr (s := s) (by rw [hdraw])]

end Sys2Proof.Machine

namespace Sys2Proof.Machine

/-! Resets (R434). -/

/-- What a reset leaves of the firmware's state: MRAM but for the record of an activation that it cuts, and the slots (R434, R441, R447). -/
theorem keepFw_spec (s : State) (ph : BootPhase) : (keepFw s ph).phase = ph ∧ (keepFw s ph).slots = cutSlots s.fw.slots ∧
    (keepFw s ph).mram = if 2 ≤ s.fw.act.phase ∧ s.fw.act.phase ≤ 5 then { s.fw.mram with cur := s.fw.mram.old } else s.fw.mram := by
  unfold keepFw
  dsimp only
  split <;> exact ⟨rfl, rfl, rfl⟩

/-- A warm reset with a cause (R434, R449). -/
theorem afterReset_warmReset (s : State) {cause : Nat} (hc : cause < 256) : AfterReset s (warmReset s cause) .released cause := by
  have hregs (r : Reg) (hh : r ≠ .hubReset) (hk : r ≠ .clkState) : rget (warmReset s cause) r = regReset r := by
    rw [warmReset, rget_rsetf_of_ne _ _ _ _ hk, deviceReset, rget_rsetf_of_ne _ _ _ _ hh]; rfl
  have hcause : rfld (warmReset s cause) .hubReset 63 56 = cause := by
    rw [warmReset, rfld_rsetf_of_ne _ _ _ _ _ _ (by simp), deviceReset, rfld_rsetf_self _ _ (by decide) hc]
  obtain ⟨hphase, -, hmram⟩ := keepFw_spec s .released
  have hfw : (warmReset s cause).fw = keepFw s .released := rfl
  refine ⟨hregs, fun _ _ => rfl, hcause, ⟨rfl, rfl, rfl, rfl, rfl, rfl, rfl⟩, ⟨rfl, rfl, rfl, rfl, rfl, rfl, rfl, rfl⟩, fun _ => ⟨rfl, rfl⟩,
    hfw ▸ hphase, ⟨rfl, ?_⟩, ⟨rfl, rfl, List.suffix_refl _, rfl⟩⟩
  rw [hfw, hmram]
  split <;> exact ⟨rfl, rfl, rfl, rfl⟩

/-- A reset of a state that agrees on all that a reset keeps. -/
theorem AfterReset.of_same {s t u : State} {ph : BootPhase} {cause : Nat} (h : AfterReset t u ph cause) (hrest : t = { s with fw := t.fw })
    (hmram : t.fw.mram.mono = s.fw.mram.mono ∧ t.fw.mram.actCount = s.fw.mram.actCount ∧ t.fw.mram.part = s.fw.mram.part ∧
      t.fw.mram.retire = s.fw.mram.retire) : AfterReset s u ph cause := by
  obtain ⟨hregs, hfregs, hcause, hmem, hunits, hkeys, hphase, ⟨hboot, hmono, hact, hpart, hret⟩, ⟨hpend, hside, hout, hcable⟩⟩ := h
  obtain ⟨hm, ha, hp, hr⟩ := hmram
  refine ⟨hregs, hfregs, hcause, hmem, hunits, hkeys, hphase, ⟨?_, hmono.trans hm, hact.trans ha, hpart.trans hp, hret.trans hr⟩, ?_, ?_, ?_, ?_⟩
  · rw [hboot, hrest]
  · rw [hpend, hrest]
  · rw [hside, hrest]
  · rwa [hrest] at hout
  · rw [hcable, hrest]

/-- A slot after a reset: INVALID where its write was cut (R441). -/
def cutSlot (x : Slot) : Slot := if x.st = slWriting ∨ x.st = slVerifying then { x with st := slInvalid } else x

theorem tget_cutSlots (t : Tab Slot) (k : Nat) : tget (cutSlots t) slotReset' k = cutSlot (tget t slotReset' k) := by
  induction t with
  | nil => rfl
  | cons a t ih =>
    obtain ⟨j, x⟩ := a
    have hcons : cutSlots ((j, x) :: t) = (j, cutSlot x) :: cutSlots t := rfl
    rw [hcons, tget, tget, ih]
    split <;> rfl

/-! BOOT_ACTIVATION_TIMEOUT (R448). -/

/-- The slots and the record as the timeout returns to them, before its reset (R448). -/
def revertSlots (s : State) : State :=
  let t := setSlotSt (setSlotSt s (activeSlot s) slVerified) (idleSlot s) slActive
  let t := if s.fw.act.boot then restoreRecord t else t
  putMram t { t.fw.mram with active := idleSlot s }

theorem revertSlots_spec (s : State) : revertSlots s = { s with fw := (revertSlots s).fw } ∧
    (revertSlots s).fw.slots = (setSlotSt (setSlotSt s (activeSlot s) slVerified) (idleSlot s) slActive).fw.slots ∧
    (revertSlots s).fw.act = s.fw.act ∧ (revertSlots s).fw.mram =
      { s.fw.mram with active := idleSlot s, cur := if s.fw.act.boot then s.fw.mram.old else s.fw.mram.cur } := by
  unfold revertSlots
  cases s.fw.act.boot <;>
    simp only [setSlotSt, putSlot, restoreRecord, putMram, if_true, if_false, Bool.false_eq_true, and_self]

theorem bootActivationTimeout_reverts {s : State} (h6 : s.fw.act.phase = 6) (hv : (getSlot s (idleSlot s)).st = slVerified) :
    ∃ u, exec .bootActivationTimeout s = .next u ∧ AfterReset s u .released 6 ∧ u.fw.mram.active = idleSlot s ∧
      u.fw.mram.cur = (if s.fw.act.boot then s.fw.mram.old else s.fw.mram.cur) ∧ (getSlot u (idleSlot s)).st = slActive ∧
      (getSlot u (activeSlot s)).st = slVerified := by
  obtain ⟨hrest, hslots, hact, hmram⟩ := revertSlots_spec s
  obtain ⟨hverified, hactive⟩ := getSlot_setSlotSt_two s slVerified slActive (otherSlot_ne (activeSlot s))
  obtain ⟨-, hcut, hkeep⟩ := keepFw_spec (revertSlots s) .released
  have hfw : (warmReset (revertSlots s) lcRevert).fw = keepFw (revertSlots s) .released := rfl
  rw [hact, h6, if_neg (by decide), hmram] at hkeep
  have hslot (i : Fin 2) : getSlot (warmReset (revertSlots s) lcRevert) i =
      cutSlot (getSlot (setSlotSt (setSlotSt s (activeSlot s) slVerified) (idleSlot s) slActive) i) := by
    rw [getSlot, hfw, hcut, tget_cutSlots, hslots]; rfl
  refine ⟨warmReset (revertSlots s) lcRevert, ?_, ?_, ?_, ?_, ?_, ?_⟩
  · change execBootActivationTimeout s = _
    rw [execBootActivationTimeout, if_neg (not_not_intro h6)]
    dsimp only
    rw [if_pos hv]
    rfl
  · exact (afterReset_warmReset (revertSlots s) (by decide)).of_same hrest (by rw [hmram]; exact ⟨rfl, rfl, rfl, rfl⟩)
  · rw [hfw, hkeep]
  · rw [hfw, hkeep]
  · rw [hslot, idleSlot, hactive]; rfl
  · rw [hslot, idleSlot, hverified]; rfl

theorem bootActivationTimeout_stops {s : State} (h6 : s.fw.act.phase = 6) (hv : (getSlot s (idleSlot s)).st ≠ slVerified) :
    ∃ u, exec .bootActivationTimeout s = .next u ∧ u.fw.phase = .stopped ∧ hubReady u = false ∧ LogsExactly s u [ntGeneral] := by
  let t := logEv (putAct s { s.fw.act with phase := 0 }) ntGeneral clsNone 0xFF 8 0xFF 0 0
  refine ⟨setPhase (rsetf t .bootStatus 0 0 0) .stopped, ?_, rfl, ?_, ?_⟩
  · change execBootActivationTimeout s = _
    rw [execBootActivationTimeout, if_neg (not_not_intro h6)]
    dsimp only
    rw [if_neg hv]
  · have hready : rget (setPhase (rsetf t .bootStatus 0 0 0) .stopped) .bootStatus = rget (rsetf t .bootStatus 0 0 0) .bootStatus := rfl
    rw [hubReady, rbit_eq, rfld_congr hready, rfld_rsetf_self _ _ (by decide) (by decide)]; rfl
  · exact (logged_logEv (putAct s { s.fw.act with phase := 0 }) ntGeneral clsNone 0xFF 8 0xFF 0 0).events

/-- Settles O52: each step of boot by its own lemma, the loads of step 4 section by section. -/
theorem bootRunsItsSteps : Obligations.BootRunsItsSteps := by
  intro s
  refine ⟨fun h => ⟨bootRom_active h, fun hb ho => ?_, bootRom_stops h⟩, fun h => ⟨fun hok => ?_, fun hb ho => ?_, stage1Start_stops h⟩,
    fun n t hp hm => trainingDone t hp hm, fun hp hpart hkeys hlive => bootPartitionLock_firstBoot hp hpart hkeys hlive,
    fun v hp hv ho => protLockWrite_locks hp hv ho, fun v h => protLockWrite_refused v h, fun h => bootReady_spec h,
    fun h6 => ⟨bootActivationTimeout_reverts h6, bootActivationTimeout_stops h6⟩⟩
  · obtain ⟨u, he, hp, hf⟩ := bootRom_other h hb ho
    exact ⟨u, he, hp, hf.swapped⟩
  · obtain ⟨u, he, hbegan, hlog⟩ := stage1Start_active h hok
    exact ⟨u, he, hbegan.facts, hlog⟩
  · obtain ⟨u, he, hbegan, hf⟩ := stage1Start_other h hb ho
    exact ⟨u, he, hbegan.facts, hf.swapped⟩

end Sys2Proof.Machine

namespace Sys2Proof.Machine

/-! Integer sums of products (R40, R45). -/

theorem intOf_ofInt (i : Int) : intOf (Val.ofInt i 0) = i := by
  have hexact : (if i = 0 then (0 : Int) else 0) = 0 := ite_self 0
  simp only [intOf, Val.ofInt, roundInt, hexact, le_refl, if_true, Int.toNat_zero, Nat.shiftLeft_zero, decide_eq_true_eq]
  split <;> omega

/-- A row of integers as the operand row that the arrays read. -/
def intRow (xs : List (Option (Int × Byte))) : OpRow := xs.map fun o => o.map fun v => (Val.ofInt v.1 0, v.2)

/-- An exact sum of products with one position of two integer rows added to it. -/
def addProduct (n : Int) (q : Option (Int × Byte) × Option (Int × Byte)) : Int :=
  match q.1, q.2 with
  | some a, some b => n + a.1 * b.1
  | _, _ => n

theorem accAdd_ofInt (acc : W32) (a b : Int × Byte) :
    accAdd true acc (Val.ofInt a.1 0, a.2) (Val.ofInt b.1 0, b.2) = acc + BitVec.ofInt 32 (a.1 * b.1) := by
  rw [accAdd, if_pos rfl, intOf_ofInt, intOf_ofInt]

/-- Reduction to 32 bits commutes with the sum, so an exact sum n stays n as the row adds to it one position at a time. -/
theorem accRow_intRow (acc : W32) (n : Int) (xs ws : List (Option (Int × Byte))) :
    accRow true (acc + BitVec.ofInt 32 n) (intRow xs) (intRow ws) = acc + BitVec.ofInt 32 ((List.zip xs ws).foldl addProduct n) := by
  induction xs generalizing n ws with
  | nil => rfl
  | cons x xs ih =>
    cases ws with
    | nil => cases x <;> rfl
    | cons w ws =>
      match x, w with
      | some a, some b =>
        calc accRow true (acc + BitVec.ofInt 32 n) (intRow (some a :: xs)) (intRow (some b :: ws))
          _ = accRow true (accAdd true (acc + BitVec.ofInt 32 n) (Val.ofInt a.1 0, a.2) (Val.ofInt b.1 0, b.2)) (intRow xs) (intRow ws) := rfl
          _ = accRow true (acc + BitVec.ofInt 32 (n + a.1 * b.1)) (intRow xs) (intRow ws) := by
            rw [accAdd_ofInt, BitVec.ofInt_add, BitVec.add_assoc]
          _ = acc + BitVec.ofInt 32 ((List.zip xs ws).foldl addProduct (n + a.1 * b.1)) := ih ..
      | none, some _ | none, none | some _, none => exact ih n ws

/-- Settles O26, by induction on the rows from an exact sum of 0; rows of unequal length would end with the shorter. -/
theorem integerAccumulationIsExactModulo32Bits : Obligations.IntegerAccumulationIsExactModulo32Bits := by
  intro acc xs ws _
  have hstart : acc + BitVec.ofInt 32 0 = acc := BitVec.add_zero acc
  have hsum := accRow_intRow acc 0 xs ws
  rwa [hstart] at hsum

end Sys2Proof.Machine

namespace Sys2Proof.Machine

/-! The scratchpads (R280): no stack, window or page lies at their addresses, and what a reader finds there is memory and its tags. -/

/-- The address lies at or past the first scratchpad. -/
def InPads (a : Nat) : Prop := 0xF0000000000 ≤ a

@[simp] theorem inPads_padAddr (c : CoreId) (x : Int) : InPads (padAddr c x) := by
  unfold InPads padAddr padBase; omega

@[simp] theorem InPads.add {a : Nat} (h : InPads a) (n : Nat) : InPads (a + n) := Nat.le_add_right_of_le h

theorem InPads.unit {a : Nat} (h : InPads a) (i : Nat) : InPads (64 * (a / 64 + i)) := by
  unfold InPads at *; omega

theorem placeOf_inPads {a : Nat} (h : InPads a) : (∃ c o, placeOf a = .pad c o) ∨ placeOf a = .nothing := by
  unfold InPads at h
  rw [placeOf, if_neg (by omega), if_neg (by omega), if_pos h]
  split
  · exact .inl ⟨_, _, rfl⟩
  · exact .inr rfl

theorem homeOf_inPads {u : Nat} (h : InPads (64 * u)) : (∃ c o, ∀ s, homeOf s u = .pad c o) ∨ ∀ s, homeOf s u = .nowhere := by
  rcases placeOf_inPads h with ⟨c, o, hp⟩ | hp
  · exact .inl ⟨c, o / 64, fun s => by simp only [homeOf, hp]⟩
  · exact .inr fun s => by simp only [homeOf, hp]

/-- Memory and its poison tags are as before. -/
structure SamePads (s u : State) : Prop where
  mem : u.mem = s.mem
  poison : u.poison = s.poison

theorem SamePads.trans {s t u : State} (h : SamePads s t) (k : SamePads t u) : SamePads s u := ⟨k.1.trans h.1, k.2.trans h.2⟩
theorem samePads_advance (s : State) (t : Nat) : SamePads s (advance s t) := ⟨rfl, rfl⟩

section Reads
variable {s u : State} (h : SamePads s u)
include h

theorem SamePads.unitBytes {n : Nat} (hn : InPads (64 * n)) : unitBytes u n = unitBytes s n := by
  rcases homeOf_inPads hn with ⟨c, o, hh⟩ | hh <;> simp only [Machine.unitBytes, hh, h.mem]

theorem SamePads.unitPoison {n : Nat} (hn : InPads (64 * n)) : unitPoison u n = unitPoison s n := by
  rcases homeOf_inPads hn with ⟨c, o, hh⟩ | hh <;> simp only [Machine.unitPoison, hh, h.poison]

theorem SamePads.memBytes {a : Nat} (ha : InPads a) (n : Nat) : memBytes u a n = memBytes s a n := by
  simp only [Machine.memBytes, h.unitBytes (ha.unit _)]

theorem SamePads.memPoison {a : Nat} (ha : InPads a) (n : Nat) : memPoison u a n = memPoison s a n := by
  simp only [Machine.memPoison, h.unitPoison (ha.unit _)]

theorem SamePads.memNat {a : Nat} (ha : InPads a) (n : Nat) : memNat u a n = memNat s a n := by
  simp only [Machine.memNat, h.memBytes ha]

end Reads

/-! Reads where no error is recorded in memory. -/

theorem eccFind_of_ecc_nil {s : State} (hecc : s.ecc = []) (u : Nat) (ks : List Nat) : eccFind s u ks = (0, false) := by
  have hsingle : (EccErr.none == EccErr.single) = false := rfl
  have hdouble : (EccErr.none == EccErr.double) = false := rfl
  simp [eccFind, singles, doubles, hecc, tget, hsingle, hdouble]

theorem touchUnit_inPads {s : State} (hecc : s.ecc = []) {u : Nat} (hu : InPads (64 * u)) : touchUnit s u = s := by
  have hcheck : eccCheck s u words8 = s := by
    rcases homeOf_inPads hu with ⟨c, o, hh⟩ | hh <;> simp [eccCheck, hh, eccFind_of_ecc_nil hecc]
  rcases homeOf_inPads hu with ⟨c, o, hh⟩ | hh <;> simp only [touchUnit, hcheck, hh]

/-- Every one of the ranges begins in the scratchpads. -/
structure PadRanges (rs : List (Nat × Nat)) : Prop where
  starts : ∀ r ∈ rs, InPads r.1

@[simp] theorem padRanges_nil : PadRanges [] := ⟨fun _ hr => absurd hr List.not_mem_nil⟩
@[simp] theorem padRanges_cons {r : Nat × Nat} {rs : List (Nat × Nat)} : PadRanges (r :: rs) ↔ InPads r.1 ∧ PadRanges rs :=
  ⟨fun h => ⟨h.starts r List.mem_cons_self, ⟨fun x hx => h.starts x (List.mem_cons_of_mem r hx)⟩⟩, fun h => ⟨List.forall_mem_cons.2 ⟨h.1, h.2.starts⟩⟩⟩
theorem padRanges_append {a b : List (Nat × Nat)} (ha : PadRanges a) (hb : PadRanges b) : PadRanges (a ++ b) :=
  ⟨List.forall_mem_append.2 ⟨ha.starts, hb.starts⟩⟩
theorem padRanges_ite {P : Prop} [Decidable P] {a b : List (Nat × Nat)} (ha : PadRanges a) (hb : PadRanges b) :
    PadRanges (if P then a else b) := by split <;> assumption
theorem padRanges_flatMap {α : Type} {l : List α} {f : α → List (Nat × Nat)} (h : ∀ x, PadRanges (f x)) : PadRanges (l.flatMap f) := by
  refine ⟨fun r hr => ?_⟩
  obtain ⟨x, -, hx⟩ := List.mem_flatMap.1 hr
  exact (h x).starts r hx
theorem padRanges_map {α : Type} {l : List α} {f : α → Nat × Nat} (h : ∀ x, InPads (f x).1) : PadRanges (l.map f) := by
  refine ⟨fun r hr => ?_⟩
  obtain ⟨x, -, rfl⟩ := List.mem_map.1 hr
  exact h x

theorem unitsMet_inPads {rs : List (Nat × Nat)} (h : PadRanges rs) : ∀ u ∈ unitsMet rs, InPads (64 * u) := by
  have hset (t : Tab Bool) (k : Nat) (hk : InPads (64 * k)) (ht : ∀ p ∈ t, InPads (64 * p.1)) :
      ∀ p ∈ tset t false k true, InPads (64 * p.1) := by
    intro p hp
    rcases mem_tins.1 hp with rfl | hp
    · exact hk
    · exact ht p (List.mem_of_mem_filter hp)
  have hall : ∀ p ∈ rs.foldl (fun (t : Tab Bool) r =>
      if r.2 = 0 then t
      else (List.range ((r.1 + r.2 - 1) / 64 + 1 - r.1 / 64)).foldl (fun t i => tset t false (r.1 / 64 + i) true) t) [], InPads (64 * p.1) := by
    refine List.foldlRecOn (motive := fun t : Tab Bool => ∀ p ∈ t, InPads (64 * p.1)) rs _ (fun _ hp => absurd hp List.not_mem_nil)
      fun t ht r hr => ?_
    split
    · exact ht
    · exact List.foldlRecOn (motive := fun t : Tab Bool => ∀ p ∈ t, InPads (64 * p.1)) _ _ ht
        fun t ht i _ => hset t _ ((h.starts r hr).unit i) ht
  intro u hu
  obtain ⟨p, hp, rfl⟩ := List.mem_map.1 hu
  exact hall p hp

/-- A read of scratchpads changes nothing where no error is recorded. -/
theorem touchAll_inPads {s : State} (hecc : s.ecc = []) {rs : List (Nat × Nat)} (h : PadRanges rs) : touchAll s rs = s :=
  still_foldl fun u hu => touchUnit_inPads hecc (unitsMet_inPads h u hu)

end Sys2Proof.Machine

namespace Sys2Proof.Machine

/-! The one instruction of a core, its record stored again. -/

theorem getCore_putInst {s : State} {c : CoreId} {i j : Inst} (hi : (getCore s c).insts = [i]) (hid : j.id = i.id) :
    getCore (putInst s c j) c = { getCore s c with insts := [j] } := by
  have hmap : ((getCore s c).insts.map fun x => if x.id == j.id then j else x) = [j] := by simp [hi, hid]
  rw [putInst, getCore_putCore, hmap]

/-- Where it is begun and no stream issue, nothing follows in a core whose engines are HALTED or RUNNING. -/
theorem settleCore_putInst {s : State} {c : CoreId} {i j : Inst} (hi : (getCore s c).insts = [i]) (hid : j.id = i.id)
    (hm : ∀ e, (getEng s c e).mode = .halted ∨ (getEng s c e).mode = .running) (hb : j.begun = true) (hd : ∀ n, j.prog ≠ .dxe n) :
    settleCore (putInst s c j) c = putInst s c j := by
  have hcore := getCore_putInst hi hid
  refine settleCore_still (fun x hx => ?_) fun e => ?_
  · rw [hcore] at hx
    rw [List.mem_singleton.1 hx]
    exact ⟨hb, fun _ => hd⟩
  · have heng : getEng (putInst s c j) c e = getEng s c e := by rw [getEng, hcore]; rfl
    rw [heng]
    exact (hm e).elim .inl fun h => .inr (.inl h)

/-! A matrix instruction begins (R85, R116, R203). -/

theorem slotLen_mxe (s : State) (c : CoreId) : slotLen s c .mxe = 1 := rfl

/-- Only the vector and scalar engines check for late reads, so no matrix instruction drains its engine by them (R170). -/
theorem lateHalt_mxe (s : State) (c : CoreId) (n : Nat) (g : Engine) : lateHalt s c .mxe n g = g :=
  if_neg fun h => absurd (show (0 : Nat) = 2 from h.1) (by decide)

theorem beginInst_mxe {s : State} {c : CoreId} {i : Inst} (t : Nat) (he : i.eng = .mxe) (ho : opc i.w ≠ 0x04) (hecc : s.ecc = []) :
    beginInst s c i t = putEng (putInst s c (beginMxe s c i t)) c .mxe
      (begunEng (getEng (putInst s c (beginMxe s c i t)) c .mxe) i.id (t + 1) t 1 none) := by
  have hdesc : PadRanges [mxeDesc c i 0] := by simp [mxeDesc]
  have hwork : beginWork s c i t = (putInst s c (beginMxe s c i t), t + 1, none) := by
    simp [beginWork, ho, he, touchAll_inPads hecc hdesc]
  simp only [beginInst, hwork, he, lateHalt_mxe, dropBranch, slotLen_mxe]
  exact if_neg fun h => nomatch h.1

/-- The state after a matrix instruction at the head of its core has begun: its record is the core's only one, and its engine is past it. -/
theorem runOp_mxe {s : State} {c : CoreId} {w : W128} {t o : Nat} {d : LoopDesc} {g : Engine} (hc : CalmCore s c) (hecc : s.ecc = [])
    (hx : Executes s c .mxe w t d g) (ho : opc w = o) (h4 : o ≠ 0x04) :
    let p := atBegin (advance (putEng s c .mxe g) t) c .mxe w t d
    let i := beginMxe p.1 c p.2 t
    ∃ g', runOp s c .mxe o = putEng (putInst p.1 c i) c .mxe g' ∧
      getCore (runOp s c .mxe o) c = engPut { getCore p.1 c with insts := [i] } .mxe g' ∧
      g'.pc = g.pc + 1 ∧ g'.queue = g.queue.drop 1 ∧ g'.nextAt = t + 1 := by
  intro p i
  have hcalm := atBegin_core (s := s) (c := c) (e := .mxe) (w := w) (t := t) (d := d) (g := g) hc.insts
  have hinsts : (getCore p.1 c).insts = [p.2] := hcalm.1
  have heng : getEng p.1 c .mxe = { popHead g (t + 1) with wait := .claim p.2.id } := hcalm.2.1
  have hothers : ∀ x, x ≠ .mxe → getEng p.1 c x = getEng s c x := hcalm.2.2.1
  have hput : getCore (putInst p.1 c i) c = { getCore p.1 c with insts := [i] } := getCore_putInst hinsts rfl
  have hg : getEng (putInst p.1 c i) c .mxe = { popHead g (t + 1) with wait := .claim p.2.id } := by
    rw [getEng, hput]; exact heng
  have hbegin := beginInst_mxe (s := p.1) (c := c) (i := p.2) t rfl (by rw [show p.2.w = w from rfl, ho]; exact h4) hecc
  obtain ⟨hpc, hqueue, hnext, -⟩ := begunEng_facts (g := getEng (putInst p.1 c i) c .mxe) (id := p.2.id) (n := t + 1) (next := t + 1) (t := t)
    (q := 1) (by rw [hg]; exact hx.step) (by rw [hg]; rfl)
  set g' := begunEng (getEng (putInst p.1 c i) c .mxe) p.2.id (t + 1) t 1 none with hg'
  have hcore : getCore (putEng (putInst p.1 c i) c .mxe g') c = engPut { getCore p.1 c with insts := [i] } .mxe g' := by
    rw [putEng, getCore_putCore, hput]
  have hrun : runOp s c .mxe o = putEng (putInst p.1 c i) c .mxe g' := by
    refine runOp_calm hc hx ho (nofun) hbegin (fun j hj => ?_) fun x => ?_
    · rw [hcore] at hj
      rw [List.mem_singleton.1 hj]
      exact ⟨rfl, fun _ n h => nomatch h⟩
    · rw [getEng, hcore]
      by_cases he : x = .mxe
      · exact .inr (.inr (by rw [he]; rfl))
      · rw [engGet_engPut_ne _ _ he]
        have hmode : (engGet (getCore p.1 c) x).mode = (getEng s c x).mode := congrArg Engine.mode (hothers x he)
        exact (hc.modes x).elim (fun h => .inl (hmode.trans h)) fun h => .inr (.inl (hmode.trans h))
  refine ⟨g', hrun, hrun ▸ hcore, ?_, ?_, ?_⟩
  · rw [hpc, hg]; rfl
  · rw [hqueue, hg]; rfl
  · rw [hnext, Nat.max_self]

/-- A core stored changes nothing but the cores. -/
theorem putCore_rest {s v : State} {t : Nat} (h : v = { s with now := t, cores := v.cores }) (c : CoreId) (k : Core) :
    putCore v c k = { s with now := t, cores := (putCore v c k).cores } := by
  obtain ⟨cs, rfl⟩ : ∃ cs, v = { s with now := t, cores := cs } := ⟨_, h⟩
  rfl

/-- The run of a matrix instruction that begins at t: the first position of iteration 0, with accumulators of +0. -/
theorem mxeLoad_begin (s : State) (c : CoreId) (i : Inst) (t : Nat) :
    mxeLoad s c i { mxeRun0 with start := t } 0 =
      let bs := memBytes s (padAddr c (mAddr i.loop i.w 3 0)) 128
      let arrs := (parseProd i.loop i.w 0 bs).arrs
      { mxeRun0 with held := List.replicate arrs [], acc := List.replicate arrs acc0, desc := bs, start := t } := rfl

/-- What a matrix instruction at the head of its core leaves as it begins at t. -/
theorem matrix_begins {s : State} {c : CoreId} {w : W128} {t o : Nat} {d : LoopDesc} {g : Engine} (hc : CalmCore s c) (hecc : s.ecc = [])
    (hx : Executes s c .mxe w t d g) (ho : opc w = o) (h4 : o ≠ 0x04) :
    let u := runOp s c .mxe o
    let desc := memBytes s (padAddr c (mAddr d w 3 0)) 128
    let arrs := (parseProd d w 0 desc).arrs
    (∃ i, (getCore u c).insts = [i] ∧ i.w = w ∧ i.eng = .mxe ∧ i.rd = d.rd ∧ i.wr = d.wr ∧ i.begun = true ∧ i.finished = false ∧ i.start = t ∧
      i.prog = .mxe { mxeRun0 with held := List.replicate arrs [], acc := List.replicate arrs acc0, desc := desc, start := t }) ∧
    (getEng u c .mxe).pc = g.pc + 1 ∧ (getEng u c .mxe).queue = g.queue.drop 1 ∧ (getEng u c .mxe).nextAt = t + 1 ∧
    u = { s with now := t, cores := u.cores } ∧ SameCores s u c .mxe := by
  intro u desc arrs
  obtain ⟨g', hrun, hcore, hpc, hqueue, hnext⟩ := runOp_mxe hc hecc hx ho h4
  have hcalm := atBegin_core (s := s) (c := c) (e := .mxe) (w := w) (t := t) (d := d) (g := g) hc.insts
  set p := atBegin (advance (putEng s c .mxe g) t) c .mxe w t d with hp
  obtain ⟨hinsts, -, hothers, ⟨eng, ins, nn, ca, ce, hk⟩, hrest, hcores⟩ := hcalm
  have hnow : max s.now t = t := Nat.max_eq_right (headOf_some hx.head).2.1
  have hpads : SamePads s p.1 := ⟨(congrArg State.mem hrest :), (congrArg State.poison hrest :)⟩
  have hdesc : memBytes p.1 (padAddr c (mAddr d w 3 0)) 128 = desc := hpads.memBytes (inPads_padAddr ..) 128
  have heng : getEng u c .mxe = g' := by rw [getEng, hcore, engGet_engPut]
  refine ⟨⟨beginMxe p.1 c p.2 t, by rw [hcore]; rfl, rfl, rfl, rfl, rfl, rfl, rfl, rfl, ?_⟩, heng ▸ hpc, heng ▸ hqueue, heng ▸ hnext, ?_, ?_⟩
  · have hload := mxeLoad_begin p.1 c p.2 t
    rw [show p.2.loop = d from rfl, show p.2.w = w from rfl, hdesc] at hload
    exact congrArg Prog.mxe hload
  · rw [hnow] at hrest
    rw [show u = _ from hrun]
    exact putCore_rest (putCore_rest hrest c _) c _
  · have hfields : getCore u c = engPut { getCore s c with eng := eng, insts := [beginMxe p.1 c p.2 t], nextInst := nn, claimAt := ca, claimEng := ce } .mxe g' := by
      rw [hcore, hk]
    exact {
      others := fun x hx => by
        rw [show u = _ from hrun, putEng, getCore_putCore_ne _ _ hx, putInst, getCore_putCore_ne _ _ hx, hcores x hx]
      engines := fun x hx => by
        rw [getEng, hcore, engGet_engPut_ne _ _ hx, ← hothers x hx]; rfl
      vregs := by rw [hfields]; rfl
      xregs := by rw [hfields]; rfl
      slots := by rw [hfields]; rfl
      sem := by rw [hfields]; rfl
      ctx := by rw [hfields]; rfl
      sen := by rw [hfields]; rfl
      tasks := by rw [hfields]; rfl }

/-- Settles O23: the four dataflows share one dispatch, and the descriptor lies in a scratchpad, so reading it changes nothing. -/
theorem matrixInstructionsBegin : Obligations.MatrixInstructionsBegin := by
  intro x hx s c w t d g hc hecc hexec hop desc p
  have hrow : exec (x.1 c) s = .next (runOp s c .mxe x.2) ∧ x.2 ≠ 0x04 := by
    simp only [List.mem_cons, List.not_mem_nil, or_false] at hx
    rcases hx with rfl | rfl | rfl | rfl <;> exact ⟨rfl, by decide⟩
  obtain ⟨⟨i, hinsts, hw, he, hrd, hwr, hb, hf, hs, hprog⟩, hpc, hqueue, hnext, hrest, hcores⟩ := matrix_begins hc hecc hexec hop hrow.2
  refine ⟨_, i, _, hrow.1, by rw [hrest], hinsts, hw, he, hrd, hwr, hb, hf, hs, hprog, rfl, rfl, rfl, rfl, rfl, rfl, rfl, rfl, rfl, rfl, rfl, rfl,
    hpc, hqueue, hnext, ?_, ?_, hcores, by rw [hrest], by rw [hrest]⟩
  · rw [hrest]; constructor <;> rfl
  · rw [hrest]; constructor <;> rfl

end Sys2Proof.Machine

namespace Sys2Proof.Machine

/-! The bytes that a tile step reads lie in the scratchpads (R82, R85, R89). -/

theorem padRanges_rowRange (c : CoreId) (w : Nat) (a : Int) (i0 n : Nat) : PadRanges (rowRange c w a i0 n) := by
  unfold rowRange; split <;> simp

theorem padRanges_scaleRange (c : CoreId) (on : Bool) (a : Int) (stride line i0 n : Nat) :
    PadRanges (scaleRange c on a stride line i0 n) := by
  unfold scaleRange; split <;> simp

theorem padRanges_denseRange (c : CoreId) (f : NumFmt) (a : Int) (stride row : Nat) (sc : Bool) (sa : Int) (ss i0 n : Nat) :
    PadRanges (denseRange c f a stride row sc sa ss i0 n) :=
  padRanges_append (padRanges_rowRange ..) (padRanges_scaleRange ..)

theorem padRanges_sbRanges (s : State) (w : Nat) {ea base : Nat} (hea : InPads ea) (hbase : InPads base) (ext : Nat) :
    PadRanges (sbRanges s w ea base ext) := by simp [sbRanges, hea, hbase]

@[simp] theorem inPads_wEntry (c : CoreId) (p : Prod) (br bc : Nat) : InPads (wEntry c p br bc) := inPads_padAddr ..

theorem padRanges_xReads (c : CoreId) (p : Prod) (r0 n i0 len : Nat) : PadRanges (xReads c p r0 n i0 len) :=
  padRanges_flatMap fun _ => padRanges_ite (padRanges_denseRange ..) padRanges_nil

theorem padRanges_wReads (s : State) (c : CoreId) (p : Prod) (n0 cnt i0 len : Nat) : PadRanges (wReads s c p n0 cnt i0 len) := by
  have hscales (l : List Nat) : PadRanges (l.flatMap fun o => scaleRange c p.wsc p.wscA p.wscS (n0 + o) i0 len) :=
    padRanges_flatMap fun _ => padRanges_scaleRange ..
  refine padRanges_ite (padRanges_flatMap fun i => ?col) (padRanges_ite (padRanges_flatMap fun o => ?dense) (padRanges_ite ?sb ?pb))
  case col => exact padRanges_append (padRanges_rowRange ..) (padRanges_ite (by simp) padRanges_nil)
  case dense => exact padRanges_denseRange ..
  case sb => exact padRanges_append (hscales _) (padRanges_flatMap fun _ => padRanges_sbRanges s _ (inPads_wEntry ..) (inPads_padAddr ..) _)
  case pb => exact padRanges_append (hscales _) (padRanges_map fun _ => inPads_padAddr ..)

theorem padRanges_statReads (s : State) (c : CoreId) (p : Prod) (q : MPos) (strip : Nat) : PadRanges (statReads s c p q strip) :=
  padRanges_ite (padRanges_xReads ..) (padRanges_wReads ..)

theorem padRanges_tileReads (s : State) (c : CoreId) (p : Prod) (q : MPos) : PadRanges (tileReads s c p q) :=
  padRanges_ite (padRanges_wReads ..) (padRanges_xReads ..)

theorem padRanges_partReads (c : CoreId) (p : Prod) (q : MPos) : PadRanges (partReads c p q) :=
  padRanges_ite (padRanges_map fun _ => inPads_padAddr ..) padRanges_nil

/-! What the feeder reads depends on the scratchpads alone. -/

section Feeder
variable {s u : State} (h : SamePads s u)
include h

theorem SamePads.memBytes_padAddr (c : CoreId) (a : Int) (n : Nat) : Machine.memBytes u (padAddr c a) n = Machine.memBytes s (padAddr c a) n :=
  h.memBytes (inPads_padAddr ..) n

theorem SamePads.memPoison_padAddr (c : CoreId) (a : Int) (n : Nat) : Machine.memPoison u (padAddr c a) n = Machine.memPoison s (padAddr c a) n :=
  h.memPoison (inPads_padAddr ..) n

theorem SamePads.memNat_padAddr (c : CoreId) (a : Int) (n : Nat) : Machine.memNat u (padAddr c a) n = Machine.memNat s (padAddr c a) n :=
  h.memNat (inPads_padAddr ..) n

theorem SamePads.rowCodes (c : CoreId) (w : Nat) (a : Int) (i0 n : Nat) : rowCodes u c w a i0 n = rowCodes s c w a i0 n := by
  simp only [Machine.rowCodes, h.memBytes_padAddr, h.memPoison_padAddr]

theorem SamePads.rowScales (c : CoreId) (on : Bool) (a : Int) (stride line i0 n : Nat) :
    rowScales u c on a stride line i0 n = rowScales s c on a stride line i0 n := by
  simp only [Machine.rowScales, h.memBytes_padAddr, h.memPoison_padAddr]

theorem SamePads.denseRow (c : CoreId) (f : NumFmt) (a : Int) (stride row : Nat) (sc : Bool) (sa : Int) (ss i0 n : Nat) :
    denseRow u c f a stride row sc sa ss i0 n = denseRow s c f a stride row sc sa ss i0 n := by
  simp only [Machine.denseRow, h.rowCodes, h.rowScales]

theorem SamePads.readCode (w : Nat) {a : Nat} (ha : InPads a) (i : Nat) : readCode u w a i = readCode s w a i := by
  simp only [Machine.readCode, h.memNat (ha.add _), h.memPoison (ha.add _)]

theorem SamePads.sbBlock (w : Nat) {ea base : Nat} (hea : InPads ea) (hbase : InPads base) (ext rows cols br bc : Nat) :
    sbBlock u w ea base ext rows cols br bc = sbBlock s w ea base ext rows cols br bc := by
  simp only [Machine.sbBlock, h.memNat hea, h.memPoison hea, h.memNat (hbase.add _), h.memPoison (hbase.add _),
    h.readCode w (hbase.add _), h.readCode w ((hbase.add _).add _)]

theorem SamePads.pbGroupAt (w : Nat) {a : Nat} (ha : InPads a) (cols g : Nat) : pbGroupAt u w a cols g = pbGroupAt s w a cols g := by
  simp only [Machine.pbGroupAt, h.memNat ha, h.memPoison ha, h.readCode w (ha.add _)]

theorem SamePads.wBlk (c : CoreId) (p : Prod) (br bc : Nat) : wBlk u c p br bc = wBlk s c p br bc :=
  h.sbBlock _ (inPads_wEntry ..) (inPads_padAddr ..) ..

theorem SamePads.wGrp (c : CoreId) (p : Prod) (n g : Nat) : wGrp u c p n g = wGrp s c p n g := h.pbGroupAt _ (inPads_padAddr ..) ..

theorem SamePads.xWin (c : CoreId) (p : Prod) (r0 n i0 len : Nat) : xWin u c p r0 n i0 len = xWin s c p r0 n i0 len := by
  simp only [Machine.xWin, h.denseRow]

theorem SamePads.wWin (c : CoreId) (p : Prod) (n0 cnt i0 len : Nat) : wWin u c p n0 cnt i0 len = wWin s c p n0 cnt i0 len := by
  simp only [Machine.wWin, h.denseRow, h.rowCodes, h.rowScales, h.memNat_padAddr, h.memPoison_padAddr, h.wBlk, h.wGrp]

theorem SamePads.statWin (c : CoreId) (p : Prod) (q : MPos) (strip : Nat) : statWin u c p q strip = statWin s c p q strip := by
  simp only [Machine.statWin, h.xWin, h.wWin]

theorem SamePads.contentBads (c : CoreId) (p : Prod) (q : MPos) (need : List (Nat × Nat)) :
    contentBads u c p q need = contentBads s c p q need := by
  simp only [Machine.contentBads, h.statWin]

theorem SamePads.loadPart (c : CoreId) (p : Prod) (a j round : Nat) : loadPart u c p a j round = loadPart s c p a j round := by
  simp only [Machine.loadPart, h.memBytes_padAddr]
  refine List.map_congr_left fun i _ => ?_
  rw [h.unitPoison ((inPads_padAddr c _).unit _)]

theorem SamePads.accBefore (c : CoreId) (p : Prod) (r : MxeRun) (a : Nat) : accBefore u c p r a = accBefore s c p r a := by
  simp only [Machine.accBefore, h.loadPart]

end Feeder

end Sys2Proof.Machine

namespace Sys2Proof.Machine

/-! One tile step of MXE.WS, MXE.OS or MXE.IS that finds no case of R76 (R86, R89, R107). -/

theorem advance_zero (s : State) : advance s 0 = s := by simp [advance]

theorem advance_advance (s : State) (a b : Nat) : advance (advance s a) b = advance s (max a b) := by simp [advance, Nat.max_assoc]

theorem countWait_else (s : State) (c : CoreId) (waited : Bool) :
    ∃ r a k, countWait s c waited = { s with regs := r, incAt := a, incs := k } := by
  cases waited with
  | false => exact ⟨_, _, _, rfl⟩
  | true => exact ⟨_, _, _, rfl⟩

theorem samePads_countWait (s : State) (c : CoreId) (waited : Bool) : SamePads s (countWait s c waited) := by
  obtain ⟨_, _, _, hwait⟩ := countWait_else s c waited
  rw [hwait]
  exact ⟨rfl, rfl⟩

@[simp] theorem countWait_ecc (s : State) (c : CoreId) (waited : Bool) : (countWait s c waited).ecc = s.ecc := by
  obtain ⟨_, _, _, hwait⟩ := countWait_else s c waited
  rw [hwait]

/-- What the content of all strips does not show, that of some of them does not. -/
theorem contentBads_filter {s : State} {c : CoreId} {p : Prod} {q : MPos} {need : List (Nat × Nat)} (on : Nat × Nat → Bool)
    (h : contentBads s c p q need = []) : contentBads s c p q (need.filter on) = [] := by
  unfold contentBads at *
  split
  · rfl
  · rename_i hform
    rw [if_neg hform] at h
    exact List.flatMap_eq_nil_iff.2 fun x hx => List.flatMap_eq_nil_iff.1 h x (List.mem_of_mem_filter hx)

/-- A load that finds nothing changes the stationary files and the gather window alone. -/
theorem loadAhead_clean {s : State} {c : CoreId} {p : Prod} {q : MPos} {check : Bool} (i : Inst) (r : MxeRun) (hecc : s.ecc = [])
    (hbads : check = true → contentBads s c p q (arrStrips p q.round) = []) :
    ∃ file win, loadAhead s c i p q check r = (s, { r with file := file, window := win }) := by
  have htouch (need : List (Nat × Nat)) : touchAll (need.foldl (fun s x => touchAll s (statReads s c p q x.2)) s) (tileReads s c p q) = s := by
    have hstat : need.foldl (fun s x => touchAll s (statReads s c p q x.2)) s = s :=
      still_foldl fun x _ => touchAll_inPads hecc (padRanges_statReads s c p q x.2)
    rw [hstat, touchAll_inPads hecc (padRanges_tileReads ..)]
  have hfeed (on : Nat × Nat → Bool) (r : MxeRun) :
      (if check then feedBads s c i p.strict (contentBads s c p q ((arrStrips p q.round).filter on)) r else (s, r)) = (s, r) := by
    split
    · rename_i hcheck
      rw [contentBads_filter on (hbads hcheck)]; rfl
    · rfl
  unfold loadAhead
  simp only [htouch, hfeed]
  split
  · exact ⟨_, _, rfl⟩
  · exact ⟨_, _, rfl⟩

/-- The run r0 is the run r with its first content loaded, if it was not, at an a-cycle not after its step; time has moved on from s to s1. -/
structure Fed (s s1 : State) (r r0 : MxeRun) : Prop where
  state : ∃ k, k ≤ runAt r0 ∧ s1 = advance s k
  run : r0 = { r with t := r0.t, file := r0.file, window := r0.window, blks := r0.blks, loaded := r0.loaded }

theorem Fed.refl (s : State) (r : MxeRun) : Fed s s r r := ⟨⟨0, Nat.zero_le _, (advance_zero s).symm⟩, rfl⟩

theorem Fed.advance {s s1 : State} {r r0 : MxeRun} (h : Fed s s1 r r0) : Machine.advance s1 (runAt r0) = Machine.advance s (runAt r0) := by
  obtain ⟨k, hk, rfl⟩ := h.state
  rw [advance_advance, Nat.max_eq_right hk]

theorem fed_firstLoad {s : State} {c : CoreId} {p : Prod} {r : MxeRun} (i : Inst) (hecc : s.ecc = [])
    (hbads : contentBads s c p (posOf r) (arrStrips p r.round) = []) : Fed s (firstLoad s c i p r).1 r (firstLoad s c i p r).2 := by
  have hload (t : Nat) := loadAhead_clean (s := advance s t) (c := c) (p := p) (q := posOf r) (check := true) i
    { r with t := r.t + startTime s c p } hecc fun _ => ((samePads_advance s t).contentBads ..).trans hbads
  obtain ⟨file, win, hl⟩ := hload (runAt { r with t := r.t + startTime s c p })
  have hfirst : firstLoad s c i p r = (advance s (runAt { r with t := r.t + startTime s c p }),
      { r with t := r.t + startTime s c p, file := file, window := win, loaded := true }) := by
    unfold firstLoad
    simp only
    rw [show posOf { r with t := r.t + startTime s c p } = posOf r from rfl, hl]
  rw [hfirst]
  exact ⟨⟨_, le_rfl, rfl⟩, rfl⟩

/-- The accumulators of every array after a tile step of the run r. -/
def stepAccs (s : State) (c : CoreId) (p : Prod) (r : MxeRun) : List (List AccEnt) :=
  (List.range p.arrs).map fun a => match stripOf p a r.round with
    | none => acc0
    | some _ => accTile p (winsOf p r a).1 (winsOf p r a).2 (accBefore s c p r a)

theorem nthD_map_range {α : Type} (f : Nat → α) (d : α) {a n : Nat} (h : a < n) : nthD ((List.range n).map f) a d = f a := by
  simp [nthD, h]

theorem nthD_stepAccs {s : State} {c : CoreId} {p : Prod} {r : MxeRun} {a b : Nat} (ha : a < p.arrs) (hb : stripOf p a r.round = some b) :
    nthD (stepAccs s c p r) a [] = accTile p (winsOf p r a).1 (winsOf p r a).2 (accBefore s c p r a) := by
  rw [stepAccs, nthD_map_range _ _ ha, hb]

theorem SamePads.stepAccs {s u : State} (h : SamePads s u) (c : CoreId) (p : Prod) (r : MxeRun) : stepAccs u c p r = stepAccs s c p r := by
  simp only [Machine.stepAccs, h.accBefore]

/-- The run after the K-steps of a tile step: at the next window tile of its pass, or past its end. -/
def afterTile (p : Prod) (r : MxeRun) : MxeRun := if r.wt + 1 = passTiles p r.pr then endPass p r else { r with wt := r.wt + 1 }

/-- The content of the step after the present one loaded (R107). -/
def feedNext (s : State) (c : CoreId) (i : Inst) (p : Prod) (r : MxeRun) : State × MxeRun :=
  match nextPos p (posOf r) with
  | some n => loadAhead s c i p n (n.tile == 0 || p.strict) r
  | none => (s, r)

/-- The K-steps of a run whose first content is loaded, and the load for the next step. -/
def tileWork (s : State) (c : CoreId) (i : Inst) (p : Prod) (r : MxeRun) : State × MxeRun :=
  let v := touchAll (countWait (advance s (runAt r)) c (r.wt == 0 && decide (r.t < bufFree r))) (partReads c p (posOf r))
  let n := feedNext v c i p r
  (n.1, afterTile p { n.2 with acc := stepAccs v c p r, plen := r.plen + stepTime v c p (posOf r) })

/-- The run's first content loaded, if it was not. -/
def feedFirst (s : State) (c : CoreId) (i : Inst) (p : Prod) (r : MxeRun) : State × MxeRun := if r.loaded then (s, r) else firstLoad s c i p r

theorem tileStep_eq (s : State) (c : CoreId) (i : Inst) (p : Prod) (r : MxeRun) : tileStep s c i p r =
    if r.stop.isNone && (feedFirst s c i p r).2.stop.isSome then feedFirst s c i p r
    else tileWork (feedFirst s c i p r).1 c i p (feedFirst s c i p r).2 := rfl

theorem fed_feedFirst {s : State} {c : CoreId} {p : Prod} {r : MxeRun} (i : Inst) (hecc : s.ecc = [])
    (hfirst : r.loaded = true ∨ contentBads s c p (posOf r) (arrStrips p r.round) = []) :
    Fed s (feedFirst s c i p r).1 r (feedFirst s c i p r).2 := by
  unfold feedFirst
  split
  · exact Fed.refl s r
  · rename_i hl
    exact fed_firstLoad i hecc (hfirst.resolve_left hl)

theorem feedNext_clean {s : State} {c : CoreId} {p : Prod} {r : MxeRun} (i : Inst) (hecc : s.ecc = [])
    (hnext : ∀ n, nextPos p (posOf r) = some n → contentBads s c p n (arrStrips p n.round) = []) :
    ∃ file win, feedNext s c i p r = (s, { r with file := file, window := win }) := by
  unfold feedNext
  split
  · rename_i n hn
    exact loadAhead_clean i r hecc fun _ => hnext n hn
  · exact ⟨r.file, r.window, rfl⟩

theorem tileStep_clean {s : State} {c : CoreId} {p : Prod} {r : MxeRun} (i : Inst) (hecc : s.ecc = []) (hstop : r.stop = none)
    (hfirst : r.loaded = true ∨ contentBads s c p (posOf r) (arrStrips p r.round) = [])
    (hnext : ∀ n, nextPos p (posOf r) = some n → contentBads s c p n (arrStrips p n.round) = []) :
    let r0 := (feedFirst s c i p r).2
    ∃ w file win plen, tileStep s c i p r =
      (countWait (advance s (runAt r0)) c w, afterTile p { r0 with file := file, window := win, acc := stepAccs s c p r0, plen := plen }) := by
  intro r0
  have hfed : Fed s (feedFirst s c i p r).1 r r0 := fed_feedFirst i hecc hfirst
  have hstop0 : r0.stop = none := by rw [hfed.run]; exact hstop
  have hpos : posOf r0 = posOf r := by rw [hfed.run]; rfl
  have hpads (w : Bool) : SamePads s (countWait (advance s (runAt r0)) c w) := (samePads_advance s _).trans (samePads_countWait ..)
  have heccw (w : Bool) : (countWait (advance s (runAt r0)) c w).ecc = [] := by rw [countWait_ecc]; exact hecc
  have hnextw (w : Bool) := feedNext_clean (c := c) (p := p) (r := r0) i (heccw w) fun n hn => ((hpads w).contentBads ..).trans (hnext n (hpos ▸ hn))
  obtain ⟨file, win, hload⟩ := hnextw (r0.wt == 0 && decide (r0.t < bufFree r0))
  rw [tileStep_eq, if_neg (by simp [show (feedFirst s c i p r).2.stop = none from hstop0])]
  simp only [tileWork, hfed.advance, touchAll_inPads (heccw _) (padRanges_partReads ..), (hpads _).stepAccs, r0, hload]
  exact ⟨_, file, win, _, rfl⟩

end Sys2Proof.Machine

namespace Sys2Proof.Machine

/-! MXE_TILE_STEP: the step, and the run put back into its instruction. -/

theorem mxeTile_eq {s : State} {c : CoreId} {id : Nat} {i : Inst} {r : MxeRun} (hi : instOf s c id = some i) (hp : i.prog = .mxe r)
    (hb : i.begun = true) (hf : i.finished = false) (ho : stepOpen r = true) :
    mxeTile s c id =
      let p := prodOf i r
      let x := if p.op = 0x48 then altStep s c i p r else tileStep s c i p r
      mxePut x.1 c i (cutStep x.2 r.ends) := by
  simp only [mxeTile, hi, hp, hb, hf, ho, Bool.not_true, Bool.or_self, Bool.false_eq_true, if_false]

/-- A run without a stop goes on. -/
theorem mxePut_none {s : State} {c : CoreId} {i : Inst} {r : MxeRun} (h : r.stop = none) : mxePut s c i r = putInst s c { i with prog := .mxe r } := by
  simp only [mxePut, h]

theorem cutStep_none {r : MxeRun} (h : r.stop = none) (begun : List PassEnd) : cutStep r begun = r := by simp [cutStep, h]

/-- The command has answered u, in which the core's one instruction runs on as r', time is at least t, and memory and the event log are as
before. -/
structure TileStepped (s u : State) (c : CoreId) (i : Inst) (t : Nat) (r' : MxeRun) : Prop where
  insts : (getCore u c).insts = [{ i with prog := .mxe r' }]
  memory : SameMemory s u
  now : u.now = max s.now t
  log : u.log = s.log

/-- What follows from a step that changes, beside the run, only the time and a count. -/
theorem exec_mxeTileStep {s : State} {c : CoreId} {id : Nat} {i : Inst} {r r' : MxeRun} {t : Nat} {w : Bool}
    (hi : instOf s c id = some i) (hp : i.prog = .mxe r) (hb : i.begun = true) (hf : i.finished = false) (ho : stepOpen r = true)
    (hc : StillCore s c) (hone : (getCore s c).insts = [i])
    (hstep : (if (prodOf i r).op = 0x48 then altStep s c i (prodOf i r) r else tileStep s c i (prodOf i r) r) =
      (countWait (advance s t) c w, r')) (hstop : r'.stop = none) :
    ∃ u, exec (.mxeTileStep c id) s = .next u ∧ TileStepped s u c i t r' := by
  obtain ⟨regs, incAt, incs, hwait⟩ := countWait_else (advance s t) c w
  have hcore (x : CoreId) : getCore (countWait (advance s t) c w) x = getCore s x := by rw [hwait]; rfl
  have hone' : (getCore (countWait (advance s t) c w) c).insts = [i] := by rw [hcore]; exact hone
  have htile : mxeTile s c id = putInst (countWait (advance s t) c w) c { i with prog := .mxe r' } := by
    rw [mxeTile_eq hi hp hb hf ho]
    simp only [hstep, cutStep_none hstop, mxePut_none hstop]
  have hsettle : settleCore (mxeTile s c id) c = mxeTile s c id := by
    rw [htile]
    exact settleCore_putInst (j := { i with prog := .mxe r' }) hone' rfl (fun e => by rw [getEng, hcore]; exact hc.modes e) hb (by simp)
  refine ⟨mxeTile s c id, congrArg Host.Outcome.next hsettle, ?_⟩
  rw [htile]
  refine ⟨by rw [getCore_putInst (j := { i with prog := .mxe r' }) hone' rfl], ?_, ?_, ?_⟩
  · rw [hwait]; constructor <;> rfl
  · rw [hwait]; rfl
  · rw [hwait]; rfl

/-! The run after a tile step of MXE.WS, MXE.OS or MXE.IS. -/

@[simp] theorem runTo_ends (r : MxeRun) (o : Option MPos) : (runTo r o).ends = r.ends := by cases o <;> rfl
@[simp] theorem runTo_iter (r : MxeRun) (o : Option MPos) : (runTo r o).iter = r.iter := by cases o <;> rfl
@[simp] theorem runTo_stop (r : MxeRun) (o : Option MPos) : (runTo r o).stop = r.stop := by cases o <;> rfl
@[simp] theorem posOf_runTo_some (r : MxeRun) (q : MPos) : posOf (runTo r (some q)) = q := rfl
@[simp] theorem runTo_none_lastRun (r : MxeRun) : (runTo r none).lastRun = true := rfl

@[simp] theorem afterTile_iter (p : Prod) (r : MxeRun) : (afterTile p r).iter = r.iter := by
  unfold afterTile endPass; split <;> simp [pushEnd]
@[simp] theorem afterTile_stop (p : Prod) (r : MxeRun) : (afterTile p r).stop = r.stop := by
  unfold afterTile endPass; split <;> simp [pushEnd]

/-- The last window tile of a pass range ends the pass with the accumulators. -/
theorem afterTile_last {p : Prod} {r : MxeRun} (h : r.wt + 1 = passTiles p r.pr) :
    (∃ e, (afterTile p r).ends = r.ends ++ [e] ∧ e.round = r.round ∧ e.pr = r.pr ∧ e.tile = r.tile ∧
      e.final = (p.drains && decide (r.pr + 1 = p.ranges)) ∧ e.acc = r.acc) ∧
    (∀ n, nextPos p (posOf r) = some n → posOf (afterTile p r) = n) ∧
    (nextPos p (posOf r) = none → (afterTile p r).lastRun = true) := by
  have hend : afterTile p r = endPass p r := if_pos h
  rw [hend]
  unfold endPass
  refine ⟨⟨_, by simp [pushEnd]; rfl, rfl, rfl, rfl, rfl, rfl⟩, fun n hn => ?_, fun hn => ?_⟩
  · rw [hn, posOf_runTo_some]
  · rw [hn, runTo_none_lastRun]

theorem afterTile_more {p : Prod} {r : MxeRun} (h : r.wt + 1 ≠ passTiles p r.pr) :
    afterTile p r = { r with wt := r.wt + 1 } := if_neg h

/-- The tile step of MXE.WS, MXE.OS and MXE.IS. -/
theorem tileStep_accumulates {s : State} {c : CoreId} {id : Nat} {i : Inst} {r : MxeRun}
    (hi : instOf s c id = some i) (hprog : i.prog = .mxe r) (hb : i.begun = true) (hf : i.finished = false) (ho : stepOpen r = true)
    (hstop : r.stop = none) (hc : StillCore s c) (hone : (getCore s c).insts = [i]) (hecc : s.ecc = []) :
    let p := prodOf i r
    let r0 := (feedFirst s c i p r).2
    p.op ≠ 0x48 → r.loaded = true ∨ contentBads s c p (posOf r) (arrStrips p r.round) = [] →
    (∀ n, nextPos p (posOf r) = some n → contentBads s c p n (arrStrips p n.round) = []) →
    ∃ u r1, exec (.mxeTileStep c id) s = .next u ∧ TileStepped s u c i (runAt r0) (afterTile p r1) ∧ posOf r1 = posOf r ∧ r1.ends = r.ends ∧
      r1.iter = r.iter ∧ ∀ a b, a < p.arrs → stripOf p a r.round = some b →
        nthD r1.acc a [] = accTile p (winsOf p r0 a).1 (winsOf p r0 a).2 (accBefore s c p r a) := by
  intro p r0 hop hfirst hnext
  have hrun : r0 = { r with t := r0.t, file := r0.file, window := r0.window, blks := r0.blks, loaded := r0.loaded } :=
    (fed_feedFirst i hecc hfirst).run
  obtain ⟨w, file, win, plen, hstep⟩ := tileStep_clean i hecc hstop hfirst hnext
  have hstep' := (if_neg hop : (if p.op = 0x48 then altStep s c i p r else tileStep s c i p r) = tileStep s c i p r).trans hstep
  obtain ⟨u, hexec, hu⟩ := exec_mxeTileStep hi hprog hb hf ho hc hone hstep' (by rw [afterTile_stop]; rw [show (feedFirst s c i p r).2 = _ from hrun]; exact hstop)
  refine ⟨u, _, hexec, hu, ?_, ?_, ?_, fun a b ha hab => ?_⟩
  · show posOf r0 = posOf r
    rw [hrun]; rfl
  · show r0.ends = r.ends
    rw [hrun]
  · show r0.iter = r.iter
    rw [hrun]
  · have hround : r0.round = r.round := by rw [hrun]
    have hbefore : accBefore s c p r0 a = accBefore s c p r a := by rw [hrun]; rfl
    rw [← hbefore]
    exact nthD_stepAccs ha (hround ▸ hab)

end Sys2Proof.Machine

namespace Sys2Proof.Machine

/-! What MXE.ALT reads lies in the scratchpads (R120, R124, R126, R129, R135), and its work depends on them alone. -/

theorem padRanges_altBlkReads (s : State) (c : CoreId) (p : Prod) (bc : Nat) (b : ABlk) : PadRanges (altBlkReads s c p bc b) := by
  refine padRanges_append (padRanges_append (padRanges_ite ?sb (padRanges_flatMap fun r => padRanges_ite ?pb ?dense))
    (padRanges_flatMap fun r => padRanges_scaleRange ..)) (padRanges_ite ?mask padRanges_nil)
  case sb => exact padRanges_sbRanges s _ (inPads_wEntry ..) (inPads_padAddr ..) _
  case pb => exact padRanges_cons.2 ⟨inPads_padAddr .., padRanges_nil⟩
  case dense => exact padRanges_rowRange ..
  case mask => exact padRanges_cons.2 ⟨inPads_padAddr .., padRanges_nil⟩

theorem padRanges_altReads (c : CoreId) (p : Prod) (r : MxeRun) : PadRanges (altReads c p r) := by
  refine padRanges_flatMap fun a => ?_
  split
  · exact padRanges_nil
  · exact padRanges_ite padRanges_nil
      (padRanges_flatMap fun q => padRanges_append (padRanges_denseRange ..) (padRanges_denseRange ..))

theorem padRanges_altOwn (c : CoreId) (p : Prod) (r : MxeRun) (a : Nat) : PadRanges (altOwn c p r a) := by
  unfold altOwn
  split
  · exact padRanges_nil
  · exact padRanges_append (padRanges_ite (padRanges_flatMap fun b => padRanges_map fun i => inPads_padAddr ..) padRanges_nil)
      (padRanges_ite (padRanges_cons.2 ⟨inPads_padAddr .., padRanges_nil⟩) padRanges_nil)

theorem segTouch_of_ecc_nil {s : State} (hecc : s.ecc = []) (c : CoreId) (p : Prod) (round wt sg : Nat) : segTouch s c p round wt sg = s := by
  refine still_foldl fun a _ => ?_
  split
  · rfl
  · exact touchAll_inPads hecc (padRanges_flatMap fun b => padRanges_altBlkReads ..)

section Alt
variable {s u : State} (h : SamePads s u)
include h

theorem SamePads.blkScales (c : CoreId) (p : Prod) (br bc : Nat) : blkScales u c p br bc = blkScales s c p br bc := by
  simp only [Machine.blkScales, h.rowScales]

theorem SamePads.blkMask (c : CoreId) (p : Prod) (dense : Bool) (br bc : Nat) : blkMask u c p dense br bc = blkMask s c p dense br bc := by
  simp only [Machine.blkMask, mskAddr, h.memNat_padAddr, h.memPoison_padAddr]

theorem SamePads.altBlk (c : CoreId) (p : Prod) (br bc : Nat) : altBlk u c p br bc = altBlk s c p br bc := by
  simp only [Machine.altBlk, h.wBlk, h.wGrp, h.rowCodes, h.blkScales, h.blkMask, h.memNat_padAddr, h.memNat (inPads_wEntry ..)]

theorem SamePads.altBlocks (c : CoreId) (p : Prod) (a round wt : Nat) : altBlocks u c p a round wt = altBlocks s c p a round wt := by
  simp only [Machine.altBlocks, h.altBlk]

theorem SamePads.altSegs (c : CoreId) (p : Prod) (a round wt : Nat) : altSegs u c p a round wt = altSegs s c p a round wt := by
  simp only [Machine.altSegs, h.altBlocks]

theorem SamePads.segOf (c : CoreId) (p : Prod) (a round wt sg : Nat) : segOf u c p a round wt sg = segOf s c p a round wt sg := by
  simp only [Machine.segOf, h.altSegs]

theorem SamePads.maxSegs (c : CoreId) (p : Prod) (round wt : Nat) : maxSegs u c p round wt = maxSegs s c p round wt := by
  simp only [Machine.maxSegs, h.altSegs]

theorem SamePads.segBads (c : CoreId) (p : Prod) (round wt sg : Nat) : segBads u c p round wt sg = segBads s c p round wt sg := by
  simp only [Machine.segBads, h.segOf]

theorem SamePads.nextSeg (c : CoreId) (p : Prod) (round wt sg : Nat) : nextSeg u c p round wt sg = nextSeg s c p round wt sg := by
  simp only [Machine.nextSeg, h.maxSegs]

theorem SamePads.lastSeg (c : CoreId) (p : Prod) (round wt sg : Nat) : lastSeg u c p round wt sg = lastSeg s c p round wt sg := by
  simp only [Machine.lastSeg, h.maxSegs]

theorem SamePads.segBytes (c : CoreId) (p : Prod) (a round wt sg : Nat) : segBytes u c p a round wt sg = segBytes s c p a round wt sg := by
  simp only [Machine.segBytes, h.segOf]

theorem SamePads.altTimes (c : CoreId) (p : Prod) (round wt sg j : Nat) : altTimes u c p round wt sg j = altTimes s c p round wt sg j := by
  simp only [Machine.altTimes, h.segOf, h.nextSeg, h.segBytes]

theorem SamePads.segMax (c : CoreId) (p : Prod) (round wt sg : Nat) : segMax u c p round wt sg = segMax s c p round wt sg := by
  simp only [Machine.segMax, h.segOf]

theorem SamePads.altClock (c : CoreId) (p : Prod) (r : MxeRun) : altClock u c p r = altClock s c p r := by
  simp only [Machine.altClock, h.altTimes, h.segMax]

theorem SamePads.dyRow (c : CoreId) (p : Prod) (m lo hi : Nat) : dyRow u c p m lo hi = dyRow s c p m lo hi := by
  simp only [Machine.dyRow, h.denseRow]

theorem SamePads.xRow (c : CoreId) (p : Prod) (m bc : Nat) : xRow u c p m bc = xRow s c p m bc := by
  simp only [Machine.xRow, h.denseRow]

theorem SamePads.dxPhase (c : CoreId) (p : Prod) (bc j : Nat) (blks : List ABlk) (acc : List AccEnt) :
    dxPhase u c p bc j blks acc = dxPhase s c p bc j blks acc := by
  simp only [Machine.dxPhase, h.dyRow, h.xRow]

theorem SamePads.dwPhase (c : CoreId) (p : Prod) (bc j : Nat) (blks : List ABlk) (dw : List AccEnt) :
    dwPhase u c p bc j blks dw = dwPhase s c p bc j blks dw := by
  simp only [Machine.dwPhase, h.dyRow, h.xRow]

theorem SamePads.dwStart (c : CoreId) (p : Prod) (bc : Nat) (blks : List ABlk) : dwStart u c p bc blks = dwStart s c p bc blks := by
  simp only [Machine.dwStart, h.memNat_padAddr, h.memPoison_padAddr]

theorem SamePads.altAccs (c : CoreId) (p : Prod) (r : MxeRun) (a : Nat) : altAccs u c p r a = altAccs s c p r a := by
  simp only [Machine.altAccs, h.loadPart, h.dxPhase, h.dwPhase, h.dwStart]

end Alt

/-! One alt step that finds no case of R76 (R107, R123). -/

/-- The run's first segment loaded, if it was not. -/
def altFeedFirst (s : State) (c : CoreId) (i : Inst) (p : Prod) (r : MxeRun) : State × MxeRun := if r.loaded then (s, r) else altFirst s c i p r

/-- The run after the dX phase of its row tile: the pass has ended, with the dW accumulators of the step. -/
def altEnd (s : State) (c : CoreId) (p : Prod) (r : MxeRun) : MxeRun :=
  let out := (List.range p.arrs).map (altAccs s c p r)
  let k := altClock s c p r
  pushEnd { r with acc := out.map Prod.fst, dw := out.map Prod.snd, t := k.2.1 } (p.drains && lastSeg s c p r.round r.pr r.seg) k.1

/-- The row tile after the present one, or the next segment loaded for after the dW drain (R122). -/
def altNext (s : State) (c : CoreId) (i : Inst) (p : Prod) (r : MxeRun) : State × MxeRun :=
  if r.tile + 1 < p.tiles then (s, { r with tile := r.tile + 1 })
  else
    match nextSeg s c p r.round r.pr r.seg with
    | some n =>
      let s := segTouch s c p n.1 n.2.1 n.2.2
      feedBads s c i p.strict (segBads s c p n.1 n.2.1 n.2.2) { r with dwEnd := true, nblks := segLoad s c p n.1 n.2.1 n.2.2 }
    | none => (s, { r with dwEnd := true })

/-- The alt step of a run whose first segment is loaded. -/
def altWork (s : State) (c : CoreId) (i : Inst) (p : Prod) (r : MxeRun) : State × MxeRun :=
  let s := advance s (runAt r)
  let s := (List.range p.arrs).foldl (fun s a => touchAll s (altOwn c p r a)) (touchAll s (altReads c p r))
  let out := (List.range p.arrs).map (altAccs s c p r)
  let k := altClock s c p r
  let v := countWait (advance s (r.start + k.1)) c k.2.2
  altNext v c i p (pushEnd { r with acc := out.map Prod.fst, dw := out.map Prod.snd, t := k.2.1 } (p.drains && lastSeg v c p r.round r.pr r.seg) k.1)

theorem altStep_eq (s : State) (c : CoreId) (i : Inst) (p : Prod) (r : MxeRun) : altStep s c i p r =
    if r.stop.isNone && (altFeedFirst s c i p r).2.stop.isSome then altFeedFirst s c i p r
    else altWork (altFeedFirst s c i p r).1 c i p (altFeedFirst s c i p r).2 := rfl

theorem fed_altFeedFirst {s : State} {c : CoreId} {p : Prod} {r : MxeRun} (i : Inst) (hecc : s.ecc = [])
    (hfirst : r.loaded = true ∨ segBads s c p r.round r.pr r.seg = []) :
    Fed s (altFeedFirst s c i p r).1 r (altFeedFirst s c i p r).2 := by
  unfold altFeedFirst
  split
  · exact Fed.refl s r
  · rename_i hl
    have hbads (t : Nat) : segBads (advance s t) c p r.round r.pr r.seg = [] :=
      ((samePads_advance s t).segBads ..).trans (hfirst.resolve_left hl)
    have htouch (t : Nat) : segTouch (advance s t) c p r.round r.pr r.seg = advance s t :=
      segTouch_of_ecc_nil (s := advance s t) hecc ..
    simp only [altFirst, htouch, hbads, feedBads]
    exact ⟨⟨_, le_rfl, rfl⟩, rfl⟩

/-- The run of an ended alt step at the next row tile, or with its dW drain due. -/
def altAfter (p : Prod) (r : MxeRun) (nblks : List (List ABlk)) : MxeRun :=
  if r.tile + 1 < p.tiles then { r with tile := r.tile + 1 } else { r with dwEnd := true, nblks := nblks }

theorem altAfter_more {p : Prod} {r : MxeRun} (h : r.tile + 1 < p.tiles) (nblks : List (List ABlk)) :
    altAfter p r nblks = { r with tile := r.tile + 1 } := if_pos h
theorem altAfter_last {p : Prod} {r : MxeRun} (h : p.tiles ≤ r.tile + 1) (nblks : List (List ABlk)) :
    altAfter p r nblks = { r with dwEnd := true, nblks := nblks } := if_neg (Nat.not_lt.2 h)
@[simp] theorem altAfter_ends (p : Prod) (r : MxeRun) (nblks : List (List ABlk)) : (altAfter p r nblks).ends = r.ends := by
  unfold altAfter; split <;> rfl
@[simp] theorem altAfter_iter (p : Prod) (r : MxeRun) (nblks : List (List ABlk)) : (altAfter p r nblks).iter = r.iter := by
  unfold altAfter; split <;> rfl
@[simp] theorem altAfter_dw (p : Prod) (r : MxeRun) (nblks : List (List ABlk)) : (altAfter p r nblks).dw = r.dw := by
  unfold altAfter; split <;> rfl
@[simp] theorem altAfter_stop (p : Prod) (r : MxeRun) (nblks : List (List ABlk)) : (altAfter p r nblks).stop = r.stop := by
  unfold altAfter; split <;> rfl

theorem altNext_clean {s : State} {c : CoreId} {p : Prod} {r : MxeRun} (i : Inst) (hecc : s.ecc = [])
    (hnext : ∀ n, nextSeg s c p r.round r.pr r.seg = some n → segBads s c p n.1 n.2.1 n.2.2 = []) :
    ∃ nblks, altNext s c i p r = (s, altAfter p r nblks) := by
  unfold altNext
  by_cases hmore : r.tile + 1 < p.tiles
  · exact ⟨r.nblks, by rw [if_pos hmore, altAfter_more hmore]⟩
  · simp only [if_neg hmore, altAfter_last (Nat.not_lt.1 hmore)]
    split
    · rename_i n hn
      simp only [segTouch_of_ecc_nil hecc, hnext n hn, feedBads]
      exact ⟨_, rfl⟩
    · exact ⟨r.nblks, rfl⟩

theorem altStep_clean {s : State} {c : CoreId} {p : Prod} {r : MxeRun} (i : Inst) (hecc : s.ecc = []) (hstop : r.stop = none)
    (hfirst : r.loaded = true ∨ segBads s c p r.round r.pr r.seg = [])
    (hnext : ∀ n, nextSeg s c p r.round r.pr r.seg = some n → segBads s c p n.1 n.2.1 n.2.2 = []) :
    let r0 := (altFeedFirst s c i p r).2
    ∃ w nblks, altStep s c i p r =
      (countWait (advance s (max (runAt r0) (r0.start + (altClock s c p r0).1))) c w, altAfter p (altEnd s c p r0) nblks) := by
  intro r0
  have hfed : Fed s (altFeedFirst s c i p r).1 r r0 := fed_altFeedFirst i hecc hfirst
  have hstop0 : r0.stop = none := by rw [hfed.run]; exact hstop
  have hseg : nextSeg s c p r0.round r0.pr r0.seg = nextSeg s c p r.round r.pr r.seg := by rw [hfed.run]
  have hadv := samePads_advance s (runAt r0)
  have haccs : altAccs (advance s (runAt r0)) c p r0 = altAccs s c p r0 := funext fun a => hadv.altAccs c p r0 a
  have heccv : (advance s (runAt r0)).ecc = [] := hecc
  have hown : (List.range p.arrs).foldl (fun s a => touchAll s (altOwn c p r0 a)) (advance s (runAt r0)) = advance s (runAt r0) :=
    still_foldl fun a _ => touchAll_inPads heccv (padRanges_altOwn c p r0 a)
  set v := countWait (advance s (max (runAt r0) (r0.start + (altClock s c p r0).1))) c (altClock s c p r0).2.2 with hv
  have hpads : SamePads s v := (samePads_advance s _).trans (samePads_countWait ..)
  obtain ⟨nblks, hn⟩ := altNext_clean (s := v) (c := c) (p := p) (r := altEnd s c p r0) i (by rw [hv, countWait_ecc]; exact hecc) fun n hn =>
    (hpads.segBads ..).trans (hnext n (hseg ▸ (hpads.nextSeg ..).symm.trans hn))
  have hwork : altWork (altFeedFirst s c i p r).1 c i p r0 = altNext v c i p (altEnd s c p r0) := by
    simp only [altWork, hfed.advance, touchAll_inPads heccv (padRanges_altReads ..), hown, advance_advance, haccs, hadv.altClock,
      ← hv, hpads.lastSeg]
    rfl
  refine ⟨(altClock s c p r0).2.2, nblks, ?_⟩
  rw [altStep_eq, if_neg (by simp [show (altFeedFirst s c i p r).2.stop = none from hstop0])]
  rw [show altWork _ c i p (altFeedFirst s c i p r).2 = _ from hwork, hn]

end Sys2Proof.Machine

namespace Sys2Proof.Machine

theorem feedFirst_run (s : State) (c : CoreId) (i : Inst) (p : Prod) (r : MxeRun) :
    (feedFirst s c i p r).2 = if r.loaded then r else (firstLoad s c i p r).2 := apply_ite Prod.snd ..

theorem altFeedFirst_run (s : State) (c : CoreId) (i : Inst) (p : Prod) (r : MxeRun) :
    (altFeedFirst s c i p r).2 = if r.loaded then r else (altFirst s c i p r).2 := apply_ite Prod.snd ..

/-- The alt step of MXE.ALT. -/
theorem altStep_accumulates {s : State} {c : CoreId} {id : Nat} {i : Inst} {r : MxeRun}
    (hi : instOf s c id = some i) (hprog : i.prog = .mxe r) (hb : i.begun = true) (hf : i.finished = false) (ho : stepOpen r = true)
    (hstop : r.stop = none) (hc : StillCore s c) (hone : (getCore s c).insts = [i]) (hecc : s.ecc = []) :
    let p := prodOf i r
    let r0 := (altFeedFirst s c i p r).2
    p.op = 0x48 → r.loaded = true ∨ segBads s c p r.round r.pr r.seg = [] →
    (∀ n, nextSeg s c p r.round r.pr r.seg = some n → segBads s c p n.1 n.2.1 n.2.2 = []) →
    Fed s (altFeedFirst s c i p r).1 r r0 ∧ ∃ u nblks, exec (.mxeTileStep c id) s = .next u ∧
      TileStepped s u c i (max (runAt r0) (r0.start + (altClock s c p r0).1))
        (altAfter p (altEnd s c p r0) nblks) := by
  intro p r0 hop hfirst hnext
  have hfed : Fed s (altFeedFirst s c i p r).1 r r0 := fed_altFeedFirst i hecc hfirst
  have hstop0 : r0.stop = none := by rw [hfed.run]; exact hstop
  obtain ⟨w, nblks, hstep⟩ := altStep_clean i hecc hstop hfirst hnext
  have hstep' := (if_pos hop : (if p.op = 0x48 then altStep s c i p r else tileStep s c i p r) = altStep s c i p r).trans hstep
  obtain ⟨u, hexec, hu⟩ := exec_mxeTileStep hi hprog hb hf ho hc hone hstep' ((altAfter_stop ..).trans hstop0)
  exact ⟨hfed, u, nblks, hexec, hu⟩

/-- The pass that an alt step ends, and its accumulators. -/
theorem altEnd_ends (s : State) (c : CoreId) (p : Prod) (r : MxeRun) :
    ∃ e, (altEnd s c p r).ends = r.ends ++ [e] ∧ e.round = r.round ∧ e.pr = r.pr ∧ e.seg = r.seg ∧ e.tile = r.tile ∧
      e.final = (p.drains && lastSeg s c p r.round r.pr r.seg) ∧ ∀ a, a < p.arrs → nthD e.acc a [] = (altAccs s c p r a).1 :=
  ⟨_, rfl, rfl, rfl, rfl, rfl, rfl, fun a ha => by simp [nthD, ha]⟩

theorem altEnd_dw (s : State) (c : CoreId) (p : Prod) (r : MxeRun) {a : Nat} (ha : a < p.arrs) :
    nthD (altEnd s c p r).dw a [] = (altAccs s c p r a).2 := by
  simp [nthD, altEnd, pushEnd, ha]

/-- Settles O24: the load before a step and the load for the next one find nothing and read scratchpads alone, so the step works on memory as it
stands. -/
theorem tileStepsAccumulate : Obligations.TileStepsAccumulate := by
  intro s c id i r hi hprog hb hf ho hstop hc hone hecc p q
  constructor
  · intro hop hfirst hnext r0 after
    obtain ⟨u, r1, hexec, hu, hpos, hends, hiter, hacc⟩ := tileStep_accumulates hi hprog hb hf ho hstop hc hone hecc hop hfirst hnext
    rw [feedFirst_run] at hu hacc
    refine ⟨u, afterTile p r1, hexec, hu.insts, (afterTile_iter p r1).trans hiter, hu.memory, hu.now, hu.log, ?_⟩
    obtain ⟨hround, hpr, htile, hwt⟩ : r1.round = r.round ∧ r1.pr = r.pr ∧ r1.tile = r.tile ∧ r1.wt = r.wt := by
      simpa [posOf] using hpos
    by_cases hlast : r.wt + 1 = passTiles p r.pr
    · obtain ⟨⟨e, he, heround, hepr, hetile, hefinal, heacc⟩, hgo, hdone⟩ := afterTile_last (p := p) (r := r1) (by rw [hwt, hpr]; exact hlast)
      rw [if_pos hlast]
      refine ⟨⟨e, by rw [he, hends], heround.trans hround, hepr.trans hpr, hetile.trans htile, by rw [hefinal, hpr], ?_⟩, ?_, ?_⟩
      · rw [heacc]; exact hacc
      · rw [hpos] at hgo; exact hgo
      · rw [hpos] at hdone; exact hdone
    · rw [if_neg hlast, afterTile_more (by rw [hwt, hpr]; exact hlast)]
      refine ⟨hends, ?_, hacc⟩
      simp [posOf, q, hround, hpr, htile, hwt]
  · intro hop hfirst hnext r0
    obtain ⟨hfed, u, nblks, hexec, hu⟩ := altStep_accumulates hi hprog hb hf ho hstop hc hone hecc hop hfirst hnext
    rw [altFeedFirst_run] at hfed hu
    have hrun : r0 = { r with t := r0.t, file := r0.file, window := r0.window, blks := r0.blks, loaded := r0.loaded } := hfed.run
    have hdw : r.dwEnd = false := by
      simp only [stepOpen, Bool.and_eq_true, Bool.not_eq_true'] at ho
      exact ho.1.2
    obtain ⟨hiter, hends, hround, hpr, hseg, htile, hdw0⟩ : r0.iter = r.iter ∧ r0.ends = r.ends ∧ r0.round = r.round ∧ r0.pr = r.pr ∧
        r0.seg = r.seg ∧ r0.tile = r.tile ∧ r0.dwEnd = r.dwEnd := by
      rw [hrun]; exact ⟨rfl, rfl, rfl, rfl, rfl, rfl, rfl⟩
    obtain ⟨e, he, heround, hepr, heseg, hetile, hefinal, heacc⟩ := altEnd_ends s c p r0
    rw [hends] at he
    rw [hround] at heround hefinal
    rw [hpr] at hepr hefinal
    rw [hseg] at heseg hefinal
    refine ⟨u, _, e, hexec, hu.insts, (altAfter_iter ..).trans hiter, hu.memory, hu.now.trans (Nat.max_assoc ..).symm, hu.log,
      (altAfter_ends ..).trans he, heround, hepr, heseg, hetile.trans htile, hefinal, fun a ha => ⟨heacc a ha, ?dw⟩, fun hmore => ?more, fun hlast => ?last⟩
    case dw => rw [altAfter_dw]; exact altEnd_dw s c p r0 ha
    case more =>
      rw [altAfter_more (r := altEnd s c p r0) (htile.symm ▸ hmore)]
      exact ⟨congrArg (· + 1) htile, hdw0.trans hdw⟩
    case last =>
      rw [altAfter_last (r := altEnd s c p r0) (htile.symm ▸ hlast)]
      exact ⟨htile, rfl⟩

end Sys2Proof.Machine

namespace Sys2Proof.Machine

/-! Drains leave the dispatched instructions and the engines of their core, and record no error in memory. -/

/-- No error is recorded in memory, and core c holds the instructions and the engines of k. -/
structure Working (c : CoreId) (k : Core) (s : State) : Prop where
  ecc : s.ecc = []
  insts : (getCore s c).insts = k.insts
  eng : (getCore s c).eng = k.eng

theorem working_self {s : State} (c : CoreId) (hecc : s.ecc = []) : Working c (getCore s c) s := ⟨hecc, rfl, rfl⟩

/-- Work done piece by piece keeps what each piece keeps. -/
theorem working_foldl {β : Type} {c : CoreId} {k : Core} {f : State → β → State} (hf : ∀ t b, Working c k t → Working c k (f t b)) (l : List β)
    {s : State} (h : Working c k s) : Working c k (l.foldl f s) :=
  List.foldlRecOn l f h fun t ht b _ => hf t b ht

theorem working_foldl_fst {α β : Type} {c : CoreId} {k : Core} {f : State × α → β → State × α}
    (hf : ∀ t b, Working c k t.1 → Working c k (f t b).1) (l : List β) {s : State × α} (h : Working c k s.1) : Working c k (l.foldl f s).1 :=
  List.foldlRecOn (motive := fun t => Working c k t.1) l f h fun t ht b _ => hf t b ht

section Memory
variable {c : CoreId} {k : Core} {s : State} (h : Working c k s)
include h

theorem Working.ite {t : State} {P : Prop} [Decidable P] (ht : Working c k t) : Working c k (if P then t else s) := by
  split <;> assumption

theorem Working.rput (r : Reg) (v : W64) : Working c k (rput s r v) := ⟨h.ecc, h.insts, h.eng⟩
theorem Working.rbump (r : Reg) (hi lo n : Nat) : Working c k (rbump s r hi lo n) := ⟨h.ecc, h.insts, h.eng⟩
theorem Working.advance (t : Nat) : Working c k (advance s t) := ⟨h.ecc, h.insts, h.eng⟩
theorem Working.logEv (cause cls slice unit sub inst : Nat) (detail : W64) : Working c k (logEv s cause cls slice unit sub inst detail) := by
  obtain ⟨l, hl⟩ := logEv_else s cause cls slice unit sub inst detail
  rw [hl]
  exact ⟨h.ecc, h.insts, h.eng⟩

/-- A core stored with the same instructions and engines. -/
theorem Working.putCore {j : Core} (hi : j.insts = (getCore s c).insts) (he : j.eng = (getCore s c).eng) : Working c k (putCore s c j) :=
  ⟨h.ecc, by rw [getCore_putCore, hi, h.insts], by rw [getCore_putCore, he, h.eng]⟩

theorem Working.setPoison (u : Nat) (p : Bool) : Working c k (setPoison s u p) := by
  unfold Machine.setPoison
  split <;> exact ⟨h.ecc, h.insts, h.eng⟩

theorem Working.tagRange (a n : Nat) : Working c k (tagRange s a n) := by
  unfold Machine.tagRange
  split
  · exact h
  · exact ⟨h.ecc, h.insts, h.eng⟩

/-- A code written afresh leaves no error, where there was none. -/
theorem Working.freshWords (key : Nat → Nat) (ks : List Nat) : Working c k (freshWords s key ks) := by
  refine ⟨?_, h.insts, h.eng⟩
  exact List.foldlRecOn (motive := fun t : Tab EccErr => t = []) ks _ h.ecc fun t ht n _ => by rw [ht]; rfl

theorem Working.dropLine (u : Nat) : Working c k (dropLine s u) :=
  ⟨by show tclear s.ecc _ _ = []; rw [h.ecc]; rfl, h.insts, h.eng⟩

theorem Working.drawFree : Working c k (drawFree s).1 := ⟨h.ecc, h.insts, h.eng⟩

/-- A read finds no error; of a retired page it counts a hit. -/
theorem Working.eccCheck (u : Nat) (ks : List Nat) : Working c k (eccCheck s u ks) := by
  unfold Machine.eccCheck
  split
  · exact h.rbump ..
  · simpa [eccFind_of_ecc_nil h.ecc] using h

theorem Working.lineCheck (u : Nat) : Working c k (lineCheck s u) := by
  unfold Machine.lineCheck
  split
  · simpa [eccFind_of_ecc_nil h.ecc] using h
  · exact h.eccCheck ..

theorem Working.evictLine (u : Nat) : Working c k (evictLine s u) := by
  unfold Machine.evictLine
  exact Working.dropLine (h.ite ((h.lineCheck u).freshWords ..)) u

theorem Working.evictWay (n : N20) (u more : Nat) : Working c k (evictWay s n u more) := by
  unfold Machine.evictWay
  split
  · exact h
  · dsimp only
    split
    · exact h
    · exact h.drawFree.evictLine _

theorem Working.takeLine (n : N20) (u : Nat) : Working c k (takeLine s n u) := by
  unfold Machine.takeLine
  split
  · exact h
  · have hway := h.evictWay n u 1
    exact ⟨by show tclear (Machine.evictWay s n u 1).ecc _ _ = []; rw [hway.ecc]; rfl, hway.insts, hway.eng⟩

theorem Working.touchUnit (u : Nat) : Working c k (touchUnit s u) := by
  have hcheck := h.eccCheck u words8
  unfold Machine.touchUnit
  dsimp only
  split
  · exact hcheck.ite (hcheck.takeLine ..)
  · exact hcheck

theorem Working.touchAll (rs : List (Nat × Nat)) : Working c k (touchAll s rs) := working_foldl (fun _ u ht => ht.touchUnit u) _ h

theorem Working.lineAfter (base : Bool) (n : N20) (u : Nat) (whole : Bool) (ks : List Nat) : Working c k (lineAfter base s n u whole ks) := by
  unfold Machine.lineAfter freshSector
  dsimp only
  split
  · split
    · exact (h.freshWords ..).freshWords ..
    · exact h.freshWords ..
  · split
    · have hline := (h.takeLine n u).freshWords (lineErr u) ks
      exact ⟨hline.ecc, hline.insts, hline.eng⟩
    · exact (h.ite (h.dropLine u)).freshWords ..

theorem Working.putMasked (base : Bool) (u : Nat) (ch : List ByteCh) (p : Bool) : Working c k (putMasked base s u ch p) := by
  have hp (q : Bool) : Working c k (Machine.setPoison s u q) := h.setPoison u q
  unfold Machine.putMasked
  dsimp only
  split
  · exact hp _
  · exact hp _
  · exact ⟨((hp _).freshWords ..).ecc, (hp _).insts, (hp _).eng⟩
  · apply Working.lineAfter
    exact ⟨(hp _).ecc, (hp _).insts, (hp _).eng⟩
  · exact ⟨((hp _).freshWords ..).ecc, (hp _).insts, (hp _).eng⟩

theorem Working.writeMaskedAs (base : Bool) (u : Nat) (ch : List ByteCh) (p : Bool) : Working c k (writeMaskedAs base s u ch p) := by
  unfold Machine.writeMaskedAs
  split
  · exact h
  · split
    · exact h.rbump ..
    · exact h
    · exact (h.eccCheck ..).putMasked ..

theorem Working.writeBytes (a : Nat) (bs : List Byte) (p : Nat → Bool) : Working c k (writeBytes s a bs p) := by
  unfold Machine.writeBytes
  split
  · exact h
  · exact working_foldl (fun _ _ ht => ht.writeMaskedAs ..) _ h

theorem Working.writeAll (a : Nat) (bs : List Byte) (p : Bool) : Working c k (writeAll s a bs p) := h.writeBytes ..

theorem Working.applyWrites (ws : List ByteW) : Working c k (applyWrites s ws) := working_foldl (fun _ _ ht => ht.writeMaskedAs ..) _ h

theorem Working.drawRng (n : N20) : Working c k (drawRng s n).1 := h.rput ..

end Memory

/-! Streams that take a tile, and selector contexts that take a candidate. -/

section Streams
variable {c : CoreId} {k : Core} {s : State} (h : Working c k s)
include h

theorem Working.putTask (st : Nat) (t : Option Task) : Working c k (putTask s c st t) := h.putCore rfl rfl

theorem Working.queueRecord (st inst iter : Nat) (e : Option (List Byte)) (status flags : Nat) (cnt : TaskCnt) (t issueAt : Nat) :
    Working c k (queueRecord s c st inst iter e status flags cnt t issueAt) := by
  unfold Machine.queueRecord
  split
  · exact h
  · exact h.putCore rfl rfl

theorem Working.abortTask (st : Nat) (t : Task) (status cls : Nat) (cnt : TaskCnt) (fin : Nat) :
    Working c k (abortTask s c st t status cls cnt fin) := by
  have htag : Working c k (tagExtents s c (taskDesc t) t.ext) := working_foldl (fun _ _ hx => hx.tagRange ..) _ h
  exact Working.queueRecord (Working.putTask (htag.logEv ..) ..) ..

theorem Working.countRun (st : Nat) (t : Task) (r : Run) (bytes : Nat) : Working c k (countRun s c st t r bytes).1 := by
  have hcounts := (((h.rbump (.eng c .dxe .stat) 47 32 r.trim).rbump (.eng c .dxe .stat) 31 16 r.dense).rbump (.eng c .dxe .stat) 15 8 r.mal).rbump
    (.eng c .dxe .stat) 7 0 r.oor
  unfold Machine.countRun
  cases r.trimAt <;> cases r.badAt
  · exact hcounts
  · exact hcounts.logEv ..
  · exact hcounts.logEv ..
  · exact (hcounts.logEv ..).logEv ..

theorem Working.handCount (st : Nat) (t : Task) (r : Run) : Working c k (handCount s c st t r).1 := by
  unfold Machine.handCount
  dsimp only
  exact (h.applyWrites r.ws).countRun ..

theorem Working.handReceive (st : Nat) (ents : List (Nat × Nat × AccEnt)) : Working c k (handReceive s c st ents).1 := by
  unfold Machine.handReceive
  split
  · exact h
  · lift_lets
    extract_lets d place ins _ q0 tiles its got ms bad s1 out rest t1 q1 s2
    have hmasks : Working c k s1 := Working.ite (h.touchAll ms) h
    have hwritten : Working c k s2 := (hmasks.handCount ..).putTask ..
    split
    · exact (h.handCount ..).putTask ..
    · split
      · exact hmasks.abortTask ..
      · split
        · exact hwritten.abortTask ..
        · split
          · exact hwritten.abortTask ..
          · exact hwritten

theorem Working.offerGrow (idx : Int) (q : Cand) (n : Nat) (ents : List (Nat × Option Nat)) : Working c k (offerGrow (s, n, ents) c idx q).1 := by
  unfold Machine.offerGrow
  split
  · exact h.rbump ..
  · exact h.putCore rfl rfl

theorem Working.tagStore (x : SelCtx) : Working c k (tagStore s c x) := by
  unfold Machine.tagStore
  split
  · exact h.tagRange ..
  · exact h

theorem Working.writeStore (x : SelCtx) (n : Option Nat) : Working c k (writeStore s c x n) := by
  unfold Machine.writeStore
  split
  · exact h.tagStore x
  · exact (h.writeAll ..).tagStore x

theorem Working.writeGrowStores (ents : List (Nat × Option Nat)) : Working c k (writeGrowStores s c ents) :=
  working_foldl (fun _ _ ht => ht.writeStore ..) _ h

theorem Working.passPoisoned : Working c k (passPoisoned s c) := h.rbump ..

theorem Working.drewWords (p : Prod) (d : PassEnd) (r : MxeRun) (arrs : List Nat) : Working c k (drewWords s c p d r arrs) := by
  unfold Machine.drewWords
  dsimp only
  split
  · exact h
  · exact h.putCore rfl rfl

end Streams

/-! The drain of a pass (R89, R97 to R106). -/

section Drain
variable {c : CoreId} {k : Core} {s : State} (h : Working c k s)
include h

theorem Working.storePart (p : Prod) (a j round : Nat) (acc : List AccEnt) : Working c k (storePart s c p a j round acc) := h.writeBytes ..

theorem Working.drainRnd (sround : Bool) : Working c k (drainRnd s c sround).1 := by
  unfold Machine.drainRnd
  split
  · exact h.drawRng _
  · exact h

theorem Working.drainWrite (p : Prod) (scale : HeldOut → Option (Byte × Bool)) (outs : List HeldOut) : Working c k (drainWrite s c p scale outs) := by
  unfold Machine.drainWrite
  split
  · exact h
  · refine Working.applyWrites ?_ _
    exact working_foldl_fst (α := Run) (fun t o ht => ht.drainRnd p.dr.sround) outs h

theorem Working.drainScaled (p : Prod) (held : List HeldOut) : Working c k (drainScaled s c p held) := by
  unfold Machine.drainScaled
  split
  · exact h
  · exact Working.drainWrite (working_foldl (fun _ _ ht => ht.writeAll ..) _ h) ..

end Drain

/-- The run is r, but for its held outputs, its row statistics and its stop. -/
def DrainedRun (r q : MxeRun) : Prop := ∃ held stats stop, q = { r with held := held, stats := stats, stop := stop }

theorem DrainedRun.refl (r : MxeRun) : DrainedRun r r := ⟨_, _, _, rfl⟩
theorem DrainedRun.withHeld {r q : MxeRun} (h : DrainedRun r q) (x : List (List HeldOut)) : DrainedRun r { q with held := x } := by
  obtain ⟨_, _, _, rfl⟩ := h; exact ⟨_, _, _, rfl⟩
theorem DrainedRun.withStats {r q : MxeRun} (h : DrainedRun r q) (x : List RowStat) : DrainedRun r { q with stats := x } := by
  obtain ⟨_, _, _, rfl⟩ := h; exact ⟨_, _, _, rfl⟩
theorem DrainedRun.withStop {r q : MxeRun} (h : DrainedRun r q) (x : Option (Status × Nat)) : DrainedRun r { q with stop := x } := by
  obtain ⟨_, _, _, rfl⟩ := h; exact ⟨_, _, _, rfl⟩

/-- A drain on the way: the core as it was, and the run r but for what a drain changes of it. -/
structure Draining (c : CoreId) (k : Core) (r : MxeRun) (x : State × MxeRun) : Prop where
  core : Working c k x.1
  run : DrainedRun r x.2

section DrainRun
variable {c : CoreId} {k : Core} {r : MxeRun} {s : State} {q : MxeRun} (h : Draining c k r (s, q))
include h

theorem Draining.drainStats (p : Prod) (a : Nat) (outs : List HeldOut) : Draining c k r (drainStats s c p a outs q) :=
  List.foldlRecOn (motive := Draining c k r) _ _ h fun _ ht _ _ => by
    constructor
    · dsimp only
      exact ht.core.writeAll ..
    · exact ht.run.withStats _

theorem Draining.drainArray (p : Prod) (d : PassEnd) (a : Nat) : Draining c k r (drainArray s c p d a q) := by
  unfold Machine.drainArray
  lift_lets
  extract_lets dr round tile acc idx s1 outs s2 st hand _ held
  have hread : Working c k s1 := h.core.touchAll _
  have hcount : Working c k s2 := hread.ite hread.passPoisoned
  have hstats : Draining c k r st := by
    have hs2 : Draining c k r (s2, q) := ⟨hcount, h.run⟩
    unfold st
    split
    · exact hs2.drainStats ..
    · exact hs2
  split
  · exact ⟨hstats.core.handReceive _ _, hstats.run.withStop _⟩
  · split
    · split
      · exact ⟨hstats.core.drainScaled _ _, hstats.run.withHeld _⟩
      · exact ⟨hstats.core, hstats.run.withHeld _⟩
    · constructor
      · exact hstats.core.drainWrite p (fun _ => none) outs
      · exact hstats.run

theorem Draining.drainPass (p : Prod) (d : PassEnd) (on : Nat → Bool) : Draining c k r (drainPass s c p d on q) := by
  refine List.foldlRecOn (motive := Draining c k r) _ _ h fun t ht a _ => ?_
  split
  · exact ht
  · dsimp only
    split
    · exact Draining.drainArray ⟨ht.core, ht.run⟩ ..
    · exact ⟨(ht.core.ite ht.core.passPoisoned).storePart .., ht.run⟩

end DrainRun

/-! The dW drain of a segment (R126, R135, R138). -/

section DwDrain
variable {c : CoreId} {k : Core} {s : State} (h : Working c k s)
include h

theorem Working.dwDrainArray (p : Prod) (bc : Nat) (blks : List ABlk) (dw : List AccEnt) : Working c k (dwDrainArray s c p bc blks dw).1 :=
  h.applyWrites _

theorem Working.dwDrain (p : Prod) (r : MxeRun) : Working c k (dwDrain s c p r).1 := by
  unfold Machine.dwDrain
  lift_lets
  extract_lets vmax s1 out fin s2 sel dt
  have hstored : Working c k out.1 := by
    refine working_foldl_fst (fun x a hx => ?_) _ (h.advance _)
    split
    · exact hx
    · dsimp only
      exact ((hx.ite hx.passPoisoned).touchAll _).dwDrainArray ..
  have hoffered : Working c k fin.1 := working_foldl_fst (fun x q hx => hx.offerGrow p.idx q _ _) _ hstored
  exact hoffered.writeGrowStores _

end DwDrain

end Sys2Proof.Machine

namespace Sys2Proof.Machine

/-! The run goes on after a drain (R87, R97, R111, R126). -/

/-- The run has not ended its iteration: a pass or a dW drain waits, or a further pass is to come. -/
theorem mxeGoOn_on {s : State} {c : CoreId} {i : Inst} {r : MxeRun} (hstop : r.stop = none)
    (h : r.ends ≠ [] ∨ r.lastRun = false ∨ r.dwEnd = true) : mxeGoOn s c i r = putInst s c { i with prog := .mxe r } := by
  have hon : (r.stop.isNone && r.lastRun && r.ends.isEmpty && !r.dwEnd) = false := by
    rcases h with h | h | h <;> simp [h]
  rw [mxeGoOn, hon, if_neg (by decide), mxePut_none hstop]

/-- The iteration has ended: its run starts anew at the next one, or the instruction has finished. -/
theorem mxeGoOn_iteration {s : State} {c : CoreId} {i : Inst} {r : MxeRun} (hecc : s.ecc = []) (hstop : r.stop = none)
    (hends : r.ends = []) (hlast : r.lastRun = true) (hdw : r.dwEnd = false) : mxeGoOn s c i r = putInst s c
      (if r.iter + 1 < loopCount i.loop then { i with prog := .mxe (mxeLoad s c i r (r.iter + 1)) }
       else { i with finished := true, doneAt := i.start + max (max r.fr0 r.fr1) r.wfree, prog := .mxe r }) := by
  have hdesc : PadRanges [mxeDesc c i (r.iter + 1)] := padRanges_cons.2 ⟨inPads_padAddr .., padRanges_nil⟩
  simp only [mxeGoOn, hstop, hends, hlast, hdw, mxeNextIter, touchAll_inPads hecc hdesc, Option.isNone_none, List.isEmpty_nil,
    Bool.not_false, Bool.and_self, if_true]
  split <;> rfl

/-- The one instruction of a core goes on, or has finished, at the end of its iteration (R159). -/
def IterationEnds (i : Inst) (r : MxeRun) (insts : List Inst) : Prop :=
  if r.iter + 1 < loopCount i.loop then ∃ r', insts = [{ i with prog := .mxe r' }] ∧ r'.iter = r.iter + 1 ∧ posOf r' = ⟨0, 0, 0, 0⟩
  else ∃ j, insts = [j] ∧ j.id = i.id ∧ j.finished = true

section GoOn
variable {s x : State} {c : CoreId} {i : Inst} (hw : Working c (getCore s c) x) (hc : StillCore s c) (hone : (getCore s c).insts = [i])
include hw hc hone

/-- A record stored at the end of a drain settles the core at once. -/
theorem Working.settle_putInst {j : Inst} (hid : j.id = i.id) (hb : j.begun = true) (hd : ∀ n, j.prog ≠ .dxe n) :
    settleCore (putInst x c j) c = putInst x c j ∧ (getCore (putInst x c j) c).insts = [j] := by
  have hi : (getCore x c).insts = [i] := hw.insts.trans hone
  have heng (e : EngId) : getEng x c e = getEng s c e := by rw [getEng, engGet, hw.eng]; rfl
  exact ⟨settleCore_putInst hi hid (fun e => heng e ▸ hc.modes e) hb hd, by rw [getCore_putInst hi hid]⟩

theorem Working.goOn {r : MxeRun} (hb : i.begun = true) (hstop : r.stop = none) :
    let u := settleCore (mxeGoOn x c i r) c
    u.mem = x.mem ∧ u.poison = x.poison ∧
    (r.ends ≠ [] ∨ r.lastRun = false ∨ r.dwEnd = true → (getCore u c).insts = [{ i with prog := .mxe r }]) ∧
    (r.ends = [] → r.lastRun = true → r.dwEnd = false → IterationEnds i r (getCore u c).insts) := by
  by_cases hend : r.ends = [] ∧ r.lastRun = true ∧ r.dwEnd = false
  · obtain ⟨hends, hlast, hdw⟩ := hend
    obtain ⟨j, hj, hid, hbegun, hprog, hiter⟩ : ∃ j, mxeGoOn x c i r = putInst x c j ∧ j.id = i.id ∧ j.begun = true ∧ (∀ n, j.prog ≠ .dxe n) ∧
        IterationEnds i r [j] := by
      refine ⟨_, mxeGoOn_iteration hw.ecc hstop hends hlast hdw, ?_⟩
      unfold IterationEnds
      split
      · exact ⟨rfl, hb, fun _ => nofun, _, rfl, rfl, rfl⟩
      · exact ⟨rfl, hb, fun _ => nofun, _, rfl, rfl, rfl⟩
    obtain ⟨hsettle, hinsts⟩ := hw.settle_putInst hc hone hid hbegun hprog
    rw [hj, hsettle]
    exact ⟨rfl, rfl, by simp [hends, hlast, hdw], fun _ _ _ => hinsts ▸ hiter⟩
  · have hon : r.ends ≠ [] ∨ r.lastRun = false ∨ r.dwEnd = true := by
      by_contra hno
      simp only [not_or, not_not, Bool.not_eq_false, Bool.not_eq_true] at hno
      exact hend hno
    obtain ⟨hsettle, hinsts⟩ := hw.settle_putInst hc hone (j := { i with prog := .mxe r }) rfl hb (fun _ => nofun)
    rw [mxeGoOn_on hstop hon, hsettle]
    exact ⟨rfl, rfl, fun _ => hinsts, fun h1 h2 h3 => absurd ⟨h1, h2, h3⟩ hend⟩

end GoOn

end Sys2Proof.Machine

namespace Sys2Proof.Machine

/-! MXE_PASS_DRAIN and ALT_DW_DRAIN. -/

@[simp] theorem freeBuf_ends (r : MxeRun) (even : Bool) (t : Nat) : (freeBuf r even t).ends = r.ends := by cases even <;> rfl
@[simp] theorem freeBuf_iter (r : MxeRun) (even : Bool) (t : Nat) : (freeBuf r even t).iter = r.iter := by cases even <;> rfl
@[simp] theorem freeBuf_stop (r : MxeRun) (even : Bool) (t : Nat) : (freeBuf r even t).stop = r.stop := by cases even <;> rfl
@[simp] theorem freeBuf_lastRun (r : MxeRun) (even : Bool) (t : Nat) : (freeBuf r even t).lastRun = r.lastRun := by cases even <;> rfl
@[simp] theorem freeBuf_dwEnd (r : MxeRun) (even : Bool) (t : Nat) : (freeBuf r even t).dwEnd = r.dwEnd := by cases even <;> rfl
@[simp] theorem posOf_freeBuf (r : MxeRun) (even : Bool) (t : Nat) : posOf (freeBuf r even t) = posOf r := by cases even <;> rfl
theorem freeBuf_free (r : MxeRun) (even : Bool) (t : Nat) : (if even then (freeBuf r even t).fr0 else (freeBuf r even t).fr1) = t := by
  cases even <;> rfl

/-- The state in which the drain of pass d writes: time at least at its end, its waits counted, and its generator words supplied (R104). -/
def drainFrom (s : State) (c : CoreId) (i : Inst) (r : MxeRun) (d : PassEnd) (others : DrainWait) : State :=
  let p := prodOf i r
  let v := advance s (i.start + d.fin)
  let n := ((genWaits v c p d r others.gen).filter fun x => x != 0).length
  drewWords (if n = 0 then v else rbump v (.eng c .mxe .stat) 15 0 n) c p d r (List.range p.arrs)

/-- The a-cycle from which the buffer of pass d is free after its drain (R102, R104, R111). -/
def drainFree (s : State) (c : CoreId) (i : Inst) (r : MxeRun) (d : PassEnd) (others : DrainWait) : Nat :=
  let p := prodOf i r
  d.fin + drainTime p d.final + drainWait p d (heldFor s i d) (genWaits (advance s (i.start + d.fin)) c p d r others.gen) others.buf

theorem mxeDrain_eq {s : State} {c : CoreId} {id : Nat} {i : Inst} {r : MxeRun} {d : PassEnd} {rest : List PassEnd} (others : DrainWait)
    (hi : instOf s c id = some i) (hp : i.prog = .mxe r) (hstop : r.stop = none) (hends : r.ends = d :: rest) :
    mxeDrain s c id others =
      let p := prodOf i r
      let x := drainPass (drainFrom s c i r d others) c p d (fun _ => true) r
      if bufWaits (advance s (i.start + d.fin)) c p d 0 then putInst (advance s (i.start + d.fin)) c { i with prog := .mxe (holdEnd r) }
      else mxeGoOn x.1 c i (freeBuf { x.2 with ends := rest } d.even (drainFree s c i r d others)) := by
  simp only [mxeDrain, hi, hp, hends, hstop, Option.isSome_none, Bool.false_eq_true, if_false]
  rfl

theorem working_drainFrom {s : State} (c : CoreId) (i : Inst) (r : MxeRun) (d : PassEnd) (others : DrainWait) (hecc : s.ecc = []) :
    Working c (getCore s c) (drainFrom s c i r d others) := by
  have hv := (working_self c hecc).advance (i.start + d.fin)
  unfold drainFrom
  dsimp only
  refine Working.drewWords ?_ ..
  split
  · exact hv
  · exact hv.rbump ..

/-- The run q after its dW drain: at the start of the next segment, whose blocks have been loaded, or without a further pass (R122). -/
def segTo (q : MxeRun) (blks : List (List ABlk)) : Option (Nat × Nat × Nat) → MxeRun
  | some n => { q with round := n.1, pr := n.2.1, seg := n.2.2, tile := 0, blks := blks }
  | none => { q with lastRun := true }

theorem segTo_stop (q : MxeRun) (blks : List (List ABlk)) (n : Option (Nat × Nat × Nat)) : (segTo q blks n).stop = q.stop := by cases n <;> rfl

theorem mxeDwDrain_eq {s : State} {c : CoreId} {id : Nat} {i : Inst} {r : MxeRun}
    (hi : instOf s c id = some i) (hp : i.prog = .mxe r) (hdw : r.dwEnd = true) :
    mxeDwDrain s c id =
      let x := dwDrain s c (prodOf i r) r
      mxeGoOn x.1 c i (segTo x.2 r.nblks (nextSeg x.1 c (prodOf i r) r.round r.pr r.seg)) := by
  simp only [mxeDwDrain, hi, hp, hdw, Bool.not_true, Bool.false_eq_true, if_false]
  rfl

/-- Settles O25: a drain leaves the dispatched instructions and the engines of the core and records no error, so what follows it is the run's own
move alone. -/
theorem passesDrain : Obligations.PassesDrain := by
  intro s c id i r hi hprog hb hf hstop hc hone hecc p goesOn ends
  constructor
  · intro d rest others hends v held waits n x
    have hdrain := mxeDrain_eq others hi hprog hstop hends
    have hx : Draining c (getCore s c) r x := Draining.drainPass ⟨working_drainFrom c i r d others hecc, DrainedRun.refl r⟩ p d _
    constructor
    · intro hheld
      have hv : Working c (getCore s c) v := (working_self c hecc).advance _
      obtain ⟨hsettle, hinsts⟩ := hv.settle_putInst hc hone (j := { i with prog := .mxe (holdEnd r) }) rfl hb (fun _ => nofun)
      have hput : mxeDrain s c id others = putInst v c { i with prog := .mxe (holdEnd r) } := hdrain.trans (if_pos hheld)
      refine ⟨putInst v c { i with prog := .mxe (holdEnd r) }, ?_, ⟨rfl, rfl, rfl, rfl, rfl, rfl⟩, hinsts⟩
      exact congrArg Host.Outcome.next ((congrArg (settleCore · c) hput).trans hsettle)
    · intro hheld hxstop
      set r1 := freeBuf { x.2 with ends := rest } d.even (drainFree s c i r d others) with hr1
      have hput : mxeDrain s c id others = mxeGoOn x.1 c i r1 := hdrain.trans (if_neg (ne_true_of_eq_false hheld))
      obtain ⟨hiter, hlast, hdw, hpos⟩ : r1.iter = r.iter ∧ r1.lastRun = r.lastRun ∧ r1.dwEnd = r.dwEnd ∧ posOf r1 = posOf r := by
        obtain ⟨held', stats, stop, hrun⟩ := hx.run
        simp only [hr1, hrun, freeBuf_iter, freeBuf_lastRun, freeBuf_dwEnd, posOf_freeBuf]
        exact ⟨trivial, trivial, trivial, rfl⟩
      have hrest : r1.ends = rest := freeBuf_ends ..
      obtain ⟨hmem, hpoison, hon, hend⟩ := hx.core.goOn hc hone (r := r1) hb ((freeBuf_stop ..).trans hxstop)
      rw [hrest, hlast, hdw] at hon hend
      refine ⟨_, congrArg (fun t => Host.Outcome.next (settleCore t c)) hput, hmem, hpoison, fun h => ?_, fun h1 h2 h3 => ?_⟩
      · exact ⟨r1, hon h, hrest, hpos, hiter, freeBuf_free ..⟩
      · simpa only [IterationEnds, hiter] using hend h1 h2 h3
  · intro hdw hlast x
    have hx : Working c (getCore s c) x.1 := (working_self c hecc).dwDrain p r
    have hdrain : mxeDwDrain s c id = mxeGoOn x.1 c i (segTo x.2 r.nblks (nextSeg x.1 c p r.round r.pr r.seg)) := mxeDwDrain_eq hi hprog hdw
    obtain ⟨hmem, hpoison, hon, hend⟩ := hx.goOn hc hone hb ((segTo_stop x.2 r.nblks (nextSeg x.1 c p r.round r.pr r.seg)).trans hstop)
    refine ⟨_, congrArg (fun t => Host.Outcome.next (settleCore t c)) hdrain, hmem, hpoison, fun q hq => ?_, fun hq hends => ?_⟩
    · rw [hq] at hon ⊢
      exact ⟨_, hon (.inr (.inl hlast)), rfl, rfl, rfl, rfl, rfl⟩
    · rw [hq] at hend ⊢
      exact hend hends rfl rfl

end Sys2Proof.Machine

namespace Sys2Proof.Machine

/-! The bits of a mask (R139). -/

/-- Subtracting from a number the bits that it shares with another clears them. -/
theorem testBit_sub_and (a b j : Nat) : (a - (a &&& b)).testBit j = (a.testBit j && !b.testBit j) := by
  have hhalf : (a &&& b) / 2 = a / 2 &&& b / 2 := Nat.and_div_two
  have hlow := Nat.and_mod_two_eq_one (a := a) (b := b)
  have hle : a &&& b ≤ a := Nat.and_le_left
  induction j generalizing a b with
  | zero =>
    have hsub : (a - (a &&& b)) % 2 = 1 ↔ a % 2 = 1 ∧ ¬b % 2 = 1 := by omega
    simp only [Nat.testBit_zero, hsub, Bool.decide_and, decide_not]
  | succ j ih =>
    have hsub : (a - (a &&& b)) / 2 = a / 2 - (a / 2 &&& b / 2) := by omega
    rw [Nat.testBit_succ, Nat.testBit_succ, Nat.testBit_succ, hsub]
    exact ih _ _ Nat.and_div_two Nat.and_mod_two_eq_one Nat.and_le_left

@[simp] theorem length_putBit (ws : List Nat) (x : Nat) (b : Bool) : (putBit ws x b).length = ws.length := List.length_set

/-- A position of the mask written is the only one to change. -/
theorem getBit_putBit {ws : List Nat} {x : Nat} (h : x / 64 < ws.length) (b : Bool) :
    getBit (putBit ws x b) = Function.update (getBit ws) x b := by
  funext y
  by_cases hw : y / 64 = x / 64
  · have hword : nthD (putBit ws x b) (y / 64) 0 =
        if b then nthD ws (x / 64) 0 ||| 2 ^ (x % 64) else nthD ws (x / 64) 0 - (nthD ws (x / 64) 0 &&& 2 ^ (x % 64)) := by
      simp [putBit, nthD, setNth, List.getD_eq_getElem?_getD, hw, h]
    have hpos : y = x ↔ x % 64 = y % 64 := by omega
    rw [getBit, hword]
    by_cases hx : y = x
    · cases b <;> simp [hx, testBit_sub_and]
    · cases b <;> simp [hx, hpos.not.1 hx, testBit_sub_and, getBit, hw]
  · have hx : y ≠ x := fun hxy => hw (congrArg (· / 64) hxy)
    have hword : nthD (putBit ws x b) (y / 64) 0 = nthD ws (y / 64) 0 := by
      simp [putBit, nthD, setNth, List.getD_eq_getElem?_getD, Ne.symm hw]
    rw [getBit, hword, Function.update_of_ne hx, getBit]

/-- Positions below n at which f is set. -/
def bitCount (n : Nat) (f : Nat → Bool) : Nat := ((List.range n).filter f).length

@[simp] theorem bitCount_false (n : Nat) : bitCount n (fun _ => false) = 0 := by simp [bitCount]

theorem bitCount_succ (n : Nat) (f : Nat → Bool) : bitCount (n + 1) f = bitCount n f + (f n).toNat := by
  cases hf : f n <;> simp [bitCount, List.range_succ, List.filter_append, hf]

/-- A position that is not counted may be written. -/
theorem bitCount_update_of_le {n x : Nat} (hx : n ≤ x) (f : Nat → Bool) (b : Bool) : bitCount n (Function.update f x b) = bitCount n f := by
  refine congrArg List.length (List.filter_congr fun y hy => Function.update_of_ne (fun hyx => ?_) ..)
  exact absurd (List.mem_range.1 hy) (by omega)

/-- A position set, where it was not, counts one more. -/
theorem bitCount_update {n x : Nat} {f : Nat → Bool} (hx : x < n) (hf : f x = false) :
    bitCount n (Function.update f x true) = bitCount n f + 1 := by
  induction n with
  | zero => omega
  | succ n ih =>
    rw [bitCount_succ, bitCount_succ]
    by_cases htop : n = x
    · rw [bitCount_update_of_le htop.le, htop, hf, Function.update_self]; rfl
    · rw [ih (by omega), Function.update_of_ne htop, Nat.add_right_comm]

theorem bitCount_mono {n : Nat} {f g : Nat → Bool} (h : ∀ y, f y = true → g y = true) : bitCount n f ≤ bitCount n g :=
  (List.monotone_filter_right _ h).length_le

/-- A position that stays clear counts for nothing; cleared, it leaves the count one lower. -/
theorem bitCount_clear {n x : Nat} {f : Nat → Bool} (hx : x < n) (hf : f x = true) :
    bitCount n (Function.update f x false) + 1 = bitCount n f := by
  have h := bitCount_update (f := Function.update f x false) hx (by simp)
  rw [Function.update_idem, ← hf, Function.update_eq_self] at h
  exact h.symm

/-- The positions set in a and not in b. -/
def lost (a b : Nat → Bool) (y : Nat) : Bool := a y && !b y

@[simp] theorem lost_eq_true {a b : Nat → Bool} {y : Nat} : lost a b y = true ↔ a y = true ∧ b y = false := by simp [lost]
@[simp] theorem lost_self (a : Nat → Bool) : lost a a = fun _ => false := by funext y; simp [lost]
/-- Between two masks the positions set differ by those lost and those gained. -/
theorem bitCount_add_lost (n : Nat) (a b : Nat → Bool) : bitCount n a + bitCount n (lost b a) = bitCount n b + bitCount n (lost a b) := by
  induction n with
  | zero => rfl
  | succ n ih =>
    simp only [bitCount_succ]
    have htop : (a n).toNat + (lost b a n).toNat = (b n).toNat + (lost a b n).toNat := by
      cases ha : a n <;> cases hb : b n <;> simp [lost, ha, hb]
    omega

/-- A position of a that b lacks is one more lost than without it. -/
theorem bitCount_lost_clear {n x : Nat} {a b : Nat → Bool} (hx : x < n) (ha : a x = true) (hb : b x = false) :
    bitCount n (lost a b) = bitCount n (lost (Function.update a x false) b) + 1 := by
  rw [← bitCount_clear (f := lost a b) hx (by simp [ha, hb])]
  refine congrArg (bitCount n · + 1) (funext fun y => ?_)
  by_cases hy : y = x
  · simp [hy, lost]
  · simp [hy, lost]

/-- A position of b that a lacks is one more gained than with it. -/
theorem bitCount_lost_set {n x : Nat} {a b : Nat → Bool} (hx : x < n) (ha : a x = false) (hb : b x = true) :
    bitCount n (lost b a) = bitCount n (lost b (Function.update a x true)) + 1 := by
  rw [← bitCount_clear (f := lost b a) hx (by simp [ha, hb])]
  refine congrArg (bitCount n · + 1) (funext fun y => ?_)
  by_cases hy : y = x
  · simp [hy, lost]
  · simp [hy, lost]

theorem position_lt {ws : List Nat} {x : Nat} (h : x / 64 < ws.length) : x < 64 * ws.length := by omega

/-! The loops of PRUNE and GROW, from a mask reached after n changes (R139). -/

/-- The loop of PRUNE over the list ps has turned the mask out, after n positions, into q. -/
structure Pruned (ps : List Nat) (k n : Nat) (out : List Nat) (q : List Nat × Nat) : Prop where
  most : n ≤ k → q.2 ≤ k
  none_set : ∀ y, getBit q.1 y = true → getBit out y = true
  listed : ∀ y, getBit out y = true → getBit q.1 y = false → y ∈ ps
  count : bitCount (64 * out.length) (lost (getBit out) (getBit q.1)) + n = q.2
  length : q.1.length = out.length

theorem Pruned.stop (ps : List Nat) (k n : Nat) (out : List Nat) : Pruned ps k n out (out, n) :=
  ⟨id, fun _ => id, fun _ h hn => absurd h (by simp [hn]), by simp, rfl⟩

theorem pruneLoop_pruned (ps : List Nat) (k n : Nat) (out : List Nat) (hps : ∀ x ∈ ps, x / 64 < out.length) :
    Pruned ps k n out (pruneLoop ps k out n) := by
  induction ps generalizing n out with
  | nil => exact .stop ..
  | cons x ps ih =>
    obtain ⟨hx, hps⟩ := List.forall_mem_cons.1 hps
    unfold pruneLoop
    split
    · exact .stop ..
    next hn =>
    split
    next hset =>
      obtain ⟨hmost, hnone, hlisted, hcount, hlength⟩ := ih (n + 1) (putBit out x false) (by simpa using hps)
      generalize pruneLoop ps k (putBit out x false) (n + 1) = q at *
      rw [getBit_putBit hx] at hnone hlisted hcount
      have hclear : getBit q.1 x = false := by
        by_contra hq
        simpa using hnone x (by simpa using hq)
      refine ⟨fun h => hmost (by omega), fun y hy => ?_, fun y hy hq => ?_, ?_, by simpa using hlength⟩
      · by_cases hyx : y = x
        · exact hyx ▸ hset
        · simpa [hyx] using hnone y hy
      · by_cases hyx : y = x
        · simp [hyx]
        · exact List.mem_cons_of_mem _ (hlisted y (by simpa [hyx] using hy) hq)
      · rw [bitCount_lost_clear (position_lt hx) hset hclear]
        simp only [length_putBit] at hcount
        omega
    · obtain ⟨hmost, hnone, hlisted, hcount, hlength⟩ := ih n out hps
      exact ⟨hmost, hnone, fun y hy hq => List.mem_cons_of_mem _ (hlisted y hy hq), hcount, hlength⟩

/-- A position that may grow is inactive and outside the freeze mask. -/
theorem eligible_free {pb : Bool} {frz out : List Nat} {x : Nat} (h : eligible pb frz out x = true) :
    getBit out x = false ∧ getBit frz x = false := by
  simp only [eligible, Bool.and_eq_true, Bool.not_eq_true'] at h
  exact h.1

/-- The loop of GROW over the list gs has turned the mask out, after n positions, into q. -/
structure Grown (frz gs : List Nat) (k n : Nat) (out : List Nat) (q : List Nat × Nat) : Prop where
  most : n ≤ k → q.2 ≤ k
  none_cleared : ∀ y, getBit out y = true → getBit q.1 y = true
  listed : ∀ y, getBit q.1 y = true → getBit out y = false → y ∈ gs ∧ getBit frz y = false
  count : bitCount (64 * out.length) (lost (getBit q.1) (getBit out)) + n = q.2
  length : q.1.length = out.length

theorem Grown.stop (frz gs : List Nat) (k n : Nat) (out : List Nat) : Grown frz gs k n out (out, n) :=
  ⟨id, fun _ => id, fun _ h hn => absurd h (by simp [hn]), by simp, rfl⟩

theorem growLoop_grown (pb : Bool) (frz gs : List Nat) (k n : Nat) (out : List Nat) (hgs : ∀ x ∈ gs, x / 64 < out.length) :
    Grown frz gs k n out (growLoop pb frz gs k out n) := by
  induction gs generalizing n out with
  | nil => exact .stop ..
  | cons x gs ih =>
    obtain ⟨hx, hgs⟩ := List.forall_mem_cons.1 hgs
    unfold growLoop
    split
    · exact .stop ..
    next hn =>
    split
    next hfree =>
      obtain ⟨hclear, hfrz⟩ := eligible_free hfree
      obtain ⟨hmost, hnone, hlisted, hcount, hlength⟩ := ih (n + 1) (putBit out x true) (by simpa using hgs)
      generalize growLoop pb frz gs k (putBit out x true) (n + 1) = q at *
      rw [getBit_putBit hx] at hnone hlisted hcount
      have hset : getBit q.1 x = true := hnone x (by simp)
      refine ⟨fun h => hmost (by omega), fun y hy => ?_, fun y hq hy => ?_, ?_, by simpa using hlength⟩
      · by_cases hyx : y = x
        · exact hyx ▸ hset
        · exact hnone y (by simpa [hyx] using hy)
      · by_cases hyx : y = x
        · simp [hyx, hfrz]
        · obtain ⟨hmem, hfree⟩ := hlisted y hq (by simpa [hyx] using hy)
          exact ⟨List.mem_cons_of_mem _ hmem, hfree⟩
      · rw [bitCount_lost_set (position_lt hx) hclear hset]
        simp only [length_putBit] at hcount
        omega
    · obtain ⟨hmost, hnone, hlisted, hcount, hlength⟩ := ih n out hgs
      exact ⟨hmost, hnone, fun y hq hy => (hlisted y hq hy).imp_left (List.mem_cons_of_mem _), hcount, hlength⟩

/-! The loop of SWAP (R140). -/

theorem nextEligible_some {pb : Bool} {frz out gs : List Nat} {q : Nat × List Nat} (h : nextEligible pb frz out gs = some q) :
    q.1 ∈ gs ∧ q.2 ⊆ gs ∧ eligible pb frz out q.1 = true := by
  induction gs with
  | nil => cases h
  | cons x gs ih =>
    unfold nextEligible at h
    split at h
    next hx =>
      cases h
      exact ⟨List.mem_cons_self, List.subset_cons_self .., hx⟩
    · obtain ⟨hmem, hsub, hfree⟩ := ih h
      exact ⟨List.mem_cons_of_mem _ hmem, List.subset_cons_of_subset _ hsub, hfree⟩

/-- The loop of SWAP over the lists ps and gs has turned the mask out, after n pairs, into q. -/
structure Swapped (frz ps gs : List Nat) (k n : Nat) (out : List Nat) (q : List Nat × Nat) : Prop where
  most : n ≤ k → q.2 ≤ k
  grown : ∀ y, getBit q.1 y = true → getBit out y = false → y ∈ gs ∧ getBit frz y = false
  cleared : ∀ y, getBit out y = true → getBit q.1 y = false → y ∈ ps
  length : q.1.length = out.length
  active : bitCount (64 * out.length) (getBit q.1) = bitCount (64 * out.length) (getBit out)
  pairs : bitCount (64 * out.length) (lost (getBit out) (getBit q.1)) + n ≤ q.2
  disjoint : (∀ x ∈ ps, x ∉ gs) → bitCount (64 * out.length) (lost (getBit out) (getBit q.1)) + n = q.2

theorem Swapped.stop (frz ps gs : List Nat) (k n : Nat) (out : List Nat) : Swapped frz ps gs k n out (out, n) :=
  ⟨id, fun _ h hn => absurd h (by simp [hn]), fun _ h hn => absurd h (by simp [hn]), rfl, rfl, by simp, by simp⟩

/-- An inactive entry of the first list is passed over. -/
theorem Swapped.skip {frz ps gs : List Nat} {k n : Nat} {out : List Nat} {q : List Nat × Nat} (p : Nat) (h : Swapped frz ps gs k n out q) :
    Swapped frz (p :: ps) gs k n out q where
  most := h.most
  grown := h.grown
  cleared y hy hq := List.mem_cons_of_mem _ (h.cleared y hy hq)
  length := h.length
  active := h.active
  pairs := h.pairs
  disjoint hd := h.disjoint fun x hx => hd x (List.mem_cons_of_mem _ hx)

/-- A pair: p is cleared, and x, which the second list names, grows in its place; it may be p itself. -/
theorem Swapped.pair {frz ps gs gs' : List Nat} {k n p x : Nat} {out : List Nat} {q : List Nat × Nat}
    (hp : p / 64 < out.length) (hx : x / 64 < out.length) (hset : getBit out p = true) (hclear : getBit (putBit out p false) x = false)
    (hfrz : getBit frz x = false) (hmem : x ∈ gs) (hsub : gs' ⊆ gs) (hn : n ≠ k)
    (h : Swapped frz ps gs' k (n + 1) (putBit (putBit out p false) x true) q) : Swapped frz (p :: ps) gs k n out q := by
  obtain ⟨hmost, hgrown, hcleared, hlength, hactive, hpairs, hdisjoint⟩ := h
  simp only [length_putBit] at hlength hactive hpairs hdisjoint
  have hpos : p < 64 * out.length := position_lt hp
  rw [getBit_putBit (by simpa using hx), getBit_putBit hp] at hgrown hcleared hactive hpairs hdisjoint
  rw [getBit_putBit hp] at hclear
  set one := Function.update (getBit out) p false with hone
  refine ⟨fun h => hmost (by omega), fun y hq hy => ?grown, fun y hy hq => ?cleared, hlength, ?active, ?pairs, fun hd => ?disjoint⟩
  case grown =>
    by_cases hyx : y = x
    · exact hyx ▸ ⟨hmem, hfrz⟩
    · refine (hgrown y hq ?_).imp_left (hsub ·)
      rw [Function.update_of_ne hyx, hone]
      by_cases hyp : y = p <;> simp [hyp, hy]
  case cleared =>
    by_cases hyp : y = p
    · exact hyp ▸ List.mem_cons_self
    · refine List.mem_cons_of_mem _ (hcleared y ?_ hq)
      by_cases hyx : y = x <;> simp [hone, hyx, hyp, hy]
  case active => rw [hactive, bitCount_update (position_lt hx) hclear, hone, bitCount_clear hpos hset]
  case pairs =>
    have hone_le : bitCount (64 * out.length) (lost (getBit out) (getBit q.1)) ≤ bitCount (64 * out.length) (lost one (getBit q.1)) + 1 := by
      cases hqp : getBit q.1 p with
      | false => rw [bitCount_lost_clear hpos hset hqp]
      | true =>
        refine (bitCount_mono fun y hy => ?_).trans (Nat.le_succ _)
        have hyp : y ≠ p := fun h => by simp [h, hqp] at hy
        simpa [hone, hyp] using hy
    have hone_two : bitCount (64 * out.length) (lost one (getBit q.1)) ≤
        bitCount (64 * out.length) (lost (Function.update one x true) (getBit q.1)) := by
      refine bitCount_mono fun y hy => ?_
      by_cases hyx : y = x
      · simp [hyx, hclear] at hy
      · simpa [hyx] using hy
    omega
  case disjoint =>
    obtain ⟨hpgs, hd⟩ := List.forall_mem_cons.1 hd
    have hpx : p ≠ x := fun h => hpgs (h ▸ hmem)
    have hqp : getBit q.1 p = false := by
      by_contra hqp
      exact hpgs (hsub (hgrown p (by simpa using hqp) (by simp [hone, hpx])).1)
    have hqx : getBit q.1 x = true := by
      by_contra hqx
      exact hd x (hcleared x (by simp) (by simpa using hqx)) hmem
    have htwo : lost one (getBit q.1) = lost (Function.update one x true) (getBit q.1) := by
      funext y
      by_cases hyx : y = x <;> simp [lost, hyx, hqx]
    have hrest := hdisjoint fun y hy hgs => hd y hy (hsub hgs)
    rw [bitCount_lost_clear hpos hset hqp, ← hone, htwo]
    omega

theorem swapLoop_swapped (pb : Bool) (frz ps gs : List Nat) (k n : Nat) (out : List Nat) (hps : ∀ x ∈ ps, x / 64 < out.length)
    (hgs : ∀ x ∈ gs, x / 64 < out.length) : Swapped frz ps gs k n out (swapLoop pb frz ps gs k out n) := by
  induction ps generalizing gs n out with
  | nil => exact .stop ..
  | cons p ps ih =>
    obtain ⟨hp, hps⟩ := List.forall_mem_cons.1 hps
    unfold swapLoop
    split
    · exact .stop ..
    next hn =>
    split
    · exact (ih gs n out hps hgs).skip p
    next hset =>
    split
    · exact .stop ..
    next x hx =>
      obtain ⟨hmem, hsub, hfree⟩ := nextEligible_some hx
      obtain ⟨hclear, hfrz⟩ := eligible_free hfree
      exact .pair hp (hgs _ hmem) (by simpa using hset) hclear hfrz hmem hsub hn
        (ih x.2 (n + 1) _ (by simpa using hps) fun y hy => by simpa using hgs y (hsub hy))

/-- Settles O28: each loop is followed from the mask that it has reached, so one step changes the counts by the one or two positions that it writes. -/
theorem moultLoopsKeepTheCountAndRespectTheMasks : Obligations.MoultLoopsKeepTheCountAndRespectTheMasks := by
  refine ⟨fun ps k ws hps => ?_, fun pb frz gs k ws hgs => ?_, fun pb frz ps gs k ws hps hgs => ?_⟩
  · obtain ⟨hmost, hnone, hlisted, hcount, hlength⟩ := pruneLoop_pruned ps k 0 ws hps
    exact ⟨hmost k.zero_le, hnone, hlisted, hcount, hlength⟩
  · obtain ⟨hmost, hnone, hlisted, hcount, hlength⟩ := growLoop_grown pb frz gs k 0 ws hgs
    exact ⟨hmost k.zero_le, hnone, hlisted, hcount, hlength⟩
  · obtain ⟨hmost, hgrown, hcleared, hlength, hactive, hpairs, hdisjoint⟩ := swapLoop_swapped pb frz ps gs k 0 ws hps hgs
    refine ⟨hmost k.zero_le, hgrown, hcleared, hlength, hactive, hpairs, fun hd => ⟨hdisjoint hd, ?_⟩⟩
    have hsum := bitCount_add_lost (64 * ws.length) (getBit ws) (getBit (swapLoop pb frz ps gs k ws 0).1)
    rw [hactive, Nat.add_left_cancel_iff] at hsum
    exact hsum.trans (hdisjoint hd)

end Sys2Proof.Machine

namespace Sys2Proof.Machine

/-! Writes into the scratchpads where no error is recorded (R246): they change memory and its poison tags alone. -/

/-- Nothing differs but the bytes of memory and the poison tags. -/
structure PadWrites (s u : State) : Prop where
  rest : u = { s with mem := u.mem, poison := u.poison, syncp := u.syncp }

theorem PadWrites.refl (s : State) : PadWrites s s := ⟨rfl⟩
theorem PadWrites.trans {s t u : State} (h : PadWrites s t) (k : PadWrites t u) : PadWrites s u := ⟨k.rest.trans (by rw [h.rest])⟩
theorem PadWrites.ecc {s u : State} (h : PadWrites s u) : u.ecc = s.ecc := by rw [h.rest]
theorem PadWrites.core {s u : State} (h : PadWrites s u) (c : CoreId) : getCore u c = getCore s c := by rw [h.rest]; rfl

theorem padWrites_setPoison (s : State) (u : Nat) (p : Bool) : PadWrites s (setPoison s u p) := by
  unfold setPoison
  split <;> exact ⟨rfl⟩

theorem padWrites_tagRange (s : State) (a n : Nat) : PadWrites s (tagRange s a n) := by
  unfold tagRange
  split <;> exact ⟨rfl⟩

/-- Writes made one after the other, each from a state in which no error is recorded. -/
theorem padWrites_foldl {β : Type} {f : State → β → State} (hf : ∀ t b, t.ecc = [] → PadWrites t (f t b)) (l : List β) {s : State}
    (hecc : s.ecc = []) : PadWrites s (l.foldl f s) :=
  List.foldlRecOn (motive := PadWrites s) l f (.refl s) fun t ht b _ => ht.trans (hf t b (ht.ecc.trans hecc))

theorem eccCheck_inPads {s : State} (hecc : s.ecc = []) {u : Nat} (hu : InPads (64 * u)) (ks : List Nat) : eccCheck s u ks = s := by
  rcases homeOf_inPads hu with ⟨c, o, hh⟩ | hh <;> simp [eccCheck, hh, eccFind_of_ecc_nil hecc]

/-- A code written afresh leaves the table of errors empty. -/
theorem freshWords_of_ecc_nil {s : State} (hecc : s.ecc = []) (key : Nat → Nat) (ks : List Nat) : freshWords s key ks = s := by
  have hnone : ks.foldl (fun t k => tset t .none (key k) .none) s.ecc = s.ecc :=
    List.foldlRecOn (motive := fun t => t = s.ecc) ks _ rfl fun t ht n _ => by rw [ht, hecc]; rfl
  rw [freshWords, hnone]

theorem padWrites_putMasked {s : State} (hecc : s.ecc = []) {u : Nat} (hu : InPads (64 * u)) (base : Bool) (ch : List ByteCh) (p : Bool) :
    PadWrites s (putMasked base s u ch p) := by
  have htag (q : Bool) : PadWrites s (setPoison s u q) := padWrites_setPoison ..
  have hfresh (q : Bool) (ks : List Nat) : freshWords (setPoison s u q) (fun k => 8 * u + k) ks = setPoison s u q :=
    freshWords_of_ecc_nil ((htag q).ecc.trans hecc) ..
  rcases homeOf_inPads hu with ⟨c, o, hh⟩ | hh
  · simp only [putMasked, hh, hfresh]
    exact (htag _).trans ⟨rfl⟩
  · simp only [putMasked, hh]
    exact htag _

theorem padWrites_writeMasked {s : State} (hecc : s.ecc = []) {u : Nat} (hu : InPads (64 * u)) (ch : List ByteCh) (p : Bool) :
    PadWrites s (writeMasked s u ch p) := by
  have hput := padWrites_putMasked hecc hu false ch p
  unfold writeMasked writeMaskedAs
  split
  · exact .refl s
  · rcases homeOf_inPads hu with ⟨c, o, hh⟩ | hh
    · simp only [hh, eccCheck_inPads hecc hu]
      exact hput
    · simp only [hh]
      exact .refl s

theorem padWrites_writeBytes {s : State} (hecc : s.ecc = []) {a : Nat} (ha : InPads a) (bs : List Byte) (p : Nat → Bool) :
    PadWrites s (writeBytes s a bs p) := by
  unfold writeBytes
  split
  · exact .refl s
  · exact padWrites_foldl (fun t i ht => padWrites_writeMasked ht (ha.unit i) ..) _ hecc

theorem padWrites_writeAll {s : State} (hecc : s.ecc = []) {a : Nat} (ha : InPads a) (bs : List Byte) (p : Bool) :
    PadWrites s (writeAll s a bs p) := padWrites_writeBytes hecc ha ..

/-! What the moult operations write (R138, R139, R141, R142). -/

theorem padWrites_tagStore (s : State) (c : CoreId) (x : SelCtx) : PadWrites s (tagStore s c x) := by
  unfold tagStore
  split
  · exact padWrites_tagRange ..
  · exact .refl s

theorem padWrites_writeStore {s : State} (hecc : s.ecc = []) (c : CoreId) (x : SelCtx) (n : Option Nat) : PadWrites s (writeStore s c x n) := by
  cases n with
  | none => exact padWrites_tagStore ..
  | some n => exact (padWrites_writeAll hecc (inPads_padAddr ..) ..).trans (padWrites_tagStore ..)

theorem padWrites_moultMerge {s : State} (hecc : s.ecc = []) (c : CoreId) (d : LoopDesc) (w : W128) (limit : Nat) :
    PadWrites s (moultMerge s c d w limit) :=
  padWrites_foldl (fun _ _ ht => padWrites_writeBytes ht (inPads_padAddr ..) ..) _ hecc

/-- Nothing differs but the bytes of memory, the poison tags and the selector contexts of core c. -/
structure SelectorWrites (c : CoreId) (s u : State) : Prop where
  rest : u = { s with mem := u.mem, poison := u.poison, syncp := u.syncp, cores := u.cores }
  core : getCore u c = { getCore s c with ctx := (getCore u c).ctx }
  others : ∀ x : CoreId, x ≠ c → getCore u x = getCore s x

section Selector
variable {c : CoreId} {s u : State} (h : SelectorWrites c s u)
include h

theorem SelectorWrites.units : SameUnits s u := by rw [h.rest]; constructor <;> rfl
theorem SelectorWrites.now : u.now = s.now := by rw [h.rest]

end Selector

theorem PadWrites.selectorWrites {s u : State} (h : PadWrites s u) (c : CoreId) : SelectorWrites c s u where
  rest := by rw [h.rest]
  core := by rw [h.core]
  others x _ := h.core x

theorem selectorWrites_moultScan {s : State} (hecc : s.ecc = []) (c : CoreId) (d : LoopDesc) (w : W128) (e : Option Nat) :
    SelectorWrites c s (moultScan s c d w e).1 := by
  obtain ⟨x, n, hscan⟩ : ∃ x n, (moultScan s c d w e).1 = writeStore (putCtx s c (lC w) x) c x n := ⟨_, _, rfl⟩
  have hstore : PadWrites (putCtx s c (lC w) x) (writeStore (putCtx s c (lC w) x) c x n) := padWrites_writeStore (s := putCtx s c (lC w) x) hecc ..
  rw [hscan]
  exact {
    rest := by rw [hstore.rest]; rfl
    core := by rw [hstore.core, putCtx, getCore_putCore]
    others := fun y hy => by rw [hstore.core, putCtx, getCore_putCore_ne _ _ hy] }

end Sys2Proof.Machine

namespace Sys2Proof.Machine

/-! PRUNE, GROW and SWAP whose inputs carry no poison (R139, R140, R142). -/

/-- The freeze mask that the operation reads; PRUNE reads none. -/
def applyFreeze (s : State) (c : CoreId) (w : W128) : List (Nat × Bool) :=
  if opc w = 0x42 then [] else maskWords s c (lFrz w) (ctxOf s c (lCp w)).blocks

/-- Does some input carry poison (R143)? -/
def applyRefused (s : State) (c : CoreId) (w : W128) : Bool :=
  (ctxOf s c (lCp w)).poison || (ctxOf s c (lCg w)).poison || (maskWords s c (lIn w) (ctxOf s c (lCp w)).blocks).any Prod.snd ||
    (applyFreeze s c w).any Prod.snd

/-- The new mask and its count. -/
def applyLoop (s : State) (c : CoreId) (w : W128) : List Nat × Nat :=
  let words := (maskWords s c (lIn w) (ctxOf s c (lCp w)).blocks).map Prod.fst
  let frz := (applyFreeze s c w).map Prod.fst
  let pe := (ctxOf s c (lCp w)).entries.map Prod.fst
  let ge := (ctxOf s c (lCg w)).entries.map Prod.fst
  if opc w = 0x42 then pruneLoop pe (lK w) words 0
  else if opc w = 0x43 then growLoop (lPb w) frz ge (lK w) words 0
  else swapLoop (lPb w) frz pe ge (lK w) words 0

/-- The SHORT flag of the record of an operation that made n changes. -/
def shortFlag (w : W128) (n : Nat) : Nat := if n < lK w then 2 else 0

/-- The state with the new mask of q written, then the moult record of what was pruned and grown. -/
def applyWritten (s : State) (c : CoreId) (w : W128) (q : List Nat × Nat) (pruned grown : Nat) : State :=
  writeAll (writeAll s (padAddr c (lOut w)) (q.1.flatMap fun v => leBytes 8 v) false) (padAddr c (lRec w))
    (moultRecord pruned grown (lK w) (shortFlag w q.2)) false

/-- Entries of the contexts that the operation reads. -/
def applyEntries (s : State) (c : CoreId) (w : W128) : Nat :=
  (ctxOf s c (lCp w)).entries.length + (if lSwap w then (ctxOf s c (lCg w)).entries.length else 0)

theorem mleRun_apply {s : State} {c : CoreId} {i : Inst} {o : Nat} (ho : opc i.w = o) (hop : o = 0x42 ∨ o = 0x43 ∨ o = 0x44)
    (hclean : applyRefused s c i.w = false) :
    mleRun s c i =
      let q := applyLoop s c i.w
      (applyWritten s c i.w q (if o = 0x43 then 0 else q.2) (if o = 0x42 then 0 else q.2), 16 + ceilDiv (applyEntries s c i.w) 4,
        shortFlag i.w q.2) := by
  extract_lets q
  subst ho
  have happly : moultApply s c i =
      (applyWritten s c i.w q (if opc i.w = 0x43 then 0 else q.2) (if opc i.w = 0x42 then 0 else q.2), shortFlag i.w q.2) :=
    if_neg (ne_true_of_eq_false hclean)
  obtain ⟨hselect, hscan, hmerge⟩ : opc i.w ≠ 0x40 ∧ opc i.w ≠ 0x41 ∧ ¬(opc i.w = 0x45 ∨ opc i.w = 0x46) := by omega
  simp only [mleRun, hselect, hscan, hmerge, if_false, happly]
  rfl

theorem padWrites_applyWritten {s : State} (hecc : s.ecc = []) (c : CoreId) (w : W128) (q : List Nat × Nat) (pruned grown : Nat) :
    PadWrites s (applyWritten s c w q pruned grown) := by
  have hmask := padWrites_writeAll hecc (inPads_padAddr c (lOut w)) (q.1.flatMap fun v => leBytes 8 v) false
  exact hmask.trans (padWrites_writeAll (hmask.ecc.trans hecc) (inPads_padAddr ..) ..)

/-! The core as an operation finds it at its beginning. -/

/-- In m, memory, the registers and the contexts of core c are those of s. -/
structure MoultFound (s m : State) (c : CoreId) : Prop where
  memory : SameMemory s m
  ctx : (getCore m c).ctx = (getCore s c).ctx
  regs : m.regs = s.regs
  cached : m.cached = s.cached

section Found
variable {s m : State} {c : CoreId} (h : MoultFound s m c)
include h

theorem MoultFound.ctxOf (j : Nat) : ctxOf m c j = ctxOf s c j := by rw [Machine.ctxOf, h.ctx]; rfl

theorem MoultFound.maskWords (a n : Nat) : maskWords m c a n = maskWords s c a n := by
  have hpads : SamePads s m := ⟨h.memory.mem, h.memory.poison⟩
  simp only [Machine.maskWords, hpads.memNat_padAddr, hpads.memPoison_padAddr]

theorem MoultFound.applyFreeze (w : W128) : applyFreeze m c w = applyFreeze s c w := by
  simp only [Machine.applyFreeze, h.ctxOf, h.maskWords]

theorem MoultFound.applyRefused (w : W128) : applyRefused m c w = applyRefused s c w := by
  simp only [Machine.applyRefused, h.ctxOf, h.maskWords, h.applyFreeze]

theorem MoultFound.applyLoop (w : W128) : applyLoop m c w = applyLoop s c w := by
  simp only [Machine.applyLoop, h.ctxOf, h.maskWords, h.applyFreeze]

theorem MoultFound.applyEntries (w : W128) : applyEntries m c w = applyEntries s c w := by
  simp only [Machine.applyEntries, h.ctxOf]

end Found

end Sys2Proof.Machine

namespace Sys2Proof.Machine

/-! A moult instruction begins (R144, R163, R216). -/

theorem padRanges_mleReads (s : State) (c : CoreId) (d : LoopDesc) (w : W128) : PadRanges (mleReads s c d w) := by
  have hone (a : Int) (n : Nat) : PadRanges [(padAddr c a, n)] := padRanges_cons.2 ⟨inPads_padAddr .., padRanges_nil⟩
  refine padRanges_ite padRanges_nil (padRanges_ite (padRanges_flatMap fun j => ?tiles) ?stores)
  case tiles => simp
  case stores =>
    refine padRanges_append (padRanges_append (padRanges_append (hone ..) (padRanges_ite padRanges_nil (hone ..))) (hone ..)) ?_
    exact padRanges_ite (hone ..) padRanges_nil

/-- The state in which the operation of record i runs: what it will write is kept for an abort (R144). -/
def moultEntry (s : State) (c : CoreId) (i : Inst) : State := putCore s c { getCore s c with undo := mleSnap s c i.loop i.w }

/-- The record of a moult operation begun at t that takes dur a-cycles. -/
def moultDone (i : Inst) (t dur flags : Nat) : Inst :=
  { i with begun := true, start := t, doneAt := t + dur, prog := .mle flags, finished := true }

theorem beginMle_eq {s : State} (hecc : s.ecc = []) (c : CoreId) (i : Inst) (t : Nat) :
    beginMle s c i t =
      let r := mleRun (moultEntry s c i) c i
      (r.1, moultDone i t r.2.1 r.2.2) := by
  unfold beginMle
  rw [touchAll_inPads hecc (padRanges_mleReads ..)]
  rfl

/-- Only the vector and scalar engines check for late reads, so no moult instruction drains its engine by them (R170). -/
theorem lateHalt_mle (s : State) (c : CoreId) (n : Nat) (g : Engine) : lateHalt s c .mle n g = g :=
  if_neg fun h => absurd (show (0 : Nat) = 2 from h.1) (by decide)

theorem beginInst_mle {s : State} {c : CoreId} {i : Inst} {r : State × Nat × Nat} (t : Nat) (he : i.eng = .mle) (ho : opc i.w ≠ 0x04)
    (hecc : s.ecc = []) (hr : mleRun (moultEntry s c i) c i = r) :
    let v := putInst r.1 c (moultDone i t r.2.1 r.2.2)
    beginInst s c i t = putEng v c .mle (begunEng (getEng v c .mle) i.id (t + r.2.1) t 1 none) := by
  intro v
  have hwork : beginWork s c i t = (v, t + r.2.1, none) := by
    simp only [beginWork, ho, he, if_false, beginMle_eq hecc, hr]
    rfl
  simp only [beginInst, hwork, he, lateHalt_mle, dropBranch]
  exact if_neg fun h => nomatch h.1

/-- Where only the time and the cores differ, memory and the other units are as before. -/
theorem same_of_cores {s u : State} {t : Nat} (h : u = { s with now := t, cores := u.cores }) :
    SameMemory s u ∧ SameUnits s u ∧ u.regs = s.regs ∧ u.cached = s.cached ∧ u.now = t := by
  rw [h]
  exact ⟨by constructor <;> rfl, by constructor <;> rfl, rfl, rfl, rfl⟩

/-- What a moult operation leaves beside its results, as it begins at t for dur a-cycles: m is the core as it finds it, its one record is
finished, and the engine is past it. -/
structure MoultBegun (s : State) (c : CoreId) (w : W128) (t : Nat) (d : LoopDesc) (g : Engine) (u m : State) (dur flags : Nat) : Prop where
  found : MoultFound s m c
  now : u.now = t
  units : SameUnits s u
  pc : (getEng u c .mle).pc = g.pc + 1
  next : (getEng u c .mle).nextAt = max (t + 1) (t + dur)
  record : ∃ i, (getCore u c).insts = [i] ∧ i.w = w ∧ i.prog = .mle flags ∧ i.begun = true ∧ i.finished = true ∧ i.doneAt = t + dur ∧
    i.rd = d.rd ∧ i.wr = d.wr
  engines : ∀ x : EngId, x ≠ .mle → getEng u c x = getEng s c x
  others : ∀ x : CoreId, x ≠ c → getCore u x = getCore s x

/-- A moult instruction dispatched in a calm core: m is the core as its operation finds it, i its record. -/
structure MoultEntered (s : State) (c : CoreId) (w : W128) (t : Nat) (d : LoopDesc) (g : Engine) (m : State) (i : Inst) : Prop where
  found : MoultFound s m c
  units : SameUnits s m
  now : m.now = t
  word : i.w = w ∧ i.loop = d ∧ i.rd = d.rd ∧ i.wr = d.wr
  insts : (getCore m c).insts = [i]
  engine : getEng m c .mle = { popHead g (t + 1) with wait := .claim i.id }
  engines : ∀ x : EngId, x ≠ .mle → getEng m c x = getEng s c x
  others : ∀ x : CoreId, x ≠ c → getCore m x = getCore s x

theorem moultEntered_atBegin {s : State} {c : CoreId} {w : W128} {t : Nat} {d : LoopDesc} {g : Engine} (hc : CalmCore s c)
    (hx : Executes s c .mle w t d g) :
    let p := atBegin (advance (putEng s c .mle g) t) c .mle w t d
    MoultEntered s c w t d g (moultEntry p.1 c p.2) p.2 := by
  intro p
  have hcalm := atBegin_core (s := s) (c := c) (e := .mle) (w := w) (t := t) (d := d) (g := g) hc.insts
  obtain ⟨hinsts, heng, hengs, ⟨eng, ins, nn, ca, ce, hk⟩, hrest, hcores⟩ := hcalm
  have hnow : max s.now t = t := Nat.max_eq_right (headOf_some hx.head).2.1
  obtain ⟨hmem, hunits, hregs, hcached, hmnow⟩ := same_of_cores (u := moultEntry p.1 c p.2) (putCore_rest (hnow ▸ hrest) c _)
  have hcore : getCore (moultEntry p.1 c p.2) c = { getCore p.1 c with undo := mleSnap p.1 c p.2.loop p.2.w } := getCore_putCore ..
  have hsame (x : EngId) : getEng (moultEntry p.1 c p.2) c x = getEng p.1 c x := by rw [getEng, hcore]; rfl
  exact {
    found := ⟨hmem, by rw [hcore, hk], hregs, hcached⟩
    units := hunits
    now := hmnow
    word := ⟨rfl, rfl, rfl, rfl⟩
    insts := by rw [hcore]; exact hinsts
    engine := (hsame .mle).trans heng
    engines := fun x hxm => (hsame x).trans (hengs x hxm)
    others := fun x hxc => (getCore_putCore_ne _ _ hxc).trans (hcores x hxc) }

/-- The state after a moult instruction has begun: what its operation wrote, with its finished record and its engine past it. -/
theorem runOp_mle {s : State} {c : CoreId} {w : W128} {t o : Nat} {d : LoopDesc} {g : Engine} (hc : CalmCore s c) (hecc : s.ecc = [])
    (hx : Executes s c .mle w t d g) (ho : opc w = o) (h4 : o ≠ 0x04) {r : State × Nat × Nat} {m : State} {i : Inst}
    (hi : atBegin (advance (putEng s c .mle g) t) c .mle w t d = (m, i)) (hr : mleRun (moultEntry m c i) c i = r)
    (hin : MoultEntered s c w t d g (moultEntry m c i) i) (hwrites : SelectorWrites c (moultEntry m c i) r.1) :
    let j := moultDone i t r.2.1 r.2.2
    ∃ g', runOp s c .mle o = putEng (putInst r.1 c j) c .mle g' ∧ g'.pc = g.pc + 1 ∧ g'.nextAt = max (t + 1) (t + r.2.1) ∧
      getCore (runOp s c .mle o) c = engPut { getCore r.1 c with insts := [j] } .mle g' ∧
      ∀ x : EngId, x ≠ .mle → getEng (runOp s c .mle o) c x = getEng s c x := by
  intro j
  have hrinsts : (getCore r.1 c).insts = [i] := by rw [hwrites.core]; exact hin.insts
  have hput : getCore (putInst r.1 c j) c = { getCore r.1 c with insts := [j] } := getCore_putInst hrinsts rfl
  have hsame (x : EngId) : getEng (putInst r.1 c j) c x = getEng (moultEntry m c i) c x := by rw [getEng, hput, hwrites.core]; rfl
  have heng := (hsame .mle).trans hin.engine
  obtain ⟨hpc, -, hnext, -⟩ := begunEng_facts (g := getEng (putInst r.1 c j) c .mle) (id := i.id) (n := t + 1) (next := t + r.2.1) (t := t)
    (q := 1) (by rw [heng]; exact hx.step) (by rw [heng]; rfl)
  set g' := begunEng (getEng (putInst r.1 c j) c .mle) i.id (t + r.2.1) t 1 none
  have hcore : getCore (putEng (putInst r.1 c j) c .mle g') c = engPut { getCore r.1 c with insts := [j] } .mle g' := by
    rw [putEng, getCore_putCore, hput]
  have hengs (x : EngId) (hxm : x ≠ .mle) : getEng (putEng (putInst r.1 c j) c .mle g') c x = getEng s c x := by
    rw [← hin.engines x hxm, ← hsame x, getEng, getEng, hcore, hput, engGet_engPut_ne _ _ hxm]
  have hrun : runOp s c .mle o = putEng (putInst r.1 c j) c .mle g' := by
    refine runOp_calm hc hx ho (nofun) (u := putEng (putInst r.1 c j) c .mle g') ?_ (fun y hy => ?_) fun x => ?_
    · have he : i.eng = .mle := (congrArg (Inst.eng ·.2) hi).symm
      rw [hi]
      exact beginInst_mle t he (by rw [hin.word.1, ho]; exact h4) (hin.found.memory.ecc.trans hecc) hr
    · rw [hcore] at hy
      rw [List.mem_singleton.1 hy]
      exact ⟨rfl, nofun⟩
    · by_cases hxm : x = .mle
      · have he : j.eng = .mle := (congrArg (Inst.eng ·.2) hi).symm
        exact .inr (.inr (by rw [hcore, hxm]; simp [anyInst, engPut, he]))
      · rw [hengs x hxm]
        exact (hc.modes x).elim .inl fun h => .inr (.inl h)
  exact ⟨g', hrun, by rw [hpc, heng]; rfl, hnext, hrun ▸ hcore, hrun ▸ hengs⟩

/-- Where the operation of the word w gives f, whatever core it finds, and changes memory and contexts alone, f is what the instruction leaves. -/
theorem moult_begins {s : State} {c : CoreId} {w : W128} {t o : Nat} {d : LoopDesc} {g : Engine} (hc : CalmCore s c) (hecc : s.ecc = [])
    (hx : Executes s c .mle w t d g) (ho : opc w = o) (h4 : o ≠ 0x04) {f : State → State × Nat × Nat}
    (hf : ∀ m i, MoultFound s m c → i.w = w → i.loop = d → mleRun m c i = f m ∧ SelectorWrites c m (f m).1) :
    let u := runOp s c .mle o
    ∃ m, MoultBegun s c w t d g u m (f m).2.1 (f m).2.2 ∧ SameMemory (f m).1 u ∧ (getCore u c).ctx = (getCore (f m).1 c).ctx := by
  intro u
  have hin := moultEntered_atBegin hc hx
  obtain ⟨⟨v, i⟩, hp⟩ : ∃ p, atBegin (advance (putEng s c .mle g) t) c .mle w t d = p := ⟨_, rfl⟩
  simp only [hp] at hin
  obtain ⟨hword, hloop, hrd, hwr⟩ := hin.word
  obtain ⟨hr, hwrites⟩ := hf _ i hin.found hword hloop
  obtain ⟨g', hrun : u = _, hpc, hnext, hcore, hengs⟩ := runOp_mle hc hecc hx ho h4 hp hr hin hwrites
  have hrnow := hwrites.now.trans hin.now
  obtain ⟨hmem, hunits, -, -, hunow⟩ := same_of_cores (s := (f (moultEntry v c i)).1) (u := u) (t := t)
    (hrun ▸ putCore_rest (putCore_rest (hrnow ▸ rfl) c _) c _)
  have heng : getEng u c .mle = g' := by rw [hrun, getEng_putEng]
  refine ⟨moultEntry v c i, ?_, hmem, by rw [hcore]; rfl⟩
  exact {
    found := hin.found
    now := hunow
    units := SameUnits_trans (SameUnits_trans hin.units hwrites.units) hunits
    pc := heng ▸ hpc
    next := heng ▸ hnext
    record := ⟨moultDone i t (f _).2.1 (f _).2.2, by rw [hcore]; rfl, hword, rfl, rfl, rfl, rfl, hrd, hwr⟩
    engines := hengs
    others := fun x hxc => by
      rw [hrun, putEng, getCore_putCore_ne _ _ hxc, putInst, getCore_putCore_ne _ _ hxc, hwrites.others x hxc,
        hin.others x hxc] }

end Sys2Proof.Machine

namespace Sys2Proof.Machine

/-- PRUNE, GROW or SWAP begins, where its inputs carry no poison. -/
theorem apply_begins {s : State} {c : CoreId} {w : W128} {t o : Nat} {d : LoopDesc} {g : Engine} (hc : CalmCore s c) (hecc : s.ecc = [])
    (hx : Executes s c .mle w t d g) (ho : opc w = o) (hop : o = 0x42 ∨ o = 0x43 ∨ o = 0x44) (hclean : applyRefused s c w = false) :
    let u := runOp s c .mle o
    let q := applyLoop s c w
    ∃ m, MoultBegun s c w t d g u m (16 + ceilDiv (applyEntries s c w) 4) (shortFlag w q.2) ∧
      SameMemory (applyWritten m c w q (if o = 0x43 then 0 else q.2) (if o = 0x42 then 0 else q.2)) u ∧
      (getCore u c).ctx = (getCore s c).ctx := by
  intro u q
  have hwrites (m : State) (hm : MoultFound s m c) := padWrites_applyWritten (hm.memory.ecc.trans hecc) c w q
    (if o = 0x43 then 0 else q.2) (if o = 0x42 then 0 else q.2)
  obtain ⟨m, hbegun, hmem, hctx⟩ := moult_begins hc hecc hx ho (by omega)
    (f := fun m => (applyWritten m c w q (if o = 0x43 then 0 else q.2) (if o = 0x42 then 0 else q.2),
      16 + ceilDiv (applyEntries s c w) 4, shortFlag w q.2)) fun m i hm hw _ => by
      have hrun := mleRun_apply (s := m) (c := c) (i := i) (hw ▸ ho) hop (by rw [hw, hm.applyRefused, hclean])
      rw [hw, hm.applyLoop, hm.applyEntries] at hrun
      exact ⟨hrun, (hwrites m hm).selectorWrites c⟩
  exact ⟨m, hbegun, hmem, by rw [hctx, (hwrites m hbegun.found).core, hbegun.found.ctx]⟩

/-- RECOMPRESS or RESET_STATE begins. -/
theorem merge_begins {s : State} {c : CoreId} {w : W128} {t o : Nat} {d : LoopDesc} {g : Engine} (hc : CalmCore s c) (hecc : s.ecc = [])
    (hx : Executes s c .mle w t d g) (ho : opc w = o) (hop : o = 0x45 ∨ o = 0x46) :
    let u := runOp s c .mle o
    ∃ m, MoultBegun s c w t d g u m (loopCount d * (8 + ceilDiv (lB w) 2)) 0 ∧ SameMemory (moultMerge m c d w (loopCount d * lB w)) u ∧
      (getCore u c).ctx = (getCore s c).ctx := by
  intro u
  obtain ⟨m, hbegun, hmem, hctx⟩ := moult_begins hc hecc hx ho (by omega)
    (f := fun m => (moultMerge m c d w (loopCount d * lB w), loopCount d * (8 + ceilDiv (lB w) 2), 0)) fun m i hm hw hd => by
      subst hw hd
      have hne : o ≠ 0x40 ∧ o ≠ 0x41 := by omega
      refine ⟨?_, (padWrites_moultMerge (hm.memory.ecc.trans hecc) ..).selectorWrites c⟩
      simp only [mleRun, ho, hne, if_false, hop, if_true]
  have hwrites := padWrites_moultMerge (hbegun.found.memory.ecc.trans hecc) c d w (loopCount d * lB w)
  exact ⟨m, hbegun, hmem, by rw [hctx, hwrites.core, hbegun.found.ctx]⟩

/-- MOULT.SCAN begins. -/
theorem scan_begins {s : State} {c : CoreId} {w : W128} {t : Nat} {d : LoopDesc} {g : Engine} (hc : CalmCore s c) (hecc : s.ecc = [])
    (hx : Executes s c .mle w t d g) (ho : opc w = 0x41) :
    let u := runOp s c .mle 0x41
    ∃ m, MoultBegun s c w t d g u m (moultScan m c d w none).2 0 ∧ SameMemory (moultScan m c d w none).1 u ∧
      (getCore u c).ctx = (getCore (moultScan m c d w none).1 c).ctx :=
  moult_begins hc hecc hx ho (by decide) (f := fun m => ((moultScan m c d w none).1, (moultScan m c d w none).2, 0)) fun m i hm hw hd => by
    subst hw hd
    exact ⟨by simp [mleRun, ho], selectorWrites_moultScan (hm.memory.ecc.trans hecc) c i.loop i.w none⟩

/-- MOULT.SELECT begins: its context is set up when it retires. -/
theorem select_begins {s : State} {c : CoreId} {w : W128} {t : Nat} {d : LoopDesc} {g : Engine} (hc : CalmCore s c) (hecc : s.ecc = [])
    (hx : Executes s c .mle w t d g) (ho : opc w = 0x40) :
    let u := runOp s c .mle 0x40
    ∃ m, MoultBegun s c w t d g u m 4 0 ∧ SameMemory s u ∧ (getCore u c).ctx = (getCore s c).ctx := by
  intro u
  obtain ⟨m, hbegun, hmem, hctx⟩ := moult_begins hc hecc hx ho (by decide) (f := fun m => (m, 4, 0)) fun m i _ hw _ =>
    ⟨if_pos (hw ▸ ho), (PadWrites.refl m).selectorWrites c⟩
  exact ⟨m, hbegun, SameMemory_trans hbegun.found.memory hmem, hctx.trans hbegun.found.ctx⟩

/-- Settles O27: the reads of an operation lie in the scratchpads, where they change nothing, and what it writes is memory and contexts alone. -/
theorem moultInstructionsComplete : Obligations.MoultInstructionsComplete := by
  intro s c w t d g hc hecc hx begun words frz pe ge clean short ends
  have hbegun {u m : State} {dur flags : Nat} (h : MoultBegun s c w t d g u m dur flags) : begun u m dur flags :=
    ⟨h.found.memory, h.found.ctx, h.found.regs, h.found.cached, h.now, h.units, h.pc, h.next, h.record, h.engines, h.others⟩
  have hclean (h : clean) : applyRefused s c w = false := by
    obtain ⟨hp, hg, hin, hfrz⟩ := h
    simp only [applyRefused, hp, hg, hin, Bool.false_or]
    unfold applyFreeze
    split
    · rfl
    · exact hfrz ‹_›
  refine ⟨fun ho => ?select, fun ho => ?scan, fun ho hcl => ?prune, fun ho hcl => ?grow, fun ho hcl => ?swap, fun ho => ?recompress, fun ho => ?reset⟩
  case select =>
    obtain ⟨m, hb, hres⟩ := select_begins hc hecc hx ho
    exact ⟨_, m, rfl, hbegun hb, hres⟩
  case scan =>
    obtain ⟨m, hb, hres⟩ := scan_begins hc hecc hx ho
    exact ⟨_, m, rfl, hbegun hb, hres⟩
  case prune =>
    obtain ⟨m, hb, hres⟩ := apply_begins hc hecc hx ho (by decide) (hclean hcl)
    have hloop : applyLoop s c w = pruneLoop pe (lK w) words 0 := if_pos ho
    have hentries : applyEntries s c w = pe.length := by simp [applyEntries, lSwap, ho, pe]
    rw [hloop] at hb hres
    exact ⟨_, m, rfl, hbegun (hentries ▸ hb), hres⟩
  case grow =>
    obtain ⟨m, hb, hres⟩ := apply_begins hc hecc hx ho (by decide) (hclean hcl)
    have hloop : applyLoop s c w = growLoop (lPb w) frz ge (lK w) words 0 := by simp [applyLoop, applyFreeze, ho, frz, ge, words]
    have hentries : applyEntries s c w = pe.length := by simp [applyEntries, lSwap, ho, pe]
    rw [hloop] at hb hres
    exact ⟨_, m, rfl, hbegun (hentries ▸ hb), hres⟩
  case swap =>
    obtain ⟨m, hb, hres⟩ := apply_begins hc hecc hx ho (by decide) (hclean hcl)
    have hloop : applyLoop s c w = swapLoop (lPb w) frz pe ge (lK w) words 0 := by simp [applyLoop, applyFreeze, ho, frz, pe, ge, words]
    have hentries : applyEntries s c w = pe.length + ge.length := by simp [applyEntries, lSwap, ho, pe, ge]
    rw [hloop] at hb hres
    exact ⟨_, m, rfl, hbegun (hentries ▸ hb), hres⟩
  case recompress =>
    obtain ⟨m, hb, hres⟩ := merge_begins hc hecc hx ho (by decide)
    exact ⟨_, m, rfl, hbegun hb, hres⟩
  case reset =>
    obtain ⟨m, hb, hres⟩ := merge_begins hc hecc hx ho (by decide)
    exact ⟨_, m, rfl, hbegun hb, hres⟩

end Sys2Proof.Machine

namespace Sys2Proof.Machine

/-! Results in flight and the registers that they land in (R167, R168). -/

/-- Of the elements of a list that satisfy p, the one of the greatest key due, a tie going to the greater seq, then to the later in the list: the
choice that lastV and lastX make. -/
def pickLast {α : Type} (due seq : α → Nat) (p : α → Prop) [DecidablePred p] (acc : Option α) (r : α) : Option α :=
  if p r then
    match acc with
    | none => some r
    | some a => if due a < due r ∨ (due a = due r ∧ seq a ≤ seq r) then some r else some a
  else acc

theorem lastV_eq (rs : List VRes) (reg t : Nat) :
    lastV rs reg t = rs.foldl (pickLast VRes.due VRes.seq fun r => r.reg = reg ∧ r.due ≤ t) none := by
  unfold lastV
  congr 1
  funext acc r
  cases acc <;> rfl

theorem lastX_eq (rs : List XRes) (pipe reg t : Nat) :
    lastX rs pipe reg t = rs.foldl (pickLast XRes.due XRes.seq fun r => (r.pipe = pipe ∧ r.reg = reg) ∧ r.due ≤ t) none := by
  unfold lastX
  congr 1
  funext acc r
  cases acc <;> simp only [pickLast, and_assoc]

section PickLast
variable {α : Type} {due seq : α → Nat}

/-- A choice from a list is none only where it was none and no element qualifies. -/
theorem foldl_pickLast_eq_none {p : α → Prop} [DecidablePred p] (rs : List α) (acc : Option α) :
    rs.foldl (pickLast due seq p) acc = none ↔ acc = none ∧ ∀ r ∈ rs, ¬p r := by
  induction rs generalizing acc with
  | nil => simp
  | cons r rs ih =>
    rw [List.foldl_cons, ih, List.forall_mem_cons]
    by_cases hp : p r
    · cases acc with
      | none => simp [pickLast, hp]
      | some a =>
        simp only [pickLast, hp, if_true]
        split <;> simp
    · simp [pickLast, hp]

/-- The choice among all elements due by T, against the choices among those due by t and among those due after t, a choice due later taking
precedence. -/
theorem foldl_pickLast_split (key : α → Prop) [DecidablePred key] {t T : Nat} (htT : t ≤ T) (rs : List α) (early late : Option α)
    (he : ∀ x ∈ early, due x ≤ t) (hl : ∀ x ∈ late, t < due x) :
    rs.foldl (pickLast due seq fun r => key r ∧ due r ≤ T) (late <|> early) =
      ((rs.filter fun r => decide (t < due r)).foldl (pickLast due seq fun r => key r ∧ due r ≤ T) late <|>
        rs.foldl (pickLast due seq fun r => key r ∧ due r ≤ t) early) := by
  induction rs generalizing early late with
  | nil => rfl
  | cons r rs ih =>
    simp only [List.foldl_cons]
    by_cases hlate : t < due r
    · have hstep : pickLast due seq (fun r => key r ∧ due r ≤ T) (late <|> early) r =
          (pickLast due seq (fun r => key r ∧ due r ≤ T) late r <|> early) := by
        by_cases hp : key r ∧ due r ≤ T
        · cases late with
          | some x =>
            show pickLast _ _ _ (some x) r = _
            simp only [pickLast, hp, and_self, if_true]
            split <;> rfl
          | none =>
            cases early with
            | none => simp [pickLast, hp]
            | some y =>
              have hy : due y < due r := (he y rfl).trans_lt hlate
              simp [pickLast, hp, hy]
        · simp [pickLast, hp]
      have hskip : pickLast due seq (fun r => key r ∧ due r ≤ t) early r = early := if_neg fun h => absurd h.2 (by omega)
      have hlate' : ∀ x ∈ pickLast due seq (fun r => key r ∧ due r ≤ T) late r, t < due x := by
        intro x hx
        unfold pickLast at hx
        split at hx
        · split at hx
          · obtain rfl : r = x := by simpa using hx
            exact hlate
          · split at hx <;> obtain rfl := Option.mem_some_iff.1 hx
            · exact hlate
            · exact hl _ rfl
        · exact hl x hx
      rw [List.filter_cons_of_pos (by simpa using hlate), List.foldl_cons, hskip, hstep]
      exact ih early _ he hlate'
    · have hstep : pickLast due seq (fun r => key r ∧ due r ≤ T) (late <|> early) r =
          (late <|> pickLast due seq (fun r => key r ∧ due r ≤ t) early r) := by
        have hT : due r ≤ T := by omega
        have ht : due r ≤ t := by omega
        cases late with
        | none => simp [pickLast, hT, ht]
        | some x =>
          have hx : t < due x := hl x rfl
          have hkeep : ¬(due x < due r ∨ due x = due r ∧ seq x ≤ seq r) := by omega
          simp [pickLast, hkeep]
      have hearly' : ∀ x ∈ pickLast due seq (fun r => key r ∧ due r ≤ t) early r, due x ≤ t := by
        intro x hx
        unfold pickLast at hx
        split at hx
        · split at hx
          · obtain rfl : r = x := by simpa using hx
            omega
          · split at hx <;> obtain rfl := Option.mem_some_iff.1 hx
            · omega
            · exact he _ rfl
        · exact he x hx
      rw [List.filter_cons_of_neg (by simpa using hlate), hstep]
      exact ih _ late hearly' hl

end PickLast

/-- After writes of a table one after the other, a key that some of them write, all with one value, reads as that value. -/
theorem tget_foldl_tset_mem {α β : Type} [DecidableEq α] (d : α) (key : β → Nat) (val : β → α) {l : List β} {k : Nat} {v : α}
    (hmem : ∃ b ∈ l, key b = k) (hval : ∀ b ∈ l, key b = k → val b = v) (m : Tab α) :
    tget (l.foldl (fun m b => tset m d (key b) (val b)) m) d k = v := by
  induction l using List.reverseRecOn with
  | nil => simp at hmem
  | append_singleton l b ih =>
    rw [List.foldl_concat]
    by_cases hb : key b = k
    · rw [hb, tget_tset_self, hval b (by simp) hb]
    · rw [tget_tset_ne _ _ _ _ (Ne.symm hb)]
      obtain ⟨x, hx, hxk⟩ := hmem
      rcases List.mem_append.1 hx with hx | hx
      · exact ih ⟨x, hx, hxk⟩ fun y hy => hval y (List.mem_append_left _ hy)
      · exact absurd (List.mem_singleton.1 hx ▸ hxk) hb

/-- A key that none of the writes names reads as before. -/
theorem tget_foldl_tset_not_mem {α β : Type} [DecidableEq α] (d : α) (key : β → Nat) (val : β → α) {l : List β} {k : Nat}
    (h : ∀ b ∈ l, key b ≠ k) (m : Tab α) : tget (l.foldl (fun m b => tset m d (key b) (val b)) m) d k = tget m d k :=
  List.foldlRecOn (motive := fun x => tget x d k = tget m d k) l _ rfl fun _ hx b hb => (tget_tset_ne _ _ _ _ (h b hb).symm).trans hx

theorem lastV_filter (rs : List VRes) (reg : Nat) {t T : Nat} (h : t ≤ T) :
    lastV rs reg T = (lastV (rs.filter fun r => decide (t < r.due)) reg T <|> lastV rs reg t) := by
  simp only [lastV_eq]
  exact foldl_pickLast_split (due := VRes.due) (fun r => r.reg = reg) h rs none none (by simp) (by simp)

theorem lastX_filter (rs : List XRes) (pipe reg : Nat) {t T : Nat} (h : t ≤ T) :
    lastX rs pipe reg T = (lastX (rs.filter fun r => decide (t < r.due)) pipe reg T <|> lastX rs pipe reg t) := by
  simp only [lastX_eq]
  exact foldl_pickLast_split (due := XRes.due) (fun r => r.pipe = pipe ∧ r.reg = reg) h rs none none (by simp) (by simp)

/-- The vector register file once the results due by t have landed holds what an instruction dispatched at t reads. -/
theorem landV_vregs (k : Core) (t reg : Nat) : tget (landV k t).vregs vregReset reg = vregAt k t reg := by
  have hkey (r : VRes) : r ∈ (k.vres.filter fun r => decide (r.due ≤ t)) ↔ r ∈ k.vres ∧ r.due ≤ t := by simp
  by_cases hex : ∃ r ∈ k.vres, r.reg = reg ∧ r.due ≤ t
  · obtain ⟨r, hr, hreg, hdue⟩ := hex
    refine tget_foldl_tset_mem vregReset id (vregAt k t) ⟨reg, ?_, rfl⟩ (fun b _ hb => congrArg (vregAt k t) hb) _
    exact List.mem_map.2 ⟨r, (hkey r).2 ⟨hr, hdue⟩, hreg⟩
  · have hnone : lastV k.vres reg t = none := by
      rw [lastV_eq, foldl_pickLast_eq_none]
      exact ⟨rfl, fun r hr hp => hex ⟨r, hr, hp⟩⟩
    have hout : ∀ b ∈ (k.vres.filter fun r => decide (r.due ≤ t)).map VRes.reg, id b ≠ reg := by
      intro b hb he
      obtain ⟨r, hr, rfl⟩ := List.mem_map.1 hb
      obtain ⟨hr, hdue⟩ := (hkey r).1 hr
      exact hex ⟨r, hr, he, hdue⟩
    rw [vregAt, hnone]
    exact tget_foldl_tset_not_mem vregReset id (vregAt k t) hout _

/-- A read at t or later finds the same lanes before and after the results due by t land. -/
theorem vregAt_landV (k : Core) {t T : Nat} (h : t ≤ T) (reg : Nat) : vregAt (landV k t) T reg = vregAt k T reg := by
  have hfile := landV_vregs k t reg
  have hres : (landV k t).vres = k.vres.filter fun r => decide (t < r.due) := rfl
  unfold vregAt at hfile ⊢
  rw [hres, hfile, lastV_filter k.vres reg h]
  cases lastV (k.vres.filter fun r => decide (t < r.due)) reg T <;> simp

theorem xkey_inj {p q r x : Nat} (hr : r < 32) (hx : x < 32) (h : xkey p r = xkey q x) : p = q ∧ r = x := by
  unfold xkey at h
  omega

/-- The scalar register file once the results due by t have landed holds what an instruction dispatched at t reads. -/
theorem landX_xregs (k : Core) (t : Nat) {pipe reg : Nat} (hreg : reg < 32) (hk : ∀ r ∈ k.xres, r.reg < 32) :
    tget (landX k t).xregs xregReset (xkey pipe reg) = xregAt k t pipe reg := by
  have hkey (b : Nat × Nat) : b ∈ (k.xres.filter fun r => decide (r.due ≤ t)).map (fun r => (r.pipe, r.reg)) ↔
      ∃ r ∈ k.xres, r.due ≤ t ∧ (r.pipe, r.reg) = b := by simp [and_assoc]
  by_cases hex : ∃ r ∈ k.xres, r.pipe = pipe ∧ r.reg = reg ∧ r.due ≤ t
  · obtain ⟨r, hr, rfl, rfl, hdue⟩ := hex
    refine tget_foldl_tset_mem xregReset (fun b => xkey b.1 b.2) (fun b => xregAt k t b.1 b.2) ⟨_, (hkey _).2 ⟨r, hr, hdue, rfl⟩, rfl⟩ ?_ _
    intro b hb he
    obtain ⟨x, hx, -, rfl⟩ := (hkey b).1 hb
    obtain ⟨hp, hq⟩ := xkey_inj (hk x hx) hreg he
    exact congrArg₂ (xregAt k t) hp hq
  · have hnone : lastX k.xres pipe reg t = none := by
      rw [lastX_eq, foldl_pickLast_eq_none]
      exact ⟨rfl, fun r hr hp => hex ⟨r, hr, hp.1.1, hp.1.2, hp.2⟩⟩
    rw [xregAt, hnone]
    refine tget_foldl_tset_not_mem xregReset (fun b : Nat × Nat => xkey b.1 b.2) (fun b => xregAt k t b.1 b.2) (fun b hb he => ?_) _
    obtain ⟨x, hx, hdue, rfl⟩ := (hkey b).1 hb
    obtain ⟨hp, hq⟩ := xkey_inj (hk x hx) hreg he
    exact hex ⟨x, hx, hp, hq, hdue⟩

/-- A read at t or later finds the same value before and after the results due by t land. -/
theorem xregAt_landX (k : Core) {t T : Nat} (h : t ≤ T) {pipe reg : Nat} (hreg : reg < 32) (hk : ∀ r ∈ k.xres, r.reg < 32) :
    xregAt (landX k t) T pipe reg = xregAt k T pipe reg := by
  have hfile := landX_xregs k t (pipe := pipe) hreg hk
  have hres : (landX k t).xres = k.xres.filter fun r => decide (t < r.due) := rfl
  unfold xregAt at hfile ⊢
  rw [hres, hfile, lastX_filter k.xres pipe reg h]
  cases lastX (k.xres.filter fun r => decide (t < r.due)) pipe reg T <;> simp

theorem firstDue_vxe (k : Core) : firstDue k .vxe = (k.vres.map VRes.due).min? := by
  unfold firstDue
  cases k.vres <;> rfl

theorem firstDue_sxe (k : Core) : firstDue k .sxe = (k.xres.map XRes.due).min? := by
  unfold firstDue
  cases k.xres <;> rfl

/-- Some element has the least key. -/
theorem any_of_map_min? {α : Type} {due : α → Nat} {l : List α} {t : Nat} (h : (l.map due).min? = some t) : l.any (fun r => due r == t) = true := by
  obtain ⟨r, hr, rfl⟩ := List.mem_map.1 (List.min?_mem h)
  exact List.any_eq_true.2 ⟨r, hr, beq_self_eq_true _⟩

theorem exec_registerResultLand_vxe {s : State} {c : CoreId} {t : Nat} (h : firstDue (getCore s c) .vxe = some t) :
    exec (.registerResultLand c .vxe) s = .next (putCore (advance s t) c (landV (getCore s c) t)) := by
  simp only [exec, execRegisterResultLand, h]
  rfl

theorem exec_registerResultLand_sxe {s : State} {c : CoreId} {t : Nat} (h : firstDue (getCore s c) .sxe = some t) :
    exec (.registerResultLand c .sxe) s = .next (putCore (advance s t) c (landX (getCore s c) t)) := by
  simp only [exec, execRegisterResultLand, h]
  rfl

/-- Settles O17: a landing writes each register with what a reader of that a-cycle finds, so that no later read changes. -/
theorem resultsLandInTheirCycle : Obligations.ResultsLandInTheirCycle := by
  intro s c t
  refine ⟨fun h => ?vxe, fun h => ?sxe⟩
  case vxe =>
    have hcore : getCore (putCore (advance s t) c (landV (getCore s c) t)) c = landV (getCore s c) t := getCore_putCore ..
    refine ⟨_, exec_registerResultLand_vxe h, rfl, by rw [hcore]; rfl, any_of_map_min? (firstDue_vxe _ ▸ h), fun T reg hT => ?_, by rw [hcore]; rfl, by rw [hcore]; rfl,
      by constructor <;> rfl, rfl, fun x hx => getCore_putCore_ne _ _ hx⟩
    rw [hcore, vregAt_landV _ hT]
  case sxe =>
    have hcore : getCore (putCore (advance s t) c (landX (getCore s c) t)) c = landX (getCore s c) t := getCore_putCore ..
    refine ⟨_, exec_registerResultLand_sxe h, rfl, by rw [hcore]; rfl, any_of_map_min? (firstDue_sxe _ ▸ h), fun T pipe reg _ hreg hk hT => ?_, by rw [hcore]; rfl,
      by rw [hcore]; rfl, by constructor <;> rfl, rfl, fun x hx => getCore_putCore_ne _ _ hx⟩
    rw [hcore, xregAt_landX _ hT hreg fun r hr => (hk r hr).2]

end Sys2Proof.Machine

namespace Sys2Proof.Machine

/-! What follows in a core where nothing waits to follow (R163, R174). -/

/-- A change of a core that leaves its records and leaves each engine HALTED or RUNNING settles at once. -/
theorem StillCore.settle {s u : State} {c : CoreId} (h : StillCore s c) (hi : ∀ i ∈ (getCore u c).insts, i ∈ (getCore s c).insts)
    (hm : ∀ e, (getEng u c e).mode = .halted ∨ (getEng u c e).mode = .running) : settleCore u c = u :=
  settleCore_still (fun i hu => h.insts i (hi i hu)) fun e => (hm e).elim .inl fun hr => .inr (.inl hr)

/-- With one engine changed, and that one HALTED or RUNNING, each engine is. -/
theorem modes_of_others {s u : State} {c : CoreId} {e : EngId}
    (hs : ∀ x, (getEng s c x).mode = .halted ∨ (getEng s c x).mode = .running) (ho : ∀ x, x ≠ e → getEng u c x = getEng s c x)
    (he : (getEng u c e).mode = .halted ∨ (getEng u c e).mode = .running) (x : EngId) :
    (getEng u c x).mode = .halted ∨ (getEng u c x).mode = .running := by
  by_cases hx : x = e
  · exact hx ▸ he
  · rw [ho x hx]; exact hs x

section CoreTo
variable {s u : State} {c : CoreId} {k : Core} {q : Prop}

theorem CoreTo.putEng (h : CoreTo s u c k q) (e : EngId) (g : Engine) : CoreTo s (putEng u c e g) c (engPut k e g) q := by
  rw [← h.core]; exact h.put

/-- Registers and the log may differ as they will where nothing is said of them. -/
theorem CoreTo.rbump (h : CoreTo s u c k False) (r : Reg) (hi lo n : Nat) : CoreTo s (rbump u r hi lo n) c k False := by
  obtain ⟨cs, regs, a, b, l, rfl, hc, ho, -⟩ := h.eq
  exact ⟨cs, _, _, _, l, rfl, hc, ho, False.elim⟩

theorem CoreTo.logEv (h : CoreTo s u c k False) (cause cls slice unit sub inst : Nat) (detail : W64) :
    CoreTo s (logEv u cause cls slice unit sub inst detail) c k False := by
  obtain ⟨l', hl⟩ := logEv_else u cause cls slice unit sub inst detail
  obtain ⟨cs, regs, a, b, l, rfl, hc, ho, -⟩ := h.eq
  rw [hl]
  exact ⟨cs, regs, a, b, l', rfl, hc, ho, False.elim⟩

theorem CoreTo.logEng (h : CoreTo s u c k False) (d : CoreId) (sub cause cls : Nat) (bank : Bool) (idx : BitVec 11) (lo : Nat) :
    CoreTo s (logEng u d sub cause cls bank idx lo) c k False := h.logEv ..

theorem CoreTo.forget (h : CoreTo s u c k q) : CoreTo s u c k False := by
  obtain ⟨cs, regs, a, b, l, he, hc, ho, -⟩ := h.eq
  exact ⟨cs, regs, a, b, l, he, hc, ho, False.elim⟩

theorem CoreTo.now (h : CoreTo s u c k q) : u.now = s.now := by
  obtain ⟨-, -, -, hn, -⟩ := h.else_; exact hn

theorem CoreTo.memory (h : CoreTo s u c k q) : SameMemory s u := h.else_.1
theorem CoreTo.units (h : CoreTo s u c k q) : SameUnits s u := h.else_.2.1
theorem CoreTo.others (h : CoreTo s u c k q) (x : CoreId) (hx : x ≠ c) : getCore u x = getCore s x := h.else_.2.2.1 x hx
theorem CoreTo.eng (h : CoreTo s u c k q) (e : EngId) : getEng u c e = engGet k e := by rw [getEng, h.core]

end CoreTo

/-- The length of a dispatch slot is a matter of the engine's control register. -/
theorem slotLen_congr {s u : State} {c : CoreId} {e : EngId} (h : rget u (.eng c e .ctl) = rget s (.eng c e .ctl)) :
    slotLen u c e = slotLen s c e := by
  have hl : latcheck u c e = latcheck s c e := by cases e <;> simp only [latcheck, rfld_congr h]
  rw [slotLen, slotLen, hl]

/-! The checks at dispatch do not depend on time or on what the engine has fetched (R171). -/

section Checks
variable {s u : State} {c : CoreId} {e : EngId} {g : Engine} (hu : u = { s with now := u.now, cores := u.cores })
  (hk : getCore u c = engPut (getCore s c) e g)
include hu hk

theorem engineCheck_congr (x : EngId) (t : Nat) (d : LoopDesc) (w : W128) : engineCheck u c x t d w = engineCheck s c x t d w := by
  have hctx (j : Nat) : ctxOf u c j = ctxOf s c j := by rw [ctxOf, hk]; rfl
  have hpads : SamePads s u := ⟨(congrArg State.mem hu :), (congrArg State.poison hu :)⟩
  have hbytes (a : Int) (n : Nat) : memBytes u (padAddr c a) n = memBytes s (padAddr c a) n := hpads.memBytes (inPads_padAddr ..) n
  cases x with
  | mxe =>
    have h1 : mxeConsistent u c d w = mxeConsistent s c d w := by simp only [mxeConsistent, prods, prodAt, hbytes]
    have h2 : mxeRegion u c d w = mxeRegion s c d w := by simp only [mxeRegion, prodAt, hbytes]
    simp only [engineCheck, h1, h2]
  | vxe => rfl
  | sxe =>
    have h1 : sxeAddrCheck (getCore u c) t d w = sxeAddrCheck (getCore s c) t d w := by rw [hk]; rfl
    simp only [engineCheck, h1]
  | dxe =>
    have h1 : dxeConsistent u c d w = dxeConsistent s c d w := by simp only [dxeConsistent, hbytes]
    simp only [engineCheck, h1]
  | mle =>
    have h1 : mleConsistent u c d w = mleConsistent s c d w := by simp only [mleConsistent, hctx]
    have h2 : mleRegion u c d w = mleRegion s c d w := by simp only [mleRegion, hctx]
    simp only [engineCheck, h1, h2]

theorem checkWord_congr (hl : g.ldf = (getEng s c e).ldf) (hp : g.ldPoison = (getEng s c e).ldPoison) (t : Nat) (q : QWord) :
    checkWord u c e t q = checkWord s c e t q := by
  have hent (n : Nat) : ldEntry (engGet (getCore u c) e) n = ldEntry (engGet (getCore s c) e) n := by
    rw [hk, engGet_engPut]
    unfold ldEntry ldBytes
    rw [hl, hp]
    rfl
  have hx (r : Nat) : xregAt (getCore u c) t 0 r = xregAt (getCore s c) t 0 r := by rw [hk]; rfl
  have hs : sxePoisoned (getCore u c) t q.w = sxePoisoned (getCore s c) t q.w := by rw [hk]; rfl
  have htgt (a : Nat) : syncTarget u c a = syncTarget s c a := by rw [hu]; rfl
  simp only [checkWord, hent, hx, hs, htgt, engineCheck_congr hu hk]

end Checks

end Sys2Proof.Machine

namespace Sys2Proof.Machine

/-! Counters raised (R182). -/

theorem rget_rbump_of_ne (s : State) {r q : Reg} (hi lo n : Nat) (h : q ≠ r) : rget (rbump s r hi lo n) q = rget s q :=
  rget_rsetf_of_ne s hi lo _ h

/-- A counter raised saturates at its maximum. -/
theorem rfld_rbump_self (s : State) (r : Reg) {hi : Nat} (lo n : Nat) (h64 : hi < 64) :
    rfld (rbump s r hi lo n) r hi lo = min (2 ^ (hi + 1 - lo) - 1) (rfld s r hi lo + n) :=
  rfld_rsetf_self s r h64 (satAdd_lt ..)

theorem sameMemory_advance (s : State) (t : Nat) : SameMemory s (advance s t) := by constructor <;> rfl
theorem sameUnits_advance (s : State) (t : Nat) : SameUnits s (advance s t) := by constructor <;> rfl

theorem stepBegun_off {g : Engine} (h : g.step = .off) : stepBegun g = g := by simp [stepBegun, h]

/-- The head that fails a check is skipped, at its dispatch. -/
theorem exec_skip {s : State} {c : CoreId} {e : EngId} {w : W128} {t : Nat} {g : Engine} {why : Status}
    (hhead : headOf s c e = some (t, ⟨w, false⟩, g)) (hheld : heldAtDispatch s c e w = false)
    (hcheck : checkWord (advance (putEng s c e g) t) c e t ⟨w, false⟩ = .skip why) :
    exec (.instructionRetire c (.skip e)) s = .next (skipHead (advance (putEng s c e g) t) c e t why) := by
  obtain ⟨-, -, -, hg⟩ := headOf_some hhead
  have hk : getCore (advance (putEng s c e g) t) c = engPut (getCore s c) e g := getCore_putCore ..
  rw [checkWord_congr rfl hk (by rw [hg]) (by rw [hg])] at hcheck
  show Host.Outcome.next (rejectHead s c e) = _
  simp only [rejectHead, hhead, hheld, hcheck, Bool.not_false, Bool.true_and, Bool.false_eq_true, if_false]

/-- Settles O22: a skip counts, logs and moves on, and no check reads what it changes. -/
theorem failedChecksSkipTheInstruction : Obligations.FailedChecksSkipTheInstruction := by
  intro s c e w t g why hstill hhead hheld hstep hcheck
  obtain ⟨hrun, hnow, -, hg⟩ := headOf_some hhead
  set v := advance (putEng s c e g) t with hv
  have htoV : CoreTo (advance s t) v c (engPut (getCore s c) e g) False := (CoreTo.refl (advance s t) c False).putEng e g
  set counted := rbump v (.eng c e .stat) 63 48 1 with hcounted
  set logged := logEng counted c (engIdx e) (stCode why) clsNone g.bank g.pc 0 with hlogged
  have hlog : Logged counted logged [stCode why] := logged_logEv ..
  have hgetV : getEng v c e = g := by rw [htoV.eng, engGet_engPut]
  have hslot : slotLen logged c e = slotLen s c e :=
    slotLen_congr ((hlog.rget _).trans (rget_rbump_of_ne v _ _ _ (by simp)))
  set past : Engine := { g with queue := g.queue.drop 1, pc := g.pc + 1, nextAt := t + slotLen s c e, wait := .none } with hpast
  have hto := ((htoV.rbump (.eng c e .stat) 63 48 1).logEng c (engIdx e) (stCode why) clsNone g.bank g.pc 0).putEng e past
  rw [← hcounted, ← hlogged] at hto
  have hskip : skipHead v c e t why = settleCore (putEng logged c e past) c := by
    show settleCore (putEng (logEng counted c (engIdx e) (stCode why) clsNone (getEng v c e).bank (getEng v c e).pc 0) c e
      (stepBegun (popHead (getEng v c e) (t + slotLen (logEng counted c (engIdx e) (stCode why) clsNone (getEng v c e).bank (getEng v c e).pc 0) c e)))) c = _
    rw [hgetV, ← hlogged, hslot, stepBegun_off (show (popHead g (t + slotLen s c e)).step = .off from hstep)]
    rfl
  have hothers (x : EngId) (hx : x ≠ e) : getEng (putEng logged c e past) c x = getEng s c x := by
    rw [hto.eng, engGet_engPut_ne _ _ hx, engGet_engPut_ne _ _ hx]; rfl
  have hinsts : (getCore (putEng logged c e past) c).insts = (getCore s c).insts := by rw [hto.core]; rfl
  have hpastMode : past.mode = .running := (congrArg Engine.mode hg).trans hrun
  rw [hstill.settle (fun i hi => hinsts ▸ hi)
    (modes_of_others hstill.modes hothers (.inr (by rw [getEng_putEng, hpastMode])))] at hskip
  obtain ⟨ev, hev, hcause, hcls, hinst, hsub, hdetail⟩ : ∃ ev, logged.log.inFlight = s.log.inFlight ++ [ev] ∧ ev.cause = stCode why ∧
      ev.cls = clsNone ∧ ev.inst = c.val ∧ ev.sub = engIdx e ∧ ev.detail = mkDetail ((if g.bank then 2048 else 0) + g.pc.toNat) 0 :=
    ⟨_, rfl, rfl, rfl, rfl, rfl, rfl⟩
  refine ⟨_, ev, (exec_skip hhead hheld hcheck).trans (congrArg _ hskip), ?_, fun r hr => ?_, hev, hcause, hcls, hinst, hsub, hdetail,
    getEng_putEng .., hothers, hinsts, by rw [hto.core]; rfl, by rw [hto.core]; rfl,
    SameMemory_trans (sameMemory_advance s t) hto.memory, SameUnits_trans (sameUnits_advance s t) hto.units, hto.others⟩
  · exact (rfld_congr (hlog.rget _) _ _).trans (rfld_rbump_self v _ _ _ (by decide))
  · exact (hlog.rget r).trans (rget_rbump_of_ne v _ _ _ hr)

end Sys2Proof.Machine

namespace Sys2Proof.Machine

/-! One engine of a core changed, and what it may change beside itself. -/

/-- Engine e of core c has become g: the core's other engines are as before, and beside the engines only results in flight, registers with their
counts, and the log may differ; under q the registers and the log do not. -/
structure EngineTo (s u : State) (c : CoreId) (e : EngId) (g : Engine) (q : Prop) : Prop where
  core : ∃ eng vres xres, CoreTo s u c { getCore s c with eng := eng, vres := vres, xres := xres } q
  engine : getEng u c e = g
  engines : ∀ x, x ≠ e → getEng u c x = getEng s c x

theorem EngineTo.refl (s : State) (c : CoreId) (e : EngId) (q : Prop) : EngineTo s s c e (getEng s c e) q :=
  ⟨⟨_, _, _, CoreTo.refl s c q⟩, rfl, fun _ _ => rfl⟩

section EngineTo
variable {s t u : State} {c : CoreId} {e : EngId} {g : Engine} {q : Prop} (h : EngineTo s u c e g q)
include h

theorem EngineTo.memory : SameMemory s u := by obtain ⟨_, _, _, hc⟩ := h.core; exact hc.memory
theorem EngineTo.units : SameUnits s u := by obtain ⟨_, _, _, hc⟩ := h.core; exact hc.units
theorem EngineTo.others (x : CoreId) (hx : x ≠ c) : getCore u x = getCore s x := by obtain ⟨_, _, _, hc⟩ := h.core; exact hc.others x hx
theorem EngineTo.now : u.now = s.now := by obtain ⟨_, _, _, hc⟩ := h.core; exact hc.now
theorem EngineTo.insts : (getCore u c).insts = (getCore s c).insts := by obtain ⟨_, _, _, hc⟩ := h.core; rw [hc.core]
theorem EngineTo.stores : (getCore u c).stores = (getCore s c).stores := by obtain ⟨_, _, _, hc⟩ := h.core; rw [hc.core]
theorem EngineTo.semOps : (getCore u c).semOps = (getCore s c).semOps := by obtain ⟨_, _, _, hc⟩ := h.core; rw [hc.core]
theorem EngineTo.taskOf (st : Nat) : taskOf u c st = taskOf s c st := by
  obtain ⟨_, _, _, hc⟩ := h.core; rw [Machine.taskOf, hc.core]; rfl
theorem EngineTo.streamAborting (st : Nat) : streamAborting u c st = streamAborting s c st := by
  obtain ⟨_, _, _, hc⟩ := h.core; rw [Machine.streamAborting, hc.core, hc.now]; rfl
theorem EngineTo.feOps : u.feOps = s.feOps := by
  obtain ⟨_, _, _, hc⟩ := h.core; obtain ⟨-, -, -, -, hf, -⟩ := hc.else_; exact hf
theorem EngineTo.regs (hq : q) : u.regs = s.regs := by
  obtain ⟨_, _, _, hc⟩ := h.core; obtain ⟨-, -, -, -, -, hr⟩ := hc.else_; exact (hr hq).1
theorem EngineTo.log (hq : q) : u.log = s.log := by
  obtain ⟨_, _, _, hc⟩ := h.core; obtain ⟨-, -, -, -, -, hr⟩ := hc.else_; exact (hr hq).2
theorem EngineTo.coreSlice (hq : q) (x : CoreId) : coreSlice u x = coreSlice s x := sectSlice_congr (rget_congr (h.regs hq) _)

/-- The same with the core's fields given: a core stored that differs in its engines and results in flight alone. -/
theorem EngineTo.putCore {k : Core} (hk : ∃ vres xres, k = { getCore u c with vres := vres, xres := xres }) : EngineTo s (putCore u c k) c e g q := by
  obtain ⟨vres, xres, rfl⟩ := hk
  obtain ⟨eng, v, x, hc⟩ := h.core
  have heng (y : EngId) : getEng (Machine.putCore u c { getCore u c with vres := vres, xres := xres }) c y = getEng u c y := by
    rw [getEng, getCore_putCore]; rfl
  refine ⟨⟨eng, vres, xres, ?_⟩, (heng e).trans h.engine, fun y hy => (heng y).trans (h.engines y hy)⟩
  have hput := hc.put (k' := { getCore u c with vres := vres, xres := xres })
  rwa [hc.core] at hput ⊢

theorem EngineTo.putEng (g' : Engine) : EngineTo s (putEng u c e g') c e g' q := by
  obtain ⟨eng, v, x, hc⟩ := h.core
  refine ⟨⟨_, v, x, hc.putEng e g'⟩, getEng_putEng .., fun y hy => ?_⟩
  rw [← h.engines y hy, getEng, Machine.putEng, getCore_putCore, engGet_engPut_ne _ _ hy]
  rfl

/-- The engine changed by a function of what it was. -/
theorem EngineTo.modify (f : Engine → Engine) : EngineTo s (Machine.putEng u c e (f (getEng u c e))) c e (f g) q :=
  h.engine ▸ h.putEng _

theorem EngineTo.writes {P : Reg → Prop} (w : Writes P u t) : EngineTo s t c e g False := by
  obtain ⟨eng, v, x, hc⟩ := h.core
  obtain ⟨cs, r, a, b, l, rfl, hk, ho, -⟩ := hc.eq
  have hcore (y : CoreId) : getCore t y = tget cs coreReset y.val := by rw [w.rest]; rfl
  have heng (y : EngId) : getEng t c y = engGet (tget cs coreReset c.val) y := by rw [getEng, hcore]
  exact ⟨⟨eng, v, x, cs, t.regs, a, b, l, w.rest, hk, ho, False.elim⟩, (heng e).trans h.engine, fun y hy => (heng y).trans (h.engines y hy)⟩

theorem EngineTo.logEng (sub cause cls : Nat) (bank : Bool) (idx : BitVec 11) (lo : Nat) :
    EngineTo s (logEng u c sub cause cls bank idx lo) c e g False := by
  obtain ⟨eng, v, x, hc⟩ := h.core
  exact ⟨⟨eng, v, x, hc.forget.logEng c sub cause cls bank idx lo⟩, h.engine, h.engines⟩

theorem EngineTo.trans {g' : Engine} {r : Prop} (k : EngineTo u t c e g' r) : EngineTo s t c e g' False := by
  obtain ⟨eng, v, x, hc⟩ := h.core
  obtain ⟨eng', v', x', hc'⟩ := k.core
  rw [hc.core] at hc'
  obtain ⟨cs, rs, a, b, l, rfl, hk, ho, -⟩ := hc.eq
  obtain ⟨cs', rs', a', b', l', rfl, hk', ho', -⟩ := hc'.eq
  exact ⟨⟨eng', v', x', cs', rs', a', b', l', rfl, hk', fun y hy => (ho' y hy).trans (ho y hy), False.elim⟩, k.engine,
    fun y hy => (k.engines y hy).trans (h.engines y hy)⟩

/-- In a core where nothing waits to follow, an engine that ends HALTED or RUNNING lets nothing follow. -/
theorem EngineTo.settle (hs : StillCore s c) (hg : g.mode = .halted ∨ g.mode = .running) : settleCore u c = u :=
  hs.settle (fun _ hi => h.insts ▸ hi) (modes_of_others hs.modes h.engines (h.engine ▸ hg))

/-- Whether anything dispatched remains in the engine (R174) does not depend on its mode and queue. -/
theorem EngineTo.quiet (hg : g.closing = (getEng s c e).closing) : quiet u c e = quiet s c e := by
  have hclose : (engGet (getCore u c) e).closing = (engGet (getCore s c) e).closing := (congrArg Engine.closing h.engine).trans hg
  simp only [Machine.quiet, anyInst, h.insts, h.semOps, h.feOps, h.taskOf, h.streamAborting, hclose]

end EngineTo

/-- A walk over a list in which only the step at e changes the state. -/
theorem foldl_only {σ ι : Type} {f : σ → ι → σ} {s u : σ} {e : ι} (hs : ∀ x, x ≠ e → f s x = s) (he : f s e = u) (hu : ∀ x, f u x = u)
    {l : List ι} (hl : e ∈ l) : l.foldl f s = u := by
  induction l with
  | nil => cases hl
  | cons x l ih =>
    rw [List.foldl_cons]
    by_cases hx : x = e
    · rw [hx, he]
      exact List.foldlRecOn (motive := fun t => t = u) l f rfl fun _ ht y _ => ht ▸ hu y
    · rw [hs x hx]
      exact ih ((List.mem_cons.1 hl).resolve_left (Ne.symm hx))

/-- Where only engine e is being stopped, what follows is the end of its drain or abort, if it ends now (R174, R175). -/
theorem settleCore_stopping {s v u : State} {c : CoreId} {e : EngId} {g g' : Engine} {q r : Prop} (hs : StillCore s c) (h : EngineTo s v c e g q)
    (hu : settleEngine v c e = u) (h' : EngineTo s u c e g' r) (hg' : settleEngine u c e = u) : settleCore v c = u := by
  have hinsts : ∀ i ∈ (getCore v c).insts, i.begun = true ∧ (i.finished = false → ∀ n, i.prog ≠ .dxe n) := fun i hi => hs.insts i (h.insts ▸ hi)
  have hother {w : State} {k : Engine} {p : Prop} (hw : EngineTo s w c e k p) (x : EngId) (hx : x ≠ e) : settleEngine w c x = w :=
    settleEngine_still (by rw [hw.engines x hx]; exact (hs.modes x).elim .inl fun hr => .inr (.inl hr))
  unfold settleCore
  simp only [startReady_still hinsts, pumpAll_still hinsts]
  refine foldl_only (hother h) hu (fun x => ?_) (by cases e <;> decide)
  by_cases hx : x = e
  · rw [hx, hg']
  · exact hother h' x hx

theorem settleEngine_draining {s : State} {c : CoreId} {e : EngId} (hm : (getEng s c e).mode = .draining) :
    settleEngine s c e = if quiet s c e then putEng s c e { getEng s c e with mode := .halted, step := .off } else s := by
  simp only [settleEngine, hm]

/-- A RUNNING engine that waits for nothing drains: HALTED when nothing of it remains dispatched, else DRAINING, at the same PC and bank (R174). -/
theorem drainEngine_running {s : State} {c : CoreId} {e : EngId} (hs : StillCore s c) (hw : (getEng s c e).wait = .none) :
    ∃ g, EngineTo s (drainEngine s c e) c e g True ∧ g.mode = (if quiet s c e then .halted else .draining) ∧ g.pc = (getEng s c e).pc ∧
      g.bank = (getEng s c e).bank := by
  have hwithdraw : withdrawWait s c e = s := by simp only [withdrawWait, hw]
  set d : Engine := { catchUp (getEng s c e) s.now with
    mode := .draining, step := (if (getEng s c e).step = .armed then .off else (getEng s c e).step) } with hd
  have hto : EngineTo s (putEng s c e d) c e d True := (EngineTo.refl s c e True).putEng d
  have hdrain : drainEngine s c e = settleCore (putEng s c e d) c := by simp only [drainEngine, hwithdraw]; rfl
  have hquiet : quiet (putEng s c e d) c e = quiet s c e := hto.quiet rfl
  have hend := settleEngine_draining (congrArg Engine.mode hto.engine)
  rw [hquiet, hto.engine] at hend
  rw [hdrain]
  by_cases hq : quiet s c e = true
  · rw [if_pos hq] at hend ⊢
    have hto' := hto.putEng { d with mode := .halted, step := .off }
    rw [settleCore_stopping hs hto hend hto' (settleEngine_still (.inl (by rw [hto'.engine])))]
    exact ⟨_, hto', rfl, rfl, rfl⟩
  · rw [if_neg hq] at hend ⊢
    rw [settleCore_stopping hs hto hend hto hend]
    exact ⟨d, hto, rfl, rfl, rfl⟩

end Sys2Proof.Machine

namespace Sys2Proof.Machine

/-! The abort of an engine of which nothing is outstanding (R175). -/

/-- Nothing of core c is dispatched or in flight that an abort of one of its engines would cancel. -/
structure IdleCore (s : State) (c : CoreId) : Prop where
  insts : (getCore s c).insts = []
  ops : s.feOps = []
  sems : (getCore s c).semOps = []
  stores : (getCore s c).stores = []
  tasks : ∀ st, taskOf s c st = none ∧ streamAborting s c st = false

section Abort
variable {s u : State} {c : CoreId} {e : EngId} {g : Engine} {q : Prop}

theorem EngineTo.idle (h : EngineTo s u c e g q) (hi : IdleCore s c) : IdleCore u c where
  insts := h.insts.trans hi.insts
  ops := h.feOps.trans hi.ops
  sems := h.semOps.trans hi.sems
  stores := h.stores.trans hi.stores
  tasks st := ⟨(h.taskOf st).trans (hi.tasks st).1, (h.streamAborting st).trans (hi.tasks st).2⟩

theorem IdleCore.keepAccepted (hi : IdleCore s c) (e : EngId) : keepAccepted s c e = s := by
  unfold Machine.keepAccepted
  dsimp only
  split
  · rfl
  · rw [hi.insts]; rfl

theorem IdleCore.oldestIdx (hi : IdleCore s c) (e : EngId) :
    oldestIdx s c e = if (getEng s c e).closing.isSome then (getEng s c e).pc - 1 else (getEng s c e).pc := by
  simp only [Machine.oldestIdx, hi.insts, hi.ops, hi.sems]
  rfl

/-- An abort withdraws from an idle core no operation on a word. -/
theorem IdleCore.dropOps (hi : IdleCore s c) (p : FeOp → Bool) : { s with feOps := s.feOps.filter p } = s := by
  have hf : s.feOps.filter p = s.feOps := by rw [hi.ops]; rfl
  rw [hf]

theorem IdleCore.stopTasks (hi : IdleCore s c) : stopTasks (stopHandoffs s c) c = s := by
  have hhand : stopHandoffs s c = s := still_foldl fun st _ => by simp [handTask, (hi.tasks st).1]
  rw [hhand]
  exact still_foldl fun st _ => by simp [stopTask, (hi.tasks st).1]

variable (h : EngineTo s u c e g q) (hi : IdleCore u c)
include h hi

theorem EngineTo.dropRecords (p : SemOp → Bool) (r : Inst → Bool) :
    EngineTo s (Machine.putCore u c { getCore u c with semOps := (getCore u c).semOps.filter p, insts := (getCore u c).insts.filter r }) c e g q := by
  refine h.putCore ⟨(getCore u c).vres, (getCore u c).xres, ?_⟩
  rw [hi.sems, hi.insts]
  simp only [List.filter_nil]
  rw [← hi.sems, ← hi.insts]

theorem EngineTo.cutFlight (x : EngId) : EngineTo s (cutFlight u c x) c e g q := by
  have hland : landStores u c (getCore u c).stores = u := by rw [hi.stores]; rfl
  have hstores (p : PadStore → Bool) : (getCore u c).stores.filter p = (getCore u c).stores := by rw [hi.stores]; rfl
  unfold Machine.cutFlight
  simp only [hstores, hland]
  cases x with
  | vxe => exact h.putCore ⟨(getCore u c).vres.filter fun x => decide (x.iss ≤ u.now), (getCore u c).xres, rfl⟩
  | sxe => exact h.putCore ⟨(getCore u c).vres, (getCore u c).xres.filter fun x => decide (x.iss ≤ u.now), rfl⟩
  | _ => exact h.putCore ⟨(getCore u c).vres, (getCore u c).xres, rfl⟩

theorem EngineTo.cancelNone (f : State → Inst → State) : EngineTo s ((getCore u c).insts.foldl f u) c e g q := by
  rw [hi.insts]; exact h

theorem EngineTo.mxeStop (why : Status) : EngineTo s (mxeStop u c why) c e g q := by
  refine h.putCore ⟨(getCore u c).vres, (getCore u c).xres, ?_⟩
  rw [hi.insts, List.map_nil, ← hi.insts]

end Abort

/-- The engine that begins an abort for a cause, with nothing of it outstanding. -/
def abortingEng (g : Engine) (now : Nat) (cause : Status) (cls : Nat) : Engine :=
  let pc := if g.closing.isSome then g.pc - 1 else g.pc
  { g with mode := .aborting, step := .off, queue := [], pc := pc, closing := none, wait := .none, fetchAt := now, nextAt := now,
           abort := some ⟨stCode cause, cls, g.bank, pc⟩, ldq := [] }

theorem beginAbort_idle {s : State} {c : CoreId} (hi : IdleCore s c) {e : EngId} (hm : (getEng s c e).mode ≠ .aborting) (cause : Status) (cls : Nat) :
    EngineTo s (beginAbort s c e cause cls none) c e (abortingEng (getEng s c e) s.now cause cls) True := by
  unfold beginAbort
  simp only [hm, if_false, hi.keepAccepted, hi.oldestIdx]
  set G : Engine := { getEng s c e with
    mode := .aborting, step := .off, queue := [], pc := if (getEng s c e).closing.isSome then (getEng s c e).pc - 1 else (getEng s c e).pc,
    closing := none, wait := .none, fetchAt := s.now, nextAt := s.now,
    abort := some ⟨stCode cause, cls, (getEng s c e).bank, if (getEng s c e).closing.isSome then (getEng s c e).pc - 1 else (getEng s c e).pc⟩ } with hG
  have h1 : EngineTo s (putEng s c e G) c e G True := (EngineTo.refl s c e True).putEng G
  rw [(h1.idle hi).dropOps]
  have h2 := h1.dropRecords (h1.idle hi) (fun x => x.eng != e) (fun i => !(i.eng == e && !i.begun))
  set v := putCore (putEng s c e G) c _ with hv
  have h3 := h2.cutFlight (h2.idle hi) e
  set w := cutFlight v c e with hw
  have h4 : EngineTo s (if e = .dxe then stopTasks (stopHandoffs w c) c else w) c e G True := by
    split
    · rw [(h3.idle hi).stopTasks]; exact h3
    · exact h3
  set x := (if e = .dxe then stopTasks (stopHandoffs w c) c else w) with hx
  have h5 := h4.cancelNone (h4.idle hi) (fun s i =>
    match i.prog with
    | .mxe _ => if i.eng == e && i.finished then cancelInst s c i (stCode cause) else s
    | _ => if i.eng == e then cancelInst s c i (stCode cause) else s)
  set y := (getCore x c).insts.foldl _ x with hy
  have h6 : EngineTo s (if e = .mxe then mxeStop y c cause else y) c e G True := by
    split
    · exact h5.mxeStop (h5.idle hi) cause
    · exact h5
  exact h6.modify fun g => { g with ldq := [] }

/-- An engine of an idle core aborts at once: HALTED with an empty queue, its PC at the next instruction or at a BANKSW that waited, and one event
of its cause is logged (R175). -/
theorem abortEngine_idle {s : State} {c : CoreId} {e : EngId} (hs : StillCore s c) (hi : IdleCore s c) (hm : (getEng s c e).mode ≠ .aborting)
    (cause : Status) (cls : Nat) :
    EngineTo s (abortEngine s c e cause cls none) c e
      { abortingEng (getEng s c e) s.now cause cls with mode := .halted, step := .off, abort := none } False ∧
    ∃ ev, (abortEngine s c e cause cls none).log.inFlight = s.log.inFlight ++ [ev] ∧ ev.cause = stCode cause ∧ ev.cls = cls := by
  have hb := beginAbort_idle hi hm cause cls
  set v := beginAbort s c e cause cls none with hv
  set a := abortingEng (getEng s c e) s.now cause cls with ha
  have hidle := hb.idle hi
  have hnone : (anyInst (getCore v c) e || (e == .dxe && (List.range 32).any fun st => streamAborting v c st)) = false := by
    simp [anyInst, hidle.insts, hidle.tasks]
  have hend : settleEngine v c e =
      logEng (putEng v c e { a with mode := .halted, step := .off, abort := none }) c (engIdx e) (stCode cause) cls a.bank a.pc 0 := by
    simp only [settleEngine, hb.engine, hnone]
    rfl
  have hto := (hb.putEng { a with mode := .halted, step := .off, abort := none }).logEng (engIdx e) (stCode cause) cls a.bank a.pc 0
  have hall : abortEngine s c e cause cls none = settleCore v c := if_neg hm
  rw [hall, settleCore_stopping hs hb hend hto (settleEngine_still (.inl (by rw [hto.engine])))]
  rw [← hb.log trivial]
  exact ⟨hto, _, rfl, rfl, rfl⟩

/-! Host writes to ENG_CTL and ENG_PC (R177). -/

theorem writeLatcheck_writes {v : W64} (hv : bits v 6 5 ≠ 3) (s : State) (c : CoreId) (e : EngId) :
    Writes (· = .eng c e .ctl) s (writeLatcheck s c e v) := by
  unfold writeLatcheck
  cases e with
  | vxe | sxe => simp only [if_neg hv]; exact writes_rsetf s _ _ _ rfl
  | _ => exact .refl _ s

theorem writeBank_same {s : State} {c : CoreId} {e : EngId} {v : W64} (h : bit v 4 = (getEng s c e).bank) : writeBank s c e v = s := if_pos h

theorem writeBank_halted {s : State} {c : CoreId} {e : EngId} {v : W64} (h : bit v 4 ≠ (getEng s c e).bank) (hm : (getEng s c e).mode = .halted) :
    writeBank s c e v = putEng s c e { getEng s c e with bank := bit v 4, queue := [], fetchAt := s.now } := by
  simp only [writeBank, if_neg h, if_pos hm]

theorem writePc_halted {s : State} {c : CoreId} {e : EngId} (v : W64) (hm : (getEng s c e).mode = .halted) :
    writePc s c e v = putEng s c e { getEng s c e with queue := [], pc := BitVec.ofNat 11 (bits v 10 0), fetchAt := s.now } := if_pos hm

/-- A HALTED engine that is enabled runs from its PC with its queue as it stands. -/
theorem writeEn_halted {s : State} {c : CoreId} {e : EngId} (hs : StillCore s c) (hsl : (coreSlice s c).isSome = true)
    (hm : (getEng s c e).mode = .halted) :
    writeEn s c e = putEng s c e { getEng s c e with
      mode := .running, step := .off, fetchAt := max (getEng s c e).fetchAt s.now, nextAt := max (getEng s c e).nextAt s.now } := by
  have hsl' : (coreSlice s c).isNone = false := by rw [Option.isNone_eq_false_iff]; exact hsl
  have hcatch : catchUp (getEng s c e) s.now = { getEng s c e with fetchAt := max (getEng s c e).fetchAt s.now } := by
    simp [catchUp, hm]
  have hto (g : Engine) : EngineTo s (putEng s c e g) c e g True := (EngineTo.refl s c e True).putEng g
  simp only [writeEn, hsl', hm, enableEngine, hcatch, Nat.max_assoc, Nat.max_self, Bool.false_eq_true, if_false]
  exact (hto _).settle hs (.inr rfl)

/-- Settles O29: each write is one update of its engine, and nothing of a still core follows from it. -/
theorem engineControlWritesComplete : Obligations.EngineControlWritesComplete := by
  intro s f c e v hctl hpc hstill hslice hlat g same
  have hto0 := (EngineTo.refl s c e True).writes (writeLatcheck_writes hlat s c e)
  set s1 := writeLatcheck s c e v with hs1
  have hslice1 : (coreSlice s1 c).isSome = true := by
    rw [coreSlice, sectSlice_congr ((writeLatcheck_writes hlat s c e).others _ (by simp))]
    exact hslice
  have hstill1 : StillCore s1 c :=
    ⟨fun i hi => hstill.insts i (hto0.insts ▸ hi), modes_of_others hstill.modes hto0.engines (hto0.engine ▸ hstill.modes e)⟩
  have hsame {u : State} {k : Engine} {q : Prop} (h : EngineTo s u c e k q) : same u := ⟨h.memory, h.units, h.engines, h.others, h.now⟩
  have hctlWrite (en : Bool) : hostWrite s f (.eng c e .ctl) en (fun s => writeCtl s c e v) = writeCtl s c e v := hctl.hostWrite ..
  have hbank (h4 : bit v 4 = g.bank) : writeBank s1 c e v = s1 := writeBank_same (h4.trans (congrArg Engine.bank hto0.engine).symm)
  have hmode1 {m : EngMode} (hm : g.mode = m) : (getEng s1 c e).mode = m := (congrArg Engine.mode hto0.engine).trans hm
  refine ⟨fun hm h0 h3 h7 h4 => ?enable, fun hm h0 h3 h7 h4 => ?step, fun hm h0 h3 h7 h4 => ?bank, fun hm => ?pc,
    fun hm hw hc h0 h3 h7 h4 => ?drain, fun hm hi hf hsem hst ht h7 h4 h3 => ?abort⟩
  case enable =>
    have hwrite : writeCtl s c e v = writeEn s1 c e := by
      simp only [writeCtl, ← hs1, hbank h4, h0, h3, h7, Bool.false_eq_true, if_false, if_true]
    have hto := hto0.putEng { g with mode := .running, step := .off, fetchAt := max g.fetchAt s.now, nextAt := max g.nextAt s.now }
    refine ⟨_, ?_, hsame hto, hto.engine⟩
    rw [writeEn_halted hstill1 hslice1 (hmode1 hm), hto0.engine, hto0.now] at hwrite
    simp only [exec, execEngineEnable, h0, h3, h7, hctlWrite, hwrite]
    rfl
  case step =>
    have hwrite : writeCtl s c e v = stepEngine s1 c e := by
      have hsl : (coreSlice s1 c).isNone = false := by rw [Option.isNone_eq_false_iff]; exact hslice1
      simp only [writeCtl, ← hs1, hbank h4, hmode1 hm, hsl, h0, h3, h7, Bool.false_eq_true, if_false, if_true]
    have hto := hto0.putEng { g with mode := .running, step := .armed, fetchAt := max g.fetchAt s.now, nextAt := max g.nextAt s.now }
    refine ⟨_, ?_, hsame hto, hto.engine⟩
    simp only [stepEngine, hto0.engine, hto0.now] at hwrite
    simp only [exec, execEngineStep, h3, h7, hctlWrite, hwrite]
    rfl
  case bank =>
    have hto := hto0.putEng { g with bank := bit v 4, queue := [], fetchAt := s.now }
    have hput := writeBank_halted (s := s1) (c := c) (e := e) (v := v) (by rw [hto0.engine]; exact h4) (hmode1 hm)
    rw [hto0.engine, hto0.now] at hput
    have hwrite : writeCtl s c e v = putEng s1 c e { g with bank := bit v 4, queue := [], fetchAt := s.now } := by
      have hhalt : (getEng (putEng s1 c e { g with bank := bit v 4, queue := [], fetchAt := s.now }) c e).mode ≠ .running := by
        rw [hto.engine]
        exact fun h => nomatch hm.symm.trans h
      simp only [writeCtl, ← hs1, hput, h0, h3, h7, Bool.false_eq_true, if_false]
      exact if_neg hhalt
    refine ⟨_, ?_, hsame hto, hto.engine⟩
    have hne : (bit v 4 != (getEng s c e).bank) = true := bne_iff_ne.2 h4
    simp only [exec, execEngineBankSelect, hne, if_true, hctlWrite, hwrite]
  case pc =>
    have hto := (EngineTo.refl s c e True).putEng { g with queue := [], pc := BitVec.ofNat 11 (bits v 10 0), fetchAt := s.now }
    refine ⟨_, ?_, hsame hto, hto.regs trivial, hto.log trivial, hto.engine⟩
    exact congrArg Host.Outcome.next ((hpc.hostWrite false _).trans (writePc_halted v hm))
  case drain =>
    have hwrite : writeCtl s c e v = drainEngine s1 c e := by
      simp only [writeCtl, ← hs1, hbank h4, hmode1 hm, h0, h3, h7, Bool.false_eq_true, if_false, if_true]
    obtain ⟨k, hk, hmode, hkpc, hkbank⟩ := drainEngine_running hstill1 ((congrArg Engine.wait hto0.engine).trans hw)
    have hto := hto0.trans hk
    refine ⟨_, ?_, hsame hto, ?_, ?_, ?_⟩
    · simp only [exec, execEngineDrain, h0, h3, h7, hctlWrite, hwrite]
      rfl
    · rw [hto.engine, hmode, hto0.quiet rfl]
    · rw [hto.engine, hkpc, hto0.engine]
    · rw [hto.engine, hkbank, hto0.engine]
  case abort =>
    have hna : (getEng s1 c e).mode ≠ .aborting := by
      rw [hto0.engine]
      rintro ha
      rcases hm with hm | hm <;> exact nomatch hm.symm.trans ha
    have hquietStep : (bit v 3 && (getEng s1 c e).mode != .halted) = false := by
      cases h : bit v 3 with
      | false => rfl
      | true => rw [hmode1 (h3 h)]; rfl
    have hwrite : writeCtl s c e v = abortEngine s1 c e .aborted clsNone none := by
      simp only [writeCtl, ← hs1, hbank h4, hquietStep, hna, h7, Bool.false_eq_true, if_false, if_true]
    have hidle : IdleCore s c := ⟨hi, hf, hsem, hst, ht⟩
    obtain ⟨hk, ev, hev, hcause, hcls⟩ := abortEngine_idle hstill1 (hto0.idle hidle) hna .aborted clsNone
    have hto := hto0.trans hk
    refine ⟨_, ev, ?_, hsame hto, ?_, ?_, ?_, ?_, hcause, hcls⟩
    · simp only [exec, execEngineAbort, h7, if_true, hctlWrite, hwrite]
    · rw [hto.engine]
    · rw [hto.engine]; rfl
    · rw [hto.engine, hto0.engine]; rfl
    · rw [hev, (writeLatcheck_writes hlat s c e).log]

end Sys2Proof.Machine

namespace Sys2Proof.Machine

/-! ENG.LDLOAD at the head of a calm core (R160, R198). -/

/-- A read of the scratchpads changes nothing where no error is recorded. -/
theorem touchRange_inPads {s : State} (hecc : s.ecc = []) {a : Nat} (ha : InPads a) (n : Nat) : touchRange s a n = s := by
  unfold touchRange
  split
  · rfl
  · exact still_foldl fun i _ => touchUnit_inPads hecc (ha.unit i)

theorem SamePads.loadWrites {s u : State} (h : SamePads s u) (c : CoreId) (w : W128) (t q : Nat) : loadWrites u c w t q = loadWrites s c w t q := by
  simp only [Machine.loadWrites, h.memBytes_padAddr, h.memPoison_padAddr]

/-- The record of an ENG.LDLOAD that has begun at t. -/
def loadBegun (i : Inst) (t q : Nat) : Inst :=
  { i with begun := true, start := t, doneAt := t + (4 + lddCount i.w) * q, prog := .ldload, finished := true }

theorem dropBranch_ldload (s : State) (c : CoreId) {i : Inst} (ho : opc i.w = 0x04) : dropBranch s c i = s := by
  unfold dropBranch
  rw [ho]
  exact if_neg fun h => Bool.false_ne_true h.2

/-- Where no event is logged, nothing halts an engine late. -/
theorem lateHalt_of_log {s v : State} (h : v.log = s.log) (c : CoreId) (e : EngId) (g : Engine) : lateHalt v c e (lateEvents s) g = g := by
  have hl : lateEvents s = lateEvents v := by rw [lateEvents, lateEvents, h]
  rw [hl, lateHalt_same]

/-- The engine with the entry writes of a load taken up among those still due. -/
def withLoads (g : Engine) (ws : List LdWrite) : Engine := { g with ldq := ws.foldl ldInsert g.ldq }

/-- An ENG.LDLOAD begins: its entries are due, its record is finished, and the engine goes on. -/
theorem beginInst_ldload {s v : State} {c : CoreId} {i : Inst} {q : Nat} {loading : Engine} (t : Nat) (ho : opc i.w = 0x04) (hecc : s.ecc = [])
    (hq : slotLen s c i.eng = q) (hload : withLoads (getEng s c i.eng) (loadWrites s c i.w t q) = loading)
    (hv : putInst (putEng s c i.eng loading) c (loadBegun i t q) = v) :
    beginInst s c i t = putEng v c i.eng (begunEng (getEng v c i.eng) i.id (t + q) t q none) := by
  subst hq hload
  have hwork : beginWork s c i t = (v, t + slotLen s c i.eng, none) := by
    unfold beginWork
    simp only [if_pos ho, touchRange_inPads hecc (inPads_padAddr c _), ← hv]
    rfl
  have hlog : v.log = s.log := hv ▸ rfl
  unfold beginInst
  rw [hwork]
  exact (dropBranch_ldload _ c ho).trans (congrArg (putEng v c i.eng) (lateHalt_of_log hlog c i.eng _))

/-- What an ENG.LDLOAD at the head of its core leaves as it begins at t. -/
theorem runOp_ldload {s : State} {c : CoreId} {e : EngId} {w : W128} {t : Nat} {d : LoopDesc} {g : Engine} (hc : CalmCore s c) (hecc : s.ecc = [])
    (hx : Executes s c e w t d g) (ho : opc w = 0x04) :
    let u := runOp s c e 0x04
    let q := slotLen s c e
    ∃ i g', i.w = w ∧ i.eng = e ∧ i.bank = g.bank ∧ i.idx = g.pc ∧ i.rd = d.rd ∧ i.wr = d.wr ∧
      u = { s with now := t, cores := u.cores } ∧ (∀ x : CoreId, x ≠ c → getCore u x = getCore s x) ∧ (∀ x, x ≠ e → getEng u c x = getEng s c x) ∧
      (∃ eng n a b, getCore u c = { getCore s c with eng := eng, insts := [loadBegun i t q], nextInst := n, claimAt := a, claimEng := b }) ∧
      getEng u c e = g' ∧ g'.mode = .running ∧ g'.pc = g.pc + 1 ∧ g'.queue = g.queue.drop 1 ∧ g'.nextAt = t + q ∧ g'.ldf = g.ldf ∧
      g'.ldq = (loadWrites s c w t q).foldl ldInsert g.ldq := by
  intro u q
  have hqs : slotLen s c e = q := rfl
  clear_value q
  obtain ⟨-, hnow, -, -⟩ := headOf_some hx.head
  have hcalm := atBegin_core (s := s) (c := c) (e := e) (w := w) (t := t) (d := d) (g := g) hc.insts
  have hrec : ∃ r i, atBegin (advance (putEng s c e g) t) c e w t d = (r, i) ∧ i.w = w ∧ i.eng = e ∧ i.bank = g.bank ∧ i.idx = g.pc ∧ i.rd = d.rd ∧ i.wr = d.wr := by
    refine ⟨_, _, rfl, rfl, rfl, ?_, ?_, rfl, rfl⟩ <;> simp [getCore, advance, putEng, putCore]
  obtain ⟨r, i, hri, hw, he, hb, hidx, hrd, hwr⟩ := hrec
  rw [hri] at hcalm
  obtain ⟨hinsts, heng, hothers, ⟨eng, ins, nn, ca, ce, hk⟩, hrest, hcores⟩ := hcalm
  rw [Nat.max_eq_right hnow] at hrest
  have hpads : SamePads s r := ⟨(congrArg State.mem hrest :), (congrArg State.poison hrest :)⟩
  have hq : slotLen r c e = q := (slotLen_congr (rget_congr (congrArg State.regs hrest) _)).trans hqs
  rw [hqs] at heng
  dsimp only at hinsts heng hothers hk hrest hcores
  obtain ⟨loading, hload⟩ : ∃ g, g = withLoads (getEng r c e) (loadWrites s c w t q) := ⟨_, rfl⟩
  obtain ⟨v, hv⟩ : ∃ v, putInst (putEng r c e loading) c (loadBegun i t q) = v := ⟨_, rfl⟩
  obtain ⟨g', hg'⟩ : ∃ g', begunEng (getEng v c e) i.id (t + q) t q none = g' := ⟨_, rfl⟩
  have hbegin : beginInst r c i t = putEng v c e g' := by
    rw [← hg', ← he]
    refine beginInst_ldload t (hw ▸ ho) ((congrArg State.ecc hrest).trans hecc) (he ▸ hq) ?_ (he ▸ hv)
    rw [he, hw, hpads.loadWrites, hload]
  have hvcore : getCore v c = { engPut (getCore r c) e loading with insts := [loadBegun i t q] } := by
    have h := getCore_putInst (s := putEng r c e loading) (c := c) (i := i) (j := loadBegun i t q) (by rw [putEng, getCore_putCore]; exact hinsts) rfl
    rwa [hv, putEng, getCore_putCore] at h
  have hcore : getCore (putEng v c e g') c = engPut { engPut (getCore r c) e loading with insts := [loadBegun i t q] } e g' := by
    rw [putEng, getCore_putCore, hvcore]
  have hveng : getEng v c e = loading := by rw [getEng, hvcore]; exact engGet_engPut ..
  have hengs (x : EngId) (hxe : x ≠ e) : getEng (putEng v c e g') c x = getEng s c x := by
    rw [getEng, hcore, engGet_engPut_ne _ _ hxe, ← hothers x hxe]
    exact engGet_engPut_ne _ _ hxe
  have hrun : u = putEng v c e g' := by
    refine runOp_calm hc hx ho (fun _ => rfl) (by rw [hri]; exact hbegin) (fun j hj => ?_) fun x => ?_
    · rw [hcore] at hj
      rw [List.mem_singleton.1 hj]
      exact ⟨rfl, nofun⟩
    · by_cases hxe : x = e
      · exact .inr (.inr (by rw [hcore, hxe]; simp [anyInst, engPut, loadBegun, he]))
      · rw [hengs x hxe]
        exact (hc.modes x).elim .inl fun h => .inr (.inl h)
  have hg'eng : g' = { withLoads (popHead g (t + q)) (loadWrites s c w t q) with nextAt := max (t + q) (t + q) } := by
    rw [← hg', hveng, hload, heng]
    simp [begunEng, stepBegun, withLoads, popHead, hx.step]
  refine ⟨i, g', hw, he, hb, hidx, hrd, hwr, ?_, ?_, hrun ▸ hengs, ⟨(getCore u c).eng, nn, ca, ce, ?_⟩, ?_, ?_, ?_, ?_, ?_, ?_, ?_⟩
  · rw [hrun, ← hv]
    exact putCore_rest (putCore_rest (putCore_rest hrest c _) c _) c _
  · intro x hxc
    rw [hrun, ← hv, putEng, getCore_putCore_ne _ _ hxc, putInst, getCore_putCore_ne _ _ hxc, putEng, getCore_putCore_ne _ _ hxc, hcores x hxc]
  · rw [hrun, hcore, hk]; rfl
  · rw [hrun, getEng_putEng]
  · rw [hg'eng]; exact hx.running
  · rw [hg'eng]; rfl
  · rw [hg'eng]; rfl
  · rw [hg'eng]; exact Nat.max_self _
  · rw [hg'eng]; rfl
  · rw [hg'eng]; rfl

/-- Settles O6: the source lies in the scratchpads, so reading it changes nothing, and the entries join those still due. -/
theorem ldloadCopiesEntries : Obligations.LdloadCopiesEntries := by
  intro s c e w t d g hc hecc hx ho q
  obtain ⟨i, g', hw, he, hb, hidx, hrd, hwr, hrest, hothers, hengs, ⟨eng, n, a, b, hcore⟩, hg, hmode, hpc, hqueue, hnext, hldf, hldq⟩ :=
    runOp_ldload hc hecc hx ho
  obtain ⟨-, -, -, hhead⟩ := headOf_some hx.head
  have hgq : g.ldq = (getEng s c e).ldq := by rw [hhead]
  have hgf : g.ldf = (getEng s c e).ldf := by rw [hhead]
  obtain ⟨hmem, hunits, hregs, -, hnow⟩ := same_of_cores hrest
  refine ⟨_, rfl, ?_, by rw [hg, hldq, hgq]; rfl, by rw [hg, hldf, hgf], by rw [hcore], by rw [hcore], by rw [hcore]⟩
  exact {
    now := hnow
    pc := by rw [hg, hpc]
    queue := by rw [hg, if_pos hmode, hqueue]
    next := by rw [hg, hnext]
    record := ⟨loadBegun i t q, by rw [hcore], hw, he, hb, hidx, hrd, hwr, rfl, rfl, rfl, by rw [← hw]; rfl⟩
    memory := hmem
    units := hunits
    cores := {
      others := hothers
      engines := hengs
      vregs := by rw [hcore]
      xregs := by rw [hcore]
      slots := by rw [hcore]
      sem := by rw [hcore]
      ctx := by rw [hcore]
      sen := by rw [hcore]
      tasks := by rw [hcore] }
    regs := fun _ => ⟨hregs, by rw [hrest]⟩ }

end Sys2Proof.Machine

namespace Sys2Proof.Machine

/-! An instruction retires (R149, R160, R162). -/

theorem padWrites_retagStores (s : State) (c : CoreId) (i : Inst) : PadWrites s (retagStores s c i) := by
  unfold retagStores
  split
  · split
    · exact padWrites_tagStore ..
    · exact .refl s
  · refine List.foldlRecOn (motive := PadWrites s) _ _ (.refl s) fun v hv x _ => ?_
    dsimp only
    split
    · exact hv.trans (padWrites_tagStore ..)
    · exact hv
  · exact .refl s

/-- Entries written to a loop-descriptor file leave the rest of the engine. -/
theorem foldl_putLd_mode (l : List LdWrite) (g : Engine) : (l.foldl putLd g).mode = g.mode := by
  refine List.foldlRecOn (motive := fun x => x.mode = g.mode) l putLd rfl fun x hx w _ => ?_
  unfold putLd
  split <;> exact hx

/-- What the end of its work changes beside the record of an instruction: the entries of a load, the context and the counters of a moult
instruction. -/
def retireWork (s : State) (c : CoreId) (i : Inst) : State :=
  match i.prog with
  | .ldload => finishLoad s c i.eng s.now
  | .mle flags => retireMle s c i flags
  | _ => s

/-- The state without the record of an instruction. -/
def dropInst (s : State) (c : CoreId) (id : Nat) : State := putCore s c { getCore s c with insts := (getCore s c).insts.filter fun x => x.id != id }

@[simp] theorem rfld_dropInst (s : State) (c : CoreId) (id : Nat) (r : Reg) (hi lo : Nat) : rfld (dropInst s c id) r hi lo = rfld s r hi lo := rfl

theorem retireInst_eq (s : State) (c : CoreId) (i : Inst) :
    retireInst s c i = settleCore (dropInst (retireWork (retagStores (advance s i.doneAt) c i) c i) c i.id) c := rfl

section Cases
variable {s : State} {c : CoreId} {i : Inst}

theorem retireWork_plain (h : i.prog = .plain) : retireWork s c i = s := by rw [retireWork, h]
theorem retireWork_ldload (h : i.prog = .ldload) : retireWork s c i = finishLoad s c i.eng s.now := by rw [retireWork, h]
theorem retireWork_mle {n : Nat} (h : i.prog = .mle n) : retireWork s c i = retireMle s c i n := by rw [retireWork, h]
theorem retagStores_plain (h : i.prog = .plain) : retagStores s c i = s := by rw [retagStores, h]
theorem retireMle_select {n : Nat} (h : opc i.w = 0x40) : retireMle s c i n = putCtx s c (bits i.w 114 113) (selCtx i.w) := if_pos h
theorem retireMle_refused (h : opc i.w ≠ 0x40) : retireMle s c i 1 =
    rbump (logEng s c (engIdx .mle) (stCode .moultPoison) clsTask i.bank i.idx 0) (.eng c .mle .stat) 31 16 1 := if_neg h
theorem retireMle_short (h : opc i.w ≠ 0x40) : retireMle s c i 2 = rbump s (.eng c .mle .stat) 47 32 1 := if_neg h

end Cases

/-- The engine of a load whose entries due by t are made. -/
def loadedEng (g : Engine) (t : Nat) : Engine :=
  { (g.ldq.filter fun x => decide (x.due ≤ t)).foldl putLd g with ldq := g.ldq.filter fun x => decide (t < x.due) }

theorem finishLoad_to (s : State) (c : CoreId) (e : EngId) (t : Nat) : EngineTo s (finishLoad s c e t) c e (loadedEng (getEng s c e) t) False := by
  have h : EngineTo s (putEng s c e (loadedEng (getEng s c e) t)) c e (loadedEng (getEng s c e) t) False := (EngineTo.refl s c e False).putEng _
  unfold finishLoad
  dsimp only
  split
  · exact h.logEng ..
  · exact h

theorem retireMle_to (s : State) (c : CoreId) (i : Inst) (n : Nat) : ∃ ctx, CoreTo s (retireMle s c i n) c { getCore s c with ctx := ctx } False := by
  have h := CoreTo.refl s c False
  unfold retireMle
  split_ifs
  · exact ⟨_, h.put⟩
  · exact ⟨_, (h.logEng ..).rbump ..⟩
  · exact ⟨_, h.rbump ..⟩
  · exact ⟨_, h⟩

/-- The end of an instruction's work changes its core's engines and contexts at most, and no engine's mode. -/
theorem retireWork_to (s : State) (c : CoreId) (i : Inst) :
    (∃ eng ctx vres xres, CoreTo s (retireWork s c i) c { getCore s c with eng := eng, ctx := ctx, vres := vres, xres := xres } False) ∧
      ∀ e, (getEng (retireWork s c i) c e).mode = (getEng s c e).mode := by
  unfold retireWork
  split
  · have h := finishLoad_to s c i.eng s.now
    obtain ⟨_, _, _, hc⟩ := h.core
    refine ⟨⟨_, _, _, _, hc⟩, fun e => ?_⟩
    by_cases he : e = i.eng
    · rw [he, h.engine]; exact foldl_putLd_mode ..
    · rw [h.engines e he]
  · obtain ⟨_, h⟩ := retireMle_to s c i _
    exact ⟨⟨_, _, _, _, h⟩, fun e => by rw [h.eng]; rfl⟩
  · exact ⟨⟨_, _, _, _, .refl s c False⟩, fun _ => rfl⟩

/-- Settles O21: the work's end touches no record and no mode, so nothing follows the release of the claim. -/
theorem finishedInstructionsRetire : Obligations.FinishedInstructionsRetire := by
  intro s c i hinst hretire hstill t
  have hv := padWrites_retagStores (advance s i.doneAt) c i
  set v := retagStores (advance s i.doneAt) c i with hvdef
  obtain ⟨⟨eng, ctx, vres, xres, hto⟩, hmode⟩ := retireWork_to v c i
  have hvcore : getCore v c = getCore s c := hv.core c
  have hveng (e : EngId) : getEng v c e = getEng s c e := by rw [getEng, hvcore]; rfl
  have hvreg (r : Reg) : rget v r = rget s r := rget_congr (by rw [hv.rest]; rfl) r
  have hvlog : v.log = s.log := by rw [hv.rest]; rfl
  have hvnow : v.now = t := by rw [hv.rest]; rfl
  have hdrop : CoreTo v (dropInst (retireWork v c i) c i.id) c _ False := hto.put
  have hdeng (e : EngId) : getEng (dropInst (retireWork v c i) c i.id) c e = getEng (retireWork v c i) c e := by
    rw [dropInst, getEng, getCore_putCore]; rfl
  have hinsts : (getCore (dropInst (retireWork v c i) c i.id) c).insts = (getCore s c).insts.filter (fun x => x.id != i.id) := by
    rw [hdrop.core, hto.core, hvcore]
  have hrun : exec (.instructionRetire c (.inst i.id)) s = .next (dropInst (retireWork v c i) c i.id) := by
    have hexec : exec (.instructionRetire c (.inst i.id)) s = .next (retireInst s c i) := by
      show execInstructionRetire c (.inst i.id) s = _
      simp only [execInstructionRetire, hinst, hretire, if_true]
    rw [hexec, retireInst_eq, ← hvdef, hstill.settle (fun x hx => List.mem_of_mem_filter (hinsts ▸ hx))]
    exact fun e => by rw [hdeng, hmode, hveng]; exact hstill.modes e
  refine ⟨_, hrun, hdrop.now.trans hvnow, hinsts, hdrop.memory, SameUnits_trans ?_ hdrop.units, fun x hx => ?_, fun hp => ?_, fun hp => ?_,
    fun n hp ho => ?_, fun hp ho => ?_, fun hp ho => ?_⟩
  · rw [hv.rest]; constructor <;> rfl
  · rw [hdrop.others x hx, hv.core]; rfl
  · have hvs : v = advance s i.doneAt := retagStores_plain hp
    rw [retireWork_plain hp, hvs]
    exact ⟨rfl, rfl, rfl⟩
  · have hend := (finishLoad_to v c i.eng v.now).engine
    rw [hdeng, retireWork_ldload hp, hend, hveng, hvnow]
    exact ⟨rfl, rfl⟩
  · rw [hdrop.core, retireWork_mle hp, retireMle_select ho]
    simp only [putCtx, getCore_putCore, tget_tset_self]
    rfl
  · rw [retireWork_mle hp, retireMle_refused ho]
    have hlog : Logged v (logEng v c (engIdx .mle) (stCode .moultPoison) clsTask i.bank i.idx 0) [stCode .moultPoison] := logged_logEv ..
    refine ⟨?_, ?_⟩
    · rw [rfld_dropInst, rfld_rbump_self _ _ _ _ (by decide), rfld_congr ((hlog.rget _).trans (hvreg _))]
      norm_num
    · obtain ⟨evs, hevs, hcauses⟩ := hlog.events
      exact ⟨evs, hvlog ▸ hevs, hcauses⟩
  · rw [retireWork_mle hp, retireMle_short ho]
    refine ⟨?_, ?_⟩
    · rw [rfld_dropInst, rfld_rbump_self _ _ _ _ (by decide), rfld_congr (hvreg _)]
      norm_num
    · exact hvlog

end Sys2Proof.Machine

namespace Sys2Proof.Machine

/-! The data window of an engine's instruction memory (R183, R184). -/

/-- Clearing a range of keys clears each of them. -/
theorem tget_tclear_in {α : Type} (t : Tab α) (d : α) {lo n k : Nat} (h : lo ≤ k ∧ k < lo + n) : tget (tclear t lo n) d k = d := by
  refine tget_none fun p hp hk => ?_
  have hout := (List.mem_filter.1 hp).2
  simp [hk, h] at hout

theorem length_leBytes (n v : Nat) : (leBytes n v).length = n := by
  induction n generalizing v with
  | zero => rfl
  | succ n ih => rw [leBytes, List.length_cons, ih]

section Window
variable {s u : State} {c : CoreId} {e : EngId}

/-- The index moves on within the target (R183). -/
theorem rfld_imAdvance (h : rget u (.eng c e .imAddr) = rget s (.eng c e .imAddr)) : rfld (imAdvance u c e) (.eng c e .imAddr) 10 0 =
    (rfld s (.eng c e .imAddr) 10 0 + 1) % (if rfld s (.eng c e .imAddr) 13 12 = 2 then 256 else 2048) := by
  rw [imAdvance, rfld_congr h, rfld_congr h]
  refine rfld_rsetf_self _ _ (by decide) ?_
  split <;> omega

theorem imAdvance_writes (s : State) (c : CoreId) (e : EngId) : Writes (· = .eng c e .imAddr) s (imAdvance s c e) := writes_rsetf s _ _ _ rfl

theorem writeDataHi_accepted {v : W64}
    (h : putImWord s c e (rfld s (.eng c e .imAddr) 13 12) (rfld s (.eng c e .imAddr) 10 0) (v ++ rget s (.eng c e .dataLo)) = (u, none)) :
    writeDataHi s c e v = imAdvance u c e := by
  simp only [writeDataHi, h]

variable {i : Nat} {w : W128} (hm : (getEng s c e).mode = .halted)
include hm

theorem putImWord_bank {t : Nat} (ht : t ≠ 2) :
    putImWord s c e t i w = (putEng s c e (putWords (getEng s c e) (t == 1) i [w]), none) := by
  have hopen : bankOpen (getEng s c e) (t == 1) = true := by rw [bankOpen, hm]; rfl
  simp only [putImWord, if_neg ht, if_pos hopen]

theorem putImWord_file (hi : 8 ≤ i % 256) : putImWord s c e 2 i w = (putEng s c e (putLdWord (getEng s c e) (i % 256) w), none) := by
  simp only [putImWord, hm, if_true, ne_eq, not_true, if_false, if_neg (show ¬ i % 256 < 8 by omega)]

theorem putImWord_entryZero (hi : i % 256 < 8) : putImWord s c e 2 i w = (logCtl s c e ntGeneral .dataHi, none) := by
  simp only [putImWord, hm, if_true, ne_eq, not_true, if_false, if_pos hi]

/-- A write at a HALTED engine is accepted, and changes that engine at most. -/
theorem putImWord_halted (t : Nat) : ∃ x g, putImWord s c e t i w = (x, none) ∧ EngineTo s x c e g False ∧ x.regs = s.regs ∧
    (t ≠ 2 → g = putWords (getEng s c e) (t == 1) i [w]) ∧ (t = 2 → 8 ≤ i % 256 → g = putLdWord (getEng s c e) (i % 256) w) ∧
    (t = 2 → i % 256 < 8 → x.cores = s.cores) := by
  have hself := EngineTo.refl s c e False
  by_cases ht : t = 2
  · subst ht
    by_cases hi : i % 256 < 8
    · exact ⟨_, _, putImWord_entryZero hm hi, hself.logEng .., rfl, nofun, fun _ _ => by omega, fun _ _ => rfl⟩
    · exact ⟨_, _, putImWord_file hm (by omega), hself.putEng _, rfl, nofun, fun _ _ => rfl, fun _ _ => by omega⟩
  · exact ⟨_, _, putImWord_bank hm ht, hself.putEng _, rfl, fun _ => rfl, fun h => absurd h ht, fun h => absurd h ht⟩

end Window

/-- What a read of a register's offset returns to a function that reaches it. -/
theorem readBar0_reached {s : State} {f : FuncId} {r : Reg} (hb : r ≠ .bootStatus) (hready : hubReady s = true)
    (hreach : reaches s f (regOff r) false = true) : readBar0 s f (regOff r) = (s, viewReg s f r) := by
  unfold readBar0
  rw [regOf_regOff_self]
  split
  · next h => exact absurd (Option.some.inj h) hb
  · simp only [hready, hreach, Bool.not_true, Bool.false_eq_true, if_false]

/-- Settles O30: the window writes one word of one engine and moves INDEX on; a read moves INDEX on alone. -/
theorem instructionMemoryIsWrittenAndRead : Obligations.InstructionMemoryIsWrittenAndRead := by
  intro s f c e v hok hreads hm tgt i w next
  constructor
  · obtain ⟨x, g, hput, hx, hregs, hbank, hfile, hzero⟩ := putImWord_halted (i := i) (w := w) hm tgt
    have hexec : exec (.imDataHiWrite f c e v) s = .next (imAdvance x c e) := by
      simp only [exec, execImDataHiWrite, hok.hostWrite, writeDataHi_accepted hput]
    have hu := hx.writes (imAdvance_writes x c e)
    have hcores : (imAdvance x c e).cores = x.cores := by rw [(imAdvance_writes x c e).rest]
    refine ⟨_, hexec, rfld_imAdvance (rget_congr hregs _), hu.memory, hu.units, hu.engines, hu.others, fun ht => ?_, fun ht hi => ?_,
      fun ht hi => hcores.trans (hzero ht hi)⟩
    · rw [hu.engine, hbank ht]
      refine ⟨tget_twrite_in _ _ _ [w] 0 Nat.zero_lt_one, tget_tclear_in _ _ ⟨Nat.le_refl _, by simp⟩, fun k hk => tget_twrite_out _ _ _ _ _ ?_⟩
      rw [List.length_singleton]
      omega
    · rw [hu.engine, hfile ht hi]
      have hlen : (leBytes 16 w.toNat).length = 16 := length_leBytes ..
      exact ⟨fun n hn => tget_twrite_in _ _ _ _ _ (by rw [hlen]; exact hn), fun k hk => tget_twrite_out _ _ _ _ _ (by rw [hlen]; exact hk), rfl⟩
  · have hread := readBar0_reached (r := .eng c e .dataHi) (by simp) hok.ready hreads
    set reply := emit s (.readReply f (leBytes 8 ((imWord s c e >>> 64).setWidth 64).toNat) false) with hreply
    have hexec : exec (.imDataHiRead f c e) s = .next (imAdvance reply c e) := by
      simp only [exec, execImDataHiRead, hread, hok.exist, hok.ready, hreads, Bool.not_true, Bool.false_eq_true, Bool.and_true, if_false, if_true]
      rfl
    have hrest := (imAdvance_writes reply c e).rest
    refine ⟨_, hexec, rfld_imAdvance rfl, ?_, ?_, ?_⟩
    · rw [hrest]; rfl
    · rw [hrest]; constructor <;> rfl
    · rw [hrest]; rfl

end Sys2Proof.Machine

namespace Sys2Proof.Machine

/-! SET_QUOTA of a VF's credits where two taken packets bear one number (R384, R396). A device that numbers the packets it takes in order does not come
into such a state, but the statement speaks of every state. -/

/-- SET_QUOTA of 7 credits for the VF of slice 0. -/
def quotaPacket : Taken :=
  ⟨0, 0, 0, bytesAt (leBytes 2 opQuota ++ [0, 0] ++ leBytes 4 0 ++ leBytes 8 2 ++ leBytes 8 7) 0 64, false, 0, 0, false, false, none, none, 0⟩

/-- A QUERY_SLICE of that VF under the same number. -/
def twinPacket : Taken := { quotaPacket with f := 1, bytes := bytesAt (leBytes 2 opQuery) 0 64 }

/-- A READY device with the two packets taken, and 16 slots in ring 0 of the PF. -/
def twinState : State :=
  let s := fput (rsetf State.reset .bootStatus 0 0 1) 0 (.ringCtl 0) (BitVec.ofNat 64 (4 * 256 + 1))
  { s with mp := { s.mp with taken := [quotaPacket, twinPacket] } }

theorem turnCome_twin : TurnCome twinState 0 opQuota quotaPacket where
  taken := by decide
  op := by decide
  fresh := rfl
  ready := by decide
  turn := by decide

theorem cqFree_twin : CqFree twinState 0 0 where
  replies := rfl
  room := by decide

/-- The VF uses one credit. -/
theorem quotaUse_twin : quotaUse twinState 0 (pkF quotaPacket.bytes 0 1 0) = 1 := by decide

/-- What a command has put out. -/
def outOf : Out → List OutEv
  | .next u => u.out
  | _ => []

/-- SET_QUOTA replaces both records as it begins, and tells that no credit is in use. -/
theorem outOf_setQuota_twin : outOf (exec (.setQuota 0) twinState) = [.hostWrite 0 0 (setNth (mkReply (stCode .ok) 0 0 0 0 0 0 0) 2 0x80)] := by
  decide

theorem irq_quotaPacket : ¬ pkIrq quotaPacket.bytes = true := by decide

/-- Refutes O46: a packet's record is replaced by its number, so where another taken packet, of the slice's VF, bears the number of a
SET_QUOTA, the credits in use that its reply tells are not those in use before it. -/
theorem not_programAndSliceSettingsComplete : ¬ Obligations.ProgramAndSliceSettingsComplete := by
  intro h
  obtain ⟨hslice, -⟩ := h twinState 0 quotaPacket cqFree_twin rfl
  obtain ⟨-, -, -, -, hquota⟩ := hslice 0 (by decide)
  obtain ⟨u, hexec, ⟨-, pre, -, hout⟩, -⟩ := hquota turnCome_twin
  have hsent := outOf_setQuota_twin
  rw [hexec, outOf, hout, if_neg irq_quotaPacket] at hsent
  obtain ⟨-, hbytes⟩ := OutEv.hostWrite.inj (List.cons.inj hsent).1
  simp only [quotaUse_twin] at hbytes
  exact absurd hbytes (by decide)

end Sys2Proof.Machine

namespace Sys2Proof.Machine

/-! The register operations of the scalar engine (R211). -/

theorem xMin_eq (a b : W64) : xMin a b = if b.toInt < a.toInt then b else a := by simp [xMin, BitVec.slt]
theorem xMax_eq (a b : W64) : xMax a b = if a.toInt < b.toInt then b else a := by simp [xMax, BitVec.slt]
theorem xMinU_eq (a b : W64) : xMinU a b = if b.toNat < a.toNat then b else a := by simp [xMinU, BitVec.ult]
theorem xMaxU_eq (a b : W64) : xMaxU a b = if a.toNat < b.toNat then b else a := by simp [xMaxU, BitVec.ult]
theorem xSlt_eq (a b : W64) : xSlt a b = if a.toInt < b.toInt then 1 else 0 := by simp [xSlt, BitVec.slt]
theorem xSltU_eq (a b : W64) : xSltU a b = if a.toNat < b.toNat then 1 else 0 := by simp [xSltU, BitVec.ult]

/-- A row of the scalar register operations: the command runs opcode x.2.1, which is no branch and reaches no memory, with its latency, and the
model's result of a pipe, with the poison of the sources it reads, is x.2.2.2 of the row. -/
structure ScalarRow (x : (CoreId → Instr) × Nat × Nat × (W128 → XReg → XReg → XReg)) : Prop where
  run : ∀ c s, exec (x.1 c) s = .next (runOp s c .sxe x.2.1)
  register : x.2.1 ≠ 0x58 ∧ x.2.1 ≠ 0x59 ∧ x.2.1 ≠ 0x68 ∧ x.2.1 ≠ 0x04 ∧ sxeBranch x.2.1 = false
  latency : sxeLat x.2.1 = x.2.2.1
  result : ∀ (w : W128) (a b : XReg),
    (⟨sxeResult x.2.1 a.v b.v (xImm w), (sxeUsesA x.2.1 && a.p) || (sxeUsesB x.2.1 && b.p)⟩ : XReg) = x.2.2.2 w a b

/-- Settles O13: each row is a scalar register operation, whose results are those of its loop nest. -/
theorem sxeRegisterOperationsComplete : Obligations.SxeRegisterOperationsComplete := by
  intro x hx s c w t d g hc hexec hop q
  have hrow : ScalarRow x := by
    simp only [List.mem_cons, List.not_mem_nil, or_false] at hx
    rcases hx with rfl | rfl | rfl | rfl | rfl | rfl | rfl | rfl | rfl | rfl | rfl | rfl | rfl | rfl | rfl | rfl | rfl | rfl | rfl | rfl
    all_goals
      refine ⟨fun _ _ => rfl, by decide, rfl, fun w a b => ?_⟩
      simp [sxeResult, sxeUsesA, sxeUsesB, sxeBranch, xAdd, xSub, xMul, xAnd, xOr, xXor, xShl, xShr, xSar, xMin_eq, xMax_eq, xMinU_eq, xMaxU_eq,
        xSlt_eq, xSltU_eq, popcount, clz, ctz]
  obtain ⟨h58, h59, h68, h04, hbranch⟩ := hrow.register
  obtain ⟨hran, hvres, hxres, hstores⟩ :=
    sxe_ran hc hexec (x.2.2.2 w) x.2.1 x.2.2.1 hop h58 h59 h68 h04 hbranch hrow.latency (hrow.result w)
  exact ⟨_, hrow.run c s, hran, hxres, hvres, hstores⟩

end Sys2Proof.Machine

namespace Sys2Proof.Machine

/-! What an instruction that keeps a record leaves as it begins at its dispatch in a calm core (R149, R162, R163, R170). -/

section CoreTo
variable {s u v : State} {c : CoreId} {k k' : Core} {p q : Prop}

theorem CoreTo.trans (h : CoreTo s u c k q) (h' : CoreTo u v c k' p) : CoreTo s v c k' (q ∧ p) := by
  obtain ⟨cs, r, a, b, l, rfl, hc, ho, hq⟩ := h.eq
  obtain ⟨cs', r', a', b', l', rfl, hc', ho', hp⟩ := h'.eq
  exact ⟨cs', r', a', b', l', rfl, hc', fun x hx => (ho' x hx).trans (ho x hx),
    fun hqp => ⟨(hp hqp.2).1.trans (hq hqp.1).1, (hp hqp.2).2.trans (hq hqp.1).2⟩⟩

theorem CoreTo.mono (h : CoreTo s u c k q) (hpq : p → q) : CoreTo s u c k p := by
  obtain ⟨cs, r, a, b, l, he, hc, ho, hq⟩ := h.eq
  exact ⟨cs, r, a, b, l, he, hc, ho, fun hp => hq (hpq hp)⟩

/-- The core's only record stored again. -/
theorem CoreTo.putInst {i j : Inst} (h : CoreTo s u c k q) (hi : k.insts = [i]) (hid : j.id = i.id) :
    CoreTo s (putInst u c j) c { k with insts := [j] } q := by
  have hmap : (k.insts.map fun x => if x.id == j.id then j else x) = [j] := by simp [hi, hid]
  rw [Machine.putInst, h.core, hmap]
  exact h.put

theorem CoreTo.samePads (h : CoreTo s u c k q) : SamePads s u := ⟨h.memory.mem, h.memory.poison⟩

theorem CoreTo.ecc (h : CoreTo s u c k q) (hecc : s.ecc = []) : u.ecc = [] := h.memory.ecc.trans hecc

end CoreTo

/-- The engine g, with b as one that drains from a-cycle t on, its fetches up to then made (R170). -/
def drainedIf (b : Bool) (t : Nat) (g : Engine) : Engine := if b then { catchUp g t with mode := .draining } else g

theorem lateHalt_eq_drainedIf (s : State) (c : CoreId) (e : EngId) (late : Nat) (g : Engine) :
    ∃ b : Bool, lateHalt s c e late g = drainedIf b s.now g ∧ (b = true → latcheck s c e = 2 ∧ g.mode = .running) := by
  by_cases h : latcheck s c e = 2 ∧ late < lateEvents s ∧ g.mode = .running
  · obtain ⟨hl, -, hm⟩ := id h
    exact ⟨true, if_pos h, fun _ => ⟨hl, hm⟩⟩
  · exact ⟨false, if_neg h, nofun⟩

variable {s : State} {c : CoreId} {e : EngId} {w : W128} {t : Nat} {d : LoopDesc} {g : Engine}

/-- The record of the head as it is dispatched at t (R149, R212). -/
def headRecord (s : State) (c : CoreId) (e : EngId) (w : W128) (t : Nat) (d : LoopDesc) (g : Engine) : Inst :=
  ⟨(getCore s c).nextInst, e, w, g.bank, g.pc, d, d.rd, d.wr, d.rd != 0 || d.wr != 0, (List.range 8).map fun p => sxeAddr (getCore s c) t w p,
   false, t, t, .plain, false⟩

/-- The engine of the head as it is dispatched at t: past it, and held by its record. -/
def headPassed (s : State) (c : CoreId) (e : EngId) (t : Nat) (g : Engine) : Engine :=
  { popHead g (t + slotLen s c e) with wait := .claim (getCore s c).nextInst }

/-- The core with record i of engine e added, which claims at t what it claims (R162). -/
def withRecord (k : Core) (e : EngId) (i : Inst) (t : Nat) : Core :=
  { k with
    insts := k.insts ++ [i]
    nextInst := k.nextInst + 1
    claimAt := if i.claims then t else k.claimAt
    claimEng := if i.claims then engIdx e else k.claimEng }

/-- The state in which the head, dispatched at t, may begin. -/
def entered (c : CoreId) (e : EngId) (s : State) (t : Nat) (w : W128) (d : LoopDesc) : State :=
  let k := getCore s c
  let i := headRecord s c e w t d (engGet k e)
  let u := if e = .sxe then lateReads s c e i (sxeLateBase k t w) else s
  putCore u c (engPut (withRecord k e i t) e (lateHalt u c e (lateEvents s) (headPassed s c e t (engGet k e))))

theorem dispatchInst_entered (h : (getCore s c).insts = []) : dispatchInst c e s t w d = settleCore (entered c e s t w d) c := by
  have hk : heldClaims (getCore s c) = 0 := by simp [heldClaims, h]
  unfold dispatchInst
  simp only [hk, show decide (64 ≤ 0) = false from rfl, Bool.and_false, Bool.false_eq_true, if_false]
  rfl

/-- The only record of a core begins at once. -/
theorem settleCore_one {i : Inst} (hi : (getCore s c).insts = [i]) (hb : i.begun = false) :
    settleCore s c = allEng.foldl (fun s e => settleEngine s c e) (pumpAll (beginInst s c i s.now) c) := by
  have hmay : mayBegin (getCore s c) i = true := by simp [mayBegin, hi]
  unfold settleCore startReady instOf
  rw [hi]
  simp only [List.map_cons, List.map_nil, List.foldl_cons, List.foldl_nil, List.find?_cons, beq_self_eq_true, hi, hb, hmay, Bool.not_false,
    Bool.and_self, if_true]

/-- No register is read at the dispatch, or none of those reads is checked (R170). -/
def NoLateRead (s : State) (c : CoreId) (e : EngId) (w : W128) : Prop := latcheck s c e = 0 ∨ (e = .sxe → sxeMem (opc w) = false)

/-- The head has been dispatched at t, its record the core's only one and its engine past it; a read of a late register may have been
counted and logged, and have its engine drain. -/
structure Entered (s m : State) (c : CoreId) (e : EngId) (w : W128) (t : Nat) (d : LoopDesc) (g : Engine) : Prop where
  core : ∃ eng n a b, CoreTo (advance s t) m c
    { getCore s c with eng := eng, insts := [headRecord s c e w t d g], nextInst := n, claimAt := a, claimEng := b } (NoLateRead s c e w)
  engine : ∃ b, getEng m c e = drainedIf b t (headPassed s c e t g) ∧ (b = true → latcheck s c e = 2)
  engines : ∀ x, x ≠ e → getEng m c x = getEng s c x
  latcheck : latcheck m c e = latcheck s c e

theorem Entered.now {m : State} (h : Entered s m c e w t d g) (ht : s.now ≤ t) : m.now = t := by
  obtain ⟨_, _, _, _, hto⟩ := h.core
  exact hto.now.trans (Nat.max_eq_right ht)

theorem Entered.insts {m : State} (h : Entered s m c e w t d g) : (getCore m c).insts = [headRecord s c e w t d g] := by
  obtain ⟨_, _, _, _, hto⟩ := h.core
  rw [hto.core]

theorem Entered.slotLen {m : State} (h : Entered s m c e w t d g) : slotLen m c e = slotLen s c e := by
  rw [Machine.slotLen, Machine.slotLen, h.latcheck]

theorem Entered.samePads {m : State} (h : Entered s m c e w t d g) : SamePads s m := by
  obtain ⟨_, _, _, _, hto⟩ := h.core
  exact (samePads_advance s t).trans hto.samePads

theorem Entered.ecc {m : State} (h : Entered s m c e w t d g) (hecc : s.ecc = []) : m.ecc = [] := by
  obtain ⟨_, _, _, _, hto⟩ := h.core
  exact hto.ecc hecc

/-- What is in flight is as it was. -/
theorem Entered.flight {m : State} (h : Entered s m c e w t d g) : (getCore m c).vres = (getCore s c).vres ∧
    (getCore m c).xres = (getCore s c).xres ∧ (getCore m c).stores = (getCore s c).stores ∧ (getCore m c).resSeq = (getCore s c).resSeq := by
  obtain ⟨_, _, _, _, hto⟩ := h.core
  rw [hto.core]
  exact ⟨rfl, rfl, rfl, rfl⟩

theorem Entered.vregAt {m : State} (h : Entered s m c e w t d g) (u r : Nat) : vregAt (getCore m c) u r = vregAt (getCore s c) u r := by
  obtain ⟨_, _, _, _, hto⟩ := h.core
  rw [hto.core]; rfl

theorem Entered.xregAt {m : State} (h : Entered s m c e w t d g) (u p r : Nat) :
    xregAt (getCore m c) u p r = xregAt (getCore s c) u p r := by
  obtain ⟨_, _, _, _, hto⟩ := h.core
  rw [hto.core]; rfl

/-- A read of late registers at the dispatch changes registers, their counts and the log alone. -/
theorem entered_late (v : State) (c : CoreId) (e : EngId) (w : W128) (t : Nat) (i : Inst) :
    let u := if e = .sxe then lateReads v c e i (sxeLateBase (getCore v c) t w) else v
    CoreTo v u c (getCore v c) (NoLateRead v c e w) ∧ latcheck u c e = latcheck v c e := by
  intro u
  by_cases he : e = .sxe
  · have hu : u = lateReads v c e i (sxeLateBase (getCore v c) t w) := if_pos he
    rw [hu]
    refine ⟨?_, lateReads_latcheck ..⟩
    obtain ⟨r, a, b, l, hl, hq⟩ := lateReads_else v c e i (sxeLateBase (getCore v c) t w)
    refine ⟨⟨v.cores, r, a, b, l, hl, rfl, fun _ _ => rfl, fun h => h.elim hq fun hm => ?_⟩⟩
    have hnone : lateReads v c e i (sxeLateBase (getCore v c) t w) = v := by simp [sxeLateBase, hm he, lateReads]
    rw [hl] at hnone
    exact ⟨congrArg State.regs hnone, congrArg State.log hnone⟩
  · have hu : u = v := if_neg he
    rw [hu]
    exact ⟨CoreTo.refl _ _ _, rfl⟩

theorem entered_spec (hc : CalmCore s c) (ht : s.now ≤ t) :
    Entered s (entered c e (advance (putEng s c e g) t) t w d) c e w t d g := by
  set v := advance (putEng s c e g) t with hv
  have hto : CoreTo (advance s t) v c (engPut (getCore s c) e g) True := (CoreTo.refl (advance s t) c True).putEng e g
  have hvcore := hto.core
  have hrec : headRecord v c e w t d (engGet (getCore v c) e) = headRecord s c e w t d g := by
    rw [hvcore, engGet_engPut]
    simp only [headRecord, hvcore]
    rfl
  have hlat : latcheck v c e = latcheck s c e := rfl
  have hpassed : headPassed v c e t (engGet (getCore v c) e) = headPassed s c e t g := by
    rw [hvcore, engGet_engPut]
    simp only [headPassed, hvcore, slotLen, hlat]
    rfl
  obtain ⟨hlate, hlate'⟩ := entered_late v c e w t (headRecord s c e w t d g)
  set u := if e = .sxe then lateReads v c e (headRecord s c e w t d g) (sxeLateBase (getCore v c) t w) else v with hu
  have hunow : u.now = t := hlate.now.trans (Nat.max_eq_right ht)
  obtain ⟨b, hb, hb'⟩ := lateHalt_eq_drainedIf u c e (lateEvents v) (headPassed s c e t g)
  rw [hunow] at hb
  have hrecord : withRecord (getCore v c) e (headRecord s c e w t d g) t = { withRecord (engPut (getCore s c) e g) e (headRecord s c e w t d g) t with
      insts := [headRecord s c e w t d g] } := by
    rw [hvcore, withRecord, show (engPut (getCore s c) e g).insts = [] from hc.insts]
    rfl
  set k : Core := engPut (withRecord (getCore v c) e (headRecord s c e w t d g) t) e (drainedIf b t (headPassed s c e t g)) with hk
  have hent : entered c e v t w d = putCore u c k := by rw [entered, hrec, hpassed, ← hu, hb]
  have hcore : getCore (putCore u c k) c = k := getCore_putCore ..
  rw [hent]
  exact {
    core := ⟨k.eng, _, _, _, by
      have := ((hto.trans hlate).put (k' := k)).mono (p := NoLateRead s c e w) fun h => ⟨trivial, h⟩
      rw [hk, hrecord] at this ⊢
      exact this⟩
    engine := ⟨b, by rw [getEng, hcore, hk, engGet_engPut], fun h => by rw [← hlat, ← hlate']; exact (hb' h).1⟩
    engines := fun x hx => by
      rw [getEng, hcore, hk, engGet_engPut_ne _ _ hx, hvcore]
      exact engGet_engPut_ne _ _ hx
    latcheck := hlate' }

/-- The head that executes in a calm core is entered, begins, and what follows from its beginning settles. -/
theorem runOp_entered {o : Nat} (hc : CalmCore s c) (hx : Executes s c e w t d g) (ho : opc w = o) :
    ∃ m, Entered s m c e w t d g ∧ runOp s c e o =
      allEng.foldl (fun s e => settleEngine s c e) (pumpAll (beginInst m c (headRecord s c e w t d g) t) c) := by
  obtain ⟨-, hnow, -, -⟩ := headOf_some hx.head
  have hent := entered_spec (w := w) (d := d) (g := g) (e := e) hc hnow
  have hinsts : (getCore (advance (putEng s c e g) t) c).insts = [] := by
    rw [show getCore (advance (putEng s c e g) t) c = engPut (getCore s c) e g from getCore_putCore ..]
    exact hc.insts
  exact ⟨_, hent, by rw [runOp, atHead_executes hx ho, dispatchInst_entered hinsts, settleCore_one hent.insts rfl, hent.now hnow]⟩

/-- Engine h is past the head of g, dispatched at t, and dispatches next at the a-cycle given; where it drains, its fetches up to t are made. -/
structure Past (g h : Engine) (t next : Nat) : Prop where
  pc : h.pc = g.pc + 1
  next : h.nextAt = next
  queue : h.queue = if h.mode = .running then g.queue.drop 1 else (catchUp { g with queue := g.queue.drop 1, pc := g.pc + 1 } t).queue
  mode : h.mode = .running ∨ h.mode = .draining
  imem : h.imem = g.imem

/-- An engine that begins its dispatched head is past it, whether it drains from its dispatch on, from its beginning on, or goes on. -/
theorem past_begun (hrun : g.mode = .running) (hstep : g.step = .off) {b b' : Bool} {next q : Nat}
    (hb : b' = true → (begunEng (drainedIf b t (headPassed s c e t g)) (getCore s c).nextInst next t q none).mode = .running) :
    Past g (drainedIf b' t (begunEng (drainedIf b t (headPassed s c e t g)) (getCore s c).nextInst next t q none)) t
      (max (t + slotLen s c e) next) := by
  have hfetch (x : HeadWait) (n : Nat) : (catchUp { headPassed s c e t g with wait := x, nextAt := n } t).queue =
      (catchUp { g with queue := g.queue.drop 1, pc := g.pc + 1 } t).queue :=
    catchUp_queue (h := { headPassed s c e t g with wait := x, nextAt := n }) (g := { g with queue := g.queue.drop 1, pc := g.pc + 1 })
      rfl rfl rfl rfl rfl rfl hstep hstep rfl t
  cases b with
  | true =>
    have hmode : (begunEng (drainedIf true t (headPassed s c e t g)) (getCore s c).nextInst next t q none).mode = .draining := by
      simp [begunEng, stepBegun, drainedIf, headPassed, catchUp, popHead, hstep]
    have hb' : b' = false := by
      by_contra h
      have := hb (by simpa using h)
      rw [hmode] at this
      cases this
    subst hb'
    refine ⟨?_, ?_, ?_, .inr hmode, ?_⟩
    case refine_3 =>
      have hne : (drainedIf false t (begunEng (drainedIf true t (headPassed s c e t g)) (getCore s c).nextInst next t q none)).mode ≠ .running :=
        fun h => nomatch hmode.symm.trans h
      rw [if_neg hne, ← hfetch (headPassed s c e t g).wait (headPassed s c e t g).nextAt]
      simp [begunEng, stepBegun, drainedIf, headPassed, catchUp, popHead, hstep]
    all_goals simp [begunEng, stepBegun, drainedIf, headPassed, catchUp, popHead, hstep]
  | false =>
    have hbegun : begunEng (drainedIf false t (headPassed s c e t g)) (getCore s c).nextInst next t q none =
        { headPassed s c e t g with wait := .none, nextAt := max (t + slotLen s c e) next } := by
      simp [begunEng, stepBegun, drainedIf, headPassed, popHead, hstep]
    rw [hbegun]
    cases b' with
    | true => exact ⟨rfl, rfl, hfetch _ _, .inr rfl, rfl⟩
    | false => exact ⟨rfl, rfl, (if_pos hrun).symm, .inl hrun, rfl⟩

/-- What the head leaves that keeps record j, dispatched at t: k with its record, and its engine past it, which dispatches next no earlier than
given; under q registers and the log are as before. -/
structure Kept (s u : State) (c : CoreId) (e : EngId) (t : Nat) (g : Engine) (k : Core) (j : Inst) (next : Nat) (q : Prop) : Prop where
  core : ∃ eng n a b, CoreTo (advance s t) u c { k with eng := eng, insts := [j], nextInst := n, claimAt := a, claimEng := b } q
  engine : Past g (getEng u c e) t (max (t + slotLen s c e) next)
  engines : ∀ x, x ≠ e → getEng u c x = getEng s c x

/-- Where the head's work at t, in whatever state it has been entered, is f with record j, and f changes results and stores in flight alone,
that is what it leaves. -/
theorem runOp_kept {o next : Nat} {f : State → State} {j : Inst} {vres : List VRes} {xres : List XRes} {stores : List PadStore} {n : Nat} {q : Prop}
    (hc : CalmCore s c) (hx : Executes s c e w t d g) (ho : opc w = o) (hbranch : e = .sxe → sxeBranch o = false)
    (hid : j.id = (getCore s c).nextInst) (he : j.eng = e) (hbegun : j.begun = true) (hdxe : ∀ n, j.prog ≠ .dxe n)
    (hf : ∀ m, Entered s m c e w t d g → beginWork m c (headRecord s c e w t d g) t = (putInst (f m) c j, next, none) ∧
      CoreTo m (f m) c { getCore m c with vres := vres, xres := xres, stores := stores, resSeq := n } q) :
    Kept s (runOp s c e o) c e t g { getCore s c with vres := vres, xres := xres, stores := stores, resSeq := n } j next (NoLateRead s c e w ∧ q) ∧
      ∃ m, Entered s m c e w t d g ∧ (runOp s c e o).log = (f m).log := by
  obtain ⟨-, hnow, -, -⟩ := headOf_some hx.head
  obtain ⟨m, hent, hrun⟩ := runOp_entered hc hx ho
  obtain ⟨hwork, hto⟩ := hf m hent
  obtain ⟨eng, nn, a, b, hmto⟩ := hent.core
  obtain ⟨late, hlate, -⟩ := hent.engine
  have hfinsts : (getCore (f m) c).insts = [headRecord s c e w t d g] := by rw [hto.core]; exact hent.insts
  have hput : getCore (putInst (f m) c j) c = { getCore (f m) c with insts := [j] } := getCore_putInst hfinsts hid
  have heng : getEng (putInst (f m) c j) c e = drainedIf late t (headPassed s c e t g) := by rw [getEng, hput, hto.core]; exact hlate
  have hpnow : (putInst (f m) c j).now = t := hto.now.trans (hent.now hnow)
  obtain ⟨late', hlate', hrunning⟩ := lateHalt_eq_drainedIf (putInst (f m) c j) c e (lateEvents m)
    (begunEng (getEng (putInst (f m) c j) c e) (getCore s c).nextInst next t (slotLen m c e) none)
  rw [hpnow] at hlate'
  have hdrop (v : State) : dropBranch v c (headRecord s c e w t d g) = v :=
    if_neg fun h => Bool.false_ne_true ((hbranch h.1).symm.trans (ho ▸ h.2))
  set h := drainedIf late' t (begunEng (getEng (putInst (f m) c j) c e) (getCore s c).nextInst next t (slotLen m c e) none) with hh
  have hbegin : beginInst m c (headRecord s c e w t d g) t = putEng (putInst (f m) c j) c e h := by
    rw [← hlate', beginInst, hwork, hdrop]
    rfl
  have hpast : Past g h t (max (t + slotLen s c e) next) := by
    rw [hh]
    rw [heng] at hrunning ⊢
    exact past_begun hx.running hx.step fun hl => (hrunning hl).2
  have hcore : getCore (putEng (putInst (f m) c j) c e h) c = engPut { getCore (f m) c with insts := [j] } e h := by
    rw [putEng, getCore_putCore, hput]
  have hengs (x : EngId) (hxe : x ≠ e) : getEng (putEng (putInst (f m) c j) c e h) c x = getEng s c x := by
    rw [← hent.engines x hxe, getEng, hcore, engGet_engPut_ne _ _ hxe, hto.core]
    rfl
  have hstill : runOp s c e o = putEng (putInst (f m) c j) c e h := by
    rw [hrun, hbegin]
    have hone : ∀ i ∈ (getCore (putEng (putInst (f m) c j) c e h) c).insts, i.begun = true ∧ (i.finished = false → ∀ n, i.prog ≠ .dxe n) := by
      intro i hi
      rw [hcore] at hi
      rw [List.mem_singleton.1 hi]
      exact ⟨hbegun, fun _ => hdxe⟩
    rw [pumpAll_still hone]
    refine still_foldl fun x _ => settleEngine_still ?_
    by_cases hxe : x = e
    · exact .inr (.inr (by rw [hcore, hxe]; simp [anyInst, engPut, he]))
    · rw [hengs x hxe]
      exact (hc.modes x).elim .inl fun h => .inr (.inl h)
  rw [hstill]
  rw [hmto.core] at hto
  have hall := ((hmto.trans hto).putInst rfl hid).putEng e h
  exact ⟨⟨⟨_, nn, a, b, hall⟩, by rw [getEng_putEng]; exact hpast, hengs⟩, m, hent, rfl⟩

section Kept
variable {u : State} {k : Core} {j : Inst} {next : Nat} {q : Prop} {vs : List VRes} {xs : List XRes} {sts : List PadStore} {n : Nat}

theorem Kept.now (h : Kept s u c e t g k j next q) (ht : s.now ≤ t) : u.now = t := by
  obtain ⟨_, _, _, _, hto⟩ := h.core
  exact hto.now.trans (Nat.max_eq_right ht)

theorem Kept.memory (h : Kept s u c e t g k j next q) : SameMemory s u := by
  obtain ⟨_, _, _, _, hto⟩ := h.core
  exact SameMemory_trans (sameMemory_advance s t) hto.memory

theorem Kept.units (h : Kept s u c e t g k j next q) : SameUnits s u := by
  obtain ⟨_, _, _, _, hto⟩ := h.core
  exact SameUnits_trans (sameUnits_advance s t) hto.units

theorem Kept.insts (h : Kept s u c e t g k j next q) : (getCore u c).insts = [j] := by
  obtain ⟨_, _, _, _, hto⟩ := h.core; rw [hto.core]

theorem Kept.vres (h : Kept s u c e t g k j next q) : (getCore u c).vres = k.vres := by
  obtain ⟨_, _, _, _, hto⟩ := h.core; rw [hto.core]

theorem Kept.xres (h : Kept s u c e t g k j next q) : (getCore u c).xres = k.xres := by
  obtain ⟨_, _, _, _, hto⟩ := h.core; rw [hto.core]

theorem Kept.stores (h : Kept s u c e t g k j next q) : (getCore u c).stores = k.stores := by
  obtain ⟨_, _, _, _, hto⟩ := h.core; rw [hto.core]

theorem Kept.log (h : Kept s u c e t g k j next q) (hq : q) : u.log = s.log := by
  obtain ⟨_, _, _, _, hto⟩ := h.core
  obtain ⟨-, -, -, -, -, hr⟩ := hto.else_
  exact (hr hq).2

theorem Kept.sameCores (h : Kept s u c e t g { getCore s c with vres := vs, xres := xs, stores := sts, resSeq := n } j next q) :
    SameCores s u c e := by
  obtain ⟨_, _, _, _, hto⟩ := h.core
  have hcore := hto.core
  exact {
    others := hto.others
    engines := h.engines
    vregs := by rw [hcore]
    xregs := by rw [hcore]
    slots := by rw [hcore]
    sem := by rw [hcore]
    ctx := by rw [hcore]
    sen := by rw [hcore]
    tasks := by rw [hcore] }

/-- The record of an instruction whose work is all timed, until the a-cycle fin (R159). -/
def timedRecord (i : Inst) (t fin : Nat) : Inst := { i with begun := true, start := t, doneAt := fin, finished := true }

theorem Kept.ran {fin : Nat} (h : Kept s u c e t g { getCore s c with vres := vs, xres := xs, stores := sts, resSeq := n }
      (timedRecord (headRecord s c e w t d g) t fin) next q) (ht : s.now ≤ t) (hq : latcheck s c e = 0 → q) :
    Ran s u c e w t d g (max (t + slotLen s c e) next) fin where
  now := h.now ht
  pc := h.engine.pc
  queue := h.engine.queue
  next := h.engine.next
  record := ⟨_, h.insts, rfl, rfl, rfl, rfl, rfl, rfl, rfl, rfl, rfl, rfl⟩
  memory := h.memory
  units := h.units
  cores := h.sameCores
  regs hl := by
    obtain ⟨_, _, _, _, hto⟩ := h.core
    obtain ⟨-, -, -, -, -, hr⟩ := hto.else_
    exact hr (hq hl)

end Kept

end Sys2Proof.Machine

namespace Sys2Proof.Machine

/-! Loops whose iterations each put items in flight, numbered in the order of their issue (R159, R167). -/

/-- What puts items in flight: one after the other, each by its number. -/
structure Adds {ρ : Type} (add : Core → List ρ → Core) : Prop where
  nil : ∀ k, add k [] = k
  append : ∀ k a b, add (add k a) b = add k (a ++ b)
  seq : ∀ k a, (add k a).resSeq = k.resSeq + a.length

def addVRes (k : Core) (rs : List VRes) : Core := { k with vres := k.vres ++ rs, resSeq := k.resSeq + rs.length }
def addXRes (k : Core) (rs : List XRes) : Core := { k with xres := k.xres ++ rs, resSeq := k.resSeq + rs.length }
def addStores (k : Core) (rs : List PadStore) : Core := { k with stores := k.stores ++ rs, resSeq := k.resSeq + rs.length }

theorem adds_addVRes : Adds addVRes := ⟨by simp [addVRes], by simp [addVRes, Nat.add_assoc], fun _ _ => rfl⟩
theorem adds_addXRes : Adds addXRes := ⟨by simp [addXRes], by simp [addXRes, Nat.add_assoc], fun _ _ => rfl⟩
theorem adds_addStores : Adds addStores := ⟨by simp [addStores], by simp [addStores, Nat.add_assoc], fun _ _ => rfl⟩

/-- Core c has become k, and late reads may have been counted and logged where LATCHECK of engine e is not OFF. -/
structure IterTo (m u : State) (c : CoreId) (e : EngId) (k : Core) : Prop where
  core : CoreTo m u c k (latcheck m c e = 0)
  latcheck : latcheck u c e = latcheck m c e

section Iter
variable {m u : State} {c : CoreId} {e : EngId} {k : Core}

theorem IterTo.late (h : IterTo m u c e k) (i : Inst) (n : Nat) : IterTo m (lateReads u c e i n) c e k :=
  ⟨h.core.late i n h.latcheck, (lateReads_latcheck ..).trans h.latcheck⟩

theorem IterTo.put (h : IterTo m u c e k) (k' : Core) : IterTo m (putCore u c k') c e k' := ⟨h.core.put, h.latcheck⟩

variable {ρ : Type} {add : Core → List ρ → Core} (hadd : Adds add)
include hadd

/-- The items that the pipes of one iteration add, in the order of the pipes. -/
theorem IterTo.pipes {f : State → Nat → State} {r : Nat → Nat → ρ} {ps : List Nat}
    (hf : ∀ u k, ∀ p ∈ ps, IterTo m u c e k → IterTo m (f u p) c e (add k [r p k.resSeq])) (h : IterTo m u c e k) :
    IterTo m (ps.foldl f u) c e (add k (ps.mapIdx fun n p => r p (k.resSeq + n))) := by
  induction ps generalizing u k with
  | nil => rw [List.mapIdx_nil, hadd.nil]; exact h
  | cons p ps ih =>
    have hrest := ih (fun u k x hx => hf u k x (List.mem_cons_of_mem p hx)) (hf u k p List.mem_cons_self h)
    rw [List.foldl_cons, List.mapIdx_cons]
    simpa [hadd.append, hadd.seq, Nat.add_comm, Nat.add_left_comm] using hrest

/-- The items that a loop of n iterations adds, each of them len. -/
theorem IterTo.loop {f : State → Nat → State} {r : Nat → Nat → List ρ} {len : Nat} (hlen : ∀ j n, (r j n).length = len)
    (hf : ∀ u a j, IterTo m u c e (add (getCore m c) a) →
      IterTo m (f u j) c e (add (add (getCore m c) a) (r j (add (getCore m c) a).resSeq))) (n : Nat) :
    IterTo m ((List.range n).foldl f m) c e (add (getCore m c) ((List.range n).flatMap fun j => r j ((getCore m c).resSeq + j * len))) := by
  induction n with
  | zero => rw [List.range_zero, List.flatMap_nil, hadd.nil]; exact ⟨.refl .., rfl⟩
  | succ n ih =>
    have hcount : ((List.range n).flatMap fun j => r j ((getCore m c).resSeq + j * len)).length = n * len := by
      simp [List.length_flatMap, hlen]
    have hnext := hf _ _ n ih
    rw [hadd.append, hadd.seq, hcount] at hnext
    rw [List.range_succ, List.foldl_append, List.foldl_cons, List.foldl_nil, List.flatMap_append, List.flatMap_singleton]
    exact hnext

end Iter

/-- An instruction whose work at its beginning is all timed leaves what that work puts in flight, and is past (R159, R170). -/
theorem runOp_timed {s : State} {c : CoreId} {e : EngId} {w : W128} {t : Nat} {d : LoopDesc} {g : Engine} {o next fin n : Nat} {f : State → State}
    {vres : List VRes} {xres : List XRes} {stores : List PadStore} (hc : CalmCore s c) (hx : Executes s c e w t d g) (ho : opc w = o)
    (hbranch : e = .sxe → sxeBranch o = false)
    (hwork : ∀ m, Entered s m c e w t d g → beginWork m c (headRecord s c e w t d g) t =
      (putInst (f m) c (timedRecord (headRecord s c e w t d g) t fin), next, none))
    (hf : ∀ m, Entered s m c e w t d g →
      IterTo m (f m) c e { getCore m c with vres := vres, xres := xres, stores := stores, resSeq := n }) :
    Ran s (runOp s c e o) c e w t d g (max (t + slotLen s c e) next) fin ∧ (getCore (runOp s c e o) c).vres = vres ∧
      (getCore (runOp s c e o) c).xres = xres ∧ (getCore (runOp s c e o) c).stores = stores := by
  obtain ⟨-, hnow, -, -⟩ := headOf_some hx.head
  obtain ⟨hkept, -⟩ := runOp_kept (q := latcheck s c e = 0) hc hx ho hbranch rfl rfl rfl (fun n h => nomatch show Prog.plain = .dxe n from h)
    fun m hm => ⟨hwork m hm, hm.latcheck ▸ (hf m hm).core⟩
  exact ⟨hkept.ran hnow fun h => ⟨.inl h, h⟩, hkept.vres, hkept.xres, hkept.stores⟩

/-! Loads and stores of the vector engine (R209). -/

section Vxe
variable {m : State} {c : CoreId} {i : Inst} (q t : Nat)

/-- The result of iteration j of a VXE.LD. -/
def vLoadRes (m : State) (c : CoreId) (w : W128) (d : LoopDesc) (q t j n : Nat) : VRes :=
  let a := padAddr c ((vBase w : Int) + loopOff d 0 j)
  ⟨vVd w, lanesOf (memBytes m a 4096) (fun l => unitPoison m (a / 64 + l / 16)), t + j * q, t + j * q + 8 * q, n⟩

/-- The store of iteration j of a VXE.ST. -/
def vStoreItem (k : Core) (id : Nat) (w : W128) (d : LoopDesc) (q t j n : Nat) : PadStore :=
  let lanes := vregAt k (t + j * q) (vVa w)
  ⟨.vxe, id, ((vBase w : Int) + loopOff d 0 j).toNat, laneBytes lanes, (List.range 64).map (fun n => ((lanes.drop (16 * n)).take 16).any Lane.p),
   t + j * q, t + j * q + 4 * q, n⟩

theorem vxe_loads (ho : opc i.w = 0x70) (hecc : m.ecc = []) (n : Nat) :
    IterTo m ((List.range n).foldl (fun s j => vxeIter s c i q (t + j * q) j) m) c .vxe
      (addVRes (getCore m c) ((List.range n).map fun j => vLoadRes m c i.w i.loop q t j ((getCore m c).resSeq + j))) := by
  have h := IterTo.loop (m := m) (c := c) (e := .vxe) adds_addVRes (f := fun s j => vxeIter s c i q (t + j * q) j) (len := 1)
    (r := fun j n => [vLoadRes m c i.w i.loop q t j n]) (fun _ _ => rfl) (fun u a j hu => ?_) n
  · simpa [List.map_eq_flatMap] using h
  · have hlate := hu.late i ((vxeReads i.w).filter (vInFlight (getCore u c) (t + j * q))).length
    have hpads := hlate.core.samePads
    have ha := inPads_padAddr c ((vBase i.w : Int) + loopOff i.loop 0 j)
    have htouch := touchRange_inPads (hlate.core.ecc hecc) ha 4096
    simp only [vxeIter, ho, if_true, htouch, hpads.memBytes ha, hpads.unitPoison (ha.unit _), hlate.core.core]
    exact hlate.put _

theorem vxe_stores (ho : opc i.w = 0x71) (n : Nat) :
    IterTo m ((List.range n).foldl (fun s j => vxeIter s c i q (t + j * q) j) m) c .vxe
      (addStores (getCore m c) ((List.range n).map fun j => vStoreItem (getCore m c) i.id i.w i.loop q t j ((getCore m c).resSeq + j))) := by
  have h := IterTo.loop (m := m) (c := c) (e := .vxe) adds_addStores (f := fun s j => vxeIter s c i q (t + j * q) j) (len := 1)
    (r := fun j n => [vStoreItem (getCore m c) i.id i.w i.loop q t j n]) (fun _ _ => rfl) (fun u a j hu => ?_) n
  · simpa [List.map_eq_flatMap] using h
  · have hlate := hu.late i ((vxeReads i.w).filter (vInFlight (getCore u c) (t + j * q))).length
    simp only [vxeIter, ho, show ¬(0x71 = 0x70) by decide, if_true, if_false, hlate.core.core]
    exact hlate.put _

end Vxe

/-- What a loop of the vector engine that begins at its dispatch does (R159). -/
theorem beginWork_vxe {s m : State} {c : CoreId} {w : W128} {t : Nat} {d : LoopDesc} {g : Engine} (hm : Entered s m c .vxe w t d g)
    (h4 : opc w ≠ 0x04) (h72 : opc w ≠ 0x72) :
    let i := headRecord s c .vxe w t d g
    let q := slotLen s c .vxe
    beginWork m c i t = (putInst ((List.range (loopCount d)).foldl (fun s j => vxeIter s c i q (t + j * q) j) m) c
      (timedRecord i t (t + (loopCount d - 1) * q + vxeSpan w * q)), t + loopCount d * q, none) := by
  intro i q
  have hw : opc i.w ≠ 0x04 := h4
  have hv : opc i.w ≠ 0x72 := h72
  simp only [beginWork, if_neg hw, show i.eng = .vxe from rfl, beginVxe, if_neg hv, hm.slotLen]
  rfl

theorem SamePads.vLoadRes {s u : State} (h : SamePads s u) (c : CoreId) (w : W128) (d : LoopDesc) (q t j n : Nat) :
    vLoadRes u c w d q t j n = vLoadRes s c w d q t j n := by
  have ha := inPads_padAddr c ((vBase w : Int) + loopOff d 0 j)
  simp only [Machine.vLoadRes, h.memBytes ha, h.unitPoison (ha.unit _)]

/-- Settles O11: the loads read scratchpads, which nothing of the loop changes, and the stores read registers, which it does not change. -/
theorem vxeLoadStoreComplete : Obligations.VxeLoadStoreComplete := by
  intro s c w t d g hc hecc hx q at_
  set i := headRecord s c .vxe w t d g with hi
  set n := loopCount d with hn
  have hwork (ho : opc w = 0x70 ∨ opc w = 0x71) (m : State) (hm : Entered s m c .vxe w t d g) :=
    beginWork_vxe hm (by rcases ho with ho | ho <;> rw [ho] <;> decide) (by rcases ho with ho | ho <;> rw [ho] <;> decide)
  refine ⟨fun ho => ?load, fun ho => ?store⟩
  case load =>
    have hf (m : State) (hm : Entered s m c .vxe w t d g) :
        IterTo m ((List.range n).foldl (fun s j => vxeIter s c i q (t + j * q) j) m) c .vxe { getCore m c with
          vres := (getCore s c).vres ++ (List.range n).map fun j => vLoadRes s c w d q t j ((getCore s c).resSeq + j)
          xres := (getCore s c).xres
          stores := (getCore s c).stores
          resSeq := (getCore s c).resSeq + n } := by
      have h := vxe_loads (c := c) (i := i) q t ho (hm.ecc hecc) n
      obtain ⟨hvres, hxres, hstores, hseq⟩ := hm.flight
      simp only [addVRes, List.length_map, List.length_range, hm.samePads.vLoadRes] at h
      rw [← hvres, ← hxres, ← hstores, ← hseq]
      exact h
    have hspan : vxeSpan w = 8 := by rw [vxeSpan, ho]; rfl
    obtain ⟨hran, hvres, -, hstores⟩ := runOp_timed hc hx ho nofun (hwork (.inl ho)) hf
    exact ⟨_, rfl, hspan ▸ hran, hvres, hstores⟩
  case store =>
    have hf (m : State) (hm : Entered s m c .vxe w t d g) :
        IterTo m ((List.range n).foldl (fun s j => vxeIter s c i q (t + j * q) j) m) c .vxe { getCore m c with
          vres := (getCore s c).vres
          xres := (getCore s c).xres
          stores := (getCore s c).stores ++
            (List.range n).map fun j => vStoreItem (getCore s c) (getCore s c).nextInst w d q t j ((getCore s c).resSeq + j)
          resSeq := (getCore s c).resSeq + n } := by
      have h := vxe_stores (m := m) (c := c) (i := i) q t ho n
      obtain ⟨hvres, hxres, hstores, hseq⟩ := hm.flight
      simp only [addStores, List.length_map, List.length_range, vStoreItem, hm.vregAt] at h
      rw [← hvres, ← hxres, ← hstores, ← hseq]
      exact h
    have hspan : vxeSpan w = 4 := by rw [vxeSpan, if_pos ho]
    obtain ⟨hran, hvres, -, hstores⟩ := runOp_timed hc hx ho nofun (hwork (.inr ho)) hf
    exact ⟨_, rfl, hspan ▸ hran, hstores, hvres⟩

end Sys2Proof.Machine

namespace Sys2Proof.Machine

/-! Loads and stores of the scalar engine (R212). -/

/-- The result of iteration j of an SXE.LD in pipe p, whose address base is a. -/
def xLoadRes (m : State) (c : CoreId) (w : W128) (d : LoopDesc) (q t j p : Nat) (a : Int) (n : Nat) : XRes :=
  let ad := padAddr c (a + loopOff d 0 j)
  ⟨p, xXd w, ⟨BitVec.ofNat 64 (memNat m ad 8), memPoison m ad 8⟩, t + j * q, t + j * q + 6 * q, n⟩

/-- The store of iteration j of an SXE.ST in pipe p, whose address base is a. -/
def xStoreItem (k : Core) (id : Nat) (w : W128) (d : LoopDesc) (q t j p : Nat) (a : Int) (n : Nat) : PadStore :=
  let b := xregAt k (t + j * q) p (xXb w)
  ⟨.sxe, id, (a + loopOff d 0 j).toNat, leBytes 8 b.v.toNat, [b.p], t + j * q, t + j * q + 3 * q, n⟩

section Sxe
variable {m : State} {c : CoreId} {i : Inst} {xa base : Nat → Int} (q t : Nat) (hxa : ∀ p ∈ pipesOf i.w, xa p = base p)
include hxa

theorem sxe_loads (ho : opc i.w = 0x58) (hecc : m.ecc = []) (n : Nat) :
    IterTo m ((List.range n).foldl (fun s j => sxeIter s c i xa q (t + j * q) j) m) c .sxe
      (addXRes (getCore m c) ((List.range n).flatMap fun j => (pipesOf i.w).mapIdx fun k p =>
        xLoadRes m c i.w i.loop q t j p (base p) ((getCore m c).resSeq + j * (pipesOf i.w).length + k))) := by
  refine IterTo.loop (m := m) (c := c) (e := .sxe) adds_addXRes (f := fun s j => sxeIter s c i xa q (t + j * q) j)
    (r := fun j n => (pipesOf i.w).mapIdx fun k p => xLoadRes m c i.w i.loop q t j p (base p) (n + k)) (fun _ _ => List.length_mapIdx)
    (fun u a j hu => ?_) n
  have hlate := hu.late i (sxeLate (getCore u c) (t + j * q) i.w)
  refine hlate.pipes adds_addXRes (r := fun p n => xLoadRes m c i.w i.loop q t j p (base p) n) fun v k p hp hv => ?_
  have ha := inPads_padAddr c (base p + loopOff i.loop 0 j)
  have htouch := touchRange_inPads (hv.core.ecc hecc) ha 8
  simp only [ho, if_true, hxa p hp, htouch, hv.core.samePads.memNat ha, hv.core.samePads.memPoison ha, hv.core.core]
  exact hv.put _

theorem sxe_stores (ho : opc i.w = 0x59) (n : Nat) :
    IterTo m ((List.range n).foldl (fun s j => sxeIter s c i xa q (t + j * q) j) m) c .sxe
      (addStores (getCore m c) ((List.range n).flatMap fun j => (pipesOf i.w).mapIdx fun k p =>
        xStoreItem (getCore m c) i.id i.w i.loop q t j p (base p) ((getCore m c).resSeq + j * (pipesOf i.w).length + k))) := by
  refine IterTo.loop (m := m) (c := c) (e := .sxe) adds_addStores (f := fun s j => sxeIter s c i xa q (t + j * q) j)
    (r := fun j n => (pipesOf i.w).mapIdx fun k p => xStoreItem (getCore m c) i.id i.w i.loop q t j p (base p) (n + k))
    (fun _ _ => List.length_mapIdx) (fun u a j hu => ?_) n
  have hlate := hu.late i (sxeLate (getCore u c) (t + j * q) i.w)
  refine hlate.pipes adds_addStores (r := fun p n => xStoreItem (getCore m c) i.id i.w i.loop q t j p (base p) n) fun v k p hp hv => ?_
  simp only [ho, show ¬(0x59 = 0x58) by decide, if_true, if_false, hxa p hp, hv.core.core, hlate.core.core]
  exact hv.put _

end Sxe

variable {s m : State} {c : CoreId} {w : W128} {t : Nat} {d : LoopDesc} {g : Engine}

/-- What a loop of the scalar engine that begins at its dispatch does (R159). -/
theorem beginWork_sxe (hm : Entered s m c .sxe w t d g) (h4 : opc w ≠ 0x04) (h68 : opc w ≠ 0x68) (hbranch : sxeBranch (opc w) = false) :
    let i := headRecord s c .sxe w t d g
    let q := slotLen s c .sxe
    let span := if opc w = 0x59 then 3 else sxeLat (opc w)
    beginWork m c i t = (putInst ((List.range (loopCount d)).foldl (fun s j => sxeIter s c i (fun p => nthD i.xa p 0) q (t + j * q) j) m) c
      (timedRecord i t (t + (loopCount d - 1) * q + span * q)), t + loopCount d * q, none) := by
  intro i q span
  have hw : opc i.w ≠ 0x04 := h4
  have hi : opc i.w ≠ 0x68 := h68
  have hb : ¬sxeBranch (opc i.w) = true := by rw [show i.w = w from rfl, hbranch]; exact Bool.false_ne_true
  simp only [beginWork, if_neg hw, show i.eng = .sxe from rfl, beginSxe, if_neg hi, if_neg hb, hm.slotLen]
  rfl

theorem mem_pipesOf_lt {p : Nat} (h : p ∈ pipesOf w) : p < 8 := List.mem_range.1 (List.mem_of_mem_filter h)

/-- The address base of a pipe is formed once, at the dispatch. -/
theorem headRecord_xa (e : EngId) {p : Nat} (h : p ∈ pipesOf w) :
    nthD (headRecord s c e w t d g).xa p 0 = sxeAddr (getCore s c) t w p :=
  nthD_map_range _ _ (mem_pipesOf_lt h)

theorem SamePads.xLoadRes {s u : State} (h : SamePads s u) (c : CoreId) (w : W128) (d : LoopDesc) (q t j p : Nat) (a : Int) (n : Nat) :
    xLoadRes u c w d q t j p a n = xLoadRes s c w d q t j p a n := by
  have ha := inPads_padAddr c (a + loopOff d 0 j)
  simp only [Machine.xLoadRes, h.memNat ha, h.memPoison ha]

/-- An SXE.LD at the head of a calm core. -/
theorem sxeLd_ran (hc : CalmCore s c) (hecc : s.ecc = []) (hx : Executes s c .sxe w t d g) (ho : opc w = 0x58) :
    let q := slotLen s c .sxe
    let u := runOp s c .sxe 0x58
    Ran s u c .sxe w t d g (max (t + q) (t + loopCount d * q)) (t + (loopCount d - 1) * q + 6 * q) ∧
    (getCore u c).xres = (getCore s c).xres ++ (List.range (loopCount d)).flatMap (fun j => (pipesOf w).mapIdx fun k p =>
      xLoadRes s c w d q t j p (sxeAddr (getCore s c) t w p)
        ((getCore s c).resSeq + j * (pipesOf w).length + k)) ∧
    (getCore u c).stores = (getCore s c).stores := by
  intro q u
  set i := headRecord s c .sxe w t d g with hi
  set n := loopCount d with hn
  have hxa : ∀ p ∈ pipesOf w, nthD i.xa p 0 = sxeAddr (getCore s c) t w p := fun p hp => headRecord_xa .sxe hp
  have hf (m : State) (hm : Entered s m c .sxe w t d g) :
      IterTo m ((List.range n).foldl (fun s j => sxeIter s c i (fun p => nthD i.xa p 0) q (t + j * q) j) m) c .sxe { getCore m c with
        vres := (getCore s c).vres
        xres := (getCore s c).xres ++ (List.range n).flatMap (fun j => (pipesOf w).mapIdx fun k p =>
          xLoadRes s c w d q t j p (sxeAddr (getCore s c) t w p) ((getCore s c).resSeq + j * (pipesOf w).length + k))
        stores := (getCore s c).stores
        resSeq := (getCore s c).resSeq + n * (pipesOf w).length } := by
    have h := sxe_loads (c := c) (i := i) q t hxa ho (hm.ecc hecc) n
    obtain ⟨hvres, hxres, hstores, hseq⟩ := hm.flight
    simp only [addXRes, List.length_flatMap, List.length_mapIdx, List.map_const', List.length_range, List.sum_replicate, smul_eq_mul,
      hm.samePads.xLoadRes] at h
    rw [← hvres, ← hxres, ← hstores, ← hseq]
    exact h
  have hwork (m : State) (hm : Entered s m c .sxe w t d g) :=
    beginWork_sxe hm (by rw [ho]; decide) (by rw [ho]; decide) (by rw [ho]; decide)
  have hspan : (if opc w = 0x59 then 3 else sxeLat (opc w)) = 6 := by rw [ho]; rfl
  obtain ⟨hran, -, hxres, hstores⟩ := runOp_timed hc hx ho (fun _ => rfl) hwork hf
  exact ⟨hspan ▸ hran, hxres, hstores⟩

/-- An SXE.ST at the head of a calm core. -/
theorem sxeSt_ran (hc : CalmCore s c) (hx : Executes s c .sxe w t d g) (ho : opc w = 0x59) :
    let q := slotLen s c .sxe
    let u := runOp s c .sxe 0x59
    Ran s u c .sxe w t d g (max (t + q) (t + loopCount d * q)) (t + (loopCount d - 1) * q + 3 * q) ∧
    (getCore u c).stores = (getCore s c).stores ++ (List.range (loopCount d)).flatMap (fun j => (pipesOf w).mapIdx fun k p =>
      xStoreItem (getCore s c) (getCore s c).nextInst w d q t j p (sxeAddr (getCore s c) t w p)
        ((getCore s c).resSeq + j * (pipesOf w).length + k)) ∧
    (getCore u c).xres = (getCore s c).xres := by
  intro q u
  set i := headRecord s c .sxe w t d g with hi
  set n := loopCount d with hn
  have hxa : ∀ p ∈ pipesOf w, nthD i.xa p 0 = sxeAddr (getCore s c) t w p := fun p hp => headRecord_xa .sxe hp
  have hf (m : State) (hm : Entered s m c .sxe w t d g) :
      IterTo m ((List.range n).foldl (fun s j => sxeIter s c i (fun p => nthD i.xa p 0) q (t + j * q) j) m) c .sxe { getCore m c with
        vres := (getCore s c).vres
        xres := (getCore s c).xres
        stores := (getCore s c).stores ++ (List.range n).flatMap (fun j => (pipesOf w).mapIdx fun k p =>
          xStoreItem (getCore s c) (getCore s c).nextInst w d q t j p (sxeAddr (getCore s c) t w p)
            ((getCore s c).resSeq + j * (pipesOf w).length + k))
        resSeq := (getCore s c).resSeq + n * (pipesOf w).length } := by
    have h := sxe_stores (m := m) (c := c) (i := i) q t hxa ho n
    obtain ⟨hvres, hxres, hstores, hseq⟩ := hm.flight
    simp only [addStores, List.length_flatMap, List.length_mapIdx, List.map_const', List.length_range, List.sum_replicate, smul_eq_mul,
      xStoreItem, hm.xregAt] at h
    rw [← hvres, ← hxres, ← hstores, ← hseq]
    exact h
  have hwork (m : State) (hm : Entered s m c .sxe w t d g) :=
    beginWork_sxe hm (by rw [ho]; decide) (by rw [ho]; decide) (by rw [ho]; decide)
  have hspan : (if opc w = 0x59 then 3 else sxeLat (opc w)) = 3 := by rw [ho]; rfl
  obtain ⟨hran, -, hxres, hstores⟩ := runOp_timed hc hx ho (fun _ => rfl) hwork hf
  exact ⟨hspan ▸ hran, hstores, hxres⟩

end Sys2Proof.Machine

namespace Sys2Proof.Machine

/-! The abort of an engine of which nothing is outstanding, beside operations in flight of other engines (R175). -/

/-- Engine e has become g, and of the core's scalar results in flight some may be dropped. -/
structure CutTo (s u : State) (c : CoreId) (e : EngId) (g : Engine) : Prop where
  cut : EngineTo s u c e g True
  xres : ∀ r ∈ (getCore u c).xres, r ∈ (getCore s c).xres

section CutTo
variable {s u : State} {c : CoreId} {e : EngId} {g : Engine}

theorem CutTo.putEng (h : CutTo s u c e g) (g' : Engine) : CutTo s (putEng u c e g') c e g' :=
  ⟨h.cut.putEng g', by rw [Machine.putEng, getCore_putCore]; exact h.xres⟩

theorem CutTo.putCore (h : CutTo s u c e g) {k : Core} {vres : List VRes} {xres : List XRes} (hk : k = { getCore u c with vres := vres, xres := xres })
    (hx : ∀ r ∈ xres, r ∈ (getCore u c).xres) : CutTo s (putCore u c k) c e g := by
  refine ⟨h.cut.putCore ⟨vres, xres, hk⟩, fun r hr => h.xres r (hx r ?_)⟩
  rwa [getCore_putCore, hk] at hr

/-- The core stored as it is. -/
theorem CutTo.same (h : CutTo s u c e g) {k : Core} (hk : k = getCore u c) : CutTo s (Machine.putCore u c k) c e g :=
  h.putCore (vres := (getCore u c).vres) (xres := (getCore u c).xres) hk fun _ hr => hr

/-- What the vector or scalar engine had not issued by now is dropped; no store is in flight (R176). -/
theorem CutTo.cutFlight (h : CutTo s u c e g) (hst : (getCore s c).stores = []) (x : EngId) : CutTo s (cutFlight u c x) c e g := by
  have hstores : (getCore u c).stores = [] := h.cut.stores.trans hst
  have hland : landStores u c [] = u := rfl
  have hcore : { getCore u c with stores := [] } = getCore u c := by rw [← hstores]
  unfold Machine.cutFlight
  simp only [hstores, List.filter_nil, hland, hcore]
  cases x with
  | vxe =>
    exact h.putCore (vres := (getCore u c).vres.filter fun x => decide (x.iss ≤ u.now)) (xres := (getCore u c).xres) (by rw [← hstores])
      fun _ hr => hr
  | sxe =>
    exact h.putCore (vres := (getCore u c).vres) (xres := (getCore u c).xres.filter fun x => decide (x.iss ≤ u.now)) (by rw [← hstores])
      fun _ hr => List.mem_of_mem_filter hr
  | mxe | dxe | mle => exact h.same rfl

/-- Where no stream has a task, none is stopped. -/
theorem stopTasks_of_none (h : ∀ st, taskOf s c st = none) : stopTasks (stopHandoffs s c) c = s := by
  have hhand : stopHandoffs s c = s := still_foldl fun st _ => by simp [handTask, h]
  rw [hhand]
  exact still_foldl fun st _ => by simp [stopTask, h]

/-- No operation of the engine is in flight, so none is withdrawn. -/
theorem dropOps_of_none (h : s.feOps.filter (feOfEng c e) = []) : s.feOps.filter (fun x => !feOfEng c e x || feGone s x) = s.feOps :=
  List.filter_eq_self.2 fun x hx => by simp [List.filter_eq_nil_iff.1 h x hx]

theorem oldestIdx_of_idle (hi : IdleEngine s c e []) : oldestIdx s c e = (getEng s c e).pc := by
  have hops : (s.feOps.filter fun x => feOfEng c e x && !feGone s x) = [] :=
    List.filter_eq_nil_iff.2 fun x hx => by simp [List.filter_eq_nil_iff.1 hi.ops x hx]
  have hopen : (engGet (getCore s c) e).closing = none := hi.open_
  simp [Machine.oldestIdx, hi.insts, hi.sems, hops, hopen, getEng]

theorem beginAbort_alone (hi : IdleEngine s c e []) (cause : Status) (cls : Nat) :
    CutTo s (beginAbort s c e cause cls none) c e (abortingEng (getEng s c e) s.now cause cls) := by
  have hmode : (getEng s c e).mode ≠ .aborting := by rw [hi.running]; decide
  have hkeep : keepAccepted s c e = s := by simp [keepAccepted, hi.open_]
  unfold beginAbort
  simp only [hmode, if_false, hkeep, oldestIdx_of_idle hi]
  set G : Engine := { getEng s c e with
    mode := .aborting, step := .off, queue := [], pc := (getEng s c e).pc, closing := none, wait := .none, fetchAt := s.now, nextAt := s.now,
    abort := some ⟨stCode cause, cls, (getEng s c e).bank, (getEng s c e).pc⟩ } with hG
  have h1 : CutTo s (putEng s c e G) c e G := CutTo.putEng ⟨.refl s c e True, fun _ hr => hr⟩ G
  have hops : (putEng s c e G).feOps.filter (fun x => !feOfEng c e x || feGone (putEng s c e G) x) = (putEng s c e G).feOps :=
    dropOps_of_none hi.ops
  rw [hops]
  have h2 : CutTo s (putCore (putEng s c e G) c { getCore (putEng s c e G) c with
      semOps := (getCore (putEng s c e G) c).semOps.filter fun x => x.eng != e
      insts := (getCore (putEng s c e G) c).insts.filter fun i => !(i.eng == e && !i.begun) }) c e G := by
    refine h1.same ?_
    have hsems : (getCore (putEng s c e G) c).semOps = [] := h1.cut.semOps.trans hi.sems
    have hinsts : (getCore (putEng s c e G) c).insts = [] := h1.cut.insts.trans hi.insts
    rw [hsems, hinsts, List.filter_nil, List.filter_nil, ← hsems, ← hinsts]
  set v := putCore (putEng s c e G) c _ with hv
  have h3 := h2.cutFlight hi.stores e
  set w := cutFlight v c e with hw
  have hstop : (if e = .dxe then stopTasks (stopHandoffs w c) c else w) = w := by
    split
    · exact stopTasks_of_none fun st => (h3.cut.taskOf st).trans (hi.tasks st).1
    · rfl
  have hnone : (getCore w c).insts = [] := h3.cut.insts.trans hi.insts
  rw [hstop, hnone, List.foldl_nil]
  have h4 : CutTo s (if e = .mxe then mxeStop w c cause else w) c e G := by
    split
    · exact h3.same (by rw [hnone, List.map_nil, ← hnone])
    · exact h3
  have h5 := h4.putEng { getEng (if e = .mxe then mxeStop w c cause else w) c e with ldq := [] }
  rw [h4.cut.engine] at h5 ⊢
  have hend : abortingEng (getEng s c e) s.now cause cls = { G with ldq := [] } := by simp [abortingEng, hi.open_, hG]
  rw [hend]
  exact h5

end CutTo

end Sys2Proof.Machine

namespace Sys2Proof.Machine

variable {s : State} {c : CoreId} {e : EngId} {w : W128} {t : Nat} {d : LoopDesc} {g : Engine} {why : Status}

/-- An engine of which nothing is outstanding aborts at once: HALTED with an empty queue, its PC where it was, and one event of its cause is logged
(R175, R453). -/
theorem faultEngine_alone (hi : IdleEngine s c e []) (why : Status) :
    let u := faultEngine s c e why none
    EngineTo s u c e { abortingEng (getEng s c e) s.now why clsSlice with mode := .halted, step := .off, abort := none } False ∧
      (∀ r ∈ (getCore u c).xres, r ∈ (getCore s c).xres) ∧
      ∃ ev, u.log.inFlight = s.log.inFlight ++ [ev] ∧ ev.cause = stCode why ∧ ev.cls = clsSlice ∧ ev.inst = c.val ∧ ev.sub = engIdx e := by
  intro u
  have hb := beginAbort_alone hi why clsSlice
  set v := beginAbort s c e why clsSlice none with hv
  set a := abortingEng (getEng s c e) s.now why clsSlice with ha
  have hstill : StillCore s c := ⟨by rw [hi.insts]; exact fun _ h => absurd h List.not_mem_nil, hi.modes⟩
  have hnone : (anyInst (getCore v c) e || (e == .dxe && (List.range 32).any fun st => streamAborting v c st)) = false := by
    simp [anyInst, hb.cut.insts, hi.insts, hb.cut.streamAborting, hi.tasks]
  have hend : settleEngine v c e =
      logEng (putEng v c e { a with mode := .halted, step := .off, abort := none }) c (engIdx e) (stCode why) clsSlice a.bank a.pc 0 := by
    simp only [settleEngine, hb.cut.engine, hnone]
    rfl
  have hput := hb.putEng { a with mode := .halted, step := .off, abort := none }
  have hto := hput.cut.logEng (engIdx e) (stCode why) clsSlice a.bank a.pc 0
  have hu : u = logEng (putEng v c e { a with mode := .halted, step := .off, abort := none }) c (engIdx e) (stCode why) clsSlice a.bank a.pc 0 := by
    have hm : (getEng s c e).mode ≠ .aborting := by rw [hi.running]; decide
    rw [show u = settleCore v c from if_neg hm, settleCore_stopping hstill hb.cut hend hto (settleEngine_still (.inl (by rw [hto.engine])))]
  rw [hu, ← hb.cut.log trivial]
  exact ⟨hto, hput.xres, _, rfl, rfl, rfl, rfl, rfl⟩

/-- The engine has taken its head at t, and of it nothing is outstanding still. -/
theorem AtHeadAlone.taken (h : AtHeadAlone s c e w t d g) : IdleEngine (advance (putEng s c e g) t) c e [] := by
  obtain ⟨hrun, hnow, -, hg⟩ := headOf_some h.head
  have hto : CoreTo (advance s t) (advance (putEng s c e g) t) c (engPut (getCore s c) e g) True := (CoreTo.refl (advance s t) c True).putEng e g
  have heng : getEng (advance (putEng s c e g) t) c e = g := by rw [hto.eng, engGet_engPut]
  have hengs (x : EngId) (hx : x ≠ e) : getEng (advance (putEng s c e g) t) c x = getEng s c x := by
    rw [hto.eng, engGet_engPut_ne _ _ hx]; rfl
  have hmode : g.mode = .running := (congrArg Engine.mode hg).trans hrun
  have hidle := h.alone
  exact {
    insts := by rw [hto.core]; exact hidle.insts
    modes := modes_of_others hidle.modes hengs (.inr (by rw [heng, hmode]))
    running := by rw [heng, hmode]
    open_ := by rw [heng, hg]; exact hidle.open_
    stores := by rw [hto.core]; exact hidle.stores
    sems := by rw [hto.core]; exact hidle.sems
    tasks := fun st => by
      obtain ⟨htask, habort⟩ := hidle.tasks st
      refine ⟨by rw [taskOf, hto.core]; exact htask, ?_⟩
      have hle : tget (getCore s c).sabort 0 st ≤ s.now := Nat.le_of_not_lt (of_decide_eq_false habort)
      rw [streamAborting, hto.core]
      exact decide_eq_false (Nat.not_lt.2 (hle.trans (Nat.le_max_left s.now t)))
    ops := hidle.ops }

/-- The head whose check asks for an abort aborts its engine at t, and does nothing (R175, R497). -/
theorem atHead_faults (h : AtHeadAlone s c e w t d g) (hcheck : checkWord s c e t ⟨w, false⟩ = .abort why) {o : Nat} (ho : opc w = o)
    (go : State → Nat → W128 → LoopDesc → State) : (atHead s c e o go).now = t ∧ Faulted s (atHead s c e o go) c e g.pc why := by
  obtain ⟨-, hnow, -, hg⟩ := headOf_some h.head
  have hidle := h.taken
  have hto : CoreTo (advance s t) (advance (putEng s c e g) t) c (engPut (getCore s c) e g) True := (CoreTo.refl (advance s t) c True).putEng e g
  have hcheck' : checkWord (advance (putEng s c e g) t) c e t ⟨w, false⟩ = .abort why := by
    rw [checkWord_congr rfl hto.core (by rw [hg]) (by rw [hg])]
    exact hcheck
  have hat : atHead s c e o go = faultEngine (advance (putEng s c e g) t) c e why none := by
    unfold atHead
    rw [h.head]
    simp [ho, h.held, hcheck']
  obtain ⟨hcut, hxres, ev, hev⟩ := faultEngine_alone hidle why
  rw [hat]
  set v := advance (putEng s c e g) t with hv
  set u := faultEngine v c e why none with hu
  have heng : getEng v c e = g := by rw [hto.eng, engGet_engPut]
  obtain ⟨_, _, _, hcore⟩ := hcut.core
  have hvcore : getCore v c = engPut (getCore s c) e g := hto.core
  have hxresS : (getCore v c).xres = (getCore s c).xres := by rw [hvcore]; rfl
  refine ⟨hcut.now.trans (Nat.max_eq_right hnow), ?_⟩
  exact {
    mode := by rw [hcut.engine]
    queue := by rw [hcut.engine]; rfl
    pc := by
      have hopen : g.closing = none := (congrArg Engine.closing hg).trans h.alone.open_
      rw [hcut.engine, heng]
      simp [abortingEng, hopen]
    event := ⟨ev, hev⟩
    ops := by
      have hnone : s.feOps.filter (fun y => !feOfEng c e y) = s.feOps :=
        List.filter_eq_self.2 fun x hx => by simp [List.filter_eq_nil_iff.1 h.alone.ops x hx]
      rw [hnone]
      exact hcut.feOps
    regs := ⟨by rw [hcore.core, hvcore]; rfl, by rw [hcore.core, hvcore]; rfl, fun r hr => hxresS ▸ hxres r hr, hcut.insts.trans hidle.insts⟩
    engines := fun x hx => by
      rw [hcut.engines x hx, hto.eng, engGet_engPut_ne _ _ hx]; rfl
    others := fun x hx => (hcut.others x hx).trans (hto.others x hx)
    memory := SameMemory_trans (SameMemory_trans (sameMemory_advance s t) hto.memory) hcut.memory
    units := SameUnits_trans (SameUnits_trans (sameUnits_advance s t) hto.units) hcut.units }

/-- The head's entry is that of its engine, fetched or not. -/
theorem AtHeadAlone.ldEntry (h : AtHeadAlone s c e w t d g) : ldEntry (engGet (getCore s c) e) (ldOf w) = some d := by
  obtain ⟨-, -, -, hg⟩ := headOf_some h.head
  rw [← h.entry, hg]
  rfl

/-- A FILL of a poisoned register is not made (R497). -/
theorem checkWord_fill_poisoned (h : AtHeadAlone s c e w t d g) (ho : opc w = 0x08) (hcommon : commonCheck e w = none) (hxr : feXr w = true)
    (hp : (xregAt (getCore s c) t 0 (feXreg w)).p = true) : checkWord s c e t ⟨w, false⟩ = .abort .regPoison := by
  obtain ⟨hdef, hfields⟩ := h.known
  have hfe : isFe 0x08 = true := rfl
  rw [ho] at hdef
  simp [checkWord, ho, hdef, hfields, h.ldEntry, hcommon, hfe, hxr, hp]

/-- A comparison or an address of a poisoned scalar register is not made (R497). -/
theorem checkWord_sxe_poisoned (h : AtHeadAlone s c .sxe w t d g) (ho : 0x20 ≤ opc w) (hok : sxeConsistent d w = true)
    (hp : sxePoisoned (getCore s c) t w = true) : checkWord s c .sxe t ⟨w, false⟩ = .abort .regPoison := by
  obtain ⟨hdef, hfields⟩ := h.known
  simp [checkWord, hdef, hfields, h.ldEntry, hok, hp, Nat.not_lt.2 ho]

end Sys2Proof.Machine

namespace Sys2Proof.Machine

/-- Settles O15: a poisoned address aborts; else the bases are formed at the dispatch, the loads read scratchpads, and the stores read registers,
none of which the loop changes. -/
theorem sxeLoadStoreComplete : Obligations.SxeLoadStoreComplete := by
  intro s c w t d g
  refine ⟨fun h hok hp => ?poisoned, ?passed⟩
  case poisoned =>
    have hcheck (hmem : opc w = 0x58 ∨ opc w = 0x59) : checkWord s c .sxe t ⟨w, false⟩ = .abort .regPoison := by
      refine checkWord_sxe_poisoned h (by omega) hok ?_
      have hbranch : sxeBranch (opc w) = false := by rcases hmem with ho | ho <;> rw [ho] <;> rfl
      simp only [sxePoisoned, hbranch, Bool.false_eq_true, if_false, if_pos hmem, hp]
    exact ⟨fun ho => ⟨_, rfl, atHead_faults h (hcheck (.inl ho)) ho _⟩, fun ho => ⟨_, rfl, atHead_faults h (hcheck (.inr ho)) ho _⟩⟩
  case passed =>
    intro hc hecc hx q n at_
    exact ⟨fun ho => ⟨_, rfl, sxeLd_ran hc hecc hx ho⟩, fun ho => ⟨_, rfl, sxeSt_ran hc hx ho⟩⟩

/-! The branches of the scalar engine (R213). -/

variable {s m : State} {c : CoreId} {w : W128} {t : Nat} {d : LoopDesc} {g : Engine}

/-- Is the branch w, dispatched at t, taken? -/
def takenAt (k : Core) (t : Nat) (w : W128) : Bool := branchTaken (opc w) (xregAt k t 0 (xXa w)).v (xregAt k t 0 (xXb w)).v

/-- What a branch does as it begins at its dispatch. -/
theorem beginWork_branch (hm : Entered s m c .sxe w t d g) (hb : sxeBranch (opc w) = true) :
    let i := headRecord s c .sxe w t d g
    let taken := takenAt (getCore s c) t w
    beginWork m c i t = (putInst (lateReads m c .sxe i (sxeLate (getCore m c) t w)) c (timedRecord i t t),
      if taken then t + 3 * slotLen s c .sxe else t + slotLen s c .sxe, if taken then some (targetOf w) else none) := by
  intro i taken
  have h4 : ¬opc i.w = 0x04 := fun h => Bool.false_ne_true ((h ▸ hb : sxeBranch 0x04 = true) ▸ rfl)
  have hbi : sxeBranch (opc i.w) = true := hb
  have htaken : branchTaken (opc i.w) (xregAt (getCore m c) t 0 (xXa i.w)).v (xregAt (getCore m c) t 0 (xXb i.w)).v = taken := by
    rw [hm.xregAt, hm.xregAt]; rfl
  simp only [beginWork, if_neg h4, show i.eng = .sxe from rfl, beginSxe, hbi, if_true, hm.slotLen, htaken]
  cases taken <;> rfl

/-- The engine past a branch that was dispatched at t: at its target, or at the next instruction. -/
def pastBranch (g : Engine) (w : W128) (taken : Bool) (t q : Nat) : Engine :=
  if taken then jumpTo g (targetOf w) t (3 * q) else popHead g (t + q)

/-- A branch at the head of a calm core, whose engine no late read halts, leaves no record. -/
theorem runOp_branch {o : Nat} (hc : CalmCore s c) (hl : latcheck s c .sxe ≠ 2) (hx : Executes s c .sxe w t d g) (ho : opc w = o)
    (hb : sxeBranch o = true) :
    let u := runOp s c .sxe o
    let p := pastBranch g w (takenAt (getCore s c) t w) t (slotLen s c .sxe)
    (∃ eng n a b, CoreTo (advance s t) u c { getCore s c with eng := eng, insts := [], nextInst := n, claimAt := a, claimEng := b } False) ∧
      getEng u c .sxe = p ∧ ∀ x, x ≠ .sxe → getEng u c x = getEng s c x := by
  intro u p
  obtain ⟨-, hnow, -, -⟩ := headOf_some hx.head
  obtain ⟨m, hent, hrun⟩ := runOp_entered hc hx ho
  set i := headRecord s c .sxe w t d g with hi
  set v := lateReads m c .sxe i (sxeLate (getCore m c) t w) with hv
  obtain ⟨eng, n, a, b, hm⟩ := hent.core
  obtain ⟨late, hlate, hlate2⟩ := hent.engine
  have hno : late = false := by
    by_contra h
    exact hl (hlate2 (by simpa using h))
  have hto := ((CoreTo.refl m c (latcheck m c .sxe = 0)).late i (sxeLate (getCore m c) t w) rfl).putInst hent.insts
    (show (timedRecord i t t).id = i.id from rfl)
  rw [← hv] at hto
  have heng : getEng (putInst v c (timedRecord i t t)) c .sxe = headPassed s c .sxe t g := by
    rw [hto.eng]
    exact hlate.trans (by rw [hno]; rfl)
  have hpast : begunEng (headPassed s c .sxe t g) i.id (if takenAt (getCore s c) t w then t + 3 * slotLen s c .sxe else t + slotLen s c .sxe) t
      (slotLen s c .sxe) (if takenAt (getCore s c) t w then some (targetOf w) else none) = p := by
    cases h : takenAt (getCore s c) t w <;>
      simp [p, pastBranch, h, begunEng, stepBegun, headPassed, popHead, jumpTo, hx.step, hi, headRecord]
  have hhalt (late : Nat) : lateHalt (putInst v c (timedRecord i t t)) c .sxe late p = p := by
    refine if_neg fun h => hl ?_
    rw [← hent.latcheck, ← lateReads_latcheck m c .sxe i (sxeLate (getCore m c) t w)]
    exact h.1
  have hbegin : beginInst m c i t = dropBranch (putEng (putInst v c (timedRecord i t t)) c .sxe p) c i := by
    rw [beginInst, beginWork_branch hent (ho ▸ hb), show i.eng = .sxe from rfl, heng, hent.slotLen, hpast, hhalt]
  have hall := hm.trans (hto.putEng .sxe p)
  set x := putEng (putInst v c (timedRecord i t t)) c .sxe p with hx'
  have hdrop : dropBranch x c i = putCore x c { getCore x c with insts := [] } := by
    have hinsts : (getCore x c).insts = [timedRecord i t t] := by rw [hall.core]; rfl
    have hnone : (getCore x c).insts.filter (fun x => x.id != i.id) = [] := by rw [hinsts]; simp [timedRecord]
    rw [dropBranch, if_pos ⟨rfl, show sxeBranch (opc w) = true from ho ▸ hb⟩]
    exact congrArg (fun l => putCore x c { getCore x c with insts := l }) hnone
  have hend := hall.forget.put (k' := { getCore x c with insts := [] })
  set y := putCore x c { getCore x c with insts := [] } with hy
  have hcore : getCore y c = { getCore x c with insts := [] } := hend.core
  have hp : getEng y c .sxe = p := by rw [getEng, hcore, hall.core]; exact engGet_engPut ..
  have hothers (z : EngId) (hz : z ≠ .sxe) : getEng y c z = getEng s c z := by
    have hy : getEng y c z = getEng x c z := by rw [getEng, hcore]; rfl
    rw [hy, hall.eng, engGet_engPut_ne _ _ hz, ← hent.engines z hz, getEng]
    rfl
  have hmode : p.mode = .running := by
    cases h : takenAt (getCore s c) t w <;> simp [p, pastBranch, h, popHead, jumpTo, hx.running]
  have hstill : u = y := by
    rw [show u = _ from hrun, hbegin, hdrop, pumpAll_still (by rw [hcore]; exact fun _ h => absurd h List.not_mem_nil)]
    refine still_foldl fun z _ => settleEngine_still ?_
    by_cases hz : z = .sxe
    · exact .inr (.inl (by rw [hz, hp, hmode]))
    · rw [hothers z hz]
      exact (hc.modes z).elim .inl fun h => .inr (.inl h)
  rw [hstill]
  refine ⟨⟨(engPut { getCore m c with insts := [timedRecord i t t] } .sxe p).eng, n, a, b, ?_⟩, hp, hothers⟩
  have hk := hall.core
  rw [hm.core] at hk
  rw [hk] at hend
  rw [hm.core]
  exact hend

theorem not_slt_eq (a b : W64) : (!a.slt b) = decide (b.toInt ≤ a.toInt) := by
  rw [BitVec.slt, ← decide_not]
  exact decide_eq_decide.2 Int.not_lt

theorem not_ult_eq (a b : W64) : (!a.ult b) = decide (b.toNat ≤ a.toNat) := by
  rw [BitVec.ult, ← decide_not]
  exact decide_eq_decide.2 Nat.not_lt

theorem bne_eq_decide (a b : W64) : (a != b) = decide (a ≠ b) := by rw [bne, Bool.beq_eq_decide_eq, decide_not]

/-- A branch of a poisoned register of pipe 0 aborts; any other compares by f and goes on. -/
theorem branch_completes {s : State} {c : CoreId} {w : W128} {t : Nat} {d : LoopDesc} {g : Engine} {x : Instr} {o : Nat} {f : W64 → W64 → Bool}
    (hexec : exec x s = .next (runOp s c .sxe o)) (hb : sxeBranch o = true) (hge : 0x20 ≤ o) (hf : ∀ a b, branchTaken o a b = f a b) :
    (AtHeadAlone s c .sxe w t d g → opc w = o → sxeConsistent d w = true →
      ((xregAt (getCore s c) t 0 (xXa w)).p || (xregAt (getCore s c) t 0 (xXb w)).p) = true →
      ∃ u, exec x s = .next u ∧ u.now = t ∧ Faulted s u c .sxe g.pc .regPoison) ∧
    (CalmCore s c → latcheck s c .sxe ≠ 2 → Executes s c .sxe w t d g → opc w = o →
      let q := slotLen s c .sxe
      let taken := f (xregAt (getCore s c) t 0 (xXa w)).v (xregAt (getCore s c) t 0 (xXb w)).v
      ∃ u, exec x s = .next u ∧ u.now = t ∧ (getCore u c).insts = [] ∧
        (getEng u c .sxe).pc = (if taken then targetOf w else g.pc + 1) ∧
        (getEng u c .sxe).queue = (if taken then [] else g.queue.drop 1) ∧
        (getEng u c .sxe).nextAt = (if taken then t + 3 * q else t + q) ∧ (getEng u c .sxe).mode = .running ∧
        (getCore u c).xres = (getCore s c).xres ∧ (getCore u c).vres = (getCore s c).vres ∧ (getCore u c).stores = (getCore s c).stores ∧
        SameMemory s u ∧ SameUnits s u ∧ SameCores s u c .sxe) := by
  refine ⟨fun h ho hok hp => ⟨_, hexec, ?poisoned⟩, ?passed⟩
  case poisoned =>
    refine atHead_faults h (checkWord_sxe_poisoned h (ho ▸ hge) hok ?_) ho _
    rw [sxePoisoned, ho, if_pos hb]
    exact hp
  case passed =>
    intro hc hl hx ho q taken
    refine ⟨_, hexec, ?_⟩
    obtain ⟨-, hnow, -, -⟩ := headOf_some hx.head
    obtain ⟨⟨eng, n, a, b, hto⟩, heng, hothers⟩ := runOp_branch hc hl hx ho hb
    have htaken : takenAt (getCore s c) t w = taken := by rw [takenAt, ho, hf]
    rw [htaken] at heng
    have hcore := hto.core
    have hcores : SameCores s (runOp s c .sxe o) c .sxe := by
      refine ⟨hto.others, hothers, ?_, ?_, ?_, ?_, ?_, ?_, ?_⟩ <;> rw [hcore]
    refine ⟨hto.now.trans (Nat.max_eq_right hnow), by rw [hcore], ?pc, ?queue, ?next, ?mode, by rw [hcore], by rw [hcore], by rw [hcore],
      SameMemory_trans (sameMemory_advance s t) hto.memory, SameUnits_trans (sameUnits_advance s t) hto.units, hcores⟩
    all_goals
      rw [heng]
      cases taken <;> simp [pastBranch, popHead, jumpTo, hx.running, q]

/-- Settles O14: every branch is `branch_completes` with its own comparison. -/
theorem sxeBranchesComplete : Obligations.SxeBranchesComplete := by
  intro x hx s c w t d g
  simp only [List.mem_cons, List.not_mem_nil, or_false] at hx
  rcases hx with rfl | rfl | rfl | rfl | rfl | rfl
  · exact branch_completes rfl rfl (by decide) Bool.beq_eq_decide_eq
  · exact branch_completes rfl rfl (by decide) bne_eq_decide
  · exact branch_completes rfl rfl (by decide) fun _ _ => rfl
  · exact branch_completes rfl rfl (by decide) not_slt_eq
  · exact branch_completes rfl rfl (by decide) fun _ _ => rfl
  · exact branch_completes rfl rfl (by decide) not_ult_eq

end Sys2Proof.Machine

namespace Sys2Proof.Machine

/-! VXE.TLOAD (R209) and SXE.IMCOPY (R213): the instructions whose records carry data until they complete. -/

variable {s m : State} {c : CoreId} {e : EngId} {w : W128} {t : Nat} {d : LoopDesc} {g : Engine} {q : Prop}

/-- Where the head is entered, what is in flight is what was in flight before. -/
theorem Entered.unchanged (h : Entered s m c e w t d g) : CoreTo m m c { getCore m c with
    vres := (getCore s c).vres, xres := (getCore s c).xres, stores := (getCore s c).stores, resSeq := (getCore s c).resSeq } q := by
  obtain ⟨hvres, hxres, hstores, hseq⟩ := h.flight
  rw [← hvres, ← hxres, ← hstores, ← hseq]
  exact .refl ..

/-- The record of a VXE.TLOAD that begins at its dispatch. -/
def tloadRecord (s : State) (c : CoreId) (w : W128) (t : Nat) (d : LoopDesc) (g : Engine) : Inst :=
  let a := padAddr c ((vBase w : Int) + loopOff d 0 (loopCount d - 1))
  { headRecord s c .vxe w t d g with
    begun := true, start := t, doneAt := t + 33 * loopCount d * slotLen s c .vxe, prog := .tload (vSlot w) (memBytes s a 4160) (memPoison s a 4160) }

theorem beginWork_tload (hm : Entered s m c .vxe w t d g) (hecc : s.ecc = []) (ho : opc w = 0x72) :
    beginWork m c (headRecord s c .vxe w t d g) t =
      (putInst m c (tloadRecord s c w t d g), t + 33 * loopCount d * slotLen s c .vxe, none) := by
  set i := headRecord s c .vxe w t d g with hi
  have ha := inPads_padAddr c ((vBase w : Int) + loopOff d 0 (loopCount d - 1))
  have h4 : ¬opc i.w = 0x04 := by rw [show opc i.w = 0x72 from ho]; decide
  simp only [beginWork, if_neg h4, show i.eng = .vxe from rfl, beginVxe, if_pos (show opc i.w = 0x72 from ho), hm.slotLen]
  rw [show padAddr c ((vBase i.w : Int) + loopOff i.loop 0 (loopCount i.loop - 1)) = padAddr c ((vBase w : Int) + loopOff d 0 (loopCount d - 1)) from rfl,
    touchRange_inPads (hm.ecc hecc) ha, hm.samePads.memBytes ha, hm.samePads.memPoison ha]
  rfl

/-- The slot's table is the record's data once it completes (R131, R209). -/
theorem vxeTloadComplete_lands {i : Inst} {slot : Nat} {bs : List Byte} {p : Bool} (hi : (getCore s c).insts = [i]) (he : i.eng = .vxe)
    (hb : i.begun = true) (hf : i.finished = false) (hp : i.prog = .tload slot bs p) :
    ∃ u, exec (.vxeTloadComplete c) s = .next u ∧ CoreTo (advance s i.doneAt) u c { getCore s c with
      slots := tset (getCore s c).slots slotReset slot bs
      slotP := tset (getCore s c).slotP false slot p
      insts := [{ i with finished := true }] } True := by
  have hto := (CoreTo.refl (advance s i.doneAt) c True).put (k' := { getCore (advance s i.doneAt) c with
    slots := tset (getCore (advance s i.doneAt) c).slots slotReset slot bs, slotP := tset (getCore (advance s i.doneAt) c).slotP false slot p })
  refine ⟨_, ?_, hto.putInst hi rfl⟩
  change execVxeTloadComplete c s = _
  cases i
  dsimp only at he hb hf hp
  subst he hb hf hp
  simp only [execVxeTloadComplete, hi, List.find?_cons, beq_self_eq_true, Bool.and_true, Bool.false_eq_true, if_false]

/-- Settles O12: the bytes are read where the record begins, in a scratchpad that nothing of the dispatch changes, and put into the slot where
it completes. -/
theorem vxeTloadCopiesItsTable : Obligations.VxeTloadCopiesItsTable := by
  refine ⟨fun s c w t d g hc hecc hx ho => ?begins, fun s c i slot bs p hi he hb hf hp => ?completes⟩
  case begins =>
    intro q a
    obtain ⟨hkept, -⟩ := runOp_kept (q := True) (f := fun m => m) hc hx ho nofun rfl rfl rfl (fun _ => by simp [tloadRecord])
      fun m hm => ⟨beginWork_tload hm hecc ho, hm.unchanged⟩
    exact ⟨_, rfl, hkept.memory, hkept.sameCores, hkept.units, hkept.engine.next, hkept.engine.pc, _, hkept.insts, rfl, rfl, rfl, rfl, rfl⟩
  case completes =>
    obtain ⟨u, hu, hto⟩ := vxeTloadComplete_lands hi he hb hf hp
    have hcore := hto.core
    refine ⟨u, hu, hto.now, SameMemory_trans (sameMemory_advance s _) hto.memory, SameUnits_trans (sameUnits_advance s _) hto.units,
      ?_, ?_, fun k hk => ⟨?_, ?_⟩, ?_, ?_, hto.others⟩
    all_goals rw [hcore]
    · exact tget_tset_self ..
    · exact tget_tset_self ..
    · exact tget_tset_ne _ _ _ _ hk
    · exact tget_tset_ne _ _ _ _ hk

/-- Whether a bank of an engine may be written is not changed by the dispatch of a head. -/
theorem Entered.bankBusy (hm : Entered s m c e w t d g) (hx : Executes s c e w t d g) (x : EngId) (b : Bool) :
    bankBusy (getEng m c x) b = bankBusy (getEng s c x) b := by
  by_cases hxe : x = e
  · obtain ⟨hrun, -, -, hg⟩ := headOf_some hx.head
    obtain ⟨late, hlate, -⟩ := hm.engine
    have hmode : g.mode = .running := (congrArg Engine.mode hg).trans hrun
    have hbank : g.bank = (getEng s c e).bank := (congrArg Engine.bank hg).trans rfl
    have hclose : g.closing = (getEng s c e).closing := (congrArg Engine.closing hg).trans rfl
    rw [hxe, hlate]
    cases late <;> simp only [Machine.bankBusy, drainedIf, catchUp, headPassed, popHead, hrun, hmode, hbank, hclose] <;> rfl
  · rw [hm.engines x hxe]

/-- Where the bank may not be written, an SXE.IMCOPY that begins has its error in flight and logged. -/
def imcopyRefused (m : State) (c : CoreId) (w : W128) (t q : Nat) (i : Inst) : State :=
  logEng (putCore m c (putX (getCore m c) 0 (xXd w) ⟨BitVec.ofNat 64 (stCode .bankBusy), false⟩ t (t + 2 * q))) c (engIdx .sxe) (stCode .bankBusy)
    clsNone i.bank i.idx 0

/-- Else it has ST_OK in flight, until its words have been written. -/
def imcopyAccepted (m : State) (c : CoreId) (w : W128) (t q : Nat) : State :=
  putCore m c (putX (getCore m c) 0 (xXd w) ⟨BitVec.ofNat 64 (stCode .ok), false⟩ t (t + (2 + ceilDiv (imcCount w) 4) * q))

/-- The record of an SXE.IMCOPY whose bank may be written, as it begins at its dispatch. -/
def imcopyRecord (s : State) (c : CoreId) (w : W128) (t : Nat) (d : LoopDesc) (g : Engine) : Inst :=
  { headRecord s c .sxe w t d g with
    begun := true, start := t, doneAt := t + (2 + ceilDiv (imcCount w) 4) * slotLen s c .sxe,
    prog := .imcopy (imcEng w) (imcBank w) (imcDst w) (imageWords (memBytes s (padAddr c (imcSrc w)) (16 * imcCount w)) (imcCount w))
      (getCore s c).resSeq }

theorem beginWork_imcopy_refused (hm : Entered s m c .sxe w t d g) (hx : Executes s c .sxe w t d g) (ho : opc w = 0x68)
    (hbusy : bankBusy (getEng s c (imcEng w)) (imcBank w) = true) :
    let i := headRecord s c .sxe w t d g
    let q := slotLen s c .sxe
    beginWork m c i t = (putInst (imcopyRefused m c w t q i) c (timedRecord i t (t + 2 * q)), t + q, none) := by
  intro i q
  have hoi : opc i.w = 0x68 := ho
  have h4 : ¬opc i.w = 0x04 := by rw [hoi]; decide
  have hb : ¬sxeBranch (opc i.w) = true := by rw [hoi]; decide
  have hbm : bankBusy (getEng m c (imcEng i.w)) (imcBank i.w) = true := (hm.bankBusy hx _ _).trans hbusy
  simp only [beginWork, if_neg h4, show i.eng = .sxe from rfl, beginSxe, if_neg hb, if_pos hoi, if_pos hbm, hm.slotLen]
  rfl

theorem beginWork_imcopy_accepted (hm : Entered s m c .sxe w t d g) (hecc : s.ecc = []) (hx : Executes s c .sxe w t d g) (ho : opc w = 0x68)
    (hbusy : bankBusy (getEng s c (imcEng w)) (imcBank w) = false) :
    let q := slotLen s c .sxe
    beginWork m c (headRecord s c .sxe w t d g) t = (putInst (imcopyAccepted m c w t q) c (imcopyRecord s c w t d g), t + q, none) := by
  intro q
  set i := headRecord s c .sxe w t d g with hi
  have hoi : opc i.w = 0x68 := ho
  have h4 : ¬opc i.w = 0x04 := by rw [hoi]; decide
  have hb : ¬sxeBranch (opc i.w) = true := by rw [hoi]; decide
  have hbm : ¬bankBusy (getEng m c (imcEng i.w)) (imcBank i.w) = true := by
    rw [show i.w = w from rfl, hm.bankBusy hx, hbusy]; exact Bool.false_ne_true
  have ha := inPads_padAddr c (imcSrc w)
  obtain ⟨-, -, -, hseq⟩ := hm.flight
  simp only [beginWork, if_neg h4, show i.eng = .sxe from rfl, beginSxe, if_neg hb, if_pos hoi, if_neg hbm, hm.slotLen]
  rw [show padAddr c (imcSrc i.w) = padAddr c (imcSrc w) from rfl, touchRange_inPads (hm.ecc hecc) ha, hm.samePads.memBytes ha, hseq]
  rfl

/-- The log is as before once the head has been entered, where no late read is checked. -/
theorem Entered.log (h : Entered s m c e w t d g) (hq : NoLateRead s c e w) : m.log = s.log := by
  obtain ⟨_, _, _, _, hto⟩ := h.core
  obtain ⟨-, -, -, -, -, hr⟩ := hto.else_
  exact (hr hq).2

/-- An SXE.IMCOPY at the head into a bank that may not be written. -/
theorem imcopy_refused (hc : CalmCore s c) (hx : Executes s c .sxe w t d g) (ho : opc w = 0x68)
    (hbusy : bankBusy (getEng s c (imcEng w)) (imcBank w) = true) :
    let q := slotLen s c .sxe
    let u := runOp s c .sxe 0x68
    Kept s u c .sxe t g { getCore s c with
      vres := (getCore s c).vres
      xres := (getCore s c).xres ++ [⟨0, xXd w, ⟨BitVec.ofNat 64 (stCode .bankBusy), false⟩, t, t + 2 * q, (getCore s c).resSeq⟩]
      stores := (getCore s c).stores
      resSeq := (getCore s c).resSeq + 1 } (timedRecord (headRecord s c .sxe w t d g) t (t + 2 * q)) (t + q)
      (NoLateRead s c .sxe w ∧ False) ∧
    ∃ e, u.log.inFlight = s.log.inFlight ++ [e] ∧ e.cause = stCode .bankBusy ∧ e.cls = clsNone := by
  intro q u
  obtain ⟨hkept, m, hm, hlog⟩ := runOp_kept (q := False) hc hx ho (fun _ => rfl) rfl rfl rfl (fun n h => nomatch show Prog.plain = .dxe n from h)
    (vres := (getCore s c).vres) (stores := (getCore s c).stores) (n := (getCore s c).resSeq + 1)
    (xres := (getCore s c).xres ++ [⟨0, xXd w, ⟨BitVec.ofNat 64 (stCode .bankBusy), false⟩, t, t + 2 * q, (getCore s c).resSeq⟩])
    fun m hm => ⟨beginWork_imcopy_refused hm hx ho hbusy, by
      obtain ⟨hvres, hxres, hstores, hseq⟩ := hm.flight
      rw [← hvres, ← hxres, ← hstores, ← hseq]
      exact (CoreTo.refl m c False).put.logEng ..⟩
  refine ⟨hkept, ?_⟩
  rw [hlog, ← hm.log (.inr fun _ => by rw [ho]; rfl)]
  exact ⟨_, rfl, rfl, rfl⟩

/-- An SXE.IMCOPY at the head into a bank that may be written. -/
theorem imcopy_accepted (hc : CalmCore s c) (hecc : s.ecc = []) (hx : Executes s c .sxe w t d g) (ho : opc w = 0x68)
    (hbusy : bankBusy (getEng s c (imcEng w)) (imcBank w) = false) :
    let q := slotLen s c .sxe
    Kept s (runOp s c .sxe 0x68) c .sxe t g { getCore s c with
      vres := (getCore s c).vres
      xres := (getCore s c).xres ++
        [⟨0, xXd w, ⟨BitVec.ofNat 64 (stCode .ok), false⟩, t, t + (2 + ceilDiv (imcCount w) 4) * q, (getCore s c).resSeq⟩]
      stores := (getCore s c).stores
      resSeq := (getCore s c).resSeq + 1 } (imcopyRecord s c w t d g) (t + q) (NoLateRead s c .sxe w ∧ True) := by
  intro q
  obtain ⟨hkept, -⟩ := runOp_kept (q := True) hc hx ho (fun _ => rfl) rfl rfl rfl (fun _ => by simp [imcopyRecord])
    (vres := (getCore s c).vres) (stores := (getCore s c).stores) (n := (getCore s c).resSeq + 1)
    (xres := (getCore s c).xres ++
      [⟨0, xXd w, ⟨BitVec.ofNat 64 (stCode .ok), false⟩, t, t + (2 + ceilDiv (imcCount w) 4) * q, (getCore s c).resSeq⟩])
    fun m hm => ⟨beginWork_imcopy_accepted hm hecc hx ho hbusy, by
      obtain ⟨hvres, hxres, hstores, hseq⟩ := hm.flight
      rw [← hvres, ← hxres, ← hstores, ← hseq]
      exact (CoreTo.refl m c True).put⟩
  exact hkept

/-- The words of an SXE.IMCOPY are written once it completes, and their marks cleared (R155, R213). -/
theorem sxeImcopyComplete_writes {i : Inst} {te : EngId} {bank : Bool} {dst n : Nat} {ws : List W128} (hi : (getCore s c).insts = [i])
    (he : i.eng = .sxe) (hf : i.finished = false) (hp : i.prog = .imcopy te bank dst ws n) :
    ∃ u, exec (.sxeImcopyComplete c) s = .next u ∧ CoreTo (advance s i.doneAt) u c
      { engPut (getCore s c) te (putWords (getEng s c te) bank dst ws) with insts := [{ i with finished := true }] } True := by
  refine ⟨_, ?_, ((CoreTo.refl (advance s i.doneAt) c True).putEng te (putWords (getEng (advance s i.doneAt) c te) bank dst ws)).putInst hi rfl⟩
  change execSxeImcopyComplete c s = _
  cases i
  dsimp only at he hf hp
  subst he hf hp
  simp only [execSxeImcopyComplete, hi, List.find?_cons, beq_self_eq_true, Bool.not_false, Bool.and_true]

theorem tget_tclear_out {α : Type} (t : Tab α) (d : α) {lo n k : Nat} (h : k < lo ∨ lo + n ≤ k) : tget (tclear t lo n) d k = tget t d k :=
  tget_filter_keep _ fun _ => by simp only [Bool.not_eq_true', Bool.and_eq_false_iff, decide_eq_false_iff_not]; omega

/-- Settles O16: the image is read where the record begins, in a scratchpad that nothing of the dispatch changes, and written where it
completes. -/
theorem sxeImcopyReadsAndWritesItsImage : Obligations.SxeImcopyReadsAndWritesItsImage := by
  refine ⟨fun s c w t d g hc hecc hx ho => ?begins, fun s c i te bank dst ws n hi he hf hp => ?completes⟩
  case begins =>
    intro q
    obtain ⟨-, hnow, -, hg⟩ := headOf_some hx.head
    have himem : g.imem = (getEng s c .sxe).imem := (congrArg Engine.imem hg).trans rfl
    cases hbusy : bankBusy (getEng s c (imcEng w)) (imcBank w) with
    | true =>
      obtain ⟨hkept, hev⟩ := imcopy_refused hc hx ho hbusy
      exact ⟨_, _, rfl, hkept.now hnow, hkept.engine.pc, hkept.engine.next.trans (Nat.max_self _), hkept.engine.imem.trans himem, hkept.memory,
        hkept.units, hkept.sameCores, hkept.insts, rfl, rfl, rfl, rfl, hkept.xres, hev⟩
    | false =>
      have hkept := imcopy_accepted hc hecc hx ho hbusy
      exact ⟨_, _, rfl, hkept.now hnow, hkept.engine.pc, hkept.engine.next.trans (Nat.max_self _), hkept.engine.imem.trans himem, hkept.memory,
        hkept.units, hkept.sameCores, hkept.insts, rfl, rfl, rfl, rfl, hkept.log ⟨.inr fun _ => by rw [ho]; rfl, trivial⟩, hkept.xres, rfl⟩
  case completes =>
    obtain ⟨u, hu, hto⟩ := sxeImcopyComplete_writes hi he hf hp
    have hcore := hto.core
    have heng : getEng u c te = putWords (getEng s c te) bank dst ws := (hto.eng te).trans (engGet_engPut ..)
    have hcores : SameCores s u c te := by
      refine ⟨hto.others, fun x hx => (hto.eng x).trans (engGet_engPut_ne _ _ hx), ?_, ?_, ?_, ?_, ?_, ?_, ?_⟩ <;> rw [hcore] <;> rfl
    refine ⟨u, hu, hto.now, SameMemory_trans (sameMemory_advance s _) hto.memory, SameUnits_trans (sameUnits_advance s _) hto.units,
      fun j hj => ?_, fun k hk => ?_, by rw [hcore]; rfl, by rw [hcore], hcores⟩
    · rw [heng]
      exact ⟨tget_twrite_in _ _ _ _ _ hj, tget_tclear_in _ _ ⟨by omega, by omega⟩⟩
    · rw [heng]
      exact ⟨tget_twrite_out _ _ _ _ _ hk, tget_tclear_out _ _ hk⟩

end Sys2Proof.Machine

namespace Sys2Proof.Machine

/-! The operations that leave no record: control, semaphore and full/empty operations (R194 to R197). -/

variable {s u : State} {c : CoreId} {e : EngId} {w : W128} {t : Nat} {d : LoopDesc} {g h : Engine}

theorem EngineOnly.putCore (ho : EngineOnly s u c e t g) (h : Engine) (l : List SemOp) :
    EngineOnly s (putCore u c (engPut { getCore u c with semOps := l } e h)) c e t h := by
  have hcore : getCore (Machine.putCore u c (engPut { getCore u c with semOps := l } e h)) c = engPut { getCore u c with semOps := l } e h :=
    getCore_putCore ..
  exact {
    engine := by rw [getEng, hcore]; exact engGet_engPut ..
    engines := fun x hx => by rw [getEng, hcore, engGet_engPut_ne _ _ hx, ← ho.engines x hx]; rfl
    core := by rw [hcore, ho.core]; rfl
    others := fun x hx => (getCore_putCore_ne _ _ hx).trans (ho.others x hx)
    rest := by rw [ho.rest]; rfl }

theorem EngineOnly.putEng (ho : EngineOnly s u c e t g) (h : Engine) : EngineOnly s (putEng u c e h) c e t h := ho.putCore h (getCore u c).semOps

theorem EngineOnly.ops (ho : EngineOnly s u c e t g) (l : List FeOp) (n : Nat) : EngineOnly s { u with feOps := l, nextOp := n } c e t g := by
  obtain ⟨heng, hengs, hcore, hothers, hrest⟩ := ho
  exact ⟨heng, hengs, hcore, hothers, by rw [hrest]⟩

/-- In a core where nothing waits to follow, an engine that goes on lets nothing follow. -/
theorem EngineOnly.settle (ho : EngineOnly s u c e t g) (hs : StillCore s c) (hg : g.mode = .running ∨ g.mode = .halted) : settleCore u c = u :=
  hs.settle (fun i hi => by rw [ho.core] at hi; exact hi) (modes_of_others hs.modes ho.engines (ho.engine ▸ hg.symm))

/-- The engine takes its head at t, its fetches made. -/
theorem engineOnly_taken (hx : Executes s c e w t d g) : EngineOnly s (advance (putEng s c e g) t) c e t g := by
  obtain ⟨-, hnow, -, -⟩ := headOf_some hx.head
  have hrefl : EngineOnly s s c e s.now (getEng s c e) := ⟨rfl, fun _ _ => rfl, rfl, fun _ _ => rfl, rfl⟩
  obtain ⟨heng, hengs, hcore, hothers, hrest⟩ := hrefl.putEng g
  exact ⟨heng, hengs, hcore, hothers, by rw [advance, hrest, Nat.max_eq_right hnow]⟩

section Taken
variable (hs : StillCore s c) (hx : Executes s c e w t d g)
include hs hx

/-- A head that is passed on at its dispatch, its engine becoming h, changes its engine alone. -/
theorem passHead_taken (hmode : h.mode = .running) (hstep : h.step = .off) :
    let u := passHead (advance (putEng s c e g) t) c e h
    EngineOnly s u c e t h ∧ u.feOps = s.feOps ∧ (getCore u c).semOps = (getCore s c).semOps := by
  intro u
  have ho := (engineOnly_taken hx).putEng h
  have hu : u = putEng (advance (putEng s c e g) t) c e h := by
    rw [show u = settleCore (putEng (advance (putEng s c e g) t) c e (stepBegun h)) c from rfl, stepBegun_off hstep, ho.settle hs (.inl hmode)]
  rw [hu]
  refine ⟨ho, rfl, ?_⟩
  rw [putEng, getCore_putCore, show getCore (advance (putEng s c e g) t) c = engPut (getCore s c) e g from getCore_putCore ..]
  rfl

/-- A head that halts its engine. -/
theorem halt_taken :
    let p := popHead g (t + slotLen s c e)
    let u := drainEngine (putEng (advance (putEng s c e g) t) c e p) c e
    EngineOnly s u c e t { catchUp p t with mode := if quiet { s with now := t } c e then .halted else .draining } ∧
      u.feOps = s.feOps ∧ (getCore u c).semOps = (getCore s c).semOps := by
  intro p u
  obtain ⟨-, hnow, -, hg⟩ := headOf_some hx.head
  set b := advance s t with hb
  have hbase : { s with now := t } = b := by rw [hb, advance, Nat.max_eq_right hnow]
  have hstill : StillCore b c := ⟨hs.insts, hs.modes⟩
  set v := putEng (advance (putEng s c e g) t) c e p with hv
  have hto : EngineTo b v c e p True := ((EngineTo.refl b c e True).putEng g).putEng p
  have hvnow : v.now = t := hto.now.trans (Nat.max_eq_right hnow)
  have hwithdraw : withdrawWait v c e = v := by simp only [withdrawWait, hto.engine]; rfl
  set G : Engine := { catchUp p t with mode := .draining } with hG
  have hstep : ({ catchUp p t with mode := .draining, step := if p.step = .armed then .off else p.step } : Engine) = G := by
    rw [show p.step = .off from hx.step]
    exact congrArg (fun x => { G with step := x }) hx.step.symm
  have hdrain : u = settleCore (putEng v c e G) c := by
    rw [show u = settleCore (putEng (withdrawWait v c e) c e { catchUp (getEng (withdrawWait v c e) c e) (withdrawWait v c e).now with
      mode := .draining
      step := if (getEng (withdrawWait v c e) c e).step = .armed then .off else (getEng (withdrawWait v c e) c e).step }) c from rfl,
      hwithdraw, hto.engine, hvnow, hstep]
  have hto' := hto.putEng G
  have hquiet : quiet (putEng v c e G) c e = quiet b c e := hto'.quiet (show g.closing = (getEng s c e).closing from (congrArg Engine.closing hg).trans rfl)
  have hend : settleEngine (putEng v c e G) c e =
      if quiet b c e then putEng (putEng v c e G) c e { G with mode := .halted, step := .off } else putEng v c e G := by
    rw [settleEngine_draining (by rw [hto'.engine]), hto'.engine, hquiet]
  have honly := ((engineOnly_taken hx).putEng p).putEng G
  rw [hdrain, hbase]
  have hops (y : State) (k : Engine) (hy : EngineTo b y c e k True) : y.feOps = s.feOps ∧ (getCore y c).semOps = (getCore s c).semOps :=
    ⟨hy.feOps, hy.semOps⟩
  by_cases hq : quiet b c e = true
  · rw [if_pos hq] at hend ⊢
    have hto'' := hto'.putEng { G with mode := .halted, step := .off }
    rw [settleCore_stopping hstill hto' hend hto'' (settleEngine_still (.inl (by rw [hto''.engine])))]
    have hlast := honly.putEng { G with mode := .halted, step := .off }
    refine ⟨?_, hops _ _ hto''⟩
    rw [show ({ catchUp p t with mode := .halted } : Engine) = { G with mode := .halted, step := .off } from
      congrArg (fun x => { G with mode := .halted, step := x }) hx.step]
    exact hlast
  · rw [if_neg hq] at hend ⊢
    rw [settleCore_stopping hstill hto' hend hto' hend]
    exact ⟨honly, hops _ _ hto'⟩

end Taken

/-- Settles O5: each of the operations passes its head on or drains its engine. -/
theorem controlOperationsComplete : Obligations.ControlOperationsComplete := by
  refine ⟨fun s c e w t d g hs hx => ?head, fun s c e target hs hclosing hpending => ?closed⟩
  case head =>
    have hpending : bankPending (getCore (advance (putEng s c e g) t) c) e (!g.bank) = bankPending (getCore s c) e (!g.bank) := by
      rw [(engineOnly_taken hx).core]; rfl
    intro q past
    refine ⟨fun ho => ⟨_, rfl, ?nop⟩, fun ho => ⟨_, rfl, ?jmp⟩, fun ho => ⟨_, rfl, ?banksw⟩, fun ho => ⟨_, rfl, ?halt⟩⟩
    all_goals rw [atHead_executes hx ho, (engineOnly_taken hx).engine]
    case nop => exact passHead_taken hs hx hx.running hx.step
    case jmp => exact passHead_taken hs hx hx.running hx.step
    case banksw =>
      dsimp only
      rw [hpending]
      cases bankPending (getCore s c) e (!g.bank)
      · exact passHead_taken hs hx hx.running hx.step
      · exact passHead_taken hs hx hx.running hx.step
    case halt =>
      have hstep : stepBegun (popHead g (t + slotLen s c e)) = popHead g (t + slotLen s c e) := stepBegun_off hx.step
      rw [show slotLen (advance (putEng s c e g) t) c e = slotLen s c e from rfl, hstep]
      exact halt_taken hs hx
  case closed =>
    intro g next
    have hrefl : EngineOnly s s c e s.now (getEng s c e) := ⟨rfl, fun _ _ => rfl, rfl, fun _ _ => rfl, rfl⟩
    have ho := hrefl.putEng (switchBank g target next)
    refine ⟨putEng s c e (switchBank g target next), ?_, rfl, ?_, ho⟩
    · change execBankswBankClosed c e s = _
      simp only [execBankswBankClosed, hclosing, hpending, Bool.false_eq_true, if_false]
      rw [ho.settle hs (hs.modes e).symm]
    · rw [putEng, getCore_putCore]; rfl

/-- A semaphore operation at the head is in flight, and its engine is past it or waits for it. -/
theorem dispatchSem_taken (hs : StillCore s c) (hx : Executes s c e w t d g) (kind : Nat) :
    let q := slotLen s c e
    let u := dispatchSem kind c e (advance (putEng s c e g) t) t w d
    (getCore u c).semOps = (getCore s c).semOps ++
      [⟨s.nextOp, e, kind, semCtr w, semN w, t + 2 * q, false, g.pc, (getCore s c).nextInst⟩] ∧ u.feOps = s.feOps ∧ u.nextOp = s.nextOp + 1 ∧
      EngineOnly s u c e t (if kind = 2 then { g with wait := .sync s.nextOp t false } else popHead g (t + q)) := by
  intro q u
  have ho := engineOnly_taken hx
  set v := advance (putEng s c e g) t with hv
  have hcore : getCore v c = engPut (getCore s c) e g := getCore_putCore ..
  have hg : engGet (getCore v c) e = g := ho.engine
  set op : SemOp := ⟨s.nextOp, e, kind, semCtr w, semN w, t + 2 * q, false, g.pc, (getCore s c).nextInst⟩ with hop
  set G : Engine := if kind = 2 then { g with wait := .sync s.nextOp t false } else popHead g (t + q) with hG
  have hmode : G.mode = .running := by
    rw [hG]
    split <;> exact hx.running
  have hpast : (if kind = 2 then { g with wait := .sync s.nextOp t false } else stepBegun (popHead g (t + q)) : Engine) = G := by
    rw [hG, stepBegun_off (show (popHead g (t + q)).step = .off from hx.step)]
  have hend := (ho.putCore G ((getCore v c).semOps ++ [op])).ops s.feOps (s.nextOp + 1)
  have hu : u = { putCore v c (engPut { getCore v c with semOps := (getCore v c).semOps ++ [op] } e G) with feOps := s.feOps, nextOp := s.nextOp + 1 } := by
    rw [← hend.settle hs (.inl hmode), show u = dispatchSem kind c e v t w d from rfl]
    unfold dispatchSem
    dsimp only
    rw [hg, show slotLen v c e = q from rfl, show (getCore v c).nextInst = (getCore s c).nextInst by rw [hcore]; rfl, show v.nextOp = s.nextOp from rfl,
      hpast]
    rfl
  rw [hu]
  refine ⟨?_, rfl, rfl, hend⟩
  rw [show getCore { putCore v c (engPut { getCore v c with semOps := (getCore v c).semOps ++ [op] } e G) with
    feOps := s.feOps, nextOp := s.nextOp + 1 } c = engPut { getCore v c with semOps := (getCore v c).semOps ++ [op] } e G from getCore_putCore .., hcore]
  rfl

/-- Settles O8: each of the operations is `dispatchSem_taken` with its kind. -/
theorem semaphoreOperationsDispatch : Obligations.SemaphoreOperationsDispatch := by
  intro x hrow s c e w t d g hs hx ho q
  have hdispatch (kind : Nat) := dispatchSem_taken hs hx kind
  simp only [List.mem_cons, List.not_mem_nil, or_false] at hrow
  have hrun {o kind : Nat} (ho : opc w = o) : atHead s c e o (dispatchSem kind c e) = dispatchSem kind c e (advance (putEng s c e g) t) t w d :=
    atHead_executes hx ho _
  rcases hrow with rfl | rfl | rfl
  all_goals
    obtain ⟨hsems, hops, hnext, honly⟩ := hdispatch _
    exact ⟨_, _, congrArg Host.Outcome.next (hrun ho), hsems, hops, hnext, honly, rfl, rfl, rfl, rfl, rfl, rfl, rfl⟩

end Sys2Proof.Machine

namespace Sys2Proof.Machine

/-! Full/empty operations at their dispatch (R196, R222). -/

variable {s u v : State} {c : CoreId} {e : EngId} {w : W128} {t : Nat} {d : LoopDesc} {g : Engine}

/-- The operation that a full/empty word dispatched at t sends. -/
def feOpAt (s : State) (c : CoreId) (e : EngId) (w : W128) (t : Nat) (g : Engine) : FeOp :=
  ⟨s.nextOp, .eng c e, feKindOf (opc w), if feLocal w then padBase c + feAddr w % 0x400000 else feAddr w, feLocal w,
   if feXr w then (xregAt (getCore s c) t 0 (feXreg w)).v else BitVec.ofNat 64 (feImm w), if feXr w ∧ opc w ≠ 0x08 then some (feXreg w) else none,
   t + 2 * slotLen s c e, (getCore s c).nextInst, g.pc, false, t, none⟩

/-- Does the word, dispatched at t, read a register whose result is in flight? -/
def feReadsLate (k : Core) (t : Nat) (w : W128) : Bool := opc w == 0x08 && feXr w && xInFlight k t 0 (feXreg w)

/-- The state u with operation op in flight and engine e of core c become g. -/
def sentFe (u : State) (c : CoreId) (e : EngId) (g : Engine) (op : FeOp) : State :=
  { putEng u c e g with feOps := u.feOps ++ [op], nextOp := u.nextOp + 1 }

/-- The taken head's read of a register whose result is in flight, as a FILL makes it. -/
def feReads (v : State) (c : CoreId) (e : EngId) (w : W128) (t : Nat) : State :=
  lateReads v c e (headInst (getCore v c) e w t) (if feReadsLate (getCore v c) t w then 1 else 0)

/-- The engine that has sent its operation from the state after its reads: past it, or waiting for it (R222). -/
def feSent (s u : State) (c : CoreId) (e : EngId) (w : W128) (t : Nat) (g : Engine) (late : Nat) : Engine :=
  if opc w = 0x08 ∨ opc w = 0x0B then lateHalt u c e late (popHead g (t + slotLen s c e)) else { g with wait := .sync s.nextOp t false }

section Taken
variable (hx : Executes s c e w t d g)
include hx

theorem dispatchFe_taken :
    let v := advance (putEng s c e g) t
    let u := feReads v c e w t
    dispatchFe c e v t w d = settleCore (sentFe u c e (feSent s u c e w t g (lateEvents v)) (feOpAt s c e w t g)) c := by
  intro v u
  have hcore : getCore v c = engPut (getCore s c) e g := getCore_putCore ..
  have hg : engGet (getCore v c) e = g := (engineOnly_taken hx).engine
  have hreg : xregAt (getCore v c) t 0 (feXreg w) = xregAt (getCore s c) t 0 (feXreg w) := by rw [hcore]; rfl
  have hinst : (getCore v c).nextInst = (getCore s c).nextInst := by rw [hcore]; rfl
  have hread : (if opc w = 0x08 ∧ feXr w = true ∧ xInFlight (getCore v c) t 0 (feXreg w) = true then 1 else 0) =
      if feReadsLate (getCore v c) t w then 1 else 0 := by simp [feReadsLate, and_assoc]
  unfold dispatchFe
  dsimp only
  rw [hread, hg, hreg, hinst, show slotLen v c e = slotLen s c e from rfl, stepBegun_off (show (popHead g (t + slotLen s c e)).step = .off from hx.step)]
  rfl

/-- An operation that reads no late register, or whose engine does not check, changes its engine alone. -/
theorem dispatchFe_prompt (hs : StillCore s c) (hlate : feReadsLate (getCore s c) t w = false ∨ latcheck s c e = 0) :
    let u := dispatchFe c e (advance (putEng s c e g) t) t w d
    u.feOps = s.feOps ++ [feOpAt s c e w t g] ∧ u.nextOp = s.nextOp + 1 ∧ (getCore u c).semOps = (getCore s c).semOps ∧
      EngineOnly s u c e t (if opc w = 0x08 ∨ opc w = 0x0B then popHead g (t + slotLen s c e) else { g with wait := .sync s.nextOp t false }) := by
  intro u
  have ho := engineOnly_taken hx
  set v := advance (putEng s c e g) t with hv
  have hcore : getCore v c = engPut (getCore s c) e g := getCore_putCore ..
  set G : Engine := if opc w = 0x08 ∨ opc w = 0x0B then popHead g (t + slotLen s c e) else { g with wait := .sync s.nextOp t false } with hG
  have hmode : G.mode = .running := by
    rw [hG]; split <;> exact hx.running
  have hreads : feReads v c e w t = v := by
    have hsame : feReadsLate (getCore v c) t w = feReadsLate (getCore s c) t w := by rw [hcore]; rfl
    rw [feReads, hsame]
    rcases hlate with h | h
    · rw [h]; exact if_pos (.inr rfl)
    · exact if_pos (.inl h)
  have hsent : feSent s v c e w t g (lateEvents v) = G := by rw [feSent, lateHalt_same]
  have honly : EngineOnly s (sentFe v c e G (feOpAt s c e w t g)) c e t G := (ho.putEng G).ops _ _
  have hu : u = sentFe v c e G (feOpAt s c e w t g) := by
    rw [← honly.settle hs (.inl hmode), show u = dispatchFe c e v t w d from rfl, dispatchFe_taken hx, hreads, hsent]
  rw [hu]
  refine ⟨rfl, rfl, ?_, honly⟩
  rw [show getCore (sentFe v c e G (feOpAt s c e w t g)) c = engPut (getCore v c) e G from getCore_putCore .., hcore]
  rfl

/-- A FILL that reads a late register is counted and logged, and under HALT its engine drains: it is not quiet, since the FILL is in flight
(R170, R174). -/
theorem dispatchFe_late (hs : StillCore s c) (hlate : feReadsLate (getCore s c) t w = true) (hl : latcheck s c e ≠ 0) :
    let u := dispatchFe c e (advance (putEng s c e g) t) t w d
    let p := popHead g (t + slotLen s c e)
    u.feOps = s.feOps ++ [feOpAt s c e w t g] ∧ u.nextOp = s.nextOp + 1 ∧ (getCore u c).semOps = (getCore s c).semOps ∧
      getEng u c e = (if latcheck s c e = 2 then { catchUp p t with mode := .draining } else p) ∧ u.mem = s.mem ∧ u.feb = s.feb ∧
      rfld u (.eng c e .stat) 47 32 = min 65535 (rfld s (.eng c e .stat) 47 32 + 1) ∧ LogsExactly s u [stCode .lateRead] := by
  intro u p
  obtain ⟨-, hnow, -, -⟩ := headOf_some hx.head
  have ho := engineOnly_taken hx
  set v := advance (putEng s c e g) t with hv
  have hcore : getCore v c = engPut (getCore s c) e g := getCore_putCore ..
  have hfill : opc w = 0x08 := by simp only [feReadsLate, Bool.and_eq_true, beq_iff_eq] at hlate; exact hlate.1.1
  set r := feReads v c e w t with hr
  set i := headInst (getCore v c) e w t with hi
  have hreads : r = logEng (rbump v (.eng c e .stat) 47 32 1) c (engIdx e) (stCode .lateRead) clsNone i.bank i.idx 0 := by
    have hsame : feReadsLate (getCore v c) t w = true := by rw [hcore]; exact hlate
    rw [hr, feReads, hsame]
    exact if_neg (not_or.2 ⟨hl, one_ne_zero⟩)
  have hevents : lateEvents r = lateEvents v + 1 := by
    rw [hreads]
    exact (congrArg List.length (List.filter_append ..)).trans List.length_append
  have hlat : latcheck r c e = latcheck s c e := by rw [hreads]; exact latcheck_rbump_stat v c e 47 32 1
  have hrnow : r.now = t := by rw [hreads]; exact Nat.max_eq_right hnow
  set G : Engine := if latcheck s c e = 2 then { catchUp p t with mode := .draining } else p with hG
  have hsent : feSent s r c e w t g (lateEvents v) = G := by
    rw [feSent, if_pos (.inl hfill), lateHalt, hlat, hevents, hrnow]
    simp only [Nat.lt_succ_self, show (popHead g (t + slotLen s c e)).mode = .running from hx.running, and_true]
    rfl
  set x := sentFe r c e G (feOpAt s c e w t g) with hx'
  have hxcore : getCore x c = engPut (engPut (getCore s c) e g) e G := by
    have hrcore : getCore r c = engPut (getCore s c) e g := by rw [hreads]; exact hcore
    rw [show getCore x c = engPut (getCore r c) e G from getCore_putCore .., hrcore]
  have hstill : settleCore x c = x := by
    have hinsts : ∀ i ∈ (getCore x c).insts, i.begun = true ∧ (i.finished = false → ∀ n, i.prog ≠ .dxe n) := by rw [hxcore]; exact hs.insts
    have hops : x.feOps.any (feOfEng c e) = true := by
      rw [show x.feOps = r.feOps ++ [feOpAt s c e w t g] from rfl, List.any_append]
      simp [feOfEng, feOpAt]
    unfold settleCore
    simp only [startReady_still hinsts, pumpAll_still hinsts]
    refine still_foldl fun y _ => ?_
    by_cases hy : y = e
    · have hgy : getEng x c y = G := by rw [hy, getEng, hxcore]; exact engGet_engPut ..
      by_cases h2 : latcheck s c e = 2
      · rw [settleEngine_draining (by rw [hgy, hG, if_pos h2]), hy]
        exact if_neg (by simp [quiet, hops])
      · exact settleEngine_still (.inr (.inl (by rw [hgy, hG, if_neg h2]; exact hx.running)))
    · have hgy : getEng x c y = getEng s c y := by rw [getEng, hxcore, engGet_engPut_ne _ _ hy]; exact engGet_engPut_ne _ _ hy
      exact settleEngine_still (by rw [hgy]; exact (hs.modes y).elim .inl fun h => .inr (.inl h))
  have hu : u = x := by rw [show u = dispatchFe c e v t w d from rfl, dispatchFe_taken hx, hsent, hstill]
  have hrops : r.feOps = s.feOps ∧ r.nextOp = s.nextOp ∧ r.mem = s.mem ∧ r.feb = s.feb := by rw [hreads]; exact ⟨rfl, rfl, rfl, rfl⟩
  obtain ⟨hfe, hnext, hmem, hfeb⟩ := hrops
  rw [hu]
  refine ⟨?ops, ?next, by rw [hxcore]; rfl, by rw [getEng, hxcore]; exact engGet_engPut .., hmem, hfeb, ?count, ?log⟩
  case ops => rw [← hfe]; rfl
  case next => rw [← hnext]; rfl
  case count =>
    have hregs : rfld x (.eng c e .stat) 47 32 = rfld (rbump v (.eng c e .stat) 47 32 1) (.eng c e .stat) 47 32 := by
      rw [show rfld x (.eng c e .stat) 47 32 = rfld r (.eng c e .stat) 47 32 from rfl, hreads]
      rfl
    rw [hregs, rfld_rbump_self _ _ _ _ (by decide)]
    rfl
  case log => exact ⟨_, by rw [show x.log = r.log from rfl, hreads]; rfl, rfl⟩

end Taken

/-- A full/empty operation of the kind given at the head that passes the checks. -/
theorem fe_completes {x : Instr} {o : Nat} {kind : FeKind} (hexec : exec x s = .next (atHead s c e o (dispatchFe c e))) (hs : StillCore s c)
    (hx : Executes s c e w t d g) (ho : opc w = o) (hkind : feKindOf o = kind) (hfill : kind = .fill ↔ o = 0x08)
    (hleaves : kind = .fill ∨ kind = .drain ↔ o = 0x08 ∨ o = 0x0B) :
    let q := slotLen s c e
    let past : Engine := { g with queue := g.queue.drop 1, pc := g.pc + 1, nextAt := t + q, wait := .none }
    let late := kind = .fill ∧ feXr w = true ∧ xInFlight (getCore s c) t 0 (feXreg w) = true ∧ latcheck s c e ≠ 0
    ∃ u op, exec x s = .next u ∧ u.feOps = s.feOps ++ [op] ∧ u.nextOp = s.nextOp + 1 ∧
      (getCore u c).semOps = (getCore s c).semOps ∧
      (¬ late → EngineOnly s u c e t (if kind = .fill ∨ kind = .drain then past else { g with wait := .sync s.nextOp t false })) ∧
      (late → getEng u c e = (if latcheck s c e = 2 then { catchUp past t with mode := .draining } else past) ∧ u.mem = s.mem ∧ u.feb = s.feb ∧
        rfld u (.eng c e .stat) 47 32 = min 65535 (rfld s (.eng c e .stat) 47 32 + 1) ∧ LogsExactly s u [stCode .lateRead]) ∧
      op.id = s.nextOp ∧ op.src = .eng c e ∧ op.kind = kind ∧ op.isLocal = feLocal w ∧
      op.addr = (if feLocal w then padBase c + feAddr w % 0x400000 else feAddr w) ∧
      op.val = (if feXr w then (xregAt (getCore s c) t 0 (feXreg w)).v else BitVec.ofNat 64 (feImm w)) ∧
      op.xr = (if feXr w ∧ kind ≠ .fill then some (feXreg w) else none) ∧ op.due = t + 2 * q ∧ op.waiting = false ∧ op.got = none := by
  intro q past late
  subst ho hkind
  have hrun : exec x s = .next (dispatchFe c e (advance (putEng s c e g) t) t w d) := by rw [hexec, atHead_executes hx rfl]
  have hxr : (feOpAt s c e w t g).xr = if feXr w ∧ feKindOf (opc w) ≠ .fill then some (feXreg w) else none := by
    simp only [feOpAt, ne_eq, hfill]
  have hlate : late ↔ feReadsLate (getCore s c) t w = true ∧ latcheck s c e ≠ 0 := by
    simp only [late, hfill, feReadsLate, Bool.and_eq_true, beq_iff_eq, and_assoc]
  by_cases h : late
  · obtain ⟨hreads, hl⟩ := hlate.1 h
    obtain ⟨hops, hnext, hsems, hrest⟩ := dispatchFe_late hx hs hreads hl
    exact ⟨_, _, hrun, hops, hnext, hsems, absurd h, fun _ => hrest, rfl, rfl, rfl, rfl, rfl, rfl, hxr, rfl, rfl, rfl⟩
  · have hnone : feReadsLate (getCore s c) t w = false ∨ latcheck s c e = 0 := by
      by_contra hboth
      rw [not_or, Bool.not_eq_false] at hboth
      exact h (hlate.2 hboth)
    obtain ⟨hops, hnext, hsems, honly⟩ := dispatchFe_prompt hx hs hnone
    rw [← if_congr hleaves rfl rfl] at honly
    exact ⟨_, _, hrun, hops, hnext, hsems, fun _ => honly, (absurd · h), rfl, rfl, rfl, rfl, rfl, rfl, hxr, rfl, rfl, rfl⟩

/-- Settles O7: a FILL of a poisoned register aborts; each of the operations else is `fe_completes` with its kind. -/
theorem fullEmptyOperationsDispatch : Obligations.FullEmptyOperationsDispatch := by
  refine ⟨fun s c e w t d g h ho hcommon hxr hp => ?poisoned, ?passed⟩
  case poisoned => exact ⟨_, rfl, atHead_faults h (checkWord_fill_poisoned h ho hcommon hxr hp) ho _⟩
  case passed =>
    intro x hrow s c e w t d g hs hx ho
    simp only [List.mem_cons, List.not_mem_nil, or_false] at hrow
    rcases hrow with rfl | rfl | rfl | rfl | rfl
    all_goals exact fe_completes rfl hs hx ho rfl (by decide) (by decide)

end Sys2Proof.Machine

namespace Sys2Proof.Machine

/-! DXE.ISSUE: its record begins at once, and its stream takes the first iteration (R214, R247, R248). -/

variable {s m : State} {c : CoreId} {e : EngId} {w : W128} {t : Nat} {d : LoopDesc} {g : Engine}

/-- A word that passes its checks is defined. -/
theorem Executes.known (hx : Executes s c e w t d g) : (opDefined e (opc w) && fieldsOk e w) = true := by
  by_contra h
  have hskip : checkWord (advance (putEng s c e g) t) c e t ⟨w, false⟩ = .skip .illegalOpcode := by
    rw [Bool.not_eq_true] at h
    simp only [checkWord, h, Bool.not_false, Bool.false_eq_true, if_false, if_true]
  exact nomatch hskip.symm.trans hx.pass

/-- A DXE.ISSUE that is not held finds its stream enabled and with no task (R247). -/
theorem Executes.streamFree (hx : Executes s c .dxe w t d g) (ho : opc w = 0x40) : streamFree s c (dxStream w) = true := by
  have hheld := hx.held
  have hown : (opDefined .dxe (opc w) && fieldsOk .dxe w && decide (0x20 ≤ opc w)) = true := by rw [hx.known, ho]; rfl
  simp only [heldAtDispatch, hown, Bool.true_and, Bool.or_eq_false_iff, Bool.not_eq_false'] at hheld
  obtain ⟨-, ⟨hen, htask⟩, -⟩ := hheld
  rw [Machine.streamFree, hen]
  simpa using htask

/-- The a-cycle of a head is the slot of a dispatch that could be made. -/
theorem headOf_slot {q : QWord} (h : headOf s c e = some (t, q, g)) : ∃ n, t = dispatchSlot (getCore s c) e g n q := by
  unfold headOf at h
  dsimp only at h
  generalize (match (engGet (getCore s c) e).wait with
    | .none | .entry => true
    | _ => false) = o at h
  split_ifs at h with hc
  split at h
  · simp only [Option.some.injEq] at h
    obtain ⟨rfl, rfl, rfl⟩ := h
    exact ⟨_, rfl⟩
  · split at h
    · simp only [Option.some.injEq] at h
      obtain ⟨rfl, rfl, rfl⟩ := h
      exact ⟨_, rfl⟩
    · cases h

/-- A DXE.ISSUE is dispatched no earlier than its stream can accept a task (R150). -/
theorem Executes.streamFrom_le (hx : Executes s c .dxe w t d g) (ho : opc w = 0x40) : streamFrom (getCore s c) (dxStream w) ≤ t := by
  obtain ⟨n, hn⟩ := headOf_slot hx.head
  have hslot : (if EngId.dxe = .dxe ∧ opc w = 0x40 then max n (streamFrom (getCore s c) (dxStream w)) else n) =
    max n (streamFrom (getCore s c) (dxStream w)) := if_pos ⟨rfl, ho⟩
  rw [hn, dispatchSlot, hslot, claimSlot]
  split <;> omega

/-- The record of a DXE.ISSUE that has issued n iterations of its loop, all at t. -/
def issueRecord (s : State) (c : CoreId) (w : W128) (t : Nat) (d : LoopDesc) (g : Engine) (n : Nat) (fin : Bool) : Inst :=
  { headRecord s c .dxe w t d g with begun := true, start := t, doneAt := t, prog := .dxe n, finished := fin }

theorem beginInst_dxe (hm : Entered s m c .dxe w t d g) (hx : Executes s c .dxe w t d g) (ho : opc w = 0x40) :
    beginInst m c (headRecord s c .dxe w t d g) t = putEng (putInst m c (issueRecord s c w t d g 0 false)) c .dxe (popHead g (t + 1)) := by
  set i := headRecord s c .dxe w t d g with hi
  have h4 : ¬opc i.w = 0x04 := by rw [show opc i.w = 0x40 from ho]; decide
  have hwork : beginWork m c i t = (putInst m c (issueRecord s c w t d g 0 false), t + 1, none) := by
    rw [beginWork, if_neg h4]; rfl
  obtain ⟨late, hlate, hlatcheck⟩ := hm.engine
  have hno : late = false := by
    by_contra h
    exact (show latcheck s c .dxe ≠ 2 from (nomatch ·)) (hlatcheck (by simpa using h))
  have heng : getEng (putInst m c (issueRecord s c w t d g 0 false)) c .dxe = headPassed s c .dxe t g := by
    rw [← show drainedIf late t (headPassed s c .dxe t g) = headPassed s c .dxe t g by rw [hno]; rfl, ← hlate, getEng,
      getCore_putInst (j := issueRecord s c w t d g 0 false) hm.insts rfl]
    rfl
  have hpast : begunEng (headPassed s c .dxe t g) i.id (t + 1) t (slotLen s c .dxe) none = popHead g (t + 1) := by
    simp [begunEng, stepBegun, headPassed, popHead, hx.step, hi, headRecord, slotLen, latcheck]
  rw [beginInst, hwork, show i.eng = .dxe from rfl, heng, hm.slotLen, hpast]
  rfl

/-- A DXE.ISSUE whose stream has a task issues nothing. -/
theorem pump_occupied {i : Inst} (hi : instOf s c i.id = some i) (hfree : streamFree s c (dxStream i.w) = false) (n : Nat) :
    pump c i.id n s = s := by
  cases n with
  | zero => rfl
  | succ n =>
    unfold pump
    simp only [hi, hfree, Bool.and_false, Bool.false_eq_true, if_false]
    split <;> rfl

/-- The stream's task of the first iteration of a DXE.ISSUE dispatched at t, whose descriptor and extension pass the checks at issue (R248, R262). -/
def issuedTask (s : State) (c : CoreId) (w : W128) (t : Nat) (d : LoopDesc) (g : Engine) : Task :=
  let da := padAddr c ((dxDesc w : Int) + loopOff d 0 0)
  let q := parseDesc (memBytes s da 64)
  let ea := padBase c + q.ext * 64
  ⟨(getCore s c).nextInst, 0, g.bank, g.pc, d.rd, d.wr, t, memBytes s da 64, if q.extEn then some (memBytes s ea 64) else none,
   displace q.src (dxDisp w 1 + loopOff d 1 0), displace q.dst (dxDisp w 2 + loopOff d 2 0), displace q.idx (dxDisp w 3 + loopOff d 3 0),
   cnt0, [], [], 0, []⟩

/-- Do the descriptor of the first iteration and its extension pass the checks at issue (R248, R262)? -/
def FirstDescOk (s : State) (c : CoreId) (w : W128) (d : LoopDesc) : Prop :=
  let da := padAddr c ((dxDesc w : Int) + loopOff d 0 0)
  let q := parseDesc (memBytes s da 64)
  let ea := padBase c + q.ext * 64
  descCheck c d.rd d.wr (memPoison s da 64 || (q.extEn && memPoison s ea 64))
    { q with src := displace q.src (dxDisp w 1 + loopOff d 1 0), dst := displace q.dst (dxDisp w 2 + loopOff d 2 0),
             idx := displace q.idx (dxDisp w 3 + loopOff d 3 0) }
    (if q.extEn then some (memBytes s ea 64) else none) = none

theorem inPads_padBase (c : CoreId) (n : Nat) : InPads (padBase c + n) := by
  unfold InPads padBase; omega

theorem issueTask_first {u : State} (hpads : SamePads s u) (hecc : u.ecc = []) (hcheck : FirstDescOk s c w d) :
    issueTask u c (issueRecord s c w t d g 0 false) 0 t = putTask u c (dxStream w) (some (issuedTask s c w t d g)) := by
  have ha := inPads_padAddr c ((dxDesc w : Int) + loopOff d 0 0)
  have he (n : Nat) := inPads_padBase c n
  unfold issueTask
  simp only [show (issueRecord s c w t d g 0 false).w = w from rfl, show (issueRecord s c w t d g 0 false).loop = d from rfl,
    touchRange_inPads hecc ha, touchRange_inPads hecc (he _), hpads.memBytes ha, hpads.memBytes (he _), hpads.memPoison ha, hpads.memPoison (he _),
    ite_self]
  unfold FirstDescOk at hcheck
  dsimp only at hcheck
  rw [hcheck]
  rfl

/-- A DXE.ISSUE that has begun issues its first iteration to its stream, and no second one while the stream has that task (R214). -/
theorem pump_first {u : State} {k : Core} (hto : CoreTo (advance s t) u c k True) (hnow : s.now ≤ t) (hecc : s.ecc = [])
    (hinsts : k.insts = [issueRecord s c w t d g 0 false]) (hfree : streamFree u c (dxStream w) = true)
    (hfrom : streamFrom k (dxStream w) ≤ t) (hcheck : FirstDescOk s c w d) (hn : 1 ≤ loopCount d) :
    pump c (getCore s c).nextInst (loopCount d) u =
      putInst (putTask u c (dxStream w) (some (issuedTask s c w t d g))) c (issueRecord s c w t d g 1 (decide (loopCount d ≤ 1))) := by
  set j := issueRecord s c w t d g 0 false with hj
  set v := putTask u c (dxStream w) (some (issuedTask s c w t d g)) with hv
  set j' := issueRecord s c w t d g 1 (decide (loopCount d ≤ 1)) with hj'
  have hunow : max u.now (streamFrom (getCore u c) (dxStream w)) = t := by
    rw [hto.core, hto.now, show (advance s t).now = t from Nat.max_eq_right hnow, Nat.max_eq_left hfrom]
  have hinst : instOf u c (getCore s c).nextInst = some j := by
    rw [instOf, hto.core, hinsts]
    simp [hj, issueRecord, headRecord]
  have hissue : issueTask u c j 0 t = v := issueTask_first ((samePads_advance s t).trans hto.samePads) (hto.ecc hecc) hcheck
  have hvcore : getCore v c = { getCore u c with tasks := tset (getCore u c).tasks none (dxStream w) (some (issuedTask s c w t d g)) } :=
    getCore_putCore ..
  have hcore : getCore (putInst v c j') c = { getCore v c with insts := [j'] } := getCore_putInst (i := j) (by rw [hvcore, hto.core]; exact hinsts) rfl
  have hbusy : streamFree (putInst v c j') c (dxStream w) = false := by
    have htask : taskOf (putInst v c j') c (dxStream w) = some (issuedTask s c w t d g) := by
      rw [taskOf, hcore, hvcore]
      dsimp only
      exact tget_tset_self ..
    rw [streamFree, htask, Option.isNone_some, Bool.and_false]
  have hinst' : instOf (putInst v c j') c j'.id = some j' := by
    rw [instOf, hcore]; simp
  obtain ⟨n, hn'⟩ : ∃ n, loopCount d = n + 1 := ⟨loopCount d - 1, by omega⟩
  have hcond : (j.begun && !j.finished && streamFree u c (dxStream j.w)) = true := by rw [show j.w = w from rfl, hfree]; rfl
  calc pump c (getCore s c).nextInst (loopCount d) u
    _ = pump c (getCore s c).nextInst n (putInst (issueTask u c j 0 (max u.now (streamFrom (getCore u c) (dxStream w)))) c
          { j with prog := .dxe 1, finished := decide (loopCount d ≤ 1), doneAt := max u.now (streamFrom (getCore u c) (dxStream w)) }) := by
        rw [hn', pump, hinst, ← hn']
        exact if_pos hcond
    _ = pump c (getCore s c).nextInst n (putInst v c j') := by rw [hunow, hissue]; rfl
    _ = putInst v c j' := pump_occupied hinst' hbusy n

/-- Settles O19: the record begins and its stream takes the first iteration's task at once. -/
theorem dxeIssueStartsAStreamTask : Obligations.DxeIssueStartsAStreamTask := by
  intro s c w t d g hc hecc hx ho hn da q0 ea ext q hcheck
  obtain ⟨-, hnow, -, -⟩ := headOf_some hx.head
  obtain ⟨m, hm, hrun⟩ := runOp_entered hc hx ho
  obtain ⟨eng, n, a, b, hto⟩ := hm.core
  set p := popHead g (t + 1) with hp
  set u := putEng (putInst m c (issueRecord s c w t d g 0 false)) c .dxe p with hu
  have hall := (hto.putInst rfl (show (issueRecord s c w t d g 0 false).id = (headRecord s c .dxe w t d g).id from rfl)).putEng .dxe p
  have hno : NoLateRead s c .dxe w := .inl rfl
  have huto := hall.mono (p := True) fun _ => hno
  have hfree : streamFree u c (dxStream w) = true := by
    rw [streamFree, taskOf, huto.core]
    exact hx.streamFree ho
  have hpump : pumpAll u c = putInst (putTask u c (dxStream w) (some (issuedTask s c w t d g))) c
      (issueRecord s c w t d g 1 (decide (loopCount d ≤ 1))) := by
    have hinsts : (getCore u c).insts = [issueRecord s c w t d g 0 false] := by rw [huto.core]; rfl
    rw [← pump_first huto hnow hecc rfl hfree (hx.streamFrom_le ho) hcheck hn, pumpAll, hinsts]
    rfl
  set j := issueRecord s c w t d g 1 (decide (loopCount d ≤ 1)) with hj
  have hend := (huto.put (k' := { getCore u c with tasks := tset (getCore u c).tasks none (dxStream w) (some (issuedTask s c w t d g)) })).putInst
    (i := issueRecord s c w t d g 0 false) (j := j) (by rw [huto.core]; rfl) rfl
  set v := putInst (putTask u c (dxStream w) (some (issuedTask s c w t d g))) c j with hv
  change CoreTo (advance s t) v c _ True at hend
  have hcore := hend.core
  have hengU : getEng v c .dxe = p := by rw [getEng, hcore, huto.core]; exact engGet_engPut ..
  have hengs (x : EngId) (hxe : x ≠ .dxe) : getEng v c x = getEng s c x := by
    rw [← hm.engines x hxe, getEng, hcore, huto.core, getEng, hto.core]
    exact engGet_engPut_ne _ _ hxe
  have hmodes := modes_of_others hc.modes hengs (.inr (by rw [hengU]; exact hx.running))
  have hv' : runOp s c .dxe 0x40 = v := by
    rw [hrun, beginInst_dxe hm hx ho, ← hp, ← hu, hpump]
    exact still_foldl fun x _ => settleEngine_still ((hmodes x).elim .inl fun h => .inr (.inl h))
  obtain ⟨hmem, hunits, hothers, -, -, hregs⟩ := hend.else_
  refine ⟨v, j, congrArg Host.Outcome.next hv', hend.now.trans (Nat.max_eq_right hnow), by rw [hengU]; rfl, by rw [hengU]; rfl, ?task,
    fun st hst => ?tasks, by rw [hcore], rfl, rfl, rfl, rfl, SameMemory_trans (sameMemory_advance s t) hmem, SameUnits_trans (sameUnits_advance s t) hunits,
    (hregs trivial).1, (hregs trivial).2, hengs, hothers⟩
  case task =>
    rw [taskOf, hcore]
    dsimp only
    exact tget_tset_self ..
  case tasks =>
    rw [taskOf, hcore]
    dsimp only
    rw [tget_tset_ne _ _ _ _ hst, huto.core]
    rfl

end Sys2Proof.Machine

namespace Sys2Proof.Machine

/-! What a write of bytes into a scratchpad leaves in memory and in the poison tags (R246). -/

/-- The change that a write of new bytes at offset o of a unit makes at its byte j. -/
def chAt (o : Nat) (new : List Byte) (j : Nat) : ByteCh := if o ≤ j ∧ j < o + new.length then (0xFF, nthD new (j - o) 0) else (0, 0)

theorem chOf_eq {o : Nat} {new : List Byte} (h : o + new.length ≤ 64) : chOf o new = (List.range 64).map (chAt o new) := by
  refine List.ext_getElem (by simp [chOf]; omega) fun j hj _ => ?_
  have hj64 : j < 64 := by simp [chOf] at hj; omega
  simp only [chOf, List.getElem_map, List.getElem_range, chAt, List.getElem_append, List.getElem_replicate, List.length_append, List.length_replicate,
    List.length_map]
  by_cases hlo : j < o
  · simp [hlo, Nat.not_le.2 hlo, Nat.lt_add_right _ hlo]
  · by_cases hhi : j < o + new.length
    · have hb : j - o < new.length := by omega
      simp [hlo, hhi, Nat.not_lt.1 hlo, nthD, hb]
    · simp [hhi]

theorem chOf_all_zero {o : Nat} {new : List Byte} (h : o + new.length ≤ 64) (hne : new ≠ []) : (chOf o new).all (fun x => x.1 == 0) = false := by
  have hpos := List.length_pos_iff.2 hne
  rw [chOf_eq h, List.all_eq_false]
  exact ⟨chAt o new o, List.mem_map_of_mem (List.mem_range.2 (by omega)), by rw [chAt, if_pos ⟨le_rfl, by omega⟩]; exact Bool.false_ne_true⟩

theorem chOf_all_ones {o : Nat} {new : List Byte} (h : o + new.length ≤ 64) :
    (chOf o new).all (fun x => x.1 == 0xFF) = decide (new.length = 64) := by
  rw [chOf_eq h, Bool.eq_iff_iff, decide_eq_true_eq, List.all_eq_true]
  constructor
  · intro hall
    have hat (j : Nat) (hj : j < 64) : o ≤ j ∧ j < o + new.length := by
      by_contra hn
      have := hall _ (List.mem_map_of_mem (List.mem_range.2 hj))
      rw [chAt, if_neg hn] at this
      exact absurd this (by decide)
    have h0 := hat 0 (by decide)
    have h63 := hat 63 (by decide)
    omega
  · intro hlen x hx
    obtain ⟨j, hj, rfl⟩ := List.mem_map.1 hx
    have := List.mem_range.1 hj
    rw [chAt, if_pos (by omega)]
    rfl

/-- A byte with a change made. -/
theorem merged_chAt (b : Byte) (o : Nat) (new : List Byte) (j : Nat) :
    (b &&& ~~~(chAt o new j).1) ||| ((chAt o new j).2 &&& (chAt o new j).1) = if o ≤ j ∧ j < o + new.length then nthD new (j - o) 0 else b := by
  have hfull (x : Byte) : x &&& 0xFF#8 = x := BitVec.and_allOnes
  unfold chAt
  split
  · simp [hfull]
  · simp [hfull]

theorem nthD_tread {α : Type} (t : Tab α) (d : α) (lo : Nat) {n j : Nat} (h : j < n) : nthD (tread t d lo n) j d = tget t d (lo + j) := by
  rw [tread, nthD_map_range _ _ h]
  exact tget_filter_keep _ fun _ => by simp [h]

theorem nthD_mergeBytes (t : Tab Byte) (lo : Nat) {o : Nat} {new : List Byte} (h : o + new.length ≤ 64) {j : Nat} (hj : j < 64) :
    nthD (mergeBytes (tread t memDefault lo 64) (chOf o new)) j memDefault =
      if o ≤ j ∧ j < o + new.length then nthD new (j - o) 0 else tget t memDefault (lo + j) := by
  rw [← merged_chAt, ← nthD_tread t memDefault lo hj, chOf_eq h]
  have hlen : (tread t memDefault lo 64).length = 64 := by simp [tread]
  simp [nthD, mergeBytes, hlen, hj]

/-- Unit v of 64 bytes lies in a scratchpad. -/
def PadUnit (v : Nat) : Prop := ∃ c o, placeOf (64 * v) = .pad c o

theorem PadUnit.homeOf {v : Nat} (h : PadUnit v) : ∃ c o, ∀ s, homeOf s v = .pad c o := by
  obtain ⟨c, o, hp⟩ := h
  exact ⟨c, o / 64, fun s => by simp only [Machine.homeOf, hp]⟩

/-- The state s with unit v of a scratchpad holding bytes and a tag. -/
def padSet (s : State) (v : Nat) (bs : List Byte) (p : Bool) : State :=
  { s with poison := tset s.poison false v p, mem := twrite s.mem memDefault (64 * v) bs }

/-- A write into a unit of a scratchpad: covered wholly, it takes the tag of the data; covered in part, it keeps a set tag too (R246). -/
theorem writeUnit_pad {s : State} (hecc : s.ecc = []) {v o : Nat} (hv : PadUnit v) {new : List Byte} (hne : new ≠ []) (h : o + new.length ≤ 64)
    (p : Bool) :
    writeUnit s v o new p = padSet s v (mergeBytes (tread s.mem memDefault (64 * v) 64) (chOf o new))
      (p || (!decide (new.length = 64) && tget s.poison false v)) := by
  obtain ⟨c, i, hh⟩ := hv.homeOf
  have hsync (u : State) : isSync u v = false := by simp only [isSync, hh]
  have hfind (ks : List Nat) : eccCheck s v ks = s := by simp [eccCheck, hh, eccFind_of_ecc_nil hecc]
  have hfresh (q : Bool) (ks : List Nat) : freshWords { s with poison := tset s.poison false v q } (fun k => 8 * v + k) ks =
    { s with poison := tset s.poison false v q } := freshWords_of_ecc_nil (s := { s with poison := tset s.poison false v q }) hecc ..
  have hset (q : Bool) : setPoison s v q = { s with poison := tset s.poison false v q } := by rw [setPoison, hsync]; rfl
  have htag : tagOf s v = tget s.poison false v := by rw [tagOf, hsync]; rfl
  have hbytes : unitBytes s v = tread s.mem memDefault (64 * v) 64 := by simp only [unitBytes, hh]
  unfold writeUnit writeMasked writeMaskedAs
  rw [chOf_all_zero h hne]
  simp only [Bool.false_eq_true, if_false, hh, hfind, putMasked, hbytes, htag, chOf_all_ones h, hset, hfresh]
  rfl

theorem memByte_padSet (s : State) {v : Nat} {bs : List Byte} (hlen : bs.length = 64) (p : Bool) (a : Nat) :
    memByte (padSet s v bs p) a = if 64 * v ≤ a ∧ a < 64 * v + 64 then nthD bs (a - 64 * v) memDefault else memByte s a := by
  split
  · next hin =>
    have ha : a = 64 * v + (a - 64 * v) := by omega
    rw [ha]
    exact (tget_twrite_in _ _ _ _ _ (by omega)).trans (by rw [Nat.add_sub_cancel_left])
  · next hout => exact tget_twrite_out _ _ _ _ _ (by omega)

theorem unitPoison_pad {v : Nat} (hv : PadUnit v) (s : State) : unitPoison s v = tget s.poison false v := by
  obtain ⟨c, i, hh⟩ := hv.homeOf
  simp only [unitPoison, hh]

theorem unitPoison_padSet (s : State) {v : Nat} (hv : PadUnit v) (bs : List Byte) (p : Bool) (n : Nat) :
    unitPoison (padSet s v bs p) n = if n = v then p else unitPoison s n := by
  split
  · next hn => rw [hn, unitPoison_pad hv]; exact tget_tset_self ..
  · next hn =>
    have hhome : homeOf (padSet s v bs p) n = homeOf s n := rfl
    have hother : tget (padSet s v bs p).poison false n = tget s.poison false n := tget_tset_ne _ _ _ _ hn
    rw [unitPoison, unitPoison, hhome, hother]
    rfl

/-- What a write of new bytes at offset o of unit v of a scratchpad leaves of every byte. -/
theorem memByte_writeUnit {s : State} (hecc : s.ecc = []) {v o : Nat} (hv : PadUnit v) {new : List Byte} (hne : new ≠ []) (h : o + new.length ≤ 64)
    (p : Bool) (a : Nat) :
    memByte (writeUnit s v o new p) a =
      if 64 * v + o ≤ a ∧ a < 64 * v + o + new.length then nthD new (a - (64 * v + o)) 0 else memByte s a := by
  have hlen : (mergeBytes (tread s.mem memDefault (64 * v) 64) (chOf o new)).length = 64 := by rw [chOf_eq h]; simp [mergeBytes, tread]
  rw [writeUnit_pad hecc hv hne h, memByte_padSet _ hlen]
  by_cases hin : 64 * v ≤ a ∧ a < 64 * v + 64
  · rw [if_pos hin, nthD_mergeBytes _ _ h (by omega), show 64 * v + (a - 64 * v) = a by omega, Nat.sub_add_eq]
    exact if_congr (by omega) rfl rfl
  · rw [if_neg hin, if_neg (by omega)]

theorem unitPoison_writeUnit {s : State} (hecc : s.ecc = []) {v o : Nat} (hv : PadUnit v) {new : List Byte} (hne : new ≠ []) (h : o + new.length ≤ 64)
    (p : Bool) (n : Nat) :
    unitPoison (writeUnit s v o new p) n = if n = v then p || (!decide (new.length = 64) && unitPoison s v) else unitPoison s n := by
  rw [writeUnit_pad hecc hv hne h, unitPoison_padSet _ hv, unitPoison_pad hv]

/-! A write that covers several units, one unit after the other. -/

/-- The first address of the part of a write at a that falls in its unit i, and the first address past that part. -/
def partLo (a i : Nat) : Nat := if i = 0 then a else 64 * (a / 64 + i)
def partHi (a n i : Nat) : Nat := min (a + n) (64 * (a / 64 + i + 1))

/-- The first k units of a write. -/
def writePart (s : State) (a : Nat) (bs : List Byte) (p : Nat → Bool) (k : Nat) : State :=
  (List.range k).foldl (fun s i =>
    writeUnit s (a / 64 + i) (partLo a i % 64) ((bs.drop (partLo a i - a)).take (partHi a bs.length i - partLo a i)) (p i)) s

theorem writePart_succ (s : State) (a : Nat) (bs : List Byte) (p : Nat → Bool) (k : Nat) :
    writePart s a bs p (k + 1) = writeUnit (writePart s a bs p k) (a / 64 + k) (partLo a k % 64)
      ((bs.drop (partLo a k - a)).take (partHi a bs.length k - partLo a k)) (p k) := by
  rw [writePart, List.range_succ, List.foldl_append]; rfl

theorem padWrites_writePart {s : State} (hecc : s.ecc = []) {a : Nat} (ha : InPads a) (bs : List Byte) (p : Nat → Bool) (k : Nat) :
    PadWrites s (writePart s a bs p k) :=
  padWrites_foldl (fun _ i ht => padWrites_writeMasked ht (ha.unit i) ..) _ hecc

/-- The number of units that the n bytes at a meet, where n is not 0. -/
def unitCountAt (a n : Nat) : Nat := (a + n - 1) / 64 + 1 - a / 64

theorem writeBytes_eq {s : State} {a : Nat} {bs : List Byte} (p : Nat → Bool) (hne : bs ≠ []) :
    writeBytes s a bs p = writePart s a bs p (unitCountAt a bs.length) := by
  rw [writeBytes, if_neg hne]; rfl

/-- The bounds of a part: it is not empty, it lies in its unit, and it begins at the unit or with the write. -/
theorem part_bounds {a n k : Nat} (hn : 0 < n) (hk : k < unitCountAt a n) : partLo a k < partHi a n k ∧ a ≤ partLo a k ∧ partHi a n k ≤ a + n ∧
    64 * (a / 64 + k) + partLo a k % 64 = partLo a k ∧ partHi a n k ≤ 64 * (a / 64 + k) + 64 ∧ partLo a k = max a (64 * (a / 64 + k)) := by
  unfold unitCountAt at hk
  unfold partLo partHi
  split <;> omega

theorem writePart_lands {s : State} (hecc : s.ecc = []) {a : Nat} {bs : List Byte} (hne : bs ≠ []) (p : Nat → Bool) (ha : InPads a)
    (hpad : ∀ i < unitCountAt a bs.length, PadUnit (a / 64 + i)) {k : Nat} (hk : k ≤ unitCountAt a bs.length) :
    (∀ x, memByte (writePart s a bs p k) x =
      if a ≤ x ∧ x < a + bs.length ∧ x < 64 * (a / 64 + k) then nthD bs (x - a) 0 else memByte s x) ∧
    ∀ n, unitPoison (writePart s a bs p k) n =
      if a / 64 ≤ n ∧ n < a / 64 + k then p (n - a / 64) || (unitPoison s n && !decide (a ≤ 64 * n ∧ 64 * n + 64 ≤ a + bs.length))
      else unitPoison s n := by
  induction k with
  | zero =>
    exact ⟨fun x => (if_neg (by omega)).symm, fun n => (if_neg (by omega)).symm⟩
  | succ k ih =>
    obtain ⟨hbyte, htag⟩ := ih (by omega)
    have hpos := List.length_pos_iff.2 hne
    obtain ⟨hlt, hle, hend, hunit, hwithin, hmax⟩ := part_bounds hpos (show k < unitCountAt a bs.length by omega)
    set lo := partLo a k with hlo
    set hi := partHi a bs.length k with hhi
    have hlen : ((bs.drop (lo - a)).take (hi - lo)).length = hi - lo := by rw [List.length_take, List.length_drop]; omega
    have hnew : (bs.drop (lo - a)).take (hi - lo) ≠ [] := List.ne_nil_of_length_pos (by omega)
    have hfit : lo % 64 + ((bs.drop (lo - a)).take (hi - lo)).length ≤ 64 := by omega
    have hecc' := (padWrites_writePart hecc ha bs p k).ecc.trans hecc
    have hv := hpad k (by omega)
    refine ⟨fun x => ?_, fun n => ?_⟩
    · rw [writePart_succ, memByte_writeUnit hecc' hv hnew hfit, hbyte, hlen, hunit]
      have hhi' : hi = min (a + bs.length) (64 * (a / 64 + k + 1)) := hhi
      by_cases hin : lo ≤ x ∧ x < lo + (hi - lo)
      · rw [if_pos hin, if_pos (by omega)]
        have hidx : lo - a + (x - lo) = x - a := by omega
        simp [nthD, hidx, show x - lo < hi - lo by omega]
      · rw [if_neg hin]
        exact if_congr (by omega) rfl rfl
    · rw [writePart_succ, unitPoison_writeUnit hecc' hv hnew hfit, htag, htag, hlen]
      have hhi' : hi = min (a + bs.length) (64 * (a / 64 + k + 1)) := hhi
      by_cases hn : n = a / 64 + k
      · have hwhole : decide (hi - lo = 64) = decide (a ≤ 64 * n ∧ 64 * n + 64 ≤ a + bs.length) := decide_eq_decide.2 (by omega)
        rw [if_pos hn, if_neg (by omega), if_pos (by omega), hwhole, hn, Nat.add_sub_cancel_left, Bool.and_comm]
      · rw [if_neg hn]
        exact if_congr (by omega) rfl rfl

/-- An address past the base of the first scratchpad by less than the size of all of them lies in a scratchpad. -/
theorem placeOf_pad {a : Nat} (hlo : 0xF0000000000 ≤ a) (hhi : (a - 0xF0000000000) / 0x400000 < 160) : ∃ c o, placeOf a = .pad c o := by
  have h1 : ¬a < 0x20000000000 := by omega
  have h2 : ¬a < 0xC0000000000 := by omega
  rw [placeOf, if_neg h1, if_neg h2, if_pos hlo]
  generalize a - 0xF0000000000 = x at *
  rw [fin?, dif_pos hhi]
  exact ⟨_, _, rfl⟩

theorem padUnit_of_range {c : CoreId} {o n i : Nat} (hin : o + n ≤ 0x400000) (hn : 0 < n) (hi : i < unitCountAt (padBase c + o) n) :
    PadUnit ((padBase c + o) / 64 + i) := by
  have hc := c.isLt
  unfold unitCountAt padBase at hi
  refine placeOf_pad ?_ ?_
  · unfold padBase; omega
  · unfold padBase; omega

/-- A store whose bytes lie in the scratchpad changes the bytes that it covers and the tags of its units (R209, R212, R246). -/
theorem store_lands {s : State} (hecc : s.ecc = []) {c : CoreId} {y : PadStore} (hin : y.off + y.bytes.length ≤ 0x400000) :
    let u := writeBytes s (padAddr c y.off) y.bytes fun i => nthD y.p i false
    (∀ a, memByte u a = storeByte c a (memByte s a) y) ∧ ∀ n, unitPoison u n = storeTag c n (unitPoison s n) y := by
  intro u
  by_cases hne : y.bytes = []
  · have hu : u = s := if_pos hne
    rw [hu]
    refine ⟨fun a => (if_neg ?_).symm, fun n => (if_neg ?_).symm⟩
    · rw [hne, List.length_nil]; omega
    · rw [hne, List.length_nil]; omega
  · have hpos := List.length_pos_iff.2 hne
    obtain ⟨hbyte, htag⟩ := writePart_lands hecc hne (fun i => nthD y.p i false) (inPads_padAddr c y.off)
      (fun i hi => padUnit_of_range hin hpos hi) le_rfl
    rw [show u = _ from writeBytes_eq _ hne]
    set a := padAddr c y.off with ha
    have hcount : a / 64 + unitCountAt a y.bytes.length = (a + y.bytes.length - 1) / 64 + 1 := by unfold unitCountAt; omega
    refine ⟨fun x => (hbyte x).trans (if_congr ?_ rfl rfl), fun n => (htag n).trans (if_congr ?_ rfl rfl)⟩
    · rw [hcount]; omega
    · rw [hcount]; omega

/-- The stores of a list land one after the other. -/
theorem landStores_lands {s : State} (hecc : s.ecc = []) (c : CoreId) {l : List PadStore} (hin : ∀ y ∈ l, y.off + y.bytes.length ≤ 0x400000) :
    PadWrites s (landStores s c l) ∧ (∀ a, memByte (landStores s c l) a = l.foldl (storeByte c a) (memByte s a)) ∧
      ∀ n, unitPoison (landStores s c l) n = l.foldl (storeTag c n) (unitPoison s n) := by
  induction l generalizing s with
  | nil => exact ⟨.refl s, fun _ => rfl, fun _ => rfl⟩
  | cons y l ih =>
    set v := writeBytes s (padAddr c y.off) y.bytes fun i => nthD y.p i false with hv
    have hwrites : PadWrites s v := padWrites_writeBytes hecc (inPads_padAddr ..) ..
    obtain ⟨hbyte, htag⟩ := store_lands hecc (c := c) (hin y List.mem_cons_self)
    obtain ⟨hrest, hbytes, htags⟩ := ih (hwrites.ecc.trans hecc) fun z hz => hin z (List.mem_cons_of_mem y hz)
    exact ⟨hwrites.trans hrest, fun a => (hbytes a).trans (by rw [hbyte]; rfl), fun n => (htags n).trans (by rw [htag]; rfl)⟩

/-- The earliest of several a-cycles is the one that some are due in and none before. -/
theorem foldl_min_due {t : Nat} {r : List PadStore} {m : Nat} (hm : t ≤ m) (hr : ∀ y ∈ r, t ≤ y.due) (hsome : m = t ∨ ∃ y ∈ r, y.due = t) :
    r.foldl (fun m y => min m y.due) m = t := by
  induction r generalizing m with
  | nil => exact hsome.elim id fun ⟨_, hy, _⟩ => absurd hy List.not_mem_nil
  | cons z r ih =>
    have hz := hr z List.mem_cons_self
    refine ih (Nat.le_min.2 ⟨hm, hz⟩) (fun y hy => hr y (List.mem_cons_of_mem z hy)) ?_
    rcases hsome with rfl | ⟨y, hy, hdue⟩
    · exact .inl (Nat.min_eq_left hz)
    · rcases List.mem_cons.1 hy with rfl | hy
      · exact .inl (by subst hdue; exact Nat.min_eq_right hm)
      · exact .inr ⟨y, hy, hdue⟩

/-- The stores of an engine that are due first land, and leave the list. -/
theorem scratchpadStoreLand_first {s : State} {c : CoreId} {e : EngId} {t : Nat}
    (hne : (getCore s c).stores.filter (fun y => y.eng == e && y.due == t) ≠ []) (hle : ∀ y ∈ (getCore s c).stores, y.eng = e → t ≤ y.due) :
    let v := landStores (advance s t) c ((getCore s c).stores.filter fun y => y.eng == e && y.due == t)
    exec (.scratchpadStoreLand c e) s =
      .next (putCore v c { getCore v c with stores := (getCore v c).stores.filter fun y => !(y.eng == e && y.due == t) }) := by
  intro v
  have hsame : ((getCore s c).stores.filter fun x => x.eng == e).filter (fun y => y.due == t) =
      (getCore s c).stores.filter fun y => y.eng == e && y.due == t := by
    rw [List.filter_filter]
    exact List.filter_congr fun y _ => Bool.and_comm ..
  change execScratchpadStoreLand c e s = _
  unfold execScratchpadStoreLand
  dsimp only
  cases hxs : (getCore s c).stores.filter fun x => x.eng == e with
  | nil =>
    rw [hxs, List.filter_nil] at hsame
    exact absurd hsame.symm hne
  | cons x r =>
    have hdue (y : PadStore) (hy : y ∈ x :: r) : t ≤ y.due := by
      rw [← hxs, List.mem_filter] at hy
      exact hle y hy.1 (beq_iff_eq.1 hy.2)
    obtain ⟨y, hy⟩ := List.exists_mem_of_ne_nil _ hne
    rw [← hsame, hxs, List.mem_filter, beq_iff_eq] at hy
    have hfirst : r.foldl (fun m y => min m y.due) x.due = t := by
      refine foldl_min_due (hdue x List.mem_cons_self) (fun z hz => hdue z (List.mem_cons_of_mem x hz)) ?_
      rcases List.mem_cons.1 hy.1 with rfl | hr
      · exact .inl hy.2
      · exact .inr ⟨y, hr, hy.2⟩
    rw [hxs] at hsame
    dsimp only
    rw [hfirst, hsame]

/-- Settles O18: the stores due at t are those of the earliest a-cycle, and they land one after the other. -/
theorem scratchpadStoresLand : Obligations.ScratchpadStoresLand := by
  intro s c e t now hne hle hecc hin
  obtain ⟨hwrites, hbytes, htags⟩ := landStores_lands (s := advance s t) hecc c hin
  set v := landStores (advance s t) c now with hv
  have hcore : getCore v c = getCore s c := hwrites.core c
  have hput : getCore (putCore v c { getCore v c with stores := (getCore v c).stores.filter fun y => !(y.eng == e && y.due == t) }) c =
      { getCore s c with stores := (getCore s c).stores.filter fun y => !(y.eng == e && y.due == t) } := by rw [getCore_putCore, hcore]
  refine ⟨_, scratchpadStoreLand_first hne hle, ?now, hbytes, htags, by rw [hput], by rw [hput], by rw [hput], by rw [hput], ?regs, ?feb,
    fun y hy => (getCore_putCore_ne _ _ hy).trans (hwrites.core y)⟩
  case now => exact (congrArg State.now hwrites.rest).trans rfl
  case regs => exact (congrArg State.regs hwrites.rest).trans rfl
  case feb => exact (congrArg State.feb hwrites.rest).trans rfl

end Sys2Proof.Machine

namespace Sys2Proof.Machine

/-! A TAKE of the doorbell ring that names a register (R354). The exchange unit makes none, but the statement speaks of every state. -/

/-- The waiting TAKE of slice 0's exchange unit at the first word of scratchpad 0, with a register to receive the value. -/
def ringTake : FeOp := ⟨0, bellSrc 0, .take, padBase 0, false, 0, some 0, 0, 0, 0, true, 0, none⟩

/-- A device with a valid clutch and share in slice 0, where the TAKE waits at a word that is full and poisoned. -/
def ringState : State :=
  { rsetf (rsetf State.reset (.clCfg 0) 31 31 1) (.share 0) 7 0 1 with
    feOps := [ringTake], feb := [(padBase 0 / 64, true)], poison := [(padBase 0 / 64, true)] }

theorem clutchOn_ringState : clutchOn ringState 0 = true := by decide
theorem bellOp_ringState : bellOp ringState 0 = some ringTake := by decide
theorem feFull_ringState : feFull ringState (feCell ringState ringTake.addr) = true := by decide
theorem overShare_ringState : overShare ringState 0 = false := by decide

/-- Is the word of the TAKE full after a command? -/
def ringWordFull : Out → Bool
  | .next u => feFull u (feCell u ringTake.addr)
  | _ => false

/-- A used value from a poisoned word leaves the word full (R225). -/
theorem ringWordFull_doorbellTake : ringWordFull (exec (.doorbellTake 0) ringState) = true := by decide

/-- Refutes O40: a waiting TAKE of the ring that names a register uses its value, so that a poisoned word stays full, where the statement has it
empty after every TAKE. -/
theorem not_exchangesAreTakenSentAndCompleted : ¬ Obligations.ExchangesAreTakenSentAndCompleted := by
  intro h
  obtain ⟨-, hring, -⟩ := h ringState 0
  obtain ⟨-, htake, -⟩ := hring ringTake clutchOn_ringState bellOp_ringState
  obtain ⟨u, y, hexec, -, -, hempty, -⟩ := htake rfl feFull_ringState overShare_ringState rfl
  have hfull := ringWordFull_doorbellTake
  rw [hexec, ringWordFull, hempty] at hfull
  exact Bool.false_ne_true hfull

end Sys2Proof.Machine

namespace Sys2Proof.Machine

/-! Where a full/empty word lies, and its value (R219, R227). -/

theorem leNat_leBytes (n v : Nat) : leNat (leBytes n v) = v % 256 ^ n := by
  induction n generalizing v with
  | zero => simp [leBytes, leNat, Nat.mod_one]
  | succ n ih =>
    rw [leBytes, leNat, ih, BitVec.toNat_ofNat, Nat.pow_succ' (m := 256)]
    exact (Nat.mod_mul (a := 256)).symm

/-- The eight bytes of a word make the word. -/
theorem ofNat_leNat_leBytes (v : W64) : BitVec.ofNat 64 (leNat (leBytes 8 v.toNat)) = v := by
  rw [leNat_leBytes, Nat.mod_eq_of_lt (show v.toNat < 256 ^ 8 from v.isLt), BitVec.ofNat_toNat, BitVec.setWidth_eq]

theorem inWindow_congr {s u : State} {n : N20} (h : rget u (.syncWin n) = rget s (.syncWin n)) (off : Nat) : inWindow u n off = inWindow s n off := by
  rw [inWindow, rbit, rfld, rfld, h]
  rfl

/-- The cell of an address depends on the sync windows alone. -/
theorem feCell_congr {s u : State} (h : ∀ n, rget u (.syncWin n) = rget s (.syncWin n)) (a : Nat) : feCell u a = feCell s a := by
  unfold feCell
  split
  · rfl
  · rw [inWindow_congr (h _)]
  · rfl

theorem placeOf_stack {a : Nat} {n : N20} {off : Nat} (h : placeOf a = .stack n off) :
    a < 0x20000000000 ∧ a % 0x1000000000 < 0xC00000000 ∧ a / 0x1000000000 = n.val ∧ off = a % 0x1000000000 := by
  unfold placeOf at h
  split at h
  next ha =>
    unfold stackAt at h
    split at h
    next hp =>
      split at hp
      next hlt =>
        obtain ⟨m, hm, rfl⟩ := Option.map_eq_some_iff.1 hp
        obtain ⟨rfl, rfl⟩ := Place.stack.inj h
        exact ⟨ha, hlt, fin?_eq_some.1 hm, rfl⟩
      · cases hp
    · cases h
  next =>
    split at h
    · split at h <;> cases h
    · split at h
      · split at h <;> cases h
      · cases h

theorem placeOf_of_stack {a : Nat} {n : N20} (ha : a < 0x20000000000) (hoff : a % 0x1000000000 < 0xC00000000) (hn : a / 0x1000000000 = n.val) :
    placeOf a = .stack n (a % 0x1000000000) := by
  have hfin : fin? 20 n.val = some n := by rw [fin?, dif_pos n.isLt]
  simp only [placeOf, if_pos ha, stackAt, if_pos hoff, hn, hfin, Option.map_some]

theorem placeOf_eq_pad {a : Nat} {c : CoreId} {off : Nat} (h : placeOf a = .pad c off) :
    0xF0000000000 ≤ a ∧ (a - 0xF0000000000) / 0x400000 = c.val := by
  unfold placeOf at h
  split at h
  · split at h <;> cases h
  · split at h
    · split at h <;> cases h
    · split at h
      next hlo =>
        split at h
        next k hk =>
          obtain ⟨rfl, -⟩ := Place.pad.inj h
          exact ⟨hlo, fin?_eq_some.1 hk⟩
        next => cases h
      next => cases h

/-- What a full/empty word lies in: a unit of a scratchpad, or a sync line (R219, R227). -/
theorem feCell_cases {s : State} {a : Nat} (h : feCell s a ≠ .nowhere) :
    (∃ c, feCell s a = .unit c (a / 64) ∧ PadUnit (a / 64)) ∨ ∃ n, feCell s a = .line n (a / 8) ∧ homeOf s (a / 64) = .sync n := by
  cases hp : placeOf a with
  | pad c off =>
    obtain ⟨hlo, hc⟩ := placeOf_eq_pad hp
    have := c.isLt
    exact .inl ⟨c, by simp only [feCell, hp], placeOf_pad (a := 64 * (a / 64)) (by omega) (by omega)⟩
  | stack n off =>
    have hcell : feCell s a = if inWindow s n off then .line n (a / 8) else .nowhere := by simp only [feCell, hp]
    rw [hcell] at h ⊢
    cases hw : inWindow s n off with
    | false => rw [hw] at h; exact absurd rfl h
    | true =>
      obtain ⟨ha, hoff, hn, rfl⟩ := placeOf_stack hp
      have hp' : placeOf (64 * (a / 64)) = .stack n (64 * (a / 64) % 0x1000000000) := placeOf_of_stack (by omega) (by omega) (by omega)
      have hw' : inWindow s n (64 * (a / 64) % 0x1000000000) = true := by
        simp only [inWindow, Bool.and_eq_true, decide_eq_true_eq] at hw ⊢
        obtain ⟨hen, hlo, hhi⟩ := hw
        exact ⟨hen, by omega, by omega⟩
      exact .inr ⟨n, rfl, by simp only [homeOf, hp', hw', if_true]⟩
  | win k n off => exact absurd (by simp only [feCell, hp]) h
  | nothing => exact absurd (by simp only [feCell, hp]) h

/-- The eight bytes of a word, within its unit. -/
theorem feValue_eq (s : State) (a : Nat) :
    feValue s a = BitVec.ofNat 64 (leNat (((unitBytes s (a / 64)).drop (8 * (a / 8 % 8))).take 8)) := by
  have hunit : a / 8 * 8 / 64 = a / 64 := by omega
  have hcount : (a / 8 * 8 + 8 - 1) / 64 + 1 - a / 64 = 1 := by omega
  have hoff : a / 8 * 8 % 64 = 8 * (a / 8 % 8) := by omega
  simp only [feValue, memNat, memBytes, hunit, hcount, hoff, List.range_one, List.flatMap_singleton, Nat.add_zero]
  rfl

theorem feValue_congr {s u : State} {a : Nat} (h : unitBytes u (a / 64) = unitBytes s (a / 64)) : feValue u a = feValue s a := by
  rw [feValue_eq, feValue_eq, h]

/-- Piece i of pieces of one length laid one after the other. -/
theorem take_drop_flatMap_range {α : Type} {f : Nat → List α} {m : Nat} (hf : ∀ k, (f k).length = m) {n i : Nat} (hi : i < n) :
    (((List.range n).flatMap f).drop (m * i)).take m = f i := by
  have hlen (n : Nat) : ((List.range n).flatMap f).length = m * n := by simp [List.length_flatMap, hf, Nat.mul_comm]
  induction n with
  | zero => cases hi
  | succ n ih =>
    rw [List.range_succ, List.flatMap_append, List.flatMap_singleton]
    rcases Nat.lt_succ_iff_lt_or_eq.1 hi with hi | rfl
    · have hle : m * i + m ≤ m * n := by rw [← Nat.mul_succ]; exact Nat.mul_le_mul_left m hi
      rw [List.drop_append_of_le_length (by rw [hlen]; omega), List.take_append_of_le_length (by rw [List.length_drop, hlen]; omega), ih hi]
    · rw [← hlen, List.drop_left, List.take_of_length_le (hf i).le]

/-- The value of a word on a held sync line is the line's own (R228). -/
theorem feValue_sync {s : State} {a : Nat} {n : N20} (h : homeOf s (a / 64) = .sync n) : feValue s a = (tget s.syncw ⟨0, false⟩ (a / 8)).v := by
  have hword : 8 * (a / 64) + a / 8 % 8 = a / 8 := by omega
  simp only [feValue_eq, unitBytes, h]
  rw [take_drop_flatMap_range (fun _ => length_leBytes 8 _) (Nat.mod_lt _ (by decide)), hword, ofNat_leNat_leBytes]

end Sys2Proof.Machine

namespace Sys2Proof.Machine

/-! A word written (R221): it takes its value, and every other word keeps its own. -/

theorem tread_eq_map {α : Type} (t : Tab α) (d : α) (lo n : Nat) : tread t d lo n = (List.range n).map fun j => tget t d (lo + j) :=
  List.map_congr_left fun j hj => tget_filter_keep _ fun _ => by simp [List.mem_range.1 hj]

/-- Keys written outside a run are not read in it. -/
theorem tread_twrite_apart {α : Type} [DecidableEq α] (t : Tab α) (d : α) {lo n lo' : Nat} {vs : List α} (h : lo + n ≤ lo' ∨ lo' + vs.length ≤ lo) :
    tread (twrite t d lo' vs) d lo n = tread t d lo n := by
  rw [tread_eq_map, tread_eq_map]
  refine List.map_congr_left fun j hj => tget_twrite_out _ _ _ _ _ ?_
  have := List.mem_range.1 hj
  omega

/-- A run written whole reads as written. -/
theorem tread_twrite_self {α : Type} [DecidableEq α] (t : Tab α) (d : α) (lo : Nat) (vs : List α) : tread (twrite t d lo vs) d lo vs.length = vs := by
  rw [tread_eq_map]
  refine List.ext_getElem (by simp) fun j hj hj' => ?_
  rw [List.getElem_map, List.getElem_range, tget_twrite_in _ _ _ _ _ hj']
  simp [nthD, hj']

/-- A key of several that are each changed by a function of what it held, once. -/
theorem tget_foldl_change {α : Type} [DecidableEq α] (d : α) {key : Nat → Nat} (hkey : Function.Injective key) (f : Nat → α → α) {l : List Nat}
    (hl : l.Nodup) (t : Tab α) {k : Nat} (hk : k ∈ l) :
    tget (l.foldl (fun t k => tset t d (key k) (f k (tget t d (key k)))) t) d (key k) = f k (tget t d (key k)) := by
  induction l generalizing t with
  | nil => cases hk
  | cons y l ih =>
    obtain ⟨hy, hl⟩ := List.nodup_cons.1 hl
    rw [List.foldl_cons]
    rcases List.mem_cons.1 hk with rfl | hk
    · have hrest (t : Tab α) : tget (l.foldl (fun t k => tset t d (key k) (f k (tget t d (key k)))) t) d (key k) = tget t d (key k) :=
        List.foldlRecOn (motive := fun x => tget x d (key k) = tget t d (key k)) l _ rfl fun x hx b hb =>
          (tget_tset_ne _ _ _ _ fun he : key k = key b => hy (by rwa [hkey he])).trans hx
      rw [hrest, tget_tset_self]
    · rw [ih hl _ hk, tget_tset_ne _ _ _ _ fun he : key k = key y => hy (by rwa [← hkey he])]

/-- A key that is none of them reads as before. -/
theorem tget_foldl_change_other {α : Type} [DecidableEq α] (d : α) {key : Nat → Nat} (f : Nat → α → α) {l : List Nat} (t : Tab α) {j : Nat}
    (hj : ∀ k ∈ l, j ≠ key k) : tget (l.foldl (fun t k => tset t d (key k) (f k (tget t d (key k)))) t) d j = tget t d j :=
  List.foldlRecOn (motive := fun x => tget x d j = tget t d j) l _ rfl fun _ hx k hk => (tget_tset_ne _ _ _ _ (hj k hk)).trans hx

theorem mem_words8 {k : Nat} : k ∈ words8 ↔ k < 8 := by
  simp only [words8, List.mem_cons, List.not_mem_nil, or_false]
  omega

theorem length_mergeBytes {old new : List Byte} {o : Nat} (hold : old.length = 64) (h : o + new.length ≤ 64) :
    (mergeBytes old (chOf o new)).length = 64 := by
  rw [chOf_eq h]; simp [mergeBytes, hold]

/-- Eight bytes written over one of the eight words of a unit change that word. -/
theorem word_mergeBytes {old new : List Byte} (hold : old.length = 64) (hnew : new.length = 8) {i j : Nat} (hi : i < 8) (hj : j < 8) :
    ((mergeBytes old (chOf (8 * i) new)).drop (8 * j)).take 8 = if i = j then new else (old.drop (8 * j)).take 8 := by
  have hfit : 8 * i + new.length ≤ 64 := by omega
  have hlen := length_mergeBytes hold hfit
  refine List.ext_getElem ?_ fun k hk _ => ?_
  · split
    · rw [List.length_take, List.length_drop, hlen, hnew]; omega
    · rw [List.length_take, List.length_drop, List.length_take, List.length_drop, hlen, hold]
  · have hk8 : k < 8 := by rw [List.length_take] at hk; omega
    have hbyte : (mergeBytes old (chOf (8 * i) new))[8 * j + k]'(by omega) =
        if 8 * i ≤ 8 * j + k ∧ 8 * j + k < 8 * i + new.length then nthD new (8 * j + k - 8 * i) 0 else old[8 * j + k]'(by omega) := by
      rw [← merged_chAt]
      simp only [mergeBytes, chOf_eq hfit, List.getElem_zipWith, List.getElem_map, List.getElem_range]
    rw [List.getElem_take, List.getElem_drop, hbyte]
    by_cases hij : i = j
    · subst hij
      simp [hnew, hk8, nthD]
    · rw [if_neg (by omega)]
      simp [hij]

theorem length_unitBytes (s : State) (u : Nat) : (unitBytes s u).length = 64 := by
  unfold unitBytes
  split
  · simp [List.length_flatMap, length_leBytes]
  · simp
  · simp [tread]

/-- A write into a held sync line: each of its words takes its bytes and stays full or empty (R228, R246). -/
theorem writeUnit_sync {s : State} (hecc : s.ecc = []) {v o : Nat} {n : N20} (hv : homeOf s v = .sync n) {new : List Byte} (hne : new ≠ [])
    (h : o + new.length ≤ 64) (p : Bool) :
    writeUnit s v o new p = { s with
      syncp := tset s.syncp false v (p || (!decide (new.length = 64) && tget s.syncp false v))
      syncw := words8.foldl (fun t k => tset t ⟨0, false⟩ (8 * v + k)
        ⟨BitVec.ofNat 64 (fieldAt (mergeBytes (unitBytes s v) (chOf o new)) (8 * k) 8), (tget t ⟨0, false⟩ (8 * v + k)).full⟩) s.syncw } := by
  have hsync : isSync s v = true := by simp only [isSync, hv]
  have hcheck (ks : List Nat) : eccCheck s v ks = s := by simp [eccCheck, hv, eccFind_of_ecc_nil hecc]
  have hset (q : Bool) : setPoison s v q = { s with syncp := tset s.syncp false v q } := by rw [setPoison, hsync]; rfl
  have hfresh (q : Bool) (ks : List Nat) : freshWords { s with syncp := tset s.syncp false v q } (syncErr v) ks =
    { s with syncp := tset s.syncp false v q } := freshWords_of_ecc_nil (s := { s with syncp := tset s.syncp false v q }) hecc ..
  have htag : tagOf s v = tget s.syncp false v := by rw [tagOf, hsync]; rfl
  have hhome (q : Bool) : homeOf { s with syncp := tset s.syncp false v q } v = .sync n := hv
  unfold writeUnit writeMasked writeMaskedAs
  rw [chOf_all_zero h hne]
  simp only [Bool.false_eq_true, if_false, hv, hcheck, putMasked, htag, chOf_all_ones h, hset, hhome, hfresh]

/-- The word at address a has been written: a reader finds value v there and every other word as before, and nothing else differs. -/
structure WordWritten (s u : State) (a : Nat) (v : W64) : Prop where
  rest : u = { s with mem := u.mem, poison := u.poison, syncw := u.syncw, syncp := u.syncp }
  value : ∀ b, feValue u b = if b / 8 = a / 8 then v else feValue s b
  full : ∀ x, feFull u x = feFull s x

theorem wordWritten_pad {s : State} (hecc : s.ecc = []) {a : Nat} (h : PadUnit (a / 64)) (v : W64) :
    WordWritten s (writeUnit s (a / 64) (8 * (a / 8 % 8)) (leBytes 8 v.toNat) false) a v := by
  have hnew : (leBytes 8 v.toNat).length = 8 := length_leBytes ..
  have hfit : 8 * (a / 8 % 8) + (leBytes 8 v.toNat).length ≤ 64 := by omega
  obtain ⟨c, i, hh⟩ := h.homeOf
  have hold : unitBytes s (a / 64) = tread s.mem memDefault (64 * (a / 64)) 64 := by simp only [unitBytes, hh]
  rw [writeUnit_pad hecc h (List.ne_nil_of_length_pos (by omega)) hfit, ← hold]
  set bs := mergeBytes (unitBytes s (a / 64)) (chOf (8 * (a / 8 % 8)) (leBytes 8 v.toNat)) with hbs
  have hlen : bs.length = 64 := length_mergeBytes (length_unitBytes ..) hfit
  set u := padSet s (a / 64) bs (false || (!decide ((leBytes 8 v.toNat).length = 64) && tget s.poison false (a / 64))) with hu
  have hhome (n : Nat) : homeOf u n = homeOf s n := rfl
  refine ⟨rfl, fun b => ?_, fun x => by cases x <;> rfl⟩
  by_cases hunit : b / 64 = a / 64
  · have hbytes : unitBytes u (a / 64) = bs := by
      simp only [unitBytes, hhome, hh]
      have hself := tread_twrite_self s.mem memDefault (64 * (a / 64)) bs
      rwa [hlen] at hself
    rw [feValue_eq, hunit, hbytes, hbs, word_mergeBytes (length_unitBytes ..) hnew (Nat.mod_lt _ (by decide)) (Nat.mod_lt _ (by decide))]
    by_cases hword : b / 8 = a / 8
    · rw [if_pos (by omega), if_pos hword, ofNat_leNat_leBytes]
    · rw [if_neg (by omega), if_neg hword, feValue_eq s b, hunit]
  · rw [if_neg (by omega)]
    refine feValue_congr ?_
    have hmem : tread u.mem memDefault (64 * (b / 64)) 64 = tread s.mem memDefault (64 * (b / 64)) 64 :=
      tread_twrite_apart _ _ (by omega)
    unfold unitBytes
    rw [hhome, hmem]
    rfl

theorem wordWritten_sync {s : State} (hecc : s.ecc = []) {a : Nat} {n : N20} (h : homeOf s (a / 64) = .sync n) (v : W64) :
    WordWritten s (writeUnit s (a / 64) (8 * (a / 8 % 8)) (leBytes 8 v.toNat) false) a v := by
  have hnew : (leBytes 8 v.toNat).length = 8 := length_leBytes ..
  have hfit : 8 * (a / 8 % 8) + (leBytes 8 v.toNat).length ≤ 64 := by omega
  rw [writeUnit_sync hecc h (List.ne_nil_of_length_pos (by omega)) hfit]
  set bs := mergeBytes (unitBytes s (a / 64)) (chOf (8 * (a / 8 % 8)) (leBytes 8 v.toNat)) with hbs
  have hlen : bs.length = 64 := length_mergeBytes (length_unitBytes ..) hfit
  set u : State := { s with syncp := _, syncw := _ } with hu
  have hhome (n : Nat) : homeOf u n = homeOf s n := rfl
  have hin (k : Nat) (hk : k < 8) : tget u.syncw ⟨0, false⟩ (8 * (a / 64) + k) =
      ⟨BitVec.ofNat 64 (leNat ((bs.drop (8 * k)).take 8)), (tget s.syncw ⟨0, false⟩ (8 * (a / 64) + k)).full⟩ := by
    have hfield : fieldAt bs (8 * k) 8 = leNat ((bs.drop (8 * k)).take 8) := by
      have hshort : 8 - ((bs.drop (8 * k)).take 8).length = 0 := by rw [List.length_take, List.length_drop]; omega
      rw [fieldAt, bytesAt, hshort, List.replicate_zero, List.append_nil]
    rw [← hfield]
    exact tget_foldl_change _ (key := fun k => 8 * (a / 64) + k) (fun x y h => by simpa using h)
      (fun k w => ⟨BitVec.ofNat 64 (fieldAt bs (8 * k) 8), w.full⟩) (l := words8) (by decide) s.syncw (mem_words8.2 hk)
  have hout (w : Nat) (hw : w / 8 ≠ a / 64) : tget u.syncw ⟨0, false⟩ w = tget s.syncw ⟨0, false⟩ w := by
    refine tget_foldl_change_other _ (key := fun k => 8 * (a / 64) + k)
      (fun k w => ⟨BitVec.ofNat 64 (fieldAt bs (8 * k) 8), w.full⟩) s.syncw fun k hk => ?_
    have := mem_words8.1 hk
    omega
  refine ⟨rfl, fun b => ?_, fun x => ?_⟩
  · by_cases hunit : b / 64 = a / 64
    · have hword : 8 * (a / 64) + b / 8 % 8 = b / 8 := by omega
      rw [feValue_sync (n := n) (by rw [hhome, hunit, h]), ← hword, hin _ (Nat.mod_lt _ (by decide)), hbs,
        word_mergeBytes (length_unitBytes ..) hnew (Nat.mod_lt _ (by decide)) (Nat.mod_lt _ (by decide))]
      by_cases hsame : b / 8 = a / 8
      · rw [if_pos (by omega), if_pos (by omega), ofNat_leNat_leBytes]
      · rw [if_neg (by omega), if_neg (by omega), feValue_eq s b, hunit]
    · rw [if_neg (by omega)]
      refine feValue_congr ?_
      unfold unitBytes
      rw [hhome]
      split
      · refine congrArg List.flatten (List.map_congr_left fun k hk => ?_)
        have := List.mem_range.1 hk
        rw [hout _ (by omega)]
      · rfl
      · rfl
  · cases x with
    | unit c m => rfl
    | nowhere => rfl
    | line m w =>
      show (tget u.syncw ⟨0, false⟩ w).full = (tget s.syncw ⟨0, false⟩ w).full
      by_cases hw : w / 8 = a / 64
      · have hkey : 8 * (a / 64) + w % 8 = w := by omega
        rw [← hkey, hin _ (Nat.mod_lt _ (by decide))]
      · rw [hout w hw]

/-- A full/empty word written, where no error is recorded in memory. -/
theorem wordWritten {s : State} (hecc : s.ecc = []) {a : Nat} (h : feCell s a ≠ .nowhere) (v : W64) :
    WordWritten s (writeBytes s (a / 8 * 8) (leBytes 8 v.toNat) fun _ => false) a v := by
  have hnew : (leBytes 8 v.toNat).length = 8 := length_leBytes ..
  have hunit : writeBytes s (a / 8 * 8) (leBytes 8 v.toNat) (fun _ => false) =
      writeUnit s (a / 64) (8 * (a / 8 % 8)) (leBytes 8 v.toNat) false := by
    have hdiv : a / 8 * 8 / 64 = a / 64 := by omega
    have hcount : unitCountAt (a / 8 * 8) 8 = 1 := by unfold unitCountAt; omega
    have hoff : a / 8 * 8 % 64 = 8 * (a / 8 % 8) := by omega
    have hpart : partHi (a / 8 * 8) 8 0 - a / 8 * 8 = 8 := by unfold partHi; omega
    rw [writeBytes_eq _ (List.ne_nil_of_length_pos (by omega)), hnew, hcount, writePart_succ, hdiv, hnew]
    simp only [partLo, if_true, hoff, hpart, Nat.sub_self, List.drop_zero, List.take_of_length_le hnew.le]
    rfl
  rw [hunit]
  rcases feCell_cases h with ⟨c, -, hpad⟩ | ⟨n, -, hsync⟩
  · exact wordWritten_pad hecc hpad v
  · exact wordWritten_sync hecc hsync v

end Sys2Proof.Machine

namespace Sys2Proof.Machine

/-! The rules of a full/empty word: a cell set, a FILL, an overflow, and one operation at its word (R220 to R224). -/

/-- A reader finds the same values where memory, the sync lines and the registers are the same. -/
theorem feValue_of_same {s u : State} (hr : u.regs = s.regs) (hm : u.mem = s.mem) (hw : u.syncw = s.syncw) (a : Nat) : feValue u a = feValue s a := by
  obtain ⟨_⟩ := s
  obtain ⟨_⟩ := u
  cases hr; cases hm; cases hw
  rfl

theorem feFull_of_same {s u : State} (hf : u.feb = s.feb) (hw : u.syncw = s.syncw) (x : FeCell) : feFull u x = feFull s x := by
  cases x <;> simp only [feFull, hf, hw]

/-- A cell set full or empty changes its own bit alone. -/
theorem feSet_rest (s : State) (x : FeCell) (b : Bool) : feSet s x b = { s with feb := (feSet s x b).feb, syncw := (feSet s x b).syncw } := by
  cases x <;> rfl

theorem feFull_feSet {x : FeCell} (hx : x ≠ .nowhere) (s : State) (b : Bool) : feFull (feSet s x b) x = b := by
  cases x with
  | nowhere => exact absurd rfl hx
  | unit c u => exact tget_tset_self ..
  | line n w => simp only [feFull, feSet, tget_tset_self]

/-- The value of a word does not depend on its bit, nor on another's. -/
theorem feValue_feSet (s : State) (x : FeCell) (b : Bool) (a : Nat) : feValue (feSet s x b) a = feValue s a := by
  cases x with
  | nowhere | unit => rfl
  | line n w =>
    refine feValue_congr ?_
    have hhome : homeOf (feSet s (.line n w) b) (a / 64) = homeOf s (a / 64) := rfl
    have hv (k : Nat) : (tget (feSet s (.line n w) b).syncw ⟨0, false⟩ k).v = (tget s.syncw ⟨0, false⟩ k).v := by
      by_cases hk : k = w
      · simp only [hk, feSet, tget_tset_self]
      · exact congrArg SyncWord.v (tget_tset_ne _ _ _ _ hk)
    unfold unitBytes
    rw [hhome]
    simp only [hv]
    rfl

/-- Nothing but bytes, their tags and full/empty bits differs. -/
structure CellWrites (s u : State) : Prop where
  rest : u = { s with mem := u.mem, poison := u.poison, feb := u.feb, syncw := u.syncw, syncp := u.syncp }

theorem CellWrites.feWaiters {s u : State} (h : CellWrites s u) (x : FeCell) : feWaiters u x = feWaiters s x := by
  rw [h.rest]; rfl

theorem cellWrites_feSet (s : State) (x : FeCell) (b : Bool) : CellWrites s (feSet s x b) := by
  cases x <;> exact ⟨rfl⟩

theorem CellWrites.trans {s t u : State} (h : CellWrites s t) (k : CellWrites t u) : CellWrites s u := ⟨by rw [k.rest, h.rest]⟩

/-- A cell on which nothing waits serves nothing. -/
theorem feServe_none {s : State} {x : FeCell} (h : feWaiters s x = []) : feServe s x = s := by
  simp [feServe, h]

/-- A FILL of an empty word on which nothing waits stores its value there and sets it full (R220, R221). -/
theorem feFill_empty {s : State} (hecc : s.ecc = []) {a : Nat} (hx : feCell s a ≠ .nowhere) (he : feFull s (feCell s a) = false)
    (hw : feWaiters s (feCell s a) = []) (src : FeSrc) (v : W64) :
    CellWrites s (feFill s src a v) ∧ feFull (feFill s src a v) (feCell s a) = true ∧
      ∀ b, feValue (feFill s src a v) b = if b / 8 = a / 8 then v else feValue s b := by
  obtain ⟨hrest, hvalue, -⟩ := wordWritten hecc hx v
  set w := writeBytes s (a / 8 * 8) (leBytes 8 v.toNat) fun _ => false with hwdef
  have hto : CellWrites s (feSet w (feCell s a) true) := .trans ⟨by rw [hrest]⟩ (cellWrites_feSet ..)
  have hfill : feFill s src a v = feSet w (feCell s a) true := by
    unfold feFill
    simp only [he, Bool.false_eq_true, if_false, ← hwdef]
    exact feServe_none ((hto.feWaiters _).trans hw)
  rw [hfill]
  exact ⟨hto, feFull_feSet hx .., fun b => (feValue_feSet ..).trans (hvalue b)⟩

/-- A FILL of a full word changes no word (R221). -/
theorem feFill_full {s : State} {a : Nat} (h : feFull s (feCell s a) = true) (src : FeSrc) (v : W64) :
    feFill s src a v = feOverflow s (feCell s a) src a := by
  simp only [feFill, h, if_true]

/-- The register that counts the overflows at a cell, and its flag (R221). -/
def ovfReg : FeCell → Reg × Nat
  | .unit c _ => (.syncStat c, 1)
  | .line n _ => (.sectSync n, 0)
  | .nowhere => (.tick, 0)

/-- An overflow is counted, flagged and logged with its source, and changes nothing else. -/
structure Overflowed (s u : State) (x : FeCell) (src : FeSrc) : Prop where
  rest : u = { s with regs := u.regs, incAt := u.incAt, incs := u.incs, log := u.log }
  count : rfld u (ovfReg x).1 63 48 = min 65535 (rfld s (ovfReg x).1 63 48 + 1)
  flag : rbit u (ovfReg x).1 (ovfReg x).2 = true
  others : ∀ r, r ≠ (ovfReg x).1 → rget u r = rget s r
  event : ∃ e, u.log.inFlight = s.log.inFlight ++ [e] ∧ e.cause = stCode .feOverflow ∧ e.cls = clsNone ∧ ∀ f, src = .host f → e.inst = f.val

theorem logOverflow_logs (s : State) (src : FeSrc) (a : Nat) : Logged s (logOverflow s src a) [stCode .feOverflow] ∧
    ∃ e, (logOverflow s src a).log.inFlight = s.log.inFlight ++ [e] ∧ e.cause = stCode .feOverflow ∧ e.cls = clsNone ∧
      ∀ f, src = .host f → e.inst = f.val := by
  cases src with
  | host f => exact ⟨logged_logEv .., _, rfl, rfl, rfl, fun g hg => by cases hg; rfl⟩
  | eng | stream | bc | exch => exact ⟨logged_logEv .., _, rfl, rfl, rfl, fun _ hg => nomatch hg⟩

/-- A counter in bits 63 to 48 raised, and one bit below it set. -/
theorem bumped_flagged (s : State) (r : Reg) {i : Nat} (hi : i < 48) :
    rfld (rsetf (rbump s r 63 48 1) r i i 1) r 63 48 = min 65535 (rfld s r 63 48 + 1) ∧ rbit (rsetf (rbump s r 63 48 1) r i i 1) r i = true := by
  have hself := rfld_rsetf_self (rbump s r 63 48 1) r (hi := i) (lo := i) (x := 1) (by omega) (by simp)
  refine ⟨(rfld_rsetf_apart _ r 1 (.inr hi)).trans (rfld_rbump_self s r 48 1 (by decide)), ?_⟩
  rw [rbit_eq, hself]
  rfl

theorem feOverflow_overflowed {x : FeCell} (hx : x ≠ .nowhere) (s : State) (src : FeSrc) (a : Nat) : Overflowed s (feOverflow s x src a) x src := by
  have hov : feOverflow s x src a = logOverflow (rsetf (rbump s (ovfReg x).1 63 48 1) (ovfReg x).1 (ovfReg x).2 (ovfReg x).2 1) src a := by
    cases x with
    | nowhere => exact absurd rfl hx
    | unit | line => rfl
  have hbit : (ovfReg x).2 < 48 := by cases x <;> simp [ovfReg]
  obtain ⟨hcount, hflag⟩ := bumped_flagged s (ovfReg x).1 hbit
  rw [hov]
  set v := rsetf (rbump s (ovfReg x).1 63 48 1) (ovfReg x).1 (ovfReg x).2 (ovfReg x).2 1 with hv
  have hbase : v = { s with regs := v.regs, incAt := v.incAt, incs := v.incs } := rfl
  obtain ⟨hlog, hev⟩ := logOverflow_logs v src a
  obtain ⟨l, hl⟩ : ∃ l, logOverflow v src a = { v with log := l } := ⟨_, hlog.rest⟩
  refine ⟨by rw [hl, hbase], (rfld_congr (hlog.rget _) ..).trans hcount, ?_, fun r hr => ?_, hev⟩
  · rw [rbit, hlog.rget]; exact hflag
  · rw [hlog.rget, rget_rsetf_of_ne _ _ _ _ hr, rget_rbump_of_ne s _ _ _ hr]

theorem Overflowed.memory {s u : State} {x : FeCell} {src : FeSrc} (h : Overflowed s u x src) : SameMemory s u := by
  rw [h.rest]; constructor <;> rfl

/-- A read of a full/empty word changes nothing where no error is recorded in memory. -/
theorem touchUnit_word {s : State} (hecc : s.ecc = []) {a : Nat} (hx : feCell s a ≠ .nowhere) : touchUnit s (a / 64) = s := by
  rcases feCell_cases hx with ⟨c, -, hpad⟩ | ⟨n, -, hh⟩
  · obtain ⟨c, i, hh⟩ := hpad.homeOf
    simp [touchUnit, eccCheck, hh, eccFind_of_ecc_nil hecc]
  · simp [touchUnit, eccCheck, hh, eccFind_of_ecc_nil hecc]

/-- What a host's operation finds is a matter of a register. -/
theorem noteFound_writes (s : State) (x : FeCell) (src : FeSrc) : Writes (fun r => ∃ c, r = .hostAddr c) s (noteFound s x src) := by
  unfold noteFound
  split
  · exact writes_rsetf s _ _ _ ⟨_, rfl⟩
  · exact .refl _ s

/-- An operation in the list, at a word that is there. -/
theorem feApply_eq {s m : State} {op : FeOp} {x : FeCell} (hl : s.feOps.any (fun y => y.id == op.id) = true) (hc : feCell s op.addr = x)
    (hx : x ≠ .nowhere) (hm : noteFound s x op.src = m) :
    feApply s op = match op.kind with
      | .drain => settleSrc (feSet (dropFe m op.id) x false) op.src
      | .fill => settleSrc (feFill (dropFe m op.id) op.src op.addr op.val) op.src
      | _ => if feFull m x then feSatisfy m x op
        else { m with feOps := m.feOps.map fun y =>
          if y.id == op.id then { y with waiting := true, since := if op.isLocal then op.due else m.now } else y } := by
  have hops : m.feOps = s.feOps := by rw [← hm]; exact (congrArg State.feOps (noteFound_writes s x op.src).rest :)
  have hl' : m.feOps.any (fun y => y.id == op.id) = true := by rw [hops]; exact hl
  unfold feApply
  simp only [hl, hc, hm, hl', if_true, hx, if_false]
  rfl

/-- Only a host's operation reports what it finds. -/
theorem noteFound_of_not_host {src : FeSrc} (h : ∀ f, src ≠ .host f) (s : State) (x : FeCell) : noteFound s x src = s := by
  cases src with
  | host f => exact absurd rfl (h f)
  | eng | stream | bc | exch => rfl

/-- Nothing follows at the engine whose operation has reached its word, in a core where nothing waits to follow. -/
theorem settleSrc_still {s u : State} {src : FeSrc} (h : ∀ c e, src = .eng c e → StillCore s c) (hc : u.cores = s.cores) : settleSrc u src = u := by
  cases src with
  | eng c e =>
    have hk : getCore u c = getCore s c := by unfold getCore; rw [hc]
    have hs := h c e rfl
    show settleCore u c = u
    exact hs.settle (fun i hi => by rwa [hk] at hi) fun x => by rw [getEng, hk]; exact hs.modes x
  | stream | bc | exch | host => rfl

/-- A later arrival of what follows changes the list alone, by the a-cycle and the list (R231). -/
theorem fePush_rest (s : State) (y : FeOp) : fePush s y = { s with feOps := (fePush s y).feOps } := by
  unfold fePush; split <;> rfl

theorem fePush_local {y : FeOp} (h : y.isLocal = true) (s : State) : fePush s y = s := by simp [fePush, h]

theorem fePush_feOps_congr {s u : State} (hn : u.now = s.now) (hf : u.feOps = s.feOps) (y : FeOp) : (fePush u y).feOps = (fePush s y).feOps := by
  unfold fePush
  split
  · exact hf
  · simp only [hn, hf]

theorem sortBy_singleton {α : Type} (key : α → Nat) (x : α) : sortBy key [x] = [x] := rfl

/-- One operation that reaches its word alone is applied there, and what follows it comes later. -/
theorem exec_reachesAlone {s : State} {a : W44} {loc : Bool} {rem : List Nat} {op : FeOp} {x : FeCell} (h : ReachesAlone s a.toNat loc rem op x) :
    exec (.feOpReachWord a loc rem) s = .next (fePush (feApply { s with now := reachTime s op } op) op) := by
  change execFeOpReachWord a loc rem s = _
  have hmax : max 0 op.due = op.due := Nat.zero_max ..
  simp only [execFeOpReachWord, h.taken, Bool.false_eq_true, if_false, feReach, h.arrivals, feTogether, sortBy_singleton, List.foldl_cons,
    List.foldl_nil, hmax]
  rfl

end Sys2Proof.Machine

namespace Sys2Proof.Machine

/-! A FILL or DRAIN that reaches its word alone (R220, R221). -/

theorem insertBy_ne_nil {α : Type} (key : α → Nat) (x : α) (l : List α) : insertBy key x l ≠ [] := by
  cases l with
  | nil => exact List.cons_ne_nil _ _
  | cons y l =>
    rw [insertBy]
    split <;> exact List.cons_ne_nil _ _

theorem sortBy_eq_nil {α : Type} (key : α → Nat) {l : List α} : sortBy key l = [] ↔ l = [] := by
  refine ⟨fun h => ?_, fun h => by rw [h]; rfl⟩
  rcases List.eq_nil_or_concat l with hl | ⟨l', x, rfl⟩
  · exact hl
  · rw [List.concat_eq_append, sortBy, List.foldl_append] at h
    exact (insertBy_ne_nil key x _ h).elim

/-- No operation waits on a cell. -/
theorem feWaiters_eq_nil {s : State} {x : FeCell} : feWaiters s x = [] ↔ ∀ y ∈ s.feOps, y.waiting = true → feCell s y.addr ≠ x := by
  simp [feWaiters, sortBy_eq_nil, List.filter_eq_nil_iff]

theorem feWaiters_dropFe {s : State} {x : FeCell} (h : feWaiters s x = []) (id : Nat) : feWaiters (dropFe s id) x = [] :=
  feWaiters_eq_nil.2 fun y hy => feWaiters_eq_nil.1 h y (List.mem_of_mem_filter hy)

/-- The state after an operation that arrives alone: what it does at its word, and the list with what follows it coming later. -/
theorem exec_reachesAlone_eq {s w : State} {a : W44} {loc : Bool} {rem : List Nat} {op : FeOp} {x : FeCell}
    (h : ReachesAlone s a.toNat loc rem op x) (hw : feApply { s with now := reachTime s op } op = w) (hn : w.now = reachTime s op) {l : List FeOp}
    (hl : w.feOps = l) :
    exec (.feOpReachWord a loc rem) s = .next { w with feOps := (fePush { s with now := reachTime s op, feOps := l } op).feOps } := by
  rw [exec_reachesAlone h, hw, fePush_rest, fePush_feOps_congr (s := { s with now := reachTime s op, feOps := l }) hn hl]

/-- Settles O1: the operation is the only one at its word, so the state is that of one step there. -/
theorem fullEmptyWordsTakeFillsAndDrains : Obligations.FullEmptyWordsTakeFillsAndDrains := by
  intro s a loc rem op x h hecc hsrc hstill left
  set v : State := { s with now := reachTime s op } with hv
  set d := dropFe v op.id with hd
  have hcell : feCell v op.addr = x := h.cell
  have hdcell : feCell d op.addr = x := h.cell
  have happly := feApply_eq (s := v) h.listed hcell h.here (noteFound_of_not_host hsrc ..)
  have hsettle {u : State} (hc : u.cores = s.cores) : settleSrc u op.src = u := settleSrc_still hstill hc
  have hend {w : State} (hw : feApply v op = w) (hn : w.now = reachTime s op) (hl : w.feOps = s.feOps.filter fun y => y.id != op.id) :
      exec (.feOpReachWord a loc rem) s = .next { w with feOps := left } := exec_reachesAlone_eq h hw hn hl
  refine ⟨fun hk => ?drain, fun hk he => ?fill, fun hk hf => ?overflow⟩
  all_goals rw [hk] at happly
  case drain =>
    have hrest := feSet_rest d x false
    set w := feSet d x false with hw
    rw [hsettle (show w.cores = s.cores by rw [hrest]; rfl)] at happly
    have hvalue (b : Nat) : feValue w b = feValue s b := feValue_feSet d x false b
    refine ⟨_, hend happly (by rw [hrest]; rfl) (by rw [hrest]; rfl), ?_, feFull_feSet h.here d false, hvalue, rfl, ?_, ?_⟩
    all_goals exact hrest ▸ rfl
  case fill =>
    obtain ⟨⟨hrest⟩, hfull, hvalue⟩ := feFill_empty (s := d) (a := op.addr) hecc (by rw [hdcell]; exact h.here)
      (by rw [hdcell]; exact he) (by rw [hdcell]; exact feWaiters_dropFe h.alone op.id) op.src op.val
    rw [hdcell] at hfull
    set w := feFill d op.src op.addr op.val with hw
    rw [hsettle (show w.cores = s.cores by rw [hrest]; rfl)] at happly
    refine ⟨_, hend happly (by rw [hrest]; rfl) (by rw [hrest]; rfl), ?_, hfull, (hvalue _).trans (if_pos rfl),
      fun b hb => (hvalue b).trans (if_neg hb), rfl, ?_, ?_⟩
    all_goals exact hrest ▸ rfl
  case overflow =>
    have hfill : feFill d op.src op.addr op.val = feOverflow d x op.src op.addr := by
      rw [feFill_full (by rw [hdcell]; exact hf), hdcell]
    have hover := feOverflow_overflowed h.here d op.src op.addr
    rw [hfill] at happly
    set w := feOverflow d x op.src op.addr with hw
    obtain ⟨hrest, hcount, hflag, -, e, hev, hcause, hcls, -⟩ := id hover
    rw [hsettle (show w.cores = s.cores by rw [hrest]; rfl)] at happly
    obtain ⟨hm, hp, hfeb, hsw, hsp, hec⟩ := hover.memory
    refine ⟨_, e, hend happly (by rw [hrest]; rfl) (by rw [hrest]; rfl), (feFull_of_same hfeb hsw x).trans hf, ⟨hm, hp, hfeb, hsw, hsp, hec⟩, rfl, ?_,
      hev, hcause, hcls, fun c n hx => ?_, fun n k hx => ?_⟩
    · exact hrest ▸ rfl
    · subst hx; exact ⟨hcount, hflag⟩
    · subst hx; exact ⟨hcount, hflag⟩

end Sys2Proof.Machine

namespace Sys2Proof.Machine

/-! An operation that ends an engine's wait, and one that aborts it (R175, R218, R225). -/

/-- A wait of engine e has ended with value v: the operation has left the list, its register is on its way, the engine has moved on. -/
structure Completed (s u : State) (c : CoreId) (e : EngId) (op : FeOp) (v : W64) : Prop where
  rest : u = { s with cores := u.cores, feOps := s.feOps.filter fun y => y.id != op.id }
  engine : getEng u c e = afterWait (getEng s c e) op.kind v s.now (slotLen s c e)
  named : ∀ r, op.xr = some r → (getCore u c).xres = (getCore s c).xres ++ [⟨0, r, ⟨v, false⟩, s.now, s.now, (getCore s c).resSeq⟩]
  unnamed : op.xr = none → (getCore u c).xres = (getCore s c).xres
  engines : ∀ y : EngId, y ≠ e → getEng u c y = getEng s c y
  others : ∀ y : CoreId, y ≠ c → getCore u y = getCore s y

/-- Whether anything waits to follow in a core is a matter of the core. -/
theorem StillCore.congr {s u : State} {c : CoreId} (h : StillCore s c) (hc : u.cores = s.cores) : StillCore u c := by
  have hk : getCore u c = getCore s c := by unfold getCore; rw [hc]
  exact ⟨hk ▸ h.insts, fun e => by rw [getEng, hk]; exact h.modes e⟩

/-- The engine after its wait keeps its mode. -/
theorem afterWait_mode (g : Engine) (kind : FeKind) (v : W64) (t q : Nat) : (afterWait g kind v t q).mode = g.mode := by
  unfold afterWait; split <;> rfl

theorem feComplete_completed {s : State} {c : CoreId} {e : EngId} (hs : StillCore s c) (hrun : (getEng s c e).mode = .running)
    (hoff : (getEng s c e).step = .off) (op : FeOp) (v : W64) : Completed s (feComplete s c e op v) c e op v := by
  set l := s.feOps.filter fun y => y.id != op.id with hl
  set k : Core := match op.xr with | some r => putX (getCore s c) 0 r ⟨v, false⟩ s.now s.now | none => getCore s c with hk
  have hkeep : k.eng = (getCore s c).eng ∧ k.insts = (getCore s c).insts := by rw [hk]; cases op.xr <;> exact ⟨rfl, rfl⟩
  obtain ⟨heng, hinsts⟩ := hkeep
  have hget (y : EngId) : engGet k y = getEng s c y := by rw [engGet, heng]; rfl
  set g := afterWait (getEng s c e) op.kind v s.now (slotLen s c e) with hg
  set u := putCore { s with feOps := l } c (engPut k e g) with hu
  have hcore : getCore u c = engPut k e g := getCore_putCore ..
  have hself : getEng u c e = g := by rw [getEng, hcore, engGet_engPut]
  have hengs (y : EngId) (hy : y ≠ e) : getEng u c y = getEng s c y := by rw [getEng, hcore, engGet_engPut_ne _ _ hy, hget]
  have hstep (g' : Engine) (h : g' = g) : stepBegun g' = g := by
    rw [h]
    exact stepBegun_off (by rw [hg]; unfold afterWait; split <;> exact hoff)
  have hcomplete : feComplete s c e op v = settleCore u c := by
    show settleCore (putCore { s with feOps := l } c (engPut k e (stepBegun (if op.kind = .jmpt then
      jumpTo (engGet k e) (BitVec.ofNat 11 (bits v 10 0)) s.now (3 * slotLen s c e) else popHead (engGet k e) (s.now + slotLen s c e))))) c = _
    rw [hget, hstep _ (by rw [hg, afterWait]; split <;> rfl)]
  have hsettle : settleCore u c = u :=
    hs.settle (fun i hi => by rwa [hcore, show (engPut k e g).insts = k.insts from rfl, hinsts] at hi)
      (modes_of_others hs.modes hengs (.inr (by rw [hself, hg, afterWait_mode, hrun])))
  rw [hcomplete, hsettle]
  have hx : (getCore u c).xres = k.xres := by rw [hcore]; rfl
  exact ⟨rfl, hself, fun r hr => by rw [hx, hk, hr]; rfl, fun hn => by rw [hx, hk, hn], hengs, fun y hy => getCore_putCore_ne _ _ hy⟩

theorem terase_tins {α : Type} (k : Nat) (v : α) (t : Tab α) : terase (tins t k v) k = terase t k := by
  induction t with
  | nil => simp [tins, terase]
  | cons x r ih =>
    obtain ⟨j, u⟩ := x
    rw [tins]
    split
    · simp only [terase, List.filter_cons] at ih ⊢
      rw [ih]
    · simp [terase, List.filter_cons]

/-- The last change of a key is the one that stays. -/
theorem tset_tset {α : Type} [DecidableEq α] (t : Tab α) (d : α) (k : Nat) (v w : α) : tset (tset t d k v) d k w = tset t d k w := by
  have herase : terase (tset t d k v) k = terase t k := by
    unfold tset
    split
    · simp [terase]
    · rw [terase_tins]; simp [terase]
  rw [tset, herase]
  rfl

theorem putCore_putCore (s : State) (c : CoreId) (j k : Core) : putCore (putCore s c j) c k = putCore s c k :=
  congrArg (fun t => { s with cores := t }) (tset_tset ..)

theorem putEng_putEng (s : State) (c : CoreId) (e : EngId) (g h : Engine) : putEng (putEng s c e g) c e h = putEng s c e h := by
  have hk : engPut (engPut (getCore s c) e g) e h = engPut (getCore s c) e h := congrArg (fun t => { getCore s c with eng := t }) (tset_tset ..)
  rw [putEng, putEng, getCore_putCore, hk, putCore_putCore]
  rfl

/-- Of engine e only operation op is outstanding, and it does not go on by itself (R231). -/
theorem opsOf_alone {s : State} {c : CoreId} {e : EngId} {op : FeOp} (h : s.feOps.filter (feOfEng c e) = [op]) (hg : ∀ u, feGone u op = false) (u : State) :
    (s.feOps.filter fun x => feOfEng c e x && !feGone u x) = [op] ∧
      (s.feOps.filter fun x => !feOfEng c e x || feGone u x) = s.feOps.filter fun x => !feOfEng c e x := by
  constructor
  · rw [List.filter_congr (q := fun x => !feGone u x && feOfEng c e x) fun x _ => Bool.and_comm .., ← List.filter_filter, h]
    simp [hg]
  · refine List.filter_congr fun x hx => ?_
    by_cases hf : feOfEng c e x = true
    · have hop : x = op := List.mem_singleton.1 (h ▸ List.mem_filter.2 ⟨hx, hf⟩)
      rw [hop, hg, Bool.or_false]
    · simp [hf]

section Abort
variable {s : State} {c : CoreId} {e : EngId} {op : FeOp}

/-- The state of an engine whose one outstanding operation has been withdrawn, with its PC where the operation stood. -/
def withdrawn (s : State) (c : CoreId) (e : EngId) (op : FeOp) : State :=
  putEng { s with feOps := s.feOps.filter fun x => !feOfEng c e x } c e { getEng s c e with pc := op.idx }

theorem withdrawn_core (s : State) (c : CoreId) (e : EngId) (op : FeOp) :
    getCore (withdrawn s c e op) c = engPut (getCore s c) e { getEng s c e with pc := op.idx } := getCore_putCore ..

theorem withdrawn_eng (s : State) (c : CoreId) (e : EngId) (op : FeOp) : getEng (withdrawn s c e op) c e = { getEng s c e with pc := op.idx } :=
  getEng_putEng ..

theorem withdrawn_engines (s : State) (c : CoreId) {e x : EngId} (hx : x ≠ e) (op : FeOp) : getEng (withdrawn s c e op) c x = getEng s c x := by
  rw [getEng, withdrawn_core, engGet_engPut_ne _ _ hx]
  rfl

theorem withdrawn_idle (hi : IdleEngine s c e [op]) : IdleEngine (withdrawn s c e op) c e [] where
  insts := by rw [withdrawn_core]; exact hi.insts
  modes := modes_of_others hi.modes (fun x hx => withdrawn_engines s c hx op) (.inr (by rw [withdrawn_eng]; exact hi.running))
  running := by rw [withdrawn_eng]; exact hi.running
  open_ := by rw [withdrawn_eng]; exact hi.open_
  stores := by rw [withdrawn_core]; exact hi.stores
  sems := by rw [withdrawn_core]; exact hi.sems
  tasks st := by
    obtain ⟨htask, hab⟩ := hi.tasks st
    exact ⟨by rw [taskOf, withdrawn_core]; exact htask, by rw [streamAborting, withdrawn_core]; exact hab⟩
  ops := List.filter_eq_nil_iff.2 fun x hx h => by
    have hnot := (List.mem_filter.1 hx).2
    rw [h] at hnot
    exact Bool.false_ne_true hnot

theorem oldestIdx_op (hi : IdleEngine s c e [op]) (hg : ∀ u, feGone u op = false) : oldestIdx s c e = op.idx := by
  simp [oldestIdx, hi.insts, hi.sems, (opsOf_alone hi.ops hg s).1]

/-- The engine aborts at its one outstanding operation as it does where that has been withdrawn. -/
theorem beginAbort_op (hi : IdleEngine s c e [op]) (hg : ∀ u, feGone u op = false) (cause : Status) (cls : Nat) :
    beginAbort s c e cause cls none = beginAbort (withdrawn s c e op) c e cause cls none := by
  have hi' := withdrawn_idle hi
  have hmode : (getEng s c e).mode ≠ .aborting := by rw [hi.running]; decide
  have hkeep : keepAccepted s c e = s := by simp [keepAccepted, hi.open_]
  have hkeep' : keepAccepted (withdrawn s c e op) c e = withdrawn s c e op := by simp [keepAccepted, hi'.open_]
  have hput (g : Engine) : putEng (withdrawn s c e op) c e g = putEng { s with feOps := s.feOps.filter fun x => !feOfEng c e x } c e g :=
    putEng_putEng ..
  have hops (u : State) := (opsOf_alone hi.ops hg u).2
  have hnone (u : State) : (s.feOps.filter fun x => !feOfEng c e x).filter (fun x => !feOfEng c e x || feGone u x) =
      s.feOps.filter fun x => !feOfEng c e x :=
    List.filter_eq_self.2 fun x hx => by rw [(List.mem_filter.1 hx).2, Bool.true_or]
  have hfe (u : State) (g : Engine) : (putEng u c e g).feOps = u.feOps := rfl
  unfold beginAbort
  simp only [hmode, if_false, hkeep, hkeep', oldestIdx_op hi hg, oldestIdx_of_idle hi', hput, withdrawn_eng, hfe, hops, hnone]
  rfl

/-- An engine of which one operation is outstanding aborts at that operation, which is withdrawn (R175, R225). -/
theorem faultEngine_op (hi : IdleEngine s c e [op]) (hg : ∀ u, feGone u op = false) (why : Status) :
    (faultEngine s c e why none).now = s.now ∧ Faulted s (faultEngine s c e why none) c e op.idx why := by
  have hi' := withdrawn_idle hi
  have hmode : (getEng s c e).mode ≠ .aborting := by rw [hi.running]; decide
  have hmode' : (getEng (withdrawn s c e op) c e).mode ≠ .aborting := by rw [hi'.running]; decide
  have hsame : faultEngine s c e why none = faultEngine (withdrawn s c e op) c e why none := by
    simp only [faultEngine, abortEngine, hmode, hmode', if_false, beginAbort_op hi hg]
  obtain ⟨hcut, hxres, ev, hev⟩ := faultEngine_alone hi' why
  rw [← hsame] at hcut hxres hev
  have hxresS : (getCore (withdrawn s c e op) c).xres = (getCore s c).xres := by rw [withdrawn_core]; rfl
  have hopen : (getEng s c e).closing = none := hi.open_
  obtain ⟨_, _, _, hcore⟩ := hcut.core
  refine ⟨hcut.now, ?_⟩
  exact {
    mode := by rw [hcut.engine]
    queue := by rw [hcut.engine]; rfl
    pc := by rw [hcut.engine, withdrawn_eng]; simp [abortingEng, hopen]
    event := ⟨ev, hev⟩
    ops := hcut.feOps
    regs := ⟨by rw [hcore.core, withdrawn_core]; rfl, by rw [hcore.core, withdrawn_core]; rfl, fun r hr => hxresS ▸ hxres r hr,
      hcut.insts.trans hi'.insts⟩
    engines := fun x hx => (hcut.engines x hx).trans (withdrawn_engines s c hx op)
    others := fun x hx => (hcut.others x hx).trans (getCore_putCore_ne _ _ hx)
    memory := SameMemory_trans (by constructor <;> rfl) hcut.memory
    units := SameUnits_trans (by constructor <;> rfl) hcut.units }

end Abort

end Sys2Proof.Machine

namespace Sys2Proof.Machine

/-! A TAKE, PEEK or JMPT that reaches its word alone (R220, R225, R230). -/

/-- The state once a PEEK, TAKE or JMPT has read its full word: a used value that is poisoned, and a PEEK, leave the word full. -/
def readOut (s : State) (x : FeCell) (op : FeOp) : State :=
  if (feUses op && unitPoison s (op.addr / 64)) || op.kind == .peek then s else feSet s x false

theorem readOut_rest (s : State) (x : FeCell) (op : FeOp) :
    readOut s x op = { s with feb := (readOut s x op).feb, syncw := (readOut s x op).syncw } := by
  unfold readOut
  split
  · rfl
  · exact feSet_rest ..

theorem feFull_readOut {s : State} {x : FeCell} (hx : x ≠ .nowhere) (hf : feFull s x = true) (op : FeOp) :
    feFull (readOut s x op) x = ((feUses op && unitPoison s (op.addr / 64)) || op.kind == .peek) := by
  unfold readOut
  split
  next h => rw [hf, h]
  next h => rw [feFull_feSet hx, eq_false_of_ne_true h]

theorem feValue_readOut (s : State) (x : FeCell) (op : FeOp) (b : Nat) : feValue (readOut s x op) b = feValue s b := by
  unfold readOut
  split
  · rfl
  · exact feValue_feSet ..

/-- An engine's operation satisfied at its full word. -/
theorem feSatisfy_eng {s : State} (hecc : s.ecc = []) {op : FeOp} {x : FeCell} {c : CoreId} {e : EngId} (hx : feCell s op.addr ≠ .nowhere)
    (hsrc : op.src = .eng c e) : feSatisfy s x op =
      if op.isLocal then
        if feUses op && unitPoison s (op.addr / 64) then faultEngine (readOut s x op) c e .syncPoison none
        else feComplete (readOut s x op) c e op (feValue s op.addr)
      else { readOut s x op with feOps := s.feOps.map fun y =>
        if y.id == op.id then { y with waiting := false, got := some (feValue s op.addr, feUses op && unitPoison s (op.addr / 64)) } else y } := by
  have hops : (readOut s x op).feOps = s.feOps := by rw [readOut_rest]
  unfold feSatisfy
  rw [touchUnit_word hecc hx]
  simp only [hsrc, ← hops]
  cases op.isLocal <;> rfl

/-- One that is not a FILL or DRAIN does not go on by itself after an abort (R231). -/
theorem feGone_of_wait {op : FeOp} (h : op.kind ≠ .fill ∧ op.kind ≠ .drain) (s : State) : feGone s op = false := by
  simp [feGone, h.1, h.2]

/-- An engine of which nothing but ops is outstanding stays so as time goes on. -/
theorem IdleEngine.later {s : State} {c : CoreId} {e : EngId} {ops : List FeOp} (h : IdleEngine s c e ops) {t : Nat} (ht : s.now ≤ t) :
    IdleEngine { s with now := t } c e ops :=
  { h with
    tasks := fun st => by
      obtain ⟨htask, habort⟩ := h.tasks st
      have hle : tget (getCore s c).sabort 0 st ≤ s.now := Nat.le_of_not_lt (of_decide_eq_false habort)
      exact ⟨htask, decide_eq_false (Nat.not_lt.2 (hle.trans ht))⟩ }

/-- What an abort leaves as it was does not depend on the a-cycle. -/
theorem Faulted.ofLater {s u : State} {c : CoreId} {e : EngId} {pc : BitVec 11} {why : Status} {t : Nat}
    (h : Faulted { s with now := t } u c e pc why) : Faulted s u c e pc why :=
  { h with
    memory := SameMemory_trans (by constructor <;> rfl) h.memory
    units := SameUnits_trans (by constructor <;> rfl) h.units }

/-- Settles O2: at an empty word the list alone changes; at a full one the operation is satisfied, which a remote one carries back, a poisoned one
answers by the abort, and any other completes. -/
theorem fullEmptyWordsAnswerTakePeekJmpt : Obligations.FullEmptyWordsAnswerTakePeekJmpt := by
  intro s a loc rem op x c e h hecc hsrc hkind t v
  set m : State := { s with now := t } with hm
  have hcell : feCell m op.addr = x := h.cell
  have hhere : feCell m op.addr ≠ .nowhere := by rw [hcell]; exact h.here
  have hexec : exec (.feOpReachWord a loc rem) s = .next (fePush (feApply m op) op) := exec_reachesAlone h
  have happly : feApply m op = if feFull m x then feSatisfy m x op
      else { m with feOps := m.feOps.map fun y =>
        if y.id == op.id then { y with waiting := true, since := if op.isLocal then op.due else m.now } else y } := by
    rw [feApply_eq (s := m) h.listed hcell h.here (noteFound_of_not_host (by rw [hsrc]; exact fun f => nofun) ..)]
    rcases hkind with hk | hk | hk <;> rw [hk]
  have hsat := feSatisfy_eng (s := m) (x := x) hecc hhere hsrc
  have hrest := readOut_rest m x op
  have hread := feFull_readOut (s := m) h.here (op := op)
  have hvalue := feValue_readOut m x op
  have hgone := feGone_of_wait (op := op) (by rcases hkind with hk | hk | hk <;> rw [hk] <;> decide)
  refine ⟨fun hf => ⟨_, hexec, ?empty⟩, fun hf hloc => ⟨_, hexec, ?remote⟩, fun hf hp hloc hi => ⟨_, hexec, ?poisoned⟩,
    fun hf hp hloc hs hrun hoff => ⟨_, hexec, ?done⟩⟩
  case empty =>
    rw [happly, if_neg (by rw [show feFull m x = false from hf]; decide)]
  all_goals rw [happly, if_pos (show feFull m x = true from hf), hsat]
  case remote =>
    generalize readOut m x op = w at hrest hread hvalue ⊢
    rw [hloc, if_neg Bool.false_ne_true, fePush_rest]
    refine ⟨hread hf, hvalue, ?_, ?_, ?_⟩
    · exact (congrArg State.cores hrest :)
    · exact (congrArg State.regs hrest :)
    · show (fePush _ op).feOps = (fePush _ op).feOps
      refine fePush_feOps_congr ?_ ?_ op
      · exact (congrArg State.now hrest :)
      · rfl
  case poisoned =>
    have hp' : (feUses op && unitPoison m (op.addr / 64)) = true := hp
    have hsame : readOut m x op = m := by rw [readOut, if_pos (by rw [hp', Bool.true_or])]
    rw [if_pos hloc, if_pos hp', fePush_local hloc, hsame]
    obtain ⟨hnow, hfault⟩ := faultEngine_op (hi.later (Nat.le_max_left ..)) hgone .syncPoison
    exact ⟨hnow, hfault.ofLater⟩
  case done =>
    have hp' : (feUses op && unitPoison m (op.addr / 64)) = false := hp
    rw [if_pos hloc, if_neg (by rw [hp']; decide), fePush_local hloc]
    generalize readOut m x op = w at hrest hread hvalue ⊢
    have hnow : w.now = t := (congrArg State.now hrest :)
    have hregs : w.regs = s.regs := (congrArg State.regs hrest :)
    have hops : w.feOps = s.feOps := (congrArg State.feOps hrest :)
    have hcores : w.cores = s.cores := (congrArg State.cores hrest :)
    have hcore : getCore w = getCore s := by funext y; unfold getCore; rw [hcores]
    have hget (y : EngId) : getEng w c y = getEng s c y := by rw [getEng, hcore]; rfl
    obtain ⟨hr, heng, hnamed, hunnamed, hengs, hothers⟩ := feComplete_completed (hs.congr hcores) ((congrArg Engine.mode (hget e)).trans hrun)
      ((congrArg Engine.step (hget e)).trans hoff) op v
    rw [show feValue m op.addr = v from rfl]
    generalize feComplete w c e op v = u at hr heng hnamed hunnamed hengs hothers ⊢
    have hfull : feFull u x = feFull w x := feFull_of_same (congrArg State.feb hr :) (congrArg State.syncw hr :) x
    have hval (b : Nat) : feValue u b = feValue w b :=
      feValue_of_same (congrArg State.regs hr :) (congrArg State.mem hr :) (congrArg State.syncw hr :) b
    rw [hget, hnow, slotLen_congr (rget_congr hregs _)] at heng
    rw [hnow, hcore] at hnamed
    rw [hcore] at hunnamed hothers
    exact ⟨(congrArg State.now hr :).trans hnow, hfull.trans ((hread hf).trans (by rw [hp', Bool.false_or])), fun b => (hval b).trans (hvalue b),
      hops ▸ (congrArg State.feOps hr :), (congrArg State.regs hr :).trans hregs, heng, hnamed, hunnamed, fun y hy => (hengs y hy).trans (hget y),
      hothers⟩

end Sys2Proof.Machine

namespace Sys2Proof.Machine

/-! The end of a wait for a remote word, and a wait that reaches its limit (R225, R230, R233, R234). -/

/-- The satisfied operation of an engine of which no other is outstanding. -/
theorem find_returned {s : State} {c : CoreId} {e : EngId} {op : FeOp} (h : s.feOps.filter (feOfEng c e) = [op]) (hgot : op.got.isSome = true) :
    s.feOps.find? (fun y => feOfEng c e y && y.got.isSome) = some op := by
  have hboth : s.feOps.find? (fun y => feOfEng c e y && y.got.isSome) = (s.feOps.filter (feOfEng c e)).find? fun y => y.got.isSome := by
    rw [List.find?_filter]
    simp only [Bool.decide_and, Bool.decide_eq_true]
  simp [hboth, h, hgot]

theorem feReturn_eq {s : State} {c : CoreId} {e : EngId} {op : FeOp} {v : W64} {p : Bool}
    (h : s.feOps.find? (fun y => feOfEng c e y && y.got.isSome) = some op) (hgot : op.got = some (v, p)) :
    feReturn s c e = if p then faultEngine s c e .syncPoison none else feComplete s c e op v := by
  unfold feReturn
  simp only [h, hgot]

/-- The end of a drain or abort leaves what each engine waits for. -/
theorem settleEngine_wait (s : State) (c : CoreId) (x e : EngId) : (getEng (settleEngine s c x) c e).wait = (getEng s c e).wait := by
  have hput (m : EngMode) (a : Option AbortWhy) :
      (getEng (putEng s c x { getEng s c x with mode := m, step := .off, abort := a }) c e).wait = (getEng s c e).wait := by
    by_cases hx : e = x
    · rw [hx, getEng_putEng]
    · rw [getEng, putEng, getCore_putCore, engGet_engPut_ne _ _ hx]; rfl
  unfold settleEngine
  dsimp only
  split
  · split
    · exact hput .halted _
    · rfl
  · split
    · rfl
    · split
      · exact hput .halted none
      · exact hput .halted none
  · rfl

theorem settleCore_wait {s : State} {c : CoreId} (h : ∀ i ∈ (getCore s c).insts, i.begun = true ∧ (i.finished = false → ∀ n, i.prog ≠ .dxe n))
    (e : EngId) : (getEng (settleCore s c) c e).wait = (getEng s c e).wait := by
  unfold settleCore
  simp only [startReady_still h, pumpAll_still h]
  exact List.foldlRecOn (motive := fun t => (getEng t c e).wait = (getEng s c e).wait) allEng _ rfl
    fun t ht x _ => (settleEngine_wait t c x e).trans ht

/-- The state once a wait has reached its limit: time has moved on, and the timeout is counted, flagged and logged (R234). -/
def timedOut (s : State) (c : CoreId) (e : EngId) (op start : Nat) : State :=
  logEng (rsetf (rbump (advance s (start + rfld s (.eng c e .tmo) 15 0 * 1024)) (.syncStat c) 31 16 1) (.syncStat c) 0 0 1) c (engIdx e)
    (stCode .syncTimeout) clsNone (getEng s c e).bank (getEng s c e).pc (waitSubject s c op)

section TimedOut
variable {s : State} {c : CoreId} {e : EngId} {op start : Nat}

/-- Beside time, a timeout changes the register that counts it and the log. -/
theorem timedOut_rest (s : State) (c : CoreId) (e : EngId) (op start : Nat) : ∃ r a b l, timedOut s c e op start =
    { s with now := max s.now (start + rfld s (.eng c e .tmo) 15 0 * 1024), regs := r, incAt := a, incs := b, log := l } := by
  obtain ⟨l, hl⟩ : ∃ l, timedOut s c e op start =
    { rsetf (rbump (advance s (start + rfld s (.eng c e .tmo) 15 0 * 1024)) (.syncStat c) 31 16 1) (.syncStat c) 0 0 1 with log := l } := logEv_else ..
  exact ⟨_, _, _, l, hl⟩

theorem timedOut_core : getEng (timedOut s c e op start) c e = getEng s c e := by
  obtain ⟨r, a, b, l, h⟩ := timedOut_rest s c e op start
  rw [h]
  rfl

theorem timedOut_reg (r : Reg) (hr : r ≠ .syncStat c) : rget (timedOut s c e op start) r = rget s r := by
  rw [timedOut, logEng, (logged_logEv ..).rget, rget_rsetf_of_ne _ _ _ _ hr, rget_rbump_of_ne _ _ _ _ hr]
  rfl

theorem timedOut_counted : rfld (timedOut s c e op start) (.syncStat c) 31 16 = min 65535 (rfld s (.syncStat c) 31 16 + 1) ∧
    rbit (timedOut s c e op start) (.syncStat c) 0 = true := by
  set v := rbump (advance s (start + rfld s (.eng c e .tmo) 15 0 * 1024)) (.syncStat c) 31 16 1 with hv
  have hflag : rbit (rsetf v (.syncStat c) 0 0 1) (.syncStat c) 0 = true := by
    rw [rbit_eq, rfld_rsetf_self _ _ (by decide) (by decide)]
    rfl
  have hcount : rfld (rsetf v (.syncStat c) 0 0 1) (.syncStat c) 31 16 = min 65535 (rfld s (.syncStat c) 31 16 + 1) := by
    rw [rfld_rsetf_apart _ _ _ (.inr (by decide)), hv, rfld_rbump_self _ _ _ _ (by decide)]
    rfl
  rw [timedOut, logEng, rfld_congr ((logged_logEv ..).rget _), rbit, (logged_logEv ..).rget]
  exact ⟨hcount, hflag⟩

theorem timedOut_event : ∃ ev, (timedOut s c e op start).log.inFlight = s.log.inFlight ++ [ev] ∧ ev.cause = stCode .syncTimeout ∧
    ev.cls = clsNone ∧ ev.inst = c.val ∧ ev.sub = engIdx e := ⟨_, rfl, rfl, rfl, rfl, rfl⟩

theorem waitTimeout_eq (hw : (getEng s c e).wait = .sync op start false) (hrun : (getEng s c e).mode = .running)
    (hlim : rfld s (.eng c e .tmo) 15 0 ≠ 0) (hgot : s.feOps.any (fun y => y.id == op && y.got.isSome) = false) :
    waitTimeout s c e = if rfld s (.eng c e .tmo) 17 16 = 1 then drainEngine (timedOut s c e op start) c e
      else putEng (timedOut s c e op start) c e { getEng s c e with wait := .sync op start true } := by
  have hact : rfld (timedOut s c e op start) (.eng c e .tmo) 17 16 = rfld s (.eng c e .tmo) 17 16 := rfld_congr (timedOut_reg _ (by simp)) ..
  have hgo : ¬(rfld s (.eng c e .tmo) 15 0 = 0 ∨ (getEng s c e).mode ≠ .running ∨ s.feOps.any (fun y => y.id == op && y.got.isSome) = true) := by
    simp [hlim, hrun, hgot]
  have hsubject : waitSubject (rsetf (rbump (advance s (start + rfld s (.eng c e .tmo) 15 0 * 1024)) (.syncStat c) 31 16 1) (.syncStat c) 0 0 1) c op =
    waitSubject s c op := rfl
  unfold waitTimeout
  simp only [hw, hgo, if_false, hsubject]
  change (if rfld (timedOut s c e op start) (.eng c e .tmo) 17 16 = 1 then drainEngine (timedOut s c e op start) c e else
    putEng (timedOut s c e op start) c e { getEng (timedOut s c e op start) c e with wait := .sync op start true }) = _
  rw [hact, timedOut_core]

/-- The state once the wait of engine e has been withdrawn from its word or counter (R174). -/
def unwaited (s : State) (c : CoreId) (e : EngId) (op : Nat) : State :=
  putCore { s with feOps := s.feOps.filter fun x => x.id != op } c
    (engPut { getCore s c with semOps := (getCore s c).semOps.filter fun x => !(x.id == op && x.eng == e) } e { getEng s c e with wait := .none })

/-- An engine that waits drains as it does once its wait has been withdrawn (R174). -/
theorem drainEngine_waiting {b : Bool} (hw : (getEng s c e).wait = .sync op start b) (hgot : s.feOps.any (fun y => y.id == op && y.got.isSome) = false) :
    drainEngine s c e = drainEngine (unwaited s c e op) c e := by
  have hnone : (getEng (unwaited s c e op) c e).wait = .none := by rw [getEng, unwaited, getCore_putCore, engGet_engPut]
  have hfirst : withdrawWait s c e = unwaited s c e op := by
    simp only [withdrawWait, hw, hgot, Bool.false_eq_true, if_false]
    rfl
  have hsecond : withdrawWait (unwaited s c e op) c e = unwaited s c e op := by simp only [withdrawWait, hnone]
  rw [drainEngine, drainEngine, hfirst, hsecond]

/-- An engine that waits in a core where nothing waits to follow stops at its PC, and waits for nothing (R174). -/
theorem drainEngine_stops (hs : StillCore s c) (hrun : (getEng s c e).mode = .running) {b : Bool} (hw : (getEng s c e).wait = .sync op start b)
    (hgot : s.feOps.any (fun y => y.id == op && y.got.isSome) = false) :
    ∃ g, EngineTo (unwaited s c e op) (drainEngine s c e) c e g True ∧ g.mode ≠ .running ∧ g.pc = (getEng s c e).pc ∧ g.wait = .none := by
  have hcore : getCore (unwaited s c e op) c = _ := getCore_putCore ..
  have heng : getEng (unwaited s c e op) c e = { getEng s c e with wait := .none } := by rw [getEng, hcore, engGet_engPut]
  have hstill : StillCore (unwaited s c e op) c := ⟨by rw [hcore]; exact hs.insts, modes_of_others hs.modes
    (fun x hx => by rw [getEng, hcore, engGet_engPut_ne _ _ hx]; rfl) (.inr (by rw [heng]; exact hrun))⟩
  have hnone : (getEng (unwaited s c e op) c e).wait = .none := by rw [heng]
  obtain ⟨g, hto, hmode, hpc, -⟩ := drainEngine_running hstill hnone
  rw [drainEngine_waiting hw hgot]
  refine ⟨g, hto, ?_, by rw [hpc, heng], ?_⟩
  · rw [hmode]; split <;> decide
  · have hsecond : withdrawWait (unwaited s c e op) c e = unwaited s c e op := by simp only [withdrawWait, hnone]
    rw [← hto.engine, drainEngine, hsecond, settleCore_wait (by rw [putEng, getCore_putCore]; exact hstill.insts), getEng_putEng]
    exact hnone

end TimedOut

/-- Settles O3: the value completes the operation or aborts its engine; a wait at its limit is reported, and goes on or is withdrawn. -/
theorem waitingOperationsCompleteOrTimeOut : Obligations.WaitingOperationsCompleteOrTimeOut := by
  refine ⟨fun s c e op v => ⟨fun hi hgot hfill hdrain => ?poisoned, fun hfind hgot hs hrun hoff => ?returned⟩,
    fun s c e op start hw hrun hlim hs hgot => ?timeout⟩
  case poisoned =>
    have hfault := faultEngine_op hi (feGone_of_wait ⟨hfill, hdrain⟩) .syncPoison
    refine ⟨_, rfl, ?_⟩
    rw [feReturn_eq (find_returned hi.ops (by rw [hgot]; rfl)) hgot, if_pos rfl]
    exact hfault
  case returned =>
    obtain ⟨hr, heng, hnamed, hunnamed, hengs, hothers⟩ := feComplete_completed hs hrun hoff op v
    refine ⟨_, rfl, ?_⟩
    rw [feReturn_eq hfind hgot, if_neg Bool.false_ne_true]
    generalize feComplete s c e op v = u at hr heng hnamed hunnamed hengs hothers ⊢
    exact ⟨(congrArg State.now hr :), by rw [hr]; constructor <;> rfl, (congrArg State.regs hr :), (congrArg State.feOps hr :),
      heng, hnamed, hunnamed, hengs, hothers⟩
  case timeout =>
    obtain ⟨r, a, b, l, hrest⟩ := timedOut_rest s c e op start
    obtain ⟨ev, hev⟩ := timedOut_event (s := s) (c := c) (e := e) (op := op) (start := start)
    obtain ⟨hcount, hflag⟩ := timedOut_counted (s := s) (c := c) (e := e) (op := op) (start := start)
    refine ⟨_, ev, congrArg Host.Outcome.next (waitTimeout_eq hw hrun hlim hgot), ?_⟩
    generalize timedOut s c e op start = m at hrest hev hcount hflag ⊢
    have hcores : m.cores = s.cores := (congrArg State.cores hrest :)
    have hops : m.feOps = s.feOps := (congrArg State.feOps hrest :)
    have hmemory : SameMemory s m := by rw [hrest]; constructor <;> rfl
    have hcore (y : CoreId) : getCore m y = getCore s y := by unfold getCore; rw [hcores]
    have heng (y : EngId) : getEng m c y = getEng s c y := by rw [getEng, hcore]; rfl
    have hnow : m.now = max s.now (start + rfld s (.eng c e .tmo) 15 0 * 1024) := (congrArg State.now hrest :)
    by_cases hact : rfld s (.eng c e .tmo) 17 16 = 1
    · rw [if_pos hact]
      obtain ⟨g, hto, hmode, hpc, hwait⟩ := drainEngine_stops (hs.congr hcores) ((congrArg Engine.mode (heng e)).trans hrun)
        ((congrArg Engine.wait (heng e)).trans hw) (by rw [hops]; exact hgot)
      generalize drainEngine m c e = u at hto ⊢
      have hregs : u.regs = m.regs := hto.regs trivial
      obtain ⟨hev, hcause, hcls, hinst, hsub⟩ := hev
      refine ⟨hto.now.trans hnow, (rfld_congr (rget_congr hregs _) ..).trans hcount, by rw [rbit, rget_congr hregs]; exact hflag,
        (congrArg EvLog.inFlight (hto.log trivial)).trans hev, hcause, hcls, hinst, hsub,
        SameMemory_trans hmemory (SameMemory_trans (by constructor <;> rfl) hto.memory),
        fun y hy => (hto.others y hy).trans ((getCore_putCore_ne _ _ hy).trans (hcore y)), fun h => ?_, fun _ => ?_⟩
      · rw [hact] at h; cases h
      · rw [hto.engine, hto.feOps]
        exact ⟨hmode, hpc.trans (congrArg Engine.pc (heng e)), hwait, by rw [← hops]; rfl⟩
    · rw [if_neg hact]
      obtain ⟨hev, hcause, hcls, hinst, hsub⟩ := hev
      exact ⟨hnow, hcount, hflag, hev, hcause, hcls, hinst, hsub, SameMemory_trans hmemory (by constructor <;> rfl),
        fun y hy => (getCore_putCore_ne _ _ hy).trans (hcore y), fun _ => ⟨by rw [putEng, putCore, hcore, hcores]; rfl, hops⟩,
        fun h => absurd h hact⟩

end Sys2Proof.Machine

namespace Sys2Proof.Machine

/-! A semaphore operation alone at its counter (R235 to R238). -/

theorem CoreTo.rsetf {s u : State} {c : CoreId} {k : Core} (h : CoreTo s u c k False) (r : Reg) (hi lo x : Nat) :
    CoreTo s (rsetf u r hi lo x) c k False := by
  obtain ⟨cs, regs, a, b, l, rfl, hc, ho, -⟩ := h.eq
  exact ⟨cs, _, _, _, l, rfl, hc, ho, False.elim⟩

/-- The core with one counter changed. -/
def setSem (k : Core) (n v : Nat) : Core := { k with sem := tset k.sem 0 n v }

theorem coreTo_semPut (s : State) (c : CoreId) (n v : Nat) : CoreTo s (semPut s c n v) c (setSem (getCore s c) n v) True :=
  (CoreTo.refl s c True).put

/-- A saturation is flagged, counted and logged (R236). -/
theorem semFlag_flagged (s : State) (c : CoreId) (op : SemOp) (up : Bool) :
    rbit (semFlag s c op up) (.syncStat c) (if up then 2 else 3) = true ∧
      rfld (semFlag s c op up) (.syncStat c) 47 32 = min 65535 (rfld s (.syncStat c) 47 32 + 1) ∧
      ∃ e, (semFlag s c op up).log.inFlight = s.log.inFlight ++ [e] ∧ e.cause = stCode (if up then .semOverflow else .semUnderflow) := by
  set v := rsetf s (.syncStat c) (if up then 2 else 3) (if up then 2 else 3) 1 with hv
  have hi : (if up then 2 else 3) < 32 := by cases up <;> decide
  have hflag : rbit (rbump v (.syncStat c) 47 32 1) (.syncStat c) (if up then 2 else 3) = true := by
    have hsame : rfld (rbump v (.syncStat c) 47 32 1) (.syncStat c) (if up then 2 else 3) (if up then 2 else 3) = 1 := by
      refine (rfld_rsetf_apart v (.syncStat c) _ (.inl hi)).trans (rfld_rsetf_self s _ (by omega) ?_)
      simp
    rw [rbit_eq, hsame]
    rfl
  have hcount : rfld (rbump v (.syncStat c) 47 32 1) (.syncStat c) 47 32 = min 65535 (rfld s (.syncStat c) 47 32 + 1) := by
    rw [rfld_rbump_self _ _ _ _ (by decide), hv, rfld_rsetf_apart _ _ _ (.inr hi)]
    rfl
  have hlog : Logged (rbump v (.syncStat c) 47 32 1) (semFlag s c op up) _ := logged_logEv ..
  refine ⟨?_, (rfld_congr (hlog.rget _) ..).trans hcount, _, rfl, rfl⟩
  rw [rbit, hlog.rget]
  exact hflag

theorem CoreTo.semFlag {s u : State} {c : CoreId} {k : Core} (h : CoreTo s u c k False) (op : SemOp) (up : Bool) :
    CoreTo s (semFlag u c op up) c k False :=
  ((h.rsetf ..).rbump ..).logEng ..

/-- An add or subtract changes one counter of its core, beside registers and the log. -/
theorem coreTo_semApply (s : State) (c : CoreId) (op : SemOp) : ∃ v, CoreTo s (semApply s c op) c (setSem (getCore s c) op.ctr v) False := by
  unfold semApply
  dsimp only
  generalize (semGet s c op.ctr : Int) + (if op.kind = 0 then (op.n : Int) else -(op.n : Int)) = z
  split
  · exact ⟨_, (coreTo_semPut ..).forget⟩
  · split
    · exact ⟨_, (coreTo_semPut ..).forget.semFlag op true⟩
    · split
      · exact ⟨_, (coreTo_semPut ..).forget.semFlag op false⟩
      · exact ⟨_, (coreTo_semPut ..).forget⟩

/-- The core with other operations on its counters. -/
def withSems (s : State) (c : CoreId) (l : List SemOp) : State := putCore s c { getCore s c with semOps := l }

theorem withSems_eng (s : State) (c : CoreId) (l : List SemOp) (e : EngId) : getEng (withSems s c l) c e = getEng s c e := by
  rw [getEng, withSems, getCore_putCore]
  rfl

theorem semGet_withSems (s : State) (c : CoreId) (l : List SemOp) (n : Nat) : semGet (withSems s c l) c n = semGet s c n := by
  rw [semGet, withSems, getCore_putCore]
  rfl

theorem withSems_semOps (s : State) (c : CoreId) (l : List SemOp) : (getCore (withSems s c l) c).semOps = l := by
  rw [withSems, getCore_putCore]

/-- Where nothing waits to follow, a counter changed and other operations listed let nothing follow. -/
theorem settleCore_withSems {s u : State} {c : CoreId} (hs : StillCore s c) (hi : (getCore u c).insts = (getCore s c).insts)
    (he : (getCore u c).eng = (getCore s c).eng) (l : List SemOp) : settleCore (withSems u c l) c = withSems u c l := by
  refine hs.settle (fun i h => ?_) fun e => ?_
  · rw [withSems, getCore_putCore] at h
    exact hi ▸ h
  · rw [withSems_eng, getEng, engGet, he]
    exact hs.modes e

section Alone
variable {s : State} {c : CoreId} {n : Nat} {op : SemOp} (hops : (getCore s c).semOps = [op]) (hnew : op.waiting = false) (hn : op.ctr = n)
  (hs : StillCore s c)
include hops hnew hn hs

/-- An add or subtract alone at its counter is applied and leaves the list. -/
theorem semReach_change (hk : op.kind ≠ 2) : semReach s c n = withSems (semApply (advance s op.due) c op) c [] := by
  obtain ⟨v, hto⟩ := coreTo_semApply (advance s op.due) c op
  have hcore := hto.core
  have hleft : (getCore (semApply (advance s op.due) c op) c).semOps = [op] := by rw [hcore]; exact hops
  have hsettle := settleCore_withSems hs (u := semApply (advance s op.due) c op) (by rw [hcore]; rfl) (by rw [hcore]; rfl) []
  have hreach : semReach s c n = semServe (settleCore (withSems (semApply (advance s op.due) c op) c []) c) c n := by
    unfold semReach
    simp [hops, hnew, hn, hk, sortBy_singleton, hleft]
    rfl
  rw [hreach, hsettle, semServe, withSems_semOps]
  rfl

/-- A wait alone at its counter is marked, and tests the counter once. -/
theorem semReach_wait (hk : op.kind = 2) : semReach s c n =
    if op.n ≤ semGet s c n then semComplete (withSems (advance s op.due) c [{ op with waiting := true }]) c { op with waiting := true }
    else withSems (advance s op.due) c [{ op with waiting := true }] := by
  have hleft : (getCore (advance s op.due) c).semOps = [op] := hops
  have hsettle := settleCore_withSems hs (u := advance s op.due) rfl rfl [{ op with waiting := true }]
  have hreach : semReach s c n = semServe (settleCore (withSems (advance s op.due) c [{ op with waiting := true }]) c) c n := by
    unfold semReach
    simp [hops, hnew, hn, hk, sortBy_singleton, hleft]
    rfl
  have hget : semGet (withSems (advance s op.due) c [{ op with waiting := true }]) c n = semGet s c n := semGet_withSems ..
  rw [hreach, hsettle, semServe, withSems_semOps, hget]
  by_cases hle : op.n ≤ semGet s c n
  · simp [hle, hn]
  · simp [hle]

end Alone

/-- What an add or subtract makes of its counter, with z the sum or difference. -/
theorem semApply_eq {s : State} {c : CoreId} {op : SemOp} {z : Int}
    (hz : (semGet s c op.ctr : Int) + (if op.kind = 0 then (op.n : Int) else -(op.n : Int)) = z) :
    semApply s c op = if semWrap s c op.ctr then semPut s c op.ctr (z % 65536).toNat
      else if z > 65535 then semFlag (semPut s c op.ctr 65535) c op true
      else if z < 0 then semFlag (semPut s c op.ctr 0) c op false
      else semPut s c op.ctr z.toNat := by
  subst hz; rfl

section Counter
variable {s u : State} {c : CoreId} {n v : Nat} {q : Prop} (h : CoreTo s u c (setSem (getCore s c) n v) q)
include h

theorem CoreTo.counter : semGet u c n = v := by rw [semGet, h.core]; exact tget_tset_self ..

theorem CoreTo.counters {k : Nat} (hk : k ≠ n) : semGet u c k = semGet s c k := by rw [semGet, h.core]; exact tget_tset_ne _ _ _ _ hk

end Counter

/-- A counter that saturates is left at a value, with its flag, count and event (R236). -/
theorem semFlag_semPut {op : SemOp} {n : Nat} (hn : op.ctr = n) (s : State) (c : CoreId) (v : Nat) (up : Bool) :
    let u := semFlag (semPut s c op.ctr v) c op up
    semGet u c n = v ∧ rbit u (.syncStat c) (if up then 2 else 3) = true ∧
      rfld u (.syncStat c) 47 32 = min 65535 (rfld s (.syncStat c) 47 32 + 1) ∧
      ∃ e, u.log.inFlight = s.log.inFlight ++ [e] ∧ e.cause = stCode (if up then .semOverflow else .semUnderflow) :=
  ⟨hn ▸ ((coreTo_semPut s c op.ctr v).forget.semFlag op up).counter, semFlag_flagged ..⟩

/-- A wait that is the only operation of its core completes: its engine moves past it (R218, R237). -/
theorem semComplete_alone {s : State} {c : CoreId} {op : SemOp} (hops : (getCore s c).semOps = [op]) (hs : StillCore s c)
    (hrun : (getEng s c op.eng).mode = .running) (hoff : (getEng s c op.eng).step = .off) :
    semComplete s c op = putEng (withSems s c []) c op.eng (popHead (getEng s c op.eng) (s.now + slotLen s c op.eng)) := by
  set g := popHead (getEng s c op.eng) (s.now + slotLen s c op.eng) with hg
  set k : Core := { getCore s c with semOps := [] } with hk
  have hcore : getCore (putCore s c (engPut k op.eng g)) c = engPut k op.eng g := getCore_putCore ..
  have hsettle : settleCore (putCore s c (engPut k op.eng g)) c = putCore s c (engPut k op.eng g) :=
    hs.settle (fun i hi => by rw [hcore] at hi; exact hi) (modes_of_others hs.modes
      (fun x hx => by rw [getEng, hcore, engGet_engPut_ne _ _ hx]; rfl) (.inr (by rw [getEng, hcore, engGet_engPut]; exact hrun)))
  have hcomplete : semComplete s c op = settleCore (putCore s c (engPut k op.eng (stepBegun g))) c := by
    simp only [semComplete, hops, List.filter_cons, List.filter_nil, bne_self_eq_false, Bool.false_eq_true, if_false]
    rfl
  rw [hcomplete, stepBegun_off (show g.step = .off from hoff), hsettle, putEng, withSems, getCore_putCore, putCore_putCore]

/-- Settles O4: an add or subtract is applied and leaves the list, a wait tests its counter once. -/
theorem semaphoreOperationsReachTheirCounter : Obligations.SemaphoreOperationsReachTheirCounter := by
  intro s c n op hops hnew hn hs hrun hoff t sum
  set m : State := advance s op.due with hm
  obtain ⟨v, hto⟩ := coreTo_semApply m c op
  rw [hn] at hto
  have hself (u : State) : semGet (withSems u c []) c n.val = semGet u c n.val := semGet_withSems ..
  have hchange (hk : op.kind ≠ 2) : exec (.semOpReachCounter c n) s = .next (withSems (semApply m c op) c []) :=
    congrArg Host.Outcome.next (semReach_change hops hnew hn hs hk)
  have hrest : (withSems (semApply m c op) c []).now = t ∧ SameMemory s (withSems (semApply m c op) c []) ∧
      (getCore (withSems (semApply m c op) c []) c).semOps = [] ∧
      ∀ k, k ≠ n.val → semGet (withSems (semApply m c op) c []) c k = semGet s c k :=
    ⟨hto.now, SameMemory_trans (sameMemory_advance s op.due) (SameMemory_trans hto.memory (by constructor <;> rfl)), withSems_semOps ..,
      fun k hk => (semGet_withSems ..).trans (hto.counters hk)⟩
  obtain ⟨hnow, hmemory, hsems, hothers⟩ := hrest
  have hwrap : semWrap m c op.ctr = semWrap { s with now := t } c n.val := by rw [hn]; rfl
  have hput (v : Nat) : semGet (semPut m c op.ctr v) c n.val = v := hn ▸ (coreTo_semPut m c op.ctr v).counter
  refine ⟨fun hk => ⟨_, hchange (by rw [hk]; decide), hnow, hmemory, hsems, hothers, ?add⟩,
    fun hk => ⟨_, hchange (by rw [hk]; decide), hnow, hmemory, hsems, hothers, ?sub⟩, fun hk => ?wait⟩
  case add =>
    have hz : (semGet m c op.ctr : Int) + (if op.kind = 0 then (op.n : Int) else -(op.n : Int)) = sum := by
      rw [if_pos hk, hn]; exact (Int.natCast_add ..).symm
    rw [semApply_eq hz, hwrap, hself]
    clear_value sum
    by_cases hw : semWrap { s with now := t } c n.val = true
    · rw [if_pos hw, if_pos hw]
      exact ⟨(hput _).trans (by omega), rfl⟩
    rw [if_neg hw, if_neg hw]
    by_cases hover : 65535 < sum
    · rw [if_pos hover, if_pos (by omega)]
      obtain ⟨hvalue, hflag, hcount, hev⟩ := semFlag_semPut hn m c 65535 true
      exact ⟨hvalue, hflag, hcount, hev⟩
    · rw [if_neg hover, if_neg (by omega), if_neg (by omega)]
      exact ⟨(hput _).trans (by omega), rfl⟩
  case sub =>
    have hz : (semGet m c op.ctr : Int) + (if op.kind = 0 then (op.n : Int) else -(op.n : Int)) = (semGet s c n.val : Int) - op.n := by
      rw [if_neg (by rw [hk]; decide), hn]; rfl
    rw [semApply_eq hz, hwrap, hself]
    by_cases hw : semWrap { s with now := t } c n.val = true
    · rw [if_pos hw, if_pos hw]
      exact ⟨hput _, rfl⟩
    rw [if_neg hw, if_neg hw]
    by_cases hunder : semGet s c n.val < op.n
    · rw [if_pos hunder, if_neg (by omega), if_pos (by omega)]
      obtain ⟨hvalue, hflag, hcount, hev⟩ := semFlag_semPut hn m c 0 false
      exact ⟨hvalue, hflag, hcount, hev⟩
    rw [if_neg hunder]
    by_cases hover : (semGet s c n.val : Int) - op.n > 65535
    · rw [if_pos hover]
      obtain ⟨hvalue, -⟩ := semFlag_semPut hn m c 65535 true
      exact ⟨(hvalue).trans (by omega), fun h => by omega⟩
    · rw [if_neg hover, if_neg (by omega)]
      exact ⟨(hput _).trans (by omega), fun _ => rfl⟩
  case wait =>
    have hexec : exec (.semOpReachCounter c n) s = .next _ := congrArg Host.Outcome.next (semReach_wait hops hnew hn hs hk)
    refine ⟨_, hexec, ?_⟩
    by_cases hle : op.n ≤ semGet s c n.val
    · rw [if_pos hle, if_pos hle]
      set x : SemOp := { op with waiting := true } with hx
      have hsem : (getCore (withSems m c [x]) c).semOps = [x] := withSems_semOps ..
      have heng (y : EngId) : getEng (withSems m c [x]) c y = getEng s c y := withSems_eng ..
      have hstill : StillCore (withSems m c [x]) c := by
        refine ⟨?_, fun y => by rw [heng]; exact hs.modes y⟩
        rw [withSems, getCore_putCore]; exact hs.insts
      rw [semComplete_alone hsem hstill ((congrArg Engine.mode (heng _)).trans hrun) ((congrArg Engine.step (heng _)).trans hoff)]
      refine ⟨rfl, by constructor <;> rfl, rfl, fun k => ?_, ?_, ?_⟩
      · rw [semGet, putEng, getCore_putCore]
        exact (semGet_withSems ..).trans (semGet_withSems ..)
      · rw [putEng, getCore_putCore]
        exact withSems_semOps ..
      · rw [show op.eng = x.eng from rfl, getEng_putEng, heng]
        rfl
    · rw [if_neg hle, if_neg hle]
      exact ⟨rfl, by constructor <;> rfl, rfl, fun k => semGet_withSems .., withSems_semOps .., withSems_eng ..⟩

end Sys2Proof.Machine

namespace Sys2Proof.Machine

/-! What lines that leave a cache slice, and the opening of a window, leave unchanged (R228, R284, R287). -/

/-- Whether a unit is a held sync line is a matter of the windows. -/
theorem isSync_eq (s : State) (u : Nat) : isSync s u = match placeOf (64 * u) with | .stack n off => inWindow s n off | _ => false := by
  unfold isSync homeOf
  cases placeOf (64 * u) with
  | stack n off =>
    dsimp only
    cases inWindow s n off with
    | true => rfl
    | false => cases pageRetired s n (off / 0x10000) <;> rfl
  | _ => rfl

/-- The words of unit u, as a sync line, hold no error. -/
def Sound (s : State) (u : Nat) : Prop := ∀ k, k < 8 → tget s.ecc .none (syncErr u k) = .none

/-- Memory, the cores, the sync words and the windows are the same, no word has a new error, and a sync line without errors keeps a clear tag. -/
structure LineKeeps (s u : State) : Prop where
  mem : u.mem = s.mem
  cores : u.cores = s.cores
  words : u.syncw = s.syncw
  windows : ∀ n, rget u (.syncWin n) = rget s (.syncWin n)
  ecc : ∀ k, tget s.ecc .none k = .none → tget u.ecc .none k = .none
  clear : ∀ v, Sound s v → tget s.syncp false v = false → tget u.syncp false v = false

theorem LineKeeps.refl (s : State) : LineKeeps s s := ⟨rfl, rfl, rfl, fun _ => rfl, fun _ h => h, fun _ _ h => h⟩

theorem LineKeeps.sound {s u : State} (h : LineKeeps s u) {v : Nat} (hv : Sound s v) : Sound u v := fun k hk => h.ecc _ (hv k hk)

theorem LineKeeps.trans {s t u : State} (h : LineKeeps s t) (k : LineKeeps t u) : LineKeeps s u :=
  ⟨k.mem.trans h.mem, k.cores.trans h.cores, k.words.trans h.words, fun n => (k.windows n).trans (h.windows n), fun x hx => k.ecc x (h.ecc x hx),
    fun v hv hc => k.clear v (h.sound hv) (h.clear v hv hc)⟩

theorem LineKeeps.isSync {s u : State} (h : LineKeeps s u) (v : Nat) : isSync u v = isSync s v := by
  rw [isSync_eq, isSync_eq]
  split
  · exact inWindow_congr (h.windows _) _
  · rfl

theorem LineKeeps.foldl {ι : Type} {f : State → ι → State} (hf : ∀ s x, LineKeeps s (f s x)) (s : State) (l : List ι) : LineKeeps s (l.foldl f s) :=
  List.foldlRecOn (motive := LineKeeps s) l f (.refl s) fun _ ht x _ => ht.trans (hf _ x)

theorem lineKeeps_rput (s : State) {r : Reg} (hr : ∀ n, r ≠ .syncWin n) (v : W64) : LineKeeps s (rput s r v) :=
  ⟨rfl, rfl, rfl, fun n => rget_rput_of_ne s v (hr n).symm, fun _ h => h, fun _ _ h => h⟩

theorem lineKeeps_rbump (s : State) {r : Reg} (hr : ∀ n, r ≠ .syncWin n) (hi lo n : Nat) : LineKeeps s (rbump s r hi lo n) :=
  ⟨rfl, rfl, rfl, fun m => rget_rbump_of_ne s hi lo n (hr m).symm, fun _ h => h, fun _ _ h => h⟩

theorem lineKeeps_logEv (s : State) (cause cls slice unit sub inst : Nat) (detail : W64) :
    LineKeeps s (logEv s cause cls slice unit sub inst detail) :=
  ⟨rfl, rfl, rfl, fun _ => rfl, fun _ h => h, fun _ _ h => h⟩

/-- A tag is set where a word of the unit has an error, if the unit is a sync line. -/
theorem lineKeeps_setPoison {s : State} {u : Nat} (h : isSync s u = true → ¬Sound s u) (p : Bool) : LineKeeps s (setPoison s u p) := by
  unfold setPoison
  split
  next hs =>
    refine ⟨rfl, rfl, rfl, fun _ => rfl, fun _ hk => hk, fun v hv hc => ?_⟩
    exact (tget_tset_ne _ _ _ _ fun he => h hs (by subst he; exact hv)).trans hc
  next => exact ⟨rfl, rfl, rfl, fun _ => rfl, fun _ hk => hk, fun _ _ hc => hc⟩

/-- The same after a step that leaves the errors as they were. -/
theorem LineKeeps.setPoison {s t : State} {u : Nat} (h : LineKeeps s t) (he : t.ecc = s.ecc) (hu : Machine.isSync s u = true → ¬Sound s u) (p : Bool) :
    LineKeeps s (Machine.setPoison t u p) := by
  refine h.trans (lineKeeps_setPoison (fun ht hv => hu ((h.isSync u).symm.trans ht) fun k hk => ?_) p)
  rw [← he]
  exact hv k hk

/-- What a reader finds in a sync line without errors. -/
theorem eccFind_of_sound {s : State} {u : Nat} (hs : isSync s u = true) (h : Sound s u) : eccFind s u words8 = (0, false) := by
  have hnone : ∀ k ∈ words8, tget s.ecc .none (eccKey s u k) = .none := by
    intro k hk
    rw [eccKey, if_pos hs]
    exact h k (mem_words8.1 hk)
  have hone : singles s u words8 = 0 := by
    rw [singles, List.length_eq_zero_iff, List.filter_eq_nil_iff]
    intro k hk
    rw [hnone k hk]
    decide
  have htwo : doubles s u words8 = false := by
    rw [doubles, List.any_eq_false]
    intro k hk
    rw [hnone k hk]
    decide
  simp [eccFind, hone, htwo]

/-- An uncorrectable word of a sync line is one with an error. -/
theorem not_sound_of_eccFind {s : State} {u : Nat} (h : (eccFind s u words8).2 = true) (hs : isSync s u = true) : ¬Sound s u :=
  fun hv => by rw [eccFind_of_sound hs hv] at h; cases h

theorem lineKeeps_lineRecord {s : State} {n : N20} {u one : Nat} {two : Bool} (h : two = true → isSync s u = true → ¬Sound s u) :
    LineKeeps s (lineRecord s n u one two) := by
  have hbump := lineKeeps_rbump s (r := .cacheStat n) (by simp) 63 48 one
  unfold lineRecord
  dsimp only
  split
  next ht =>
    exact ((hbump.setPoison rfl (h ht) true).trans (lineKeeps_rbump _ (by simp) ..)).trans (lineKeeps_logEv ..)
  next => exact hbump

theorem lineKeeps_eccRecord {s : State} {u one : Nat} {two : Bool} (h : two = true → isSync s u = true → ¬Sound s u) :
    LineKeeps s (eccRecord s u one two) := by
  unfold eccRecord
  split
  next c unit hh =>
    have hbump := lineKeeps_rbump s (r := .spadStat c) (by simp) 63 48 one
    dsimp only
    split
    next ht =>
      exact (((hbump.setPoison rfl (h ht) true).trans (lineKeeps_rbump _ (by simp) ..)).trans (lineKeeps_rput _ (by simp) _)).trans
        (lineKeeps_logEv ..)
    next => exact hbump
  next => exact lineKeeps_lineRecord h
  next n hh =>
    split
    · exact lineKeeps_lineRecord h
    obtain ⟨t, ht, hbump, hecc⟩ : ∃ t, t = (if one = 0 then s else rbump s (.eccCnt n) 63 32 1) ∧ LineKeeps s t ∧ t.ecc = s.ecc := by
      refine ⟨_, rfl, ?_⟩
      split
      · exact ⟨.refl s, rfl⟩
      · exact ⟨lineKeeps_rbump _ (by simp) .., rfl⟩
    dsimp only
    rw [← ht]
    split
    next ht =>
      exact (((hbump.setPoison hecc (h ht) true).trans (lineKeeps_rbump _ (by simp) ..)).trans (lineKeeps_rput _ (by simp) _)).trans
        (lineKeeps_logEv ..)
    next => exact hbump
  next => exact .refl s

theorem lineKeeps_lineCheck (s : State) (u : Nat) : LineKeeps s (lineCheck s u) := by
  have hfound := not_sound_of_eccFind (s := s) (u := u)
  unfold lineCheck eccCheck
  split
  · dsimp only
    split
    · exact .refl s
    · exact lineKeeps_lineRecord hfound
  · split
    · exact lineKeeps_rbump _ (by simp) ..
    · dsimp only
      split
      · exact .refl s
      · exact lineKeeps_eccRecord hfound

/-- A code written afresh leaves no new error. -/
theorem lineKeeps_freshWords (s : State) (key : Nat → Nat) (ks : List Nat) : LineKeeps s (freshWords s key ks) := by
  refine ⟨rfl, rfl, rfl, fun _ => rfl, fun k hk => ?_, fun _ _ h => h⟩
  refine List.foldlRecOn (motive := fun t : Tab EccErr => tget t .none k = .none) ks _ hk fun t ht x _ => ?_
  by_cases hx : k = key x
  · rw [hx]; exact tget_tset_self ..
  · exact (tget_tset_ne _ _ _ _ hx).trans ht

theorem lineKeeps_dropLine (s : State) (u : Nat) : LineKeeps s (dropLine s u) := by
  refine ⟨rfl, rfl, rfl, fun _ => rfl, fun k hk => ?_, fun _ _ h => h⟩
  by_cases hin : lineErr u 0 ≤ k ∧ k < lineErr u 0 + 8
  · exact tget_tclear_in _ _ hin
  · exact (tget_tclear_out _ _ (by omega)).trans hk

theorem lineKeeps_evictLine (s : State) (u : Nat) : LineKeeps s (evictLine s u) := by
  unfold evictLine
  split
  · exact ((lineKeeps_lineCheck s u).trans (lineKeeps_freshWords ..)).trans (lineKeeps_dropLine ..)
  · exact lineKeeps_dropLine ..

theorem lineKeeps_evictWay (s : State) (n : N20) (u more : Nat) : LineKeeps s (evictWay s n u more) := by
  have hdraw : LineKeeps s (drawFree s).1 := ⟨rfl, rfl, rfl, fun _ => rfl, fun _ h => h, fun _ _ h => h⟩
  unfold evictWay
  split
  · exact .refl s
  · dsimp only
    split
    · exact .refl s
    · exact hdraw.trans (lineKeeps_evictLine ..)

end Sys2Proof.Machine

namespace Sys2Proof.Machine

/-- A plain write sets an RW field to the value written where the encoding is not reserved and nothing counts in this a-cycle (R9, R11, R182). -/
theorem rfld_plainWrite {s : State} {r : Reg} (hl : regLocal r = false) (hn : NoIncs s r) (f : FuncId) {v : W64} {x : Fld} (hx : x ∈ regFields r)
    (hacc : x.acc = .rw) (hok : x.okLo ≤ bits v x.hi x.lo ∧ bits v x.hi x.lo ≤ x.okHi) :
    rfld (plainWrite s f r v) r x.hi x.lo = bits v x.hi x.lo := by
  obtain ⟨-, hfld, -⟩ := plainWrite_spec s f r v
  have hval : regVal (plainWrite s f r v) f r = rget (plainWrite s f r v) r := by rw [regVal, if_neg (by rw [hl]; decide)]
  have hinc : incsOf s r x = 0 := by rw [incsOf, if_neg (by rw [hl]; decide)]; exact hn x.lo
  have h := hfld x hx
  rw [hval, fldAfter, hacc] at h
  simp only [hinc, if_pos hok, Nat.add_zero] at h
  have hlt : bits v x.hi x.lo < 2 ^ (x.hi + 1 - x.lo) := bits_lt ..
  exact h.trans (Nat.min_eq_right (by omega))

/-- The windows' registers and their words (R228). -/
theorem winWords_aligned (s : State) (n : N20) : ∃ b, winWords s n = (8 * b, 8 * rfld s (.syncWin n) 42 32) ∧
    b = (stkBase n + rfld s (.syncWin n) 19 0 * 0x10000) / 64 := by
  refine ⟨_, ?_, rfl⟩
  rw [winWords, stkBase]
  congr 1
  omega

/-- A window cleared holds empty words of value 0 without error, with clear tags. -/
theorem winClear_cleared {s : State} {n : N20} {b : Nat} (hw : winWords s n = (8 * b, 8 * rfld s (.syncWin n) 42 32)) :
    (∀ k, k < 8 * rfld s (.syncWin n) 42 32 → tget (winClear s n).syncw ⟨0, false⟩ (8 * b + k) = ⟨0, false⟩) ∧
      ∀ j, j < rfld s (.syncWin n) 42 32 → tget (winClear s n).syncp false (b + j) = false ∧ Sound (winClear s n) (b + j) := by
  unfold winClear
  rw [hw]
  dsimp only
  rw [Nat.mul_div_cancel_left _ (by decide), Nat.mul_div_cancel_left _ (by decide)]
  refine ⟨fun k hk => tget_tclear_in _ _ (by omega), fun j hj => ⟨tget_tclear_in _ _ (by omega), fun k hk => tget_tclear_in _ _ ?_⟩⟩
  unfold syncErr
  omega

/-- A window opened: EN is set, its words are empty and 0 with clear tags, and memory, the cores and the register's other bits are as before. -/
theorem openWin_opened (s : State) (n : N20) :
    (openWin s n).mem = s.mem ∧ (openWin s n).cores = s.cores ∧ rget (openWin s n) (.syncWin n) = putBits (rget s (.syncWin n)) 63 63 1 ∧
      ∀ k, k < 8 * rfld s (.syncWin n) 42 32 →
        tget (openWin s n).syncw ⟨0, false⟩ ((stkBase n + rfld s (.syncWin n) 19 0 * 0x10000) / 8 + k) = ⟨0, false⟩ ∧
          tget (openWin s n).syncp false ((stkBase n + rfld s (.syncWin n) 19 0 * 0x10000) / 64 + k / 8) = false := by
  set us := (List.range ((winWords s n).2 / 8)).map fun j => (winWords s n).1 / 8 + j with hus
  set t := (us.filter fun u => tget s.cached false u).foldl evictLine s with ht
  have hfirst : LineKeeps s t := .foldl lineKeeps_evictLine s _
  set p := rsetf t (.syncWin n) 63 63 1 with hp
  have hlast : LineKeeps (winClear p n) (openWin s n) := .foldl (fun s u => lineKeeps_evictWay s n u 0) _ us
  have hreg : rget p (.syncWin n) = putBits (rget s (.syncWin n)) 63 63 1 := by rw [hp, rget_rsetf_self, hfirst.windows]
  have hlines : rfld p (.syncWin n) 42 32 = rfld s (.syncWin n) 42 32 := by rw [hp, rfld_rsetf_apart _ _ _ (.inl (by decide)), rfld_congr (hfirst.windows n)]
  have hbase : rfld p (.syncWin n) 19 0 = rfld s (.syncWin n) 19 0 := by rw [hp, rfld_rsetf_apart _ _ _ (.inl (by decide)), rfld_congr (hfirst.windows n)]
  obtain ⟨b, hw, hb⟩ := winWords_aligned p n
  obtain ⟨hwords, hsound⟩ := winClear_cleared hw
  have hfirstWord : (stkBase n + rfld s (.syncWin n) 19 0 * 0x10000) / 8 = 8 * b := by
    rw [← hbase]; exact congrArg Prod.fst hw
  refine ⟨hlast.mem.trans hfirst.mem, hlast.cores.trans hfirst.cores, (hlast.windows n).trans hreg, fun k hk => ⟨?_, ?_⟩⟩
  · rw [hlast.words, hfirstWord]
    exact hwords k (by rw [hlines]; exact hk)
  · obtain ⟨hclear, hnone⟩ := hsound (k / 8) (by rw [hlines]; omega)
    rw [← hbase, ← hb]
    exact hlast.clear _ hnone hclear

/-- A write that enables a disabled window (R228). -/
theorem syncWinEnable_opens {s : State} {f : FuncId} {n : N20} {v : W64} (hok : HostOk s f (.syncWin n)) (hinc : NoIncs s (.syncWin n))
    (hen : bit v 63 = true) (hoff : rbit s (.syncWin n) 63 = false) (hlines : bits v 42 32 ≤ 1024) (hbase : bits v 19 0 ≤ 0xBFFFF) :
    ∃ u, exec (.syncWinEnable f n v) s = .next u ∧ rbit u (.syncWin n) 63 = true ∧ rfld u (.syncWin n) 42 32 = bits v 42 32 ∧
      rfld u (.syncWin n) 19 0 = bits v 19 0 ∧ u.mem = s.mem ∧ u.cores = s.cores ∧
      ∀ k, k < 8 * bits v 42 32 → tget u.syncw ⟨0, false⟩ ((stkBase n + bits v 19 0 * 0x10000) / 8 + k) = ⟨0, false⟩ ∧
        tget u.syncp false ((stkBase n + bits v 19 0 * 0x10000) / 64 + k / 8) = false := by
  set p := plainWrite s f (.syncWin n) (putBits v 63 63 0) with hp
  obtain ⟨⟨hrest⟩, -⟩ := plainWrite_spec s f (.syncWin n) (putBits v 63 63 0)
  have hput (hi lo : Nat) (h : hi < 63) : bits (putBits v 63 63 0) hi lo = bits v hi lo := bits_putBits_apart _ _ (.inl h)
  have hl : rfld p (.syncWin n) 42 32 = bits v 42 32 := by
    rw [← hput 42 32 (by decide)]
    exact rfld_plainWrite rfl hinc f (x := flE .rw 42 32 0 0 1024) (by simp [regFields]) rfl
      ⟨Nat.zero_le _, (hput 42 32 (by decide)).le.trans hlines⟩
  have hb : rfld p (.syncWin n) 19 0 = bits v 19 0 := by
    rw [← hput 19 0 (by decide)]
    exact rfld_plainWrite rfl hinc f (x := flE .rw 19 0 0 0 0xBFFFF) (by simp [regFields]) rfl
      ⟨Nat.zero_le _, (hput 19 0 (by decide)).le.trans hbase⟩
  have hexec : exec (.syncWinEnable f n v) s = .next (openWin p n) := by
    show execSyncWinEnable f n v s = _
    simp only [execSyncWinEnable, hen, if_true, hok.hostWrite, writeSyncWin, hoff, Bool.false_eq_true, if_false]
    rfl
  obtain ⟨hmem, hcores, hreg, hwords⟩ := openWin_opened p n
  refine ⟨_, hexec, ?_, ?_, ?_, hmem.trans (congrArg State.mem hrest :), hcores.trans (congrArg State.cores hrest :), ?_⟩
  · rw [rbit_eq, rfld, hreg, bits_putBits_self _ _ (by decide)]
    rfl
  · rw [rfld, hreg, bits_putBits_apart _ _ (.inl (by decide))]
    exact hl
  · rw [rfld, hreg, bits_putBits_apart _ _ (.inl (by decide))]
    exact hb
  · rw [← hl, ← hb]
    exact hwords

/-- A write that disables a window on whose lines nothing waits (R227, R228). -/
theorem syncWinDisable_closes {s : State} {f : FuncId} {n : N20} {v : W64} (hok : HostOk s f (.syncWin n)) (hen : bit v 63 = false)
    (hon : rbit s (.syncWin n) 63 = true) (hlines : bits v 42 32 = rfld s (.syncWin n) 42 32) (hbase : bits v 19 0 = rfld s (.syncWin n) 19 0)
    (hbusy : winBusy s n = false) :
    ∃ u, exec (.syncWinDisable f n v) s = .next u ∧ rbit u (.syncWin n) 63 = false ∧ rfld u (.syncWin n) 42 32 = bits v 42 32 ∧
      rfld u (.syncWin n) 19 0 = bits v 19 0 ∧ u.mem = s.mem ∧ u.cores = s.cores ∧ u.log = s.log := by
  have hexec : exec (.syncWinDisable f n v) s = .next (rsetf (winClear s n) (.syncWin n) 63 63 0) := by
    show execSyncWinDisable f n v s = _
    simp [execSyncWinDisable, hen, hok.hostWrite, writeSyncWin, hon, hlines, hbase, hbusy]
  refine ⟨_, hexec, ?_, ?_, ?_, rfl, rfl, rfl⟩
  · rw [rbit_eq, rfld_rsetf_self _ _ (by decide) (by decide)]
    rfl
  · rw [rfld_rsetf_apart _ _ _ (.inl (by decide)), hlines]
    rfl
  · rw [rfld_rsetf_apart _ _ _ (.inl (by decide)), hbase]
    rfl

end Sys2Proof.Machine

namespace Sys2Proof.Machine

/-! Writes to the counters, their modes and the generators (R50, R238, R239). -/

/-- Where no operation waits, a counter serves nothing. -/
theorem semServe_none {s : State} {c : CoreId} (h : (getCore s c).semOps = []) (n : Nat) : semServe s c n = s := by
  rw [semServe, h]
  rfl

/-- Counters from b on, set one after another where no operation waits: each has its value, and the core's other counters are as before. -/
theorem counters_set {s : State} {c : CoreId} (h : (getCore s c).semOps = []) (b : Nat) (x : Nat → Nat) (m : Nat) :
    ∃ t, CoreTo s ((List.range m).foldl (fun s j => semServe (semPut s c (b + j) (x j)) c (b + j)) s) c { getCore s c with sem := t } True ∧
      (∀ j, j < m → tget t 0 (b + j) = x j) ∧ ∀ n, n < b ∨ b + m ≤ n → tget t 0 n = semGet s c n := by
  induction m with
  | zero => exact ⟨_, .refl s c True, fun j hj => absurd hj (Nat.not_lt_zero j), fun _ _ => rfl⟩
  | succ m ih =>
    obtain ⟨t, hto, hset, hkept⟩ := ih
    rw [List.range_succ, List.foldl_append, List.foldl_cons, List.foldl_nil]
    generalize (List.range m).foldl (fun s j => semServe (semPut s c (b + j) (x j)) c (b + j)) s = u at hto ⊢
    have hput : CoreTo s (semPut u c (b + m) (x m)) c { getCore s c with sem := tset t 0 (b + m) (x m) } True := by
      rw [semPut, hto.core]
      exact hto.put
    rw [semServe_none (by rw [hput.core]; exact h)]
    refine ⟨_, hput, fun j hj => ?_, fun n hn => ?_⟩
    · by_cases hjm : j = m
      · rw [hjm]; exact tget_tset_self ..
      · exact (tget_tset_ne _ _ _ _ (by omega)).trans (hset j (by omega))
    · exact (tget_tset_ne _ _ _ _ (by omega)).trans (hkept n (by omega))

/-- A write of four counters of a core in which no operation waits on one (R239). -/
theorem semCntWrite_sets {s : State} {f : FuncId} {c : CoreId} {k : Fin 64} (hok : HostOk s f (.semCnt c k)) (h : (getCore s c).semOps = []) (v : W64) :
    ∃ u, exec (.semCntWrite f c k v) s = .next u ∧ (∀ j, j < 4 → semGet u c (4 * k.val + j) = bits v (16 * j + 15) (16 * j)) ∧
      (∀ n, n < 4 * k.val ∨ 4 * k.val + 4 ≤ n → semGet u c n = semGet s c n) ∧ SameMemory s u ∧ u.regs = s.regs ∧
      (∀ e : EngId, getEng u c e = getEng s c e) ∧ (∀ y : CoreId, y ≠ c → getCore u y = getCore s y) := by
  have hexec : exec (.semCntWrite f c k v) s = .next (writeSemCnt s c k v) := congrArg Host.Outcome.next (hok.hostWrite ..)
  obtain ⟨t, hto, hset, hkept⟩ := counters_set h (4 * k.val) (fun j => bits v (16 * j + 15) (16 * j)) 4
  change CoreTo s (writeSemCnt s c k v) c _ True at hto
  have hget (n : Nat) : semGet (writeSemCnt s c k v) c n = tget t 0 n := by rw [semGet, hto.core]
  obtain ⟨-, -, -, -, -, hrest⟩ := hto.else_
  refine ⟨_, hexec, fun j hj => (hget _).trans (hset j hj), fun n hn => (hget n).trans (hkept n hn), hto.memory, (hrest trivial).1, fun e => ?_, hto.others⟩
  exact hto.eng e

/-- A write of the modes leaves the mode that an operation of the same a-cycle meets (R238). -/
theorem semModeWrite_modes {s : State} {f : FuncId} {c : CoreId} (hok : HostOk s f (.semMode c)) (hinc : NoIncs s (.semMode c)) (v : W64) :
    ∃ u, exec (.registerWrite f (BitVec.ofNat 26 (regOff (.semMode c))) 8 v) s = .next u ∧
      rfld u (.semMode c) 3 0 = bits v 3 0 ∧ (∀ n, n < 256 → semWrap u c n = semWrap s c n) ∧ u.now = s.now ∧ SameMemory s u := by
  set k := getCore s c with hk
  set was := if k.modeAt = s.now then k.modeWas else rfld s (.semMode c) 3 0 with hwas
  set p := putCore s c { k with modeAt := s.now, modeWas := was } with hp
  have hexec : exec (.registerWrite f (BitVec.ofNat 26 (regOff (.semMode c))) 8 v) s = .next (plainWrite p f (.semMode c) v) := by
    rw [exec_registerWrite_regOff hok.exist, hok.hostWrite]
    rfl
  obtain ⟨⟨hrest⟩, -⟩ := plainWrite_spec p f (.semMode c) v
  have hfld : rfld (plainWrite p f (.semMode c) v) (.semMode c) 3 0 = bits v 3 0 :=
    rfld_plainWrite (s := p) rfl hinc f (x := fl .rw 3 0) (by simp [regFields]) rfl
      ⟨Nat.zero_le _, (show bits v 3 0 < 2 ^ 4 from bits_lt ..).le.trans (by decide)⟩
  generalize plainWrite p f (.semMode c) v = u at hexec hrest hfld
  refine ⟨_, hexec, hfld, fun n hn => ?_, (congrArg State.now hrest :), by rw [hrest]; constructor <;> rfl⟩
  have hcore : getCore u c = { k with modeAt := s.now, modeWas := was } := by
    rw [getCore, (congrArg State.cores hrest :)]
    exact getCore_putCore ..
  have hnow : u.now = s.now := (congrArg State.now hrest :)
  have hmode : (rfld s (.semMode c) 3 0).testBit (n / 64) = rbit s (.semMode c) (n / 64) := by
    rw [rfld, testBit_bits, Nat.zero_add, decide_eq_true (show n / 64 < 3 + 1 - 0 by omega), Bool.true_and]
    rfl
  simp only [semWrap, hcore, hnow, if_true, hwas]
  split
  · rfl
  · exact hmode

theorem bits_ofNat_low {x : Nat} (h : x < 2 ^ 32) : bits (BitVec.ofNat 64 x) 31 0 = x := by
  rw [bits, BitVec.toNat_ofNat, Nat.shiftRight_zero]
  omega

/-- A generator loaded by the host (R50). -/
theorem srngSeedWrite_loads {s : State} {f : FuncId} {n : N20} (hok : HostOk s f (.srng n)) (v : W64) :
    ∃ u, exec (.srngSeedWrite f n v) s = .next u ∧ rfld u (.srng n) 31 0 = (if bits v 31 0 = 0 then 1 else bits v 31 0) ∧
      (∀ r, r ≠ .srng n → rget u r = rget s r) ∧ u = { s with regs := u.regs } := by
  refine ⟨_, congrArg Host.Outcome.next (hok.hostWrite ..), ?_, fun r hr => rget_rput_of_ne _ _ hr, rfl⟩
  have hlt : bits v 31 0 < 2 ^ 32 := bits_lt ..
  rw [writeSrng, rfld, rget_rput, bits_ofNat_low (by split <;> omega)]

end Sys2Proof.Machine

namespace Sys2Proof.Machine

/-! A host operation alone at its word (R232). -/

/-- Only FULL and OFFSET of a core's SYNC_HOST_ADDR, and the list of operations, differ. -/
structure HostTouches (s u : State) (c : CoreId) : Prop where
  rest : u = { s with regs := u.regs, feOps := u.feOps, nextOp := u.nextOp }
  others : ∀ r, r ≠ .hostAddr c → rget u r = rget s r

theorem pageRetired_congr {s u : State} (hc : ∀ n, rget u (.retireStat n) = rget s (.retireStat n))
    (hl : ∀ n k, rget u (.retireList n k) = rget s (.retireList n k)) (n : N20) (p : Nat) : pageRetired u n p = pageRetired s n p := by
  simp only [pageRetired, rfld_congr (hc n), rfld_congr (hl n _)]

section HostTouches
variable {s u : State} {c : CoreId} (h : HostTouches s u c)
include h

theorem HostTouches.cell (a : Nat) : feCell u a = feCell s a := feCell_congr (fun n => h.others _ (by simp)) a

theorem HostTouches.full (x : FeCell) : feFull u x = feFull s x := feFull_of_same (congrArg State.feb h.rest :) (congrArg State.syncw h.rest :) x

theorem HostTouches.home (k : Nat) : homeOf u k = homeOf s k := by
  unfold homeOf
  split
  · rfl
  · rw [inWindow_congr (h.others _ (by simp)), pageRetired_congr (fun n => h.others _ (by simp)) fun n k => h.others _ (by simp)]
  · rfl

theorem HostTouches.value (a : Nat) : feValue u a = feValue s a := by
  refine feValue_congr ?_
  unfold unitBytes
  rw [h.home, (congrArg State.syncw h.rest :), (congrArg State.mem h.rest :)]

theorem HostTouches.memory : SameMemory s u := by
  rw [h.rest]
  constructor <;> rfl

end HostTouches

/-- An address less than 4 MiB above the base of a scratchpad lies in it. -/
theorem feCell_pad (s : State) (c : CoreId) {w o : Nat} (ho : o < 0x400000) (hw : w = 0xF0000000000 + c.val * 0x400000 + o) :
    feCell s w = .unit c (w / 64) := by
  have hc := c.isLt
  obtain ⟨d, o, hp⟩ := placeOf_pad (a := w) (by omega) (by omega)
  obtain ⟨-, hd⟩ := placeOf_eq_pad hp
  have hsame : d = c := Fin.ext (by omega)
  simp only [feCell, hp, hsame]

/-- The word that a value of SYNC_HOST_ADDR names lies in the core's scratchpad. -/
theorem feCell_hostWord (s : State) (c : CoreId) (v : W64) : feCell s (hostWord c v) = .unit c (hostWord c v / 64) := by
  have hlt : bits v 20 0 < 2 ^ 21 := bits_lt ..
  exact feCell_pad s c (o := 2 * bits v 20 0) ((Nat.mul_lt_mul_left (by decide)).2 hlt) (by rw [hostWord, padBase])

/-- The host operation as it joins the list. -/
def hostOpOf (s : State) (f : FuncId) (kind : FeKind) (a : Nat) (v : W64) : FeOp :=
  ⟨s.nextOp, .host f, kind, a, false, v, none, s.now, 0, 0, false, s.now, none⟩

/-- The state in which it has joined the list. -/
def hostListed (s : State) (f : FuncId) (kind : FeKind) (a : Nat) (v : W64) : State :=
  { s with feOps := s.feOps ++ [hostOpOf s f kind a v], nextOp := s.nextOp + 1 }

/-- No operation on its way to the word reaches it before a host operation of function f that arrives now. -/
def HostFirst (s : State) (f : FuncId) (a : Nat) : Prop :=
  ∀ y ∈ s.feOps, feCell s y.addr = feCell s a →
    y.src ≠ .host f ∧ (y.isLocal = true → y.waiting = true ∨ y.got.isSome = true ∨ s.now < y.due)

theorem mem_feOnWay {s : State} {a : Nat} {y : FeOp} (h : y ∈ feOnWay s a) :
    y ∈ s.feOps ∧ feCell s y.addr = feCell s a ∧ y.waiting = false ∧ y.got.isSome = false := by
  obtain ⟨hy, hp⟩ := List.mem_filter.1 h
  simp only [Bool.and_eq_true, beq_iff_eq, Bool.not_eq_true', Option.isNone_iff_eq_none] at hp
  obtain ⟨⟨⟨hcell, -⟩, hwait⟩, hgot⟩ := hp
  exact ⟨hy, hcell, hwait, by rw [hgot]; rfl⟩

/-- A host operation that is the first at its word is applied there. -/
theorem hostReach_first {s : State} {f : FuncId} {a : Nat} (h : HostFirst s f a) {rem : List Nat} (hrem : feRemote s a rem = []) (kind : FeKind) (v : W64) :
    hostReach s f kind a v rem = fePush (feApply (hostListed s f kind a v) (hostOpOf s f kind a v)) (hostOpOf s f kind a v) := by
  have hdue (p : FeOp → Bool) (hp : ∀ y, p y = true → y.due ≤ s.now) : ((feOnWay s a).filter FeOp.isLocal).filter p = [] := by
    rw [List.filter_eq_nil_iff]
    intro y hy hpy
    obtain ⟨hmem, hloc⟩ := List.mem_filter.1 hy
    obtain ⟨hin, hcell, hwait, hgot⟩ := mem_feOnWay hmem
    obtain ⟨-, hlate⟩ := h y hin hcell
    rcases hlate hloc with hw | hg | hd
    · rw [hwait] at hw; cases hw
    · rw [hgot] at hg; cases hg
    · exact absurd (hp y hpy) (by omega)
  have hmine : (feOnWay s a).filter (fun y => y.src == .host f) = [] := by
    rw [List.filter_eq_nil_iff]
    intro y hy hsrc
    obtain ⟨hin, hcell, -, -⟩ := mem_feOnWay hy
    exact (h y hin hcell).1 (eq_of_beq hsrc)
  unfold hostReach
  simp only [hdue (fun y => decide (y.due < s.now)) fun y hy => (of_decide_eq_true hy).le, hdue (fun y => y.due == s.now) fun y hy => (eq_of_beq hy).le,
    show sortBy (α := FeOp) _ [] = [] from rfl, List.foldl_nil, hmine, hrem, List.nil_append, feTogether, sortBy_singleton, List.foldl_cons]
  rfl

/-- SYNC_HOST_ADDR once an operation on the word that v names has found its state (R232). -/
def hostNoted (s : State) (c : CoreId) (v : W64) (b : Bool) : State := hostFound (rsetf s (.hostAddr c) 20 0 (bits v 20 0)) c b

theorem hostNoted_others (s : State) (c : CoreId) (v : W64) (b : Bool) {r : Reg} (hr : r ≠ .hostAddr c) : rget (hostNoted s c v b) r = rget s r :=
  (rget_rsetf_of_ne _ _ _ _ hr).trans (rget_rsetf_of_ne s _ _ _ hr)

theorem hostNoted_full (s : State) (c : CoreId) (v : W64) (b : Bool) : rbit (hostNoted s c v b) (.hostAddr c) 23 = b := by
  rw [rbit_eq, hostNoted, hostFound, rfld_rsetf_self _ _ (by decide) (by cases b <;> decide)]
  cases b <;> rfl

theorem hostNoted_offset (s : State) (c : CoreId) (v : W64) (b : Bool) : rfld (hostNoted s c v b) (.hostAddr c) 20 0 = bits v 20 0 := by
  rw [hostNoted, hostFound, rfld_rsetf_apart _ _ _ (.inl (by decide)), rfld_rsetf_self _ _ (by decide) (bits_lt ..)]

section Arrived
variable {s : State} {f : FuncId} {c : CoreId} {v : W64} {w : Nat} {x : FeCell}

/-- The state in which a host operation has found its cell and has left the list again. -/
def hostArrived (s : State) (c : CoreId) (v : W64) (x : FeCell) : State :=
  { hostNoted s c v (feFull s x) with feOps := s.feOps.filter fun y => y.id != s.nextOp, nextOp := s.nextOp + 1 }

theorem hostArrived_touches (s : State) (c : CoreId) (v : W64) (x : FeCell) : HostTouches s (hostArrived s c v x) c :=
  ⟨rfl, fun _ hr => hostNoted_others s c v _ hr⟩

theorem hostArrived_waiters (h : feWaiters s x = []) (c : CoreId) (v : W64) (y : FeCell) : feWaiters (hostArrived s c v y) x = [] :=
  feWaiters_eq_nil.2 fun z hz hw => by
    rw [(hostArrived_touches s c v y).cell]
    exact feWaiters_eq_nil.1 h z (List.mem_of_mem_filter hz) hw

theorem feCell_rsetf_host (s : State) (c : CoreId) (hi lo y a : Nat) : feCell (rsetf s (.hostAddr c) hi lo y) a = feCell s a :=
  feCell_congr (fun _ => rget_rsetf_of_ne s _ _ _ (by simp)) a

/-- The remote operations that may reach a word do not depend on SYNC_HOST_ADDR. -/
theorem feRemote_rsetf (s : State) (c : CoreId) (hi lo y a : Nat) (rem : List Nat) : feRemote (rsetf s (.hostAddr c) hi lo y) a rem = feRemote s a rem := by
  unfold feRemote feOnWay
  simp only [feCell_rsetf_host]
  rfl

/-- A host operation of kind k that joins the list, finds its cell and leaves. -/
theorem dropFe_found (s : State) (f : FuncId) (c : CoreId) (v : W64) (k : FeKind) (w u : Nat) (val : W64) :
    dropFe (noteFound (hostListed (rsetf s (.hostAddr c) 20 0 (bits v 20 0)) f k w val) (.unit c u) (.host f)) s.nextOp =
      hostArrived s c v (.unit c u) := by
  have hleft (op : FeOp) (hid : op.id = s.nextOp) : (s.feOps ++ [op]).filter (fun y => y.id != s.nextOp) = s.feOps.filter fun y => y.id != s.nextOp := by
    rw [List.filter_append, List.filter_singleton, hid, bne_self_eq_false]
    exact List.append_nil _
  exact congrArg (fun l => { hostNoted s c v (feFull s (.unit c u)) with feOps := l, nextOp := s.nextOp + 1 }) 
    (hleft (hostOpOf (rsetf s (.hostAddr c) 20 0 (bits v 20 0)) f k w val) rfl)

section
variable (h : HostFirst s f w) (hx : feCell s w = .unit c (w / 64)) {rem : List Nat} (hrem : feRemote s w rem = [])
include h hx hrem

/-- A host operation that is the first at its word, applied there. -/
theorem hostReach_applies (k : FeKind) (val : W64) : ∃ t op, t = hostListed (rsetf s (.hostAddr c) 20 0 (bits v 20 0)) f k w val ∧
    op = hostOpOf (rsetf s (.hostAddr c) 20 0 (bits v 20 0)) f k w val ∧
    hostReach (rsetf s (.hostAddr c) 20 0 (bits v 20 0)) f k w val rem = fePush (feApply t op) op ∧
    t.feOps.any (fun y => y.id == op.id) = true ∧ feCell t op.addr = .unit c (w / 64) := by
  have hfirst : HostFirst (rsetf s (.hostAddr c) 20 0 (bits v 20 0)) f w := fun y hy hc => h y hy (by rwa [feCell_rsetf_host, feCell_rsetf_host] at hc)
  refine ⟨_, _, rfl, rfl, hostReach_first hfirst (by rw [feRemote_rsetf]; exact hrem) .., ?_, (feCell_rsetf_host s c 20 0 _ w).trans hx⟩
  exact List.any_eq_true.2 ⟨_, List.mem_append_right _ (List.mem_singleton_self _), beq_self_eq_true _⟩

/-- A host's FILL that is the first at its word is applied there, and leaves the list (R221, R232). -/
theorem hostReach_fill (val : W64) : ∃ op, hostReach (rsetf s (.hostAddr c) 20 0 (bits v 20 0)) f .fill w val rem =
    fePush (feFill (hostArrived s c v (.unit c (w / 64))) (.host f) w val) op := by
  obtain ⟨t, op, ht, hop, hreach, hlisted, hcell⟩ := hostReach_applies (v := v) h hx hrem .fill val
  refine ⟨op, hreach.trans (congrArg (fePush · op) ?_)⟩
  rw [feApply_eq hlisted hcell (by simp) rfl, hop, ht]
  rw [← dropFe_found s f c v .fill w (w / 64) val]
  rfl

/-- A host's DRAIN likewise. -/
theorem hostReach_drain (val : W64) : ∃ op, hostReach (rsetf s (.hostAddr c) 20 0 (bits v 20 0)) f .drain w val rem =
    fePush (feSet (hostArrived s c v (.unit c (w / 64))) (.unit c (w / 64)) false) op := by
  obtain ⟨t, op, ht, hop, hreach, hlisted, hcell⟩ := hostReach_applies (v := v) h hx hrem .drain val
  refine ⟨op, hreach.trans (congrArg (fePush · op) ?_)⟩
  rw [feApply_eq hlisted hcell (by simp) rfl, hop, ht]
  rw [← dropFe_found s f c v .drain w (w / 64) val]
  rfl

end

end Arrived

end Sys2Proof.Machine

namespace Sys2Proof.Machine

/-! Writes to SYNC_HOST_ADDR (R232, R404, R415). -/

/-- While the core's slice takes no access under a new key, the write has not reached it (log 123). -/
theorem hostOp_held {s : State} {c : CoreId} (h : sectRekeys s (coreSect c) = true) (v : W64) (act : State → State) : hostOp s c v act = s := by
  rw [hostOp, if_pos h]

/-- An aligned OFFSET in a core of a slice: the operation is performed. -/
theorem hostOp_performed {s : State} {c : CoreId} {v : W64} (hkey : sectRekeys s (coreSect c) = false) (hslice : (coreSlice s c).isSome = true)
    (hal : bits v 1 0 = 0) (act : State → State) : hostOp s c v act = act (rsetf s (.hostAddr c) 20 0 (bits v 20 0)) := by
  have hsame : coreSlice (rsetf s (.hostAddr c) 20 0 (bits v 20 0)) c = coreSlice s c := sectSlice_congr (rget_rsetf_of_ne s _ _ _ (by simp))
  have hnot : ¬(coreSlice s c).isNone = true := by
    obtain ⟨x, hx⟩ := Option.isSome_iff_exists.1 hslice
    rw [hx]
    exact Bool.false_ne_true
  rw [hostOp, if_neg (by rw [hkey]; decide)]
  dsimp only
  rw [if_neg (by rw [hal]; decide), hsame, if_neg hnot]

/-- Is a held access a BAR2 write of function f? -/
def heldWrite (f : FuncId) : HeldAcc → Bool
  | .write g _ _ => g == f
  | _ => false

theorem hostFill_eq (s : State) (f : FuncId) (a : Nat) (v : W64) (rem : List Nat) : hostFill s f a v rem =
    if s.held.any (heldWrite f) then { s with held := s.held ++ [.fill f a v] } else hostReach s f .fill a v rem := rfl

section Exec
variable {s : State} {f : FuncId} {c : CoreId} {v : W64} (hok : HostOk s f (.hostAddr c))
include hok

theorem exec_syncHostFill (hop : bits v 22 21 = 1) (rem : List Nat) : exec (.syncHostFill f c ⟨v, rem⟩) s =
    .next (hostOp s c v fun s => hostFill s f (hostWord c v) (rget s (.hostData c)) rem) := by
  show execSyncHostFill f c ⟨v, rem⟩ s = _
  simp only [execSyncHostFill, hop, if_true, hok.hostWrite, writeHostAddr]

theorem exec_syncHostDrain (hop : bits v 22 21 = 2) (rem : List Nat) : exec (.syncHostDrain f c ⟨v, rem⟩) s =
    .next (hostOp s c v fun s => hostReach s f .drain (hostWord c v) 0 rem) := by
  show execSyncHostDrain f c ⟨v, rem⟩ s = _
  simp only [execSyncHostDrain, hop, if_true, hok.hostWrite, writeHostAddr]

theorem exec_syncHostRead (hop : bits v 22 21 = 3) : exec (.syncHostRead f c v) s = .next (hostOp s c v fun s =>
    rput (hostFound (touchUnit s (hostWord c v / 64)) c (feFull (touchUnit s (hostWord c v / 64)) (feCell (touchUnit s (hostWord c v / 64)) (hostWord c v))))
      (.hostData c) (feValue (touchUnit s (hostWord c v / 64)) (hostWord c v))) := by
  show execSyncHostRead f c v s = _
  simp only [execSyncHostRead, hop, if_true, hok.hostWrite, writeHostAddr]

end Exec

section Word
variable {s : State} {f : FuncId} {c : CoreId} {v : W64} {w : Nat}

theorem rget_hostArrived (s : State) (c : CoreId) (v : W64) (x : FeCell) (r : Reg) : rget (hostArrived s c v x) r = rget (hostNoted s c v (feFull s x)) r :=
  rget_congr rfl r

theorem hostArrived_full (s : State) (c : CoreId) (v : W64) (x : FeCell) : rbit (hostArrived s c v x) (.hostAddr c) 23 = feFull s x := by
  rw [rbit, rget_hostArrived]
  exact hostNoted_full ..

theorem hostArrived_offset (s : State) (c : CoreId) (v : W64) (x : FeCell) : rfld (hostArrived s c v x) (.hostAddr c) 20 0 = bits v 20 0 :=
  (rfld_congr (rget_hostArrived ..) ..).trans (hostNoted_offset ..)

/-- The registers after a later arrival of what follows at the word. -/
theorem rget_fePush (t : State) (op : FeOp) (r : Reg) : rget (fePush t op) r = rget t r := by rw [fePush_rest]; rfl

variable (h : HostFirst s f w) (hx : feCell s w = .unit c (w / 64)) {rem : List Nat} (hrem : feRemote s w rem = [])
include h hx hrem

/-- A host's FILL of an empty word (R221, R232). -/
theorem hostFill_empty (hecc : s.ecc = []) (hwait : feWaiters s (feCell s w) = []) (he : feFull s (feCell s w) = false) (val : W64) :
    ∃ u, hostReach (rsetf s (.hostAddr c) 20 0 (bits v 20 0)) f .fill w val rem = u ∧ rbit u (.hostAddr c) 23 = false ∧ feFull u (feCell s w) = true ∧
      feValue u w = val ∧ (∀ b, b / 8 ≠ w / 8 → feValue u b = feValue s b) ∧ u.cores = s.cores ∧ rfld u (.hostAddr c) 20 0 = bits v 20 0 := by
  rw [hx] at hwait he ⊢
  obtain ⟨op, hreach⟩ := hostReach_fill (v := v) h hx hrem val
  have htouch := hostArrived_touches s c v (.unit c (w / 64))
  have hfound := hostArrived_full s c v (.unit c (w / 64))
  have hoffset := hostArrived_offset s c v (.unit c (w / 64))
  have hnone := hostArrived_waiters hwait c v (.unit c (w / 64))
  generalize hostArrived s c v (.unit c (w / 64)) = d at hreach htouch hfound hoffset hnone
  have hcell : feCell d w = .unit c (w / 64) := (htouch.cell w).trans hx
  obtain ⟨⟨hrest⟩, hfull, hvalue⟩ := feFill_empty (s := d) (a := w) (htouch.memory.ecc.trans hecc) (by rw [hcell]; simp)
    (by rw [hcell, htouch.full, he])
    (by rw [hcell]; exact hnone) (.host f) val
  rw [hcell] at hfull
  generalize feFill d (.host f) w val = u at hreach hrest hfull hvalue
  have hregs (r : Reg) : rget (fePush u op) r = rget d r := (rget_fePush ..).trans (rget_congr (congrArg State.regs hrest :) r)
  refine ⟨_, hreach, by rw [rbit, hregs]; exact hfound.trans he, ?_, ?_, fun b hb => ?_, ?_, (rfld_congr (hregs _) ..).trans hoffset⟩
  · rw [fePush_rest]; exact hfull
  · rw [fePush_rest]; exact (hvalue w).trans (if_pos rfl)
  · rw [fePush_rest]; exact ((hvalue b).trans (if_neg hb)).trans (htouch.value b)
  · rw [fePush_rest]; exact (congrArg State.cores hrest :).trans (congrArg State.cores htouch.rest :)

/-- A host's FILL of a full word (R221, R232). -/
theorem hostFill_full (he : feFull s (feCell s w) = true) (val : W64) :
    ∃ u e, hostReach (rsetf s (.hostAddr c) 20 0 (bits v 20 0)) f .fill w val rem = u ∧ rbit u (.hostAddr c) 23 = true ∧ feFull u (feCell s w) = true ∧
      SameMemory s u ∧ u.cores = s.cores ∧ rfld u (.syncStat c) 63 48 = min 65535 (rfld s (.syncStat c) 63 48 + 1) ∧ rbit u (.syncStat c) 1 = true ∧
      u.log.inFlight = s.log.inFlight ++ [e] ∧ e.cause = stCode .feOverflow ∧ e.cls = clsNone ∧ e.inst = f.val := by
  rw [hx] at he ⊢
  obtain ⟨op, hreach⟩ := hostReach_fill (v := v) h hx hrem val
  have htouch := hostArrived_touches s c v (.unit c (w / 64))
  have hfound := hostArrived_full s c v (.unit c (w / 64))
  generalize hostArrived s c v (.unit c (w / 64)) = d at hreach htouch hfound
  have hcell : feCell d w = .unit c (w / 64) := (htouch.cell w).trans hx
  rw [feFill_full (by rw [hcell, htouch.full, he]), hcell] at hreach
  have hover := feOverflow_overflowed (x := .unit c (w / 64)) (by simp) d (.host f) w
  generalize feOverflow d (.unit c (w / 64)) (.host f) w = u at hreach hover
  obtain ⟨hrest, hcount, hflag, hothers, e, hev, hcause, hcls, hinst⟩ := id hover
  have hmemory : SameMemory s (fePush u op) :=
    SameMemory_trans (SameMemory_trans htouch.memory hover.memory) (by rw [fePush_rest]; constructor <;> rfl)
  refine ⟨_, e, hreach, ?_, (feFull_of_same hmemory.feb hmemory.syncw _).trans he, hmemory, ?_, ?_, ?_, ?_, hcause, hcls, hinst f rfl⟩
  · rw [rbit, rget_fePush, hothers _ (by simp [ovfReg])]; exact hfound.trans he
  · rw [fePush_rest]; exact (congrArg State.cores hrest :).trans (congrArg State.cores htouch.rest :)
  · rw [rfld_congr (rget_fePush ..), ← rfld_congr (htouch.others (.syncStat c) (by simp))]; exact hcount
  · rw [rbit, rget_fePush]; exact hflag
  · rw [fePush_rest]; exact hev.trans (by rw [(congrArg State.log htouch.rest :)])

/-- A host's DRAIN (R220, R232). -/
theorem hostDrain_drains : ∃ u, hostReach (rsetf s (.hostAddr c) 20 0 (bits v 20 0)) f .drain w 0 rem = u ∧
    rbit u (.hostAddr c) 23 = feFull s (feCell s w) ∧ feFull u (feCell s w) = false ∧ (∀ b, feValue u b = feValue s b) ∧ u.cores = s.cores := by
  rw [hx]
  obtain ⟨op, hreach⟩ := hostReach_drain (v := v) h hx hrem 0
  have htouch := hostArrived_touches s c v (.unit c (w / 64))
  have hfound := hostArrived_full s c v (.unit c (w / 64))
  generalize hostArrived s c v (.unit c (w / 64)) = d at hreach htouch hfound
  refine ⟨_, hreach, ?_, ?_, fun b => ?_, ?_⟩
  · rw [rbit, rget_fePush]; exact hfound
  · rw [fePush_rest]; exact feFull_feSet (x := .unit c (w / 64)) (by simp) d false
  · rw [fePush_rest]; exact (feValue_feSet d (.unit c (w / 64)) false b).trans (htouch.value b)
  · rw [fePush_rest]; exact (congrArg State.cores htouch.rest :)

omit h hrem in
/-- A host's READ copies the word and its state (R232). -/
theorem hostRead_copies (hecc : s.ecc = []) : ∃ u, (let t := rsetf s (.hostAddr c) 20 0 (bits v 20 0)
    rput (hostFound (touchUnit t (w / 64)) c (feFull (touchUnit t (w / 64)) (feCell (touchUnit t (w / 64)) w))) (.hostData c)
      (feValue (touchUnit t (w / 64)) w)) = u ∧ rbit u (.hostAddr c) 23 = feFull s (feCell s w) ∧ rget u (.hostData c) = feValue s w ∧
      feFull u (feCell s w) = feFull s (feCell s w) ∧ SameMemory s u ∧ u.cores = s.cores := by
  have htouch : HostTouches s (rsetf s (.hostAddr c) 20 0 (bits v 20 0)) c := ⟨rfl, fun r hr => rget_rsetf_of_ne s _ _ _ hr⟩
  have hread : touchUnit (rsetf s (.hostAddr c) 20 0 (bits v 20 0)) (w / 64) = rsetf s (.hostAddr c) 20 0 (bits v 20 0) :=
    touchUnit_word (s := rsetf s (.hostAddr c) 20 0 (bits v 20 0)) (a := w) hecc (by rw [htouch.cell, hx]; simp)
  dsimp only
  rw [hread, htouch.cell, htouch.full, htouch.value]
  have hfound := hostNoted_full s c v (feFull s (feCell s w))
  rw [hostNoted] at hfound
  refine ⟨_, rfl, ?_, rget_rput .., rfl, by constructor <;> rfl, rfl⟩
  rw [rbit, rget_rput_of_ne _ _ (by simp)]
  exact hfound

end Word

/-- Settles O32: a host operation that is the first at its word is applied there; the other writes set registers, counters and windows. -/
theorem syncRegistersAreWritten : Obligations.SyncRegistersAreWritten := by
  refine ⟨⟨fun s f c v hok hslice hal hecc hwait hfirst => ?host, fun s f c k v hok hnone => semCntWrite_sets hok hnone v,
    fun s f c v hok hinc => semModeWrite_modes hok hinc v⟩, fun s f n v =>
      ⟨syncWinEnable_opens, syncWinDisable_closes, fun hok => srngSeedWrite_loads hok v⟩⟩
  have hx := feCell_hostWord s c v
  have hfill := fun hop rem => exec_syncHostFill (v := v) hok hop rem
  have hdrain := fun hop rem => exec_syncHostDrain (v := v) hok hop rem
  have hread := fun hop => exec_syncHostRead (v := v) hok hop
  generalize hostWord c v = w at hwait hfirst hx hfill hdrain hread ⊢
  refine ⟨fun hkey rem => ⟨fun hop => ?_, fun hop => ?_, fun hop => ?_⟩, fun hkey => ?performed⟩
  · rw [hfill hop, hostOp_held hkey]
  · rw [hdrain hop, hostOp_held hkey]
  · rw [hread hop, hostOp_held hkey]
  case performed =>
    intro wrote x
    have hperform := hostOp_performed hkey hslice hal
    have hdata : rget (rsetf s (.hostAddr c) 20 0 (bits v 20 0)) (.hostData c) = rget s (.hostData c) := rget_rsetf_of_ne s _ _ _ (by simp)
    have hnow (rem) (hop : bits v 22 21 = 1) (hno : s.held.any wrote = false) : exec (.syncHostFill f c ⟨v, rem⟩) s =
        .next (hostReach (rsetf s (.hostAddr c) 20 0 (bits v 20 0)) f .fill w (rget s (.hostData c)) rem) := by
      have hnot : ¬(rsetf s (.hostAddr c) 20 0 (bits v 20 0)).held.any (heldWrite f) = true := fun hb => Bool.false_ne_true (hno.symm.trans hb)
      rw [hfill hop, hperform, hostFill_eq, if_neg hnot, hdata]
    refine ⟨fun rem hrem hop hno he _ => ?empty, fun rem hrem hop hno he => ?full, fun rem hop hyes => ?behind, fun rem hrem hop _ => ?drain,
      fun hop => ?read⟩
    case empty =>
      obtain ⟨u, hu, hrest⟩ := hostFill_empty (v := v) hfirst hx hrem hecc hwait he (rget s (.hostData c))
      exact ⟨u, (hnow rem hop hno).trans (congrArg _ hu), hrest⟩
    case full =>
      obtain ⟨u, e, hu, hrest⟩ := hostFill_full (v := v) hfirst hx hrem he (rget s (.hostData c))
      exact ⟨u, e, (hnow rem hop hno).trans (congrArg _ hu), hrest⟩
    case behind =>
      have hheld : (rsetf s (.hostAddr c) 20 0 (bits v 20 0)).held.any (heldWrite f) = true := hyes
      have hwaits : exec (.syncHostFill f c ⟨v, rem⟩) s = .next { rsetf s (.hostAddr c) 20 0 (bits v 20 0) with
          held := s.held ++ [.fill f w (rget s (.hostData c))] } := by
        rw [hfill hop, hperform, hostFill_eq, if_pos hheld, hdata]
        rfl
      exact ⟨_, hwaits, rfl, rfl, by constructor <;> rfl⟩
    case drain =>
      obtain ⟨u, hu, hrest⟩ := hostDrain_drains (v := v) hfirst hx hrem
      exact ⟨u, by rw [hdrain hop, hperform, hu], hrest⟩
    case read =>
      obtain ⟨u, hu, hrest⟩ := hostRead_copies (v := v) (w := w) hx hecc
      exact ⟨u, by rw [hread hop, hperform]; exact congrArg _ hu, hrest⟩

end Sys2Proof.Machine

namespace Sys2Proof.Machine

/-! Every command keeps the invariant (Safety.Keeps), and so does every step. -/

/-- What a state keeps of an earlier one, whatever a command makes of it keeps too: each command by the lemma about its own meaning. -/
theorem exec_keeps {z s : State} (h : Keeps z s) (i : Instr) : KeepsOut z (exec i s) :=
  match i with
  | .nop c e => keeps_execNop c e s h
  | .jmp c e => keeps_execJmp c e s h
  | .jmpt c e => keeps_execJmpt c e s h
  | .banksw c e => keeps_execBanksw c e s h
  | .bankswBankClosed c e => keeps_execBankswBankClosed c e s h
  | .engLdload c e => keeps_execEngLdload c e s h
  | .engHalt c e => keeps_execEngHalt c e s h
  | .fill c e => keeps_execFill c e s h
  | .take c e => keeps_execTake c e s h
  | .peek c e => keeps_execPeek c e s h
  | .drain c e => keeps_execDrain c e s h
  | .semAdd c e => keeps_execSemAdd c e s h
  | .semSub c e => keeps_execSemSub c e s h
  | .semWait c e => keeps_execSemWait c e s h
  | .feOpReachWord a loc rem => keeps_execFeOpReachWord a loc rem s h
  | .remoteValueReturn c e => keeps_execRemoteValueReturn c e s h
  | .semOpReachCounter c ctr => keeps_execSemOpReachCounter c ctr s h
  | .syncWaitTimeout c e => keeps_execSyncWaitTimeout c e s h
  | .mxeWs c => keeps_execMxeWs c s h
  | .mxeOs c => keeps_execMxeOs c s h
  | .mxeIs c => keeps_execMxeIs c s h
  | .mxeAlt c => keeps_execMxeAlt c s h
  | .mxeTileStep c id => keeps_execMxeTileStep c id s h
  | .mxePassDrain c id others => keeps_execMxePassDrain c id others s h
  | .altDwDrain c id => keeps_execAltDwDrain c id s h
  | .vxeAdd c => keeps_execVxeAdd c s h
  | .vxeSub c => keeps_execVxeSub c s h
  | .vxeMul c => keeps_execVxeMul c s h
  | .vxeFma c => keeps_execVxeFma c s h
  | .vxeMax c => keeps_execVxeMax c s h
  | .vxeMin c => keeps_execVxeMin c s h
  | .vxeAbs c => keeps_execVxeAbs c s h
  | .vxeNeg c => keeps_execVxeNeg c s h
  | .vxeCmplt c => keeps_execVxeCmplt c s h
  | .vxeCmple c => keeps_execVxeCmple c s h
  | .vxeCmpeq c => keeps_execVxeCmpeq c s h
  | .vxeCmpne c => keeps_execVxeCmpne c s h
  | .vxeSel c => keeps_execVxeSel c s h
  | .vxeAnd c => keeps_execVxeAnd c s h
  | .vxeOr c => keeps_execVxeOr c s h
  | .vxeXor c => keeps_execVxeXor c s h
  | .vxeShl c => keeps_execVxeShl c s h
  | .vxeShr c => keeps_execVxeShr c s h
  | .vxeSar c => keeps_execVxeSar c s h
  | .vxeExp c => keeps_execVxeExp c s h
  | .vxeDiv c => keeps_execVxeDiv c s h
  | .vxeSqrt c => keeps_execVxeSqrt c s h
  | .vxeTeval c => keeps_execVxeTeval c s h
  | .vxeCvt c => keeps_execVxeCvt c s h
  | .vxeUnpk c => keeps_execVxeUnpk c s h
  | .vxeRedadd c => keeps_execVxeRedadd c s h
  | .vxeRedmax c => keeps_execVxeRedmax c s h
  | .vxeRedmin c => keeps_execVxeRedmin c s h
  | .vxePopc c => keeps_execVxePopc c s h
  | .vxePerm c => keeps_execVxePerm c s h
  | .vxeMovi c => keeps_execVxeMovi c s h
  | .vxeIota c => keeps_execVxeIota c s h
  | .vxeLd c => keeps_execVxeLd c s h
  | .vxeSt c => keeps_execVxeSt c s h
  | .vxeTload c => keeps_execVxeTload c s h
  | .vxeTloadComplete c => keeps_execVxeTloadComplete c s h
  | .sxeAdd c => keeps_execSxeAdd c s h
  | .sxeSub c => keeps_execSxeSub c s h
  | .sxeMul c => keeps_execSxeMul c s h
  | .sxeAnd c => keeps_execSxeAnd c s h
  | .sxeOr c => keeps_execSxeOr c s h
  | .sxeXor c => keeps_execSxeXor c s h
  | .sxeShl c => keeps_execSxeShl c s h
  | .sxeShr c => keeps_execSxeShr c s h
  | .sxeSar c => keeps_execSxeSar c s h
  | .sxeMin c => keeps_execSxeMin c s h
  | .sxeMax c => keeps_execSxeMax c s h
  | .sxeMinu c => keeps_execSxeMinu c s h
  | .sxeMaxu c => keeps_execSxeMaxu c s h
  | .sxeSlt c => keeps_execSxeSlt c s h
  | .sxeSltu c => keeps_execSxeSltu c s h
  | .sxeAddi c => keeps_execSxeAddi c s h
  | .sxeLi c => keeps_execSxeLi c s h
  | .sxePopc c => keeps_execSxePopc c s h
  | .sxeClz c => keeps_execSxeClz c s h
  | .sxeCtz c => keeps_execSxeCtz c s h
  | .sxeLd c => keeps_execSxeLd c s h
  | .sxeSt c => keeps_execSxeSt c s h
  | .sxeBeq c => keeps_execSxeBeq c s h
  | .sxeBne c => keeps_execSxeBne c s h
  | .sxeBlt c => keeps_execSxeBlt c s h
  | .sxeBge c => keeps_execSxeBge c s h
  | .sxeBltu c => keeps_execSxeBltu c s h
  | .sxeBgeu c => keeps_execSxeBgeu c s h
  | .sxeImcopy c => keeps_execSxeImcopy c s h
  | .sxeImcopyComplete c => keeps_execSxeImcopyComplete c s h
  | .registerResultLand c e => keeps_execRegisterResultLand c e s h
  | .scratchpadStoreLand c e => keeps_execScratchpadStoreLand c e s h
  | .dxeIssue c => keeps_execDxeIssue c s h
  | .streamTaskComplete c st => keeps_execStreamTaskComplete c st s h
  | .streamTaskFault c st => keeps_execStreamTaskFault c st s h
  | .completionRecordWrite c st => keeps_execCompletionRecordWrite c st s h
  | .instructionRetire c what => keeps_execInstructionRetire c what s h
  | .moultSelect c => keeps_execMoultSelect c s h
  | .moultScan c => keeps_execMoultScan c s h
  | .moultPrune c => keeps_execMoultPrune c s h
  | .moultGrow c => keeps_execMoultGrow c s h
  | .moultSwap c => keeps_execMoultSwap c s h
  | .moultRecompress c => keeps_execMoultRecompress c s h
  | .moultResetState c => keeps_execMoultResetState c s h
  | .engineEnable f c e v => keeps_execEngineEnable f c e v s h
  | .engineDrain f c e v => keeps_execEngineDrain f c e v s h
  | .engineAbort f c e v => keeps_execEngineAbort f c e v s h
  | .engineStep f c e v => keeps_execEngineStep f c e v s h
  | .engineBankSelect f c e v => keeps_execEngineBankSelect f c e v s h
  | .enginePcWrite f c e v => keeps_execEnginePcWrite f c e v s h
  | .imDataHiWrite f c e v => keeps_execImDataHiWrite f c e v s h
  | .imDataHiRead f c e => keeps_execImDataHiRead f c e s h
  | .streamEnable f c v => keeps_execStreamEnable f c v s h
  | .streamDrain f c v => keeps_execStreamDrain f c v s h
  | .streamAbort f c v => keeps_execStreamAbort f c v s h
  | .syncHostFill f c v => keeps_execSyncHostFill f c v s h
  | .syncHostDrain f c v => keeps_execSyncHostDrain f c v s h
  | .syncHostRead f c v => keeps_execSyncHostRead f c v s h
  | .semCntWrite f c k v => keeps_execSemCntWrite f c k v s h
  | .syncWinEnable f n v => keeps_execSyncWinEnable f n v s h
  | .syncWinDisable f n v => keeps_execSyncWinDisable f n v s h
  | .srngSeedWrite f n v => keeps_execSrngSeedWrite f n v s h
  | .registerWrite f off len v => keeps_execRegisterWrite f off len v s h
  | .memoryRequestArrive q => keeps_execMemoryRequestArrive q s h
  | .hbmRefresh n => keeps_execHbmRefresh n s h
  | .dramTempUpdate n temp => keeps_execDramTempUpdate n temp s h
  | .patrolScrubRead n found intervened => keeps_execPatrolScrubRead n found intervened s h
  | .hbmPhyRecal n => keeps_execHbmPhyRecal n s h
  | .hbmRecalEnd n ok => keeps_execHbmRecalEnd n ok s h
  | .serdesRecal p ok => keeps_execSerdesRecal p ok s h
  | .recalOverdue u => keeps_execRecalOverdue u s h
  | .recalForced u => keeps_execRecalForced u s h
  | .updateEnable f n v => keeps_execUpdateEnable f n v s h
  | .updateDrain f n v => keeps_execUpdateDrain f n v s h
  | .updateAbort f n v => keeps_execUpdateAbort f n v s h
  | .buuGradWordTaken n => keeps_execBuuGradWordTaken n s h
  | .buuSpan n => keeps_execBuuSpan n s h
  | .buuPass1End n => keeps_execBuuPass1End n s h
  | .normRecordWrite src n v => keeps_execNormRecordWrite src n v s h
  | .buuPass2Program n => keeps_execBuuPass2Program n s h
  | .buuProgramDone n => keeps_execBuuProgramDone n s h
  | .doorbellTake sl => keeps_execDoorbellTake sl s h
  | .exchangeStart sl => keeps_execExchangeStart sl s h
  | .exchangeComplete sl => keeps_execExchangeComplete sl s h
  | .iftDataReceive p pkt => keeps_execIftDataReceive p pkt s h
  | .packetLand rx => keeps_execPacketLand rx s h
  | .ackTimer rx => keeps_execAckTimer rx s h
  | .iftAckReceive p pkt => keeps_execIftAckReceive p pkt s h
  | .retransmitTimeout tx seq => keeps_execRetransmitTimeout tx seq s h
  | .keepaliveAck sl peer => keeps_execKeepaliveAck sl peer s h
  | .peerSilent sl peer => keeps_execPeerSilent sl peer s h
  | .probe p pkt => keeps_execProbe p pkt s h
  | .plan p pkt => keeps_execPlan p pkt s h
  | .planApply sl => keeps_execPlanApply sl s h
  | .normsumSend sl => keeps_execNormsumSend sl s h
  | .normsum p pkt => keeps_execNormsum p pkt s h
  | .normrec p pkt => keeps_execNormrec p pkt s h
  | .frameDiscard p why => keeps_execFrameDiscard p why s h
  | .ptpMessageReceive p msg => keeps_execPtpMessageReceive p msg s h
  | .ptpSyncLoss => keeps_execPtpSyncLoss s h
  | .holdoverTimeout => keeps_execHoldoverTimeout s h
  | .chorusTick => keeps_execChorusTick s h
  | .chorusSlotStart => keeps_execChorusSlotStart s h
  | .timebaseEnable f v => keeps_execTimebaseEnable f v s h
  | .timebaseDisable f v => keeps_execTimebaseDisable f v s h
  | .portEnable f p v => keeps_execPortEnable f p v s h
  | .portDrain f p v => keeps_execPortDrain f p v s h
  | .portAbort f p v => keeps_execPortAbort f p v s h
  | .portLinkUp p => keeps_execPortLinkUp p s h
  | .portLinkDown p => keeps_execPortLinkDown p s h
  | .cablePresenceChange p present => keeps_execCablePresenceChange p present s h
  | .fabricQuotaInterval sl sent => keeps_execFabricQuotaInterval sl sent s h
  | .sqDoorbell f r v => keeps_execSqDoorbell f r v s h
  | .cqDoorbell f r v => keeps_execCqDoorbell f r v s h
  | .packetTake f r fetched => keeps_execPacketTake f r fetched s h
  | .progressReply id done => keeps_execProgressReply id done s h
  | .ringEnable f r v => keeps_execRingEnable f r v s h
  | .ringDrain f r v => keeps_execRingDrain f r v s h
  | .ringAbort f r v pkts => keeps_execRingAbort f r v pkts s h
  | .ringConfigWrite f r reg v => keeps_execRingConfigWrite f r reg v s h
  | .ping id => keeps_execPing id s h
  | .openSlice id => keeps_execOpenSlice id s h
  | .closeSlice id => keeps_execCloseSlice id s h
  | .scrubSlice id => keeps_execScrubSlice id s h
  | .sliceScrubComplete n => keeps_execSliceScrubComplete n s h
  | .querySlice id => keeps_execQuerySlice id s h
  | .loadProgram id fetched => keeps_execLoadProgram id fetched s h
  | .startEngines id => keeps_execStartEngines id s h
  | .stopEngines id => keeps_execStopEngines id s h
  | .setClutch id => keeps_execSetClutch id s h
  | .scheduleMoult id => keeps_execScheduleMoult id s h
  | .retirePage id => keeps_execRetirePage id s h
  | .keyDeliver id fetched => keeps_execKeyDeliver id fetched s h
  | .quote id fetched => keeps_execQuote id fetched s h
  | .quoteBatchClose => keeps_execQuoteBatchClose s h
  | .confirmSign id => keeps_execConfirmSign id s h
  | .signConfirmTimeout => keeps_execSignConfirmTimeout s h
  | .queryBudget id => keeps_execQueryBudget id s h
  | .setQuota id => keeps_execSetQuota id s h
  | .updateFirmware id => keeps_execUpdateFirmware id s h
  | .activateFirmware id => keeps_execActivateFirmware id s h
  | .processorSwap => keeps_execProcessorSwap s h
  | .healthOk => keeps_execHealthOk s h
  | .firmwareRevert => keeps_execFirmwareRevert s h
  | .bootActivationTimeout => keeps_execBootActivationTimeout s h
  | .readTelemetry id => keeps_execReadTelemetry id s h
  | .readLog id => keeps_execReadLog id s h
  | .setPowerCap id => keeps_execSetPowerCap id s h
  | .jobEnd n cause => keeps_execJobEnd n cause s h
  | .jobEndComplete n => keeps_execJobEndComplete n s h
  | .eventRecordArrive soon => keeps_execEventRecordArrive soon s h
  | .watchdogExpiry u => keeps_execWatchdogExpiry u s h
  | .deviceFatalFault cause => keeps_execDeviceFatalFault cause s h
  | .vfFlr n => keeps_execVfFlr n s h
  | .pfFlr => keeps_execPfFlr s h
  | .perstAssert => keeps_execPerstAssert s h
  | .pcieLinkUp width speed => keeps_execPcieLinkUp width speed s h
  | .bar2Read f off len soon => keeps_execBar2Read f off len soon s h
  | .bar2Write f off data poisoned soon => keeps_execBar2Write f off data poisoned soon s h
  | .warmReset f v => keeps_execWarmReset f v s h
  | .resetPinAssert => keeps_execResetPinAssert s h
  | .powerOnResetRelease => keeps_execPowerOnResetRelease s h
  | .auxInputLoss => keeps_execAuxInputLoss s h
  | .bootRom => keeps_execBootRom s h
  | .stage1Start => keeps_execStage1Start s h
  | .hbmStackTrainingDone n ok temp => keeps_execHbmStackTrainingDone n ok temp s h
  | .bootPartitionLock => keeps_execBootPartitionLock s h
  | .protLockWrite v => keeps_execProtLockWrite v s h
  | .bootReady => keeps_execBootReady s h
  | .sessionTreeGenerated => keeps_execSessionTreeGenerated s h
  | .nextPartitionWrite f off v => keeps_execNextPartitionWrite f off v s h
  | .railMonitorSample x => keeps_execRailMonitorSample x s h
  | .dipEnd => keeps_execDipEnd s h
  | .thermalSample x => keeps_execThermalSample x s h
  | .thermalControlStep => keeps_execThermalControlStep s h
  | .thermalResetRelease => keeps_execThermalResetRelease s h
  | .powerControlInterval watts => keeps_execPowerControlInterval watts s h
  | .aclkChange => keeps_execAclkChange s h
  | .vinMinClear f v => keeps_execVinMinClear f v s h
  | .coolantInletNotice => keeps_execCoolantInletNotice s h
  | .telemetrySample x => keeps_execTelemetrySample x s h
  | .thermalSensorCalibration die => keeps_execThermalSensorCalibration die s h
  | .flashSlotErase slot => keeps_execFlashSlotErase slot s h
  | .mramWearMove rec => keeps_execMramWearMove rec s h
  | .i3cDynamicAddress x => keeps_execI3cDynamicAddress x s h
  | .i3cPrivateRead off => keeps_execI3cPrivateRead off s h
  | .i3cThermtripClear data => keeps_execI3cThermtripClear data s h
  | .jtagBypass => keeps_execJtagBypass s h
  | .jtagIdcode => keeps_execJtagIdcode s h
  | .jtagSamplePreload cells => keeps_execJtagSamplePreload cells s h
  | .jtagExtest => keeps_execJtagExtest s h
  | .testLogicReset => keeps_execTestLogicReset s h
  | .huskBlockProgrammed block => keeps_execHuskBlockProgrammed block s h
  | .slotVerificationEnd => keeps_execSlotVerificationEnd s h
  | .bar0MisalignedRead f off len => keeps_execBar0MisalignedRead f off len s h

/-- The queue is no part of the invariant. -/
theorem Inv.setPending {s : State} (h : Inv s) (q : List Instr) : Inv (s.setPending q) :=
  ⟨{ h.canon with }, h.leaf⟩

/-- Whatever keeps what Keeps says of a state that meets the invariant meets it. -/
theorem Inv.of_keeps {s t : State} (h : Inv s) (k : Keeps s t) : Inv t :=
  ⟨k.canon h.canon, (k.leaf h.leaf).1⟩

theorem step_of_pending {s : State} {c : Instr} {q : List Instr} (h : s.pending = c :: q) : step s = exec c (s.setPending q) := by
  unfold step
  rw [h]

theorem step_of_idle {s : State} (h : s.pending = []) : step s = .next s := by
  unfold step
  rw [h]

/-- Settles O59: an idle block stays as it is, and else the front command runs on a state with the rest of the queue, whose parts it keeps. -/
theorem everyStepKeepsTheInvariant : Obligations.EveryStepKeepsTheInvariant := by
  intro s t hinv hstep
  cases hq : s.pending with
  | nil =>
    rw [step_of_idle hq] at hstep
    cases hstep
    exact hinv
  | cons c q =>
    rw [step_of_pending hq] at hstep
    exact (hinv.setPending q).of_keeps ((exec_keeps (.refl _) c).next t hstep)

end Sys2Proof.Machine

namespace Sys2Proof.Machine

/-! Work in memory: what reads, writes and their checks may change, and where they leave the units held (R227, R246, R284 to R297). -/

/-- The registers that say where a unit is held read the same: the sync windows and the retirement lists. -/
structure SameHomes (s u : State) : Prop where
  windows : ∀ n, rget u (.syncWin n) = rget s (.syncWin n)
  lists : ∀ n k, rget u (.retireList n k) = rget s (.retireList n k)
  counts : ∀ n, rfld u (.retireStat n) 41 32 = rfld s (.retireStat n) 41 32

theorem sameHomes_of_regs {s u : State} (h : u.regs = s.regs) : SameHomes s u :=
  ⟨fun _ => rget_congr h _, fun _ _ => rget_congr h _, fun _ => rfld_congr (rget_congr h _) _ _⟩

theorem SameHomes.trans {s t u : State} (h : SameHomes s t) (k : SameHomes t u) : SameHomes s u :=
  ⟨fun n => (k.windows n).trans (h.windows n), fun n i => (k.lists n i).trans (h.lists n i), fun n => (k.counts n).trans (h.counts n)⟩

theorem SameHomes.home {s u : State} (h : SameHomes s u) (n : Nat) : homeOf u n = homeOf s n := by
  unfold homeOf
  split
  · rfl
  · have hpage (m : N20) (p : Nat) : pageRetired u m p = pageRetired s m p := by simp only [pageRetired, h.counts, rfld_congr (h.lists m _)]
    rw [inWindow_congr (h.windows _), hpage]
  · rfl

/-- Is a register none of those that say where a unit is held? -/
def aside : Reg → Bool
  | .syncWin _ | .retireList _ _ | .retireStat _ => false
  | _ => true

theorem sameHomes_rput (s : State) {r : Reg} (hr : aside r = true) (v : W64) : SameHomes s (rput s r v) := by
  have hne (q : Reg) (hq : aside q = false) : rget (rput s r v) q = rget s q := rget_rput_of_ne s v fun he => by rw [he, hr] at hq; cases hq
  exact ⟨fun n => hne _ rfl, fun n k => hne _ rfl, fun n => rfld_congr (hne _ rfl) _ _⟩

/-- A hit on a retired page leaves the list's length (R297). -/
theorem sameHomes_hit (s : State) (n : N20) (k : Nat) : SameHomes s (rbump s (.retireStat n) 31 0 k) := by
  refine ⟨fun m => rget_rbump_of_ne s 31 0 k (by simp), fun m i => rget_rbump_of_ne s 31 0 k (by simp), fun m => ?_⟩
  by_cases hm : m = n
  · subst hm
    exact rfld_rsetf_apart s _ _ (.inr (by decide))
  · exact rfld_congr (rget_rbump_of_ne s 31 0 k (by simpa using hm)) _ _

/-! What a finding changes: counts, tags and the event log. -/

/-- Only tags, registers, counts and the event log differ, and units are held where they were. -/
structure Noted (s u : State) : Prop where
  rest : u = { s with poison := u.poison, syncp := u.syncp, regs := u.regs, incAt := u.incAt, incs := u.incs, log := u.log }
  homes : SameHomes s u

theorem Noted.refl (s : State) : Noted s s := ⟨rfl, sameHomes_of_regs rfl⟩
theorem Noted.trans {s t u : State} (h : Noted s t) (k : Noted t u) : Noted s u := ⟨k.rest.trans (by rw [h.rest]), h.homes.trans k.homes⟩

section Noted
variable {z s : State} (h : Noted z s)
include h

theorem Noted.rput {r : Reg} (hr : aside r = true) (v : W64) : Noted z (rput s r v) := h.trans ⟨rfl, sameHomes_rput s hr v⟩

theorem Noted.rbump {r : Reg} (hr : aside r = true) (hi lo n : Nat) : Noted z (rbump s r hi lo n) :=
  (h.rput hr _).trans ⟨rfl, sameHomes_of_regs rfl⟩

theorem Noted.setPoison (u : Nat) (p : Bool) : Noted z (setPoison s u p) := by
  unfold Machine.setPoison
  split <;> exact h.trans ⟨rfl, sameHomes_of_regs rfl⟩

theorem Noted.logEv (cause cls slice unit sub inst : Nat) (detail : W64) : Noted z (logEv s cause cls slice unit sub inst detail) :=
  h.trans ⟨rfl, sameHomes_of_regs rfl⟩

theorem Noted.lineRecord (n : N20) (u one : Nat) (two : Bool) : Noted z (lineRecord s n u one two) := by
  have hcount : Noted z (Machine.rbump s (.cacheStat n) 63 48 one) := h.rbump rfl ..
  unfold Machine.lineRecord
  dsimp only
  split
  · exact ((hcount.setPoison ..).rbump rfl ..).logEv ..
  · exact hcount

theorem Noted.eccRecord (u one : Nat) (two : Bool) : Noted z (eccRecord s u one two) := by
  unfold Machine.eccRecord
  split
  next c _ _ =>
    have hcount : Noted z (Machine.rbump s (.spadStat c) 63 48 one) := h.rbump rfl ..
    dsimp only
    split
    · exact (((hcount.setPoison ..).rbump rfl ..).rput rfl _).logEv ..
    · exact hcount
  next => exact h.lineRecord ..
  next n _ =>
    split
    · exact h.lineRecord ..
    have hcount : Noted z (if one = 0 then s else Machine.rbump s (.eccCnt n) 63 32 1) := by
      split
      · exact h
      · exact h.rbump rfl ..
    dsimp only
    generalize (if one = 0 then s else Machine.rbump s (.eccCnt n) 63 32 1) = t at hcount
    split
    · exact (((hcount.setPoison ..).rbump rfl ..).rput rfl _).logEv ..
    · exact hcount
  next => exact h

end Noted

/-! Reads and writes. -/

/-- Only memory with its tags, errors and lines, the registers, counts, free values and the event log differ, and units are held where they were;
where no error is recorded none comes to be, and nothing is logged. -/
structure MemWork (s u : State) : Prop where
  rest : u = { s with
    mem := u.mem, poison := u.poison, syncw := u.syncw, syncp := u.syncp, ecc := u.ecc, cached := u.cached, dirty := u.dirty, freeCtr := u.freeCtr,
    regs := u.regs, incAt := u.incAt, incs := u.incs, log := u.log }
  homes : SameHomes s u
  clean : s.ecc = [] → u.ecc = [] ∧ u.log = s.log

/-- The same, and no byte differs; where no error is recorded no tag does. -/
structure ReadWork (s u : State) : Prop where
  work : MemWork s u
  mem : u.mem = s.mem
  words : u.syncw = s.syncw
  tags : s.ecc = [] → u.poison = s.poison ∧ u.syncp = s.syncp

theorem MemWork.trans {s t u : State} (h : MemWork s t) (k : MemWork t u) : MemWork s u :=
  ⟨k.rest.trans (by rw [h.rest]), h.homes.trans k.homes, fun he =>
    have ⟨ht, hlog⟩ := h.clean he
    ⟨(k.clean ht).1, (k.clean ht).2.trans hlog⟩⟩

theorem ReadWork.refl (s : State) : ReadWork s s := ⟨⟨rfl, sameHomes_of_regs rfl, fun he => ⟨he, rfl⟩⟩, rfl, rfl, fun _ => ⟨rfl, rfl⟩⟩
theorem MemWork.refl (s : State) : MemWork s s := (ReadWork.refl s).work

theorem ReadWork.trans {s t u : State} (h : ReadWork s t) (k : ReadWork t u) : ReadWork s u :=
  ⟨h.work.trans k.work, k.mem.trans h.mem, k.words.trans h.words, fun he =>
    have ⟨hp, hq⟩ := k.tags (h.work.clean he).1
    ⟨hp.trans (h.tags he).1, hq.trans (h.tags he).2⟩⟩

/-- A finding is made only where an error is recorded. -/
theorem Noted.read {s u : State} (h : Noted s u) (he : s.ecc ≠ []) : ReadWork s u :=
  ⟨⟨h.rest.trans (by rw [h.rest]), h.homes, fun hn => absurd hn he⟩, by rw [h.rest], by rw [h.rest], fun hn => absurd hn he⟩

section MemWork
variable {s u : State} (h : MemWork s u)
include h

theorem MemWork.cores : u.cores = s.cores := by rw [h.rest]
theorem MemWork.now : u.now = s.now := by rw [h.rest]
theorem MemWork.feb : u.feb = s.feb := by rw [h.rest]
theorem MemWork.out : u.out = s.out := by rw [h.rest]

end MemWork

/-- Work done piece by piece. -/
theorem memWork_foldl {β : Type} {z : State} {f : State → β → State} (hf : ∀ t b, MemWork z t → MemWork z (f t b)) (l : List β) {s : State}
    (h : MemWork z s) : MemWork z (l.foldl f s) :=
  List.foldlRecOn l f h fun t ht b _ => hf t b ht

theorem readWork_foldl {β : Type} {z : State} {f : State → β → State} (hf : ∀ t b, ReadWork z t → ReadWork z (f t b)) (l : List β) {s : State}
    (h : ReadWork z s) : ReadWork z (l.foldl f s) :=
  List.foldlRecOn l f h fun t ht b _ => hf t b ht

section Read
variable {z s : State} (h : ReadWork z s)
include h

theorem ReadWork.ite {P : Prop} [Decidable P] {t : State} (ht : ReadWork z t) : ReadWork z (if P then t else s) := by
  split <;> assumption

theorem ReadWork.hit (n : N20) (k : Nat) : ReadWork z (rbump s (.retireStat n) 31 0 k) :=
  h.trans ⟨⟨rfl, sameHomes_hit s n k, fun he => ⟨he, rfl⟩⟩, rfl, rfl, fun _ => ⟨rfl, rfl⟩⟩

theorem ReadWork.freshWords (key : Nat → Nat) (ks : List Nat) : ReadWork z (freshWords s key ks) :=
  h.trans ⟨⟨rfl, sameHomes_of_regs rfl, fun he => ⟨by rw [freshWords_of_ecc_nil he]; exact he, rfl⟩⟩, rfl, rfl, fun _ => ⟨rfl, rfl⟩⟩

theorem ReadWork.dropLine (u : Nat) : ReadWork z (dropLine s u) :=
  h.trans ⟨⟨rfl, sameHomes_of_regs rfl, fun he => ⟨by show tclear s.ecc _ _ = []; rw [he]; rfl, rfl⟩⟩, rfl, rfl, fun _ => ⟨rfl, rfl⟩⟩

theorem ReadWork.drawFree : ReadWork z (drawFree s).1 :=
  h.trans ⟨⟨rfl, sameHomes_of_regs rfl, fun he => ⟨he, rfl⟩⟩, rfl, rfl, fun _ => ⟨rfl, rfl⟩⟩

/-- What a read finds in words is recorded where it is anything. -/
theorem ReadWork.found (u : Nat) (ks : List Nat) {t : State} (ht : Noted s t) :
    ReadWork z (if (eccFind s u ks).1 = 0 ∧ !(eccFind s u ks).2 then s else t) := by
  by_cases he : s.ecc = []
  · simpa [eccFind_of_ecc_nil he] using h
  · exact ReadWork.ite (h.trans (ht.read he)) h

theorem ReadWork.eccCheck (u : Nat) (ks : List Nat) : ReadWork z (eccCheck s u ks) := by
  unfold Machine.eccCheck
  split
  · exact h.hit ..
  · exact h.found u ks ((Noted.refl s).eccRecord ..)

theorem ReadWork.lineCheck (u : Nat) : ReadWork z (lineCheck s u) := by
  unfold Machine.lineCheck
  split
  · exact h.found u words8 ((Noted.refl s).lineRecord ..)
  · exact h.eccCheck ..

theorem ReadWork.evictLine (u : Nat) : ReadWork z (evictLine s u) := by
  unfold Machine.evictLine
  exact ReadWork.dropLine (h.ite ((h.lineCheck u).freshWords ..)) u

theorem ReadWork.evictWay (n : N20) (u more : Nat) : ReadWork z (evictWay s n u more) := by
  unfold Machine.evictWay
  split
  · exact h
  · dsimp only
    split
    · exact h
    · exact h.drawFree.evictLine _

theorem ReadWork.takeLine (n : N20) (u : Nat) : ReadWork z (takeLine s n u) := by
  unfold Machine.takeLine
  split
  · exact h
  · exact (h.evictWay n u 1).trans ⟨⟨rfl, sameHomes_of_regs rfl, fun he => ⟨by show tclear _ _ _ = []; rw [he]; rfl, rfl⟩⟩, rfl, rfl,
      fun _ => ⟨rfl, rfl⟩⟩

theorem ReadWork.touchUnit (u : Nat) : ReadWork z (touchUnit s u) := by
  have hcheck := h.eccCheck u words8
  unfold Machine.touchUnit
  dsimp only
  split
  · exact hcheck.ite (hcheck.takeLine ..)
  · exact hcheck

theorem ReadWork.touchAll (rs : List (Nat × Nat)) : ReadWork z (touchAll s rs) := readWork_foldl (fun _ u ht => ht.touchUnit u) _ h

theorem ReadWork.touchRange (a n : Nat) : ReadWork z (touchRange s a n) := by
  unfold Machine.touchRange
  split
  · exact h
  · exact readWork_foldl (fun _ i ht => ht.touchUnit _) _ h

theorem ReadWork.redTouch (k u : Nat) : ReadWork z (redTouch s k u) := by
  have hcheck := h.eccCheck u words8
  unfold Machine.redTouch redLine
  split
  · split
    · exact hcheck
    · exact hcheck.takeLine ..
  · exact hcheck

theorem ReadWork.lineAfter (base : Bool) (n : N20) (u : Nat) (whole : Bool) (ks : List Nat) : ReadWork z (lineAfter base s n u whole ks) := by
  unfold Machine.lineAfter freshSector
  dsimp only
  split
  · split
    · exact (h.freshWords ..).freshWords ..
    · exact h.freshWords ..
  · split
    · exact ((h.takeLine n u).freshWords (lineErr u) ks).trans
        ⟨⟨rfl, sameHomes_of_regs rfl, fun he => ⟨he, rfl⟩⟩, rfl, rfl, fun _ => ⟨rfl, rfl⟩⟩
    · exact (h.ite (h.dropLine u)).freshWords ..

end Read

section Write
variable {z s : State} (h : MemWork z s)
include h

theorem MemWork.read {t : State} (k : ReadWork s t) : MemWork z t := h.trans k.work

theorem MemWork.setPoison (u : Nat) (p : Bool) : MemWork z (setPoison s u p) := by
  unfold Machine.setPoison
  split <;> exact h.trans ⟨rfl, sameHomes_of_regs rfl, fun he => ⟨he, rfl⟩⟩

theorem MemWork.putMasked (base : Bool) (u : Nat) (ch : List ByteCh) (p : Bool) : MemWork z (putMasked base s u ch p) := by
  have htag (q : Bool) : MemWork z (Machine.setPoison s u q) := h.setPoison u q
  have hmem (t : State) (m : List Host.Cell) (ht : MemWork z t) : MemWork z { t with mem := m } :=
    ht.trans ⟨rfl, sameHomes_of_regs rfl, fun he => ⟨he, rfl⟩⟩
  unfold Machine.putMasked
  dsimp only
  split
  · exact htag _
  · exact htag _
  · exact ((htag _).read ((ReadWork.refl _).freshWords ..)).trans ⟨rfl, sameHomes_of_regs rfl, fun he => ⟨he, rfl⟩⟩
  · exact (hmem _ _ (htag _)).read ((ReadWork.refl _).lineAfter ..)
  · exact hmem _ _ ((htag _).read ((ReadWork.refl _).freshWords ..))

theorem MemWork.writeMaskedAs (base : Bool) (u : Nat) (ch : List ByteCh) (p : Bool) : MemWork z (writeMaskedAs base s u ch p) := by
  unfold Machine.writeMaskedAs
  split
  · exact h
  · split
    · exact h.read ((ReadWork.refl s).hit ..)
    · exact h
    · exact (h.read ((ReadWork.refl s).eccCheck ..)).putMasked ..

theorem MemWork.writeBytes (a : Nat) (bs : List Byte) (p : Nat → Bool) : MemWork z (writeBytes s a bs p) := by
  unfold Machine.writeBytes
  split
  · exact h
  · exact memWork_foldl (fun _ _ ht => ht.writeMaskedAs ..) _ h

theorem MemWork.writeAll (a : Nat) (bs : List Byte) (p : Bool) : MemWork z (writeAll s a bs p) := h.writeBytes ..

theorem MemWork.applyWrites (ws : List ByteW) : MemWork z (applyWrites s ws) := memWork_foldl (fun _ _ ht => ht.writeMaskedAs ..) _ h

theorem MemWork.redElem (k f d x n : Nat) (p : Bool) : MemWork z (redElem s k f d x n p).1 := by
  unfold Machine.redElem
  dsimp only
  split
  · exact h
  · exact h.putMasked ..

/-- An access of element operations reaches its unit, unless the one before it was there. -/
theorem MemWork.reached (P : Prop) [Decidable P] (k u : Nat) : MemWork z (if P then s else redTouch s k u) := by
  split
  · exact h
  · exact h.read ((ReadWork.refl s).redTouch k u)

/-- The elements of a reduction store are combined one after the other, each with its access and, under SWAP and CAS, its old value's return. -/
theorem MemWork.runReduce (c : CoreId) (d : SDesc) (e : Option (List Byte)) (g : Option Nat) : MemWork z (runReduce s c d e g).1 := by
  unfold Machine.runReduce
  refine List.foldlRecOn (motive := fun t : State × Option Nat × Bool => MemWork z t.1) _ _ h fun t ht i _ => ?_
  dsimp only
  by_cases hk : windowOf d < 3
  · rw [if_pos hk]
    exact (ht.reached ..).redElem ..
  · rw [if_neg hk]
    exact ((ht.reached ..).redElem ..).writeAll ..

end Write

end Sys2Proof.Machine

namespace Sys2Proof.Machine

/-! What a reader finds after a write (R228, R246, R297): the bytes depend on memory, the sync words and where units are held. -/

/-- Memory, the sync words and the places of units are the same. -/
structure SameBytes (s u : State) : Prop where
  mem : u.mem = s.mem
  words : u.syncw = s.syncw
  homes : ∀ n, homeOf u n = homeOf s n

theorem SameBytes.refl (s : State) : SameBytes s s := ⟨rfl, rfl, fun _ => rfl⟩
theorem SameBytes.symm {s u : State} (h : SameBytes s u) : SameBytes u s := ⟨h.mem.symm, h.words.symm, fun n => (h.homes n).symm⟩
theorem SameBytes.trans {s t u : State} (h : SameBytes s t) (k : SameBytes t u) : SameBytes s u :=
  ⟨k.mem.trans h.mem, k.words.trans h.words, fun n => (k.homes n).trans (h.homes n)⟩

theorem ReadWork.bytes {s u : State} (h : ReadWork s u) : SameBytes s u := ⟨h.mem, h.words, h.work.homes.home⟩

section SameBytes
variable {s u : State} (h : SameBytes s u)
include h

theorem SameBytes.unitBytes (n : Nat) : unitBytes u n = unitBytes s n := by
  unfold Machine.unitBytes
  rw [h.homes, h.words, h.mem]

theorem SameBytes.memBytes (a n : Nat) : memBytes u a n = memBytes s a n := by
  unfold Machine.memBytes
  simp only [h.unitBytes]

end SameBytes

/-- The bytes that a write to unit u by 64 changes leaves: on a sync line its words, in a stack or a scratchpad memory. -/
def bytesPut (s : State) (u : Nat) (ch : List ByteCh) : State :=
  let bs := mergeBytes (unitBytes s u) ch
  match homeOf s u with
  | .sync _ => { s with syncw := words8.foldl (fun t k => tset t ⟨0, false⟩ (8 * u + k)
      ⟨BitVec.ofNat 64 (fieldAt bs (8 * k) 8), (tget t ⟨0, false⟩ (8 * u + k)).full⟩) s.syncw }
  | .dram _ | .pad _ _ => { s with mem := twrite s.mem memDefault (64 * u) bs }
  | _ => s

theorem SameBytes.bytesPut {s t : State} (h : SameBytes s t) (u : Nat) (ch : List ByteCh) : SameBytes (bytesPut s u ch) (bytesPut t u ch) := by
  unfold Machine.bytesPut
  dsimp only
  rw [h.homes, h.unitBytes, h.words, h.mem]
  cases homeOf s u with
  | retired _ => exact h
  | nowhere => exact h
  | _ => exact ⟨rfl, rfl, h.homes⟩

theorem setPoison_bytes (s : State) (u : Nat) (p : Bool) : SameBytes s (setPoison s u p) := by
  unfold setPoison
  split <;> exact ⟨rfl, rfl, fun _ => rfl⟩

theorem putMasked_bytes (base : Bool) (s : State) (u : Nat) (ch : List ByteCh) (p : Bool) : SameBytes (bytesPut s u ch) (putMasked base s u ch p) := by
  have htag (q : Bool) := setPoison_bytes s u q
  unfold putMasked bytesPut
  dsimp only
  rw [(htag _).homes]
  cases homeOf s u with
  | retired _ => exact htag _
  | nowhere => exact htag _
  | sync _ => exact ⟨(htag _).mem, by rw [← (htag _).words]; rfl, (htag _).homes⟩
  | dram _ =>
    refine SameBytes.trans ?_ ((ReadWork.refl _).lineAfter ..).bytes
    exact ⟨by rw [← (htag _).mem], (htag _).words, (htag _).homes⟩
  | pad _ _ => exact ⟨by rw [← (htag _).mem]; rfl, (htag _).words, (htag _).homes⟩

theorem writeMaskedAs_bytes (base : Bool) (s : State) (u : Nat) {ch : List ByteCh} (hch : ch.all (fun x => x.1 == 0) = false) (p : Bool) :
    SameBytes (bytesPut s u ch) (writeMaskedAs base s u ch p) := by
  have hcheck (ks : List Nat) : SameBytes s (eccCheck s u ks) := ((ReadWork.refl s).eccCheck u ks).bytes
  have hput (ks : List Nat) : SameBytes (bytesPut s u ch) (putMasked base (eccCheck s u ks) u ch p) :=
    ((hcheck ks).bytesPut u ch).trans (putMasked_bytes ..)
  unfold writeMaskedAs
  rw [if_neg (by rw [hch]; decide)]
  cases hh : homeOf s u with
  | retired n =>
    have hsame : bytesPut s u ch = s := by simp only [bytesPut, hh]
    rw [hsame]
    exact ((ReadWork.refl s).hit n 1).bytes
  | nowhere =>
    have hsame : bytesPut s u ch = s := by simp only [bytesPut, hh]
    rw [hsame]
    exact .refl s
  | sync _ => exact hput _
  | dram _ => exact hput _
  | pad _ _ => exact hput _

/-- Writes of the same changes leave the same bytes, whatever the tags, the errors, the lines and the time. -/
theorem SameBytes.writeMaskedAs {s t : State} (h : SameBytes s t) (base : Bool) (u : Nat) (ch : List ByteCh) (p : Bool) :
    SameBytes (writeMaskedAs base s u ch p) (writeMaskedAs base t u ch p) := by
  cases hch : ch.all (fun x => x.1 == 0) with
  | true =>
    have hnone (x : State) : Machine.writeMaskedAs base x u ch p = x := if_pos hch
    rw [hnone, hnone]
    exact h
  | false => exact ((writeMaskedAs_bytes base s u hch p).symm.trans (h.bytesPut u ch)).trans (writeMaskedAs_bytes base t u hch p)

theorem SameBytes.applyWrites {s t : State} (h : SameBytes s t) (ws : List ByteW) : SameBytes (applyWrites s ws) (applyWrites t ws) := by
  unfold Machine.applyWrites applyWritesAs
  dsimp only
  generalize unitsOf ws.reverse = us
  induction us generalizing s t with
  | nil => exact h
  | cons u us ih => exact ih (h.writeMaskedAs ..)

end Sys2Proof.Machine

namespace Sys2Proof.Machine

/-! A stream's task leaves its core (R266, R268, R271). -/

theorem Noted.now {s u : State} (h : Noted s u) : u.now = s.now := by rw [h.rest]
theorem Noted.mem {s u : State} (h : Noted s u) : u.mem = s.mem := by rw [h.rest]
theorem Noted.cores {s u : State} (h : Noted s u) : u.cores = s.cores := by rw [h.rest]

theorem Noted.tagRange {z s : State} (h : Noted z s) (a n : Nat) : Noted z (tagRange s a n) := by
  unfold Machine.tagRange
  split
  · exact h
  · exact h.trans ⟨rfl, sameHomes_of_regs rfl⟩

/-- The counts of a run stand in registers, and its events in the log. -/
theorem countRun_noted (s : State) (c : CoreId) (st : Nat) (t : Task) (r : Run) (bytes : Nat) : Noted s (countRun s c st t r bytes).1 := by
  have hstat : aside (.eng c .dxe .stat) = true := rfl
  have hcounts := ((((Noted.refl s).rbump hstat 47 32 r.trim).rbump hstat 31 16 r.dense).rbump hstat 15 8 r.mal).rbump hstat 7 0 r.oor
  unfold countRun
  cases r.trimAt <;> cases r.badAt
  · exact hcounts
  · exact hcounts.logEv ..
  · exact hcounts.logEv ..
  · exact (hcounts.logEv ..).logEv ..

theorem getCore_congr {s u : State} (h : u.cores = s.cores) (c : CoreId) : getCore u c = getCore s c := by rw [getCore, h]; rfl

/-- Stream st of core c runs no task any more; beside that only records to write and the end of its abort differ in the cores, and memory and
time are the same. -/
structure TaskGone (s u : State) (c : CoreId) (st : Nat) : Prop where
  mem : u.mem = s.mem
  now : u.now = s.now
  core : getCore u c = { getCore s c with tasks := tset (getCore s c).tasks none st none, crecs := (getCore u c).crecs, sabort := (getCore u c).sabort }
  others : ∀ x : CoreId, x ≠ c → getCore u x = getCore s x

section TaskGone
variable {s u : State} {c : CoreId} {st : Nat} (h : TaskGone s u c st)
include h

theorem TaskGone.task : taskOf u c st = none := by
  rw [taskOf, h.core]
  exact tget_tset_self (getCore s c).tasks none none st

theorem TaskGone.tasks {x : Nat} (hx : x ≠ st) : taskOf u c x = taskOf s c x := by
  rw [taskOf, h.core]
  exact tget_tset_ne (getCore s c).tasks none none none hx

theorem TaskGone.insts : (getCore u c).insts = (getCore s c).insts := by rw [h.core]
theorem TaskGone.sen : (getCore u c).sen = (getCore s c).sen := by rw [h.core]

/-- Nothing follows from it in a core where nothing waits to follow. -/
theorem TaskGone.settle (hs : StillCore s c) : settleCore u c = u :=
  hs.settle (fun i hi => by rwa [h.insts] at hi) fun e => by
    rw [getEng, h.core]
    exact hs.modes e

/-- The same from a state with the same cores. -/
theorem TaskGone.of_cores {z : State} (hc : s.cores = z.cores) : (∀ x : CoreId, x ≠ c → getCore u x = getCore z x) ∧ taskOf u c st = none ∧
    (∀ x, x ≠ st → taskOf u c x = taskOf z c x) ∧ (getCore u c).insts = (getCore z c).insts :=
  ⟨fun x hx => (h.others x hx).trans (getCore_congr hc x), h.task,
    fun x hx => (h.tasks hx).trans (by rw [taskOf, taskOf, getCore_congr hc]), h.insts.trans (by rw [getCore_congr hc])⟩

end TaskGone

/-- A task taken from its stream, and its record queued. -/
theorem queueRecord_gone (s : State) (c : CoreId) (st inst iter : Nat) (e : Option (List Byte)) (status flags : Nat) (cnt : TaskCnt) (t issueAt : Nat) :
    TaskGone s (queueRecord (putTask s c st none) c st inst iter e status flags cnt t issueAt) c st := by
  unfold queueRecord putTask
  split
  · exact ⟨rfl, rfl, by rw [getCore_putCore], fun x hx => getCore_putCore_ne _ _ hx⟩
  · exact ⟨rfl, rfl, by simp only [getCore_putCore], fun x hx => (getCore_putCore_ne _ _ hx).trans (getCore_putCore_ne _ _ hx)⟩

theorem queueRecord_log (s : State) (c : CoreId) (st inst iter : Nat) (e : Option (List Byte)) (status flags : Nat) (cnt : TaskCnt) (t issueAt : Nat) :
    (queueRecord s c st inst iter e status flags cnt t issueAt).log = s.log := by
  unfold queueRecord
  split <;> rfl

/-- An aborted task: its extents are tagged, an event tells of it, and it leaves its stream (R271). -/
theorem abortTask_gone (s : State) (c : CoreId) (st : Nat) (t : Task) (status cls : Nat) (cnt : TaskCnt) (fin : Nat) :
    TaskGone s (abortTask s c st t status cls cnt fin) c st ∧
      ∃ e ∈ (abortTask s c st t status cls cnt fin).log.inFlight, e.cause = status ∧ e.cls = cls ∧ e.sub = st ∧ e.inst = c.val := by
  have hnoted : Noted s (logStream (tagExtents s c (taskDesc t) t.ext) c st status cls t.bank t.idx 0) :=
    Noted.logEv (List.foldlRecOn (motive := Noted s) _ _ (.refl s) fun _ hx _ _ => hx.tagRange ..) ..
  have hgone := queueRecord_gone (logStream (tagExtents s c (taskDesc t) t.ext) c st status cls t.bank t.idx 0) c st t.inst t.iter t.ext status
    (2 + (if cnt.poison || tagsAny s c (taskDesc t) t.ext then 1 else 0)) cnt fin t.issueAt
  refine ⟨⟨hgone.mem.trans hnoted.mem, hgone.now.trans hnoted.now, ?_, fun x hx => (hgone.others x hx).trans (getCore_congr hnoted.cores x)⟩, ?_⟩
  · rw [← getCore_congr hnoted.cores c]
    exact hgone.core
  · unfold abortTask
    dsimp only
    rw [queueRecord_log]
    exact ⟨_, List.mem_append_right _ (List.mem_singleton_self _), rfl, rfl, rfl, rfl⟩

/-- A task that may reach what it reads reads it; else it reads nothing. -/
theorem taskSeen_reads (s : State) (c : CoreId) (t : Task) : ReadWork s (taskSeen s c t) := by
  unfold taskSeen
  dsimp only
  split
  · exact .refl s
  · exact (ReadWork.refl s).touchAll _

/-- What a task has done when the host stops it (R272) is work in memory, with counts and events. -/
theorem cutTask_cores (s : State) (c : CoreId) (st : Nat) (t : Task) (g : Nat) : (cutTask s c st t g).1.cores = s.cores := by
  have hseen : MemWork s (if g = 0 then s else taskSeen s c t) := ReadWork.work ((taskSeen_reads s c t).ite (.refl s))
  unfold cutTask
  dsimp only
  generalize (if g = 0 then s else taskSeen s c t) = v at hseen
  split
  · exact hseen.cores
  · split
    · split
      · exact hseen.cores
      · exact (hseen.runReduce ..).cores
    · exact (countRun_noted ..).cores.trans (hseen.applyWrites _).cores

end Sys2Proof.Machine

namespace Sys2Proof.Machine

/-! DXE_SCTL (R271, R274). -/

/-- ABORT bit n of a value of DXE_SCTL. -/
theorem bit_abort (v : W64) {n : Nat} (hn : n < 32) : bit v (32 + n) = (bits v 63 32).testBit n := by
  rw [testBit_bits, decide_eq_true (by omega), Bool.true_and]

/-- The enables that a write of DXE_SCTL leaves: those written, but for the streams aborted. -/
def sctlEn (v : W64) : BitVec 32 := v.setWidth 32 &&& ~~~((v >>> 32).setWidth 32)

theorem bit_sctlEn (v : W64) {n : Nat} (hn : n < 32) : bit (sctlEn v) n = (bit v n && !bit v (32 + n)) := by
  simp [sctlEn, bit, hn, Nat.add_comm]

theorem sctlEn_of_no_abort {v : W64} (h : bits v 63 32 = 0) : sctlEn v = v.setWidth 32 := by
  refine BitVec.eq_of_getLsbD_eq fun n hn => ?_
  have hbit := bit_sctlEn v hn
  rw [bit_abort v hn, h, Nat.zero_testBit, Bool.not_false, Bool.and_true] at hbit
  exact hbit.trans (by simp [bit, hn])

/-- The core with the enables of a write to DXE_SCTL. -/
def sctlCore (s : State) (c : CoreId) (v : W64) : State := putCore s c { getCore s c with sen := sctlEn v }

theorem sctlCore_still {s : State} {c : CoreId} (h : StillCore s c) (v : W64) : StillCore (sctlCore s c v) c := by
  refine ⟨fun i hi => h.insts i ?_, fun e => ?_⟩
  · rwa [sctlCore, getCore_putCore] at hi
  · rw [getEng, sctlCore, getCore_putCore]
    exact h.modes e

/-- The streams that a write of DXE_SCTL aborts. -/
theorem sctl_hits {v : W64} {p : Nat → Bool} (h : ∀ n, n < 32 → (bits v 63 32).testBit n = p n) :
    (List.range 32).filter (fun n => bit v (32 + n)) = (List.range 32).filter p :=
  List.filter_congr fun n hn => (bit_abort v (List.mem_range.1 hn)).trans (h n (List.mem_range.1 hn))

/-- The abort of one stream by a write of DXE_SCTL; an instruction that hands off to its task aborts too (R102, R271). -/
def sctlStop (c : CoreId) (s : State) (st : Nat) : State :=
  if (handTask s c st).isSome then mxeStreamStop (stopTask s c st) c st clsNone else stopTask s c st

theorem writeSctl_eq (s : State) (c : CoreId) (v : W64) :
    writeSctl s c v = settleCore (((List.range 32).filter fun n => bit v (32 + n)).foldl (sctlStop c) (sctlCore s c v)) c := rfl

theorem writeSctl_enables {s : State} {c : CoreId} {v : W64} (hs : StillCore s c) (h : bits v 63 32 = 0) :
    writeSctl s c v = putCore s c { getCore s c with sen := v.setWidth 32 } := by
  have hhits : (List.range 32).filter (fun n => bit v (32 + n)) = [] := by
    rw [sctl_hits (p := fun _ => false) fun n _ => by rw [h, Nat.zero_testBit], List.filter_false]
  have hstill := sctlCore_still hs v
  rw [writeSctl_eq, hhits, List.foldl_nil, hstill.settle (fun _ hi => hi) hstill.modes, sctlCore, sctlEn_of_no_abort h]

/-- A write that aborts one stream, whose task is no hand-off. -/
theorem writeSctl_aborts {s : State} {c : CoreId} {v : W64} {st : Nat} (hst : st < 32) (h : bits v 63 32 = 2 ^ st) (hhand : handTask s c st = none) :
    writeSctl s c v = settleCore (stopTask (sctlCore s c v) c st) c := by
  have hhits : (List.range 32).filter (fun n => bit v (32 + n)) = [st] := by
    rw [sctl_hits (p := fun n => n == st) fun n _ => by rw [h, Nat.testBit_two_pow, Bool.eq_iff_iff, decide_eq_true_eq, beq_iff_eq, eq_comm]]
    rw [List.filter_beq, List.count_eq_one_of_mem List.nodup_range (List.mem_range.2 hst), List.replicate_one]
  have hsame : handTask (sctlCore s c v) c st = none := by
    rw [← hhand]
    unfold handTask taskOf sctlCore
    rw [getCore_putCore]
  rw [writeSctl_eq, hhits, List.foldl_cons, List.foldl_nil, sctlStop, hsame]
  rfl

/-- A stream's running task stopped by the host: the grants already given are a free value (R271, R272). -/
theorem stopTask_gone {s : State} {c : CoreId} {st : Nat} {k : Task} (h : taskOf s c st = some k) :
    let w := (cutTask (drawFree (drawFree s).1).1 c st k (Config.freeValue s.freeCtr).toNat).1
    w.cores = s.cores ∧ TaskGone w (stopTask s c st) c st ∧
      ∃ e ∈ (stopTask s c st).log.inFlight, e.cause = stCode .aborted ∧ e.sub = st ∧ e.inst = c.val := by
  intro w
  obtain ⟨u, fin, hu, hstop⟩ : ∃ u fin, u = abortTask w c st k (stCode .aborted) clsNone
      (cutTask (drawFree (drawFree s).1).1 c st k (Config.freeValue s.freeCtr).toNat).2 fin ∧
      stopTask s c st = putCore u c { getCore u c with sabort := tset (getCore u c).sabort 0 st fin } := by
    refine ⟨_, w.now + (Config.freeValue (s.freeCtr + 1)).toNat, rfl, ?_⟩
    unfold stopTask
    rw [h]
    rfl
  obtain ⟨hgone, e, he, hcause, -, hsub, hinst⟩ := abortTask_gone w c st k (stCode .aborted) clsNone
    (cutTask (drawFree (drawFree s).1).1 c st k (Config.freeValue s.freeCtr).toNat).2 fin
  rw [← hu] at hgone he
  rw [hstop]
  refine ⟨cutTask_cores .., ⟨hgone.mem, hgone.now, ?_, fun x hx => (getCore_putCore_ne _ _ hx).trans (hgone.others x hx)⟩, e, he, hcause, hsub, hinst⟩
  have hcore := hgone.core
  rw [getCore_putCore]
  generalize getCore u c = j at hcore
  rw [hcore]

/-- Settles O31: a write that aborts nothing stores the enables; one that aborts a stream takes its task away after the work of its grants. -/
theorem streamControlWritesComplete : Obligations.StreamControlWritesComplete := by
  intro s f c v hok hs
  have henables (h : bits v 63 32 = 0) : hostWrite s f (.dxeSctl c) (sctlEnables v) (fun s => writeSctl s c v) =
      putCore s c { getCore s c with sen := v.setWidth 32 } := (hok.hostWrite ..).trans (writeSctl_enables hs h)
  refine ⟨fun h hset => ?enable, fun h hclear => ?drain, fun st k hst h htask hhand => ?abort⟩
  case enable =>
    refine ⟨_, ?_, rfl, by constructor <;> rfl, by constructor <;> rfl, rfl, rfl⟩
    change execStreamEnable f c v s = _
    rw [execStreamEnable, if_pos (bne_iff_ne.2 hset), henables h]
  case drain =>
    refine ⟨_, ?_, rfl, by constructor <;> rfl, by constructor <;> rfl, rfl, rfl⟩
    change execStreamDrain f c v s = _
    rw [execStreamDrain, if_pos (bne_iff_ne.2 hclear), henables h]
  case abort =>
    have htask' : taskOf (sctlCore s c v) c st = some k := by
      rw [← htask]
      unfold taskOf sctlCore
      rw [getCore_putCore]
    obtain ⟨hcores, hgone, hevent⟩ := stopTask_gone htask'
    have hsen : (getCore (stopTask (sctlCore s c v) c st) c).sen = sctlEn v := by
      rw [hgone.sen, getCore_congr hcores, sctlCore, getCore_putCore]
    obtain ⟨-, hnone, htasks, hinsts⟩ := hgone.of_cores hcores
    have hsettle := hgone.settle ((sctlCore_still hs v).congr hcores)
    have hbit {n : Nat} (hn : n < 32) : bit v (32 + n) = decide (st = n) := by rw [bit_abort v hn, h, Nat.testBit_two_pow]
    refine ⟨stopTask (sctlCore s c v) c st, ?_, hnone, ?_, fun x hx hne => ?_, fun x hx => ?_, hevent, hgone.mem, ?_⟩
    · change execStreamAbort f c v s = _
      rw [execStreamAbort, if_pos (by rw [h]; exact (Nat.two_pow_pos st).ne'), hok.hostWrite, writeSctl_aborts hst h hhand, hsettle]
    · rw [hsen, bit_sctlEn v hst, hbit hst, decide_eq_true rfl, Bool.not_true, Bool.and_false]
    · rw [hsen, bit_sctlEn v hx, hbit hx, decide_eq_false (Ne.symm hne), Bool.not_false, Bool.and_true]
    · rw [htasks x hx, taskOf, sctlCore, getCore_putCore]
      rfl
    · rw [hinsts, sctlCore, getCore_putCore]

end Sys2Proof.Machine

namespace Sys2Proof.Machine

/-! The end of a stream task (R255 to R261, R266, R269, R288). -/

/-- A complete task's move made in state s, to which its run r belongs: the state and the task's counts. -/
def taskMoved (s : State) (c : CoreId) (st : Nat) (t : Task) (r : Run) : State × TaskCnt :=
  let d := taskDesc t
  if d.kind = 4 then
    let x := handCount s c st t r
    (x.1, x.2.cnt)
  else if windowDst d then
    let x := runReduce s c d t.ext none
    (x.1, { t.cnt with bytes := d.d2 * d.d1 * rowBytes d.d0 (fmtBits d.dstFmt), poison := x.2 })
  else
    let x := countRun (applyWrites s r.ws) c st t r (runBytes r)
    (if r.tagAll then (dstRanges c d t.ext).foldl (fun s y => tagRange s y.1 y.2) x.1 else x.1, x.2)

theorem handCount_noted (s : State) (c : CoreId) (st : Nat) (t : Task) (r : Run) : Noted (applyWrites s r.ws) (handCount s c st t r).1 := by
  unfold handCount
  dsimp only
  exact countRun_noted ..

/-- The counts, tags and events of a move whose writes are r's. -/
theorem taskMoved_noted {s : State} {c : CoreId} {st : Nat} {t : Task} {r : Run} (h : (taskDesc t).kind = 4 ∨ windowDst (taskDesc t) = false) :
    Noted (applyWrites s r.ws) (taskMoved s c st t r).1 := by
  unfold taskMoved
  dsimp only
  by_cases hk : (taskDesc t).kind = 4
  · rw [if_pos hk]
    exact handCount_noted ..
  · have hcount : Noted (applyWrites s r.ws) (countRun (applyWrites s r.ws) c st t r (runBytes r)).1 := countRun_noted ..
    rw [if_neg hk, if_neg (by rw [h.resolve_left hk]; decide)]
    dsimp only
    split
    · exact List.foldlRecOn (motive := Noted (applyWrites s r.ws)) _ _ hcount fun _ hx _ _ => hx.tagRange ..
    · exact hcount

theorem taskMoved_reduces {s : State} {c : CoreId} {st : Nat} {t : Task} {r : Run} (hk : (taskDesc t).kind ≠ 4) (hw : windowDst (taskDesc t) = true) :
    (taskMoved s c st t r).1 = (runReduce s c (taskDesc t) t.ext none).1 := by
  unfold taskMoved
  dsimp only
  rw [if_neg hk, if_pos hw]

theorem taskMoved_else (s : State) (c : CoreId) (st : Nat) (t : Task) (r : Run) :
    (taskMoved s c st t r).1.cores = s.cores ∧ (taskMoved s c st t r).1.now = s.now := by
  by_cases h : (taskDesc t).kind = 4 ∨ windowDst (taskDesc t) = false
  · have hnoted := taskMoved_noted (s := s) (c := c) (st := st) (r := r) h
    have hwork := (MemWork.refl s).applyWrites r.ws
    exact ⟨hnoted.cores.trans hwork.cores, hnoted.now.trans hwork.now⟩
  · obtain ⟨hk, hw⟩ := not_or.1 h
    have hwork := (MemWork.refl s).runReduce c (taskDesc t) t.ext none
    rw [taskMoved_reduces hk (by simpa using hw)]
    exact ⟨hwork.cores, hwork.now⟩

/-- Time has no part in what writes leave in memory. -/
theorem applyWrites_advance (s : State) (t : Nat) (ws : List ByteW) : (applyWrites (advance s t) ws).mem = (applyWrites s ws).mem := by
  have hsame : SameBytes s (advance s t) := ⟨rfl, rfl, fun _ => rfl⟩
  exact (hsame.applyWrites ws).mem

/-- A hand-off task that has all its tiles, and may write what is left, has that left to do (R259). -/
theorem taskRun_handFinish {s : State} {c : CoreId} {t : Task} (hk : (taskDesc t).kind = 4) (hall : handAll t = true)
    (hstop : (taskRun s c t).stop = none) : taskRun s c t = handFinish c (taskDesc t) t.ext := by
  unfold taskRun taskRunTo at hstop ⊢
  dsimp only at hstop ⊢
  rw [if_pos hk, if_pos hall] at hstop ⊢
  split at hstop
  · cases hstop
  · split at hstop
    · cases hstop
    · rfl

theorem completeTask_held {s : State} {c : CoreId} {st : Nat} {t : Task} (h : taskOf s c st = some t) (hk : (taskDesc t).kind = 4)
    (hall : handAll t = false) : completeTask s c st = s := by
  unfold completeTask
  rw [h]
  exact if_pos (.inr (.inl ⟨hk, by rw [hall]; rfl⟩))

/-- A task that meets no fault, has all its tiles and whose accesses no stack holds makes its move and leaves its stream. -/
theorem completeTask_eq {s : State} {c : CoreId} {st : Nat} {t : Task} (h : taskOf s c st = some t) (hstop : (taskRun (taskSeen s c t) c t).stop = none)
    (hall : (taskDesc t).kind = 4 → handAll t = true)
    (hheld : holdsRange s (readSeen s c (taskDesc t) t.ext ++ writesOf c t (taskRun (taskSeen s c t) c t)) = false) :
    let x := taskMoved (advance (taskSeen s c t) (t.issueAt + taskTime s c t)) c st t (taskRun (taskSeen s c t) c t)
    completeTask s c st = queueRecord (putTask x.1 c st none) c st t.inst t.iter t.ext (stCode .ok)
      (doneFlags x.2 (taskDesc t) (x.1.now - t.issueAt)) x.2 x.1.now t.issueAt := by
  intro x
  unfold completeTask
  rw [h]
  refine if_neg ?_
  rintro (hs | ⟨hk, ha⟩ | hr)
  · rw [hstop] at hs; cases hs
  · rw [hall hk] at ha; cases ha
  · rw [hheld] at hr; cases hr

/-- STREAM_TASK_COMPLETE of a task that meets no fault (R255 to R261, R266, R268, R288). -/
theorem streamTask_completes {s : State} {c : CoreId} {st : StreamId} {k : Task} (h : taskOf s c st.val = some k) (hs : StillCore s c)
    (hstop : (taskRun (taskSeen s c k) c k).stop = none) (hall : (taskDesc k).kind = 4 → handAll k = true)
    (hheld : holdsRange s (readSeen s c (taskDesc k) k.ext ++ writesOf c k (taskRun (taskSeen s c k) c k)) = false) :
    let v := taskSeen s c k
    let d := taskDesc k
    ∃ u, exec (.streamTaskComplete c st) s = .next u ∧ taskOf u c st.val = none ∧ u.now = max s.now (k.issueAt + taskTime s c k) ∧
      (d.kind = 4 → u.mem = (applyWrites v (handFinish c d k.ext).ws).mem) ∧
      (d.kind ≠ 4 → windowDst d = true → u.mem = (runReduce (advance v (k.issueAt + taskTime s c k)) c d k.ext none).1.mem) ∧
      (d.kind ≠ 4 → windowDst d = false → u.mem = (applyWrites v (taskRun v c k).ws).mem) ∧ (∀ x, x ≠ st.val → taskOf u c x = taskOf s c x) ∧
      (getCore u c).insts = (getCore s c).insts ∧ (∀ x : CoreId, x ≠ c → getCore u x = getCore s x) := by
  intro v d
  have hseen : MemWork s v := (taskSeen_reads s c k).work
  set t := k.issueAt + taskTime s c k with ht
  obtain ⟨x, hx⟩ : ∃ x, x = taskMoved (advance v t) c st.val k (taskRun v c k) := ⟨_, rfl⟩
  have heq := completeTask_eq h hstop hall hheld
  rw [← ht, ← hx] at heq
  have hgone := queueRecord_gone x.1 c st.val k.inst k.iter k.ext (stCode .ok) (doneFlags x.2 d (x.1.now - k.issueAt)) x.2 x.1.now k.issueAt
  rw [← heq] at hgone
  obtain ⟨hcores, hnow⟩ := taskMoved_else (advance v t) c st.val k (taskRun v c k)
  rw [← hx] at hcores hnow
  have hsame : x.1.cores = s.cores := hcores.trans hseen.cores
  obtain ⟨hothers, hnone, htasks, hinsts⟩ := hgone.of_cores hsame
  have hwrites (hr : d.kind = 4 ∨ windowDst d = false) : (completeTask s c st.val).mem = (applyWrites v (taskRun v c k).ws).mem := by
    rw [hgone.mem, hx, (taskMoved_noted hr).mem, applyWrites_advance]
  refine ⟨completeTask s c st.val, ?_, hnone, ?_, fun hk => ?_, fun hk hwin => ?_, fun _ hwin => hwrites (.inr hwin), htasks, hinsts, hothers⟩
  · change execStreamTaskComplete c st s = _
    rw [execStreamTaskComplete, hgone.settle (hs.congr hsame)]
  · rw [hgone.now, hnow, advance, hseen.now]
  · rw [hwrites (.inl hk), taskRun_handFinish hk (hall hk) hstop]
  · rw [hgone.mem, hx, taskMoved_reduces hk hwin]

/-- STREAM_TASK_FAULT of a task that meets a fault and takes no hand-off (R269, R271). -/
theorem streamTask_faults {s : State} {c : CoreId} {st : StreamId} {k : Task} {f : Status} (h : taskOf s c st.val = some k) (hs : StillCore s c)
    (hstop : (taskRun (taskSeen s c k) c k).stop = some f) (hhand : handTask s c st.val = none)
    (hheld : holdsRange s (readSeen s c (taskDesc k) k.ext) = false) :
    let v := taskSeen s c k
    ∃ u, exec (.streamTaskFault c st) s = .next u ∧ taskOf u c st.val = none ∧ u.now = s.now ∧
      u.mem = (applyWrites v (taskRun v c k).ws).mem ∧ (∀ x, x ≠ st.val → taskOf u c x = taskOf s c x) ∧
      (∃ e ∈ u.log.inFlight, e.cause = stCode f ∧ e.cls = clsTask ∧ e.sub = st.val ∧ e.inst = c.val) ∧
      (getCore u c).insts = (getCore s c).insts ∧ (∀ x : CoreId, x ≠ c → getCore u x = getCore s x) := by
  intro v
  have hwork : MemWork s (applyWrites v (taskRun v c k).ws) := (taskSeen_reads s c k).work.applyWrites _
  have hnoted := countRun_noted (applyWrites v (taskRun v c k).ws) c st.val k (taskRun v c k) (runBytes (taskRun v c k))
  obtain ⟨x, hx⟩ : ∃ x, x = countRun (applyWrites v (taskRun v c k).ws) c st.val k (taskRun v c k) (runBytes (taskRun v c k)) := ⟨_, rfl⟩
  rw [← hx] at hnoted
  have hfault : faultTask s c st.val = abortTask x.1 c st.val k (stCode f) clsTask x.2 x.1.now := by
    unfold faultTask
    rw [h]
    dsimp only
    rw [if_neg (by rw [hheld]; decide), hstop, hx]
  obtain ⟨hgone, hevent⟩ := abortTask_gone x.1 c st.val k (stCode f) clsTask x.2 x.1.now
  rw [← hfault] at hgone hevent
  have hsame : x.1.cores = s.cores := hnoted.cores.trans hwork.cores
  obtain ⟨hothers, hnone, htasks, hinsts⟩ := hgone.of_cores hsame
  refine ⟨faultTask s c st.val, ?_, hnone, hgone.now.trans (hnoted.now.trans hwork.now), hgone.mem.trans hnoted.mem, htasks, hevent, hinsts, hothers⟩
  change execStreamTaskFault c st s = _
  unfold execStreamTaskFault
  simp only [hhand, Option.isSome_none, Bool.false_and, Bool.false_eq_true, if_false]
  rw [hgone.settle (hs.congr hsame)]

end Sys2Proof.Machine

namespace Sys2Proof.Machine

/-! COMPLETION_RECORD_WRITE (R226, R268). -/

/-- Bytes written where no error is recorded into a scratchpad that holds them all. -/
theorem writeAll_lands {s : State} (hecc : s.ecc = []) {c : CoreId} {o : Nat} {bs : List Byte} (hin : o + bs.length ≤ 0x400000) (hpos : 0 < bs.length)
    (p : Bool) (a : Nat) : memByte (writeAll s (padAddr c o) bs p) a =
      if padAddr c o ≤ a ∧ a < padAddr c o + bs.length then nthD bs (a - padAddr c o) 0 else memByte s a := by
  have hne := List.ne_nil_of_length_pos hpos
  obtain ⟨hbyte, -⟩ := writePart_lands hecc hne (fun _ => p) (inPads_padAddr c o) (fun i hi => padUnit_of_range hin hpos hi) le_rfl
  rw [writeAll, writeBytes_eq _ hne, hbyte]
  refine if_congr ?_ rfl rfl
  unfold unitCountAt
  omega

/-- The FILL of a record's completion word leaves, or the log tells that the core may not reach the word (R226, R268). -/
def recordSent (s : State) (c : CoreId) (st : StreamId) (r : CompRec) : State :=
  match r.word? with
  | some (loc, a) =>
    let w := if loc then padBase c + a % 0x400000 else a
    match if loc then none else syncTarget s c w with
    | some why => logNoWord s (.stream c st.val) w why
    | none =>
      { s with feOps := s.feOps ++ [⟨s.nextOp, .stream c st.val, .fill, w, loc, r.value, none, r.due + 2, 0, 0, false, 0, none⟩],
               nextOp := s.nextOp + 1 }
  | none => s

theorem recordSent_else (s : State) (c : CoreId) (st : StreamId) (r : CompRec) :
    recordSent s c st r = { s with log := (recordSent s c st r).log, feOps := (recordSent s c st r).feOps, nextOp := (recordSent s c st r).nextOp } := by
  unfold recordSent
  split
  · dsimp only
    split <;> rfl
  · rfl

theorem recordSent_none {r : CompRec} (h : r.word? = none) (s : State) (c : CoreId) (st : StreamId) : recordSent s c st r = s := by
  unfold recordSent
  rw [h]

theorem recordSent_refused {s : State} {c : CoreId} {r : CompRec} {a : Nat} {why : Status} (h : r.word? = some (false, a))
    (hwhy : syncTarget s c a = some why) (st : StreamId) : recordSent s c st r = logNoWord s (.stream c st.val) a why := by
  unfold recordSent
  rw [h]
  simp only [Bool.false_eq_true, if_false, hwhy]

theorem recordSent_fill {s : State} {c : CoreId} {r : CompRec} {loc : Bool} {a : Nat} (h : r.word? = some (loc, a))
    (hok : loc = true ∨ syncTarget s c a = none) (st : StreamId) : ∃ op, (recordSent s c st r).feOps = s.feOps ++ [op] ∧ op.src = .stream c st.val ∧
      op.kind = .fill ∧ op.val = r.value ∧ op.isLocal = loc ∧ op.addr = (if loc then padBase c + a % 0x400000 else a) ∧ op.waiting = false := by
  unfold recordSent
  rw [h]
  cases loc with
  | true => exact ⟨_, rfl, rfl, rfl, rfl, rfl, rfl, rfl⟩
  | false =>
    simp only [Bool.false_eq_true, if_false, hok.resolve_left Bool.false_ne_true]
    exact ⟨_, rfl, rfl, rfl, rfl, rfl, rfl, rfl⟩

/-- Which words a core may reach is a matter of the slices and the windows. -/
theorem syncTarget_of_regs {s u : State} (h : u.regs = s.regs) (c : CoreId) (a : Nat) : syncTarget u c a = syncTarget s c a := by
  have hget (r : Reg) : rget u r = rget s r := rget_congr h r
  have hsect (n : N20) : sectSlice u n = sectSlice s n := sectSlice_congr (hget _)
  unfold syncTarget coreSlice
  split
  · simp only [hsect]
  · simp only [hsect, inWindow_congr (hget _)]
  · rfl

/-- The next record of a stream is written at its a-cycle, and its FILL leaves. -/
theorem execCompletionRecordWrite_first {s : State} {c : CoreId} {st : StreamId} {r : CompRec} {rest : List CompRec} {o : Nat}
    (hrecs : (getCore s c).crecs = r :: rest) (hst : r.stream = st.val) (ho : r.rec? = some o) :
    let w := recordSent (writeAll (advance s r.due) (padAddr c o) r.bytes false) c st r
    exec (.completionRecordWrite c st) s =
      .next (settleCore (putCore w c { getCore w c with crecs := (getCore w c).crecs.eraseP fun x => x.stream == st.val }) c) := by
  have hfind : (getCore s c).crecs.find? (fun r => r.stream == st.val) = some r := by
    rw [hrecs, List.find?_cons_of_pos (by rw [hst]; exact beq_self_eq_true _)]
  change execCompletionRecordWrite c st s = _
  unfold execCompletionRecordWrite
  dsimp only
  rw [hfind]
  dsimp only
  rw [ho]
  rfl

/-- COMPLETION_RECORD_WRITE of the next record of a stream, where no error is recorded in memory. -/
theorem completionRecord_written {s : State} {c : CoreId} {st : StreamId} {r : CompRec} {rest : List CompRec} {o : Nat}
    (hrecs : (getCore s c).crecs = r :: rest) (hst : r.stream = st.val) (ho : r.rec? = some o) (halign : o % 64 = 0) (hin : o < 0x400000)
    (hlen : r.bytes.length = 32) (hs : StillCore s c) (hecc : s.ecc = []) :
    ∃ u, exec (.completionRecordWrite c st) s = .next u ∧ u.now = max s.now r.due ∧ (getCore u c).crecs = rest ∧
      (∀ n, n < 32 → memByte u (padAddr c o + n) = nthD r.bytes n 0) ∧
      (∀ a, a < padAddr c o ∨ padAddr c o + 32 ≤ a → memByte u a = memByte s a) ∧
      (r.word? = none → u.feOps = s.feOps) ∧
      (∀ a why, r.word? = some (false, a) → syncTarget s c a = some why → u.feOps = s.feOps ∧ LogsExactly s u [stCode why]) ∧
      (∀ loc a, r.word? = some (loc, a) → (loc = true ∨ syncTarget s c a = none) → ∃ op, u.feOps = s.feOps ++ [op] ∧ op.src = .stream c st.val ∧
        op.kind = .fill ∧ op.val = r.value ∧ op.isLocal = loc ∧ op.addr = (if loc then padBase c + a % 0x400000 else a) ∧ op.waiting = false) ∧
      (getCore u c).insts = (getCore s c).insts ∧ (∀ x : CoreId, x ≠ c → getCore u x = getCore s x) := by
  have hwrites : PadWrites (advance s r.due) (writeAll (advance s r.due) (padAddr c o) r.bytes false) :=
    padWrites_writeAll (s := advance s r.due) hecc (inPads_padAddr ..) ..
  have hbytes := writeAll_lands (s := advance s r.due) hecc (c := c) (o := o) (bs := r.bytes) (by omega) (by omega) false
  set v := writeAll (advance s r.due) (padAddr c o) r.bytes false with hv
  have htarget (a : Nat) : syncTarget v c a = syncTarget s c a := syncTarget_of_regs (congrArg State.regs hwrites.rest :) c a
  have hfe : v.feOps = s.feOps := (congrArg State.feOps hwrites.rest :)
  have hlog : v.log = s.log := (congrArg State.log hwrites.rest :)
  have helse := recordSent_else v c st r
  set w := recordSent v c st r with hw
  have hcores : w.cores = s.cores := (congrArg State.cores helse).trans (congrArg State.cores hwrites.rest :)
  have hcore : getCore w c = getCore s c := getCore_congr hcores c
  have hmem (a : Nat) : memByte w a = memByte v a := by rw [memByte, memByte, (congrArg State.mem helse :)]
  have herase : (getCore s c).crecs.eraseP (fun x => x.stream == st.val) = rest := by
    rw [hrecs, List.eraseP_cons_of_pos (by rw [hst]; exact beq_self_eq_true _)]
  have hexec : exec (.completionRecordWrite c st) s =
      .next (settleCore (putCore w c { getCore w c with crecs := (getCore w c).crecs.eraseP fun x => x.stream == st.val }) c) :=
    execCompletionRecordWrite_first hrecs hst ho
  rw [hcore, herase] at hexec
  set u := putCore w c { getCore s c with crecs := rest } with hu
  have hself : getCore u c = { getCore s c with crecs := rest } := getCore_putCore ..
  have hsettle : settleCore u c = u := hs.settle (fun i hi => by rwa [hself] at hi) fun e => by
    rw [getEng, hself]
    exact hs.modes e
  refine ⟨u, by rw [hexec, hsettle], ?now, by rw [hself], fun n hn => ?inside, fun a ha => ?outside, fun hword => ?none,
    fun a why hword hwhy => ?refused, fun loc a hword hok => ?fill, by rw [hself],
    fun x hx => (getCore_putCore_ne _ _ hx).trans (getCore_congr hcores x)⟩
  case now => exact (congrArg State.now helse).trans (congrArg State.now hwrites.rest :)
  case inside =>
    change memByte w _ = _
    rw [hmem, hbytes, hlen, if_pos (by omega), Nat.add_sub_cancel_left]
  case outside =>
    change memByte w _ = _
    rw [hmem, hbytes, hlen, if_neg (by omega)]
    rfl
  case none =>
    change w.feOps = _
    rw [hw, recordSent_none hword, hfe]
  case refused =>
    have hrefused : w = logNoWord v (.stream c st.val) a why := recordSent_refused hword ((htarget a).trans hwhy) st
    have hlogged : Logged v w [stCode why] := by
      rw [hrefused]
      exact logged_logEv ..
    obtain ⟨evs, hevs, hcauses⟩ := hlogged.events
    exact ⟨(congrArg State.feOps hlogged.rest :).trans hfe, evs, by rw [← hlog]; exact hevs, hcauses⟩
  case fill =>
    obtain ⟨op, hop, hrest⟩ := recordSent_fill (s := v) hword (hok.imp_right fun h => (htarget a).trans h) st
    exact ⟨op, by rw [← hfe]; exact hop, hrest⟩

/-- Settles O20: a task's work is work in memory, so its cores hold all but the task after it; a record lies in one unit of a scratchpad. -/
theorem streamTasksAndTheirRecordsEnd : Obligations.StreamTasksAndTheirRecordsEnd := by
  refine ⟨fun s c st k h hs hecc => ⟨fun hk hall => ?_, fun hstop hall hheld => streamTask_completes h hs hstop hall hheld,
    fun f hstop hhand hheld => streamTask_faults h hs hstop hhand hheld⟩,
    fun s c st r rest o hrecs hst ho halign hin hlen hs hecc => completionRecord_written hrecs hst ho halign hin hlen hs hecc⟩
  refine ⟨s, ?_, h, SameMemory_refl s, rfl⟩
  change execStreamTaskComplete c st s = _
  rw [execStreamTaskComplete, completeTask_held h hk hall, hs.settle (fun _ hi => hi) hs.modes]

end Sys2Proof.Machine

namespace Sys2Proof.Machine

/-! The bytes that a reader finds after a write, wherever the unit is held (R228, R246). -/

/-- A list cut into pieces of one length. -/
theorem flatMap_range_take_drop {α : Type} (l : List α) (m n : Nat) : (List.range n).flatMap (fun k => (l.drop (m * k)).take m) = l.take (m * n) := by
  induction n with
  | zero => simp
  | succ n ih => rw [List.range_succ, List.flatMap_append, List.flatMap_singleton, ih, Nat.mul_succ, List.take_add]

theorem leBytes_leNat (bs : List Byte) : leBytes bs.length (leNat bs) = bs := by
  induction bs with
  | nil => rfl
  | cons b r ih =>
    have hb : BitVec.ofNat 8 (b.toNat + 256 * leNat r) = b := BitVec.eq_of_toNat_eq (by rw [BitVec.toNat_ofNat]; omega)
    have hr : (b.toNat + 256 * leNat r) / 256 = leNat r := by omega
    rw [List.length_cons, leNat, leBytes, hb, hr, ih]

theorem leNat_lt (bs : List Byte) : leNat bs < 256 ^ bs.length := by
  have h := leNat_leBytes bs.length (leNat bs)
  rw [leBytes_leNat] at h
  rw [h]
  exact Nat.mod_lt _ (Nat.pow_pos (by decide))

/-- Eight bytes of a unit, taken as a word and laid out again. -/
theorem leBytes_fieldAt {bs : List Byte} (hbs : bs.length = 64) {k : Nat} (hk : k < 8) :
    leBytes 8 (BitVec.ofNat 64 (fieldAt bs (8 * k) 8)).toNat = (bs.drop (8 * k)).take 8 := by
  have hlen : ((bs.drop (8 * k)).take 8).length = 8 := by rw [List.length_take, List.length_drop]; omega
  have hfield : fieldAt bs (8 * k) 8 = leNat ((bs.drop (8 * k)).take 8) := by
    rw [fieldAt, bytesAt, hlen, Nat.sub_self, List.replicate_zero, List.append_nil]
  have hlt := leNat_lt ((bs.drop (8 * k)).take 8)
  have hback := leBytes_leNat ((bs.drop (8 * k)).take 8)
  rw [hlen] at hlt hback
  rw [hfield, BitVec.toNat_ofNat, Nat.mod_eq_of_lt (show _ < 2 ^ 64 from hlt), hback]

/-- The words of sync line v with new bytes. -/
def syncPut (t : Tab SyncWord) (v : Nat) (bs : List Byte) : Tab SyncWord :=
  words8.foldl (fun t k => tset t ⟨0, false⟩ (8 * v + k) ⟨BitVec.ofNat 64 (fieldAt bs (8 * k) 8), (tget t ⟨0, false⟩ (8 * v + k)).full⟩) t

theorem syncPut_in (t : Tab SyncWord) (v : Nat) (bs : List Byte) {k : Nat} (hk : k < 8) :
    (tget (syncPut t v bs) ⟨0, false⟩ (8 * v + k)).v = BitVec.ofNat 64 (fieldAt bs (8 * k) 8) := by
  have h := tget_foldl_change (⟨0, false⟩ : SyncWord) (key := fun k => 8 * v + k) (fun x y h => by simpa using h)
    (fun k w => ⟨BitVec.ofNat 64 (fieldAt bs (8 * k) 8), w.full⟩) (l := words8) (by decide) t (mem_words8.2 hk)
  exact congrArg SyncWord.v h

theorem syncPut_out (t : Tab SyncWord) {v : Nat} (bs : List Byte) {w : Nat} (hw : w / 8 ≠ v) :
    tget (syncPut t v bs) ⟨0, false⟩ w = tget t ⟨0, false⟩ w := by
  refine tget_foldl_change_other _ (key := fun k => 8 * v + k) (fun k w => ⟨BitVec.ofNat 64 (fieldAt bs (8 * k) 8), w.full⟩) t fun k hk => ?_
  have := mem_words8.1 hk
  omega

/-- A unit takes writes: it lies in a scratchpad, on a sync line or in a stack's page in use. -/
def Writable (s : State) (v : Nat) : Prop := homeOf s v ≠ .nowhere ∧ ∀ n, homeOf s v ≠ .retired n

/-- A unit written reads as merged, every other unit as before. -/
theorem unitBytes_bytesPut {s : State} {v o : Nat} (hv : Writable s v) {new : List Byte} (h : o + new.length ≤ 64) (n : Nat) :
    unitBytes (bytesPut s v (chOf o new)) n = if n = v then mergeBytes (unitBytes s v) (chOf o new) else unitBytes s n := by
  set bs := mergeBytes (unitBytes s v) (chOf o new) with hbs
  have hlen : bs.length = 64 := length_mergeBytes (length_unitBytes ..) h
  have hmem (hput : bytesPut s v (chOf o new) = { s with mem := twrite s.mem memDefault (64 * v) bs }) (hh : ∀ m, homeOf s v ≠ .sync m) :
      unitBytes (bytesPut s v (chOf o new)) n = if n = v then bs else unitBytes s n := by
    have hhome : homeOf { s with mem := twrite s.mem memDefault (64 * v) bs } n = homeOf s n := rfl
    rw [hput]
    by_cases hn : n = v
    · subst hn
      have hself := tread_twrite_self s.mem memDefault (64 * n) bs
      rw [hlen] at hself
      rw [if_pos rfl]
      unfold unitBytes
      rw [hhome]
      cases hm : homeOf s n with
      | sync m => exact absurd hm (hh m)
      | retired m => exact absurd hm (hv.2 m)
      | nowhere => exact absurd hm hv.1
      | dram m => exact hself
      | pad c i => exact hself
    · have hapart : tread (twrite s.mem memDefault (64 * v) bs) memDefault (64 * n) 64 = tread s.mem memDefault (64 * n) 64 :=
        tread_twrite_apart _ _ (by omega)
      rw [if_neg hn]
      unfold unitBytes
      rw [hhome, hapart]
  cases hh : homeOf s v with
  | nowhere => exact absurd hh hv.1
  | retired m => exact absurd hh (hv.2 m)
  | dram m => exact hmem (by simp only [bytesPut, hh, ← hbs]) fun _ => by rw [hh]; simp
  | pad c i => exact hmem (by simp only [bytesPut, hh, ← hbs]) fun _ => by rw [hh]; simp
  | sync m =>
    have hput : bytesPut s v (chOf o new) = { s with syncw := syncPut s.syncw v bs } := by simp only [bytesPut, hh, ← hbs, syncPut]
    have hhome : homeOf { s with syncw := syncPut s.syncw v bs } n = homeOf s n := rfl
    rw [hput]
    by_cases hn : n = v
    · subst hn
      have hwords : (List.range 8).flatMap (fun k => leBytes 8 (tget (syncPut s.syncw n bs) ⟨0, false⟩ (8 * n + k)).v.toNat) =
          (List.range 8).flatMap fun k => (bs.drop (8 * k)).take 8 := by
        refine congrArg List.flatten (List.map_congr_left fun k hk => ?_)
        have hk8 := List.mem_range.1 hk
        rw [syncPut_in _ _ _ hk8, leBytes_fieldAt hlen hk8]
      rw [if_pos rfl]
      unfold unitBytes
      rw [hhome, hh]
      exact hwords.trans (by rw [flatMap_range_take_drop, List.take_of_length_le hlen.le])
    · have hwords : (List.range 8).flatMap (fun k => leBytes 8 (tget (syncPut s.syncw v bs) ⟨0, false⟩ (8 * n + k)).v.toNat) =
          (List.range 8).flatMap fun k => leBytes 8 (tget s.syncw ⟨0, false⟩ (8 * n + k)).v.toNat := by
        refine congrArg List.flatten (List.map_congr_left fun k hk => ?_)
        have := List.mem_range.1 hk
        rw [syncPut_out _ _ (by omega)]
      rw [if_neg hn]
      unfold unitBytes
      rw [hhome, hwords]

/-- The byte that a reader finds at an address. -/
def byteAt (s : State) (a : Nat) : Byte := nthD (unitBytes s (a / 64)) (a % 64) 0

theorem SameBytes.byteAt {s u : State} (h : SameBytes s u) (a : Nat) : byteAt u a = byteAt s a := by rw [Machine.byteAt, h.unitBytes]; rfl

theorem memBytes_one (s : State) (a : Nat) : memBytes s a 1 = [byteAt s a] := by
  have hcount : (a + 1 - 1) / 64 + 1 - a / 64 = 1 := by omega
  have hin : a % 64 < (unitBytes s (a / 64)).length := by rw [length_unitBytes]; omega
  unfold memBytes
  dsimp only
  rw [if_neg (by decide), hcount, List.range_one, List.flatMap_singleton, Nat.add_zero, List.drop_eq_getElem_cons hin, List.take_succ_cons, List.take_zero,
    byteAt, nthD, List.getD_eq_getElem _ _ hin]

/-- Byte j of a unit with new bytes at offset o. -/
theorem nthD_merge_chOf {old new : List Byte} (hold : old.length = 64) {o : Nat} (h : o + new.length ≤ 64) {j : Nat} (hj : j < 64) :
    nthD (mergeBytes old (chOf o new)) j 0 = if o ≤ j ∧ j < o + new.length then nthD new (j - o) 0 else nthD old j 0 := by
  rw [← merged_chAt, chOf_eq h]
  simp [nthD, mergeBytes, hold, hj]

/-- What a write of new bytes at offset o of a unit leaves of every byte. -/
theorem byteAt_writeUnit {s : State} {v o : Nat} (hv : Writable s v) {new : List Byte} (hne : new ≠ []) (h : o + new.length ≤ 64) (p : Bool) (a : Nat) :
    byteAt (writeUnit s v o new p) a =
      if 64 * v + o ≤ a ∧ a < 64 * v + o + new.length then nthD new (a - (64 * v + o)) 0 else byteAt s a := by
  have hput := writeMaskedAs_bytes false s v (chOf_all_zero h hne) p
  rw [writeUnit, writeMasked, hput.byteAt, byteAt, unitBytes_bytesPut hv h]
  by_cases hin : a / 64 = v
  · rw [if_pos hin, nthD_merge_chOf (length_unitBytes ..) h (Nat.mod_lt _ (by decide)), byteAt, hin, show a % 64 - o = a - (64 * v + o) by omega]
    exact if_congr (by omega) rfl rfl
  · rw [if_neg hin, if_neg (by omega)]
    rfl

theorem writePart_work (s : State) (a : Nat) (bs : List Byte) (p : Nat → Bool) (k : Nat) : MemWork s (writePart s a bs p k) :=
  memWork_foldl (fun _ _ ht => ht.writeMaskedAs ..) _ (.refl s)

/-- What the first k units of a write leave of every byte. -/
theorem byteAt_writePart {s : State} {a : Nat} {bs : List Byte} (hne : bs ≠ []) (p : Nat → Bool)
    (hw : ∀ i < unitCountAt a bs.length, Writable s (a / 64 + i)) {k : Nat} (hk : k ≤ unitCountAt a bs.length) (x : Nat) :
    byteAt (writePart s a bs p k) x = if a ≤ x ∧ x < a + bs.length ∧ x < 64 * (a / 64 + k) then nthD bs (x - a) 0 else byteAt s x := by
  induction k with
  | zero => exact (if_neg (by omega)).symm
  | succ k ih =>
    obtain ⟨hlt, hle, hend, hunit, hwithin, hmax⟩ := part_bounds (List.length_pos_iff.2 hne) (show k < unitCountAt a bs.length by omega)
    rw [writePart_succ]
    have hhi : partHi a bs.length k = min (a + bs.length) (64 * (a / 64 + k + 1)) := rfl
    set lo := partLo a k
    set hi := partHi a bs.length k
    have hlen : ((bs.drop (lo - a)).take (hi - lo)).length = hi - lo := by rw [List.length_take, List.length_drop]; omega
    have hhomes := (writePart_work s a bs p k).homes
    have hv : Writable (writePart s a bs p k) (a / 64 + k) := by
      unfold Writable
      rw [hhomes.home]
      exact hw k (by omega)
    rw [byteAt_writeUnit hv (List.ne_nil_of_length_pos (by omega)) (by omega), ih (by omega), hlen, hunit]
    by_cases hin : lo ≤ x ∧ x < lo + (hi - lo)
    · rw [if_pos hin, if_pos (by omega)]
      have hidx : lo - a + (x - lo) = x - a := by omega
      simp [nthD, hidx, show x - lo < hi - lo by omega]
    · rw [if_neg hin]
      exact if_congr (by omega) rfl rfl

/-- A write to units that take it: its bytes stand, every other byte reads as before. -/
theorem byteAt_writeAll {s : State} {a : Nat} {bs : List Byte} (hne : bs ≠ []) (p : Bool)
    (hw : ∀ i < unitCountAt a bs.length, Writable s (a / 64 + i)) (x : Nat) :
    byteAt (writeAll s a bs p) x = if a ≤ x ∧ x < a + bs.length then nthD bs (x - a) 0 else byteAt s x := by
  rw [writeAll, writeBytes_eq _ hne, byteAt_writePart hne _ hw le_rfl]
  refine if_congr ?_ rfl rfl
  unfold unitCountAt
  omega

end Sys2Proof.Machine

namespace Sys2Proof.Machine

/-! BAR2 (R246, R382, R408). -/

/-- A reachable byte lies in a unit that is held somewhere. -/
theorem homeOf_ne_nowhere_of_bar2Place {s : State} {x : Nat} (h : bar2Place s x = true) : homeOf s (x / 64) ≠ .nowhere := by
  cases hp : placeOf x with
  | pad c off =>
    obtain ⟨hlo, hc⟩ := placeOf_eq_pad hp
    have := c.isLt
    obtain ⟨c', o, hunit⟩ := placeOf_pad (a := 64 * (x / 64)) (by omega) (by omega)
    simp [homeOf, hunit]
  | stack n off =>
    obtain ⟨hx, hoff, hn, -⟩ := placeOf_stack hp
    have hunit : placeOf (64 * (x / 64)) = .stack n (64 * (x / 64) % 0x1000000000) := placeOf_of_stack (by omega) (by omega) (by omega)
    simp only [homeOf, hunit]
    split
    · simp
    · split <;> simp
  | win k n off => simp [bar2Place, hp] at h
  | nothing => simp [bar2Place, hp] at h

/-- The first byte of unit i of an access, as the check of the access takes it. -/
theorem bar2Place_of_bar2Check {s : State} {f : FuncId} {off : BitVec 36} {n a : Nat} (h : bar2Check s f off n = (.ok, a)) (hn : 0 < n)
    {i : Nat} (hi : i < unitCountAt a n) : bar2Place s (partLo a i) = true := by
  unfold bar2Check at h
  split at h
  · simp at h
  next b _ =>
    dsimp only at h
    rw [if_neg hn.ne'] at h
    split at h
    · simp at h
    next hplace =>
      have hall : (b :: (List.range ((b + n - 1) / 64 - b / 64)).map fun i => 64 * (b / 64 + i + 1)).all (bar2Place s) = true := by simpa using hplace
      obtain rfl : b = a := by
        split at h
        · simp at h
        · exact congrArg Prod.snd h
      refine List.all_eq_true.1 hall _ ?_
      unfold unitCountAt at hi
      unfold partLo
      split
      · exact List.mem_cons_self
      · exact List.mem_cons_of_mem _ (List.mem_map.2 ⟨i - 1, List.mem_range.2 (by omega), by omega⟩)

/-- The units of an access that the check permits, none in a retired page, take writes. -/
theorem writable_of_bar2Check {s : State} {f : FuncId} {off : BitVec 36} {n a : Nat} (h : bar2Check s f off n = (.ok, a)) (hn : 0 < n)
    (hkept : ∀ i, i < n → ∀ m, homeOf s ((a + i) / 64) ≠ .retired m) {i : Nat} (hi : i < unitCountAt a n) : Writable s (a / 64 + i) := by
  obtain ⟨hlt, hle, hend, hunit, -, -⟩ := part_bounds hn hi
  have hplace := homeOf_ne_nowhere_of_bar2Place (bar2Place_of_bar2Check h hn hi)
  have hhome := hkept (partLo a i - a) (by omega)
  rw [show partLo a i / 64 = a / 64 + i by omega] at hplace
  rw [show (a + (partLo a i - a)) / 64 = a / 64 + i by omega] at hhome
  exact ⟨hplace, hhome⟩

section Access
variable {s : State} {f : FuncId} (hf : funcExists s f = true) {off : BitVec 36}
include hf

theorem exec_bar2Read {a len : Nat} {st : Status} (hlen : 0 < len) (h : bar2Check s f off len = (st, a)) (soon : Bool) :
    exec (.bar2Read f off len soon) s = .next (if st ≠ .ok then emit (bar2Refuse s f off st soon) (.readReply f (List.replicate len 0xFF) false)
      else if holdsRange s [(a, len)] then { s with held := s.held ++ [.read f a len] } else readBar2 s f a len) := by
  change execBar2Read .. = _
  have hzero : (len == 0) = false := beq_eq_false_iff_ne.2 (by omega)
  simp only [execBar2Read, hf, hzero, h, Bool.not_true, Bool.or_false, if_neg Bool.false_ne_true]

theorem exec_bar2Write {a : Nat} {d : List Byte} {st : Status} (hd : d ≠ []) (h : bar2Check s f off d.length = (st, a)) (poisoned soon : Bool) :
    exec (.bar2Write f off d poisoned soon) s = .next (if st ≠ .ok then bar2Refuse s f off st soon
      else if poisoned then bar2Refuse s f off .protection soon
      else if holdsRange s [(a, d.length)] then { s with held := s.held ++ [.write f a d] } else writeAll s a d false) := by
  change execBar2Write .. = _
  have hempty : d.isEmpty = false := List.isEmpty_eq_false_iff.2 hd
  simp only [execBar2Write, hf, hempty, h, Bool.not_true, Bool.or_false, if_neg Bool.false_ne_true]

end Access

theorem memPoison_congr {s u : State} (h : ∀ n, unitPoison u n = unitPoison s n) (a n : Nat) : memPoison u a n = memPoison s a n := by
  simp only [memPoison, h]

/-- What a read finds on the way changes no unit's poison where no error is recorded. -/
theorem ReadWork.unitPoison {s u : State} (h : ReadWork s u) (hecc : s.ecc = []) (n : Nat) : unitPoison u n = unitPoison s n := by
  obtain ⟨htags, hsync⟩ := h.tags hecc
  rw [Machine.unitPoison, h.work.homes.home, htags, hsync]
  rfl

/-- A BAR2 read: the bytes with their poison go out, and no byte changes. -/
theorem readBar2_reads {s : State} (hecc : s.ecc = []) (f : FuncId) (a n : Nat) :
    (readBar2 s f a n).out = .readReply f (memBytes s a n) (memPoison s a n) :: s.out ∧ (readBar2 s f a n).mem = s.mem ∧
      (readBar2 s f a n).poison = s.poison ∧ (readBar2 s f a n).cores = s.cores := by
  have hread := (ReadWork.refl s).touchRange a n
  refine ⟨?_, hread.mem, (hread.tags hecc).1, hread.work.cores⟩
  change _ :: (touchRange s a n).out = _
  rw [hread.work.out, hread.bytes.memBytes, memPoison_congr (hread.unitPoison hecc)]

/-- A refusal that is its function's first logs one event (R382). -/
theorem bar2Refuse_logs {s : State} {f : FuncId} (hnone : tget s.mp.refusal none f.val = none) (off : BitVec 36) (why : Status) (soon : Bool) :
    LogsExactly s (bar2Refuse s f off why soon) [stCode why] ∧ SameMemory s (bar2Refuse s f off why soon) ∧ (bar2Refuse s f off why soon).out = s.out := by
  have hlogged := logged_logEv s (stCode why) clsNone (sliceByte (funcSlice f)) 7 0xFF f.val (mkDetail 0 off.toNat)
  unfold bar2Refuse
  rw [hnone]
  exact ⟨hlogged.events, ⟨rfl, rfl, rfl, rfl, rfl, rfl⟩, rfl⟩

/-- A refusal within 1 ms of its function's last counts in that one's event (R382). -/
theorem bar2Refuse_counts {s : State} {f : FuncId} {id : Nat} (hsome : tget s.mp.refusal none f.val = some id) (off : BitVec 36) (why : Status) :
    bar2Refuse s f off why true = countMore s id := by
  unfold bar2Refuse
  rw [hsome]
  rfl

theorem countMore_inFlight (s : State) (id : Nat) : (countMore s id).log.inFlight.length = s.log.inFlight.length ∧
    ∀ e ∈ s.log.inFlight, e.id = id → { e with rep := min 0xFFFF (e.rep + 1) } ∈ (countMore s id).log.inFlight :=
  ⟨List.length_map _, fun e he hid => List.mem_map.2 ⟨e, he, if_pos (beq_iff_eq.2 hid)⟩⟩

/-! Functions and the link (R378, R380). -/

/-- A function after its reset: its registers at their reset values, no reply of it waiting, its packets mute. -/
def FuncGone (u : State) (f : FuncId) : Prop :=
  (∀ r, fget u f r = regReset r) ∧ (∀ x, x ∈ u.mp.replies → x.f ≠ f) ∧ ∀ t, t ∈ u.mp.taken → t.f = f → t.mute = true

theorem fget_resetFunc_self (s : State) (f : FuncId) (r : Reg) : fget (resetFunc s f) f r = regReset r := by
  have := regOff_lt r
  exact tget_tclear_in _ _ (by unfold fkey; omega)

theorem fget_resetFunc_of_ne (s : State) {f g : FuncId} (h : g ≠ f) (r : Reg) : fget (resetFunc s f) g r = fget s g r := by
  have := regOff_lt r
  have hne : g.val ≠ f.val := fun hv => h (Fin.ext hv)
  exact tget_tclear_out _ _ (by unfold fkey; omega)

theorem funcGone_resetFunc (s : State) (f : FuncId) : FuncGone (resetFunc s f) f := by
  refine ⟨fget_resetFunc_self s f, fun x hx => bne_iff_ne.1 (List.mem_filter.1 hx).2, fun t ht htf => ?_⟩
  obtain ⟨t0, -, rfl⟩ := List.mem_map.1 ht
  by_cases h0 : (t0.f == f) = true
  · simp only [if_pos h0]
  · rw [if_neg h0] at htf
    exact absurd (beq_iff_eq.2 htf) h0

/-- A function that is reset stays so when another one is. -/
theorem FuncGone.resetFunc {s : State} {g : FuncId} (h : FuncGone s g) (f : FuncId) : FuncGone (resetFunc s f) g := by
  by_cases hfg : g = f
  · subst hfg
    exact funcGone_resetFunc s g
  · obtain ⟨hregs, hreplies, hmute⟩ := h
    refine ⟨fun r => (fget_resetFunc_of_ne s hfg r).trans (hregs r), fun x hx => hreplies x (List.mem_filter.1 hx).1, fun t ht htf => ?_⟩
    obtain ⟨t0, ht0, rfl⟩ := List.mem_map.1 ht
    by_cases h0 : (t0.f == f) = true
    · simp only [if_pos h0]
    · rw [if_neg h0] at htf ⊢
      exact hmute t0 ht0 htf

theorem funcGone_foldl_resetFunc {l : List FuncId} {f : FuncId} (hf : f ∈ l) (s : State) : FuncGone (l.foldl resetFunc s) f := by
  induction l generalizing s with
  | nil => cases hf
  | cons g l ih =>
    obtain rfl | hl := List.mem_cons.1 hf
    · exact List.foldlRecOn (motive := (FuncGone · f)) l resetFunc (funcGone_resetFunc s f) fun _ h g _ => h.resetFunc g
    · exact ih hl _

theorem funcGone_allFuncs (s : State) (f : FuncId) : FuncGone (allFuncs.foldl resetFunc s) f := funcGone_foldl_resetFunc (List.mem_finRange f) s

/-- A reset of functions touches their registers and the management processor's tables only. -/
theorem foldl_resetFunc_rest (l : List FuncId) (s : State) :
    l.foldl resetFunc s = { s with fregs := (l.foldl resetFunc s).fregs, mp := (l.foldl resetFunc s).mp } :=
  List.foldlRecOn (motive := fun u => u = { s with fregs := u.fregs, mp := u.mp }) l resetFunc rfl fun u hu f _ => by
    conv_lhs => rw [hu]
    rfl

/-- The link's width and speed stand in two fields of one register (R400). -/
theorem setLink_fields (s : State) {w sp : Nat} (hw : w < 2 ^ 5) (hsp : sp < 2 ^ 4) :
    let u := rsetf (rsetf s .hubFunc 4 0 w) .hubFunc 19 16 sp
    rfld u .hubFunc 4 0 = w ∧ rfld u .hubFunc 19 16 = sp ∧ ∀ r, r ≠ .hubFunc → rget u r = rget s r :=
  ⟨(rfld_rsetf_apart _ _ _ (by decide)).trans (rfld_rsetf_self s _ (by decide) hw), rfld_rsetf_self _ _ (by decide) hsp,
    fun _ hr => (rget_rsetf_of_ne _ _ _ _ hr).trans (rget_rsetf_of_ne _ _ _ _ hr)⟩

theorem perstAssert_clears (s : State) : ∃ u, exec .perstAssert s = .next u ∧ (∀ f, FuncGone u f) ∧ SameMemory s u ∧ u.cores = s.cores ∧
    u.out = s.out ∧ rfld u .hubFunc 4 0 = 0 ∧ rfld u .hubFunc 19 16 = 0 ∧ ∀ r, r ≠ .hubFunc → rget u r = rget s r := by
  have hgone := funcGone_allFuncs s
  have hrest := foldl_resetFunc_rest allFuncs s
  have hexec : exec .perstAssert s = .next (rsetf (rsetf (allFuncs.foldl resetFunc s) .hubFunc 4 0 0) .hubFunc 19 16 0) := rfl
  generalize allFuncs.foldl resetFunc s = t at hgone hrest hexec
  obtain ⟨hwidth, hspeed, hother⟩ := setLink_fields t (w := 0) (sp := 0) (by decide) (by decide)
  have hmem : SameMemory s t := by rw [hrest]; constructor <;> rfl
  exact ⟨_, hexec, hgone, ⟨hmem.mem, hmem.poison, hmem.feb, hmem.syncw, hmem.syncp, hmem.ecc⟩,
    (congrArg State.cores hrest :), (congrArg State.out hrest :), hwidth, hspeed, fun r hr => (hother r hr).trans (rget_congr (congrArg State.regs hrest :) r)⟩

theorem pcieLinkUp_sets {s : State} {w : Fin 17} {sp : Fin 7} (hheld : s.fw.phase ≠ .held) (hpin : s.fw.pinLow = false)
    (hw : w.val ≠ 0) (hsp : sp.val ≠ 0) :
    ∃ u, exec (.pcieLinkUp w sp) s = .next u ∧ rfld u .hubFunc 4 0 = w.val ∧ rfld u .hubFunc 19 16 = sp.val ∧
      (∀ r, r ≠ .hubFunc → rget u r = rget s r) ∧ SameMemory s u ∧ LogsExactly s u (if w.val = 16 ∧ sp.val = 6 then [] else [ntGeneral]) := by
  obtain ⟨hwidth, hspeed, hother⟩ := setLink_fields s (w := w.val) (sp := sp.val) (by omega) (by omega)
  set t := rsetf (rsetf s .hubFunc 4 0 w.val) .hubFunc 19 16 sp.val with ht
  have hmem : SameMemory s t := ⟨rfl, rfl, rfl, rfl, rfl, rfl⟩
  have hexec : exec (.pcieLinkUp w sp) s = .next (if w.val = 16 ∧ sp.val = 6 then t else logGeneral t 7 0 (regOff .hubFunc)) := by
    change execPcieLinkUp w sp s = _
    rw [execPcieLinkUp, if_neg (by simp [hheld, hpin, hw, hsp])]
  by_cases hfull : w.val = 16 ∧ sp.val = 6
  · rw [if_pos hfull] at hexec ⊢
    exact ⟨t, hexec, hwidth, hspeed, hother, hmem, (Logged.refl t).events⟩
  · rw [if_neg hfull] at hexec ⊢
    have hlogged : Logged t (logGeneral t 7 0 (regOff .hubFunc)) [ntGeneral] := logged_logEv ..
    exact ⟨_, hexec, (rfld_congr (hlogged.rget _) ..).trans hwidth, (rfld_congr (hlogged.rget _) ..).trans hspeed,
      fun r hr => (hlogged.rget r).trans (hother r hr), ⟨hmem.mem, hmem.poison, hmem.feb, hmem.syncw, hmem.syncp, hmem.ecc⟩, hlogged.events⟩

/-- Settles O50: the units of an access that the check permits take writes, and a reset clears the keys of its functions. -/
theorem functionsAndBar2Complete : Obligations.FunctionsAndBar2Complete := by
  refine fun s => ⟨fun f off a hf _ => ⟨?heldRead, ?heldWrite, ?read, ?write, ?refused, ?poisoned, ?counted⟩, ⟨?vf, ?pf, perstAssert_clears s⟩,
    fun w sp hheld hpin hw hsp => pcieLinkUp_sets hheld hpin hw hsp⟩
  case heldRead =>
    intro len soon hlen hok hheld
    rw [exec_bar2Read hf hlen hok, if_neg (not_not.2 rfl), if_pos hheld]
  case heldWrite =>
    intro d soon hd hok hheld
    rw [exec_bar2Write hf hd hok, if_neg (not_not.2 rfl), if_neg Bool.false_ne_true, if_pos hheld]
  case read =>
    intro len soon hlen hok hfree hecc
    refine ⟨readBar2 s f a len, ?_, readBar2_reads hecc f a len⟩
    rw [exec_bar2Read hf hlen hok, if_neg (not_not.2 rfl), hfree, if_neg Bool.false_ne_true]
  case write =>
    intro d soon hd hok hfree hecc hkept
    have hlen := List.length_pos_iff.2 hd
    have hbyte := byteAt_writeAll hd false fun i hi => writable_of_bar2Check hok hlen hkept hi
    have hwork := (MemWork.refl s).writeAll a d false
    refine ⟨writeAll s a d false, ?_, fun i hi => ?_, fun b hb => ?_, hwork.feb, hwork.cores, (hwork.clean hecc).2, hwork.out⟩
    · rw [exec_bar2Write hf hd hok, if_neg (not_not.2 rfl), if_neg Bool.false_ne_true, hfree, if_neg Bool.false_ne_true]
    · rw [memBytes_one, hbyte, if_pos (by omega), Nat.add_sub_cancel_left]
    · rw [memBytes_one, memBytes_one, hbyte, if_neg (by omega)]
  case refused =>
    rintro len d st hlen rfl hst hwhy hnone
    obtain ⟨hlogs, hmem, hout⟩ := bar2Refuse_logs hnone off st false
    refine ⟨emit (bar2Refuse s f off st false) (.readReply f (List.replicate d.length 0xFF) false), _, ?_,
      congrArg (_ :: ·) hout, hlogs, ⟨hmem.mem, hmem.poison, hmem.feb, hmem.syncw, hmem.syncp, hmem.ecc⟩, ?_, hout, hlogs, hmem⟩
    · rw [exec_bar2Read hf hlen hwhy, if_pos hst]
    · rw [exec_bar2Write hf (List.length_pos_iff.1 hlen) hwhy, if_pos hst]
  case poisoned =>
    intro d hd hok hnone
    obtain ⟨hlogs, hmem, -⟩ := bar2Refuse_logs hnone off .protection false
    refine ⟨_, ?_, hlogs, hmem⟩
    rw [exec_bar2Write hf hd hok, if_neg (not_not.2 rfl), if_pos rfl]
  case counted =>
    intro len st id hlen hst hwhy hsome
    refine ⟨emit (countMore s id) (.readReply f (List.replicate len 0xFF) false), ?_, countMore_inFlight s id⟩
    rw [exec_bar2Read hf hlen hwhy, if_pos hst, bar2Refuse_counts hsome]
  case vf =>
    intro n hn
    refine ⟨resetFunc s (sliceFunc n), ?_, funcGone_resetFunc s _, ⟨rfl, rfl, rfl, rfl, rfl, rfl⟩, rfl, rfl, rfl,
      fun _ r hne => fget_resetFunc_of_ne s hne r⟩
    change execVfFlr n s = _
    rw [execVfFlr, if_pos hn]
  case pf =>
    have hrest := foldl_resetFunc_rest allFuncs s
    refine ⟨allFuncs.foldl resetFunc s, rfl, funcGone_allFuncs s, ?_, (congrArg State.regs hrest :), (congrArg State.cores hrest :),
      (congrArg State.out hrest :)⟩
    rw [hrest]
    constructor <;> rfl

end Sys2Proof.Machine

namespace Sys2Proof.Machine

/-! What a read finds where no error is recorded (R287, R295, R296). -/

theorem eccCheck_of_ecc_nil {s : State} (hecc : s.ecc = []) {u : Nat} (hkept : ∀ n, homeOf s u ≠ .retired n) (ks : List Nat) : eccCheck s u ks = s := by
  unfold eccCheck
  split
  next n hn => exact absurd hn (hkept n)
  next => simp [eccFind_of_ecc_nil hecc]

/-- A unit outside the retired pages that is found clean is left as it is. -/
theorem sectorFind_clean {s : State} (hecc : s.ecc = []) {u : Nat} (hkept : ∀ n, homeOf s u ≠ .retired n) : sectorFind s u .clean = s := by
  have hcheck := eccCheck_of_ecc_nil hecc hkept words8
  unfold sectorFind
  split
  · split
    · exact hcheck
    · simp [corrects, eccFind_of_ecc_nil hecc]
  · exact hcheck

/-! The patrol of a stack (R465, R470). -/

theorem patrolNext_some {s : State} {n : N20} {k p i : Nat} (h : patrolNext s n k p = some i) :
    i < stkSectors ∧ pageRetired s n (i / pageSectors) = false := by
  induction k generalizing p with
  | zero => cases h
  | succ k ih =>
    rw [patrolNext] at h
    split at h
    · cases h
    next hlt =>
      split at h
      · exact ih h
      next hpage =>
        cases h
        exact ⟨Nat.lt_of_not_le hlt, Bool.not_eq_true _ ▸ hpage⟩

/-- Where a unit of a stack is held. -/
theorem homeOf_stack {s : State} {v off : Nat} {n : N20} (h : placeOf (64 * v) = .stack n off) :
    homeOf s v = if inWindow s n off then .sync n else if pageRetired s n (off / 0x10000) then .retired n else .dram n := by
  simp only [homeOf, h]

/-- A sector of the stack that no retired page holds. -/
theorem homeOf_patrol {s : State} {n : N20} {i : Nat} (hi : i < stkSectors) (hpage : pageRetired s n (i / pageSectors) = false) (m : N20) :
    homeOf s (stkBase n / 64 + i) ≠ .retired m := by
  have hn := n.isLt
  rw [stkSectors] at hi
  have hunit : 64 * (stkBase n / 64 + i) = n.val * 0x1000000000 + 64 * i := by rw [stkBase]; omega
  have hplace : placeOf (64 * (stkBase n / 64 + i)) = .stack n (64 * (stkBase n / 64 + i) % 0x1000000000) :=
    placeOf_of_stack (by omega) (by omega) (by omega)
  have hsame : 64 * (stkBase n / 64 + i) % 0x1000000000 / 0x10000 = i / pageSectors := by rw [pageSectors]; omega
  rw [homeOf_stack hplace, hsame, hpage]
  split <;> simp

/-- The patrol passes a sector that it finds clean. -/
theorem exec_patrolScrubRead_some {s : State} {n : N20} (hready : rfld s (.mcState n) 63 60 = 2) (hidle : scrubbing s n = false) (hup : memUp s = true)
    (hecc : s.ecc = []) {i : Nat} (hnext : patrolNext s n 513 (tget s.patrol 0 n.val) = some i) (b : Bool) :
    exec (.patrolScrubRead n .clean b) s = .next (patrolMove s n (i + 1)) := by
  obtain ⟨hi, hpage⟩ := patrolNext_some hnext
  change execPatrolScrubRead n .clean b s = _
  simp [execPatrolScrubRead, hready, hidle, hup, hnext, corrects, eccFind_of_ecc_nil hecc, sectorFind_clean hecc (homeOf_patrol hi hpage)]

theorem exec_patrolScrubRead_none {s : State} {n : N20} (hready : rfld s (.mcState n) 63 60 = 2) (hidle : scrubbing s n = false) (hup : memUp s = true)
    (hnext : patrolNext s n 513 (tget s.patrol 0 n.val) = none) (found : SectorFind) (b : Bool) :
    exec (.patrolScrubRead n found b) s = .next (patrolMove s n stkSectors) := by
  change execPatrolScrubRead n found b s = _
  simp [execPatrolScrubRead, hready, hidle, hup, hnext]

theorem patrolMove_memory (s : State) (n : N20) (i : Nat) : SameMemory s (patrolMove s n i) := by
  unfold patrolMove
  split <;> constructor <;> rfl

theorem patrolMove_regs (s : State) (n : N20) (i : Nat) {r : Reg} (hr : r ≠ .patrol n) : rget (patrolMove s n i) r = rget s r := by
  unfold patrolMove
  dsimp only
  split
  · exact (rget_rsetf_of_ne _ _ _ _ hr).trans (rget_rbump_of_ne _ _ _ _ hr)
  · exact rget_rsetf_of_ne _ _ _ _ hr

/-- Within the stack the position stands in the table of positions, and its page in the register. -/
theorem patrolMove_within (s : State) (n : N20) {i : Nat} (hi : i < stkSectors) : tget (patrolMove s n i).patrol 0 n.val = i ∧
    rfld (patrolMove s n i) (.patrol n) 19 0 = i / pageSectors ∧ rfld (patrolMove s n i) (.patrol n) 47 32 = rfld s (.patrol n) 47 32 := by
  have hpage : i / pageSectors < 2 ^ (19 + 1 - 0) := by unfold stkSectors at hi; unfold pageSectors; omega
  unfold patrolMove
  rw [if_neg (by omega)]
  exact ⟨tget_tset_self .., rfld_rsetf_self _ _ (by decide) hpage, rfld_rsetf_apart _ _ _ (by decide)⟩

/-- At the end of the stack the pass is counted and the next begins. -/
theorem patrolMove_end (s : State) (n : N20) : tget (patrolMove s n stkSectors).patrol 0 n.val = 0 ∧ rfld (patrolMove s n stkSectors) (.patrol n) 19 0 = 0 ∧
    rfld (patrolMove s n stkSectors) (.patrol n) 47 32 = min 65535 (rfld s (.patrol n) 47 32 + 1) := by
  rw [patrolMove, if_pos le_rfl]
  exact ⟨tget_tset_self s.patrol 0 0 n.val, rfld_rsetf_self _ _ (by decide) (by decide), (rfld_rsetf_apart _ _ _ (by decide)).trans (rfld_rbump_self _ _ _ _ (by decide))⟩

/-! Overdue and forced recalibrations (R466, R468). -/

theorem execRecalOverdue_due {s : State} {x : RecalUnit} (hsync : unsync s = false) (hnone : tget s.tb.overdue false (unitKey x) = false)
    (hup : recalUnitUp s x = true) (hslot : slotAvail s x = false) (hdue : recalDueAt s x + 250000000 ≤ s.tb.time) :
    ∃ slice unit inst, execRecalOverdue x s = .next (logEv (setOverdue s x true) ntRecalOverdue clsNone slice unit 0xFF inst (mkDetail 0 0)) := by
  have hlate : ¬s.tb.time < recalDueAt s x + 250000000 := by omega
  unfold execRecalOverdue
  simp only [hsync, hnone, hup, hslot, hlate, Bool.not_true, Bool.or_self, decide_false, Bool.false_eq_true, if_false]
  cases x <;> exact ⟨_, _, _, rfl⟩

/-- A unit that is marked overdue is not marked again. -/
theorem execRecalOverdue_marked {s : State} {x : RecalUnit} (h : tget s.tb.overdue false (unitKey x) = true) : execRecalOverdue x s = .next s := by
  simp [execRecalOverdue, h]

/-- A unit is forced under UNSYNC where its own condition holds, else when it is forced now and, in a quiet slot, finds the slot available. -/
theorem recalOpen_of_forced {s : State} {x : RecalUnit} {idle : Bool}
    (h : if unsync s then idle = true else forcedNow s x = true ∧ (quietSlot s = true → slotAvail s x = true)) :
    (if unsync s then idle else forcedOpen s x) = true := by
  split at h
  · rwa [if_pos ‹_›]
  · obtain ⟨hnow, hslot⟩ := h
    rw [if_neg ‹_›, forcedOpen, hnow]
    cases hq : quietSlot s with
    | false => rfl
    | true => simp [hslot hq]

/-- A forced recalibration uses the quiet slot in which it falls. -/
theorem forcedUse_eq (s : State) (x : RecalUnit) (t : State) : forcedUse s x t =
    { t with tb := { t.tb with used := if unsync s = false ∧ quietSlot s = true then unitQuad x :: t.tb.used else t.tb.used } } := by
  unfold forcedUse
  cases unsync s <;> cases quietSlot s <;> rfl

theorem execRecalForced_closed {s : State} {x : RecalUnit} (hsync : unsync s = false)
    (h : forcedNow s x = false ∨ (quietSlot s = true ∧ slotAvail s x = false)) : execRecalForced x s = .next s := by
  have hclosed : forcedOpen s x = false := by
    obtain hnow | ⟨hquiet, hslot⟩ := h
    · simp [forcedOpen, hnow]
    · simp [forcedOpen, hquiet, hslot]
  cases x <;> simp [execRecalForced, hsync, hclosed]

/-- Settles O37: each event is one update of its stack or unit, and a sector that is found clean is left as it is. -/
theorem stackUpkeepCompletes : Obligations.StackUpkeepCompletes := by
  refine ⟨fun s n hopen => ⟨?refresh, fun temp => ?temperature⟩, fun s n b hready hidle hup hecc => ⟨fun i hnext => ?patrolled, fun hnext => ?passed⟩,
    fun s x hsync hnone hup => ⟨fun hearly => ?early, fun hslot hdue => ?overdue⟩, fun s n hforced hready hup => ?stack, fun s p hforced => ?port,
    fun s x hsync hclosed => execRecalForced_closed hsync hclosed⟩
  case refresh =>
    change execHbmRefresh n s = _
    rw [execHbmRefresh, if_pos hopen]
  case temperature =>
    refine ⟨rsetf s (.mcState n) 7 0 temp.toNat, ?_, rfld_rsetf_self s _ (by decide) temp.isLt, rfld_rsetf_apart s _ _ (by decide),
      fun x hx => rget_rsetf_of_ne s _ _ _ hx, rfl⟩
    change execDramTempUpdate n temp s = _
    rw [execDramTempUpdate, if_pos hopen]
  case patrolled =>
    refine ⟨_, exec_patrolScrubRead_some hready hidle hup hecc hnext b, patrolMove_memory .., fun hi => patrolMove_within s n hi, fun hi => ?_,
      fun x hx => patrolMove_regs s n _ hx⟩
    rw [hi]
    exact patrolMove_end s n
  case passed =>
    obtain ⟨hpos, -, hcount⟩ := patrolMove_end s n
    exact ⟨_, exec_patrolScrubRead_none hready hidle hup hnext .clean b, patrolMove_memory .., hpos, hcount⟩
  case early =>
    change execRecalOverdue x s = _
    obtain hslot | hlate := hearly
    · simp [execRecalOverdue, hslot]
    · simp [execRecalOverdue, hlate]
  case overdue =>
    obtain ⟨slice, unit, inst, hexec⟩ := execRecalOverdue_due hsync hnone hup hslot hdue
    have hmark : tget (setOverdue s x true).tb.overdue false (unitKey x) = true := tget_tset_self s.tb.overdue false true _
    exact ⟨_, _, hexec, hmark, rfl, rfl, rfl, ⟨rfl, rfl, rfl, rfl, rfl, rfl⟩, execRecalOverdue_marked hmark⟩
  case stack =>
    have hopen : (if unsync s then !sectRunning s n else forcedOpen s (.stack n)) = true :=
      recalOpen_of_forced (by simpa [slotAvail, unitQuad] using hforced)
    have henter : enterRecal s n = rsetf (recalNow s (.stack n)) (.mcState n) 63 60 3 := if_pos ⟨hready, hup⟩
    have hexec : execRecalForced (.stack n) s = .next (forcedUse s (.stack n) (enterRecal s n)) := by
      simp only [execRecalForced, hopen, hready, hup, beq_self_eq_true, Bool.and_self, if_true]
    rw [henter, forcedUse_eq] at hexec
    exact ⟨_, hexec, rfld_rsetf_self (recalNow s (.stack n)) _ (by decide) (by decide), rfl,
      fun x hx => rget_rsetf_of_ne (recalNow s (.stack n)) _ _ _ hx⟩
  case port =>
    have hopen : (if unsync s then !portUsed s p else forcedOpen s (.port p)) = true :=
      recalOpen_of_forced (by simpa [slotAvail, unitQuad] using hforced)
    change execRecalForced (.port p) s = _
    simp only [execRecalForced, hopen, if_true, forcedUse_eq]
    rfl

end Sys2Proof.Machine

namespace Sys2Proof.Machine

/-! What the lines of the cache slices do where no error is recorded: nothing but come, change and go (R284 to R287). -/

/-- Only what the cache holds and the count of free values drawn differ. -/
structure LineWork (s u : State) : Prop where
  rest : u = { s with cached := u.cached, dirty := u.dirty, freeCtr := u.freeCtr }

theorem LineWork.refl (s : State) : LineWork s s := ⟨rfl⟩
theorem LineWork.trans {s t u : State} (h : LineWork s t) (k : LineWork t u) : LineWork s u := ⟨k.rest.trans (by rw [h.rest])⟩

section LineWork
variable {s u : State} (h : LineWork s u)
include h

theorem LineWork.ecc : u.ecc = s.ecc := by rw [h.rest]
theorem LineWork.regs : u.regs = s.regs := by rw [h.rest]
theorem LineWork.log : u.log = s.log := by rw [h.rest]
theorem LineWork.poison : u.poison = s.poison := by rw [h.rest]
theorem LineWork.home (v : Nat) : homeOf u v = homeOf s v := (sameHomes_of_regs h.regs).home v
theorem LineWork.bytes : SameBytes s u := ⟨by rw [h.rest], by rw [h.rest], h.home⟩
theorem LineWork.unitPoison (v : Nat) : unitPoison u v = unitPoison s v := by
  unfold Machine.unitPoison
  rw [h.home, h.rest]
theorem LineWork.memNat (a n : Nat) : memNat u a n = memNat s a n := by rw [Machine.memNat, h.bytes.memBytes]; rfl

end LineWork

theorem lineCheck_of_ecc_nil {s : State} (hecc : s.ecc = []) (u : Nat) : lineCheck s u = s := by
  unfold lineCheck
  split
  · simp [eccFind_of_ecc_nil hecc]
  next hkept => exact eccCheck_of_ecc_nil hecc hkept words8

theorem dropLine_lines {s : State} (hecc : s.ecc = []) (u : Nat) : LineWork s (dropLine s u) := by
  have hclear : tclear s.ecc (lineErr u 0) 8 = s.ecc := by rw [hecc]; rfl
  exact ⟨by rw [dropLine, hclear]⟩

theorem evictLine_lines {s : State} (hecc : s.ecc = []) (u : Nat) : LineWork s (evictLine s u) := by
  unfold evictLine
  rw [lineCheck_of_ecc_nil hecc, freshWords_of_ecc_nil hecc, ite_self]
  exact dropLine_lines hecc u

theorem evictWay_lines {s : State} (hecc : s.ecc = []) (n : N20) (u more : Nat) : LineWork s (evictWay s n u more) := by
  unfold evictWay
  split
  · exact .refl s
  · dsimp only
    split
    · exact .refl s
    · exact LineWork.trans (t := (drawFree s).1) ⟨rfl⟩ (evictLine_lines (s := (drawFree s).1) hecc _)

theorem takeLine_lines {s : State} (hecc : s.ecc = []) (n : N20) (u : Nat) : LineWork s (takeLine s n u) := by
  unfold takeLine
  split
  · exact .refl s
  · have hway := evictWay_lines hecc n u 1
    have hclear : tclear (evictWay s n u 1).ecc (lineErr u 0) 8 = (evictWay s n u 1).ecc := by rw [hway.ecc, hecc]; rfl
    exact hway.trans ⟨by dsimp only; rw [hclear]⟩

theorem lineAfter_lines (base : Bool) {s : State} (hecc : s.ecc = []) (n : N20) (u : Nat) (whole : Bool) (ks : List Nat) :
    LineWork s (lineAfter base s n u whole ks) := by
  have hfresh : freshSector s u = s := freshWords_of_ecc_nil hecc ..
  unfold lineAfter
  dsimp only
  split
  · rw [hfresh, freshWords_of_ecc_nil hecc, ite_self]
    exact .refl s
  · split
    · have htake := takeLine_lines hecc n u
      rw [freshWords_of_ecc_nil (htake.ecc.trans hecc)]
      exact htake.trans ⟨rfl⟩
    · have hdrop : LineWork s (if tget s.cached false u then dropLine s u else s) := by
        split
        · exact dropLine_lines hecc u
        · exact .refl s
      rw [freshSector, freshWords_of_ecc_nil (hdrop.ecc.trans hecc)]
      exact hdrop

theorem readLine_lines {s : State} (hecc : s.ecc = []) (u : Nat) (base : Bool) : LineWork s (readLine s u base) := by
  unfold readLine
  split
  · split
    · exact takeLine_lines hecc ..
    · exact .refl s
  · exact .refl s

theorem redLine_lines {s : State} (hecc : s.ecc = []) (k u : Nat) : LineWork s (redLine s k u) := by
  unfold redLine
  split
  · split
    · exact .refl s
    · exact takeLine_lines hecc ..
  · exact .refl s

/-! Writes into a stack (R284 to R287, R296). -/

/-- Unit v with new bytes and the tag that the write leaves: the data's, and under a part also the one it had. -/
def dramPut (s : State) (v : Nat) (ch : List ByteCh) (p : Bool) : State :=
  { s with poison := tset s.poison false v (p || (!ch.all (fun x => x.1 == 0xFF) && tget s.poison false v))
           mem := twrite s.mem memDefault (64 * v) (mergeBytes (unitBytes s v) ch) }

theorem isSync_dram {s : State} {v : Nat} {n : N20} (hv : homeOf s v = .dram n) : isSync s v = false := by simp only [isSync, hv]
theorem unitPoison_dram {s : State} {v : Nat} {n : N20} (hv : homeOf s v = .dram n) : unitPoison s v = tget s.poison false v := by
  simp only [unitPoison, hv]
theorem writable_dram {s : State} {v : Nat} {n : N20} (hv : homeOf s v = .dram n) : Writable s v := by simp [Writable, hv]
theorem setPoison_dram {s : State} {v : Nat} {n : N20} (hv : homeOf s v = .dram n) (p : Bool) :
    setPoison s v p = { s with poison := tset s.poison false v p } := by rw [setPoison, isSync_dram hv]; rfl

theorem putMasked_dram {s : State} (hecc : s.ecc = []) {v : Nat} {n : N20} (hv : homeOf s v = .dram n) (base : Bool) (ch : List ByteCh) (p : Bool) :
    LineWork (dramPut s v ch p) (putMasked base s v ch p) := by
  have hhome (q : Bool) : homeOf { s with poison := tset s.poison false v q } v = .dram n := hv
  unfold putMasked
  dsimp only
  rw [setPoison_dram hv, hhome, tagOf, isSync_dram hv]
  exact lineAfter_lines base (s := dramPut s v ch p) hecc ..

theorem writeMaskedAs_dram {s : State} (hecc : s.ecc = []) {v : Nat} {n : N20} (hv : homeOf s v = .dram n) (base : Bool) {ch : List ByteCh}
    (hch : ch.all (fun x => x.1 == 0) = false) (p : Bool) : writeMaskedAs base s v ch p = putMasked base s v ch p := by
  have hkept (m : N20) : homeOf s v ≠ .retired m := by simp [hv]
  unfold writeMaskedAs
  rw [hch, if_neg Bool.false_ne_true]
  simp only [hv, eccCheck_of_ecc_nil hecc hkept]

/-- What a write of new bytes at offset o of a unit leaves of every byte, whoever makes it. -/
theorem byteAt_putMasked {s : State} {v o : Nat} (hv : Writable s v) {new : List Byte} (h : o + new.length ≤ 64) (base p : Bool) (a : Nat) :
    byteAt (putMasked base s v (chOf o new) p) a =
      if 64 * v + o ≤ a ∧ a < 64 * v + o + new.length then nthD new (a - (64 * v + o)) 0 else byteAt s a := by
  rw [(putMasked_bytes ..).byteAt, byteAt, unitBytes_bytesPut hv h]
  by_cases hin : a / 64 = v
  · rw [if_pos hin, nthD_merge_chOf (length_unitBytes ..) h (Nat.mod_lt _ (by decide)), byteAt, hin, show a % 64 - o = a - (64 * v + o) by omega]
    exact if_congr (by omega) rfl rfl
  · rw [if_neg hin, if_neg (by omega)]
    rfl

/-- Only memory with its tags, what the cache holds and the count of free values drawn differ. -/
structure StackWork (s u : State) : Prop where
  rest : u = { s with mem := u.mem, poison := u.poison, cached := u.cached, dirty := u.dirty, freeCtr := u.freeCtr }

theorem StackWork.trans {s t u : State} (h : StackWork s t) (k : StackWork t u) : StackWork s u := ⟨k.rest.trans (by rw [h.rest])⟩
theorem LineWork.stack {s u : State} (h : LineWork s u) : StackWork s u := ⟨by rw [h.rest]⟩

/-- A write of bytes at address a of a unit in a stack: they stand there, no other byte changes, and the tag is the data's or, under a part, also
the one it had. -/
structure Stored (s u : State) (a : Nat) (new : List Byte) (p : Bool) : Prop where
  work : StackWork s u
  bytes : ∀ x, byteAt u x = if a ≤ x ∧ x < a + new.length then nthD new (x - a) 0 else byteAt s x
  tag : unitPoison u (a / 64) = (p || (new.length != 64 && unitPoison s (a / 64)))

theorem putMasked_stored {s : State} (hecc : s.ecc = []) {a : Nat} {n : N20} (ha : homeOf s (a / 64) = .dram n) (base : Bool) {new : List Byte}
    (h : a % 64 + new.length ≤ 64) (p : Bool) : Stored s (putMasked base s (a / 64) (chOf (a % 64) new) p) a new p := by
  have hlines := putMasked_dram hecc ha base (chOf (a % 64) new) p
  have hhome : homeOf (dramPut s (a / 64) (chOf (a % 64) new) p) (a / 64) = .dram n := ha
  have haddr : 64 * (a / 64) + a % 64 = a := Nat.div_add_mod ..
  refine ⟨StackWork.trans ⟨rfl⟩ hlines.stack, fun x => ?_, ?_⟩
  · rw [byteAt_putMasked (writable_dram ha) h, haddr]
  · rw [hlines.unitPoison, unitPoison_dram hhome, unitPoison_dram ha]
    refine (tget_tset_self ..).trans ?_
    rw [chOf_all_ones h]
    cases p <;> simp [bne, beq_eq_decide]

/-- The bytes of a range within one unit. -/
theorem memBytes_within (s : State) {a n : Nat} (h : a % 64 + n ≤ 64) : memBytes s a n = (List.range n).map fun i => byteAt s (a + i) := by
  obtain rfl | hn := Nat.eq_zero_or_pos n
  · rfl
  have hcount : (a + n - 1) / 64 + 1 - a / 64 = 1 := by omega
  have hlen := length_unitBytes s (a / 64)
  simp only [memBytes, if_neg hn.ne', hcount, List.range_one, List.flatMap_singleton, Nat.add_zero]
  refine List.ext_getElem (by simp [hlen]; omega) fun i hi _ => ?_
  have hin : i < n := (List.length_take .. ▸ hi).trans_le (Nat.min_le_left _ _)
  have hunit : (a + i) / 64 = a / 64 := by omega
  have hoff : (a + i) % 64 = a % 64 + i := by omega
  rw [List.getElem_take, List.getElem_drop, List.getElem_map, List.getElem_range, byteAt, hunit, hoff, nthD, List.getD_eq_getElem _ _ (by omega)]

theorem Stored.memBytes {s u : State} {a : Nat} {new : List Byte} {p : Bool} (h : Stored s u a new p) (hfit : a % 64 + new.length ≤ 64) :
    memBytes u a new.length = new := by
  rw [memBytes_within u hfit]
  refine List.ext_getElem (by simp) fun i _ hi => ?_
  rw [List.getElem_map, List.getElem_range, h.bytes, if_pos (by omega), Nat.add_sub_cancel_left, nthD, List.getD_eq_getElem _ _ hi]

theorem Stored.outside {s u : State} {a : Nat} {new : List Byte} {p : Bool} (h : Stored s u a new p) {b : Nat} (hb : b < a ∨ a + new.length ≤ b) :
    Machine.memBytes u b 1 = Machine.memBytes s b 1 := by
  rw [memBytes_one, memBytes_one, h.bytes, if_neg (by omega)]

theorem length_bytesAt (bs : List Byte) (o n : Nat) : (bytesAt bs o n).length = n := by
  simp [bytesAt]

theorem nthD_bytesAt (bs : List Byte) {n i : Nat} (hi : i < n) : nthD (bytesAt bs 0 n) i 0 = nthD bs i 0 := by
  simp only [bytesAt, nthD, List.drop_zero, List.getD_eq_getElem?_getD, List.getElem?_append, List.length_take, List.getElem?_take, List.getElem?_replicate]
  by_cases hb : i < bs.length
  · rw [if_pos (by omega), if_pos hi]
  · rw [if_neg (by omega), List.getElem?_eq_none (Nat.le_of_not_lt hb)]
    split <;> rfl

/-! Accesses at their ordering point (R282, R289, R290, R296 to R298). -/

section Arrives
variable {s : State} {q : MemReq} {n : N20} {off : Nat} (hplace : placeOf q.addr.toNat = .stack n off) (hlen : 0 < q.len)
  (hfit : q.addr.toNat % 64 + q.len ≤ 64)
include hplace

theorem exec_memoryRequest_stack : exec (.memoryRequestArrive q) s =
    .next (if q.len = 0 ∨ 64 < q.addr.toNat % 64 + q.len ∨ !memUp s then s
      else if (sectSlice s n).isNone then logEv s (stCode .protection) clsNone 0xFF 3 0xFF n.val (mkDetail 0 q.addr.toNat)
      else if sectHeld s n && stackOpen s n then { s with held := s.held ++ [.req q] }
      else if rfld s (.mcState n) 63 60 = 2 then applyReq s q
      else s) := by
  change execMemoryRequestArrive q s = _
  rw [execMemoryRequestArrive, hplace]

theorem memoryRequest_unloaded (hup : memUp s = false) : exec (.memoryRequestArrive q) s = .next s := by
  rw [exec_memoryRequest_stack hplace, if_pos (.inr (.inr (by rw [hup]; rfl)))]

include hlen hfit

/-- An access of a form that a stack takes, once stage 1 has admitted accesses. -/
theorem exec_memoryRequest_up (hup : memUp s = true) : exec (.memoryRequestArrive q) s =
    .next (if (sectSlice s n).isNone then logEv s (stCode .protection) clsNone 0xFF 3 0xFF n.val (mkDetail 0 q.addr.toNat)
      else if sectHeld s n && stackOpen s n then { s with held := s.held ++ [.req q] }
      else if rfld s (.mcState n) 63 60 = 2 then applyReq s q
      else s) := by
  have hform : ¬(q.len = 0 ∨ 64 < q.addr.toNat % 64 + q.len ∨ (!memUp s) = true) := by simp [hup]; omega
  rw [exec_memoryRequest_stack hplace, if_neg hform]

theorem memoryRequest_applied (hup : memUp s = true) (hslice : (sectSlice s n).isSome = true) (hkey : sectRekeys s n = false)
    (hready : rfld s (.mcState n) 63 60 = 2) : exec (.memoryRequestArrive q) s = .next (applyReq s q) := by
  have hsome : (sectSlice s n).isNone = false := by rw [Option.isNone_eq_false_iff]; exact hslice
  have hfree : sectHeld s n = false := by simp [sectHeld, inRecal, hready, hkey]
  rw [exec_memoryRequest_up hplace hlen hfit hup, hsome, hfree, if_pos hready]
  rfl

theorem memoryRequest_noSlice (hup : memUp s = true) (hslice : sectSlice s n = none) : exec (.memoryRequestArrive q) s =
    .next (logEv s (stCode .protection) clsNone 0xFF 3 0xFF n.val (mkDetail 0 q.addr.toNat)) := by
  rw [exec_memoryRequest_up hplace hlen hfit hup, hslice]
  rfl

theorem memoryRequest_closed (hup : memUp s = true) (hslice : (sectSlice s n).isSome = true) (hready : rfld s (.mcState n) 63 60 ≠ 2)
    (hrecal : rfld s (.mcState n) 63 60 ≠ 3) : exec (.memoryRequestArrive q) s = .next s := by
  have hsome : (sectSlice s n).isNone = false := by rw [Option.isNone_eq_false_iff]; exact hslice
  have hclosed : stackOpen s n = false := by simp [stackOpen, hready, hrecal]
  rw [exec_memoryRequest_up hplace hlen hfit hup, hsome, hclosed, Bool.and_false, if_neg hready]
  rfl

end Arrives

section Applied
variable {s : State} (hecc : s.ecc = []) {q : MemReq} {n : N20} (hhome : homeOf s (q.addr.toNat / 64) = .dram n)
include hecc hhome

theorem sectorFind_clean_dram : sectorFind s (q.addr.toNat / 64) .clean = s := sectorFind_clean hecc fun m => by simp [hhome]

/-- A write whose sector is found clean stores its data. -/
theorem applyReq_write (hlen : 0 < q.len) (hfit : q.addr.toNat % 64 + q.len ≤ 64) (hfound : q.found = .clean) (hkind : q.kind = .write) :
    Stored s (applyReq s q) q.addr.toNat (bytesAt q.data 0 q.len) q.poison := by
  have hnew := length_bytesAt q.data 0 q.len
  have hch := chOf_all_zero (o := q.addr.toNat % 64) (new := bytesAt q.data 0 q.len) (by omega) (List.ne_nil_of_length_pos (by omega))
  have happly : applyReq s q = putMasked q.base s (q.addr.toNat / 64) (chOf (q.addr.toNat % 64) (bytesAt q.data 0 q.len)) q.poison := by
    unfold applyReq
    simp only [hkind, hfound, sectorFind_clean_dram hecc hhome, writeMaskedAs_dram hecc hhome _ hch, ite_self]
  rw [happly]
  exact putMasked_stored hecc hhome q.base (by omega) q.poison

/-- A read whose sector is found clean takes a line at most. -/
theorem applyReq_read (hfound : q.found = .clean) (hkind : q.kind = .read) : LineWork s (applyReq s q) := by
  have happly : applyReq s q = readLine s (q.addr.toNat / 64) q.base := by
    unfold applyReq
    simp only [hkind, hfound, sectorFind_clean_dram hecc hhome]
  rw [happly]
  exact readLine_lines hecc ..

/-- What an element operation of one element stores. -/
def reqElem (s : State) (q : MemReq) : Nat :=
  redCombine (reqWindow q.kind) q.fmt (memNat s q.addr.toNat q.len) (fieldAt q.data 0 q.len) (if q.kind = .cas then fieldAt q.data q.len q.len else 0)

omit hecc hhome in
/-- An element operation of one element as one combination. -/
theorem reqReduce_one (s : State) {q : MemReq} (hsize : q.len = redSize q.fmt) : reqReduce s q =
    (redElem (redLine s (reqWindow q.kind) (q.addr.toNat / 64)) (reqWindow q.kind) q.fmt q.addr.toNat (fieldAt q.data 0 q.len)
      (if q.kind = .cas then fieldAt q.data q.len q.len else 0) q.poison).1 := by
  have hpos : 0 < redSize q.fmt := by unfold redSize; split <;> [decide; split <;> decide]
  unfold reqReduce
  simp only [hsize, Nat.div_self hpos, List.range_one, List.foldl_cons, List.foldl_nil, Nat.mul_zero, Nat.add_zero, Nat.zero_add]

theorem applyReq_element (hfit : q.addr.toNat % 64 + q.len ≤ 64) (hfound : q.found = .clean) (hread : q.kind ≠ .read) (hwrite : q.kind ≠ .write)
    (hsize : q.len = redSize q.fmt) : ∃ t p, LineWork s t ∧ Stored t (applyReq s q) q.addr.toNat (leBytes q.len (reqElem s q)) p := by
  have happly : applyReq s q = reqReduce s q := by
    have hkinds : applyReq s q = reqReduce (sectorFind s (q.addr.toNat / 64) q.found) q := by
      unfold applyReq
      cases hk : q.kind with
      | read => exact absurd hk hread
      | write => exact absurd hk hwrite
      | _ => rfl
    rw [hkinds, hfound, sectorFind_clean_dram hecc hhome]
  have hline := redLine_lines hecc (reqWindow q.kind) (q.addr.toNat / 64)
  rw [happly, reqReduce_one s hsize]
  generalize redLine s (reqWindow q.kind) (q.addr.toNat / 64) = t at hline
  have hhome' : homeOf t (q.addr.toNat / 64) = .dram n := (hline.home _).trans hhome
  have hnew := length_leBytes q.len (reqElem s q)
  have hstored := putMasked_stored (hline.ecc.trans hecc) hhome' (!tget t.cached false (q.addr.toNat / 64)) (new := leBytes q.len (reqElem s q)) (by omega)
    (q.poison || unitPoison t (q.addr.toNat / 64))
  refine ⟨t, q.poison || unitPoison t (q.addr.toNat / 64), hline, ?_⟩
  unfold redElem
  simp only [hhome', hline.memNat, ← hsize]
  exact hstored

end Applied

/-! A sector that the controller cannot correct (R296). -/

/-- Free values drawn change their count alone. -/
theorem freeSector_draws (k : Nat) (s : State) (bs : List Byte) : (∃ c, (freeSector k s bs).1 = { s with freeCtr := c }) ∧
    (freeSector k s bs).2.length = bs.length + 8 * k := by
  induction k generalizing s bs with
  | zero => exact ⟨⟨s.freeCtr, rfl⟩, rfl⟩
  | succ k ih =>
    obtain ⟨⟨c, hc⟩, hlen⟩ := ih (drawFree s).1 (bs ++ leBytes 8 (drawFree s).2.toNat)
    refine ⟨⟨c, hc⟩, ?_⟩
    rw [freeSector, hlen, List.length_append, length_leBytes]
    omega

/-- The sector of unit v, of stack n, is found uncorrectable: it is tagged, counted, recorded and logged, and no byte of another unit changes. -/
structure Uncorrected (s u : State) (n : N20) (v : Nat) : Prop where
  ecc : u.ecc = s.ecc
  tagged : unitPoison u v = true
  counted : rfld u (.eccCnt n) 31 16 = min 65535 (rfld s (.eccCnt n) 31 16 + 1)
  valid : rbit u (.lastUe n) 63 = true
  address : rfld u (.lastUe n) 35 0 = (64 * v - stkBase n) % 2 ^ 36
  others : ∀ b, b / 64 ≠ v → byteAt u b = byteAt s b
  event : ∃ ev, u.log.inFlight = s.log.inFlight ++ [ev] ∧ ev.cause = stCode .memUncorrectable

theorem LineWork.uncorrected {s t u : State} {n : N20} {v : Nat} (h : LineWork t u) (k : Uncorrected s t n v) : Uncorrected s u n v where
  ecc := h.ecc.trans k.ecc
  tagged := (h.unitPoison v).trans k.tagged
  counted := (rfld_congr (rget_congr h.regs _) ..).trans k.counted
  valid := (congrArg (bit · 63) (rget_congr h.regs _)).trans k.valid
  address := (rfld_congr (rget_congr h.regs _) ..).trans k.address
  others := fun b hb => (h.bytes.byteAt b).trans (k.others b hb)
  event := by rw [h.log]; exact k.event

/-- The tag, count and record of an uncorrectable sector v of stack n. -/
def ueMark (t : State) (n : N20) (v : Nat) : State :=
  let c := rbump (setPoison t v true) (.eccCnt n) 31 16 1
  rput c (.lastUe n) (putBits (putBits (rget c (.lastUe n)) 35 0 (64 * v - stkBase n)) 63 63 1)

theorem ueMark_noted (t : State) (n : N20) (v : Nat) : Noted t (ueMark t n v) := (((Noted.refl t).setPoison v true).rbump rfl ..).rput rfl _

theorem ueMark_tag {t : State} {m : N20} {v : Nat} (hv : homeOf t v = .dram m) (n : N20) :
    (ueMark t n v).poison = tset t.poison false v true ∧ (ueMark t n v).log = t.log := by
  unfold ueMark
  rw [setPoison_dram hv]
  exact ⟨rfl, rfl⟩

theorem setPoison_regs (s : State) (v : Nat) (p : Bool) : (setPoison s v p).regs = s.regs := by
  unfold setPoison
  split <;> rfl

theorem ueMark_count (t : State) (n : N20) (v : Nat) : rfld (ueMark t n v) (.eccCnt n) 31 16 = min 65535 (rfld t (.eccCnt n) 31 16 + 1) := by
  have hraised := rfld_rbump_self (setPoison t v true) (.eccCnt n) (hi := 31) 16 1 (by decide)
  rw [rfld_congr (rget_congr (setPoison_regs t v true) _)] at hraised
  exact (rfld_congr (rget_rput_of_ne _ _ (by simp)) ..).trans hraised

theorem ueMark_last (t : State) (n : N20) (v : Nat) : rbit (ueMark t n v) (.lastUe n) 63 = true ∧
    rfld (ueMark t n v) (.lastUe n) 35 0 = (64 * v - stkBase n) % 2 ^ 36 := by
  obtain ⟨w, hw⟩ : ∃ w, rget (ueMark t n v) (.lastUe n) = putBits (putBits w 35 0 (64 * v - stkBase n)) 63 63 1 := ⟨_, rget_rput ..⟩
  rw [rbit, rfld, hw]
  exact ⟨(bit_putBits _ _ _ _ (by decide)).trans rfl, (bits_putBits_apart _ _ (by decide)).trans (bits_putBits_self _ _ (by decide))⟩

/-- A sector with a clear tag that is found uncorrectable: its bytes are free values, then it is marked and the event logged. -/
theorem uncorrectable_clear {s : State} {n : N20} {v : Nat} (hclear : tget s.poison false v = false) :
    ∃ bs c, bs.length = 64 ∧ Logged (ueMark { s with mem := twrite s.mem memDefault (64 * v) bs, freeCtr := c } n v) (uncorrectable s n v)
      [stCode .memUncorrectable] := by
  obtain ⟨⟨c, hdraw⟩, hlen⟩ := freeSector_draws 8 s []
  have hput : putUnit (freeSector 8 s []).1 v (freeSector 8 s []).2 =
      { s with mem := twrite s.mem memDefault (64 * v) (freeSector 8 s []).2, freeCtr := c } := by rw [putUnit, hdraw]
  refine ⟨_, c, hlen, ?_⟩
  unfold uncorrectable
  simp only [hput, hclear, Bool.false_eq_true, if_false]
  exact logged_logEv ..

theorem uncorrectable_dram {s : State} {n m : N20} {v : Nat} (hv : homeOf s v = .dram m) (hclear : unitPoison s v = false) :
    Uncorrected s (uncorrectable s n v) n v := by
  rw [unitPoison_dram hv] at hclear
  obtain ⟨bs, c, hlen, hlogged⟩ := uncorrectable_clear (n := n) hclear
  set t := { s with mem := twrite s.mem memDefault (64 * v) bs, freeCtr := c } with ht
  have hvt : homeOf t v = .dram m := hv
  obtain ⟨htag, hlog⟩ := ueMark_tag hvt n
  obtain ⟨hvalid, haddress⟩ := ueMark_last t n v
  have hcount := ueMark_count t n v
  have hmarked := ueMark_noted t n v
  generalize ueMark t n v = w at hlogged htag hlog hvalid haddress hcount hmarked
  have hnoted : Noted t (uncorrectable s n v) := hmarked.trans ⟨by rw [hlogged.rest], sameHomes_of_regs hlogged.regs⟩
  generalize uncorrectable s n v = u at hlogged hnoted
  refine ⟨by rw [hnoted.rest], ?tagged, (rfld_congr (hlogged.rget _) ..).trans hcount, (congrArg (bit · 63) (hlogged.rget _)).trans hvalid,
    (rfld_congr (hlogged.rget _) ..).trans haddress, fun b hb => ?others, ?event⟩
  case tagged =>
    have hpoison : u.poison = tset t.poison false v true := by rw [hlogged.rest]; exact htag
    rw [unitPoison_dram ((hnoted.homes.home v).trans hvt), hpoison]
    exact tget_tset_self ..
  case others =>
    have hapart : tread t.mem memDefault (64 * (b / 64)) 64 = tread s.mem memDefault (64 * (b / 64)) 64 := tread_twrite_apart _ _ (by omega)
    have hunit : unitBytes u (b / 64) = unitBytes s (b / 64) := by
      unfold unitBytes
      rw [hnoted.homes.home, hnoted.rest, hapart]
      rfl
    rw [byteAt, hunit]
    rfl
  case event =>
    obtain ⟨evs, hevs, hcauses⟩ := hlogged.events
    obtain ⟨ev, rfl, hcause⟩ := List.map_eq_singleton_iff.1 hcauses
    exact ⟨ev, hlog ▸ hevs, hcause⟩

theorem sectorFind_uncorrectable {s : State} {n : N20} {v : Nat} (hv : homeOf s v = .dram n) (hline : tget s.cached false v = false) :
    sectorFind s v .uncorrectable = uncorrectable s n v := by
  unfold sectorFind
  simp [hv, hline]

/-- A read of a sector that is found uncorrectable, after which its line may come into the cache. -/
theorem applyReq_uncorrectable {s : State} (hecc : s.ecc = []) {q : MemReq} {n : N20} (hv : homeOf s (q.addr.toNat / 64) = .dram n)
    (hfound : q.found = .uncorrectable) (hkind : q.kind = .read) (hline : tget s.cached false (q.addr.toNat / 64) = false)
    (hclear : unitPoison s (q.addr.toNat / 64) = false) : Uncorrected s (applyReq s q) n (q.addr.toNat / 64) := by
  have hmarked := uncorrectable_dram (n := n) hv hclear
  have happly : applyReq s q = readLine (uncorrectable s n (q.addr.toNat / 64)) (q.addr.toNat / 64) q.base := by
    unfold applyReq
    simp only [hkind, hfound, sectorFind_uncorrectable hv hline]
  rw [happly]
  exact (readLine_lines (hmarked.ecc.trans hecc) ..).uncorrected hmarked

/-- A write to a retired page is a hit on its list alone (R297). -/
theorem applyReq_retired {s : State} {q : MemReq} {n : N20} (hv : homeOf s (q.addr.toNat / 64) = .retired n) (hlen : 0 < q.len)
    (hfit : q.addr.toNat % 64 + q.len ≤ 64) (hkind : q.kind = .write) : applyReq s q = rbump s (.retireStat n) 31 0 1 := by
  have hnew := length_bytesAt q.data 0 q.len
  have hch := chOf_all_zero (o := q.addr.toNat % 64) (new := bytesAt q.data 0 q.len) (by omega) (List.ne_nil_of_length_pos (by omega))
  have hdram : fromDram s (q.addr.toNat / 64) = false := by simp only [fromDram, hv]
  unfold applyReq writeMaskedAs
  simp only [hkind, hdram, hch, hv, Bool.false_and, Bool.false_eq_true, if_false]

/-! Where the bytes of a stack lie (R283). -/

/-- The fields of the granule number over its low six bits, joined by the exclusive or. -/
def upperFold (k : Nat) : Nat := k ^^^ k / 2 ^ 6 ^^^ k / 2 ^ 12 ^^^ k / 2 ^ 18

/-- The pseudo-channel is the low six bits of the granule number joined with the fields over them. -/
theorem pcOf_eq (a : Nat) : pcOf a = a / 256 % 64 ^^^ upperFold (a / 256 / 64) % 64 := by
  have hmod (x y : Nat) : (x ^^^ y) % 64 = x % 64 ^^^ y % 64 := Nat.xor_mod_two_pow (n := 6)
  have hdiv (g k : Nat) : g / 2 ^ (6 + k) = g / 64 / 2 ^ k := by rw [Nat.pow_add, ← Nat.div_div_eq_div_mul]
  have h12 := hdiv (a / 256) 6
  have h18 := hdiv (a / 256) 12
  have h24 := hdiv (a / 256) 18
  simp only [Nat.reduceAdd] at h12 h18 h24
  simp only [pcOf, upperFold, hmod, h12, h18, h24, Nat.xor_assoc]
  rfl

theorem pcOf_lt (a : Nat) : pcOf a < 64 := Nat.mod_lt _ (by decide)

/-- The address of a place is the one that the place was made from. -/
theorem dramAddr_dramPlace (x : Nat) : dramAddr (dramPlace x) = x := by
  set k := x / 256 / 64 with hk
  have hchannel : 2 * (dramPlace x).channel + (dramPlace x).pseudo = pcOf x := Nat.div_add_mod ..
  have hoff : (dramPlace x).off = k * 256 + x % 256 := rfl
  have hrow : (dramPlace x).off / 256 * 64 = k * 64 := by rw [hoff]; omega
  have hlow : (dramPlace x).off % 256 = x % 256 := by rw [hoff]; omega
  have hbase : pcOf (k * 64 * 256) = upperFold k % 64 := by
    rw [pcOf_eq, Nat.mul_div_cancel _ (by decide), Nat.mul_mod_left, Nat.mul_div_cancel _ (by decide), Nat.zero_xor]
  have hgranule : pcOf (k * 64 * 256) ^^^ pcOf x = x / 256 % 64 := by
    rw [hbase, pcOf_eq, ← hk, Nat.xor_comm (x / 256 % 64), ← Nat.xor_assoc, Nat.xor_self, Nat.zero_xor]
  simp only [dramAddr, hrow, hlow, hchannel, hgranule]
  omega

theorem dramPlace_bounds {x : Nat} (hx : x < 0xC00000000) :
    (dramPlace x).channel < 32 ∧ (dramPlace x).pseudo < 2 ∧ (dramPlace x).off < 768 * 2 ^ 20 := by
  have hpc := pcOf_lt x
  refine ⟨?_, Nat.mod_lt _ (by decide), ?_⟩
  · change pcOf x / 2 < 32
    omega
  · change x / 256 / 64 * 256 + x % 256 < 768 * 2 ^ 20
    omega

/-- Settles O34: where no error is recorded the lines of a cache slice come and go unseen, so an access is the change of its own unit. -/
theorem memoryAccessesApplyAtTheirOrderingPoint : Obligations.MemoryAccessesApplyAtTheirOrderingPoint := by
  intro s q
  refine ⟨fun hnone => ?nothing, fun n off hplace hlen hfit =>
    ⟨fun hup hslice hkey hready hecc hhome => ?clean, fun hup hslice hkey hready hhome hkind => ?retired, fun hup hslice => ?noSlice, fun hclosed => ?closed⟩,
    fun x y hx _ => ⟨fun he => ?apart, ?bounds⟩⟩
  case nothing =>
    change execMemoryRequestArrive q s = _
    rw [execMemoryRequestArrive, hnone]
  case clean =>
    have hexec := memoryRequest_applied hplace hlen hfit hup hslice hkey hready
    refine ⟨fun hfound hkind => ?write, fun hfound hkind => ?read, fun hfound hread hwrite hsize => ?element, fun hfound hkind hline hclear => ?uncorrectable⟩
    case write =>
      have hnew := length_bytesAt q.data 0 q.len
      have hstored := applyReq_write hecc hhome hlen hfit hfound hkind
      refine ⟨_, hexec, fun i hi => ?_, fun b hb => hstored.outside (by omega), ?_, hstored.work.rest⟩
      · rw [memBytes_one, hstored.bytes, if_pos (by omega), Nat.add_sub_cancel_left, nthD_bytesAt _ hi]
      · rw [hstored.tag, hnew]
    case read => exact ⟨_, hexec, (applyReq_read hecc hhome hfound hkind).rest⟩
    case element =>
      obtain ⟨t, p, hline, hstored⟩ := applyReq_element hecc hhome hfit hfound hread hwrite hsize
      have hnew := length_leBytes q.len (reqElem s q)
      refine ⟨_, hexec, ?_, fun b hb => (hstored.outside (by omega)).trans (hline.bytes.memBytes b 1), (hline.stack.trans hstored.work).rest⟩
      have hbytes : memBytes (applyReq s q) q.addr.toNat q.len = leBytes q.len (reqElem s q) := by
        have := hstored.memBytes (by omega)
        rwa [hnew] at this
      rw [memNat, hbytes, leNat_leBytes, Nat.pow_mul]
      rfl
    case uncorrectable =>
      have hue := applyReq_uncorrectable hecc hhome hfound hkind hline hclear
      obtain ⟨ha, hin, hn, rfl⟩ := placeOf_stack hplace
      obtain ⟨ev, hev, hcause⟩ := hue.event
      refine ⟨_, ev, hexec, hue.tagged, hue.counted, hue.valid, hue.address.trans ?_, fun b hb => ?_, hev, hcause⟩
      · rw [stkBase]
        omega
      · rw [memBytes_one, memBytes_one, hue.others b hb]
  case retired =>
    refine ⟨_, memoryRequest_applied hplace hlen hfit hup hslice hkey hready, ?_⟩
    rw [applyReq_retired hhome hlen hfit hkind]
    exact ⟨⟨rfl, rfl, rfl, rfl, rfl, rfl⟩, fun r hr => rget_rbump_of_ne s _ _ _ hr, rfld_rbump_self s _ _ _ (by decide)⟩
  case noSlice => exact ⟨_, _, memoryRequest_noSlice hplace hlen hfit hup hslice, rfl, rfl, rfl, rfl, rfl⟩
  case closed =>
    cases hup : memUp s with
    | false => exact memoryRequest_unloaded hplace hup
    | true =>
      obtain ⟨hslice, hready, hrecal⟩ := hclosed.resolve_left (by rw [hup]; exact Bool.noConfusion)
      exact memoryRequest_closed hplace hlen hfit hup hslice hready hrecal
  case apart => rw [← dramAddr_dramPlace x, he, dramAddr_dramPlace]
  case bounds =>
    obtain ⟨hchannel, hpseudo, hoff⟩ := dramPlace_bounds hx
    exact ⟨hchannel, hpseudo, hoff, dramAddr_dramPlace x⟩

end Sys2Proof.Machine

namespace Sys2Proof.Machine

/-! Command packets: what a reply and the end of a packet leave alone. -/

theorem fget_fsetf_of_ne (s : State) (f g : FuncId) {r q : Reg} (hi lo x : Nat) (h : q ≠ r) : fget (fsetf s f r hi lo x) g q = fget s g q :=
  fget_fput_ne s _ fun he => h (fkey_inj he).2

/-- Any field of a slice's state register but the state itself, and any other register, leaves the states. -/
theorem sliceState_rsetf (s : State) (r : Reg) {hi lo : Nat} (x : Nat) (hr : ∀ n, r = .sliceState n → hi < 60) (n : N20) :
    sliceState (rsetf s r hi lo x) n = sliceState s n := by
  by_cases h : r = .sliceState n
  · subst h
    exact rfld_rsetf_apart s _ x (.inr (hr n rfl))
  · exact rfld_rsetf_of_ne s _ _ _ _ _ (Ne.symm h)

/-- What the end of a packet leaves alone: all but the reply's ring, the packets taken and the flags of a slice's state register. -/
structure Replied (s u : State) : Prop where
  memory : SameMemory s u
  cores : u.cores = s.cores
  sp : u.sp = s.sp
  scrub : u.mp.scrub = s.mp.scrub
  ended : u.mp.ended = s.mp.ended
  credits : u.mp.credits = s.mp.credits
  vfOn : u.mp.vfOn = s.mp.vfOn
  fregs : ∀ f r, (∀ q, r ≠ .cqdb q) → fget u f r = fget s f r
  regs : ∀ r, (∀ n, r ≠ .sliceState n) → rget u r = rget s r
  state : ∀ n, sliceState u n = sliceState s n

theorem Replied.refl (s : State) : Replied s s := ⟨SameMemory_refl s, rfl, rfl, rfl, rfl, rfl, rfl, fun _ _ _ => rfl, fun _ _ => rfl, fun _ => rfl⟩

theorem Replied.trans {s t u : State} (h : Replied s t) (k : Replied t u) : Replied s u :=
  ⟨SameMemory_trans h.memory k.memory, k.cores.trans h.cores, k.sp.trans h.sp, k.scrub.trans h.scrub, k.ended.trans h.ended,
    k.credits.trans h.credits, k.vfOn.trans h.vfOn, fun f r hr => (k.fregs f r hr).trans (h.fregs f r hr),
    fun r hr => (k.regs r hr).trans (h.regs r hr), fun n => (k.state n).trans (h.state n)⟩

/-- The packets taken and the replies that wait are not among what an answer leaves. -/
theorem replied_packets (s : State) (taken : List Taken) (replies : List Reply) :
    Replied s { s with mp := { s.mp with taken := taken, replies := replies } } :=
  ⟨⟨rfl, rfl, rfl, rfl, rfl, rfl⟩, rfl, rfl, rfl, rfl, rfl, rfl, fun _ _ _ => rfl, fun _ _ => rfl, fun _ => rfl⟩

theorem replied_setOver (s : State) (n : N20) {k : Nat} (hk : k < 4) (b : Bool) : Replied s (setOver s n k b) where
  memory := ⟨rfl, rfl, rfl, rfl, rfl, rfl⟩
  cores := rfl
  sp := rfl
  scrub := rfl
  ended := rfl
  credits := rfl
  vfOn := rfl
  fregs _ _ _ := rfl
  regs r hr := rget_rsetf_of_ne s _ _ _ (hr n)
  state := sliceState_rsetf s _ _ fun _ _ => by omega

theorem easeCredits_cases (s : State) (f : FuncId) : easeCredits s f = s ∨ ∃ n, easeCredits s f = setOver s n 2 false := by
  unfold easeCredits
  split
  · split
    · exact .inr ⟨_, rfl⟩
    · exact .inl rfl
  · exact .inl rfl

theorem replied_easeCredits (s : State) (f : FuncId) : Replied s (easeCredits s f) := by
  obtain h | ⟨n, h⟩ := easeCredits_cases s f <;> rw [h]
  · exact Replied.refl s
  · exact replied_setOver s n (by decide) false

/-- The credit flag of a slice is a bit of its state register alone. -/
theorem easeCredits_rest (s : State) (f : FuncId) : easeCredits s f = { s with regs := (easeCredits s f).regs } := by
  obtain h | ⟨n, h⟩ := easeCredits_cases s f <;> rw [h]
  rfl

/-- A reply at the tail of its ring, in the phase of its slot, with its interrupt (R383, R388). -/
theorem writeReply_eq (s : State) (x : Reply) : ∃ phase, writeReply s x =
    { s with
      fregs := (fsetf s x.f (.cqdb x.ring) 47 32 ((ffld s x.f (.cqdb x.ring) 47 32 + 1) % ringLen s x.f x.ring)).fregs,
      mp := { s.mp with phase := phase },
      out := (match x.vec with | some v => [.interrupt x.f v] | none => []) ++
        .hostWrite x.f (ffld s x.f (.ringCq x.ring) 63 12 * 4096 + 32 * ffld s x.f (.cqdb x.ring) 47 32)
          (setNth x.bytes 2 (nthD x.bytes 2 0 ||| (if tget s.mp.phase true (ringKey x.f x.ring) then 0x80 else 0))) :: s.out } := by
  obtain ⟨f, r, b, vec, before⟩ := x
  unfold writeReply
  by_cases h : ffld s f (.cqdb r) 47 32 + 1 = ringLen s f r
  · simp only [if_pos h]
    cases vec <;> exact ⟨_, rfl⟩
  · simp only [if_neg h]
    cases vec <;> exact ⟨_, rfl⟩

theorem replied_writeReply (s : State) (x : Reply) : Replied s (writeReply s x) := by
  obtain ⟨phase, he⟩ := writeReply_eq s x
  rw [he]
  exact ⟨⟨rfl, rfl, rfl, rfl, rfl, rfl⟩, rfl, rfl, rfl, rfl, rfl, rfl, fun f _ hr => fget_fsetf_of_ne s x.f f 47 32 _ (hr x.ring),
    fun _ _ => rfl, fun _ => rfl⟩

/-- With no reply waiting and room in its ring a reply is written at once. -/
theorem post_now {s : State} {f : FuncId} {r : Fin 4} (h : CqFree s f r) (b : List Byte) (vec before : Option Nat) :
    post s f r b vec before = { writeReply { s with mp := { s.mp with replies := [⟨f, r, b, vec, before⟩] } } ⟨f, r, b, vec, before⟩ with
      mp := { (writeReply { s with mp := { s.mp with replies := [⟨f, r, b, vec, before⟩] } } ⟨f, r, b, vec, before⟩).mp with replies := [] } } := by
  obtain ⟨hreplies, hroom⟩ := h
  unfold post flushReplies
  rw [hreplies]
  exact if_pos hroom

/-- The ring of a packet, the packets other than it and what went out are as before. -/
structure Unanswered (s z : State) (t : Taken) : Prop where
  replies : z.mp.replies = s.mp.replies
  phase : z.mp.phase = s.mp.phase
  out : z.out = s.out
  fregs : z.fregs = s.fregs
  taken : z.mp.taken.filter (fun y => y.id != t.id) = s.mp.taken.filter (fun y => y.id != t.id)

theorem finishAs_eq {z : State} {t : Taken} (hc : CqFree z t.f t.ring) (hm : t.mute = false) (st : Status) (form done total ev : Nat) :
    finishAs z t st form done total ev = post (dropTaken z t) t.f t.ring
        (mkReply (stCode st) 0 form (pkSeq t.bytes) done total ev (pkSlice t.bytes)) (if pkIrq t.bytes then some t.ring.val else none) (some (t.id + 1)) ∧
      CqFree (dropTaken z t) t.f t.ring := by
  refine ⟨by simp only [finishAs, hm, Bool.false_eq_true, if_false], ?_⟩
  unfold dropTaken
  rw [easeCredits_rest]
  exact ⟨hc.replies, hc.room⟩

theorem Unanswered.cqFree {s z : State} {t : Taken} (h : Unanswered s z t) (hc : CqFree s t.f t.ring) : CqFree z t.f t.ring := by
  refine ⟨h.replies.trans hc.replies, ?_⟩
  rw [← hc.room]
  simp only [cqRoom, ringLen, ffld, fget, h.fregs]

theorem replied_dropTaken (s : State) (t : Taken) : Replied s (dropTaken s t) :=
  (replied_packets s (s.mp.taken.filter fun y => y.id != t.id) s.mp.replies).trans (replied_easeCredits _ _)

theorem flushList_taken (l keep : List Reply) (s : State) : (flushList l keep s).mp.taken = s.mp.taken := by
  induction l generalizing keep s with
  | nil => rfl
  | cons x l ih =>
    obtain ⟨phase, he⟩ := writeReply_eq s x
    rw [flushList]
    split
    · rw [ih, he]
    · exact ih _ s

theorem replied_flushList (l keep : List Reply) (s : State) : Replied s (flushList l keep s) := by
  induction l generalizing keep s with
  | nil => exact replied_packets s s.mp.taken keep
  | cons x l ih =>
    rw [flushList]
    split
    · exact (replied_writeReply s x).trans (ih _ _)
    · exact ih _ s

theorem replied_post (s : State) (f : FuncId) (r : Fin 4) (b : List Byte) (vec before : Option Nat) : Replied s (post s f r b vec before) :=
  (replied_packets s s.mp.taken (s.mp.replies ++ [⟨f, r, b, vec, before⟩])).trans (replied_flushList _ _ _)

theorem post_taken (s : State) (f : FuncId) (r : Fin 4) (b : List Byte) (vec before : Option Nat) : (post s f r b vec before).mp.taken = s.mp.taken :=
  flushList_taken _ _ _

theorem replied_finishAs (s : State) (t : Taken) (st : Status) (form done total ev : Nat) : Replied s (finishAs s t st form done total ev) := by
  unfold finishAs
  dsimp only
  split
  · exact replied_dropTaken s t
  · exact (replied_dropTaken s t).trans (replied_post ..)

theorem dropTaken_taken (s : State) (t : Taken) : (dropTaken s t).mp.taken = s.mp.taken.filter fun y => y.id != t.id := by
  rw [dropTaken, easeCredits_rest]

theorem finishAs_taken (s : State) (t : Taken) (st : Status) (form done total ev : Nat) :
    (finishAs s t st form done total ev).mp.taken = s.mp.taken.filter fun y => y.id != t.id := by
  unfold finishAs
  dsimp only
  split
  · exact dropTaken_taken s t
  · exact (post_taken ..).trans (dropTaken_taken s t)

theorem post_out {s : State} {f : FuncId} {r : Fin 4} (h : CqFree s f r) (b : List Byte) (vec before : Option Nat) :
    (post s f r b vec before).out = (match vec with | some v => [.interrupt f v] | none => []) ++
      .hostWrite f (ffld s f (.ringCq r) 63 12 * 4096 + 32 * ffld s f (.cqdb r) 47 32)
        (setNth b 2 (nthD b 2 0 ||| (if tget s.mp.phase true (ringKey f r) then 0x80 else 0))) :: s.out := by
  rw [post_now h]
  obtain ⟨phase, he⟩ := writeReply_eq { s with mp := { s.mp with replies := [⟨f, r, b, vec, before⟩] } } ⟨f, r, b, vec, before⟩
  rw [he]
  rfl

/-- The end of a packet whose ring has room answers it at once. -/
theorem answered_finishAs {s z : State} {t : Taken} (h : Unanswered s z t) (hc : CqFree s t.f t.ring) (hm : t.mute = false)
    (st : Status) (form done total ev : Nat) : Answered s (finishAs z t st form done total ev) t st form done total ev := by
  obtain ⟨he, hfree⟩ := finishAs_eq (h.cqFree hc) hm st form done total ev
  have hdrop : dropTaken z t = { z with mp := { z.mp with taken := z.mp.taken.filter fun y => y.id != t.id }, regs := (dropTaken z t).regs } :=
    easeCredits_rest _ _
  refine ⟨(finishAs_taken ..).trans h.taken, s.out, List.suffix_refl _, ?_⟩
  · rw [he, post_out hfree, hdrop]
    simp only [ffld, fget, h.fregs, h.phase, h.out] <;> rfl

end Sys2Proof.Machine

namespace Sys2Proof.Machine

/-! Packets whose turn has come, and those answered in the step that begins them. -/

theorem getTaken_id {s : State} {id : Nat} {t : Taken} (h : getTaken s id = some t) : t.id = id := by
  simpa using List.find?_some h

theorem runPacket_turn {s : State} {id op : Nat} {t : Taken} (h : TurnCome s id op t) (act : State → Taken → State) :
    runPacket s id op act = act (putTaken s { t with begun := true }) { t with begun := true } := by
  obtain ⟨htaken, hop, hfresh, hready, hturn⟩ := h
  simp [runPacket, htaken, hop, hfresh, hready, hturn]

theorem runOnSlice_turn {s : State} {id op : Nat} {t : Taken} {n : N20} (h : TurnCome s id op t) (hn : pkSl t.bytes = some n)
    (act : State → Taken → N20 → State) :
    runOnSlice s id op act = act (putTaken s { t with begun := true }) { t with begun := true } n := by
  rw [runOnSlice, runPacket_turn h]
  simp only [hn]

theorem filter_map_same_id (l : List Taken) (t : Taken) :
    (l.map fun y => if y.id == t.id then { t with begun := true } else y).filter (fun y => y.id != t.id) = l.filter (fun y => y.id != t.id) := by
  induction l with
  | nil => rfl
  | cons y l ih =>
    by_cases h : y.id = t.id
    · simpa [h] using ih
    · simpa [h] using ih

theorem unanswered_putTaken (s : State) (t : Taken) : Unanswered s (putTaken s { t with begun := true }) t :=
  ⟨rfl, rfl, rfl, rfl, filter_map_same_id s.mp.taken t⟩

/-- The end of a packet in the step that begins it answers it, and leaves what an answer leaves. -/
theorem finish_turn {s : State} {t : Taken} (hc : CqFree s t.f t.ring) (hm : t.mute = false) (st : Status) (done total : Nat) :
    Answered s (finish (putTaken s { t with begun := true }) { t with begun := true } st done total) t st 0 done total 0 ∧
      Replied s (finish (putTaken s { t with begun := true }) { t with begun := true } st done total) := by
  have h := unanswered_putTaken s t
  refine ⟨answered_finishAs h hc hm st 0 done total 0, ?_⟩
  exact (replied_packets s (putTaken s { t with begun := true }).mp.taken s.mp.replies).trans (replied_finishAs ..)

/-- PING is answered with the tick, the running slices and the jobs ended since its reader's last one (R390). -/
theorem exec_ping {s : State} {id : Nat} {t : Taken} (hc : CqFree s t.f t.ring) (hm : t.mute = false) (h : TurnCome s id opPing t) :
    ∃ u, exec (.ping id) s = .next u ∧
      Answered s u t .ok 0 (tickNow s) (sliceMask (sliceRunning s) + tget s.mp.ended 0 (readerFunc t.f) * 2 ^ 32) 0 ∧
      tget u.mp.ended 0 (readerFunc t.f) = 0 ∧ SameMemory s u ∧ u.cores = s.cores := by
  obtain ⟨hreplies, hphase, hout, hfregs, htaken⟩ := unanswered_putTaken s t
  let z : State := { putTaken s { t with begun := true } with
    mp := { (putTaken s { t with begun := true }).mp with ended := tset s.mp.ended 0 (readerFunc t.f) 0 } }
  have hz : Unanswered s z t := ⟨hreplies, hphase, hout, hfregs, htaken⟩
  have hdone := replied_finishAs z { t with begun := true } .ok 0 (tickNow z)
    (sliceMask (sliceRunning z) + tget s.mp.ended 0 (readerFunc t.f) * 2 ^ 32) 0
  refine ⟨_, congrArg Host.Outcome.next (runPacket_turn h _), answered_finishAs hz hc hm _ _ _ _ _, ?_,
    SameMemory_trans (t := z) ⟨rfl, rfl, rfl, rfl, rfl, rfl⟩ hdone.memory, hdone.cores⟩
  exact (congrArg (fun l => tget l 0 (readerFunc t.f)) hdone.ended).trans (tget_tset_self s.mp.ended 0 0 _)

theorem exec_querySlice {s : State} {id : Nat} {t : Taken} {n : N20} (hc : CqFree s t.f t.ring) (hm : t.mute = false)
    (h : TurnCome s id opQuery t) (hn : pkSl t.bytes = some n) :
    ∃ u, exec (.querySlice id) s = .next u ∧ SameMemory s u ∧ u.cores = s.cores ∧
      Answered s u t .ok 0 (viewReg s t.f (.sliceState n)).toNat (match lowStack s n with | some k => rfld s (.updStep k) 31 0 | none => 0) 0 := by
  refine ⟨_, congrArg Host.Outcome.next (runPacket_turn h _), ?_⟩
  simp only [hn]
  obtain ⟨hanswered, hdone⟩ := finish_turn hc hm .ok (viewReg s t.f (.sliceState n)).toNat
    (match lowStack s n with | some k => rfld s (.updStep k) 31 0 | none => 0)
  exact ⟨hdone.memory, hdone.cores, hanswered⟩

@[simp] theorem sliceState_setSliceState (s : State) (n : N20) {x : Nat} (hx : x < 16) : sliceState (setSliceState s n x) n = x :=
  rfld_rsetf_self s _ (by decide) hx

@[simp] theorem scrub_beginScrub (s : State) (n : N20) (w : ScrubWhy) : tget (beginScrub s n w).mp.scrub none n.val = some w :=
  tget_tset_self s.mp.scrub none (some w) n.val

theorem exec_scrubSlice_idle {s : State} {id : Nat} {t : Taken} {n : N20} (h : TurnCome s id opScrub t) (hn : pkSl t.bytes = some n)
    (hforce : pkF t.bytes 0 0 0 = 0) (hidle : sliceRunning s n = false) :
    ∃ u, exec (.scrubSlice id) s = .next u ∧ sliceState u n = 4 ∧ tget u.mp.scrub none n.val = some (.packet t.id) ∧
      Underway s u t ∧ u.out = s.out ∧ SameMemory s u ∧ u.cores = s.cores := by
  let z := putTaken s { t with begun := true }
  have hact : beginScrubSlice z { t with begun := true } n = beginScrub (setSliceState z n 4) n (.packet t.id) := by
    have hz : sliceRunning z n = false := hidle
    simp only [beginScrubSlice, hforce, hz]
    rfl
  refine ⟨_, congrArg Host.Outcome.next ((runOnSlice_turn h hn _).trans hact), ?_⟩
  exact ⟨sliceState_setSliceState z n (by decide), scrub_beginScrub _ n _, rfl, rfl, ⟨rfl, rfl, rfl, rfl, rfl, rfl⟩, rfl⟩

theorem exec_scrubSlice_running {s : State} {id : Nat} {t : Taken} {n : N20} (hc : CqFree s t.f t.ring) (hm : t.mute = false)
    (h : TurnCome s id opScrub t) (hn : pkSl t.bytes = some n) (hforce : pkF t.bytes 0 0 0 = 0) (hruns : sliceRunning s n = true) :
    ∃ u, exec (.scrubSlice id) s = .next u ∧ Answered s u t .sliceBusy 0 0 0 0 ∧ sliceState u n = sliceState s n ∧ SameMemory s u ∧
      u.cores = s.cores := by
  let z := putTaken s { t with begun := true }
  have hact : beginScrubSlice z { t with begun := true } n = finish z { t with begun := true } .sliceBusy 0 0 := by
    have hz : sliceRunning z n = true := hruns
    simp only [beginScrubSlice, hforce, hz]
    rfl
  refine ⟨_, congrArg Host.Outcome.next ((runOnSlice_turn h hn _).trans hact), ?_⟩
  obtain ⟨hanswered, hdone⟩ := finish_turn hc hm .sliceBusy 0 0
  exact ⟨hanswered, hdone.state n, hdone.memory, hdone.cores⟩

/-- OPEN_SLICE waits while an access to the slice is in flight (log 123). -/
theorem exec_openSlice_meets {s : State} {id : Nat} (h : packetMeets s id = true) : exec (.openSlice id) s = .next s :=
  congrArg Host.Outcome.next (if_pos h)

end Sys2Proof.Machine

namespace Sys2Proof.Machine

/-! The byte of an address is its entry in memory, or on a sync line part of a word. -/

/-- The byte of an address depends on its unit's home, on its own entry in memory and, on a sync line, on the line's words. -/
theorem byteAt_congr {s u : State} {a : Nat} (hhome : homeOf u (a / 64) = homeOf s (a / 64))
    (hwords : ∀ n, homeOf s (a / 64) = .sync n → ∀ k < 8, tget u.syncw ⟨0, false⟩ (8 * (a / 64) + k) = tget s.syncw ⟨0, false⟩ (8 * (a / 64) + k))
    (hmem : tget u.mem memDefault a = tget s.mem memDefault a) : byteAt u a = byteAt s a := by
  have hin : a % 64 < 64 := Nat.mod_lt _ (by decide)
  have hat : 64 * (a / 64) + a % 64 = a := Nat.div_add_mod a 64
  have hread : nthD (tread u.mem memDefault (64 * (a / 64)) 64) (a % 64) 0 = nthD (tread s.mem memDefault (64 * (a / 64)) 64) (a % 64) 0 := by
    simp [tread_eq_map, nthD, hin, hat, hmem]
  unfold byteAt unitBytes
  rw [hhome]
  cases h : homeOf s (a / 64) with
  | sync n =>
    have hwords' (k : Nat) (hk : k ∈ List.range 8) := hwords n h k (List.mem_range.1 hk)
    simp only [List.flatMap_def]
    rw [List.map_congr_left fun k hk => by rw [hwords' k hk]]
  | retired n => rfl
  | dram n => exact hread
  | pad c o => exact hread
  | nowhere => exact hread

/-- An address lies in the stack that its unit lies in. -/
theorem placeOf_stack_of_unit {a : Nat} {n : N20} {off : Nat} (h : placeOf (64 * (a / 64)) = .stack n off) : placeOf a = .stack n (off + a % 64) := by
  obtain ⟨hlt, hoff, hn, rfl⟩ := placeOf_stack h
  have hat := Nat.div_add_mod a 64
  rw [placeOf_of_stack (a := a) (n := n) (by omega) (by omega) (by omega)]
  congr 1
  omega

/-- The bytes from a stack's base to its end are those of the stack. -/
theorem placeOf_stkBase {a : Nat} {n : N20} (hlo : stkBase n ≤ a) (hhi : a < stkBase n + 0xC00000000) : placeOf a = .stack n (a - stkBase n) := by
  have hn := n.isLt
  unfold stkBase at *
  rw [placeOf_of_stack (a := a) (n := n) (by omega) (by omega) (by omega)]
  congr 1
  omega

theorem addrSlice_stack {s : State} {a : Nat} {n : N20} {off : Nat} (h : placeOf a = .stack n off) : addrSlice s a = sectSlice s n := by
  rw [addrSlice, h]

theorem mem_sliceSects {s : State} {n k : N20} : k ∈ sliceSects s n ↔ sectSlice s k = some n := by
  simp [sliceSects, all20]

/-! A slice's memory under a new key. -/

/-- Nothing but memory differs, and that only at addresses where p holds. -/
structure MemAt (p : Nat → Prop) (s u : State) : Prop where
  rest : u = { s with mem := u.mem }
  apart : ∀ a, ¬p a → tget u.mem memDefault a = tget s.mem memDefault a

theorem MemAt.refl (p : Nat → Prop) (s : State) : MemAt p s s := ⟨rfl, fun _ _ => rfl⟩

theorem MemAt.trans {p : Nat → Prop} {s t u : State} (h : MemAt p s t) (k : MemAt p t u) : MemAt p s u :=
  ⟨by rw [k.rest, h.rest], fun a ha => (k.apart a ha).trans (h.apart a ha)⟩

theorem memAt_foldl {p : Nat → Prop} {ι : Type} {f : State → ι → State} {l : List ι} (hf : ∀ t, ∀ x ∈ l, MemAt p t (f t x)) (s : State) :
    MemAt p s (l.foldl f s) := by
  induction l generalizing s with
  | nil => exact .refl p s
  | cons x l ih => exact (hf s x (by simp)).trans (ih (fun t y hy => hf t y (by simp [hy])) _)

theorem mem_of_mem_eraseRepsLoop {r : Nat → Nat → Bool} {x a : Nat} {l acc : List Nat} (h : x ∈ List.eraseRepsBy.loop r a l acc) :
    x = a ∨ x ∈ l ∨ x ∈ acc := by
  induction l generalizing a acc with
  | nil => simpa [List.eraseRepsBy.loop, or_comm] using h
  | cons b l ih =>
    rw [List.eraseRepsBy.loop] at h
    split at h
    · rcases ih h with rfl | h | h <;> simp [*]
    · rcases ih h with rfl | h | h
      · simp
      · simp [h]
      · rcases List.mem_cons.1 h with rfl | h <;> simp [*]

/-- Repetitions removed, a list holds nothing new. -/
theorem mem_of_mem_eraseReps {x : Nat} {l : List Nat} (h : x ∈ l.eraseReps) : x ∈ l := by
  cases l with
  | nil => exact h
  | cons a l =>
    rcases mem_of_mem_eraseRepsLoop h with rfl | h | h
    · simp
    · simp [h]
    · cases h

theorem storedSectors_within {s : State} {k : N20} {v : Nat} (h : v ∈ storedSectors s k) :
    stkBase k ≤ 64 * v ∧ 64 * v + 64 ≤ stkBase k + 0xC00000000 := by
  obtain ⟨p, hp, rfl⟩ := List.mem_map.1 (mem_of_mem_eraseReps h)
  have hin := (List.mem_filter.1 hp).2
  simp only [Bool.and_eq_true, decide_eq_true_eq] at hin
  unfold stkBase at *
  omega

theorem memAt_rekeySector {p : Nat → Prop} (old new : List Byte) (s : State) {v : Nat} (hv : ∀ a, 64 * v ≤ a → a < 64 * v + 64 → p a) :
    MemAt p s (rekeySector old new s v) := by
  unfold rekeySector
  split
  · exact .refl p s
  · refine ⟨rfl, fun a ha => tget_twrite_out _ _ _ _ _ ?_⟩
    rw [length_bytesAt]
    by_contra hin
    exact ha (hv a (by omega) (by omega))

/-- A new key changes bytes of the slice's stacks alone. -/
theorem memAt_rekey (s : State) (n : N20) (new : List Byte) : MemAt (fun a => addrSlice s a = some n) s (rekey s n new) := by
  refine memAt_foldl (fun t k hk => memAt_foldl (fun z v hv => memAt_rekeySector _ _ _ fun a hlo hhi => ?_) t) s
  obtain ⟨hbase, hend⟩ := storedSectors_within hv
  rw [addrSlice_stack (placeOf_stkBase (hbase.trans hlo) (by omega))]
  exact mem_sliceSects.1 hk

/-- A drawn or delivered key installed: the slice's memory apart, only the slice's key, its slot's and its register change (R414, R415). -/
theorem installKey_eq (s : State) (n : N20) (k : List Byte) : ∃ x sp, installKey s n k = rsetf { rekey s n k with sp := sp } (.sliceKey n) 31 0 x ∧
    (tget sp.slices sliceSecReset n.val).key = k :=
  ⟨_, _, rfl, congrArg SliceSec.key (tget_tset_self (rekey s n k).sp.slices sliceSecReset _ n.val)⟩

theorem Writes.homes {s u : State} (h : Writes (aside · = true) s u) : SameHomes s u where
  windows _ := h.others _ (by simp [aside])
  lists _ _ := h.others _ (by simp [aside])
  counts _ := h.rfld (by simp [aside]) _ _

/-- The registers of a slice with a new key that is OPENING. -/
def openingRegs (s : State) (n : N20) (x : Nat) : State := setSliceState (rsetf (rsetf s (.sliceKey n) 31 0 x) (.sliceKey n) 63 60 1) n 1

theorem writes_openingRegs (s : State) (n : N20) (x : Nat) : Writes (aside · = true) s (openingRegs s n x) :=
  have hkey (t : State) (hi lo x : Nat) : Writes (aside · = true) t (rsetf t (.sliceKey n) hi lo x) := writes_rsetf t hi lo x (by rfl)
  ((hkey s 31 0 x).trans (hkey _ 63 60 1)).trans (writes_rsetf (r := .sliceState n) _ 63 60 1 (by rfl))

theorem keyState_openingRegs (s : State) (n : N20) (x : Nat) : keyState (openingRegs s n x) n = 1 := by
  have hbits := rfld_rsetf_self (rsetf s (.sliceKey n) 31 0 x) (.sliceKey n) (hi := 63) (lo := 60) (x := 1) (by decide) (by decide)
  exact (rfld_rsetf_of_ne _ 63 60 1 63 60 (by simp)).trans hbits

/-- A slice's memory under a new key, the key in its place, and the scrub under way. -/
theorem opening_of_memAt {z r y : State} {n : N20} {sp : Sp} (h : MemAt (fun a => addrSlice z a = some n) z r)
    (hy : Writes (aside · = true) { r with sp := sp } y) (w : ScrubWhy) :
    let u := beginScrub y n w
    u.sp = sp ∧ tget u.mp.scrub none n.val = some w ∧ u.mp.taken = z.mp.taken ∧
      u.out = z.out ∧ u.cores = z.cores ∧ (∀ a, addrSlice z a ≠ some n → memBytes u a 1 = memBytes z a 1) ∧ u.poison = z.poison ∧
      u.feb = z.feb ∧ u.syncw = z.syncw ∧ u.ecc = z.ecc := by
  intro u
  obtain ⟨hrest, hapart⟩ := h
  have hhomes : SameHomes z u :=
    ((sameHomes_of_regs (s := z) (u := { r with sp := sp }) (congrArg State.regs hrest :)).trans hy.homes).trans (sameHomes_of_regs rfl)
  have hmp : y.mp.taken = r.mp.taken := (congrArg (fun x => x.mp.taken) hy.rest :)
  have hout : y.out = r.out := (congrArg State.out hy.rest :)
  have hcores : y.cores = r.cores := (congrArg State.cores hy.rest :)
  have hmem : y.mem = r.mem := (congrArg State.mem hy.rest :)
  have hpoison : y.poison = r.poison := (congrArg State.poison hy.rest :)
  have hfeb : y.feb = r.feb := (congrArg State.feb hy.rest :)
  have hwords : y.syncw = z.syncw := (congrArg State.syncw hy.rest :).trans (congrArg State.syncw hrest :)
  have hecc : y.ecc = r.ecc := (congrArg State.ecc hy.rest :)
  refine ⟨hy.sp, scrub_beginScrub _ n _, hmp.trans (congrArg (fun x => x.mp.taken) hrest :), hout.trans (congrArg State.out hrest :),
    hcores.trans (congrArg State.cores hrest :), fun a ha => ?_, hpoison.trans (congrArg State.poison hrest :),
    hfeb.trans (congrArg State.feb hrest :), hwords, hecc.trans (congrArg State.ecc hrest :)⟩
  rw [memBytes_one, memBytes_one]
  refine congrArg ([·]) (byteAt_congr (hhomes.home _) (fun m _ i _ => ?_) ((congrArg (tget · memDefault a) hmem).trans (hapart a ha)))
  exact congrArg (fun w => tget w ⟨0, false⟩ (8 * (a / 64) + i)) hwords

/-- OPEN_SLICE, with no access in flight: the slice has a key of the device and is OPENING, and its scrub is under way (R393, R414). -/
theorem exec_openSlice {s : State} {id : Nat} {t : Taken} {n : N20} (h : TurnCome s id opOpen t) (hn : pkSl t.bytes = some n)
    (hmeets : packetMeets s id = false) :
    ∃ u, exec (.openSlice id) s = .next u ∧ sliceState u n = 1 ∧ keyState u n = 1 ∧
      (getSec u n).key = Config.drbgKey s.sp.keyDraws ∧ tget u.mp.scrub none n.val = some (.key t.id) ∧ Underway s u t ∧
      u.out = s.out ∧ u.cores = s.cores ∧ (∀ a, addrSlice s a ≠ some n → memBytes u a 1 = memBytes s a 1) ∧ u.poison = s.poison ∧
      u.feb = s.feb ∧ u.syncw = s.syncw ∧ u.ecc = s.ecc := by
  let z : State := (drawKey (putTaken s { t with begun := true })).1
  have hopen : beginOpen (putTaken s { t with begun := true }) { t with begun := true } n =
      beginScrub (setSliceState (rsetf (installKey z n (Config.drbgKey s.sp.keyDraws)) (.sliceKey n) 63 60 1) n 1) n (.key t.id) := rfl
  have hexec : exec (.openSlice id) s = .next (if packetMeets s id then s else runOnSlice s id opOpen beginOpen) := rfl
  obtain ⟨x, sp, hinstall, hkey⟩ := installKey_eq z n (Config.drbgKey s.sp.keyDraws)
  obtain ⟨hsp, hscrub, htaken, hout, hcores, hbytes, hpoison, hfeb, hwords, hecc⟩ :=
    opening_of_memAt (memAt_rekey z n (Config.drbgKey s.sp.keyDraws)) (writes_openingRegs _ n x) (.key t.id)
  rw [hexec, if_neg (by simp [hmeets]), runOnSlice_turn h hn, hopen, hinstall]
  exact ⟨_, rfl, sliceState_setSliceState _ n (by decide), keyState_openingRegs _ n x,
    (congrArg (fun y : Sp => (tget y.slices sliceSecReset n.val).key) hsp).trans hkey, hscrub, htaken, hout, hcores,
    hbytes, hpoison, hfeb, hwords, hecc⟩

end Sys2Proof.Machine

namespace Sys2Proof.Machine

/-! A slice under a new key, and the end of its scrub. -/

/-- An access to a slice that is scrubbed under a new key is held (log 123). -/
theorem exec_memoryRequest_rekeying {s : State} {n m : N20} {j off : Nat} {q : MemReq} (hscrub : tget s.mp.scrub none n.val = some (.key j))
    (hslice : sectSlice s m = some n) (hplace : placeOf q.addr.toNat = .stack m off) (hlen : 0 < q.len) (hfit : q.addr.toNat % 64 + q.len ≤ 64)
    (hup : memUp s = true) (hopen : stackOpen s m = true) : exec (.memoryRequestArrive q) s = .next { s with held := s.held ++ [.req q] } := by
  have hheld : sectHeld s m = true := by
    have hsome : s.mp.scrub ≠ [] := fun h => by simp [h, tget] at hscrub
    simp [sectHeld, sectRekeys, rekeying, hslice, hscrub, hsome]
  rw [exec_memoryRequest_up hplace hlen hfit hup]
  simp [hslice, hheld, hopen]

/-- A stack of the slice in recalibration makes the end of the scrub wait. -/
theorem exec_sliceScrubComplete_recal {s : State} {n : N20} (h : ∃ m ∈ sliceSects s n, inRecal s m = true) :
    exec (.sliceScrubComplete n) s = .next s :=
  congrArg Host.Outcome.next (if_pos (List.any_eq_true.2 h))

/-- The scrub of a slice ends once no stack of it is in recalibration, under a new key at once, else when the slice is still. -/
theorem exec_sliceScrubComplete_ends {s : State} {n : N20} {id : Nat} (hrecal : ∀ m ∈ sliceSects s n, inRecal s m = false)
    (hwhy : tget s.mp.scrub none n.val = some (.key id) ∨ (tget s.mp.scrub none n.val = some (.packet id) ∧ sliceRunning s n = false ∧
      (sliceState s n = 5 → accessIn s n = false))) : exec (.sliceScrubComplete n) s = .next (packetScrubbed s n id) := by
  have hany : (sliceSects s n).any (inRecal s) = false := by simpa using hrecal
  have hexec : exec (.sliceScrubComplete n) s = execSliceScrubComplete n s := rfl
  rw [hexec, execSliceScrubComplete, hany]
  obtain hkey | ⟨hpacket, hidle, hquiet⟩ := hwhy
  · simp [hkey]
  · have hwait : (closing s n && accessIn s n) = false := by
      cases h : closing s n with
      | false => rfl
      | true => exact hquiet (by simpa [closing] using h)
    simp [hpacket, hidle, hwait]

/-- With no access held none is served. -/
theorem serveHeld_of_nil {s : State} (h : s.held = []) : serveHeld s = s := by
  have hs : { s with held := [] } = s := by rw [← h]
  simp only [serveHeld, h, List.filter_nil, List.foldl_nil, releaseFills, freeFills, hs]

end Sys2Proof.Machine

namespace Sys2Proof.Machine

/-! What a scrub clears (R299, R414). -/

/-- A table thinned by its keys reads its default at those removed. -/
theorem tget_filter_key {α : Type} (t : Tab α) (d : α) (p : Nat → Bool) (k : Nat) :
    tget (t.filter fun x => p x.1) d k = if p k then tget t d k else d := by
  split
  next hp => exact tget_filter_keep _ fun _ => hp
  next hp => exact tget_none fun x hx hk => hp (hk ▸ (List.mem_filter.1 hx).2)

theorem tget_clearStack {α : Type} (s : State) (n : N20) (w : Nat) (t : Tab α) (d : α) (k : Nat) :
    tget (clearStack s n w t) d k =
      if stkBase n ≤ w * k ∧ w * k < stkBase n + 0xC00000000 ∧ keptByte s n (w * k) = false then d else tget t d k := by
  unfold clearStack
  rw [tget_filter_key t d fun j => !(decide (stkBase n ≤ w * j) && decide (w * j < stkBase n + 0xC00000000)) || keptByte s n (w * j)]
  cases keptByte s n (w * k) <;> by_cases h1 : stkBase n ≤ w * k <;> by_cases h2 : w * k < stkBase n + 0xC00000000 <;> simp [h1, h2]

theorem tget_tclear {α : Type} (t : Tab α) (d : α) (lo n k : Nat) : tget (tclear t lo n) d k = if lo ≤ k ∧ k < lo + n then d else tget t d k := by
  split
  next h => exact tget_tclear_in t d h
  next h => exact tget_tclear_out t d (by omega)

/-- Memory is emptied in part, and only where p holds: every entry is as before or its default. -/
structure Wipes (p : Nat → Prop) (s u : State) : Prop where
  rest : u = { s with mem := u.mem, poison := u.poison, feb := u.feb, syncw := u.syncw, syncp := u.syncp, ecc := u.ecc, cached := u.cached, dirty := u.dirty }
  mem : ∀ a, tget u.mem memDefault a = tget s.mem memDefault a ∨ p a ∧ tget u.mem memDefault a = memDefault
  poison : ∀ v, tget u.poison false v = tget s.poison false v ∨ tget u.poison false v = false
  words : ∀ w, tget u.syncw ⟨0, false⟩ w = tget s.syncw ⟨0, false⟩ w ∨ p (8 * w) ∧ tget u.syncw ⟨0, false⟩ w = ⟨0, false⟩
  lines : ∀ v, tget u.syncp false v = tget s.syncp false v ∨ tget u.syncp false v = false

section Wipes
variable {p : Nat → Prop} {s t u : State}

theorem Wipes.refl (p : Nat → Prop) (s : State) : Wipes p s s := ⟨rfl, fun _ => .inl rfl, fun _ => .inl rfl, fun _ => .inl rfl, fun _ => .inl rfl⟩

theorem Wipes.trans (h : Wipes p s t) (k : Wipes p t u) : Wipes p s u where
  rest := by rw [k.rest, h.rest]
  mem a := (k.mem a).elim (fun e => (h.mem a).imp e.trans (And.imp_right e.trans)) .inr
  poison v := (k.poison v).elim (fun e => (h.poison v).imp e.trans e.trans) .inr
  words w := (k.words w).elim (fun e => (h.words w).imp e.trans (And.imp_right e.trans)) .inr
  lines v := (k.lines v).elim (fun e => (h.lines v).imp e.trans e.trans) .inr

theorem wipes_foldl {ι : Type} {f : State → ι → State} {l : List ι} (hf : ∀ t, ∀ x ∈ l, Wipes p t (f t x)) (s : State) : Wipes p s (l.foldl f s) :=
  List.foldlRecOn (motive := Wipes p s) l f (.refl p s) fun t ht x hx => ht.trans (hf t x hx)

theorem Wipes.regs (h : Wipes p s u) : u.regs = s.regs := (congrArg State.regs h.rest :)

end Wipes

/-- A key cleared where p holds, else as before. -/
theorem wiped_ite {α : Type} {c p : Prop} [Decidable c] {x d : α} (h : c → p) : (if c then d else x) = x ∨ p ∧ (if c then d else x) = d := by
  split
  next hc => exact .inr ⟨h hc, rfl⟩
  next => exact .inl rfl

theorem wipes_scrubStack {p : Nat → Prop} (s : State) {n : N20} (hp : ∀ a, stkBase n ≤ a → a < stkBase n + 0xC00000000 → p a) :
    Wipes p s (scrubStack s n) where
  rest := rfl
  mem a := by
    have h := tget_clearStack s n 1 s.mem memDefault a
    rw [Nat.one_mul] at h
    change tget (clearStack s n 1 s.mem) memDefault a = _ ∨ p a ∧ tget (clearStack s n 1 s.mem) memDefault a = _
    rw [h]
    exact wiped_ite fun hc => hp a hc.1 hc.2.1
  poison v := by
    change tget (clearStack s n 64 s.poison) false v = _ ∨ tget (clearStack s n 64 s.poison) false v = _
    rw [tget_clearStack]
    exact (wiped_ite (p := True) fun _ => trivial).imp_right And.right
  words w := by
    change tget (tclear s.syncw (stkBase n / 8) (0xC00000000 / 8)) ⟨0, false⟩ w = _ ∨
      p (8 * w) ∧ tget (tclear s.syncw (stkBase n / 8) (0xC00000000 / 8)) ⟨0, false⟩ w = _
    rw [tget_tclear]
    refine wiped_ite fun hc => hp _ ?_ ?_ <;> unfold stkBase at * <;> omega
  lines v := by
    change tget (tclear s.syncp (stkBase n / 64) (0xC00000000 / 64)) false v = _ ∨ tget (tclear s.syncp (stkBase n / 64) (0xC00000000 / 64)) false v = _
    rw [tget_tclear]
    exact (wiped_ite (p := True) fun _ => trivial).imp_right And.right

theorem wipes_scrubPad {p : Nat → Prop} (s : State) {c : CoreId} (hp : ∀ a, padBase c ≤ a → a < padBase c + 0x400000 → p a) :
    Wipes p s (scrubPad s c) where
  rest := rfl
  mem a := by
    change tget (tclear s.mem (padBase c) 0x400000) memDefault a = _ ∨ p a ∧ tget (tclear s.mem (padBase c) 0x400000) memDefault a = _
    rw [tget_tclear]
    exact wiped_ite fun hc => hp a hc.1 hc.2
  poison v := by
    change tget (tclear s.poison (padBase c / 64) 0x10000) false v = _ ∨ tget (tclear s.poison (padBase c / 64) 0x10000) false v = _
    rw [tget_tclear]
    exact (wiped_ite (p := True) fun _ => trivial).imp_right And.right
  words _ := .inl rfl
  lines _ := .inl rfl

/-- Of a unit with the home given, the entries that the byte at a and the unit's poison are read from are empty. -/
def Blank (h : Home) (a : Nat) (t : State) : Prop :=
  match h with
  | .sync _ => (∀ k < 8, tget t.syncw ⟨0, false⟩ (8 * (a / 64) + k) = ⟨0, false⟩) ∧ tget t.syncp false (a / 64) = false
  | .retired _ => True
  | _ => tget t.mem memDefault a = memDefault ∧ tget t.poison false (a / 64) = false

/-- Emptied further, what is empty stays so. -/
theorem Wipes.blank {p : Nat → Prop} {s u : State} (hw : Wipes p s u) {h : Home} {a : Nat} (hb : Blank h a s) : Blank h a u := by
  have hplain (hm : tget s.mem memDefault a = memDefault ∧ tget s.poison false (a / 64) = false) :
      tget u.mem memDefault a = memDefault ∧ tget u.poison false (a / 64) = false :=
    ⟨(hw.mem a).elim (·.trans hm.1) And.right, (hw.poison _).elim (·.trans hm.2) id⟩
  cases h with
  | sync n => exact ⟨fun k hk => (hw.words _).elim (·.trans (hb.1 k hk)) And.right, (hw.lines _).elim (·.trans hb.2) id⟩
  | retired n => trivial
  | dram n => exact hplain hb
  | pad c o => exact hplain hb
  | nowhere => exact hplain hb

theorem byteAt_of_blank {s : State} {a : Nat} (hb : Blank (homeOf s (a / 64)) a s) (hr : ∀ m, homeOf s (a / 64) ≠ .retired m) :
    memBytes s a 1 = [0] ∧ unitPoison s (a / 64) = false := by
  have hin : a % 64 < 64 := Nat.mod_lt _ (by decide)
  have hat : 64 * (a / 64) + a % 64 = a := Nat.div_add_mod a 64
  have hplain (hm : tget s.mem memDefault a = memDefault) : nthD (tread s.mem memDefault (64 * (a / 64)) 64) (a % 64) 0 = 0 := by
    simpa [tread_eq_map, nthD, hin, hat, memDefault] using hm
  rw [memBytes_one]
  unfold byteAt unitBytes unitPoison
  cases h : homeOf s (a / 64) with
  | retired m => exact absurd h (hr m)
  | sync n =>
    rw [h] at hb
    obtain ⟨hwords, hline⟩ := hb
    have hzero (k : Nat) (hk : k ∈ List.range 8) := hwords k (List.mem_range.1 hk)
    refine ⟨?_, hline⟩
    simp only [List.flatMap_def]
    rw [List.map_congr_left fun k hk => by rw [hzero k hk]]
    have hzeros : ((List.range 8).map fun _ => leBytes 8 (⟨0, false⟩ : SyncWord).v.toNat).flatten = List.replicate 64 0 := by decide
    simp only [hzeros, nthD, List.getD_eq_getElem?_getD, List.getElem?_replicate, if_pos hin, Option.getD_some]
  | dram n => rw [h] at hb; exact ⟨congrArg ([·]) (hplain hb.1), hb.2⟩
  | pad c o => rw [h] at hb; exact ⟨congrArg ([·]) (hplain hb.1), hb.2⟩
  | nowhere => rw [h] at hb; exact ⟨congrArg ([·]) (hplain hb.1), hb.2⟩

theorem homeOf_of_place {s : State} {a off : Nat} {n : N20} (h : placeOf a = .stack n off) : homeOf s (a / 64) =
    if inWindow s n (off - a % 64) then .sync n else if pageRetired s n (off / 0x10000) then .retired n else .dram n := by
  obtain ⟨hlt, hoff, hn, rfl⟩ := placeOf_stack h
  have hunit : placeOf (64 * (a / 64)) = .stack n (a % 0x1000000000 - a % 64) := by
    rw [placeOf_of_stack (a := 64 * (a / 64)) (n := n) (by omega) (by omega) (by omega)]
    congr 1
    omega
  have hpage : (a % 0x1000000000 - a % 64) / 0x10000 = a % 0x1000000000 / 0x10000 := by omega
  rw [homeOf_stack hunit, hpage]

theorem homeOf_of_pad {s : State} {a off : Nat} {c : CoreId} (h : placeOf a = .pad c off) : ∃ o, homeOf s (a / 64) = .pad c o := by
  obtain ⟨hlo, hcore⟩ := placeOf_eq_pad h
  have hunit : 0xF0000000000 ≤ 64 * (a / 64) ∧ (64 * (a / 64) - 0xF0000000000) / 0x400000 = c.val := by omega
  obtain ⟨c', o, hplace⟩ := placeOf_pad hunit.1 (hunit.2 ▸ c.isLt)
  obtain rfl : c' = c := Fin.ext ((placeOf_eq_pad hplace).2.symm.trans hunit.2)
  exact ⟨o / 64, by rw [homeOf, hplace]⟩

/-- A scrub empties every byte of its stack but those of retired pages. -/
theorem blank_scrubStack {s : State} {n : N20} {a off : Nat} (h : placeOf a = .stack n off) : Blank (homeOf s (a / 64)) a (scrubStack s n) := by
  obtain ⟨hlt, hoff, hn, rfl⟩ := placeOf_stack h
  rw [homeOf_of_place h]
  split
  · refine ⟨fun k hk => tget_tclear_in _ _ ?_, tget_tclear_in _ _ ?_⟩ <;> unfold stkBase <;> omega
  · split
    · trivial
    next hpage =>
      have hbase : stkBase n ≤ a ∧ a < stkBase n + 0xC00000000 ∧ a - stkBase n = a % 0x1000000000 := by unfold stkBase; omega
      have hunit : stkBase n ≤ 64 * (a / 64) ∧ 64 * (a / 64) < stkBase n + 0xC00000000 ∧ (64 * (a / 64) - stkBase n) / 0x10000 = a % 0x1000000000 / 0x10000 := by
        unfold stkBase; omega
      constructor
      · change tget (clearStack s n 1 s.mem) memDefault a = _
        rw [tget_clearStack, Nat.one_mul, if_pos ⟨hbase.1, hbase.2.1, by rw [keptByte, hbase.2.2]; simpa using hpage⟩]
      · change tget (clearStack s n 64 s.poison) false (a / 64) = _
        rw [tget_clearStack, if_pos ⟨hunit.1, hunit.2.1, by rw [keptByte, hunit.2.2]; simpa using hpage⟩]

theorem blank_scrubPad {s : State} {c : CoreId} {a off : Nat} (h : placeOf a = .pad c off) : Blank (homeOf s (a / 64)) a (scrubPad s c) := by
  obtain ⟨o, hhome⟩ := homeOf_of_pad (s := s) h
  obtain ⟨hlo, hcore⟩ := placeOf_eq_pad h
  rw [hhome]
  refine ⟨tget_tclear_in _ _ ?_, tget_tclear_in _ _ ?_⟩ <;> unfold padBase <;> omega

end Sys2Proof.Machine

namespace Sys2Proof.Machine

/-! The slice after its scrub, and the packet's end. -/

/-- A step of the list that reaches what the later ones keep. -/
theorem foldl_reaches {σ ι : Type} {f : σ → ι → σ} {P Q : σ → Prop} {x : ι} {l : List ι} (hx : x ∈ l) (hP : ∀ t, ∀ y ∈ l, P t → P (f t y))
    (hreach : ∀ t, P t → Q (f t x)) (hstay : ∀ t, ∀ y ∈ l, Q t → Q (f t y)) {s : σ} (hs : P s) : Q (l.foldl f s) := by
  induction l generalizing s with
  | nil => cases hx
  | cons y l ih =>
    obtain rfl | hl := List.mem_cons.1 hx
    · exact List.foldlRecOn (motive := Q) l f (hreach s hs) fun t ht y hy => hstay t y (by simp [hy]) ht
    · exact ih hl (fun t y hy => hP t y (by simp [hy])) (fun t y hy => hstay t y (by simp [hy])) (hP s y (by simp) hs)

theorem placeOf_padBase {a : Nat} {c : CoreId} (hlo : padBase c ≤ a) (hhi : a < padBase c + 0x400000) : ∃ o, placeOf a = .pad c o := by
  have hcore : 0xF0000000000 ≤ a ∧ (a - 0xF0000000000) / 0x400000 = c.val := by unfold padBase at *; omega
  obtain ⟨c', o, hplace⟩ := placeOf_pad hcore.1 (hcore.2 ▸ c.isLt)
  obtain rfl : c' = c := Fin.ext ((placeOf_eq_pad hplace).2.symm.trans hcore.2)
  exact ⟨o, hplace⟩

theorem mem_sectCores {c : CoreId} {n : N20} : c ∈ sectCores n ↔ coreSect c = n := by
  simp only [sectCores, List.mem_filterMap, List.mem_range, fin?_eq_some, coreSect, Fin.ext_iff]
  exact ⟨fun ⟨i, hi, hc⟩ => by omega, fun h => ⟨c.val % 8, by omega, by omega⟩⟩

theorem mem_sliceCores {s : State} {n : N20} {c : CoreId} : c ∈ sliceCores s n ↔ coreSlice s c = some n := by
  simp only [sliceCores, List.mem_flatMap, mem_sliceSects, mem_sectCores, coreSlice]
  exact ⟨fun ⟨m, hm, hc⟩ => hc ▸ hm, fun h => ⟨_, h, rfl⟩⟩

/-- Memory of the slice's stacks and scratchpads, emptied. -/
def scrubMemory (s : State) (n : N20) : State := (sliceCores s n).foldl scrubPad ((sliceSects s n).foldl scrubStack s)

theorem sliceCores_congr {s u : State} (h : u.regs = s.regs) (n : N20) : sliceCores u n = sliceCores s n := by
  simp only [sliceCores, sliceSects, sectSlice, rbit, rfld, rget, h]
  rfl

theorem wipes_stacks (s : State) (n : N20) : Wipes (fun a => addrSlice s a = some n) s ((sliceSects s n).foldl scrubStack s) :=
  wipes_foldl (fun t _ hk => wipes_scrubStack t fun _ hlo hhi => (addrSlice_stack (placeOf_stkBase hlo hhi)).trans (mem_sliceSects.1 hk)) s

theorem wipes_pads (s t : State) (n : N20) : Wipes (fun a => addrSlice s a = some n) t ((sliceCores s n).foldl scrubPad t) := by
  refine wipes_foldl (fun t c hc => wipes_scrubPad t fun a hlo hhi => ?_) t
  obtain ⟨o, hplace⟩ := placeOf_padBase hlo hhi
  rw [addrSlice, hplace]
  exact mem_sliceCores.1 hc

theorem wipes_scrubMemory (s : State) (n : N20) : Wipes (fun a => addrSlice s a = some n) s (scrubMemory s n) :=
  (wipes_stacks s n).trans (wipes_pads s _ n)

/-- Every byte of the slice, but those of retired pages and those seen through a window, is empty. -/
theorem blank_scrubMemory {s : State} {n : N20} {a : Nat} (ha : addrSlice s a = some n) (hwin : ∀ k m o, placeOf a ≠ .win k m o) :
    Blank (homeOf s (a / 64)) a (scrubMemory s n) := by
  have hhome {t : State} (h : t.regs = s.regs) : homeOf t (a / 64) = homeOf s (a / 64) := (sameHomes_of_regs h).home _
  cases hplace : placeOf a with
  | nothing => rw [addrSlice, hplace] at ha; cases ha
  | win k m o => exact absurd hplace (hwin k m o)
  | stack k off =>
    have hk : k ∈ sliceSects s n := mem_sliceSects.2 ((addrSlice_stack hplace).symm.trans ha)
    have hstacks : Blank (homeOf s (a / 64)) a ((sliceSects s n).foldl scrubStack s) :=
      foldl_reaches (f := scrubStack) (P := fun t => t.regs = s.regs) (Q := Blank (homeOf s (a / 64)) a) hk (fun t y _ ht => ht)
        (fun t ht => hhome ht ▸ blank_scrubStack hplace)
        (fun t y _ ht => (wipes_scrubStack (n := y) (p := fun _ => True) t fun _ _ _ => trivial).blank ht) rfl
    exact (wipes_pads s _ n).blank hstacks
  | pad c o =>
    have hc : c ∈ sliceCores s n := mem_sliceCores.2 (by rw [addrSlice, hplace] at ha; exact ha)
    exact foldl_reaches (f := scrubPad) (P := fun t => t.regs = s.regs) (Q := Blank (homeOf s (a / 64)) a) hc (fun t y _ ht => ht)
      (fun t ht => hhome ht ▸ blank_scrubPad hplace)
      (fun t y _ ht => (wipes_scrubPad (c := y) (p := fun _ => True) t fun _ _ _ => trivial).blank ht) (wipes_stacks s n).regs

theorem place_of_sync {s : State} {v : Nat} {m : N20} (h : homeOf s v = .sync m) : ∃ off, placeOf (64 * v) = .stack m off := by
  unfold homeOf at h
  split at h
  · cases h
  next n off hplace =>
    split at h
    · obtain rfl := Home.sync.inj h
      exact ⟨off, hplace⟩
    · split at h <;> cases h
  · cases h

/-- No byte outside the slice changes. -/
theorem memBytes_of_wipes {s u : State} {n : N20} (h : Wipes (fun a => addrSlice s a = some n) s u) {a : Nat} (ha : addrSlice s a ≠ some n) :
    memBytes u a 1 = memBytes s a 1 := by
  rw [memBytes_one, memBytes_one]
  refine congrArg ([·]) (byteAt_congr ((sameHomes_of_regs h.regs).home _) (fun m hm k hk => ?_) ?_)
  · refine (h.words _).resolve_right fun hw => ha (Eq.trans ?_ hw.1)
    obtain ⟨off, hunit⟩ := place_of_sync hm
    have hword : placeOf (8 * (8 * (a / 64) + k)) = .stack m (off + 8 * (8 * (a / 64) + k) % 64) :=
      placeOf_stack_of_unit (by rw [show 8 * (8 * (a / 64) + k) / 64 = a / 64 by omega]; exact hunit)
    rw [addrSlice_stack (placeOf_stack_of_unit hunit), addrSlice_stack hword]
  · exact (h.mem a).resolve_right fun hm => ha hm.1

end Sys2Proof.Machine

namespace Sys2Proof.Machine

/-! The packet that the end of a scrub completes. -/

/-- What the end of a scrub leaves of memory, of the packets and of what has gone out, while it sets the slice's state, secrets and registers. -/
structure Settles (s u : State) : Prop where
  memory : SameMemory s u
  homes : SameHomes s u
  scrub : u.mp.scrub = s.mp.scrub
  taken : u.mp.taken = s.mp.taken
  replies : u.mp.replies = s.mp.replies
  phase : u.mp.phase = s.mp.phase
  out : u.out = s.out
  fregs : u.fregs = s.fregs

theorem Settles.trans {s t u : State} (h : Settles s t) (k : Settles t u) : Settles s u :=
  ⟨SameMemory_trans h.memory k.memory, h.homes.trans k.homes, k.scrub.trans h.scrub, k.taken.trans h.taken, k.replies.trans h.replies,
    k.phase.trans h.phase, k.out.trans h.out, k.fregs.trans h.fregs⟩

theorem settles_rsetf (s : State) {r : Reg} (hi lo x : Nat) (hr : aside r = true) : Settles s (rsetf s r hi lo x) :=
  ⟨⟨rfl, rfl, rfl, rfl, rfl, rfl⟩, sameHomes_rput s hr _, rfl, rfl, rfl, rfl, rfl, rfl⟩

theorem settles_putSec (s : State) (n : N20) (x : SliceSec) : Settles s (putSec s n x) :=
  ⟨⟨rfl, rfl, rfl, rfl, rfl, rfl⟩, sameHomes_of_regs rfl, rfl, rfl, rfl, rfl, rfl, rfl⟩

/-- A VF's credits, and whether it takes packets. -/
def setVf (s : State) (f : FuncId) (k : Nat) (on : Bool) : State :=
  { s with mp := { s.mp with credits := tset s.mp.credits 0 f.val k, vfOn := tset s.mp.vfOn false f.val on } }

theorem settles_setVf (s : State) (f : FuncId) (k : Nat) (on : Bool) : Settles s (setVf s f k on) :=
  ⟨⟨rfl, rfl, rfl, rfl, rfl, rfl⟩, sameHomes_of_regs rfl, rfl, rfl, rfl, rfl, rfl, rfl⟩

theorem Settles.unanswered {s u : State} (h : Settles s u) (t : Taken) : Unanswered s u t :=
  ⟨h.replies, h.phase, h.out, h.fregs, congrArg _ h.taken⟩

theorem Unanswered.trans {s z u : State} {t : Taken} (h : Unanswered s z t) (k : Unanswered z u t) : Unanswered s u t :=
  ⟨k.replies.trans h.replies, k.phase.trans h.phase, k.out.trans h.out, k.fregs.trans h.fregs, k.taken.trans h.taken⟩

theorem Replied.homes {s u : State} (h : Replied s u) : SameHomes s u :=
  ⟨fun _ => h.regs _ (by simp), fun _ _ => h.regs _ (by simp), fun _ => rfld_congr (h.regs _ (by simp)) _ _⟩

/-- A packet answered, in a state whose memory and scrubs are those of z. -/
structure Ended (s z u : State) (t : Taken) : Prop where
  answered : Answered s u t .ok 1 10000 10000 0
  memory : SameMemory z u
  homes : SameHomes z u
  scrub : u.mp.scrub = z.mp.scrub

theorem ended_finishForm {s z y : State} {t : Taken} (hz : Unanswered s z t) (hy : Settles z y) (hc : CqFree s t.f t.ring) (hm : t.mute = false)
    (hop : pkOp t.bytes = opOpen ∨ pkOp t.bytes = opClose ∨ pkOp t.bytes = opScrub) :
    Ended s z (finishForm y t .ok 0) t ∧ Replied y (finishForm y t .ok 0) := by
  have hform : opForm t.bytes = 1 := by
    rcases hop with h | h | h <;> rw [opForm, h] <;> rfl
  have htotal : opTotal t.bytes = 10000 := by simp [opTotal, hop]
  have hyu := hz.trans (hy.unanswered t)
  have hdone := replied_finishAs y t .ok 1 10000 10000 0
  have hanswered := answered_finishAs hyu hc hm .ok 1 10000 10000 0
  have hfinish : finishForm y t .ok 0 = finishAs y t .ok 1 10000 10000 0 := by
    rw [finishForm, hform, htotal]
    rfl
  rw [hfinish]
  exact ⟨⟨hanswered, SameMemory_trans hy.memory hdone.memory, hy.homes.trans hdone.homes, hdone.scrub.trans hy.scrub⟩, hdone⟩

/-- An opened slice, with its VF, before its packet is answered (R393, R414). -/
def openedSlice (s : State) (t : Taken) (n : N20) : State :=
  let s := drawKem s n
  let s := rsetf s (.share n) 7 0 (pkF t.bytes 0 7 0)
  let s := setVf s (sliceFunc n) (pkF t.bytes 0 47 32) true
  putSec s n { getSec s n with quota := 1024 }

/-- The flags of a slice's state register, and its state. -/
def flagSlice (s : State) (n : N20) (quota credits share : Bool) (x : Nat) : State :=
  setSliceState (setOver (setOver (setOver s n 1 quota) n 2 credits) n 0 share) n x

theorem endOpen_eq (s : State) (t : Taken) (n : N20) : ∃ quota credits share, endOpen s t n =
    finishForm (flagSlice (openedSlice s t n) n quota credits share 2) t .ok 0 := ⟨_, _, _, rfl⟩

theorem writes_flagSlice (s : State) (n : N20) (quota credits share : Bool) (x : Nat) : Writes (· = .sliceState n) s (flagSlice s n quota credits share x) :=
  have hset (t : State) (hi lo x : Nat) : Writes (· = .sliceState n) t (rsetf t (.sliceState n) hi lo x) := writes_rsetf t hi lo x rfl
  (((hset s _ _ _).trans (hset _ _ _ _)).trans (hset _ _ _ _)).trans (hset _ _ _ _)

theorem settles_flagSlice (s : State) (n : N20) (quota credits share : Bool) (x : Nat) : Settles s (flagSlice s n quota credits share x) :=
  have hset (t : State) (hi lo x : Nat) : Settles t (rsetf t (.sliceState n) hi lo x) := settles_rsetf t hi lo x rfl
  (((hset s _ _ _).trans (hset _ _ _ _)).trans (hset _ _ _ _)).trans (hset _ _ _ _)

theorem settles_sp (s : State) (x : Sp) : Settles s { s with sp := x } :=
  ⟨⟨rfl, rfl, rfl, rfl, rfl, rfl⟩, sameHomes_of_regs rfl, rfl, rfl, rfl, rfl, rfl, rfl⟩

theorem settles_drawKem (s : State) (n : N20) : Settles s (drawKem s n) :=
  ((settles_putSec s n _).trans (settles_sp _ _)).trans (settles_rsetf _ 59 59 1 rfl)

theorem settles_openedSlice (s : State) (t : Taken) (n : N20) : Settles s (openedSlice s t n) :=
  (((settles_drawKem s n).trans (settles_rsetf _ 7 0 _ rfl)).trans (settles_setVf _ _ _ _)).trans (settles_putSec _ n _)

theorem rbit_rsetf_self (s : State) (r : Reg) {i : Nat} (x : Nat) (h64 : i < 64) : rbit (rsetf s r i i x) r i = x.testBit 0 := by
  rw [rbit, rget_rsetf_self, bit_putBits _ _ _ _ h64, if_pos ⟨le_refl i, le_refl i⟩, Nat.sub_self]

theorem kemReady_drawKem (s : State) (n : N20) : kemReady (drawKem s n) n = true := rbit_rsetf_self _ _ 1 (by decide)

theorem kemReady_openedSlice (s : State) (t : Taken) (n : N20) : kemReady (openedSlice s t n) n = true := by
  rw [← kemReady_drawKem s n]
  exact congrArg (bit · 59) (rget_rsetf_of_ne (drawKem s n) 7 0 (pkF t.bytes 0 7 0) (by simp : (Reg.sliceKey n) ≠ .share n))

theorem share_openedSlice (s : State) (t : Taken) (n : N20) : rfld (openedSlice s t n) (.share n) 7 0 = pkF t.bytes 0 7 0 :=
  rfld_rsetf_self (drawKem s n) (.share n) (by decide) (Nat.mod_lt _ (by decide))

theorem vf_setVf (s : State) (f : FuncId) (k : Nat) (on : Bool) :
    tget (setVf s f k on).mp.credits 0 f.val = k ∧ tget (setVf s f k on).mp.vfOn false f.val = on :=
  ⟨tget_tset_self s.mp.credits 0 k f.val, tget_tset_self s.mp.vfOn false on f.val⟩

@[simp] theorem getSec_putSec (s : State) (n : N20) (x : SliceSec) : getSec (putSec s n x) n = x := tget_tset_self s.sp.slices sliceSecReset x n.val

theorem sec_drawKem (s : State) (n : N20) : getSec (drawKem s n) n = { getSec s n with kem := some (Config.kemKeyGen s.sp.kemDraws) } :=
  tget_tset_self s.sp.slices sliceSecReset _ n.val

theorem getSec_setVf (s : State) (f : FuncId) (k : Nat) (on : Bool) (n : N20) : getSec (setVf s f k on) n = getSec s n := rfl
theorem getSec_rsetf (s : State) (r : Reg) (hi lo x : Nat) (n : N20) : getSec (rsetf s r hi lo x) n = getSec s n := rfl

theorem sec_openedSlice (s : State) (t : Taken) (n : N20) :
    getSec (openedSlice s t n) n = { getSec s n with kem := some (Config.kemKeyGen s.sp.kemDraws), quota := 1024 } := by
  rw [openedSlice, getSec_putSec, getSec_setVf, getSec_rsetf, sec_drawKem]

/-- The end of OPEN_SLICE's scrub (R393, R414). -/
theorem endOpen_ended {s z : State} {t : Taken} (n : N20) (hz : Unanswered s z t) (hc : CqFree s t.f t.ring) (hm : t.mute = false)
    (hop : pkOp t.bytes = opOpen) : let u := endOpen z t n
    Ended s z u t ∧ (getSec u n).pm = (getSec z n).pm ∧ sliceState u n = 2 ∧ kemReady u n = true ∧ tget u.mp.vfOn false (sliceFunc n).val = true ∧
      rfld u (.share n) 7 0 = pkF t.bytes 0 7 0 ∧ tget u.mp.credits 0 (sliceFunc n).val = pkF t.bytes 0 47 32 ∧ (getSec u n).quota = 1024 := by
  intro u
  obtain ⟨quota, credits, share, hu⟩ : ∃ quota credits share, u = finishForm (flagSlice (openedSlice z t n) n quota credits share 2) t .ok 0 :=
    endOpen_eq z t n
  obtain ⟨hended, hdone⟩ := ended_finishForm hz ((settles_openedSlice z t n).trans (settles_flagSlice _ n quota credits share 2)) hc hm (.inl hop)
  have hflags := writes_flagSlice (openedSlice z t n) n quota credits share 2
  have hstate : sliceState (flagSlice (openedSlice z t n) n quota credits share 2) n = 2 := sliceState_setSliceState _ n (by decide)
  have hsec : getSec u n = getSec (openedSlice z t n) n := by
    rw [hu, getSec, hdone.sp, hflags.sp]
    rfl
  have hreg {r : Reg} (hr : ∀ m, r ≠ .sliceState m) : rget u r = rget (openedSlice z t n) r := by
    rw [hu, hdone.regs r hr, hflags.others r (hr n)]
  have hmp : (flagSlice (openedSlice z t n) n quota credits share 2).mp = (openedSlice z t n).mp := (congrArg State.mp hflags.rest :)
  obtain ⟨hcredits, hvf⟩ := vf_setVf (rsetf (drawKem z n) (.share n) 7 0 (pkF t.bytes 0 7 0)) (sliceFunc n) (pkF t.bytes 0 47 32) true
  rw [sec_openedSlice] at hsec
  refine ⟨hu ▸ hended, by rw [hsec], by rw [hu, hdone.state, hstate], ?_, ?_, ?_, ?_, by rw [hsec]⟩
  · rw [← kemReady_openedSlice z t n]
    exact congrArg (bit · 59) (hreg (by simp))
  · rw [hu, hdone.vfOn, hmp]
    exact hvf
  · rw [← share_openedSlice z t n]
    exact rfld_congr (hreg (by simp)) 7 0
  · rw [hu, hdone.credits, hmp]
    exact hcredits

/-- A slice without a key (R414). -/
def keylessSlice (s : State) (n : N20) : State := rsetf (dropKem (putSec s n { getSec s n with key := [] }) n) (.sliceKey n) 63 60 0

/-- A closed slice, its VF off, before its packet is answered (R393, R414). -/
def closedSlice (s : State) (n : N20) : State :=
  let s := setVf (clearLog s n) (sliceFunc n) 0 false
  { s with log := { s.log with fatals := s.log.fatals.filter fun x => x.1 != n.val } }

theorem endClose_eq (s : State) (t : Taken) (n : N20) :
    endClose s t n = finishForm (setSliceState (closedSlice (keylessSlice s n) n) n 0) t .ok 0 := rfl

theorem settles_log (s : State) (l : EvLog) : Settles s { s with log := l } :=
  ⟨⟨rfl, rfl, rfl, rfl, rfl, rfl⟩, sameHomes_of_regs rfl, rfl, rfl, rfl, rfl, rfl, rfl⟩

theorem settles_dropKem (s : State) (n : N20) : Settles s (dropKem s n) := (settles_putSec s n _).trans (settles_rsetf _ 59 59 0 rfl)

theorem settles_keylessSlice (s : State) (n : N20) : Settles s (keylessSlice s n) :=
  ((settles_putSec s n _).trans (settles_dropKem _ n)).trans (settles_rsetf (r := .sliceKey n) _ 63 60 0 rfl)

theorem settles_closedSlice (s : State) (n : N20) : Settles s (closedSlice s n) :=
  ((settles_log s _).trans (settles_setVf _ _ _ _)).trans (settles_log _ _)

theorem keyState_keylessSlice (s : State) (n : N20) : keyState (keylessSlice s n) n = 0 := rfld_rsetf_self _ _ (by decide) (by decide)

theorem kemReady_dropKem (s : State) (n : N20) : kemReady (dropKem s n) n = false := rbit_rsetf_self _ _ 0 (by decide)

theorem kemReady_keylessSlice (s : State) (n : N20) : kemReady (keylessSlice s n) n = false := by
  rw [← kemReady_dropKem (putSec s n { getSec s n with key := [] }) n, kemReady, kemReady, rbit_eq, rbit_eq]
  unfold keylessSlice
  rw [rfld_rsetf_apart _ _ _ (.inl (by decide))]

theorem sec_keylessSlice (s : State) (n : N20) : getSec (keylessSlice s n) n = { getSec s n with key := [], kem := none } := by
  have hdrop (z : State) : getSec (dropKem z n) n = { getSec z n with kem := none } := getSec_putSec z n _
  exact (hdrop _).trans (by rw [getSec_putSec])

theorem closedSlice_regs (s : State) (n : N20) : (closedSlice s n).regs = s.regs := rfl
theorem closedSlice_sp (s : State) (n : N20) : (closedSlice s n).sp = s.sp := rfl
theorem closedSlice_vfOn (s : State) (n : N20) : tget (closedSlice s n).mp.vfOn false (sliceFunc n).val = false :=
  (vf_setVf (clearLog s n) (sliceFunc n) 0 false).2

/-- The end of CLOSE_SLICE's scrub (R393, R414). -/
theorem endClose_ended {s z : State} {t : Taken} (n : N20) (hz : Unanswered s z t) (hc : CqFree s t.f t.ring) (hm : t.mute = false)
    (hop : pkOp t.bytes = opClose) : let u := endClose z t n
    Ended s z u t ∧ (getSec u n).pm = (getSec z n).pm ∧ sliceState u n = 0 ∧ keyState u n = 0 ∧ kemReady u n = false ∧ (getSec u n).key = [] ∧
      tget u.mp.vfOn false (sliceFunc n).val = false := by
  intro u
  have hu : u = finishForm (setSliceState (closedSlice (keylessSlice z n) n) n 0) t .ok 0 := endClose_eq z t n
  clear_value u
  have hsettles : Settles z (setSliceState (closedSlice (keylessSlice z n) n) n 0) :=
    ((settles_keylessSlice z n).trans (settles_closedSlice _ n)).trans (settles_rsetf (r := .sliceState n) _ 63 60 0 rfl)
  have hstate : sliceState (setSliceState (closedSlice (keylessSlice z n) n) n 0) n = 0 := sliceState_setSliceState _ n (by decide)
  obtain ⟨hended, hdone⟩ := ended_finishForm hz hsettles hc hm (.inr (.inl hop))
  rw [← hu] at hended hdone
  have hreg : rget u (.sliceKey n) = rget (keylessSlice z n) (.sliceKey n) := by
    rw [hdone.regs _ (by simp), setSliceState, rget_rsetf_of_ne _ 63 60 0 (by simp)]
    exact rget_congr (closedSlice_regs _ n) _
  have hsec : getSec u n = { getSec z n with key := [], kem := none } := by
    rw [← sec_keylessSlice z n, getSec, hdone.sp, setSliceState, rsetf, rput_sp, closedSlice_sp]
    rfl
  refine ⟨hended, by rw [hsec], (hdone.state n).trans hstate, ?_, ?_, by rw [hsec], ?_⟩
  · rw [← keyState_keylessSlice z n]
    exact rfld_congr hreg 63 60
  · rw [← kemReady_keylessSlice z n]
    exact congrArg (bit · 59) hreg
  · rw [hdone.vfOn, setSliceState, rsetf, rput_mp]
    exact closedSlice_vfOn _ n

end Sys2Proof.Machine

namespace Sys2Proof.Machine

/-! SLICE_SCRUB_COMPLETE for a packet (R299, R393, R414). -/

/-- The slice's measurement reset, and no scrub in progress. -/
def scrubDone (s : State) (n : N20) : State := endScrub (putSec s n { getSec s n with pm := List.replicate 32 0 }) n

theorem endScrub_scrubSlice (s : State) (n : N20) : endScrub (scrubSlice s n) n = scrubDone (scrubMemory s n) n := by
  have hcores : sliceCores ((sliceSects s n).foldl scrubStack s) n = sliceCores s n := sliceCores_congr (wipes_stacks s n).regs n
  unfold scrubSlice scrubDone scrubMemory
  dsimp only
  rw [hcores]

theorem scrub_endScrub (s : State) (n : N20) : tget (endScrub s n).mp.scrub none n.val = none := tget_tset_self s.mp.scrub none none n.val

section ScrubDone
variable (s : State) (n : N20)

theorem scrubDone_memory : SameMemory s (scrubDone s n) := ⟨rfl, rfl, rfl, rfl, rfl, rfl⟩
theorem scrubDone_homes : SameHomes s (scrubDone s n) := sameHomes_of_regs rfl
theorem scrubDone_held : (scrubDone s n).held = s.held := rfl
theorem scrubDone_taken : (scrubDone s n).mp.taken = s.mp.taken := rfl
theorem scrubDone_unanswered (t : Taken) : Unanswered s (scrubDone s n) t := ⟨rfl, rfl, rfl, rfl, rfl⟩
theorem scrubDone_scrub : tget (scrubDone s n).mp.scrub none n.val = none := scrub_endScrub _ n
theorem scrubDone_pm : (getSec (scrubDone s n) n).pm = List.replicate 32 0 :=
  congrArg SliceSec.pm (getSec_putSec s n { getSec s n with pm := List.replicate 32 0 })

end ScrubDone

theorem Wipes.held {p : Nat → Prop} {s u : State} (h : Wipes p s u) : u.held = s.held := (congrArg State.held h.rest :)
theorem Wipes.mp {p : Nat → Prop} {s u : State} (h : Wipes p s u) : u.mp = s.mp := (congrArg State.mp h.rest :)

theorem Wipes.unanswered {p : Nat → Prop} {s u : State} (h : Wipes p s u) (t : Taken) : Unanswered s u t :=
  ⟨by rw [h.mp], by rw [h.mp], (congrArg State.out h.rest :), (congrArg State.fregs h.rest :), by rw [h.mp]⟩

theorem packetScrubbed_eq {s : State} {n : N20} {id : Nat} {t : Taken} (hheld : s.held = []) (ht : getTaken s id = some t) :
    packetScrubbed s n id = afterScrub (scrubDone (scrubMemory s n) n) t n := by
  have htaken : getTaken (scrubDone (scrubMemory s n) n) id = some t := by
    rw [getTaken, scrubDone_taken, (wipes_scrubMemory s n).mp]
    exact ht
  unfold packetScrubbed
  rw [endScrub_scrubSlice, serveHeld_of_nil ((scrubDone_held _ n).trans ((wipes_scrubMemory s n).held.trans hheld))]
  simp only [htaken]

/-- The bytes after the packet's end are those that the scrub left. -/
theorem Ended.bytes {s z u x : State} {t : Taken} (h : Ended s z u t) (hmem : SameMemory x z) (hhomes : SameHomes x z) : SameBytes x u :=
  ⟨h.memory.mem.trans hmem.mem, h.memory.syncw.trans hmem.syncw, (hhomes.trans h.homes).home⟩

/-- What the end of a scrub under a packet leaves of memory, whatever the packet was. -/
theorem Ended.scrubbed {s u : State} {n : N20} {t : Taken} (h : Ended s (scrubDone (scrubMemory s n) n) u t) :
    (∀ a, addrSlice s a = some n → (∀ k m o, placeOf a ≠ .win k m o) → (∀ m, homeOf s (a / 64) ≠ .retired m) →
      memBytes u a 1 = [0] ∧ unitPoison u (a / 64) = false) ∧
    (∀ a, addrSlice s a ≠ some n → memBytes u a 1 = memBytes s a 1) := by
  have hwipes := wipes_scrubMemory s n
  have hhomes : SameHomes s (scrubMemory s n) := sameHomes_of_regs hwipes.regs
  have hbytes := h.bytes (scrubDone_memory _ n) (scrubDone_homes _ n)
  have hpoison (v : Nat) : unitPoison u v = unitPoison (scrubMemory s n) v := by
    unfold unitPoison
    rw [hbytes.homes, h.memory.poison, h.memory.syncp]
    rfl
  refine ⟨fun a ha hwin hretired => ?_, fun a ha => (hbytes.memBytes a 1).trans (memBytes_of_wipes hwipes ha)⟩
  rw [hbytes.memBytes, hpoison]
  have hhome := hhomes.home (a / 64)
  exact byteAt_of_blank (hhome.symm ▸ blank_scrubMemory ha hwin) fun m => hhome.symm ▸ hretired m

theorem exec_sliceScrubComplete {s : State} {n : N20} {id : Nat} {t : Taken} (hc : CqFree s t.f t.ring) (hm : t.mute = false)
    (hrecal : ∀ m ∈ sliceSects s n, inRecal s m = false)
    (hwhy : tget s.mp.scrub none n.val = some (.key id) ∨ (tget s.mp.scrub none n.val = some (.packet id) ∧ sliceRunning s n = false ∧
      (sliceState s n = 5 → accessIn s n = false))) (hheld : s.held = []) (ht : getTaken s id = some t)
    (hop : pkOp t.bytes = opOpen ∨ pkOp t.bytes = opClose ∨ pkOp t.bytes = opScrub) :
    ∃ u, exec (.sliceScrubComplete n) s = .next u ∧ tget u.mp.scrub none n.val = none ∧ Answered s u t .ok 1 10000 10000 0 ∧
      (∀ a, addrSlice s a = some n → (∀ k m o, placeOf a ≠ .win k m o) → (∀ m, homeOf s (a / 64) ≠ .retired m) →
        memBytes u a 1 = [0] ∧ unitPoison u (a / 64) = false) ∧
      (∀ a, addrSlice s a ≠ some n → memBytes u a 1 = memBytes s a 1) ∧ (getSec u n).pm = List.replicate 32 0 ∧
      (pkOp t.bytes = opOpen → sliceState u n = 2 ∧ kemReady u n = true ∧ tget u.mp.vfOn false (sliceFunc n).val = true ∧
        rfld u (.share n) 7 0 = pkF t.bytes 0 7 0 ∧ tget u.mp.credits 0 (sliceFunc n).val = pkF t.bytes 0 47 32 ∧ (getSec u n).quota = 1024) ∧
      (pkOp t.bytes = opClose → sliceState u n = 0 ∧ keyState u n = 0 ∧ kemReady u n = false ∧ (getSec u n).key = [] ∧
        tget u.mp.vfOn false (sliceFunc n).val = false) ∧
      (pkOp t.bytes = opScrub → sliceState u n = 2) := by
  have hz : Unanswered s (scrubDone (scrubMemory s n) n) t := ((wipes_scrubMemory s n).unanswered t).trans (scrubDone_unanswered _ n t)
  have hscrub := scrubDone_scrub (scrubMemory s n) n
  rw [exec_sliceScrubComplete_ends hrecal hwhy, packetScrubbed_eq hheld ht]
  obtain ⟨hoc, hos, hcs, hks⟩ : opOpen ≠ opClose ∧ opOpen ≠ opScrub ∧ opClose ≠ opScrub ∧ opKey ≠ opScrub := by decide
  rcases hop with hop | hop | hop
  · obtain ⟨hended, hpm, hvalues⟩ := endOpen_ended n hz hc hm hop
    obtain ⟨hblank, hapart⟩ := hended.scrubbed
    refine ⟨_, by rw [afterScrub, if_pos hop], by rw [hended.scrub, hscrub], hended.answered, hblank, hapart, hpm.trans (scrubDone_pm _ n),
      fun _ => hvalues, fun h => absurd (hop.symm.trans h) hoc, fun h => absurd (hop.symm.trans h) hos⟩
  · obtain ⟨hended, hpm, hvalues⟩ := endClose_ended n hz hc hm hop
    obtain ⟨hblank, hapart⟩ := hended.scrubbed
    refine ⟨_, by rw [afterScrub, if_neg fun h => hoc (h.symm.trans hop), if_pos hop], by rw [hended.scrub, hscrub], hended.answered, hblank,
      hapart, hpm.trans (scrubDone_pm _ n), fun h => absurd (h.symm.trans hop) hoc, fun _ => hvalues,
      fun h => absurd (hop.symm.trans h) hcs⟩
  · obtain ⟨hended, hdone⟩ := ended_finishForm hz (settles_rsetf (r := .sliceState n) (scrubDone (scrubMemory s n) n) 63 60 2 rfl) hc hm (.inr (.inr hop))
    obtain ⟨hblank, hapart⟩ := hended.scrubbed
    have hafter : afterScrub (scrubDone (scrubMemory s n) n) t n = finishForm (setSliceState (scrubDone (scrubMemory s n) n) n 2) t .ok 0 := by
      rw [afterScrub, if_neg fun h => hos (h.symm.trans hop), if_neg fun h => hcs (h.symm.trans hop), if_neg fun h => hks (h.symm.trans hop)]
    rw [hafter]
    refine ⟨_, rfl, by rw [setSliceState, hended.scrub, hscrub], hended.answered, hblank, hapart, ?_, fun h => absurd (h.symm.trans hop) hos,
      fun h => absurd (h.symm.trans hop) hcs, fun _ => ?_⟩
    · rw [← scrubDone_pm _ n]
      exact congrArg (fun x : Sp => (tget x.slices sliceSecReset n.val).pm) hdone.sp
    · exact (hdone.state n).trans (sliceState_setSliceState _ n (by decide))

end Sys2Proof.Machine

namespace Sys2Proof.Machine

/-! What an abort leaves alone: the packets with all that the management processor keeps, and the state of every slice (R175, R394). -/

/-- The management processor's state and the state registers of the slices are as before. -/
structure MpKept (s u : State) : Prop where
  mp : u.mp = s.mp
  state : ∀ n, rget u (.sliceState n) = rget s (.sliceState n)

theorem MpKept.refl (s : State) : MpKept s s := ⟨rfl, fun _ => rfl⟩

/-- Work done piece by piece. -/
theorem mpKept_foldl {β : Type} {z : State} {f : State → β → State} (hf : ∀ t b, MpKept z t → MpKept z (f t b)) (l : List β) {s : State}
    (h : MpKept z s) : MpKept z (l.foldl f s) :=
  List.foldlRecOn l f h fun t ht b _ => hf t b ht

section Registers
variable {z s : State} (h : MpKept z s)
include h

theorem MpKept.same {t : State} (hmp : t.mp = s.mp) (hregs : t.regs = s.regs) : MpKept z t :=
  ⟨hmp.trans h.mp, fun n => (rget_congr hregs _).trans (h.state n)⟩

theorem MpKept.ite {P : Prop} [Decidable P] {t : State} (ht : MpKept z t) : MpKept z (if P then t else s) := by
  split <;> assumption

theorem MpKept.rput {r : Reg} (hr : ∀ n, r ≠ .sliceState n) (v : W64) : MpKept z (rput s r v) :=
  ⟨h.mp, fun n => (rget_rput_of_ne s v (hr n).symm).trans (h.state n)⟩

theorem MpKept.rsetf {r : Reg} (hr : ∀ n, r ≠ .sliceState n) (hi lo x : Nat) : MpKept z (rsetf s r hi lo x) := h.rput hr _

theorem MpKept.rbump {r : Reg} (hr : ∀ n, r ≠ .sliceState n) (hi lo k : Nat) : MpKept z (rbump s r hi lo k) := (h.rput hr _).same rfl rfl

theorem MpKept.logEv (cause cls slice unit sub inst : Nat) (detail : W64) : MpKept z (logEv s cause cls slice unit sub inst detail) := h.same rfl rfl

theorem MpKept.logEng (c : CoreId) (sub cause cls : Nat) (bank : Bool) (idx : BitVec 11) (lo : Nat) :
    MpKept z (logEng s c sub cause cls bank idx lo) := h.same rfl rfl

theorem MpKept.logStream (c : CoreId) (st cause cls : Nat) (bank : Bool) (idx : BitVec 11) (lo : Nat) :
    MpKept z (logStream s c st cause cls bank idx lo) := h.same rfl rfl

theorem MpKept.putCore (c : CoreId) (k : Core) : MpKept z (putCore s c k) := h.same rfl rfl

theorem MpKept.putEng (c : CoreId) (e : EngId) (g : Engine) : MpKept z (putEng s c e g) := h.same rfl rfl

theorem MpKept.putInst (c : CoreId) (i : Inst) : MpKept z (putInst s c i) := h.same rfl rfl

theorem MpKept.putTask (c : CoreId) (st : Nat) (t : Option Task) : MpKept z (putTask s c st t) := h.same rfl rfl

theorem MpKept.putCtx (c : CoreId) (j : Nat) (x : SelCtx) : MpKept z (putCtx s c j x) := h.same rfl rfl

theorem MpKept.drawFree : MpKept z (drawFree s).1 := h.same rfl rfl

end Registers

section Memory
variable {z s : State} (h : MpKept z s)
include h

theorem MpKept.setPoison (u : Nat) (p : Bool) : MpKept z (setPoison s u p) := by
  unfold Machine.setPoison
  split <;> exact h.same rfl rfl

theorem MpKept.lineRecord (n : N20) (u one : Nat) (two : Bool) : MpKept z (lineRecord s n u one two) := by
  have hcount : MpKept z (Machine.rbump s (.cacheStat n) 63 48 one) := h.rbump (by simp) ..
  unfold Machine.lineRecord
  dsimp only
  split
  · exact ((hcount.setPoison ..).rbump (by simp) ..).logEv ..
  · exact hcount

theorem MpKept.eccRecord (u one : Nat) (two : Bool) : MpKept z (eccRecord s u one two) := by
  unfold Machine.eccRecord
  split
  next c _ _ =>
    have hcount : MpKept z (Machine.rbump s (.spadStat c) 63 48 one) := h.rbump (by simp) ..
    dsimp only
    split
    · exact (((hcount.setPoison ..).rbump (by simp) ..).rsetf (by simp) ..).logEv ..
    · exact hcount
  next => exact h.lineRecord ..
  next n _ =>
    split
    · exact h.lineRecord ..
    have hcount : MpKept z (if one = 0 then s else Machine.rbump s (.eccCnt n) 63 32 1) := by
      split
      · exact h
      · exact h.rbump (by simp) ..
    dsimp only
    generalize (if one = 0 then s else Machine.rbump s (.eccCnt n) 63 32 1) = t at hcount
    split
    · exact (((hcount.setPoison ..).rbump (by simp) ..).rput (by simp) _).logEv ..
    · exact hcount
  next => exact h

theorem MpKept.freshWords (key : Nat → Nat) (ks : List Nat) : MpKept z (freshWords s key ks) := h.same rfl rfl

theorem MpKept.freshSector (u : Nat) : MpKept z (freshSector s u) := h.freshWords ..

theorem MpKept.dropLine (u : Nat) : MpKept z (dropLine s u) := h.same rfl rfl

theorem MpKept.eccCheck (u : Nat) (ks : List Nat) : MpKept z (eccCheck s u ks) := by
  unfold Machine.eccCheck
  split
  · exact h.rbump (by simp) ..
  · exact (h.eccRecord ..).ite h

theorem MpKept.lineCheck (u : Nat) : MpKept z (lineCheck s u) := by
  unfold Machine.lineCheck
  split
  · exact (h.lineRecord ..).ite h
  · exact h.eccCheck ..

theorem MpKept.evictLine (u : Nat) : MpKept z (evictLine s u) := by
  unfold Machine.evictLine
  exact MpKept.dropLine (h.ite ((h.lineCheck u).freshWords ..)) u

theorem MpKept.evictWay (n : N20) (u more : Nat) : MpKept z (evictWay s n u more) := by
  unfold Machine.evictWay
  split
  · exact h
  · dsimp only
    split
    · exact h
    · exact h.drawFree.evictLine _

theorem MpKept.takeLine (n : N20) (u : Nat) : MpKept z (takeLine s n u) := by
  unfold Machine.takeLine
  split
  · exact h
  · exact (h.evictWay n u 1).same rfl rfl

theorem MpKept.touchUnit (u : Nat) : MpKept z (touchUnit s u) := by
  have hcheck := h.eccCheck u words8
  unfold Machine.touchUnit
  dsimp only
  split
  · exact hcheck.ite (hcheck.takeLine ..)
  · exact hcheck

theorem MpKept.touchAll (rs : List (Nat × Nat)) : MpKept z (touchAll s rs) := mpKept_foldl (fun _ u ht => ht.touchUnit u) _ h

theorem MpKept.touchRange (a n : Nat) : MpKept z (touchRange s a n) := by
  unfold Machine.touchRange
  split
  · exact h
  · exact mpKept_foldl (fun _ i ht => ht.touchUnit _) _ h

theorem MpKept.redTouch (k u : Nat) : MpKept z (redTouch s k u) := by
  have hcheck := h.eccCheck u words8
  unfold Machine.redTouch redLine
  split
  · split
    · exact hcheck
    · exact hcheck.takeLine ..
  · exact hcheck

theorem MpKept.lineAfter (base : Bool) (n : N20) (u : Nat) (whole : Bool) (ks : List Nat) : MpKept z (lineAfter base s n u whole ks) := by
  unfold Machine.lineAfter
  dsimp only
  split
  · exact (h.freshSector u).ite ((h.freshSector u).freshWords ..)
  · split
    · exact ((h.takeLine n u).freshWords (lineErr u) ks).same rfl rfl
    · exact (h.ite (h.dropLine u)).freshSector u

theorem MpKept.putMasked (base : Bool) (u : Nat) (ch : List ByteCh) (p : Bool) : MpKept z (putMasked base s u ch p) := by
  have htag (q : Bool) : MpKept z (Machine.setPoison s u q) := h.setPoison u q
  have hmem {t : State} (m : List Host.Cell) (ht : MpKept z t) : MpKept z { t with mem := m } := ht.same rfl rfl
  have hwords {t : State} (w : Tab SyncWord) (ht : MpKept z t) : MpKept z { t with syncw := w } := ht.same rfl rfl
  unfold Machine.putMasked
  dsimp only
  split
  · exact htag _
  · exact htag _
  · exact hwords _ ((htag _).freshWords ..)
  · exact (hmem _ (htag _)).lineAfter ..
  · exact hmem _ ((htag _).freshWords ..)

theorem MpKept.writeMaskedAs (base : Bool) (u : Nat) (ch : List ByteCh) (p : Bool) : MpKept z (writeMaskedAs base s u ch p) := by
  unfold Machine.writeMaskedAs
  split
  · exact h
  · split
    · exact h.rbump (by simp) ..
    · exact h
    · exact (h.eccCheck ..).putMasked ..

theorem MpKept.writeBytes (a : Nat) (bs : List Byte) (p : Nat → Bool) : MpKept z (writeBytes s a bs p) := by
  unfold Machine.writeBytes
  split
  · exact h
  · exact mpKept_foldl (fun _ _ ht => ht.writeMaskedAs ..) _ h

theorem MpKept.writeAll (a : Nat) (bs : List Byte) (p : Bool) : MpKept z (writeAll s a bs p) := h.writeBytes ..

theorem MpKept.applyWrites (ws : List ByteW) : MpKept z (applyWrites s ws) := mpKept_foldl (fun _ _ ht => ht.writeMaskedAs ..) _ h

theorem MpKept.redElem (k f d x n : Nat) (p : Bool) : MpKept z (redElem s k f d x n p).1 := by
  unfold Machine.redElem
  dsimp only
  split
  · exact h
  · exact h.putMasked ..

theorem MpKept.reached (P : Prop) [Decidable P] (k u : Nat) : MpKept z (if P then s else Machine.redTouch s k u) := by
  split
  · exact h
  · exact h.redTouch k u

theorem MpKept.runReduce (c : CoreId) (d : SDesc) (e : Option (List Byte)) (g : Option Nat) : MpKept z (runReduce s c d e g).1 := by
  unfold Machine.runReduce
  refine List.foldlRecOn (motive := fun t : State × Option Nat × Bool => MpKept z t.1) _ _ h fun t ht i _ => ?_
  dsimp only
  by_cases hk : windowOf d < 3
  · rw [if_pos hk]
    exact (ht.reached ..).redElem ..
  · rw [if_neg hk]
    exact ((ht.reached ..).redElem ..).writeAll ..

theorem MpKept.tagRange (a n : Nat) : MpKept z (tagRange s a n) := by
  unfold Machine.tagRange
  split
  · exact h
  · exact h.same rfl rfl

end Memory

end Sys2Proof.Machine

namespace Sys2Proof.Machine

section Units
variable {z s : State} (h : MpKept z s)
include h

/-! Tags, records and instructions. -/

theorem MpKept.tagStore (c : CoreId) (x : SelCtx) : MpKept z (tagStore s c x) := by
  unfold Machine.tagStore
  split
  · exact h.tagRange ..
  · exact h

theorem MpKept.writeStore (c : CoreId) (x : SelCtx) (n : Option Nat) : MpKept z (writeStore s c x n) := by
  cases n with
  | none => exact h.tagStore ..
  | some n => exact (h.writeAll ..).tagStore ..

theorem MpKept.tagExtents (c : CoreId) (d : SDesc) (e : Option (List Byte)) : MpKept z (tagExtents s c d e) :=
  mpKept_foldl (fun _ _ ht => ht.tagRange ..) _ h

theorem MpKept.tagRegions (c : CoreId) (mask : W64) : MpKept z (tagRegions s c mask) :=
  mpKept_foldl (fun _ _ ht => by
    split
    · exact ht.tagRange ..
    · exact ht) _ h

theorem MpKept.dropX (c : CoreId) (n : Nat) : MpKept z (dropX s c n) := h.putCore ..

theorem MpKept.dropBranch (c : CoreId) (i : Inst) : MpKept z (dropBranch s c i) := by
  unfold Machine.dropBranch
  split
  · exact h.putCore ..
  · exact h

theorem MpKept.queueRecord (c : CoreId) (st inst iter : Nat) (e : Option (List Byte)) (status flags : Nat) (cnt : TaskCnt) (t issueAt : Nat) :
    MpKept z (queueRecord s c st inst iter e status flags cnt t issueAt) := by
  unfold Machine.queueRecord
  split
  · exact h
  · exact h.putCore ..

theorem MpKept.lateReads (c : CoreId) (e : EngId) (i : Inst) (n : Nat) : MpKept z (lateReads s c e i n) := by
  unfold Machine.lateReads
  split
  · exact h
  · exact mpKept_foldl (fun _ _ ht => ht.logEng ..) _ (h.rbump (by simp) ..)

/-! The selector engine. -/

theorem MpKept.moultScan (c : CoreId) (d : LoopDesc) (w : W128) (e : Option Nat) : MpKept z (moultScan s c d w e).1 := by
  unfold Machine.moultScan
  exact (h.putCtx ..).writeStore ..

theorem MpKept.mergeBlock (c : CoreId) (d : LoopDesc) (w : W128) (j b : Nat) : MpKept z (mergeBlock s c d w j b) := h.writeBytes ..

theorem MpKept.moultMerge (c : CoreId) (d : LoopDesc) (w : W128) (limit : Nat) : MpKept z (moultMerge s c d w limit) :=
  mpKept_foldl (fun _ _ ht => ht.mergeBlock ..) _ h

theorem MpKept.moultApply (c : CoreId) (i : Inst) : MpKept z (moultApply s c i).1 := by
  unfold Machine.moultApply
  dsimp only
  generalize (if opc i.w = 0x42 then [] else maskWords s c (lFrz i.w) (ctxOf s c (lCp i.w)).blocks) = frz
  split
  · dsimp only
    exact (h.applyWrites _).writeAll ..
  · dsimp only
    exact (h.writeAll ..).writeAll ..

theorem MpKept.mleRun (c : CoreId) (i : Inst) : MpKept z (mleRun s c i).1 := by
  unfold Machine.mleRun
  dsimp only
  split
  · exact h
  split
  · dsimp only
    exact h.moultScan ..
  split
  · exact h.moultMerge ..
  · exact h.moultApply ..

theorem MpKept.beginMle (c : CoreId) (i : Inst) (t : Nat) : MpKept z (beginMle s c i t).1 := by
  unfold Machine.beginMle
  exact ((h.touchAll _).putCore ..).mleRun ..

/-! The vector and scalar engines. -/

theorem MpKept.vxeIter (c : CoreId) (i : Inst) (q t j : Nat) : MpKept z (vxeIter s c i q t j) := by
  have hlate := h.lateReads c .vxe i ((vxeReads i.w).filter (vInFlight (getCore s c) t)).length
  unfold Machine.vxeIter
  dsimp only
  split
  · exact (hlate.touchRange ..).putCore ..
  split
  · exact hlate.putCore ..
  · exact hlate.putCore ..

theorem MpKept.beginVxe (c : CoreId) (i : Inst) (t : Nat) : MpKept z (beginVxe s c i t).1 := by
  unfold Machine.beginVxe
  dsimp only
  split
  · dsimp only
    exact h.touchRange ..
  · exact mpKept_foldl (fun _ _ ht => ht.vxeIter ..) _ h

theorem MpKept.sxeIter (c : CoreId) (i : Inst) (xa : Nat → Int) (q t j : Nat) : MpKept z (sxeIter s c i xa q t j) := by
  unfold Machine.sxeIter
  dsimp only
  refine mpKept_foldl (fun u p hu => ?_) _ (h.lateReads ..)
  split
  · exact (hu.touchRange ..).putCore ..
  split
  · exact hu.putCore ..
  · exact hu.putCore ..

theorem MpKept.beginSxe (c : CoreId) (i : Inst) (t : Nat) : MpKept z (beginSxe s c i t).1 := by
  unfold Machine.beginSxe
  dsimp only
  split
  · split
    · exact h.lateReads ..
    · exact h.lateReads ..
  split
  · split
    · exact (h.putCore ..).logEng ..
    · exact (h.touchRange ..).putCore ..
  · exact mpKept_foldl (fun _ _ ht => ht.sxeIter ..) _ h

/-! Instructions that begin, and stream tasks issued. -/

theorem MpKept.beginWork (c : CoreId) (i : Inst) (t : Nat) : MpKept z (beginWork s c i t).1 := by
  unfold Machine.beginWork
  dsimp only
  split
  · exact ((h.touchRange ..).putEng ..).putInst ..
  split
  · exact (h.touchAll _).putInst ..
  · exact (h.beginVxe ..).putInst ..
  · exact (h.beginSxe ..).putInst ..
  · exact h.putInst ..
  · exact (h.beginMle ..).putInst ..

theorem MpKept.beginInst (c : CoreId) (i : Inst) (t : Nat) : MpKept z (beginInst s c i t) := by
  unfold Machine.beginInst
  exact ((h.beginWork c i t).putEng ..).dropBranch ..

theorem MpKept.startReady (c : CoreId) : MpKept z (startReady s c) := by
  refine mpKept_foldl (fun u _ hu => ?_) _ h
  split
  · split
    · exact hu.beginInst ..
    · exact hu
  · exact hu

theorem MpKept.issueAs (c : CoreId) (i : Inst) (j t : Nat) (bs : List Byte) (e : Option (List Byte)) (poisoned : Bool) (q : SDesc)
    (why : Option Status) : MpKept z (issueAs s c i j t bs e poisoned q why) := by
  cases why with
  | none => exact h.putTask ..
  | some why =>
    unfold Machine.issueAs
    dsimp only
    split
    · exact (h.logStream ..).putCore ..
    · exact ((h.logStream ..).putCore ..).queueRecord ..

theorem MpKept.issueTask (c : CoreId) (i : Inst) (j t : Nat) : MpKept z (issueTask s c i j t) := by
  have hext {u : State} (hu : MpKept z u) (P : Prop) [Decidable P] (a n : Nat) : MpKept z (if P then Machine.touchRange u a n else u) := by
    split
    · exact hu.touchRange ..
    · exact hu
  unfold Machine.issueTask
  exact (hext (h.touchRange ..) ..).issueAs ..

theorem MpKept.pump (c : CoreId) (id n : Nat) : MpKept z (pump c id n s) := by
  induction n generalizing s with
  | zero => exact h
  | succ n ih =>
    unfold Machine.pump
    split
    · split
      · dsimp only
        split
        · exact ih ((h.issueTask ..).putInst ..)
        · exact h
      · exact h
    · exact h

theorem MpKept.pumpAll (c : CoreId) : MpKept z (pumpAll s c) := by
  refine mpKept_foldl (fun u _ hu => ?_) _ h
  split
  · exact hu.pump ..
  · exact hu

theorem MpKept.settleEngine (c : CoreId) (e : EngId) : MpKept z (settleEngine s c e) := by
  unfold Machine.settleEngine
  dsimp only
  split
  · split
    · exact h.putEng ..
    · exact h
  · split
    · exact h
    · split
      · exact (h.putEng ..).logEng ..
      · exact h.putEng ..
  · exact h

theorem MpKept.settleCore (c : CoreId) : MpKept z (settleCore s c) :=
  mpKept_foldl (fun _ _ ht => ht.settleEngine ..) _ ((h.startReady c).pumpAll c)

end Units

end Sys2Proof.Machine

namespace Sys2Proof.Machine

section Aborts
variable {z s : State} (h : MpKept z s)
include h

/-! An engine's work cut off. -/

theorem MpKept.finishLoad (c : CoreId) (e : EngId) (t : Nat) : MpKept z (finishLoad s c e t) := by
  unfold Machine.finishLoad
  dsimp only
  split
  · exact (h.putEng ..).logEng ..
  · exact h.putEng ..

theorem MpKept.slotPart (c : CoreId) (i : Inst) (slot j n : Nat) : MpKept z (slotPart s c i slot j n) := h.putCore ..

theorem MpKept.partTload (c : CoreId) (i : Inst) (slot x : Nat) : MpKept z (partTload s c i slot x) := by
  have hpart {u : State} (hu : MpKept z u) (P : Prop) [Decidable P] (j n : Nat) : MpKept z (if P then u else Machine.slotPart u c i slot j n) :=
    (hu.slotPart ..).ite hu
  have hpart' {u : State} (hu : MpKept z u) (P : Prop) [Decidable P] (j n : Nat) : MpKept z (if P then Machine.slotPart u c i slot j n else u) :=
    hu.ite (hu.slotPart ..)
  unfold Machine.partTload
  exact hpart' (hpart h ..) ..

theorem MpKept.abortMle (c : CoreId) (i : Inst) : MpKept z (abortMle s c i) := by
  have hcells : MpKept z ((getCore s c).undo.cells.foldl (fun s x => { s with mem := twrite s.mem memDefault (64 * x.1) x.2 }) s) := by
    refine mpKept_foldl (fun _ _ ht => ?_) _ h
    exact ht.same rfl rfl
  have hundo : MpKept z ((getCore s c).undo.ctxs.foldl (fun s x => Machine.putCtx s c x.1 x.2) ((getCore s c).undo.tags.foldl
      (fun s x => Machine.setPoison s x.1 x.2) ((getCore s c).undo.cells.foldl
        (fun s x => { s with mem := twrite s.mem memDefault (64 * x.1) x.2 }) s))) :=
    mpKept_foldl (fun _ _ ht => ht.putCtx ..) _ (mpKept_foldl (fun _ _ ht => ht.setPoison ..) _ hcells)
  unfold Machine.abortMle
  split
  · exact h
  dsimp only
  split
  · exact (hundo.moultScan ..).putCtx ..
  split
  · exact hundo.moultMerge ..
  · exact hundo

theorem MpKept.abortInst (c : CoreId) (i : Inst) (why cls : Nat) : MpKept z (abortInst s c i why cls) := by
  unfold Machine.abortInst
  exact ((h.tagRegions ..).logEng ..).putCore ..

theorem MpKept.cancelInst (c : CoreId) (i : Inst) (why : Nat) : MpKept z (cancelInst s c i why) := by
  have hdrop (P : Prop) [Decidable P] (n : Nat) : MpKept z (if P then s else Machine.dropX s c n) := (h.dropX ..).ite h
  unfold Machine.cancelInst
  dsimp only
  refine MpKept.abortInst ?_ ..
  split
  · exact h.finishLoad ..
  · exact (hdrop ..).putEng ..
  · exact h.partTload ..
  · exact h.abortMle ..
  · exact h

theorem MpKept.landStores (c : CoreId) (xs : List PadStore) : MpKept z (landStores s c xs) := mpKept_foldl (fun _ _ ht => ht.writeBytes ..) _ h

theorem MpKept.cutFlight (c : CoreId) (e : EngId) : MpKept z (cutFlight s c e) := (h.landStores ..).putCore ..

theorem MpKept.keepAccepted (c : CoreId) (e : EngId) : MpKept z (keepAccepted s c e) := by
  unfold Machine.keepAccepted
  dsimp only
  split
  · exact h
  refine mpKept_foldl (fun u i hu => ?_) _ h
  split
  · split
    · exact hu.putEng ..
    · exact hu
  · exact hu

/-! Stream tasks stopped. -/

theorem MpKept.taskSeen (c : CoreId) (t : Task) : MpKept z (taskSeen s c t) := by
  unfold Machine.taskSeen
  dsimp only
  split
  · exact h
  · exact h.touchAll _

theorem MpKept.countRun (c : CoreId) (st : Nat) (t : Task) (r : Run) (bytes : Nat) : MpKept z (countRun s c st t r bytes).1 := by
  have hcounts := (((h.rbump (r := .eng c .dxe .stat) (by simp) 47 32 r.trim).rbump (r := .eng c .dxe .stat) (by simp) 31 16 r.dense).rbump
    (r := .eng c .dxe .stat) (by simp) 15 8 r.mal).rbump (r := .eng c .dxe .stat) (by simp) 7 0 r.oor
  unfold Machine.countRun
  dsimp only
  generalize Machine.rbump (Machine.rbump (Machine.rbump (Machine.rbump s _ _ _ _) _ _ _ _) _ _ _ _) _ _ _ _ = u at hcounts
  cases r.trimAt with
  | none =>
    cases r.badAt with
    | none => exact hcounts
    | some x => exact hcounts.logStream ..
  | some y =>
    cases r.badAt with
    | none => exact hcounts.logEv ..
    | some x => exact (hcounts.logEv ..).logStream ..

theorem MpKept.cutTask (c : CoreId) (st : Nat) (t : Task) (g : Nat) : MpKept z (cutTask s c st t g).1 := by
  have hseen : MpKept z (if g = 0 then s else Machine.taskSeen s c t) := (h.taskSeen c t).ite h
  unfold Machine.cutTask
  dsimp only
  generalize (if g = 0 then s else Machine.taskSeen s c t) = u at hseen
  split
  · exact hseen
  split
  · split
    · exact hseen
    · exact hseen.runReduce ..
  · exact (hseen.applyWrites _).countRun ..

theorem MpKept.abortTask (c : CoreId) (st : Nat) (t : Task) (status cls : Nat) (cnt : TaskCnt) (fin : Nat) :
    MpKept z (abortTask s c st t status cls cnt fin) := by
  unfold Machine.abortTask
  exact (((h.tagExtents ..).logStream ..).putTask ..).queueRecord ..

theorem MpKept.stopTask (c : CoreId) (st : Nat) : MpKept z (stopTask s c st) := by
  unfold Machine.stopTask
  split
  · exact h
  · exact ((h.drawFree.drawFree.cutTask ..).abortTask ..).putCore ..

theorem MpKept.stopTasks (c : CoreId) : MpKept z (stopTasks s c) := mpKept_foldl (fun _ _ ht => ht.stopTask ..) _ h

theorem MpKept.mxeStreamStop (c : CoreId) (st cls : Nat) : MpKept z (mxeStreamStop s c st cls) := h.putCore ..

theorem MpKept.stopHandoffs (c : CoreId) : MpKept z (stopHandoffs s c) :=
  mpKept_foldl (fun _ _ ht => ht.ite (ht.mxeStreamStop ..)) _ h

theorem MpKept.mxeStop (c : CoreId) (why : Status) : MpKept z (mxeStop s c why) := h.putCore ..

theorem MpKept.writeSctl (c : CoreId) (v : W64) : MpKept z (writeSctl s c v) := by
  unfold Machine.writeSctl
  refine MpKept.settleCore (mpKept_foldl (fun u st hu => ?_) _ (h.putCore ..)) c
  exact (hu.stopTask c st).ite ((hu.stopTask c st).mxeStreamStop ..)

theorem MpKept.resetStreams (c : CoreId) : MpKept z (resetStreams s c) := by
  unfold Machine.resetStreams
  refine MpKept.settleCore (MpKept.putCore ?_ ..) c
  exact h.same rfl rfl

/-! The engines of a core, the update units and the exchanges of a slice. -/

theorem MpKept.beginAbort (c : CoreId) (e : EngId) (cause : Status) (cls : Nat) (at_ : Option (Bool × BitVec 11)) :
    MpKept z (beginAbort s c e cause cls at_) := by
  have hops {u : State} (hu : MpKept z u) (l : List FeOp) : MpKept z { u with feOps := l } := hu.same rfl rfl
  have hcancel {u : State} (hu : MpKept z u) : MpKept z ((getCore u c).insts.foldl (fun s i =>
      match i.prog with
      | .mxe _ => if i.eng == e && i.finished then Machine.cancelInst s c i (stCode cause) else s
      | _ => if i.eng == e then Machine.cancelInst s c i (stCode cause) else s) u) := by
    refine mpKept_foldl (fun v i hv => ?_) _ hu
    split
    · exact hv.ite (hv.cancelInst ..)
    · exact hv.ite (hv.cancelInst ..)
  have htasks {u : State} (hu : MpKept z u) : MpKept z (if e = .dxe then Machine.stopTasks (Machine.stopHandoffs u c) c else u) :=
    hu.ite ((hu.stopHandoffs c).stopTasks c)
  have hmxe {u : State} (hu : MpKept z u) : MpKept z (if e = .mxe then Machine.mxeStop u c cause else u) := hu.ite (hu.mxeStop ..)
  unfold Machine.beginAbort
  dsimp only
  split
  · exact h
  · exact (hmxe (hcancel (htasks (((hops ((h.keepAccepted c e).putEng ..) _).putCore ..).cutFlight c e)))).putEng ..

theorem MpKept.abortCore (c : CoreId) : MpKept z (abortCore s c) := by
  unfold Machine.abortCore
  exact ((mpKept_foldl (fun _ _ ht => ht.beginAbort ..) _ h).writeSctl ..).resetStreams c

theorem MpKept.fillDone (n : N20) (a : Nat) (st : Status) : MpKept z (fillDone s n a st) := by
  unfold Machine.fillDone
  dsimp only
  split
  · exact h.same rfl rfl
  · exact h

theorem MpKept.endProg (n : N20) (st : Status) : MpKept z (endProg s n st) := by
  unfold Machine.endProg
  dsimp only
  split
  · exact h
  · exact h.fillDone ..

theorem MpKept.tagProgram (n : N20) (p : UProg) : MpKept z (tagProgram s n p) := mpKept_foldl (fun _ _ ht => ht.tagRange ..) _ h

theorem MpKept.abortBuu (n : N20) : MpKept z (abortBuu s n) := by
  have hprog (p : UProg) (P : Prop) [Decidable P] : MpKept z (if P then Machine.endProg (Machine.tagProgram s n p) n .aborted else s) :=
    h.ite ((h.tagProgram n p).endProg ..)
  have hput {u : State} (hu : MpKept z u) (l : List FeOp) (b : Buu) : MpKept z (putBuu { u with feOps := l } n b) := hu.same rfl rfl
  have hfab {u : State} (hu : MpKept z u) (f : Tab FabSlice) : MpKept z { u with fab := f } := hu.same rfl rfl
  unfold Machine.abortBuu
  dsimp only
  refine MpKept.logEv ?_ ..
  split
  · exact hfab (hput (hprog _ _) ..) _
  · exact hput (hprog _ _) ..

theorem MpKept.dropExch (n : N20) : MpKept z (dropExch s n) := h.same rfl rfl

theorem MpKept.dropExchOps (n : N20) : MpKept z (dropExchOps s n) := h.same rfl rfl

/-- All that runs for a slice aborted: the packets and the slices' states stay, and its clutch is invalid. -/
theorem MpKept.abortSlice (n : N20) : MpKept z (abortSlice s n) := by
  have hcores : MpKept z ((sliceCores s n).foldl Machine.abortCore s) := mpKept_foldl (fun _ c ht => ht.abortCore c) _ h
  unfold Machine.abortSlice
  exact (((mpKept_foldl (fun _ k ht => ht.abortBuu k) _ hcores).dropExch n).dropExchOps n).rsetf (by simp) 31 31 0

end Aborts

theorem clutchOn_abortSlice (s : State) (n : N20) : clutchOn (abortSlice s n) n = false := rbit_rsetf_self _ _ 0 (by decide)

end Sys2Proof.Machine

namespace Sys2Proof.Machine

/-! CLOSE_SLICE begins (R175, R393, R394). -/

/-- What ending the other packets of a slice leaves: the registers, the slices' states, the rings and packet id. -/
structure OthersEnded (id : Nat) (s u : State) : Prop where
  fregs : ∀ f r, (∀ q, r ≠ .cqdb q) → fget u f r = fget s f r
  regs : ∀ r, (∀ n, r ≠ .sliceState n) → rget u r = rget s r
  state : ∀ n, sliceState u n = sliceState s n
  packet : getTaken u id = getTaken s id

theorem OthersEnded.trans {id : Nat} {s t u : State} (h : OthersEnded id s t) (k : OthersEnded id t u) : OthersEnded id s u :=
  ⟨fun f r hr => (k.fregs f r hr).trans (h.fregs f r hr), fun r hr => (k.regs r hr).trans (h.regs r hr),
    fun n => (k.state n).trans (h.state n), k.packet.trans h.packet⟩

theorem othersEnded_finishAs {id : Nat} (s : State) {t : Taken} (hid : t.id ≠ id) (st : Status) (form done total ev : Nat) :
    OthersEnded id s (finishAs s t st form done total ev) := by
  have hdone := replied_finishAs s t st form done total ev
  refine ⟨hdone.fregs, hdone.regs, hdone.state, ?_⟩
  rw [getTaken, finishAs_taken, List.find?_filter]
  refine congrArg (s.mp.taken.find? ·) (funext fun y => ?_)
  by_cases h : y.id = id
  · simp [h, Ne.symm hid]
  · simp [h]

theorem othersEnded_endTaken (s : State) (n : N20) (e id : Nat) : OthersEnded id s (endTaken s n e (some id)) := by
  unfold endTaken
  dsimp only
  refine List.foldlRecOn (motive := OthersEnded id s) _ _ ⟨fun _ _ _ => rfl, fun _ _ => rfl, fun _ => rfl, rfl⟩ fun u hu t ht => ?_
  have hid : t.id ≠ id := by
    have := (List.mem_filter.1 ht).2
    simp only [Bool.and_eq_true, bne_iff_ne, ne_eq, Option.some.injEq] at this
    exact this.2
  exact hu.trans (othersEnded_finishAs u hid ..)

theorem ringOn_fsetf (s : State) (f : FuncId) (r q : Fin 4) : ringOn (fsetf s f (.ringCtl q) 0 0 0) f r = (decide (r ≠ q) && ringOn s f r) := by
  by_cases h : r = q
  · subst h
    have hzero : ffld (fsetf s f (.ringCtl r) 0 0 0) f (.ringCtl r) 0 0 = 0 := by
      rw [ffld, fsetf, fget_fput, bits_putBits_self _ _ (by decide), Nat.zero_mod]
    simp [ringOn, hzero]
  · have hne : (Reg.ringCtl r) ≠ .ringCtl q := by simpa using h
    simp [ringOn, ffld, fget_fsetf_of_ne s f f 0 0 0 hne, h]

theorem ringOn_stopVfRings (s : State) (n : N20) (r : Fin 4) : ringOn (stopVfRings s n) (sliceFunc n) r = false := by
  unfold stopVfRings
  refine foldl_reaches (P := fun _ => True) (Q := fun t => ringOn t (sliceFunc n) r = false) (List.mem_finRange r) (fun _ _ _ _ => trivial)
    (fun t _ => ?_) (fun t q _ ht => ?_) trivial
  · simp [ringOn_fsetf]
  · simp [ringOn_fsetf, ht]

theorem stopVfRings_rest (s : State) (n : N20) : stopVfRings s n = { s with fregs := (stopVfRings s n).fregs } := by
  unfold stopVfRings
  refine List.foldlRecOn (motive := fun t : State => t = { s with fregs := t.fregs }) _ _ rfl fun t ht r _ => ?_
  rw [ht]
  rfl

theorem getTaken_putTaken {s : State} {id : Nat} {t : Taken} (h : getTaken s id = some t) :
    getTaken (putTaken s { t with begun := true }) id = some { t with begun := true } := by
  have hid := getTaken_id h
  have hsame : ((fun y : Taken => y.id == id) ∘ fun y => if y.id == t.id then { t with begun := true } else y) = fun y => y.id == id := by
    funext y
    by_cases hy : y.id = t.id
    · simp [hy]
    · simp [hy]
  rw [getTaken, putTaken]
  simp only [List.find?_map]
  rw [hsame, show s.mp.taken.find? (fun y => y.id == id) = some t from h]
  simp

theorem exec_closeSlice {s : State} {id : Nat} {t : Taken} {n : N20} (h : TurnCome s id opClose t) (hn : pkSl t.bytes = some n) :
    ∃ u, exec (.closeSlice id) s = .next u ∧ sliceState u n = 5 ∧ clutchOn u n = false ∧
      tget u.mp.scrub none n.val = some (.packet t.id) ∧ getTaken u id = some { t with begun := true } ∧ ∀ r, ringOn u (sliceFunc n) r = false := by
  let z := putTaken s { t with begun := true }
  refine ⟨_, congrArg Host.Outcome.next (runOnSlice_turn h hn _), ?_⟩
  have hid : t.id = id := getTaken_id h.taken
  have hpacket : getTaken z id = some { t with begun := true } := getTaken_putTaken h.taken
  have hclosing : sliceState (setSliceState z n 5) n = 5 := sliceState_setSliceState z n (by decide)
  have habort : MpKept (setSliceState z n 5) (abortSlice (setSliceState z n 5) n) := (MpKept.refl _).abortSlice n
  have hclutch := clutchOn_abortSlice (setSliceState z n 5) n
  unfold beginClose
  dsimp only
  generalize abortSlice (setSliceState z n 5) n = x at habort hclutch
  have hrings := ringOn_stopVfRings x n
  have hrest := stopVfRings_rest x n
  generalize stopVfRings x n = y at hrings hrest
  have hended := othersEnded_endTaken y n 0 t.id
  have hregs : y.regs = x.regs := (congrArg State.regs hrest :)
  have hmp : y.mp = z.mp := (congrArg State.mp hrest :).trans habort.mp
  refine ⟨?_, ?_, scrub_beginScrub _ n _, ?_, fun r => ?_⟩
  · rw [← hclosing]
    exact (hended.state n).trans ((rfld_congr (rget_congr hregs _) 63 60).trans (rfld_congr (habort.state n) 63 60))
  · rw [← hclutch]
    exact congrArg (bit · 31) ((hended.regs _ (by simp)).trans (rget_congr hregs _))
  · rw [← hpacket, ← hid]
    exact hended.packet.trans (congrArg (fun m : Mp => m.taken.find? fun y : Taken => y.id == t.id) hmp)
  · rw [← hrings r]
    exact congrArg (fun v : W64 => bits v 0 0 == 1) (hended.fregs (sliceFunc n) (.ringCtl r) (by simp))

/-- Settles O45: a packet ends at once or leaves a scrub under way, which the scrub's end then completes. CLOSE_SLICE aborts all that runs for the
slice, which touches neither the packets nor the slices' states. -/
theorem sliceCommandsCompleteAndScrub : Obligations.SliceCommandsCompleteAndScrub := by
  intro s id t hc hm
  refine ⟨fun h => exec_ping hc hm h, fun n hn => ⟨fun h => exec_querySlice hc hm h hn, fun _ => exec_openSlice_meets,
    fun h hmeets => exec_openSlice h hn hmeets, fun h => exec_closeSlice h hn, fun h hforce =>
      ⟨exec_scrubSlice_idle h hn hforce, exec_scrubSlice_running hc hm h hn hforce⟩,
    fun j m q off hscrub hslice hplace hlen hfit hup hopen => exec_memoryRequest_rekeying hscrub hslice hplace hlen hfit hup hopen,
    exec_sliceScrubComplete_recal, fun hrecal hwhy hheld ht _ hop => exec_sliceScrubComplete hc hm hrecal hwhy hheld ht hop⟩⟩

end Sys2Proof.Machine
